-- ==== Sys2Proof/Word.lean ====
section
/-! DEFINITION. The word types of the Ouvzel X6 and the sparse tables in which its memories, tiles and accumulators
are held. -/

namespace Sys2Proof

/-- One byte (R5). -/
abbrev Byte := BitVec 8
/-- A 32-bit register, instruction word or literal (R129, R143). -/
abbrev Word := BitVec 32
/-- A 64-bit address, argument register or register pair (R21, R51). -/
abbrev DWord := BitVec 64
/-- A canonical template (R151). -/
abbrev Template := BitVec 128

/-- A sparse table: pairs of an index and a value, indices strictly rising, no value 0; an index not listed reads 0. -/
abbrev Cells (w : Nat) := List (Nat × BitVec w)

/-- Memory bytes by physical address, in the canonical form of `Cells`. -/
abbrev Mem := List Host.Cell

end Sys2Proof
end

