-- ==== Sys2Proof/Syntax.lean ====
section
/-! DEFINITION. The instructions and steps of the Ouvzel X6: one constructor for each row of spec/opcode_table.json.
An instruction of a lane carries its template's fields and its word's hole fields; a step of the device, of the host or
of firmware carries what the manual lets the outside or the device choose. -/

namespace Sys2Proof

/-- The types of the TY field (R51); the last three are reserved. -/
inductive Ty where
  | b32 | n32 | i32 | n64 | i64 | f32 | f16x2 | bf16x2 | oz8x4 | n8x4 | i8x4 | n16x2 | i16x2 | resD | resE | resF
  deriving DecidableEq, Repr

/-- The rounding modes of MOD[2:0] (R57); the last two are reserved. -/
inductive Rm where
  | rne | rtz | rup | rdn | rna | sr | res6 | res7
  deriving DecidableEq, Repr

/-- The scopes of the SC field (R151); the last faults with ILL_SCOPE where it is read. -/
inductive Scope where
  | lane | warp | workgroup | cluster | die | device | system | res7
  deriving DecidableEq, Repr

/-- The HINT field (R151). -/
inductive Hint where
  | none | likely | unlikely | uniform
  deriving DecidableEq, Repr

/-- The IMMSRC field (R136): template IMM, the literal, FA:FB or FB. -/
inductive ImmSrc where
  | template | literal | faFb | fb
  deriving DecidableEq, Repr

/-- The class of a template slot (R152). -/
inductive Cls where
  | none | vector | uniform | predicate | tile | accumulator | convergence | immediate
  deriving DecidableEq, Repr

/-- Where a slot's number comes from (R152). -/
inductive Hole where
  | fixed | fd | fa | fb
  deriving DecidableEq, Repr

/-- One slot of a template (R152). -/
structure Slot where
  cls  : Cls
  hole : Hole
  lu   : Bool
  num  : BitVec 10
  deriving DecidableEq, Repr

/-- The empty slot (CLS 0). -/
def Slot.none : Slot := { cls := .none, hole := .fixed, lu := false, num := 0 }

/-- What a word and its template say beside the major opcode: the word's fields (R129), the template's (R151) and the
literal word that follows when IMMSRC is 1 (R136). -/
structure Form where
  dix    : BitVec 10
  nwb    : Bool
  fd     : BitVec 7
  fa     : BitVec 7
  fb     : BitVec 7
  m2     : BitVec 2      -- MOD[5:4]
  sat    : Bool          -- MOD[3]
  rm     : Rm            -- MOD[2:0]
  ty     : Ty
  sc     : Scope
  hint   : Hint
  immsrc : ImmSrc
  pgn    : Bool
  pg     : BitVec 3
  b96    : Bool
  d      : Slot
  a      : Slot
  b      : Slot
  c      : Slot
  imm    : Word          -- template bits [31:0]
  lit    : Word          -- the word at PC + 4 when IMMSRC is 1, else 0
  deriving DecidableEq, Repr

/-- A lane: its workgroup (the model's number of it), its home WARPID and its home LANEID (R74). -/
structure LaneRef where
  wg   : Nat
  warp : Nat
  lane : Nat
  deriving DecidableEq, Repr

/-- An issue group, by its number: of a home warp, or of the reformed group in a group slot of a core (R78, R91). -/
inductive GroupRef where
  | home (wg warp gid : Nat)
  | reformed (core slot gid : Nat)
  deriving DecidableEq, Repr

/-- The pane and the pipe the device chooses for a warp (R101). -/
structure Place where
  pane : Nat
  pipe : Nat
  deriving DecidableEq, Repr

/-- One boot stage as the flash holds it: image, public key (x then y, 32 bytes each) and the two halves of its
signature (R35, log 10). -/
structure BootStage where
  image : List Byte
  key   : List Byte
  sigR  : Nat
  sigS  : Nat
  deriving DecidableEq, Repr

/-- What the boot ROM reads: stage 1 and stage 2, and the signature under the fused key of the key that stage 1
carries for stage 2 (R35, log 10). -/
structure BootInput where
  stage1  : BootStage
  stage2  : BootStage
  keySigR : Nat
  keySigS : Nat
  deriving DecidableEq, Repr

/-- A frame at one of the two ports (R32): the device at its other end, whether it is IPv6 carrying UDP, its UDP
destination port, and the bytes UDP carries: the transfer header of R33, then the payload. -/
structure EthFrame where
  port    : Nat
  node    : Nat
  ipv6Udp : Bool
  dstPort : Nat
  bytes   : List Byte
  deriving DecidableEq, Repr

/-- A flow that this device sends to a node: of its own frames, or of the read data that it answers with (R34). -/
structure FlowKey where
  flow : Nat
  node : Nat
  data : Bool
  deriving DecidableEq, Repr

/-- The host's answer to an event of FUNCTION 0 to 5 (R386): go on, fail, or go on with the address it names. -/
inductive Answer where
  | resume
  | fail
  | address (a : DWord)
  deriving DecidableEq, Repr

/-- The affinity an allocation names (R126). -/
inductive Affinity where
  | none
  | die (d : Nat)
  | cluster (c : Nat)
  | stack (s : Nat)
  | object (handle : Word)
  deriving DecidableEq, Repr

/-- An allocation request (R126, R127): the virtual base, the size in bytes, the page size, the attributes, the
affinity, the co-placement key (0 for none) and the physical base the device gives each page in turn (log 7). -/
structure AllocRequest where
  va       : Nat
  size     : Nat
  pageSize : Nat
  r        : Bool
  w        : Bool
  x        : Bool
  host     : Bool
  affinity : Affinity
  key      : Nat
  phys     : List Nat
  deriving DecidableEq, Repr

/-- A mapping change (R120): the virtual range, and either its unmapping or the new pages with their attributes. -/
structure MapRequest where
  va       : Nat
  size     : Nat
  unmap    : Bool
  pageSize : Nat
  r        : Bool
  w        : Bool
  x        : Bool
  host     : Bool
  key      : Nat
  phys     : List Nat
  deriving DecidableEq, Repr

/-- The instructions and steps, in the order of the opcode table. -/
inductive Instr where
  /-- NOP (R159). -/
  | nop (f : Form)
  /-- EXIT (R320). -/
  | exit (f : Form)
  /-- DFENCE (R163). -/
  | dfence (f : Form)
  /-- DICTSW (R163). -/
  | dictsw (f : Form)
  /-- YIELD (R328). -/
  | yield (f : Form)
  /-- BKPT (R326). -/
  | bkpt (f : Form)
  /-- BRA_UNIFORM (R309). -/
  | braUniform (f : Form)
  /-- TRAP (R326). -/
  | trap (f : Form)
  /-- RTE (R327). -/
  | rte (f : Form)
  /-- RET (R315). -/
  | ret (f : Form)
  /-- SREAD (R333). -/
  | sread (f : Form)
  /-- SWRITE (R333). -/
  | swrite (f : Form)
  /-- SWRITE_TRAPPC (R327). -/
  | swriteTrappc (f : Form)
  /-- SWRITE_SRSEED (R68). -/
  | swriteSrseed (f : Form)
  /-- SWRITE_TRAPDICT (R167). -/
  | swriteTrapdict (f : Form)
  /-- SWRITE_CEXCTL (R488). -/
  | swriteCexctl (f : Form)
  /-- SWRITE_PCMP (R475). -/
  | swritePcmp (f : Form)
  /-- DICTLD (R157). -/
  | dictld (f : Form)
  /-- WAITC (R329). -/
  | waitc (f : Form)
  /-- VOTE_ACTIVE (R322). -/
  | voteActive (f : Form)
  /-- VOTE (R322). -/
  | vote (f : Form)
  /-- BRA (R310). -/
  | bra (f : Form)
  /-- BRX (R310). -/
  | brx (f : Form)
  /-- CALL (R314). -/
  | call (f : Form)
  /-- CALLX (R314). -/
  | callx (f : Form)
  /-- JOIN (R318). -/
  | join (f : Form)
  /-- REFORM (R319). -/
  | reform (f : Form)
  /-- REFORM_HOME (R93). -/
  | reformHome (f : Form)
  /-- WINDOW (R323). -/
  | window (f : Form)
  /-- SLEEP (R330). -/
  | sleep (f : Form)
  /-- ELECT (R321). -/
  | elect (f : Form)
  /-- LAUNCH (R335). -/
  | launch (f : Form)
  /-- IADD (R199). -/
  | iadd (f : Form)
  /-- ISUB (R199). -/
  | isub (f : Form)
  /-- IMUL (R199). -/
  | imul (f : Form)
  /-- IMULH (R199). -/
  | imulh (f : Form)
  /-- IMAD (R199). -/
  | imad (f : Form)
  /-- ISHA (R199). -/
  | isha (f : Form)
  /-- IMIN (R199). -/
  | imin (f : Form)
  /-- IMAX (R199). -/
  | imax (f : Form)
  /-- IABS (R199). -/
  | iabs (f : Form)
  /-- AND (R199). -/
  | and (f : Form)
  /-- OR (R199). -/
  | or (f : Form)
  /-- XOR (R199). -/
  | xor (f : Form)
  /-- SHL (R199). -/
  | shl (f : Form)
  /-- SHR (R199). -/
  | shr (f : Form)
  /-- ROTL (R199). -/
  | rotl (f : Form)
  /-- BFX (R200). -/
  | bfx (f : Form)
  /-- BFI (R200). -/
  | bfi (f : Form)
  /-- POPC (R199). -/
  | popc (f : Form)
  /-- CLZ (R199). -/
  | clz (f : Form)
  /-- BREV (R199). -/
  | brev (f : Form)
  /-- ISETP (R202). -/
  | isetp (f : Form)
  /-- SEL (R202). -/
  | sel (f : Form)
  /-- MOV (R203). -/
  | mov (f : Form)
  /-- MOVI (R203). -/
  | movi (f : Form)
  /-- BSEL (R201). -/
  | bsel (f : Form)
  /-- PSET (R202). -/
  | pset (f : Form)
  /-- RDLANE (R204). -/
  | rdlane (f : Form)
  /-- BCAST (R204). -/
  | bcast (f : Form)
  /-- FADD (R207). -/
  | fadd (f : Form)
  /-- FMUL (R207). -/
  | fmul (f : Form)
  /-- FFMA (R207). -/
  | ffma (f : Form)
  /-- FMIN (R207). -/
  | fmin (f : Form)
  /-- FMAX (R207). -/
  | fmax (f : Form)
  /-- FSETP (R208). -/
  | fsetp (f : Form)
  /-- FSCL (R209). -/
  | fscl (f : Form)
  /-- RCP (R211). -/
  | rcp (f : Form)
  /-- RSQ (R211). -/
  | rsq (f : Form)
  /-- SQRT (R211). -/
  | sqrt (f : Form)
  /-- EXP2 (R211). -/
  | exp2 (f : Form)
  /-- LOG2 (R211). -/
  | log2 (f : Form)
  /-- SIN (R211). -/
  | sin (f : Form)
  /-- COS (R211). -/
  | cos (f : Form)
  /-- TANH (R211). -/
  | tanh (f : Form)
  /-- FRC (R210). -/
  | frc (f : Form)
  /-- FRND (R210). -/
  | frnd (f : Form)
  /-- CVT (R214). -/
  | cvt (f : Form)
  /-- F2I (R216). -/
  | f2i (f : Form)
  /-- I2F (R217). -/
  | i2f (f : Form)
  /-- FCLASS (R218). -/
  | fclass (f : Form)
  /-- DOT4 (R219). -/
  | dot4 (f : Form)
  /-- QXH (R222). -/
  | qxh (f : Form)
  /-- QXV (R222). -/
  | qxv (f : Form)
  /-- QXD (R222). -/
  | qxd (f : Form)
  /-- QBC (R222). -/
  | qbc (f : Form)
  /-- DDX (R222). -/
  | ddx (f : Form)
  /-- DDY (R222). -/
  | ddy (f : Form)
  /-- LXCH (R224). -/
  | lxch (f : Form)
  /-- REDW (R225). -/
  | redw (f : Form)
  /-- SCANW (R225). -/
  | scanw (f : Form)
  /-- MATCH (R226). -/
  | matchw (f : Form)
  /-- LD (R234). -/
  | ld (f : Form)
  /-- ST (R234). -/
  | st (f : Form)
  /-- LDV (R239). -/
  | ldv (f : Form)
  /-- STV (R239). -/
  | stv (f : Form)
  /-- LDS (R235). -/
  | lds (f : Form)
  /-- PREF (R236). -/
  | pref (f : Form)
  /-- ATOM (R242). -/
  | atom (f : Form)
  /-- ATOMV (R242). -/
  | atomv (f : Form)
  /-- CAS (R242). -/
  | cas (f : Form)
  /-- RED (R242). -/
  | red (f : Form)
  /-- REDV (R242). -/
  | redv (f : Form)
  /-- FENCE (R247). -/
  | fence (f : Form)
  /-- LINE_PROBE (R237). -/
  | lineProbe (f : Form)
  /-- LINE_ZERO (R237). -/
  | lineZero (f : Form)
  /-- WAITW (R245). -/
  | waitw (f : Form)
  /-- SWARM (R265). -/
  | swarm (f : Form)
  /-- SWWAIT (R267). -/
  | swwait (f : Form)
  /-- TEX (R251). -/
  | tex (f : Form)
  /-- TLD (R252). -/
  | tld (f : Form)
  /-- BARA (R254). -/
  | bara (f : Form)
  /-- BARW (R256). -/
  | barw (f : Form)
  /-- BARS (R256). -/
  | bars (f : Form)
  /-- JSET (R259). -/
  | jset (f : Form)
  /-- JSIGN (R261). -/
  | jsign (f : Form)
  /-- CONVERGENCE_OP_COMPLETE (R95). -/
  | convergenceOpComplete (wg j : Nat)
  /-- JWAIT (R262). -/
  | jwait (f : Form)
  /-- WLOAD (R355). -/
  | wload (f : Form)
  /-- MMA (R358). -/
  | mma (f : Form)
  /-- MMG (R361). -/
  | mmg (f : Form)
  /-- TLDT (R364). -/
  | tldt (f : Form)
  /-- TSTT (R364). -/
  | tstt (f : Form)
  /-- TMOV (R365). -/
  | tmov (f : Form)
  /-- TCVT (R368). -/
  | tcvt (f : Form)
  /-- TSCL (R366). -/
  | tscl (f : Form)
  /-- ACZ (R370). -/
  | acz (f : Form)
  /-- ACRD (R371). -/
  | acrd (f : Form)
  /-- ACWR (R371). -/
  | acwr (f : Form)
  /-- ACST (R372). -/
  | acst (f : Form)
  /-- POST (R425). -/
  | post (f : Form)
  /-- TSAMP (R427). -/
  | tsamp (f : Form)
  /-- OCALL (R443). -/
  | ocall (f : Form)
  /-- OREAD (R444). -/
  | oread (f : Form)
  /-- SLD (R422). -/
  | sld (f : Form)
  /-- SST (R422). -/
  | sst (f : Form)
  /-- MARG (R423). -/
  | marg (f : Form)
  /-- MRET (R441). -/
  | mret (f : Form)
  /-- MTRAP (R441). -/
  | mtrap (f : Form)
  /-- OSTAT (R446). -/
  | ostat (f : Form)
  /-- CTXSV (R337). -/
  | ctxsv (f : Form)
  /-- CTXRS (R337). -/
  | ctxrs (f : Form)
  /-- TLBI (R338). -/
  | tlbi (f : Form)
  /-- DICTRD (R339). -/
  | dictrd (f : Form)
  /-- LANEX (R340). -/
  | lanex (f : Form)
  /-- PARKR (R341). -/
  | parkr (f : Form)
  /-- HATCH_ARG_STORE (R269). -/
  | hatchArgStore (wg warp : Nat)
  /-- COPY_LINEAR (R275). -/
  | copyLinear (wg warp : Nat)
  /-- COPY_STRIDED (R275). -/
  | copyStrided (wg warp : Nat)
  /-- COPY_FILL (R275). -/
  | copyFill (wg warp : Nat)
  /-- NM_LOAD (R463). -/
  | nmLoad (wg warp : Nat)
  /-- NM_RUN (R464). -/
  | nmRun (wg warp : Nat)
  /-- DRAW (R406). -/
  | draw (wg warp : Nat)
  /-- INVOKE (R429). -/
  | invoke (wg warp : Nat)
  /-- READOUT (R430). -/
  | readout (wg warp : Nat)
  /-- QUEUE_PUSH (R456). -/
  | queuePush (wg warp : Nat)
  /-- GO_ACCEPT (R272). -/
  | goAccept (wg warp engine : Nat)
  /-- COPY_PORTION_LAND (R277). -/
  | copyPortionLand (cmd portion : Nat)
  /-- COMPLETION_REGISTER_WRITE (R274). -/
  | completionRegisterWrite (wg warp gid : Nat)
  /-- NM_LOAD_PART (R463). -/
  | nmLoadPart (cmd stack : Nat) (bad : Bool)
  /-- NM_WAVE (R466). -/
  | nmWave (cmd stack : Nat) (chunks : List Nat) (failing : List (Nat × Nat))
  /-- ORDER_TOKEN_ISSUE (R415). -/
  | orderTokenIssue (cmd tri tx ty : Nat)
  /-- FRAGMENT_APPLY (R417). -/
  | fragmentApply (ctx target frag : Nat)
  /-- INVOKE_APPLY (R429). -/
  | invokeApply (cmd x y : Nat)
  /-- WORKGROUP_ADMISSION (R101). -/
  | workgroupAdmission (launch core sbase : Nat) (places : List Place)
  /-- GANG_RESERVATION (R102). -/
  | gangReservation (launch gang core sbase : Nat) (places : List Place)
  /-- GANG_AGED (R103). -/
  | gangAged (launch gang : Nat)
  /-- BIN_DRAW (R91). -/
  | binDraw (core bin slot : Nat) (place : Place)
  /-- LOAD_DATA_LAND (R145). -/
  | loadDataLand (access : Nat)
  /-- TRANSLATION_COMPLETE (R119). -/
  | translationComplete (core ctx va : Nat)
  /-- PAGE_ZEROING_COMPLETE (R124). -/
  | pageZeroingComplete (ctx va : Nat)
  /-- WRITE_QUEUE_APPLY (R128). -/
  | writeQueueApply (line : Nat)
  /-- DICT_SLOT_LOAD (R158). -/
  | dictSlotLoad (core phys : Nat) (unreadable : List Nat)
  /-- WAITW_REREAD (R245). -/
  | waitwReread (lane : LaneRef)
  /-- SYNC_EXTWAIT (R246). -/
  | syncExtwait (lane : LaneRef)
  /-- SLEEP_EXPIRY (R330). -/
  | sleepExpiry (wg warp gid : Nat)
  /-- HANDLER_ENTRY (R381). -/
  | handlerEntry (wg : Nat)
  /-- HANG_DETECTED (R388). -/
  | hangDetected (ctx : Nat)
  /-- EVENT_RETIRE (R386). -/
  | eventRetire (ctx seq : Nat)
  /-- HOST_EVENT_ANSWER (R43). -/
  | hostEventAnswer (ctx seq : Nat) (answer : Answer)
  /-- PREEMPT_REQUEST (R389). -/
  | preemptRequest (ctx : Nat)
  /-- COOPERATIVE_SAVE (R390). -/
  | cooperativeSave (launch gang : Nat)
  /-- PRE_FORCED (R390). -/
  | preForced (launch gang : Nat)
  /-- CONTEXT_SAVE_COMPLETE (R392). -/
  | contextSaveComplete (ctx : Nat)
  /-- REPLAY_APPLY (R438). -/
  | replayApply (ctx obj die : Nat) (badLog : Bool)
  /-- REPLICA_REBUILD (R451). -/
  | replicaRebuild (ctx obj die source : Nat)
  /-- CORE_UE (R45). -/
  | coreUe (core : Nat)
  /-- VAULT_LINE_UE (R45). -/
  | vaultLineUe (vault line : Nat)
  /-- HBM_CHUNK_UE (R45). -/
  | hbmChunkUe (stack chunk : Nat)
  /-- DICT_SLOT_UE (R169). -/
  | dictSlotUe (core phys : Nat)
  /-- REPLICA_UE (R451). -/
  | replicaUe (ctx obj die : Nat)
  /-- BMU_FAULT (R431). -/
  | bmuFault (vault bank : Nat)
  /-- MACHINE_CHECK (R374). -/
  | machineCheck (isFabric : Bool)
  /-- CLOCK_THROTTLE (R12). -/
  | clockThrottle (aclk vclk banks : Nat)
  /-- CEX_REMAIN_TICK (R488). -/
  | cexRemainTick (ctx : Nat)
  /-- HOST_QUEUE_PUSH (R29). -/
  | hostQueuePush (ctx : Nat) (go : DWord)
  /-- HOST_GO_ACCEPT (R29). -/
  | hostGoAccept (ctx : Nat)
  /-- ATTACH (R480). -/
  | attach (a0 a1 a2 : DWord)
  /-- DETACH (R482). -/
  | detach (a0 : DWord)
  /-- HALT (R481). -/
  | halt (a0 a1 : DWord)
  /-- RESUME (R482). -/
  | resume (a0 a1 : DWord)
  /-- STEP (R482). -/
  | step (a0 a1 : DWord)
  /-- SNAPSHOT (R483). -/
  | snapshot (a0 a1 a2 : DWord)
  /-- DICT (R484). -/
  | dict (a0 a2 : DWord)
  /-- TRACE (R485). -/
  | trace (a0 a1 a2 : DWord)
  /-- DRESET (R27). -/
  | dreset (v : DWord)
  /-- REGISTER_WRITE (R27). -/
  | registerWrite (off : Nat) (v : DWord)
  /-- HOST_BAR2_READ (R31). -/
  | hostBar2Read (off len : Nat)
  /-- HOST_BAR2_WRITE (R31). -/
  | hostBar2Write (off : Nat) (bytes : List Byte)
  /-- RESET (R35). -/
  | reset (boot : BootInput)
  /-- ATTESTATION_REPORT (R36). -/
  | attestationReport (nonce : List Byte)
  /-- ETH_WRITE_FRAME (R34). -/
  | ethWriteFrame (frame : EthFrame)
  /-- ETH_READ_REQUEST (R33). -/
  | ethReadRequest (frame : EthFrame)
  /-- ETH_READ_DATA (R33). -/
  | ethReadData (frame : EthFrame)
  /-- ETH_ACKNOWLEDGE (R34). -/
  | ethAcknowledge (frame : EthFrame)
  /-- ETH_FRAME_DISCARD (R32). -/
  | ethFrameDiscard (frame : EthFrame)
  /-- RESEND_TIMEOUT (R34). -/
  | resendTimeout (flow : FlowKey)
  /-- CONTEXT_CREATE (R493). -/
  | contextCreate (ctx bankKey : Nat)
  /-- CONTEXT_MAKE_RESIDENT (R493). -/
  | contextMakeResident (ctx : Nat)
  /-- CONTEXT_DESTROY (R50). -/
  | contextDestroy (ctx : Nat)
  /-- MODE_WRITE (R42). -/
  | modeWrite (ctx : Nat) (v : Word)
  /-- OBJECT_CREATE (R50). -/
  | objectCreate (ctx kind : Nat) (desc : DWord) (places : List Nat) (home : Nat)
  /-- OBJECT_DESTROY (R50). -/
  | objectDestroy (ctx : Nat) (handle : Word)
  /-- ALLOCATE (R126). -/
  | allocate (ctx : Nat) (req : AllocRequest)
  /-- MAPPING_CHANGE (R120). -/
  | mappingChange (ctx : Nat) (req : MapRequest)
  /-- AGE_LIMIT_SET (R103). -/
  | ageLimitSet (ctx v : Nat)
  /-- EXTWAIT_SET (R246). -/
  | extwaitSet (ctx v : Nat)
  /-- HANGLIMIT_SET (R387). -/
  | hanglimitSet (ctx v : Nat)
  /-- TRAP_CONFIG_SET (R167). -/
  | trapConfigSet (ctx : Nat) (base : DWord) (slot : BitVec 2) (img : DWord)
  /-- BANK_KEY_READ (R115). -/
  | bankKeyRead (ctx : Nat)
  /-- EVENT_AREA_REGISTER (R386). -/
  | eventAreaRegister (ctx : Nat) (addr : DWord)
  /-- HANG_AREA_REGISTER (R388). -/
  | hangAreaRegister (ctx : Nat) (addr : DWord)
  /-- WRITE_PERFORM (R288). -/
  | writePerform (access : Nat)
  /-- MAPPING_CHANGE_COMPLETE (R120). -/
  | mappingChangeComplete (change : Nat)
  /-- RESTORE_COMPLETE (R337). -/
  | restoreComplete (ctx : Nat)
  deriving DecidableEq, Repr

/-- The template fields a lane's instruction carries; none for a step of the device, the host or firmware. -/
def Instr.form? : Instr → Option Form
  | .nop f => some f
  | .exit f => some f
  | .dfence f => some f
  | .dictsw f => some f
  | .yield f => some f
  | .bkpt f => some f
  | .braUniform f => some f
  | .trap f => some f
  | .rte f => some f
  | .ret f => some f
  | .sread f => some f
  | .swrite f => some f
  | .swriteTrappc f => some f
  | .swriteSrseed f => some f
  | .swriteTrapdict f => some f
  | .swriteCexctl f => some f
  | .swritePcmp f => some f
  | .dictld f => some f
  | .waitc f => some f
  | .voteActive f => some f
  | .vote f => some f
  | .bra f => some f
  | .brx f => some f
  | .call f => some f
  | .callx f => some f
  | .join f => some f
  | .reform f => some f
  | .reformHome f => some f
  | .window f => some f
  | .sleep f => some f
  | .elect f => some f
  | .launch f => some f
  | .iadd f => some f
  | .isub f => some f
  | .imul f => some f
  | .imulh f => some f
  | .imad f => some f
  | .isha f => some f
  | .imin f => some f
  | .imax f => some f
  | .iabs f => some f
  | .and f => some f
  | .or f => some f
  | .xor f => some f
  | .shl f => some f
  | .shr f => some f
  | .rotl f => some f
  | .bfx f => some f
  | .bfi f => some f
  | .popc f => some f
  | .clz f => some f
  | .brev f => some f
  | .isetp f => some f
  | .sel f => some f
  | .mov f => some f
  | .movi f => some f
  | .bsel f => some f
  | .pset f => some f
  | .rdlane f => some f
  | .bcast f => some f
  | .fadd f => some f
  | .fmul f => some f
  | .ffma f => some f
  | .fmin f => some f
  | .fmax f => some f
  | .fsetp f => some f
  | .fscl f => some f
  | .rcp f => some f
  | .rsq f => some f
  | .sqrt f => some f
  | .exp2 f => some f
  | .log2 f => some f
  | .sin f => some f
  | .cos f => some f
  | .tanh f => some f
  | .frc f => some f
  | .frnd f => some f
  | .cvt f => some f
  | .f2i f => some f
  | .i2f f => some f
  | .fclass f => some f
  | .dot4 f => some f
  | .qxh f => some f
  | .qxv f => some f
  | .qxd f => some f
  | .qbc f => some f
  | .ddx f => some f
  | .ddy f => some f
  | .lxch f => some f
  | .redw f => some f
  | .scanw f => some f
  | .matchw f => some f
  | .ld f => some f
  | .st f => some f
  | .ldv f => some f
  | .stv f => some f
  | .lds f => some f
  | .pref f => some f
  | .atom f => some f
  | .atomv f => some f
  | .cas f => some f
  | .red f => some f
  | .redv f => some f
  | .fence f => some f
  | .lineProbe f => some f
  | .lineZero f => some f
  | .waitw f => some f
  | .swarm f => some f
  | .swwait f => some f
  | .tex f => some f
  | .tld f => some f
  | .bara f => some f
  | .barw f => some f
  | .bars f => some f
  | .jset f => some f
  | .jsign f => some f
  | .convergenceOpComplete _ _ => none
  | .jwait f => some f
  | .wload f => some f
  | .mma f => some f
  | .mmg f => some f
  | .tldt f => some f
  | .tstt f => some f
  | .tmov f => some f
  | .tcvt f => some f
  | .tscl f => some f
  | .acz f => some f
  | .acrd f => some f
  | .acwr f => some f
  | .acst f => some f
  | .post f => some f
  | .tsamp f => some f
  | .ocall f => some f
  | .oread f => some f
  | .sld f => some f
  | .sst f => some f
  | .marg f => some f
  | .mret f => some f
  | .mtrap f => some f
  | .ostat f => some f
  | .ctxsv f => some f
  | .ctxrs f => some f
  | .tlbi f => some f
  | .dictrd f => some f
  | .lanex f => some f
  | .parkr f => some f
  | .hatchArgStore _ _ => none
  | .copyLinear _ _ => none
  | .copyStrided _ _ => none
  | .copyFill _ _ => none
  | .nmLoad _ _ => none
  | .nmRun _ _ => none
  | .draw _ _ => none
  | .invoke _ _ => none
  | .readout _ _ => none
  | .queuePush _ _ => none
  | .goAccept _ _ _ => none
  | .copyPortionLand _ _ => none
  | .completionRegisterWrite _ _ _ => none
  | .nmLoadPart _ _ _ => none
  | .nmWave _ _ _ _ => none
  | .orderTokenIssue _ _ _ _ => none
  | .fragmentApply _ _ _ => none
  | .invokeApply _ _ _ => none
  | .workgroupAdmission _ _ _ _ => none
  | .gangReservation _ _ _ _ _ => none
  | .gangAged _ _ => none
  | .binDraw _ _ _ _ => none
  | .loadDataLand _ => none
  | .translationComplete _ _ _ => none
  | .pageZeroingComplete _ _ => none
  | .writeQueueApply _ => none
  | .dictSlotLoad _ _ _ => none
  | .waitwReread _ => none
  | .syncExtwait _ => none
  | .sleepExpiry _ _ _ => none
  | .handlerEntry _ => none
  | .hangDetected _ => none
  | .eventRetire _ _ => none
  | .hostEventAnswer _ _ _ => none
  | .preemptRequest _ => none
  | .cooperativeSave _ _ => none
  | .preForced _ _ => none
  | .contextSaveComplete _ => none
  | .replayApply _ _ _ _ => none
  | .replicaRebuild _ _ _ _ => none
  | .coreUe _ => none
  | .vaultLineUe _ _ => none
  | .hbmChunkUe _ _ => none
  | .dictSlotUe _ _ => none
  | .replicaUe _ _ _ => none
  | .bmuFault _ _ => none
  | .machineCheck _ => none
  | .clockThrottle _ _ _ => none
  | .cexRemainTick _ => none
  | .hostQueuePush _ _ => none
  | .hostGoAccept _ => none
  | .attach _ _ _ => none
  | .detach _ => none
  | .halt _ _ => none
  | .resume _ _ => none
  | .step _ _ => none
  | .snapshot _ _ _ => none
  | .dict _ _ => none
  | .trace _ _ _ => none
  | .dreset _ => none
  | .registerWrite _ _ => none
  | .hostBar2Read _ _ => none
  | .hostBar2Write _ _ => none
  | .reset _ => none
  | .attestationReport _ => none
  | .ethWriteFrame _ => none
  | .ethReadRequest _ => none
  | .ethReadData _ => none
  | .ethAcknowledge _ => none
  | .ethFrameDiscard _ => none
  | .resendTimeout _ => none
  | .contextCreate _ _ => none
  | .contextMakeResident _ => none
  | .contextDestroy _ => none
  | .modeWrite _ _ => none
  | .objectCreate _ _ _ _ _ => none
  | .objectDestroy _ _ => none
  | .allocate _ _ => none
  | .mappingChange _ _ => none
  | .ageLimitSet _ _ => none
  | .extwaitSet _ _ => none
  | .hanglimitSet _ _ => none
  | .trapConfigSet _ _ _ _ => none
  | .bankKeyRead _ => none
  | .eventAreaRegister _ _ => none
  | .hangAreaRegister _ _ => none
  | .writePerform _ => none
  | .mappingChangeComplete _ => none
  | .restoreComplete _ => none

end Sys2Proof
end

