-- ==== Sys2Proof/Machine/Flags.lean ====
section
/-! DEFINITION. Floating-point formats, rounding, and the flags of FPSTAT (R54 to R69). A finite value of a format is an
integer multiple of the format's least subnormal, so sums and products are exact integers before one rounding. -/

namespace Sys2Proof.Machine

/-- The flags NV, DZ, OF, UF, NX and NR, bits 0 to 5 of FPSTAT (R60). -/
abbrev Flags := BitVec 6

def flagNV : Flags := 0x01
def flagDZ : Flags := 0x02
def flagOF : Flags := 0x04
def flagUF : Flags := 0x08
def flagNX : Flags := 0x10
def flagNR : Flags := 0x20

/-- Flags raised when a condition holds. -/
def flagIf (b : Bool) (f : Flags) : Flags := if b then f else 0

/-- A binary format: widths of its exponent and fraction fields (R54). -/
structure Fmt where
  eb : Nat
  fb : Nat
  deriving DecidableEq, Repr

def fmtF32 : Fmt := ⟨8, 23⟩
def fmtF16 : Fmt := ⟨5, 10⟩
def fmtBF16 : Fmt := ⟨8, 7⟩

namespace Fmt

def width (f : Fmt) : Nat := 1 + f.eb + f.fb
def bias (f : Fmt) : Nat := 2 ^ (f.eb - 1) - 1
/-- The least subnormal is 2 to the power of minus this. -/
def unitExp (f : Fmt) : Nat := f.bias + f.fb - 1
/-- The denominator of the format's values. -/
def unit (f : Fmt) : Nat := 2 ^ f.unitExp
/-- The bits of +∞. -/
def infBits (f : Fmt) : Nat := (2 ^ f.eb - 1) * 2 ^ f.fb
/-- The bits of the largest finite value. -/
def maxBits (f : Fmt) : Nat := f.infBits - 1
/-- The canonical NaN (R55). -/
def nanBits (f : Fmt) : Nat := f.infBits + 2 ^ (f.fb - 1)
def signBit (f : Fmt) : Nat := 2 ^ (f.eb + f.fb)

end Fmt

/-- A value of a format: a NaN, an infinity, or `num` least subnormals with a sign (so that zeros keep theirs). -/
inductive FVal where
  | nan (signalling : Bool)
  | inf (neg : Bool)
  | fin (neg : Bool) (num : Nat)
  deriving DecidableEq, Repr

/-- The value of the bits of a format (R54). -/
def fval (f : Fmt) (bits : Nat) : FVal :=
  let neg := decide (f.signBit ≤ bits)
  let mag := bits % f.signBit
  let e := mag / 2 ^ f.fb
  let frac := mag % 2 ^ f.fb
  if e = 2 ^ f.eb - 1 then
    if frac = 0 then .inf neg else .nan (decide (frac < 2 ^ (f.fb - 1)))
  else if e = 0 then .fin neg frac
  else .fin neg ((2 ^ f.fb + frac) * 2 ^ (e - 1))

/-- A result: bits of the destination and the flags raised. -/
structure FRes where
  bits  : Nat
  flags : Flags
  deriving DecidableEq, Repr

def withSign (f : Fmt) (neg : Bool) (mag : Nat) : Nat := if neg then f.signBit + mag else mag

def nanRes (f : Fmt) (flags : Flags) : FRes := ⟨f.nanBits, flags⟩
def infRes (f : Fmt) (neg : Bool) (flags : Flags) : FRes := ⟨withSign f neg f.infBits, flags⟩
def zeroRes (f : Fmt) (neg : Bool) : FRes := ⟨withSign f neg 0, 0⟩

/-- Whether a mode rounds a magnitude up when `n` units and a remainder `r` of `d` are left (R57). -/
def roundsUp (rm : Rm) (neg : Bool) (n r d : Nat) : Bool :=
  match rm with
  | .rtz => false
  | .rup => !neg && r != 0
  | .rdn => neg && r != 0
  | .rna => decide (d ≤ 2 * r) && r != 0
  | _ => decide (d < 2 * r) || (2 * r == d && n % 2 == 1)

/-- The exponent k with 2^k ≤ num / den < 2^(k + 1). -/
def ratLog2 (num den : Nat) : Int :=
  let k : Int := (Nat.log2 num : Int) - (Nat.log2 den : Int)
  let ok := if 0 ≤ k then decide (den * 2 ^ k.toNat ≤ num) else decide (den ≤ num * 2 ^ (-k).toNat)
  if ok then k else k - 1

/-- num / den in units of 2^q: whole units, remainder, and the divisor of the remainder. -/
def inUnits (num den : Nat) (q : Int) : Nat × Nat × Nat :=
  let n := if 0 ≤ q then num else num * 2 ^ (-q).toNat
  let d := if 0 ≤ q then den * 2 ^ q.toNat else den
  (n / d, n % d, d)

/-- The overflow result of a mode (R57). -/
def overflowMag (f : Fmt) (rm : Rm) (neg : Bool) : Nat :=
  match rm with
  | .rtz => f.maxBits
  | .rup => if neg then f.maxBits else f.infBits
  | .rdn => if neg then f.infBits else f.maxBits
  | _ => f.infBits

/-- The exact magnitude num / den > 0 with a sign, rounded once to a format (R56, R57), with OF, UF and NX of R60: tiny
is judged after rounding to the format's precision without a bound on the exponent. -/
def roundRat (f : Fmt) (rm : Rm) (neg : Bool) (num den : Nat) : FRes :=
  let k := ratLog2 num den
  let qmin : Int := -(f.unitExp : Int)
  let q := max (k - f.fb) qmin
  let (n, r, d) := inUnits num den q
  let n' := if roundsUp rm neg n r d then n + 1 else n
  let mag := (q - qmin).toNat * 2 ^ f.fb + n'
  let inexact := r != 0
  if f.infBits ≤ mag then ⟨withSign f neg (overflowMag f rm neg), flagOF ||| flagNX⟩
  else
    let emin : Int := qmin + f.fb
    let tiny :=
      if emin ≤ k then false
      else
        let (m, s, e) := inUnits num den (k - f.fb)
        let m' := if roundsUp rm neg m s e then m + 1 else m
        !(decide (m' = 2 ^ (f.fb + 1)) && decide (k + 1 = emin))
    ⟨withSign f neg mag, flagIf inexact flagNX ||| flagIf (tiny && inexact) flagUF⟩

/-- An exact integer over a denominator, rounded; `zneg` is the sign of an exact zero. -/
def roundInt (f : Fmt) (rm : Rm) (zneg : Bool) (v : Int) (den : Nat) : FRes :=
  if v = 0 then zeroRes f zneg else roundRat f rm (decide (v < 0)) v.natAbs den

def signed (neg : Bool) (n : Nat) : Int := if neg then -(n : Int) else n

/-- The sign of an exact zero sum of addends with these signs and values (IEEE 754-2019, R219). -/
def zeroSign (rm : Rm) (addends : List (Bool × Nat)) : Bool :=
  if addends.all (fun p => p.1 && p.2 == 0) then true
  else if addends.all (fun p => !p.1 && p.2 == 0) then false
  else decide (rm = .rdn)

def isSnan : FVal → Bool
  | .nan s => s
  | _ => false

def isNan : FVal → Bool
  | .nan _ => true
  | _ => false

def snanFlag (l : List FVal) : Flags := flagIf (l.any isSnan) flagNV

/-- FADD (R207). -/
def fpAdd (f : Fmt) (rm : Rm) (x y : Nat) : FRes :=
  match fval f x, fval f y with
  | .nan s, b => nanRes f (flagIf (s || isSnan b) flagNV)
  | _, .nan s => nanRes f (flagIf s flagNV)
  | .inf a, .inf b => if a = b then infRes f a 0 else nanRes f flagNV
  | .inf a, _ => infRes f a 0
  | _, .inf b => infRes f b 0
  | .fin a m, .fin b n => roundInt f rm (zeroSign rm [(a, m), (b, n)]) (signed a m + signed b n) f.unit

/-- FMUL (R207). -/
def fpMul (f : Fmt) (rm : Rm) (x y : Nat) : FRes :=
  match fval f x, fval f y with
  | .nan s, b => nanRes f (flagIf (s || isSnan b) flagNV)
  | _, .nan s => nanRes f (flagIf s flagNV)
  | .inf a, .inf b => infRes f (a != b) 0
  | .inf a, .fin b n => if n = 0 then nanRes f flagNV else infRes f (a != b) 0
  | .fin a m, .inf b => if m = 0 then nanRes f flagNV else infRes f (a != b) 0
  | .fin a m, .fin b n => roundInt f rm (a != b) (signed (a != b) (m * n)) (f.unit * f.unit)

/-- FFMA (R207): 0 × ∞ raises NV whatever the addend. -/
def fpFma (f : Fmt) (rm : Rm) (x y z : Nat) : FRes :=
  let a := fval f x
  let b := fval f y
  let c := fval f z
  let sn := snanFlag [a, b, c]
  let addend (neg : Bool) : FRes :=
    match c with
    | .nan _ => nanRes f sn
    | .inf n => if n = neg then infRes f neg 0 else nanRes f flagNV
    | .fin _ _ => infRes f neg 0
  match a, b with
  | .nan _, _ => nanRes f sn
  | _, .nan _ => nanRes f sn
  | .inf p, .inf q => addend (p != q)
  | .inf p, .fin q n => if n = 0 then nanRes f (sn ||| flagNV) else addend (p != q)
  | .fin p m, .inf q => if m = 0 then nanRes f (sn ||| flagNV) else addend (p != q)
  | .fin p m, .fin q n =>
    match c with
    | .nan _ => nanRes f sn
    | .inf n => infRes f n 0
    | .fin r k =>
      roundInt f rm (zeroSign rm [(p != q, m * n), (r, k)]) (signed (p != q) (m * n) + signed r (k * f.unit))
        (f.unit * f.unit)

/-- An order of finite and infinite values with −0 less than +0 (R56). -/
def fkey (f : Fmt) : FVal → Int
  | .nan _ => 0
  | .inf neg => signed neg (2 * 2 ^ (2 ^ f.eb + f.fb) + 2)
  | .fin neg n => if neg then -(2 * n : Int) - 1 else 2 * n

/-- minimumNumber or maximumNumber (R56, R207): a NaN operand gives the other, two NaNs the canonical NaN. -/
def fpMinMax (f : Fmt) (max : Bool) (x y : Nat) : FRes :=
  let a := fval f x
  let b := fval f y
  let sn := snanFlag [a, b]
  match isNan a, isNan b with
  | true, true => nanRes f sn
  | true, false => ⟨y, sn⟩
  | false, true => ⟨x, sn⟩
  | false, false => ⟨if max then (if fkey f a < fkey f b then y else x) else (if fkey f b < fkey f a then y else x), sn⟩

/-- Equality and order as values, −0 equal to +0 (R208). -/
def fnum (f : Fmt) : FVal → Int
  | .nan _ => 0
  | .inf neg => signed neg (2 ^ (2 ^ f.eb + f.fb) + 1)
  | .fin neg n => signed neg n

/-- FSETP's comparison and flags (R208). -/
def fpCmp (f : Fmt) (cmp : Nat) (x y : Nat) : Bool × Flags :=
  let a := fval f x
  let b := fval f y
  let nan := isNan a || isNan b
  let fl := snanFlag [a, b] ||| flagIf (nan && (cmp = 1 || cmp = 2)) flagNV
  match cmp with
  | 0 => (!nan && fnum f a = fnum f b, fl)
  | 1 => (!nan && fnum f a < fnum f b, fl)
  | 2 => (!nan && fnum f a ≤ fnum f b, fl)
  | _ => (nan || fnum f a ≠ fnum f b, fl)

/-- FSCL (R209). A shift beyond ±1,000 places leaves every finite result where ±1,000 does. -/
def fpScale (f : Fmt) (rm : Rm) (x : Nat) (b : Int) : FRes :=
  match fval f x with
  | .nan s => nanRes f (flagIf s flagNV)
  | .inf n => infRes f n 0
  | .fin n m =>
    if m = 0 then zeroRes f n
    else
      let b := max (-1000) (min 1000 b)
      if 0 ≤ b then roundRat f rm n (m * 2 ^ b.toNat) f.unit else roundRat f rm n m (f.unit * 2 ^ (-b).toNat)

/-- FRC (R210). -/
def fpFrac (f : Fmt) (rm : Rm) (x : Nat) : FRes :=
  match fval f x with
  | .nan s => nanRes f (flagIf s flagNV)
  | .inf _ => nanRes f flagNV
  | .fin n m =>
    let v := signed n m
    roundInt f rm false (v - (v / f.unit) * f.unit) f.unit

/-- A magnitude of m units rounded to an integer (R210, R216). -/
def roundIntegral (rm : Rm) (neg : Bool) (m unit : Nat) : Nat :=
  if roundsUp rm neg (m / unit) (m % unit) unit then m / unit + 1 else m / unit

/-- FRND (R210): no NX. -/
def fpRound (f : Fmt) (rm : Rm) (x : Nat) : FRes :=
  match fval f x with
  | .nan s => nanRes f (flagIf s flagNV)
  | .inf n => infRes f n 0
  | .fin n m =>
    let k := roundIntegral rm n m f.unit
    if k = 0 then zeroRes f n else ⟨(roundRat f rm n k 1).bits, 0⟩

/-- SAT of R58 on results other than narrowing conversions: clamped to [+0.0, 1.0]. -/
def fpSat (f : Fmt) (sat : Bool) (r : FRes) : FRes :=
  if !sat then r
  else match fval f r.bits with
  | .nan _ => ⟨0, r.flags⟩
  | .inf neg => ⟨if neg then 0 else f.bias * 2 ^ f.fb, r.flags⟩
  | .fin neg n => ⟨if neg then 0 else if f.unit ≤ n then f.bias * 2 ^ f.fb else r.bits, r.flags⟩

/-- SAT of R58 on a narrowing conversion into F16 or BF16. -/
def fpSatNarrow (f : Fmt) (sat : Bool) (r : FRes) : FRes :=
  if !sat then r
  else match fval f r.bits with
  | .inf neg => ⟨withSign f neg f.maxBits, r.flags⟩
  | _ => r

/-! ### OZ8 (R63 to R67) -/

/-- Denominator of the scaled OZ8 values: 2^5 × 10^11. -/
def ozUnit : Nat := 32 * 10 ^ 11

/-- Exponent, fraction and width of an OZ8 code C ≠ 0 (R63). -/
def ozParts (c : Nat) : Int × Nat × Nat :=
  let bit (i : Nat) : Nat := c / 2 ^ i % 2
  if 64 ≤ c then (if bit 5 = 0 then 0 else -1, c % 32, 5)
  else if 32 ≤ c then (if bit 4 = 0 then 1 + bit 3 else -2 - bit 3, c % 8, 3)
  else if 16 ≤ c then (if bit 3 = 0 then 3 + bit 2 else -4 - bit 2, c % 4, 2)
  else if 8 ≤ c then (if bit 2 = 0 then 5 + bit 1 else -6 - bit 1, c % 2, 1)
  else if 4 ≤ c then (if bit 1 = 0 then 7 + bit 0 else -8 - bit 0, 0, 0)
  else if 2 ≤ c then (if bit 0 = 0 then 9 else -10, 0, 0)
  else (-11, 0, 0)

/-- The magnitude of an OZ8 code in units of 1 / ozUnit; 0 for C = 0. -/
def ozMag (c : Nat) : Nat :=
  if c = 0 then 0
  else
    let (e, fr, w) := ozParts c
    (2 ^ w + 9 * fr) * 2 ^ (5 - w) * 10 ^ (e + 11).toNat

/-- The value of an OZ8 byte: none for NaR. -/
def ozVal (b : Nat) : Option (Bool × Nat) :=
  let c := b % 128
  let neg := decide (128 ≤ b)
  if c = 0 then (if neg then none else some (false, 0)) else some (neg, ozMag c)

/-- The codes by rising magnitude: the exponents −11 to 9, each with its codes in rising order of F (R63). -/
def ozOrder : List Nat :=
  let band (base n : Nat) : List Nat := (List.range n).map (· + base)
  [1, 3, 7, 6] ++ band 14 2 ++ band 12 2 ++ band 28 4 ++ band 24 4 ++ band 56 8 ++ band 48 8 ++ band 96 32
    ++ band 64 32 ++ band 32 8 ++ band 40 8 ++ band 16 4 ++ band 20 4 ++ band 8 2 ++ band 10 2 ++ [4, 5, 2]

/-- The neighbours of a magnitude num / den: the greatest code not above it (0 for +0) and the next code above, if any. -/
def ozNeighbours (num den : Nat) : Nat × Option Nat :=
  ozOrder.foldl (fun acc c =>
    match acc.2 with
    | some _ => acc
    | none => if ozMag c * den ≤ num * ozUnit then (c, none) else (acc.1, some c)) (0, none)

def ozSigned (neg : Bool) (c : Nat) : Nat := if c = 0 then 0 else if neg then 128 + c else c

/-- Rounding of a nonzero magnitude num / den into OZ8 (R64, R66); `u` is the draw of R69 under SR. -/
def ozRound (rm : Rm) (sat : Bool) (u : Nat) (neg : Bool) (num den : Nat) : FRes :=
  if 10 ^ 9 * den < num then
    if rm = .rtz then ⟨ozSigned neg 2, flagNX⟩
    else if sat then ⟨ozSigned neg 2, flagOF ||| flagNX⟩ else ⟨128, flagOF ||| flagNX ||| flagNR⟩
  else
    let (lo, hi) := ozNeighbours num den
    let x := num * ozUnit
    let l := ozMag lo * den
    if x = l then ⟨ozSigned neg lo, 0⟩
    else match hi with
    | none => ⟨ozSigned neg lo, flagNX⟩
    | some h =>
      let g := ozMag h * den
      let up := match rm with
        | .rtz => false
        | .sr => decide (u < (x - l) * 65536 / (g - l))
        | _ => decide (g - x < x - l)
      let c := if up then h else lo
      ⟨ozSigned neg c, flagNX ||| flagIf (c == 0) flagUF⟩

/-- A conversion into OZ8 of a value of a format (R64, R66). -/
def ozOfFp (f : Fmt) (rm : Rm) (sat : Bool) (u : Nat) (x : Nat) : FRes :=
  match fval f x with
  | .nan s => ⟨128, flagNR ||| flagIf s flagNV⟩
  | .inf neg => if sat then ⟨ozSigned neg 2, flagNX⟩ else ⟨128, flagNR⟩
  | .fin neg m => if m = 0 then ⟨0, 0⟩ else ozRound rm sat u neg m f.unit

/-- A conversion out of OZ8 (R67), times 2^s with s ≥ −127 scaled by `sc` = s + 127 (R368); sc 127 for CVT. -/
def fpOfOz (f : Fmt) (sc : Nat) (b : Nat) : FRes :=
  match ozVal b with
  | none => nanRes f flagNR
  | some (neg, m) => if m = 0 then zeroRes f false else roundRat f .rne neg (m * 2 ^ sc) (ozUnit * 2 ^ 127)

/-! ### Conversions between the binary formats -/

/-- Conversion of a value of `src` to `dst` under a mode other than SR (R214). -/
def fpConvert (src dst : Fmt) (rm : Rm) (x : Nat) : FRes :=
  match fval src x with
  | .nan s => nanRes dst (flagIf s flagNV)
  | .inf n => infRes dst n 0
  | .fin n m => if m = 0 then zeroRes dst n else roundRat dst rm n m src.unit

/-- Stochastic rounding of a value of F32 into F16 or BF16 with draw u (R69). -/
def fpConvertSr (src dst : Fmt) (u : Nat) (x : Nat) : FRes :=
  match fval src x with
  | .nan s => nanRes dst (flagIf s flagNV)
  | .inf n => infRes dst n 0
  | .fin n m =>
    if m = 0 then zeroRes dst n
    else
      let k := ratLog2 m src.unit
      let qmin : Int := -(dst.unitExp : Int)
      let q := max (k - dst.fb) qmin
      let (lo, r, d) := inUnits m src.unit q
      let mag := (q - qmin).toNat * 2 ^ dst.fb + lo
      if dst.infBits ≤ mag then infRes dst n (flagOF ||| flagNX)
      else if r = 0 then ⟨withSign dst n mag, 0⟩
      else
        let up := decide (u < r * 65536 / d)
        let mag' := if up then mag + 1 else mag
        if dst.infBits ≤ mag' then infRes dst n (flagOF ||| flagNX)
        else ⟨withSign dst n mag', flagNX ||| flagIf (decide (mag' < 2 ^ dst.fb)) flagUF⟩

/-- F2I (R216) into integers from `lo` to `hi`. -/
def fpToInt (rm : Rm) (lo hi : Int) (x : Nat) : Int × Flags :=
  match fval fmtF32 x with
  | .nan _ => (0, flagNV)
  | .inf neg => (if neg then lo else hi, flagNV)
  | .fin neg m =>
    let k := roundIntegral rm neg m fmtF32.unit
    let v := signed neg k
    if v < lo then (lo, flagNV) else if hi < v then (hi, flagNV)
    else (v, flagIf (m % fmtF32.unit != 0) flagNX)

/-- The class bit of FCLASS (R218). -/
def fpClass (x : Nat) : Nat :=
  match fval fmtF32 x with
  | .nan s => if s then 8 else 9
  | .inf neg => if neg then 0 else 7
  | .fin neg m =>
    if m = 0 then (if neg then 3 else 4)
    else if m < 2 ^ 23 then (if neg then 2 else 5)
    else if neg then 1 else 6

/-- DOT4 on OZ8 elements with an F32 addend (R219). -/
def fpDot4 (rm : Rm) (xs ys : List Nat) (c : Nat) : FRes :=
  let f := fmtF32
  let vals := (xs ++ ys).map ozVal
  let sn := flagIf (isSnan (fval f c)) flagNV
  if vals.any Option.isNone then nanRes f (flagNR ||| sn)
  else match fval f c with
  | .nan s => nanRes f (flagIf s flagNV)
  | .inf neg => infRes f neg 0
  | .fin cn cm =>
    let prods := (xs.zip ys).map fun p =>
      match ozVal p.1, ozVal p.2 with
      | some (a, m), some (b, n) => (a != b, m * n)
      | _, _ => (false, 0)
    let s := prods.foldl (fun acc p => acc + signed p.1 p.2) (0 : Int)
    roundInt f rm (zeroSign rm (prods ++ [(cn, cm)])) (s * f.unit + signed cn cm * (ozUnit * ozUnit : Nat))
      (f.unit * (ozUnit * ozUnit))

end Sys2Proof.Machine
end

