-- ==== Sys2Proof/Decode.lean ====
section
/-! DEFINITION. From words and templates to instructions (R129 to R136, R151 to R161), total, rejecting by name; and
the encoder that gives a lane's instruction back its template, word and literal. -/

namespace Sys2Proof

/-- Why a word has no instruction: its index lies in 0x010 to 0x03F (R159), or its entry is undefined (R161). -/
inductive Reject where
  | reserved
  | undefined
  deriving DecidableEq, Repr

/-! ### Fields -/

/-- TY of R51. -/
def Ty.ofBits (b : BitVec 4) : Ty :=
  match b.toNat with
  | 0 => .b32 | 1 => .n32 | 2 => .i32 | 3 => .n64 | 4 => .i64 | 5 => .f32 | 6 => .f16x2 | 7 => .bf16x2
  | 8 => .oz8x4 | 9 => .n8x4 | 10 => .i8x4 | 11 => .n16x2 | 12 => .i16x2 | 13 => .resD | 14 => .resE | _ => .resF

def Ty.bits : Ty → BitVec 4
  | .b32 => 0 | .n32 => 1 | .i32 => 2 | .n64 => 3 | .i64 => 4 | .f32 => 5 | .f16x2 => 6 | .bf16x2 => 7
  | .oz8x4 => 8 | .n8x4 => 9 | .i8x4 => 10 | .n16x2 => 11 | .i16x2 => 12 | .resD => 13 | .resE => 14 | .resF => 15

/-- MOD[2:0] of R57. -/
def Rm.ofBits (b : BitVec 3) : Rm :=
  match b.toNat with
  | 0 => .rne | 1 => .rtz | 2 => .rup | 3 => .rdn | 4 => .rna | 5 => .sr | 6 => .res6 | _ => .res7

def Rm.bits : Rm → BitVec 3
  | .rne => 0 | .rtz => 1 | .rup => 2 | .rdn => 3 | .rna => 4 | .sr => 5 | .res6 => 6 | .res7 => 7

/-- SC of R151. -/
def Scope.ofBits (b : BitVec 3) : Scope :=
  match b.toNat with
  | 0 => .lane | 1 => .warp | 2 => .workgroup | 3 => .cluster | 4 => .die | 5 => .device | 6 => .system | _ => .res7

def Scope.bits : Scope → BitVec 3
  | .lane => 0 | .warp => 1 | .workgroup => 2 | .cluster => 3 | .die => 4 | .device => 5 | .system => 6 | .res7 => 7

/-- HINT of R151. -/
def Hint.ofBits (b : BitVec 2) : Hint :=
  match b.toNat with
  | 0 => .none | 1 => .likely | 2 => .unlikely | _ => .uniform

def Hint.bits : Hint → BitVec 2
  | .none => 0 | .likely => 1 | .unlikely => 2 | .uniform => 3

/-- IMMSRC of R136. -/
def ImmSrc.ofBits (b : BitVec 2) : ImmSrc :=
  match b.toNat with
  | 0 => .template | 1 => .literal | 2 => .faFb | _ => .fb

def ImmSrc.bits : ImmSrc → BitVec 2
  | .template => 0 | .literal => 1 | .faFb => 2 | .fb => 3

/-- CLS of R152. -/
def Cls.ofBits (b : BitVec 3) : Cls :=
  match b.toNat with
  | 0 => .none | 1 => .vector | 2 => .uniform | 3 => .predicate | 4 => .tile | 5 => .accumulator | 6 => .convergence
  | _ => .immediate

def Cls.bits : Cls → BitVec 3
  | .none => 0 | .vector => 1 | .uniform => 2 | .predicate => 3 | .tile => 4 | .accumulator => 5 | .convergence => 6
  | .immediate => 7

/-- HOLE of R152. -/
def Hole.ofBits (b : BitVec 2) : Hole :=
  match b.toNat with
  | 0 => .fixed | 1 => .fd | 2 => .fa | _ => .fb

def Hole.bits : Hole → BitVec 2
  | .fixed => 0 | .fd => 1 | .fa => 2 | .fb => 3

/-- A slot from its 16 bits (R152). -/
def Slot.ofBits (b : BitVec 16) : Slot :=
  { cls := .ofBits (b.extractLsb' 13 3), hole := .ofBits (b.extractLsb' 11 2), lu := b.getLsbD 10
    num := b.extractLsb' 0 10 }

def Slot.bits (s : Slot) : BitVec 16 :=
  s.cls.bits ++ s.hole.bits ++ BitVec.ofBool s.lu ++ s.num

/-- DIX of a word (R129). -/
def wordDix (w : Word) : BitVec 10 := w.extractLsb' 22 10

/-- MOP of a template (R151). -/
def templateMop (t : Template) : BitVec 10 := t.extractLsb' 118 10

/-- The undefined template (R154). -/
def undefinedTemplate : Template := 0x3FF#10 ++ 0#118

/-- The fields of a word (R129), its template (R151) and its literal. -/
def formOf (w : Word) (t : Template) (lit : Word) : Form :=
  { dix := wordDix w, nwb := w.getLsbD 21, fd := w.extractLsb' 14 7, fa := w.extractLsb' 7 7, fb := w.extractLsb' 0 7
    m2 := t.extractLsb' 116 2, sat := t.getLsbD 115, rm := .ofBits (t.extractLsb' 112 3)
    ty := .ofBits (t.extractLsb' 108 4), sc := .ofBits (t.extractLsb' 105 3), hint := .ofBits (t.extractLsb' 103 2)
    immsrc := .ofBits (t.extractLsb' 101 2), pgn := t.getLsbD 100, pg := t.extractLsb' 97 3, b96 := t.getLsbD 96
    d := .ofBits (t.extractLsb' 80 16), a := .ofBits (t.extractLsb' 64 16), b := .ofBits (t.extractLsb' 48 16)
    c := .ofBits (t.extractLsb' 32 16), imm := t.extractLsb' 0 32
    lit := if ImmSrc.ofBits (t.extractLsb' 101 2) = .literal then lit else 0 }

/-- The template of a form with major opcode `mop` (R151). -/
def Form.template (mop : BitVec 10) (f : Form) : Template :=
  mop ++ f.m2 ++ BitVec.ofBool f.sat ++ f.rm.bits ++ f.ty.bits ++ f.sc.bits ++ f.hint.bits ++ f.immsrc.bits
    ++ BitVec.ofBool f.pgn ++ f.pg ++ BitVec.ofBool f.b96 ++ f.d.bits ++ f.a.bits ++ f.b.bits ++ f.c.bits ++ f.imm

/-- The word of a form (R129). -/
def Form.word (f : Form) : Word :=
  f.dix ++ BitVec.ofBool f.nwb ++ f.fd ++ f.fa ++ f.fb

/-- The value of IMM (R136). -/
def Form.immValue (f : Form) : Word :=
  match f.immsrc with
  | .template => f.imm
  | .literal  => f.lit
  | .faFb     => (f.fa ++ f.fb).signExtend 32
  | .fb       => f.fb.signExtend 32

/-- The value of the field a hole names (R129). -/
def Form.field (f : Form) : Hole → BitVec 7
  | .fixed => 0
  | .fd    => f.fd
  | .fa    => f.fa
  | .fb    => f.fb

/-- The value of an immediate slot (R134, R136). -/
def Form.slotImm (f : Form) (s : Slot) : Word :=
  if s.hole = .fixed then f.immValue else (f.field s.hole).setWidth 32

/-! ### The fixed entries -/

/-- The templates of R159, entries 0x000 to 0x00F; the undefined template elsewhere. -/
def fixedTemplate (dix : Nat) : Template :=
  match dix with
  | 0x000 => 0x0000000E000000000000000000000000#128
  | 0x001 => 0x0200000E000000000000000000000000#128
  | 0x002 => 0x0300000E000000000000000000000000#128
  | 0x003 => 0x02C0000E0000F8000000000000000000#128
  | 0x004 => 0x03C0000E000000000000000000000000#128
  | 0x005 => 0x0400000E000000000000000000000000#128
  | 0x006 => 0x004001CE0000E0000000000000000000#128
  | 0x007 => 0x0340000E0000F8000000000000000000#128
  | 0x008 => 0x0380000E000000000000000000000000#128
  | 0x009 => 0x0140000E000000000000000000000000#128
  | 0x00A => 0x15C0002E2800E0000000000000000000#128
  | 0x00B => 0x0440000E2800F8000000000000000000#128
  | 0x00C => 0x0480000E0000F0003800000000000000#128
  | 0x00D => 0x0280300E0000E8005000000000000000#128
  | 0x00E => 0x04C0000E000058000000000000000000#128
  | 0x00F => 0x0580000E480000000000000000000000#128
  | _     => undefinedTemplate

/-! ### Major opcodes -/

/-- The row of SWRITE that an index selects (R332). -/
def swriteOf (f : Form) : Instr :=
  match (f.slotImm f.a).toNat with
  | 0x31 => .swriteTrappc f
  | 0x12 => .swriteSrseed f
  | 0x35 => .swriteTrapdict f
  | 0x40 => .swriteCexctl f
  | n => if 0x48 ≤ n ∧ n ≤ 0x4F then .swritePcmp f else .swrite f

/-- The control group of R160 from MOP 0x000. -/
def controlInstr (k : Nat) (f : Form) : Option Instr :=
  match k with
  | 0x00 => some (.nop f)
  | 0x01 => some (if f.dix = 0x006 then .braUniform f else .bra f)
  | 0x02 => some (.brx f)
  | 0x03 => some (.call f)
  | 0x04 => some (.callx f)
  | 0x05 => some (.ret f)
  | 0x06 => some (.join f)
  | 0x07 => some (if f.m2 = 1 then .reformHome f else .reform f)
  | 0x08 => some (.exit f)
  | 0x09 => some (.window f)
  | 0x0A => some (.dictld f)
  | 0x0B => some (.dictsw f)
  | 0x0C => some (.dfence f)
  | 0x0D => some (.trap f)
  | 0x0E => some (.rte f)
  | 0x0F => some (.yield f)
  | 0x10 => some (.bkpt f)
  | 0x11 => some (.sread f)
  | 0x12 => some (swriteOf f)
  | 0x13 => some (.waitc f)
  | 0x14 => some (.sleep f)
  | 0x15 => some (.elect f)
  | 0x16 => some (if f.m2 = 0 then .voteActive f else .vote f)
  | 0x17 => some (.launch f)
  | _ => none

/-- The integer group of R160 from MOP 0x040. -/
def integerInstr (k : Nat) (f : Form) : Option Instr :=
  match k with
  | 0x00 => some (.iadd f)
  | 0x01 => some (.isub f)
  | 0x02 => some (.imul f)
  | 0x03 => some (.imulh f)
  | 0x04 => some (.imad f)
  | 0x05 => some (.isha f)
  | 0x06 => some (.imin f)
  | 0x07 => some (.imax f)
  | 0x08 => some (.iabs f)
  | 0x09 => some (.and f)
  | 0x0A => some (.or f)
  | 0x0B => some (.xor f)
  | 0x0C => some (.shl f)
  | 0x0D => some (.shr f)
  | 0x0E => some (.rotl f)
  | 0x0F => some (.bfx f)
  | 0x10 => some (.bfi f)
  | 0x11 => some (.popc f)
  | 0x12 => some (.clz f)
  | 0x13 => some (.brev f)
  | 0x14 => some (.isetp f)
  | 0x15 => some (.sel f)
  | 0x16 => some (.mov f)
  | 0x17 => some (.movi f)
  | 0x18 => some (.bsel f)
  | 0x19 => some (.pset f)
  | 0x1A => some (.rdlane f)
  | 0x1B => some (.bcast f)
  | _ => none

/-- The float group of R160 from MOP 0x080. -/
def floatInstr (k : Nat) (f : Form) : Option Instr :=
  match k with
  | 0x00 => some (.fadd f)
  | 0x01 => some (.fmul f)
  | 0x02 => some (.ffma f)
  | 0x03 => some (.fmin f)
  | 0x04 => some (.fmax f)
  | 0x05 => some (.fsetp f)
  | 0x06 => some (.fscl f)
  | 0x07 => some (.rcp f)
  | 0x08 => some (.rsq f)
  | 0x09 => some (.sqrt f)
  | 0x0A => some (.exp2 f)
  | 0x0B => some (.log2 f)
  | 0x0C => some (.sin f)
  | 0x0D => some (.cos f)
  | 0x0E => some (.tanh f)
  | 0x0F => some (.frc f)
  | 0x10 => some (.frnd f)
  | 0x11 => some (.cvt f)
  | 0x12 => some (.f2i f)
  | 0x13 => some (.i2f f)
  | 0x14 => some (.fclass f)
  | 0x15 => some (.dot4 f)
  | _ => none

/-- The quad group of R160 from MOP 0x0C0. -/
def quadInstr (k : Nat) (f : Form) : Option Instr :=
  match k with
  | 0x00 => some (.qxh f)
  | 0x01 => some (.qxv f)
  | 0x02 => some (.qxd f)
  | 0x03 => some (.qbc f)
  | 0x04 => some (.ddx f)
  | 0x05 => some (.ddy f)
  | _ => none

/-- The exchange group of R160 from MOP 0x0C8. -/
def exchangeInstr (k : Nat) (f : Form) : Option Instr :=
  match k with
  | 0x00 => some (.lxch f)
  | 0x01 => some (.redw f)
  | 0x02 => some (.scanw f)
  | 0x03 => some (.matchw f)
  | _ => none

/-- The memory group of R160 from MOP 0x100. -/
def memoryInstr (k : Nat) (f : Form) : Option Instr :=
  match k with
  | 0x00 => some (.ld f)
  | 0x01 => some (.st f)
  | 0x02 => some (.ldv f)
  | 0x03 => some (.stv f)
  | 0x04 => some (.lds f)
  | 0x05 => some (.pref f)
  | 0x06 => some (.atom f)
  | 0x07 => some (.atomv f)
  | 0x08 => some (.cas f)
  | 0x09 => some (.red f)
  | 0x0A => some (.redv f)
  | 0x0B => some (.fence f)
  | 0x0C => some (if f.m2 = 1 then .lineZero f else .lineProbe f)
  | 0x0D => some (.waitw f)
  | 0x0E => some (.swarm f)
  | 0x0F => some (.swwait f)
  | 0x10 => some (.tex f)
  | 0x11 => some (.tld f)
  | _ => none

/-- The barrier group of R160 from MOP 0x140. -/
def barrierInstr (k : Nat) (f : Form) : Option Instr :=
  match k with
  | 0x00 => some (.bara f)
  | 0x01 => some (.barw f)
  | 0x02 => some (.bars f)
  | 0x03 => some (.jset f)
  | 0x04 => some (.jsign f)
  | 0x05 => some (.jwait f)
  | _ => none

/-- The matrix group of R160 from MOP 0x160. -/
def matrixInstr (k : Nat) (f : Form) : Option Instr :=
  match k with
  | 0x00 => some (.wload f)
  | 0x01 => some (.mma f)
  | 0x02 => some (.mmg f)
  | 0x03 => some (.tldt f)
  | 0x04 => some (.tstt f)
  | 0x05 => some (.tmov f)
  | 0x06 => some (.tcvt f)
  | 0x07 => some (.tscl f)
  | 0x08 => some (.acz f)
  | 0x09 => some (.acrd f)
  | 0x0A => some (.acwr f)
  | 0x0B => some (.acst f)
  | _ => none

/-- The object group of R160 from MOP 0x180. -/
def objectInstr (k : Nat) (f : Form) : Option Instr :=
  match k with
  | 0x00 => some (.post f)
  | 0x01 => some (.tsamp f)
  | 0x02 => some (.ocall f)
  | 0x03 => some (.oread f)
  | 0x04 => some (.sld f)
  | 0x05 => some (.sst f)
  | 0x06 => some (.marg f)
  | 0x07 => some (.mret f)
  | 0x08 => some (.mtrap f)
  | 0x09 => some (.ostat f)
  | _ => none

/-- The privileged group of R160 from MOP 0x1C0. -/
def privilegedInstr (k : Nat) (f : Form) : Option Instr :=
  match k with
  | 0x00 => some (.ctxsv f)
  | 0x01 => some (.ctxrs f)
  | 0x02 => some (.tlbi f)
  | 0x03 => some (.dictrd f)
  | 0x04 => some (.lanex f)
  | 0x05 => some (.parkr f)
  | _ => none

/-- The instruction a major opcode names with the fields of a form (R160, R161): none for an invalid MOP. -/
def instrOf (mop : Nat) (f : Form) : Option Instr :=
  if mop < 0x040 then controlInstr (mop - 0x000) f
  else if mop < 0x080 then integerInstr (mop - 0x040) f
  else if mop < 0x0C0 then floatInstr (mop - 0x080) f
  else if mop < 0x0C8 then quadInstr (mop - 0x0C0) f
  else if mop < 0x100 then exchangeInstr (mop - 0x0C8) f
  else if mop < 0x140 then memoryInstr (mop - 0x100) f
  else if mop < 0x160 then barrierInstr (mop - 0x140) f
  else if mop < 0x180 then matrixInstr (mop - 0x160) f
  else if mop < 0x1C0 then objectInstr (mop - 0x180) f
  else privilegedInstr (mop - 0x1C0) f

/-- The major opcode of R160 of a lane's instruction; 0x3FF for a step of the device, the host or firmware. -/
def mopOf : Instr → Nat
  | .nop _ => 0x000
  | .exit _ => 0x008
  | .dfence _ => 0x00C
  | .dictsw _ => 0x00B
  | .yield _ => 0x00F
  | .bkpt _ => 0x010
  | .braUniform _ => 0x001
  | .trap _ => 0x00D
  | .rte _ => 0x00E
  | .ret _ => 0x005
  | .sread _ => 0x011
  | .swrite _ => 0x012
  | .swriteTrappc _ => 0x012
  | .swriteSrseed _ => 0x012
  | .swriteTrapdict _ => 0x012
  | .swriteCexctl _ => 0x012
  | .swritePcmp _ => 0x012
  | .dictld _ => 0x00A
  | .waitc _ => 0x013
  | .voteActive _ => 0x016
  | .vote _ => 0x016
  | .bra _ => 0x001
  | .brx _ => 0x002
  | .call _ => 0x003
  | .callx _ => 0x004
  | .join _ => 0x006
  | .reform _ => 0x007
  | .reformHome _ => 0x007
  | .window _ => 0x009
  | .sleep _ => 0x014
  | .elect _ => 0x015
  | .launch _ => 0x017
  | .iadd _ => 0x040
  | .isub _ => 0x041
  | .imul _ => 0x042
  | .imulh _ => 0x043
  | .imad _ => 0x044
  | .isha _ => 0x045
  | .imin _ => 0x046
  | .imax _ => 0x047
  | .iabs _ => 0x048
  | .and _ => 0x049
  | .or _ => 0x04A
  | .xor _ => 0x04B
  | .shl _ => 0x04C
  | .shr _ => 0x04D
  | .rotl _ => 0x04E
  | .bfx _ => 0x04F
  | .bfi _ => 0x050
  | .popc _ => 0x051
  | .clz _ => 0x052
  | .brev _ => 0x053
  | .isetp _ => 0x054
  | .sel _ => 0x055
  | .mov _ => 0x056
  | .movi _ => 0x057
  | .bsel _ => 0x058
  | .pset _ => 0x059
  | .rdlane _ => 0x05A
  | .bcast _ => 0x05B
  | .fadd _ => 0x080
  | .fmul _ => 0x081
  | .ffma _ => 0x082
  | .fmin _ => 0x083
  | .fmax _ => 0x084
  | .fsetp _ => 0x085
  | .fscl _ => 0x086
  | .rcp _ => 0x087
  | .rsq _ => 0x088
  | .sqrt _ => 0x089
  | .exp2 _ => 0x08A
  | .log2 _ => 0x08B
  | .sin _ => 0x08C
  | .cos _ => 0x08D
  | .tanh _ => 0x08E
  | .frc _ => 0x08F
  | .frnd _ => 0x090
  | .cvt _ => 0x091
  | .f2i _ => 0x092
  | .i2f _ => 0x093
  | .fclass _ => 0x094
  | .dot4 _ => 0x095
  | .qxh _ => 0x0C0
  | .qxv _ => 0x0C1
  | .qxd _ => 0x0C2
  | .qbc _ => 0x0C3
  | .ddx _ => 0x0C4
  | .ddy _ => 0x0C5
  | .lxch _ => 0x0C8
  | .redw _ => 0x0C9
  | .scanw _ => 0x0CA
  | .matchw _ => 0x0CB
  | .ld _ => 0x100
  | .st _ => 0x101
  | .ldv _ => 0x102
  | .stv _ => 0x103
  | .lds _ => 0x104
  | .pref _ => 0x105
  | .atom _ => 0x106
  | .atomv _ => 0x107
  | .cas _ => 0x108
  | .red _ => 0x109
  | .redv _ => 0x10A
  | .fence _ => 0x10B
  | .lineProbe _ => 0x10C
  | .lineZero _ => 0x10C
  | .waitw _ => 0x10D
  | .swarm _ => 0x10E
  | .swwait _ => 0x10F
  | .tex _ => 0x110
  | .tld _ => 0x111
  | .bara _ => 0x140
  | .barw _ => 0x141
  | .bars _ => 0x142
  | .jset _ => 0x143
  | .jsign _ => 0x144
  | .convergenceOpComplete _ _ => 0x3FF
  | .jwait _ => 0x145
  | .wload _ => 0x160
  | .mma _ => 0x161
  | .mmg _ => 0x162
  | .tldt _ => 0x163
  | .tstt _ => 0x164
  | .tmov _ => 0x165
  | .tcvt _ => 0x166
  | .tscl _ => 0x167
  | .acz _ => 0x168
  | .acrd _ => 0x169
  | .acwr _ => 0x16A
  | .acst _ => 0x16B
  | .post _ => 0x180
  | .tsamp _ => 0x181
  | .ocall _ => 0x182
  | .oread _ => 0x183
  | .sld _ => 0x184
  | .sst _ => 0x185
  | .marg _ => 0x186
  | .mret _ => 0x187
  | .mtrap _ => 0x188
  | .ostat _ => 0x189
  | .ctxsv _ => 0x1C0
  | .ctxrs _ => 0x1C1
  | .tlbi _ => 0x1C2
  | .dictrd _ => 0x1C3
  | .lanex _ => 0x1C4
  | .parkr _ => 0x1C5
  | .hatchArgStore _ _ => 0x3FF
  | .copyLinear _ _ => 0x3FF
  | .copyStrided _ _ => 0x3FF
  | .copyFill _ _ => 0x3FF
  | .nmLoad _ _ => 0x3FF
  | .nmRun _ _ => 0x3FF
  | .draw _ _ => 0x3FF
  | .invoke _ _ => 0x3FF
  | .readout _ _ => 0x3FF
  | .queuePush _ _ => 0x3FF
  | .goAccept _ _ _ => 0x3FF
  | .copyPortionLand _ _ => 0x3FF
  | .completionRegisterWrite _ _ _ => 0x3FF
  | .nmLoadPart _ _ _ => 0x3FF
  | .nmWave _ _ _ _ => 0x3FF
  | .orderTokenIssue _ _ _ _ => 0x3FF
  | .fragmentApply _ _ _ => 0x3FF
  | .invokeApply _ _ _ => 0x3FF
  | .workgroupAdmission _ _ _ _ => 0x3FF
  | .gangReservation _ _ _ _ _ => 0x3FF
  | .gangAged _ _ => 0x3FF
  | .binDraw _ _ _ _ => 0x3FF
  | .loadDataLand _ => 0x3FF
  | .translationComplete _ _ _ => 0x3FF
  | .pageZeroingComplete _ _ => 0x3FF
  | .writeQueueApply _ => 0x3FF
  | .dictSlotLoad _ _ _ => 0x3FF
  | .waitwReread _ => 0x3FF
  | .syncExtwait _ => 0x3FF
  | .sleepExpiry _ _ _ => 0x3FF
  | .handlerEntry _ => 0x3FF
  | .hangDetected _ => 0x3FF
  | .eventRetire _ _ => 0x3FF
  | .hostEventAnswer _ _ _ => 0x3FF
  | .preemptRequest _ => 0x3FF
  | .cooperativeSave _ _ => 0x3FF
  | .preForced _ _ => 0x3FF
  | .contextSaveComplete _ => 0x3FF
  | .replayApply _ _ _ _ => 0x3FF
  | .replicaRebuild _ _ _ _ => 0x3FF
  | .coreUe _ => 0x3FF
  | .vaultLineUe _ _ => 0x3FF
  | .hbmChunkUe _ _ => 0x3FF
  | .dictSlotUe _ _ => 0x3FF
  | .replicaUe _ _ _ => 0x3FF
  | .bmuFault _ _ => 0x3FF
  | .machineCheck _ => 0x3FF
  | .clockThrottle _ _ _ => 0x3FF
  | .cexRemainTick _ => 0x3FF
  | .hostQueuePush _ _ => 0x3FF
  | .hostGoAccept _ => 0x3FF
  | .attach _ _ _ => 0x3FF
  | .detach _ => 0x3FF
  | .halt _ _ => 0x3FF
  | .resume _ _ => 0x3FF
  | .step _ _ => 0x3FF
  | .snapshot _ _ _ => 0x3FF
  | .dict _ _ => 0x3FF
  | .trace _ _ _ => 0x3FF
  | .dreset _ => 0x3FF
  | .registerWrite _ _ => 0x3FF
  | .hostBar2Read _ _ => 0x3FF
  | .hostBar2Write _ _ => 0x3FF
  | .reset _ => 0x3FF
  | .attestationReport _ => 0x3FF
  | .ethWriteFrame _ => 0x3FF
  | .ethReadRequest _ => 0x3FF
  | .ethReadData _ => 0x3FF
  | .ethAcknowledge _ => 0x3FF
  | .ethFrameDiscard _ => 0x3FF
  | .resendTimeout _ => 0x3FF
  | .contextCreate _ _ => 0x3FF
  | .contextMakeResident _ => 0x3FF
  | .contextDestroy _ => 0x3FF
  | .modeWrite _ _ => 0x3FF
  | .objectCreate _ _ _ _ _ => 0x3FF
  | .objectDestroy _ _ => 0x3FF
  | .allocate _ _ => 0x3FF
  | .mappingChange _ _ => 0x3FF
  | .ageLimitSet _ _ => 0x3FF
  | .extwaitSet _ _ => 0x3FF
  | .hanglimitSet _ _ => 0x3FF
  | .trapConfigSet _ _ _ _ => 0x3FF
  | .bankKeyRead _ => 0x3FF
  | .eventAreaRegister _ _ => 0x3FF
  | .hangAreaRegister _ _ => 0x3FF
  | .writePerform _ => 0x3FF
  | .mappingChangeComplete _ => 0x3FF
  | .restoreComplete _ => 0x3FF

/-- The MOPs privileged code alone may execute: 0x1C0 to 0x1C5 (R160, R336). -/
def privilegedMop (mop : Nat) : Bool := 0x1C0 ≤ mop && mop ≤ 0x1C5

/-- The MOPs of R160. -/
def assignedMop (k : Nat) : Bool :=
  k < 0x18 || (0x40 ≤ k && k ≤ 0x5B) || (0x80 ≤ k && k ≤ 0x95) || (0xC0 ≤ k && k ≤ 0xC5) || (0xC8 ≤ k && k ≤ 0xCB)
    || (0x100 ≤ k && k ≤ 0x111) || (0x140 ≤ k && k ≤ 0x145) || (0x160 ≤ k && k ≤ 0x16B) || (0x180 ≤ k && k ≤ 0x189)
    || privilegedMop k

/-- The MOPs of the method subset (R162). -/
def methodMop (k : Nat) : Bool :=
  (0x40 ≤ k && k ≤ 0x59) || (0x80 ≤ k && k ≤ 0x94) || (0x184 ≤ k && k ≤ 0x188) || k == 0x001 || k == 0x008 || k == 0x000

/-- The MOPs a control core executes (R18, R162). -/
def controlMop (k : Nat) : Bool := decide (k < 0x18) || methodMop k || privilegedMop k

/-! ### Decoding -/

/-- The instruction of a word (R132), with the template its active slot holds at its index and the word that follows. -/
def decode (w : Word) (entry : Nat → Template) (lit : Word) : Except Reject Instr :=
  let dix := (wordDix w).toNat
  if dix < 0x040 then
    if 0x010 ≤ dix then .error .reserved
    else
      match instrOf (templateMop (fixedTemplate dix)).toNat (formOf w (fixedTemplate dix) lit) with
      | some i => .ok i
      | none => .error .undefined
  else
    match instrOf (templateMop (entry dix)).toNat (formOf w (entry dix) lit) with
    | some i => .ok i
    | none => .error .undefined

/-- Whether a word's template takes the literal that follows (R131, R136). -/
def takesLiteral (w : Word) (entry : Nat → Template) : Bool :=
  let dix := (wordDix w).toNat
  let t := if dix < 0x040 then fixedTemplate dix else entry dix
  ImmSrc.ofBits (t.extractLsb' 101 2) = .literal

/-- The little-endian word of the first four bytes of a list, missing bytes 0 (R5). -/
def wordOfBytes (l : List Byte) : Word :=
  l.getD 3 0 ++ l.getD 2 0 ++ l.getD 1 0 ++ l.getD 0 0

/-- The bytes of a word, lowest address first (R5). -/
def bytesOfWord (w : Word) : List Byte :=
  [w.extractLsb' 0 8, w.extractLsb' 8 8, w.extractLsb' 16 8, w.extractLsb' 24 8]

/-- The instruction of any bytes: the word and the literal that may follow it. -/
def decodeBytes (l : List Byte) (entry : Nat → Template) : Except Reject Instr :=
  decode (wordOfBytes l) entry (wordOfBytes (l.drop 4))

/-- The bytes of the instruction the opcode table writes as `w`: `nbits` bits, and zeros above them up to 64. -/
def tableBytes (nbits w : Nat) : List Byte :=
  let v : DWord := BitVec.ofNat 64 (w % 2 ^ (min nbits 64))
  bytesOfWord (v.extractLsb' 0 32) ++ bytesOfWord (v.extractLsb' 32 32)

/-- The instruction the decoder reads from a word of the opcode table; only fixed entries have bits in the table, and
no dictionary is loaded. -/
def decodeTableWord (nbits w : Nat) : Option Instr :=
  match decodeBytes (tableBytes nbits w) (fun _ => undefinedTemplate) with
  | .ok i => some i
  | .error _ => none

/-! ### Validity of a template in an image -/

/-- Whether the NUM of a fixed slot lies within its class (R153). -/
def fixedNumOk (isD : Bool) (s : Slot) : Bool :=
  let n := s.num.toNat
  match s.cls with
  | .none        => true
  | .vector      => n < 512 || (!isD && 0x200 ≤ n && n ≤ 0x207)
  | .uniform     => n < 64
  | .predicate   => n < 8
  | .tile        => n < 16
  | .accumulator => n < 4
  | .convergence => n < 16
  | .immediate   => true

/-- The slot rows of R153. -/
def slotOk (isD : Bool) (s : Slot) : Bool :=
  (if s.cls = .none then s.hole = .fixed && !s.lu && s.num == 0 else true)
    && (if s.cls = .immediate then s.num == 0 && !s.lu && !isD else true)
    && (if s.hole = .fixed then fixedNumOk isD s else s.num == 0)
    && (!s.lu || (s.cls = .vector && !isD))

/-- Whether a slot is an immediate that reads IMM. -/
def Slot.readsImm (s : Slot) : Bool := s.cls = .immediate && s.hole = .fixed

/-- The IMMSRC and field-use rows of R153. -/
def immOk (f : Form) : Bool :=
  let slots := [f.d, f.a, f.b, f.c]
  (f.immsrc = .template || (f.imm == 0 && slots.any Slot.readsImm))
    && (f.immsrc != .faFb || slots.all (fun s => s.hole != .fa && s.hole != .fb))
    && (f.immsrc != .fb || slots.all (fun s => s.hole != .fb))

/-- The checks of R153 on the fields of a form. -/
def formOk (f : Form) : Bool :=
  !f.b96 && slotOk true f.d && slotOk false f.a && slotOk false f.b && slotOk false f.c && immOk f

/-- Whether a template of an image is valid (R153); `priv` when the image is loaded in privileged mode. -/
def templateValid (priv : Bool) (t : Template) : Bool :=
  assignedMop (templateMop t).toNat && (priv || !privilegedMop (templateMop t).toNat) && formOk (formOf 0 t 0)

/-! ### Encoding -/

/-- A lane's instruction in bits: its template, its word and the literal that follows where IMMSRC is 1. -/
structure Encoded where
  template : Template
  word     : Word
  literal  : Word
  deriving DecidableEq, Repr

/-- The bits of a lane's instruction, from R129 and R151; none for a step of the device, the host or firmware, which
has no encoding. -/
def encode (i : Instr) : Option Encoded :=
  i.form?.map fun f =>
    { template := f.template (BitVec.ofNat 10 (mopOf i)), word := f.word, literal := f.lit }

end Sys2Proof
end

