-- ==== Sys2Proof/Config.lean ====
section
/-! DEFINITION. What one device fixes, and the free values: constants with no body, which nothing can evaluate. -/

namespace Sys2Proof.Config

/-- A value the manual leaves open, fresh at each use: the model applies it to the counter State holds (log 14). -/
opaque freeByte : Nat → BitVec 8
/-- As `freeByte`, 32 bits wide (log 14). -/
opaque freeWord : Nat → BitVec 32

/-- Silicon revision, DEVID[31:16] of R27 (log 16). -/
opaque siliconRevision : BitVec 16
/-- Firmware version of the DEVICE capability record, R39 (log 16). -/
opaque firmwareVersion : BitVec 32
/-- Package serial number of the DEVICE capability record, R39 (log 16). -/
opaque packageSerial : BitVec 32
/-- Resident graphics contexts of the CONTEXTS capability record, R39 (log 16). -/
opaque residentContexts : BitVec 16
/-- The private identity key fused at manufacture, which no software reads (R36, log 10). -/
opaque identityKey : Nat
/-- The hash of the public key fused into the device (R35, log 10). -/
opaque fusedKeyHash : List (BitVec 8)

/-- BAR0 offset of the first capability record (R27); the manual's walk uses 0x800 (log 16). -/
def capBase : Nat := 0x800

/-- Bytes of one HBM stack: 48 GB (R16, R3). -/
def hbmBytes : Nat := 48000000000
/-- Distance between two HBM stacks in the physical map of BAR2 (R31). -/
def hbmSpan : Nat := 0x1000000000
/-- Physical base of the vaults in the map of BAR2 (R31). -/
def vaultBase : Nat := 0xC000000000
/-- Bytes of one vault (R15). -/
def vaultBytes : Nat := 0x100000
/-- Where the model places host memory in its physical map, above BAR2 (log 4). -/
def hostBase : Nat := 0x10000000000

/-- The bank group, and the column, of a 64-byte chunk by its place in the 64 KiB of its page: the manual fixes that they are one for the
matching chunks of a key, not which (R127, log 16). -/
opaque bankGroupOf : Nat → Nat
@[inherit_doc bankGroupOf]
opaque columnOf : Nat → Nat

/-- Cores of the package (R13). -/
def numCores : Nat := 2048
/-- HBM stacks (R10). -/
def numStacks : Nat := 12
/-- Contexts (R27, R332). -/
def numContexts : Nat := 1024
/-- Fault records of one die (R121). -/
def faultRecords : Nat := 1024
/-- Microwords in the control store of one sequencer (R457). -/
def controlStore : Nat := 16384
/-- Nominal clocks in kHz: ACLK, VCLK, NCLK (R11). -/
def aclkKHz : Nat := 700000
def vclkKHz : Nat := 1400000
def nclkKHz : Nat := 500000

end Sys2Proof.Config
end

