-- ==== Sys2Proof/Machine/State.lean ====
section
/-! DEFINITION. The state of the Ouvzel X6 package as plain data: registers, memories, lanes, groups, engines, objects
and the host's interface; the faults and refusals of the model; and the state after reset. -/

namespace Sys2Proof.Machine

/-- The reasons the model stops. -/
inductive Fault where
  /-- Raised by a lane's instruction given to `exec` while no issue group and no method invocation is current (log 1);
  safe: the manual gives no effect outside an issue (R78, R420). -/
  | noIssueGroup
  deriving DecidableEq, Repr

/-- The reasons the model answers with no meaning. -/
inductive Refusal where
  /-- Raised by an arm of `exec` that has no meaning yet; safe: nothing follows from it. -/
  | notModelled (mnemonic : String)
  deriving DecidableEq, Repr

/-- The cause codes of R374. -/
inductive Cause where
  | bkpt | pcmatch | step | causalEnd
  | dictUndef | dictReserved | dictSlotEmpty | dictLoad | dictPriv
  | illField | illClass | illPriv | illType | illScope | illLiteral
  | regWindow | regLivemax | regLatch | regDest
  | addrAlign | addrRange | addrNoncanon | addrHatch
  | pageAbsent | pagePerm
  | eccVault | eccHbm | eccReg | eccDict
  | syncPhase | syncMember | syncHang | syncJoin | syncSigner | syncExtwait
  | arithFp | arithNar
  | matFormat | matIndex | matScale
  | engCmd | engOrder | engError | engUe
  | objHandle | objMethod | objRo | tgtPsn | tgtDamaged | objFenced
  | ctlStack | ctlBin | ctlQuadSplit
  | preForced
  | swTrap (n : BitVec 4)
  | mcFabric | mcInternal
  deriving DecidableEq, Repr

/-- The stall reasons of R106. -/
inductive Stall where
  | trapHalt | preemptSave | dictFence | fetch | scoreboard | completionWait | memoryData | translation | barrier
  | join | convergence | objectCall | engineWindow | pipeBusy | notSelected
  deriving DecidableEq, Repr

/-- One entry of a bypass latch (R137): empty, full, or awaiting word `k` of the result of access `seq` (R139). -/
inductive Latch where
  | empty
  | full (w : Word)
  | awaiting (seq k : Nat)
  deriving DecidableEq, Repr

/-- A scheduler entry: a warp, or the reformed group of a group slot of its core (R104). -/
inductive Entry where
  | warp (wg w : Nat)
  | slot (n : Nat)
  deriving DecidableEq, Repr

/-- A pipe: its latches by lane position, b0 first; its last issue group (R83, R137); and its scheduler entries in order,
the active one first and the pending ones from the oldest on (R104, R105). -/
structure Pipe where
  core    : Nat
  pane    : Nat
  pipe    : Nat
  latches : List (List Latch)
  last    : Option GroupRef
  entries : List Entry := []
  deriving DecidableEq, Repr

/-- A physical row of a vector register file (R143, R144): the register mapped to it, if any, its 32 values, the
accesses whose results it awaits (R145), and whether it is a handler row (R382). -/
structure Row where
  id      : Nat
  reg     : Option Nat
  vals    : List Word
  await   : List Nat
  handler : Bool
  deriving DecidableEq, Repr

/-- The destination of a result that arrives later: vector register rows by word, the lane position in them; and what the lane
held in the registers that LU released, for a wait that ends in a fault or a park (R148). -/
structure Dest where
  regs : List Nat
  pos  : Nat
  nwb  : Bool
  pred : Option Nat
  kept : List (Nat × Word) := []
  deriving DecidableEq, Repr

/-- What a WAITING lane waits for (R77). -/
inductive Wait where
  /-- JOIN with the mask it read and the register it names (R87, R380). -/
  | join (mask : Word) (reg : Nat)
  /-- BARW or BARS at level `sc`, barrier `n` (R256). -/
  | barrier (sc n : Nat)
  /-- A signer of convergence register `j` (R95). -/
  | signed (j : Nat)
  /-- JWAIT on `j` (R262). -/
  | jwait (j : Nat) (dst : Dest)
  /-- OCALL held by a full log, no position given yet (R443). -/
  | callFull (h k : Word) (args : List Word) (dst : Dest)
  /-- OCALL holding position `n`; `saved` once its gang has been saved at the wait (R443, R450). -/
  | call (h n : Word) (saved : Bool) (dst : Dest)
  /-- OREAD with its minimum (R444). -/
  | oread (h k : Word) (args : List Word) (min : Word) (dst : Dest)
  /-- WAITW: address, size, signed, comparison, operand, and the clock at which it began (R245, R246). -/
  | waitw (ea size : Nat) (signed : Bool) (cmp : Nat) (val : DWord) (since : Nat) (dst : Dest)
  /-- TSAMP.SETTLED on a pixel, behind the commands accepted before it (R303, R427). -/
  | settled (h : Word) (x y s : Nat) (cmds : List Nat) (dst : Dest)
  /-- YIELD, until its gang is saved (R328). -/
  | yielded
  /-- A wait on an object that was destroyed while its lane was HALTED or saved: it faults once it goes on (R50, R379). -/
  | lost (h : Word)
  /-- A wait whose condition has come true: what it writes after RTE, where its lane was HALTED (R379), or once its register's row
  awaits no earlier result (R147). -/
  | landed (words : List Word) (pred : Option Bool) (dst : Dest)
  deriving DecidableEq, Repr

/-- The state of a lane, apart from HALTED, which keeps the state it had (R77, R384). -/
inductive LaneState where
  | issuing
  | waiting (w : Wait)
  | binned
  /-- Attached to fault record `record` of `die`; `signer` when it is a signer of a stopped MMG (R362). -/
  | parked (die record : Nat) (signer : Bool)
  | exited
  deriving DecidableEq, Repr

/-- A lane's entry of the side buffer (R380). -/
structure Side where
  cause  : Byte
  state  : BitVec 3
  helper : Bool
  detail : BitVec 52
  deriving DecidableEq, Repr

/-- One on-chip entry of a call stack (R313). -/
structure Frame where
  rpc : Word
  rwb : Nat
  deriving DecidableEq, Repr

/-- What a pixel lane holds (R408, R409, R425). -/
structure Pixel where
  cmd    : Nat
  target : Word
  psn    : Word
  xy     : Word
  bary0  : Word
  bary1  : Word
  mask   : Word
  helper : Bool
  posted : Bool
  deriving DecidableEq, Repr

/-- A lane's account at one barrier (R254 to R256): level, number, arrivals made, and the last phase latched plus 1. -/
structure Arrival where
  sc      : Nat
  n       : Nat
  made    : Nat
  latched : Nat
  deriving DecidableEq, Repr

/-- A lane (R75 to R77). Predicates p0 to p6 are bits 0 to 6. -/
structure Lane where
  pc       : Word
  npc      : Word                -- where it goes on when its wait ends (R491)
  wbase    : Nat
  preds    : BitVec 7
  st       : LaneState
  halted   : Bool
  reformed : Option Nat          -- the group slot of its core it runs in
  carried  : Nat                 -- registers a filed or reformed lane carries (R90)
  carry    : Option (List (Nat × Word))   -- carried values of a lane taken from its reformed group (R90, R379)
  stack    : List Frame          -- top first
  spilled  : Nat                 -- m of R313
  pass     : Option Word
  trappc   : Word
  side     : Side
  pixel    : Option Pixel
  arrivals : List Arrival
  fresh    : Bool                -- no comparator matches its next issue (R477)
  keySlot  : Option Nat := none  -- the slot of the bin key of a lane halted in a bin or a reformed group (R379, R474)
  batch    : Nat := 0            -- of a PARKED lane the number of the issue that parked it, with others or alone (R122, R385)
  owed     : Option (Cause × BitVec 52) := none   -- a fault of its access that a HALTED lane takes once it goes on (R341, R379)
  deriving DecidableEq, Repr

/-- Why an issue group is held at its instruction (R106). -/
inductive Hold where
  | stalled (r : Stall)
  /-- SLEEP until CLOCK reaches `t` (R330). -/
  | sleep (t : Nat)
  /-- TLBI until mapping change `id` completes (R338). -/
  | change (id : Nat)
  /-- A store to the hatch whose entries are in the window's queue (R269): its next PC, the registers LU releases at its
  end, and the faults and parks of its lanes so far. -/
  | window (npc : Word) (lu : List Nat) (faults : List (Nat × Cause × BitVec 52)) (parks : List (Nat × Nat))
  /-- A write of completion registers that waits for COUNT 0, with the next PC (R274). -/
  | creg (writes : List (Nat × Word)) (npc : Word)
  /-- SWWAIT: by position the offset, the generation and the core index of each lane; the next PC, the destination and NWB
  (R267); and by position what the lanes held in the registers that LU released (R148). -/
  | swwait (asks : List (Nat × Nat × Word × Option Nat)) (npc : Word) (regs : List Nat) (nwb : Bool) (kept : List (Nat × List (Nat × Word)))
  /-- WAITC on completion register `r`, with the next PC and the lanes whose guard is true (R329). -/
  | waitc (r : Nat) (npc : Word) (act : List Nat)
  deriving DecidableEq, Repr

/-- An issue group (R78, R81): its lanes by position, its hold and its debt (R489); and since the broadcast of a halt the
instructions it issued that read no latch, and those in a row that read one (R377). -/
structure Group where
  gid   : Nat
  lanes : List Nat
  hold  : Option Hold
  debt  : Nat
  skid  : Nat := 0
  chain : Nat := 0
  deriving DecidableEq, Repr

/-- A convergence register with its open round (R94, R260): the form and operand values that opened it, its signers, the
pane of the first, the order in which rounds filled, and whether its operation has run or stands stopped (R362). -/
structure ConvReg where
  target   : Nat
  signed   : Nat
  progress : Nat
  round    : Option Form
  mop      : Nat
  values   : List Word
  signers  : List (Nat × Nat)    -- (WARPID, LANEID)
  pane     : Nat
  filled   : Nat
  ran      : Bool
  stopped  : Bool
  deriving DecidableEq, Repr

/-- A barrier (R255). -/
structure Barrier where
  phase : Nat
  c0    : Nat
  c1    : Nat
  deriving DecidableEq, Repr

/-- An entry waiting in a warp's engine window: a hatch store of lane `lane` at offset 8 m (R269). -/
structure HatchEntry where
  gid  : Nat
  lane : Nat
  m    : Nat
  val  : DWord
  deriving DecidableEq, Repr

/-- The stage of an engine window: a checked GO with its lane's arguments (R269, R271), and for a RUN the base and bytes of each
operand, as they stood at the check (R464). -/
structure Staged where
  gid  : Nat
  lane : Nat
  go   : DWord
  a0   : DWord
  a1   : DWord
  a2   : DWord
  a3   : DWord
  ops  : List (Nat × Nat) := []
  deriving DecidableEq, Repr

/-- What a lane held when its warp's handler began (R384). -/
structure LaneSave where
  st    : LaneState
  wbase : Nat
  pc    : Word
  npc   : Word
  deriving DecidableEq, Repr

/-- What a debug cause interrupted in a handler: the ring and lanes recorded for that handler, its recorded slots and its
record of mapped registers (R166, R382, R383). -/
structure Nested where
  ring  : List Group
  saved : List LaneSave
  act   : Nat
  pend  : Nat
  entry : List Nat
  deriving DecidableEq, Repr

/-- A warp (R75, R76). -/
structure Warp where
  role      : Nat
  livemax   : Nat
  pane      : Nat
  pipe      : Nat
  uregs     : List Word            -- s0 to s63
  fpstat    : Word
  srseed    : Word
  csbase    : DWord
  active    : Nat                  -- dictionary slots (R163)
  pending   : Nat
  trapAct   : Nat                  -- recorded at trap entry (R166)
  trapPend  : Nat
  loading   : List (Nat × Nat)     -- DICTLDs of this warp not complete: (slot, load number)
  loadFail  : Bool                 -- a waited load found its slot emptied (R164)
  rejected  : Nat
  rows      : List Row
  lanes     : List Lane
  ring      : List Group
  ringSaved : List Group           -- the ring at handler entry, while privileged
  saved     : List LaneSave        -- its lanes at handler entry (R384)
  nest      : List Nested          -- the handlers that debug causes interrupted, newest first (R383)
  current   : Nat                  -- gid of the current group
  privileged : Bool
  args      : List (List DWord)    -- A0-A3 by lane position (R268)
  stage     : Option Staged
  hatchq    : List HatchEntry
  bars      : List Barrier         -- 4
  trapCause : Byte
  trapLane  : Nat
  skid      : Nat
  entryMap  : List Nat             -- registers of v392-v511 mapped at handler entry (R382)
  stepping  : Nat                  -- STEP: 1 may issue one instruction, 2 has issued it (R482)
  cregGo    : List (Nat × Word) := []   -- GO[31:0] of the command that last set ERR or UE of a completion register (R380)
  deriving DecidableEq, Repr

/-- Latched weights of one pane (R347). -/
structure Weights where
  fmt   : Ty
  b     : List (List Word)         -- B(k, n): element codes
  sb    : List (List Nat)          -- SB(k, n)
  deriving DecidableEq, Repr

/-- The tiles, accumulators and weights a workgroup holds on one pane (R345 to R348). -/
structure PaneState where
  tiles   : List (Cells 8)         -- byte 64 r + c of each tile
  sides   : List (Cells 8)         -- 64 side-file bytes of each tile
  accs    : List (Cells 32)        -- element 32 m + n of each accumulator
  weights : Option Weights
  deriving DecidableEq, Repr

/-- The trap of a workgroup (R376 to R384, R480). -/
structure TrapState where
  warp    : Nat
  cause   : Cause
  debug   : Bool                   -- delivered to the debugger
  entered : Bool                   -- the workgroup has stopped, and its handler, if it has one, runs
  handler : Bool                   -- a handler runs
  recorded : Bool                  -- its debug record stands in the ring (R480)
  tag     : Nat                    -- the lowest matching comparator, for PCMATCH
  since   : Nat := 0               -- CLOCK when it was raised (R376)
  deriving DecidableEq, Repr

/-- A resident or saved workgroup. -/
structure Workgroup where
  id       : Nat
  ctx      : Nat
  launch   : Nat
  linear   : Nat
  wgx      : Nat
  wgy      : Nat
  wgz      : Nat
  gang     : Nat
  core     : Nat                   -- vault index (R14)
  sbase    : Nat
  vbytes   : Nat
  args     : List Word             -- ARG0-ARG7
  warps    : List Warp
  bars     : List Barrier          -- 16
  jregs    : List ConvReg
  tileN    : Nat
  accN     : Nat
  panes    : List PaneState        -- 4
  trap     : Option TrapState
  outer    : List TrapState        -- traps whose handlers a debug cause interrupted, newest first (R383)
  resident : Bool
  kept     : Bool                  -- ended, but its scratchpad is kept (R277)
  pixelCmd : Option Nat
  pendHalt : Bool                  -- HALT waits for an ISSUING lane (R481)
  savedMem : Cells 8               -- its scratchpad while it is saved, by offset (R395)
  savedUe  : List Nat              -- offsets of its poisoned lines while it is saved (R48)
  moved    : Bool := false         -- its saved state has left its vault for the save area in memory (R392)
  saveAt   : Option (Nat × Nat) := none   -- the save area in its vault, and its bytes, until then (R113, R392)
  deriving DecidableEq, Repr

/-- A role of a launch header (R96). -/
structure Role where
  entry    : Word
  warps    : Nat
  livemax  : Nat
  wbase0   : Nat
  dictslot : Nat
  resv     : DWord
  deriving DecidableEq, Repr

/-- A launch header (R96). -/
structure Header where
  id        : Word
  flags     : Word
  gx        : Nat
  gy        : Nat
  gz        : Nat
  gang      : Nat
  priority  : Nat
  nroles    : Nat
  vbytes    : Nat
  tiles     : Nat
  accs      : Nat
  jregs     : Nat
  stackKib  : Nat
  codeVa    : DWord
  dictVa    : DWord
  argVa     : DWord
  homeObj   : Word
  deadline  : Nat
  roles     : List Role
  deriving DecidableEq, Repr

/-- What started a launch (R395). -/
inductive Origin where
  /-- LAUNCH: its command (R335). -/
  | launch (cmd : Nat)
  /-- A queue push: queue, position, fence, and the completion register of a hatch GO (R455, R456). -/
  | push (handle pos : Word) (fence value : DWord) (lane : Option LaneRef) (creg : Nat)
  | draw (cmd : Nat)
  | outside
  deriving DecidableEq, Repr

/-- A reform bin (R90). -/
structure Bin where
  number : Nat
  ctx    : Nat
  pc     : Word
  wbase  : Nat
  dslot  : Nat
  lanes  : List (LaneRef × Nat)    -- in filing order, with the clock of filing
  deriving DecidableEq, Repr

/-- A reformed group in a group slot (R91 to R93, R149). -/
structure Reformed where
  slot   : Nat
  ctx    : Nat
  dslot  : Nat
  keyPc  : Word
  wbase0 : Nat
  pane   : Nat
  pipe   : Nat
  lanes  : List (Option LaneRef)   -- by position; none once it has left
  groups : List Group              -- its issue groups, lanes by position (R80)
  carried : Nat                    -- the most registers a lane of the draw carries
  rows   : List Row
  lead   : Option LaneRef := none  -- the lane drawn at position 0 (R69)
  deriving DecidableEq, Repr

/-- A gang of a launch while it is reserved, aged, resident or saved (R102, R103, R253). -/
structure Gang where
  number   : Nat
  reserved : List (Nat × Nat × List Place)   -- (core, SBASE, places) in order
  since    : Option Nat
  aged     : Bool
  bars     : List Barrier                    -- 32
  saved    : Bool
  bins     : List (Nat × Bin)                -- saved: bin entries and reformed groups of its lanes, by core (R395)
  groups   : List (Nat × Reformed)
  cluster  : Option Nat := none              -- the cluster chosen for its reservation (R47, R102)
  deriving DecidableEq, Repr

/-- A pixel workgroup a DRAW forms: triangle, tile and the pixels of its lanes (R408). -/
structure PixelWg where
  tri   : Nat
  tx    : Nat
  ty    : Nat
  lanes : List (Option Pixel)
  deriving DecidableEq, Repr

/-- A workgroup lost with its core, to be launched again: its pixels, in a pixel launch, and the event whose answer it
waits for (R43, R45). -/
structure Lost where
  linear : Nat
  gang   : Nat
  pixels : Option PixelWg
  event  : Option Nat
  deriving DecidableEq, Repr

/-- A launch entered into grid scheduling (R96 to R103, R492). -/
structure Launch where
  id      : Nat
  ctx     : Nat
  header  : Header
  nextWg  : Nat
  live    : Nat                    -- workgroups admitted and not ended
  gangs   : List Gang
  bars    : List Barrier           -- 8
  refused : Bool
  absent  : Option Nat             -- the 64 KiB region an admission waits for (R494)
  origin  : Origin
  pixels  : List PixelWg           -- pixel workgroups ready to be admitted
  lost    : List Lost
  ended   : Bool
  held    : Option (Nat × Nat × List Place) := none   -- the core, SBASE and places that a waiting admission holds (R494)
  deriving DecidableEq, Repr

/-- A mapping (R117), also held in the translation caches and walks. -/
structure Page where
  va   : Nat
  size : Nat
  phys : Nat
  r    : Bool
  w    : Bool
  x    : Bool
  host : Bool
  key  : Nat
  z    : Bool
  deriving DecidableEq, Repr

/-- An allocation (R126, R127), in order of making. -/
structure Alloc where
  va       : Nat
  size     : Nat
  key      : Nat
  affinity : Affinity
  deriving DecidableEq, Repr

/-- An entry of the peer table (R24): valid, port, the peer device, its exported window, and the window's length. -/
structure Peer where
  valid  : Bool
  port   : Nat
  window : Word
  bytes  : Nat
  node   : Nat := 0
  deriving DecidableEq, Repr

/-- A method of a target or object (R410, R419): code, dictionary, flag bit 0 of MFLAGS. -/
structure Method where
  flag : Bool
  code : List Word
  dict : List (Nat × Template)
  rejected : Nat
  deriving DecidableEq, Repr

/-- The covered samples of a pixel in an order token (R415), and the fragment it becomes: still open, posted with
method, coverage and value words, or applied or nulled (R416). -/
inductive FragState where
  | opened
  | posted (k : Nat) (cov : Word) (vals : List Word)
  | done
  deriving DecidableEq, Repr

/-- A token at one pixel (R415). -/
structure Fragment where
  id    : Nat
  cmd   : Nat
  psn   : Word
  x     : Nat
  y     : Nat
  mask  : Word
  st    : FragState
  deriving DecidableEq, Repr

/-- A target object (R410 to R432). -/
structure Target where
  index   : Nat
  w       : Nat
  h       : Nat
  samples : Nat
  fmts    : List Nat               -- FMT of each channel
  consts  : List Byte
  methods : List Method
  pix     : Cells 32               -- stored bits of (pixel, sample, channel)
  nextpsn : Word
  faults  : Word
  damaged : List Nat               -- pixel indices y * W + x
  order   : List Nat               -- commands in command order
  frags   : List Fragment
  vaults  : List (Nat × Nat × Nat) -- placement: (tile index, vault, vault offset)
  dead    : Bool                   -- destroyed, not yet freed (R50)
  deriving DecidableEq, Repr

/-- The fields of a log entry (R437); the log itself is bytes of memory. -/
structure LogEntry where
  pos    : Word
  method : Nat
  die    : Nat
  args   : List Word
  ret    : Word
  status : Nat
  deriving DecidableEq, Repr

/-- A die's replica (R433, R451): with the return word and status of the positions it has applied, and the place of its
state block in memory, a vault and an offset in it. -/
structure Replica where
  applied : Word
  fenced  : Bool
  ignored : Bool
  rets    : List (Word × Word × Nat)    -- (position, return word, status)
  vault   : Nat
  off     : Nat
  deriving DecidableEq, Repr

/-- A replayed object (kind 2) or queue (kind 4) (R433 to R456). -/
structure ReplayObj where
  kind     : Nat
  index    : Nat
  statelen : Nat
  logk     : Nat
  home     : Nat
  methods  : List Method
  tail     : Word
  trim     : Word
  logAt    : List Nat                   -- the physical addresses of the two copies of its log (R433, R452)
  replicas : List Replica               -- 4
  awaitTrim : Bool                      -- host-assisted: trimming waits for the host (R449)
  lost     : Bool
  dead     : Bool
  deriving DecidableEq, Repr

/-- A texture (R248). -/
structure Texture where
  index  : Nat
  texels : DWord
  w      : Nat
  h      : Nat
  fmt    : Nat
  wrap   : Bool
  deriving DecidableEq, Repr

/-- An event of R386; `purpose` is the model's own record of what an object event asks for: 0 none, 1 a trim, 2 + d the
rebuild of the replica of die d (R449, R451). -/
structure EventRec where
  seq      : Nat
  function : Nat
  cause    : Byte
  addr     : DWord
  tag      : Word
  wg       : Word
  detail   : DWord
  written  : Bool
  purpose  : Nat
  deriving DecidableEq, Repr

/-- A debug attachment (R478, R480): ring address, DBGBASE, count of records written, causes that wait. -/
structure Debug where
  ring    : DWord
  base    : DWord
  count   : Nat
  deriving DecidableEq, Repr

/-- A running trace (R485). -/
structure TraceBuf where
  buf     : DWord
  bytes   : Nat
  written : Nat
  dropped : Nat
  deriving DecidableEq, Repr

/-- A host call window (R28, R29) or the debug call window. -/
structure CallWindow where
  a0       : DWord
  a1       : DWord
  a2       : DWord
  a3       : DWord
  accepted : Bool
  cause    : Byte
  count    : Nat
  held     : List (DWord × DWord × DWord × DWord × DWord)   -- GO, A0-A3
  deriving DecidableEq, Repr

/-- A physical dictionary slot of a core (R155 to R169). -/
structure DictSlot where
  phys     : Nat
  ctx      : Nat
  prog     : Nat
  image    : Option (List (Nat × Template))   -- none: no image
  emptied  : Bool
  loads    : Nat
  lastVa   : DWord
  rejected : Nat
  deriving DecidableEq, Repr

/-- A push that the home die has applied and whose headers wait for a page (R455): its position, arguments, the lane and
completion register of a hatch GO, and the 64 KiB region it waits for. -/
structure PendingPush where
  handle : Word
  pos    : Word
  a0     : DWord
  a1     : DWord
  a2     : DWord
  a3     : DWord
  lane   : Option LaneRef
  creg   : Nat
  region : Option Nat
  deriving DecidableEq, Repr

/-- A placement that the host is asked about (R125): a scratchpad, the pages of an allocation, or a new object. -/
inductive Asked where
  | scratchpad (launch linear core sbase : Nat)
  | pages (req : AllocRequest)
  | object (kind : Nat) (desc : DWord) (places : List Nat) (home : Nat)
  deriving DecidableEq, Repr

/-- An open placement event: its SEQ, and whether the host has agreed (R43, R125). -/
structure Placing where
  seq   : Nat
  what  : Asked
  given : Bool
  deriving DecidableEq, Repr

/-- A context (R21, R41 to R44, R493). -/
structure Context where
  id        : Nat
  resident  : Bool
  killed    : Bool
  mode      : Word
  bankKey   : Nat
  ageLimit  : Nat
  extwait   : Nat
  hanglimit : Nat
  hangCount : Nat
  hungHalt  : Bool
  trapbase  : DWord
  trapdict  : Nat
  trapimg   : DWord
  preq      : Bool
  preqAt    : Nat                  -- CLOCK at the setting of PREQ[0] (R389)
  cexctl    : Word
  cexlo     : Word
  cexhi     : Word
  cexdelay  : Word
  cexprog   : Word
  cexPart   : Nat                  -- cycles of the partial unit of REMAIN
  causalEnd : Bool                 -- CAUSAL_END waits for the next issue (R488)
  pages     : List Page
  allocs    : List Alloc
  peers     : List Peer
  targets   : List Target
  objects   : List ReplayObj
  textures  : List Texture
  defaultQ  : Option Word
  pushes    : List PendingPush
  eventArea : Option DWord
  eventSeq  : Nat
  events    : List EventRec        -- unretired, then those waiting for a place
  hangArea  : Option DWord
  debug     : Option Debug
  trace     : Option TraceBuf
  saved     : Bool                 -- its state stands in a save area (R392)
  saveArea  : Option DWord         -- the area of its save (R337, R397)
  areaAt    : Option (Nat × Nat) := none   -- where its saved state stands in memory, and its bytes (R392, R394)
  saveCmds  : List Nat             -- the CTXSVs and CTXRSs that wait for its save or restore (R337)
  savedSlots : List (Nat × DictSlot)    -- by core (R168)
  nmProgs   : List (Nat × Nat × List Word)   -- (stack, slot, microwords)
  placing   : List Placing := []   -- the placement events not yet acted on (R43, R125)
  deriving DecidableEq, Repr

/-- A dictionary load in progress (R158): `lines` the physical addresses of its templates, or, where the header is still
to be read (a load from TRAPIMG), COUNT and FIRST 0. -/
structure DictJob where
  id       : Nat
  ctx      : Nat
  core     : Nat
  phys     : Nat
  prog     : Nat
  va       : DWord
  first    : Nat
  count    : Nat
  lines    : List Nat              -- physical 16-byte addresses of the templates
  priv     : Bool
  warp     : Option (Nat × Nat)    -- issuing workgroup and warp
  launchWg : Option Nat            -- the workgroup whose admission loads it
  deriving DecidableEq, Repr

/-- A core that holds state of its own (R13). -/
structure Core where
  vault   : Nat
  fenced  : Bool
  slots   : List DictSlot
  jobs    : List DictJob
  bins    : List Bin
  groups  : List Reformed
  pcmp    : List (Word × Nat)      -- comparator and its owner
  handler : List (Nat × Nat × Nat × Nat)   -- handler rows held: (pane, pipe, workgroup, warp)
  l1      : List (Nat × Page)      -- (context, mapping)
  deriving DecidableEq, Repr

/-- A fault record (R121). -/
structure FaultRec where
  die    : Nat
  index  : Nat
  ctx    : Nat
  region : Nat
  lanes  : List (LaneRef × Nat × Nat)   -- attached, with the number of the issue that parked them together, and its ea
  deriving DecidableEq, Repr

/-- The kinds of access in flight (R145, R288, R128). -/
inductive AccessKind where
  | load (signed : Bool)
  /-- The texels of a TEX or TLD: physical addresses and weights, by the texture's format (R251, R252). -/
  | texel (fmt : Nat) (linear : Bool) (fx fy : Nat) (addrs : List Nat)
  | atom (ty : Ty) (op : Nat) (v : DWord)
  | cas (cmp new : DWord)
  | store (v : List Byte)
  | red (ty : Ty) (op : Nat) (v : DWord)
  | sync (t : Word)                -- SWARM
  deriving DecidableEq, Repr

/-- An access issued and not performed. -/
structure Access where
  seq   : Nat
  issue : Nat                      -- the number its issue's accesses share (R232)
  ctx   : Nat
  lane  : LaneRef
  kind  : AccessKind
  phys  : Nat
  size  : Nat
  acq   : Bool
  rel   : Bool
  dst   : Dest
  rows  : List Nat                 -- row ids, by word of the result
  reformed : Option (Nat × Nat)    -- (core, slot) when issued in a reformed group
  deriving DecidableEq, Repr

/-- A reduction in a write queue (R128, R243). -/
structure Queued where
  lane : LaneRef
  line : Nat
  phys : Nat
  ty   : Ty
  op   : Nat
  v    : DWord
  deriving DecidableEq, Repr

/-- An order token not yet issued: a triangle and a tile it covers, with the snapped vertices (R399, R415). -/
structure Token where
  tri   : Nat
  tx    : Nat
  ty    : Nat
  verts : List Int
  deriving DecidableEq, Repr

/-- The work of an engine command still to be done (R275, R463, R464, R407, R429, R430); of a copy and a READOUT the portions
that have landed, and of a copy those whose source was poisoned (R277, R278). -/
inductive Work where
  | copy (op : Nat) (dst src : DWord) (len rows dstride sstride : Nat) (dsp ssp : Bool) (landed bad : List Nat)
  | nmLoad (prog len : Nat) (va : DWord) (left : List Nat)
  /-- RUN: operands (virtual bases), and for each stack not ended: (stack, started, chunk indices left). -/
  | nmRun (prog first count : Nat) (params : List Word) (rec : Nat) (ops : List Nat)
      (parts : List (Nat × Bool × List Nat)) (done bad : Nat) (firstBad : Option (Nat × DWord))
  | draw (target : Word) (psn : Word) (tokens : List Token) (launch : Nat)
  | invoke (target : Word) (k x0 y0 x1 y1 : Nat) (args : List Word) (left : List Nat)
  | readout (target : Word) (x0 y0 x1 y1 : Nat) (dst : DWord) (dsp : Bool) (landed : List Nat)
  | push (handle pos : Word)
  /-- LAUNCH, CTXSV and CTXRS count in a completion register until they end (R335, R337). -/
  | other
  deriving DecidableEq, Repr

/-- An accepted engine command (R272). -/
structure Command where
  id     : Nat
  ctx    : Nat
  lane   : LaneRef
  launch : Nat                     -- the launch of the issuing lane (R492)
  cls    : Nat
  engine : Nat
  scope  : Nat
  acq    : Bool
  rel    : Bool
  creg   : Nat
  sync   : Nat
  total  : Nat
  fallen : Nat
  err    : Bool
  ue     : Bool
  go     : Word := 0               -- bits [31:0] of its GO value (R380)
  work   : Work
  pinned : List (Nat × Nat)        -- virtual ranges (base, bytes)
  names  : List Nat                -- workgroups whose scratchpads or sync words it names (R277)
  resumed : Nat := 0               -- of a DRAW since a restore: 1 its saved pixel workgroups come first, 2 its tokens go on (R396)
  deriving DecidableEq, Repr

/-- A mapping change in progress (R120): its context, or none for every context, the range covered, and the new pages. -/
structure Change where
  id     : Nat
  ctx    : Option Nat
  base   : Nat
  size   : Nat
  pages  : List Page
  unmap  : Bool
  apply  : Bool                    -- false for a TLBI
  deriving DecidableEq, Repr

/-- A walk of the page tables (R119). -/
structure Walk where
  core : Nat
  ctx  : Nat
  va   : Nat
  deriving DecidableEq, Repr

/-- A method invocation on a BMU or a method core (R420, R439). -/
structure Invocation where
  kind    : Nat                    -- 1 target, 2 replayed object
  samples : Nat
  fmts    : List Nat
  consts  : List Byte
  read    : Bool                   -- a READ method
  method  : Method
  window  : Cells 8                -- replica bytes, or
  pix     : Cells 32               -- channel values of the pixel by 4 s + c, as methods see them (R414)
  statelen : Nat
  args    : List Word              -- MARG
  pc      : Word
  regs    : List Word              -- v0-v63
  preds   : BitVec 7
  latches : List Latch
  writes  : List (Nat × Word)      -- buffered SST, newest first
  count   : Nat
  ended   : Option (Nat × Word)    -- 0 MRET or EXIT, 1 MTRAP, 2 fault; return word or cause
  deriving DecidableEq, Repr

/-- Who executes the instruction given to `exec` (log 1). -/
inductive Executor where
  | none
  | group (g : GroupRef)
  | method (v : Invocation)
  deriving DecidableEq, Repr

/-- The actions the model's agenda lists (log 1): an issue, a step of another agent, or the passing of cycles. -/
inductive Action where
  | issue (g : GroupRef)
  | event (i : Instr)
  | tick (n : Nat)
  /-- An instruction of a control core's firmware (R18, R162). -/
  | firmware (core : Nat) (i : Instr)
  deriving DecidableEq, Repr

/-- A frame sent, until it is acknowledged and, for a read request, its data has come (R34, R293): the portion of a command
it is sent for, or none where it is read data; and how often it has been resent. -/
structure TxFrame where
  acked   : Bool
  answered : Bool
  portion : Option (Nat × Nat)     -- (command, portion)
  frame   : EthFrame
  resends : Nat := 0
  deriving DecidableEq, Repr

/-- An Ethernet flow the device sends to a node, of its own frames or of read data: the next SEQ, and its frames, oldest
first (R34). -/
structure TxFlow where
  flow    : Nat
  node    : Nat
  data    : Bool
  nextSeq : Nat
  frames  : List TxFrame
  deriving DecidableEq, Repr

/-- An exported window of this device (R24). -/
structure Export where
  window : Word
  phys   : Nat
  bytes  : Nat
  deriving DecidableEq, Repr

/-- The state of the package. -/
structure State where
  clock     : Nat                  -- the ACLK count, modulo 2^64 where it is read
  aclkStep  : Nat
  vclkStep  : Nat
  nmBanks   : Nat                  -- steps by which the active HBM banks are reduced
  booted    : Bool
  bootFail  : Bool
  recovery  : Bool
  mcheck    : Bool
  fwCause   : Byte                 -- the machine check last delivered to firmware (R45, R374)
  measure   : List Byte            -- M, 32 bytes
  mem       : Mem
  poison    : List Nat             -- 64-byte line numbers, rising
  l2        : List (Nat × Nat × Page)   -- (cluster, context, mapping)
  walks     : List Walk
  changes   : List Change
  records   : List FaultRec
  pend      : List Access          -- oldest first
  queue     : List Queued          -- arrival order
  contexts  : List Context
  cores     : List Core
  pipes     : List Pipe
  wgs       : List Workgroup
  ctl       : List Workgroup := []     -- the control cores that have run, each as one warp of one lane (R18)
  launches  : List Launch
  cmds      : List Command
  windows   : List (Nat × CallWindow)
  dbgWin    : CallWindow
  dbgWork   : Option (Nat × Nat × Nat) := none   -- a HALT or STEP whose effect is not complete: opcode, context, workgroup (R479)
  discards  : Nat
  rxFlows   : List (Nat × Nat × Nat)   -- (sending node, flow, next SEQ)
  txFlows   : List TxFlow
  exported  : List Export
  ethOut    : List EthFrame        -- last frames sent
  vectors   : List Nat             -- MSI-X vectors raised
  reply     : List Byte            -- data of the last read answered to the host
  replyBad  : Bool                 -- it was a poisoned TLP (R31)
  replyWord : DWord                -- last Firmware Interface or BAR0 answer
  report    : Option (List Byte × Nat × Nat)   -- attestation: report bytes and its signature
  agenda    : List Action
  cur       : Executor
  freeCount : Nat
  seq       : Nat
  deriving DecidableEq, Repr

/-- A call window at reset (log 6). -/
def CallWindow.reset : CallWindow :=
  { a0 := 0, a1 := 0, a2 := 0, a3 := 0, accepted := false, cause := 0, count := 0, held := [] }

/-- The package right after reset, before the boot ROM has run: what R12, R27, R36, R332 state, and elsewhere the
values that the assumption log names (log 3, log 6, log 12). -/
def State.reset : State :=
  { clock := 0, aclkStep := 0, vclkStep := 0, nmBanks := 0
    booted := false, bootFail := false, recovery := false, mcheck := false, fwCause := 0
    measure := List.replicate 32 0
    mem := [], poison := []
    l2 := [], walks := [], changes := [], records := [], pend := [], queue := []
    contexts := [], cores := [], pipes := [], wgs := [], launches := [], cmds := []
    windows := [], dbgWin := CallWindow.reset
    discards := 0, rxFlows := [], txFlows := [], exported := [], ethOut := []
    vectors := [], reply := [], replyBad := false, replyWord := 0, report := none
    agenda := [], cur := .none, freeCount := 0, seq := 0 }

end Sys2Proof.Machine
end

