-- ==== Sys2Proof/Machine/Signature.lean ====
section
/-! DEFINITION. The field tables of the instruction chapters and the decode faults, in the order of R132. -/

namespace Sys2Proof.Machine

/-- The code of a cause (R374). -/
def Cause.code : Cause → Byte
  | .bkpt => 0x00 | .pcmatch => 0x01 | .step => 0x02 | .causalEnd => 0x03
  | .dictUndef => 0x10 | .dictReserved => 0x11 | .dictSlotEmpty => 0x12 | .dictLoad => 0x13 | .dictPriv => 0x14
  | .illField => 0x20 | .illClass => 0x21 | .illPriv => 0x22 | .illType => 0x23 | .illScope => 0x24 | .illLiteral => 0x25
  | .regWindow => 0x30 | .regLivemax => 0x31 | .regLatch => 0x32 | .regDest => 0x33
  | .addrAlign => 0x40 | .addrRange => 0x41 | .addrNoncanon => 0x42 | .addrHatch => 0x43
  | .pageAbsent => 0x50 | .pagePerm => 0x51
  | .eccVault => 0x60 | .eccHbm => 0x61 | .eccReg => 0x62 | .eccDict => 0x63
  | .syncPhase => 0x70 | .syncMember => 0x71 | .syncHang => 0x72 | .syncJoin => 0x73 | .syncSigner => 0x74
  | .syncExtwait => 0x75
  | .arithFp => 0x80 | .arithNar => 0x81
  | .matFormat => 0x90 | .matIndex => 0x91 | .matScale => 0x92
  | .engCmd => 0xA0 | .engOrder => 0xA1 | .engError => 0xA2 | .engUe => 0xA3
  | .objHandle => 0xB0 | .objMethod => 0xB1 | .objRo => 0xB2 | .tgtPsn => 0xB3 | .tgtDamaged => 0xB4 | .objFenced => 0xB5
  | .ctlStack => 0xC0 | .ctlBin => 0xC1 | .ctlQuadSplit => 0xC2
  | .preForced => 0xD0
  | .swTrap n => 0xE#4 ++ n
  | .mcFabric => 0xF0 | .mcInternal => 0xF1

/-- The registers an operand names beside the first (R193, R228, R343, R442). -/
inductive Span where
  /-- One register, or a pair where TY is 64 bits wide. -/
  | ty
  /-- One register, whatever TY ("32-bit"). -/
  | one
  /-- A pair, whatever TY (Addr, U pair). -/
  | pair
  /-- `n` consecutive vector registers (V2, V4, V8, and the two of TEX). -/
  | group (n : Nat)
  | u16
  | u4
  deriving DecidableEq, Repr

/-- One column of a field table: the classes listed, the span, and the width of a field immediate. -/
structure Opnd where
  cls  : List Cls
  span : Span
  bits : Option Nat
  deriving DecidableEq, Repr

namespace Operand

def absent : Opnd := ⟨[.none], .one, none⟩
def vec : Opnd := ⟨[.vector], .ty, none⟩
def vec32 : Opnd := ⟨[.vector], .one, none⟩
def uni : Opnd := ⟨[.uniform], .ty, none⟩
def uni32 : Opnd := ⟨[.uniform], .one, none⟩
def pred : Opnd := ⟨[.predicate], .one, none⟩
def predOpt : Opnd := ⟨[.predicate, .none], .one, none⟩
/-- "std" in a destination (R193). -/
def stdD : Opnd := ⟨[.vector, .uniform], .ty, none⟩
def stdD32 : Opnd := ⟨[.vector, .uniform], .one, none⟩
/-- "std" in a source (R193). -/
def std : Opnd := ⟨[.vector, .uniform, .immediate], .ty, none⟩
def std32 : Opnd := ⟨[.vector, .uniform, .immediate], .one, none⟩
def std32Opt : Opnd := ⟨[.vector, .uniform, .immediate, .none], .one, none⟩
def uniImm32 : Opnd := ⟨[.uniform, .immediate], .one, none⟩
def imm : Opnd := ⟨[.immediate], .ty, none⟩
def field (k : Nat) : Opnd := ⟨[.immediate], .one, some k⟩
def fieldOpt (k : Nat) : Opnd := ⟨[.immediate, .none], .one, some k⟩
def addr : Opnd := ⟨[.vector, .uniform], .pair, none⟩
def upair : Opnd := ⟨[.uniform], .pair, none⟩
def group (n : Nat) : Opnd := ⟨[.vector], .group n, none⟩
def tile : Opnd := ⟨[.tile], .one, none⟩
def acc : Opnd := ⟨[.accumulator], .one, none⟩
def conv : Opnd := ⟨[.convergence], .one, none⟩

end Operand

/-- A row of a field table, for the fields of one form. -/
structure Sig where
  d : Opnd
  a : Opnd
  b : Opnd
  c : Opnd
  tys   : List Ty
  tyMore : Bool                    -- a further ILL_TYPE rule holds
  m2    : List Nat
  rms   : List Rm
  sat   : Bool
  scs   : List Scope
  /-- SC 7 faults with ILL_SCOPE (R227, R305, R342), else with ILL_FIELD (R192, R495). -/
  scope : Bool
  /-- Slot D of class U executes uniformly, and a V source in a std slot faults (R194). -/
  unif  : Bool
  /-- The other field rules of the description hold. -/
  more  : Bool
  deriving DecidableEq, Repr

open Operand

def rne : List Rm := [.rne]
def rm04 : List Rm := [.rne, .rtz, .rup, .rdn, .rna]
def sc0 : List Scope := [.lane]
def sc06 : List Scope := [.lane, .warp, .workgroup, .cluster, .die, .device, .system]

/-- A row of chapter 13 (R192): SC 0, no scope. -/
def aluRow (d a b c : Opnd) (tys : List Ty) (m2 : List Nat) (sat : Bool) (rms : List Rm) : Sig :=
  { d := d, a := a, b := b, c := c, tys := tys, tyMore := true, m2 := m2, rms := rms, sat := sat, scs := sc0
    scope := false, unif := true, more := true }

/-- A row of the memory, control and matrix chapters (R227, R305, R342): MOD[3:0] 0 unless changed. -/
def sysRow (d a b c : Opnd) (tys : List Ty) (m2 : List Nat) (scs : List Scope) : Sig :=
  { d := d, a := a, b := b, c := c, tys := tys, tyMore := true, m2 := m2, rms := rne, sat := false, scs := scs
    scope := true, unif := false, more := true }

/-- A row of the object chapters (R442, R495): SC 0, no scope. -/
def objRow (d a b c : Opnd) (m2 : List Nat) : Sig :=
  { d := d, a := a, b := b, c := c, tys := [.b32], tyMore := true, m2 := m2, rms := rne, sat := false, scs := sc0
    scope := false, unif := false, more := true }

def iaddTys : List Ty := [.n32, .i32, .n64, .i64, .n8x4, .i8x4, .n16x2, .i16x2]
def intTys4 : List Ty := [.n32, .i32, .n64, .i64]
def rawTys : List Ty := [.b32, .n64]
def fpTys : List Ty := [.f32, .f16x2, .bf16x2]
def ldTys : List Ty := [.b32, .n32, .i32, .n64]
def atomTys : List Ty := [.b32, .n32, .i32, .n64, .i64, .f32]
def matTys : List Ty := [.oz8x4, .f16x2, .bf16x2]

def wideTy (t : Ty) : Bool := t = .n64 || t = .i64

/-- Elements of a register of type `t` (R51). -/
def tyElems : Ty → Nat
  | .f16x2 | .bf16x2 | .n16x2 | .i16x2 => 2
  | .oz8x4 | .n8x4 | .i8x4 => 4
  | _ => 1

/-- The source format of CVT and TCVT in MOD[5:4] (R212, R363). -/
def srcTy (m2 : BitVec 2) : Ty :=
  match m2.toNat with
  | 0 => .f32 | 1 => .f16x2 | 2 => .bf16x2 | _ => .oz8x4

/-- The modes of a conversion (R214). -/
def cvtRms (src dst : Ty) : List Rm :=
  match src, dst with
  | .f32, .f16x2 | .f32, .bf16x2 => [.rne, .rtz, .rup, .rdn, .rna, .sr]
  | .f32, .oz8x4 | .f16x2, .oz8x4 | .bf16x2, .oz8x4 => [.rne, .rtz, .sr]
  | .oz8x4, _ => rne
  | _, _ => rm04

/-- The greatest legal q of CVT, plus 1 (R213). -/
def cvtQ (src dst : Ty) : Nat :=
  if tyElems dst ≤ tyElems src then tyElems src / tyElems dst else tyElems dst / tyElems src

/-- The sizes of LD, ST, LDS, LDV and STV (R230). -/
def sizeOk (ty : Ty) (m2 : BitVec 2) : Bool :=
  match m2.toNat with
  | 0 => true
  | 3 => false
  | _ => ty = .n32 || ty = .i32

def loadRow (d a b c : Opnd) (f : Form) : Sig :=
  { sysRow d a b c ldTys (if sizeOk f.ty f.m2 then [f.m2.toNat] else []) sc06 with }

/-- Bound of a barrier number at a level (R253). -/
def barBound : Scope → Nat
  | .warp => 4 | .workgroup => 16 | .cluster => 32 | _ => 8

def barRow (f : Form) : Sig :=
  { sysRow absent (field 5) absent absent [.b32] [0] [.warp, .workgroup, .cluster, .device] with
    more := (f.slotImm f.a).toNat < barBound f.sc }

/-- Width, 64 for the 64-bit registers, and holder of a special register (R332): none for an unassigned index.
The holder is 0 lane, 1 wider. -/
def specialInfo (n : Nat) : Option (Nat × Nat) :=
  if n = 0x13 || n = 0x33 then some (64, 1)
  else if n = 0x00 || n = 0x0C || (0x14 ≤ n && n ≤ 0x1A) || n = 0x31 then some (32, 0)
  else if (0x01 ≤ n && n ≤ 0x12) || (0x20 ≤ n && n ≤ 0x27) || (0x30 ≤ n && n ≤ 0x35) || (0x40 ≤ n && n ≤ 0x44)
      || (0x48 ≤ n && n ≤ 0x4F) then some (32, 1)
  else none

/-- Registers that SWRITE may write (R332, R333): those with W in the Access column. -/
def specialW (n : Nat) : Bool :=
  n = 0x11 || n = 0x12 || n = 0x13 || n = 0x30 || n = 0x31 || n = 0x33 || n = 0x35 || (0x40 ≤ n && n ≤ 0x44)
    || (0x48 ≤ n && n ≤ 0x4F)

/-- Registers whose SWRITE is privileged (R332). -/
def specialPriv (n : Nat) : Bool := n = 0x30 || n = 0x31 || n = 0x33 || n = 0x35 || (0x40 ≤ n && n ≤ 0x4F)

/-- TY of SREAD and SWRITE against the register's width (R333). -/
def specialTyOk (ty : Ty) (n : Nat) : Bool :=
  match specialInfo n with
  | none => true
  | some (64, _) => ty != .b32
  | some _ => ty != .n64 || n = 0x0F

def sreadRow (f : Form) : Sig :=
  let n := (f.slotImm f.a).toNat
  { sysRow stdD (field 7) absent absent rawTys [0] sc0 with
    tyMore := specialTyOk f.ty n
    d := if (specialInfo n).any (fun p => p.2 = 0) then vec else stdD
    more := (specialInfo n).isSome }

def swriteRow (f : Form) : Sig :=
  let n := (f.slotImm f.a).toNat
  { sysRow absent (field 7) std absent rawTys [0] sc0 with
    tyMore := specialTyOk f.ty n
    more := (specialInfo n).isSome && specialW n }

/-- The row of REDW and SCANW (R223, R225). -/
def redRow (d : Opnd) (f : Form) : Sig :=
  { aluRow d vec absent absent [.b32, .n32, .i32, .n64, .i64, .f32] [0, 1, 2]
      (f.m2 = 0 && f.ty != .b32) (if f.ty = .f32 && f.m2 = 0 then rm04 else rne) with }

def cvtRow (f : Form) : Sig :=
  let src := srcTy f.m2
  { aluRow stdD std (field 2) (if tyElems f.ty ≤ tyElems src then absent else std)
      [.f32, .f16x2, .bf16x2, .oz8x4] [0, 1, 2, 3] true (cvtRms src f.ty) with
    tyMore := src != f.ty
    more := (f.slotImm f.b).toNat < cvtQ src f.ty }

/-- Whether h of TCVT is legal at all (R367). -/
def tcvtTakesH (f : Form) : Bool := f.ty = .oz8x4 || srcTy f.m2 = .oz8x4

def tcvtRow (f : Form) : Sig :=
  { sysRow tile tile (fieldOpt 1) absent matTys [1, 2, 3] sc0 with
    rms := cvtRms (srcTy f.m2) f.ty
    sat := true
    tyMore := srcTy f.m2 != .f32 && srcTy f.m2 != f.ty
    m2 := [0, 1, 2, 3]
    more := (f.b.cls = .immediate) = tcvtTakesH f }

/-- The field table row of an instruction, for the fields of its form. -/
def sigOf (i : Instr) (f : Form) : Sig :=
  match i with
  | .nop _ | .exit _ | .dfence _ | .yield _ | .bkpt _ | .rte _ | .ret _ =>
      sysRow absent absent absent absent [.b32] [0] sc0
  | .dictsw _ => sysRow absent (field 2) absent absent [.b32] [0] sc0
  | .bra _ | .braUniform _ => sysRow absent imm absent absent [.b32] [0] sc0
  | .brx _ => sysRow absent std32 absent absent [.b32] [0] sc0
  | .call _ => sysRow absent imm (fieldOpt 6) absent [.b32] [0] sc0
  | .callx _ => sysRow absent std32 (fieldOpt 6) absent [.b32] [0] sc0
  | .trap _ => sysRow absent (field 4) absent absent [.b32] [0] sc0
  | .sread _ => sreadRow f
  | .swrite _ | .swriteTrappc _ | .swriteSrseed _ | .swriteTrapdict _ | .swriteCexctl _ | .swritePcmp _ => swriteRow f
  | .dictld _ => sysRow absent (field 2) upair absent [.n64] [0] sc0
  | .waitc _ => { sysRow absent uni32 absent absent [.b32] [0] sc0 with
      more := 56 ≤ (if f.a.hole = .fixed then f.a.num.toNat else (f.field f.a.hole).toNat) }
  | .voteActive _ => sysRow uni32 absent absent absent [.b32] [0] sc0
  | .vote _ => sysRow (if f.m2 = 3 then uni32 else pred) pred absent absent [.b32] [1, 2, 3] sc0
  | .join _ => sysRow absent uni32 absent absent [.b32] [0] sc0
  | .reform _ => sysRow absent (field 6) absent absent [.b32] [0] sc0
  | .reformHome _ => sysRow absent absent absent absent [.b32] [1] sc0
  | .window _ => sysRow absent std32 absent absent [.b32] [0, 1] sc0
  | .sleep _ => sysRow absent uniImm32 absent absent [.b32] [0] sc0
  | .elect _ => sysRow pred absent absent absent [.b32] [0] sc0
  | .launch _ => sysRow absent upair (field 3) absent [.n64] [0] [.device, .system]
  | .iadd _ | .isub _ | .imul _ => aluRow stdD std std absent iaddTys [0] true rne
  | .imulh _ => aluRow stdD std std absent [.n32, .i32] [0] false rne
  | .imad _ => aluRow stdD std std std intTys4 [0] true rne
  | .isha _ => aluRow stdD std std (field (if wideTy f.ty then 6 else 5)) intTys4 [0] true rne
  | .imin _ | .imax _ => aluRow stdD std std absent iaddTys [0] false rne
  | .iabs _ => aluRow stdD std absent absent [.i32, .i64, .i8x4, .i16x2] [0] true rne
  | .and _ | .or _ | .xor _ => aluRow stdD std std absent rawTys [0, 1] false rne
  | .shl _ | .shr _ => aluRow stdD std std32 absent [.b32, .n32, .i32, .n64, .i64] [0] false rne
  | .rotl _ => aluRow stdD std std absent [.b32] [0] false rne
  | .bfx _ => aluRow stdD std std absent [.n32, .i32] [0] false rne
  | .bfi _ | .bsel _ => aluRow stdD std std std [.b32] [0] false rne
  | .popc _ | .clz _ => aluRow stdD32 std absent absent rawTys [0] false rne
  | .brev _ | .mov _ => aluRow stdD std absent absent rawTys [0] false rne
  | .isetp _ => aluRow pred std std predOpt iaddTys [0, 1, 2, 3] false rne
  | .sel _ => { aluRow stdD std std pred rawTys [0] false rne with
      c := if f.d.cls = .uniform then ⟨[], .one, none⟩ else pred }
  | .movi _ => aluRow stdD imm absent absent rawTys [0] false rne
  | .pset _ => { aluRow pred pred pred pred [.b32] [0] false rne with
      more := f.immsrc = .template && f.imm.toNat < 256 }
  | .rdlane _ => aluRow uni vec uniImm32 absent rawTys [0] false rne
  | .bcast _ => aluRow vec vec absent absent rawTys [0] false rne
  | .fadd _ | .fmul _ => aluRow stdD std std absent fpTys [0, 1, 2, 3] true rm04
  | .ffma _ => aluRow stdD std std std fpTys [0, 1, 2, 3] true rm04
  | .fmin _ | .fmax _ => aluRow stdD std std absent fpTys [0, 1, 2, 3] true rne
  | .fsetp _ => aluRow pred std std predOpt fpTys [0, 1, 2, 3] false rne
  | .fscl _ => aluRow stdD std std32 absent fpTys [0, 1] true rm04
  | .rcp _ | .rsq _ | .sqrt _ | .exp2 _ | .log2 _ | .sin _ | .cos _ | .tanh _ =>
      aluRow stdD std absent absent [.f32] [0, 1] true rne
  | .frc _ | .frnd _ => aluRow stdD std absent absent fpTys [0, 1] true rm04
  | .cvt _ => cvtRow f
  | .f2i _ => aluRow stdD std32 absent absent intTys4 [0] false rm04
  | .i2f _ => aluRow stdD32 std absent absent intTys4 [0] true rm04
  | .fclass _ => aluRow pred std (field 10) absent [.f32] [0] false rne
  | .dot4 _ => aluRow stdD32 std std std32 [.oz8x4, .i8x4, .n8x4] [0] true (if f.ty = .oz8x4 then rm04 else rne)
  | .qxh _ | .qxv _ | .qxd _ => aluRow vec vec absent absent rawTys [0] false rne
  | .qbc _ => aluRow vec vec (field 2) absent rawTys [0] false rne
  | .ddx _ | .ddy _ => aluRow vec vec absent absent [.f32] [0, 1] false rm04
  | .lxch _ => aluRow vec vec std32 absent rawTys [0, 1, 2, 3] false rne
  | .redw _ => redRow stdD f
  | .scanw _ => redRow vec f
  | .matchw _ => aluRow vec32 vec absent absent rawTys [0] false rne
  | .ld _ => loadRow vec addr std32 absent f
  | .st _ => loadRow absent addr std32 std f
  | .ldv _ => loadRow vec std32 std32Opt absent f
  | .stv _ => loadRow absent std32 std std32Opt f
  | .lds _ => { loadRow uni upair uniImm32 absent f with unif := true }
  | .pref _ => sysRow absent addr std32 absent [.b32] [0, 1] sc0
  | .atom _ => sysRow vec addr std32 std atomTys [0, 1, 2, 3] sc06
  | .atomv _ => sysRow vec std32 std std32Opt atomTys [0, 1, 2, 3] sc06
  | .cas _ => sysRow vec addr std std rawTys [0] sc06
  | .red _ => sysRow absent addr std32 std atomTys [0, 1, 2] sc06
  | .redv _ => sysRow absent std32 std std32Opt atomTys [0, 1, 2] sc06
  | .fence _ => sysRow absent absent absent absent [.b32] [0, 1, 2]
      [.warp, .workgroup, .cluster, .die, .device, .system]
  | .lineProbe _ => sysRow pred addr std32 absent [.b32] [0] sc0
  | .lineZero _ => sysRow absent addr std32 absent [.b32] [1] sc06
  | .waitw _ => sysRow vec addr std32 std [.b32, .n32, .i32, .n64, .i64] [0, 1, 2, 3] sc06
  | .swarm _ | .swwait _ => sysRow vec32 std32 std32 std32Opt [.b32] [0] sc06
  | .tex _ => sysRow (group 4) (group 2) uniImm32 absent [.f32] [0, 1] sc0
  | .tld _ => sysRow (group 4) (group 2) uniImm32 absent [.f32] [0] sc0
  | .bara _ | .barw _ | .bars _ => barRow f
  | .jset _ => { sysRow conv uniImm32 absent absent [.b32] [0] sc0 with unif := true }
  | .jsign _ => sysRow absent conv absent absent [.b32] [0] sc0
  | .jwait _ => sysRow vec32 conv absent absent [.b32] [0] sc0
  | .wload _ => sysRow absent tile conv absent matTys [0] sc0
  | .mma _ => sysRow acc tile conv absent matTys [0] sc0
  | .mmg _ => { sysRow acc ⟨[.uniform], .u16, none⟩ conv absent matTys [0] sc06 with sat := true }
  | .tldt _ => sysRow tile upair uniImm32 absent [.b32] [0, 1, 2] sc06
  | .tstt _ => sysRow absent tile upair uniImm32 [.b32] [0, 1, 2] sc06
  | .tmov _ => sysRow tile tile absent absent [.b32] [0] sc0
  | .tcvt _ => tcvtRow f
  | .tscl _ => sysRow tile uniImm32 absent absent [.b32] [0, 1] sc0
  | .acz _ => sysRow acc absent absent absent [.f32] [0] sc0
  | .acrd _ => { sysRow vec32 acc uniImm32 ⟨[.uniform, .none], .one, none⟩ [.f32] [0] sc0 with sat := true }
  | .acwr _ => sysRow acc vec32 uniImm32 absent [.f32] [0] sc0
  | .acst _ => { sysRow absent acc ⟨[.uniform], .u4, none⟩ absent [.f32] [0, 1] sc06 with sat := true }
  | .post _ => objRow absent (group 4) std32 (field 4) [0]
  | .tsamp _ => objRow (group 4) (group 2) uniImm32 (if f.m2 = 1 then pred else absent) [0, 1]
  | .ocall _ | .oread _ => objRow (group 2) (group 8) upair pred [0]
  | .ostat _ => objRow vec32 std32 absent absent [0, 1, 2, 3]
  | .sld _ => objRow vec32 ⟨[.vector, .immediate], .one, none⟩ absent absent [0]
  | .sst _ => objRow absent ⟨[.vector, .immediate], .one, none⟩ ⟨[.vector, .immediate], .one, none⟩ absent [0]
  | .marg _ => objRow vec32 (field 4) absent absent [0]
  | .mret _ => objRow absent ⟨[.vector, .immediate, .none], .one, none⟩ absent absent [0]
  | .mtrap _ => objRow absent (field 7) absent absent [0]
  | .ctxsv _ | .ctxrs _ => sysRow absent uni32 upair (field 3) [.n64] [0] sc0
  | .tlbi _ => if f.m2 = 0 then sysRow absent uni32 upair uniImm32 [.n64] [0, 1, 2] sc0
               else sysRow absent uni32 absent absent [.n64] [0, 1, 2] sc0
  | .dictrd _ => sysRow (group 4) std32 std32Opt absent [.b32] [0] sc0
  | .lanex _ => sysRow vec32 std32 std32 absent [.b32] [0] sc0
  | .parkr _ => sysRow pred uniImm32 absent absent [.b32] [0, 1] sc0
  | _ => sysRow absent absent absent absent [] [] []

/-- What the decode of a word depends on beside its form: the workgroup's counts and the mode (R132, R134, R420). -/
structure Limits where
  tiles  : Nat
  accs   : Nat
  jregs  : Nat
  priv   : Bool
  method : Bool
  wbase  : Nat
  pcLast : Bool                    -- PC = 0xFFFF_FFFC
  deriving DecidableEq, Repr

/-- The number a slot names before classes are checked (R134). -/
def slotNum (f : Form) (s : Slot) : Nat :=
  if s.hole = .fixed then s.num.toNat else (f.field s.hole).toNat

/-- The absolute vector register of a slot, latches excluded (R134, R142). -/
def vecReg (f : Form) (wbase : Nat) (s : Slot) : Nat :=
  if s.hole = .fixed then s.num.toNat else wbase + (f.field s.hole).toNat

/-- The latch a source slot names, if it names one (R134, R152). -/
def latchNum (f : Form) (s : Slot) : Option Nat :=
  if s.cls != .vector then none
  else if s.hole = .fixed then (if 0x200 ≤ s.num.toNat then some (s.num.toNat - 0x200) else none)
  else if 120 ≤ (f.field s.hole).toNat then some ((f.field s.hole).toNat - 120) else none

/-- The fields a form consumes (R133). -/
def consumes (f : Form) (h : Hole) : Bool :=
  [f.d, f.a, f.b, f.c].any (fun s => s.cls != .none && s.hole = h)
    || (f.immsrc = .faFb && (h = .fa || h = .fb)) || (f.immsrc = .fb && h = .fb)

/-- Whether an operand is a V2, V4 or V8 destination (R133). -/
def Opnd.isGroup (o : Opnd) : Bool := match o.span with | .group _ => true | _ => false

/-- An immediate hole of a field immediate holds no bit above its width (R133). -/
def holeWidthOk (f : Form) (s : Slot) (o : Opnd) : Bool :=
  match o.bits with
  | some k => s.cls != .immediate || s.hole = .fixed || (f.field s.hole).toNat < 2 ^ k
  | none => true

/-- R133. -/
def fieldsOk (f : Form) (g : Sig) : Bool :=
  (!f.nwb || (f.fd == 0 && f.d.cls = .vector && !g.d.isGroup))
    && (f.fd == 0 || consumes f .fd) && (f.fa == 0 || consumes f .fa) && (f.fb == 0 || consumes f .fb)
    && holeWidthOk f f.a g.a && holeWidthOk f f.b g.b && holeWidthOk f f.c g.c

/-- R134, with the limits of R420 in a method. -/
def slotFault (f : Form) (lim : Limits) (isD : Bool) (s : Slot) : Option Cause :=
  let n := slotNum f s
  if lim.method && (s.cls = .uniform || s.cls = .tile || s.cls = .accumulator || s.cls = .convergence
      || (s.cls = .vector && 64 ≤ n && (if s.hole = .fixed then n < 0x200 else n < 120))) then some .objMethod
  else match s.cls with
  | .none => none
  | .vector => if isD && s.hole != .fixed && 120 ≤ n then some .regDest else none
  | .uniform => if 64 ≤ n then some .illClass else none
  | .predicate => if 8 ≤ n then some .illClass else none
  | .tile => if lim.tiles ≤ n then some .illClass else none
  | .accumulator => if lim.accs ≤ n then some .illClass else none
  | .convergence => if lim.jregs ≤ n then some .illClass else none
  | .immediate => none

/-- The class of a slot against its column (R192), with R194 for a uniform destination. -/
def classOk (f : Form) (g : Sig) (isD : Bool) (s : Slot) (o : Opnd) : Bool :=
  o.cls.contains s.cls
    && !(g.unif && !isD && f.d.cls = .uniform && s.cls = .vector && o.cls.contains .immediate)

/-- Registers an operand spans. -/
def Opnd.width (o : Opnd) (ty : Ty) : Nat :=
  match o.span with
  | .ty => if wideTy ty then 2 else 1
  | .one => 1
  | .pair => 2
  | .group n => n
  | .u16 => 16
  | .u4 => 4

/-- Register numbers and field immediates of a slot of a listed class (R52, R136, R140, R249, R343). -/
def slotRule (f : Form) (lim : Limits) (s : Slot) (o : Opnd) : Option Cause :=
  let n := slotNum f s
  match s.cls with
  | .vector =>
    match o.span with
    | .group k =>
      if (latchNum f s).isSome then some .illClass
      else if (if s.hole = .fixed then 511 < n + k - 1 else 119 < n + k - 1) then some .illField
      else none
    | _ =>
      if o.width f.ty = 2 then
        match latchNum f s with
        | some b => if b = 0 then some .illField else none
        | none => if (vecReg f lim.wbase s) % 2 = 1 then some .illField else none
      else none
  | .uniform =>
    match o.span with
    | .u16 => if n = 0 || n = 16 || n = 32 then none else some .illField
    | .u4 => if n % 4 = 0 && n ≤ 52 then none else some .illField
    | _ => if o.width f.ty = 2 && n % 2 = 1 then some .illField else none
  | .immediate =>
    match o.bits with
    | some k => if (f.slotImm s).toNat < 2 ^ k then none else some .illField
    | none => none
  | _ => none

/-- The first of some checks that fails. -/
def firstFault (l : List (Option Cause)) : Option Cause := l.findSome? id

/-- A check as a cause. -/
def faultUnless (c : Cause) (ok : Bool) : Option Cause := if ok then none else some c

/-- MOPs that only a method executes (R421). -/
def methodOnly : Instr → Bool
  | .sld _ | .sst _ | .marg _ | .mret _ | .mtrap _ => true
  | _ => false

/-- The count of a REFORM is at most 32 (R90, R319). -/
def reformOk (i : Instr) (f : Form) : Bool :=
  match i with
  | .reform _ => decide ((f.slotImm f.a).toNat ≤ 32)
  | _ => true

/-- The decode faults of an instruction (R132, R135; in a method, R420), the first that fails. -/
def decodeFault (i : Instr) (f : Form) (lim : Limits) : Option Cause :=
  let g := sigOf i f
  firstFault [
    faultUnless .illLiteral (!(f.immsrc = .literal && lim.pcLast)),
    faultUnless .illField (fieldsOk f g),
    slotFault f lim true f.d, slotFault f lim false f.a, slotFault f lim false f.b, slotFault f lim false f.c,
    faultUnless .illPriv (!privilegedMop (mopOf i) || lim.priv),
    faultUnless .objMethod (!(methodOnly i && !lim.method)),
    faultUnless .illType (g.tys.contains f.ty && g.tyMore),
    faultUnless .illField (g.m2.contains f.m2.toNat),
    faultUnless .illField (g.rms.contains f.rm && (!lim.method || f.rm = .rne)),
    faultUnless .illField (g.sat || !f.sat),
    faultUnless (if g.scope && f.sc = .res7 then .illScope else .illField) (g.scs.contains f.sc),
    faultUnless .illClass (classOk f g true f.d g.d), faultUnless .illClass (classOk f g false f.a g.a),
    faultUnless .illClass (classOk f g false f.b g.b), faultUnless .illClass (classOk f g false f.c g.c),
    slotRule f lim f.d g.d, slotRule f lim f.a g.a, slotRule f lim f.b g.b, slotRule f lim f.c g.c,
    faultUnless .illField g.more, faultUnless .ctlBin (reformOk i f) ]

end Sys2Proof.Machine
end

