-- ==== Sys2Proof/Machine/Alu.lean ====
section
/-! DEFINITION. The values of the integer, bit, move, float, conversion and dot-product instructions (R198 to R219), as
functions of their operands alone. A 32-bit operand stands zero-extended in 64 bits. -/

namespace Sys2Proof.Machine

/-- Element width of a type (R51). -/
def elemBits : Ty → Nat
  | .n64 | .i64 => 64
  | .f16x2 | .bf16x2 | .n16x2 | .i16x2 => 16
  | .oz8x4 | .n8x4 | .i8x4 => 8
  | _ => 32

/-- Whether elements are two's complement (R198). -/
def signedTy : Ty → Bool
  | .i32 | .i64 | .i8x4 | .i16x2 => true
  | _ => false

/-- Element i of a value. -/
def elem (w : Nat) (x : DWord) (i : Nat) : Nat := x.toNat / 2 ^ (w * i) % 2 ^ w

/-- A value from its elements, element 0 first. -/
def ofElems (w : Nat) (l : List Nat) : DWord :=
  BitVec.ofNat 64 (l.foldr (fun e acc => e % 2 ^ w + 2 ^ w * acc) 0)

/-- The typed value of an element (R198). -/
def typed (ty : Ty) (n : Nat) : Int :=
  let w := elemBits ty
  if signedTy ty && decide (2 ^ (w - 1) ≤ n) then (n : Int) - 2 ^ w else n

def tyMin (ty : Ty) : Int := if signedTy ty then -(2 ^ (elemBits ty - 1)) else 0
def tyMax (ty : Ty) : Int := if signedTy ty then 2 ^ (elemBits ty - 1) - 1 else 2 ^ elemBits ty - 1

/-- An exact result reduced to its element (R53): modulo 2^w, or to the nearest bound under SAT. -/
def reduce (ty : Ty) (sat : Bool) (v : Int) : Nat :=
  let v := if sat then max (tyMin ty) (min (tyMax ty) v) else v
  (v % (2 ^ elemBits ty : Int)).toNat

/-- An integer operation on each element (R53). -/
def intOp (ty : Ty) (sat : Bool) (g : Int → Int → Int → Int) (a b c : DWord) : DWord :=
  let w := elemBits ty
  ofElems w ((List.range (tyElems ty)).map fun i =>
    reduce ty sat (g (typed ty (elem w a i)) (typed ty (elem w b i)) (typed ty (elem w c i))))

/-- A value and the flags it raises. -/
structure Val where
  v     : DWord
  flags : Flags
  deriving DecidableEq, Repr

def plain (v : DWord) : Val := ⟨v, 0⟩

/-- The operands of an instruction: slots A, B and C, and predicate sources where a slot is a predicate. -/
structure Args where
  a  : DWord
  b  : DWord
  c  : DWord
  pa : Bool
  pb : Bool
  pc : Bool
  deriving DecidableEq, Repr

/-! ### Integer and bit (R199 to R203) -/

def iaddVal (f : Form) (x : Args) : Val := plain (intOp f.ty f.sat (fun a b _ => a + b) x.a x.b 0)
def isubVal (f : Form) (x : Args) : Val := plain (intOp f.ty f.sat (fun a b _ => a - b) x.a x.b 0)
def imulVal (f : Form) (x : Args) : Val := plain (intOp f.ty f.sat (fun a b _ => a * b) x.a x.b 0)
def imulhVal (f : Form) (x : Args) : Val := plain (intOp f.ty false (fun a b _ => a * b / 2 ^ 32) x.a x.b 0)
def imadVal (f : Form) (x : Args) : Val := plain (intOp f.ty f.sat (fun a b c => a * b + c) x.a x.b x.c)
/-- ISHA: n is the field immediate of slot C. -/
def ishaVal (f : Form) (x : Args) : Val :=
  plain (intOp f.ty f.sat (fun a b _ => a * 2 ^ x.c.toNat + b) x.a x.b 0)
def iminVal (f : Form) (x : Args) : Val := plain (intOp f.ty false (fun a b _ => min a b) x.a x.b 0)
def imaxVal (f : Form) (x : Args) : Val := plain (intOp f.ty false (fun a b _ => max a b) x.a x.b 0)
def iabsVal (f : Form) (x : Args) : Val := plain (intOp f.ty f.sat (fun a _ _ => (a.natAbs : Int)) x.a 0 0)

/-- A 32-bit or 64-bit value cut to its type. -/
def cut (ty : Ty) (v : DWord) : DWord := if wideTy ty then v else (v.extractLsb' 0 32).setWidth 64

/-- b′ of R199. -/
def notB (f : Form) (b : DWord) : DWord := if f.m2.getLsbD 0 then ~~~b else b

def andVal (f : Form) (x : Args) : Val := plain (cut f.ty (x.a &&& notB f x.b))
def orVal (f : Form) (x : Args) : Val := plain (cut f.ty (x.a ||| notB f x.b))
def xorVal (f : Form) (x : Args) : Val := plain (cut f.ty (x.a ^^^ notB f x.b))

/-- SHL (R199): b is the whole 32-bit operand. -/
def shlVal (f : Form) (x : Args) : Val :=
  let w := elemBits f.ty
  plain (if x.b.toNat < w then cut f.ty (x.a <<< x.b.toNat) else 0)

/-- SHR (R199): arithmetic for I32 and I64. -/
def shrVal (f : Form) (x : Args) : Val :=
  let w := elemBits f.ty
  if signedTy f.ty then
    let a := typed f.ty (elem w x.a 0)
    let n := min x.b.toNat w
    plain (BitVec.ofNat 64 ((a / 2 ^ n % 2 ^ w).toNat))
  else plain (if x.b.toNat < w then cut f.ty x.a >>> x.b.toNat else 0)

def rotl32 (a : Word) (n : Nat) : Word := a.rotateLeft (n % 32)

def rotlVal (_ : Form) (x : Args) : Val := plain ((rotl32 (x.a.extractLsb' 0 32) (x.b.toNat % 32)).setWidth 64)

/-- BFX (R200). -/
def bfxVal (f : Form) (x : Args) : Val :=
  let pos := x.b.toNat % 256
  let l := min (x.b.toNat / 256 % 256) 32
  let v := typed f.ty (elem 32 x.a 0)
  let fld := (v / 2 ^ pos % 2 ^ l).toNat
  plain (BitVec.ofNat 64 (
    if l = 0 then 0
    else if f.ty = .i32 && decide (2 ^ (l - 1) ≤ fld) then 2 ^ 32 + fld - 2 ^ l
    else fld))

/-- BFI (R200). -/
def bfiVal (_ : Form) (x : Args) : Val :=
  let pos := x.c.toNat % 256
  let l := min (x.c.toNat / 256 % 256) 32
  let mask : Word := BitVec.ofNat 32 ((2 ^ l - 1) * 2 ^ pos)
  let a := x.a.extractLsb' 0 32
  let b := x.b.extractLsb' 0 32
  plain (((b &&& ~~~mask) ||| (BitVec.ofNat 32 (a.toNat * 2 ^ pos) &&& mask)).setWidth 64)

/-- BSEL (R201). -/
def bselVal (_ : Form) (x : Args) : Val :=
  let y := x.a.toNat % 2 ^ 32 + 2 ^ 32 * (x.b.toNat % 2 ^ 32)
  let c := x.c.toNat
  plain (ofElems 8 ((List.range 4).map fun i =>
    let n := c / 2 ^ (3 * i) % 8
    let b := y / 2 ^ (8 * n) % 256
    if c.testBit (12 + i) then 0 else if c.testBit (16 + i) then 255 - b else b))

def popcVal (f : Form) (x : Args) : Val :=
  plain (BitVec.ofNat 64 ((List.range (elemBits f.ty)).countP fun i => x.a.getLsbD i))

def clzVal (f : Form) (x : Args) : Val :=
  let a := (cut f.ty x.a).toNat
  plain (BitVec.ofNat 64 (if a = 0 then elemBits f.ty else elemBits f.ty - 1 - Nat.log2 a))

def brevVal (f : Form) (x : Args) : Val :=
  let w := elemBits f.ty
  plain (BitVec.ofNat 64 ((List.range w).foldl (fun acc i => acc + if x.a.getLsbD i then 2 ^ (w - 1 - i) else 0) 0))

/-- cmp of ISETP: true only when it holds for every element (R202). -/
def isetpTest (f : Form) (x : Args) : Bool :=
  let w := elemBits f.ty
  (List.range (tyElems f.ty)).all fun i =>
    let a := typed f.ty (elem w x.a i)
    let b := typed f.ty (elem w x.b i)
    match f.m2.toNat with
    | 0 => decide (a = b) | 1 => decide (a < b) | 2 => decide (a ≤ b) | _ => decide (a ≠ b)

def boolVal (b : Bool) : DWord := if b then 1 else 0

def isetpVal (f : Form) (x : Args) : Val := plain (boolVal (isetpTest f x && x.pc))
def selVal (f : Form) (x : Args) : Val := plain (cut f.ty (if x.pc then x.a else x.b))
def movVal (f : Form) (x : Args) : Val := plain (cut f.ty x.a)

/-- PSET (R202): bit 4 pa + 2 pb + pc of IMM. -/
def psetVal (f : Form) (x : Args) : Val :=
  plain (boolVal (f.imm.getLsbD ((if x.pa then 4 else 0) + (if x.pb then 2 else 0) + (if x.pc then 1 else 0))))

/-! ### Float (R206 to R211) -/

/-- The format of a floating type (R54). -/
def tyFmt : Ty → Fmt
  | .f16x2 => fmtF16
  | .bf16x2 => fmtBF16
  | _ => fmtF32

/-- Negation of an element (R206). -/
def negIf (f : Fmt) (n : Bool) (x : Nat) : Nat := if n then (x + f.signBit) % (2 * f.signBit) else x

/-- A floating operation on each element, with its flags ORed (R60, R193). -/
def fpOp (ty : Ty) (g : Nat → Nat → Nat → FRes) (a b c : DWord) : Val :=
  let w := elemBits ty
  let rs := (List.range (tyElems ty)).map fun i => g (elem w a i) (elem w b i) (elem w c i)
  ⟨ofElems w (rs.map FRes.bits), rs.foldl (fun fl r => fl ||| r.flags) 0⟩

/-- A floating operation with NA on a and the second negation on b (R205). -/
def fpBin (f : Form) (g : Fmt → Nat → Nat → FRes) (x : Args) : Val :=
  let fm := tyFmt f.ty
  fpOp f.ty (fun a b _ => fpSat fm f.sat (g fm (negIf fm (f.m2.getLsbD 0) a) (negIf fm (f.m2.getLsbD 1) b))) x.a x.b 0

def faddVal (f : Form) (x : Args) : Val := fpBin f (fun fm a b => fpAdd fm f.rm a b) x
def fmulVal (f : Form) (x : Args) : Val := fpBin f (fun fm a b => fpMul fm f.rm a b) x
def fminVal (f : Form) (x : Args) : Val := fpBin f (fun fm a b => fpMinMax fm false a b) x
def fmaxVal (f : Form) (x : Args) : Val := fpBin f (fun fm a b => fpMinMax fm true a b) x

/-- FFMA: NA negates the product, NC the addend (R206). -/
def ffmaVal (f : Form) (x : Args) : Val :=
  let fm := tyFmt f.ty
  fpOp f.ty (fun a b c =>
    fpSat fm f.sat (fpFma fm f.rm (negIf fm (f.m2.getLsbD 0) a) b (negIf fm (f.m2.getLsbD 1) c))) x.a x.b x.c

/-- FSETP (R208). -/
def fsetpVal (f : Form) (x : Args) : Val :=
  let fm := tyFmt f.ty
  let w := elemBits f.ty
  let rs := (List.range (tyElems f.ty)).map fun i => fpCmp fm f.m2.toNat (elem w x.a i) (elem w x.b i)
  ⟨boolVal (rs.all Prod.fst && x.pc), rs.foldl (fun fl r => fl ||| r.2) 0⟩

/-- FSCL (R209): b is I32 for every element. -/
def fsclVal (f : Form) (x : Args) : Val :=
  let fm := tyFmt f.ty
  let b := typed .i32 (x.b.toNat % 2 ^ 32)
  fpOp f.ty (fun a _ _ => fpSat fm f.sat (fpScale fm f.rm (negIf fm (f.m2.getLsbD 0) a) b)) x.a 0 0

/-- A floating operation of one operand with NA (R205). -/
def fpUn (f : Form) (g : Fmt → Nat → FRes) (x : Args) : Val :=
  let fm := tyFmt f.ty
  fpOp f.ty (fun a _ _ => fpSat fm f.sat (g fm (negIf fm (f.m2.getLsbD 0) a))) x.a 0 0

def frcVal (f : Form) (x : Args) : Val := fpUn f (fun fm a => fpFrac fm f.rm a) x
def frndVal (f : Form) (x : Args) : Val := fpUn f (fun fm a => fpRound fm f.rm a) x

/-! ### Conversions (R212 to R217) -/

/-- The draw of R69 and R215: element j of lane position l, from the advanced state x. -/
def srDraw (x : Word) (l j : Nat) : Nat := (rotl32 x ((7 * l + 16 * j) % 32)).toNat % 65536

/-- One element of a conversion (R214). -/
def cvtElem (src dst : Ty) (rm : Rm) (sat : Bool) (u : Nat) (x : Nat) : FRes :=
  match src, dst with
  | .oz8x4, _ => fpSat (tyFmt dst) sat (fpOfOz (tyFmt dst) 127 x)
  | _, .oz8x4 => ozOfFp (tyFmt src) rm sat u x
  | .f32, _ => fpSatNarrow (tyFmt dst) sat
      (if rm = .sr then fpConvertSr (tyFmt src) (tyFmt dst) u x else fpConvert (tyFmt src) (tyFmt dst) rm x)
  | _, _ => fpSat (tyFmt dst) sat (fpConvert (tyFmt src) (tyFmt dst) rm x)

/-- CVT at lane position l with generator state x (R213 to R215): q is slot B. -/
def cvtVal (f : Form) (gen : Word) (l : Nat) (x : Args) : Val :=
  let src := srcTy f.m2
  let dst := f.ty
  let ws := elemBits src
  let wd := elemBits dst
  let ns := tyElems src
  let nd := tyElems dst
  let q := x.b.toNat
  let n := min ns nd
  let at0 := if nd ≤ ns then q * nd else 0
  let rs := (List.range n).map fun j => cvtElem src dst f.rm f.sat (srDraw gen l j) (elem ws x.a (at0 + j))
  let fl := rs.foldl (fun fl r => fl ||| r.flags) (0 : Flags)
  let out := (List.range nd).map fun i =>
    if nd ≤ ns then (rs.getD i ⟨0, 0⟩).bits
    else if q * ns ≤ i && i < q * ns + ns then (rs.getD (i - q * ns) ⟨0, 0⟩).bits
    else elem wd x.c i
  ⟨ofElems wd out, fl⟩

/-- F2I (R216). -/
def f2iVal (f : Form) (x : Args) : Val :=
  let (v, fl) := fpToInt f.rm (tyMin f.ty) (tyMax f.ty) (x.a.toNat % 2 ^ 32)
  ⟨BitVec.ofNat 64 (reduce f.ty false v), fl⟩

/-- I2F (R217). -/
def i2fVal (f : Form) (x : Args) : Val :=
  let v := typed f.ty (elem (elemBits f.ty) x.a 0)
  let r := fpSat fmtF32 f.sat (roundInt fmtF32 f.rm false v 1)
  ⟨BitVec.ofNat 64 r.bits, r.flags⟩

/-- FCLASS (R218): the mask is slot B. -/
def fclassVal (_ : Form) (x : Args) : Val := plain (boolVal (x.b.getLsbD (fpClass (x.a.toNat % 2 ^ 32))))

/-- DOT4 (R219). -/
def dot4Val (f : Form) (x : Args) : Val :=
  let idx := List.range 4
  if f.ty = .oz8x4 then
    let r := fpSat fmtF32 f.sat (fpDot4 f.rm (idx.map (elem 8 x.a)) (idx.map (elem 8 x.b)) (x.c.toNat % 2 ^ 32))
    ⟨BitVec.ofNat 64 r.bits, r.flags⟩
  else
    let tc : Ty := if f.ty = .i8x4 then .i32 else .n32
    let s := idx.foldl (fun acc i => acc + typed f.ty (elem 8 x.a i) * typed f.ty (elem 8 x.b i)) (0 : Int)
    plain (BitVec.ofNat 64 (reduce tc f.sat (s + typed tc (x.c.toNat % 2 ^ 32))))

/-- DDX and DDY (R222): the difference of two F32 values. -/
def diffVal (f : Form) (p m : DWord) : Val :=
  let r := fpAdd fmtF32 f.rm (p.toNat % 2 ^ 32) (negIf fmtF32 true (m.toNat % 2 ^ 32))
  ⟨BitVec.ofNat 64 r.bits, r.flags⟩

/-- One step of REDW and SCANW (R225). -/
def redStep (f : Form) (acc x : DWord) : Val :=
  match f.ty with
  | .b32 => plain (match f.m2.toNat with | 0 => acc &&& x | 1 => acc ||| x | _ => acc ^^^ x)
  | .f32 =>
    let a := acc.toNat % 2 ^ 32
    let b := x.toNat % 2 ^ 32
    let r := match f.m2.toNat with
      | 0 => fpAdd fmtF32 f.rm a b
      | 1 => fpMinMax fmtF32 false a b
      | _ => fpMinMax fmtF32 true a b
    ⟨BitVec.ofNat 64 r.bits, r.flags⟩
  | _ => plain (match f.m2.toNat with
      | 0 => cut f.ty (acc + x)
      | 1 => intOp f.ty false (fun a b _ => min a b) acc x 0
      | _ => intOp f.ty false (fun a b _ => max a b) acc x 0)

/-- The value of the first contributor of an F32 reduction (R225). -/
def redFirst (x : DWord) : Val :=
  match fval fmtF32 (x.toNat % 2 ^ 32) with
  | .nan s => ⟨BitVec.ofNat 64 fmtF32.nanBits, flagIf s flagNV⟩
  | _ => plain (cut .f32 x)

/-- A value of an F32 reduction as it is written: SAT applies to it alone (R225). -/
def redSat (f : Form) (y : Val) : Val :=
  if f.ty = .f32 then ⟨BitVec.ofNat 64 (fpSat fmtF32 f.sat ⟨y.v.toNat % 2 ^ 32, 0⟩).bits, y.flags⟩ else y

/-- The values P(l) of R225 over the contributors' values in ascending LANEID, each with the flags of its own step. -/
def redScan (f : Form) (xs : List DWord) : List Val :=
  if f.ty != .f32 && f.ty != .b32 && f.m2 = 0 then
    let sums := xs.foldl (fun (acc : Int × List Int) x =>
      let s := acc.1 + typed f.ty (elem (elemBits f.ty) x 0)
      (s, acc.2 ++ [s])) (0, [])
    sums.2.map fun s => plain (BitVec.ofNat 64 (reduce f.ty f.sat s))
  else
    let vals := xs.foldl (fun (acc : Option DWord × List Val) x =>
      let y := match acc.1 with
        | none => if f.ty = .f32 then redFirst x else plain (cut f.ty x)
        | some p => redStep f p x
      (some y.v, acc.2 ++ [y])) (none, [])
    vals.2.map (redSat f)

/-- The new value and old value of an atomic (R242). -/
def atomOp (ty : Ty) (op : Nat) (old v : DWord) : DWord :=
  let o := cut ty old
  let x := cut ty v
  if op = 3 then x
  else match ty with
  | .b32 => match op with | 0 => o &&& x | 1 => o ||| x | _ => o ^^^ x
  | .f32 =>
    let a := o.toNat
    let b := x.toNat
    BitVec.ofNat 64 (match op with
      | 0 => (fpAdd fmtF32 .rne a b).bits
      | 1 => (fpMinMax fmtF32 false a b).bits
      | _ => (fpMinMax fmtF32 true a b).bits)
  | _ => match op with
      | 0 => cut ty (o + x)
      | 1 => intOp ty false (fun a b _ => min a b) o x 0
      | _ => intOp ty false (fun a b _ => max a b) o x 0

/-- The comparison of WAITW (R245). -/
def waitwTest (signed : Bool) (size cmp : Nat) (word val : DWord) : Bool :=
  let ty : Ty := if size = 8 then (if signed then .i64 else .n64) else (if signed then .i32 else .n32)
  let a := typed ty (word.toNat % 2 ^ (8 * size))
  let b := typed ty (val.toNat % 2 ^ (8 * size))
  match cmp with
  | 0 => decide (a = b) | 1 => decide (a ≠ b) | 2 => decide (b ≤ a) | _ => decide (a < b)

end Sys2Proof.Machine
end

