-- ==== Sys2Proof/Machine/Ops.lean ====
section
/-! DEFINITION. Named operations over the tables, memory, registers, groups and traps of the state. -/

namespace Sys2Proof.Machine

/-! ### Sparse tables -/

/-- The value at an index; what is not listed reads 0. -/
def Cells.read {w : Nat} : Cells w → Nat → BitVec w
  | [], _ => 0
  | (k, v) :: rest, i => if k = i then v else Cells.read rest i

/-- A table with one index written: the indices stay rising and no 0 is listed. -/
def Cells.write {w : Nat} : Cells w → Nat → BitVec w → Cells w
  | [], i, v => if v = 0 then [] else [(i, v)]
  | (k, u) :: rest, i, v =>
    if i < k then (if v = 0 then (k, u) :: rest else (i, v) :: (k, u) :: rest)
    else if i = k then (if v = 0 then rest else (i, v) :: rest)
    else (k, u) :: Cells.write rest i v

/-- Whether a table is in canonical form: indices rising from `lo`, no 0 listed. -/
def Cells.wfFrom {w : Nat} : Nat → Cells w → Bool
  | _, [] => true
  | lo, (k, v) :: rest => lo ≤ k && v != 0 && Cells.wfFrom (k + 1) rest

/-- The canonical form of memory. -/
def Memory.wf (m : Mem) : Bool := Cells.wfFrom 0 m

/-- One byte of memory. -/
def Memory.read (m : Mem) (a : Nat) : Byte := Cells.read m a

/-- Memory with one byte written. -/
def Memory.write (m : Mem) (a : Nat) (v : Byte) : Mem := Cells.write m a v

/-- `n` bytes from an address, lowest first. -/
def Memory.bytes (m : Mem) (a n : Nat) : List Byte := (List.range n).map fun i => Memory.read m (a + i)

/-- Memory with bytes written from an address upward. -/
def Memory.store (m : Mem) : Nat → List Byte → Mem
  | _, [] => m
  | a, b :: bs => Memory.store (Memory.write m a b) (a + 1) bs

/-- The little-endian value of bytes (R5). -/
def leNat : List Byte → Nat
  | [] => 0
  | b :: bs => b.toNat + 256 * leNat bs

/-- The `n` little-endian bytes of a value (R5). -/
def leBytes : Nat → Nat → List Byte
  | 0, _ => []
  | n + 1, v => BitVec.ofNat 8 v :: leBytes n (v / 256)

/-- A field of `n` little-endian bytes. -/
def fieldAt (b : List Byte) (off n : Nat) : Nat := leNat ((b.drop off).take n)

/-- The little-endian value of `n` bytes of memory. -/
def Memory.le (m : Mem) (a n : Nat) : Nat := leNat (Memory.bytes m a n)

/-! ### Bits and lists -/

def setNth {α : Type} : List α → Nat → α → List α
  | [], _, _ => []
  | _ :: xs, 0, v => v :: xs
  | x :: xs, n + 1, v => x :: setNth xs n v

def mapNth {α : Type} (l : List α) (n : Nat) (f : α → α) : List α :=
  match l, n with
  | [], _ => []
  | x :: xs, 0 => f x :: xs
  | x :: xs, n + 1 => x :: mapNth xs n f

/-- Change the elements that satisfy a test. -/
def mapIf {α : Type} (p : α → Bool) (f : α → α) (l : List α) : List α := l.map fun x => if p x then f x else x

/-- Insert a number into a rising list, once. -/
def insertNat (n : Nat) : List Nat → List Nat
  | [] => [n]
  | k :: ks => if n < k then n :: k :: ks else if n = k then k :: ks else k :: insertNat n ks

def wordOf (n : Nat) : Word := BitVec.ofNat 32 n
def dwordOf (n : Nat) : DWord := BitVec.ofNat 64 n

/-! ### Parts of the state -/

def State.ctx? (s : State) (id : Nat) : Option Context := s.contexts.find? fun c => c.id = id && !c.killed

def State.updCtx (s : State) (id : Nat) (f : Context → Context) : State :=
  { s with contexts := mapIf (fun c => c.id = id && !c.killed) f s.contexts }

/-- A core before anything has happened on it (log 6). -/
def Core.fresh (v : Nat) : Core :=
  { vault := v, fenced := false, slots := [], jobs := [], bins := [], groups := []
    pcmp := List.replicate 8 (0, 0), handler := [], l1 := [] }

def State.core (s : State) (v : Nat) : Core := (s.cores.find? fun c => c.vault = v).getD (Core.fresh v)

def State.updCore (s : State) (v : Nat) (f : Core → Core) : State :=
  if s.cores.any (fun c => c.vault = v) then { s with cores := mapIf (fun c => c.vault = v) f s.cores }
  else { s with cores := s.cores ++ [f (Core.fresh v)] }

def clusterOf (core : Nat) : Nat := core / 256
def dieOf (core : Nat) : Nat := core / 512

/-- A workgroup, or a control core as one (R18). -/
def State.wg? (s : State) (id : Nat) : Option Workgroup := (s.wgs.find? fun w => w.id = id).or (s.ctl.find? fun w => w.id = id)

def State.updWg (s : State) (id : Nat) (f : Workgroup → Workgroup) : State :=
  { s with wgs := mapIf (fun w => w.id = id) f s.wgs, ctl := mapIf (fun w => w.id = id) f s.ctl }

def State.warp? (s : State) (wg w : Nat) : Option Warp := (s.wg? wg).bind fun g => g.warps[w]?

def State.updWarp (s : State) (wg w : Nat) (f : Warp → Warp) : State :=
  s.updWg wg fun g => { g with warps := mapNth g.warps w f }

def State.lane? (s : State) (r : LaneRef) : Option Lane := (s.warp? r.wg r.warp).bind fun w => w.lanes[r.lane]?

def State.updLane (s : State) (r : LaneRef) (f : Lane → Lane) : State :=
  s.updWarp r.wg r.warp fun w => { w with lanes := mapNth w.lanes r.lane f }

def State.updLanes (s : State) (rs : List LaneRef) (f : Lane → Lane) : State :=
  rs.foldl (fun s r => s.updLane r f) s

def State.launch? (s : State) (id : Nat) : Option Launch := s.launches.find? fun l => l.id = id

def State.updLaunch (s : State) (id : Nat) (f : Launch → Launch) : State :=
  { s with launches := mapIf (fun l => l.id = id) f s.launches }

def State.cmd? (s : State) (id : Nat) : Option Command := s.cmds.find? fun c => c.id = id

def State.updCmd (s : State) (id : Nat) (f : Command → Command) : State :=
  { s with cmds := mapIf (fun c => c.id = id) f s.cmds }

/-- A pipe that has not issued: latches empty, no last group. -/
def Pipe.fresh (core pane pipe : Nat) : Pipe :=
  { core := core, pane := pane, pipe := pipe, latches := List.replicate 32 (List.replicate 8 .empty), last := none }

/-- A pipe whose latches have become empty (R140). -/
def Pipe.cleared (p : Pipe) : Pipe := { Pipe.fresh p.core p.pane p.pipe with entries := p.entries }

def State.pipe (s : State) (core pane pipe : Nat) : Pipe :=
  (s.pipes.find? fun p => p.core = core && p.pane = pane && p.pipe = pipe).getD (Pipe.fresh core pane pipe)

def State.setPipe (s : State) (p : Pipe) : State :=
  let same := fun q : Pipe => q.core = p.core && q.pane = p.pane && q.pipe = p.pipe
  if s.pipes.any same then { s with pipes := mapIf same (fun _ => p) s.pipes } else { s with pipes := s.pipes ++ [p] }

def State.target? (s : State) (ctx : Nat) (h : Word) : Option Target :=
  if h.toNat / 2 ^ 20 = 0x100 then
    (s.ctx? ctx).bind fun c => c.targets.find? fun t => t.index = h.toNat % 2 ^ 20 && !t.dead
  else none

def State.updTarget (s : State) (ctx : Nat) (index : Nat) (f : Target → Target) : State :=
  s.updCtx ctx fun c => { c with targets := mapIf (fun t => t.index = index) f c.targets }

/-- A replayed object or queue by its handle (R49). -/
def State.object? (s : State) (ctx : Nat) (h : Word) : Option ReplayObj :=
  if h.toNat / 2 ^ 20 = 0x200 || h.toNat / 2 ^ 20 = 0x400 then
    (s.ctx? ctx).bind fun c => c.objects.find? fun o => o.kind = h.toNat / 2 ^ 28 && o.index = h.toNat % 2 ^ 20 && !o.dead
  else none

def State.updObject (s : State) (ctx : Nat) (h : Word) (f : ReplayObj → ReplayObj) : State :=
  s.updCtx ctx fun c =>
    { c with objects := mapIf (fun o => o.kind = h.toNat / 2 ^ 28 && o.index = h.toNat % 2 ^ 20) f c.objects }

def State.texture? (s : State) (ctx : Nat) (h : Word) : Option Texture :=
  if h.toNat / 2 ^ 20 = 0x300 then
    (s.ctx? ctx).bind fun c => c.textures.find? fun t => t.index = h.toNat % 2 ^ 20
  else none

/-! ### Scheduler entries (R104, R105) -/

/-- The scheduler entries a pipe has: its resident warps and its reformed groups. -/
def State.pipeEntries (s : State) (core pane pipe : Nat) : List Entry :=
  ((s.wgs.filter fun g => g.core = core && g.resident).flatMap fun g => g.warps.zipIdx.filterMap fun v =>
      if v.1.pane = pane && v.1.pipe = pipe then some (Entry.warp g.id v.2) else none)
    ++ (s.core core).groups.filterMap fun r => if r.pane = pane && r.pipe = pipe then some (Entry.slot r.slot) else none

/-- The entries of a pipe in their order, the active one first: those it has gained since the order was last kept come
last. -/
def State.entries (s : State) (core pane pipe : Nat) : List Entry :=
  let now := s.pipeEntries core pane pipe
  let kept := (s.pipe core pane pipe).entries.filter now.contains
  kept ++ now.filter fun e => !kept.contains e

/-- Keep the order of the entries of a pipe. -/
def State.keepEntries (s : State) (core pane pipe : Nat) : State :=
  s.setPipe { s.pipe core pane pipe with entries := s.entries core pane pipe }

/-- A fresh number of the model (accesses, commands, groups, workgroups). -/
def State.bump (s : State) : State := { s with seq := s.seq + 1 }

/-! ### Poison and stores -/

def State.poisoned (s : State) (phys : Nat) : Bool := s.poison.contains (phys / 64)

def State.addPoison (s : State) (line : Nat) : State := { s with poison := insertNat line s.poison }

def State.clearPoison (s : State) (line : Nat) : State := { s with poison := s.poison.filter (· != line) }

/-- Whether any of `n` bytes lies in a poisoned line. -/
def State.poisonedRange (s : State) (phys n : Nat) : Bool := s.poison.any fun l => phys < 64 * l + 64 && 64 * l < phys + n

/-- A write of bytes at the memory that holds them: a line it overwrites whole loses its poison (R46). -/
def State.storeBytes (s : State) (phys : Nat) (bs : List Byte) : State :=
  { s with
    mem := Memory.store s.mem phys bs
    poison := s.poison.filter fun l => !(decide (phys ≤ 64 * l) && decide (64 * l + 64 ≤ phys + bs.length)) }

/-- Whether a physical address lies in a vault (R31). -/
def inVault (phys : Nat) : Bool := Config.vaultBase ≤ phys && phys < Config.vaultBase + 2048 * Config.vaultBytes

def inHostMem (phys : Nat) : Bool := Config.hostBase ≤ phys

/-- The physical address of a vault byte (R31). -/
def vaultPhys (vault off : Nat) : Nat := Config.vaultBase + vault * Config.vaultBytes + off

/-- The ECC cause of a poisoned line (R229). -/
def eccCause (phys : Nat) : Cause := if inVault phys then .eccVault else .eccHbm

/-! ### Translation (R118 to R121) -/

def pageOf (pages : List Page) (va : Nat) : Option Page := pages.find? fun p => p.va ≤ va && va < p.va + p.size

/-- What a translation of an instruction's access finds. -/
inductive Tr where
  | ok (phys : Nat) (host : Bool)
  | wait
  | absent
  | perm
  deriving DecidableEq, Repr

/-- Which attributes an access needs (R117, R118). -/
inductive Need where
  | r | w | rw | x | rx
  deriving DecidableEq, Repr

def Need.met (n : Need) (p : Page) : Bool :=
  match n with
  | .r => p.r | .w => p.w | .rw => p.r && p.w && !p.host | .x => p.x | .rx => p.r && p.x

/-- The translation of a paged address through a mapping (R118). -/
def Page.translate (p : Page) (n : Need) (va : Nat) : Tr :=
  if !n.met p then .perm else if p.z then .wait else .ok (p.phys + (va - p.va)) p.host

/-- A translation by the tables of a context (R118). -/
def State.lookup (s : State) (ctx : Nat) (n : Need) (va : Nat) : Tr :=
  match (s.ctx? ctx).bind fun c => pageOf c.pages va with
  | none => .absent
  | some p => p.translate n va

def Page.holds (p : Page) (va : Nat) : Bool := decide (p.va ≤ va) && decide (va < p.va + p.size)

/-- The mapping of an address in the caches a core sees: its L1 cache, then the L2 cache of its cluster (R119). -/
def State.cached (s : State) (core ctx va : Nat) : Option Page :=
  match (s.core core).l1.find? fun e => e.1 = ctx && e.2.holds va with
  | some e => some e.2
  | none => (s.l2.find? fun e => e.1 = clusterOf core && e.2.1 = ctx && e.2.2.holds va).map fun e => e.2.2

/-- A translation through the caches of a core: what is not cached waits for a walk, unless nothing is mapped there
(R119). -/
def State.translate (s : State) (core ctx : Nat) (n : Need) (va : Nat) : Tr :=
  match s.cached core ctx va with
  | some p => p.translate n va
  | none =>
    match (s.ctx? ctx).bind fun c => pageOf c.pages va with
    | none => .absent
    | some _ => .wait

/-- Start the walk of an address that missed in both caches; while the die's table walker makes 64 walks, it waits its turn
(R119). -/
def State.startWalk (s : State) (core ctx va : Nat) : State :=
  match s.cached core ctx va with
  | some _ => s
  | none =>
    let w : Walk := ⟨core, ctx, va / 65536 * 65536⟩
    if s.walks.contains w || decide (64 ≤ s.walks.countP fun k => dieOf k.core = dieOf core) then s
    else { s with walks := s.walks ++ [w] }

/-! ### Address regions (R21 to R25) -/

inductive Region where
  | noncanon | hatch (off : Nat) | aperture (vault off : Nat) | paged | reserved
  deriving DecidableEq, Repr

/-- The region of a virtual address. -/
def region (ea : Nat) : Region :=
  if 2 ^ 52 ≤ ea then .noncanon
  else if ea < 0xC000000000000 then .paged
  else if 0xE000000000000 ≤ ea && ea < 0xE000080000000 then
    .aperture ((ea - 0xE000000000000) / 2 ^ 20) (ea % 2 ^ 20)
  else if 0xFFF0000000000 ≤ ea && ea < 0xFFF0000010000 then .hatch (ea - 0xFFF0000000000)
  else .reserved

/-- Whether a context holds the scratchpad bytes [off, off + n) of a vault (R113). -/
def State.holdsVault (s : State) (ctx vault off n : Nat) : Bool :=
  s.wgs.any fun w => w.ctx = ctx && w.core = vault && w.resident && decide (w.sbase ≤ off)
    && decide (off + n ≤ w.sbase + w.vbytes)

/-! ### Lanes and groups -/

/-- A member of an issue: its position and its lane. -/
structure Member where
  pos  : Nat
  ref  : LaneRef
  deriving DecidableEq, Repr

/-- An issue: the group, where it runs, its members in ascending position, and what they share (R78). -/
structure Iss where
  g       : GroupRef
  ctx     : Nat
  core    : Nat
  pane    : Nat
  pipe    : Nat
  members : List Member
  pc      : Word
  wbase   : Nat
  dslot   : Nat
  priv    : Bool
  wg      : Nat                    -- home workgroup and warp; of the first lane in a reformed group
  warp    : Nat
  carried : Option (Nat × Nat)     -- carried registers of a reformed group: first, and the most a lane carries
  lead    : Option LaneRef := none -- the lane drawn at position 0 of a reformed group (R69)
  deriving DecidableEq, Repr

/-- The issue of a group, if the group exists and has members (R78). -/
def State.iss? (s : State) (g : GroupRef) : Option Iss :=
  match g with
  | .home wg w gid => do
    let wgr ← s.wg? wg
    let warp ← wgr.warps[w]?
    let grp ← warp.ring.find? fun x => x.gid = gid
    let l0 ← grp.lanes.head?
    let lane ← warp.lanes[l0]?
    some { g := g, ctx := wgr.ctx, core := wgr.core, pane := warp.pane, pipe := warp.pipe
           members := grp.lanes.map fun l => ⟨l, ⟨wg, w, l⟩⟩
           pc := lane.pc, wbase := lane.wbase, dslot := warp.active, priv := warp.privileged
           wg := wg, warp := w, carried := none }
  | .reformed core slot gid => do
    let r ← (s.core core).groups.find? fun x => x.slot = slot
    let grp ← r.groups.find? fun x => x.gid = gid
    let ms := grp.lanes.filterMap fun p => ((r.lanes[p]?).getD none).map fun ref => (⟨p, ref⟩ : Member)
    let m0 ← ms.head?
    let lane ← s.lane? m0.ref
    some { g := g, ctx := r.ctx, core := core, pane := r.pane, pipe := r.pipe, members := ms
           pc := lane.pc, wbase := lane.wbase, dslot := r.dslot, priv := false
           wg := m0.ref.wg, warp := m0.ref.warp, carried := some (r.wbase0, r.carried), lead := r.lead }

/-- The issue `exec` acts for. -/
def State.curIss? (s : State) : Option Iss :=
  match s.cur with
  | .group g => s.iss? g
  | _ => none

/-- The rows of the map an issue reads and writes (R144, R149). -/
def State.rowsOf (s : State) (x : Iss) : List Row :=
  match x.g with
  | .home wg w _ => ((s.warp? wg w).map Warp.rows).getD []
  | .reformed core slot _ => (((s.core core).groups.find? fun r => r.slot = slot).map Reformed.rows).getD []

def State.setRows (s : State) (x : Iss) (rows : List Row) : State :=
  match x.g with
  | .home wg w _ => s.updWarp wg w fun v => { v with rows := rows }
  | .reformed core slot _ =>
    s.updCore core fun c => { c with groups := mapIf (fun r => r.slot = slot) (fun r => { r with rows := rows }) c.groups }

/-- Change an issue group. -/
def State.updGroup (s : State) (g : GroupRef) (f : Group → Group) : State :=
  match g with
  | .home wg w gid => s.updWarp wg w fun v => { v with ring := mapIf (fun x => x.gid = gid) f v.ring }
  | .reformed core slot gid => s.updCore core fun c =>
      { c with groups := mapIf (fun r => r.slot = slot) (fun r => { r with groups := mapIf (fun x => x.gid = gid) f r.groups }) c.groups }

/-- Change the hold of the group of an issue. -/
def State.setHold (s : State) (g : GroupRef) (h : Option Hold) : State := s.updGroup g fun x => { x with hold := h }

/-- Block the issuing group for a reason; it issues the instruction again (R106). -/
def State.stall (s : State) (x : Iss) (r : Stall) : State := s.setHold x.g (some (.stalled r))

/-- A predicate of a lane: p7 reads true (R143). -/
def Lane.pred (l : Lane) (n : Nat) : Bool := if n = 7 then true else l.preds.getLsbD n

/-- A lane with a predicate written: a write to p7 is ignored (R143). -/
def Lane.setPred (l : Lane) (n : Nat) (v : Bool) : Lane :=
  if n = 7 then l
  else { l with preds := if v then l.preds ||| (1#7 <<< n) else l.preds &&& ~~~(1#7 <<< n) }

/-- Whether a lane is ISSUING (R77). -/
def Lane.issuing (l : Lane) : Bool := l.st = .issuing && !l.halted

def Lane.helper (l : Lane) : Bool := match l.pixel with | some p => p.helper | none => false

/-- The guard of an instruction in a lane (R132). -/
def guardOf (f : Form) (l : Lane) : Bool := l.pred f.pg.toNat != f.pgn

/-- The next PC of an instruction (R131). -/
def nextPc (f : Form) (pc : Word) : Word := if f.immsrc = .literal then pc + 8 else pc + 4

/-! ### Uniform registers (R143, R273) -/

def Warp.ureg (w : Warp) (n : Nat) : Word := w.uregs.getD n 0
def Warp.setUreg (w : Warp) (n : Nat) (v : Word) : Warp := { w with uregs := setNth w.uregs n v }
/-- COUNT of a completion register. -/
def cregCount (v : Word) : Nat := v.toNat % 2 ^ 30

/-! ### Latches (R137 to R140) -/

/-- A pipe with its latches shifted by one word of a result at every position (R138). -/
def shiftLatches (lat : List (List Latch)) (entry : Nat → Latch) : List (List Latch) :=
  (List.range 32).map fun p => entry p :: ((lat.getD p (List.replicate 8 .empty)).take 7)

/-- Fill the latch entries that await a word of an access (R139). -/
def fillLatches (seq : Nat) (words : List Word) (lat : List (List Latch)) : List (List Latch) :=
  lat.map fun col => col.map fun e =>
    match e with
    | .awaiting q k => if q = seq then .full (words.getD k 0) else e
    | _ => e

/-! ### Renaming (R144 to R149, R382) -/

def findRow (rows : List Row) (reg : Nat) : Option Row := rows.find? fun r => r.reg = some reg

/-- The value of a register at a position: unmapped reads 0 (R145). -/
def rowRead (rows : List Row) (reg pos : Nat) : Word :=
  match findRow rows reg with
  | some r => r.vals.getD pos 0
  | none => 0

/-- Whether a read of a register must wait for an in-flight result (R145). -/
def rowBusy (rows : List Row) (reg : Nat) : Bool :=
  match findRow rows reg with
  | some r => r.await != []
  | none => false

/-- Release of a register's mapping (R148). -/
def releaseReg (rows : List Row) (reg : Nat) : List Row :=
  (mapIf (fun r : Row => r.reg = some reg) (fun r => { r with reg := none }) rows).filter
    fun r => r.reg.isSome || r.await != []

/-- What preparing a destination register gives. -/
inductive Prep where
  | ready (rows : List Row) (id : Nat)
  | wait
  | full
  deriving DecidableEq, Repr

/-- The limits of a map: LIVEMAX, and in privileged mode the registers mapped at entry (R146, R382). -/
structure MapLimit where
  livemax : Nat
  priv    : Bool
  entry   : List Nat
  deriving DecidableEq, Repr

def freshRow (rows : List Row) (reg : Nat) (handler : Bool) : List Row × Nat :=
  let id := rows.foldl (fun m r => max m (r.id + 1)) 0
  (rows ++ [{ id := id, reg := some reg, vals := List.replicate 32 0, await := [], handler := handler }], id)

/-- A row for a write to a register, over every lane position or not (R146, R147, R382). -/
def prepReg (lim : MapLimit) (rows : List Row) (covers : Bool) (reg : Nat) : Prep :=
  let handler := lim.priv && decide (392 ≤ reg) && !lim.entry.contains reg
  let mapped := rows.countP fun r => r.reg.isSome && !r.handler
  let held := rows.countP fun r => r.reg.isNone && !r.handler
  match findRow rows reg with
  | none =>
    if handler then
      if 8 ≤ rows.countP (fun r => r.handler) then .full
      else let p := freshRow rows reg true; .ready p.1 p.2
    else if lim.livemax ≤ mapped then .full
    else if lim.livemax ≤ mapped + held then .wait
    else let p := freshRow rows reg false; .ready p.1 p.2
  | some r =>
    if r.await = [] then .ready rows r.id
    else if covers && !r.handler && decide (mapped + held < lim.livemax) then
      let p := freshRow (mapIf (fun q : Row => q.reg = some reg) (fun q => { q with reg := none }) rows) reg false
      .ready p.1 p.2
    else .wait

/-- Rows for several registers. -/
def prepRegs (lim : MapLimit) (covers : Bool) : List Row → List Nat → Option (Prep ⊕ (List Row × List Nat))
  | rows, [] => some (.inr (rows, []))
  | rows, reg :: rest =>
    match prepReg lim rows covers reg with
    | .wait => some (.inl .wait)
    | .full => some (.inl .full)
    | .ready rows' id =>
      match prepRegs lim covers rows' rest with
      | some (.inr (rows'', ids)) => some (.inr (rows'', id :: ids))
      | r => r

/-- A word written to a row at a position. -/
def rowWrite (rows : List Row) (id pos : Nat) (v : Word) : List Row :=
  mapIf (fun r : Row => r.id = id) (fun r => { r with vals := setNth r.vals pos v }) rows

/-- A result lands in its row: the row no longer awaits it, and is freed when no register maps it (R147). -/
def rowLand (rows : List Row) (id seq : Nat) (pos : Nat) (v : Option Word) : List Row :=
  (mapIf (fun r : Row => r.id = id)
    (fun r => { r with await := r.await.filter (· != seq), vals := match v with | some x => setNth r.vals pos x | none => r.vals })
    rows).filter fun r => r.reg.isSome || r.await != []

/-! ### Events to the host (R386) and the trace (R485) -/

/-- Any context with a number, killed ones last (their events remain). -/
def State.ctxAny? (s : State) (id : Nat) : Option Context :=
  match s.ctx? id with
  | some c => some c
  | none => s.contexts.find? fun c => c.id = id

/-- The bytes of an event record (R386). -/
def eventBytes (ctx : Nat) (e : EventRec) : List Byte :=
  leBytes 4 e.seq ++ leBytes 2 ctx ++ leBytes 1 e.function ++ [e.cause] ++ leBytes 8 e.addr.toNat
    ++ leBytes 4 e.tag.toNat ++ leBytes 4 e.wg.toNat ++ leBytes 8 e.detail.toNat ++ List.replicate 32 0

/-- Write the oldest waiting events while their place of the area is free: fewer than 64 unretired, in SEQ order. -/
def State.flushEvents (s : State) (ctx : Nat) : State :=
  match s.ctxAny? ctx with
  | none => s
  | some c =>
    match c.eventArea with
    | none => s
    | some area =>
      c.events.foldl (fun s e =>
        let held := ((s.ctxAny? ctx).map Context.events).getD []
        if e.written || held.any (fun q => q.written && q.seq % 64 = e.seq % 64) then s
        else
          let s := s.storeBytes (Config.hostBase + area.toNat + 64 * (e.seq % 64)) (eventBytes ctx e)
          { s with
            vectors := s.vectors ++ [ctx % 64]
            contexts := mapIf (fun q => q.id = ctx)
              (fun q => { q with events := mapIf (fun v => v.seq = e.seq) (fun v => { v with written := true }) q.events })
              s.contexts }) s

/-- A new event of a context, with the next SEQ (R386). -/
def State.postEvent (s : State) (ctx fn : Nat) (cause : Byte) (addr : DWord) (tag wg : Word) (detail : DWord) : State :=
  (s.updCtx ctx fun c =>
    { c with
      eventSeq := (c.eventSeq + 1) % 2 ^ 32
      events := c.events ++ [{ seq := (c.eventSeq + 1) % 2 ^ 32, function := fn, cause := cause, addr := addr, tag := tag
                               wg := wg, detail := detail, written := false, purpose := 0 }] }).flushEvents ctx

/-- The slot of a lane's bin key, and whether the lane is in a reformed group: of a lane in a bin or a reformed group, or HALTED there
(R90, R379, R474). -/
def State.keyOf (s : State) (core : Nat) (r : LaneRef) : Option (Nat × Bool) :=
  match s.lane? r with
  | none => none
  | some l =>
    if l.halted then l.keySlot.map fun k => (k, l.side.state = 5)
    else match l.reformed with
    | some slot => ((s.core core).groups.find? fun q => q.slot = slot).map fun q => (q.dslot, true)
    | none => ((s.core core).bins.find? fun b => b.lanes.any fun e => e.1 = r).map fun b => (b.dslot, false)

/-- The 16-byte lane identity of R474; `slot` is the slot its word decodes through, unless the lane is in a bin or a reformed group, or
was halted there. -/
def State.laneIdentity (s : State) (ctx core : Nat) (r : LaneRef) (noLane : Bool) (slot : Nat) : List Byte :=
  let wg := s.wg? r.wg
  let warp := s.warp? r.wg r.warp
  let lane := s.lane? r
  let key := s.keyOf core r
  let refd := key.any Prod.snd
  let slot := (key.map Prod.fst).getD slot
  let pend := if refd then slot else (warp.map Warp.pending).getD 0
  leBytes 2 ctx ++ leBytes 2 core ++ leBytes 1 r.warp ++ leBytes 1 (if noLane then 0xFF else r.lane)
    ++ leBytes 1 (slot + 4 * pend + (if refd then 16 else 0)) ++ leBytes 1 (((lane.map Lane.wbase).getD 0) / 8)
    ++ leBytes 4 ((lane.map fun l => l.pc.toNat).getD 0) ++ leBytes 4 ((wg.map Workgroup.linear).getD 0xFFFFFFFF)

/-- A trace record and WRITTEN, or DROPPED when the store fails translation (R485, R486). -/
def State.traceRecord (s : State) (ctx : Nat) (ident : List Byte) (type a8 a16 word : Nat) (a64 : Nat) : State :=
  match (s.ctx? ctx).bind Context.trace with
  | none => s
  | some t =>
    let nrec := t.bytes / 64 - 1
    let at0 := t.buf.toNat + 64 + 64 * (t.written % nrec)
    let bytes := ident ++ leBytes 1 type ++ leBytes 1 a8 ++ leBytes 2 a16 ++ leBytes 4 word ++ leBytes 8 a64
      ++ leBytes 8 s.clock ++ List.replicate 24 0
    match s.lookup ctx .w at0, s.lookup ctx .w t.buf.toNat with
    | .ok p _, .ok h _ =>
      let s := (s.storeBytes p bytes).storeBytes h (leBytes 8 (t.written + 1))
      s.updCtx ctx fun c => { c with trace := some { t with written := t.written + 1 } }
    | _, .ok h _ =>
      (s.storeBytes (h + 8) (leBytes 8 (t.dropped + 1))).updCtx ctx fun c =>
        { c with trace := some { t with dropped := t.dropped + 1 } }
    | _, _ => s.updCtx ctx fun c => { c with trace := some { t with dropped := t.dropped + 1 } }

/-! ### Killing a context (R398) -/

/-- Release what a context holds on the cores: bins, groups, slots, loads, handler rows. -/
def Core.dropCtx (wgs : List Nat) (ctx : Nat) (c : Core) : Core :=
  { c with
    slots := c.slots.filter (fun d => d.ctx != ctx)
    jobs := c.jobs.filter (fun j => j.ctx != ctx)
    bins := c.bins.filter (fun b => b.ctx != ctx)
    groups := c.groups.filter (fun g => g.ctx != ctx)
    handler := c.handler.filter (fun h => !wgs.contains h.2.2.1) }

/-- A context ended: its lanes exit, its commands and their frames are discarded, its records freed, its resources released,
its objects destroyed and its held GOs refused (R29, R50, R279, R398). -/
def State.dropContext (s : State) (ctx : Nat) : State :=
  let wgs := (s.wgs.filter fun w => w.ctx = ctx).map Workgroup.id
  { s with
    wgs := s.wgs.filter fun w => w.ctx != ctx
    launches := s.launches.filter fun l => l.ctx != ctx
    cmds := s.cmds.filter fun c => c.ctx != ctx
    txFlows := s.txFlows.map fun t => { t with frames := t.frames.filter fun f =>
      !(f.portion.any fun p => s.cmds.any fun c => c.id = p.1 && c.ctx = ctx) }
    records := s.records.filter fun r => r.ctx != ctx
    walks := s.walks.filter fun w => w.ctx != ctx
    cores := s.cores.map (Core.dropCtx wgs ctx)
    windows := mapIf (fun w => w.1 = ctx && w.2.held != [])
      (fun w => (w.1, { w.2 with held := [], accepted := false, cause := Cause.engError.code })) s.windows
    contexts := mapIf (fun c => c.id = ctx)
      (fun c => { c with killed := true, resident := false, targets := [], objects := [], textures := [], nmProgs := [] })
      s.contexts }

/-- A lane's fault: its cause and DETAIL (R380). -/
structure LaneFault where
  lane   : LaneRef
  cause  : Cause
  detail : BitVec 52
  deriving DecidableEq, Repr

def isDebugCause : Cause → Bool
  | .bkpt | .pcmatch | .step | .causalEnd => true
  | _ => false

/-- DETAIL of a cause at an address: ea[51:0] (R380). -/
def eaDetail (ea : Nat) : BitVec 52 := BitVec.ofNat 52 ea

/-- DETAIL of a fault as the side buffer gives it (R380). -/
def LaneFault.sideDetail (f : LaneFault) : BitVec 52 := if isDebugCause f.cause then 0 else f.detail

/-- The faulting address of a fault: that of an address, page or ECC cause (R380, R386). -/
def LaneFault.addr (f : LaneFault) : DWord :=
  if 4 ≤ f.cause.code.toNat / 16 && f.cause.code.toNat / 16 ≤ 6 then f.detail.setWidth 64 else 0

/-- A context killed, with its event of FUNCTION 6: ADDR, WG and DETAIL are what is known (R386, R398). -/
def State.killWith (s : State) (ctx : Nat) (cause : Cause) (addr : DWord) (wg : Word) (detail : DWord) : State :=
  match s.ctx? ctx with
  | none => s
  | some _ => (s.postEvent ctx 6 cause.code addr 0 wg detail).dropContext ctx

/-- A fatal fault: the context is killed, and an event of FUNCTION 6 is written, with what is known of the lane's fault
(R386, R398). -/
def State.killContext (s : State) (ctx : Nat) (cause : Cause) (fault : Option LaneFault := none) : State :=
  let wg := match fault with
    | some f => wordOf (((s.wg? f.lane.wg).map Workgroup.linear).getD 0xFFFFFFFF)
    | none => 0xFFFFFFFF
  s.killWith ctx cause ((fault.map LaneFault.addr).getD 0) wg ((fault.map fun f => f.sideDetail.setWidth 64).getD 0)

/-- A context killed for a cause at an address that no lane's access names, such as that of a trap image (R167, R386, R398). -/
def State.killAt (s : State) (ctx : Nat) (cause : Cause) (va : Nat) : State :=
  s.killWith ctx cause ((eaDetail va).setWidth 64) 0xFFFFFFFF ((eaDetail va).setWidth 64)

/-! ### Issue groups (R80 to R83, R491) -/

/-- Hold the groups that lanes of an issue form at its instruction (R106). -/
def State.holdLanes (s : State) (g : GroupRef) (rs : List LaneRef) (r : Stall) : State :=
  if rs = [] then s
  else match g with
  | .home wg w _ => s.updWarp wg w fun v =>
      { v with ring := mapIf (fun q : Group => q.lanes.any fun p => rs.contains ⟨wg, w, p⟩) (fun q => { q with hold := some (.stalled r) }) v.ring }
  | .reformed core slot _ => s.updCore core fun c =>
      let mine (q : Reformed) (x : Group) : Bool := x.lanes.any fun p => (q.lanes.getD p none).any rs.contains
      let held (x : Group) : Group := { x with hold := some (.stalled r) }
      { c with groups := mapIf (fun q => q.slot = slot) (fun q => { q with groups := mapIf (mine q) held q.groups }) c.groups }

/-- Lanes at some positions of an issue group become a group of their own after it. -/
def State.partGroup (s : State) (g : GroupRef) (ps : List Nat) : State :=
  let part (gid : Nat) (x : Group) : List Group :=
    if x.gid != gid || ps = [] then [x]
    else [{ x with lanes := x.lanes.filter fun p => !ps.contains p }, { x with gid := s.seq + 1, lanes := ps, hold := none }]
  let t := match g with
    | .home wg w gid => s.updWarp wg w fun v => { v with ring := v.ring.flatMap (part gid) }
    | .reformed core slot gid => s.updCore core fun c =>
        { c with groups := mapIf (fun q => q.slot = slot) (fun q => { q with groups := q.groups.flatMap (part gid) }) c.groups }
  { t with seq := s.seq + 2 }

/-- Partition positions by a key, in order of first occurrence. -/
def partitionBy {κ : Type} [DecidableEq κ] (key : Nat → κ) : List Nat → List (κ × List Nat)
  | [] => []
  | p :: ps =>
    let rest := partitionBy key ps
    match rest.find? fun c => c.1 = key p with
    | some c => (key p, p :: c.2) :: rest.filter fun d => d.1 ≠ key p
    | none => (key p, [p]) :: rest

/-- Whether a hold makes its group wait: WAITC, SWWAIT and SLEEP (R77). -/
def holdWaits : Option Hold → Bool
  | some (.sleep _) => true
  | some (.swwait _ _ _ _ _) => true
  | some (.waitc _ _ _) => true
  | _ => false

/-- Whether the lanes of a group wait as R77 has it: held in WAITC, SWWAIT or SLEEP, or none ISSUING. -/
def Warp.groupWaits (w : Warp) (g : Group) : Bool :=
  holdWaits g.hold || !(g.lanes.any fun l => (w.lanes[l]?.map Lane.issuing).getD false)

/-- The next group of the ring that does not wait, after the current one (R81). -/
def Warp.nextGroup (w : Warp) : Nat :=
  let after := w.ring.dropWhile (fun g => g.gid != w.current)
  let order := after.drop 1 ++ w.ring.takeWhile (fun g => g.gid != w.current)
  match order.find? fun g => !w.groupWaits g with
  | some g => g.gid
  | none => w.current

/-- Move the scheduler entry on: at a backward branch, a JOIN or a SLEEP. -/
def Warp.rotate (w : Warp) : Warp := { w with current := w.nextGroup }

/-- Move on when the current group waits; where it has gone, to the first group of `order` that does not wait (R81). -/
def Warp.settleIn (order : List Group) (w : Warp) : Warp :=
  match w.ring.find? fun g => g.gid = w.current with
  | some g => if w.groupWaits g then w.rotate else w
  | none =>
    match order.find? fun g => !w.groupWaits g with
    | some g => { w with current := g.gid }
    | none => { w with current := (w.ring.head?.map Group.gid).getD w.current }

/-- Move on when the current group waits (R81). -/
def Warp.settle (w : Warp) : Warp := w.settleIn w.ring

/-- The groups of a ring in the order in which the entry comes to them: those after the current one, those before it, and it. -/
def Warp.turn (w : Warp) : List Group :=
  (w.ring.dropWhile fun g => g.gid != w.current).drop 1 ++ w.ring.takeWhile (fun g => g.gid != w.current)
    ++ w.ring.filter fun g => g.gid = w.current

/-- A ring in which each group gives way to some groups in its place: where the current group has gone, the entry moves to the next
that does not wait (R81). -/
def Warp.remake (parts : Group → List Group) (w : Warp) : Warp :=
  Warp.settleIn (w.turn.flatMap parts) { w with ring := w.ring.flatMap parts }

/-- How the groups of a split are ordered: HINT, the next PC (R80). -/
structure SplitOrder where
  hint : Hint
  npc  : Word
  deriving DecidableEq, Repr

def orderClasses (o : SplitOrder) (cs : List ((Word × Nat) × List Nat)) : List (List Nat) :=
  let first : Option ((Word × Nat) × List Nat) := match o.hint with
    | .likely => cs.find? fun (c : (Word × Nat) × List Nat) => c.1.1 != o.npc
    | .unlikely => cs.find? fun (c : (Word × Nat) × List Nat) => c.1.1 = o.npc
    | _ => none
  match first with
  | some c => c.2 :: (cs.filter fun d => d.1 ≠ c.1).map Prod.snd
  | none => cs.map Prod.snd

/-- The groups that take a group's place once its lanes have moved: ISSUING lanes by PC and WBASE, then the lanes that
wait; lanes that have exited, parked or been filed leave (R80, R491). -/
def splitGroup (o : SplitOrder) (lane : Nat → Option Lane) (fresh : Nat) (g : Group) : List Group :=
  let issuing := g.lanes.filter fun p => (lane p).any fun l => l.st = .issuing
  let waiting := g.lanes.filter fun p => (lane p).any fun l => match l.st with | .waiting _ => true | _ => false
  let cs := partitionBy (fun p => ((lane p).map fun l => (l.pc, l.wbase)).getD (0, 0)) issuing
  let parts := orderClasses o cs ++ (if waiting = [] then [] else [waiting])
  let parts := parts.zipIdx
  parts.map fun c => { g with gid := if c.2 = 0 then g.gid else fresh + c.2, lanes := c.1 }

/-- Whether an issue group of a reformed group waits. -/
def State.reformedWaits (s : State) (r : Reformed) (q : Group) : Bool :=
  holdWaits q.hold || !q.lanes.any fun p => ((r.lanes.getD p none).bind s.lane?).any Lane.issuing

/-- A ring turned so that the first group that does not wait, from its head on, stands at its head. -/
def turnRing (waits : Group → Bool) (gs : List Group) : List Group :=
  match gs.findIdx? fun q => !waits q with
  | some i => gs.drop i ++ gs.take i
  | none => gs

/-- Move the entry of a reformed group on where its current group, the head of its ring, waits (R81). -/
def State.settleReformed (s : State) (core slot : Nat) : State :=
  s.updCore core fun c =>
    { c with groups := mapIf (fun r => r.slot = slot) (fun r => { r with groups := turnRing (s.reformedWaits r) r.groups }) c.groups }

/-- Regroup the lanes of a group after its instruction. -/
def State.regroup (s : State) (g : GroupRef) (o : SplitOrder) : State :=
  match g with
  | .home wg w gid =>
    let t := s.updWarp wg w fun v =>
      v.remake fun x => if x.gid = gid then splitGroup o (fun p => v.lanes[p]?) s.seq x else [x]
    { t with seq := s.seq + 33 }
  | .reformed core slot gid =>
    let lanesOf (r : Reformed) (p : Nat) : Option Lane := ((r.lanes[p]?).getD none).bind s.lane?
    let t := s.updCore core fun c =>
      { c with groups := (mapIf (fun r : Reformed => r.slot = slot)
          (fun r => { r with groups := r.groups.flatMap fun x =>
            if x.gid = gid then splitGroup o (lanesOf r) s.seq x else [x] }) c.groups).filter fun r => r.groups != [] }
    { t.settleReformed core slot with seq := s.seq + 33 }

/-- Move the entry of a group on from it, where it is the current group: a backward branch, JOIN or SLEEP (R81). -/
def State.rotate (s : State) (g : GroupRef) : State :=
  match g with
  | .home wg w gid => s.updWarp wg w fun v => if v.current = gid then v.rotate else v
  | .reformed core slot gid =>
    (s.updCore core fun c =>
      { c with
        groups := mapIf (fun r => r.slot = slot) (fun r =>
          if (r.groups.head?).any fun x => x.gid = gid then { r with groups := r.groups.drop 1 ++ r.groups.take 1 } else r)
          c.groups }).settleReformed core slot

/-- Move the entry of a group on where it is held in a wait, or its lanes wait (R81). -/
def State.settleAt (s : State) (g : GroupRef) : State :=
  match g with
  | .home wg w _ => s.updWarp wg w Warp.settle
  | .reformed core slot _ => s.settleReformed core slot

/-- Lanes of one warp that leave a wait together form one issue group at their PC (R491). -/
def State.release (s : State) (wg w : Nat) (lanes : List Nat) : State :=
  if lanes = [] then s
  else
    let t := s.updWarp wg w fun v =>
      let ls := lanes.foldl (fun ls p => mapNth ls p fun l => { l with st := .issuing }) v.lanes
      let ring := v.ring.zipIdx.flatMap fun e =>
        let g := e.1
        let out := g.lanes.filter fun p => lanes.contains p
        let stay := g.lanes.filter fun p => !lanes.contains p
        if out = [] then [g]
        else if stay = [] then [{ g with hold := none }]
        else [{ g with lanes := out, hold := none }, { g with gid := s.seq + 1 + e.2, lanes := stay }]
      let here := ring.flatMap Group.lanes
      let lost := lanes.filter fun p => !here.contains p
      let ring := if lost = [] then ring else ring ++ [{ gid := s.seq + 33, lanes := lost, hold := none, debt := 0 }]
      Warp.settle { v with lanes := ls, ring := ring }
    { t with seq := s.seq + 34 }

/-! ### Taking an exception (R374 to R384) -/

/-- STATE of a side-buffer entry (R380). -/
def sideState (held : Bool) (l : Lane) : BitVec 3 :=
  match l.st with
  | .exited => 4
  | .parked _ _ _ => 3
  | .binned => 2
  | .waiting _ => if l.reformed.isSome then 5 else 1
  | .issuing => if l.reformed.isSome then 5 else if held then 1 else 0

/-- A lane at the halt of its workgroup: HALTED unless EXITED or PARKED, its resume point in TRAPPC (R379, R384). -/
def haltLane (held : Bool) (f : Option LaneFault) (l : Lane) : Lane :=
  let side : Side :=
    { cause := match f with | some x => x.cause.code | none => 0
      state := sideState held l
      helper := l.helper
      detail := (f.map LaneFault.sideDetail).getD 0 }
  match l.st with
  | .exited => { l with side := side }
  | .parked _ _ _ => { l with side := side }
  | _ => { l with side := side, halted := true, trappc := l.pc, keySlot := none }

/-- A lane moved on; its resume point moves with it while it is HALTED (R376, R379). -/
def Lane.moveTo (pc : Word) (l : Lane) : Lane :=
  if l.halted then { l with pc := pc, trappc := pc } else { l with pc := pc }

/-- Take a lane from its reformed group, with its carried registers, in which its loads in flight still land (R92, R145,
R379): an empty group frees its slot. -/
def State.takeOut (s : State) (core : Nat) (r : LaneRef) : State :=
  match (s.lane? r).bind Lane.reformed with
  | none => s
  | some slot =>
    match (s.core core).groups.find? fun g => g.slot = slot with
    | none => s
    | some g =>
      let pos := (g.lanes.findIdx? fun q => q = some r).getD 32
      let vals := (List.range (((s.lane? r).map Lane.carried).getD 0)).filterMap fun i =>
        (findRow g.rows (g.wbase0 + i)).map fun row => (g.wbase0 + i, row.vals.getD pos 0)
      let s := s.updLane r fun l => { l with carry := some (vals ++ l.carry.getD []), reformed := none }
      let late := s.pend.filter fun a => a.lane = r
      let s := { s with pend := mapIf (fun a : Access => a.lane = r) (fun a => { a with rows := [], reformed := none }) s.pend }
      let free (rows : List Row) : List Row :=
        late.foldl (fun rows a => a.rows.foldl (fun rows id => rowLand rows id a.seq pos none) rows) rows
      let leave (q : Reformed) : Reformed :=
        { q with
          lanes := q.lanes.map fun o => if o = some r then none else o
          groups := (q.groups.map fun x => { x with lanes := x.lanes.filter (· != pos) }).filter fun x => x.lanes != []
          rows := free q.rows }
      (s.updCore core fun c =>
        { c with groups := (mapIf (fun q : Reformed => q.slot = slot) leave c.groups).filter fun q => q.groups != [] }).settleReformed
          core slot

/-- Take a lane from its bin; a bin left empty is freed (R91). -/
def State.unfile (s : State) (core : Nat) (r : LaneRef) : State :=
  s.updCore core fun c =>
    { c with bins := (c.bins.map fun b => { b with lanes := b.lanes.filter fun e => e.1 != r }).filter fun b => b.lanes != [] }

/-- Take a lane from its bin, or from its reformed group with its carried registers; the slot of the key it is filed
under again is kept (R379). -/
def State.unbin (s : State) (core : Nat) (r : LaneRef) : State :=
  match (s.lane? r).bind Lane.reformed with
  | some slot =>
    let key := ((s.core core).groups.find? fun g => g.slot = slot).map Reformed.dslot
    (s.takeOut core r).updLane r fun l => { l with st := .binned, keySlot := key }
  | none =>
    match (s.core core).bins.find? fun b => b.lanes.any fun e => e.1 = r with
    | none => s
    | some b => (s.updLane r fun l => { l with keySlot := some b.dslot }).unfile core r

/-- A lane that is HALTED already raises a cause, as a signer of a round that ends during the halt does: its entry of the side buffer
takes it (R376, R380). -/
def Lane.blame (f : LaneFault) (l : Lane) : Lane :=
  { l with side := { l.side with cause := f.cause.code, detail := f.sideDetail }, trappc := l.pc }

/-- Halt a lane: its side-buffer entry, and HALTED where R379 says so; it leaves its bin or its reformed group. -/
def State.haltOne (s : State) (core : Nat) (v : Warp) (r : LaneRef) (f : Option LaneFault) : State :=
  match s.lane? r with
  | none => s
  | some l =>
    if l.halted then (match f with | some x => s.updLane r (Lane.blame x) | none => s)
    else
      let held := v.ring.any fun x => x.lanes.contains r.lane && v.groupWaits x
      let t := s.updLane r (haltLane held f)
      if l.st = .binned || l.reformed.isSome then t.unbin core r else t

/-- Halt one warp, and clear the debt of its groups (R379, R489). -/
def State.haltWarp (s : State) (wg w : Nat) (fs : List LaneFault) : State :=
  match s.wg? wg, s.warp? wg w with
  | some g, some v =>
    let refs := (List.range v.lanes.length).map fun i => (⟨wg, w, i⟩ : LaneRef)
    let s := refs.foldl (fun s r => s.haltOne g.core v r (fs.find? fun x => x.lane = r)) s
    s.updWarp wg w fun v => { v with ring := v.ring.map fun x => { x with debt := 0 } }
  | _, _ => s

/-- The HALTED lanes of a group stand apart from the lanes that go on within the skid (R377). -/
def Warp.apart (v : Warp) (fresh : Nat) (x : Group) : List Group :=
  let off (p : Nat) : Bool := (v.lanes[p]?).any Lane.halted
  let go := x.lanes.filter fun p => !off p
  let stop := x.lanes.filter off
  if go = [] || stop = [] then [x] else [{ x with lanes := go }, { x with gid := fresh + stop.headD 0, lanes := stop, hold := none }]

/-- Halt the lanes of a warp that raised causes within its skid; its other lanes go on (R377, R378). -/
def State.haltSkid (s : State) (wg w : Nat) (fs : List LaneFault) : State :=
  match s.wg? wg, s.warp? wg w with
  | some g, some v =>
    let s := (fs.filter fun f => f.lane.warp = w).foldl (fun s f => s.haltOne g.core v f.lane (some f)) s
    { s.updWarp wg w (fun v => v.remake (v.apart s.seq)) with seq := s.seq + 33 }
  | _, _ => s

/-- Halt the trapping warp, and in the other warps the lanes that raised causes: TRAPCAUSE of each is that of its lane of lowest
position (R375, R377, R378). -/
def State.haltRaising (s : State) (wg trapping : Nat) (fs : List LaneFault) : State :=
  ((fs.map fun f => f.lane.warp).eraseDups).foldl (fun s w =>
    (if w = trapping then s.haltWarp wg w fs else s.haltSkid wg w fs).updWarp wg w fun v =>
      { v with trapCause := ((fs.find? fun f => f.lane.warp = w).map fun f => f.cause.code).getD 0 }) s

/-- Write the records of halted workgroups that have none, while fewer than 64 stand (R480). -/
def State.flushDebug (s : State) (ctx : Nat) : State :=
  s.wgs.foldl (fun s g =>
    match g.trap, (s.ctx? ctx).bind Context.debug with
    | some t, some d =>
      let standing := s.wgs.countP fun w => w.ctx = ctx && w.trap.any fun t => t.debug && t.recorded
      if g.ctx = ctx && t.debug && !t.recorded && decide (standing < 64) then
        let warp := g.warps[t.warp]?
        let tl := (warp.map Warp.trapLane).getD 0
        let n := d.count + 1
        let bytes := leBytes 4 n ++ leBytes 2 ctx ++ leBytes 1 8 ++ [t.cause.code] ++ leBytes 8 0 ++ leBytes 4 t.tag
          ++ leBytes 4 g.linear ++ leBytes 8 0
          ++ s.laneIdentity ctx g.core ⟨g.id, t.warp, tl⟩ false ((warp.map Warp.active).getD 0) ++ List.replicate 16 0
        let s := s.storeBytes (Config.hostBase + d.ring.toNat + 64 * (n % 64)) bytes
        let s := { s with vectors := s.vectors ++ [ctx % 64] }
        let s := s.updWg g.id fun g => { g with trap := some { t with recorded := true } }
        s.updCtx ctx fun c => { c with debug := some { d with count := n } }
      else s
    | _, _ => s) s

/-- The trap that a fault decides: its warp becomes the trapping warp, and a STEP of it is over (R375, R376, R378, R482). -/
def State.startTrap (s : State) (wg : Nat) (f : LaneFault) (debug : Bool) (outer : List TrapState) : State :=
  let s := s.updWarp wg f.lane.warp fun v => { v with trapLane := f.lane.lane, skid := 0, stepping := 0 }
  let t : TrapState :=
    { warp := f.lane.warp, cause := f.cause, debug := debug, entered := false, handler := false, recorded := false
      tag := if isDebugCause f.cause then f.detail.toNat else 0, since := s.clock }
  s.updWg wg fun g => { g with trap := some t, outer := outer }

/-- A group that has issued nothing in a skid (R377). -/
def Group.unskidded (q : Group) : Group := { q with skid := 0, chain := 0 }

/-- A warp at the broadcast of a halt: it has raised no cause and issued nothing in its skid (R377, R378). -/
def Warp.broadcast (v : Warp) : Warp := { v with trapCause := 0, skid := 0, ring := v.ring.map Group.unskidded }

/-- The broadcast of a halt of a workgroup: to its warps, and to the issue groups of reformed groups that hold lanes of it and of no
workgroup that halts already, whose counts stand (R376, R377). -/
def State.broadcast (s : State) (wg : Nat) : State :=
  match s.wg? wg with
  | none => s
  | some g =>
    let refs (q : Reformed) (x : Group) : List LaneRef := x.lanes.filterMap fun p => q.lanes.getD p none
    let halting (r : LaneRef) : Bool := r.wg != wg && ((s.wg? r.wg).bind Workgroup.trap).any fun t => !t.entered
    let group (q : Reformed) (x : Group) : Group :=
      if (refs q x).any (fun r => r.wg = wg) && !(refs q x).any halting then x.unskidded else x
    (s.updWg wg fun g => { g with warps := g.warps.map Warp.broadcast }).updCore g.core fun c =>
      { c with groups := c.groups.map fun q => { q with groups := q.groups.map (group q) } }

/-- Whether 64 other workgroups of a context stand halted for debug: a further debug cause then waits (R480). -/
def State.debugFull (s : State) (ctx wg : Nat) : Bool :=
  decide (64 ≤ s.wgs.countP fun g => g.ctx = ctx && g.id != wg && g.trap.any TrapState.debug)

/-- Lanes whose debug cause waits stay at their instructions, their groups held (R480). -/
def State.causeWaits (s : State) (rs : List LaneRef) : State :=
  rs.foldl (fun s r =>
    match (s.lane? r).bind Lane.reformed, s.wg? r.wg with
    | some slot, some g => s.holdLanes (.reformed g.core slot 0) [r] .trapHalt
    | _, _ => s.holdLanes (.home r.wg r.warp 0) [r] .trapHalt) s

/-- Whether a fault takes the place of the trap of its workgroup: both are vectored, they were raised in one cycle, the
handler has not begun, and the fault's warp has the lower WARPID (R376). -/
def TrapState.givesWay (t : TrapState) (clock : Nat) (f : LaneFault) (debug : Bool) : Bool :=
  t.since = clock && !t.entered && !t.debug && !debug && decide (f.lane.warp < t.warp)

/-- Causes raised in lanes of one workgroup, the one that decides the trap first: the shared operation by which every
exception is taken (R375, R376, R378 to R381, R383, R480). A control core notes the cause in its TRAPCAUSE (log 13). -/
def State.raiseIn (s : State) (wg : Nat) (fs : List LaneFault) : State :=
  match s.wg? wg, fs with
  | some g, first :: _ =>
    if s.ctl.any fun c => c.id = wg then s.updWarp wg first.lane.warp fun v => { v with trapCause := first.cause.code }
    else
    let priv := ((g.warps[first.lane.warp]?).map Warp.privileged).getD false
    let attached := ((s.ctx? g.ctx).bind Context.debug).isSome
    let debug := isDebugCause first.cause && attached
    let trapbase := ((s.ctx? g.ctx).map Context.trapbase).getD 0
    if priv && !debug then s.killContext g.ctx first.cause (some first)
    else if debug && s.debugFull g.ctx wg then s.causeWaits (fs.map LaneFault.lane)
    else if g.trap.isSome && !priv then
      let s := s.haltRaising wg ((g.trap.map TrapState.warp).getD 0) fs
      if g.trap.any fun t => t.givesWay s.clock first debug then
        (s.haltWarp wg first.lane.warp fs).startTrap wg first false g.outer
      else s
    else if !debug && trapbase = 0 then s.killContext g.ctx first.cause (some first)
    else
      let s := ((s.broadcast wg).haltRaising wg first.lane.warp fs).startTrap wg first debug (if priv then g.trap.toList ++ g.outer else [])
      if debug then s.flushDebug g.ctx else s
  | _, _ => s

/-- Causes raised by one issue, in ascending position: each lane's home workgroup is halted (R376). -/
def State.raise (s : State) (fs : List LaneFault) : State :=
  let wgs := (fs.map fun f => f.lane.wg).eraseDups
  wgs.foldl (fun s wg => s.raiseIn wg (fs.filter fun f => f.lane.wg = wg)) s

/-- A fault put into its place by WARPID and LANEID. -/
def LaneFault.insert (f : LaneFault) : List LaneFault → List LaneFault
  | [] => [f]
  | q :: rest =>
    if f.lane.warp < q.lane.warp || (f.lane.warp = q.lane.warp && f.lane.lane ≤ q.lane.lane) then f :: q :: rest
    else q :: LaneFault.insert f rest

/-- Causes raised in one cycle in lanes of several warps: the warp of lowest WARPID is the trapping one (R376). -/
def State.raiseApart (s : State) (fs : List LaneFault) : State := s.raise (fs.foldr LaneFault.insert [])

/-! ### Returning from an exception (R327, R384) -/

/-- Empty the latches of the pipes that issued last for a group of a workgroup's warps: the others hold another's (R137, R140). -/
def State.emptyLatches (s : State) (g : Workgroup) : State :=
  let mine (p : Pipe) : Bool := match p.last with | some (.home wg _ _) => wg = g.id | _ => false
  { s with pipes := mapIf mine Pipe.cleared s.pipes }

/-- File a lane in the bin of its key, opening one where needed (R90). -/
def State.fileLane (s : State) (core ctx : Nat) (pc : Word) (wbase dslot : Nat) (r : LaneRef) : State :=
  s.updCore core fun c =>
    let same := fun b : Bin => b.ctx = ctx && b.pc = pc && b.wbase = wbase && b.dslot = dslot
    if c.bins.any same then { c with bins := mapIf same (fun b => { b with lanes := b.lanes ++ [(r, s.clock)] }) c.bins }
    else
      let n := (((List.range 16).filter fun n => !c.bins.any fun b => b.number = n).head?).getD 16
      { c with bins := c.bins ++ [{ number := n, ctx := ctx, pc := pc, wbase := wbase, dslot := dslot, lanes := [(r, s.clock)] }] }

/-- The rows at the end of privileged mode: registers v392 to v511 unmapped at entry are unmapped, handler rows freed
(R382). -/
def endHandlerRows (entry : List Nat) (rows : List Row) : List Row :=
  ((mapIf (fun r : Row => r.reg.any fun n => decide (392 ≤ n) && !entry.contains n) (fun r => { r with reg := none }) rows).filter
    fun r => r.reg.isSome || r.await != [])

/-- A HALTED lane returned to the state it held before the halt, at its TRAPPC (R327, R384); `old` is what it held at
handler entry, where it is a lane of the handler's warp. -/
def Lane.resume (old : Option LaneSave) (l : Lane) : Lane :=
  let back (q : LaneSave) : Lane :=
    { l with halted := false, st := q.st, wbase := q.wbase, pc := l.trappc, npc := l.trappc + (q.npc - q.pc), fresh := true }
  let own := if l.halted then back ⟨l.st, l.wbase, l.pc, l.npc⟩ else l
  match l.st, old with
  | .exited, _ => l
  | _, none => own
  | _, some q => match q.st with
    | .parked _ _ _ | .exited => own
    | _ => back q

/-- The lanes and the ring of a warp whose halt ends; `handler` when a handler ran. A group whose lanes resume where they
stood keeps its hold (R379, R384). -/
def Warp.resumeLanes (handler : Bool) (v : Warp) (fresh : Nat) : Warp :=
  let old (p : Nat) : Option LaneSave := if handler then v.saved[p]? else none
  let lanes := v.lanes.zipIdx.map fun e => e.1.resume (old e.2)
  let stays (p : Nat) : Bool :=
    match old p, v.lanes[p]? with
    | some q, some l => l.trappc = q.pc
    | none, some l => l.trappc = l.pc
    | _, none => false
  let ring := if handler then v.ringSaved else v.ring
  let ring := ring.zipIdx.flatMap fun e =>
    let g : Group := if e.1.lanes.all stays then e.1 else { e.1 with hold := none }
    splitGroup ⟨.none, 0⟩ (fun p => lanes[p]?) (fresh + 33 * e.2) g
  let here := ring.flatMap Group.lanes
  let lost := (List.range lanes.length).filter fun p => !here.contains p && (lanes[p]?).any fun l => l.st = .issuing
  let extra := lost.zipIdx.map fun p => ({ gid := fresh + 1100 + p.2, lanes := [p.1], hold := none, debt := 0 } : Group)
  Warp.settle { v with lanes := lanes, ring := ring ++ extra, stepping := 0 }

/-- A warp whose halt ends: its lanes, and dictionary slots, rows and mode as before the handler (R166, R382, R384). -/
def Warp.resume (v : Warp) (fresh : Nat) : Warp :=
  let t := v.resumeLanes v.privileged fresh
  { t with
    ringSaved := [], saved := []
    active := if v.privileged then v.trapAct else v.active
    pending := if v.privileged then v.trapPend else v.pending
    trapAct := 0, trapPend := 0
    rows := if v.privileged then endHandlerRows v.entryMap v.rows else v.rows
    privileged := false, entryMap := [] }

/-- A warp whose debug halt within a handler ends: it goes on in that handler, with the slots and the record of that
handler (R166, R382, R383, R384). -/
def Warp.resumeInner (handler : Bool) (v : Warp) (fresh : Nat) : Warp :=
  let t := v.resumeLanes handler fresh
  match handler, v.nest with
  | true, n :: rest =>
    { t with
      ringSaved := n.ring, saved := n.saved, nest := rest
      active := v.trapAct, pending := v.trapPend, trapAct := n.act, trapPend := n.pend
      rows := endHandlerRows v.entryMap v.rows, entryMap := n.entry }
  | _, _ => t

/-- File a lane again after its halt, in the bin of its group's key: its PC and WBASE, and the slot it was filed under
(R379). -/
def State.refile (s : State) (g : Workgroup) (r : LaneRef) : State :=
  match s.lane? r with
  | none => s
  | some l =>
    let slot := l.keySlot.getD (((s.warp? r.wg r.warp).map Warp.active).getD 0)
    (s.fileLane g.core g.ctx l.pc l.wbase slot r).updLane r fun l => { l with keySlot := none }

/-- The end of the halt of a workgroup: what RTE, and RESUME, do (R327, R384, R482). -/
def State.endHalt (s : State) (wg : Nat) (g : Workgroup) : State :=
  let s := s.emptyLatches g
  let binned := (g.warps.zipIdx).flatMap fun v =>
    (v.1.lanes.zipIdx).filterMap fun l =>
      if (l.1.halted && l.1.st = .binned) || (v.1.saved[l.2]?).any (fun q => q.st = .binned) then some (⟨wg, v.2, l.2⟩ : LaneRef) else none
  let s := s.updWg wg fun g => { g with trap := none, warps := g.warps.map fun v => v.resume s.seq }
  let s := { s with seq := s.seq + 1200 }
  let s := s.updCore g.core fun c => { c with handler := c.handler.filter fun h => h.2.2.1 != wg }
  let s := binned.foldl (fun s r => s.refile g r) s
  let s := (List.range g.warps.length).foldl (fun s w =>
    s.traceRecord g.ctx (s.laneIdentity g.ctx g.core ⟨wg, w, 0⟩ true (((s.warp? wg w).map Warp.active).getD 0)) 5 0 0 0 0) s
  s.flushDebug g.ctx

/-- The end of the newest halt of a workgroup: of its trap, or of a debug cause within the trap's handler (R327, R383,
R384, R482). -/
def State.returnFromTrap (s : State) (wg : Nat) : State :=
  match s.wg? wg with
  | none => s
  | some g =>
    match g.trap, g.outer with
    | some t, o :: rest =>
      let s := s.emptyLatches g
      let s := s.updWarp wg t.warp fun v => v.resumeInner t.handler s.seq
      let s := { s with seq := s.seq + 1200 }
      let s := s.updWg wg fun g => { g with trap := some o, outer := rest }
      (s.traceRecord g.ctx (s.laneIdentity g.ctx g.core ⟨wg, t.warp, 0⟩ true (((s.warp? wg t.warp).map Warp.active).getD 0)) 5 0 0 0 0).flushDebug
        g.ctx
    | _, _ => s.endHalt wg g

/-! ### Parking (R121, R385) -/

/-- Attach lanes to the fault record of an address, creating it where none matches: none when all records of the die
are in use. The side buffer of a workgroup that has stopped is not changed (R362, R380). -/
def State.park (s : State) (ctx core : Nat) (va : Nat) (lanes : List LaneRef) (signer : Bool) : Option State :=
  let die := dieOf core
  let rg := va / 65536 * 65536
  let attach (s : State) (index : Nat) : State :=
    let s := lanes.foldl (fun s l => s.takeOut core l) s
    let s := { s with
      records := mapIf (fun r => r.die = die && r.index = index)
        (fun r => { r with lanes := r.lanes ++ lanes.map fun l => (l, s.seq, va) }) s.records
      seq := s.seq + 1 }
    let stopped (r : LaneRef) : Bool := ((s.wg? r.wg).bind Workgroup.trap).any TrapState.entered
    lanes.foldl (fun s r => s.updLane r fun l =>
      { l with st := .parked die index signer
               halted := false
               batch := s.seq
               side := if l.halted && !stopped r then { l.side with state := 3 } else l.side }) s
  match s.records.find? fun r => r.die = die && r.ctx = ctx && r.region = rg with
  | some r => some (attach s r.index)
  | none =>
    match (List.range Config.faultRecords).find? fun i => !s.records.any fun r => r.die = die && r.index = i with
    | none => none
    | some i =>
      let s := { s with records := s.records ++ [(⟨die, i, ctx, rg, []⟩ : FaultRec)] }
      let linear := match lanes with
        | l :: _ => wordOf (((s.wg? l.wg).map Workgroup.linear).getD 0xFFFFFFFF)
        | [] => 0xFFFFFFFF
      let hostMode := ((s.ctx? ctx).map fun c : Context => c.mode.getLsbD 0).getD false
      let s := if hostMode then
          s.postEvent ctx 0 Cause.pageAbsent.code (dwordOf va) (wordOf (i + 1024 * die)) linear (dwordOf (va % 2 ^ 52))
        else s
      some (attach s i)

end Sys2Proof.Machine
end

