-- ==== Sys2Proof/Machine/Operands.lean ====
section
/-! DEFINITION. Operand forms and the common course of a lane's instruction: decode faults, guards, readiness, the
values of slots (R132 to R148, R193 to R196), the writing of destinations, latches and flags, and the end of an issue. -/

namespace Sys2Proof.Machine

/-- What one issue reads: the map, the latches of the pipe, and the uniform registers of the home warp; and the positions
whose lanes name a register they do not carry, with that register (R92). -/
structure Env where
  rows    : List Row
  lat     : List (List Latch)
  uregs   : List Word
  outside : List (Nat × Nat) := []
  deriving DecidableEq, Repr

def State.env (s : State) (x : Iss) : Env :=
  { rows := s.rowsOf x, lat := (s.pipe x.core x.pane x.pipe).latches
    uregs := ((s.warp? x.wg x.warp).map Warp.uregs).getD [] }

/-- The registers a vector slot names, first first; none for a latch. -/
def slotRegs (f : Form) (wbase : Nat) (s : Slot) (o : Opnd) : List Nat :=
  if s.cls = .vector && (latchNum f s).isNone then (List.range (o.width f.ty)).map (· + vecReg f wbase s) else []

/-- The latches a source slot names: for a pair, bn for the low word and b(n − 1) for the high word (R140). -/
def slotLatches (f : Form) (s : Slot) (o : Opnd) : List Nat :=
  match latchNum f s with
  | some n => if o.width f.ty = 2 then [n, n - 1] else [n]
  | none => []

/-- The vector registers an instruction reads. -/
def srcRegs (f : Form) (g : Sig) (wbase : Nat) : List Nat :=
  slotRegs f wbase f.a g.a ++ slotRegs f wbase f.b g.b ++ slotRegs f wbase f.c g.c

def srcLatches (f : Form) (g : Sig) : List Nat :=
  slotLatches f f.a g.a ++ slotLatches f f.b g.b ++ slotLatches f f.c g.c

def latchAt (lat : List (List Latch)) (pos n : Nat) : Latch := (lat.getD pos []).getD n .empty

/-- Whether a source still awaits an in-flight result (R139, R145). -/
def Env.busy (e : Env) (x : Iss) (f : Form) (g : Sig) : Bool :=
  (srcRegs f g x.wbase).any (rowBusy e.rows)
    || (srcLatches f g).any fun n => x.members.any fun m =>
        match latchAt e.lat m.pos n with | .awaiting _ _ => true | _ => false

/-- The words of a vector slot at a position: none where a latch it names is empty (R140). -/
def Env.words (e : Env) (f : Form) (wbase pos : Nat) (s : Slot) (o : Opnd) : Option (List Word) :=
  match latchNum f s with
  | some n =>
    let get := fun k => match latchAt e.lat pos k with | .full w => some w | _ => none
    if o.width f.ty = 2 then
      match get n, get (n - 1) with
      | some lo, some hi => some [lo, hi]
      | _, _ => none
    else (get n).map fun w => [w]
  | none => some ((slotRegs f wbase s o).map fun r => rowRead e.rows r pos)

/-- A value of one or two words, low word first. -/
def joinWords (l : List Word) : DWord := (l.getD 1 0) ++ (l.getD 0 0)

/-- The words of a uniform slot. -/
def Env.uwords (e : Env) (f : Form) (s : Slot) (o : Opnd) : List Word :=
  (List.range (o.width f.ty)).map fun k => e.uregs.getD (slotNum f s + k) 0

/-- The value of an immediate slot: SEXT for I64, ZEXT for every other type (R136). -/
def immVal (f : Form) (s : Slot) (o : Opnd) : DWord :=
  if o.span = .ty && f.ty = .i64 then (f.slotImm s).signExtend 64 else (f.slotImm s).setWidth 64

/-- The value of a source slot in a lane: none where it names an empty latch. -/
def Env.slot (e : Env) (f : Form) (wbase pos : Nat) (s : Slot) (o : Opnd) : Option DWord :=
  match s.cls with
  | .vector => (e.words f wbase pos s o).map joinWords
  | .uniform => some (joinWords (e.uwords f s o))
  | .immediate => some (immVal f s o)
  | _ => some 0

/-- The predicate of a slot in a lane: an absent one reads true (R202). -/
def predOf (f : Form) (l : Lane) (s : Slot) : Bool :=
  if s.cls = .predicate then l.pred (slotNum f s) else true

/-- The operands of an instruction in a lane: none where a latch is empty, or a register is not carried. -/
def Env.args (e : Env) (f : Form) (g : Sig) (wbase pos : Nat) (l : Lane) : Option Args :=
  if e.outside.any fun o => o.1 = pos then none
  else match e.slot f wbase pos f.a g.a, e.slot f wbase pos f.b g.b, e.slot f wbase pos f.c g.c with
  | some a, some b, some c =>
    some { a := a, b := b, c := c, pa := predOf f l f.a, pb := predOf f l f.b, pc := predOf f l f.c }
  | _, _, _ => none

/-- The registers slot D names. -/
def dstRegs (f : Form) (g : Sig) (wbase : Nat) : List Nat := slotRegs f wbase f.d g.d

/-! ### The front of every lane instruction -/

/-- An active lane: a member whose guard is true. -/
structure Act where
  m    : Member
  lane : Lane
  deriving DecidableEq, Repr

/-- What the front gives: an outcome, or the issue with its active lanes. -/
inductive Front where
  | over (o : Host.Outcome State Fault Refusal)
  | go (x : Iss) (e : Env) (g : Sig) (act : List Act)

/-- CTL_BIN of R92 in every active lane: a uniform register, or an instruction that is not allowed in a reformed group. -/
def binFault (x : Iss) (f : Form) (forbidden : Bool) : Bool :=
  x.carried.isSome && (forbidden || [f.d, f.a, f.b, f.c].any fun s => s.cls = .uniform)

/-- DETAIL of such a CTL_BIN: the uniform register named, else the register, barrier or j number that the instruction
names (R380). -/
def binDetail (f : Form) : BitVec 52 :=
  match [f.d, f.a, f.b, f.c].find? fun s => s.cls = .uniform with
  | some s => BitVec.ofNat 52 (slotNum f s)
  | none =>
    match [f.d, f.a, f.b, f.c].find? fun s => s.cls != .none && s.cls != .immediate with
    | some s => BitVec.ofNat 52 (slotNum f s)
    | none => if f.a.cls = .immediate then (f.slotImm f.a).setWidth 52 else 0

/-- The reads of an issue by its active lanes: in a reformed group, a lane that names a vector register outside its own
carried range, as source or as destination, with NWB too, cannot execute (R92, R141, log 15). -/
def Env.within (e : Env) (x : Iss) (f : Form) (g : Sig) (act : List Act) : Env :=
  match x.carried with
  | none => e
  | some (b, _) =>
    { e with outside := act.filterMap fun a =>
        ((srcRegs f g x.wbase ++ dstRegs f g x.wbase).find? fun r => r < b || b + a.lane.carried ≤ r).map fun r => (a.m.pos, r) }

/-- Move lanes to a PC. -/
def State.moveLanes (s : State) (ls : List LaneRef) (pc : Word) : State := s.updLanes ls fun l => { l with pc := pc }

/-- DETAIL of a decode fault (R380): the register number named for class 0x3. -/
def decodeDetail (f : Form) : Cause → BitVec 52
  | .regDest => BitVec.ofNat 52 (slotNum f f.d)
  | _ => 0

/-- The limits under which a word decodes in a group (R134). -/
def State.limits (s : State) (x : Iss) : Limits :=
  let g := s.wg? x.wg
  { tiles := (g.map Workgroup.tileN).getD 0, accs := (g.map Workgroup.accN).getD 0
    jregs := (g.map fun w => w.jregs.length).getD 0, priv := x.priv, method := false, wbase := x.wbase
    pcLast := x.pc = 0xFFFFFFFC }

/-- End an issue: lanes that do not fault stand at the next PC, the others raise their causes (R376). DESIGN CHOICE (log 15): in an
arithmetic trap the members whose guard is false are among those that go on, where R61 speaks of the whole group. -/
def State.endIssue (s : State) (x : Iss) (f : Form) (faults : List LaneFault) : State :=
  let s := s.setHold x.g none
  let ok := x.members.filter fun m => !faults.any fun q => q.lane = m.ref
  (s.moveLanes (ok.map Member.ref) (nextPc f x.pc)).raise faults

def faultAll (act : List Act) (c : Cause) (d : BitVec 52) : List LaneFault := act.map fun a => ⟨a.m.ref, c, d⟩

/-- The active lanes of an issue: its members whose guard is true (R132). -/
def State.actsOf (s : State) (x : Iss) (f : Form) : List Act :=
  x.members.filterMap fun m => (s.lane? m.ref).bind fun l => if guardOf f l then some ⟨m, l⟩ else none

/-- The instructions of which a helper lane takes no fault other than a decode fault (R85, R232). -/
def quietHelper : Instr → Bool
  | .st _ | .stv _ | .atom _ | .atomv _ | .cas _ | .red _ | .redv _ | .swarm _ | .lineZero _ => true
  | _ => false

/-- The reads of an issue of which every active lane is refused its operands, as a uniform register named in a reformed group
does (R92). -/
def Env.barred (e : Env) (f : Form) (act : List Act) : Env :=
  { e with outside := act.map fun a => (a.m.pos, (binDetail f).toNat) }

/-- The front of a lane instruction; `bin` says whether its form faults in a reformed group, `extra` names registers read
beside the slots (R92, R132, R135, R145). Where helper lanes take no such fault, the lanes find it one by one (R85, R232). -/
def frontBin (i : Instr) (f : Form) (bin : Iss → Bool) (s : State) (extra : List Nat := []) : Front :=
  match s.curIss? with
  | none => .over (.fault .noIssueGroup)
  | some x =>
    let g := sigOf i f
    match decodeFault i f (s.limits x) with
    | some c => .over (.next ((s.setHold x.g none).raise (x.members.map fun m => ⟨m.ref, c, decodeDetail f c⟩)))
    | none =>
      let act := s.actsOf x f
      let barred := act != [] && bin x
      let e := (s.env x).within x f g act
      let e := if barred then e.barred f act else e
      if barred && !quietHelper i then .over (.next (s.endIssue x f (faultAll act .ctlBin (binDetail f))))
      else if e.busy x f g || extra.any (rowBusy e.rows) then .over (.next (s.stall x .memoryData))
      else .go x e g act

/-- The front of a lane instruction (R132, R135, R92, R145). -/
def front (i : Instr) (f : Form) (forbidden : Bool) (s : State) (extra : List Nat := []) : Front :=
  frontBin i f (fun x => binFault x f forbidden) s extra

/-! ### Destinations -/

/-- The map after LU has released the sources (R148). -/
def releaseLu (f : Form) (g : Sig) (wbase : Nat) (rows : List Row) : List Row :=
  let regs (s : Slot) (o : Opnd) : List Nat := if s.lu then slotRegs f wbase s o else []
  (regs f.a g.a ++ regs f.b g.b ++ regs f.c g.c).foldl releaseReg rows

/-- The end of an issue in which every guard is false: LU still releases what was read (R148). -/
def State.endIdle (s : State) (x : Iss) (f : Form) (g : Sig) : State :=
  (s.setRows x (releaseLu f g x.wbase (s.rowsOf x))).endIssue x f []

/-- The limits of the map an issue writes (R146, R149, R382). -/
def State.mapLimit (s : State) (x : Iss) : MapLimit :=
  match x.g with
  | .reformed _ _ _ => ⟨32, false, []⟩
  | .home wg w _ =>
    match s.warp? wg w with
    | some v => ⟨v.livemax, v.privileged, v.entryMap⟩
    | none => ⟨0, false, []⟩

/-- Words written to rows at positions. -/
def writeResults (rows : List Row) (ids : List Nat) (res : List (Nat × List Word)) : List Row :=
  res.foldl (fun rows r => (ids.zip r.2).foldl (fun rows p => rowWrite rows p.1 r.1 p.2) rows) rows

/-- Rows for the results of an issue: nothing to prepare where nothing is written. -/
def prepDest (lim : MapLimit) (rows : List Row) (regs : List Nat) (writes : Bool) (covers : Bool) :
    Prep ⊕ (List Row × List Nat) :=
  if regs = [] || !writes then .inr (rows, [])
  else match prepRegs lim covers rows regs with
    | some r => r
    | none => .inr (rows, [])

/-- The latch word k at a position after a result (R139): the result in an active lane, the destination's value in a
member whose guard is false (nothing with NWB), empty elsewhere. -/
def latchEntry (x : Iss) (act : List Act) (nwb : Bool) (rows : List Row) (regs : List Nat)
    (res : List (Nat × List Latch)) (k pos : Nat) : Latch :=
  match res.find? fun r => r.1 = pos with
  | some r => r.2.getD k .empty
  | none =>
    if nwb || !(x.members.any fun m => m.pos = pos) || act.any (fun a => a.m.pos = pos) then .empty
    else .full (rowRead rows (regs.getD k 0) pos)

/-- Shift the latches of the pipe by the words of a result, low word first (R138). -/
def State.shiftPipe (s : State) (x : Iss) (words : Nat) (entry : Nat → Nat → Latch) : State :=
  let p := s.pipe x.core x.pane x.pipe
  s.setPipe { p with latches := (List.range words).foldl (fun lat k => shiftLatches lat (entry k)) p.latches }

/-- Flags ORed into the FPSTAT of a lane's home warp (R60). -/
def State.addFlags (s : State) (r : LaneRef) (fl : Flags) : State :=
  if fl = 0 then s else s.updWarp r.wg r.warp fun w => { w with fpstat := w.fpstat ||| fl.setWidth 32 }

/-- The flags of FPSTAT that trap (R60). -/
def State.enabled (s : State) (r : LaneRef) : Flags :=
  ((s.warp? r.wg r.warp).map fun w => w.fpstat.extractLsb' 8 6).getD 0

/-- A lane's result: its words and flags. -/
structure LaneRes where
  a     : Act
  words : List Word
  flags : Flags
  deriving DecidableEq, Repr

/-- The flags a lane raises: none in a helper lane (R85). -/
def LaneRes.raised (r : LaneRes) : Flags := if r.a.lane.helper then 0 else r.flags

def State.addAllFlags (s : State) (rs : List LaneRes) : State := rs.foldl (fun s r => s.addFlags r.a.m.ref r.raised) s

/-- The arithmetic fault of an instruction, if any lane raises an enabled flag (R61). -/
def State.fpTrap (s : State) (rs : List LaneRes) : Option Cause :=
  let hit := rs.foldl (fun (acc : Flags) r => acc ||| (r.raised &&& s.enabled r.a.m.ref)) 0
  if hit = 0 then none else if hit.getLsbD 5 then some .arithNar else some .arithFp

/-- The faults of R61: every active lane records the cause, with its own flags; a lane that faults otherwise keeps its
own cause. -/
def fpFaults (c : Cause) (rs : List LaneRes) (others : List LaneFault) : List LaneFault :=
  others ++ rs.map fun r => ⟨r.a.m.ref, c, r.raised.setWidth 52⟩

/-- The words of a 64-bit value a destination takes. -/
def valWords (n : Nat) (v : DWord) : List Word :=
  if n = 2 then [v.extractLsb' 0 32, v.extractLsb' 32 32] else [v.extractLsb' 0 32]

/-- Faults in ascending position of the issue (R375). -/
def inOrder (x : Iss) (fs : List LaneFault) : List LaneFault :=
  x.members.filterMap fun m => fs.find? fun q => q.lane = m.ref

/-- Write vector results (R138 to R147): the rows, the latches, LU, or REG_LIVEMAX, or a wait. -/
def State.commitVec (s : State) (x : Iss) (f : Form) (g : Sig) (act : List Act) (rs : List LaneRes)
    (faults : List LaneFault) : State :=
  let regs := dstRegs f g x.wbase
  let rows := if faults = [] then releaseLu f g x.wbase (s.rowsOf x) else s.rowsOf x
  let covers := decide (rs.length = 32)
  let idle := !f.nwb && decide (act.length < x.members.length) && regs.any (rowBusy rows)
  match prepDest (s.mapLimit x) rows regs (!f.nwb && rs != []) covers with
  | .inl .full =>
    s.endIssue x f (inOrder x (faults ++ rs.map fun r => ⟨r.a.m.ref, .regLivemax, BitVec.ofNat 52 (regs.headD 0)⟩))
  | .inl _ => s.stall x .memoryData
  | .inr (rows, ids) =>
    if idle then s.stall x .memoryData
    else
      let rows := writeResults rows ids (rs.map fun r => (r.a.m.pos, r.words))
      let s := (s.setRows x rows).addAllFlags rs
      let res := rs.map fun r => (r.a.m.pos, r.words.map Latch.full)
      let s := s.shiftPipe x regs.length (fun k pos => latchEntry x act f.nwb rows regs res k pos)
      s.endIssue x f faults

/-- Write predicate results. -/
def State.commitPred (s : State) (x : Iss) (f : Form) (g : Sig) (rs : List LaneRes) (faults : List LaneFault) : State :=
  let s := if faults = [] then s.setRows x (releaseLu f g x.wbase (s.rowsOf x)) else s
  let s := rs.foldl (fun s r =>
    s.updLane r.a.m.ref fun l => l.setPred (slotNum f f.d) ((r.words.headD 0).getLsbD 0)) (s.addAllFlags rs)
  s.endIssue x f faults

/-- Write a uniform result of one or two words: a completion register waits for COUNT 0 (R274). -/
def State.commitUni (s : State) (x : Iss) (f : Form) (n : Nat) (words : List Word) (fl : Flags) : State :=
  let writes := words.zipIdx.map fun p => (n + p.2, p.1)
  let busy := writes.any fun p => 56 ≤ p.1 && ((s.warp? x.wg x.warp).map fun w => cregCount (w.ureg p.1) != 0).getD false
  let s := s.addFlags ⟨x.wg, x.warp, 0⟩ fl
  if busy then s.setHold x.g (some (.creg writes (nextPc f x.pc)))
  else (s.updWarp x.wg x.warp fun w => writes.foldl (fun w p => w.setUreg p.1 p.2) w).endIssue x f []

/-- DETAIL of REG_LATCH: the latch named (R380). -/
def latchDetail (f : Form) (g : Sig) : BitVec 52 := BitVec.ofNat 52 ((srcLatches f g).headD 0)

/-- Why a lane has no operands: it names a register it does not carry, or an empty latch (R92, R140). -/
def Env.lack (e : Env) (f : Form) (g : Sig) (pos : Nat) : Cause × BitVec 52 :=
  match e.outside.find? fun o => o.1 = pos with
  | some o => (.ctlBin, BitVec.ofNat 52 o.2)
  | none => (.regLatch, latchDetail f g)

/-- The fault of a lane that has no operands. -/
def Env.lackFault (e : Env) (f : Form) (g : Sig) (a : Act) : LaneFault :=
  ⟨a.m.ref, (e.lack f g a.m.pos).1, (e.lack f g a.m.pos).2⟩

/-- Per-lane results, with flags and faults settled, written to a vector or predicate destination (R61, R194). -/
def State.commit (s : State) (x : Iss) (f : Form) (g : Sig) (act : List Act) (rs : List LaneRes)
    (faults : List LaneFault) : State :=
  match s.fpTrap rs with
  | some c => (s.addAllFlags rs).endIssue x f (inOrder x (fpFaults c rs faults))
  | none =>
    if f.d.cls = .predicate then s.commitPred x f g rs faults else s.commitVec x f g act rs faults

/-- The results of an instruction that computes each element from its own lane (R194 to R196), written: uniformly into
a uniform register, per lane otherwise. `val` takes the lane position. -/
def State.aluCommit (s : State) (x : Iss) (e : Env) (f : Form) (g : Sig) (act : List Act) (val : Nat → Args → Val) : State :=
  if f.d.cls = .uniform then
    match act with
    | [] => s.endIssue x f []
    | a :: _ =>
      match e.args f g x.wbase 0 a.lane with
      | none => s.endIssue x f []
      | some args =>
        let v := val 0 args
        let rs := act.map fun a => (⟨a, [], v.flags⟩ : LaneRes)
        match s.fpTrap rs with
        | some c => (s.addAllFlags rs).endIssue x f (fpFaults c rs [])
        | none => s.commitUni x f (slotNum f f.d) (valWords (g.d.width f.ty) v.v)
            (if act.all (fun a => a.lane.helper) then 0 else v.flags)
  else
    let done := act.map fun a => (a, e.args f g x.wbase a.m.pos a.lane)
    let faults := done.filterMap fun d =>
      match d.2 with
      | none => some (e.lackFault f g d.1)
      | some _ => none
    let rs := done.filterMap fun d =>
      d.2.map fun args => let v := val d.1.m.pos args; (⟨d.1, valWords (g.d.width f.ty) v.v, v.flags⟩ : LaneRes)
    s.commit x f g act rs faults

/-- An instruction of own-lane operands, as an issue executes it. -/
def aluStep (i : Instr) (f : Form) (val : Nat → Args → Val) (s : State) : Host.Outcome State Fault Refusal :=
  match front i f false s with
  | .over o => o
  | .go x e g act => .next (s.aluCommit x e f g act val)

/-- Whether a hold is a reason to issue the instruction again. -/
def holdRetries : Option Hold → Bool
  | some (.stalled _) => true
  | _ => false

/-- The group record of an issue. -/
def State.groupOf (s : State) (g : GroupRef) : Option Group :=
  match g with
  | .home wg w gid => (s.warp? wg w).bind fun v => v.ring.find? fun x => x.gid = gid
  | .reformed core slot gid =>
    ((s.core core).groups.find? fun r => r.slot = slot).bind fun r => r.groups.find? fun x => x.gid = gid

/-- Whether a group is blocked at the instruction it just tried, all its lanes to issue it again. -/
def State.retries (s : State) (x : Iss) : Bool :=
  (s.groupOf x.g).any fun q => holdRetries q.hold && q.lanes = x.members.map Member.pos

end Sys2Proof.Machine
end

