-- ==== Sys2Proof/Machine/Fetch.lean ====
section
/-! DEFINITION. The issue of a group: what may issue, the fetch of its word, comparators and experiments, the switch of
groups on a pipe, and the decode (R78 to R83, R130 to R132, R376 to R377, R475 to R489). -/

namespace Sys2Proof.Machine

/-- The image a program slot of a context holds on a core (R155). -/
def State.slotOf (s : State) (core ctx prog : Nat) : Option DictSlot :=
  (s.core core).slots.find? fun d => d.ctx = ctx && d.prog = prog

/-- An entry of an image: undefined where the image holds none (R158). -/
def imageEntry (img : List (Nat × Template)) (dix : Nat) : Template :=
  match img.find? fun e => e.1 = dix with
  | some e => e.2
  | none => undefinedTemplate

def State.slotEntry (s : State) (core ctx prog : Nat) (dix : Nat) : Template :=
  match (s.slotOf core ctx prog).bind DictSlot.image with
  | some img => imageEntry img dix
  | none => undefinedTemplate

/-- The base of a group's PC: CODE_VA, or in privileged mode the vector table (R130, R381, R480). -/
def State.fetchBase (s : State) (x : Iss) : DWord :=
  let ctx := s.ctx? x.ctx
  if x.priv then
    let debug := ((s.wg? x.wg).bind Workgroup.trap).any TrapState.debug
    if debug then ((ctx.bind Context.debug).map Debug.base).getD 0 else (ctx.map Context.trapbase).getD 0
  else (((s.wg? x.wg).bind fun g => s.launch? g.launch).map fun l => l.header.codeVa).getD 0

/-- What a fetch of four bytes finds. -/
inductive Fetched where
  | word (w : Word)
  | wait
  | fault (c : Cause) (detail : BitVec 52)
  | absent
  deriving DecidableEq, Repr

/-- A fetch at a PC (R118, R130). -/
def State.fetchAt (s : State) (x : Iss) (pc : Word) : Fetched :=
  let ea := s.fetchBase x + pc.setWidth 64
  let d := ea.setWidth 52
  if pc.toNat % 4 != 0 then .fault .addrAlign d
  else match region ea.toNat with
  | .noncanon => .fault .addrNoncanon d
  | .paged =>
    match s.translate x.core x.ctx .x ea.toNat with
    | .ok p _ => if s.poisoned p then .fault (eccCause p) d else .word (wordOf (Memory.le s.mem p 4))
    | .wait => .wait
    | .absent => .absent
    | .perm => .fault .pagePerm d
  | .hatch _ => .fault .addrHatch d
  | _ => .fault .addrRange d

/-- Whether a decode fault of the slot stands in the way of an index (R132, R169). -/
def State.slotCause (s : State) (x : Iss) (dix : Nat) : Option Cause :=
  if dix < 0x040 then none
  else match s.slotOf x.core x.ctx x.dslot with
  | none => some .dictSlotEmpty
  | some d => if d.emptied then some .eccDict else if d.image.isNone then some .dictSlotEmpty else none

/-- The decode of a word in a group: a cause, or its instruction. -/
def State.decodeIn (s : State) (x : Iss) (w lit : Word) : Except Cause Instr :=
  match s.slotCause x (wordDix w).toNat with
  | some c => .error c
  | none =>
    match decode w (s.slotEntry x.core x.ctx x.dslot) lit with
    | .ok i => .ok i
    | .error .reserved => .error .dictReserved
    | .error .undefined => .error .dictUndef

/-- Whether the next instruction of a group reads a latch (R377), by the words as they stand. -/
def State.nextReadsLatch (s : State) (x : Iss) : Bool :=
  match s.fetchAt x x.pc with
  | .word w =>
    match s.decodeIn x w 0 with
    | .ok i => (i.form?).any fun f => !(srcLatches f (sigOf i f)).isEmpty
    | .error _ => false
  | _ => false

/-- Whether a group's hold lets it issue: blocked reasons are tried again, and SWWAIT looks again; other waits are not. -/
def holdIssues : Option Hold → Bool
  | none => true
  | some (.stalled _) => true
  | some (.swwait _ _ _ _ _) => true
  | some _ => false

/-- Whether a group is the current group of its warp, or stands at the head of its reformed group's ring (R81). -/
def State.isCurrent (s : State) (g : GroupRef) : Bool :=
  match g with
  | .home wg w gid => (s.warp? wg w).any fun v => v.current = gid
  | .reformed core slot gid =>
    ((s.core core).groups.find? fun r => r.slot = slot).any fun r => (r.groups.head?).any fun q => q.gid = gid

/-- The scheduler entry of a group (R104). -/
def entryOf : GroupRef → Entry
  | .home wg w _ => .warp wg w
  | .reformed _ slot _ => .slot slot

/-- Whether the entry of an issue is the active one of its pipe (R104). -/
def State.isActive (s : State) (x : Iss) : Bool := (s.entries x.core x.pane x.pipe).head? = some (entryOf x.g)

/-- The trap of a lane's workgroup, where its halt has been broadcast and its warp is not the trapping one (R377). -/
def State.skidding (s : State) (r : LaneRef) : Bool :=
  ((s.wg? r.wg).bind Workgroup.trap).any fun t => !t.entered && t.warp != r.warp

/-- Whether a group may issue its next instruction although a workgroup of its lanes halts: a lane of a stopped workgroup,
or of the trapping warp, issues only in the handler; the others keep to the bounds of R377. -/
def State.skidAllows (s : State) (x : Iss) : Bool :=
  x.members.all (fun m => ((s.wg? m.ref.wg).bind Workgroup.trap).isNone || s.skidding m.ref || x.priv)
    && (!(x.members.any fun m => s.skidding m.ref)
      || (s.groupOf x.g).any fun q => if s.nextReadsLatch x then decide (q.chain < 64) else decide (q.skid < 2))

/-- Whether a group has an instruction to issue: its lanes are ISSUING, and no wait, halt or context stands in the way. -/
def State.mayGo (s : State) (x : Iss) : Bool :=
  (s.ctx? x.ctx).any (fun c => c.resident && !c.hungHalt)
    && x.members.all (fun m => (s.lane? m.ref).any Lane.issuing && (s.wg? m.ref.wg).any Workgroup.resident)
    && (s.groupOf x.g).any (fun g => holdIssues g.hold)
    && s.skidAllows x

/-- Whether a group that is not current issues in the skid of its warp: its next instruction reads a latch, and the current
group has stopped (R377). -/
def State.skidTurn (s : State) (x : Iss) : Bool :=
  match x.g with
  | .home wg w _ => s.skidding ⟨wg, w, 0⟩ && s.nextReadsLatch x
      && !((s.warp? wg w).any fun v => (s.iss? (.home wg w v.current)).any s.mayGo)
  | .reformed _ _ _ => false

/-- The deadline of a gang in cycles (R96). -/
def Header.deadlineCycles (h : Header) : Nat := if h.deadline = 0 then 7000 else h.deadline

/-- Whether the save of a workgroup's gang is forced: its launch does not yield, or its deadline has passed (R389, R390). -/
def State.forceDue (s : State) (g : Workgroup) : Bool :=
  match s.ctx? g.ctx, s.launch? g.launch with
  | some c, some l => c.preq && (!l.header.flags.getLsbD 2 || decide (c.preqAt + l.header.deadlineCycles ≤ s.clock))
  | _, _ => false

/-- Whether a group is in SWWAIT. -/
def State.inSwwait (s : State) (g : GroupRef) : Bool :=
  (s.groupOf g).any fun q => match q.hold with | some (.swwait _ _ _ _ _) => true | _ => false

/-- Whether a group may issue now: the current group of the active entry of its pipe, or one in SWWAIT, which looks again
(R81, R104, R267); none of a gang whose save is forced (R390). -/
def State.canIssue (s : State) (x : Iss) : Bool :=
  s.mayGo x
    && (s.inSwwait x.g || (s.isActive x && (s.isCurrent x.g || s.skidTurn x)
      && (s.groupOf x.g).any (fun g => g.debt = 0)))
    && !((s.core x.core).jobs.any fun j => j.ctx = x.ctx && j.warp.isNone)
    && !x.members.any fun m => (s.wg? m.ref.wg).any s.forceDue

/-- The latches of a pipe are emptied when it issues for another group than the last (R83, R140). -/
def State.switchGroup (s : State) (x : Iss) : State :=
  let p := s.pipe x.core x.pane x.pipe
  if p.last = some x.g then s.setPipe p
  else s.setPipe { p.cleared with last := some x.g }

/-- The members of an issue for which it is the first since an RTE, RESUME or STEP, at their TRAPPC: no comparator matches it for them
(R477). -/
def State.freshAt (s : State) (x : Iss) : List Nat :=
  (x.members.filter fun m => (s.lane? m.ref).any fun l => l.fresh && l.trappc = x.pc).map Member.pos

/-- Comparators that match an issue by its PC and slot (R476): their numbers. -/
def State.matchesPc (s : State) (x : Iss) (mode : Nat) : List Nat :=
  if x.priv then []
  else ((s.core x.core).pcmp.zipIdx).filterMap fun e =>
    let v := e.1.1
    let pcw := v.extractLsb' 2 22
    if v.toNat % 4 = mode && e.1.2 = x.ctx && x.pc.extractLsb' 24 8 = 0 && x.pc.extractLsb' 2 22 = pcw
        && (!v.getLsbD 26 || v.toNat / 2 ^ 24 % 4 = x.dslot) then some e.2 else none

/-- Comparators that match an issue (R476, R477). -/
def State.matches (s : State) (x : Iss) (mode : Nat) : List Nat := if s.freshAt x = [] then s.matchesPc x mode else []

/-- Whether a comparator matches an issue for some of its lanes and not for those of R477: these then issue apart from the others
(DESIGN CHOICE, log 15). -/
def State.matchesApart (s : State) (x : Iss) : Bool :=
  s.freshAt x != [] && decide ((s.freshAt x).length < x.members.length)
    && (s.matchesPc x 1 ++ s.matchesPc x 2 ++ s.matchesPc x 3) != []

/-- The identity bytes of the lowest member of an issue (R474). -/
def State.issIdentity (s : State) (x : Iss) (noLane : Bool) : List Byte :=
  match x.members with
  | m :: _ => s.laneIdentity x.ctx x.core m.ref noLane x.dslot
  | [] => []

/-- TRACE and PROGRESS comparators act (R476). -/
def State.comparators (s : State) (x : Iss) (w lit : Word) : State :=
  let s := (s.matches x 2).foldl (fun s n => s.traceRecord x.ctx (s.issIdentity x false) 1 n 0 w.toNat lit.toNat) s
  (s.matches x 3).foldl (fun s _ => s.updCtx x.ctx fun c =>
    if c.cexctl.getLsbD 0 then { c with cexprog := c.cexprog + 1 } else c) s

/-- Debt added to a group (R489). -/
def addDebt (n : Nat) (g : Group) : Group := { g with debt := g.debt + n }

/-- A visit of the causal experiment (R489). -/
def State.visit (s : State) (x : Iss) : State :=
  match s.ctx? x.ctx with
  | none => s
  | some c =>
    if x.priv || !c.cexctl.getLsbD 0 || x.pc.toNat < c.cexlo.toNat || c.cexhi.toNat ≤ x.pc.toNat then s
    else
      let n := c.cexdelay.toNat % 4096
      let visits := min (c.cexdelay.toNat / 4096 + 1) 0xFFFFF
      let everywhere := c.cexctl.getLsbD 3
      let near (core : Nat) : Bool := everywhere || dieOf core = dieOf x.core
      let s := s.updCtx x.ctx fun c => { c with cexdelay := wordOf (n + 4096 * visits) }
      let owe (wg w : Nat) (q : Group) : Group := if x.g = .home wg w q.gid then q else addDebt n q
      let warps (g : Workgroup) : Workgroup :=
        { g with warps := g.warps.zipIdx.map fun v => { v.1 with ring := v.1.ring.map (owe g.id v.2) } }
      let away (k slot : Nat) (q : Group) : Group := if x.g = .reformed k slot q.gid then q else addDebt n q
      let reformed (k : Nat) (r : Reformed) : Reformed :=
        if r.ctx = x.ctx then { r with groups := r.groups.map (away k r.slot) } else r
      { s with
        wgs := mapIf (fun g => g.ctx = x.ctx && g.resident && near g.core) warps s.wgs
        cores := mapIf (fun k => near k.vault) (fun k => { k with groups := k.groups.map (reformed k.vault) }) s.cores }

/-! ### The model's own choice of actions (log 1, log 2) -/

/-- The groups of the package, in order of workgroup, warp and ring. -/
def State.allGroups (s : State) : List GroupRef :=
  (s.wgs.flatMap fun g => g.warps.zipIdx.flatMap fun v => v.1.ring.map fun q => (GroupRef.home g.id v.2 q.gid))
    ++ s.cores.flatMap fun c => c.groups.flatMap fun r => r.groups.map fun q => (GroupRef.reformed c.vault r.slot q.gid)

/-- The groups that may issue now. -/
def State.issuable (s : State) : List GroupRef :=
  s.allGroups.filter fun g => (s.iss? g).any s.canIssue

/-- Whether a lane waits as the hang detector counts it (R387). -/
def Lane.hangs (l : Lane) : Bool :=
  !l.halted && match l.st with
    | .binned => true
    | .waiting (.join _ _) | .waiting (.barrier _ _) | .waiting (.signed _) | .waiting (.jwait _ _) => true
    | .waiting (.callFull _ _ _ _) | .waiting (.call _ _ _ _) | .waiting (.oread _ _ _ _ _) => true
    | _ => false

/-- Whether every resident lane of a context that is not EXITED waits so (R387). -/
def State.hanging (s : State) (ctx : Nat) : Bool :=
  let live := ((s.wgs.filter fun g => g.ctx = ctx && g.resident).flatMap fun g => g.warps.flatMap Warp.lanes).filter
    fun l => l.st != .exited
  live != [] && live.all Lane.hangs

/-- The counters of a context over cycles: the hang counter, and the partial unit of REMAIN (R387, R488). -/
def Context.passCycles (n : Nat) (hanging : Bool) (c : Context) : Context :=
  { c with
    hangCount := if hanging && c.hanglimit != 0 && !c.hungHalt then c.hangCount + n else 0
    cexPart := if c.resident && c.cexctl.getLsbD 0 then c.cexPart + n else c.cexPart }

/-- Cycles that pass: CLOCK advances, counters count, and debt is paid (R332, R387, R489). -/
def State.passCycles (s : State) (n : Nat) : State :=
  let pay (g : Group) : Group := { g with debt := g.debt - n }
  let warp (v : Warp) : Warp := { v with ring := v.ring.map pay }
  let core (c : Core) : Core := { c with groups := c.groups.map fun r => { r with groups := r.groups.map pay } }
  { s with
    clock := s.clock + n
    contexts := s.contexts.map fun c => c.passCycles n (s.hanging c.id)
    wgs := s.wgs.map fun g => { g with warps := g.warps.map warp }
    cores := s.cores.map core }

/-! ### A program put in place from outside (log 12) -/

/-- A header for a launch of one warp, its fields other than these 0. -/
def programHeader (codeVa : DWord) : Header :=
  { id := 0, flags := 0, gx := 1, gy := 1, gz := 1, gang := 1, priority := 0, nroles := 1, vbytes := 0, tiles := 0, accs := 0
    jregs := 0, stackKib := 0, codeVa := codeVa, dictVa := 0, argVa := 0, homeObj := 0, deadline := 0
    roles := [{ entry := 0, warps := 1, livemax := 32, wbase0 := 0, dictslot := 0, resv := 0 }] }

/-- A context as created: what R493 and the rules of its registers give (log 5, log 6). -/
def Context.created (id bankKey : Nat) : Context :=
  { id := id, resident := false, killed := false, mode := 0, bankKey := bankKey, ageLimit := 50000, extwait := 0
    hanglimit := 16777216, hangCount := 0, hungHalt := false, trapbase := 0, trapdict := 3, trapimg := 0, preq := false, preqAt := 0
    cexctl := 0, cexlo := 0, cexhi := 0, cexdelay := 0, cexprog := 0, cexPart := 0, causalEnd := false, pages := []
    allocs := [], peers := List.replicate 64 ⟨false, 0, 0, 0, 0⟩, targets := [], objects := [], textures := []
    defaultQ := none, pushes := [], eventArea := none, eventSeq := 0, events := [], hangArea := none, debug := none, trace := none
    saved := false, saveArea := none, saveCmds := [], savedSlots := [], nmProgs := [] }

/-- A lane at launch (R76). -/
def Lane.atLaunch (pc : Word) (wbase : Nat) : Lane :=
  { pc := pc, npc := pc, wbase := wbase, preds := 0, st := .issuing, halted := false, reformed := none, carried := 0, carry := none
    stack := [], spilled := 0, pass := none, trappc := 0, side := ⟨0, 0, false, 0⟩, pixel := none, arrivals := []
    fresh := false }

def freshBars (n : Nat) : List Barrier := List.replicate n ⟨0, 0, 0⟩

/-- A warp at launch (R76, R101, R165, R273). -/
def Warp.atLaunch (role livemax : Nat) (p : Place) (pc : Word) (wbase slot rejected : Nat) : Warp :=
  { role := role, livemax := livemax, pane := p.pane, pipe := p.pipe, uregs := List.replicate 64 0, fpstat := 0
    srseed := 0x2545F491, csbase := 0, active := slot, pending := slot, trapAct := 0, trapPend := 0, loading := []
    loadFail := false, rejected := rejected, rows := [], lanes := List.replicate 32 (Lane.atLaunch pc wbase)
    ring := [{ gid := 0, lanes := List.range 32, hold := none, debt := 0 }], ringSaved := [], saved := [], nest := [], current := 0
    privileged := false, args := List.replicate 32 [0, 0, 0, 0], stage := none, hatchq := [], bars := freshBars 4
    trapCause := 0, trapLane := 0, skid := 0, entryMap := [], stepping := 0 }

/-- A workgroup with its warps, barriers, convergence registers and pane state at launch (R94, R253, R345, R346). -/
def Workgroup.atLaunch (id ctx launch linear core : Nat) (h : Header) (warps : List Warp) : Workgroup :=
  { id := id, ctx := ctx, launch := launch, linear := linear
    wgx := linear % h.gx, wgy := linear / h.gx % h.gy, wgz := linear / (h.gx * h.gy), gang := linear / h.gang
    core := core, sbase := 0, vbytes := h.vbytes, args := List.replicate 8 0, warps := warps, bars := freshBars 16
    jregs := List.replicate h.jregs ⟨0, 0, 0, none, 0, [], [], 0, 0, false, false⟩
    tileN := h.tiles, accN := h.accs
    panes := List.replicate 4 ⟨List.replicate h.tiles [], List.replicate h.tiles [], List.replicate h.accs [], none⟩
    trap := none, outer := [], resident := true, kept := false, pixelCmd := none, pendHalt := false, savedMem := [], savedUe := [] }

/-- A context number that no context has. -/
def State.freeCtx (s : State) : Nat := s.contexts.foldl (fun m c => max m (c.id + 1)) 0

/-- A context, launch and workgroup of one warp on core 0 whose code at CODE_VA 0x10000 is the given bytes. -/
def State.withProgram (s : State) (code : List Byte) : State :=
  let ctx := s.freeCtx
  let page : Page :=
    { va := 0x10000, size := 0x10000, phys := 0, r := true, w := true, x := true, host := false, key := 0, z := false }
  let c := { Context.created ctx 0 with resident := true, pages := [page] }
  let h := programHeader 0x10000
  let l : Launch :=
    { id := s.seq, ctx := ctx, header := h, nextWg := 1, live := 1, gangs := [], bars := freshBars 8, refused := false, absent := none
      origin := .outside, pixels := [], lost := [], ended := false }
  let warp := Warp.atLaunch 0 32 ⟨0, 0⟩ 0 0 0 0
  let wg := Workgroup.atLaunch s.seq ctx s.seq 0 0 h [warp]
  let s := { s with
    mem := Memory.store s.mem 0 code
    contexts := s.contexts ++ [c]
    launches := s.launches ++ [l]
    wgs := s.wgs ++ [wg]
    seq := s.seq + 1 }
  s.updCore 0 fun c => { c with l1 := c.l1 ++ [(ctx, page)] }

end Sys2Proof.Machine
end

