-- ==== Sys2Proof/Machine/Completion.lean ====
section
/-! DEFINITION. Completion registers, sync words, the end of engine commands and of launches (R263 to R274, R329, R335,
R407, R455, R492), and the release of a workgroup's resources (R77, R277). -/

namespace Sys2Proof.Machine

/-! ### Moving lanes on -/

/-- A lane moved on, its resume point with it while it is HALTED (R379, R384). -/
def State.advanceLane (s : State) (r : LaneRef) (pc : Word) : State := s.updLane r (Lane.moveTo pc)

/-- A once-per-issue wait of a group of a warp's ring that ends: its lanes go on at a PC, or some of them fault (R306). -/
def State.endHold (s : State) (wg w : Nat) (q : Group) (npc : Word) (faults : List LaneFault) : State :=
  let s := s.setHold (.home wg w q.gid) none
  let ok := q.lanes.filter fun p => !faults.any fun f => f.lane = ⟨wg, w, p⟩
  let s := ok.foldl (fun s p => s.advanceLane ⟨wg, w, p⟩ npc) s
  let s := if faults = [] then s.updWarp wg w Warp.settle else s.regroup (.home wg w q.gid) ⟨.none, 0⟩
  s.raise faults

/-! ### Completion registers (R273, R274, R329) -/

/-- The fault of a WAITC that sees COUNT 0 (R329). -/
def waitcCause (v : Word) : Option Cause :=
  if v.getLsbD 31 then some .engUe else if v.getLsbD 30 then some .engError else none

/-- DETAIL of ENG_UE and ENG_ERROR: the GO value, low 32 bits, of the command that last set a sticky bit of the register
(R380, log 17). -/
def Warp.goDetail (v : Warp) (n : Nat) : BitVec 52 := (((v.cregGo.find? fun e => e.1 = n).map Prod.snd).getD 0).setWidth 52

/-- The WAITCs of a warp that its completion register `n` ends, now that COUNT is 0: those of halted lanes end after RTE
(R329, R379). -/
def State.wakeWaitc (s : State) (wg w n : Nat) : State :=
  match s.warp? wg w with
  | none => s
  | some v =>
    if cregCount (v.ureg n) != 0 then s
    else v.ring.foldl (fun s q =>
      match q.hold with
      | some (.waitc r npc act) =>
        if r = n && q.lanes.all fun p => (v.lanes[p]?).any fun l => !l.halted then
          let faults := match waitcCause (v.ureg n) with
            | some c => act.map fun p => (⟨⟨wg, w, p⟩, c, v.goDetail n⟩ : LaneFault)
            | none => []
          s.endHold wg w q npc faults
        else s
      | _ => s) s

/-- COUNT of a completion register lowered, and its sticky bits set (R273). -/
def cregFall (n : Nat) (err ue : Bool) (v : Word) : Word :=
  wordOf ((v.toNat - min n (cregCount v))) ||| (if err then 0x40000000 else 0) ||| (if ue then 0x80000000 else 0)

/-- A fall of s(56 + creg) in the home warp of a lane (R273). -/
def State.fall (s : State) (r : LaneRef) (creg n : Nat) (err ue : Bool) : State :=
  (s.updWarp r.wg r.warp fun v => v.setUreg (56 + creg) (cregFall n err ue (v.ureg (56 + creg)))).wakeWaitc r.wg r.warp (56 + creg)

/-! ### Sync words (R263 to R266) -/

/-- The physical address of a scratchpad byte of a workgroup (R112). -/
def Workgroup.phys (g : Workgroup) (off : Nat) : Nat := vaultPhys g.core (g.sbase + off)

/-- A landing of `n` bytes at a sync word, with ERROR at an end with ERR or UE (R266). -/
def State.landSync (s : State) (wg sync n : Nat) (error : Bool) : State :=
  if sync = 0 then s
  else match s.wg? wg with
  | none => s
  | some g =>
    let a := g.phys sync
    let target := Memory.le s.mem a 4
    let count := (Memory.le s.mem (a + 4) 4 + n) % 2 ^ 32
    let gen := Memory.le s.mem (a + 8) 4
    let flags := Memory.le s.mem (a + 12) 4
    let k := if flags % 2 = 1 && target != 0 then count / target else 0
    let flags := if error then flags / 4 * 4 + 2 + flags % 2 else flags
    s.storeBytes a (leBytes 4 target ++ leBytes 4 (count - k * target) ++ leBytes 4 ((gen + k) % 2 ^ 32) ++ leBytes 4 flags)

/-! ### The release of workgroups (R77, R277, R155) -/

/-- Free the program slots of a context on a core where none of its workgroups is resident; loads into them still in
progress go with them (R155). -/
def State.unbindSlots (s : State) (core ctx : Nat) : State :=
  if s.wgs.any fun g => g.core = core && g.ctx = ctx && g.resident then s
  else s.updCore core fun c =>
    { c with slots := c.slots.filter (fun d => d.ctx != ctx), jobs := c.jobs.filter fun j => j.ctx != ctx }

/-- Whether an access or a queued reduction of a lane of a workgroup is still to be performed (R111, R292, R320). -/
def State.accessLeft (s : State) (wg : Nat) : Bool := s.pend.any (fun a => a.lane.wg = wg) || s.queue.any fun q => q.lane.wg = wg

/-- Drop the kept workgroups that no command names any more (R277). -/
def State.dropKept (s : State) : State :=
  { s with wgs := s.wgs.filter fun g => !(g.kept && !g.resident && !s.cmds.any fun c => c.names.contains g.id) }

/-- The gangs of a launch that still hold a workgroup, a reservation or a save. -/
def State.liveGangs (s : State) (l : Launch) : List Gang :=
  l.gangs.filter fun q => q.saved || q.reserved != [] || l.lost.any (fun k => k.gang = q.number) || s.wgs.any fun g => g.launch = l.id && g.gang = q.number && !g.kept

/-- A workgroup all of whose lanes are EXITED ends: its registers, tiles and entries go; its scratchpad stays while a
command names it (R77, R277, R492). -/
def State.endWorkgroup (s : State) (id : Nat) : State :=
  match s.wg? id with
  | none => s
  | some g =>
    let named := s.cmds.any fun c => c.names.contains id
    let s := if named then
        s.updWg id fun g => { g with resident := false, kept := true, warps := [], bars := [], jregs := [], panes := [], trap := none, outer := [] }
      else { s with wgs := s.wgs.filter fun w => w.id != id }
    let less (l : Launch) : Launch := { l with live := l.live - 1, gangs := s.liveGangs l }
    let s := { s with launches := mapIf (fun l => l.id = g.launch) less s.launches }
    let s := s.updCore g.core fun c => { c with handler := c.handler.filter fun h => h.2.2.1 != id }
    s.unbindSlots g.core g.ctx

/-! ### The end of commands and launches -/

/-- The GO value behind a sticky bit of a completion register (R380). -/
def State.noteGo (s : State) (r : LaneRef) (n : Nat) (go : Word) : State :=
  s.updWarp r.wg r.warp fun v => { v with cregGo := (n, go) :: v.cregGo.filter fun e => e.1 != n }

/-- A command ends: its register and its sync word take what has not fallen, with ERR or UE (R266, R273). -/
def State.endCommand (s : State) (id : Nat) : State :=
  match s.cmd? id with
  | none => s
  | some c =>
    let rest := c.total - c.fallen
    let s := { s with cmds := s.cmds.filter fun d => d.id != id }
    let s := if c.err || c.ue then s.noteGo c.lane (56 + c.creg) c.go else s
    let s := s.landSync c.lane.wg c.sync rest (c.err || c.ue)
    (s.fall c.lane c.creg rest c.err c.ue).dropKept

/-- Part of a command's total lands (R266, R273). -/
def State.landPart (s : State) (id n : Nat) : State :=
  match s.cmd? id with
  | none => s
  | some c =>
    let s := s.updCmd id fun c => { c with fallen := c.fallen + n }
    let s := s.landSync c.lane.wg c.sync n false
    s.fall c.lane c.creg n false false

def Header.workgroups (h : Header) : Nat := h.gx * h.gy * h.gz

/-- Whether every workgroup of a launch, and every command accepted from its lanes, has ended (R492). -/
def State.launchDone (s : State) (l : Launch) : Bool :=
  let admitted := match l.origin with
    | .draw c => l.pixels = [] && !(s.cmds.any fun k => k.id = c && match k.work with | .draw _ _ ts _ => ts != [] | _ => false)
    | _ => l.refused || l.nextWg = l.header.workgroups
  admitted && l.lost = [] && l.live = 0 && !s.cmds.any fun c => c.launch = l.id

/-- The fence of a queue push: written as a release at system scope, where it is aligned and writable (R455). -/
def State.writeFence (s : State) (ctx : Nat) (fence value : DWord) (refused : Bool) : State :=
  if fence = 0 || fence.toNat % 8 != 0 then s
  else
    let v := if refused then value ||| 0x8000000000000000 else value
    match region fence.toNat with
    | .paged => match s.lookup ctx .w fence.toNat with
      | .ok p _ => s.storeBytes p (leBytes 8 v.toNat)
      | _ => s
    | .aperture vault off => if s.holdsVault ctx vault off 8 then s.storeBytes (vaultPhys vault off) (leBytes 8 v.toNat) else s
    | _ => s

/-- Whether the fence's page is being zeroed: the end of the launch then waits (R124). -/
def State.fenceWaits (s : State) (l : Launch) : Bool :=
  match l.origin with
  | .push _ _ fence _ _ _ => region fence.toNat = .paged && s.lookup l.ctx .w fence.toNat = .wait
  | _ => false

/-- A launch ends: the completion that waits for it falls (R335, R455, R492). -/
def State.endLaunch (s : State) (l : Launch) : State :=
  let s := { s with launches := s.launches.filter fun k => k.id != l.id }
  match l.origin with
  | .launch c => (s.updCmd c fun k => { k with err := k.err || l.refused }).endCommand c
  | .push _ _ fence value lane creg =>
    let s := s.writeFence l.ctx fence value l.refused
    match lane with
    | some r => if l.refused then s.fall r creg 0 true false else s
    | none => s
  | .draw _ => s
  | .outside => s

/-- Whether a raster command's fragments are applied or nulled and its launch has ended (R407). -/
def State.drawDone (s : State) (c : Command) : Bool :=
  match c.work with
  | .draw target _ tokens launch =>
    tokens = [] && !(s.launches.any fun l => l.id = launch)
      && (match s.target? c.ctx target with
        | some t => t.frags.all fun f => f.cmd != c.id || f.st = .done
        | none => true)
  | _ => false

/-- Launches and raster commands that have ended, one at a time. -/
def State.settleSteps : Nat → State → State
  | 0, s => s
  | n + 1, s =>
    match s.launches.find? fun l => s.launchDone l && !s.fenceWaits l with
    | some l => State.settleSteps n (s.endLaunch l)
    | none =>
      match s.cmds.find? s.drawDone with
      | some c =>
        let s := s.updCtx c.ctx fun k => { k with targets := k.targets.map fun t =>
          { t with order := t.order.filter (· != c.id), frags := t.frags.filter fun f => f.cmd != c.id } }
        State.settleSteps n (s.endCommand c.id)
      | none => s

/-- The handle of an object (R49). -/
def ReplayObj.handle (o : ReplayObj) : Word := wordOf (o.kind * 2 ^ 28 + o.index)

/-- Whether a destroyed object still holds its bytes: a target while commands on it have not ended, a queue while a launch runs that
a push to it entered (R50). -/
def State.targetBusy (s : State) (ctx : Nat) (t : Target) : Bool := s.cmds.any fun c => c.ctx = ctx && t.order.contains c.id

@[inherit_doc State.targetBusy]
def State.queueBusy (s : State) (ctx : Nat) (o : ReplayObj) : Bool :=
  s.launches.any fun l => l.ctx = ctx && match l.origin with | .push h _ _ _ _ _ => h = o.handle | _ => false

/-- The objects of a context that were destroyed. -/
def Context.anyDead (c : Context) : Bool := c.targets.any Target.dead || c.objects.any ReplayObj.dead

/-- Destroyed objects on which nothing is left are freed, with their bytes and their INDEX (R50). -/
def State.freeDead (s : State) : State :=
  if !s.contexts.any Context.anyDead then s
  else
    let free (c : Context) : Context :=
      { c with
        targets := c.targets.filter fun t => !t.dead || s.targetBusy c.id t
        objects := c.objects.filter fun o => !o.dead || s.queueBusy c.id o }
    { s with contexts := s.contexts.map free }

/-- Every completion that has come due, and what it frees (R50, R492). -/
def State.settle (s : State) : State := (State.settleSteps (s.launches.length + s.cmds.length) s).freeDead

end Sys2Proof.Machine
end

