-- ==== Sys2Proof/Machine/Pixels.lean ====
section
/-! DEFINITION. Rasterisation and the pixels of targets: snapping, coverage, barycentrics, channel formats, and what is
still pending at a pixel (R399 to R403, R406, R409, R412, R414 to R417). -/

namespace Sys2Proof.Machine

/-! ### Snapping and coverage (R399 to R403) -/

/-- A coordinate in 16.8 fixed point: none for a NaN, an infinity or a value out of range (R399). -/
def snap (x : Nat) : Option Int :=
  match fval fmtF32 x with
  | .fin neg m =>
    let v := signed neg (roundIntegral .rne neg (m * 256) fmtF32.unit)
    if -8388608 ≤ v && v ≤ 8388607 then some v else none
  | _ => none

/-- The snapped vertices X0, Y0, X1, Y1, X2, Y2 of a triangle: none where one of them has no place. -/
def snapAll (xs : List Nat) : Option (List Int) := xs.mapM snap

def vert (v : List Int) (n : Nat) : Int := v.getD n 0

/-- The area A (R400). -/
def triArea (v : List Int) : Int :=
  (vert v 2 - vert v 0) * (vert v 5 - vert v 1) - (vert v 3 - vert v 1) * (vert v 4 - vert v 0)

/-- The vertices Vj and Vk of edge i: V1 to V2, V2 to V0, V0 to V1 (R400). -/
def edgeEnds (v : List Int) (i : Nat) : Int × Int × Int × Int :=
  let j := (i + 1) % 3
  let k := (i + 2) % 3
  (vert v (2 * j), vert v (2 * j + 1), vert v (2 * k), vert v (2 * k + 1))

/-- The edge function Ei at a point (R400). -/
def edgeAt (v : List Int) (i : Nat) (x y : Int) : Int :=
  let (xj, yj, xk, yk) := edgeEnds v i
  (xk - xj) * (y - yj) - (yk - yj) * (x - xj)

/-- Whether edge i is a top or a left edge under the sign σ (R401). -/
def topLeft (v : List Int) (sg : Int) (i : Nat) : Bool :=
  let (xj, yj, xk, yk) := edgeEnds v i
  let dx := sg * (xk - xj)
  let dy := sg * (yk - yj)
  (dy = 0 && decide (0 < dx)) || decide (dy < 0)

/-- Whether a triangle covers a point (R401). -/
def triCovers (v : List Int) (x y : Int) : Bool :=
  let a := triArea v
  let sg : Int := if 0 < a then 1 else -1
  a != 0 && (List.range 3).all fun i =>
    let e := sg * edgeAt v i x y
    decide (0 < e) || (e = 0 && topLeft v sg i)

/-- The sample offsets (R402). -/
def sampleOffsets (n : Nat) : List (Nat × Nat) :=
  match n with
  | 1 => [(8, 8)]
  | 2 => [(4, 4), (12, 12)]
  | 4 => [(6, 2), (14, 6), (2, 10), (10, 14)]
  | _ => [(3, 1), (11, 3), (7, 5), (15, 7), (1, 9), (9, 11), (5, 13), (13, 15)]

/-- The covered samples of a pixel of a target, as a mask (R401, R402). -/
def Target.coverage (t : Target) (v : List Int) (px py : Nat) : Nat :=
  if t.w ≤ px || t.h ≤ py then 0
  else ((sampleOffsets t.samples).zipIdx).foldl (fun m o =>
    if triCovers v (256 * px + 16 * o.1.1 : Nat) (256 * py + 16 * o.1.2 : Nat) then m + 2 ^ o.2 else m) 0

/-- The pixels of a tile (R412). -/
def tilePixels (tx ty : Nat) : List (Nat × Nat) := (List.range 64).map fun q => (8 * tx + q % 8, 8 * ty + q / 8)

/-- The tiles of a target that hold a covered sample of a triangle (R408, R415): within its bounds. -/
def Target.tilesOf (t : Target) (v : List Int) : List (Nat × Nat) :=
  let span (a b c : Int) (n : Nat) : List Nat :=
    let lo := (max 0 (min a (min b c))).toNat / 2048
    let hi := (max 0 (max a (max b c))).toNat / 2048
    (List.range ((n + 7) / 8)).filter fun k => lo ≤ k + 1 && k ≤ hi
  let xs := span (vert v 0) (vert v 2) (vert v 4) t.w
  let ys := span (vert v 1) (vert v 3) (vert v 5) t.h
  (ys.flatMap fun y => xs.map fun x => (x, y)).filter fun k => (tilePixels k.1 k.2).any fun p => t.coverage v p.1 p.2 != 0

/-- A barycentric at a pixel's centre: Ei ÷ A rounded once (R403). -/
def baryAt (v : List Int) (i px py : Nat) : Word :=
  let a := triArea v
  let e := edgeAt v i (256 * px + 128 : Nat) (256 * py + 128 : Nat)
  wordOf (roundInt fmtF32 .rne false (if a < 0 then -e else e) a.natAbs).bits

/-! ### Channels (R414) -/

/-- A stored channel as a 32-bit value. -/
def chanRead (fmt : Nat) (v : Word) : Word :=
  match fmt with
  | 1 => wordOf (fpConvert fmtF16 fmtF32 .rne (v.toNat % 65536)).bits
  | 2 => wordOf (roundInt fmtF32 .rne false (v.toNat % 256 : Nat) 255).bits
  | _ => v

/-- A 32-bit value as a channel stores it. -/
def chanWrite (fmt : Nat) (v : Word) : Word :=
  match fmt with
  | 0 => v
  | 1 => wordOf (fpConvert fmtF32 fmtF16 .rne v.toNat).bits
  | 2 =>
    match fval fmtF32 (fpSat fmtF32 true ⟨v.toNat, 0⟩).bits with
    | .fin _ m => wordOf (roundIntegral .rne false (255 * m) fmtF32.unit)
    | _ => 0
  | _ => wordOf (fpSat fmtF32 true ⟨v.toNat, 0⟩).bits

def Target.pixIndex (t : Target) (x y : Nat) : Nat := y * t.w + x

/-- The place of a channel of a sample of a pixel in `pix`. -/
def Target.cell (t : Target) (x y s c : Nat) : Nat := (t.pixIndex x y * t.samples + s) * t.fmts.length + c

/-- Channels 0 to 3 of a sample as R414 reads them, +0 for those the target lacks. -/
def Target.sample (t : Target) (x y s : Nat) : List Word :=
  (List.range 4).map fun c =>
    match t.fmts[c]? with
    | some fmt => chanRead fmt (Cells.read t.pix (t.cell x y s c))
    | none => 0

def Target.isDamaged (t : Target) (x y : Nat) : Bool := t.damaged.contains (t.pixIndex x y)

/-! ### What is pending (R303, R406, R417) -/

/-- Whether a raster command has a token that covers a pixel of its target still to issue. -/
def Work.tokensLeft (t : Target) (x y : Nat) : Work → Bool
  | .draw _ _ ts _ => ts.any fun k => k.tx = x / 8 && k.ty = y / 8 && t.coverage k.verts x y != 0
  | _ => false

/-- Whether a command has an application at a pixel of its target still to come, its tokens not yet issued included. -/
def Work.pixelLeft (t : Target) (x y : Nat) : Work → Bool
  | .invoke _ _ _ _ _ _ _ left => left.contains (t.pixIndex x y)
  | k => k.tokensLeft t x y

/-- Whether commands of a target still have a fragment to come at a pixel (R303, R427). -/
def State.fragmentPending (s : State) (t : Target) (ids : List Nat) (x y : Nat) : Bool :=
  t.frags.any (fun f => ids.contains f.cmd && f.x = x && f.y = y && f.st != .done)
    || s.cmds.any fun c => ids.contains c.id && c.work.tokensLeft t x y

/-- Whether commands of a target still have a fragment or an application to come at a pixel (R303, R417). -/
def State.pixelPending (s : State) (t : Target) (ids : List Nat) (x y : Nat) : Bool :=
  s.fragmentPending t ids x y || s.cmds.any fun c => ids.contains c.id && c.work.pixelLeft t x y

/-- The PSNs of a target whose fragments are not all applied or nulled. -/
def State.openPsns (s : State) (t : Target) : List Word :=
  (t.frags.filter (fun f => f.st != .done)).map (fun f => f.psn)
    ++ (s.cmds.filter fun c => t.order.contains c.id).flatMap fun c =>
      match c.work with
      | .draw _ psn ts _ => ts.map fun k => psn + wordOf k.tri
      | _ => []

/-- OLDEST (R406): the earliest of them, or NEXTPSN. -/
def State.oldest (s : State) (t : Target) : Word :=
  (s.openPsns t).foldl (fun o p => if (t.nextpsn - o).toNat < (t.nextpsn - p).toNat then p else o) t.nextpsn

end Sys2Proof.Machine
end

