-- ==== Sys2Proof/Machine/Lanes.lean ====
section
/-! DEFINITION. What follows when lanes wait, exit, park or resume: the ends of waits, helper lanes, JOINs, barrier
phases, and the end of a workgroup (R77, R85 to R89, R253 to R256, R320, R379, R491). -/

namespace Sys2Proof.Machine

/-! ### The end of a wait -/

/-- The lane states saved at the handler entries of a warp, newest first (R383, R384). -/
def Warp.saves (v : Warp) : List (List LaneSave) := if v.privileged then v.saved :: v.nest.map Nested.saved else []

/-- The state of a lane at a depth: 0 the one it has, d + 1 that of the d-th handler entry back (R77, R384). -/
def Warp.stateAt (v : Warp) (d p : Nat) : LaneState :=
  match d with
  | 0 => ((v.lanes[p]?).map Lane.st).getD .exited
  | d + 1 => (((v.saves[d]?).bind fun l => l[p]?).map LaneSave.st).getD .exited

/-- A wait: of a lane, at a depth. -/
structure Waiter where
  ref   : LaneRef
  depth : Nat
  deriving DecidableEq, Repr

/-- The state a wait is recorded in. -/
def State.stateAt (s : State) (w : Waiter) : LaneState :=
  ((s.warp? w.ref.wg w.ref.warp).map fun v => v.stateAt w.depth w.ref.lane).getD .exited

/-- A warp with the state of a lane at a depth changed. -/
def Warp.setAt (d p : Nat) (st : LaneState) (v : Warp) : Warp :=
  let put (q : LaneSave) : LaneSave := { q with st := st }
  match d with
  | 0 => { v with lanes := mapNth v.lanes p fun l => { l with st := st } }
  | 1 => { v with saved := mapNth v.saved p put }
  | d + 2 => { v with nest := mapNth v.nest d fun n => { n with saved := mapNth n.saved p put } }

def State.setAt (s : State) (w : Waiter) (st : LaneState) : State := s.updWarp w.ref.wg w.ref.warp (Warp.setAt w.depth w.ref.lane st)

/-- Whether what a wait gives is left for RTE: its lane is HALTED, or has been in a handler since (R379, R384). -/
def State.held (s : State) (w : Waiter) : Bool := w.depth != 0 || (s.lane? w.ref).any Lane.halted

/-- The waits of a lane, at every depth. -/
def Warp.waitsOf (v : Warp) (r : LaneRef) : List (Waiter × Wait) :=
  (List.range (v.saves.length + 1)).filterMap fun d =>
    match v.stateAt d r.lane with
    | .waiting w => some (⟨r, d⟩, w)
    | _ => none

def State.waitsOf (s : State) (r : LaneRef) : List (Waiter × Wait) := ((s.warp? r.wg r.warp).map fun v => v.waitsOf r).getD []

/-- The rows of the map a lane's registers are in: its reformed group's or its home warp's (R144, R149). -/
def State.laneRows (s : State) (r : LaneRef) : List Row :=
  match (s.lane? r).bind Lane.reformed, s.wg? r.wg with
  | some slot, some g => (((s.core g.core).groups.find? fun q => q.slot = slot).map Reformed.rows).getD []
  | _, _ => ((s.warp? r.wg r.warp).map Warp.rows).getD []

def State.setLaneRows (s : State) (r : LaneRef) (rows : List Row) : State :=
  match (s.lane? r).bind Lane.reformed, s.wg? r.wg with
  | some slot, some g => s.updCore g.core fun c =>
      { c with groups := mapIf (fun q => q.slot = slot) (fun q => { q with rows := rows }) c.groups }
  | _, _ => s.updWarp r.wg r.warp fun v => { v with rows := rows }

/-- The limits of that map. -/
def State.laneLimit (s : State) (r : LaneRef) : MapLimit :=
  match (s.lane? r).bind Lane.reformed with
  | some _ => ⟨32, false, []⟩
  | none => ((s.warp? r.wg r.warp).map fun v => (⟨v.livemax, v.privileged, v.entryMap⟩ : MapLimit)).getD ⟨0, false, []⟩

/-- What the result of a wait finds at its registers: it is written, it waits for an earlier result to a row, or a register that has
lost its row finds none free (R146, R147). -/
inductive Landing where
  | over (s : State)
  | wait
  | full (reg : Nat)

/-- The result of a wait written to its registers and predicate: nothing under NWB (R139, R146). -/
def State.landWords (s : State) (r : LaneRef) (words : List Word) (pred : Option Bool) (dst : Dest) : Landing :=
  let done (s : State) : State := match dst.pred, pred with
    | some n, some v => s.updLane r fun l => l.setPred n v
    | _, _ => s
  if dst.nwb then .over (done s)
  else match prepRegs (s.laneLimit r) false (s.laneRows r) (dst.regs.take words.length) with
    | some (.inr (rows, ids)) => .over (done (s.setLaneRows r (writeResults rows ids [(dst.pos, words)])))
    | some (.inl .full) => .full (dst.regs.headD 0)
    | some (.inl _) => .wait
    | none => .over (done s)

/-- Split the groups of a reformed group so that the released positions stand apart (R491). -/
def Reformed.release (ps : List Nat) (fresh : Nat) (r : Reformed) : Reformed :=
  { r with groups := r.groups.zipIdx.flatMap fun e =>
      let out := e.1.lanes.filter ps.contains
      let stay := e.1.lanes.filter fun p => !ps.contains p
      if out = [] then [e.1]
      else if stay = [] then [{ e.1 with hold := none }]
      else [{ e.1 with lanes := out, hold := none }, { e.1 with gid := fresh + e.2, lanes := stay }] }

/-- Lanes that leave a wait together, none of them HALTED: each goes on at its next PC (R491). -/
def State.wake (s : State) (rs : List LaneRef) : State :=
  let s := rs.foldl (fun s r => s.updLane r fun l => { l with pc := l.npc, st := .issuing }) s
  let home := rs.filter fun r => ((s.lane? r).bind Lane.reformed).isNone
  let warps := (home.map fun r => (r.wg, r.warp)).eraseDups
  let s := warps.foldl (fun s w =>
    s.release w.1 w.2 ((home.filter fun r => r.wg = w.1 && r.warp = w.2).map LaneRef.lane)) s
  let away := rs.filter fun r => !home.contains r
  if away = [] then s
  else
    let out (q : Reformed) : List Nat :=
      (List.range q.lanes.length).filter fun p => away.any fun r => q.lanes[p]? = some (some r)
    let free (c : Core) : Core := { c with groups := c.groups.map fun q => q.release (out q) (s.seq + 1) }
    let t := { s with cores := s.cores.map free, seq := s.seq + 33 }
    t.cores.foldl (fun s c => c.groups.foldl (fun s q => s.settleReformed c.vault q.slot) s) t

/-- The end of a wait: what it writes (R139). -/
structure WaitEnd where
  who   : Waiter
  words : List Word
  pred  : Option Bool
  dst   : Dest
  deriving DecidableEq, Repr

def noDest : Dest := { regs := [], pos := 0, nwb := true, pred := none }

/-- The end of a wait that writes nothing. -/
def Waiter.done (w : Waiter) : WaitEnd := ⟨w, [], none, noDest⟩

/-- The destination of a wait. -/
def Wait.dst : Wait → Dest
  | .jwait _ d | .callFull _ _ _ d | .call _ _ _ d | .oread _ _ _ _ d | .waitw _ _ _ _ _ _ d | .settled _ _ _ _ _ d | .landed _ _ d => d
  | .join _ _ | .barrier _ _ | .signed _ | .yielded | .lost _ => noDest

/-- A wait with what its lane held in the registers that LU has released. -/
def Wait.keeping (k : List (Nat × Word)) : Wait → Wait
  | .jwait j d => .jwait j { d with kept := k }
  | .callFull h m a d => .callFull h m a { d with kept := k }
  | .call h n v d => .call h n v { d with kept := k }
  | .oread h m a n d => .oread h m a n { d with kept := k }
  | .waitw ea n g c v t d => .waitw ea n g c v t { d with kept := k }
  | .settled h i j m c d => .settled h i j m c { d with kept := k }
  | w => w

/-- A lane that is to execute its instruction again takes values back into its registers before it does, as a lane that has left its
reformed group does (R148, R149). -/
def State.giveBack (s : State) (r : LaneRef) (k : List (Nat × Word)) : State :=
  if k = [] then s else s.updLane r fun l => { l with carry := some (k ++ l.carry.getD []) }

/-- A lane whose wait ends in a fault or a park finds again the registers that LU released (R148). -/
def State.keepRegs (s : State) (r : LaneRef) : State :=
  match (s.lane? r).map Lane.st with
  | some (.waiting w) => s.giveBack r w.dst.kept
  | _ => s

/-- Waits of lanes that end in faults at their instructions (R50, R146, R245, R246). -/
def State.waitFaults (s : State) (fs : List LaneFault) : State :=
  let rs := fs.map LaneFault.lane
  ((rs.foldl State.keepRegs s).updLanes rs fun l => { l with st := .issuing }).raiseApart fs

/-- A lane's wait ends in a fault at its instruction. -/
def State.waitFault (s : State) (r : LaneRef) (c : Cause) (d : BitVec 52) : State := s.waitFaults [⟨r, c, d⟩]

/-- The results of waits written one after another: the lanes whose waits are over, and those whose results find no row; one that must
wait for an earlier result to its row stays WAITING (R146, R147). -/
def State.landAll : List WaitEnd → State → State × List LaneRef × List LaneFault
  | [], s => (s, [], [])
  | e :: rest, s =>
    match s.landWords e.who.ref e.words e.pred e.dst with
    | .over t =>
      let q := State.landAll rest t
      (q.1, e.who.ref :: q.2.1, q.2.2)
    | .wait => State.landAll rest (s.setAt e.who (.waiting (.landed e.words e.pred e.dst)))
    | .full reg =>
      let q := State.landAll rest s
      (q.1, q.2.1, ⟨e.who.ref, .regLivemax, BitVec.ofNat 52 reg⟩ :: q.2.2)

/-- Waits whose conditions have come true together: each lane's result is written, and the lanes of each group go on
together; a HALTED lane's is left for RTE (R379, R491). -/
def State.satisfyAll (s : State) (es : List WaitEnd) : State :=
  let now := es.filter fun e => !s.held e.who
  let s := (es.filter fun e => s.held e.who).foldl (fun s e => s.setAt e.who (.waiting (.landed e.words e.pred e.dst))) s
  let q := State.landAll now s
  (q.1.wake q.2.1).waitFaults q.2.2

/-- One wait whose condition has come true. -/
def State.satisfy (s : State) (w : Waiter) (words : List Word) (pred : Option Bool) (dst : Dest) : State :=
  s.satisfyAll [⟨w, words, pred, dst⟩]

/-- The wait of a lane that is not HALTED and whose condition has come true (R147, R379). -/
def State.landedEnd (s : State) (r : LaneRef) : Option WaitEnd :=
  match s.lane? r with
  | some l => match l.st with
    | .waiting (.landed words pred dst) => if l.halted then none else some ⟨⟨r, 0⟩, words, pred, dst⟩
    | _ => none
  | none => none

/-- Results that waited for an earlier result to their rows are tried again (R147). -/
def State.landLate (s : State) (rs : List LaneRef) : State :=
  match rs.filterMap s.landedEnd with
  | [] => s
  | es => s.satisfyAll es

/-- Every wait of the lanes of a context. -/
def State.waits (s : State) (ctx : Nat) : List (Waiter × Wait) :=
  (s.wgs.filter fun g => g.ctx = ctx).flatMap fun g => g.warps.zipIdx.flatMap fun v =>
    (List.range v.1.lanes.length).flatMap fun p => v.1.waitsOf ⟨g.id, v.2, p⟩

/-- Every lane of a workgroup. -/
def Workgroup.refs (g : Workgroup) : List LaneRef :=
  g.warps.zipIdx.flatMap fun v => (List.range v.1.lanes.length).map fun p => ⟨g.id, v.2, p⟩

/-- What TSAMP gives a lane at a pixel: its sample, TGT_DAMAGED at a damaged pixel, 0 in a helper lane there (R427). -/
def State.sampleNow (s : State) (r : LaneRef) (t : Target) (x y k : Nat) : Option (List Word) :=
  if !t.isDamaged x y then some (t.sample x y k)
  else if (s.lane? r).any Lane.helper then some [0, 0, 0, 0]
  else none

/-- How a wait of TSAMP.SETTLED that is over ends: with the pixel's sample, or, for a damaged pixel, in a fault, which a
HALTED lane takes after RTE (R427, R431). -/
def State.settledEnd (s : State) (ctx : Nat) (e : Waiter × Wait) : Option (WaitEnd ⊕ LaneFault) :=
  match e.2 with
  | .settled h x y k ids dst =>
    match s.target? ctx h with
    | none => none
    | some t =>
      if s.pixelPending t ids x y then none
      else match s.sampleNow e.1.ref t x y k with
      | some ws => some (.inl ⟨e.1, ws, none, dst⟩)
      | none => if s.held e.1 then none else some (.inr ⟨e.1.ref, .tgtDamaged, h.setWidth 52⟩)
  | _ => none

/-- The waits of TSAMP.SETTLED of a context that are over end (R303, R427, R431, R491). -/
def State.wakeSettled (s : State) (ctx : Nat) : State :=
  let es := (s.waits ctx).filterMap (s.settledEnd ctx)
  let faults := es.filterMap fun e => match e with | .inr f => some f | .inl _ => none
  (s.satisfyAll (es.filterMap fun e => match e with | .inl w => some w | .inr _ => none)).waitFaults faults

/-! ### Barriers (R253 to R256) -/

/-- A barrier of a lane's warp, workgroup, gang or launch. -/
def State.barrier (s : State) (g : Workgroup) (w sc n : Nat) : Barrier :=
  let l := s.launch? g.launch
  let bs : List Barrier := match sc with
    | 1 => ((g.warps[w]?).map Warp.bars).getD []
    | 2 => g.bars
    | 3 => ((l.bind fun l => l.gangs.find? fun q => q.number = g.gang).map Gang.bars).getD []
    | _ => (l.map Launch.bars).getD []
  bs.getD n ⟨0, 0, 0⟩

def State.setBarrier (s : State) (g : Workgroup) (w sc n : Nat) (b : Barrier) : State :=
  match sc with
  | 1 => s.updWarp g.id w fun v => { v with bars := setNth v.bars n b }
  | 2 => s.updWg g.id fun g => { g with bars := setNth g.bars n b }
  | 3 => s.updLaunch g.launch fun l =>
      { l with gangs := mapIf (fun q => q.number = g.gang) (fun q => { q with bars := setNth q.bars n b }) l.gangs }
  | _ => s.updLaunch g.launch fun l => { l with bars := setNth l.bars n b }

/-- The arrivals a lane has made at a barrier. -/
def Lane.arrival (l : Lane) (sc n : Nat) : Arrival :=
  (l.arrivals.find? fun a => a.sc = sc && a.n = n).getD ⟨sc, n, 0, 0⟩

def Lane.setArrival (l : Lane) (a : Arrival) : Lane :=
  if l.arrivals.any fun b => b.sc = a.sc && b.n = a.n then
    { l with arrivals := mapIf (fun b => b.sc = a.sc && b.n = a.n) (fun _ => a) l.arrivals }
  else { l with arrivals := l.arrivals ++ [a] }

/-- Whether lanes have arrived for phase k: an EXITED lane counts as arrived (R254). -/
def arrivedFor (ls : List Lane) (sc n k : Nat) : Bool :=
  ls.all fun l => l.st = .exited || decide (k < (l.arrival sc n).made)

def Workgroup.lanes (g : Workgroup) : List Lane := g.warps.flatMap Warp.lanes

/-- Whether every lane of a workgroup is EXITED (R77). -/
def Workgroup.gone (g : Workgroup) : Bool := g.lanes.all fun l => l.st = .exited

/-- The members of a barrier that have arrived for phase k, and the number of its members (R253, R254): workgroups of
the launch that have ended count as arrived, those not admitted do not. -/
def State.barrierCount (s : State) (g : Workgroup) (w sc n k : Nat) : Nat × Nat :=
  match sc with
  | 1 =>
    let ls := ((g.warps[w]?).map Warp.lanes).getD []
    (ls.countP (fun l => arrivedFor [l] sc n k), ls.length)
  | 2 =>
    let ws := if n < 12 then g.warps else g.warps.filter fun v => v.role = n - 12
    (ws.countP (fun v => arrivedFor v.lanes sc n k), ws.length)
  | 3 =>
    let here := s.wgs.filter fun x => x.launch = g.launch && x.gang = g.gang && !x.kept
    let size := ((s.launch? g.launch).map fun l => l.header.gang).getD 0
    (here.countP (fun x => arrivedFor x.lanes sc n k) + (size - here.length), size)
  | _ =>
    let here := s.wgs.filter fun x => x.launch = g.launch && !x.kept
    match s.launch? g.launch with
    | none => (0, 0)
    | some l => (here.countP (fun x => arrivedFor x.lanes sc n k) + (l.nextWg - l.live), l.header.workgroups)

/-- The lanes that a barrier's phases reach: those of workgroups that are not saved (R391). -/
def State.barrierLanes (s : State) (g : Workgroup) (w sc n : Nat) : List LaneRef :=
  let refs (x : Workgroup) (i : Nat) : List LaneRef :=
    (List.range (((x.warps[i]?).map fun v => v.lanes.length).getD 0)).map fun p => ⟨x.id, i, p⟩
  let all (x : Workgroup) : List LaneRef := (List.range x.warps.length).flatMap (refs x)
  match sc with
  | 1 => refs g w
  | 2 => ((List.range g.warps.length).filter fun i => n < 12 || (g.warps[i]?).any fun v => v.role = n - 12).flatMap (refs g)
  | 3 => (s.wgs.filter fun x => x.launch = g.launch && x.gang = g.gang && x.resident).flatMap all
  | _ => (s.wgs.filter fun x => x.launch = g.launch && x.resident).flatMap all

/-- Whether every phase of a barrier that a lane arrived for is latched (R256). -/
def State.barrierOver (s : State) (sc n : Nat) (r : LaneRef) : Bool :=
  (s.lane? r).any fun l => (l.arrival sc n).made ≤ (l.arrival sc n).latched

/-- The waits at a barrier that are over, of some lanes. -/
def State.barrierEnds (s : State) (sc n : Nat) (rs : List LaneRef) : List WaitEnd :=
  ((rs.filter (s.barrierOver sc n)).flatMap s.waitsOf).filterMap fun w =>
    if w.2 = .barrier sc n then some w.1.done else none

/-- The phases of a barrier that are complete, one after another, while a lane is left, in a saved workgroup of its grid too; the end of
each is latched in the waiter slot of every lane that arrived for it, and waits for it end (R255, R256, R391). -/
def State.completePhases : Nat → State → Workgroup → Nat → Nat → Nat → State
  | 0, s, _, _, _, _ => s
  | fuel + 1, s, g, w, sc, n =>
    let g := (s.wg? g.id).getD g
    let b := s.barrier g w sc n
    let now := s.barrierCount g w sc n b.phase
    let next := s.barrierCount g w sc n (b.phase + 1)
    let lanes := s.barrierLanes g w sc n
    let away := decide (3 < sc) && s.wgs.any fun x => x.launch = g.launch && !x.resident && !x.kept && !x.gone
    let live := away || lanes.any fun r => (s.lane? r).any fun l => l.st != .exited
    let count (k : Nat) : Nat := if k % 2 = b.phase % 2 then now.1 else next.1
    if now.1 = now.2 && live then
      let s := s.setBarrier g w sc n
        { phase := b.phase + 1
          c0 := if b.phase % 2 = 0 then 0 else count 0
          c1 := if b.phase % 2 = 1 then 0 else count 1 }
      let s := s.updLanes lanes fun l =>
        let a := l.arrival sc n
        if b.phase < a.made && l.st != .exited then l.setArrival { a with latched := b.phase + 1 } else l
      State.completePhases fuel (s.satisfyAll (s.barrierEnds sc n lanes)) g w sc n
    else s.setBarrier g w sc n { b with c0 := count 0, c1 := count 1 }

/-- What a workgroup's lanes missed of their grid's barriers while it was saved reaches them (R391). -/
def State.catchUp (s : State) (g : Workgroup) : State :=
  (List.range 8).foldl (fun s n =>
    let phase := (s.barrier g 0 5 n).phase
    let s := s.updLanes g.refs fun l =>
      let a := l.arrival 5 n
      if a.latched < min a.made phase && l.st != .exited then l.setArrival { a with latched := min a.made phase } else l
    s.satisfyAll (s.barrierEnds 5 n g.refs)) s

/-- The barriers a workgroup's lanes can complete by exiting (R254). -/
def State.barriersOf (s : State) (g : Workgroup) (w : Nat) : State :=
  let touched := (g.lanes.flatMap fun l => l.arrivals.map fun a => (a.sc, a.n)).eraseDups
  let wide := (s.wgs.filter fun x => x.launch = g.launch && !x.kept).flatMap fun x =>
    x.lanes.flatMap fun l => (l.arrivals.filter fun a => 3 ≤ a.sc).map fun a => (a.sc, a.n)
  ((touched ++ wide).eraseDups).foldl (fun s b => State.completePhases 3 s g w b.1 b.2) s

/-! ### Joining (R86 to R89) -/

/-- The lanes of a warp WAITING at a JOIN PC and not HALTED, with their masks. -/
def Warp.joiners (v : Warp) (pc : Word) : List (Nat × Word) :=
  (v.lanes.zipIdx).filterMap fun e =>
    match e.1.st with
    | .waiting (.join m _) => if e.1.pc = pc && !e.1.halted then some (e.2, m) else none
    | _ => none

/-- The lanes a JOIN PC names (R87). -/
def Warp.named (v : Warp) (pc : Word) : List Nat :=
  let js := v.joiners pc
  let mask := js.foldl (fun m j => m ||| j.2) (0 : Word)
  (List.range v.lanes.length).filter fun p => mask.getLsbD p || js.any fun j => j.1 = p

/-- Whether a JOIN at a PC completes (R87). -/
def Warp.joinReady (v : Warp) (pc : Word) : Bool :=
  v.joiners pc != [] && (v.named pc).all fun p =>
    (v.joiners pc).any (fun j => j.1 = p) || (v.lanes[p]?).any fun l =>
      l.pass = some pc || (match l.st with | .exited | .parked _ _ _ => true | _ => false)

/-- A JOIN completes: waiting lanes go on and form groups by WBASE, each at the place of the earliest group its lanes came from;
parked named lanes receive a pass, holders of one give it up (R81, R87, R88, R489). -/
def Warp.completeJoin (v : Warp) (pc : Word) (fresh : Nat) : Warp :=
  let named := v.named pc
  let out := (v.joiners pc).map Prod.fst
  let lanes := v.lanes.zipIdx.map fun e =>
    let l := e.1
    if out.contains e.2 then { l with st := .issuing, pc := l.npc }
    else if !named.contains e.2 then l
    else match l.st with
    | .parked _ _ _ => { l with pass := some pc }
    | _ => if l.pass = some pc then { l with pass := none } else l
  let classes := (partitionBy (fun p => ((lanes[p]?).map Lane.wbase).getD 0) out).map Prod.snd
  let debtOf (ps : List Nat) : Nat :=
    (v.ring.filter fun q => q.lanes.any ps.contains).foldl (fun m q => max m q.debt) 0
  let joined := classes.zipIdx.map fun c =>
    ({ gid := fresh + c.2, lanes := c.1, hold := none, debt := debtOf c.1 } : Group)
  let place (j : Group) : Option Nat := (v.ring.find? fun q => q.lanes.any j.lanes.contains).map Group.gid
  let lost := joined.filter fun j => place j = none
  let w := Warp.remake (fun q =>
    let stay := q.lanes.filter fun p => !out.contains p
    (joined.filter fun j => place j = some q.gid) ++ if stay = [] then [] else [{ q with lanes := stay }]) { v with lanes := lanes }
  if lost = [] then w else Warp.settle { w with ring := w.ring ++ lost }

/-- Complete the JOINs of a warp that can complete. -/
def Warp.completeJoins : Nat → Warp → Nat → Warp
  | 0, v, _ => v
  | fuel + 1, v, fresh =>
    match (v.lanes.map Lane.pc).find? v.joinReady with
    | some pc => Warp.completeJoins fuel (v.completeJoin pc fresh) (fresh + 33)
    | none => v

/-- Whether every lane that is not EXITED or PARKED waits at a JOIN that cannot complete (R89). -/
def Warp.joinStuck (v : Warp) : Bool :=
  (v.lanes.any fun l => match l.st with | .waiting (.join _ _) => !l.halted | _ => false)
    && v.lanes.all fun l => match l.st with
      | .exited | .parked _ _ _ => true
      | .waiting (.join _ _) => !l.halted
      | _ => false

/-- The JOINs of a warp: those that can complete do; where none can and no lane is left, SYNC_JOIN (R87, R89). -/
def State.settleJoins (s : State) (wg w : Nat) : State :=
  let s := { s.updWarp wg w (fun v => v.completeJoins 32 (s.seq + 1)) with seq := s.seq + 1100 }
  match s.warp? wg w with
  | some v =>
    if v.joinStuck then
      let faults := v.lanes.zipIdx.filterMap fun e =>
        match e.1.st with
        | .waiting (.join _ reg) => some (⟨⟨wg, w, e.2⟩, .syncJoin, BitVec.ofNat 52 reg⟩ : LaneFault)
        | _ => none
      (s.updWarp wg w fun v => { v with lanes := v.lanes.map fun l =>
        match l.st with | .waiting (.join _ _) => { l with st := .issuing } | _ => l }).raise faults
    else s
  | none => s

/-! ### Leaving (R85, R320, R416) -/

/-- The fragments of a pixel lane's token are nulled: it ends without a POST (R416). -/
def State.nullFragment (s : State) (ctx : Nat) (p : Pixel) : State :=
  if p.helper || p.posted then s
  else s.updTarget ctx (p.target.toNat % 2 ^ 20) fun t =>
    let mine (f : Fragment) : Bool :=
      f.cmd = p.cmd && f.psn = p.psn && f.x = p.xy.toNat % 65536 && f.y = p.xy.toNat / 65536 && f.st = .opened
    { t with frags := mapIf mine (fun f => { f with st := .done }) t.frags }

/-- The in-flight loads of a lane are discarded; its other accesses still perform (R320). -/
def State.dropLoads (s : State) (r : LaneRef) : State :=
  let isLoad (a : Access) : Bool := match a.kind with | .load _ | .texel _ _ _ _ _ => true | _ => false
  let mine := s.pend.filter fun a => a.lane = r && isLoad a
  if mine = [] then s
  else
    let land (rows : List Row) : List Row :=
      mine.foldl (fun rows a => a.rows.foldl (fun rows id => rowLand rows id a.seq a.dst.pos none) rows) rows
    let s := s.setLaneRows r (land (s.laneRows r))
    { s with pend := s.pend.filter fun a => !(a.lane = r && isLoad a) }

/-- Remove a lane from the reformed group it runs in: an empty group frees its slot (R92, R93). -/
def State.leaveReformed (s : State) (r : LaneRef) : State :=
  match (s.lane? r).bind Lane.reformed, s.wg? r.wg with
  | some slot, some g =>
    let leave (q : Reformed) : Reformed :=
      let pos := (q.lanes.findIdx? fun o => o = some r).getD 32
      { q with
        lanes := q.lanes.map fun o => if o = some r then none else o
        groups := (q.groups.map fun x => { x with lanes := x.lanes.filter (· != pos) }).filter fun x => x.lanes != [] }
    let s := s.updCore g.core fun c =>
      { c with groups := (mapIf (fun q : Reformed => q.slot = slot) leave c.groups).filter fun q => q.groups != [] }
    (s.settleReformed g.core slot).updLane r fun l => { l with reformed := none }
  | _, _ => s

/-- A BINNED lane taken from its bin (R77, R91). -/
def State.leaveBin (s : State) (r : LaneRef) : State :=
  match s.wg? r.wg, (s.lane? r).map Lane.st with
  | some g, some .binned => s.unfile g.core r
  | _, _ => s

/-- A lane becomes EXITED (R77, R320). -/
def State.exitLane (s : State) (ctx : Nat) (r : LaneRef) : State :=
  let s := match (s.lane? r).bind Lane.pixel with
    | some p => s.nullFragment ctx p
    | none => s
  let s := ((s.dropLoads r).leaveReformed r).leaveBin r
  s.updLane r fun l => { l with st := .exited, halted := false, stack := [], spilled := 0, pass := none, carry := none }

/-- The helper lanes of a warp whose quads hold no other live lane (R85). -/
def Warp.idleHelpers (v : Warp) : List Nat :=
  (v.lanes.zipIdx).filterMap fun e =>
    let quad := (List.range 4).filterMap fun k => v.lanes[e.2 / 4 * 4 + k]?
    if e.1.helper && e.1.st != .exited && quad.all (fun l => l.helper || l.st = .exited) then some e.2 else none

/-- Lanes that left their issue groups are taken out of the ring (R81). -/
def Warp.tidy (v : Warp) : Warp :=
  let stays (p : Nat) : Bool := (v.lanes[p]?).any fun l => l.reformed.isNone && match l.st with
    | .exited | .parked _ _ _ | .binned => false
    | _ => true
  v.remake fun q => if q.lanes.any stays then [{ q with lanes := q.lanes.filter stays }] else []

/-- A workgroup whose lanes are all EXITED ends once what they issued has been performed, with all that waits for its end
(R77, R111, R292, R320, R492); the results of its waits that stood back for an earlier result are written (R147). -/
def State.endIfGone (s : State) (wg : Nat) : State :=
  match s.wg? wg with
  | some g =>
    if g.gone then (if !g.kept && !s.accessLeft wg then (s.endWorkgroup wg).settle else s) else s.landLate g.refs
  | none => s

/-- What follows once lanes of a warp have exited, parked or waited: helper lanes, barriers, JOINs, and the end of the
workgroup with all that waits for it (R77, R85, R87, R89, R254, R492). -/
def State.afterLanes (s : State) (wg w : Nat) : State :=
  match s.wg? wg, s.warp? wg w with
  | some g, some v =>
    let s := v.idleHelpers.foldl (fun s p => s.exitLane g.ctx ⟨wg, w, p⟩) s
    let s := s.updWarp wg w Warp.tidy
    let s := match s.wg? wg with | some g => s.barriersOf g w | none => s
    let s := s.settleJoins wg w
    (s.endIfGone wg).wakeSettled g.ctx
  | _, _ => s

/-- As `afterLanes`, for the warps of several lanes. -/
def State.afterAll (s : State) (rs : List LaneRef) : State :=
  ((rs.map fun r => (r.wg, r.warp)).eraseDups).foldl (fun s w => s.afterLanes w.1 w.2) s

/-! ### After RTE -/

/-- Groups of a warp that wait for a mapping change that has completed go on (R338). -/
def State.wakeChanges (s : State) (wg w : Nat) : State :=
  match s.warp? wg w with
  | none => s
  | some v => v.ring.foldl (fun s q =>
      match q.hold with
      | some (.change id) =>
        if s.changes.any fun c => c.id = id then s
        else s.endHold wg w q (((q.lanes.head?.bind fun p => v.lanes[p]?).map Lane.npc).getD 0) []
      | _ => s) s

/-- Lanes whose objects were destroyed while they were HALTED or saved, or whose accesses failed then, fault now that they go on; a
signer of a stopped MMG stays a signer (R50, R341, R362, R379). -/
def State.raiseLost (s : State) (refs : List LaneRef) : State :=
  let rs := refs.filter fun r => !(s.lane? r).any Lane.halted
  let lost := rs.filterMap fun r =>
    match (s.lane? r).map Lane.st with
    | some (.waiting (.lost h)) => some (⟨r, .objHandle, h.setWidth 52⟩ : LaneFault)
    | _ => none
  let owed := rs.filterMap fun r => ((s.lane? r).bind Lane.owed).map fun c => (⟨r, c.1, c.2⟩ : LaneFault)
  let s := (s.waitFaults lost).updLanes (owed.map LaneFault.lane) fun l => { l with owed := none }
  s.raiseApart owed

/-- Waits whose conditions came true during a halt end once it is over, those of one group together (R379, R491). -/
def State.afterHalt (s : State) (wg : Nat) : State :=
  match s.wg? wg with
  | none => s
  | some g =>
    let refs := g.refs.filter fun r => !(s.lane? r).any Lane.halted
    let s := s.satisfyAll (refs.filterMap fun r =>
      match (s.lane? r).map Lane.st with
      | some (.waiting (.barrier sc n)) => if s.barrierOver sc n r then some (Waiter.done ⟨r, 0⟩) else none
      | _ => s.landedEnd r)
    let s := (List.range g.warps.length).foldl (fun s w =>
      (List.range 8).foldl (fun s n => s.wakeWaitc wg w (56 + n)) ((s.settleJoins wg w).wakeChanges wg w)) s
    (s.wakeSettled g.ctx).raiseLost g.refs

/-- The end of a halt, by RTE or RESUME, with what it lets happen (R327, R384, R482). -/
def State.endTrap (s : State) (wg : Nat) : State := (s.returnFromTrap wg).afterHalt wg

/-! ### Parked lanes released (R122, R341, R362, R379) -/

/-- The convergence register whose stopped round a lane signed. -/
def State.signedOf (s : State) (r : LaneRef) : Option Nat :=
  (s.wg? r.wg).bind fun g => g.jregs.findIdx? fun c => c.stopped && c.signers.contains (r.warp, r.lane)

/-- A group added to a warp's ring, or, while its handler runs, to the ring that stood before it. The group that PARKR, or REFORM.HOME,
forms stands at the end of the ring: R81 places only the groups of a split and of a JOIN (DESIGN CHOICE, log 15). -/
def Warp.addOuter (v : Warp) (q : Group) : Warp :=
  if !v.privileged then Warp.settle { v with ring := v.ring ++ [q] }
  else if v.nest = [] then { v with ringSaved := v.ringSaved ++ [q] }
  else { v with nest := mapNth v.nest (v.nest.length - 1) fun n => { n with ring := n.ring ++ [q] } }

/-- Whether the warp of a lane has stopped in the halt of its workgroup: the trapping one at once, the others once the workgroup has
(R376, R377). -/
def State.stopped (s : State) (r : LaneRef) : Bool :=
  ((s.wg? r.wg).bind Workgroup.trap).any fun t => t.entered || t.warp = r.warp

/-- Lanes of one warp released together: one new issue group at their PC, HALTED where their warp has stopped; signers
of a stopped MMG wait on their round again (R122, R362, R379). -/
def State.unpark (s : State) (rs : List LaneRef) : State :=
  match rs with
  | [] => s
  | r0 :: _ =>
    let trapped := s.stopped r0
    let st (r : LaneRef) (l : Lane) : LaneState :=
      match l.st with
      | .parked _ _ true => match s.signedOf r with | some j => .waiting (.signed j) | none => .issuing
      | _ => .issuing
    let free (r : LaneRef) (l : Lane) : Lane := { l with st := st r l, halted := trapped, trappc := if trapped then l.pc else l.trappc }
    let t := rs.foldl (fun t r => t.updLane r (free r)) s
    let q : Group := { gid := s.seq, lanes := rs.map LaneRef.lane, hold := none, debt := 0 }
    let t := t.updWarp r0.wg r0.warp fun v =>
      v.addOuter q
    { t with seq := t.seq + 1 }

end Sys2Proof.Machine
end

