-- ==== Sys2Proof/Machine/Access.lean ====
section
/-! DEFINITION. Memory accesses: the checks of R229, accesses in flight, the order in which they may perform, and their
performing (R118, R128, R145, R230 to R244, R283 to R290, log 8). -/

namespace Sys2Proof.Machine

/-! ### Checks (R118, R229) -/

/-- What the checks of an access find. -/
inductive Chk where
  | ok (phys : Nat)
  | fault (c : Cause)
  | absent
  | wait
  deriving DecidableEq, Repr

def Tr.chk : Tr → Chk
  | .ok p _ => .ok p
  | .wait => .wait
  | .absent => .absent
  | .perm => .fault .pagePerm

/-- The checks of R229 up to the poison of the line, with the translation given. -/
def State.checkWith (s : State) (tr : Nat → Tr) (ctx ea size : Nat) : Chk :=
  match region ea with
  | .noncanon => .fault .addrNoncanon
  | .hatch _ => .fault .addrHatch
  | r =>
    if ea % size != 0 then .fault .addrAlign
    else match r with
    | .aperture v off => if s.holdsVault ctx v off size then .ok (vaultPhys v off) else .fault .addrRange
    | .paged => (tr ea).chk
    | _ => .fault .addrRange

/-- The checks of an access of a core, translated through its caches (R119). -/
def State.check (s : State) (core ctx : Nat) (n : Need) (ea size : Nat) : Chk :=
  s.checkWith (s.translate core ctx n) ctx ea size

/-- A check of `n` bytes at an address for a need: of an instruction on its core, or by the tables alone. -/
abbrev Checker := Need → Nat → Nat → Chk

/-- As `check`, by the tables alone: for what the device reads outside any instruction of a core (log 8). -/
def State.checkTables (s : State) (ctx : Nat) (n : Need) (ea size : Nat) : Chk :=
  s.checkWith (s.lookup ctx n) ctx ea size

/-- A read that reaches a poisoned line faults (R229). -/
def State.poisonChk (s : State) (reads : Bool) : Chk → Chk
  | .ok p => if reads && s.poisoned p then .fault (eccCause p) else .ok p
  | c => c

/-! ### Order (R232, R283 to R290) -/

/-- The ranges of bytes an access touches. -/
def Access.ranges (a : Access) : List (Nat × Nat) :=
  match a.kind with
  | .texel _ _ _ _ addrs => (addrs.filter (· != 0)).map fun p => (p - 1, a.size)
  | _ => [(a.phys, a.size)]

def Access.overlaps (a b : Access) : Bool :=
  a.ranges.any fun r => b.ranges.any fun q => decide (r.1 < q.1 + q.2) && decide (q.1 < r.1 + r.2)

def AccessKind.reads : AccessKind → Bool
  | .store _ | .red _ _ _ => false
  | _ => true

def AccessKind.writes : AccessKind → Bool
  | .load _ | .texel _ _ _ _ _ => false
  | _ => true

/-- Whether an access must perform before another of the same lane or issue (R231, R232, R284). -/
def Access.precedes (b a : Access) : Bool :=
  decide (b.seq < a.seq) &&
    ((b.lane = a.lane && (b.acq || a.rel || b.overlaps a))
      || (b.issue = a.issue && b.overlaps a && (b.kind.writes || a.kind.writes)))

/-- Whether a queued reduction must reach memory before an access: it is of the same lane, and the access is a release
or touches its bytes. -/
def Queued.precedes (q : Queued) (a : Access) : Bool :=
  q.lane = a.lane && (a.rel || a.ranges.any fun r => decide (q.phys < r.1 + r.2) && decide (r.1 < q.phys + elemBits q.ty / 8))

/-- Whether an access may perform now. -/
def State.mayPerform (s : State) (a : Access) : Bool :=
  !(s.pend.any fun b => b.precedes a) && !(s.queue.any fun q => q.precedes a)

/-- Whether every earlier access of a lane has performed; of reads alone where only those are asked for. -/
def State.quiet (s : State) (r : LaneRef) (readsOnly : Bool) : Bool :=
  !(s.pend.any fun a => a.lane = r && (!readsOnly || a.kind.reads)) && (readsOnly || !(s.queue.any fun q => q.lane = r))

/-! ### Performing -/

/-- The words a load of some bytes gives (R230). -/
def loadWords (size : Nat) (signed : Bool) (n : Nat) : List Word :=
  match size with
  | 1 => [if signed then (BitVec.ofNat 8 n).signExtend 32 else wordOf n]
  | 2 => [if signed then (BitVec.ofNat 16 n).signExtend 32 else wordOf n]
  | 8 => [wordOf n, wordOf (n / 2 ^ 32)]
  | _ => [wordOf n]

/-- A result that lands: in its rows, in the latches that await it, and in the carried values of a lane that has left
its reformed group since (R139, R145, R379). -/
def State.landResult (s : State) (a : Access) (words : List Word) : State :=
  let land (rows : List Row) : List Row :=
    (a.rows.zip words).foldl (fun rows p => rowLand rows p.1 a.seq a.dst.pos (some p.2)) rows
  let s := match a.reformed with
    | some (core, slot) => s.updCore core fun c =>
        { c with groups := mapIf (fun q => q.slot = slot) (fun q => { q with rows := land q.rows }) c.groups }
    | none => s.updWarp a.lane.wg a.lane.warp fun v => { v with rows := land v.rows }
  let carry (l : Lane) : Lane :=
    let put (c : List (Nat × Word)) : List (Nat × Word) :=
      (a.dst.regs.zip words).foldl (fun c p => mapIf (fun e => e.1 = p.1) (fun e => (e.1, p.2)) c) c
    { l with carry := l.carry.map put }
  let s := if a.dst.nwb then s else s.updLane a.lane carry
  { s with pipes := s.pipes.map fun p => { p with latches := fillLatches a.seq words p.latches } }

/-- Channels of a texel as F32 values, from its bytes (R251, R252): elements of F16, or the F32 value itself, a NaN
canonical. -/
def texelF32 (fmt n : Nat) : List Nat :=
  match fmt with
  | 1 => (List.range 4).map fun k => (fpConvert fmtF16 fmtF32 .rne (n / 2 ^ (16 * k) % 65536)).bits
  | _ => [(fpConvert fmtF32 fmtF32 .rne (n % 2 ^ 32)).bits, 0, 0, 0x3F800000]

/-- One weighted step of R251: t × w/256 + acc, rounded once. -/
def texStep (t w acc : Nat) : Nat := (fpFma fmtF32 .rne t (roundRat fmtF32 .rne false w 256).bits acc).bits

/-- The words of a TEX or TLD, from the texels read at (i0, j0), (i1, j0), (i0, j1), (i1, j1) (R251, R252). -/
def texWords (fmt : Nat) (linear : Bool) (fx fy : Nat) (ts : List Nat) : List Word :=
  let t (i : Nat) : Nat := ts.getD i 0
  if fmt = 0 then
    (List.range 4).map fun k =>
      let c (i : Nat) : Nat := t i / 256 ^ k % 256
      let sum := if linear then
          (256 - fx) * (256 - fy) * c 0 + fx * (256 - fy) * c 1 + (256 - fx) * fy * c 2 + fx * fy * c 3
        else c 0
      if sum = 0 then 0 else wordOf (roundRat fmtF32 .rne false sum (if linear then 16711680 else 255)).bits
  else
    (List.range 4).map fun k =>
      let c (i : Nat) : Nat := (texelF32 fmt (t i)).getD k 0
      if !linear then wordOf (c 0)
      else
        let start := 0x80000000
        let row0 := texStep (c 0) (256 - fx) start
        let row0 := if fx != 0 then texStep (c 1) fx row0 else row0
        let row1 := texStep (c 2) (256 - fx) start
        let row1 := if fx != 0 then texStep (c 3) fx row1 else row1
        let out := texStep row0 (256 - fy) start
        wordOf (if fy != 0 then texStep row1 fy out else out)

/-- SWARM's operation on its 16 bytes (R265). -/
def swarmBytes (t : Word) (gen : Nat) : List Byte :=
  leBytes 4 t.toNat ++ leBytes 4 0 ++ leBytes 4 gen ++ leBytes 4 (if t = 0 then 0 else 1)

/-- An access performs: a read takes the bytes memory holds now, a write stores them, a reduction enters the write queue
of its line (R128, R242, R265). -/
def State.perform (s : State) (a : Access) : State :=
  let s := { s with pend := s.pend.filter fun b => b.seq != a.seq }
  let old := Memory.le s.mem a.phys a.size
  match a.kind with
  | .load signed => s.landResult a (loadWords a.size signed old)
  | .texel fmt linear fx fy addrs =>
    s.landResult a (texWords fmt linear fx fy (addrs.map fun p => if p = 0 then 0 else Memory.le s.mem (p - 1) a.size))
  | .atom ty op v =>
    let new := atomOp ty op (dwordOf old) v
    (s.storeBytes a.phys (leBytes a.size new.toNat)).landResult a (valWords (if a.size = 8 then 2 else 1) (dwordOf old))
  | .cas cmp new =>
    let out := if dwordOf old = cmp then new.toNat else old
    (s.storeBytes a.phys (leBytes a.size out)).landResult a (valWords (if a.size = 8 then 2 else 1) (dwordOf old))
  | .store v => s.storeBytes a.phys v
  | .red ty op v =>
    { s with queue := s.queue ++ [{ lane := a.lane, line := a.phys / 64, phys := a.phys, ty := ty, op := op, v := v }] }
  | .sync t =>
    let gen := Memory.le s.mem (a.phys + 8) 4
    (s.storeBytes a.phys (swarmBytes t gen)).landResult a [wordOf gen]

/-- A queued reduction applied to memory: discarded where its line is poisoned (R242, R244). -/
def State.applyQueued (s : State) (q : Queued) : State :=
  if s.poisoned q.phys then s
  else
    let n := elemBits q.ty / 8
    s.storeBytes q.phys (leBytes n (atomOp q.ty q.op (dwordOf (Memory.le s.mem q.phys n)) q.v).toNat)

/-- The reductions queued for a line applied in arrival order (R128, R243). -/
def State.applyLine (s : State) (line : Nat) : State :=
  let mine := s.queue.filter fun q => q.line = line
  mine.foldl State.applyQueued { s with queue := s.queue.filter fun q => q.line != line }

/-- Whether two lanes may share an issue: lanes of one home warp, or of one reformed group's core. -/
def State.together (s : State) (a b : LaneRef) : Bool :=
  (a.wg = b.wg && a.warp = b.warp)
    || (((s.lane? a).bind Lane.reformed).isSome && ((s.lane? a).bind Lane.reformed) = ((s.lane? b).bind Lane.reformed))

/-- The accesses in flight that satisfy a test, with all that must perform before them, oldest first (R231, R232). -/
def State.accessesBefore (s : State) (mine : Access → Bool) : List Access :=
  s.pend.foldr (fun a later => if mine a || later.any a.precedes then a :: later else later) []

/-- An access performs, after the queued reductions that precede it. -/
def State.performNow (s : State) (a : Access) : State :=
  ((((s.queue.filter fun q => q.precedes a).map Queued.line).eraseDups).foldl State.applyLine s).perform a

/-- The workgroups that have nothing left to do end (R77, R111). -/
def State.endAllGone (s : State) : State := (s.wgs.map Workgroup.id).foldl State.endIfGone s

/-- The accesses that satisfy a test perform, in the order in which they may (R231, R232, R284). -/
def State.performAll (s : State) (mine : Access → Bool) : State := (s.accessesBefore mine).foldl State.performNow s

/-- The accesses of the lanes that may share an issue with a lane perform, with what must perform before them, and their
reductions are applied: what precedes a read an instruction makes at once (R283, R284, log 8). -/
def State.drain (s : State) (r : LaneRef) : State :=
  let t := s.performAll fun a => s.together r a.lane
  let lines := ((t.queue.filter fun q => s.together r q.lane).map Queued.line).eraseDups
  if s.accessesBefore (fun a => s.together r a.lane) = [] && lines = [] then s else (lines.foldl State.applyLine t).endAllGone

/-- A line becomes poisoned: reads of it that are in flight take place before that, with what must precede them (R45, R229,
log 8). -/
def State.poisonLine (s : State) (line : Nat) : State :=
  let hit (a : Access) : Bool := a.kind.reads && a.ranges.any fun r => r.1 < 64 * line + 64 && 64 * line < r.1 + r.2
  (if s.pend.any hit then (s.performAll hit).endAllGone else s).addPoison line

/-- Whether a read of a lane must wait before its line is looked at: an acquire of the lane is in flight, or a write of it to
a poisoned line, which may clear the poison (R46, R229, R231). -/
def State.readHeld (s : State) (r : LaneRef) : Bool :=
  s.pend.any fun b => b.lane = r && (b.acq || (b.kind.writes && s.poisonedRange b.phys b.size))

/-! ### Issuing accesses -/

/-- What a lane asks of memory: its access, or a fault, a park, a wait, or the values a helper lane takes at once. -/
inductive Ask where
  | access (kind : AccessKind) (phys size : Nat)
  | fault (c : Cause) (detail : BitVec 52)
  | park (ea : Nat)
  | wait (ea : Nat)
  | value (words : List Word)
  | nothing
  deriving DecidableEq, Repr

/-- Whether a request reads memory, or was turned away by poison (R229). -/
def Ask.reads : Ask → Bool
  | .access k _ _ => k.reads
  | .fault c _ => c = .eccHbm || c = .eccVault
  | _ => false

/-- The request of a checked access: a helper lane's failing read gives 0 (R85, R232). -/
def Chk.ask (helper : Bool) (words : Nat) (ea : Nat) (k : Nat → Ask) : Chk → Ask
  | .ok p => k p
  | .fault c => if helper then .value (List.replicate words 0) else .fault c (eaDetail ea)
  | .absent => if helper then .value (List.replicate words 0) else .park ea
  | .wait => .wait ea

/-- Lanes that found no mapping park; where no record is free they stay to try again (R121). In privileged mode that is
fatal (R383). -/
def State.parkLanes (s : State) (x : Iss) (ps : List (LaneRef × Nat)) : State :=
  if x.priv && ps != [] then
    s.killContext x.ctx .pageAbsent (ps.head?.map fun p => ⟨p.1, .pageAbsent, eaDetail p.2⟩)
  else ps.foldl (fun s p => (s.park x.ctx x.core p.2 [p.1] false).getD s) s

/-- Lanes that should have parked and found no record wait to try again (R106, R121). -/
def State.holdUnparked (s : State) (x : Iss) (rs : List LaneRef) : State :=
  s.holdLanes x.g (rs.filter fun r => (s.lane? r).any Lane.issuing) .translation

/-- The accesses of an issue, numbered from the state's counter, in ascending position. -/
def accessesOf (s : State) (x : Iss) (acq rel : Bool) (nwb : Bool) (regs ids : List Nat) (as : List (Act × Ask)) : List Access :=
  let real := as.filterMap fun p => match p.2 with | .access k a n => some (p.1, k, a, n) | _ => none
  real.zipIdx.map fun e =>
    { seq := s.seq + 1 + e.2, issue := s.seq, ctx := x.ctx, lane := e.1.1.m.ref, kind := e.1.2.1, phys := e.1.2.2.1
      size := e.1.2.2.2, acq := acq, rel := rel
      dst := { regs := regs, pos := e.1.1.m.pos, nwb := nwb, pred := none }, rows := ids
      reformed := match x.g with | .reformed core slot _ => some (core, slot) | .home _ _ _ => none }

def awaitRows (rows : List Row) (ids : List Nat) (seqs : List Nat) : List Row :=
  mapIf (fun r : Row => ids.contains r.id) (fun r => { r with await := r.await ++ seqs }) rows

/-- The end of an issue whose lanes fault, park or go on: parked lanes stay at the instruction (R121, R232, R376). -/
def State.endMem (s : State) (x : Iss) (f : Form) (faults : List LaneFault) (parks : List (LaneRef × Nat)) : State :=
  let s := s.setHold x.g none
  let stays (r : LaneRef) : Bool := faults.any (fun q => q.lane = r) || parks.any fun p => p.1 = r
  let s := s.moveLanes ((x.members.map Member.ref).filter fun r => !stays r) (nextPc f x.pc)
  let s := (s.parkLanes x parks).raise faults
  if parks = [] then s
  else ((s.regroup x.g ⟨.none, 0⟩).holdUnparked x (parks.map Prod.fst)).afterAll (parks.map Prod.fst)

/-- The common end of the memory instructions: the requests of the active lanes issued, with the destination awaiting
their results (R145 to R148, R229, R232). A helper lane that finds no row takes no REG_LIVEMAX (R85, R232); its register, unmapped,
reads 0. -/
def State.issueMem (s : State) (x : Iss) (f : Form) (g : Sig) (act : List Act) (acq rel : Bool) (ask : Act → Ask) : State :=
  let as := act.map fun a => (a, ask a)
  let waits := as.filterMap fun p => match p.2 with | .wait ea => some ea | _ => none
  if as.any fun p => p.2.reads && s.readHeld p.1.m.ref then s.stall x .memoryData
  else if waits != [] then (waits.foldl (fun s ea => s.startWalk x.core x.ctx ea) s).stall x .translation
  else
    let faults := as.filterMap fun p => match p.2 with | .fault c d => some (⟨p.1.m.ref, c, d⟩ : LaneFault) | _ => none
    let parks := as.filterMap fun p => match p.2 with | .park ea => some (p.1.m.ref, ea) | _ => none
    let regs := dstRegs f g x.wbase
    let dest := f.d.cls = .vector
    let done := as.filterMap fun p => match p.2 with
      | .access _ _ _ => some p.1 | .value _ => some p.1 | _ => none
    let rows := if faults = [] && parks = [] then releaseLu f g x.wbase (s.rowsOf x) else s.rowsOf x
    let idle := dest && !f.nwb && decide (act.length < x.members.length) && regs.any (rowBusy rows)
    match prepDest (s.mapLimit x) rows regs (dest && !f.nwb && done != []) (decide (done.length = 32)) with
    | .inl .full =>
      let seen := done.filter fun a => !a.lane.helper
      s.endMem x f (inOrder x (faults ++ seen.map fun a => ⟨a.m.ref, .regLivemax, BitVec.ofNat 52 (regs.headD 0)⟩)) parks
    | .inl _ => s.stall x .memoryData
    | .inr (rows, ids) =>
      if idle then s.stall x .memoryData
      else
        let acc := accessesOf s x acq rel f.nwb regs ids as
        let vals := as.filterMap fun p => match p.2 with | .value ws => some (p.1.m.pos, ws) | _ => none
        let rows := writeResults (awaitRows rows ids (if dest then acc.map Access.seq else [])) ids vals
        let res := (acc.map fun a => (a.dst.pos, (List.range regs.length).map (Latch.awaiting a.seq)))
          ++ vals.map fun v => (v.1, v.2.map Latch.full)
        let s := { s.setRows x rows with pend := s.pend ++ acc, seq := s.seq + 1 + acc.length }
        let s := if dest then s.shiftPipe x regs.length (fun k pos => latchEntry x act f.nwb rows regs res k pos) else s
        s.endMem x f faults parks

end Sys2Proof.Machine
end

