-- ==== Sys2Proof/Machine/Method.lean ====
section
/-! DEFINITION. Method invocations on a BMU or a method core (R419 to R423, R439 to R441): the common course of their
instructions, and the window, argument and ending instructions. -/

namespace Sys2Proof.Machine

/-- The limits under which a method's words decode (R420). -/
def methodLimits : Limits :=
  { tiles := 0, accs := 0, jregs := 0, priv := false, method := true, wbase := 0, pcLast := false }

/-- An invocation ended by a fault (R441). -/
def Invocation.fail (v : Invocation) (c : Cause) : Invocation := { v with ended := some (2, c.code.setWidth 32) }

def Invocation.reg (v : Invocation) (n : Nat) : Word := v.regs.getD n 0

def Invocation.pred (v : Invocation) (n : Nat) : Bool := if n = 7 then true else v.preds.getLsbD n

/-- The words of a vector source: none where a latch it names is empty (R140). -/
def Invocation.words (v : Invocation) (f : Form) (s : Slot) (o : Opnd) : Option (List Word) :=
  match latchNum f s with
  | some n =>
    let get (k : Nat) : Option Word := match v.latches.getD k .empty with | .full w => some w | _ => none
    if o.width f.ty = 2 then
      match get n, get (n - 1) with
      | some lo, some hi => some [lo, hi]
      | _, _ => none
    else (get n).map fun w => [w]
  | none => some ((slotRegs f 0 s o).map v.reg)

def Invocation.slot (v : Invocation) (f : Form) (s : Slot) (o : Opnd) : Option DWord :=
  match s.cls with
  | .vector => (v.words f s o).map joinWords
  | .immediate => some (immVal f s o)
  | _ => some 0

def Invocation.slotPred (v : Invocation) (f : Form) (s : Slot) : Bool :=
  if s.cls = .predicate then v.pred (slotNum f s) else true

/-- The operands of an instruction: none where a latch is empty. -/
def Invocation.args? (v : Invocation) (f : Form) (g : Sig) : Option Args :=
  match v.slot f f.a g.a, v.slot f f.b g.b, v.slot f f.c g.c with
  | some a, some b, some c =>
    some { a := a, b := b, c := c, pa := v.slotPred f f.a, pb := v.slotPred f f.b, pc := v.slotPred f f.c }
  | _, _, _ => none

def Invocation.guard (v : Invocation) (f : Form) : Bool := v.pred f.pg.toNat != f.pgn

/-- The registers LU releases read 0 afterwards (R148, log 15). -/
def Invocation.release (v : Invocation) (f : Form) (g : Sig) : Invocation :=
  let regs (s : Slot) (o : Opnd) : List Nat := if s.lu then slotRegs f 0 s o else []
  { v with regs := (regs f.a g.a ++ regs f.b g.b ++ regs f.c g.c).foldl (fun l n => setNth l n 0) v.regs }

/-- A result written to the registers of slot D (not under NWB), to the latches, or to a predicate (R138 to R141). -/
def Invocation.write (v : Invocation) (f : Form) (g : Sig) (val : Option DWord) : Invocation :=
  if f.d.cls = .predicate then
    match val with
    | none => v
    | some x =>
      let n := slotNum f f.d
      if n = 7 then v
      else { v with preds := if x.getLsbD 0 then v.preds ||| (1#7 <<< n) else v.preds &&& ~~~(1#7 <<< n) }
  else
    let regs := dstRegs f g 0
    let words := match val with | some x => valWords (g.d.width f.ty) x | none => []
    let entry (k : Nat) : Latch :=
      match words[k]? with
      | some w => .full w
      | none => if f.nwb then .empty else .full (v.reg (regs.getD k 0))
    { v with
      latches := (List.range regs.length).foldl (fun l k => entry k :: l.take 7) v.latches
      regs := if f.nwb then v.regs else (regs.zip words).foldl (fun l p => setNth l p.1 p.2) v.regs }

/-- The invocation at its next word. -/
def Invocation.advance (v : Invocation) (f : Form) : Invocation := { v with pc := nextPc f v.pc }

/-- The course of a method's instruction: decode faults in the order of R420, the guard, empty latches, LU; then what
the instruction does with its operands. -/
def Invocation.run (v : Invocation) (i : Instr) (f : Form) (act : Sig → Args → Invocation → Invocation) : Invocation :=
  match decodeFault i f methodLimits with
  | some c => v.fail c
  | none =>
    let g := sigOf i f
    if v.guard f then
      match v.args? f g with
      | none => v.fail .regLatch
      | some x => act g x (v.release f g)
    else ((v.release f g).write f g none).advance f

/-- An instruction that computes one value: it raises no flag and no arithmetic fault (R62). -/
def Invocation.alu (v : Invocation) (i : Instr) (f : Form) (val : Nat → Args → Val) : Invocation :=
  v.run i f fun g x u => (u.write f g (some (val 0 x).v)).advance f

/-- An instruction of own-lane operands, in a lane or in a method. -/
def aluExec (i : Instr) (f : Form) (val : Nat → Args → Val) (s : State) : Host.Outcome State Fault Refusal :=
  match s.cur with
  | .method v => .next { s with cur := .method (v.alu i f val) }
  | _ => aluStep i f val s

/-- An instruction that only a method executes: in a lane it faults with OBJ_METHOD, at the decode (R421). -/
def methodExec (i : Instr) (f : Form) (act : Sig → Args → Invocation → Invocation) (s : State) :
    Host.Outcome State Fault Refusal :=
  match s.cur with
  | .method v => .next { s with cur := .method (v.run i f act) }
  | _ =>
    match front i f false s with
    | .over o => o
    | .go x _ _ _ => .next (s.endIssue x f [])

/-- The window's word at an offset, or its fault (R422, R440): bytes the invocation has written read as written. -/
def Invocation.load (v : Invocation) (o : Nat) : Word ⊕ Cause :=
  if o % 4 != 0 then .inr .addrAlign
  else
    let written := (v.writes.find? fun w => w.1 = o).map Prod.snd
    if v.kind = 1 then
      if o < 0x100 then .inl (wordOf (leNat ((List.range 4).map fun i => v.consts.getD (o + i) 0)))
      else
        let k := (o - 0x100) / 4
        if k / 4 < v.samples && k % 4 < v.fmts.length then .inl (written.getD (Cells.read v.pix k)) else .inr .addrRange
    else if v.statelen ≤ o then .inr .addrRange
    else .inl (written.getD (wordOf (leNat ((List.range 4).map fun i => Cells.read v.window (o + i)))))

/-- The fault of an SST at an offset, if any (R422, R440). -/
def Invocation.storeFault (v : Invocation) (o : Nat) : Option Cause :=
  if o % 4 != 0 then some .addrAlign
  else if v.kind = 1 then
    if o < 0x100 then some .objRo
    else
      let k := (o - 0x100) / 4
      if k / 4 < v.samples && k % 4 < v.fmts.length then none else some .addrRange
  else if v.statelen ≤ o then some .addrRange
  else if v.read then some .objRo
  else none

/-- SLD (R422, R440). -/
def execSld (f : Form) (s : State) : Host.Outcome State Fault Refusal :=
  methodExec (.sld f) f (fun g x v =>
    match v.load (x.a.toNat % 2 ^ 32) with
    | .inl w => (v.write f g (some (w.setWidth 64))).advance f
    | .inr c => v.fail c) s

/-- SST (R422, R440): the write is buffered. -/
def execSst (f : Form) (s : State) : Host.Outcome State Fault Refusal :=
  methodExec (.sst f) f (fun _ x v =>
    let o := x.a.toNat % 2 ^ 32
    match v.storeFault o with
    | none => ({ v with writes := (o, x.b.extractLsb' 0 32) :: v.writes }).advance f
    | some c => v.fail c) s

/-- MARG (R423, R440). -/
def execMarg (f : Form) (s : State) : Host.Outcome State Fault Refusal :=
  methodExec (.marg f) f (fun g x v => (v.write f g (some ((v.args.getD x.a.toNat 0).setWidth 64))).advance f) s

/-- MRET (R441): a slot A of CLS 0 gives return word 0. -/
def execMret (f : Form) (s : State) : Host.Outcome State Fault Refusal :=
  methodExec (.mret f) f (fun _ x v => { v with ended := some (0, x.a.extractLsb' 0 32) }) s

/-- MTRAP (R418, R441). -/
def execMtrap (f : Form) (s : State) : Host.Outcome State Fault Refusal :=
  methodExec (.mtrap f) f (fun _ x v => { v with ended := some (1, x.a.extractLsb' 0 32) }) s

/-! ### Fetch and decode in a method (R419, R420) -/

/-- The fixed entries whose MOPs lie in the method subset (R419). -/
def methodFixed (dix : Nat) : Bool := dix = 0x000 || dix = 0x001 || dix = 0x006 || dix = 0x00A

/-- The next instruction of an invocation, or the cause that ends it, in the order of R420. -/
def Invocation.fetch (v : Invocation) : Except Cause Instr :=
  if 65536 ≤ v.count then .error .objMethod
  else
    let p := v.pc.toNat
    let len := v.method.code.length
    if p % 4 != 0 || 4 * len ≤ p then .error .objMethod
    else
      let w := v.method.code.getD (p / 4) 0
      let dix := (wordDix w).toNat
      let entry (n : Nat) : Template := ((v.method.dict.find? fun e => e.1 = n).map Prod.snd).getD undefinedTemplate
      if takesLiteral w entry && decide (4 * len ≤ p + 4) then .error .objMethod
      else if dix < 0x040 && !methodFixed dix then .error .objMethod
      else match decode w entry (v.method.code.getD (p / 4 + 1) 0) with
      | .ok i => .ok i
      | .error .reserved => .error .objMethod
      | .error .undefined => .error .dictUndef

/-- An invocation at its start (R420): `regs` and predicates zero, latches empty. -/
def Invocation.start (kind samples : Nat) (fmts : List Nat) (consts : List Byte) (read : Bool) (m : Method)
    (window : Cells 8) (pix : Cells 32) (statelen : Nat) (args : List Word) : Invocation :=
  { kind := kind, samples := samples, fmts := fmts, consts := consts, read := read, method := m, window := window
    pix := pix, statelen := statelen, args := args, pc := 0, regs := List.replicate 64 0, preds := 0
    latches := List.replicate 8 .empty, writes := [], count := 0, ended := none }

end Sys2Proof.Machine
end

