-- ==== Sys2Proof/Machine/Control.lean ====
section
/-! DEFINITION. Branches, calls, joining, reforming, leaving, votes, windows, traps, waits and special registers (R305 to
R333, R90, R93, R163, R164). -/

namespace Sys2Proof.Machine

/-! ### The course of per-lane control instructions (R306, R307) -/

/-- What such an instruction does in one lane. -/
inductive Done where
  | ok
  | fault (c : Cause) (detail : BitVec 52)
  | park (ea : Nat)
  deriving DecidableEq, Repr

/-- The lanes that faulted and parked so far. -/
structure Tally where
  faults : List LaneFault
  parks  : List (LaneRef × Nat)

/-- The active lanes in ascending position, each with its own operands (R79). -/
def eachLane (x : Iss) (e : Env) (f : Form) (g : Sig) (k : Act → Args → State → State × Done) :
    List Act → State → Tally → State × Tally
  | [], s, t => (s, t)
  | a :: rest, s, t =>
    match e.args f g x.wbase a.m.pos a.lane with
    | none => eachLane x e f g k rest s { t with faults := t.faults ++ [e.lackFault f g a] }
    | some args =>
      match k a args s with
      | (s', .ok) => eachLane x e f g k rest s' t
      | (s', .fault c d) => eachLane x e f g k rest s' { t with faults := t.faults ++ [⟨a.m.ref, c, d⟩] }
      | (s', .park ea) => eachLane x e f g k rest s' { t with parks := t.parks ++ [(a.m.ref, ea)] }

/-- A per-lane control instruction: `k` moves its lane; `wait` names an address whose translation a lane lacks; a lane
whose guard is false goes on. -/
def State.laneBody (s : State) (x : Iss) (e : Env) (f : Form) (g : Sig) (act : List Act) (hint : Hint)
    (wait : Act → Args → State → Option Nat) (k : Act → Args → State → State × Done) : State × Tally :=
  let misses := act.filterMap fun a => (e.args f g x.wbase a.m.pos a.lane).bind fun args => wait a args s
  if misses != [] then ((misses.foldl (fun s ea => s.startWalk x.core x.ctx ea) s).stall x .translation, ⟨[], []⟩)
  else
    let idle := (x.members.map Member.ref).filter fun r => !act.any fun a => a.m.ref = r
    let s := (s.setHold x.g none).moveLanes idle (nextPc f x.pc)
    let (s, t) := eachLane x e f g k act s ⟨[], []⟩
    let s := if t.faults = [] && t.parks = [] then s.setRows x (releaseLu f g x.wbase (s.rowsOf x)) else s
    let s := ((s.parkLanes x t.parks).regroup x.g ⟨hint, nextPc f x.pc⟩).holdUnparked x (t.parks.map Prod.fst)
    (s, t)

/-- The faults of such an instruction raised, and what parks and exits let happen. -/
def State.laneEnd (p : State × Tally) (left : List LaneRef) : State :=
  (p.1.raise p.2.faults).afterAll (left ++ p.2.parks.map Prod.fst)

def noWait (_ : Act) (_ : Args) (_ : State) : Option Nat := none

/-- A per-lane control instruction that translates nothing. -/
def laneStep (i : Instr) (f : Form) (forbidden : Bool) (hint : Hint) (k : Iss → Act → Args → State → State × Done) (s : State) :
    Host.Outcome State Fault Refusal :=
  match front i f forbidden s with
  | .over o => o
  | .go x e g act => .next (State.laneEnd (s.laneBody x e f g act hint noWait (k x)) [])

/-- A once-per-issue fault. -/
def State.onceFault (s : State) (x : Iss) (f : Form) (act : List Act) (c : Cause) (d : BitVec 52) : State :=
  s.endIssue x f (faultAll act c d)

/-- A once-per-issue instruction: it acts when a guard is true, and its faults are raised in every lane whose guard is
true, CTL_BIN for a register that some of them do not carry included (R92, R306); `idle` ends it when none is. -/
def onceStep (i : Instr) (f : Form) (forbidden : Bool) (k : Iss → Env → Sig → List Act → State → State) (s : State)
    (idle : Iss → Sig → State → State := fun x g s => s.endIdle x f g) : Host.Outcome State Fault Refusal :=
  match front i f forbidden s with
  | .over o => o
  | .go x e g act =>
    .next (if act = [] then idle x g s
      else match e.outside with
        | o :: _ => s.onceFault x f act .ctlBin (BitVec.ofNat 52 o.2)
        | [] => k x e g act s)

/-- A source read once per issue: a vector source from the lowest lane whose guard is true (R333). -/
def Env.once (e : Env) (x : Iss) (f : Form) (act : List Act) (sl : Slot) (o : Opnd) : Option DWord :=
  e.slot f x.wbase ((act.head?.map fun a => a.m.pos).getD 0) sl o

/-! ### NOP, EXIT (R159, R320) -/

/-- NOP. -/
def execNop (f : Form) (s : State) : Host.Outcome State Fault Refusal :=
  match s.cur with
  | .method v => .next { s with cur := .method (v.run (.nop f) f fun _ _ v => v.advance f) }
  | _ =>
    match front (.nop f) f false s with
    | .over o => o
    | .go x _ _ _ => .next (s.endIssue x f [])

/-- EXIT (R320); in a method it acts as MRET with return word 0 (R420). -/
def execExit (f : Form) (s : State) : Host.Outcome State Fault Refusal :=
  match s.cur with
  | .method v => .next { s with cur := .method (v.run (.exit f) f fun _ _ v => { v with ended := some (0, 0) }) }
  | _ =>
    match front (.exit f) f false s with
    | .over o => o
    | .go x e g act =>
      .next (State.laneEnd (s.laneBody x e f g act .none noWait fun a _ s => (s.exitLane x.ctx a.m.ref, .ok)) (act.map fun a => a.m.ref))

/-! ### Branches (R309, R310) -/

/-- The target of a PC-relative transfer: the next PC plus 4 times the signed offset (R131, R310). -/
def relTarget (f : Form) (pc : Word) (offset : DWord) : Word := nextPc f pc + 4 * offset.extractLsb' 0 32

/-- BRA and BRX in a lane: a lane moved to a PC not greater than its own makes the branch a backward one (R81). DESIGN CHOICE
(log 15): the entry moves from the group before the group splits, so past every group of the split where another group of the ring
does not wait, and else to the first of the split in the order of R80. -/
def branchStep (i : Instr) (f : Form) (target : Iss → Args → Word) (s : State) : Host.Outcome State Fault Refusal :=
  match front i f false s with
  | .over o => o
  | .go x e g act =>
    let back := act.any fun a => (e.args f g x.wbase a.m.pos a.lane).any fun args => (target x args).toNat ≤ x.pc.toNat
    let s := if back then s.rotate x.g else s
    .next (State.laneEnd (s.laneBody x e f g act f.hint noWait fun a args s => (s.moveLanes [a.m.ref] (target x args), .ok)) [])

/-- BRA in a lane, or in a method. -/
def braBody (i : Instr) (f : Form) (s : State) : Host.Outcome State Fault Refusal :=
  match s.cur with
  | .method v => .next { s with cur := .method (v.run i f fun _ args v => { v with pc := relTarget f v.pc args.a }) }
  | _ => branchStep i f (fun x args => relTarget f x.pc args.a) s

/-- BRA (R310). -/
def execBra (f : Form) (s : State) : Host.Outcome State Fault Refusal := braBody (.bra f) f s

/-- BRA.UNIFORM, fixed entry 0x006 (R309). -/
def execBraUniform (f : Form) (s : State) : Host.Outcome State Fault Refusal := braBody (.braUniform f) f s

/-- BRX (R310). -/
def execBrx (f : Form) (s : State) : Host.Outcome State Fault Refusal :=
  branchStep (.brx f) f (fun _ args => args.a.extractLsb' 0 32) s

/-! ### Calls (R312 to R316) -/

/-- STACK_KIB × 1,024 of a lane's launch. -/
def State.stackBytes (s : State) (r : LaneRef) : Nat :=
  (((s.wg? r.wg).bind fun g => s.launch? g.launch).map fun l => l.header.stackKib * 1024).getD 0

/-- The address of spilled entry i of a lane (R313). -/
def State.spillAddr (s : State) (r : LaneRef) (i : Nat) : Nat :=
  ((((s.warp? r.wg r.warp).map fun w => w.csbase.toNat).getD 0) + r.lane * s.stackBytes r + 8 * i) % 2 ^ 64

/-- The 8 bytes of a spilled entry (R313). -/
def Frame.bytes (q : Frame) : List Byte := leBytes 4 q.rpc.toNat ++ leBytes 4 (q.rwb / 8)

def Frame.ofNat (n : Nat) : Frame := { rpc := wordOf n, rwb := 8 * (n / 2 ^ 32 % 64) }

/-- A store of one lane, entered behind its earlier accesses (R283). -/
def State.pushStore (s : State) (x : Iss) (r : LaneRef) (phys : Nat) (bs : List Byte) : State :=
  let a : Access :=
    { seq := s.seq + 1, issue := s.seq, ctx := x.ctx, lane := r, kind := .store bs, phys := phys, size := bs.length
      acq := false, rel := false, dst := noDest, rows := [], reformed := none }
  { s with pend := s.pend ++ [a], seq := s.seq + 2 }

/-- Whether a CALL of a lane spills: four entries are on chip and the bound is kept (R314). -/
def State.spills (s : State) (a : Act) : Bool :=
  a.lane.stack.length = 4 && decide (8 * (a.lane.spilled + 1) ≤ s.stackBytes a.m.ref)

/-- The spill store's check (R314, R229). -/
def State.spillChk (s : State) (x : Iss) (a : Act) : Chk :=
  s.check x.core x.ctx .w (s.spillAddr a.m.ref a.lane.spilled) 8

/-- CALL and CALLX in a lane (R314). -/
def callLane (f : Form) (target : Iss → Args → Word) (x : Iss) (a : Act) (args : Args) (s : State) : State × Done :=
  let n := args.b.toNat
  let nb := a.lane.wbase + 8 * n
  let npc := nextPc f x.pc
  let enter (s : State) (keep : List Frame) (spilled : Nat) : State :=
    s.updLane a.m.ref fun l =>
      { l with stack := ⟨npc, l.wbase⟩ :: keep, spilled := spilled, wbase := nb, pc := target x args }
  if x.carried.isSome && n != 0 then (s, .fault .ctlBin 0)
  else if 392 < nb then (s, .fault .regWindow 0)
  else if a.lane.stack.length < 4 then (enter s a.lane.stack a.lane.spilled, .ok)
  else if !s.spills a then (s, .fault .ctlStack 0)
  else
    let ea := s.spillAddr a.m.ref a.lane.spilled
    match s.spillChk x a with
    | .ok p =>
      let deepest := a.lane.stack.getLastD ⟨0, 0⟩
      (enter (s.pushStore x a.m.ref p deepest.bytes) a.lane.stack.dropLast (a.lane.spilled + 1), .ok)
    | .fault c => (s, .fault c (eaDetail ea))
    | .absent => (s, .park ea)
    | .wait => (s, .ok)

/-- A call whose spill store still lacks its translation waits (R118). -/
def callWait (x : Iss) (a : Act) (args : Args) (s : State) : Option Nat :=
  if a.lane.wbase + 8 * args.b.toNat ≤ 392 && !(x.carried.isSome && args.b != 0) && s.spills a && s.spillChk x a = .wait then
    some (s.spillAddr a.m.ref a.lane.spilled)
  else none

def callStep (i : Instr) (f : Form) (target : Iss → Args → Word) (s : State) : Host.Outcome State Fault Refusal :=
  match front i f false s with
  | .over o => o
  | .go x e g act => .next (State.laneEnd (s.laneBody x e f g act f.hint (callWait x) (callLane f target x)) [])

/-- CALL (R314). -/
def execCall (f : Form) (s : State) : Host.Outcome State Fault Refusal :=
  callStep (.call f) f (fun x args => relTarget f x.pc args.a) s

/-- CALLX (R314). -/
def execCallx (f : Form) (s : State) : Host.Outcome State Fault Refusal :=
  callStep (.callx f) f (fun _ args => args.a.extractLsb' 0 32) s

/-- The refill load's check (R315, R229). -/
def State.refillChk (s : State) (x : Iss) (a : Act) : Chk :=
  s.poisonChk true (s.check x.core x.ctx .r (s.spillAddr a.m.ref (a.lane.spilled - 1)) 8)

/-- A return to an entry: its window must be legal where it came from memory, and the same in a reformed group (R315). -/
def retTo (x : Iss) (a : Act) (q : Frame) (stack : List Frame) (spilled : Nat) (s : State) : State × Done :=
  if 392 < q.rwb then (s, .fault .regWindow 0)
  else if x.carried.isSome && q.rwb != a.lane.wbase then (s, .fault .ctlBin 0)
  else (s.updLane a.m.ref fun l => { l with stack := stack, spilled := spilled, wbase := q.rwb, pc := q.rpc }, .ok)

/-- RET in a lane (R315). -/
def retLane (x : Iss) (a : Act) (_ : Args) (s : State) : State × Done :=
  match a.lane.stack with
  | q :: rest => retTo x a q rest a.lane.spilled s
  | [] =>
    if a.lane.spilled = 0 then (s, .fault .ctlStack 0)
    else
      let ea := s.spillAddr a.m.ref (a.lane.spilled - 1)
      match s.refillChk x a with
      | .ok p =>
        let s := s.drain a.m.ref
        retTo x a (Frame.ofNat (Memory.le s.mem p 8)) [] (a.lane.spilled - 1) s
      | .fault c => (s, .fault c (eaDetail ea))
      | .absent => (s, .park ea)
      | .wait => (s, .ok)

def retWait (x : Iss) (a : Act) (_ : Args) (s : State) : Option Nat :=
  if a.lane.stack = [] && a.lane.spilled != 0 && s.refillChk x a = .wait then
    some (s.spillAddr a.m.ref (a.lane.spilled - 1))
  else none

/-- RET (R315). -/
def execRet (f : Form) (s : State) : Host.Outcome State Fault Refusal :=
  match front (.ret f) f false s with
  | .over o => o
  | .go x e g act => .next (State.laneEnd (s.laneBody x e f g act f.hint (retWait x) (retLane x)) [])

/-! ### JOIN, REFORM (R86 to R93, R318, R319) -/

/-- JOIN in a lane: it waits with the mask, or gives up its pass and goes on (R87, R88). -/
def joinLane (f : Form) (x : Iss) (a : Act) (args : Args) (s : State) : State × Done :=
  let npc := nextPc f x.pc
  if a.lane.pass = some x.pc then (s.updLane a.m.ref fun l => { l with pass := none, pc := npc }, .ok)
  else (s.updLane a.m.ref fun l => { l with st := .waiting (.join (args.a.extractLsb' 0 32) (slotNum f f.a)), npc := npc }, .ok)

/-- JOIN (R318). -/
def execJoin (f : Form) (s : State) : Host.Outcome State Fault Refusal :=
  match front (.join f) f true s with
  | .over o => o
  | .go x e g act =>
    if act = [] then .next (s.endIssue x f [])
    else
      let p := s.laneBody x e f g act .none noWait (joinLane f x)
      .next (State.laneEnd (p.1.rotate x.g, p.2) (act.map fun a => a.m.ref))

/-- Whether a bin takes a lane of a key: one holds it, or one of the 16 is free (R90). -/
def Core.binFree (c : Core) (ctx : Nat) (pc : Word) (wbase dslot : Nat) : Bool :=
  c.bins.any (fun b => b.ctx = ctx && b.pc = pc && b.wbase = wbase && b.dslot = dslot) || decide (c.bins.length < 16)

/-- The carried values of a lane from the reformed group it leaves (R90, R379). DESIGN CHOICE (log 15): a carried register that the
group's map no longer maps has none, so REFORM.HOME leaves the home register as it is (R93, R149). -/
def State.carryOf (s : State) (r : LaneRef) (pos wbase n : Nat) : List (Nat × Word) :=
  match (s.lane? r).bind Lane.reformed with
  | some _ => (List.range n).filterMap fun i =>
      (findRow (s.laneRows r) (wbase + i)).map fun row => (wbase + i, row.vals.getD pos 0)
  | none => []

/-- REFORM of mode 0 in a lane (R90, R319): with no free bin it stays to try again. -/
def reformLane (f : Form) (x : Iss) (a : Act) (args : Args) (s : State) : State × Done :=
  let n := args.a.toNat
  let npc := nextPc f x.pc
  if x.carried.isSome && decide (a.lane.carried < n) then (s, .fault .ctlBin 0)
  else if !(s.core x.core).binFree x.ctx npc a.lane.wbase x.dslot then (s, .ok)
  else
    let carry := s.carryOf a.m.ref a.m.pos a.lane.wbase n
    let s := s.leaveReformed a.m.ref
    let s := s.updLane a.m.ref fun l =>
      { l with st := .binned, pc := npc, carried := n
               carry := if x.carried.isSome then some carry else none }
    (s.fileLane x.core x.ctx npc a.lane.wbase x.dslot a.m.ref, .ok)

/-- The registers REFORM carries, whose in-flight results it waits for. -/
def carriedRegs (x : Iss) (n : Nat) : List Nat := (List.range (min n 32)).map (x.wbase + ·)

/-- Whether a REFORM does nothing but wait for a bin to free: no bin takes the lanes' key, and each member would be filed
(R90, R106). -/
def State.reformHeld (s : State) (f : Form) (x : Iss) (act : List Act) : Bool :=
  decide (act.length = x.members.length) && !(s.core x.core).binFree x.ctx (nextPc f x.pc) x.wbase x.dslot
    && !act.any fun a => x.carried.isSome && decide (a.lane.carried < (f.slotImm f.a).toNat)

/-- REFORM (R319). -/
def execReform (f : Form) (s : State) : Host.Outcome State Fault Refusal :=
  match s.curIss? with
  | none => .fault .noIssueGroup
  | some y =>
    match front (.reform f) f false s (carriedRegs y (f.slotImm f.a).toNat) with
    | .over o => o
    | .go x e g act =>
      .next (if s.reformHeld f x act then s.stall x .convergence
        else State.laneEnd (s.laneBody x e f g act .none noWait (reformLane f x)) (act.map fun a => a.m.ref))

/-- What a write-back into a home map gives: the map, a wait for an in-flight result, or the register that lacks a row. -/
inductive Back where
  | rows (rows : List Row)
  | wait
  | full (reg : Nat)
  deriving DecidableEq, Repr

/-- Write the carried registers of a lane back into its home map (R93, R149). -/
def writeBack (lim : MapLimit) (pos : Nat) : List Row → List (Nat × Word) → Back
  | rows, [] => .rows rows
  | rows, (reg, v) :: rest =>
    match prepReg lim rows false reg with
    | .ready rows' id => writeBack lim pos (rowWrite rows' id pos v) rest
    | .wait => .wait
    | .full => .full reg

/-- The home map of a lane once its carried registers are written back. -/
def Warp.homeRows (v : Warp) (r : LaneRef) (vals : List (Nat × Word)) : Back :=
  writeBack ⟨v.livemax, v.privileged, v.entryMap⟩ r.lane v.rows vals

/-- The values a lane of a reformed group carries (R90). -/
def State.carriedVals (s : State) (x : Iss) (a : Act) : List (Nat × Word) :=
  match x.carried with
  | some (b, _) => s.carryOf a.m.ref a.m.pos b a.lane.carried
  | none => []

/-- REFORM.HOME in a lane of a reformed group (R93, R149). -/
def homeLane (f : Form) (x : Iss) (a : Act) (s : State) : State × Done :=
  let r := a.m.ref
  if x.carried.isNone then (s.moveLanes [r] (nextPc f x.pc), .ok)
  else match s.warp? r.wg r.warp with
  | none => (s, .ok)
  | some v =>
    match v.homeRows r (s.carriedVals x a) with
    | .full reg => (s, .fault .regLivemax (BitVec.ofNat 52 reg))
    | .wait => (s, .ok)
    | .rows rows =>
      let s := s.leaveReformed r
      let s := s.updWarp r.wg r.warp fun v => Warp.settle { v with
        rows := rows
        lanes := mapNth v.lanes r.lane fun l => { l with pc := nextPc f x.pc, st := .issuing, carried := 0, carry := none }
        ring := v.ring ++ [{ gid := s.seq + 1, lanes := [r.lane], hold := none, debt := 0 }] }
      ({ s with seq := s.seq + 2 }, .ok)

/-- Whether a lane's write-back must wait for a result that is in flight to its home map (R145, R149). -/
def State.homeHeld (s : State) (x : Iss) (a : Act) : Bool :=
  x.carried.isSome && match s.warp? a.m.ref.wg a.m.ref.warp with
    | some v => v.homeRows a.m.ref (s.carriedVals x a) = .wait
    | none => false

/-- REFORM.HOME (R93, R319): it waits for the in-flight results of the carried registers, and of the rows they go to. -/
def execReformHome (f : Form) (s : State) : Host.Outcome State Fault Refusal :=
  match s.curIss? with
  | none => .fault .noIssueGroup
  | some y =>
    let regs := match y.carried with | some (b, n) => (List.range n).map (b + ·) | none => []
    match front (.reformHome f) f false s regs with
    | .over o => o
    | .go x e g act =>
      .next (if act.any (s.homeHeld x) then s.stall x .memoryData
        else State.laneEnd (s.laneBody x e f g act .none noWait fun a _ s => homeLane f x a s) [])

/-! ### ELECT, VOTE, WINDOW (R321 to R323) -/

/-- A predicate result in each active lane. -/
def State.predEach (s : State) (x : Iss) (f : Form) (g : Sig) (act : List Act) (b : Act → Bool) : State :=
  s.commitPred x f g (act.map fun a => ⟨a, [if b a then 1 else 0], 0⟩) []

/-- ELECT (R321). -/
def execElect (f : Form) (s : State) : Host.Outcome State Fault Refusal :=
  match front (.elect f) f true s with
  | .over o => o
  | .go x _ g act => .next (s.predEach x f g act fun a => act.head?.any fun b => b.m.pos = a.m.pos)

/-- The mask of lanes at positions. -/
def maskOf (ps : List Nat) : DWord := BitVec.ofNat 64 (ps.foldl (fun m p => m + 2 ^ p) 0)

/-- A uniform result written when a guard is true. -/
def State.onceVal (s : State) (x : Iss) (f : Form) (act : List Act) (words : List Word) : State :=
  if act = [] then s.endIssue x f [] else s.commitUni x f (slotNum f f.d) words 0

/-- VOTE.ACTIVE (R86, R322). -/
def execVoteActive (f : Form) (s : State) : Host.Outcome State Fault Refusal :=
  match front (.voteActive f) f true s with
  | .over o => o
  | .go x _ _ act => .next (s.onceVal x f act [(maskOf (x.members.map Member.pos)).extractLsb' 0 32])

/-- VOTE.ANY, VOTE.ALL and VOTE.BALLOT (R322). -/
def execVote (f : Form) (s : State) : Host.Outcome State Fault Refusal :=
  match front (.vote f) f true s with
  | .over o => o
  | .go x _ g act =>
    let yes (a : Act) : Bool := predOf f a.lane f.a
    match f.m2.toNat with
    | 1 => .next (s.predEach x f g act fun _ => act.any yes)
    | 2 => .next (s.predEach x f g act fun _ => act.all yes)
    | _ => .next (s.onceVal x f act [(maskOf ((act.filter yes).map fun a => a.m.pos)).extractLsb' 0 32])

/-- WINDOW in a lane (R323). -/
def windowLane (f : Form) (a : Act) (args : Args) (s : State) : State × Done :=
  let k : Int := (args.a.extractLsb' 0 32).toInt
  let nb : Int := if f.m2 = 0 then 8 * k else (a.lane.wbase : Int) + 8 * k
  if nb < 0 || 392 < nb then (s, .fault .regWindow 0)
  else (s.updLane a.m.ref fun l => { l with wbase := nb.toNat }, .ok)

/-- WINDOW (R323). -/
def execWindow (f : Form) (s : State) : Host.Outcome State Fault Refusal :=
  laneStep (.window f) f true .none (fun x a args s =>
    match windowLane f a args s with
    | (t, .ok) => (t.moveLanes [a.m.ref] (nextPc f x.pc), .ok)
    | r => r) s

/-! ### Traps and waits (R326 to R330) -/

/-- TRAP and BKPT in a lane: its TRAPPC is the next PC (R326). -/
def trapLane (f : Form) (c : Cause) (x : Iss) (a : Act) (_ : Args) (s : State) : State × Done :=
  (s.moveLanes [a.m.ref] (nextPc f x.pc), .fault c 0)

/-- TRAP (R326). -/
def execTrap (f : Form) (s : State) : Host.Outcome State Fault Refusal :=
  laneStep (.trap f) f false .none (trapLane f (.swTrap (BitVec.ofNat 4 (f.slotImm f.a).toNat))) s

/-- BKPT (R326). -/
def execBkpt (f : Form) (s : State) : Host.Outcome State Fault Refusal :=
  laneStep (.bkpt f) f false .none (trapLane f .bkpt) s

/-- RTE (R327). -/
def execRte (f : Form) (s : State) : Host.Outcome State Fault Refusal :=
  onceStep (.rte f) f false (fun x _ _ act s =>
    if x.priv then s.endTrap x.wg else s.onceFault x f act .illPriv 0) s

/-- YIELD in a lane (R328). -/
def yieldLane (f : Form) (x : Iss) (a : Act) (_ : Args) (s : State) : State × Done :=
  let npc := nextPc f x.pc
  if (s.ctx? x.ctx).any Context.preq then
    (s.updLane a.m.ref fun l => { l with st := .waiting .yielded, pc := npc, npc := npc }, .ok)
  else (s.moveLanes [a.m.ref] npc, .ok)

/-- YIELD (R328). -/
def execYield (f : Form) (s : State) : Host.Outcome State Fault Refusal := laneStep (.yield f) f false .none (yieldLane f) s

/-- WAITC (R329): it waits for COUNT 0, then faults by UE or ERR, or completes. -/
def execWaitc (f : Form) (s : State) : Host.Outcome State Fault Refusal :=
  onceStep (.waitc f) f false (fun x _ _ act s =>
    let n := slotNum f f.a
    match s.warp? x.wg x.warp with
    | none => s
    | some v =>
      if cregCount (v.ureg n) = 0 then
        match waitcCause (v.ureg n) with
        | some c => s.onceFault x f act c (v.goDetail n)
        | none => s.endIssue x f []
      else (s.setHold x.g (some (.waitc n (nextPc f x.pc) (act.map fun a => a.m.pos)))).settleAt x.g) s

/-- SLEEP (R330): it moves the warp's entry on, and holds its group for the cycles named. -/
def execSleep (f : Form) (s : State) : Host.Outcome State Fault Refusal :=
  onceStep (.sleep f) f false (fun x e g act s =>
    let n := ((e.once x f act f.a g.a).getD 0).toNat
    if n = 0 then (s.endIssue x f []).rotate x.g
    else
      let s := s.updLanes (x.members.map Member.ref) fun l => { l with npc := nextPc f x.pc }
      (s.setHold x.g (some (.sleep (s.clock + n)))).rotate x.g) s

end Sys2Proof.Machine
end

