-- ==== Sys2Proof/Machine/Trans.lean ====
section
/-! DEFINITION. RCP, RSQ, SQRT, EXP2, LOG2, SIN, COS and TANH, correctly rounded to F32 under RNE (R73). RCP, RSQ and
SQRT round exact rationals or roots with a sticky digit. The others are computed in fixed point with `fixBits` bits after
the point, an error far below the distance of any F32 result from a rounding boundary (log 11), and every result that is
not one of the exact cases raises NX. -/

namespace Sys2Proof.Machine

/-- Bits after the point of the fixed-point values. -/
def fixBits : Nat := 640
/-- 1 in fixed point. -/
def fixOne : Int := 2 ^ fixBits

def fixMul (a b : Int) : Int := a * b / fixOne

/-- The integer square root of n below 4^k, bit by bit. -/
def isqrt : Nat → Nat → Nat
  | 0, _ => 0
  | k + 1, n =>
    let r := 2 * isqrt k (n / 4)
    if (r + 1) * (r + 1) ≤ n then r + 1 else r

/-- √(num / den) with 160 bits after the point and a sticky digit, rounded (R73). -/
def sqrtRound (num den : Nat) : FRes :=
  let n := num * 2 ^ 320 / den
  let s := isqrt 400 n
  let exact := decide (s * s = n) && decide (num * 2 ^ 320 % den = 0)
  roundRat fmtF32 .rne false (2 * s + (if exact then 0 else 1)) (2 ^ 161)

/-- Σ of t(k) for k below n, with t(k+1) got from t(k). -/
def series : Nat → (Nat → Int → Int) → Nat → Int → Int → Int
  | 0, _, _, _, acc => acc
  | n + 1, nxt, k, t, acc => series n nxt (k + 1) (nxt k t) (acc + t)

/-- atan(1 / m) in fixed point. -/
def atanInv (m : Nat) : Int :=
  let go := (List.range 330).foldl (fun (st : Int × Int) k =>
    (st.1 / (m * m : Nat), st.2 + (if k % 2 = 0 then 1 else -1) * (st.1 / (2 * k + 1 : Nat)))) (fixOne * 2 ^ 192 / (m : Int), 0)
  go.2

/-- π times 2^(fixBits + 192), by Machin's formula. -/
def piWide : Int := 4 * (4 * atanInv 5 - atanInv 239)

/-- e^x for |x| ≤ 1 in fixed point. -/
def fixExp (x : Int) : Int := series 150 (fun k t => fixMul t x / (k + 1 : Nat)) 0 fixOne 0

/-- ln 2 in fixed point: 2 Σ (1/3)^(2k+1) / (2k+1). -/
def ln2 : Int :=
  ((List.range 210).foldl (fun (st : Int × Int) k => (st.1 / 9, st.2 + st.1 / (2 * k + 1 : Nat))) (2 * fixOne / 3, 0)).2

/-- ln(1 + y) for a ratio m in [1, 2) in fixed point: 2 atanh((m − 1) / (m + 1)). -/
def fixLn (m : Int) : Int :=
  let z := (m - fixOne) * fixOne / (m + fixOne)
  let z2 := fixMul z z
  ((List.range 210).foldl (fun (st : Int × Int) k => (fixMul st.1 z2, st.2 + st.1 / (2 * k + 1 : Nat))) (2 * z, 0)).2

/-- sin r for |r| ≤ 1 in fixed point. -/
def fixSin (r : Int) : Int :=
  let r2 := fixMul r r
  series 80 (fun k t => -(fixMul t r2) / ((2 * k + 2) * (2 * k + 3) : Nat)) 0 r 0

/-- cos r for |r| ≤ 1 in fixed point. -/
def fixCos (r : Int) : Int :=
  let r2 := fixMul r r
  series 80 (fun k t => -(fixMul t r2) / ((2 * k + 1) * (2 * k + 2) : Nat)) 0 fixOne 0

/-- A fixed-point value that is not exact, rounded to F32, with NX; `tiny` adds UF for nonzero results that are tiny. -/
def fixRound (neg : Bool) (v : Int) : FRes :=
  let r := roundRat fmtF32 .rne neg (2 * v.natAbs + 1) (2 * 2 ^ fixBits)
  ⟨r.bits, r.flags ||| flagNX⟩

/-- The quadrant and remainder of an angle of num / den radians: angle = q · π/2 + r with |r| ≤ π/4. -/
def reduceAngle (num den : Nat) : Nat × Int :=
  let x : Int := (num : Int) * 2 ^ (fixBits + 192) / den
  let h := piWide / 2
  let q := (2 * x + h) / (2 * h)
  ((q % 4).toNat, (x - q * h) / 2 ^ 192)

/-- sin or cos by quadrant. -/
def fixTrig (q : Nat) (r : Int) : Int :=
  match q % 4 with
  | 0 => fixSin r
  | 1 => fixCos r
  | 2 => -fixSin r
  | _ => -fixCos r

def f32One : Nat := 0x3F800000

/-- RCP (R73). -/
def fpRcp (x : Nat) : FRes :=
  match fval fmtF32 x with
  | .nan s => nanRes fmtF32 (flagIf s flagNV)
  | .inf n => zeroRes fmtF32 n
  | .fin n m => if m = 0 then infRes fmtF32 n flagDZ else roundRat fmtF32 .rne n fmtF32.unit m

/-- RSQ (R73). -/
def fpRsq (x : Nat) : FRes :=
  match fval fmtF32 x with
  | .nan s => nanRes fmtF32 (flagIf s flagNV)
  | .inf n => if n then nanRes fmtF32 flagNV else zeroRes fmtF32 false
  | .fin n m =>
    if m = 0 then infRes fmtF32 n flagDZ
    else if n then nanRes fmtF32 flagNV
    else sqrtRound fmtF32.unit m

/-- SQRT (R73). -/
def fpSqrt (x : Nat) : FRes :=
  match fval fmtF32 x with
  | .nan s => nanRes fmtF32 (flagIf s flagNV)
  | .inf n => if n then nanRes fmtF32 flagNV else infRes fmtF32 false 0
  | .fin n m =>
    if m = 0 then zeroRes fmtF32 n
    else if n then nanRes fmtF32 flagNV
    else sqrtRound m fmtF32.unit

/-- EXP2 (R73): exact for integers in range. -/
def fpExp2 (x : Nat) : FRes :=
  let f := fmtF32
  match fval f x with
  | .nan s => nanRes f (flagIf s flagNV)
  | .inf n => if n then zeroRes f false else infRes f false 0
  | .fin n m =>
    let v := signed n m
    let i := v / f.unit
    let fr := (v % f.unit).toNat
    if 200 ≤ i then infRes f false (flagOF ||| flagNX)
    else if i < -400 then ⟨0, flagUF ||| flagNX⟩
    else
      let scale (num den : Nat) : FRes :=
        if 0 ≤ i then roundRat f .rne false (num * 2 ^ i.toNat) den else roundRat f .rne false num (den * 2 ^ (-i).toNat)
      if fr = 0 then scale 1 1
      else
        let y := fixExp (fixMul (fr * fixOne / f.unit) ln2)
        let r := scale (2 * y.natAbs + 1) (2 * 2 ^ fixBits)
        ⟨r.bits, r.flags ||| flagNX⟩

/-- LOG2 (R73): exact for powers of 2. -/
def fpLog2 (x : Nat) : FRes :=
  let f := fmtF32
  match fval f x with
  | .nan s => nanRes f (flagIf s flagNV)
  | .inf n => if n then nanRes f flagNV else infRes f false 0
  | .fin n m =>
    if m = 0 then infRes f true flagDZ
    else if n then nanRes f flagNV
    else
      let k := Nat.log2 m
      let e : Int := (k : Int) - f.unitExp
      if m = 2 ^ k then roundInt f .rne false e 1
      else
        let v := e * fixOne + fixLn (m * fixOne / (2 ^ k : Nat)) * fixOne / ln2
        fixRound (decide (v < 0)) v

/-- SIN and COS (R73). -/
def fpTrig (cosine : Bool) (x : Nat) : FRes :=
  let f := fmtF32
  match fval f x with
  | .nan s => nanRes f (flagIf s flagNV)
  | .inf _ => nanRes f flagNV
  | .fin n m =>
    if m = 0 then (if cosine then ⟨f32One, 0⟩ else zeroRes f n)
    else
      let (q, r) := reduceAngle m f.unit
      let v := fixTrig (if cosine then q + 1 else q) r
      fixRound ((decide (v < 0)) != (n && !cosine)) v

/-- TANH (R73). -/
def fpTanh (x : Nat) : FRes :=
  let f := fmtF32
  match fval f x with
  | .nan s => nanRes f (flagIf s flagNV)
  | .inf n => ⟨withSign f n f32One, 0⟩
  | .fin n m =>
    if m = 0 then zeroRes f n
    else if 20 * f.unit ≤ m then ⟨withSign f n f32One, flagNX⟩
    else
      let a : Int := m * fixOne / f.unit
      -- tanh a = (e^(2a) − 1) / (e^(2a) + 1), with e^(2a) = (e^(a/16))^32
      let b := a / 32
      let s := series 150 (fun k t => fixMul t b / (k + 2 : Nat)) 0 b 0      -- e^b − 1
      -- (1 + s)^64 − 1 by squaring: t := 2 t + t²
      let t := (List.range 6).foldl (fun (t : Int) _ => 2 * t + fixMul t t) s
      let v := t * fixOne / (t + 2 * fixOne)
      fixRound n v

def transVal (g : Nat → FRes) (f : Form) (x : Args) : Val := fpUn f (fun _ a => g a) x

def rcpVal := transVal fpRcp
def rsqVal := transVal fpRsq
def sqrtVal := transVal fpSqrt
def exp2Val := transVal fpExp2
def log2Val := transVal fpLog2
def sinVal := transVal (fpTrig false)
def cosVal := transVal (fpTrig true)
def tanhVal := transVal fpTanh

end Sys2Proof.Machine
end

