-- ==== Sys2Proof/Machine/Float.lean ====
section
/-! DEFINITION. The floating-point, conversion, classification and dot-product instructions (R205 to R219). -/

namespace Sys2Proof.Machine

/-- FADD (R207). -/
def execFadd (f : Form) (s : State) : Host.Outcome State Fault Refusal := aluExec (.fadd f) f (fun _ x => faddVal f x) s

/-- FMUL (R207). -/
def execFmul (f : Form) (s : State) : Host.Outcome State Fault Refusal := aluExec (.fmul f) f (fun _ x => fmulVal f x) s

/-- FFMA (R207). -/
def execFfma (f : Form) (s : State) : Host.Outcome State Fault Refusal := aluExec (.ffma f) f (fun _ x => ffmaVal f x) s

/-- FMIN (R207). -/
def execFmin (f : Form) (s : State) : Host.Outcome State Fault Refusal := aluExec (.fmin f) f (fun _ x => fminVal f x) s

/-- FMAX (R207). -/
def execFmax (f : Form) (s : State) : Host.Outcome State Fault Refusal := aluExec (.fmax f) f (fun _ x => fmaxVal f x) s

/-- FSETP (R208). -/
def execFsetp (f : Form) (s : State) : Host.Outcome State Fault Refusal := aluExec (.fsetp f) f (fun _ x => fsetpVal f x) s

/-- FSCL (R209). -/
def execFscl (f : Form) (s : State) : Host.Outcome State Fault Refusal := aluExec (.fscl f) f (fun _ x => fsclVal f x) s

/-- RCP (R211). -/
def execRcp (f : Form) (s : State) : Host.Outcome State Fault Refusal := aluExec (.rcp f) f (fun _ x => rcpVal f x) s

/-- RSQ (R211). -/
def execRsq (f : Form) (s : State) : Host.Outcome State Fault Refusal := aluExec (.rsq f) f (fun _ x => rsqVal f x) s

/-- SQRT (R211). -/
def execSqrt (f : Form) (s : State) : Host.Outcome State Fault Refusal := aluExec (.sqrt f) f (fun _ x => sqrtVal f x) s

/-- EXP2 (R211). -/
def execExp2 (f : Form) (s : State) : Host.Outcome State Fault Refusal := aluExec (.exp2 f) f (fun _ x => exp2Val f x) s

/-- LOG2 (R211). -/
def execLog2 (f : Form) (s : State) : Host.Outcome State Fault Refusal := aluExec (.log2 f) f (fun _ x => log2Val f x) s

/-- SIN (R211). -/
def execSin (f : Form) (s : State) : Host.Outcome State Fault Refusal := aluExec (.sin f) f (fun _ x => sinVal f x) s

/-- COS (R211). -/
def execCos (f : Form) (s : State) : Host.Outcome State Fault Refusal := aluExec (.cos f) f (fun _ x => cosVal f x) s

/-- TANH (R211). -/
def execTanh (f : Form) (s : State) : Host.Outcome State Fault Refusal := aluExec (.tanh f) f (fun _ x => tanhVal f x) s

/-- FRC (R210). -/
def execFrc (f : Form) (s : State) : Host.Outcome State Fault Refusal := aluExec (.frc f) f (fun _ x => frcVal f x) s

/-- FRND (R210). -/
def execFrnd (f : Form) (s : State) : Host.Outcome State Fault Refusal := aluExec (.frnd f) f (fun _ x => frndVal f x) s

/-- F2I (R216). -/
def execF2i (f : Form) (s : State) : Host.Outcome State Fault Refusal := aluExec (.f2i f) f (fun _ x => f2iVal f x) s

/-- I2F (R217). -/
def execI2f (f : Form) (s : State) : Host.Outcome State Fault Refusal := aluExec (.i2f f) f (fun _ x => i2fVal f x) s

/-- FCLASS (R218). -/
def execFclass (f : Form) (s : State) : Host.Outcome State Fault Refusal := aluExec (.fclass f) f (fun _ x => fclassVal f x) s

/-- DOT4 (R219). -/
def execDot4 (f : Form) (s : State) : Host.Outcome State Fault Refusal := aluExec (.dot4 f) f (fun _ x => dot4Val f x) s

/-- The generator of R69 advanced once. -/
def srNext (x : Word) : Word :=
  let x := x ^^^ (x <<< 13)
  let x := x ^^^ (x >>> 17)
  x ^^^ (x <<< 5)

/-- The home warp whose generator an issue uses: in a reformed group, that of the lane drawn at position 0; where that
warp has ended, that of the lowest member (R69, log 15). -/
def State.seedWarp (s : State) (x : Iss) : Nat × Nat :=
  match x.lead with
  | some r => if (s.warp? r.wg r.warp).isSome then (r.wg, r.warp) else (x.wg, x.warp)
  | none => (x.wg, x.warp)

def State.seedOf (s : State) (x : Iss) : Word :=
  ((s.warp? (s.seedWarp x).1 (s.seedWarp x).2).map Warp.srseed).getD 0

/-- The generator of an issue's home warp written (R69). -/
def State.setSeed (s : State) (x : Iss) (v : Word) : State :=
  s.updWarp (s.seedWarp x).1 (s.seedWarp x).2 fun w => { w with srseed := v }

/-- CVT with SR: the generator advances once per issue, whichever lanes are active (R69, R215). -/
def cvtSr (f : Form) (s : State) : Host.Outcome State Fault Refusal :=
  match front (.cvt f) f false s with
  | .over o => o
  | .go x e g act =>
    let gen := srNext (s.seedOf x)
    let t := s.aluCommit x e f g act (cvtVal f gen)
    .next (if t.retries x then t else t.setSeed x gen)

/-- CVT (R213 to R215). -/
def execCvt (f : Form) (s : State) : Host.Outcome State Fault Refusal :=
  match s.cur with
  | .method _ => aluExec (.cvt f) f (cvtVal f 0) s
  | _ => if f.rm = .sr then cvtSr f s else aluExec (.cvt f) f (cvtVal f 0) s

end Sys2Proof.Machine
end

