-- ==== Sys2Proof/Machine/Integer.lean ====
section
/-! DEFINITION. The integer, bit, compare, select and move instructions (R197 to R203). -/

namespace Sys2Proof.Machine

/-- IADD (R199). -/
def execIadd (f : Form) (s : State) : Host.Outcome State Fault Refusal := aluExec (.iadd f) f (fun _ x => iaddVal f x) s

/-- ISUB (R199). -/
def execIsub (f : Form) (s : State) : Host.Outcome State Fault Refusal := aluExec (.isub f) f (fun _ x => isubVal f x) s

/-- IMUL (R199). -/
def execImul (f : Form) (s : State) : Host.Outcome State Fault Refusal := aluExec (.imul f) f (fun _ x => imulVal f x) s

/-- IMULH (R199). -/
def execImulh (f : Form) (s : State) : Host.Outcome State Fault Refusal := aluExec (.imulh f) f (fun _ x => imulhVal f x) s

/-- IMAD (R199). -/
def execImad (f : Form) (s : State) : Host.Outcome State Fault Refusal := aluExec (.imad f) f (fun _ x => imadVal f x) s

/-- ISHA (R199). -/
def execIsha (f : Form) (s : State) : Host.Outcome State Fault Refusal := aluExec (.isha f) f (fun _ x => ishaVal f x) s

/-- IMIN (R199). -/
def execImin (f : Form) (s : State) : Host.Outcome State Fault Refusal := aluExec (.imin f) f (fun _ x => iminVal f x) s

/-- IMAX (R199). -/
def execImax (f : Form) (s : State) : Host.Outcome State Fault Refusal := aluExec (.imax f) f (fun _ x => imaxVal f x) s

/-- IABS (R199). -/
def execIabs (f : Form) (s : State) : Host.Outcome State Fault Refusal := aluExec (.iabs f) f (fun _ x => iabsVal f x) s

/-- AND (R199). -/
def execAnd (f : Form) (s : State) : Host.Outcome State Fault Refusal := aluExec (.and f) f (fun _ x => andVal f x) s

/-- OR (R199). -/
def execOr (f : Form) (s : State) : Host.Outcome State Fault Refusal := aluExec (.or f) f (fun _ x => orVal f x) s

/-- XOR (R199). -/
def execXor (f : Form) (s : State) : Host.Outcome State Fault Refusal := aluExec (.xor f) f (fun _ x => xorVal f x) s

/-- SHL (R199). -/
def execShl (f : Form) (s : State) : Host.Outcome State Fault Refusal := aluExec (.shl f) f (fun _ x => shlVal f x) s

/-- SHR (R199). -/
def execShr (f : Form) (s : State) : Host.Outcome State Fault Refusal := aluExec (.shr f) f (fun _ x => shrVal f x) s

/-- ROTL (R199). -/
def execRotl (f : Form) (s : State) : Host.Outcome State Fault Refusal := aluExec (.rotl f) f (fun _ x => rotlVal f x) s

/-- BFX (R200). -/
def execBfx (f : Form) (s : State) : Host.Outcome State Fault Refusal := aluExec (.bfx f) f (fun _ x => bfxVal f x) s

/-- BFI (R200). -/
def execBfi (f : Form) (s : State) : Host.Outcome State Fault Refusal := aluExec (.bfi f) f (fun _ x => bfiVal f x) s

/-- POPC (R199). -/
def execPopc (f : Form) (s : State) : Host.Outcome State Fault Refusal := aluExec (.popc f) f (fun _ x => popcVal f x) s

/-- CLZ (R199). -/
def execClz (f : Form) (s : State) : Host.Outcome State Fault Refusal := aluExec (.clz f) f (fun _ x => clzVal f x) s

/-- BREV (R199). -/
def execBrev (f : Form) (s : State) : Host.Outcome State Fault Refusal := aluExec (.brev f) f (fun _ x => brevVal f x) s

/-- ISETP (R202). -/
def execIsetp (f : Form) (s : State) : Host.Outcome State Fault Refusal := aluExec (.isetp f) f (fun _ x => isetpVal f x) s

/-- SEL (R202). -/
def execSel (f : Form) (s : State) : Host.Outcome State Fault Refusal := aluExec (.sel f) f (fun _ x => selVal f x) s

/-- MOV (R203). -/
def execMov (f : Form) (s : State) : Host.Outcome State Fault Refusal := aluExec (.mov f) f (fun _ x => movVal f x) s

/-- BSEL (R201). -/
def execBsel (f : Form) (s : State) : Host.Outcome State Fault Refusal := aluExec (.bsel f) f (fun _ x => bselVal f x) s

/-- PSET (R202). -/
def execPset (f : Form) (s : State) : Host.Outcome State Fault Refusal := aluExec (.pset f) f (fun _ x => psetVal f x) s

/-- MOVI (R203). -/
def execMovi (f : Form) (s : State) : Host.Outcome State Fault Refusal := aluExec (.movi f) f (fun _ x => movVal f x) s

end Sys2Proof.Machine
end

