-- ==== Sys2Proof/Machine/Invoke.lean ====
section
/-! DEFINITION. The running of method invocations, of target methods and of replayed objects, and the service of object
calls: logs, trimming, callers and readers (R414, R418 to R423, R436 to R452). -/

namespace Sys2Proof.Machine

/-! ### A method's instruction (R420, R439) -/

/-- The state in which a method's instruction is executed: it reads and writes the invocation alone. -/
def methodState (v : Invocation) : State := { State.reset with cur := .method v }

/-- What executes the method subset (R162); any other instruction has the undefined template in a method's dictionary. -/
def methodInstr (i : Instr) (s : State) : Host.Outcome State Fault Refusal :=
  match i with
  | .nop f => execNop f s
  | .exit f => execExit f s
  | .bra f => execBra f s
  | .braUniform f => execBraUniform f s
  | .iadd f => execIadd f s
  | .isub f => execIsub f s
  | .imul f => execImul f s
  | .imulh f => execImulh f s
  | .imad f => execImad f s
  | .isha f => execIsha f s
  | .imin f => execImin f s
  | .imax f => execImax f s
  | .iabs f => execIabs f s
  | .and f => execAnd f s
  | .or f => execOr f s
  | .xor f => execXor f s
  | .shl f => execShl f s
  | .shr f => execShr f s
  | .rotl f => execRotl f s
  | .bfx f => execBfx f s
  | .bfi f => execBfi f s
  | .popc f => execPopc f s
  | .clz f => execClz f s
  | .brev f => execBrev f s
  | .isetp f => execIsetp f s
  | .sel f => execSel f s
  | .mov f => execMov f s
  | .movi f => execMovi f s
  | .bsel f => execBsel f s
  | .pset f => execPset f s
  | .fadd f => execFadd f s
  | .fmul f => execFmul f s
  | .ffma f => execFfma f s
  | .fmin f => execFmin f s
  | .fmax f => execFmax f s
  | .fsetp f => execFsetp f s
  | .fscl f => execFscl f s
  | .rcp f => execRcp f s
  | .rsq f => execRsq f s
  | .sqrt f => execSqrt f s
  | .exp2 f => execExp2 f s
  | .log2 f => execLog2 f s
  | .sin f => execSin f s
  | .cos f => execCos f s
  | .tanh f => execTanh f s
  | .frc f => execFrc f s
  | .frnd f => execFrnd f s
  | .cvt f => execCvt f s
  | .f2i f => execF2i f s
  | .i2f f => execI2f f s
  | .fclass f => execFclass f s
  | .sld f => execSld f s
  | .sst f => execSst f s
  | .marg f => execMarg f s
  | .mret f => execMret f s
  | .mtrap f => execMtrap f s
  | _ => .next { s with cur := .none }

/-- One instruction of an invocation. -/
def Invocation.step (v : Invocation) : Invocation :=
  match v.fetch with
  | .error c => v.fail c
  | .ok i =>
    match methodInstr i (methodState { v with count := v.count + 1 }) with
    | .next s =>
      match s.cur with
      | .method u => u
      | _ => v.fail .dictUndef
    | _ => v.fail .dictUndef

/-- An invocation run to its end: the instruction count of R420 ends it at the latest. -/
def Invocation.runFor : Nat → Invocation → Invocation
  | 0, v => v.fail .objMethod
  | n + 1, v =>
    match v.ended with
    | some _ => v
    | none => Invocation.runFor n v.step

def Invocation.runAll (v : Invocation) : Invocation := v.runFor 65538

/-- How an invocation ended: its return word and its STATUS (R441). -/
def Invocation.result (v : Invocation) : Word × Nat :=
  match v.ended with
  | some (0, w) => (w, 1)
  | some (1, w) => (w, 2)
  | some (_, w) => (0x100 + w, 2)
  | none => (0, 2)

/-- The writes of an invocation in the order made, where they are committed (R418, R441). -/
def Invocation.commits (v : Invocation) : List (Nat × Word) :=
  match v.ended with
  | some (0, _) => v.writes.reverse
  | _ => []

/-! ### Target methods (R417, R418, R423, R429, R432) -/

/-- The invocation of a method of a target at a pixel: its samples as methods see them, and its arguments. -/
def Target.invocation (t : Target) (m : Method) (x y : Nat) (args : List Word) : Invocation :=
  let pix : Cells 32 := ((List.range t.samples).flatMap fun s => (t.sample x y s).zipIdx.map fun c => (4 * s + c.2, c.1)).filter
    fun e => e.2 != 0
  Invocation.start 1 t.samples t.fmts t.consts false m [] pix 0 args

/-- FAULTS after an invocation of method k that a cause ended (R432). -/
def countFault (faults : Word) (k : Nat) (cause : Nat) : Word :=
  let n := min (faults.toNat / 65536 + 1) 0xFFFF
  if faults.toNat / 65536 = 0 then wordOf (cause % 256 + 256 * k + 65536 * n) else wordOf (faults.toNat % 65536 + 65536 * n)

/-- A method applied to a pixel of a target: its writes committed through R414, and whether a fault ended it. -/
def Target.apply (t : Target) (k : Nat) (x y : Nat) (args : List Word) : Target × Bool :=
  match t.methods[k]? with
  | none => (t, false)
  | some m =>
    let v := (t.invocation m x y args).runAll
    let put (pix : Cells 32) (w : Nat × Word) : Cells 32 :=
      let n := (w.1 - 0x100) / 4
      Cells.write pix (t.cell x y (n / 4) (n % 4)) (chanWrite (t.fmts.getD (n % 4) 0) w.2)
    match v.ended with
    | some (2, c) => ({ t with faults := countFault t.faults k c.toNat }, true)
    | _ => ({ t with pix := v.commits.foldl put t.pix }, false)

/-! ### Replayed objects: positions and the log (R436 to R438) -/

/-- Whether position a reaches b (R436). -/
def reaches (a b : Word) : Bool := decide ((a - b).toNat < 2 ^ 31)

/-- The position after another (R436). -/
def nextPos (p : Word) : Word := if p = 0xFFFFFFFE then 1 else p + 1

def ReplayObj.replica (o : ReplayObj) (d : Nat) : Replica := o.replicas.getD d ⟨0, true, true, [], 0, 0⟩

def ReplayObj.updReplica (o : ReplayObj) (d : Nat) (f : Replica → Replica) : ReplayObj :=
  { o with replicas := mapNth o.replicas d f }

/-- The 64 bytes of a log entry (R437). -/
def LogEntry.bytes (e : LogEntry) : List Byte :=
  leBytes 4 e.pos.toNat ++ leBytes 1 e.method ++ leBytes 1 e.die ++ leBytes 2 0
    ++ (List.range 8).flatMap (fun i => leBytes 4 (e.args.getD i 0).toNat) ++ leBytes 4 e.ret.toNat ++ leBytes 1 e.status
    ++ List.replicate 19 0

/-- A log entry from its 64 bytes (R437). -/
def LogEntry.parse (b : List Byte) : LogEntry :=
  { pos := wordOf (fieldAt b 0 4), method := fieldAt b 4 1, die := fieldAt b 5 1
    args := (List.range 8).map fun i => wordOf (fieldAt b (8 + 4 * i) 4), ret := wordOf (fieldAt b 0x28 4), status := fieldAt b 0x2C 1 }

/-- The place of position n in a copy of the log: ring slot n mod 2^LOGK (R436). -/
def ReplayObj.slotAt (o : ReplayObj) (n : Word) (base : Nat) : Nat := base + 64 * (n.toNat % 2 ^ o.logk)

/-- An entry written to both copies of the log (R437, R452). -/
def State.putEntry (s : State) (o : ReplayObj) (e : LogEntry) : State :=
  o.logAt.foldl (fun s b => s.storeBytes (o.slotAt e.pos b) e.bytes) s

/-- The entry of a position, read from a copy of the log that is not uncorrectable (R436, R452). -/
def State.entry? (s : State) (o : ReplayObj) (n : Word) : Option LogEntry :=
  ((o.logAt.find? fun b => !s.poisoned (o.slotAt n b)).map fun b =>
    LogEntry.parse (Memory.bytes s.mem (o.slotAt n b) 64)).filter fun e => e.pos = n

/-- Whether both copies of a position's entry are uncorrectable (R452). -/
def State.logBad (s : State) (o : ReplayObj) (n : Word) : Bool := o.logAt.all fun b => s.poisoned (o.slotAt n b)

/-- Whether the log is full (R448). -/
def ReplayObj.full (o : ReplayObj) : Bool := decide (2 ^ o.logk ≤ (o.tail - o.trim).toNat)

/-- A call appended at the next position (R436, R437, R443). -/
def State.appendCall (s : State) (ctx : Nat) (o : ReplayObj) (k die : Nat) (args : List Word) : State :=
  (s.updObject ctx o.handle fun o => { o with tail := nextPos o.tail }).putEntry o
    { pos := nextPos o.tail, method := k, die := die, args := args, ret := 0, status := 0 }

/-- The bytes of a replica: STATELEN of them, or the 8 of PUSHED (R433, R453). -/
def ReplayObj.stateBytes (o : ReplayObj) : Nat := if o.kind = 4 then 8 else o.statelen

/-- The first byte of a replica in memory. -/
def Replica.base (r : Replica) : Nat := vaultPhys r.vault r.off

/-- A replica's bytes as a method sees them, by offset (R439). -/
def State.stateOf (s : State) (o : ReplayObj) (d : Nat) : Cells 8 :=
  let base := (o.replica d).base
  (s.mem.filter fun c => decide (base ≤ c.1) && decide (c.1 < base + o.statelen)).map fun c => (c.1 - base, c.2)

/-- The arguments of R440. -/
def objectArgs (args : List Word) (k : Nat) (pos : Word) (die : Nat) : List Word :=
  (List.range 8).map (args.getD · 0) ++ [wordOf k, pos, wordOf die, 0, 0, 0, 0, 0]

/-- A replica with an invocation's writes committed (R440, R441). -/
def State.commitState (s : State) (base : Nat) (ws : List (Nat × Word)) : State :=
  ws.foldl (fun s w => s.storeBytes (base + w.1) (leBytes 4 w.2.toNat)) s

/-- A method of an object run on a replica's bytes: the writes it commits, its return word and STATUS (R439 to R441). -/
def ReplayObj.run (o : ReplayObj) (bytes : Cells 8) (k : Nat) (args : List Word) (pos : Word) (caller : Nat) :
    List (Nat × Word) × Word × Nat :=
  match o.methods[k]? with
  | none => ([], 0, 1)
  | some m =>
    let v := (Invocation.start 2 0 [] [] (!m.flag) m bytes [] o.statelen (objectArgs args k pos caller)).runAll
    (v.commits, v.result.1, v.result.2)

/-! ### Trimming (R447 to R449) -/

/-- The positions for which lanes of an object await a return. -/
def State.awaited (s : State) (ctx : Nat) (h : Word) : List (LaneRef × Word) :=
  (s.waits ctx).filterMap fun e =>
    match e.2 with
    | .call k n _ _ => if k = h then some (e.1.ref, n) else none
    | _ => none

/-- The position up to which the log may be trimmed: the least APPLIED of the counted dies, below every position that a
saved lane awaits (R447, R448). -/
def State.trimTo (s : State) (ctx : Nat) (o : ReplayObj) : Word :=
  let counted := o.replicas.filter fun r => !r.ignored
  let saved := (s.awaited ctx o.handle).filter fun e => (s.wg? e.1.wg).any fun g => !g.resident
  let bounds := counted.map (fun r => (r.applied - o.trim).toNat) ++ saved.map fun e => (e.2 - o.trim).toNat - 1
  match bounds with
  | [] => o.trim
  | b :: bs => o.trim + wordOf (bs.foldl min b)

/-- The log trimmed: returns that nothing needs any more go. -/
def State.trimObject (s : State) (ctx : Nat) (h : Word) : State :=
  match s.object? ctx h with
  | none => s
  | some o =>
    let p := s.trimTo ctx o
    let held := (s.awaited ctx h).map Prod.snd
    let keep (n : Word) : Bool := !reaches p n || held.contains n
    s.updObject ctx h fun o =>
      { o with trim := p, replicas := o.replicas.map fun r => { r with rets := r.rets.filter fun e => keep e.1 } }

/-! ### The service of callers and readers (R443, R444, R450, R451) -/

/-- The die on which a lane runs. -/
def State.dieOfLane (s : State) (r : LaneRef) : Nat := ((s.wg? r.wg).map fun g => dieOf g.core).getD 0

/-- MODE bit n of a context (R41). -/
def State.hostMode (s : State) (ctx n : Nat) : Bool := (s.ctx? ctx).any fun c => c.mode.getLsbD n

/-- The event of FUNCTION 1 for an object, with what it asks for (R386, R449, R451). -/
def State.postObjectEvent (s : State) (ctx : Nat) (h : Word) (purpose : Nat) : State :=
  let s := s.postEvent ctx 1 0 0 h 0xFFFFFFFF 0
  let last (c : Context) (e : EventRec) : EventRec := if e.seq = c.eventSeq then { e with purpose := purpose } else e
  s.updCtx ctx fun c => { c with events := c.events.map (last c) }

/-- An OCALL that finds the log full tells the host, in host-assisted mode (R449): each does as it issues, and one that still waits after
an answer that made no room asks again (log 7). -/
def State.askTrim (s : State) (ctx : Nat) (h : Word) (issued : Bool) : State :=
  match s.object? ctx h with
  | none => s
  | some o =>
    if s.hostMode ctx 1 && (issued || !o.awaitTrim) then
      (s.updObject ctx h fun o => { o with awaitTrim := true }).postObjectEvent ctx h 1
    else s

/-- What a call's lane receives, once its return is there (R443, R450). -/
def State.returned (s : State) (o : ReplayObj) (d : Nat) (n : Word) (saved : Bool) : Option (Word × Nat) :=
  let r := o.replica d
  if !reaches r.applied n then none
  else if saved then ((s.entry? o n).filter fun e => e.status != 0).map fun e => (e.ret, e.status)
  else (r.rets.find? fun e => e.1 = n).map Prod.snd

/-- What the service of an object gives its waiting lanes: the waits that end, and the lanes that fault. -/
structure Served where
  s      : State
  ends   : List WaitEnd
  faults : List LaneFault

/-- One wait on an object served: its append, its return, its run, or OBJ_FENCED where the object is lost. -/
def Served.lane (ctx : Nat) (h : Word) (v : Served) (e : Waiter × Wait) : Served :=
  let s := v.s
  let r := e.1.ref
  match s.object? ctx h with
  | none => v
  | some o =>
    let d := s.dieOfLane r
    let stands := (s.wg? r.wg).any Workgroup.resident
    let live := !s.held e.1 && stands
    let lost : Served := if live then { v with faults := v.faults ++ [⟨r, .objFenced, h.setWidth 52⟩] } else v
    let ended (w : WaitEnd) : Served := { v with ends := v.ends ++ [w] }
    match e.2 with
    | .callFull k m args dst =>
      if k != h then v
      else if o.lost then lost
      else if live && !o.full then
        { v with s := (s.appendCall ctx o m.toNat d args).setAt e.1 (.waiting (.call h (nextPos o.tail) false dst)) }
      else if live then { v with s := s.askTrim ctx h false }
      else v
    | .call k n saved dst =>
      if k != h then v
      else if o.lost then lost
      else if !stands then v
      else match s.returned o d n saved with
      | some (ret, status) => ended ⟨e.1, [ret, n], some (status = 1), dst⟩
      | none => v
    | .oread k m args min dst =>
      if k != h then v
      else if o.lost then lost
      else if !stands || (o.replica d).fenced || !reaches (o.replica d).applied min then v
      else
        let q := o.run (s.stateOf o d) m.toNat args (o.replica d).applied d
        ended ⟨e.1, [q.2.1, (o.replica d).applied], some (q.2.2 = 1), dst⟩
    | _ => v

/-- The service of an object after something has changed: trimming in device mode, then every lane that waits on it; those
whose waits end go on together (R491). -/
def State.serveObject (s : State) (ctx : Nat) (h : Word) : State :=
  let s := if s.hostMode ctx 1 then s else s.trimObject ctx h
  let v := (s.waits ctx).foldl (Served.lane ctx h) ⟨s, [], []⟩
  let t := v.s.satisfyAll v.ends
  (t.updLanes (v.faults.map LaneFault.lane) fun l => { l with st := .issuing }).raise v.faults

end Sys2Proof.Machine
end

