-- ==== Sys2Proof/Machine/Dict.lean ====
section
/-! DEFINITION. Dictionary slots: DICTLD, DICTSW, DFENCE, TRAPDICT, the loads that follow, and a slot's uncorrectable
error (R153 to R169). -/

namespace Sys2Proof.Machine

/-! ### Once-per-issue reads (R306) -/

/-- The first check of a list that does not pass, with its address. -/
def firstBad (l : List (Nat × Chk)) : Option (Nat × Chk) :=
  l.find? fun c => match c.2 with | .ok _ => false | _ => true

/-- A PAGE_ABSENT of a once-per-issue instruction: every lane whose guard is true parks, on one record (R122, R306). -/
def State.parkOnce (s : State) (x : Iss) (f : Form) (act : List Act) (ea : Nat) : State :=
  if x.priv then s.killContext x.ctx .pageAbsent (act.head?.map fun a => ⟨a.m.ref, .pageAbsent, eaDetail ea⟩)
  else
    let refs := act.map fun a => a.m.ref
    match s.park x.ctx x.core ea refs false with
    | none => s.stall x .translation
    | some s =>
      let idle := (x.members.map Member.ref).filter fun r => !refs.contains r
      let s := (s.setHold x.g none).moveLanes idle (nextPc f x.pc)
      (s.regroup x.g ⟨.none, 0⟩).afterAll refs

/-- The walks of the addresses that missed begin (R119). -/
def State.startWalks (s : State) (core ctx : Nat) (cs : List (Nat × Chk)) : State :=
  (cs.filter fun c => c.2 = .wait).foldl (fun s c => s.startWalk core ctx c.1) s

/-- What a once-per-issue instruction does once its reads pass their checks; a fault, a park or a wait otherwise, with the walks of
what missed (R119). -/
def State.onceChecked (s : State) (x : Iss) (f : Form) (act : List Act) (cs : List (Nat × Chk)) (k : State) : State :=
  match firstBad cs with
  | none => k
  | some (ea, .fault c) => s.onceFault x f act c (eaDetail ea)
  | some (ea, .absent) => s.parkOnce x f act ea
  | some _ => (s.startWalks x.core x.ctx cs).stall x .translation

/-- The earlier accesses of an issue's lanes perform before it reads (R283). -/
def State.drainAll (s : State) (x : Iss) : State := x.members.foldl (fun s m => s.drain m.ref) s

def Chk.phys : Chk → Nat
  | .ok p => p
  | _ => 0

/-! ### Images (R157) -/

/-- A dictionary image's header: FIRST and COUNT, where it meets its requirements. -/
def headerOk (h : List Byte) : Option (Nat × Nat) :=
  let first := leNat ((h.drop 4).take 2)
  let count := leNat ((h.drop 6).take 2)
  if leNat (h.take 4) = 0x4F444931 && 0x40 ≤ first && first + count ≤ 0x400 && leNat ((h.drop 8).take 8) = 0 then
    some (first, count)
  else none

/-- The checks of the templates of an image, which need R and X (R157). -/
def imageChks (chk : Checker) (va count : Nat) : List (Nat × Chk) :=
  (List.range count).map fun i => (va + 16 + 16 * i, chk .rx (va + 16 + 16 * i) 16)

/-! ### Binding (R155) -/

/-- The roles a header uses. -/
def Header.used (h : Header) : List Role := h.roles.take h.nroles

/-- The program slots that an admission of a launch binds: those of its roles and the trap slot (R156, R167). -/
def State.launchSlots (s : State) (l : Launch) : List (Nat × Nat) :=
  (l.ctx, ((s.ctx? l.ctx).map Context.trapdict).getD 3) :: l.header.used.map fun r => (l.ctx, r.dictslot)

/-- The saved workgroups of a gang, in linear order. -/
def State.savedOf (s : State) (l : Launch) (gang : Nat) : List Workgroup :=
  s.wgs.filter fun g => g.launch = l.id && g.gang = gang && !g.resident && !g.kept

/-- The slots saved with a context on a core (R168). -/
def State.savedFrom (s : State) (ctx old : Nat) : List DictSlot :=
  ((((s.ctx? ctx).map Context.savedSlots).getD []).filter fun e => e.1 = old).map Prod.snd

/-- The program slots that stand reserved on a core: those of admissions that wait, and of the gangs that hold it, with the saved slots
that a workgroup brings (R102, R156, R168, R494). -/
def State.promised (s : State) (core : Nat) : List (Nat × Nat) :=
  s.launches.flatMap fun l =>
    (if l.held.any fun h => h.1 = core then s.launchSlots l else []) ++ l.gangs.flatMap fun q =>
      (q.reserved.zipIdx.filter fun r => r.1.1 = core).flatMap fun r =>
        s.launchSlots l ++ if q.saved then ((s.savedOf l q.number)[r.2]?).toList.flatMap fun g =>
          (s.savedFrom l.ctx g.core).map fun d => (l.ctx, d.prog) else []

/-- Whether a core binds, or has free physical slots for, some program slots beside those reserved there (R155, R156). -/
def State.slotsFit (s : State) (core : Nat) (all : List (Nat × Nat)) : Bool :=
  let new := (all ++ s.promised core).eraseDups.filter fun p => (s.slotOf core p.1 p.2).isNone
  decide ((s.core core).slots.length + new.length ≤ 8)

/-- The physical slot bound to a program slot of a context on a core, binding a free one where none is. -/
def State.bindSlot (s : State) (core ctx prog : Nat) : Option (Nat × State) :=
  match s.slotOf core ctx prog with
  | some d => some (d.phys, s)
  | none =>
    if !s.slotsFit core [(ctx, prog)] then none
    else match (List.range 8).find? fun n => !(s.core core).slots.any fun d => d.phys = n with
    | none => none
    | some n =>
      let d : DictSlot :=
        { phys := n, ctx := ctx, prog := prog, image := none, emptied := false, loads := 0, lastVa := 0, rejected := 0 }
      some (n, s.updCore core fun c => { c with slots := c.slots ++ [d] })

/-- A load into a slot entered behind the others of its core (R157, R158). -/
def State.addJob (s : State) (core : Nat) (j : DictJob) : State :=
  { s.updCore core (fun c => { c with jobs := c.jobs ++ [{ j with id := s.seq }] }) with seq := s.seq + 1 }

/-- The load of a trap slot from TRAPIMG, on a core where the slot is not yet bound (R167). -/
def State.trapLoad (s : State) (ctx core : Nat) : State :=
  match s.ctx? ctx with
  | none => s
  | some c =>
    if (s.slotOf core ctx c.trapdict).isSome then s
    else match s.bindSlot core ctx c.trapdict with
    | none => s
    | some (phys, s) =>
      if c.trapimg = 0 then s
      else s.addJob core { id := 0, ctx := ctx, core := core, phys := phys, prog := c.trapdict, va := c.trapimg, first := 0
                           count := 0, lines := [], priv := true, warp := none, launchWg := none }

/-! ### DICTLD, DICTSW, DFENCE (R157, R163, R164) -/

/-- DICTLD once its header and image pass their checks: DICT_PRIV, DICT_LOAD, or LOADING set (R157). -/
def State.startLoad (s : State) (x : Iss) (f : Form) (act : List Act) (k va first count : Nat) (lines : List Nat) : State :=
  if !x.priv && (s.ctx? x.ctx).any (fun c => c.trapdict = k) then s.onceFault x f act .dictPriv 0
  else match s.bindSlot x.core x.ctx k with
  | none => s.onceFault x f act .dictLoad 0
  | some (phys, s) =>
    let j : DictJob :=
      { id := 0, ctx := x.ctx, core := x.core, phys := phys, prog := k, va := dwordOf va, first := first, count := count
        lines := lines, priv := x.priv, warp := some (x.wg, x.warp), launchWg := none }
    let id := s.seq
    ((s.addJob x.core j).updWarp x.wg x.warp fun v => { v with loading := v.loading ++ [(k, id)] }).endIssue x f []

/-- DICTLD (R157, R324). -/
def execDictld (f : Form) (s : State) : Host.Outcome State Fault Refusal :=
  onceStep (.dictld f) f true (fun x e g act s =>
    let va := ((e.once x f act f.b g.b).getD 0).toNat
    if va % 16 != 0 then s.onceFault x f act .addrAlign (eaDetail va)
    else
    let s := s.drainAll x
    let chk := s.check x.core x.ctx
    let h := s.poisonChk true (chk .r va 16)
    s.onceChecked x f act [(va, h)] (
      match headerOk (Memory.bytes s.mem h.phys 16) with
      | none => s.onceFault x f act .dictLoad 0
      | some (first, count) =>
        let cs := (va, chk .rx va 16) :: imageChks chk va count
        s.onceChecked x f act cs
          (s.startLoad x f act (f.slotImm f.a).toNat va first count ((cs.drop 1).map fun c => c.2.phys)))) s

/-- DICTSW (R163, R164). -/
def execDictsw (f : Form) (s : State) : Host.Outcome State Fault Refusal :=
  onceStep (.dictsw f) f true (fun x _ _ act s =>
    let k := (f.slotImm f.a).toNat
    if !x.priv && (s.ctx? x.ctx).any (fun c => c.trapdict = k) then s.onceFault x f act .dictPriv 0
    else (s.updWarp x.wg x.warp fun v => { v with pending := k }).endIssue x f []) s

/-- DFENCE once its loads are complete and its lanes' writes have performed (R163, R164, R298). -/
def State.fenceSlots (s : State) (x : Iss) (f : Form) (act : List Act) (v : Warp) : State :=
  if v.loadFail then
    (s.updWarp x.wg x.warp fun v => { v with loadFail := false }).onceFault x f act .dictLoad 0
  else if !(s.slotOf x.core x.ctx v.pending).any (fun d => d.image.isSome) then s.onceFault x f act .dictSlotEmpty 0
  else
    let s := (s.updWarp x.wg x.warp fun v => { v with active := v.pending }).endIssue x f []
    if v.active = v.pending then s
    else s.traceRecord x.ctx (s.laneIdentity x.ctx x.core ⟨x.wg, x.warp, 0⟩ true v.pending) 3 v.pending v.active 0 0

/-- DFENCE (R163, R164, R298). -/
def execDfence (f : Form) (s : State) : Host.Outcome State Fault Refusal :=
  onceStep (.dfence f) f true (fun x _ _ act s =>
    match s.warp? x.wg x.warp with
    | none => s
    | some v =>
      if v.loading != [] || !x.members.all (fun m => s.quiet m.ref false) then s.stall x .dictFence
      else s.fenceSlots x f act v) s

/-- SWRITE of TRAPDICT (R167, R333): the slot it names is bound and loaded on every core of the context where it is not
yet bound. -/
def execSwriteTrapdict (f : Form) (s : State) : Host.Outcome State Fault Refusal :=
  onceStep (.swriteTrapdict f) f true (fun x e g act s =>
    match e.once x f act f.b g.b with
    | none => s.onceFault x f act .regLatch (latchDetail f g)
    | some v =>
      if !x.priv then s.onceFault x f act .illPriv 0
      else
        let s := s.updCtx x.ctx fun c => { c with trapdict := v.toNat % 4 }
        let cores := ((s.wgs.filter fun g => g.ctx = x.ctx && g.resident).map Workgroup.core).eraseDups
        (cores.foldl (fun s c => s.trapLoad x.ctx c) s).endIdle x f g) s

/-! ### The loads (R158, R167) -/

/-- The entries an image stores, and the count of the templates replaced (R153, R154, R158). -/
def loadEntries (s : State) (j : DictJob) (unreadable : List Nat) : List (Nat × Template) × Nat :=
  let entry (e : Nat × Nat) : (Nat × Template) × Nat :=
    let t : Template := BitVec.ofNat 128 (Memory.le s.mem e.2 16)
    let bad := s.poisoned e.2 || unreadable.contains (e.2 / 64)
    if !bad && (templateMop t).toNat = 0x3FF then ((j.first + e.1, undefinedTemplate), 0)
    else if !bad && templateValid j.priv t then ((j.first + e.1, t), 0)
    else ((j.first + e.1, undefinedTemplate), 1)
  let all := j.lines.zipIdx.map fun l => entry (l.2, l.1)
  (all.map Prod.fst, all.foldl (fun n e => n + e.2) 0)

/-- The load of a slot completes: its image, the counts, LOADING and REJECTED of its warp, and the trace record (R158,
R164, R485). -/
def State.finishLoad (s : State) (core : Nat) (j : DictJob) (unreadable : List Nat) : State :=
  let r := loadEntries s j unreadable
  let spoilt := (s.core core).slots.any fun d => d.phys = j.phys && d.emptied
  let fill (d : DictSlot) : DictSlot :=
    if d.phys = j.phys then
      { d with image := some r.1, emptied := false, loads := d.loads + 1, lastVa := j.va, rejected := r.2 } else d
  let s := s.updCore core fun c => { c with slots := c.slots.map fill, jobs := c.jobs.filter fun k => k.id != j.id }
  let s := match j.warp with
    | some (wg, w) => s.updWarp wg w fun v =>
        { v with loading := v.loading.filter (fun l => l.2 != j.id), rejected := r.2, loadFail := v.loadFail || spoilt }
    | none => s
  let s := match j.launchWg with
    | some wg => s.updWg wg fun g => { g with warps := g.warps.map fun v : Warp => { v with rejected := r.2 } }
    | none => s
  let loads := (((s.slotOf core j.ctx j.prog)).map DictSlot.loads).getD 0
  let who : LaneRef := match j.warp, j.launchWg with
    | some (wg, w), _ => ⟨wg, w, 0⟩
    | none, some wg => ⟨wg, 0, 0⟩
    | none, none => ⟨s.seq, 0, 0⟩
  let slot := ((s.warp? who.wg who.warp).map Warp.active).getD 0
  s.traceRecord j.ctx (s.laneIdentity j.ctx core who true slot) 2 j.prog r.2 loads j.va.toNat

/-- A load from TRAPIMG reads and checks its header and image, then loads: what it finds absent is serviced with no lane,
and its failures are fatal (R167). -/
def State.loadTrap (s : State) (core : Nat) (j : DictJob) (unreadable : List Nat) : State :=
  let va := j.va.toNat
  let bad (s : State) (b : Nat × Chk) : State :=
    match b.2 with
    | .fault c => s.killContext j.ctx c
    | .absent => (s.park j.ctx core b.1 [] false).getD s
    | _ => s
  let h := s.checkTables j.ctx .rx va 16
  match firstBad [(va, h)] with
  | some b => bad s b
  | none =>
    if s.poisoned h.phys || unreadable.contains (h.phys / 64) then s.killContext j.ctx .eccHbm
    else match headerOk (Memory.bytes s.mem h.phys 16) with
    | none => s.killContext j.ctx .dictLoad
    | some (first, count) =>
      let cs := imageChks (s.checkTables j.ctx) va count
      match firstBad cs with
      | some b => bad s b
      | none => s.finishLoad core { j with first := first, count := count, lines := cs.map fun c => c.2.phys } unreadable

/-- DICT_SLOT_LOAD (R158): the oldest load into a physical slot of a core, with the lines found unreadable. -/
def execDictSlotLoad (core phys : Nat) (unreadable : List Nat) (s : State) : Host.Outcome State Fault Refusal :=
  match (s.core core).jobs.find? fun j => j.phys = phys with
  | none => .next s
  | some j => .next (if j.first = 0 then s.loadTrap core j unreadable else s.finishLoad core j unreadable)

/-- DICT_SLOT_UE (R45, R169): the slot stays bound, emptied. -/
def execDictSlotUe (core phys : Nat) (s : State) : Host.Outcome State Fault Refusal :=
  .next (if (s.core core).slots.any (fun d => d.phys = phys) then
      s.updCore core fun c =>
        { c with slots := mapIf (fun d => d.phys = phys) (fun d => { d with image := none, emptied := true }) c.slots }
    else s)

end Sys2Proof.Machine
end

