-- ==== Sys2Proof/Machine/Special.lean ====
section
/-! DEFINITION. SREAD and SWRITE of the special registers (R60, R68, R332, R333, R475, R487, R488). -/

namespace Sys2Proof.Machine

/-- DICTSEL as an issue reads it (R165). -/
def State.dictsel (s : State) (x : Iss) (v : Warp) : Nat :=
  let act := if x.carried.isSome then x.dslot else v.active
  let pend := if x.carried.isSome then x.dslot else v.pending
  let loaded (k : Nat) : Nat := if (s.slotOf x.core x.ctx k).any (fun d => d.image.isSome) then 2 ^ (4 + k) else 0
  let loading (k : Nat) : Nat := if v.loading.any (fun l => l.1 = k) then 2 ^ (8 + k) else 0
  let trap := if v.privileged then 2 ^ 12 * v.trapAct + 2 ^ 14 * v.trapPend else 0
  act + 4 * pend + ((List.range 4).map fun k => loaded k + loading k).sum + trap + 2 ^ 16 * (v.rejected % 1024)

/-- A field of what a pixel lane holds: 0 outside a pixel launch (R332). -/
def Lane.ofPixel (l : Lane) (k : Pixel → Nat) : Nat := (l.pixel.map k).getD 0

/-- Registers a lane holds (R332): none for an index that is not one of them. -/
def laneSpecial (r : LaneRef) (l : Lane) (n : Nat) : Option Nat :=
  match n with
  | 0x00 => some r.lane
  | 0x0C => some l.wbase
  | 0x14 => some (l.stack.length + 256 * l.spilled)
  | 0x15 => some (if l.helper then 1 else 0)
  | 0x16 => some (l.ofPixel fun p => p.psn.toNat)
  | 0x17 => some (l.ofPixel fun p => p.xy.toNat)
  | 0x18 => some (l.ofPixel fun p => p.bary0.toNat)
  | 0x19 => some (l.ofPixel fun p => p.bary1.toNat)
  | 0x1A => some (l.ofPixel fun p => p.mask.toNat)
  | 0x31 => some l.trappc.toNat
  | _ => none

/-- Registers held per warp or wider (R332). -/
def State.warpSpecial (s : State) (x : Iss) (r : LaneRef) (g : Workgroup) (v : Warp) (c : Context) (n : Nat) : Nat :=
  match n with
  | 0x01 => r.warp
  | 0x02 => g.wgx
  | 0x03 => g.wgy
  | 0x04 => g.wgz
  | 0x05 => if g.pixelCmd.isSome then 0 else g.gang
  | 0x06 => x.core % 256
  | 0x07 => x.pane
  | 0x08 => clusterOf x.core
  | 0x09 => dieOf x.core
  | 0x0A => x.ctx
  | 0x0B => v.role
  | 0x0D => s.dictsel x v
  | 0x0E => if c.preq then 1 else 0
  | 0x0F => s.clock % 2 ^ 64
  | 0x10 => s.clock / 2 ^ 32 % 2 ^ 32
  | 0x11 => v.fpstat.toNat
  | 0x12 => v.srseed.toNat
  | 0x13 => v.csbase.toNat
  | 0x30 => v.trapCause.toNat
  | 0x32 => v.trapLane
  | 0x33 => c.trapbase.toNat
  | 0x34 => v.skid
  | 0x35 => c.trapdict
  | 0x40 => c.cexctl.toNat
  | 0x41 => c.cexlo.toNat
  | 0x42 => c.cexhi.toNat
  | 0x43 => c.cexdelay.toNat
  | 0x44 => c.cexprog.toNat
  | _ =>
    if 0x20 ≤ n && n ≤ 0x27 then (g.args.getD (n - 0x20) 0).toNat
    else if 0x48 ≤ n && n ≤ 0x4F then (((s.core x.core).pcmp.map Prod.fst).getD (n - 0x48) 0).toNat
    else 0

/-- The registers held per context, for a control core, which is of none: they read 0 (log 13). -/
def noContext : Context := { Context.created 0 0 with trapdict := 0 }

/-- The value of a special register for a lane (R332, R333): on a control core too, where the registers of a place and of a context read
0 (R162; log 13). -/
def State.special (s : State) (x : Iss) (r : LaneRef) (n : Nat) : DWord :=
  match s.lane? r, s.wg? r.wg, s.warp? r.wg r.warp with
  | some l, some g, some v =>
    dwordOf (match laneSpecial r l n, s.ctx? x.ctx with
      | some w, _ => w
      | none, some c => s.warpSpecial x r g v c n
      | none, none => if 0x06 ≤ n && n ≤ 0x0A then 0 else s.warpSpecial x r g v noContext n)
  | _, _, _ => 0

/-- SREAD (R333). -/
def execSread (f : Form) (s : State) : Host.Outcome State Fault Refusal :=
  match front (.sread f) f false s with
  | .over o => o
  | .go x e g act =>
    let n := (f.slotImm f.a).toNat
    let words (r : LaneRef) : List Word := valWords (g.d.width f.ty) (s.special x r n)
    let args (a : Act) : Option Args := e.args f g x.wbase a.m.pos a.lane
    .next (if f.d.cls = .uniform then s.onceVal x f act (words ⟨x.wg, x.warp, 0⟩)
      else s.commit x f g act (act.filterMap fun a => (args a).map fun _ => ⟨a, words a.m.ref, 0⟩)
        (act.filterMap fun a => match args a with | none => some (e.lackFault f g a) | some _ => none))

/-! ### SWRITE -/

/-- The common course of a SWRITE that acts once per issue: `k` takes the value (R333). -/
def swriteStep (i : Instr) (f : Form) (priv : Bool) (k : Iss → DWord → State → State ⊕ Cause) (s : State) :
    Host.Outcome State Fault Refusal :=
  onceStep i f true (fun x e g act s =>
    match e.once x f act f.b g.b with
    | none => s.onceFault x f act .regLatch (latchDetail f g)
    | some v =>
      if priv && !x.priv then s.onceFault x f act .illPriv 0
      else match k x v s with
      | .inl t => (t.setRows x (releaseLu f g x.wbase (t.rowsOf x))).endIssue x f []
      | .inr c => s.onceFault x f act c 0) s

/-- A write of a causal-experiment register other than CEXCTL (R487). -/
def writeCex (n : Nat) (v : DWord) (c : Context) : Context ⊕ Cause :=
  if n != 0x43 && n != 0x44 && v.toNat % 4 != 0 then .inr .addrAlign
  else if n != 0x44 && c.cexctl.getLsbD 0 then .inr .illField
  else .inl (match n with
    | 0x41 => { c with cexlo := v.extractLsb' 0 32 }
    | 0x42 => { c with cexhi := v.extractLsb' 0 32 }
    | 0x43 => { c with cexdelay := wordOf (c.cexdelay.toNat / 4096 * 4096 + v.toNat % 4096) }
    | _ => { c with cexprog := v.extractLsb' 0 32 })

/-- A write of a context's register by an issue. -/
def State.writeCtx (s : State) (ctx : Nat) (k : Context → Context ⊕ Cause) : State ⊕ Cause :=
  match s.ctx? ctx with
  | none => .inl s
  | some c => match k c with
    | .inl d => .inl (s.updCtx ctx fun _ => d)
    | .inr e => .inr e

/-- What SWRITE does to a register that has no row of its own (R60, R332, R333, R381). -/
def swriteEffect (n : Nat) (x : Iss) (v : DWord) (s : State) : State ⊕ Cause :=
  match n with
  | 0x11 => .inl (s.updWarp x.wg x.warp fun w => { w with fpstat := v.extractLsb' 0 32 &&& 0x3F3F })
  | 0x13 => if v.toNat % 8 != 0 then .inr .addrAlign else .inl (s.updWarp x.wg x.warp fun w => { w with csbase := v })
  | 0x30 => .inl (s.updWarp x.wg x.warp fun w => { w with trapCause := v.extractLsb' 0 8 })
  | 0x33 => if v.toNat % 4096 != 0 then .inr .addrAlign else s.writeCtx x.ctx fun c => .inl { c with trapbase := v }
  | _ => s.writeCtx x.ctx (writeCex n v)

/-- SWRITE of FPSTAT, CSBASE, TRAPCAUSE, TRAPBASE, CEXLO, CEXHI, CEXDELAY and CEXPROG (R333). -/
def execSwrite (f : Form) (s : State) : Host.Outcome State Fault Refusal :=
  let n := (f.slotImm f.a).toNat
  swriteStep (.swrite f) f (specialPriv n) (swriteEffect n) s

/-- SWRITE of SRSEED: a 0 stores 0x2545_F491 (R68). -/
def execSwriteSrseed (f : Form) (s : State) : Host.Outcome State Fault Refusal :=
  swriteStep (.swriteSrseed f) f false (fun x v s =>
    let w : Word := v.extractLsb' 0 32
    .inl (s.updWarp x.wg x.warp fun q => { q with srseed := if w = 0 then 0x2545F491 else w })) s

/-- A write of CEXCTL (R487, R488): one that sets RUN starts an experiment. -/
def writeCexctl (v : DWord) (c : Context) : Context ⊕ Cause :=
  let w : Word := v.extractLsb' 0 32
  let run := w.getLsbD 0
  if w.extractLsb' 4 12 != 0 then .inr .illField
  else if run && (c.cexhi.toNat ≤ c.cexlo.toNat || w.extractLsb' 16 16 = 0) then .inr .illField
  else if run then
    .inl { c with cexctl := w &&& 0xFFFFFFFD, cexdelay := wordOf (c.cexdelay.toNat % 4096), cexprog := 0, cexPart := 0 }
  else .inl { c with cexctl := w }

/-- SWRITE of CEXCTL (R488). -/
def execSwriteCexctl (f : Form) (s : State) : Host.Outcome State Fault Refusal :=
  swriteStep (.swriteCexctl f) f true (fun x v s => s.writeCtx x.ctx (writeCexctl v)) s

/-- SWRITE of a PC comparator of the core: its owner is the writer's context (R475). -/
def execSwritePcmp (f : Form) (s : State) : Host.Outcome State Fault Refusal :=
  let n := (f.slotImm f.a).toNat - 0x48
  swriteStep (.swritePcmp f) f true (fun x v s =>
    let w : Word := v.extractLsb' 0 32
    if w.extractLsb' 27 5 != 0 then .inr .illField
    else .inl (s.updCore x.core fun c => { c with pcmp := setNth c.pcmp n (w, x.ctx) })) s

/-- SWRITE of TRAPPC in a lane (R327, R333). -/
def trappcLane (f : Form) (x : Iss) (a : Act) (args : Args) (s : State) : State × Done :=
  if !x.priv then (s, .fault .illPriv 0)
  else (s.updLane a.m.ref fun l => { l with trappc := args.b.extractLsb' 0 32, pc := nextPc f x.pc }, .ok)

/-- SWRITE of TRAPPC (R327, R333): each lane writes its own. -/
def execSwriteTrappc (f : Form) (s : State) : Host.Outcome State Fault Refusal :=
  laneStep (.swriteTrappc f) f true .none (trappcLane f) s

end Sys2Proof.Machine
end

