-- ==== Sys2Proof/Machine/Memory.lean ====
section
/-! DEFINITION. Loads, stores, vault forms, atomics, reductions, line control, prefetch, fences, waits on memory and sync
words, and texture reads (R227 to R252, R263 to R267), with the events by which accesses perform (R128, R145, R288). -/

namespace Sys2Proof.Machine

/-! ### The course of a memory instruction -/

/-- Whether an access is an acquire or a release: every scope but that of the lane (R231). -/
def strong (f : Form) : Bool := f.sc != .lane

/-- The access size of LD, ST, LDS, LDV and STV (R230). -/
def accSize (f : Form) : Nat :=
  match f.m2.toNat with
  | 1 => 1
  | 2 => 2
  | _ => if wideTy f.ty then 8 else 4

/-- The access size of atomics, reductions and WAITW (R240). -/
def atomSize (f : Form) : Nat := if wideTy f.ty then 8 else 4

/-- The effective address of Addr and Off (R229). -/
def effAddr (a off : DWord) : Nat := (a + (off.extractLsb' 0 32).signExtend 64).toNat

/-- Operands of type TY at an access's size. -/
def sized (n : Nat) (v : DWord) : DWord := dwordOf (v.toNat % 2 ^ (8 * n))

/-- What a lane that has no operands does: it faults, but a helper lane makes no access, and takes 0 (R85, R232). -/
def Env.lackAsk (e : Env) (f : Form) (g : Sig) (a : Act) : Ask :=
  if a.lane.helper then (if f.d.cls = .none then .nothing else .value (List.replicate (g.d.width f.ty) 0))
  else .fault (e.lack f g a.m.pos).1 (e.lack f g a.m.pos).2

/-- A memory instruction whose lanes each make one access. -/
def memStep (i : Instr) (f : Form) (acq rel : Bool) (ask : Iss → Act → Args → State → Ask) (s : State) :
    Host.Outcome State Fault Refusal :=
  match front i f false s with
  | .over o => o
  | .go x e g act =>
    .next (s.issueMem x f g act acq rel fun a =>
      match e.args f g x.wbase a.m.pos a.lane with
      | none => e.lackAsk f g a
      | some args => ask x a args s)

/-! ### LD, ST, PREF (R234, R236) -/

/-- LD (R234). -/
def execLd (f : Form) (s : State) : Host.Outcome State Fault Refusal :=
  memStep (.ld f) f (strong f) false (fun x a args s =>
    let ea := effAddr args.a args.b
    (s.poisonChk true (s.check x.core x.ctx .r ea (accSize f))).ask a.lane.helper (if wideTy f.ty then 2 else 1) ea
      fun p => .access (.load (f.ty = .i32)) p (accSize f)) s

/-- A plain store's request: none in a helper lane (R85). -/
def storeAsk (f : Form) (v : DWord) (x : Iss) (a : Act) (ea : Nat) (s : State) : Ask :=
  if a.lane.helper then .nothing
  else (s.check x.core x.ctx .w ea (accSize f)).ask false 0 ea fun p => .access (.store (leBytes (accSize f) v.toNat)) p (accSize f)

/-- The window offset a store reaches, if the hatch accepts it (R25, R269). -/
def hatchOffset (f : Form) (ea : Nat) : Option Nat :=
  match region ea with
  | .hatch off => if accSize f = 8 && off % 8 = 0 && off ≤ 0x20 then some (off / 8) else none
  | _ => none

/-- What an ST does in a lane: it enters the window's queue, or makes an access. -/
def stAsk (f : Form) (x : Iss) (a : Act) (args : Args) (s : State) : Ask :=
  let ea := effAddr args.a args.b
  match hatchOffset f ea with
  | some _ => if x.carried.isSome && !a.lane.helper then .fault .ctlBin 0 else .nothing
  | none => storeAsk f args.c x a ea s

/-- The entries of an ST for the window: its lanes in ascending position (R269). -/
def hatchEntries (f : Form) (gid : Nat) (as : List (Act × Args)) : List HatchEntry :=
  as.filterMap fun p =>
    if p.1.lane.helper then none
    else (hatchOffset f (effAddr p.2.a p.2.b)).map fun m => { gid := gid, lane := p.1.m.pos, m := m, val := p.2.c }

/-- An ST with stores to the hatch: its other lanes' accesses are made, and the group waits for the window (R269). -/
def State.issueHatch (s : State) (x : Iss) (f : Form) (g : Sig) (as : List (Act × Ask)) (es : List HatchEntry) : State :=
  let waits := as.filterMap fun p => match p.2 with | .wait ea => some ea | _ => none
  if waits != [] then (waits.foldl (fun s ea => s.startWalk x.core x.ctx ea) s).stall x .translation
  else
    let acc := accessesOf s x false (strong f) false [] [] as
    let faults := as.filterMap fun p => match p.2 with | .fault c d => some (p.1.m.pos, c, d) | _ => none
    let parks := as.filterMap fun p => match p.2 with | .park ea => some (p.1.m.pos, ea) | _ => none
    let regs (sl : Slot) (o : Opnd) : List Nat := if sl.lu then slotRegs f x.wbase sl o else []
    let lu := regs f.a g.a ++ regs f.b g.b ++ regs f.c g.c
    let s := { s with pend := s.pend ++ acc, seq := s.seq + 1 + acc.length }
    (s.updWarp x.wg x.warp fun v => { v with hatchq := v.hatchq ++ es }).setHold x.g
      (some (.window (nextPc f x.pc) lu faults parks))

/-- ST (R234, R269). -/
def execSt (f : Form) (s : State) : Host.Outcome State Fault Refusal :=
  match front (.st f) f false s with
  | .over o => o
  | .go x e g act =>
    let args (a : Act) : Option Args := e.args f g x.wbase a.m.pos a.lane
    let ask (a : Act) : Ask :=
      match args a with
      | none => e.lackAsk f g a
      | some v => stAsk f x a v s
    match x.g with
    | .home _ _ gid =>
      let es := hatchEntries f gid (act.filterMap fun a => (args a).map fun v => (a, v))
      .next (if es = [] then s.issueMem x f g act false (strong f) ask
        else s.issueHatch x f g (act.map fun a => (a, ask a)) es)
    | .reformed _ _ _ => .next (s.issueMem x f g act false (strong f) ask)

/-- Whether a check fails, by a fault or for want of a mapping. -/
def Chk.fails : Chk → Bool
  | .fault _ | .absent => true
  | _ => false

/-- LDS (R85, R235): once per issue; the accesses of the issue's lanes perform before it reads (log 8). Its failures spare helper
lanes: for helper lanes alone it writes 0, and beside lanes that fault or park they go on (DESIGN CHOICE, log 15). -/
def execLds (f : Form) (s : State) : Host.Outcome State Fault Refusal :=
  onceStep (.lds f) f true (fun x e g act s =>
    let ea := effAddr ((e.once x f act f.a g.a).getD 0) ((e.once x f act f.b g.b).getD 0)
    let s := s.drainAll x
    let c := s.poisonChk true (s.check x.core x.ctx .r ea (accSize f))
    let put (v : Nat) : State := s.commitUni x f (slotNum f f.d) (loadWords (accSize f) (f.ty = .i32) v) 0
    let seen := act.filter fun a => !a.lane.helper
    if seen = [] && c.fails then put 0
    else s.onceChecked x f seen [(ea, c)] (put (Memory.le s.mem c.phys (accSize f)))) s

/-- PREF in a lane (R236): a translation started, or, with SERVICE, a fault record without the lane. -/
def prefLane (f : Form) (x : Iss) (args : Args) (s : State) : State :=
  let ea := effAddr args.a args.b
  match region ea with
  | .paged =>
    match (s.ctx? x.ctx).bind fun c => pageOf c.pages ea with
    | some _ => s.startWalk x.core x.ctx ea
    | none => if f.m2 = 1 then (s.park x.ctx x.core ea [] false).getD s else s
  | _ => s

/-- PREF (R236): once decoded it never faults, so a lane without operands does nothing (log 15). -/
def execPref (f : Form) (s : State) : Host.Outcome State Fault Refusal :=
  match frontBin (.pref f) f (fun _ => false) s with
  | .over o => o
  | .go x e g act =>
    let s := act.foldl (fun s a =>
      match e.args f g x.wbase a.m.pos a.lane with
      | some args => prefLane f x args s
      | none => s) s
    .next (s.endIdle x f g)

/-! ### The vault forms (R112, R239) -/

/-- The workgroup whose scratchpad an Own or CORE form names (R112). -/
def State.vaultWg (s : State) (r : LaneRef) (core : Option Nat) : Option Workgroup :=
  match s.wg? r.wg, core with
  | some g, none => some g
  | some g, some c =>
    if c < 256 then
      s.wgs.find? fun h => h.launch = g.launch && h.gang = g.gang && h.core = g.core / 256 * 256 + c && !h.kept
    else none
  | none, _ => none

/-- The core index of a slot, where it is not of CLS 0 (R228). -/
def coreOf (sl : Slot) (v : DWord) : Option Nat := if sl.cls = .none then none else some (v.toNat % 2 ^ 32)

/-- The checks of a vault form (R112, R239). -/
def State.vaultChk (s : State) (r : LaneRef) (o size : Nat) (core : Option Nat) : Chk :=
  if o % size != 0 then .fault .addrAlign
  else match s.vaultWg r core with
  | none => .fault .addrRange
  | some g => if g.vbytes < o + size then .fault .addrRange else .ok (g.phys o)

/-- LDV (R239). -/
def execLdv (f : Form) (s : State) : Host.Outcome State Fault Refusal :=
  memStep (.ldv f) f (strong f) false (fun _ a args s =>
    let o := args.a.toNat % 2 ^ 32
    (s.poisonChk true (s.vaultChk a.m.ref o (accSize f) (coreOf f.b args.b))).ask a.lane.helper (if wideTy f.ty then 2 else 1) o
      fun p => .access (.load (f.ty = .i32)) p (accSize f)) s

/-- STV (R239). -/
def execStv (f : Form) (s : State) : Host.Outcome State Fault Refusal :=
  memStep (.stv f) f false (strong f) (fun _ a args s =>
    if a.lane.helper then .nothing
    else
      let o := args.a.toNat % 2 ^ 32
      (s.vaultChk a.m.ref o (accSize f) (coreOf f.c args.c)).ask false 0 o
        fun p => .access (.store (leBytes (accSize f) args.b.toNat)) p (accSize f)) s

/-! ### Atomics and reductions (R240 to R244) -/

/-- The request of an atomic: 0 in a helper lane (R85, R244). -/
def atomAsk (f : Form) (a : Act) (ea : Nat) (c : Chk) (k : AccessKind) (s : State) : Ask :=
  if a.lane.helper then .value (List.replicate (atomSize f / 4) 0)
  else (s.poisonChk true c).ask false 0 ea fun p => .access k p (atomSize f)

/-- The request of a reduction: none in a helper lane; a poisoned line is seen where it is applied (R244). -/
def redAsk (f : Form) (a : Act) (ea : Nat) (c : Chk) (v : DWord) : Ask :=
  if a.lane.helper then .nothing
  else c.ask false 0 ea fun p => .access (.red f.ty f.m2.toNat (sized (atomSize f) v)) p (atomSize f)

/-- ATOM (R242). -/
def execAtom (f : Form) (s : State) : Host.Outcome State Fault Refusal :=
  memStep (.atom f) f (strong f) (strong f) (fun x a args s =>
    let ea := effAddr args.a args.b
    atomAsk f a ea (s.check x.core x.ctx .rw ea (atomSize f)) (.atom f.ty f.m2.toNat (sized (atomSize f) args.c)) s) s

/-- ATOMV (R242). -/
def execAtomv (f : Form) (s : State) : Host.Outcome State Fault Refusal :=
  memStep (.atomv f) f (strong f) (strong f) (fun _ a args s =>
    let o := args.a.toNat % 2 ^ 32
    atomAsk f a o (s.vaultChk a.m.ref o (atomSize f) (coreOf f.c args.c)) (.atom f.ty f.m2.toNat (sized (atomSize f) args.b)) s) s

/-- CAS (R242). -/
def execCas (f : Form) (s : State) : Host.Outcome State Fault Refusal :=
  memStep (.cas f) f (strong f) (strong f) (fun x a args s =>
    let ea := args.a.toNat
    atomAsk f a ea (s.check x.core x.ctx .rw ea (atomSize f))
      (.cas (sized (atomSize f) args.b) (sized (atomSize f) args.c)) s) s

/-- RED (R242). -/
def execRed (f : Form) (s : State) : Host.Outcome State Fault Refusal :=
  memStep (.red f) f false (strong f) (fun x a args s =>
    let ea := effAddr args.a args.b
    redAsk f a ea (s.check x.core x.ctx .rw ea (atomSize f)) args.c) s

/-- REDV (R242). -/
def execRedv (f : Form) (s : State) : Host.Outcome State Fault Refusal :=
  memStep (.redv f) f false (strong f) (fun _ a args s =>
    let o := args.a.toNat % 2 ^ 32
    redAsk f a o (s.vaultChk a.m.ref o (atomSize f) (coreOf f.c args.c)) args.b) s

/-! ### Fences and line control (R237, R247) -/

/-- FENCE (R247, R289): it completes once the earlier accesses of its lanes have performed, reads alone for ACQ. -/
def execFence (f : Form) (s : State) : Host.Outcome State Fault Refusal :=
  match front (.fence f) f false s with
  | .over o => o
  | .go x _ _ act =>
    .next (if act.all fun a => s.quiet a.m.ref (f.m2 = 1) then s.endIssue x f [] else s.stall x .memoryData)

/-- LINE.ZERO (R237): a store of 64 bytes of 0. -/
def execLineZero (f : Form) (s : State) : Host.Outcome State Fault Refusal :=
  memStep (.lineZero f) f false (strong f) (fun x a args s =>
    if a.lane.helper then .nothing
    else
      let ea := effAddr args.a args.b
      (s.check x.core x.ctx .w ea 64).ask false 0 ea fun p => .access (.store (List.replicate 64 0)) p 64) s

/-- What LINE.PROBE reads in a lane: the poison of the line, 0 on a host page (R237). -/
def probeAsk (x : Iss) (a : Act) (args : Args) (s : State) : Ask :=
  let ea := effAddr args.a args.b
  (s.check x.core x.ctx .r ea 64).ask a.lane.helper 1 ea fun p => .value [if !inHostMem p && s.poisoned p then 1 else 0]

/-- LINE.PROBE (R237): the accesses of the issue's lanes perform before it reads (log 8). -/
def execLineProbe (f : Form) (s : State) : Host.Outcome State Fault Refusal :=
  match front (.lineProbe f) f false s with
  | .over o => o
  | .go x e g act =>
    let s := s.drainAll x
    let as := act.map fun a => (a, match e.args f g x.wbase a.m.pos a.lane with
      | none => e.lackAsk f g a
      | some args => probeAsk x a args s)
    let waits := as.filterMap fun p => match p.2 with | .wait ea => some ea | _ => none
    if waits != [] then .next ((waits.foldl (fun s ea => s.startWalk x.core x.ctx ea) s).stall x .translation)
    else
      let faults := as.filterMap fun p => match p.2 with | .fault c d => some (⟨p.1.m.ref, c, d⟩ : LaneFault) | _ => none
      let parks := as.filterMap fun p => match p.2 with | .park ea => some (p.1.m.ref, ea) | _ => none
      let s := if faults = [] && parks = [] then s.setRows x (releaseLu f g x.wbase (s.rowsOf x)) else s
      let s := as.foldl (fun s p => match p.2 with
        | .value ws => s.updLane p.1.m.ref fun l => l.setPred (slotNum f f.d) ((ws.headD 0) != 0)
        | _ => s) s
      .next (s.endMem x f faults parks)

/-! ### Waits with a destination (R139, R491) -/

/-- What such an instruction gives in a lane at issue: its result, a wait, a fault, a park, or a wait for translation. -/
inductive Held where
  | now (words : List Word) (pred : Option Bool)
  | wait (w : Wait)
  | fault (c : Cause) (detail : BitVec 52)
  | park (ea : Nat)
  | walk (ea : Nat)
  deriving DecidableEq, Repr

/-- What such an instruction gives in a lane that has no operands (R85, R232). -/
def Env.lackHeld (e : Env) (f : Form) (g : Sig) (a : Act) : Held :=
  if a.lane.helper then .now (List.replicate (g.d.width f.ty) 0) none
  else .fault (e.lack f g a.m.pos).1 (e.lack f g a.m.pos).2

/-- The destination of a lane's wait. -/
def waitDest (x : Iss) (f : Form) (g : Sig) (a : Act) (pred : Option Nat) : Dest :=
  { regs := dstRegs f g x.wbase, pos := a.m.pos, nwb := f.nwb, pred := pred }

/-- The registers that LU releases, with what a lane held in them: for a wait that ends in a fault or a park (R148). -/
def luKept (f : Form) (g : Sig) (wbase : Nat) (rows : List Row) (pos : Nat) : List (Nat × Word) :=
  let regs (s : Slot) (o : Opnd) : List Nat := if s.lu then slotRegs f wbase s o else []
  (regs f.a g.a ++ regs f.b g.b ++ regs f.c g.c).filterMap fun n => (findRow rows n).map fun r => (n, r.vals.getD pos 0)

/-- Such an instruction issued: results at hand are written, the other lanes wait, the latches take the empty state, and
the group splits (R139, R146, R491). A predicate result stands in register `pred`. -/
def State.issueWait (s : State) (x : Iss) (f : Form) (g : Sig) (act : List Act) (pred : Option Nat) (held : Act → Held)
    (late : Bool := true) : State :=
  let hs := act.map fun a => (a, held a)
  let walks := hs.filterMap fun p => match p.2 with | .walk ea => some ea | _ => none
  if walks != [] then (walks.foldl (fun s ea => s.startWalk x.core x.ctx ea) s).stall x .translation
  else
    let faults := hs.filterMap fun p => match p.2 with | .fault c d => some (⟨p.1.m.ref, c, d⟩ : LaneFault) | _ => none
    let parks := hs.filterMap fun p => match p.2 with | .park ea => some (p.1.m.ref, ea) | _ => none
    let nows := hs.filterMap fun p => match p.2 with | .now ws b => some (p.1, ws, b) | _ => none
    let kept (pos : Nat) : List (Nat × Word) := if faults = [] && parks = [] then luKept f g x.wbase (s.rowsOf x) pos else []
    let waits := hs.filterMap fun p => match p.2 with | .wait w => some (p.1, w.keeping (kept p.1.m.pos)) | _ => none
    let regs := dstRegs f g x.wbase
    let live := nows.map (fun p => p.1) ++ waits.map fun p => p.1
    let rows := if faults = [] && parks = [] then releaseLu f g x.wbase (s.rowsOf x) else s.rowsOf x
    match prepDest (s.mapLimit x) rows regs (!f.nwb && live != []) (decide (live.length = 32)) with
    | .inl .full =>
      s.endMem x f (inOrder x (faults ++ live.map fun a => ⟨a.m.ref, .regLivemax, BitVec.ofNat 52 (regs.headD 0)⟩)) parks
    | .inl _ => s.stall x .memoryData
    | .inr (rows, ids) =>
      if !late && !f.nwb && decide (act.length < x.members.length) && regs.any (rowBusy rows) then s.stall x .memoryData
      else
      let rows := writeResults rows ids (nows.map fun p => (p.1.m.pos, p.2.1))
      let res := nows.map fun p => (p.1.m.pos, p.2.1.map Latch.full)
      let entry (k pos : Nat) : Latch := if late then .empty else latchEntry x act f.nwb rows regs res k pos
      let s := s.setRows x rows
      let s := nows.foldl (fun s p => match pred, p.2.2 with
        | some n, some b => s.updLane p.1.m.ref fun l => l.setPred n b
        | _, _ => s) s
      let s := s.shiftPipe x regs.length entry
      let s := s.setHold x.g none
      let stays (r : LaneRef) : Bool := faults.any (fun q => q.lane = r) || parks.any (fun p => p.1 = r)
        || waits.any fun p => p.1.m.ref = r
      let s := s.moveLanes ((x.members.map Member.ref).filter fun r => !stays r) (nextPc f x.pc)
      let s := waits.foldl (fun s p => s.updLane p.1.m.ref fun l => { l with st := .waiting p.2, npc := nextPc f x.pc }) s
      let s := s.parkLanes x parks
      let s := if waits = [] && parks = [] then s else (s.regroup x.g ⟨.none, 0⟩).holdUnparked x (parks.map Prod.fst)
      let s := s.raise faults
      if waits = [] && parks = [] then s else s.afterAll (act.map fun a => a.m.ref)

/-! ### WAITW (R245, R246) -/

/-- Whether WAITW compares signed values (R245). -/
def waitSigned (f : Form) : Bool := f.ty = .i32 || f.ty = .i64

/-- WAITW in a lane: a helper lane's failing read gives 0 (R85). -/
def waitwHeld (f : Form) (x : Iss) (a : Act) (args : Args) (dst : Dest) (s : State) : Held :=
  let n := atomSize f
  let ea := effAddr args.a args.b
  let val := sized n args.c
  let test (w : Nat) : Held :=
    if waitwTest (waitSigned f) n f.m2.toNat (dwordOf w) val then .now (valWords (n / 4) (dwordOf w)) none
    else .wait (.waitw ea n (waitSigned f) f.m2.toNat val s.clock dst)
  match s.poisonChk true (s.check x.core x.ctx .r ea n) with
  | .ok p => test (Memory.le s.mem p n)
  | .fault c => if a.lane.helper then test 0 else .fault c (eaDetail ea)
  | .absent => if a.lane.helper then test 0 else .park ea
  | .wait => .walk ea

/-- WAITW (R245). -/
def execWaitw (f : Form) (s : State) : Host.Outcome State Fault Refusal :=
  match front (.waitw f) f false s with
  | .over o => o
  | .go x e g act =>
    let s := s.drainAll x
    .next (s.issueWait x f g act none fun a =>
      match e.args f g x.wbase a.m.pos a.lane with
      | none => e.lackHeld f g a
      | some args => waitwHeld f x a args (waitDest x f g a none) s)

/-- What a re-read of a WAITW finds. -/
inductive Reread where
  | ends (e : WaitEnd)
  | fault (f : LaneFault)
  | park (r : LaneRef) (ea : Nat)
  | walk (core ctx ea : Nat)
  | stay

/-- One re-read of a WAITW: the lane translates and reads afresh. A helper lane's failing read gives 0, as at issue; a HALTED
lane's fault or park waits for RTE (R85, R232, R245, R379). -/
def State.reread (s : State) (e : Waiter × Wait) : Reread :=
  match e.2, s.wg? e.1.ref.wg with
  | .waitw ea n signed cmp val _ dst, some g =>
    let w := e.1
    let test (v : DWord) : Reread := if waitwTest signed n cmp v val then .ends ⟨w, valWords (n / 4) v, none, dst⟩ else .stay
    let helper := (s.lane? w.ref).any Lane.helper
    if !g.resident then .stay
    else match s.poisonChk true (s.check g.core g.ctx .r ea n) with
    | .ok p => test (dwordOf (Memory.le s.mem p n))
    | .fault c => if helper then test 0 else if s.held w then .stay else .fault ⟨w.ref, c, eaDetail ea⟩
    | .absent => if helper then test 0 else if s.held w then .stay else .park w.ref ea
    | .wait => .walk g.core g.ctx ea
  | _, _ => .stay

/-- A lane whose re-read finds no mapping parks; in privileged mode that is fatal (R121, R245, R383). -/
def State.rereadPark (s : State) (p : LaneRef × Nat) : State :=
  match s.wg? p.1.wg with
  | none => s
  | some g =>
    if (s.warp? p.1.wg p.1.warp).any Warp.privileged then
      s.killContext g.ctx .pageAbsent (some ⟨p.1, .pageAbsent, eaDetail p.2⟩)
    else match (s.keepRegs p.1).park g.ctx g.core p.2 [p.1] false with
      | some t => t.afterLanes p.1.wg p.1.warp
      | none => s

/-- The lanes of the issue group a lane is in: they leave a wait together (R491). -/
def State.groupMates (s : State) (r : LaneRef) : List LaneRef :=
  match s.wg? r.wg, s.warp? r.wg r.warp, (s.lane? r).bind Lane.reformed with
  | some g, _, some slot =>
    match (s.core g.core).groups.find? fun q => q.slot = slot with
    | none => [r]
    | some q =>
      let of (x : Group) : List LaneRef := x.lanes.filterMap fun p => q.lanes.getD p none
      ((q.groups.map of).find? fun l => l.contains r).getD [r]
  | _, some v, _ => ((v.ring.find? fun q => q.lanes.contains r.lane).map fun q => q.lanes.map fun p => (⟨r.wg, r.warp, p⟩ : LaneRef)).getD [r]
  | _, _, _ => [r]

/-- WAITW_REREAD (R245): the lane and those of its issue group read again, for every WAITW they stand in, one of a handler's lane and
one it held before the handler alike; those whose tests hold go on together (R491). -/
def execWaitwReread (lane : LaneRef) (s : State) : Host.Outcome State Fault Refusal :=
  let rs := ((s.groupMates lane).flatMap s.waitsOf).map s.reread
  let late := (s.groupMates lane).filterMap s.landedEnd
  let done := rs.filterMap fun q => match q with | .ends e => some e | _ => none
  let faults := rs.filterMap fun q => match q with | .fault f => some f | _ => none
  let parks := rs.filterMap fun q => match q with | .park r ea => some (r, ea) | _ => none
  let walk (s : State) (q : Reread) : State := match q with | .walk core ctx ea => s.startWalk core ctx ea | _ => s
  .next (parks.foldl State.rereadPark (((rs.foldl walk s).satisfyAll (done ++ late)).waitFaults faults))

/-- SYNC_EXTWAIT (R246): a HALTED lane's fault waits for RTE. -/
def execSyncExtwait (lane : LaneRef) (s : State) : Host.Outcome State Fault Refusal :=
  match (s.lane? lane).map Lane.st, s.wg? lane.wg with
  | some (.waiting (.waitw _ _ _ _ _ since _)), some g =>
    let limit := ((s.ctx? g.ctx).map Context.extwait).getD 0
    .next (if limit != 0 && decide (limit < s.clock - since) && g.resident && !s.held ⟨lane, 0⟩ then
        s.waitFault lane .syncExtwait 0
      else s)
  | _, _ => .next s

/-! ### Sync words (R263 to R267) -/

/-- SWARM (R265): its 16 bytes are read and written as one access. -/
def execSwarm (f : Form) (s : State) : Host.Outcome State Fault Refusal :=
  memStep (.swarm f) f (strong f) (strong f) (fun _ a args s =>
    if a.lane.helper then .value [0]
    else
      let o := args.a.toNat % 2 ^ 32
      (s.poisonChk true (s.vaultChk a.m.ref o 16 (coreOf f.c args.c))).ask false 0 o
        fun p => .access (.sync (args.b.extractLsb' 0 32)) p 16) s

/-- Whether SWWAIT's condition holds between a generation and the one it names (R267). -/
def genAfter (gen g : Word) : Bool := decide (1 ≤ (gen - g).toNat) && decide ((gen - g).toNat < 2 ^ 31)

/-- What SWWAIT finds in a lane: GEN where its condition holds (R267); in a helper lane that would fault, 0. -/
def State.swwaitLook (s : State) (r : LaneRef) (o : Nat) (g : Word) (core : Option Nat) : Held :=
  match s.poisonChk true (s.vaultChk r o 16 core) with
  | .ok p =>
    let gen : Word := wordOf (Memory.le s.mem (p + 8) 4)
    if genAfter gen g then .now [gen] none else .walk 0
  | .fault c => if (s.lane? r).any Lane.helper then .now [0] none else .fault c (eaDetail o)
  | _ => .walk 0

/-- The offset, generation and core index of a lane's SWWAIT. -/
def swwaitAsk (f : Form) (args : Args) : Nat × Word × Option Nat :=
  (args.a.toNat % 2 ^ 32, args.b.extractLsb' 0 32, coreOf f.c args.c)

/-- An SWWAIT whose condition does not hold in every lane: it has issued, the latches take the empty state, and its group
waits as one; lanes that fault leave it (R139, R267, R376, R491). -/
def State.swwaitHold (s : State) (x : Iss) (f : Form) (g : Sig) (asks : List (Act × Nat × Word × Option Nat))
    (faults : List LaneFault) : State :=
  let regs := dstRegs f g x.wbase
  let rows := if faults = [] then releaseLu f g x.wbase (s.rowsOf x) else s.rowsOf x
  match prepDest (s.mapLimit x) rows regs (!f.nwb) (decide (asks.length = 32)) with
  | .inl .full =>
    s.endMem x f (inOrder x (faults ++ asks.map fun a => ⟨a.1.m.ref, .regLivemax, BitVec.ofNat 52 (regs.headD 0)⟩)) []
  | .inl _ => s.stall x .memoryData
  | .inr (rows, _) =>
    let bad := (x.members.filter fun m => faults.any fun q => q.lane = m.ref).map Member.pos
    let kept := if faults = [] then asks.map fun a => (a.1.m.pos, luKept f g x.wbase (s.rowsOf x) a.1.m.pos) else []
    let s := ((s.setRows x rows).shiftPipe x regs.length fun _ _ => .empty).partGroup x.g bad
    ((s.setHold x.g (some (.swwait (asks.map fun a => (a.1.m.pos, a.2)) (nextPc f x.pc) regs f.nwb kept))).settleAt x.g).raise faults

/-- SWWAIT (R267, R491): its group is blocked until the condition holds in every lane, and nothing splits; the latches
take the empty state (R139). -/
def execSwwait (f : Form) (s : State) : Host.Outcome State Fault Refusal :=
  match front (.swwait f) f false s with
  | .over o => o
  | .go x e g act =>
    let s := s.drainAll x
    let args (a : Act) : Option Args := e.args f g x.wbase a.m.pos a.lane
    let held (a : Act) : Held :=
      match args a with
      | none => e.lackHeld f g a
      | some v => s.swwaitLook a.m.ref (swwaitAsk f v).1 (swwaitAsk f v).2.1 (swwaitAsk f v).2.2
    let waiting := act.any fun a => match held a with | .walk _ => true | _ => false
    let faults := act.filterMap fun a => match held a with | .fault c d => some (⟨a.m.ref, c, d⟩ : LaneFault) | _ => none
    let asks := act.filterMap fun a => (args a).bind fun v =>
      match held a with
      | .fault _ _ => none
      | _ => some (a, swwaitAsk f v)
    .next (if waiting then s.swwaitHold x f g asks faults else s.issueWait x f g act none held)

/-- What the lanes of a group in SWWAIT find is written one after another: the faults, or none where a result must wait for an earlier
one to its row (R146, R147). -/
def State.landLooks (regs : List Nat) (nwb : Bool) : List (Member × Held) → State → Option (State × List LaneFault)
  | [], s => some (s, [])
  | l :: rest, s =>
    match l.2 with
    | .now ws _ =>
      match s.landWords l.1.ref ws none { regs := regs, pos := l.1.pos, nwb := nwb, pred := none } with
      | .over t => State.landLooks regs nwb rest t
      | .wait => none
      | .full reg => (State.landLooks regs nwb rest s).map fun q => (q.1, ⟨l.1.ref, .regLivemax, BitVec.ofNat 52 reg⟩ :: q.2)
    | .fault c d => (State.landLooks regs nwb rest s).map fun q => (q.1, ⟨l.1.ref, c, d⟩ :: q.2)
    | _ => State.landLooks regs nwb rest s

/-- A group in SWWAIT looks again: once the condition holds in every lane, or a lane's look faults, its lanes go on with
GEN, or fault, with the registers that LU released (R148, R267). -/
def State.swwaitAgain (s : State) (x : Iss) (asks : List (Nat × Nat × Word × Option Nat)) (npc : Word) (regs : List Nat)
    (nwb : Bool) (kept : List (Nat × List (Nat × Word))) : State :=
  let looks := x.members.filterMap fun m =>
    (asks.find? fun a => a.1 = m.pos).map fun a => (m, s.swwaitLook m.ref a.2.1 a.2.2.1 a.2.2.2)
  if looks.any fun l => match l.2 with | .walk _ => true | _ => false then s
  else match State.landLooks regs nwb looks s with
  | none => s
  | some (s, faults) =>
    let bad := x.members.filter fun m => faults.any fun q => q.lane = m.ref
    let ok := (x.members.filter fun m => !bad.contains m).map Member.ref
    let s := bad.foldl (fun s m => s.giveBack m.ref (((kept.find? fun k => k.1 = m.pos).map Prod.snd).getD [])) s
    let s := (s.setHold x.g none).updLanes ok (Lane.moveTo npc)
    (if faults = [] then s.settleAt x.g else s.regroup x.g ⟨.none, 0⟩).raise faults

/-! ### Textures (R248 to R252) -/

/-- Bytes of a texel (R248). -/
def texelBytes (fmt : Nat) : Nat := if fmt = 1 then 8 else 4

/-- The integer and the weight of one axis of TEX (R250): `u` in F32, `w` the size. -/
def texAxis (linear : Bool) (u : Nat) (w : Nat) : Int × Nat :=
  let size := (roundRat fmtF32 .rne false w 1).bits
  let x := if linear then (fpFma fmtF32 .rne u size 0xBF000000).bits else (fpMul fmtF32 .rne u size).bits
  match fval fmtF32 x with
  | .nan _ => (0, 0)
  | .inf neg => if neg then (0, 0) else ((w : Int) - 1, 0)
  | .fin neg m =>
    let v : Int := signed neg m
    let unit : Int := fmtF32.unit
    let i0 := v / unit
    (i0, if linear then ((v - i0 * unit) * 256 / unit).toNat else 0)

/-- The address mode (R250). -/
def texWrap (t : Texture) (w : Nat) (i : Int) : Nat :=
  if t.wrap then (i % (w : Int)).toNat else (min (max i 0) ((w : Int) - 1)).toNat

/-- The virtual address of a texel (R248). -/
def Texture.addr (t : Texture) (i j : Int) : Nat :=
  (t.texels.toNat + (texWrap t t.h j * t.w + texWrap t t.w i) * texelBytes t.fmt) % 2 ^ 64

/-- The request of a texture read: the texels of nonzero weight, checked in order; a helper lane's failing texel gives 0
(R250 to R252, R85). -/
def texelAsk (s : State) (x : Iss) (a : Act) (t : Texture) (linear : Bool) (fx fy : Nat) (eas : List (Option Nat)) : Ask :=
  let n := texelBytes t.fmt
  let cs := eas.map fun o => o.map fun ea => (ea, s.poisonChk true (s.check x.core x.ctx .r ea n))
  let bad : Option (Nat × Chk) := (cs.filterMap id).find? fun c => match c.2 with
    | .ok _ => false
    | .wait => true
    | _ => !a.lane.helper
  match bad with
  | some (ea, .fault c) => .fault c (eaDetail ea)
  | some (ea, .absent) => .park ea
  | some (ea, _) => .wait ea
  | none =>
    let addrs := cs.map fun o => match o with | some (_, .ok p) => p + 1 | _ => 0
    .access (.texel t.fmt linear fx fy addrs) ((addrs.find? fun p => p != 0).getD 1 - 1) n

/-- The words of a two-register coordinate group. -/
def pairWords (e : Env) (f : Form) (g : Sig) (wbase pos : Nat) : Word × Word :=
  match e.words f wbase pos f.a g.a with
  | some (u :: v :: _) => (u, v)
  | _ => (0, 0)

/-- The course of TEX and TLD: `k` gives the request for a lane's texture and coordinates; a helper lane whose handle names no
texture takes 0 (R85). -/
def texStepOf (i : Instr) (f : Form) (k : Iss → Act → Texture → Word → Word → State → Ask) (s : State) :
    Host.Outcome State Fault Refusal :=
  match front i f false s with
  | .over o => o
  | .go x e g act =>
    .next (s.issueMem x f g act false false fun a =>
      match e.args f g x.wbase a.m.pos a.lane with
      | none => e.lackAsk f g a
      | some args =>
        let h : Word := args.b.extractLsb' 0 32
        let c := pairWords e f g x.wbase a.m.pos
        match s.texture? x.ctx h with
        | none => if a.lane.helper then .value [0, 0, 0, 0] else .fault .objHandle (h.setWidth 52)
        | some t => k x a t c.1 c.2 s)

/-- TEX (R250, R251). -/
def execTex (f : Form) (s : State) : Host.Outcome State Fault Refusal :=
  texStepOf (.tex f) f (fun x a t u v s =>
    let linear := f.m2 = 0
    let (i, fx) := texAxis linear u.toNat t.w
    let (j, fy) := texAxis linear v.toNat t.h
    texelAsk s x a t linear fx fy
      [some (t.addr i j), if fx != 0 then some (t.addr (i + 1) j) else none,
       if fy != 0 then some (t.addr i (j + 1)) else none,
       if fx != 0 && fy != 0 then some (t.addr (i + 1) (j + 1)) else none]) s

/-- TLD (R252). -/
def execTld (f : Form) (s : State) : Host.Outcome State Fault Refusal :=
  texStepOf (.tld f) f (fun x a t i j s => texelAsk s x a t false 0 0 [some (t.addr i.toInt j.toInt), none, none, none]) s

/-! ### Accesses perform (R128, R145, R288) -/

/-- LOAD_DATA_LAND (R145): a load, texture read, atomic, CAS or SWARM performs, and its result lands. -/
def execLoadDataLand (access : Nat) (s : State) : Host.Outcome State Fault Refusal :=
  match s.pend.find? fun a => a.seq = access with
  | some a => .next (if a.kind.reads && s.mayPerform a then (s.perform a).endIfGone a.lane.wg else s)
  | none => .next s

/-- WRITE_PERFORM (R288): a store performs, or a reduction reaches its write queue. -/
def execWritePerform (access : Nat) (s : State) : Host.Outcome State Fault Refusal :=
  match s.pend.find? fun a => a.seq = access with
  | some a => .next (if !a.kind.reads && s.mayPerform a then (s.perform a).endIfGone a.lane.wg else s)
  | none => .next s

/-- WRITE_QUEUE_APPLY (R128, R243). -/
def execWriteQueueApply (line : Nat) (s : State) : Host.Outcome State Fault Refusal :=
  let wgs := ((s.queue.filter fun q => q.line = line).map fun q => q.lane.wg).eraseDups
  .next (wgs.foldl State.endIfGone (s.applyLine line))

/-! ### Translations and zeroing (R119, R124) -/

/-- Enter a mapping in a cache of `n` entries, the oldest leaving a full one. -/
def cacheFill {α : Type} [DecidableEq α] (n : Nat) (e : α) (l : List α) : List α :=
  let l := (l.filter (· != e)) ++ [e]
  l.drop (l.length - n)

/-- TRANSLATION_COMPLETE (R119): a walk ends, and its mapping, if there is one, enters the caches. -/
def execTranslationComplete (core ctx va : Nat) (s : State) : Host.Outcome State Fault Refusal :=
  let w : Walk := ⟨core, ctx, va⟩
  if !s.walks.contains w then .next s
  else
    let s := { s with walks := s.walks.filter (· != w) }
    match (s.ctx? ctx).bind fun c => pageOf c.pages va with
    | none => .next s
    | some p =>
      let mine (e : Nat × Nat × Page) : Bool := e.1 = clusterOf core
      let l2 := s.l2.filter (fun e => !mine e) ++ cacheFill 4096 (clusterOf core, ctx, p) (s.l2.filter mine)
      .next (({ s with l2 := l2 }).updCore core fun c => { c with l1 := cacheFill 64 (ctx, p) c.l1 })

/-- Memory with a range of bytes zeroed. -/
def Memory.clear (m : Mem) (a n : Nat) : Mem := m.filter fun c => decide (c.1 < a) || decide (a + n ≤ c.1)

/-- Whether a page of a context is the one at an address with Z set. -/
def zeroing (va : Nat) (p : Page) : Bool := p.va = va && p.z

/-- PAGE_ZEROING_COMPLETE (R124): every byte of the page is 0, its poison is cleared, and Z clears. -/
def execPageZeroingComplete (ctx va : Nat) (s : State) : Host.Outcome State Fault Refusal :=
  match (s.ctx? ctx).bind fun c => c.pages.find? (zeroing va) with
  | none => .next s
  | some p =>
    let done (q : Page) : Page := if zeroing va q then { q with z := false } else q
    let s := s.updCtx ctx fun c => { c with pages := c.pages.map done }
    let inside (l : Nat) : Bool := decide (p.phys ≤ 64 * l) && decide (64 * l < p.phys + p.size)
    .next { s with
      mem := Memory.clear s.mem p.phys p.size
      poison := s.poison.filter fun l => !inside l
      l2 := s.l2.map fun e => if e.2.1 = ctx then (e.1, e.2.1, done e.2.2) else e
      cores := s.cores.map fun c => { c with l1 := c.l1.map fun e => if e.1 = ctx then (e.1, done e.2) else e } }

end Sys2Proof.Machine
end

