-- ==== Sys2Proof/Machine/Objects.lean ====
section
/-! DEFINITION. POST, TSAMP, OCALL, OREAD and OSTAT (R424 to R427, R442 to R446). -/

namespace Sys2Proof.Machine

/-! ### POST (R425) -/

/-- The fragment a lane posts, entered at its token: null with empty coverage or at a damaged pixel (R416, R425). -/
def State.postFragment (s : State) (ctx : Nat) (p : Pixel) (k : Nat) (cov : Nat) (vals : List Word) : State :=
  s.updTarget ctx (p.target.toNat % 2 ^ 20) fun t =>
    let x := p.xy.toNat % 65536
    let y := p.xy.toNat / 65536
    let mine (f : Fragment) : Bool := f.cmd = p.cmd && f.psn = p.psn && f.x = x && f.y = y && f.st = .opened
    let st : FragState := if cov = 0 || t.isDamaged x y then .done else .posted k (wordOf cov) vals
    { t with frags := mapIf mine (fun f => { f with st := st }) t.frags }

/-- What POST does in a lane. -/
def postLane (f : Form) (x : Iss) (a : Act) (vals : List Word) (m : DWord) (s : State) : State × Done :=
  let k := (f.slotImm f.c).toNat
  let go (s : State) : State := s.moveLanes [a.m.ref] (nextPc f x.pc)
  if a.lane.helper then (go s, .ok)
  else match a.lane.pixel with
  | none => (s, .fault .objHandle 0)
  | some p =>
    match s.target? x.ctx p.target with
    | none => (s, .fault .objHandle (p.target.setWidth 52))
    | some t =>
      if p.posted then (s, .fault .tgtPsn (p.target.setWidth 52))
      else if t.methods.length ≤ k then (s, .fault .objMethod (p.target.setWidth 52))
      else
        let s := s.postFragment x.ctx p k (m.toNat % 256 &&& p.mask.toNat) vals
        (go (s.updLane a.m.ref fun l => { l with pixel := some { p with posted := true } }), .ok)

/-- POST (R425). -/
def execPost (f : Form) (s : State) : Host.Outcome State Fault Refusal :=
  match front (.post f) f false s with
  | .over o => o
  | .go x e g act =>
    let vals (a : Act) : List Word := (e.words f x.wbase a.m.pos f.a g.a).getD []
    let p := s.laneBody x e f g act .none noWait fun a args s => postLane f x a (vals a) args.b s
    .next ((State.laneEnd p []).settle.wakeSettled x.ctx)

/-! ### TSAMP (R427) -/

/-- The result of a TSAMP's fault: in a helper lane 0, false and no fault. -/
def sampFault (a : Act) (h : Word) (c : Cause) : Held :=
  if a.lane.helper then .now [0, 0, 0, 0] (some false) else .fault c (h.setWidth 52)

/-- What TSAMP does in a lane (R303, R427). -/
def tsampHeld (f : Form) (x : Iss) (a : Act) (xy k h : Word) (dst : Dest) (s : State) : Held :=
  let px := xy.toNat % 65536
  let py := xy.toNat / 65536
  let settled := f.m2 = 0
  match s.target? x.ctx h with
  | none => sampFault a h .objHandle
  | some t =>
    if t.w ≤ px || t.h ≤ py || t.samples ≤ k.toNat then
      (if a.lane.helper then .now [0, 0, 0, 0] (some false) else .fault .addrRange 0)
    else if settled && a.lane.pixel.any (fun p => p.target = h) then sampFault a h .tgtPsn
    else
      if settled && s.pixelPending t t.order px py then .wait (.settled h px py k.toNat t.order dst)
      else match s.sampleNow a.m.ref t px py k.toNat with
      | some ws => .now ws (some (s.fragmentPending t t.order px py))
      | none => sampFault a h .tgtDamaged

/-- TSAMP.SETTLED and TSAMP.CURRENT (R427). -/
def execTsamp (f : Form) (s : State) : Host.Outcome State Fault Refusal :=
  match front (.tsamp f) f false s with
  | .over o => o
  | .go x e g act =>
    let pc : Option Nat := if f.m2 = 1 then some (slotNum f f.c) else none
    let held (a : Act) : Held :=
      match e.args f g x.wbase a.m.pos a.lane with
      | none =>
        if a.lane.helper then .now [0, 0, 0, 0] (some false) else .fault (e.lack f g a.m.pos).1 (e.lack f g a.m.pos).2
      | some args =>
        let c := pairWords e f g x.wbase a.m.pos
        tsampHeld f x a c.1 c.2 (args.b.extractLsb' 0 32) (waitDest x f g a pc) s
    .next (s.issueWait x f g act pc held (f.m2 != 1))

/-! ### OCALL (R443) -/

/-- The faults of R443, in order. -/
def callFault (s : State) (ctx : Nat) (die : Nat) (h k : Word) : Option Cause :=
  if h.toNat / 2 ^ 28 != 2 && h.toNat / 2 ^ 28 != 4 then some .objHandle
  else match s.object? ctx h with
  | none => some .objHandle
  | some o =>
    if o.kind = 4 && k != 0 then some .objMethod
    else if o.kind = 2 && !(o.methods[k.toNat]?).any (fun m => m.flag) then some .objMethod
    else if o.lost || (o.replica die).fenced then some .objFenced
    else none

/-- A lane's OCALL: its append, or its wait for room. -/
def ocallLane (x : Iss) (die : Nat) (h k : Word) (args : List Word) (dst : Dest) (s : State) : State × Held :=
  match s.object? x.ctx h with
  | none => (s, .fault .objHandle (h.setWidth 52))
  | some o =>
    if o.full then (s, .wait (.callFull h k args dst))
    else (s.appendCall x.ctx o k.toNat die args, .wait (.call h (nextPos o.tail) false dst))

/-- OCALL (R443): it follows the lane's earlier accesses (R300, log 8). Lanes append in ascending position, once the map has room for
the returns, the registers that LU releases counted in (R148). -/
def execOcall (f : Form) (s : State) : Host.Outcome State Fault Refusal :=
  match front (.ocall f) f true s with
  | .over o => o
  | .go x e g act =>
    let u := e.uwords f f.b g.b
    let h := u.getD 0 0
    let k := u.getD 1 0
    let pc := some (slotNum f f.c)
    let die := dieOf x.core
    let bad := callFault s x.ctx die h k
    let early (a : Act) : Option Held :=
      if a.lane.helper then some (.now [0, 0] (some false)) else bad.map fun c => .fault c (h.setWidth 52)
    let calls := act.filter fun a => (early a).isNone
    let ok := act.filter fun a => a.lane.helper || bad.isNone
    let rows := if ok.length = act.length then releaseLu f g x.wbase (s.rowsOf x) else s.rowsOf x
    let dry := prepDest (s.mapLimit x) rows (dstRegs f g x.wbase) (!f.nwb && ok != []) (decide (ok.length = 32))
    let full := match dry with | .inl .full => true | _ => false
    let late := match dry with | .inl .wait => true | _ => false
    let one (acc : State × List (Nat × Held)) (a : Act) : State × List (Nat × Held) :=
      let args := (e.words f x.wbase a.m.pos f.a g.a).getD []
      let q := ocallLane x die h k args (waitDest x f g a pc) acc.1
      (q.1, acc.2 ++ [(a.m.pos, q.2)])
    let done := if full then (s, []) else calls.foldl one (s, [])
    let asks := done.2.any fun e => match e.2 with | .wait (.callFull _ _ _ _) => true | _ => false
    let called := if asks then done.1.askTrim x.ctx h true else done.1
    let held (a : Act) : Held :=
      match early a with
      | some q => q
      | none => ((done.2.find? fun e => e.1 = a.m.pos).map Prod.snd).getD (.now [0, 0] none)
    .next (if !calls.all fun a => s.quiet a.m.ref false then s.stall x .objectCall
      else if late then s.stall x .memoryData
      else called.issueWait x f g act pc held)

/-! ### OREAD (R444) -/

/-- The faults of R444, in order. -/
def oreadFault (s : State) (ctx : Nat) (die : Nat) (h k : Word) : Option Cause :=
  if h.toNat / 2 ^ 28 != 2 && h.toNat / 2 ^ 28 != 4 then some .objHandle
  else match s.object? ctx h with
  | none => some .objHandle
  | some o =>
    if o.kind = 4 then some .objMethod
    else match o.methods[k.toNat]? with
    | none => some .objMethod
    | some m => if m.flag then some .objRo else if o.lost || (o.replica die).fenced then some .objFenced else none

/-- A lane's OREAD: its run, or its wait for the minimum. -/
def oreadHeld (s : State) (o : ReplayObj) (die : Nat) (h k m : Word) (args : List Word) (dst : Dest) : Held :=
  let r := o.replica die
  let min := if m = 0xFFFFFFFF then o.tail else if m = 0 then r.applied else m
  if reaches r.applied min then
    let q := o.run (s.stateOf o die) k.toNat args r.applied die
    .now [q.2.1, r.applied] (some (q.2.2 = 1))
  else .wait (.oread h k args min dst)

/-- Whether an acquire of a lane is in flight: what follows it is not to happen before it (R284, R301). -/
def State.acquiring (s : State) (r : LaneRef) : Bool := s.pend.any fun a => a.lane = r && a.acq

/-- OREAD (R444): the minimum is the second destination register as read at issue; it follows the lane's earlier acquires
(R301). -/
def execOread (f : Form) (s : State) : Host.Outcome State Fault Refusal :=
  match s.curIss? with
  | none => .fault .noIssueGroup
  | some y =>
    let minReg := vecReg f y.wbase f.d + 1
    match front (.oread f) f true s [minReg] with
    | .over o => o
    | .go x e g act =>
      let u := e.uwords f f.b g.b
      let h := u.getD 0 0
      let k := u.getD 1 0
      let pc := some (slotNum f f.c)
      let die := dieOf x.core
      .next (if act.any fun a => s.acquiring a.m.ref then s.stall x .objectCall
        else s.issueWait x f g act pc fun a =>
        match oreadFault s x.ctx die h k, s.object? x.ctx h with
        | some c, _ => .fault c (h.setWidth 52)
        | none, none => .fault .objHandle (h.setWidth 52)
        | none, some o =>
          let args := (e.words f x.wbase a.m.pos f.a g.a).getD []
          oreadHeld s o die h k (rowRead e.rows minReg a.m.pos) args (waitDest x f g a pc))

/-! ### OSTAT (R446) -/

/-- The mask of the dies whose replicas satisfy a test. -/
def ReplayObj.dies (o : ReplayObj) (p : Replica → Bool) : Nat :=
  (o.replicas.zipIdx).foldl (fun m e => if p e.1 then m + 2 ^ e.2 else m) 0

/-- The field of an object that OSTAT reads: none where the handle names none (R446). -/
def State.ostat (s : State) (ctx die : Nat) (h : Word) (field : Nat) : Option Word :=
  match s.target? ctx h, s.object? ctx h with
  | some t, _ => some (match field with
    | 0 => t.nextpsn
    | 1 => s.oldest t
    | 2 => t.faults
    | _ => wordOf (min t.damaged.length 0xFFFFFFFF))
  | none, some o => some (match field with
    | 0 => o.tail
    | 1 => (o.replica die).applied
    | 2 => o.trim
    | _ => wordOf (o.dies Replica.fenced + 16 * o.dies Replica.ignored + 256 * o.home + 2048 * o.logk))
  | none, none => none

/-- OSTAT (R446). -/
def execOstat (f : Form) (s : State) : Host.Outcome State Fault Refusal :=
  match front (.ostat f) f true s with
  | .over o => o
  | .go x e g act =>
    let h (a : Act) : Option Word := (e.slot f x.wbase a.m.pos f.a g.a).map fun v => v.extractLsb' 0 32
    let read (a : Act) : Except LaneFault Word :=
      match h a with
      | none => .error (e.lackFault f g a)
      | some w =>
        match s.ostat x.ctx (dieOf x.core) w f.m2.toNat with
        | some v => .ok v
        | none => .error ⟨a.m.ref, .objHandle, w.setWidth 52⟩
    let rs := act.filterMap fun a => match read a with | .ok v => some (⟨a, [v], 0⟩ : LaneRes) | .error _ => none
    let faults := act.filterMap fun a => match read a with | .ok _ => none | .error q => some q
    .next (s.commit x f g act rs faults)

end Sys2Proof.Machine
end

