-- ==== Sys2Proof/Machine/Launch.lean ====
section
/-! DEFINITION. Launch headers, LAUNCH, admission, gangs and reform bins (R90 to R103, R155, R156, R332 to R335, R494). -/

namespace Sys2Proof.Machine

/-! ### The launch header (R96, R97) -/

/-- A role from its 16 bytes. -/
def Role.parse (b : List Byte) : Role :=
  { entry := wordOf (fieldAt b 0 4), warps := fieldAt b 4 1, livemax := fieldAt b 5 1, wbase0 := fieldAt b 6 1
    dictslot := fieldAt b 7 1, resv := dwordOf (fieldAt b 8 8) }

/-- A launch header from its 128 bytes. -/
def Header.parse (b : List Byte) : Header :=
  { id := wordOf (fieldAt b 0 4), flags := wordOf (fieldAt b 4 4), gx := fieldAt b 8 4, gy := fieldAt b 12 4
    gz := fieldAt b 16 4, gang := fieldAt b 20 2, priority := fieldAt b 22 1, nroles := fieldAt b 23 1
    vbytes := fieldAt b 24 4, tiles := fieldAt b 28 1, accs := fieldAt b 29 1, jregs := fieldAt b 30 1
    stackKib := fieldAt b 31 1, codeVa := dwordOf (fieldAt b 32 8), dictVa := dwordOf (fieldAt b 40 8)
    argVa := dwordOf (fieldAt b 48 8), homeObj := wordOf (fieldAt b 56 4), deadline := fieldAt b 60 4
    roles := (List.range 4).map fun r => Role.parse (b.drop (64 + 16 * r)) }

def Role.ok (r : Role) : Bool :=
  r.entry.toNat % 4 = 0 && 1 ≤ r.warps && r.warps ≤ 32 && 1 ≤ r.livemax && r.livemax ≤ 64 && r.wbase0 ≤ 49
    && r.dictslot ≤ 3 && r.resv = 0

/-- R97. -/
def Header.ok (h : Header) : Bool :=
  h.id = 0x4F4C4831 && h.flags.toNat < 16 && 1 ≤ h.gx && 1 ≤ h.gy && 1 ≤ h.gz && 1 ≤ h.gang && h.gang ≤ 256
    && h.priority ≤ 7 && 1 ≤ h.nroles && h.nroles ≤ 4 && h.vbytes % 64 = 0 && h.vbytes ≤ 0x100000
    && h.tiles ≤ 16 && h.accs ≤ 4 && h.jregs ≤ 16 && h.codeVa.toNat % 4 = 0
    && h.used.all Role.ok && (h.used.map fun r => r.warps).sum ≤ 32
    && (h.flags.getLsbD 1 || h.gang = 1) && h.workgroups % h.gang = 0

/-! ### Reading headers (R335, R455) -/

/-- The checks of a launch header's bytes, eight at a time: they may lie in two pages. -/
def State.headerChks (s : State) (chk : Checker) (va : Nat) : List (Nat × Chk) :=
  (List.range 16).map fun i =>
    let ea := (va + 8 * i) % 2 ^ 64
    (ea, s.poisonChk true (chk .r ea 8))

/-- The bytes of checked accesses of 8. -/
def State.bytesAt (s : State) (cs : List (Nat × Chk)) : List Byte := cs.flatMap fun c => Memory.bytes s.mem c.2.phys 8

/-- The check of an image header (R157). -/
def State.imageChk (s : State) (chk : Checker) (va : Nat) : Nat × Chk := (va, s.poisonChk true (chk .r va 16))

/-- Whether the headers of a launch pass the checks of LAUNCH (R156, R335 step 3). -/
def State.headersOk (s : State) (ctx : Nat) (h : Header) (ic : Nat × Chk) : Bool :=
  let trap := ((s.ctx? ctx).map Context.trapdict).getD 3
  h.ok && (h.dictVa = 0 || ((headerOk (Memory.bytes s.mem ic.2.phys 16)).isSome && h.used.all fun r => r.dictslot != trap))

/-- A launch entered into grid scheduling (R99, R335): its number is the counter's. -/
def State.enterLaunch (s : State) (ctx : Nat) (h : Header) (o : Origin) : State :=
  let l : Launch :=
    { id := s.seq, ctx := ctx, header := h, nextWg := 0, live := 0, gangs := [], bars := freshBars 8, refused := false, absent := none
      origin := o, pixels := [], lost := [], ended := false }
  { s with launches := s.launches ++ [l], seq := s.seq + 1 }

/-- A launch refused after it was entered: what is not admitted stays so, lost workgroups not launched again among it, and the
fragments of pixel workgroups not admitted are nulled (R45, R416, R494). -/
def State.refuseLaunch (s : State) (id : Nat) : State :=
  match s.launch? id with
  | none => s
  | some l =>
    let s := (l.pixels ++ l.lost.filterMap Lost.pixels).foldl (fun s p => p.lanes.foldl (fun (s : State) (o : Option Pixel) =>
      match o with | some q => s.nullFragment l.ctx q | none => s) s) s
    let s := match l.origin with
      | .draw c => s.updCmd c fun k => { k with err := true }
      | _ => s
    let s := s.updLaunch id fun l =>
      { l with refused := true, pixels := [], held := none, lost := [], live := l.live - l.lost.length
               gangs := l.gangs.filter fun q => q.reserved = [] || q.saved }
    s.settle.wakeSettled l.ctx

/-! ### LAUNCH (R334, R335) -/

/-- A command of a class outside the hatch, entered and counted at once (R335, R337). -/
def State.startCommand (s : State) (x : Iss) (r : LaneRef) (scope creg : Nat) : State :=
  let c : Command :=
    { id := s.seq, ctx := x.ctx, lane := r, launch := ((s.wg? r.wg).map Workgroup.launch).getD 0, cls := 5, engine := 0
      scope := scope, acq := true, rel := true, creg := creg, sync := 0, total := 1, fallen := 0, err := false, ue := false
      work := .other, pinned := [], names := [] }
  let s := s.updWarp r.wg r.warp fun v => v.setUreg (56 + creg) (v.ureg (56 + creg) + 1)
  { s with cmds := s.cmds ++ [c], seq := s.seq + 1 }

/-- COUNT of a completion register of an issue. -/
def State.countOf (s : State) (x : Iss) (creg : Nat) : Nat :=
  ((s.warp? x.wg x.warp).map fun v => cregCount (v.ureg (56 + creg))).getD 0

/-- Steps 3 to 5 of LAUNCH, once the header is read. -/
def State.launchGo (s : State) (x : Iss) (f : Form) (act : List Act) (h : Header) : State :=
  let n := (f.slotImm f.b).toNat
  let ic := s.imageChk (s.check x.core x.ctx) h.dictVa.toNat
  s.onceChecked x f act (if h.dictVa = 0 then [] else [ic]) (
    if !s.headersOk x.ctx h ic || 0x3FFFFFFF < s.countOf x n + 1 then s.onceFault x f act .engCmd 0
    else if !act.all fun a => s.quiet a.m.ref false then s.stall x .memoryData
    else match act with
    | [] => s
    | a :: _ =>
      let t := s.startCommand x a.m.ref (if f.sc = .system then 6 else 5) n
      (t.enterLaunch x.ctx h (.launch s.seq)).endIssue x f [])

/-- LAUNCH (R335): it follows the earlier accesses of its lanes (R291, log 8). -/
def execLaunch (f : Form) (s : State) : Host.Outcome State Fault Refusal :=
  onceStep (.launch f) f true (fun x e g act s =>
    let va := ((e.once x f act f.a g.a).getD 0).toNat
    if va % 8 != 0 then s.onceFault x f act .addrAlign (eaDetail va)
    else
      let s := s.drainAll x
      let cs := s.headerChks (s.check x.core x.ctx) va
      s.onceChecked x f act cs (s.launchGo x f act (Header.parse (s.bytesAt cs)))) s

/-! ### Admission (R99 to R103, R111, R155, R156, R494) -/

/-- The roles of the warps of a workgroup, by WARPID (R98). -/
def Header.warpRoles (h : Header) : List (Nat × Role) :=
  (h.used.zipIdx).flatMap fun r => List.replicate r.1.warps (r.2, r.1)

/-- The resident workgroups of a core, whose resources are taken. -/
def State.onCore (s : State) (core : Nat) : List Workgroup := s.wgs.filter fun g => g.core = core && g.resident

/-- The gang reservations that hold a core: the resources reserved there stand like a workgroup's. -/
def State.reservedOn (s : State) (core : Nat) : Bool :=
  s.launches.any fun l => l.gangs.any fun q => q.reserved.any fun r => r.1 = core

/-- What a workgroup, an admission that waits or a gang's reservation holds of a core: warps with their places and LIVEMAX, the places
of reformed groups that a restore is to bring, tiles, accumulators and convergence registers (R101, R102, R494). -/
structure Taken where
  warps  : List (Place × Nat)
  groups : List Place
  tiles  : Nat
  accs   : Nat
  jregs  : Nat

def Workgroup.taken (g : Workgroup) : Taken :=
  { warps := g.warps.map fun v => (⟨v.pane, v.pipe⟩, v.livemax), groups := [], tiles := g.tileN, accs := g.accN
    jregs := g.jregs.length }

/-- What a workgroup of a launch takes at some places: those of its warps, and behind them those of the reformed groups it brings. -/
def Launch.taken (l : Launch) (places : List Place) : Taken :=
  let roles := l.header.warpRoles.map fun r => r.2.livemax
  { warps := places.zip roles, groups := places.drop roles.length, tiles := l.header.tiles, accs := l.header.accs
    jregs := l.header.jregs }

/-- The places that a launch holds on a core with nothing there yet: of its admission that waits, and of its gangs' reservations. -/
def Launch.placesOn (l : Launch) (core : Nat) : List (List Place) :=
  ((l.held.toList ++ l.gangs.flatMap Gang.reserved).filter fun r => r.1 = core).map fun r => r.2.2

/-- What is taken of a core, but for what launch `skip` holds there with nothing there yet. -/
def State.takenOn (s : State) (core skip : Nat) : List Taken :=
  (s.onCore core).map Workgroup.taken
    ++ (s.launches.filter fun l => l.id != skip).flatMap fun l => (l.placesOn core).map l.taken

/-- LIVEMAX registers taken on a pipe; the rows of reformed groups stand apart (R101, R149). -/
def State.pipeRows (s : State) (core skip : Nat) (p : Place) : Nat :=
  ((s.takenOn core skip).flatMap Taken.warps).foldl (fun n w => if w.1 = p then n + w.2 else n) 0

/-- The pipes of the scheduler entries taken on a pane: of warps and of reformed groups (R104). -/
def State.panePipes (s : State) (core skip pane : Nat) : List Nat :=
  (((s.takenOn core skip).flatMap fun k => k.warps.map Prod.fst ++ k.groups).filter fun p => p.pane = pane).map Place.pipe
    ++ ((s.core core).groups.filter fun r => r.pane = pane).map Reformed.pipe

/-- How many group slots of a core are taken: by reformed groups, and by those that gangs which hold the core are to bring (R91). -/
def State.groupsOn (s : State) (core skip : Nat) : Nat :=
  (s.core core).groups.length + ((s.takenOn core skip).map fun k => k.groups.length).sum

/-- Whether a pane holds entries on these pipes: 40, of which one on each pipe is active, and 32 pending (R104). -/
def paneFits (pipes : List Nat) : Bool := decide (pipes.length ≤ 40) && decide (pipes.length ≤ pipes.eraseDups.length + 32)

/-- The bytes of a channel value as a target stores it (R410, R414). -/
def chanBytes (fmt : Nat) : Nat :=
  match fmt with
  | 1 => 2 | 2 => 1 | _ => 4

/-- The bytes of one tile of a target in the vault that holds it (R412, log 7). -/
def Target.tileBytes (t : Target) : Nat := 64 * t.samples * (t.fmts.map chanBytes).sum

/-- The ranges of a vault that are taken: scratchpads, those that a command still names and those whose saved state has not
yet been moved included, those reserved and held by waiting admissions, tiles of targets, and replicas (R113, R392). -/
def State.vaultRanges (s : State) (core skip : Nat) : List (Nat × Nat) :=
  let here := s.wgs.filter fun g => g.core = core && (g.resident || g.kept || !g.moved)
  (here.map fun g => (g.sbase, g.vbytes)) ++ (here.flatMap fun g => g.saveAt.toList)
    ++ (s.launches.flatMap fun l =>
        (l.gangs.flatMap fun q => (q.reserved.filter fun r => r.1 = core).map fun r => (r.2.1, l.header.vbytes))
          ++ (l.held.toList.filter fun h => h.1 = core && l.id != skip).map fun h => (h.2.1, l.header.vbytes))
    ++ s.contexts.flatMap fun c =>
        (c.targets.flatMap fun t => (t.vaults.filter fun e => e.2.1 = core).map fun e => (e.2.2, t.tileBytes))
          ++ c.objects.flatMap fun o => (o.replicas.filter fun r => r.vault = core).map fun r => (r.off, o.stateBytes)

/-- Whether no access in flight and no queued reduction touches some physical bytes. -/
def State.untouched (s : State) (phys n : Nat) : Bool :=
  !(s.pend.any fun a => a.ranges.any fun r => decide (r.1 < phys + n) && decide (phys < r.1 + r.2))
    && !s.queue.any fun q => decide (q.phys < phys + n) && decide (phys < q.phys + elemBits q.ty / 8)

/-- Whether a range of a vault is free: it lies in no taken range, and what was there is no longer accessed (R111, R113). -/
def State.vaultFree (s : State) (core skip base n : Nat) : Bool :=
  base % 64 = 0 && decide (base + n ≤ Config.vaultBytes)
    && !((s.vaultRanges core skip).any fun r => decide (r.1 < base + n) && decide (base < r.1 + r.2))
    && s.untouched (vaultPhys core base) n

/-- The vault offsets at which a range may begin that stands at the start of a vault, or behind another range or an access or queued
reduction still to be performed there: where a range finds room, it finds it at one of these. -/
def State.vaultStarts (s : State) (core skip : Nat) : List Nat :=
  let flying := (s.pend.flatMap Access.ranges).map (fun r => r.1 + r.2) ++ s.queue.map fun q => q.phys + elemBits q.ty / 8
  let here := (flying.filter fun e => decide (vaultPhys core 0 < e) && decide (e ≤ vaultPhys core Config.vaultBytes)).map fun e =>
    e - vaultPhys core 0
  0 :: ((s.vaultRanges core skip).map (fun r => r.1 + r.2) ++ here).map fun e => (e + 63) / 64 * 64

/-- The first free place of some bytes in a vault. -/
def State.vaultPlace (s : State) (core n : Nat) : Option Nat := (s.vaultStarts core s.seq).find? fun b => s.vaultFree core s.seq b n

/-- Whether the program slots of a launch's roles and the trap slot are bound on a core or can be (R156, R494). -/
def State.slotsBindable (s : State) (l : Launch) (core : Nat) : Bool := s.slotsFit core (s.launchSlots l)

/-- R101 for a workgroup of a launch on a core, with the SBASE and places the device chose, and the binding of R156; `groups`
are the places of reformed groups that a restore brings with it. -/
def State.admits (s : State) (l : Launch) (core sbase : Nat) (places : List Place) (groups : List Place := []) : Bool :=
  let h := l.header
  let used := (l.taken places).warps
  let here := s.takenOn core l.id
  decide (core < Config.numCores) && !(s.core core).fenced && places.length = h.warpRoles.length
    && (places ++ groups).all (fun p => p.pane < 4 && p.pipe < 8)
    && places.all (fun p =>
        let mine := used.foldl (fun n u => if u.1 = p then n + u.2 else n) 0
        decide (s.pipeRows core l.id p + mine ≤ 64))
    && (List.range 4).all (fun pane =>
        paneFits (s.panePipes core l.id pane ++ ((places ++ groups).filter fun p => p.pane = pane).map Place.pipe))
    && decide ((here.map Taken.tiles).sum + h.tiles ≤ 16) && decide ((here.map Taken.accs).sum + h.accs ≤ 4)
    && decide ((here.map Taken.jregs).sum + h.jregs ≤ 64)
    && s.vaultFree core l.id sbase h.vbytes
    && s.slotsBindable l core

/-! ### Placements (R41, R43, R125) -/

/-- Whether two placements are of the same thing. -/
def Asked.same : Asked → Asked → Bool
  | .scratchpad l n _ _, .scratchpad k m _ _ => l = k && n = m
  | a, b => a = b

/-- The host asked about a placement, in the place of one of the same thing that it was asked about before (R125, R386). -/
def State.askPlace (s : State) (ctx : Nat) (what : Asked) (tag wg : Word) : State :=
  (s.postEvent ctx 2 0 0 tag wg 0).updCtx ctx fun c =>
    { c with placing := (c.placing.filter fun p => !p.what.same what) ++ [⟨c.eventSeq, what, false⟩] }

/-- A placement about to be made: in device mode it is made at once; in host-assisted mode (MODE bit 2) an event of FUNCTION 2
asks the host, and the placement waits for its answer (R43, R125, R386; log 7). -/
def State.placed (s : State) (ctx : Nat) (what : Asked) (tag wg : Word) : State × Bool :=
  if !s.hostMode ctx 2 then (s, true)
  else match ((s.ctx? ctx).map Context.placing).getD [] |>.find? fun p => p.what.same what with
  | some p => if p.what = what then (s, p.given) else (s.askPlace ctx what tag wg, false)
  | none => (s.askPlace ctx what tag wg, false)

/-- A placement made: its answer has been acted on. -/
def State.placingDone (s : State) (ctx : Nat) (what : Asked) : State :=
  s.updCtx ctx fun c => { c with placing := c.placing.filter fun p => !p.what.same what }

/-- What the reads of an admission find (R494). -/
inductive Reads where
  | ok (args : List Byte)
  | wait
  | absent (va : Nat)
  | refuse
  deriving DecidableEq, Repr

/-- The checks of the reads of an admission: the 32 argument bytes, and the image where it is to be loaded. -/
def State.admissionReads (s : State) (ctx : Nat) (h : Header) (image : Bool) : Reads :=
  let va := h.argVa.toNat
  let args := if va % 8 = 0 then (List.range 4).map fun i => (va + 8 * i, s.poisonChk true (s.checkTables ctx .r (va + 8 * i) 8))
    else (List.range 32).map fun i => (va + i, s.poisonChk true (s.checkTables ctx .r (va + i) 1))
  let ic := s.imageChk (s.checkTables ctx) h.dictVa.toNat
  let head := if image then [ic] else []
  match firstBad (args ++ head) with
  | some (_, .fault _) => .refuse
  | some (ea, .absent) => .absent ea
  | some _ => .wait
  | none =>
    let bytes := args.flatMap fun c => Memory.bytes s.mem c.2.phys (if va % 8 = 0 then 8 else 1)
    if !image then .ok bytes
    else match headerOk (Memory.bytes s.mem ic.2.phys 16) with
    | none => .refuse
    | some (_, count) =>
      match firstBad ((h.dictVa.toNat, s.checkTables ctx .rx h.dictVa.toNat 16) :: imageChks (s.checkTables ctx) h.dictVa.toNat count) with
      | some (_, .fault _) => .refuse
      | some (ea, .absent) => .absent ea
      | some _ => .wait
      | none => .ok bytes

/-- The slots into which an admission loads the image: those of the roles whose last load had another DICT_VA, and those
emptied by an uncorrectable error, which the model loads again (R156, R169; DESIGN CHOICE, log 15). -/
def State.loadSlots (s : State) (core ctx : Nat) (h : Header) : List Nat :=
  if h.dictVa = 0 then []
  else ((h.used.map fun r => r.dictslot).eraseDups).filter fun k =>
    !(s.slotOf core ctx k).any fun d => d.lastVa = h.dictVa && d.image.isSome

/-- The loads of an admission entered: the issue of the workgroup's context on the core waits for them. -/
def State.admissionLoads (s : State) (core ctx wg : Nat) (h : Header) (ks : List Nat) : State :=
  let va := h.dictVa.toNat
  let (first, count) := (headerOk (Memory.bytes s.mem (s.imageChk (s.checkTables ctx) va).2.phys 16)).getD (0x40, 0)
  let lines := (imageChks (s.checkTables ctx) va count).map fun c => c.2.phys
  ks.foldl (fun s k =>
    match s.slotOf core ctx k with
    | none => s
    | some d => s.addJob core
        { id := 0, ctx := ctx, core := core, phys := d.phys, prog := k, va := h.dictVa, first := first, count := count
          lines := lines, priv := false, warp := none, launchWg := some wg }) s

/-- The program slots of a context bound on a core: those of the roles and the trap slot (R155, R156, R167). -/
def State.bindAll (s : State) (core ctx : Nat) (ks : List Nat) : State :=
  ks.foldl (fun s k => match s.bindSlot core ctx k with | some p => p.2 | none => s) s

/-- A workgroup made (R76, R98, R101, R111): `pixels` its pixel lanes, for a pixel launch. -/
def Workgroup.make (l : Launch) (id linear core sbase : Nat) (places : List Place) (args : List Byte) (rejected : Nat → Nat)
    (pixels : Option PixelWg) : Workgroup :=
  let warps := (l.header.warpRoles.zip places).map fun e =>
    let r := e.1.2
    Warp.atLaunch e.1.1 r.livemax e.2 r.entry (8 * r.wbase0) r.dictslot (rejected r.dictslot)
  let w := Workgroup.atLaunch id l.ctx l.id linear core l.header warps
  let w := { w with sbase := sbase, args := (List.range 8).map fun i => wordOf (fieldAt args (4 * i) 4) }
  match pixels with
  | none => w
  | some p =>
    let lane (l : Lane) (k : Nat) : Lane :=
      match (p.lanes[k]?).getD none with
      | some q => { l with pixel := some q }
      | none => { l with st := .exited }
    let live := (List.range 32).filter fun k => ((p.lanes[k]?).getD none).isSome
    let warp (v : Warp) : Warp :=
      { v with lanes := v.lanes.zipIdx.map fun e => lane e.1 e.2
               ring := v.ring.map fun g => { g with lanes := live } }
    { w with warps := w.warps.map warp, wgx := 0, wgy := 0, wgz := 0, gang := l.nextWg
             pixelCmd := (p.lanes.findSome? fun (o : Option Pixel) => o).map Pixel.cmd }

/-- A workgroup admitted to a core: its slots bound, the trap slot and those of its roles with nothing to load into them included
(R155 speaks of the first load; DESIGN CHOICE, log 15), its scratchpad 0, its loads entered, its warps pending behind the entries
of their pipes (R101, R105, R111, R156). REJECTED of a warp whose launch loads nothing starts at the count of its slot's last
load (R165; DESIGN CHOICE, log 15). -/
def State.letIn (s : State) (l : Launch) (linear core sbase : Nat) (places : List Place) (args : List Byte)
    (pixels : Option PixelWg) : State :=
  let id := s.seq
  let ks := s.loadSlots core l.ctx l.header
  let s := s.trapLoad l.ctx core
  let s := s.bindAll core l.ctx (l.header.used.map fun r => r.dictslot)
  let rejected (k : Nat) : Nat := ((s.slotOf core l.ctx k).map DictSlot.rejected).getD 0
  let w := Workgroup.make l id linear core sbase places args rejected pixels
  let base := vaultPhys core sbase
  let s := { s with
    seq := s.seq + 1
    wgs := s.wgs ++ [w]
    mem := Memory.clear s.mem base l.header.vbytes
    poison := s.poison.filter fun k => !(decide (base ≤ 64 * k) && decide (64 * k < base + l.header.vbytes)) }
  let s := s.updLaunch l.id fun l => { l with live := l.live + 1, held := none }
  let s := places.foldl (fun s p => s.keepEntries core p.pane p.pipe) (s.placingDone l.ctx (.scratchpad l.id linear core sbase))
  s.admissionLoads core l.ctx id l.header ks

/-- Whether a context's launches may be admitted (R396, R493). -/
def State.dispatches (s : State) (ctx : Nat) : Bool := (s.ctx? ctx).any fun c => c.resident && !c.preq && !c.hungHalt

/-- A scheduler entry to be placed: its LIVEMAX registers, none for a reformed group, and whether it needs free handler rows, as a warp
saved in privileged mode does (R382). -/
structure Entrant where
  rows : Nat
  priv : Bool
  deriving DecidableEq, Repr

def Entrant.warp (r : Nat × Role) : Entrant := ⟨r.2.livemax, false⟩

/-- Whether an entrant fits a pipe of a core beside those placed already (R101, R104, R382). -/
def State.entrantFits (s : State) (core skip : Nat) (got : List (Place × Entrant)) (e : Entrant) (p : Place) : Bool :=
  let on := got.filter fun u => u.1 = p
  decide (s.pipeRows core skip p + (on.map fun u => u.2.rows).sum + e.rows ≤ 64)
    && paneFits (s.panePipes core skip p.pane ++ (got.filter fun u => u.1.pane = p.pane).map (fun u => u.1.pipe) ++ [p.pipe])
    && (!e.priv || !(on.any (fun u => u.2.priv) || (s.core core).handler.any fun h => h.1 = p.pane && h.2.1 = p.pipe))

/-- Places for the entrants in order, if there are any: every choice is tried, of two equal entrants in a row the second not before the
first. `low` is the first pipe tried for an entrant equal to `last`. -/
def State.placesFor (s : State) (core skip : Nat) : List Entrant → List (Place × Entrant) → Option Entrant → Nat → Option (List Place)
  | [], got, _, _ => some (got.map Prod.fst)
  | e :: rest, got, last, low =>
    ((List.range 32).drop (if last = some e then low else 0)).findSome? fun i =>
      let p : Place := ⟨i / 8, i % 8⟩
      if s.entrantFits core skip got e p then State.placesFor s core skip rest (got ++ [(p, e)]) (some e) i else none

/-- Places for a workgroup of a launch on a core. -/
def State.fit (s : State) (l : Launch) (core : Nat) : Option (List Place) :=
  s.placesFor core l.id (l.header.warpRoles.map Entrant.warp) [] none 0

/-- Whether a workgroup of a launch finds room on a core. -/
def State.hasRoom (s : State) (l : Launch) (core : Nat) : Bool :=
  match s.fit l core with
  | none => false
  | some places => (s.vaultStarts core l.id).any fun b => s.admits l core b places

/-- Whether a launch still holds workgroups to dispatch. -/
def Launch.waiting (k : Launch) : Bool :=
  !k.refused && (match k.origin with
    | .draw _ => k.pixels != []
    | _ => decide (k.nextWg < k.header.workgroups))

/-- A gang of one workgroup admitted without a reservation. -/
def Gang.single (n : Nat) : Gang :=
  { number := n, reserved := [], since := none, aged := false, bars := freshBars 32, saved := false, bins := [], groups := [] }

/-- A gang whose workgroups stand on their cores. -/
def Gang.placed (q : Gang) : Gang :=
  { q with reserved := [], since := none, aged := false, saved := false, bins := [], groups := [], cluster := none }

/-- The gang a launch places next. -/
def Launch.nextGang (l : Launch) : Nat := l.nextWg / l.header.gang

/-- How many cores a gang takes: one for each of its workgroups that has not ended. -/
def State.gangSize (s : State) (l : Launch) (q : Gang) : Nat :=
  if q.saved then (s.savedOf l q.number).length else l.header.gang

/-- The gangs of a launch that are to be placed by reservation: those saved, and the next of a launch of gangs (R102, R393). -/
def Launch.toReserve (l : Launch) : List Gang :=
  l.gangs.filter Gang.saved
    ++ if l.header.flags.getLsbD 1 && l.waiting then [(l.gangs.find? fun q => q.number = l.nextGang).getD (Gang.single l.nextGang)] else []

/-- Whether a gang still takes a core: it lacks one, and may take this one (R102). -/
def State.gangLacks (s : State) (l : Launch) (q : Gang) (core : Nat) : Bool :=
  decide (q.reserved.length < s.gangSize l q) && q.cluster.all (fun c => c = clusterOf core) && q.reserved.all fun r => r.1 != core

/-- Whether an aged gang bars a core of its cluster from a gang, or another workgroup, of a launch of no higher PRIORITY. Of two
aged gangs of one PRIORITY, that of the earlier launch bars the other (R103, log 15). -/
def State.agedBars (s : State) (l : Launch) (gang core : Nat) : Bool :=
  let own := l.gangs.any fun q => q.number = gang && q.aged
  s.launches.any fun k => k.gangs.any fun q => q.aged && !(k.id = l.id && q.number = gang) && s.gangLacks k q core
    && q.cluster.isSome
    && (decide (l.header.priority < k.header.priority)
      || (l.header.priority = k.header.priority && (!own || decide (k.id < l.id) || (k.id = l.id && decide (q.number < gang)))))

/-- Whether the saved slots of a workgroup can be written to a core: free slots for them, and no other contents there. -/
def State.slotsRestorable (s : State) (ctx old core : Nat) : Bool :=
  s.slotsFit core ((s.savedFrom ctx old).map fun d => (ctx, d.prog)) && (s.savedFrom ctx old).all fun e =>
    match s.slotOf core ctx e.prog with
    | none => true
    | some d => d.image = e.image && d.emptied = e.emptied

/-- The places of the reformed groups a saved gang brings to the core of one of its workgroups. -/
def Gang.groupsOf (q : Gang) (g : Workgroup) : List Reformed := (q.groups.filter fun r => r.1 = g.core).map Prod.snd

/-- Whether the warps of a workgroup saved in privileged mode find the handler rows of their places free, each a pipe's of its own (R382). -/
def State.handlersFree (s : State) (core : Nat) (warps : List Warp) (places : List Place) : Bool :=
  let inside := ((warps.zip places).filter fun e => e.1.privileged).map Prod.snd
  inside.Nodup && inside.all fun p => !(s.core core).handler.any fun h => h.1 = p.pane && h.2.1 = p.pipe

/-- Whether a workgroup of a gang finds room on a core: R101, or for a saved one also its slots, reformed groups and handler rows. -/
def State.gangAdmits (s : State) (l : Launch) (q : Gang) (core sbase : Nat) (places : List Place) : Bool :=
  if !q.saved then s.admits l core sbase places
  else match (s.savedOf l q.number)[q.reserved.length]? with
  | none => false
  | some g =>
    let n := g.warps.length
    let groups := q.groupsOf g
    places.length = n + groups.length && s.admits l core sbase (places.take n) (places.drop n)
      && s.slotsRestorable l.ctx g.core core && s.handlersFree core g.warps places
      && decide (s.groupsOn core l.id + groups.length ≤ 8)

/-- Places for the next workgroup of a gang on a core, with its reformed groups. -/
def State.gangFit (s : State) (l : Launch) (q : Gang) (core : Nat) : Option (List Place) :=
  if !q.saved then s.fit l core
  else match (s.savedOf l q.number)[q.reserved.length]? with
  | none => none
  | some g =>
    s.placesFor core l.id (g.warps.map (fun v => ⟨v.livemax, v.privileged⟩) ++ (q.groupsOf g).map fun _ => ⟨0, false⟩) [] none 0

/-- Whether a gang finds room on a core for its next workgroup. -/
def State.gangRoom (s : State) (l : Launch) (q : Gang) (core : Nat) : Bool :=
  match s.gangFit l q core with
  | none => false
  | some places => (s.vaultStarts core l.id).any fun b => s.gangAdmits l q core b places

/-- The usable cores of a cluster (R47). -/
def State.usableCores (s : State) (cluster : Nat) : Nat :=
  256 - s.cores.countP fun c => clusterOf c.vault = cluster && c.fenced

/-- Whether a core may take a lost workgroup: in the cluster of its gang, and none of the gang stands there (R45, R47). -/
def State.lostFits (s : State) (l : Launch) (k : Lost) (core : Nat) : Bool :=
  (s.wgs.filter fun g => g.launch = l.id && g.gang = k.gang && g.resident).all fun g => clusterOf g.core = clusterOf core && g.core != core

/-- The lost workgroup of a launch that a core takes again, if there is one (R45). -/
def State.again (s : State) (l : Launch) (core : Nat) : Option Lost := l.lost.find? fun k => k.event.isNone && s.lostFits l k core

/-- Whether a launch has a workgroup, a lost one among them, or a gang that can be admitted to a core (R45, R100, R102); one whose
admission already holds its places asks for none. -/
def State.wants (s : State) (k : Launch) (core : Nat) : Bool :=
  let single := k.held.isNone && (k.waiting && !k.header.flags.getLsbD 1 || (s.again k core).isSome) && !s.agedBars k 0 core
    && s.hasRoom k core
  let gang (q : Gang) : Bool := s.gangLacks k q core && decide (s.gangSize k q ≤ s.usableCores (clusterOf core))
    && !s.agedBars k q.number core && s.gangRoom k q core
  s.dispatches k.ctx && (single || k.toReserve.any gang)

/-- Whether a launch may take a core: no launch of higher PRIORITY, or of equal and entered earlier, finds room there for what
it may place (R100, R103, log 15). -/
def State.dispatchTurn (s : State) (l : Launch) (core : Nat) : Bool :=
  let before (k : Launch) : Bool := decide (l.header.priority < k.header.priority)
    || (l.header.priority = k.header.priority && decide (k.id < l.id))
  !s.launches.any fun k => k.id != l.id && before k && s.wants k core

/-- A page an admission found absent is serviced with no lane, and the admission waits for it (R494). -/
def State.admissionAbsent (s : State) (l : Launch) (core va : Nat) : State :=
  ((s.park l.ctx core va [] false).getD s).updLaunch l.id fun l => { l with absent := some (va / 65536 * 65536) }

/-- An admission with its places chosen: it holds them while the host is asked and while its reads wait, then goes on (R43,
R125, R494). -/
def State.withReads (s : State) (l : Launch) (linear core sbase : Nat) (places : List Place) (k : State → List Byte → State) : State :=
  let s := s.updLaunch l.id fun l => { l with held := some (core, sbase, places) }
  let p := s.placed l.ctx (.scratchpad l.id linear core sbase) (wordOf core) (wordOf linear)
  if !p.2 then p.1
  else match s.admissionReads l.ctx l.header (s.loadSlots core l.ctx l.header != []) with
  | .ok args => k s args
  | .refuse => s.refuseLaunch l.id
  | .absent va => s.admissionAbsent l core va
  | .wait => s

/-- The next workgroup of a launch admitted on its own: it forms a gang (R389). -/
def State.admitNext (s : State) (l : Launch) (linear core sbase : Nat) (places : List Place) (args : List Byte)
    (pixels : Option PixelWg) : State :=
  let s := s.updLaunch l.id fun l => { l with nextWg := l.nextWg + 1, absent := none, gangs := l.gangs ++ [Gang.single l.nextWg] }
  s.letIn l linear core sbase places args pixels

/-- A lost workgroup launched again, with its number and gang (R45). -/
def State.readmit (s : State) (l : Launch) (k : Lost) (core sbase : Nat) (places : List Place) (args : List Byte) : State :=
  let known := l.gangs.any fun q => q.number = k.gang
  let take (l : Launch) : Launch :=
    { l with lost := l.lost.erase k, live := l.live - 1, absent := none
             gangs := if known then l.gangs else l.gangs ++ [Gang.single k.gang] }
  let id := s.seq
  ((s.updLaunch l.id take).letIn l k.linear core sbase places args k.pixels).updWg id fun g => { g with gang := k.gang }

/-- Whether an admission is open to a launch at a core: it holds the places already, and the slots it needs where TRAPDICT has changed
since, or it is the launch's turn and R101 holds
(R100, R101, R103, R494). -/
def State.admissionOpen (s : State) (l : Launch) (core sbase : Nat) (places : List Place) : Bool :=
  match l.held with
  | some h => h = (core, sbase, places) && s.slotsBindable l core
  | none => s.dispatchTurn l core && !s.reservedOn core && !s.agedBars l 0 core && s.admits l core sbase places

/-- WORKGROUP_ADMISSION (R45, R101, R408, R494): a workgroup lost with its core, the next workgroup of a launch without
gangs, or the next pixel workgroup. -/
def execWorkgroupAdmission (launch core sbase : Nat) (places : List Place) (s : State) : Host.Outcome State Fault Refusal :=
  match s.launch? launch with
  | none => .next s
  | some l =>
    let again := s.again l core
    let able := s.dispatches l.ctx && (l.waiting || again.isSome) && s.admissionOpen l core sbase places
    .next (if !able then s
      else match again, l.origin with
      | some k, _ => s.withReads l k.linear core sbase places fun s args => s.readmit l k core sbase places args
      | none, .draw _ =>
        match l.pixels with
        | [] => s
        | p :: rest => s.withReads l 0 core sbase places fun s args =>
            (s.admitNext l 0 core sbase places args (some p)).updLaunch launch fun l => { l with pixels := rest }
      | none, _ =>
        if l.header.flags.getLsbD 1 then s
        else s.withReads l l.nextWg core sbase places fun s args => s.admitNext l l.nextWg core sbase places args none)

/-! ### Gangs (R102, R103, R393) -/

/-- The reads of the admissions of a gang, one core after another: the first that does not pass. -/
def State.gangReads (s : State) (l : Launch) (q : Gang) : Option Reads :=
  (q.reserved.map fun r => s.admissionReads l.ctx l.header (s.loadSlots r.1 l.ctx l.header != [])).find? fun r =>
    match r with | .ok _ => false | _ => true

/-- Workgroups of a gang admitted together (R102). -/
def State.startGang (s : State) (l : Launch) (q : Gang) : State :=
  let first := q.number * l.header.gang
  let s := (q.reserved.zipIdx).foldl (fun s r =>
    match s.admissionReads l.ctx l.header (s.loadSlots r.1.1 l.ctx l.header != []) with
    | .ok args => s.letIn l (first + r.2) r.1.1 r.1.2.1 r.1.2.2 args none
    | _ => s) s
  s.updLaunch l.id fun l =>
    { l with nextWg := l.nextWg + l.header.gang
             absent := none
             gangs := mapIf (fun k => k.number = q.number) Gang.placed l.gangs }

/-- Saved dictionary slots written to the core that receives a workgroup (R168). -/
def State.restoreSlots (s : State) (ctx old core : Nat) : State :=
  (s.savedFrom ctx old).foldl (fun s e =>
    match s.bindSlot core ctx e.prog with
    | none => s
    | some (phys, s) => s.updCore core fun c =>
        { c with slots := mapIf (fun d => d.phys = phys) (fun _ => { e with phys := phys }) c.slots }) s

/-- Whether a wait's instruction executes again from its start after a restore (R246, R450). -/
def Wait.again : Wait → Bool
  | .oread _ _ _ _ _ | .callFull _ _ _ _ | .waitw _ _ _ _ _ _ _ => true
  | _ => false

/-- Waits whose instructions execute again: at their PCs, or left so for RTE (R246, R384). -/
def State.retryWaits (s : State) (ws : List Waiter) : State :=
  let s := (ws.filter s.held).foldl (fun s w => s.setAt w .issuing) s
  let rs := (ws.filter fun w => !s.held w).map Waiter.ref
  (s.updLanes rs fun l => { l with npc := l.pc }).wake rs

/-- A SLEEP that a save interrupted is over (R330). -/
def Group.sleepOver (q : Group) : Group :=
  match q.hold with
  | some (.sleep _) => { q with hold := some (.sleep 0) }
  | _ => q

/-- The SLEEPs of a restored workgroup are over, those of its handlers and of its lanes in reformed groups included (R330). -/
def State.restoreSleeps (s : State) (g : Workgroup) : State :=
  let ended (qs : List Group) : List Group := qs.map Group.sleepOver
  let warp (v : Warp) : Warp :=
    { v with ring := ended v.ring, ringSaved := ended v.ringSaved, nest := v.nest.map fun n => { n with ring := ended n.ring } }
  let here (r : Reformed) : Bool := r.lanes.any fun o => o.any fun q => q.wg = g.id
  (s.updWg g.id fun g => { g with warps := g.warps.map warp }).updCore g.core fun c =>
    { c with groups := mapIf here (fun r => { r with groups := ended r.groups }) c.groups }

/-- The reformed groups of a saved workgroup's core set up again in free slots, at places (R393, R395). -/
def State.placeGroups (s : State) (core : Nat) (gs : List (Reformed × Place)) : State :=
  gs.foldl (fun s e =>
    let slot := ((List.range 8).find? fun n => !(s.core core).groups.any fun r => r.slot = n).getD 8
    let s := (s.keepEntries core e.2.pane e.2.pipe).updCore core fun c =>
      { c with groups := c.groups ++ [{ e.1 with slot := slot, pane := e.2.pane, pipe := e.2.pipe }] }
    let s := s.setPipe (s.pipe core e.2.pane e.2.pipe).cleared
    s.updLanes (e.1.lanes.filterMap fun o => o) fun l => { l with reformed := some slot }) s

/-- A saved workgroup placed on a core: its slots, and the trap slot where it is not bound there, its scratchpad, warps, bins
and reformed groups stand there again, and the latches are empty (R140, R167, R168, R393). -/
def State.placeSaved (s : State) (q : Gang) (g : Workgroup) (core sbase : Nat) (places : List Place) : State :=
  let s := (s.restoreSlots g.ctx g.core core).trapLoad g.ctx core
  let base := vaultPhys core sbase
  let put (m : Mem) (e : Nat × Byte) : Mem := Memory.write m (base + e.1) e.2
  let s := { s with
    mem := g.savedMem.foldl put (Memory.clear s.mem base g.vbytes)
    poison := g.savedUe.foldl (fun p o => insertNat ((base + o) / 64) p)
      (s.poison.filter fun k => !(decide (base ≤ 64 * k) && decide (64 * k < base + g.vbytes))) }
  let s := s.updWg g.id fun g =>
    { g with core := core, sbase := sbase, resident := true, moved := false, saveAt := none, savedMem := [], savedUe := []
             warps := (g.warps.zip places).map fun e => { e.1 with pane := e.2.pane, pipe := e.2.pipe } }
  let held := (g.warps.zipIdx.zip places).filterMap fun e =>
    if e.1.1.privileged then some (e.2.pane, e.2.pipe, g.id, e.1.2) else none
  let s := s.updCore core fun c => { c with handler := c.handler ++ held }
  let bins := (q.bins.filter fun b => b.1 = g.core).map Prod.snd
  let s := bins.foldl (fun s b => b.lanes.foldl (fun s e => s.fileLane core g.ctx b.pc b.wbase b.dslot e.1) s) s
  let s := s.placeGroups core ((q.groupsOf g).zip (places.drop g.warps.length))
  let s := s.placingDone g.ctx (.scratchpad g.launch g.linear core sbase)
  let s := match s.wg? g.id with
    | some g => s.emptyLatches g
    | none => s
  places.foldl (fun s p => s.keepEntries core p.pane p.pipe) s

/-- The parked lanes of a restored workgroup re-issue their accesses, those that one issue parked together, and signers wait on their
stopped round again (R122, R362, R385). -/
def State.unparkAll (s : State) (g : Workgroup) : State :=
  let parked (r : LaneRef) : Bool := (s.lane? r).any fun l => match l.st with | .parked _ _ _ => true | _ => false
  let key (r : LaneRef) : Nat × Nat := (((s.lane? r).map Lane.batch).getD 0, r.warp)
  let rs := g.refs.filter parked
  let rounds := (rs.filterMap s.signedOf).eraseDups
  let s := ((rs.map key).eraseDups).foldl (fun t k => t.unpark (rs.filter fun r => key r = k)) s
  s.updWg g.id fun g => { g with jregs := g.jregs.zipIdx.map fun c => if rounds.contains c.2 then { c.1 with stopped := false } else c.1 }

/-- The waits of a restored workgroup go on: those that were to execute again are at their instructions, a YIELD is over,
a call takes its return from the log, and what its grid's barriers did meanwhile reaches it (R246, R328, R330, R391, R450). -/
def State.restoreWaits (s : State) (id : Nat) : State :=
  match s.wg? id with
  | none => s
  | some g =>
    let ws := g.refs.flatMap s.waitsOf
    let saved (s : State) (e : Waiter × Wait) : State :=
      match e.2 with
      | .call h n _ dst => s.setAt e.1 (.waiting (.call h n true dst))
      | _ => s
    let s := (ws.foldl saved s).retryWaits ((ws.filter fun e => e.2.again).map Prod.fst)
    let s := s.satisfyAll ((ws.filter fun e => e.2 = .yielded).map fun e => e.1.done)
    (((s.restoreSleeps g).unparkAll g).catchUp g).raiseLost g.refs

/-- A saved gang restored whole (R391, R393). -/
def State.restoreGang (s : State) (l : Launch) (q : Gang) : State :=
  let gs := s.savedOf l q.number
  let s := (gs.zip q.reserved).foldl (fun s e => s.placeSaved q e.1 e.2.1 e.2.2.1 e.2.2.2) s
  let s := s.updLaunch l.id fun l => { l with gangs := mapIf (fun k => k.number = q.number) Gang.placed l.gangs }
  gs.foldl (fun s g => s.restoreWaits g.id) s

/-- The workgroup that a gang places on its n-th core, by linear number. -/
def State.gangLinear (s : State) (l : Launch) (q : Gang) (n : Nat) : Nat :=
  if q.saved then (((s.savedOf l q.number)[n]?).map Workgroup.linear).getD 0 else q.number * l.header.gang + n

/-- The host asked about every scratchpad of a gang that holds its cores, and whether it has agreed to all (R43, R125). -/
def State.gangPlaced (s : State) (l : Launch) (q : Gang) : State × Bool :=
  (q.reserved.zipIdx).foldl (fun (p : State × Bool) r =>
    let n := s.gangLinear l q r.2
    let t := p.1.placed l.ctx (.scratchpad l.id n r.1.1 r.1.2.1) (wordOf r.1.1) (wordOf n)
    (t.1, p.2 && t.2)) (s, true)

/-- Whether a gang can start on its cores: what it reserved there stands, but the contents of a slot that it brings may differ from
what a DICTLD has put there since, TRAPDICT may have changed, and a handler may have taken handler rows (R156, R168, R382). -/
def State.gangReady (s : State) (l : Launch) (q : Gang) : Bool :=
  (q.reserved.zipIdx).all fun r => s.slotsBindable l r.1.1
    && (!q.saved || ((s.savedOf l q.number)[r.2]?).any fun g =>
      s.slotsRestorable l.ctx g.core r.1.1 && s.handlersFree r.1.1 g.warps r.1.2.2)

/-- A gang that holds all its cores starts, once the host has agreed where it is asked, and the reads of its admissions pass;
a saved one is restored (R102, R156, R393, R494). -/
def State.tryStart (s : State) (l : Launch) (gang : Nat) : State :=
  match l.gangs.find? fun q => q.number = gang with
  | none => s
  | some q =>
    if q.reserved.length < s.gangSize l q || !s.gangReady l q then s
    else
      let p := s.gangPlaced l q
      if !p.2 then p.1
      else if q.saved then s.restoreGang l q
      else match s.gangReads l q with
      | none => s.startGang l q
      | some .refuse => s.refuseLaunch l.id
      | some (.absent va) => s.admissionAbsent l ((q.reserved.head?.map Prod.fst).getD 0) va
      | some _ => s

/-- A gang refused: its launch is, and its saved workgroups, which no cluster can take again, are gone (R47, log 15). -/
def State.refuseGang (s : State) (l : Launch) (q : Gang) : State :=
  let gone := if q.saved then s.savedOf l q.number else []
  let s := s.updLaunch l.id fun l => { l with gangs := l.gangs.filter fun k => k.number != q.number }
  let s := gone.foldl (fun s g => (g.refs.foldl (fun s r => s.exitLane g.ctx r) s).endWorkgroup g.id) s
  s.refuseLaunch l.id

/-- Whether the cluster of a gang's reservation keeps fewer usable cores than the gang takes; of a gang with no reservation yet,
whether every cluster does (R47; DESIGN CHOICE, log 15). -/
def State.gangShort (s : State) (l : Launch) (q : Gang) : Bool :=
  let short (c : Nat) : Bool := decide (s.usableCores c < s.gangSize l q)
  match q.cluster with
  | some c => short c
  | none => (List.range (Config.numCores / 256)).all short

/-- GANG_RESERVATION (R47, R102, R393): a core reserved for the gang a launch places next, or for a saved gang; a gang
that holds all its cores starts. -/
def execGangReservation (launch gang core sbase : Nat) (places : List Place) (s : State) : Host.Outcome State Fault Refusal :=
  match s.launch? launch with
  | none => .next s
  | some l =>
    match l.toReserve.find? fun q => q.number = gang with
    | none => .next s
    | some q =>
      .next (if !s.dispatches l.ctx then s
        else if s.gangSize l q ≤ q.reserved.length then s.tryStart l gang
        else if s.gangShort l q then s.refuseGang l q
        else if s.gangSize l q ≤ s.usableCores (clusterOf core) && s.gangLacks l q core && !s.reservedOn core
            && !s.agedBars l gang core && s.dispatchTurn l core && s.gangAdmits l q core sbase places then
          let q := { q with reserved := q.reserved ++ [(core, sbase, places)], since := some (q.since.getD s.clock)
                            cluster := some (clusterOf core) }
          let s := s.updLaunch launch fun l =>
            { l with gangs := if l.gangs.any (fun k => k.number = gang) then mapIf (fun k => k.number = gang) (fun _ => q) l.gangs
                              else l.gangs ++ [q] }
          match s.launch? launch with
          | some l => s.tryStart l gang
          | none => s
        else s)

/-- GANG_AGED (R103). -/
def execGangAged (launch gang : Nat) (s : State) : Host.Outcome State Fault Refusal :=
  match s.launch? launch with
  | none => .next s
  | some l =>
    let limit := ((s.ctx? l.ctx).map Context.ageLimit).getD 50000
    let due (q : Gang) : Bool := q.number = gang && q.reserved != [] && q.since.any fun t => decide (t + limit ≤ s.clock)
    .next (s.updLaunch launch fun l => { l with gangs := mapIf due (fun q => { q with aged := true }) l.gangs })

/-! ### Reform bins (R91 to R93, R149) -/

/-- The carried values of a lane that is drawn: from its home map, or those it took along (R90, R149). -/
def State.carriedOf (s : State) (r : LaneRef) (wbase : Nat) : List (Option Word) :=
  match s.lane? r with
  | none => []
  | some l =>
    (List.range l.carried).map fun i =>
      match l.carry with
      | some c => (c.find? fun e => e.1 = wbase + i).map Prod.snd
      | none => (findRow (((s.warp? r.wg r.warp).map Warp.rows).getD []) (wbase + i)).map fun row => row.vals.getD r.lane 0

/-- The rows of a reformed group: one for each carried register that some lane maps (R149). -/
def State.drawnRows (s : State) (rs : List LaneRef) (wbase n : Nat) : List Row :=
  (List.range n).filterMap fun i =>
    let vals := rs.map fun r => ((s.carriedOf r wbase)[i]?).getD none
    if vals.all Option.isNone then none
    else some { id := i, reg := some (wbase + i), vals := (vals.map fun v => v.getD 0) ++ List.replicate (32 - vals.length) 0
                await := [], handler := false }

/-- BIN_DRAW (R91): up to 32 lanes of a bin, in filing order, in a free group slot, as an entry of a pipe (R104, R149). -/
def execBinDraw (core bin slot : Nat) (place : Place) (s : State) : Host.Outcome State Fault Refusal :=
  let c := s.core core
  match c.bins.find? fun b => b.number = bin with
  | none => .next s
  | some b =>
    let due := decide (32 ≤ b.lanes.length) || b.lanes.any fun e => decide (e.2 + 256 ≤ s.clock)
    let out := (b.lanes.take 32).map Prod.fst
    let n := out.foldl (fun m r => max m (((s.lane? r).map Lane.carried).getD 0)) 0
    let room := place.pane < 4 && place.pipe < 8 && paneFits (s.panePipes core s.seq place.pane ++ [place.pipe])
    let runs := (s.ctx? b.ctx).any fun k => k.resident && !k.hungHalt
    if !due || 8 ≤ slot || c.groups.any (fun g => g.slot = slot) || 8 ≤ s.groupsOn core s.seq || !room || !runs then .next s
    else
      let g : Reformed :=
        { slot := slot, ctx := b.ctx, dslot := b.dslot, keyPc := b.pc, wbase0 := b.wbase, pane := place.pane, pipe := place.pipe
          lanes := (out.map some) ++ List.replicate (32 - out.length) none
          groups := [{ gid := s.seq, lanes := List.range out.length, hold := none, debt := 0 }]
          carried := n, rows := s.drawnRows out b.wbase n, lead := out.head? }
      let s := { s.keepEntries core place.pane place.pipe with seq := s.seq + 1 }
      let s := s.updCore core fun c =>
        { c with
          groups := c.groups ++ [g]
          bins := (mapIf (fun k : Bin => k.number = bin) (fun k => { k with lanes := k.lanes.drop 32 }) c.bins).filter
            fun k => k.lanes != [] }
      let s := s.keepEntries core place.pane place.pipe
      .next (s.updLanes out fun l => { l with st := .issuing, reformed := some slot, carry := none })

end Sys2Proof.Machine
end

