-- ==== Sys2Proof/Machine/Hatch.lean ====
section
/-! DEFINITION. The engine window: argument stores, the fields of a GO, the checks of R271 and what they need of each
class, staging, and the writes of completion registers that wait (R268 to R274, R276, R293, R404, R406, R428, R456, R462
to R465). -/

namespace Sys2Proof.Machine

/-! ### Fields (R270) -/

def goClass (go : DWord) : Nat := go.toNat % 256
def goUnit (go : DWord) : Nat := go.toNat / 2 ^ 8 % 256
def goOpcode (go : DWord) : Nat := go.toNat / 2 ^ 16 % 256
def goScope (go : DWord) : Nat := go.toNat / 2 ^ 24 % 8
def goAcq (go : DWord) : Bool := go.getLsbD 27
def goRel (go : DWord) : Bool := go.getLsbD 28
def goCreg (go : DWord) : Nat := go.toNat / 2 ^ 29 % 8
def goSync (go : DWord) : Nat := go.toNat / 2 ^ 32

/-- Bits [lo + n − 1 : lo] of an argument register. -/
def argBits (a : DWord) (lo n : Nat) : Nat := a.toNat / 2 ^ lo % 2 ^ n

/-- The engine operations that a GO can name. -/
inductive EngineOp where
  | linear | strided | fill | nmLoad | nmRun | draw | invoke | readout | push
  deriving DecidableEq, Repr

/-- The operation a GO names by CLASS and OPCODE: none where the class has no such opcode (R275, R404, R428, R456, R462). -/
def engineOp (go : DWord) : Option EngineOp :=
  match goClass go, goOpcode go with
  | 0, 0 => some .linear
  | 0, 1 => some .strided
  | 0, 2 => some .fill
  | 1, 0 => some .nmLoad
  | 1, 1 => some .nmRun
  | 2, 0 => some .draw
  | 3, 0 => some .invoke
  | 3, 1 => some .readout
  | 4, 0 => some .push
  | _, _ => none

/-! ### Operand ranges (R276) -/

/-- Whether bytes of a vault lie in scratchpads of a context, one scratchpad after another. -/
def State.coversVault (s : State) (ctx vault : Nat) : Nat → Nat → Nat → Bool
  | 0, _, n => n = 0
  | fuel + 1, off, n =>
    if n = 0 then true
    else match s.wgs.find? fun w =>
        w.ctx = ctx && w.core = vault && w.resident && decide (w.sbase ≤ off) && decide (off < w.sbase + w.vbytes) with
    | none => false
    | some w =>
      let got := min n (w.sbase + w.vbytes - off)
      State.coversVault s ctx vault fuel (off + got) (n - got)

/-- Whether a range of the vault aperture lies in scratchpads of a context. -/
def State.coversAperture (s : State) (ctx : Nat) (va n : Nat) : Bool :=
  let base := 0xE000000000000
  let first := (va - base) / 2 ^ 20
  let last := (va + n - 1 - base) / 2 ^ 20
  (List.range (last + 1 - first)).all fun i =>
    let lo := max va (base + (first + i) * 2 ^ 20)
    let hi := min (va + n) (base + (first + i + 1) * 2 ^ 20)
    s.coversVault ctx (first + i) (s.wgs.length + 1) (lo - base - (first + i) * 2 ^ 20) (hi - lo)

def isRemote (va n : Nat) : Bool := decide (0xC000000000000 ≤ va) && decide (va + n ≤ 0xE000000000000)
def isPaged (va n : Nat) : Bool := decide (va + n ≤ 0xC000000000000)
def isAperture (va n : Nat) : Bool := decide (0xE000000000000 ≤ va) && decide (va + n ≤ 0xE000080000000)

/-- Whether a range of an operand may stand in a command (R276). -/
def State.rangeOk (s : State) (g : Workgroup) (sp : Bool) (va n : Nat) : Bool :=
  if sp then decide (va + n ≤ g.vbytes)
  else isPaged va n || isRemote va n || (isAperture va n && s.coversAperture g.ctx va n)

/-! ### The checks of a GO (R271) -/

/-- What the rules of its class find at a GO. -/
inductive GoFirst where
  | ok
  | bad (c : Cause) (detail : BitVec 52)
  | absent (ea : Nat)
  | wait
  deriving DecidableEq, Repr

/-- What a GO asks for: the outcome of the rules of its class, whether it names a remote operand, its total, and the
ranges to be translated. -/
structure GoPlan where
  first  : GoFirst
  remote : Bool
  total  : Nat
  ranges : List (Nat × Nat × Need)
  deriving DecidableEq, Repr

/-- DETAIL of a refused GO: GO[31:0] (R380). -/
def goDetail (go : DWord) : BitVec 52 := (go.extractLsb' 0 32).setWidth 52

def refusedPlan (q : Staged) : GoPlan := { first := .bad .engCmd (goDetail q.go), remote := false, total := 0, ranges := [] }

/-- A plan refused with ENG_CMD where a rule of the class is broken. -/
def planIf (q : Staged) (ok remote : Bool) (total : Nat) (ranges : List (Nat × Nat × Need)) : GoPlan :=
  if ok then { first := .ok, remote := remote, total := total, ranges := ranges } else refusedPlan q

/-- The paged ranges of the rows of an operand. -/
def rowRanges (sp : Bool) (base rows stride len : Nat) (n : Need) : List (Nat × Nat × Need) :=
  if sp then [] else (List.range rows).filterMap fun r =>
    if isPaged (base + r * stride) len then some (base + r * stride, len, n) else none

/-- A copy of rows (R275, R276). -/
def State.copyPlan (s : State) (g : Workgroup) (q : Staged) (len rows ds ss : Nat) (reserved : Bool) : GoPlan :=
  let dsp := q.a2.getLsbD 63
  let ssp := q.a2.getLsbD 62
  let total := len * rows
  let inst := decide (goUnit q.go < 64) || goUnit q.go = 0xFF
  if !inst || reserved || total = 0 || decide (0x3FFFFFFF < total) then refusedPlan q
  else
    let ok (sp : Bool) (base stride : Nat) : Bool := (List.range rows).all fun r => s.rangeOk g sp (base + r * stride) len
    let far (sp : Bool) (base stride : Nat) : Bool := !sp && (List.range rows).any fun r => isRemote (base + r * stride) len
    let d := q.a0.toNat
    let a := q.a1.toNat
    let fd := far dsp d ds
    let fa := far ssp a ss
    planIf q (ok dsp d ds && ok ssp a ss && !(fd && fa)) (fd || fa) total
      (rowRanges dsp d rows ds len .w ++ rowRanges ssp a rows ss len .r)

/-- FILL (R275, R276). -/
def State.fillPlan (s : State) (g : Workgroup) (q : Staged) : GoPlan :=
  let len := argBits q.a2 0 32
  let dsp := q.a2.getLsbD 63
  let d := q.a0.toNat
  let inst := decide (goUnit q.go < 64) || goUnit q.go = 0xFF
  planIf q (inst && argBits q.a2 32 31 = 0 && len % 8 = 0 && len != 0 && decide (len ≤ 0x3FFFFFFF) && s.rangeOk g dsp d len)
    (!dsp && isRemote d len) len (rowRanges dsp d 1 0 len .w)

/-- LOAD of a near-memory program (R462, R463). -/
def nmLoadPlan (q : Staged) : GoPlan :=
  let len := argBits q.a1 16 9
  let inst := decide (goUnit q.go < Config.numStacks) || goUnit q.go = 0xFF
  let ok := inst && argBits q.a1 4 12 = 0 && argBits q.a1 25 39 = 0 && decide (1 ≤ len) && decide (len ≤ 256)
    && q.a0.toNat % 4 = 0 && isPaged q.a0.toNat (4 * len)
  planIf q ok false (if goUnit q.go = 0xFF then Config.numStacks else 1) [(q.a0.toNat, 4 * len, .r)]

/-- The allocations of a co-placement key of a context, in order of making (R464). -/
def State.operandsOf (s : State) (ctx key : Nat) : List Alloc :=
  ((s.ctx? ctx).map fun c => c.allocs.filter fun a => a.key = key).getD []

/-- The base and bytes of each operand of a RUN: as the check fixed them, or, at the check, as they stand (R464). -/
def State.runOps (s : State) (g : Workgroup) (q : Staged) : List (Nat × Nat) :=
  if q.ops = [] then (s.operandsOf g.ctx (argBits q.a0 16 16)).map fun a => (a.va, a.size) else q.ops

/-- The HBM stack of a physical address. -/
def stackOf (phys : Nat) : Nat := phys / Config.hbmSpan

/-- Where a 64-byte chunk of HBM lies: stack, bank group, column and row. -/
structure ChunkPlace where
  stack  : Nat
  group  : Nat
  column : Nat
  row    : Nat
  deriving DecidableEq, Repr

/-- The place of the chunk that holds a physical address: chunks at one offset of two 64 KiB pages of one stack lie in one bank group and
at one column address, each in a row of its own (R127; DESIGN CHOICE, log 16). -/
def chunkPlace (phys : Nat) : ChunkPlace :=
  let c := phys / 64 % 1024
  { stack := stackOf phys, group := Config.bankGroupOf c, column := Config.columnOf c, row := phys % Config.hbmSpan / 65536 }

/-- The stack of a chunk of a command, by the first operand: none where its page is absent. -/
def State.chunkStack (s : State) (ctx : Nat) (base i : Nat) : Option Nat :=
  ((s.ctx? ctx).bind fun c => pageOf c.pages (base + 64 * i)).map fun p => stackOf (p.phys + (base + 64 * i - p.va))

/-- Whether a scratchpad offset names 16 bytes as SYNC must (R270, R271). -/
def syncOk (g : Workgroup) (o : Nat) : Bool := o = 0 || (o % 16 = 0 && decide (o + 16 ≤ g.vbytes))

/-- RUN (R462, R464, R465). -/
def State.nmRunPlan (s : State) (g : Workgroup) (q : Staged) : GoPlan :=
  let key := argBits q.a0 16 16
  let first := argBits q.a0 32 32
  let count := argBits q.a1 0 24
  let ops := s.runOps g q
  let short := (ops.map Prod.snd).foldl min (2 ^ 64)
  let inst := decide (goUnit q.go < Config.numStacks) || goUnit q.go = 0xFF
  let here (a : Nat × Nat) : Bool := goUnit q.go = 0xFF || (List.range count).all fun i =>
    match s.chunkStack g.ctx a.1 (first + i) with
    | some k => k = goUnit q.go
    | none => true
  planIf q (inst && argBits q.a0 4 12 = 0 && argBits q.a1 24 8 = 0 && count != 0 && key != 0 && ops != []
      && decide (64 * (first + count) ≤ short) && syncOk g (argBits q.a1 32 32) && ops.all here)
    false (64 * count) (ops.map fun a => (a.1 + 64 * first, 64 * count, .rw))

/-- The header a DRAW may name (R406). -/
def Header.drawOk (h : Header) : Bool :=
  h.ok && h.flags.getLsbD 0 && !h.flags.getLsbD 1 && h.gx = 1 && h.gy = 1 && h.gz = 1 && h.gang = 1 && h.nroles = 1
    && (h.roles.head?).any fun r => r.warps = 1

/-- The reads of a DRAW's header, in the address space of its lane (R406). -/
def State.drawHeader (s : State) (ctx : Nat) (q : Staged) : Header :=
  Header.parse (s.bytesAt (s.headerChks (s.checkTables ctx) q.a2.toNat))

/-- DRAW (R404, R406): the rules of the class, the launch header and the image header read among them (R156, log 15), and
TGT_PSN. -/
def State.drawPlan (s : State) (g : Workgroup) (q : Staged) : GoPlan :=
  let count := argBits q.a1 32 24
  let h := q.a1.extractLsb' 0 32
  let n := 64 + 64 * count
  let ok := goUnit q.go = 0xFF && q.a0.toNat % 64 = 0 && count != 0 && argBits q.a1 58 6 = 0 && q.a2.toNat % 8 = 0
  match ok, s.target? g.ctx h with
  | true, some t =>
    match firstBad (s.headerChks (s.checkTables g.ctx) q.a2.toNat) with
    | some (ea, .fault c) => { refusedPlan q with first := .bad c (eaDetail ea) }
    | some (ea, .absent) => { refusedPlan q with first := .absent ea }
    | some _ => { refusedPlan q with first := .wait }
    | none =>
      let hd := s.drawHeader g.ctx q
      let ic := s.imageChk (s.checkTables g.ctx) hd.dictVa.toNat
      match firstBad (if hd.dictVa = 0 then [] else [ic]) with
      | some (ea, .fault c) => { refusedPlan q with first := .bad c (eaDetail ea) }
      | some (ea, .absent) => { refusedPlan q with first := .absent ea }
      | some _ => { refusedPlan q with first := .wait }
      | none =>
      if !hd.drawOk || !s.headersOk g.ctx hd ic || !isPaged q.a0.toNat n then refusedPlan q
      else if 2 ^ 31 < (t.nextpsn + wordOf count - s.oldest t).toNat then
        { refusedPlan q with first := .bad .tgtPsn (h.setWidth 52) }
      else { first := .ok, remote := false, total := 1, ranges := [(q.a0.toNat, n, .r), (q.a0.toNat, 4, .w)] }
  | _, _ => refusedPlan q

/-- The rectangle of a target-method command: x0, y0, x1, y1 (R428). -/
def goRect (q : Staged) : Nat × Nat × Nat × Nat := (argBits q.a1 0 16, argBits q.a1 16 16, argBits q.a1 32 16, argBits q.a1 48 16)

def Target.rectOk (t : Target) (r : Nat × Nat × Nat × Nat) : Bool :=
  decide (r.1 ≤ r.2.2.1) && decide (r.2.2.1 < t.w) && decide (r.2.1 ≤ r.2.2.2) && decide (r.2.2.2 < t.h)

/-- INVOKE (R428). -/
def State.invokePlan (s : State) (g : Workgroup) (q : Staged) : GoPlan :=
  match s.target? g.ctx (q.a0.extractLsb' 0 32) with
  | none => refusedPlan q
  | some t =>
    planIf q (goUnit q.go = 0xFF && argBits q.a0 36 28 = 0 && decide (argBits q.a0 32 4 < t.methods.length) && t.rectOk (goRect q))
      false 1 []

/-- READOUT (R428, R430). -/
def State.readoutPlan (s : State) (g : Workgroup) (q : Staged) : GoPlan :=
  match s.target? g.ctx (q.a0.extractLsb' 0 32) with
  | none => refusedPlan q
  | some t =>
    let r := goRect q
    let n := 16 * t.samples * ((r.2.2.1 + 1 - r.1) * (r.2.2.2 + 1 - r.2.1))
    let sp := q.a3.getLsbD 0
    let d := q.a2.toNat
    planIf q (goUnit q.go = 0xFF && argBits q.a0 32 32 = 0 && argBits q.a3 1 63 = 0 && d % 16 = 0 && t.rectOk r
        && s.rangeOk g sp d n)
      (!sp && isRemote d n) n (rowRanges sp d 1 0 n .w)

/-- The queue a push names: its own, or the default queue of the context (R454). -/
def State.pushQueue (s : State) (ctx : Nat) (a3 : DWord) : Option ReplayObj :=
  let h := a3.extractLsb' 0 32
  let h := if h = 0 then ((s.ctx? ctx).bind Context.defaultQ).getD 0 else h
  (s.object? ctx h).bind fun o => if o.kind = 4 then some o else none

/-- R454. -/
def pushArgsOk (a0 a1 a2 a3 : DWord) : Bool :=
  a0.toNat % 8 = 0 && a1.toNat % 8 = 0 && !a2.getLsbD 63 && argBits a3 32 32 = 0

/-- A queue push (R456). -/
def State.pushPlan (s : State) (g : Workgroup) (q : Staged) : GoPlan :=
  planIf q (goUnit q.go = 0xFF && pushArgsOk q.a0 q.a1 q.a2 q.a3 && (s.pushQueue g.ctx q.a3).isSome) false 1 []

/-- The plan of a GO by its operation. -/
def State.goPlan (s : State) (g : Workgroup) (q : Staged) : GoPlan :=
  match engineOp q.go with
  | some .linear =>
    s.copyPlan g q (argBits q.a2 0 32) 1 0 0 (argBits q.a2 32 30 != 0)
  | some .strided =>
    s.copyPlan g q (argBits q.a2 0 32) (argBits q.a2 32 16) (argBits q.a3 0 32) (argBits q.a3 32 32) (argBits q.a2 48 14 != 0)
  | some .fill => s.fillPlan g q
  | some .nmLoad => nmLoadPlan q
  | some .nmRun => s.nmRunPlan g q
  | some .draw => s.drawPlan g q
  | some .invoke => s.invokePlan g q
  | some .readout => s.readoutPlan g q
  | some .push => s.pushPlan g q
  | none => refusedPlan q

/-- The outcome of the checks of a GO. -/
inductive GoCheck where
  | ok (p : GoPlan)
  | refuse (c : Cause) (detail : BitVec 52)
  | park (ea : Nat)
  | wait
  deriving DecidableEq, Repr

/-- The translations of a range, 64 KiB at a time: each with the first address it covers. -/
def State.rangeTrs (s : State) (ctx : Nat) (r : Nat × Nat × Need) : List (Nat × Tr) :=
  let first := r.1 / 65536
  (List.range ((r.1 + r.2.1 - 1) / 65536 + 1 - first)).map fun i =>
    let va := max r.1 ((first + i) * 65536)
    (va, s.lookup ctx r.2.2 va)

/-- The checks of a GO, in the order of R271 with R293. -/
def State.goCheck (s : State) (g : Workgroup) (w : Nat) (q : Staged) : GoCheck :=
  let p := s.goPlan g q
  let go := q.go
  let order := goAcq go || goRel go
  let count := ((g.warps[w]?).map fun v => cregCount (v.ureg (56 + goCreg go))).getD 0
  match p.first with
  | .bad c d => .refuse c d
  | .absent ea => .park ea
  | .wait => .wait
  | .ok =>
    if (order && goScope go = 0) || goScope go = 7 || (p.remote && order && decide (goScope go < 6)) then
      .refuse .engOrder (goDetail go)
    else if !syncOk g (goSync go) then .refuse .engCmd (goDetail go)
    else if 0x3FFFFFFF < count + p.total then .refuse .engCmd (goDetail go)
    else
      let trs := p.ranges.flatMap (s.rangeTrs g.ctx)
      match trs.find? (fun t => t.2 = .absent), trs.find? (fun t => t.2 = .perm), trs.find? (fun t => t.2 = .wait) with
      | some t, _, _ => .park t.1
      | none, some t, _ => .refuse .pagePerm (eaDetail t.1)
      | none, none, some _ => .wait
      | none, none, none => .ok p

/-! ### The window (R269) -/

/-- Whether the window of a warp works: its workgroup stands on its core. -/
def State.windowRuns (s : State) (g : Workgroup) : Bool :=
  g.resident && (s.ctx? g.ctx).any fun c => c.resident && !c.hungHalt

/-- A lane's fault or park entered in the hold of its store. -/
def Hold.addFault (pos : Nat) (c : Cause) (d : BitVec 52) : Hold → Hold
  | .window npc lu fs ps => .window npc lu (fs ++ [(pos, c, d)]) ps
  | h => h

def Hold.addPark (pos ea : Nat) : Hold → Hold
  | .window npc lu fs ps => .window npc lu fs (ps ++ [(pos, ea)])
  | h => h

def State.updHold (s : State) (wg w gid : Nat) (f : Hold → Hold) : State :=
  s.updWarp wg w fun v => { v with ring := mapIf (fun q => q.gid = gid) (fun q => { q with hold := q.hold.map f }) v.ring }

/-- The end of a hatch store whose entries have all been taken: its lanes go on, fault or park (R121, R269, R271). -/
def State.endWindow (s : State) (wg w : Nat) (q : Group) (npc : Word) (lu : List Nat)
    (faults : List (Nat × Cause × BitVec 52)) (parks : List (Nat × Nat)) : State :=
  let ref (p : Nat) : LaneRef := ⟨wg, w, p⟩
  let g := s.wg? wg
  let ctx := (g.map Workgroup.ctx).getD 0
  let core := (g.map Workgroup.core).getD 0
  let priv := (s.warp? wg w).any Warp.privileged
  if priv && parks != [] then s.killContext ctx .pageAbsent (parks.head?.map fun k => ⟨ref k.1, .pageAbsent, eaDetail k.2⟩)
  else
    let s := s.setHold (.home wg w q.gid) none
    let ok := q.lanes.filter fun p => !faults.any (fun f => f.1 = p) && !parks.any fun k => k.1 = p
    let s := ok.foldl (fun s p => s.advanceLane (ref p) npc) s
    let s := if faults = [] && parks = [] then s.updWarp wg w fun v => { v with rows := lu.foldl releaseReg v.rows } else s
    let s := parks.foldl (fun s p => (s.park ctx core p.2 [ref p.1] false).getD s) s
    let s := if faults = [] && parks = [] then s else s.regroup (.home wg w q.gid) ⟨.none, 0⟩
    let s := s.holdLanes (.home wg w q.gid) ((parks.map fun k => ref k.1).filter fun r => (s.lane? r).any Lane.issuing) .translation
    (s.raise (faults.map fun f => ⟨ref f.1, f.2.1, f.2.2⟩)).afterAll (parks.map fun p => ref p.1)

/-- Whether a GO is a push to a queue, the one its A3 names (R454, R456). -/
def State.pushesTo (s : State) (ctx : Nat) (q : Staged) (h : Word) : Bool :=
  engineOp q.go = some .push && (s.pushQueue ctx q.a3).any fun o => o.kind * 2 ^ 28 + o.index = h.toNat

/-- The hatch stores of a warp that are complete end: none of their entries waits and none of their GOs is staged. -/
def State.finishWindows (s : State) (wg w : Nat) : State :=
  match s.warp? wg w with
  | none => s
  | some v => v.ring.foldl (fun s q =>
      match q.hold with
      | some (.window npc lu faults parks) =>
        if v.hatchq.any (fun e => e.gid = q.gid) || v.stage.any (fun t => t.gid = q.gid) then s
        else s.endWindow wg w q npc lu faults parks
      | _ => s) s

/-- The head of a warp's window queue, while its stage is empty. -/
def State.hatchHead (s : State) (wg w : Nat) : Option (Workgroup × Warp × HatchEntry) :=
  match s.wg? wg, s.warp? wg w with
  | some g, some v =>
    if !s.windowRuns g || v.stage.isSome then none else v.hatchq.head?.map fun e => (g, v, e)
  | _, _ => none

/-- The GO a lane's store forms, with its arguments (R269). -/
def Warp.staged (v : Warp) (e : HatchEntry) : Staged :=
  let a := v.args.getD e.lane []
  { gid := e.gid, lane := e.lane, go := e.val, a0 := a.getD 0 0, a1 := a.getD 1 0, a2 := a.getD 2 0, a3 := a.getD 3 0 }

/-- A GO as its check leaves it in the stage: the operands of a RUN are fixed (R464). -/
def State.fixed (s : State) (g : Workgroup) (q : Staged) : Staged :=
  if engineOp q.go = some .nmRun then { q with ops := s.runOps g q } else q

/-- The head entry of a warp's window queue taken. -/
def State.popHatch (s : State) (wg w : Nat) : State := s.updWarp wg w fun v => { v with hatchq := v.hatchq.drop 1 }

/-- A staged GO's check acted on: it stays in the stage, is refused, parks its lane or waits (R271). -/
def State.goAct (s : State) (wg w : Nat) (q : Staged) (c : GoCheck) : State :=
  let out (f : Hold → Hold) : State :=
    ((s.updWarp wg w fun v => { v with stage := none }).updHold wg w q.gid f).finishWindows wg w
  match c with
  | .ok _ | .wait => s
  | .refuse c d => out (Hold.addFault q.lane c d)
  | .park ea => out (Hold.addPark q.lane ea)

/-- HATCH_ARG_STORE (R269): the next entry of a window writes an argument register; a GO of no class and opcode is refused
with ENG_CMD (R271). -/
def execHatchArgStore (wg warp : Nat) (s : State) : Host.Outcome State Fault Refusal :=
  match s.hatchHead wg warp with
  | none => .next s
  | some (_, v, e) =>
    .next (if e.m < 4 then
        ((s.popHatch wg warp).updWarp wg warp fun v => { v with args := mapNth v.args e.lane fun a => setNth a e.m e.val }).finishWindows
          wg warp
      else if (engineOp e.val).isNone then
        ((s.popHatch wg warp).updHold wg warp e.gid (Hold.addFault e.lane .engCmd (goDetail (v.staged e).go))).finishWindows wg warp
      else s)

/-- A GO of one operation at the head of a window enters the stage and is checked; one whose translation waits stays where
it is, with TRANSLATION as the stall reason of its group (`State.stallReason`). A DRAW reads its header behind the earlier
accesses of its lane (R124, R269, R271, R406). -/
def State.stageGo (s : State) (op : EngineOp) (wg w : Nat) : State :=
  match s.hatchHead wg w with
  | none => s
  | some (g, v, e) =>
    if e.m != 4 || engineOp e.val != some op then s
    else
      let s := if op = .draw then s.drain ⟨wg, w, e.lane⟩ else s
      let g := (s.wg? wg).getD g
      let q := v.staged e
      match s.goCheck g w q with
      | .wait => s
      | c => ((s.popHatch wg w).updWarp wg w fun v => { v with stage := some (s.fixed g q) }).goAct wg w q c

/-- COPY_LINEAR (R275). -/
def execCopyLinear (wg warp : Nat) (s : State) : Host.Outcome State Fault Refusal := .next (s.stageGo .linear wg warp)

/-- COPY_STRIDED (R275). -/
def execCopyStrided (wg warp : Nat) (s : State) : Host.Outcome State Fault Refusal := .next (s.stageGo .strided wg warp)

/-- COPY_FILL (R275). -/
def execCopyFill (wg warp : Nat) (s : State) : Host.Outcome State Fault Refusal := .next (s.stageGo .fill wg warp)

/-- NM_LOAD (R462, R463). -/
def execNmLoad (wg warp : Nat) (s : State) : Host.Outcome State Fault Refusal := .next (s.stageGo .nmLoad wg warp)

/-- NM_RUN (R462, R464, R465). -/
def execNmRun (wg warp : Nat) (s : State) : Host.Outcome State Fault Refusal := .next (s.stageGo .nmRun wg warp)

/-- DRAW (R404, R406). -/
def execDraw (wg warp : Nat) (s : State) : Host.Outcome State Fault Refusal := .next (s.stageGo .draw wg warp)

/-- INVOKE (R428, R429). -/
def execInvoke (wg warp : Nat) (s : State) : Host.Outcome State Fault Refusal := .next (s.stageGo .invoke wg warp)

/-- READOUT (R428, R430). -/
def execReadout (wg warp : Nat) (s : State) : Host.Outcome State Fault Refusal := .next (s.stageGo .readout wg warp)

/-- QUEUE_PUSH (R456). -/
def execQueuePush (wg warp : Nat) (s : State) : Host.Outcome State Fault Refusal := .next (s.stageGo .push wg warp)

/-- COMPLETION_REGISTER_WRITE (R274): the write of a group held at its instruction is made once COUNT is 0. -/
def execCompletionRegisterWrite (wg warp gid : Nat) (s : State) : Host.Outcome State Fault Refusal :=
  match s.wg? wg, (s.warp? wg warp).bind fun v => (v.ring.find? fun q => q.gid = gid).map fun q => (v, q) with
  | some g, some (v, q) =>
    match q.hold with
    | some (.creg writes npc) =>
      if s.windowRuns g && writes.all fun e => cregCount (v.ureg e.1) = 0 then
        .next ((s.updWarp wg warp fun v => writes.foldl (fun v e => v.setUreg e.1 e.2) v).endHold wg warp q npc [])
      else .next s
    | _ => .next s
  | _, _ => .next s

end Sys2Proof.Machine
end

