-- ==== Sys2Proof/Machine/Copy.lean ====
section
/-! DEFINITION. Copies, fills and READOUT: their portions, the bytes they read, and their landing (R24, R275 to R279, R430,
R431). -/

namespace Sys2Proof.Machine

/-! ### Addresses of a command -/

/-- The physical address of a byte of an operand that is not remote: of the issuing workgroup's scratchpad, of the vault
aperture, or through its page, which is pinned (R272, R276). -/
def State.operandPhys (s : State) (ctx wg : Nat) (sp : Bool) (va : Nat) : Option Nat :=
  if sp then (s.wg? wg).map fun g => g.phys va
  else match region va with
  | .aperture v off => some (vaultPhys v off)
  | .paged => ((s.ctx? ctx).bind fun c => pageOf c.pages va).map fun p => p.phys + (va - p.va)
  | _ => none

/-- A byte read for a command: 0xFF where its line is poisoned, and whether it is (R278). -/
def State.sourceByte (s : State) (phys : Option Nat) : Byte × Bool :=
  match phys with
  | none => (0, false)
  | some p => if s.poisoned p then (0xFF, true) else (Memory.read s.mem p, false)

/-! ### Portions (R277) -/

/-- The bytes of a portion: its row, and the range of destination addresses in one 64-byte line. -/
structure Portion where
  row : Nat
  lo  : Nat
  hi  : Nat
  deriving DecidableEq, Repr

/-- Portion `p` of rows of `len` bytes at `dst` with a stride: none where there is no such portion. -/
def portionAt (dst len rows stride p : Nat) : Option Portion :=
  let per := len / 64 + 2
  let row := p / per
  let d := dst + row * stride
  let lo := max d ((d / 64 + p % per) * 64)
  let hi := min (d + len) ((d / 64 + p % per + 1) * 64)
  if row < rows && lo < hi then some ⟨row, lo, hi⟩ else none

/-- Whether landed portions cover a 64-byte line of destination addresses whole, none of them from a poisoned source. -/
def coversLine (dst len rows stride line : Nat) (landed bad : List Nat) : Bool :=
  let ranges := (landed.filterMap (portionAt dst len rows stride)).filter fun r => r.lo / 64 = line
  let spoilt := (bad.filterMap (portionAt dst len rows stride)).any fun r => r.lo / 64 = line
  !spoilt && (List.range 64).all fun i => ranges.any fun r => decide (r.lo ≤ 64 * line + i) && decide (64 * line + i < r.hi)

/-- A portion's bytes stored at the destination: its line is poisoned where a source byte was, and a line that the
command has overwritten whole loses its poison (R46, R278). -/
def State.storePortion (s : State) (phys : Nat) (bs : List Byte) (bad whole : Bool) : State :=
  let line := phys / 64
  if bad then ((s.poisonLine line).storeBytes phys bs).addPoison line
  else
    let t := s.storeBytes phys bs
    if whole then t.clearPoison line else t

/-! ### Landing (R273, R277) -/

/-- Whether an engine may go on with a command: its context is resident and no hang has halted its work, and the workgroups it
names stand or are kept (R277, R388, R396). -/
def State.engineRuns (s : State) (c : Command) : Bool :=
  (s.ctx? c.ctx).any (fun k => k.resident && !k.hungHalt) && c.names.all fun n => (s.wg? n).any fun g => g.resident || g.kept

/-- `n` bytes of a command land; with the last of them it ends (R273). -/
def State.landBytes (s : State) (id n : Nat) : State :=
  match s.cmd? id with
  | none => s
  | some c => if c.total ≤ c.fallen + n then (s.endCommand id).settle else s.landPart id n

/-- Mark a portion of a copy or READOUT as landed. -/
def Work.addLanded (p : Nat) (isBad : Bool) : Work → Work
  | .copy op d a len rows ds ss dsp ssp l b => .copy op d a len rows ds ss dsp ssp (l ++ [p]) (if isBad then b ++ [p] else b)
  | .readout t x0 y0 x1 y1 d sp l => .readout t x0 y0 x1 y1 d sp (l ++ [p])
  | w => w

def Work.landed : Work → List Nat
  | .copy _ _ _ _ _ _ _ _ _ l _ => l
  | .readout _ _ _ _ _ _ _ l => l
  | _ => []

/-- A source byte of a copy at byte `i` of row `r` (R275). -/
def State.copyByte (s : State) (c : Command) (op : Nat) (src : DWord) (sstride : Nat) (ssp : Bool) (r i : Nat) : Byte × Bool :=
  if op = 2 then ((leBytes 8 src.toNat).getD (i % 8) 0, false)
  else s.sourceByte (s.operandPhys c.ctx c.lane.wg ssp (src.toNat + r * sstride + i))

/-! ### Remote operands (R24, R34) -/

/-- The peer entry of a remote address, where the whole range lies in the window it names (R24). How an entry of the peer table,
or a window this device exports, becomes valid is not said; the model has no step that writes either, and its statements hold
of every content (DESIGN CHOICE, log 7). -/
def State.peerOf (s : State) (ctx va n : Nat) : Option (Peer × Nat) :=
  let off := va % 2 ^ 43
  ((s.ctx? ctx).bind fun c => c.peers[(va - 0xC000000000000) / 2 ^ 43]?).bind fun p =>
    if p.valid && decide (off + n ≤ p.bytes) then some (p, off) else none

/-- Whether every row of an operand that is remote lies in its peer's window. -/
def State.remoteOk (s : State) (ctx : Nat) (sp : Bool) (base rows stride len : Nat) : Bool :=
  sp || (List.range rows).all fun r =>
    !isRemote (base + r * stride) len || (s.peerOf ctx (base + r * stride) len).isSome

/-- The fields of a transfer header (R33). -/
structure EthHeader where
  magic   : Nat
  version : Nat
  op      : Nat
  flow    : Nat
  seq     : Nat
  len     : Nat
  offset  : Nat
  window  : Nat
  resv    : Nat
  deriving DecidableEq, Repr

/-- The 32 bytes of a transfer header (R33). -/
def EthHeader.bytes (h : EthHeader) : List Byte :=
  leBytes 4 h.magic ++ leBytes 1 h.version ++ leBytes 1 h.op ++ leBytes 2 h.flow ++ leBytes 4 h.seq ++ leBytes 4 h.len
    ++ leBytes 8 h.offset ++ leBytes 4 h.window ++ leBytes 4 h.resv

/-- The header of a frame, read from its bytes (R33). -/
def headerOf (f : EthFrame) : EthHeader :=
  let b := f.bytes
  { magic := fieldAt b 0 4, version := fieldAt b 4 1, op := fieldAt b 5 1, flow := fieldAt b 6 2, seq := fieldAt b 8 4
    len := fieldAt b 12 4, offset := fieldAt b 16 8, window := fieldAt b 24 4, resv := fieldAt b 28 4 }

/-- The payload of a frame: what follows the header (R32). -/
def payloadOf (f : EthFrame) : List Byte := f.bytes.drop 32

/-- A vault-transfer frame to a node behind a port (R32, R33). -/
def frameTo (port node : Nat) (h : EthHeader) (payload : List Byte) : EthFrame :=
  { port := port, node := node, ipv6Udp := true, dstPort := 47350, bytes := h.bytes ++ payload }

/-- A header of this device's making (R33). -/
def EthHeader.of (op flow seq len offset window : Nat) : EthHeader :=
  { magic := 0x4F565846, version := 1, op := op, flow := flow, seq := seq, len := len, offset := offset, window := window, resv := 0 }

/-- The flow of this device to a node, of its own frames or of read data (R34). -/
def State.txFlow (s : State) (flow node : Nat) (data : Bool) : TxFlow :=
  (s.txFlows.find? fun t => t.flow = flow && t.node = node && t.data = data).getD ⟨flow, node, data, 0, []⟩

def State.setTxFlow (s : State) (t : TxFlow) : State :=
  { s with txFlows := s.txFlows.filter (fun u => !(u.flow = t.flow && u.node = t.node && u.data = t.data)) ++ [t] }

/-- A frame of a flow sent, and held until it is acknowledged and, for a read request, answered (R34, R293). -/
def State.holdFrame (s : State) (t : TxFlow) (portion : Option (Nat × Nat)) (f : EthFrame) : State :=
  let sent : TxFrame := { acked := false, answered := decide ((headerOf f).op ≠ 2), portion := portion, frame := f }
  State.setTxFlow { s with ethOut := s.ethOut ++ [f] } { t with frames := t.frames ++ [sent] }

/-- A portion's frame, with the next SEQ of the flow of its engine, sent through the port of the peer entry (R24, R32 to R34).
LEN of a read request is the bytes it asks for; it has no payload (DESIGN CHOICE, log 7). -/
def State.sendFrame (s : State) (flow cmd portion op : Nat) (peer : Peer) (off len : Nat) (payload : List Byte) : State :=
  let t := s.txFlow flow peer.node false
  let h := EthHeader.of op flow t.nextSeq len off peer.window.toNat
  s.holdFrame { t with nextSeq := (t.nextSeq + 1) % 2 ^ 32 } (some (cmd, portion)) (frameTo peer.port peer.node h payload)

/-- Whether a portion of a command is under way to a peer. -/
def State.inFlight (s : State) (cmd portion : Nat) : Bool :=
  s.txFlows.any fun t => t.frames.any fun f => f.portion = some (cmd, portion)

/-! ### The portions of a copy -/

/-- A portion of a copy: it lands, or where an operand is remote, its frame is sent (R277, R293). -/
def State.copyPortion (s : State) (c : Command) (p : Nat) : State :=
  match c.work with
  | .copy op dst src len rows ds ss dsp ssp landed bad =>
    match portionAt dst.toNat len rows ds p with
    | none => s
    | some q =>
      let n := q.hi - q.lo
      let at0 := q.lo - (dst.toNat + q.row * ds)
      let from0 := src.toNat + q.row * ss + at0
      let bytes := (List.range n).map fun i => s.copyByte c op src ss ssp q.row (at0 + i)
      let isBad := bytes.any Prod.snd
      if !dsp && isRemote q.lo n then
        match s.peerOf c.ctx q.lo n with
        | none => s
        | some (peer, off) =>
          (s.updCmd c.id fun k => { k with ue := k.ue || isBad }).sendFrame c.engine c.id p 1 peer off n (bytes.map Prod.fst)
      else if op != 2 && !ssp && isRemote from0 n then
        match s.peerOf c.ctx from0 n with
        | none => s
        | some (peer, off) => s.sendFrame c.engine c.id p 2 peer off n []
      else match s.operandPhys c.ctx c.lane.wg dsp q.lo with
      | none => s
      | some phys =>
        let whole := coversLine dst.toNat len rows ds (q.lo / 64) (landed ++ [p]) bad
        let s := s.storePortion phys (bytes.map Prod.fst) isBad whole
        (s.updCmd c.id fun k => { k with ue := k.ue || isBad, work := k.work.addLanded p isBad }).landBytes c.id n
  | _ => s

/-! ### The portions of READOUT (R430, R431) -/

/-- The commands of a target that stand before another in its command order (R302). -/
def Target.before (t : Target) (id : Nat) : List Nat := t.order.takeWhile (· != id)

/-- The pixel and sample of 16-byte item `k` of a READOUT. -/
def readoutPlace (t : Target) (x0 y0 x1 k : Nat) : Nat × Nat × Nat :=
  let pix := k / t.samples
  let w := x1 - x0 + 1
  (x0 + pix % w, y0 + pix / w, k % t.samples)

/-- A byte of a READOUT: 0xFF at a damaged pixel, and whether it is one. -/
def readoutByte (t : Target) (x0 y0 x1 i : Nat) : Byte × Bool :=
  let (x, y, s) := readoutPlace t x0 y0 x1 (i / 16)
  if t.isDamaged x y then (0xFF, true)
  else ((leBytes 4 ((t.sample x y s).getD (i % 16 / 4) 0).toNat).getD (i % 4) 0, false)

/-- Whether a READOUT has still to read a pixel: a portion that holds one of its samples has neither landed nor been sent
(R294, R430). -/
def State.readLeft (s : State) (t : Target) (c : Command) (x y : Nat) : Bool :=
  match c.work with
  | .readout _ x0 y0 x1 y1 dst _ landed =>
    let first := ((y - y0) * (x1 - x0 + 1) + (x - x0)) * t.samples
    decide (x0 ≤ x) && decide (x ≤ x1) && decide (y0 ≤ y) && decide (y ≤ y1) && (List.range t.samples).any fun k =>
      let p := (dst.toNat + 16 * (first + k)) / 64 - dst.toNat / 64
      !landed.contains p && !s.inFlight c.id p
  | _ => false

/-- Whether an application at a pixel must wait for commands of its target that stand before it: for their applications, and for
READOUTs that have still to read the pixel (R294, R302, R417). -/
def State.pixelHeld (s : State) (t : Target) (ids : List Nat) (x y : Nat) : Bool :=
  s.pixelPending t ids x y || s.cmds.any fun c => ids.contains c.id && s.readLeft t c x y

/-- A portion of a READOUT, once every earlier application at its pixels is made. -/
def State.readoutPortion (s : State) (c : Command) (p : Nat) : State :=
  match c.work with
  | .readout h x0 y0 x1 _ dst dsp _ =>
    match s.target? c.ctx h, portionAt dst.toNat c.total 1 0 p with
    | some t, some q =>
      let n := q.hi - q.lo
      let at0 := q.lo - dst.toNat
      let items := (List.range (n / 16)).map fun i => readoutPlace t x0 y0 x1 (at0 / 16 + i)
      if items.any fun i => s.pixelPending t (t.before c.id) i.1 i.2.1 then s
      else
        let bytes := (List.range n).map fun i => readoutByte t x0 y0 x1 (at0 + i)
        let isBad := bytes.any Prod.snd
        if !dsp && isRemote q.lo n then
          match s.peerOf c.ctx q.lo n with
          | none => s
          | some (peer, off) =>
            (s.updCmd c.id fun k => { k with ue := k.ue || isBad }).sendFrame c.engine c.id p 1 peer off n (bytes.map Prod.fst)
        else match s.operandPhys c.ctx c.lane.wg dsp q.lo with
        | none => s
        | some phys =>
          let s := s.storePortion phys (bytes.map Prod.fst) false false
          (s.updCmd c.id fun k => { k with ue := k.ue || isBad, work := k.work.addLanded p false }).landBytes c.id n
    | _, _ => s
  | _ => s

/-- A command of a target leaves its target's command order when it ends (R302). -/
def State.leaveOrder (s : State) (c : Command) : State :=
  if (s.cmd? c.id).isSome then s
  else (s.updCtx c.ctx fun k => { k with targets := k.targets.map fun t => { t with order := t.order.filter (· != c.id) } }).wakeSettled
    c.ctx

/-- COPY_PORTION_LAND (R277, R430). -/
def execCopyPortionLand (cmd portion : Nat) (s : State) : Host.Outcome State Fault Refusal :=
  match s.cmd? cmd with
  | none => .next s
  | some c =>
    if !s.engineRuns c || c.work.landed.contains portion || s.inFlight cmd portion then .next s
    else match c.work with
    | .readout _ _ _ _ _ _ _ _ => .next ((s.readoutPortion c portion).leaveOrder c)
    | _ => .next (s.copyPortion c portion)

end Sys2Proof.Machine
end

