-- ==== Sys2Proof/Machine/NearMem.lean ====
section
/-! DEFINITION. Near-memory sequencers: microwords, LOAD parts and the waves of RUN (R457 to R473). -/

namespace Sys2Proof.Machine

/-! ### Microwords (R459 to R461) -/

def uwOp (w : Word) : Nat := w.toNat / 2 ^ 26
def uwD (w : Word) : Nat := w.toNat / 2 ^ 23 % 8
def uwA (w : Word) : Nat := w.toNat / 2 ^ 20 % 8
def uwB (w : Word) : Nat := w.toNat / 2 ^ 17 % 8
def uwC (w : Word) : Nat := w.toNat / 2 ^ 14 % 8
def uwJ (w : Word) : Nat := w.toNat / 2 ^ 11 % 8
def uwP (w : Word) : Nat := w.toNat / 2 ^ 9 % 4

/-- The bits of the fields that an operation reads, UOP included: none for an invalid operation (R460). -/
def uwFields (op : Nat) : Option Nat :=
  let d := 7 * 2 ^ 23
  let a := 7 * 2 ^ 20
  let b := 7 * 2 ^ 17
  let c := 7 * 2 ^ 14
  let j := 7 * 2 ^ 11
  let p := 3 * 2 ^ 9
  match op with
  | 0x00 => some 0
  | 0x01 => some (d + j)
  | 0x02 => some (a + j)
  | 0x03 => some (d + p)
  | 0x04 => some (d + a)
  | 0x05 | 0x06 => some (d + a + b)
  | 0x07 => some (d + a + b + c)
  | 0x08 | 0x09 | 0x0A => some (d + a + b)
  | 0x0B => some (d + a)
  | _ => none

/-- A microword with a valid UOP, and 0 in each field that it does not read. -/
def uwOk (w : Word) : Bool :=
  match uwFields (uwOp w) with
  | some m => w.toNat &&& (2 ^ 26 - 1 - m) = 0
  | none => false

/-- The microwords before the first END: none where no word is END. -/
def programBody : List Word → Option (List Word)
  | [] => none
  | w :: ws => if uwOp w = 0 then some [] else (programBody ws).map (w :: ·)

/-- Whether a microprogram is valid (R461): the first END is a valid word too. -/
def programOk (ws : List Word) : Bool :=
  match programBody ws with
  | none => false
  | some b => b.all uwOk && (ws[b.length]?).any uwOk

/-! ### The NBU (R458, R460) -/

/-- FNEG of a lane. -/
def nmNeg (a : Nat) : Nat :=
  match fval fmtF32 a with
  | .nan _ => fmtF32.nanBits
  | _ => negIf fmtF32 true a

/-- The lanes of an operation over three registers. -/
def nmLanes (op : Nat) (a b c : List Word) : List Word :=
  (List.range 16).map fun e =>
    let x := (a.getD e 0).toNat
    let y := (b.getD e 0).toNat
    let z := (c.getD e 0).toNat
    wordOf (match op with
      | 0x05 => (fpAdd fmtF32 .rne x y).bits
      | 0x06 => (fpMul fmtF32 .rne x y).bits
      | 0x07 => (fpFma fmtF32 .rne x y z).bits
      | 0x08 => (fpMinMax fmtF32 false x y).bits
      | 0x09 => (fpMinMax fmtF32 true x y).bits
      | 0x0A => x + y
      | 0x0B => nmNeg x
      | _ => x)

/-- The words of a chunk of memory (R458). -/
def State.chunkWords (s : State) (phys : Nat) : List Word := (List.range 16).map fun e => wordOf (Memory.le s.mem (phys + 4 * e) 4)

/-- A body at one chunk index: registers, held writes in microword order, and the operands whose RD failed (R470, R472). -/
structure Nbu where
  regs : List (List Word)
  held : List (Nat × List Word)
  bad  : List Nat
  deriving DecidableEq, Repr

/-- What one chunk index works on: the physical chunk of each operand, the parameters, and the operands found
uncorrectable as they are read. -/
structure NbuEnv where
  phys    : Nat → Nat
  params  : List Word
  failing : Nat → Bool

/-- One microword (R460, R472). -/
def Nbu.run (s : State) (e : NbuEnv) (n : Nbu) (w : Word) : Nbu :=
  let reg (k : Nat) : List Word := n.regs.getD k []
  let set (v : List Word) : Nbu := { n with regs := setNth n.regs (uwD w) v }
  let j := uwJ w
  match uwOp w with
  | 0x01 =>
    match n.held.reverse.find? fun h => h.1 = j with
    | some h => set h.2
    | none =>
      let p := e.phys j
      if e.failing j || s.poisoned p then { n with bad := n.bad ++ [j] } else set (s.chunkWords p)
  | 0x02 => { n with held := n.held ++ [(j, reg (uwA w))] }
  | 0x03 => set (List.replicate 16 (e.params.getD (uwP w) 0))
  | op => set (nmLanes op (reg (uwA w)) (reg (uwB w)) (reg (uwC w)))

/-- The body at one chunk index carried out: the writes performed, or the failing chunks poisoned (R461, R466, R470,
R472); with the operands that failed. -/
def State.runBody (s : State) (e : NbuEnv) (body : List Word) : State × List Nat :=
  let start : Nbu := { regs := List.replicate 8 (List.replicate 16 0), held := [], bad := [] }
  let n := body.foldl (Nbu.run s e) start
  if n.bad = [] then
    (n.held.foldl (fun s h => s.storeBytes (e.phys h.1) (h.2.flatMap fun w => leBytes 4 w.toNat)) s, [])
  else (n.bad.foldl (fun s j => s.poisonLine (e.phys j / 64)) s, n.bad)

/-! ### Programs (R457, R463) -/

/-- The program a slot of a sequencer holds for a context. -/
def Context.program (c : Context) (stack slot : Nat) : Option (List Word) :=
  (c.nmProgs.find? fun p => p.1 = stack && p.2.1 = slot).map fun p => p.2.2

/-- A slot filled, or emptied. -/
def Context.setProgram (stack slot : Nat) (ws : Option (List Word)) (c : Context) : Context :=
  let rest := c.nmProgs.filter fun p => !(p.1 = stack && p.2.1 = slot)
  { c with nmProgs := match ws with | some l => rest ++ [(stack, slot, l)] | none => rest }

/-- Microwords held in a sequencer's control store, apart from one slot of one context. -/
def State.storeUse (s : State) (ctx stack slot : Nat) : Nat :=
  s.contexts.foldl (fun n c => c.nmProgs.foldl (fun n p =>
    if p.1 = stack && !(c.id = ctx && p.2.1 = slot) then n + p.2.2.length else n) n) 0

/-- The commands accepted before another. -/
def State.cmdsBefore (s : State) (id : Nat) : List Command := s.cmds.takeWhile fun c => c.id != id

/-- Whether a RUN has a part left on a sequencer. -/
def Work.runsOn (stack : Nat) : Work → Bool
  | .nmRun _ _ _ _ _ _ parts _ _ _ => parts.any fun p => p.1 = stack
  | _ => false

def Work.loadsOn (stack : Nat) : Work → Bool
  | .nmLoad _ _ _ left => left.contains stack
  | _ => false

/-- NM_LOAD_PART (R463): a sequencer's part of a LOAD; `bad` when a word meets an uncorrectable error. -/
def execNmLoadPart (cmd stack : Nat) (bad : Bool) (s : State) : Host.Outcome State Fault Refusal :=
  match s.cmd? cmd with
  | none => .next s
  | some c =>
    match c.work with
    | .nmLoad prog len va left =>
      if !s.engineRuns c || !left.contains stack || (s.cmdsBefore cmd).any (fun k => k.work.runsOn stack) then .next s
      else
        let at0 (i : Nat) : Nat := (s.operandPhys c.ctx c.lane.wg false (va.toNat + 4 * i)).getD 0
        let ws := (List.range len).map fun i => wordOf (Memory.le s.mem (at0 i) 4)
        let poisoned := (List.range len).any fun i => s.poisoned (at0 i)
        let room := decide (s.storeUse c.ctx stack prog + len ≤ Config.controlStore)
        let ok := !bad && !poisoned && room && programOk ws
        let s := s.updCtx c.ctx (Context.setProgram stack prog (if ok then some ws else none))
        .next ((s.updCmd cmd fun k =>
          { k with err := k.err || !ok, work := .nmLoad prog len va (left.filter (· != stack)) }).landBytes cmd 1)
    | _ => .next s

/-! ### Waves (R464 to R473) -/

/-- The chunk addresses a RUN has still to process on a sequencer. -/
def Work.chunksLeft (stack : Nat) : Work → List Nat
  | .nmRun _ _ _ _ _ ops parts _ _ _ =>
    (parts.filter fun p => p.1 = stack).flatMap fun p => p.2.2.flatMap fun i => ops.map fun b => b + 64 * i
  | _ => []

/-- The physical chunk that a command names by a virtual address. -/
def State.chunkOf (s : State) (c : Command) (va : Nat) : Option Nat := (s.operandPhys c.ctx c.lane.wg false va).map (· / 64)

/-- Whether a chunk index of a RUN may be processed: no RUN that its sequencer accepted earlier, of whatever context resident, has
one of its chunks left (R294, R472). -/
def State.chunkFree (s : State) (c : Command) (stack : Nat) (ops : List Nat) (i : Nat) : Bool :=
  let mine := ops.map fun b => s.chunkOf c (b + 64 * i)
  (s.cmdsBefore c.id).all fun k => !(s.ctx? k.ctx).any Context.resident
    || (k.work.chunksLeft stack).all fun va => !mine.contains (s.chunkOf k va)

/-- Whether a program names an operand that a RUN does not have (R469). -/
def namesBeyond (body : List Word) (n : Nat) : Bool :=
  body.any fun w => (uwOp w = 1 || uwOp w = 2) && decide (n ≤ uwJ w)

/-- What a RUN holds while it runs. -/
structure RunState where
  prog   : Nat
  first  : Nat
  count  : Nat
  params : List Word
  record : Nat
  ops    : List Nat
  parts  : List (Nat × Bool × List Nat)
  done   : Nat
  bad    : Nat
  firstBad : Option (Nat × DWord)
  deriving DecidableEq, Repr

def RunState.work (r : RunState) : Work :=
  .nmRun r.prog r.first r.count r.params r.record r.ops r.parts r.done r.bad r.firstBad

def Work.run? : Work → Option RunState
  | .nmRun prog first count params rec ops parts done bad firstBad =>
    some { prog := prog, first := first, count := count, params := params, record := rec, ops := ops, parts := parts
           done := done, bad := bad, firstBad := firstBad }
  | _ => none

/-- FIRSTBAD after a failing index (R471). -/
def firstBadOf (old : Option (Nat × DWord)) (i : Nat) (va : DWord) : Option (Nat × DWord) :=
  match old with
  | some o => if i < o.1 then some (i, va) else some o
  | none => some (i, va)

/-- One chunk index of a RUN processed. -/
def State.runIndex (s : State) (c : Command) (body : List Word) (failing : List (Nat × Nat)) (r : RunState) (i : Nat) :
    State × RunState :=
  let phys (j : Nat) : Nat := (s.operandPhys c.ctx c.lane.wg false (r.ops.getD j 0 + 64 * i)).getD 0
  let q := s.runBody { phys := phys, params := r.params, failing := fun j => failing.contains (i, j) } body
  let r := { r with done := r.done + 1 }
  if q.2 = [] then (q.1, r)
  else
    let j := q.2.foldl min (q.2.headD 0)
    (q.1, { r with bad := r.bad + 1, firstBad := firstBadOf r.firstBad i (dwordOf (r.ops.getD j 0 + 64 * i)) })

/-- The completion record of a RUN (R471). -/
def State.writeRecord (s : State) (c : Command) (r : RunState) : State :=
  if r.record = 0 then s
  else match s.wg? c.lane.wg with
  | none => s
  | some g =>
    let va : DWord := (r.firstBad.map Prod.snd).getD 0
    s.storeBytes (g.phys r.record) (leBytes 4 r.done ++ leBytes 4 r.bad ++ leBytes 8 va.toNat)

/-- A RUN moved on: it ends, its record written first, when it has no part left; else `n` bytes have landed (R471, R472). -/
def State.runLanded (s : State) (c : Command) (r : RunState) (err : Bool) (n : Nat) : State :=
  let s := s.updCmd c.id fun k => { k with work := r.work, err := k.err || err, ue := k.ue || decide (0 < r.bad) }
  if r.parts = [] then ((s.writeRecord c r).endCommand c.id).settle
  else if n = 0 then s
  else s.landPart c.id n

/-- A part's wave: the start check where it has not started, then chunk indices it has left (R466, R469, R470). -/
def State.runWave (s : State) (c : Command) (r : RunState) (stack : Nat) (started : Bool) (left : List Nat)
    (chunks : List Nat) (failing : List (Nat × Nat)) : State :=
  let body := (((s.ctx? c.ctx).bind fun k => k.program stack r.prog).bind programBody)
  let refused := !started && (match body with
    | none => true
    | some b => namesBeyond b r.ops.length)
  if refused then
    s.runLanded c { r with parts := r.parts.filter fun p => p.2.1 } true 0
  else
    let now := (chunks.eraseDups).filter fun i => left.contains i && s.chunkFree c stack r.ops i
    let q := now.foldl (fun (q : State × RunState) i => q.1.runIndex c (body.getD []) failing q.2 i) (s, r)
    let rest := left.filter fun i => !now.contains i
    let step (p : Nat × Bool × List Nat) : Nat × Bool × List Nat := if p.1 = stack then (stack, true, rest) else p
    let parts := (q.2.parts.map step).filter fun p => p.2.2 != []
    q.1.runLanded c { q.2 with parts := parts } false (64 * now.length)

/-- NM_WAVE (R466): one wave of a part, over chunk indices that the device chooses, with the reads that meet an
uncorrectable error as (chunk index, operand). A part starts once the LOADs its sequencer accepted earlier have ended
(R463). -/
def execNmWave (cmd stack : Nat) (chunks : List Nat) (failing : List (Nat × Nat)) (s : State) :
    Host.Outcome State Fault Refusal :=
  match s.cmd? cmd with
  | none => .next s
  | some c =>
    match c.work.run? with
    | none => .next s
    | some r =>
      match r.parts.find? fun p => p.1 = stack with
      | none => .next s
      | some (_, started, left) =>
        if !s.engineRuns c || (s.cmdsBefore cmd).any (fun k => k.work.loadsOn stack) then .next s
        else .next (s.runWave c r stack started left chunks failing)

end Sys2Proof.Machine
end

