-- ==== Sys2Proof/Machine/Raster.lean ====
section
/-! DEFINITION. Raster commands after acceptance: triangles, tokens, quads, and the applications of fragments and of
target-wide methods; BMU faults (R399 to R417, R429 to R432). -/

namespace Sys2Proof.Machine

/-! ### Triangles (R399, R400, R405) -/

/-- Whether a triangle is culled (R400). -/
def culled (pos neg : Bool) (v : List Int) : Bool :=
  let a := triArea v
  a = 0 || (pos && decide (0 < a)) || (neg && decide (a < 0))

/-- The tokens of a triangle, from its six coordinates (R399 to R402, R415). -/
def Target.tokensOf (t : Target) (pos neg : Bool) (tri : Nat) (xs : List Nat) : List Token :=
  match snapAll xs with
  | none => []
  | some v => if culled pos neg v then [] else (t.tilesOf v).map fun k => { tri := tri, tx := k.1, ty := k.2, verts := v }

/-! ### Reorder slots (R412, R415, R416) -/

def Target.tileIndex (t : Target) (tx ty : Nat) : Nat := ty * ((t.w + 7) / 8) + tx

/-- The vault that holds a tile. -/
def Target.vaultOf (t : Target) (tx ty : Nat) : Nat :=
  ((t.vaults.find? fun e => e.1 = t.tileIndex tx ty).map fun e => e.2.1).getD 0

/-- The bank of a pixel (R412). -/
def pixelBank (x y : Nat) : Nat := (8 * (y % 8) + x % 8) % 32

/-- Samples in a mask. -/
def maskCount (m : Nat) : Nat := (List.range 8).countP fun i => m.testBit i

/-- Reorder slots of a bank that are taken: one for each covered sample of a token at a pixel not yet applied or nulled. -/
def State.slotsUsed (s : State) (vault bank : Nat) : Nat :=
  s.contexts.foldl (fun n c => c.targets.foldl (fun n t => t.frags.foldl (fun n f =>
    if f.st != .done && t.vaultOf (f.x / 8) (f.y / 8) = vault && pixelBank f.x f.y = bank then n + maskCount f.mask.toNat else n)
    n) n) 0

/-- The covered pixels of a token, with their masks. -/
def Target.tokenPixels (t : Target) (k : Token) : List (Nat × Nat × Nat) :=
  (tilePixels k.tx k.ty).filterMap fun p =>
    let m := t.coverage k.verts p.1 p.2
    if m = 0 then none else some (p.1, p.2, m)

/-- Whether every bank has the slots a token needs (R415). -/
def State.slotsFree (s : State) (t : Target) (k : Token) : Bool :=
  let px := t.tokenPixels k
  (List.range 32).all fun bank =>
    let need := px.foldl (fun n p => if pixelBank p.1 p.2.1 = bank then n + maskCount p.2.2 else n) 0
    need = 0 || decide (s.slotsUsed (t.vaultOf k.tx k.ty) bank + need ≤ 256)

/-! ### Quads and pixel workgroups (R408, R409) -/

/-- What a pixel lane holds (R403, R409). -/
def Target.pixelLane (t : Target) (cmd : Nat) (h psn : Word) (v : List Int) (x y : Nat) : Pixel :=
  let m := t.coverage v x y
  { cmd := cmd, target := h, psn := psn, xy := wordOf (x + 65536 * y), bary0 := baryAt v 1 x y, bary1 := baryAt v 2 x y
    mask := wordOf m, helper := m = 0, posted := false }

/-- The quads of a token, each as its four lanes. -/
def Target.quads (t : Target) (cmd : Nat) (h psn : Word) (k : Token) : List (List (Option Pixel)) :=
  ((List.range 16).map fun q => (8 * k.tx + 2 * (q % 4), 8 * k.ty + 2 * (q / 4))).filterMap fun c =>
    let px := (List.range 4).map fun m => t.pixelLane cmd h psn k.verts (c.1 + m % 2) (c.2 + m / 2)
    if px.all Pixel.helper then none else some (px.map some)

/-- Quads packed into warps of up to eight. -/
def packQuads (tri tx ty : Nat) (qs : List (List (Option Pixel))) : List PixelWg :=
  (List.range ((qs.length + 7) / 8)).map fun i =>
    let lanes := ((qs.drop (8 * i)).take 8).flatMap fun q => q
    { tri := tri, tx := tx, ty := ty, lanes := lanes ++ List.replicate (32 - lanes.length) none }

/-! ### Tokens (R415, R416) -/

/-- The tokens a raster command has still to issue. -/
def Work.tokens : Work → List Token
  | .draw _ _ ts _ => ts
  | _ => []

/-- Whether a token is the next of its tile: the tokens of one tile go in ascending PSN across the target (R415). -/
def State.tokenNext (s : State) (t : Target) (c : Command) (k : Token) : Bool :=
  let same (q : Token) : Bool := q.tx = k.tx && q.ty = k.ty
  (t.before c.id).all (fun id => !(s.cmd? id).any fun d => d.work.tokens.any same)
    && (c.work.tokens.find? same) = some k

/-- Whether a token of a raster command that a restore has resumed may go: the pixel workgroups saved with it are admitted, and
no token with an earlier PSN is left to the raster engine of the cluster that owns the tile (R396). -/
def State.tokenResumes (s : State) (t : Target) (c : Command) (k : Token) (launch : Nat) : Bool :=
  let cluster (q : Token) : Nat := clusterOf (t.vaultOf q.tx q.ty)
  let mine (q : Token) : Bool := cluster q = cluster k
  c.resumed = 0
    || ((c.resumed = 2 || (s.launch? launch).all fun l => l.pixels = [])
      && (t.before c.id).all (fun id => !(s.cmd? id).any fun d => d.work.tokens.any mine)
      && c.work.tokens.all fun q => !mine q || decide (k.tri ≤ q.tri))

/-- The fragments of a token, entered at its pixels: nulled at damaged ones, or where no lane will run (R416). -/
def Target.addToken (t : Target) (c : Command) (psn : Word) (k : Token) (first : Nat) (dead : Bool) : Target :=
  let frags := (t.tokenPixels k).zipIdx.map fun p =>
    { id := first + p.2, cmd := c.id, psn := psn, x := p.1.1, y := p.1.2.1, mask := wordOf p.1.2.2
      st := if dead || t.isDamaged p.1.1 p.1.2.1 then .done else .opened : Fragment }
  { t with frags := t.frags ++ frags }

/-- ORDER_TOKEN_ISSUE (R415): once its slots are reserved, a token goes to its tile, and its quads may be admitted. -/
def execOrderTokenIssue (cmd tri tx ty : Nat) (s : State) : Host.Outcome State Fault Refusal :=
  match s.cmd? cmd with
  | none => .next s
  | some c =>
    match c.work with
    | .draw h psn tokens launch =>
      match s.target? c.ctx h, tokens.find? fun k => k.tri = tri && k.tx = tx && k.ty = ty with
      | some t, some k =>
        if !s.engineRuns c || !s.tokenNext t c k || !s.tokenResumes t c k launch || !s.slotsFree t k then .next s
        else
          let dead := (s.launch? launch).all Launch.refused
          let p := psn + wordOf k.tri
          let n := (t.tokenPixels k).length
          let s := s.updTarget c.ctx t.index fun t => t.addToken c p k s.seq dead
          let s := { s with seq := s.seq + n }
          let s := s.updCmd cmd fun d => 
            { d with work := .draw h psn (tokens.filter (· != k)) launch, resumed := if d.resumed = 0 then 0 else 2 }
          let wgs := packQuads tri tx ty (t.quads cmd h p k)
          let s := if dead then s else s.updLaunch launch fun l => { l with pixels := l.pixels ++ wgs }
          .next (s.settle.wakeSettled c.ctx)
      | _, _ => .next s
    | _ => .next s

/-! ### Applications (R417, R423, R429, R432) -/

/-- The arguments of a fragment's application (R423). -/
def fragmentArgs (f : Fragment) (cov : Word) (vals : List Word) : List Word :=
  (List.range 4).map (vals.getD · 0) ++ [cov, f.psn, wordOf (f.x + 65536 * f.y)] ++ List.replicate 9 0

/-- Whether PSN q is earlier than PSN p (R417). -/
def psnEarlier (q p : Word) : Bool := q != p && decide ((p - q).toNat < 2 ^ 31)

/-- Whether a posted fragment may be applied: the INVOKEs before its command are done at its pixel, the READOUTs before it have
read the pixel, and under an ORDERED method every token there with an earlier PSN is done (R294, R417). -/
def State.fragmentReady (s : State) (t : Target) (f : Fragment) (ordered : Bool) : Bool :=
  let left (id : Nat) : Bool := (s.cmd? id).any fun c => match c.work with
    | .invoke _ _ _ _ _ _ _ left => left.contains (t.pixIndex f.x f.y)
    | _ => s.readLeft t c f.x f.y
  !(t.before f.cmd).any left
    && (!ordered || !t.frags.any fun q => q.x = f.x && q.y = f.y && q.st != .done && psnEarlier q.psn f.psn)

/-- FRAGMENT_APPLY (R417): one invocation of a method at a pixel, a step of its own. -/
def execFragmentApply (ctx target frag : Nat) (s : State) : Host.Outcome State Fault Refusal :=
  match (s.ctx? ctx).bind fun c => c.targets.find? fun t => t.index = target && !t.dead with
  | none => .next s
  | some t =>
    match t.frags.find? fun f => f.id = frag with
    | none => .next s
    | some f =>
      match f.st with
      | .posted k cov vals =>
        if !s.fragmentReady t f ((t.methods[k]?).any fun m => m.flag) then .next s
        else
          let q := t.apply k f.x f.y (fragmentArgs f cov vals)
          let done (t : Target) : Target := { t with frags := mapIf (fun g => g.id = frag) (fun g => { g with st := .done }) t.frags }
          let s := s.updTarget ctx target fun _ => done q.1
          let s := s.updCmd f.cmd fun c => { c with err := c.err || q.2 }
          .next (s.settle.wakeSettled ctx)
      | _ => .next s

/-- The arguments of a target-wide invocation (R423). -/
def invokeArgs (t : Target) (args : List Word) (x y : Nat) : List Word :=
  (List.range 4).map (args.getD · 0) ++ [wordOf (2 ^ t.samples - 1), 0xFFFFFFFF, wordOf (x + 65536 * y)] ++ List.replicate 9 0

/-- INVOKE_APPLY (R429): the method at one pixel, after every earlier application and READOUT there; a damaged pixel is skipped
(R294, R431). -/
def execInvokeApply (cmd x y : Nat) (s : State) : Host.Outcome State Fault Refusal :=
  match s.cmd? cmd with
  | none => .next s
  | some c =>
    match c.work with
    | .invoke h k x0 y0 x1 y1 args left =>
      match s.target? c.ctx h with
      | none => .next s
      | some t =>
        let i := t.pixIndex x y
        if !s.engineRuns c || decide (t.w ≤ x) || !left.contains i || s.pixelHeld t (t.before cmd) x y then .next s
        else
          let q := if t.isDamaged x y then (t, false) else t.apply k x y (invokeArgs t args x y)
          let rest := left.filter (· != i)
          let s := s.updTarget c.ctx t.index fun _ => q.1
          let s := s.updCmd cmd fun d => { d with err := d.err || q.2, work := .invoke h k x0 y0 x1 y1 args rest }
          let s := if rest = [] then (s.landBytes cmd 1).leaveOrder c else s
          .next (s.wakeSettled c.ctx)
    | _ => .next s

/-! ### Damage (R45, R431) -/

/-- The pixels of a target that a test on their vault and bank names. -/
def Target.damage (t : Target) (hit : Nat → Nat → Nat → Bool) : Target :=
  let px := (List.range (t.w * t.h)).filter fun i => hit (t.vaultOf (i % t.w / 8) (i / t.w / 8)) (i % t.w) (i / t.w)
  let damaged := px.foldl (fun d i => insertNat i d) t.damaged
  let gone (f : Fragment) : Bool := damaged.contains (t.pixIndex f.x f.y)
  { t with damaged := damaged, frags := mapIf gone (fun f => { f with st := .done }) t.frags }

/-- Pixels damaged in every target that holds some in a vault: what waits for them goes on (R427, R431). -/
def State.damagePixels (s : State) (vault : Nat) (hit : Target → Nat → Nat → Bool) : State :=
  let one (c : Context) : Context := { c with targets := c.targets.map fun t => t.damage fun v x y => v = vault && hit t x y }
  let s := { s with contexts := s.contexts.map one }
  s.contexts.foldl (fun s c => s.wakeSettled c.id) s.settle

/-- BMU_FAULT (R45, R431): the pixels of one bank of a vault are damaged. -/
def execBmuFault (vault bank : Nat) (s : State) : Host.Outcome State Fault Refusal :=
  .next (s.damagePixels vault fun _ x y => pixelBank x y = bank)

end Sys2Proof.Machine
end

