-- ==== Sys2Proof/Machine/Replay.lean ====
section
/-! DEFINITION. The replay engines: applications, queue pushes and their launches, fencing and rebuild (R433 to R456). -/

namespace Sys2Proof.Machine

/-! ### Pushes (R454, R455) -/

/-- Two argument words as one 64-bit argument (R454). -/
def pairOf (lo hi : Word) : DWord := hi ++ lo

/-- What the home die finds when it enters a push's launch. -/
inductive PushRead where
  | launch (h : Header)
  | refuse
  | absent (va : Nat)
  | wait
  deriving DecidableEq, Repr

/-- The reads of a push's headers and the checks of LAUNCH (R335, R455). -/
def State.readPush (s : State) (ctx : Nat) (p : PendingPush) : PushRead :=
  if !pushArgsOk p.a0 p.a1 p.a2 p.a3 then .refuse
  else
    let cs := s.headerChks (s.checkTables ctx) p.a0.toNat
    match firstBad cs with
    | some (_, .fault _) => .refuse
    | some (ea, .absent) => .absent ea
    | some _ => .wait
    | none =>
      let h := Header.parse (s.bytesAt cs)
      let ic := s.imageChk (s.checkTables ctx) h.dictVa.toNat
      match firstBad (if h.dictVa = 0 then [] else [ic]) with
      | some (_, .fault _) => .refuse
      | some (ea, .absent) => .absent ea
      | some _ => .wait
      | none => if s.headersOk ctx h ic then .launch h else .refuse

/-- A push refused: its fence says so, and its hatch GO sets ERR (R455, R456). -/
def State.refusePush (s : State) (ctx : Nat) (p : PendingPush) : State :=
  let s := s.writeFence ctx p.a1 p.a2 true
  match p.lane with
  | some r => s.fall r p.creg 0 true false
  | none => s

/-- Whether the fence of a push lies in a page being zeroed: its refusal then waits (R124). -/
def State.pushFenceWaits (s : State) (ctx : Nat) (p : PendingPush) : Bool :=
  p.a1.toNat % 8 = 0 && p.a1 != 0 && region p.a1.toNat = .paged && s.lookup ctx .w p.a1.toNat = .wait

/-- A push that the home die has applied: its launch entered or refused, or it stays for its page (R455). -/
def State.servePush (s : State) (ctx home : Nat) (p : PendingPush) : State :=
  let drop (s : State) : State := s.updCtx ctx fun c => { c with pushes := c.pushes.filter fun q => !(q.handle = p.handle && q.pos = p.pos) }
  match s.readPush ctx p with
  | .launch h => (drop s).enterLaunch ctx h (.push p.handle p.pos p.a1 p.a2 p.lane p.creg)
  | .refuse => if s.pushFenceWaits ctx p then s else (drop s).refusePush ctx p
  | .wait => s
  | .absent va =>
    let mark (q : PendingPush) : PendingPush :=
      if q.handle = p.handle && q.pos = p.pos then { q with region := some (va / 65536 * 65536) } else q
    let s := s.updCtx ctx fun c => { c with pushes := c.pushes.map mark }
    (s.park ctx (512 * home) va [] false).getD s

/-- The pushes of a queue that still wait, tried again. -/
def State.servePushes (s : State) (ctx : Nat) (h : Word) (home : Nat) : State :=
  (((s.ctx? ctx).map Context.pushes).getD []).foldl (fun s p => if p.handle = h then s.servePush ctx home p else s) s

/-- A push at its application on the home die: the hatch GO's command falls, with ERR where the launch is refused at once
(R456). -/
def State.applyPush (s : State) (ctx : Nat) (o : ReplayObj) (e : LogEntry) : State :=
  let mine (c : Command) : Bool := c.ctx = ctx && (match c.work with | .push h n => h = o.handle && n = e.pos | _ => false)
  let arg (j : Nat) : DWord := pairOf (e.args.getD (2 * j) 0) (e.args.getD (2 * j + 1) 0)
  let cmd := s.cmds.find? mine
  let p : PendingPush :=
    { handle := o.handle, pos := e.pos, a0 := arg 0, a1 := arg 1, a2 := arg 2, a3 := arg 3, lane := cmd.map Command.lane
      creg := (cmd.map Command.creg).getD 0, region := none }
  let refused := s.readPush ctx p = .refuse && !s.pushFenceWaits ctx p
  let s := s.updCtx ctx fun c => { c with pushes := c.pushes ++ [p] }
  let s := s.servePush ctx o.home p
  match cmd with
  | some c => ((s.updCmd c.id fun k => { k with err := refused }).endCommand c.id).settle
  | none => s

/-! ### Applications (R438 to R441) -/

/-- Whether a die has a position to apply. -/
def ReplayObj.behind (o : ReplayObj) (d : Nat) : Bool :=
  d < 4 && !o.lost && !(o.replica d).fenced && (o.replica d).applied != o.tail

/-- An entry of the log with what the home die writes into it (R437). -/
def LogEntry.outcome (ret : Word) (status : Nat) (e : LogEntry) : LogEntry := { e with ret := ret, status := status }

/-- The writes a position makes to a replica, its return word and its STATUS: of a queue, PUSHED goes up by 1 (R441, R453). -/
def State.outcomeOf (s : State) (o : ReplayObj) (d : Nat) (e : LogEntry) : List (Nat × Word) × Word × Nat :=
  if o.kind = 4 then
    let n := Memory.le s.mem (o.replica d).base 8 + 1
    ([(0, wordOf n), (4, wordOf (n / 2 ^ 32))], 0, 1)
  else o.run (s.stateOf o d) e.method e.args e.pos e.die

/-- A position applied to the replica of a die, and on the home die to both copies of its entry (R437, R438, R441, R452). -/
def State.applyAt (s : State) (ctx : Nat) (o : ReplayObj) (d : Nat) (e : LogEntry) : State :=
  let q := s.outcomeOf o d e
  let moved (r : Replica) : Replica := { r with applied := e.pos, rets := r.rets ++ [(e.pos, q.2.1, q.2.2)] }
  let s := (s.commitState (o.replica d).base q.1).updObject ctx o.handle fun o => o.updReplica d moved
  if d = o.home then s.putEntry o (e.outcome q.2.1 q.2.2) else s

/-! ### Fencing (R451, R452) -/

/-- Replicas fenced: in device mode firmware declares them rebuilt-from-copy at once, in host-assisted mode the host is
asked; with none left the object is lost. -/
def State.fenceReplicas (s : State) (ctx : Nat) (h : Word) (dies : List Nat) : State :=
  match s.object? ctx h with
  | none => s
  | some o =>
    let host := s.hostMode ctx 1
    let new := dies.filter fun d => d < 4 && !(o.replica d).fenced
    let fence (r : Replica) : Replica := { r with fenced := true, ignored := !host }
    let s := s.updObject ctx h fun o =>
      let o := new.foldl (fun o d => o.updReplica d fence) o
      { o with lost := o.replicas.all Replica.fenced }
    let s := if host then new.foldl (fun s d => s.postObjectEvent ctx h (2 + d)) s else s
    s.serveObject ctx h

/-- REPLAY_APPLY (R438, R455): a die applies its next position; `badLog` when it finds both copies of the entry
uncorrectable (R452). The home die of a queue also tries again the pushes that wait for a page. -/
def execReplayApply (ctx obj die : Nat) (badLog : Bool) (s : State) : Host.Outcome State Fault Refusal :=
  let h := wordOf obj
  match s.object? ctx h with
  | none => .next s
  | some o =>
    let s := if die = o.home then s.servePushes ctx h o.home else s
    let n := nextPos (o.replica die).applied
    if o.behind die && (badLog || s.logBad o n) then
      .next (s.fenceReplicas ctx h ((List.range 4).filter fun d => !reaches (o.replica d).applied n))
    else match if o.behind die then s.entry? o n else none with
    | none => .next (s.serveObject ctx h)
    | some e =>
      let s := s.applyAt ctx o die e
      let s := if o.kind = 4 && die = o.home then s.applyPush ctx o e else s
      .next (s.serveObject ctx h)

/-- Bytes written to fresh vault bytes, whose lines are sound. -/
def State.storeFresh (s : State) (phys : Nat) (bs : List Byte) : State :=
  let s := s.storeBytes phys bs
  { s with poison := s.poison.filter fun k => !(decide (phys ≤ 64 * k) && decide (64 * k < phys + bs.length)) }

/-- The bytes of one replica copied to the place of another (R451). -/
def State.copyReplica (s : State) (n source dest : Nat) : State := s.storeFresh dest (Memory.bytes s.mem source n)

/-- The fresh vault bytes of a die into which a replica is copied: the first free place of its vaults, or its own where there is
none (R451, log 7). -/
def State.freshPlace (s : State) (die n : Nat) (r : Replica) : Nat × Nat :=
  ((List.range 512).findSome? fun v => (s.vaultPlace (512 * die + v) n).map fun b => (512 * die + v, b)).getD (r.vault, r.off)

/-- REPLICA_REBUILD (R451): a replica declared rebuilt-from-copy takes the copy of one that is not fenced, in fresh vault bytes. -/
def execReplicaRebuild (ctx obj die source : Nat) (s : State) : Host.Outcome State Fault Refusal :=
  let h := wordOf obj
  match s.object? ctx h with
  | none => .next s
  | some o =>
    let e := o.replica source
    if die < 4 && source < 4 && !o.lost && (o.replica die).fenced && (o.replica die).ignored && !e.fenced then
      let p := s.freshPlace die o.stateBytes (o.replica die)
      let s := s.copyReplica o.stateBytes e.base (vaultPhys p.1 p.2)
      let again (_ : Replica) : Replica := { e with vault := p.1, off := p.2, fenced := false, ignored := false }
      .next ((s.updObject ctx h fun o => o.updReplica die again).serveObject ctx h)
    else .next s

/-- REPLICA_UE (R45, R451). -/
def execReplicaUe (ctx obj die : Nat) (s : State) : Host.Outcome State Fault Refusal :=
  .next (s.fenceReplicas ctx (wordOf obj) [die])

end Sys2Proof.Machine
end

