-- ==== Sys2Proof/Machine/Accept.lean ====
section
/-! DEFINITION. GO_ACCEPT: the acceptance of a staged GO, and the command it becomes (R24, R272, R277, R302, R407, R429,
R430, R456, R463, R464). -/

namespace Sys2Proof.Machine

/-- The workgroups whose scratchpads the ranges of a command in the vault aperture lie in (R277). -/
def State.namedBy (s : State) (ctx va n : Nat) : List Nat :=
  if !isAperture va n then []
  else (s.wgs.filter fun g =>
    let base := 0xE000000000000 + g.core * 2 ^ 20 + g.sbase
    g.ctx = ctx && g.resident && decide (base < va + n) && decide (va < base + g.vbytes)).map Workgroup.id

/-- A command as accepted, before its work is known (R272). -/
def acceptedCommand (g : Workgroup) (w : Nat) (q : Staged) (id engine total : Nat) (work : Work) (ranges : List (Nat × Nat × Need))
    (names : List Nat) : Command :=
  { id := id, ctx := g.ctx, lane := ⟨g.id, w, q.lane⟩, launch := g.launch, cls := goClass q.go, engine := engine
    scope := goScope q.go, acq := goAcq q.go, rel := goRel q.go, creg := goCreg q.go, sync := goSync q.go, total := total
    go := q.go.extractLsb' 0 32, fallen := 0, err := false, ue := false, work := work, pinned := ranges.map fun r => (r.1, r.2.1)
    names := (names ++ (if goSync q.go = 0 then [] else [g.id])).eraseDups }

/-- The rows of a copy: length, count, strides. -/
def copyShape (q : Staged) : Nat × Nat × Nat × Nat :=
  if goOpcode q.go = 1 then (argBits q.a2 0 32, argBits q.a2 32 16, argBits q.a3 0 32, argBits q.a3 32 32)
  else (argBits q.a2 0 32, 1, 0, 0)

/-- The work of a copy, and the workgroups it names (R275). -/
def State.copyWork (s : State) (g : Workgroup) (q : Staged) : Work × List Nat :=
  let op := goOpcode q.go
  let (len, rows, ds, ss) := copyShape q
  let dsp := q.a2.getLsbD 63
  let ssp := op != 2 && q.a2.getLsbD 62
  let ends (base stride : Nat) : List Nat := (List.range rows).flatMap fun r => s.namedBy g.ctx (base + r * stride) len
  let names := (if dsp then [g.id] else ends q.a0.toNat ds)
    ++ (if ssp then [g.id] else if op = 2 then [] else ends q.a1.toNat ss)
  (.copy op q.a0 q.a1 len rows ds ss dsp ssp [] [], names)

/-- Whether a copy's remote operand lies in a peer's window (R24). -/
def State.copyReaches (s : State) (g : Workgroup) (q : Staged) : Bool :=
  let (len, rows, ds, ss) := copyShape q
  s.remoteOk g.ctx (q.a2.getLsbD 63) q.a0.toNat rows ds len
    && (goOpcode q.go = 2 || s.remoteOk g.ctx (q.a2.getLsbD 62) q.a1.toNat rows ss len)

/-- The work of a RUN: its operands and its parts, one for each stack that holds a chunk of the range (R464). -/
def State.runWork (s : State) (g : Workgroup) (q : Staged) : Work × List Nat :=
  let ops := (s.runOps g q).map Prod.fst
  let first := argBits q.a0 32 32
  let count := argBits q.a1 0 24
  let record := argBits q.a1 32 32
  let idx := (List.range count).map fun i => first + i
  let stackAt (i : Nat) : Nat := (s.chunkStack g.ctx (ops.headD 0) i).getD 0
  let held := (idx.map stackAt).eraseDups
  let parts := held.map fun k => (k, false, idx.filter fun i => stackAt i = k)
  let params := [q.a2.extractLsb' 0 32, q.a2.extractLsb' 32 32, q.a3.extractLsb' 0 32, q.a3.extractLsb' 32 32]
  (.nmRun (argBits q.a0 0 4) first count params record ops parts 0 0 none, if record = 0 then [] else [g.id])

/-- The coordinates of a triangle, and whether a line of it is poisoned (R405). -/
def State.triangle (s : State) (ctx base t : Nat) : List Nat × Bool :=
  let at0 (i : Nat) : Nat := (s.operandPhys ctx 0 false (base + 64 + 64 * t + 4 * i)).getD 0
  ((List.range 6).map fun i => Memory.le s.mem (at0 i) 4, (List.range 6).any fun i => s.poisoned (at0 i))

/-- A DRAW accepted (R407): its PSNs taken and written to FIRSTPSN, its place in command order, its launch entered, its
triangles read. A triangle in a poisoned line covers nothing, and the command sets UE. -/
def State.acceptDraw (s : State) (g : Workgroup) (q : Staged) (c : Command) : State :=
  let h : Word := q.a1.extractLsb' 0 32
  let count := argBits q.a1 32 24
  match s.target? g.ctx h with
  | none => s
  | some t =>
    let psn := t.nextpsn
    let tris := (List.range count).map fun k => (k, s.triangle g.ctx q.a0.toNat k)
    let pos := q.a1.getLsbD 56
    let neg := q.a1.getLsbD 57
    let tokens := tris.flatMap fun k => if k.2.2 then [] else t.tokensOf pos neg k.1 k.2.1
    let hd := s.drawHeader g.ctx q
    let launch := s.seq
    let s := s.enterLaunch g.ctx hd (.draw c.id)
    let s := match s.operandPhys g.ctx 0 false q.a0.toNat with
      | some p => s.storeBytes p (leBytes 4 psn.toNat)
      | none => s
    let s := s.updTarget g.ctx t.index fun t => { t with nextpsn := psn + wordOf count, order := t.order ++ [c.id] }
    let c := { c with work := .draw h psn tokens launch, ue := tris.any fun k => k.2.2 }
    { s with cmds := s.cmds ++ [c] }

/-- An INVOKE or READOUT takes its place in its target's command order (R302, R429, R430). -/
def State.acceptTarget (s : State) (g : Workgroup) (q : Staged) (c : Command) : State :=
  let h : Word := q.a0.extractLsb' 0 32
  let (x0, y0, x1, y1) := goRect q
  match s.target? g.ctx h with
  | none => s
  | some t =>
    let s := s.updTarget g.ctx t.index fun t => { t with order := t.order ++ [c.id] }
    if goOpcode q.go = 0 then
      let args := [q.a2.extractLsb' 0 32, q.a2.extractLsb' 32 32, q.a3.extractLsb' 0 32, q.a3.extractLsb' 32 32]
      let px := (List.range (y1 + 1 - y0)).flatMap fun j => (List.range (x1 + 1 - x0)).map fun i => t.pixIndex (x0 + i) (y0 + j)
      { s with cmds := s.cmds ++ [{ c with work := .invoke h (argBits q.a0 32 4) x0 y0 x1 y1 args px }] }
    else
      let sp := q.a3.getLsbD 0
      let names := if sp then [g.id] else s.namedBy g.ctx q.a2.toNat c.total
      { s with cmds := s.cmds ++ [{ c with work := .readout h x0 y0 x1 y1 q.a2 sp [], names := (c.names ++ names).eraseDups }] }

/-- Whether a copy engine has no command of a resident context. -/
def State.engineIdle (s : State) (engine : Nat) : Bool :=
  !s.cmds.any fun c => c.cls = 0 && c.engine = engine && (s.ctx? c.ctx).any Context.resident

/-- Whether a copy engine is the nearest idle one to a core: idle, and of the core's die unless none there is (R270, R271,
log 15). -/
def State.engineNearest (s : State) (core engine : Nat) : Bool :=
  let here := (List.range 16).map fun i => 16 * dieOf core + i
  s.engineIdle engine && (here.contains engine || !here.any s.engineIdle)

/-- Whether an instance may take a GO (R270, R271): the one it names; with 0xFF the nearest idle copy engine, or the instances
that the rules of the class give. -/
def State.instanceOk (s : State) (core : Nat) (q : Staged) (engine : Nat) : Bool :=
  match goClass q.go with
  | 0 => if goUnit q.go = 0xFF then decide (engine < 64) && s.engineNearest core engine else engine = goUnit q.go
  | 1 => if goUnit q.go = 0xFF then engine < Config.numStacks else engine = goUnit q.go
  | 3 => engine < 64
  | _ => true

/-- The command of a GO entered, its COUNT already raised. -/
def State.acceptWork (s : State) (g : Workgroup) (w : Nat) (q : Staged) (p : GoPlan) (engine : Nat) : State :=
  let id := s.seq
  let s := { s with seq := s.seq + 1 }
  let make (work : Work) (names : List Nat) : Command := acceptedCommand g w q id engine p.total work p.ranges names
  let enter (k : Work × List Nat) : State := { s with cmds := s.cmds ++ [make k.1 k.2] }
  match engineOp q.go with
  | some .linear | some .strided | some .fill =>
    let t := enter (s.copyWork g q)
    if s.copyReaches g q then t else ((t.updCmd id fun c => { c with err := true }).endCommand id).settle
  | some .nmLoad =>
    let held := if goUnit q.go = 0xFF then List.range Config.numStacks else [goUnit q.go]
    enter (.nmLoad (argBits q.a1 0 4) (argBits q.a1 16 9) q.a0 held, [])
  | some .nmRun => enter (s.runWork g q)
  | some .draw => s.acceptDraw g q (make .other [])
  | some .invoke => s.acceptTarget g q (make .other [])
  | some .readout =>
    let t := s.acceptTarget g q (make .other [])
    if isRemote q.a2.toNat p.total && !q.a3.getLsbD 0 && !s.remoteOk g.ctx false q.a2.toNat 1 0 p.total then
      (((t.updCmd id fun c => { c with err := true }).endCommand id).settle).leaveOrder (make .other [])
    else t
  | some .push =>
    match s.pushQueue g.ctx q.a3 with
    | none => s
    | some o =>
      let args := [q.a0, q.a1, q.a2, q.a3].flatMap fun a => [a.extractLsb' 0 32, a.extractLsb' 32 32]
      let s := s.appendCall g.ctx o 0 (dieOf g.core) args
      let k := make (.push o.handle (nextPos o.tail)) []
      { s with cmds := s.cmds ++ [k] }
  | none => s

/-- GO_ACCEPT (R272): a staged GO that passes R271 is accepted once the earlier accesses of its lane have performed and an
instance takes it; its total is added to COUNT. A full log holds a push unaccepted (R456). -/
def execGoAccept (wg warp engine : Nat) (s : State) : Host.Outcome State Fault Refusal :=
  match s.wg? wg, (s.warp? wg warp).bind Warp.stage with
  | some g, some q =>
    let full := engineOp q.go = some .push && (s.pushQueue g.ctx q.a3).any ReplayObj.full
    if !s.windowRuns g || !s.instanceOk g.core q engine || full || !s.quiet ⟨wg, warp, q.lane⟩ false then .next s
    else match s.goCheck g warp q with
    | .ok p =>
      let s := s.updWarp wg warp fun v =>
        let n := 56 + goCreg q.go
        { v.setUreg n (v.ureg n + wordOf p.total) with stage := none }
      .next (((s.acceptWork g warp q p engine).finishWindows wg warp).settle)
    | c => .next (s.goAct wg warp q c)
  | _, _ => .next s

end Sys2Proof.Machine
end

