-- ==== Sys2Proof/Machine/Sync.lean ====
section
/-! DEFINITION. Barriers and convergence registers (R94, R95, R253 to R262). -/

namespace Sys2Proof.Machine

/-! ### Barriers -/

/-- The level of a barrier's SC (R253). -/
def barLevel : Scope → Nat
  | .warp => 1 | .workgroup => 2 | .cluster => 3 | _ => 5

/-- The fault of an arrival, if any: its unit is no member, or the phase is too far (R254, R255). -/
def arrivalFault (b : Barrier) (v : Warp) (l : Lane) (sc n : Nat) : Option Cause :=
  if sc = 2 && 12 ≤ n && v.role != n - 12 then some .syncMember
  else if b.phase + 2 ≤ (l.arrival sc n).made then some .syncPhase
  else none

/-- A lane's arrival, and the phases it completes (R79, R254 to R256); or its fault. -/
def State.arrive (s : State) (x : Iss) (sc n : Nat) (a : Act) : State × List LaneFault :=
  match s.wg? x.wg, s.warp? x.wg x.warp, s.lane? a.m.ref with
  | some g, some v, some l =>
    match arrivalFault (s.barrier g x.warp sc n) v l sc n with
    | some c => (s, [⟨a.m.ref, c, BitVec.ofNat 52 n⟩])
    | none =>
      let s := s.updLane a.m.ref fun l => let q := l.arrival sc n; l.setArrival { q with made := q.made + 1 }
      (State.completePhases 3 s g x.warp sc n, [])
  | _, _, _ => (s, [])

/-- The arrivals of an issue, lane by lane: one that completes a phase comes before those of higher position (R79). -/
def State.arriveAll (s : State) (x : Iss) (sc n : Nat) (act : List Act) : State × List LaneFault :=
  act.foldl (fun p a => ((p.1.arrive x sc n a).1, p.2 ++ (p.1.arrive x sc n a).2)) (s, [])

/-- A barrier instruction: arrivals, then waits; a lane whose phase these arrivals complete does not wait (R254 to R256,
R491). -/
def State.barrierIssue (s : State) (x : Iss) (f : Form) (act : List Act) (arrive waits : Bool) : State :=
  let sc := barLevel f.sc
  let n := (f.slotImm f.a).toNat
  let p := if arrive then s.arriveAll x sc n act else (s, [])
  let s := p.1
  let faults := p.2
  let npc := nextPc f x.pc
  let ok := (act.map fun a => a.m.ref).filter fun r => !faults.any fun q => q.lane = r
  let waiting := if waits then ok.filter fun r => !s.barrierOver sc n r else []
  let stays (r : LaneRef) : Bool := waiting.contains r || faults.any fun q => q.lane = r
  let s := (s.setHold x.g none).moveLanes ((x.members.map Member.ref).filter fun r => !stays r) npc
  let s := s.updLanes waiting fun l => { l with st := .waiting (.barrier sc n), npc := npc }
  (if waiting = [] then s else s.regroup x.g ⟨.none, 0⟩).raise faults

/-- The course of BARA, BARW and BARS: an arrival is a release, so it follows the lane's earlier accesses (R256, log 8). -/
def barStep (i : Instr) (f : Form) (arrive waits : Bool) (s : State) : Host.Outcome State Fault Refusal :=
  match front i f true s with
  | .over o => o
  | .go x _ _ act =>
    .next (if arrive && !act.all fun a => s.quiet a.m.ref false then s.stall x .memoryData
      else s.barrierIssue x f act arrive waits)

/-- BARA (R254). -/
def execBara (f : Form) (s : State) : Host.Outcome State Fault Refusal := barStep (.bara f) f true false s

/-- BARW (R256). -/
def execBarw (f : Form) (s : State) : Host.Outcome State Fault Refusal := barStep (.barw f) f false true s

/-- BARS (R256). -/
def execBars (f : Form) (s : State) : Host.Outcome State Fault Refusal := barStep (.bars f) f true true s

/-! ### Convergence registers -/

def State.conv? (s : State) (wg j : Nat) : Option ConvReg := (s.wg? wg).bind fun g => g.jregs[j]?

def State.updConv (s : State) (wg j : Nat) (f : ConvReg → ConvReg) : State :=
  s.updWg wg fun g => { g with jregs := mapNth g.jregs j f }

/-- The 32 bits a convergence register reads as (R94). -/
def ConvReg.word (c : ConvReg) : Word := wordOf (c.target + 256 * c.signed + 65536 * c.progress)

/-- JSET (R259). -/
def execJset (f : Form) (s : State) : Host.Outcome State Fault Refusal :=
  onceStep (.jset f) f true (fun x e g act s =>
    let j := slotNum f f.d
    let n := ((e.once x f act f.a g.a).getD 0).toNat % 2 ^ 32
    let bad := s.onceFault x f act .syncSigner (BitVec.ofNat 52 j)
    match s.conv? x.wg j with
    | none => bad
    | some c =>
      if n % 4 != 0 || 1020 < n then bad
      else if c.signed = 0 then (s.updConv x.wg j fun c => { c with target := n / 4 }).endIssue x f []
      else if n / 4 = c.target then s.endIssue x f []
      else bad) s

/-- A register with no round open: SIGNED and PROGRESS 0, TARGET kept (R95, R352). -/
def ConvReg.close (c : ConvReg) : ConvReg :=
  { c with signed := 0, progress := 0, round := none, mop := 0, values := [], signers := [], filled := 0, ran := false
           stopped := false }

/-- The lanes that have signed a round. -/
def ConvReg.lanes (c : ConvReg) (wg : Nat) : List LaneRef := c.signers.map fun p => ⟨wg, p.1, p.2⟩

/-- The ends of the waits of a round's signers, at any depth (R95). -/
def State.signerEnds (s : State) (wg j : Nat) (c : ConvReg) : List WaitEnd :=
  ((c.lanes wg).flatMap s.waitsOf).filterMap fun w => if w.2 = .signed j then some w.1.done else none

/-- The ends of the JWAITs of a workgroup on a register, which give its value (R262). -/
def State.jwaitEnds (s : State) (wg j : Nat) (v : Word) : List WaitEnd :=
  ((((s.wg? wg).map Workgroup.refs).getD []).flatMap s.waitsOf).filterMap fun w =>
    match w.2 with
    | .jwait k dst => if k = j then some ⟨w.1, [v], none, dst⟩ else none
    | _ => none

/-- A round's operation completes: the signers go on, and JWAITs on the register end (R95, R262, R491). -/
def State.completeRound (s : State) (wg j : Nat) : State :=
  match s.conv? wg j with
  | none => s
  | some c =>
    let s := s.updConv wg j ConvReg.close
    s.satisfyAll (s.signerEnds wg j c ++ s.jwaitEnds wg j c.close.word)

/-- A form without what an issue may differ in: the guard and the word (R260). -/
def Form.bare (f : Form) : Form :=
  { f with dix := 0, nwb := false, fd := 0, fa := 0, fb := 0, pgn := false, pg := 0, lit := 0 }

/-- The tile, accumulator and uniform numbers an issue names (R351). -/
def roundNums (f : Form) : List Nat :=
  ([f.d, f.a].filter fun s => s.cls = .tile || s.cls = .accumulator || s.cls = .uniform).map (slotNum f)

/-- Whether lanes at positions form whole quads (R260). -/
def wholeQuads (ps : List Nat) : Bool := ps.all fun p => (List.range 4).all fun k => ps.contains (p / 4 * 4 + k)

/-- Whether an issue may sign a register (R260, R351): `onePane` where all signers must lie on one pane. -/
def maySign (c : ConvReg) (x : Iss) (mop : Nat) (f : Form) (values : List Word) (onePane : Bool) (ps : List Nat) : Bool :=
  let sameRound := match c.round with
    | none => true
    | some q => c.mop = mop && Form.bare q = Form.bare f && roundNums q = roundNums f && c.values = values
        && (!onePane || c.pane = x.pane)
  c.target != 0 && wholeQuads ps && sameRound && decide (c.signed + ps.length / 4 ≤ c.target)

/-- The signing lanes of an issue sign and wait; `fill` runs the operation of a full round (R95, R260). -/
def State.sign (s : State) (x : Iss) (f : Form) (act : List Act) (j mop : Nat) (values : List Word)
    (fill : Nat → Nat → State → State) : State :=
  let ps := act.map fun a => a.m.pos
  let refs := act.map fun a => a.m.ref
  let npc := nextPc f x.pc
  let opened (c : ConvReg) : ConvReg :=
    if c.round.isSome then c
    else { c with round := some f, mop := mop, values := values, pane := x.pane, signers := [] }
  let s := s.updConv x.wg j fun c =>
    let c := opened c
    let k := c.signed + ps.length / 4
    { c with signed := k, signers := c.signers ++ ps.map fun p => (x.warp, p), filled := if k = c.target then s.seq + 1 else 0 }
  let s := { s with seq := s.seq + 1 }
  let s := (s.setHold x.g none).moveLanes ((x.members.map Member.ref).filter fun r => !refs.contains r) npc
  let s := s.updLanes refs fun l => { l with st := .waiting (.signed j), npc := npc }
  let s := s.regroup x.g ⟨.none, 0⟩
  if (s.conv? x.wg j).any fun c => c.filled != 0 then fill x.wg j s else s

/-- The course of a signing instruction: signing follows the lane's earlier accesses (R261, R350, log 8). -/
def signStep (i : Instr) (f : Form) (js : Slot) (onePane : Bool) (values : Env → Sig → List Word)
    (fill : Nat → Nat → State → State) (s : State) : Host.Outcome State Fault Refusal :=
  match front i f true s with
  | .over o => o
  | .go x e g act =>
    let j := slotNum f js
    .next (if act = [] then s.endIdle x f g
      else match s.conv? x.wg j with
      | none => s.endIssue x f []
      | some c =>
        if !maySign c x (mopOf i) f (values e g) onePane (act.map fun a => a.m.pos) then
          s.onceFault x f act .syncSigner (BitVec.ofNat 52 j)
        else if !act.all fun a => s.quiet a.m.ref false then s.stall x .memoryData
        else s.sign x f act j (mopOf i) (values e g) fill)

/-- JSIGN (R261): its operation is empty and completes as soon as the round is full. -/
def execJsign (f : Form) (s : State) : Host.Outcome State Fault Refusal :=
  signStep (.jsign f) f f.a false (fun _ _ => []) (fun wg j s => s.completeRound wg j) s

/-- JWAIT (R262). -/
def execJwait (f : Form) (s : State) : Host.Outcome State Fault Refusal :=
  match front (.jwait f) f true s with
  | .over o => o
  | .go x _ g act =>
    let j := slotNum f f.a
    .next (s.issueWait x f g act none fun a =>
      match s.conv? x.wg j with
      | some c => if c.signed = 0 then .now [c.word] none else .wait (.jwait j (waitDest x f g a none))
      | none => .now [0] none)

end Sys2Proof.Machine
end

