-- ==== Sys2Proof/Machine/Matrix.lean ====
section
/-! DEFINITION. Matrix instructions: tiles, accumulators, latched weights, and the operations of convergence rounds (R62,
R70 to R72, R342 to R372). -/

namespace Sys2Proof.Machine

/-! ### Tiles and accumulators (R345, R346) -/

/-- A table from its values by index. -/
def cellsOf {w : Nat} (vals : List (BitVec w)) : Cells w :=
  vals.zipIdx.filterMap fun e => if e.1 = 0 then none else some (e.2, e.1)

def State.pane (s : State) (wg p : Nat) : PaneState :=
  (((s.wg? wg).bind fun g => g.panes[p]?)).getD ⟨[], [], [], none⟩

def State.updPane (s : State) (wg p : Nat) (f : PaneState → PaneState) : State :=
  s.updWg wg fun g => { g with panes := mapNth g.panes p f }

def PaneState.tile (p : PaneState) (n : Nat) : Cells 8 := p.tiles.getD n []
def PaneState.side (p : PaneState) (n : Nat) : Cells 8 := p.sides.getD n []
def PaneState.acc (p : PaneState) (n : Nat) : Cells 32 := p.accs.getD n []

/-- The 64 bytes of a row of a tile. -/
def tileRow (t : Cells 8) (r : Nat) : List Byte :=
  let row := t.filter fun e => e.1 / 64 = r
  (List.range 64).map fun c => Cells.read row (64 * r + c)

/-- A tile from its 64 rows. -/
def tileOf (rows : List (List Byte)) : Cells 8 := cellsOf rows.flatten

/-- The elements of a row under a format (R345). -/
def rowElems (ty : Ty) (row : List Byte) : List Nat :=
  if ty = .oz8x4 then row.map BitVec.toNat
  else (List.range 32).map fun e => leNat [row.getD (2 * e) 0, row.getD (2 * e + 1) 0]

/-- The bytes of a row from its elements. -/
def elemBytes (ty : Ty) (es : List Nat) : List Byte := es.flatMap fun e => leBytes (if ty = .oz8x4 then 1 else 2) e

/-- The side-file byte of row r, block b (R345). -/
def sxOf (side : Cells 8) (r b : Nat) : Nat := (Cells.read side (2 * (r / 2) + b)).toNat

/-! ### The arithmetic of the arrays (R72) -/

/-- The value of a matrix element, in units of its format. -/
def matVal (ty : Ty) (e : Nat) : FVal :=
  if ty = .oz8x4 then
    match ozVal e with
    | none => .nan false
    | some (neg, m) => .fin neg m
  else fval (tyFmt ty) e

def matUnit (ty : Ty) : Nat := if ty = .oz8x4 then ozUnit else (tyFmt ty).unit

/-- Whether a product of two values is infinite times zero, and its sign where it is infinite. -/
def infTimes (p : FVal × FVal) : Option Bool :=
  match p with
  | (.inf a, .inf b) | (.inf a, .fin b _) | (.fin a _, .inf b) => some (a != b)
  | _ => none

def infZero (p : FVal × FVal) : Bool :=
  match p with
  | (.inf _, .fin _ n) | (.fin _ n, .inf _) => n == 0
  | _ => false

/-- The exact product of two finite values. -/
def finProd (p : FVal × FVal) : Int :=
  match p with
  | (.fin a m, .fin b n) => signed (a != b) (m * n)
  | _ => 0

/-- Step 1 of R72: the sum of a block's products, rounded once. -/
def blockSum (ta tb : Ty) (as bs : List Nat) : Nat :=
  let ps := (as.map (matVal ta)).zip (bs.map (matVal tb))
  let infs := ps.filterMap infTimes
  if ps.any (fun p => isNan p.1 || isNan p.2) || ps.any infZero then fmtF32.nanBits
  else match infs with
  | s :: rest => if rest.all (· = s) then (infRes fmtF32 s 0).bits else fmtF32.nanBits
  | [] => (roundInt fmtF32 .rne false ((ps.map finProd).sum) (matUnit ta * matUnit tb)).bits

/-- Steps 1 to 3 of R72 over the blocks of a row: `scales` are the A scales, `col` and `sbs` the column of B. -/
def macElem (ta tb : Ty) (row : List Nat) (scales : List Nat) (col sbs : List Nat) (c : Nat) : Nat :=
  (List.range (if ta = .oz8x4 then 2 else 1)).foldl (fun c k =>
    let b := blockSum ta tb ((row.drop (32 * k)).take 32) ((col.drop (32 * k)).take 32)
    let q := fpScale fmtF32 .rne b ((scales.getD k 127 : Int) + (sbs.getD k 127 : Int) - 254)
    (fpAdd fmtF32 .rne c q.bits).bits) c

/-- A column of the latched weights. -/
def Weights.col (w : Weights) (n : Nat) : List Nat := w.b.map fun row => (row.getD n 0).toNat
def Weights.scales (w : Weights) (n : Nat) : List Nat := w.sb.map fun row => row.getD n 127

/-- Whether formats combine (R357). -/
def formatsMatch (ty : Ty) (w : Option Weights) : Bool :=
  match w with
  | none => false
  | some w => (ty = .oz8x4) = (w.fmt = .oz8x4)

/-- One row of 32 elements through the arrays. -/
def macRow (ty : Ty) (w : Weights) (row : List Byte) (scales : List Nat) (acc : List Nat) : List Nat :=
  let es := rowElems ty row
  (List.range 32).map fun n => macElem ty w.fmt es scales (w.col n) (w.scales n) (acc.getD n 0)

/-- Row m of an accumulator. -/
def accRow (a : Cells 32) (m : Nat) : List Nat :=
  let row := a.filter fun e => e.1 / 32 = m
  (List.range 32).map fun n => (Cells.read row (32 * m + n)).toNat

/-- An accumulator with row m replaced. -/
def setAccRow (a : Cells 32) (m : Nat) (vals : List Nat) : Cells 32 :=
  (vals.zipIdx).foldl (fun a e => Cells.write a (32 * m + e.2) (wordOf e.1)) a

/-- Step 4 of R72, with SAT. -/
def readout (sat : Bool) (ts : Word) (c : Nat) : FRes := fpSat fmtF32 sat (fpMul fmtF32 .rne c ts.toNat)

/-! ### The order of matrix work (R349) -/

/-- What an instruction or operation uses on a pane: a tile with its side file, an accumulator, or the weights; and whether
it writes it. -/
inductive MatRes where
  | tile (n : Nat)
  | acc (n : Nat)
  | weights
  deriving DecidableEq, Repr

/-- What a round uses (R355, R358, R361). -/
def ConvReg.uses (c : ConvReg) : List (MatRes × Bool) :=
  match c.round with
  | none => []
  | some f =>
    match c.mop with
    | 0x160 => [(.tile (slotNum f f.a), false), (.weights, true)]
    | 0x161 => [(.tile (slotNum f f.a), false), (.acc (slotNum f f.d), true), (.weights, false)]
    | 0x162 => [(.acc (slotNum f f.d), true), (.weights, false)]
    | _ => []

/-- The panes on which a round acts (R351). -/
def ConvReg.panes (c : ConvReg) (g : Workgroup) : List Nat :=
  if c.mop = 0x160 then [0, 1, 2, 3]
  else (c.signers.filterMap fun p => (g.warps[p.1]?).map Warp.pane).eraseDups

def conflicts (a b : List (MatRes × Bool)) : Bool := a.any fun x => b.any fun y => x.1 = y.1 && (x.2 || y.2)

/-- Whether uses on panes conflict with a full round of a workgroup that filled before `before` (0 for any). -/
def Workgroup.matBusy (g : Workgroup) (panes : List Nat) (uses : List (MatRes × Bool)) (before : Nat) : Bool :=
  g.jregs.any fun c => c.filled != 0 && (before = 0 || decide (c.filled < before)) && conflicts uses c.uses
    && (c.panes g).any panes.contains

/-- A once-per-issue or per-lane instruction that must wait for a round (R349). -/
def State.matStalls (s : State) (x : Iss) (uses : List (MatRes × Bool)) : Bool :=
  (s.wg? x.wg).any fun g => g.matBusy [x.pane] uses 0

/-- The issue of an instruction that would act and must wait for a round, whether its sources have landed or not (R106,
R349). -/
def State.matHeld (s : State) (i : Instr) (f : Form) (uses : List (MatRes × Bool)) : Option Iss :=
  s.curIss?.filter fun x =>
    (decodeFault i f (s.limits x)).isNone && !binFault x f true && s.actsOf x f != [] && s.matStalls x uses

/-- The course of a matrix instruction (R344, R349). -/
def matStep (i : Instr) (f : Form) (uses : List (MatRes × Bool)) (k : Iss → Env → Sig → List Act → State → State) (s : State)
    (idle : Iss → Sig → State → State := fun x g s => s.endIdle x f g) : Host.Outcome State Fault Refusal :=
  match s.matHeld i f uses with
  | some x => .next (s.stall x .scoreboard)
  | none => onceStep i f true k s idle

/-! ### Operations of rounds (R350 to R362) -/

/-- How an operation ends. -/
inductive OpEnd where
  | done (s : State)
  /-- A fault of R352. -/
  | fault (c : Cause) (detail : BitVec 52)
  /-- It waits, with the walk of an address begun or a page being zeroed (R119, R124). -/
  | wait (va : Nat)
  /-- A row or list finds no mapping (R362). -/
  | absent (va : Nat) (s : State)
  /-- A fault of phase 2 (R362). -/
  | stopped (c : Cause) (detail : BitVec 52) (s : State)

/-- The weights WLOAD latches, or none where it reads a scale of 255 (R355). -/
def wloadWeights (ty : Ty) (panes : List PaneState) (t : Nat) : Option Weights :=
  let per := if ty = .oz8x4 then 16 else 8
  let b := panes.flatMap fun p => (List.range per).map fun j => ((rowElems ty (tileRow (p.tile t) j)).take 32).map wordOf
  if ty = .oz8x4 then
    let sb := [0, 1].map fun k => (List.range 32).map fun n =>
      (Cells.read ((panes.getD (2 * k) ⟨[], [], [], none⟩).side t) n).toNat
    if sb.any fun r => r.any (· = 255) then none else some ⟨ty, b, sb⟩
  else some ⟨ty, b, [List.replicate 32 127]⟩

/-- WLOAD's operation (R351, R355). -/
def wloadOp (f : Form) (g : Workgroup) (j : Nat) (c : ConvReg) (s : State) : OpEnd :=
  let held := (c.signers.filterMap fun p => (g.warps[p.1]?).map Warp.pane).eraseDups
  if !([0, 1, 2, 3].all held.contains) then .fault .syncSigner (BitVec.ofNat 52 j)
  else match wloadWeights f.ty g.panes (slotNum f f.a) with
  | none => .fault .matScale (BitVec.ofNat 52 j)
  | some w => .done (s.updWg g.id fun g => { g with panes := g.panes.map fun p : PaneState => { p with weights := some w } })

/-- MMA on one pane (R358). -/
def mmaPane (f : Form) (p : PaneState) : PaneState :=
  match p.weights with
  | none => p
  | some w =>
    let t := p.tile (slotNum f f.a)
    let sd := p.side (slotNum f f.a)
    let d := slotNum f f.d
    let scales (m : Nat) : List Nat := if f.ty = .oz8x4 then [sxOf sd m 0, sxOf sd m 1] else [127]
    let rows := (List.range 64).map fun m => macRow f.ty w (tileRow t m) (scales m) (accRow (p.acc d) m)
    { p with accs := setNth p.accs d (cellsOf (rows.flatten.map wordOf)) }

/-- MMA's operation: formats, then scales, then the accumulators (R357, R358). -/
def mmaOp (f : Form) (g : Workgroup) (j : Nat) (c : ConvReg) (s : State) : OpEnd :=
  let on := c.panes g
  let ps := on.filterMap fun n => g.panes[n]?
  if !ps.all fun p => formatsMatch f.ty p.weights then .fault .matFormat (BitVec.ofNat 52 j)
  else if f.ty = .oz8x4 && ps.any (fun p => (p.side (slotNum f f.a)).any fun e => e.2 = 255) then
    .fault .matScale (BitVec.ofNat 52 j)
  else .done (s.updWg g.id fun g => { g with panes := g.panes.zipIdx.map fun e => if on.contains e.2 then mmaPane f e.1 else e.1 })

/-- The fields of MMG's U16 group (R360). -/
structure MmgArgs where
  gidx    : Nat
  sidx    : Nat
  abase   : Nat
  ascl    : Nat
  obase   : Nat
  astride : Nat
  arows   : Nat
  ostride : Nat
  orows   : Nat
  tscale  : Word
  deriving DecidableEq, Repr

def MmgArgs.of (v : List Word) : MmgArgs :=
  let w (n : Nat) : Nat := (v.getD n 0).toNat
  { gidx := w 0 + 2 ^ 32 * w 1, sidx := w 2 + 2 ^ 32 * w 3, abase := w 4 + 2 ^ 32 * w 5, ascl := w 6 + 2 ^ 32 * w 7
    obase := w 8 + 2 ^ 32 * w 9, astride := w 10, arows := w 11, ostride := w 12, orows := w 13, tscale := v.getD 14 0 }

/-- The address whose requirement fails, if any (R360). -/
def MmgArgs.misaligned (a : MmgArgs) (ty : Ty) : Option Nat :=
  if a.gidx % 4 != 0 then some a.gidx
  else if a.sidx % 4 != 0 then some a.sidx
  else if a.abase % 64 != 0 then some a.abase
  else if ty = .oz8x4 && a.ascl % 2 != 0 then some a.ascl
  else if a.obase % 128 != 0 then some a.obase
  else if a.astride % 64 != 0 then some a.abase
  else if a.ostride % 128 != 0 then some a.obase
  else none

def nullIndex : Nat := 0xFFFFFFFF

/-- What stands in MMG's way. -/
inductive MmgBad where
  | fault (c : Cause) (detail : BitVec 52)
  | absent (va : Nat)
  | wait (va : Nat)
  deriving DecidableEq, Repr

def Chk.mmgBad (ea : Nat) : Chk → Option MmgBad
  | .ok _ => none
  | .fault c => some (.fault c (eaDetail ea))
  | .absent => some (.absent ea)
  | .wait => some (.wait ea)

/-- A read of MMG: its check with the poison of its line (R119, R229). -/
def State.mmgRead (s : State) (core ctx ea n : Nat) : Chk := s.poisonChk true (s.check core ctx .r ea n)

/-- An index of a list (R361). -/
def State.mmgIndex (s : State) (core ctx base i : Nat) : Nat :=
  Memory.le s.mem (s.check core ctx .r ((base + 4 * i) % 2 ^ 64) 4).phys 4

/-- The two scale codes of an A row (R361). -/
def State.mmgScales (s : State) (core ctx : Nat) (a : MmgArgs) (g : Nat) : List Nat :=
  [0, 1].map fun k => Memory.le s.mem (s.check core ctx .r ((a.ascl + 2 * g + k) % 2 ^ 64) 1).phys 1

/-- Phase 1 of R361 at one position. -/
def State.mmgCheck (s : State) (core ctx j : Nat) (ty : Ty) (a : MmgArgs) (i : Nat) : Option MmgBad :=
  let ga := (a.gidx + 4 * i) % 2 ^ 64
  let sa := (a.sidx + 4 * i) % 2 ^ 64
  let g := s.mmgIndex core ctx a.gidx i
  let t := s.mmgIndex core ctx a.sidx i
  let j : BitVec 52 := BitVec.ofNat 52 j
  let scale (k : Nat) : Option MmgBad := (s.mmgRead core ctx ((a.ascl + 2 * g + k) % 2 ^ 64) 1).mmgBad ((a.ascl + 2 * g + k) % 2 ^ 64)
  [fun _ => (s.mmgRead core ctx ga 4).mmgBad ga,
   fun _ => (s.mmgRead core ctx sa 4).mmgBad sa,
   fun _ => if g != nullIndex && a.arows ≤ g then some (.fault .matIndex j) else none,
   fun _ => if t != nullIndex && a.orows ≤ t then some (.fault .matIndex j) else none,
   fun _ => if g = nullIndex || ty != .oz8x4 then none else (scale 0).or (scale 1),
   fun _ => if g != nullIndex && ty = .oz8x4 && (s.mmgScales core ctx a g).any (· = 255) then some (.fault .matScale j) else none
  ].findSome? fun (k : Unit → Option MmgBad) => k ()

/-- A step of phase 2 that stops: what stopped it, or the flags that trap. -/
inductive MmgStop where
  | bad (b : MmgBad)
  | flags (c : Cause) (fl : Flags)
  deriving DecidableEq, Repr

/-- A word reduced or stored by one lane, entered behind its earlier accesses. -/
def State.pushAccess (s : State) (x : Nat) (r : LaneRef) (kind : AccessKind) (phys size : Nat) (rel : Bool) : State :=
  let a : Access :=
    { seq := s.seq + 1, issue := s.seq, ctx := x, lane := r, kind := kind, phys := phys, size := size
      acq := false, rel := rel, dst := noDest, rows := [], reformed := none }
  { s with pend := s.pend ++ [a], seq := s.seq + 2 }

/-- Row i of phase 2 (R361). -/
def mmgRow (f : Form) (g : Workgroup) (j pane : Nat) (w : Weights) (a : MmgArgs) (signers : List LaneRef) (i : Nat) (s : State) :
    State × Option MmgStop :=
  let d := slotNum f f.d
  let ctx := g.ctx
  let gi := s.mmgIndex g.core ctx a.gidx i
  let si := s.mmgIndex g.core ctx a.sidx i
  let put (s : State) (vals : List Nat) : State :=
    s.updPane g.id pane fun p => { p with accs := mapNth p.accs d fun c => setAccRow c i vals }
  let next (s : State) : State := s.updConv g.id j fun c => { c with progress := i + 1 }
  if gi = nullIndex then (next (put s (List.replicate 32 0)), none)
  else
    let ra := (a.abase + gi * a.astride) % 2 ^ 64
    let rc := s.mmgRead g.core ctx ra 64
    match rc.mmgBad ra with
    | some b => (s, some (.bad b))
    | none =>
      let scales := if f.ty = .oz8x4 then s.mmgScales g.core ctx a gi else [127]
      let vals := macRow f.ty w (Memory.bytes s.mem rc.phys 64) scales (List.replicate 32 0)
      let s := put s vals
      if si = nullIndex then (next s, none)
      else
        let oa := (a.obase + si * a.ostride) % 2 ^ 64
        let oc := s.check g.core ctx .rw oa 128
        match oc.mmgBad oa with
        | some b => (s, some (.bad b))
        | none =>
          let outs := vals.map (readout f.sat a.tscale)
          let fl := outs.foldl (fun fl r => fl ||| r.flags) (0 : Flags)
          let live := signers.filter fun r => !(s.lane? r).any Lane.helper
          let s := live.foldl (fun s r => s.addFlags r fl) s
          if live.any fun r => fl &&& s.enabled r != 0 then (s, some (.flags .arithFp fl))
          else match live with
          | [] => (next s, none)
          | r :: _ =>
            let red (s : State) (e : FRes × Nat) : State :=
              s.pushAccess ctx r (.red .f32 0 (dwordOf e.1.bits)) (oc.phys + 4 * e.2) 4 (strong f)
            (next (outs.zipIdx.foldl red s), none)

/-- Phase 2 from a position. -/
def mmgRows (row : Nat → State → State × Option MmgStop) : List Nat → State → State × Option MmgStop
  | [], s => (s, none)
  | i :: rest, s =>
    match row i s with
    | (t, none) => mmgRows row rest t
    | r => r

/-- MMG's operation (R359 to R362). -/
def mmgOp (f : Form) (g : Workgroup) (j : Nat) (c : ConvReg) (s : State) : OpEnd :=
  let a := MmgArgs.of c.values
  let jd : BitVec 52 := BitVec.ofNat 52 j
  match (g.panes[c.pane]?).bind PaneState.weights with
  | none => .fault .matFormat jd
  | some w =>
    if !formatsMatch f.ty (some w) then .fault .matFormat jd
    else match a.misaligned f.ty with
    | some ea => .fault .addrAlign (eaDetail ea)
    | none =>
      let rows := (List.range 64).drop c.progress
      match rows.findSome? (s.mmgCheck g.core g.ctx j f.ty a) with
      | some (.fault cause d) => .fault cause d
      | some (.absent va) => .absent va s
      | some (.wait va) => .wait va
      | none =>
        match mmgRows (mmgRow f g j c.pane w a (c.lanes g.id)) rows s with
        | (t, none) => .done t
        | (t, some (.bad (.fault cause d))) => .stopped cause d t
        | (t, some (.bad (.absent va))) => .absent va t
        | (_, some (.bad (.wait va))) => .wait va
        | (t, some (.flags cause fl)) => .stopped cause (fl.setWidth 52) t

/-- The operation of a round. -/
def roundOp (f : Form) (g : Workgroup) (j : Nat) (c : ConvReg) (s : State) : OpEnd :=
  match c.mop with
  | 0x160 => wloadOp f g j c s
  | 0x161 => mmaOp f g j c s
  | 0x162 => mmgOp f g j c s
  | _ => .done s

/-- A fault of R352: the register holds no round, and every signer raises it at its signing instruction. -/
def State.roundFault (s : State) (wg j : Nat) (c : ConvReg) (cause : Cause) (d : BitVec 52) : State :=
  let refs := c.lanes wg
  let ends := s.signerEnds wg j c
  let s := ends.foldl (fun s e => s.setAt e.who .issuing) (s.updConv wg j ConvReg.close)
  s.raiseApart (refs.map fun r => ⟨r, cause, d⟩)

/-- The signers of an operation that found no mapping park on one record (R362); with no free record it tries again. -/
def State.roundPark (s : State) (g : Workgroup) (j : Nat) (c : ConvReg) (va : Nat) : State :=
  let refs := c.lanes g.id
  match s.park g.ctx g.core va refs true with
  | none => s
  | some t => (t.updConv g.id j fun c => { c with stopped := true }).afterAll refs

/-- The operation of a full round runs where nothing before it conflicts and all its signers wait: one that filled before a
halt runs during it, a stopped one once the last signer has returned (R349, R351, R362, R376). DESIGN CHOICE (log 15): the flags
of a row that an arithmetic fault stops are the DETAIL of its signer, also where that is a helper lane (R61, R85). -/
def State.tryRound (s : State) (wg j : Nat) : State :=
  match s.wg? wg, s.conv? wg j with
  | some g, some c =>
    match c.round with
    | none => s
    | some f =>
      let waits := (c.lanes wg).all fun r => (s.waitsOf r).any fun w => w.2 = .signed j && (!c.stopped || !s.held w.1)
      if c.filled = 0 || c.ran || !waits || !g.resident || g.matBusy (c.panes g) c.uses c.filled then s
      else match roundOp f g j c s with
      | .done t => t.updConv wg j fun c => { c with ran := true, stopped := false }
      | .fault cause d => s.roundFault wg j c cause d
      | .wait va => s.startWalk g.core g.ctx va
      | .absent va t => t.roundPark g j c va
      | .stopped cause d t =>
        (t.updConv wg j fun c => { c with stopped := true }).raiseApart ((c.lanes wg).map fun r => ⟨r, cause, d⟩)
  | _, _ => s

/-- CONVERGENCE_OP_COMPLETE (R95): the operation of a full round runs, if it has not, and completes once its reductions
have performed (log 8). -/
def execConvergenceOpComplete (wg j : Nat) (s : State) : Host.Outcome State Fault Refusal :=
  let s := s.tryRound wg j
  match s.conv? wg j with
  | some c =>
    .next (if c.filled != 0 && c.ran && (c.lanes wg).all (fun r => s.quiet r false) then s.completeRound wg j else s)
  | none => .next s

/-- WLOAD (R351, R355). -/
def execWload (f : Form) (s : State) : Host.Outcome State Fault Refusal :=
  signStep (.wload f) f f.b false (fun _ _ => []) (fun wg j s => s.tryRound wg j) s

/-- MMA (R351, R358). -/
def execMma (f : Form) (s : State) : Host.Outcome State Fault Refusal :=
  signStep (.mma f) f f.b false (fun _ _ => []) (fun wg j s => s.tryRound wg j) s

/-- MMG (R351, R361). -/
def execMmg (f : Form) (s : State) : Host.Outcome State Fault Refusal :=
  signStep (.mmg f) f f.b true (fun e g => e.uwords f f.a g.a) (fun wg j s => s.tryRound wg j) s

/-! ### Tile instructions (R363 to R368) -/

/-- The rows and the side file that TLDT and TSTT move, by address (R364). -/
def tileRowsAt (f : Form) (x w : Nat) : List (Nat × Nat) :=
  if f.m2 = 1 then [] else (List.range 64).map fun r => (r, (x + r * w) % 2 ^ 64)

def tileSideAt (f : Form) (x w : Nat) : Option Nat :=
  match f.m2.toNat with
  | 1 => some x
  | 2 => some ((x + 64 * w) % 2 ^ 64)
  | _ => none

/-- TLDT (R364). -/
def execTldt (f : Form) (s : State) : Host.Outcome State Fault Refusal :=
  let t := slotNum f f.d
  matStep (.tldt f) f [(.tile t, true)] (fun x e g act s =>
    let base := ((e.once x f act f.a g.a).getD 0).toNat
    let w := ((e.once x f act f.b g.b).getD 0).toNat % 2 ^ 32
    if base % 64 != 0 || w % 64 != 0 then s.onceFault x f act .addrAlign (eaDetail base)
    else
      let s := s.drainAll x
      let chk (ea : Nat) : Nat × Chk := (ea, s.poisonChk true (s.check x.core x.ctx .r ea 64))
      let rows := (tileRowsAt f base w).map fun r => chk r.2
      let side := (tileSideAt f base w).map chk
      s.onceChecked x f act (rows ++ side.toList) (
        let read (c : Nat × Chk) : List Byte := Memory.bytes s.mem c.2.phys 64
        (s.updPane x.wg x.pane fun p =>
          { p with
            tiles := if rows = [] then p.tiles else setNth p.tiles t (tileOf (rows.map read))
            sides := match side with | some c => setNth p.sides t (cellsOf (read c)) | none => p.sides }).endIssue x f [])) s

/-- TSTT (R345, R350, R364). -/
def execTstt (f : Form) (s : State) : Host.Outcome State Fault Refusal :=
  let t := slotNum f f.a
  matStep (.tstt f) f [(.tile t, false)] (fun x e g act s =>
    let base := ((e.once x f act f.b g.b).getD 0).toNat
    let w := ((e.once x f act f.c g.c).getD 0).toNat % 2 ^ 32
    if base % 64 != 0 || w % 64 != 0 then s.onceFault x f act .addrAlign (eaDetail base)
    else
      let p := s.pane x.wg x.pane
      let chk (ea : Nat) : Nat × Chk := (ea, s.check x.core x.ctx .w ea 64)
      let rows := (tileRowsAt f base w).map fun r => (chk r.2, tileRow (p.tile t) r.1)
      let side := (tileSideAt f base w).toList.map fun ea => (chk ea, (List.range 64).map (Cells.read (p.side t)))
      let all := rows ++ side
      s.onceChecked x f act (all.map Prod.fst) (
        let s := if act.all (fun a => a.lane.helper) then s
          else match act with
          | [] => s
          | a :: _ => all.foldl (fun s q => s.pushAccess x.ctx a.m.ref (.store q.2) q.1.2.phys 64 (strong f)) s
        s.endIssue x f [])) s

/-- TMOV (R365). -/
def execTmov (f : Form) (s : State) : Host.Outcome State Fault Refusal :=
  let d := slotNum f f.d
  let a := slotNum f f.a
  matStep (.tmov f) f [(.tile d, true), (.tile a, false)] (fun x _ _ _ s =>
    (s.updPane x.wg x.pane fun p =>
      { p with tiles := setNth p.tiles d (p.tile a), sides := setNth p.sides d (p.side a) }).endIssue x f []) s

/-- TSCL (R366). -/
def execTscl (f : Form) (s : State) : Host.Outcome State Fault Refusal :=
  let d := slotNum f f.d
  matStep (.tscl f) f [(.tile d, true)] (fun x e g act s =>
    let v : Byte := ((e.once x f act f.a g.a).getD 0).extractLsb' 0 8
    let old := (s.pane x.wg x.pane).side d
    let new (i : Nat) : Int := if f.m2 = 0 then v.toNat else (Cells.read old i).toNat + v.toInt
    let vals := (List.range 64).map new
    if vals.any fun k => decide (k < 0) || decide (254 < k) then s.onceFault x f act .matScale (BitVec.ofNat 52 d)
    else
      (s.updPane x.wg x.pane fun p =>
        { p with sides := setNth p.sides d (cellsOf (vals.map fun k => BitVec.ofNat 8 k.toNat)) }).endIssue x f []) s

/-! ### TCVT (R367, R368) -/

/-- A conversion into OZ8 of a value times 2^(127 − sc), rounded once (R64, R66, R69, R368). -/
def ozOfScaled (f : Fmt) (rm : Rm) (sat : Bool) (u sc x : Nat) : FRes :=
  match fval f x with
  | .fin neg m => if m = 0 then ⟨0, 0⟩ else ozRound rm sat u neg (m * 2 ^ 127) (f.unit * 2 ^ sc)
  | _ => ozOfFp f rm sat u x

/-- One element of TCVT: `sc` the scale code, `u` the draw. -/
def tcvtElem (src dst : Ty) (rm : Rm) (sat : Bool) (u sc x : Nat) : FRes :=
  match src, dst with
  | .oz8x4, _ => fpSat (tyFmt dst) sat (fpOfOz (tyFmt dst) sc x)
  | _, .oz8x4 => ozOfScaled (tyFmt src) rm sat u sc x
  | _, _ => cvtElem src dst rm sat 0 x

/-- A row of TCVT: the elements converted, and the row of td with them. -/
def tcvtRow' (src dst : Ty) (rm : Rm) (sat : Bool) (h sc : Nat) (gen : Word) (from' to' : List Byte) : List Byte × Flags :=
  let es := rowElems src from'
  let xs := if src = .oz8x4 then (es.drop (32 * h)).take 32 else es
  let rs := xs.zipIdx.map fun e => tcvtElem src dst rm sat (srDraw gen e.2 0) sc e.1
  let fl := rs.foldl (fun fl r => fl ||| r.flags) (0 : Flags)
  let out := rs.map FRes.bits
  if dst = .oz8x4 then
    let old := rowElems .oz8x4 to'
    (elemBytes dst (old.take (32 * h) ++ out ++ old.drop (32 * h + 32)), fl)
  else (elemBytes dst out, fl)

/-- Rows 0 to 63 of TCVT in order, the generator advanced before each under SR. -/
def tcvtRows (row : Nat → Word → List Byte × Flags) (sr : Bool) : List Nat → Word → List (List Byte × Flags) × Word
  | [], gen => ([], gen)
  | r :: rest, gen =>
    let gen := if sr then srNext gen else gen
    let q := tcvtRows row sr rest gen
    (row r gen :: q.1, q.2)

/-- TCVT (R367, R368). -/
def execTcvt (f : Form) (s : State) : Host.Outcome State Fault Refusal :=
  let d := slotNum f f.d
  let a := slotNum f f.a
  let src := srcTy f.m2
  matStep (.tcvt f) f [(.tile d, true), (.tile a, false)] (fun x _ _ act s =>
    let p := s.pane x.wg x.pane
    let h := (f.slotImm f.b).toNat
    let scOf (r : Nat) : Nat := if f.ty = .oz8x4 then sxOf (p.side d) r h else if src = .oz8x4 then sxOf (p.side a) r h else 127
    if (List.range 64).any fun r => scOf r = 255 then
      s.onceFault x f act .matScale (BitVec.ofNat 52 (if f.ty = .oz8x4 then d else a))
    else
      let row (r : Nat) (gen : Word) : List Byte × Flags :=
        tcvtRow' src f.ty f.rm f.sat h (scOf r) gen (tileRow (p.tile a) r) (tileRow (p.tile d) r)
      let q := tcvtRows row (f.rm = .sr) (List.range 64) (s.seedOf x)
      let fl := q.1.foldl (fun fl r => fl ||| r.2) (0 : Flags)
      let rs := act.map fun a => (⟨a, [], fl⟩ : LaneRes)
      let s := s.setSeed x q.2
      match s.fpTrap rs with
      | some c => (s.addAllFlags rs).endIssue x f (fpFaults c rs [])
      | none =>
        ((s.addAllFlags rs).updPane x.wg x.pane fun p =>
          { p with tiles := setNth p.tiles d (tileOf (q.1.map Prod.fst)) }).endIssue x f []) s

/-! ### Accumulator instructions (R369 to R372) -/

/-- ACZ (R370). -/
def execAcz (f : Form) (s : State) : Host.Outcome State Fault Refusal :=
  let d := slotNum f f.d
  matStep (.acz f) f [(.acc d, true)] (fun x _ _ _ s =>
    (s.updPane x.wg x.pane fun p => { p with accs := setNth p.accs d [] }).endIssue x f []) s

/-- The row a per-lane accumulator instruction names. -/
def accRowOf (e : Env) (x : Iss) (f : Form) (g : Sig) (act : List Act) : Nat :=
  ((e.once x f act f.b g.b).getD 0).toNat % 2 ^ 32

/-- ACRD (R371): a slot C of CLS 0 gives 1.0; the latches shift whatever the guards (R138, R194). -/
def execAcrd (f : Form) (s : State) : Host.Outcome State Fault Refusal :=
  let n := slotNum f f.a
  matStep (.acrd f) f [(.acc n, false)] (fun x e g act s =>
    let row := accRowOf e x f g act
    if 63 < row then s.onceFault x f act .matIndex (BitVec.ofNat 52 n)
    else
      let ts : Word := if f.c.cls = .none then 0x3F800000 else ((e.once x f act f.c g.c).getD 0).extractLsb' 0 32
      let vals := accRow ((s.pane x.wg x.pane).acc n) row
      s.commit x f g act (act.map fun a =>
        let r := readout f.sat ts (vals.getD a.m.pos 0)
        ⟨a, [wordOf r.bits], r.flags⟩) []) s fun x g s => s.commit x f g [] [] []

/-- ACWR (R371). -/
def execAcwr (f : Form) (s : State) : Host.Outcome State Fault Refusal :=
  let n := slotNum f f.d
  matStep (.acwr f) f [(.acc n, true)] (fun x e g act s =>
    let row := accRowOf e x f g act
    if 63 < row then s.onceFault x f act .matIndex (BitVec.ofNat 52 n)
    else
      let vals := act.map fun a => (a, e.slot f x.wbase a.m.pos f.a g.a)
      let faults := vals.filterMap fun v => match v.2 with
        | none => some (e.lackFault f g v.1)
        | some _ => none
      let put (c : Cells 32) (v : Act × Option DWord) : Cells 32 :=
        match v.2 with
        | some w => Cells.write c (32 * row + v.1.m.pos) (w.extractLsb' 0 32)
        | none => c
      let s := s.updPane x.wg x.pane fun p => { p with accs := mapNth p.accs n fun c => vals.foldl put c }
      let s := if faults = [] then s.setRows x (releaseLu f g x.wbase (s.rowsOf x)) else s
      s.endIssue x f faults) s

/-- ACST (R350, R372). -/
def execAcst (f : Form) (s : State) : Host.Outcome State Fault Refusal :=
  let n := slotNum f f.a
  matStep (.acst f) f [(.acc n, false)] (fun x e g act s =>
    let u := e.uwords f f.b g.b
    let base := (joinWords u).toNat
    let w := (u.getD 2 0).toNat
    if base % 128 != 0 || w % 128 != 0 then s.onceFault x f act .addrAlign (eaDetail base)
    else
      let acc := (s.pane x.wg x.pane).acc n
      let rows := (List.range 64).map fun m => (accRow acc m).map (readout f.sat (u.getD 3 0))
      let fl := rows.foldl (fun fl r => r.foldl (fun fl q => fl ||| q.flags) fl) (0 : Flags)
      let rs := act.map fun a => (⟨a, [], fl⟩ : LaneRes)
      match s.fpTrap rs with
      | some c => (s.addAllFlags rs).endIssue x f (fpFaults c rs [])
      | none =>
        let need : Need := if f.m2 = 0 then .w else .rw
        let cs := rows.zipIdx.map fun r =>
          let ea := (base + r.2 * w) % 2 ^ 64
          ((ea, s.check x.core x.ctx need ea 128), r.1)
        s.onceChecked x f act (cs.map Prod.fst) (
          let kind (q : FRes) : AccessKind := if f.m2 = 0 then .store (leBytes 4 q.bits) else .red .f32 0 (dwordOf q.bits)
          let one (s : State) (r : LaneRef) (p : Nat) (q : FRes × Nat) : State :=
            s.pushAccess x.ctx r (kind q.1) (p + 4 * q.2) 4 (strong f)
          let s := s.addAllFlags rs
          let s := if act.all (fun a => a.lane.helper) then s
            else match act with
            | [] => s
            | a :: _ => cs.foldl (fun s c => c.2.zipIdx.foldl (fun s q => one s a.m.ref c.1.2.phys q) s) s
          s.endIssue x f [])) s

end Sys2Proof.Machine
end

