-- ==== Sys2Proof/Machine/Blocks.lean ====
section
/-! DEFINITION. The save area: its blocks, what they hold, and the reading of them at a restore (R394 to R397, R483, log 9). -/

namespace Sys2Proof.Machine

/-! ### Fields -/

/-- A field of a block: its bytes, the value it holds, and the value put back. -/
structure Field (α : Type) where
  size : Nat
  get  : α → Nat
  set  : Nat → α → α

/-- The bytes of fields, one after another (R5). -/
def fieldBytes {α : Type} (fs : List (Field α)) (x : α) : List Byte := fs.flatMap fun f => leBytes f.size (f.get x)

/-- Fields put back from their bytes. -/
def readFields {α : Type} : List (Field α) → List Byte → α → α
  | [], _, x => x
  | f :: fs, b, x => readFields fs (b.drop f.size) (f.set (leNat (b.take f.size)) x)

/-- Bytes that hold nothing. -/
def blank {α : Type} (n : Nat) : Field α := ⟨n, fun _ => 0, fun _ x => x⟩

/-- A field that a restore does not put back. -/
def shown {α : Type} (n : Nat) (get : α → Nat) : Field α := ⟨n, get, fun _ x => x⟩

/-- The fields of barriers: P, C0 and C1 in 8 bytes each (R395, log 9). -/
def barFields {α : Type} (n : Nat) (get : α → List Barrier) (put : List Barrier → α → α) : List (Field α) :=
  let bar (x : α) (i : Nat) : Barrier := (get x).getD i ⟨0, 0, 0⟩
  (List.range n).flatMap fun i =>
    [⟨4, fun x => (bar x i).phase, fun v x => put (setNth (get x) i { bar x i with phase := v }) x⟩,
     ⟨2, fun x => (bar x i).c0, fun v x => put (setNth (get x) i { bar x i with c0 := v }) x⟩,
     ⟨2, fun x => (bar x i).c1, fun v x => put (setNth (get x) i { bar x i with c1 := v }) x⟩]

/-- Bytes cut or filled with zeros to a length. -/
def fitBytes (n : Nat) (b : List Byte) : List Byte := b.take n ++ List.replicate (n - b.length) 0

/-- The cells that `n` entries of `w` bytes hold. -/
def cellsFrom {w : Nat} (size n : Nat) (b : List Byte) : Cells w :=
  cellsOf ((List.range n).map fun i => BitVec.ofNat w (fieldAt b (size * i) size))

/-! ### Blocks (R394, R395) -/

/-- What a block holds the state of. -/
inductive Part where
  | context
  | seed
  | dict (core phys : Nat)
  | launch (id : Nat)
  | gang (launch number : Nat)
  | workgroup (id : Nat)
  | pane (id k : Nat)
  | warp (id w : Nat)
  | lane (id w p : Nat)
  | bin (launch gang k : Nat)
  | reformed (launch gang k : Nat)
  | engine (cmd : Nat)
  | other
  deriving DecidableEq, Repr

/-- A block of a save area: KIND, OWNER and the bytes of its body (R394, R395). -/
structure Block where
  part  : Part
  kind  : Nat
  owner : Nat
  body  : List Byte
  deriving DecidableEq, Repr

/-- LENGTH of a block: its header included, a multiple of 16 (R394). -/
def Block.length (b : Block) : Nat := 16 + (b.body.length + 15) / 16 * 16

/-- The 16-byte header of a block (R394). -/
def Block.header (b : Block) : List Byte := leBytes 2 b.kind ++ leBytes 2 0 ++ leBytes 4 b.length ++ leBytes 4 b.owner ++ leBytes 4 0

/-- Bytes of a save area. -/
def blocksSize (bs : List Block) : Nat := bs.foldl (fun n b => n + b.length) 0

/-! ### What the blocks hold (R395) -/

/-- CONTEXT; what is read back has its reserved bits 0 (R7). -/
def contextFields : List (Field Context) :=
  [⟨4, fun c => c.mode.toNat, fun v c => { c with mode := wordOf v &&& 0x3F }⟩,
   ⟨4, fun c => c.bankKey, fun v c => { c with bankKey := v }⟩,
   ⟨4, fun c => c.ageLimit, fun v c => { c with ageLimit := v }⟩,
   ⟨8, fun c => c.extwait, fun v c => { c with extwait := v }⟩,
   ⟨4, fun c => c.hanglimit, fun v c => { c with hanglimit := v }⟩,
   ⟨8, fun c => c.trapbase.toNat, fun v c => { c with trapbase := dwordOf v }⟩,
   ⟨4, fun c => c.trapdict, fun v c => { c with trapdict := v % 4 }⟩,
   ⟨8, fun c => c.trapimg.toNat, fun v c => { c with trapimg := dwordOf v }⟩,
   ⟨4, fun c => c.cexctl.toNat, fun v c => { c with cexctl := wordOf v &&& 0xFFFF000F }⟩,
   ⟨4, fun c => c.cexlo.toNat, fun v c => { c with cexlo := wordOf v }⟩,
   ⟨4, fun c => c.cexhi.toNat, fun v c => { c with cexhi := wordOf v }⟩,
   ⟨4, fun c => c.cexdelay.toNat, fun v c => { c with cexdelay := wordOf v }⟩,
   ⟨4, fun c => c.cexprog.toNat, fun v c => { c with cexprog := wordOf v }⟩]

def contextBlock (c : Context) : Block := ⟨.context, 1, 0, fieldBytes contextFields c⟩

/-- SEED: the generators of the warps, in the order of the WARP blocks. -/
def seedBlock (ws : List Warp) : Block := ⟨.seed, 2, 0, ws.flatMap fun v => leBytes 4 v.srseed.toNat⟩

/-- DICT: the vault index, the program slot, and the 1,024 entries. -/
def dictBlock (core : Nat) (d : DictSlot) : Block :=
  let img := d.image.getD []
  ⟨.dict core d.phys, 3, core, leBytes 4 core ++ leBytes 4 d.prog ++ leBytes 8 0
    ++ (List.range 1024).flatMap fun i => leBytes 16 (imageEntry img i).toNat⟩

/-- The 16 bytes of a role (R96). -/
def Role.bytes (r : Role) : List Byte :=
  leBytes 4 r.entry.toNat ++ leBytes 1 r.warps ++ leBytes 1 r.livemax ++ leBytes 1 r.wbase0 ++ leBytes 1 r.dictslot ++ leBytes 8 r.resv.toNat

/-- The 128 bytes of a launch header (R96). -/
def Header.bytes (h : Header) : List Byte :=
  leBytes 4 h.id.toNat ++ leBytes 4 h.flags.toNat ++ leBytes 4 h.gx ++ leBytes 4 h.gy ++ leBytes 4 h.gz ++ leBytes 2 h.gang
    ++ leBytes 1 h.priority ++ leBytes 1 h.nroles ++ leBytes 4 h.vbytes ++ leBytes 1 h.tiles ++ leBytes 1 h.accs ++ leBytes 1 h.jregs
    ++ leBytes 1 h.stackKib ++ leBytes 8 h.codeVa.toNat ++ leBytes 8 h.dictVa.toNat ++ leBytes 8 h.argVa.toNat
    ++ leBytes 4 h.homeObj.toNat ++ leBytes 4 h.deadline ++ fitBytes 64 (h.roles.flatMap Role.bytes)

/-- Workgroups of a launch not yet ended: those admitted and those still to be admitted, of a DRAW the pixel workgroups formed (R395). -/
def Launch.unended (l : Launch) : Nat :=
  match l.origin with
  | .draw _ => l.live + l.pixels.length
  | _ => if l.refused then l.live else l.header.workgroups - (l.nextWg - l.live)

/-- What started a launch: the completion register and lane identity, or the queue handle, position, fence and value (R395). -/
def State.originBytes (s : State) (l : Launch) : List Byte :=
  match l.origin with
  | .push h pos fence value _ _ => leBytes 4 h.toNat ++ leBytes 4 pos.toNat ++ leBytes 8 fence.toNat ++ leBytes 8 value.toNat
  | .launch id | .draw id =>
    match s.cmd? id with
    | some c => leBytes 8 c.creg ++ s.laneIdentity l.ctx (((s.wg? c.lane.wg).map Workgroup.core).getD 0) c.lane false 0
    | none => List.replicate 24 0
  | .outside => List.replicate 24 0

/-- LAUNCH: the header, the next workgroup, the count not ended, what started it, and the grid barriers. -/
def State.launchBlock (s : State) (l : Launch) : Block :=
  ⟨.launch l.id, 12, 0, l.header.bytes ++ leBytes 4 l.nextWg ++ leBytes 4 l.unended ++ s.originBytes l
    ++ fieldBytes (barFields 8 Launch.bars fun b l => { l with bars := b }) l⟩

/-- GANG: 32 gang barriers. -/
def gangFields : List (Field Gang) := barFields 32 Gang.bars fun b q => { q with bars := b }

def gangBlock (launch : Nat) (q : Gang) : Block := ⟨.gang launch q.number, 4, q.number, fieldBytes gangFields q⟩

/-- A convergence register: its value, what has become of its round, and the pane, in 64 bytes. -/
def convFields : List (Field ConvReg) :=
  let flags (c : ConvReg) : Nat :=
    (if c.round.isSome then 1 else 0) + (if c.ran then 2 else 0) + (if c.stopped then 4 else 0) + (if c.filled != 0 then 8 else 0)
  let put (v : Nat) (c : ConvReg) : ConvReg :=
    { c with round := if v.testBit 0 then some (c.round.getD (formOf 0 0 0)) else none, ran := v.testBit 1, stopped := v.testBit 2
             filled := if v.testBit 3 then max 1 c.filled else 0 }
  [⟨4, fun c => c.word.toNat, fun v c => { c with target := v % 256, signed := v / 256 % 256, progress := v / 65536 % 256 }⟩,
   ⟨1, flags, put⟩, ⟨1, ConvReg.pane, fun v c => { c with pane := v % 4 }⟩, blank 58]

/-- Lanes of a workgroup as a set of bits: lane l of warp w is bit 32 w + l. -/
def lanesBits (ls : List (Nat × Nat)) : Nat := ls.foldl (fun n r => n ||| 2 ^ (32 * r.1 + r.2)) 0

/-- The lanes whose bits are set, those of a list first, in its order. -/
def lanesIn (known : List (Nat × Nat)) (v : Nat) : List (Nat × Nat) :=
  let all := ((List.range 1024).filter v.testBit).map fun b => (b / 32, b % 32)
  known.filter all.contains ++ all.filter fun r => !known.contains r

/-- The open round of a convergence register: word, template and literal of its instruction, the operand values, and the signers
(R260, R262). -/
def openFields : List (Field ConvReg) :=
  let form (c : ConvReg) : Form := c.round.getD (formOf 0 0 0)
  let put (c : ConvReg) (w : Word) (t : Template) (lit : Word) : ConvReg :=
    { c with round := c.round.map fun _ => formOf w t lit, mop := (templateMop t).toNat }
  let template (c : ConvReg) : Template := (form c).template (BitVec.ofNat 10 c.mop)
  [⟨4, fun c => (form c).word.toNat, fun v c => put c (wordOf v) (template c) (form c).lit⟩,
   ⟨16, fun c => (template c).toNat, fun v c => put c (form c).word (BitVec.ofNat 128 v) (form c).lit⟩,
   ⟨4, fun c => (form c).lit.toNat, fun v c => put c (form c).word (template c) (wordOf v)⟩,
   ⟨4, fun c => c.values.length, fun v c => { c with values := (List.range (min v 16)).map fun i => c.values.getD i 0 }⟩]
    ++ (List.range 16).map (fun i => ⟨4, fun c => (c.values.getD i 0).toNat, fun v c => { c with values := setNth c.values i (wordOf v) }⟩)
    ++ [⟨128, fun c => lanesBits c.signers, fun v c => { c with signers := lanesIn c.signers v }⟩, blank 4]

/-- The identity of a workgroup, its arguments, and its barriers. -/
def workgroupFields : List (Field Workgroup) :=
  [⟨4, Workgroup.linear, fun _ g => g⟩, ⟨4, Workgroup.wgx, fun v g => { g with wgx := v }⟩,
   ⟨4, Workgroup.wgy, fun v g => { g with wgy := v }⟩, ⟨4, Workgroup.wgz, fun v g => { g with wgz := v }⟩,
   shown 4 Workgroup.gang, blank 12]
    ++ (List.range 8).map (fun i => ⟨4, fun g => (g.args.getD i 0).toNat, fun v g => { g with args := setNth g.args i (wordOf v) }⟩)
    ++ barFields 16 Workgroup.bars fun b g => { g with bars := b }

/-- WORKGROUP: identity, barriers, convergence registers with their open rounds, and scratchpad. -/
def Workgroup.block (g : Workgroup) (scratch : List Byte) : Block :=
  ⟨.workgroup g.id, 5, g.linear, fieldBytes workgroupFields g ++ g.jregs.flatMap (fieldBytes convFields)
    ++ g.jregs.flatMap (fieldBytes openFields) ++ scratch⟩

/-- PANE: tiles with side files, accumulators, and the latched weights with format and scales. -/
def Workgroup.paneBlock (g : Workgroup) (k : Nat) : Block :=
  let p := g.panes.getD k ⟨[], [], [], none⟩
  let cells {w : Nat} (size n : Nat) (c : Cells w) : List Byte := (List.range n).flatMap fun i => leBytes size (Cells.read c i).toNat
  let weights : List Byte := match p.weights with
    | none => List.replicate 2128 0
    | some w => fitBytes 2128 ([1, BitVec.ofNat 8 w.fmt.bits.toNat] ++ List.replicate 14 0
        ++ fitBytes 64 (w.sb.flatMap fun r => r.flatMap fun n => leBytes 1 n)
        ++ w.b.flatMap fun r => r.flatMap fun v => leBytes (elemBits w.fmt / 8) v.toNat)
  ⟨.pane g.id k, 6, g.linear, (List.range g.tileN).flatMap (fun t => cells 1 4096 (p.tiles.getD t []) ++ cells 1 64 (p.sides.getD t []))
    ++ (List.range g.accN).flatMap (fun a => cells 4 2048 (p.accs.getD a [])) ++ weights⟩

/-- s0 to s63, FPSTAT, the slots, CSBASE and the barriers of a warp; what is read back has its reserved bits 0 (R7). -/
def warpFields : List (Field Warp) :=
  (List.range 64).map (fun n => ⟨4, fun v => (v.ureg n).toNat, fun x v => v.setUreg n (wordOf x)⟩)
    ++ [⟨4, fun v => v.fpstat.toNat, fun x v => { v with fpstat := wordOf x &&& 0x3F3F }⟩,
        ⟨1, Warp.active, fun x v => { v with active := x % 4 }⟩, ⟨1, Warp.pending, fun x v => { v with pending := x % 4 }⟩,
        ⟨1, Warp.trapAct, fun x v => { v with trapAct := x % 4 }⟩, ⟨1, Warp.trapPend, fun x v => { v with trapPend := x % 4 }⟩,
        ⟨8, fun v => v.csbase.toNat, fun x v => { v with csbase := dwordOf x }⟩]
    ++ barFields 4 Warp.bars fun b v => { v with bars := b }

/-- The mapped registers of a map, in ascending number. -/
def mappedRegs (rows : List Row) : List Nat := rows.foldl (fun l r => match r.reg with | some n => insertNat n l | none => l) []

/-- The 64-byte renaming bitmap and the rows of the mapped registers. -/
def mapBytes (rows : List Row) : List Byte :=
  let regs := mappedRegs rows
  leBytes 64 (regs.foldl (fun n r => n + 2 ^ r) 0)
    ++ regs.flatMap fun r => (List.range 32).flatMap fun p => leBytes 4 (rowRead rows r p).toNat

/-- A lane's entry of the side buffer as 64 bits (R380). -/
def Side.bits (d : Side) : DWord := d.detail ++ BitVec.ofBool d.helper ++ d.state ++ d.cause

/-- An entry of the side buffer from its 64 bits. -/
def Side.ofBits (b : DWord) : Side :=
  { cause := b.extractLsb' 0 8, state := b.extractLsb' 8 3, helper := b.getLsbD 11, detail := b.extractLsb' 12 52 }

/-- A0 to A3 of the lanes, the GO stage, the side buffer, TRAPCAUSE, TRAPLANE, whether a GO is staged, and SKID. -/
def tailFields : List (Field Warp) :=
  let arg (p k : Nat) : Field Warp :=
    ⟨8, fun v => ((v.args.getD p []).getD k 0).toNat,
     fun x v => { v with args := (List.range 32).map fun q => (List.range 4).map fun n =>
       if q = p && n = k then dwordOf x else (v.args.getD q []).getD n 0 }⟩
  let staged (get : Staged → DWord) (set : DWord → Staged → Staged) : Field Warp :=
    ⟨8, fun v => ((v.stage.map get).getD 0).toNat, fun x v => { v with stage := v.stage.map (set (dwordOf x)) }⟩
  let side (p : Nat) : Field Warp :=
    ⟨8, fun v => (((v.lanes[p]?).map fun (l : Lane) => l.side.bits).getD 0).toNat,
     fun x v => { v with lanes := mapNth v.lanes p fun l => { l with side := Side.ofBits (dwordOf x) } }⟩
  (List.range 32).flatMap (fun p => (List.range 4).map (arg p))
    ++ [staged Staged.go fun x q => { q with go := x }, staged Staged.a0 fun x q => { q with a0 := x },
        staged Staged.a1 fun x q => { q with a1 := x }, staged Staged.a2 fun x q => { q with a2 := x },
        staged Staged.a3 fun x q => { q with a3 := x }]
    ++ (List.range 32).map side
    ++ [⟨1, fun v => v.trapCause.toNat, fun x v => { v with trapCause := BitVec.ofNat 8 x }⟩,
        ⟨1, Warp.trapLane, fun x v => { v with trapLane := x % 32 }⟩,
        ⟨1, fun v => if v.stage.isSome then 1 else 0, fun x v => { v with stage := if x = 0 then none else v.stage }⟩, blank 1,
        ⟨4, Warp.skid, fun x v => { v with skid := x }⟩, blank 8]

/-- WARP. -/
def Warp.block (v : Warp) (g : Workgroup) (w : Nat) : Block :=
  ⟨.warp g.id w, 7, w, fieldBytes warpFields v ++ mapBytes v.rows ++ fieldBytes tailFields v⟩

/-- The number of a lane's state in its block, HALTED as bit 3 (log 9). -/
def Lane.stateCode (l : Lane) : Nat :=
  (match l.st with
    | .issuing => 0 | .waiting _ => 1 | .binned => 2 | .parked _ _ _ => 3 | .exited => 4) + (if l.halted then 8 else 0)

/-- The number of a lane's wait in its block (log 9). -/
def LaneState.waitCode : LaneState → Nat
  | .waiting w => match w with
    | .join _ _ => 1 | .barrier _ _ => 2 | .signed _ => 3 | .jwait _ _ => 4 | .callFull _ _ _ _ => 5 | .call _ _ _ _ => 6
    | .oread _ _ _ _ _ => 7 | .waitw _ _ _ _ _ _ _ => 8 | .settled _ _ _ _ _ _ => 9 | .yielded => 10 | .landed _ _ _ => 11
    | .lost _ => 12
  | _ => 0

/-- An on-chip stack entry of a lane. -/
def frameFields (i : Nat) : List (Field Lane) :=
  let q (l : Lane) : Frame := l.stack.getD i ⟨0, 0⟩
  let put (l : Lane) (f : Frame) : Lane := { l with stack := setNth l.stack i f }
  [⟨4, fun l => (q l).rpc.toNat, fun v l => put l { q l with rpc := wordOf v }⟩,
   ⟨4, fun l => (q l).rwb / 8, fun v l => put l { q l with rwb := 8 * (v % 64) }⟩]

/-- A lane put back in the state its block names; of a wait, and of a park, the rest is as it was saved (log 9). -/
def Lane.putState (v : Nat) (l : Lane) : Lane :=
  let st : LaneState := match v % 8, l.st with
    | 0, _ => .issuing
    | 2, _ => .binned
    | 3, .waiting _ | 3, .binned | 3, .exited => .issuing
    | 4, _ => .exited
    | _, st => st
  { l with st := st, halted := v.testBit 3 }

/-- LANE, in 64 bytes. -/
def laneFields : List (Field Lane) :=
  [⟨4, fun l => l.pc.toNat, fun v l => { l with pc := wordOf v, npc := wordOf v + (l.npc - l.pc) }⟩,
   ⟨2, Lane.wbase, fun v l => { l with wbase := 8 * (v / 8 % 64) }⟩, ⟨1, Lane.stateCode, Lane.putState⟩, shown 1 (fun l => l.st.waitCode),
   ⟨1, fun l => l.preds.toNat + 128, fun v l => { l with preds := BitVec.ofNat 7 v }⟩,
   ⟨1, fun l => l.stack.length, fun v l => { l with stack := (List.range (min v 4)).map fun i => l.stack.getD i ⟨0, 0⟩ }⟩,
   ⟨1, fun l => if l.pass.isSome then 1 else 0, fun v l => { l with pass := if v = 0 then none else some (l.pass.getD 0) }⟩, blank 1,
   ⟨4, Lane.spilled, fun v l => { l with spilled := v }⟩,
   ⟨4, fun l => (l.pass.getD 0).toNat, fun v l => { l with pass := l.pass.map fun _ => wordOf v }⟩]
    ++ (List.range 4).flatMap frameFields
    ++ [⟨4, fun l => l.trappc.toNat, fun v l => { l with trappc := wordOf v }⟩,
        shown 4 (fun l => match l.st with | .parked die index _ => index + 1024 * die | _ => 0xFFFFFFFF), blank 4]

def laneBlock (g : Workgroup) (w p : Nat) (l : Lane) : Block := ⟨.lane g.id w p, 8, w, fieldBytes laneFields l⟩

/-- The blocks of one workgroup: its own, its four PANE blocks, then its warps, each with its lanes (R395). -/
def Workgroup.blocks (g : Workgroup) (scratch : List Byte) : List Block :=
  g.block scratch :: (List.range 4).map g.paneBlock
    ++ (g.warps.zipIdx).flatMap fun v => v.1.block g v.2 :: (v.1.lanes.zipIdx).map fun l => laneBlock g v.2 l.2 l.1

/-- The scratchpad of a workgroup: in its vault, or as it was saved. -/
def State.scratchBytes (s : State) (g : Workgroup) : List Byte :=
  if g.resident then Memory.bytes s.mem (g.phys 0) g.vbytes else (List.range g.vbytes).map fun i => Cells.read g.savedMem i

/-- A lane in a REFORMED block: its linear workgroup number, the place of its launch among those of the context, WARPID and LANEID. -/
def State.laneCode (s : State) (ctx : Nat) (r : LaneRef) : List Byte :=
  let ids := (s.launches.filter fun l => l.ctx = ctx).map Launch.id
  let g := s.wg? r.wg
  leBytes 4 ((g.map Workgroup.linear).getD 0) ++ leBytes 2 ((g.bind fun g => ids.findIdx? fun n => n = g.launch).getD 0xFFFF)
    ++ leBytes 1 r.warp ++ leBytes 1 r.lane

/-- The lane that such bytes name, if it is one of a saved workgroup. -/
def State.laneNamed (s : State) (ctx : Nat) (b : List Byte) : Option LaneRef :=
  (((s.launches.filter fun l => l.ctx = ctx)[fieldAt b 4 2]?).bind fun l =>
    s.wgs.find? fun g => g.launch = l.id && g.linear = fieldAt b 0 4 && !g.resident && !g.kept).map fun g =>
      ⟨g.id, fieldAt b 6 1, fieldAt b 7 1⟩

/-- REFORMED: a bin key, the lanes in order, and the mapped rows; a bin not drawn holds no rows. -/
def State.reformedBlock (s : State) (ctx : Nat) (part : Part) (core : Nat) (pc : Word) (wbase dslot : Nat) (lanes : List (Option LaneRef))
    (rows : List Row) : Block :=
  let lane (o : Option LaneRef) : List Byte := match o with
    | some r => s.laneCode ctx r
    | none => List.replicate 8 255
  ⟨part, 9, core, leBytes 4 pc.toNat ++ leBytes 2 wbase ++ leBytes 2 dslot ++ leBytes 4 lanes.length ++ leBytes 4 0
    ++ lanes.flatMap lane ++ mapBytes rows⟩

/-- The REFORMED blocks of a saved gang: its bins, then its reformed groups. -/
def State.reformedBlocks (s : State) (l : Launch) (q : Gang) : List Block :=
  (q.bins.zipIdx.map fun b =>
      s.reformedBlock l.ctx (.bin l.id q.number b.2) b.1.1 b.1.2.pc b.1.2.wbase b.1.2.dslot (b.1.2.lanes.map fun e => some e.1) [])
    ++ q.groups.zipIdx.map fun r =>
      s.reformedBlock l.ctx (.reformed l.id q.number r.2) r.1.1 r.1.2.keyPc r.1.2.wbase0 r.1.2.dslot r.1.2.lanes r.1.2.rows

/-! ### The work of engine commands as words (R396, R473, log 9) -/

/-- A list as its length and its words. -/
def counted (l : List Nat) : List Nat := l.length :: l

/-- A 64-bit number as two words. -/
def twoWords (n : Nat) : List Nat := [n % 2 ^ 32, n / 2 ^ 32 % 2 ^ 32]

/-- A pixel of a DRAW. -/
def Pixel.words (p : Pixel) : List Nat :=
  [p.cmd, p.target.toNat, p.psn.toNat, p.xy.toNat, p.bary0.toNat, p.bary1.toNat, p.mask.toNat,
   (if p.helper then 1 else 0) + (if p.posted then 2 else 0)]

/-- A pixel workgroup of a DRAW: its triangle and tile, and the pixels of its 32 lanes. -/
def PixelWg.words (p : PixelWg) : List Nat :=
  [p.tri, p.tx, p.ty] ++ (List.range 32).flatMap fun k => match (p.lanes[k]?).getD none with
    | some q => 1 :: q.words
    | none => List.replicate 9 0

/-- A number with a sign, as a word. -/
def signedWord (v : Int) : Nat := (BitVec.ofInt 32 v).toNat

/-- What a command still has to do, and what it has done, as words. -/
def Work.words : Work → List Nat
  | .copy op dst src len rows ds ss dsp ssp landed bad =>
    [op] ++ twoWords dst.toNat ++ twoWords src.toNat ++ [len, rows, ds, ss, (if dsp then 1 else 0) + if ssp then 2 else 0]
      ++ counted landed ++ counted bad
  | .nmLoad prog len va left => [prog, len] ++ twoWords va.toNat ++ counted left
  | .nmRun prog first count params rec ops parts done bad fb =>
    [prog, first, count] ++ counted (params.map BitVec.toNat) ++ twoWords rec ++ ops.length :: ops.flatMap twoWords
      ++ [done, bad] ++ (match fb with | some b => [1, b.1] ++ twoWords b.2.toNat | none => [0, 0, 0, 0])
      ++ parts.length :: parts.flatMap fun p => [p.1, if p.2.1 then 1 else 0] ++ counted p.2.2
  | .draw target psn tokens _ =>
    [target.toNat, psn.toNat] ++ tokens.length :: tokens.flatMap fun k => [k.tri, k.tx, k.ty] ++ counted (k.verts.map signedWord)
  | .invoke target k x0 y0 x1 y1 args left => [target.toNat, k, x0, y0, x1, y1] ++ counted (args.map BitVec.toNat) ++ counted left
  | .readout target x0 y0 x1 y1 dst dsp landed =>
    [target.toNat, x0, y0, x1, y1] ++ twoWords dst.toNat ++ [if dsp then 1 else 0] ++ counted landed
  | .push h pos => [h.toNat, pos.toNat]
  | .other => []

/-- A reader of words: what it reads, and the words left. -/
abbrev Reader (α : Type) := List Nat → α × List Nat

def readWord : Reader Nat := fun l => (l.headD 0, l.drop 1)

def readTwo : Reader Nat := fun l => (l.headD 0 + 2 ^ 32 * l.getD 1 0, l.drop 2)

def readCounted : Reader (List Nat) := fun l => ((l.drop 1).take (l.headD 0), (l.drop 1).drop (l.headD 0))

/-- As many things as a number says. -/
def readMany {α : Type} (r : Reader α) : Nat → Reader (List α)
  | 0 => fun l => ([], l)
  | n + 1 => fun l => let p := r l; let q := readMany r n p.2; (p.1 :: q.1, q.2)

/-- The part of a RUN on one stack. -/
def readRunPart : Reader (Nat × Bool × List Nat) := fun l =>
  let q := readCounted (l.drop 2)
  ((l.headD 0, l.getD 1 0 != 0, q.1), q.2)

def readToken : Reader Token := fun l =>
  let v := readCounted (l.drop 3)
  ({ tri := l.headD 0, tx := l.getD 1 0, ty := l.getD 2 0, verts := v.1.map fun n => (wordOf n).toInt }, v.2)

/-- A pixel of a lane, or none. -/
def readPixel : Reader (Option Pixel) := fun l =>
  let w (i : Nat) : Word := wordOf (l.getD i 0)
  (if l.headD 0 = 0 then none
   else some { cmd := l.getD 1 0, target := w 2, psn := w 3, xy := w 4, bary0 := w 5, bary1 := w 6, mask := w 7
               helper := (l.getD 8 0).testBit 0, posted := (l.getD 8 0).testBit 1 }, l.drop 9)

def readPixelWg : Reader PixelWg := fun l =>
  let q := readMany readPixel 32 (l.drop 3)
  ({ tri := l.headD 0, tx := l.getD 1 0, ty := l.getD 2 0, lanes := q.1 }, q.2)

/-- The work of a command put back from its words; its kind, and the launch of a DRAW, are those of the command. -/
def Work.read (k : Work) (l : List Nat) : Work :=
  let n (i : Nat) : Nat := l.getD i 0
  let two (i : Nat) : Nat := (readTwo (l.drop i)).1
  match k with
  | .copy _ _ _ _ _ _ _ _ _ _ _ =>
    let a := readCounted (l.drop 10)
    .copy (n 0) (dwordOf (two 1)) (dwordOf (two 3)) (n 5) (n 6) (n 7) (n 8) ((n 9).testBit 0) ((n 9).testBit 1) a.1 (readCounted a.2).1
  | .nmLoad _ _ _ _ => .nmLoad (n 0) (n 1) (dwordOf (two 2)) (readCounted (l.drop 4)).1
  | .nmRun _ _ _ _ _ _ _ _ _ _ =>
    let params := readCounted (l.drop 3)
    let rec' := readTwo params.2
    let ops := readMany readTwo (rec'.2.headD 0) (rec'.2.drop 1)
    let r (i : Nat) : Nat := ops.2.getD i 0
    let fb := if r 2 = 0 then none else some (r 3, dwordOf ((readTwo (ops.2.drop 4)).1))
    .nmRun (n 0) (n 1) (n 2) (params.1.map wordOf) rec'.1 ops.1 (readMany readRunPart (r 6) (ops.2.drop 7)).1 (r 0) (r 1) fb
  | .draw _ _ _ launch => .draw (wordOf (n 0)) (wordOf (n 1)) (readMany readToken (n 2) (l.drop 3)).1 launch
  | .invoke _ _ _ _ _ _ _ _ =>
    let a := readCounted (l.drop 6)
    .invoke (wordOf (n 0)) (n 1) (n 2) (n 3) (n 4) (n 5) (a.1.map wordOf) (readCounted a.2).1
  | .readout _ _ _ _ _ _ _ _ =>
    .readout (wordOf (n 0)) (n 1) (n 2) (n 3) (n 4) (dwordOf (two 5)) (n 7 != 0) (readCounted (l.drop 8)).1
  | .push _ _ => .push (wordOf (n 0)) (wordOf (n 1))
  | .other => .other

/-- The register, totals, sticky bits, sync word, class and instance of a command. -/
def engineFields : List (Field Command) :=
  [⟨4, fun c => c.go.toNat, fun v c => { c with go := wordOf v }⟩, ⟨4, Command.creg, fun v c => { c with creg := v % 8 }⟩,
   ⟨4, Command.total, fun v c => { c with total := v }⟩, ⟨4, Command.fallen, fun v c => { c with fallen := v }⟩,
   ⟨4, fun c => (if c.err then 1 else 0) + (if c.ue then 2 else 0), fun v c => { c with err := v.testBit 0, ue := v.testBit 1 }⟩,
   ⟨4, Command.sync, fun v c => { c with sync := v }⟩, ⟨4, Command.cls, fun v c => { c with cls := v }⟩,
   ⟨4, Command.engine, fun v c => { c with engine := v }⟩]

/-- The pixel workgroups of a DRAW not yet admitted. -/
def State.pixelsOf (s : State) (c : Command) : List PixelWg :=
  match c.work with
  | .draw _ _ _ launch => ((s.launch? launch).map Launch.pixels).getD []
  | _ => []

/-- ENGINE: a command's fields, its work, and the pixel workgroups of issued tokens not yet admitted (R396, R473). -/
def State.engineBlock (s : State) (c : Command) : Block :=
  let pixels := s.pixelsOf c
  ⟨.engine c.id, 10, 0, fieldBytes engineFields c
    ++ (c.work.words ++ pixels.length :: pixels.flatMap PixelWg.words).flatMap (leBytes 4)⟩

/-- The blocks of a context, in the order of R395. -/
def State.saveBlocks (s : State) (c : Context) : List Block :=
  let ls := s.launches.filter fun l => l.ctx = c.id
  let gangs := ls.flatMap fun l => (l.gangs.filter Gang.saved).map fun q => (l.id, q, s.savedOf l q.number)
  let ws := gangs.flatMap fun q => q.2.2.flatMap Workgroup.warps
  let held := ls.flatMap fun l => (l.gangs.filter Gang.saved).flatMap (s.reformedBlocks l)
  contextBlock c :: seedBlock ws :: c.savedSlots.map (fun d => dictBlock d.1 d.2)
    ++ (ls.filter fun l => l.unended != 0).map s.launchBlock
    ++ gangs.flatMap (fun q => gangBlock q.1 q.2.1 :: q.2.2.flatMap fun g => g.blocks (s.scratchBytes g))
    ++ held ++ ((s.cmds.filter fun k => k.ctx = c.id && k.work != .other).map s.engineBlock)
    ++ [⟨.other, 11, 0, []⟩]

/-- Blocks written from a physical address on; what fills a body up to a multiple of 16 bytes are free values (log 9, log 14). -/
def State.writeBlocks (s : State) (phys : Nat) (bs : List Block) : State :=
  (bs.foldl (fun (a : State × Nat) b =>
    let rest := b.length - 16 - b.body.length
    let free := (List.range rest).map fun i => Config.freeByte (a.1.freeCount + i)
    let s := a.1.storeBytes a.2 (b.header ++ b.body ++ free)
    ({ s with freeCount := s.freeCount + rest }, a.2 + b.length)) (s, phys)).1

/-! ### Reading a save area (R337, R393, R397) -/

/-- The seeds of saved warps put back, in the order of the WARP blocks. -/
def State.readSeeds (s : State) (ctx : Nat) (b : List Byte) : State :=
  let ls := s.launches.filter fun l => l.ctx = ctx
  let gs := ls.flatMap fun l => (l.gangs.filter Gang.saved).flatMap fun q => s.savedOf l q.number
  let ws := gs.flatMap fun g => (List.range g.warps.length).map fun w => (g.id, w)
  (ws.zipIdx).foldl (fun s k => s.updWarp k.1.1 k.1.2 fun v => { v with srseed := wordOf (fieldAt b (4 * k.2) 4) }) s

/-- The entries of a slot read from its block: those that are not the undefined template (R168). -/
def readImage (b : List Byte) : List (Nat × Template) :=
  ((List.range 1024).map fun i => (i, BitVec.ofNat 128 (fieldAt b (16 + 16 * i) 16))).filter fun e => 0x40 ≤ e.1 && e.2 != undefinedTemplate

/-- Latched weights read from their 2128 bytes (R347). -/
def readWeights (b : List Byte) : Option Weights :=
  if fieldAt b 0 1 = 0 then none
  else
    let fmt := Ty.ofBits (BitVec.ofNat 4 (fieldAt b 1 1))
    let n := elemBits fmt / 8
    let k := if fmt = .oz8x4 then 64 else 32
    some ⟨fmt, (List.range k).map fun r => (List.range 32).map fun c => wordOf (fieldAt b (80 + n * (32 * r + c)) n),
      (List.range (k / 32)).map fun r => (List.range 32).map fun c => fieldAt b (16 + 32 * r + c) 1⟩

/-- The tiles, side files, accumulators and weights of a pane read from its block. -/
def readPane (g : Workgroup) (b : List Byte) (p : PaneState) : PaneState :=
  { p with
    tiles := (List.range g.tileN).map fun t => cellsFrom 1 4096 (b.drop (4160 * t))
    sides := (List.range g.tileN).map fun t => cellsFrom 1 64 (b.drop (4160 * t + 4096))
    accs := (List.range g.accN).map fun a => cellsFrom 4 2048 (b.drop (4160 * g.tileN + 8192 * a))
    weights := readWeights (b.drop (4160 * g.tileN + 8192 * g.accN)) }

/-- The registers whose bits are set in a renaming bitmap. -/
def mapOf (b : List Byte) : List Nat := (List.range 512).filter (leNat (b.take 64)).testBit

/-- The map read from a bitmap and its rows, in ascending register number: what the bitmap does not name is unmapped, and a register
that was not mapped takes a new row. -/
def readMap (handler : Nat → Bool) (rows : List Row) (b : List Byte) : List Row :=
  let regs := mapOf b
  let kept := ((mapIf (fun r : Row => r.reg.any fun n => !regs.contains n) (fun r => { r with reg := none }) rows).filter
    fun r => r.reg.isSome || r.await != [])
  (regs.zipIdx).foldl (fun rows e =>
    let vals := (List.range 32).map fun p => wordOf (fieldAt b (64 + 128 * e.2 + 4 * p) 4)
    let rows := if (findRow rows e.1).isSome then rows else (freshRow rows e.1 (handler e.1)).1
    mapIf (fun r : Row => r.reg = some e.1) (fun r => { r with vals := vals }) rows) kept

/-- A warp read from its block. -/
def readWarp (b : List Byte) (v : Warp) : Warp :=
  let rest := b.drop 304
  let handler (n : Nat) : Bool := v.privileged && decide (392 ≤ n) && !v.entryMap.contains n
  readFields tailFields (rest.drop (64 + 128 * (mapOf rest).length)) { (readFields warpFields b v) with rows := readMap handler v.rows rest }

/-- The convergence registers of a workgroup read from its block, whose fixed fields take 192 bytes. -/
def readConvs (b : List Byte) (cs : List ConvReg) : List ConvReg :=
  let rounds := b.drop (64 * cs.length)
  cs.zipIdx.map fun c => readFields openFields (rounds.drop (224 * c.2)) (readFields convFields (b.drop (64 * c.2)) c.1)

/-- The launches whose workgroups have not ended read what started them: a PUSH its queue, position and fence, a LAUNCH its register. -/
def Origin.read (b : List Byte) : Origin → Origin
  | .push _ _ _ _ lane creg =>
    .push (wordOf (fieldAt b 0 4)) (wordOf (fieldAt b 4 4)) (dwordOf (fieldAt b 8 8)) (dwordOf (fieldAt b 16 8)) lane creg
  | o => o

/-- The lanes that a REFORMED block names, in order. -/
def State.lanesOf (s : State) (ctx : Nat) (b : List Byte) : List (Option LaneRef) :=
  (List.range (fieldAt b 8 4)).map fun i => s.laneNamed ctx (b.drop (16 + 8 * i))

/-- A bin read from its block: a lane it held already keeps the time of its filing. -/
def State.readBin (s : State) (ctx : Nat) (b : List Byte) (k : Bin) : Bin :=
  let since (r : LaneRef) : Nat := ((k.lanes.find? fun e => e.1 = r).map Prod.snd).getD s.clock
  { k with pc := wordOf (fieldAt b 0 4), wbase := fieldAt b 4 2, dslot := fieldAt b 6 2 % 4
           lanes := (s.lanesOf ctx b).filterMap fun o => o.map fun r => (r, since r) }

/-- A reformed group read from its block. -/
def State.readReformed (s : State) (ctx : Nat) (b : List Byte) (r : Reformed) : Reformed :=
  let lanes := s.lanesOf ctx b
  let here (p : Nat) : Bool := ((lanes[p]?).getD none).isSome
  { r with keyPc := wordOf (fieldAt b 0 4), wbase0 := fieldAt b 4 2, dslot := fieldAt b 6 2 % 4, lanes := lanes
           groups := (r.groups.map fun q => { q with lanes := q.lanes.filter here }).filter fun q => q.lanes != []
           rows := readMap (fun _ => false) r.rows (b.drop (16 + 8 * lanes.length)) }

/-- A command, and the pixel workgroups of a DRAW, read from an ENGINE block. -/
def State.readEngine (s : State) (id : Nat) (b : List Byte) : State :=
  let words := (List.range ((b.length - 32) / 4)).map fun i => fieldAt b (32 + 4 * i) 4
  match s.cmd? id with
  | none => s
  | some c =>
    let work := c.work.read words
    let rest := words.drop work.words.length
    let s := s.updCmd id fun c => { (readFields engineFields b c) with work := work }
    match work with
    | .draw _ _ _ launch => s.updLaunch launch fun l => { l with pixels := (readMany readPixelWg (rest.headD 0) (rest.drop 1)).1 }
    | _ => s

/-- What a block holds put back into the saved state of a context. -/
def State.readPart (s : State) (ctx : Nat) (p : Part) (b : List Byte) : State :=
  match p with
  | .context => s.updCtx ctx (readFields contextFields b)
  | .seed => s.readSeeds ctx b
  | .dict core phys =>
    let mine (e : Nat × DictSlot) : Bool := e.1 = core && e.2.phys = phys
    let put (e : Nat × DictSlot) : Nat × DictSlot := (e.1, { e.2 with image := e.2.image.map fun _ => readImage b })
    s.updCtx ctx fun c => { c with savedSlots := mapIf mine put c.savedSlots }
  | .launch id => s.updLaunch id fun l =>
      readFields (barFields 8 Launch.bars fun b l => { l with bars := b }) (b.drop 160)
        { l with header := Header.parse (b.take 128), nextWg := fieldAt b 128 4, origin := l.origin.read (b.drop 136) }
  | .gang launch n => s.updLaunch launch fun l => { l with gangs := mapIf (fun q => q.number = n) (readFields gangFields b) l.gangs }
  | .workgroup id => s.updWg id fun g =>
      { (readFields workgroupFields b g) with
        jregs := readConvs (b.drop 192) g.jregs
        savedMem := cellsFrom 1 g.vbytes (b.drop (192 + 288 * g.jregs.length)) }
  | .pane id k => s.updWg id fun g => { g with panes := mapNth g.panes k (readPane g b) }
  | .warp id w => s.updWarp id w (readWarp b)
  | .lane id w p => s.updLane ⟨id, w, p⟩ (readFields laneFields b)
  | .bin launch n k =>
    let put (q : Gang) : Gang := { q with bins := mapNth q.bins k fun e => (e.1, s.readBin ctx b e.2) }
    s.updLaunch launch fun l => { l with gangs := mapIf (fun q => q.number = n) put l.gangs }
  | .reformed launch n k =>
    let put (q : Gang) : Gang := { q with groups := mapNth q.groups k fun e => (e.1, s.readReformed ctx b e.2) }
    s.updLaunch launch fun l => { l with gangs := mapIf (fun q => q.number = n) put l.gangs }
  | .engine id => s.readEngine id b
  | .other => s

/-- The issue groups of a warp whose lanes a save area has changed: lanes that stand together stay so, an ISSUING lane in none forms its
own (log 9). -/
def Warp.regather (fresh : Nat) (v : Warp) : Warp :=
  let v := v.tidy
  let ring := v.ring.zipIdx.flatMap fun e => splitGroup ⟨.none, 0⟩ (fun p => v.lanes[p]?) (fresh + 33 * e.2) e.1
  let here := ring.flatMap Group.lanes
  let lost := (List.range v.lanes.length).filter fun p => !here.contains p && (v.lanes[p]?).any fun l => l.issuing && l.reformed.isNone
  let extra := lost.zipIdx.map fun p => ({ gid := fresh + 1100 + p.2, lanes := [p.1], hold := none, debt := 0 } : Group)
  Warp.settle { v with ring := ring ++ extra }

/-- What of a warp's lanes decides its issue groups. -/
def Warp.stances (v : Warp) : List (Word × Nat × LaneState × Bool) := v.lanes.map fun l => (l.pc, l.wbase, l.st, l.halted)

/-- The issue groups of the warps whose lanes differ from those that were saved. -/
def State.regather (s : State) (old : State) (ctx : Nat) : State :=
  let gs := s.wgs.filter fun g => g.ctx = ctx && !g.resident && !g.kept
  let ws := gs.flatMap fun g => g.warps.zipIdx.map fun v => (g.id, v.2, v.1.stances)
  let hit := ws.filter fun w => ((old.warp? w.1 w.2.1).map Warp.stances) != some w.2.2
  hit.foldl (fun s w => { s.updWarp w.1 w.2.1 (Warp.regather s.seq) with seq := s.seq + 1200 }) s

/-- A save area read from a physical address on: each block whose header stands at its place gives back what it holds; of the
rest of the state, which no block places, the model keeps what was saved (log 9). -/
def State.readBlocks (s : State) (ctx phys : Nat) (bs : List Block) : State :=
  let t := (bs.foldl (fun (a : State × Nat) b =>
    let t := if Memory.bytes s.mem a.2 16 = b.header then a.1.readPart ctx b.part (Memory.bytes s.mem (a.2 + 16) b.body.length) else a.1
    (t, a.2 + b.length)) (s, phys)).1
  t.regather s ctx

end Sys2Proof.Machine
end

