-- ==== Sys2Proof/Machine/Privileged.lean ====
section
/-! DEFINITION. The privileged instructions, in lanes and on control cores, and the completion of mapping changes (R18,
R120, R122, R308, R336 to R341). -/

namespace Sys2Proof.Machine

/-! ### Control cores (R18, R162, R308) -/

/-- Whether a workgroup stands for a control core. -/
def State.isControl (s : State) (wg : Nat) : Bool := s.ctl.any fun c => c.id = wg

/-! ### Saves and restores (R337) -/

/-- A save of a context begins: PREQ[0] is set, with the area and the command that waits (R337, R389). -/
def State.startSave (s : State) (ctx : Nat) (area : Option DWord) (cmd : Option Nat) : State :=
  s.updCtx ctx fun c =>
    { c with
      preqAt := if c.preq then c.preqAt else s.clock
      preq := true
      saveArea := match area with | some a => some a | none => c.saveArea
      saveCmds := c.saveCmds ++ cmd.toList }

/-- The engine commands of a context that a restore resumes: a copy or READOUT on an instance that the device chooses, a free
value (log 14), and a DRAW with the pixel workgroups saved with it first (R279, R396). -/
def State.resumeCmds (s : State) (ctx : Nat) : State :=
  let waits (launch : Nat) : Bool := (s.launch? launch).any fun l => l.pixels != []
  let one (i : Nat) (c : Command) : Command :=
    if c.ctx != ctx then c
    else match c.work with
    | .copy _ _ _ _ _ _ _ _ _ _ _ | .readout _ _ _ _ _ _ _ _ =>
      { c with engine := (Config.freeByte (s.freeCount + i)).toNat % 64 }
    | .draw _ _ _ launch => { c with resumed := if waits launch then 1 else 2 }
    | _ => c
  { s with cmds := s.cmds.zipIdx.map fun c => one c.2 c.1, freeCount := s.freeCount + s.cmds.length }

/-- A restore of a context begins: its save area is read, it is resident, and its gangs may be placed; PREQ[0] reads 0 (R391,
R393, R397, R493). -/
def State.startRestore (s : State) (ctx : Nat) (cmd : Option Nat) (area : Option Nat) : State :=
  let s := match s.ctx? ctx, area with
    | some c, some a => s.readBlocks ctx a (s.saveBlocks c)
    | _, _ => s
  (s.updCtx ctx fun c => { c with resident := true, preq := false, saveCmds := c.saveCmds ++ cmd.toList }).resumeCmds ctx

/-- The cause CTXSV or CTXRS faults with (R337). -/
def State.saveCause (s : State) (x : Iss) (n area creg : Nat) (save : Bool) : Option Cause :=
  if area % 4096 != 0 then some .addrAlign
  else if n = x.ctx || !(s.ctx? n).any (fun c => c.resident = save) || decide (0x3FFFFFFF < s.countOf x creg + 1) then some .engCmd
  else none

/-- CTXSV and CTXRS in a group: they follow the earlier accesses of its lanes (R291). -/
def saveStep (i : Instr) (f : Form) (save : Bool) (s : State) : Host.Outcome State Fault Refusal :=
  onceStep i f true (fun x e g act s =>
    let n := ((e.once x f act f.a g.a).getD 0).toNat % 2 ^ 32
    let area := (e.once x f act f.b g.b).getD 0
    let creg := (f.slotImm f.c).toNat
    match s.saveCause x n area.toNat creg save with
    | some c => s.onceFault x f act c 0
    | none =>
      if !act.all fun a => s.quiet a.m.ref false then s.stall x .memoryData
      else match act with
      | [] => s
      | a :: _ =>
        let id := s.seq
        let s := s.startCommand x a.m.ref 6 creg
        let s := if save then s.startSave n (some area) (some id) else s.startRestore n (some id) (some area.toNat)
        s.endIssue x f []) s

/-- CTXSV (R337). -/
def execCtxsv (f : Form) (s : State) : Host.Outcome State Fault Refusal := saveStep (.ctxsv f) f true s

/-- CTXRS (R337). -/
def execCtxrs (f : Form) (s : State) : Host.Outcome State Fault Refusal := saveStep (.ctxrs f) f false s

/-! ### Mapping changes (R120, R297, R338) -/

/-- A mapping change entered: its number is the counter's. -/
def State.enterChange (s : State) (ctx : Option Nat) (base size : Nat) (pages : List Page) (unmap apply : Bool) : State :=
  { s with
    changes := s.changes ++ [{ id := s.seq, ctx := ctx, base := base, size := size, pages := pages, unmap := unmap, apply := apply }]
    seq := s.seq + 1 }

/-- Whether a mapping of a context is covered by a change. -/
def Change.covers (c : Change) (ctx : Nat) (p : Page) : Bool :=
  (c.ctx = none || c.ctx = some ctx) && decide (p.va < c.base + c.size) && decide (c.base < p.va + p.size)

/-- The context and range a TLBI covers: none where it has no effect (R338). -/
def State.tlbiRange (s : State) (f : Form) (ctx base count : Nat) : Option (Option Nat × Nat × Nat) :=
  match f.m2.toNat with
  | 0 => if count = 0 || (s.ctx? ctx).isNone then none else some (some ctx, base, 65536 * count)
  | 1 => if (s.ctx? ctx).isNone then none else some (some ctx, 0, 2 ^ 52)
  | _ => some (none, 0, 2 ^ 52)

/-- TLBI (R338): its group waits until the change completes. -/
def execTlbi (f : Form) (s : State) : Host.Outcome State Fault Refusal :=
  onceStep (.tlbi f) f true (fun x e g act s =>
    let ctx := ((e.once x f act f.a g.a).getD 0).toNat % 2 ^ 32
    let base := ((e.once x f act f.b g.b).getD 0).toNat
    let count := ((e.once x f act f.c g.c).getD 0).toNat % 2 ^ 32
    if f.m2 = 0 && base % 65536 != 0 then s.onceFault x f act .addrAlign (eaDetail base)
    else match s.tlbiRange f ctx base count with
    | none => s.endIssue x f []
    | some r =>
      let id := s.seq
      let s := s.enterChange r.1 r.2.1 r.2.2 [] false false
      let s := s.updLanes (x.members.map Member.ref) fun l => { l with npc := nextPc f x.pc }
      s.setHold x.g (some (.change id))) s

/-- Whether an access, a queued reduction, or a dictionary load already translated touches the memory of a page of a context. -/
def State.pageBusy (s : State) (ctx : Nat) (p : Page) : Bool :=
  let hits (a n : Nat) : Bool := decide (a < p.phys + p.size) && decide (p.phys < a + n)
  s.pend.any (fun a => a.ctx = ctx && a.ranges.any fun r => hits r.1 r.2)
    || s.queue.any (fun q => hits q.phys (elemBits q.ty / 8))
    || s.cores.any fun c => c.jobs.any fun j => j.ctx = ctx && j.lines.any fun a => hits a 16

/-- Whether a command of a context holds a page pinned (R272). -/
def State.pinned (s : State) (ctx : Nat) (p : Page) : Bool :=
  s.cmds.any fun d => d.ctx = ctx && d.pinned.any fun r => decide (r.1 < p.va + p.size) && decide (p.va < r.1 + r.2)

/-- Whether nothing still touches the bytes of a page that a change maps, of a context that was killed say: a page that stood so already
stays in use (R124, R296). -/
def State.pageFree (s : State) (c : Change) (p : Page) : Bool :=
  let stands := (c.ctx.bind s.ctx?).any fun k => k.pages.any fun q => q.va = p.va && q.size = p.size && q.phys = p.phys
  p.host || stands || s.untouched p.phys p.size

/-- Whether a change may complete: no access that used an old translation is left, nor one to the bytes of a page it maps, and no
command holds a page of it pinned (R120, R272, R296). -/
def State.changeReady (s : State) (c : Change) : Bool :=
  c.pages.all (s.pageFree c) && (s.contexts.filter fun k => !k.killed && (c.ctx = none || c.ctx = some k.id)).all fun k =>
    (k.pages.filter fun p => c.covers k.id p).all fun p => !s.pageBusy k.id p && !s.pinned k.id p

/-- Groups that wait for changes that have completed go on (R338). -/
def State.wakeAllChanges (s : State) : State :=
  (s.wgs ++ s.ctl).foldl (fun s g => (List.range g.warps.length).foldl (fun s w => s.wakeChanges g.id w) s) s

/-- A page as a change makes it: one that stood so already, at its address and with its size, is zeroed no more than it was, any other
of HBM is to be zeroed (R124). R124 speaks of a different physical page: that bytes which the context holds already are zeroed where
their address or the page's size changes is the model's (DESIGN CHOICE, log 8). -/
def Page.placed (old : List Page) (p : Page) : Page :=
  match old.find? fun q => q.va = p.va && q.size = p.size && q.phys = p.phys && q.host = p.host with
  | some q => { p with z := q.z }
  | none => { p with z := !p.host }

/-- A context whose pages a change has replaced: an allocation of which no page is left is gone (R127). -/
def Context.repaged (c : Change) (k : Context) : Context :=
  let pages := (k.pages.filter fun p => !c.covers k.id p) ++ c.pages.map (Page.placed k.pages)
  let stands (a : Alloc) : Bool := pages.any fun p => decide (p.va < a.va + a.size) && decide (a.va < p.va + p.size)
  { k with pages := pages, allocs := k.allocs.filter stands }

/-- MAPPING_CHANGE_COMPLETE (R120): every cached translation of the old mapping is invalidated, and the new mapping
stands. A change that covers part of a larger page takes all of it away (DESIGN CHOICE, log 8). -/
def execMappingChangeComplete (change : Nat) (s : State) : Host.Outcome State Fault Refusal :=
  match s.changes.find? fun c => c.id = change with
  | none => .next s
  | some c =>
    if !s.changeReady c then .next s
    else
      let core (k : Core) : Core := { k with l1 := k.l1.filter fun e => !c.covers e.1 e.2 }
      let tables (k : Context) : Context :=
        if c.apply && c.ctx = some k.id && !k.killed then k.repaged c else k
      let s := { s with
        changes := s.changes.filter fun d => d.id != change
        cores := s.cores.map core
        l2 := s.l2.filter fun e => !c.covers e.2.1 e.2.2
        contexts := s.contexts.map tables }
      .next s.wakeAllChanges

/-! ### DICTRD and LANEX (R339, R340) -/

/-- What DICTRD reads: an entry, or a cause. A slot that is bound but holds no image yet gives DICT_SLOT_EMPTY, as a decode through
it does (DESIGN CHOICE, log 15). -/
def State.dictEntry (s : State) (x : Iss) (own : Bool) (a b : Nat) : Template ⊕ Cause :=
  let dix := a % 1024
  let k := a / 1024 % 4
  let core := if own then x.core else b % 2048
  let ctx := if own then x.ctx else b / 2 ^ 16 % 1024
  if 4096 ≤ a || (!own && (b / 2048 % 32 != 0 || b / 2 ^ 26 % 64 != 0)) then .inr .illField
  else if dix < 0x40 then .inl (fixedTemplate dix)
  else match s.slotOf core ctx k with
  | none => .inr .dictSlotEmpty
  | some d =>
    if d.emptied then .inr .eccDict
    else match d.image with
    | none => .inr .dictSlotEmpty
    | some img => .inl (imageEntry img dix)

/-- A per-lane read of a word or words, with faults of its own. -/
def readStep (i : Instr) (f : Form) (k : Iss → Args → List Word ⊕ (Cause × BitVec 52)) (s : State) :
    Host.Outcome State Fault Refusal :=
  match front i f true s with
  | .over o => o
  | .go x e g act =>
    let one (a : Act) : Act × (List Word ⊕ LaneFault) :=
      (a, match e.args f g x.wbase a.m.pos a.lane with
        | none => .inr (e.lackFault f g a)
        | some args => match k x args with
          | .inl ws => .inl ws
          | .inr c => .inr ⟨a.m.ref, c.1, c.2⟩)
    let all := act.map one
    let rs := all.filterMap fun d => match d.2 with | .inl ws => some (⟨d.1, ws, 0⟩ : LaneRes) | .inr _ => none
    let fs := all.filterMap fun d => match d.2 with | .inr q => some q | .inl _ => none
    .next (s.commitVec x f g act rs fs)

/-- DICTRD (R339). -/
def execDictrd (f : Form) (s : State) : Host.Outcome State Fault Refusal :=
  readStep (.dictrd f) f (fun x args =>
    match s.dictEntry x (f.b.cls = .none) (args.a.toNat % 2 ^ 32) (args.b.toNat % 2 ^ 32) with
    | .inl t => .inl ((List.range 4).map fun i => t.extractLsb' (32 * i) 32)
    | .inr c => .inr (c, 0)) s

/-- LANEX (R340). -/
def execLanex (f : Form) (s : State) : Host.Outcome State Fault Refusal :=
  readStep (.lanex f) f (fun x args =>
    let a := args.a.toNat % 2 ^ 32
    let b := args.b.toNat % 2 ^ 32
    if s.isControl x.wg then .inr (.illPriv, 0)
    else if a % 4 != 0 then .inr (.addrAlign, eaDetail a)
    else if 252 < a then .inr (.addrRange, eaDetail a)
    else match s.warp? x.wg b with
    | none => .inr (.addrRange, eaDetail a)
    | some v =>
      let d := ((v.lanes[a / 8]?).map fun l => l.side.bits).getD 0
      .inl [d.extractLsb' (8 * (a % 8)) 32]) s

/-! ### PARKR (R122, R341, R362, R379) -/

/-- The attached lanes of a record, those parked by one issue together, by warp, in the order they attached. -/
def FaultRec.batches (q : FaultRec) : List (List LaneRef) :=
  let keys := (q.lanes.map fun e => (e.2.1, e.1.wg, e.1.warp)).eraseDups
  keys.map fun k => (q.lanes.filter fun e => (e.2.1, e.1.wg, e.1.warp) = k).map Prod.fst

/-- Faults at the accesses that parked lanes: raised; of a lane whose warp has stopped, raised once it goes on after RTE (R341, R376,
R379, R380). -/
def State.parkFaults (s : State) (fs : List LaneFault) : State :=
  let late := fs.filter fun f => s.stopped f.lane
  let s := late.foldl (fun s f => s.updLane f.lane fun l => { l with owed := some (f.cause, f.detail) }) s
  s.raiseApart (fs.filter fun f => !late.contains f)

/-- What waits for a record besides its lanes, when its service fails: admissions, pushes and loads from TRAPIMG (R167, R455,
R494). -/
def State.failUnattached (s : State) (q : FaultRec) : State :=
  let hit (va : Nat) : Bool := va / 65536 * 65536 = q.region
  let s := (s.launches.filter fun l => l.ctx = q.ctx && l.absent = some q.region).foldl (fun s l => s.refuseLaunch l.id) s
  let ps := (((s.ctx? q.ctx).map Context.pushes).getD []).filter fun p => p.region = some q.region
  let s := ps.foldl (fun s p => (s.updCtx q.ctx fun c => { c with pushes := c.pushes.filter (· != p) }).refusePush q.ctx p) s
  let needs (j : DictJob) : Bool :=
    j.ctx = q.ctx && j.first = 0 && (hit j.va.toNat || decide (j.va.toNat ≤ q.region && q.region < j.va.toNat + 16400))
  match (s.cores.filter fun c => dieOf c.vault = q.die).findSome? fun c => c.jobs.find? needs with
  | some j => s.killAt q.ctx .pagePerm (max j.va.toNat q.region)
  | none => s

/-- PARKR on a record: freed, its lanes released in the order they attached, with RETRY or with PAGE_PERM (R341). -/
def State.releaseRecord (s : State) (q : FaultRec) (fail : Bool) : State :=
  let s := { s with records := s.records.filter fun r => !(r.die = q.die && r.index = q.index) }
  let s := q.batches.foldl (fun s rs => s.unpark rs) s
  let s := if fail then s.parkFaults (q.lanes.map fun e => ⟨e.1, .pagePerm, eaDetail e.2.2⟩) else s
  let rounds := (q.lanes.filterMap fun e => (s.signedOf e.1).map fun j => (e.1.wg, j)).eraseDups
  let s := if fail then s
    else rounds.foldl (fun s k => s.updConv k.1 k.2 fun c => { c with stopped := false }) s
  let s := if fail then s.failUnattached q else s
  s.afterAll (q.lanes.map Prod.fst)

/-- PARKR on the record a number names: whether it was outstanding (R341). -/
def State.parkRelease (s : State) (a : Nat) (fail : Bool) : State × Bool :=
  match s.records.find? fun r => r.index = a % 1024 && r.die = a / 1024 % 4 with
  | none => (s, false)
  | some q => (s.releaseRecord q fail, true)

/-- PARKR (R341). -/
def execParkr (f : Form) (s : State) : Host.Outcome State Fault Refusal :=
  onceStep (.parkr f) f true (fun x e g act s =>
    let a := ((e.once x f act f.a g.a).getD 0).toNat % 2 ^ 32
    if 4096 ≤ a then s.onceFault x f act .illField 0
    else
      let q := s.parkRelease a (f.m2 = 1)
      q.1.predEach x f g act fun _ => q.2) s

end Sys2Proof.Machine
end

