-- ==== Sys2Proof/Machine/Traps.lean ====
section
/-! DEFINITION. The end of SLEEP, the entry of trap handlers and the hang detector (R330, R377 to R382, R387, R388,
R480). -/

namespace Sys2Proof.Machine

/-! ### SLEEP_EXPIRY (R330) -/

/-- The end of a SLEEP in a reformed group. -/
def State.wakeReformed (s : State) (core slot gid : Nat) : State :=
  match (s.core core).groups.find? fun r => r.slot = slot with
  | none => s
  | some r =>
    match r.groups.find? fun q => q.gid = gid with
    | some q =>
      match q.hold with
      | some (.sleep t) =>
        if s.clock < t then s
        else
          let refs := q.lanes.filterMap fun p => (r.lanes[p]?).getD none
          let ready (x : Group) : Group := if x.gid = gid then { x with hold := none } else x
          let s := s.updCore core fun c =>
            { c with groups := mapIf (fun k => k.slot = slot) (fun k => { k with groups := k.groups.map ready }) c.groups }
          (s.updLanes refs fun l => l.moveTo l.npc).settleReformed core slot
      | _ => s
    | none => s

/-- SLEEP_EXPIRY (R330): the group goes on once CLOCK has advanced; a halted one after its RTE (R379). A warp of 32 or
more names group slot warp - 32 of core `wg`. -/
def execSleepExpiry (wg warp gid : Nat) (s : State) : Host.Outcome State Fault Refusal :=
  .next (if 32 ≤ warp then s.wakeReformed wg (warp - 32) gid
    else match s.wg? wg, s.warp? wg warp with
    | some g, some v =>
      match v.ring.find? fun q => q.gid = gid with
      | some q =>
        match q.hold with
        | some (.sleep t) =>
          let ready := q.lanes.all fun p => (v.lanes[p]?).any fun l => !l.halted
          if s.clock < t || !g.resident || !ready then s
          else s.endHold wg warp q (((q.lanes.head?.bind fun p => v.lanes[p]?).map Lane.npc).getD 0) []
        | _ => s
      | none => s
    | _, _ => s)

/-! ### The stop of a workgroup and the entry of its handler (R376, R377, R381, R382) -/

/-- Whether an issue group may stop where it stands: it waits, its next instruction reads no latch, or 64 such have issued
in a row (R377). -/
def State.mayStop (s : State) (x : Iss) : Bool :=
  !(s.groupOf x.g).any (fun q => holdIssues q.hold && decide (q.chain < 64)) || !s.nextReadsLatch x
    || !x.members.all fun m => (s.lane? m.ref).any Lane.issuing

/-- Whether the warps of a workgroup but the trapping one may stop, in each of their issue groups, those of reformed groups
included (R377). -/
def State.skidOver (s : State) (g : Workgroup) (t : TrapState) : Bool :=
  let refs := (g.refs.filter fun r => r.warp != t.warp)
  let homes := g.warps.zipIdx.flatMap fun v =>
    if v.2 = t.warp then [] else v.1.ring.map fun q => (GroupRef.home g.id v.2 q.gid)
  let away := (s.core g.core).groups.flatMap fun r =>
    if r.lanes.any fun o => o.any refs.contains then r.groups.map fun q => (GroupRef.reformed g.core r.slot q.gid) else []
  ((homes ++ away).filterMap s.iss?).all fun x => !(x.members.any fun m => refs.contains m.ref) || s.mayStop x

/-- Whether what a workgroup issued before its stop is complete: its accesses, its window stores, the rounds that had filled, but for
one that must follow a stopped one, and the load of its trap slot (R167, R349, R362, R376). -/
def State.issuedOver (s : State) (g : Workgroup) : Bool :=
  !s.accessLeft g.id
    && g.warps.all (fun v => v.hatchq = [] && v.stage.isNone)
    && g.jregs.all (fun c => c.filled = 0 || c.ran || c.stopped
      || (g.matBusy (c.panes g) c.uses c.filled && g.jregs.any fun d => d.stopped && decide (d.filled < c.filled)))
    && !(s.core g.core).jobs.any fun j => j.ctx = g.ctx && j.warp.isNone

/-- Whether the handler rows of a warp's pipe are free for it (R382). -/
def State.handlerFree (s : State) (g : Workgroup) (w : Nat) (v : Warp) : Bool :=
  !(s.core g.core).handler.any fun h => h.1 = v.pane && h.2.1 = v.pipe && (h.2.2.1 != g.id || h.2.2.2 != w)

/-- Every warp of a workgroup halted. -/
def State.haltRest (s : State) (g : Workgroup) (t : TrapState) : State :=
  (List.range g.warps.length).foldl (fun s w => if w = t.warp then s else s.haltWarp g.id w []) s

/-- The trapping warp in its handler: its lanes that are not EXITED or PARKED are one group, at the class's vector, with
WBASE 392, in privileged mode, on the trap slot; what an interrupted handler had recorded is kept (R166, R381 to R383). -/
def Warp.enterHandler (v : Warp) (vector : Word) (slot gid : Nat) : Warp :=
  let into (l : Lane) : Lane :=
    match l.st with
    | .exited | .parked _ _ _ => l
    | _ => { l with halted := false, st := .issuing, pc := vector, npc := vector, wbase := 392 }
  let mine := (List.range v.lanes.length).filter fun p => (v.lanes[p]?).any fun l => match l.st with
    | .exited | .parked _ _ _ => false
    | _ => true
  { v with
    saved := v.lanes.map fun l => ⟨l.st, l.wbase, l.pc, l.npc⟩
    ringSaved := v.ring
    nest := if v.privileged then ⟨v.ringSaved, v.saved, v.trapAct, v.trapPend, v.entryMap⟩ :: v.nest else v.nest
    lanes := v.lanes.map into
    ring := [{ gid := gid, lanes := mine, hold := none, debt := 0 }]
    current := gid
    trapAct := v.active, trapPend := v.pending
    active := slot, pending := slot
    entryMap := (v.rows.filterMap Row.reg).filter fun n => decide (392 ≤ n)
    privileged := true }

/-- The word at the TRAPPC of a lane, as its group fetched it, in the handler that a debug cause interrupts from that handler's base; 0
where it cannot be read (R485, log 15). -/
def State.trapWord (s : State) (g : Workgroup) (w : Nat) (r : LaneRef) : Word :=
  let pc := ((s.lane? r).map Lane.trappc).getD 0
  let ctx := s.ctx? g.ctx
  let base :=
    if (s.warp? g.id w).any Warp.privileged then
      if (g.outer.head?).any TrapState.debug then ((ctx.bind Context.debug).map Debug.base).getD 0 else (ctx.map Context.trapbase).getD 0
    else ((s.launch? g.launch).map fun l => l.header.codeVa).getD 0
  match s.lookup g.ctx .x (base + pc.setWidth 64).toNat with
  | .ok p _ => if pc.toNat % 4 = 0 then wordOf (Memory.le s.mem p 4) else 0
  | _ => 0

/-- The entry of the handler, with its trace record; the latches are empty (R140, R166, R381, R485). -/
def State.enterHandler (s : State) (g : Workgroup) (t : TrapState) (v : Warp) : State :=
  let r : LaneRef := ⟨g.id, t.warp, v.trapLane⟩
  let vector := if t.debug then t.cause.code.toNat % 16 else t.cause.code.toNat / 16
  let slot := ((s.ctx? g.ctx).map Context.trapdict).getD 3
  let s := s.traceRecord g.ctx (s.laneIdentity g.ctx g.core r false v.active) 4 t.cause.code.toNat 0 (s.trapWord g t.warp r).toNat 0
  let s := s.updWarp g.id t.warp fun v => v.enterHandler (wordOf (0x100 * vector)) slot s.seq
  let h := (v.pane, v.pipe, g.id, t.warp)
  let s := s.updCore g.core fun c => { c with handler := if c.handler.contains h then c.handler else c.handler ++ [h] }
  ({ s with seq := s.seq + 1 }).emptyLatches g

/-- HANDLER_ENTRY (R376, R377, R381, R382, R480): the workgroup has stopped and its trapping warp enters the handler, once
the rows of its pipe are free; a debug cause without DBGBASE leaves it halted. -/
def execHandlerEntry (wg : Nat) (s : State) : Host.Outcome State Fault Refusal :=
  .next (match s.wg? wg with
  | none => s
  | some g =>
    match g.trap, (g.trap.bind fun t => g.warps[t.warp]?), s.ctx? g.ctx with
    | some t, some v, some c =>
      let stays := t.debug && ((Context.debug c).map Debug.base).getD 0 = 0
      if t.entered || (t.debug && !t.recorded) || !g.resident || !c.resident || c.hungHalt || !s.skidOver g t || !s.issuedOver g
          || !(stays || s.handlerFree g t.warp v) then s
      else
        let s := (s.haltRest g t).updWg wg fun g => { g with trap := some { t with entered := true, handler := !stays } }
        if stays then s.emptyLatches g else s.enterHandler g t v
    | _, _, _ => s)

/-! ### The hang detector (R387, R388) -/

/-- The entry of the wait-for graph a lane belongs to: KIND, INDEX and KEY. -/
def State.hangKey (s : State) (g : Workgroup) (r : LaneRef) (l : Lane) : Option (Nat × Nat × Nat) :=
  match l.st with
  | .binned => (s.core g.core).bins.findSome? fun b =>
      if b.lanes.any fun e => e.1 = r then some (8, b.number, g.core) else none
  | .waiting (.join _ _) => some (5, 0, l.pc.toNat)
  | .waiting (.barrier sc n) => some (if sc = 5 then 4 else sc, n, (s.barrier g r.warp sc n).phase)
  | .waiting (.signed j) | .waiting (.jwait j _) => some (6, j, ((s.conv? g.id j).map fun c => c.word.toNat).getD 0)
  | .waiting (.callFull h _ _ _) | .waiting (.call h _ _ _) | .waiting (.oread h _ _ _ _) => some (7, 0, h.toNat)
  | _ => none

/-- An entry of the wait-for graph (R388). -/
structure HangEntry where
  kind  : Nat
  index : Nat
  warp  : Nat
  wg    : Nat
  lanes : Nat
  key   : Nat
  deriving DecidableEq, Repr

def HangEntry.bytes (e : HangEntry) : List Byte :=
  leBytes 1 e.kind ++ leBytes 1 e.index ++ leBytes 1 e.warp ++ [0] ++ leBytes 4 e.wg ++ leBytes 4 e.lanes ++ leBytes 4 e.key

/-- A lane added to a graph: to the entry of its warp, or at a gang or grid barrier of its workgroup (log 15). -/
def addHang (linear w p : Nat) (k : Nat × Nat × Nat) (es : List HangEntry) : List HangEntry :=
  let warp := if k.1 = 3 || k.1 = 4 then 0xFF else w
  let same (e : HangEntry) : Bool := e.kind = k.1 && e.index = k.2.1 && e.key = k.2.2 && e.warp = warp && e.wg = linear
  let add (e : HangEntry) : HangEntry := { e with lanes := e.lanes ||| 2 ^ p }
  if es.any same then mapIf same add es else es ++ [⟨k.1, k.2.1, warp, linear, 2 ^ p, k.2.2⟩]

/-- The wait-for graph of a context, and the lanes that wait, with the barrier, j or register number of each (R388). -/
def State.hangGraph (s : State) (ctx : Nat) : List HangEntry × List (LaneRef × Nat) :=
  (s.wgs.filter fun g => g.ctx = ctx && g.resident).foldl (fun acc g =>
    g.warps.zipIdx.foldl (fun acc v =>
      v.1.lanes.zipIdx.foldl (fun acc l =>
        match s.hangKey g ⟨g.id, v.2, l.2⟩ l.1 with
        | none => acc
        | some k =>
          let n := match l.1.st with
            | .waiting (.join _ reg) => reg
            | _ => if k.1 = 7 || k.1 = 8 then 0 else k.2.1
          (addHang g.linear v.2 l.2 k acc.1, acc.2 ++ [((⟨g.id, v.2, l.2⟩ : LaneRef), n)])) acc) acc) ([], [])

/-- The graph written to the hang area of the context, where one is registered (R388, log 15). -/
def State.writeHang (s : State) (ctx : Nat) (es : List HangEntry) : State :=
  match (s.ctx? ctx).bind Context.hangArea with
  | none => s
  | some a =>
    let out := es.take 4095
    let at0 := Config.hostBase + a.toNat
    (out.zipIdx).foldl (fun s e => s.storeBytes (at0 + 16 + 16 * e.2) e.1.bytes) (s.storeBytes at0 (leBytes 4 out.length))

/-- SYNC_HANG raised in the waiting lanes of each workgroup; they wait on after RTE (R379, R388). -/
def State.raiseHang (s : State) (ctx : Nat) : State :=
  s.raise ((s.hangGraph ctx).2.map fun e => ⟨e.1, .syncHang, BitVec.ofNat 52 e.2⟩)

/-- HANG_DETECTED (R388). -/
def execHangDetected (ctx : Nat) (s : State) : Host.Outcome State Fault Refusal :=
  .next (match s.ctx? ctx with
  | none => s
  | some c =>
    if !c.resident || c.hungHalt || c.hanglimit = 0 || decide (c.hangCount ≤ c.hanglimit) then s
    else
      let es := (s.hangGraph ctx).1
      let s := s.writeHang ctx es
      if c.mode.getLsbD 5 then
        (s.updCtx ctx fun c => { c with hangCount := 0, hungHalt := true }).postEvent ctx 5 Cause.syncHang.code 0 0 0xFFFFFFFF
          (dwordOf (min es.length 4095))
      else (s.updCtx ctx fun c => { c with hangCount := 0 }).raiseHang ctx)

end Sys2Proof.Machine
end

