-- ==== Sys2Proof/Machine/Save.lean ====
section
/-! DEFINITION. Pre-emption: the request, the save of gangs and contexts, the end of a restore, and the clock of causal
experiments (R168, R328, R330, R337, R353, R385, R389 to R397, R488). -/

namespace Sys2Proof.Machine

/-- PREEMPT_REQUEST (R389). -/
def execPreemptRequest (ctx : Nat) (s : State) : Host.Outcome State Fault Refusal :=
  .next (if (s.ctx? ctx).any Context.resident then s.startSave ctx none none else s)

/-! ### When a gang may be saved (R390) -/

/-- The resident workgroups of a gang. -/
def State.gangHere (s : State) (l : Launch) (gang : Nat) : List Workgroup :=
  s.wgs.filter fun g => g.launch = l.id && g.gang = gang && g.resident

/-- Whether the window of a warp is held by the full log of a queue: it is then saved as it stands (R395, R450, R456, log 15). -/
def State.heldByLog (s : State) (ctx : Nat) (v : Warp) : Bool :=
  v.stage.any fun q => engineOp q.go = some .push && (s.pushQueue ctx q.a3).any ReplayObj.full

/-- Whether an instruction of a workgroup is still in flight: an access, a window entry, a round that has filled and is to
complete, or a dictionary load (R168, R279, R353, R390). -/
def State.inFlightOf (s : State) (g : Workgroup) : Bool :=
  !g.refs.all (fun r => s.quiet r false)
    || g.warps.any (fun v => (v.hatchq != [] || v.stage.isSome) && !s.heldByLog g.ctx v)
    || g.jregs.any (fun c => c.filled != 0 && (c.ran || (!c.stopped && c.mop != 0x162)))
    || (s.core g.core).jobs.any (fun j => j.ctx = g.ctx)
    || s.txFlows.any fun t => t.frames.any fun f => (f.portion.bind fun p => s.cmd? p.1).any fun c => c.names.contains g.id

/-- Whether a workgroup has a lane ISSUING, in a home or a reformed group, or HALTED in a handler (R77, R390). -/
def State.busyLanes (s : State) (g : Workgroup) : Bool :=
  g.trap.any (fun t => !t.entered || t.handler) || g.outer != []
    || g.warps.any (fun v => v.ring.any fun q => !v.groupWaits q)
    || (s.core g.core).groups.any fun r => r.groups.any fun q =>
        !holdWaits q.hold && q.lanes.any fun p => ((r.lanes[p]?).getD none).any fun ref => ref.wg = g.id && (s.lane? ref).any Lane.issuing

/-! ### The save of a gang (R168, R385, R391, R395) -/

/-- Parked lanes of a workgroup detach from their records; they are saved PARKED (R385, R395). -/
def State.detachParked (s : State) (g : Workgroup) : State :=
  { s with records := s.records.map fun q => { q with lanes := q.lanes.filter fun e => e.1.wg != g.id } }

/-- The part of a reformed group whose lanes satisfy a test: its lanes and groups, in their positions. -/
def Reformed.part (r : Reformed) (mine : LaneRef → Bool) : Reformed :=
  let lanes := r.lanes.map fun o => o.filter mine
  let stays (p : Nat) : Bool := ((lanes[p]?).getD none).isSome
  { r with lanes := lanes, groups := (r.groups.map fun q => { q with lanes := q.lanes.filter stays }).filter fun q => q.lanes != [] }

/-- Bins and reformed groups of a workgroup's lanes taken from its core, into its gang, their debts cleared (R395, R489). -/
def State.takeReforms (s : State) (l : Launch) (gang : Nat) (g : Workgroup) : State :=
  let mine (r : LaneRef) : Bool := r.wg = g.id
  let c := s.core g.core
  let bins := (c.bins.map fun b => { b with lanes := b.lanes.filter fun e => mine e.1 }).filter fun b => b.lanes != []
  let rest (r : Reformed) : Reformed := { r with groups := r.groups.map fun q => { q with debt := 0 } }
  let groups := (c.groups.map fun r => rest (r.part mine)).filter fun r => r.groups != []
  let put (q : Gang) : Gang :=
    { q with bins := q.bins ++ bins.map (fun b => (g.core, b)), groups := q.groups ++ groups.map fun r => (g.core, r) }
  let s := s.updLaunch l.id fun l => { l with gangs := mapIf (fun q => q.number = gang) put l.gangs }
  s.updCore g.core fun c =>
    { c with
      bins := (c.bins.map fun b => { b with lanes := b.lanes.filter fun e => !mine e.1 }).filter fun b => b.lanes != []
      groups := (c.groups.map fun r => r.part fun q => !mine q).filter fun r => r.groups != [] }

/-- The state of a workgroup that leaves its core stands in a save area of its own vault, in the first place that is free, and
in none where none is (R113, R392, log 9). -/
def State.saveInVault (s : State) (g : Workgroup) : State :=
  let bs := g.blocks []
  match s.vaultPlace g.core (blocksSize bs) with
  | none => s
  | some b => (s.updWg g.id fun g => { g with saveAt := some (b, blocksSize bs) }).writeBlocks (vaultPhys g.core b) bs

/-- A workgroup taken from its core with all it holds; its slots and handler rows are freed, its vault bytes once its state is in
memory (R48, R168, R392, R395, R489). -/
def State.saveWorkgroup (s : State) (l : Launch) (gang : Nat) (g : Workgroup) : State :=
  let s := (s.detachParked g).takeReforms l gang g
  let base := vaultPhys g.core g.sbase
  let inside (a : Nat) : Bool := decide (base ≤ a) && decide (a < base + g.vbytes)
  let bytes := (s.mem.filter fun c => inside c.1).map fun c => (c.1 - base, c.2)
  let ue := (s.poison.filter fun k => inside (64 * k)).map fun k => 64 * k - base
  let slots := ((s.core g.core).slots.filter fun d => d.ctx = g.ctx).map fun d => (g.core, d)
  let s := s.updCtx g.ctx fun c => { c with savedSlots := c.savedSlots.filter (fun e => e.1 != g.core) ++ slots }
  let s := s.emptyLatches g
  let free (q : Group) : Group := { q with debt := 0 }
  let warp (v : Warp) : Warp :=
    { v with ring := v.ring.map free, ringSaved := v.ringSaved.map free, nest := v.nest.map fun n => { n with ring := n.ring.map free } }
  let s := s.updWg g.id fun g => { g with resident := false, savedMem := bytes, savedUe := ue, warps := g.warps.map warp }
  let s := match s.wg? g.id with | some g => s.saveInVault g | none => s
  let s := s.updCore g.core fun c => { c with handler := c.handler.filter fun h => h.2.2.1 != g.id }
  s.unbindSlots g.core g.ctx

/-- A gang saved whole (R391). -/
def State.saveGang (s : State) (l : Launch) (gang : Nat) : State :=
  let gs := s.gangHere l gang
  let save (q : Gang) : Gang := { q with saved := true, reserved := [], since := none, aged := false }
  let s := s.updLaunch l.id fun l => { l with gangs := mapIf (fun q => q.number = gang) save l.gangs }
  gs.foldl (fun s g => s.saveWorkgroup l gang g) s

/-- Whether a gang stands on its cores and its context is to be pre-empted. -/
def State.gangToSave (s : State) (l : Launch) (gang : Nat) : Bool :=
  (s.ctx? l.ctx).any (fun c => c.resident && c.preq) && s.gangHere l gang != []

/-- COOPERATIVE_SAVE (R390): of a gang whose save is not forced. -/
def execCooperativeSave (launch gang : Nat) (s : State) : Host.Outcome State Fault Refusal :=
  .next (match s.launch? launch with
  | none => s
  | some l =>
    let gs := s.gangHere l gang
    if s.gangToSave l gang && !gs.any s.forceDue && !gs.any s.busyLanes && !gs.any s.inFlightOf then s.saveGang l gang else s)

/-- PRE_FORCED (R390): each group stops before its next instruction, what is in flight completes, and the supervisor
writes an event of FUNCTION 7. -/
def execPreForced (launch gang : Nat) (s : State) : Host.Outcome State Fault Refusal :=
  .next (match s.launch? launch, (s.launch? launch).bind fun l => s.ctx? l.ctx with
  | some l, some c =>
    let gs := s.gangHere l gang
    if c.preq && s.gangToSave l gang && gs.any s.forceDue && !gs.any s.inFlightOf then
      let linear := (gs.head?.map Workgroup.linear).getD 0xFFFFFFFF
      (s.saveGang l gang).postEvent l.ctx 7 Cause.preForced.code 0 0 (wordOf linear) 0
    else s
  | _, _ => s)

/-! ### The end of a save or restore (R337, R391 to R393, R397) -/

/-- The commands that wait for a context's save or restore end (R337). -/
def State.endSaveCmds (s : State) (ctx : Nat) : State :=
  let ids := ((s.ctx? ctx).map Context.saveCmds).getD []
  (ids.foldl State.endCommand (s.updCtx ctx fun c => { c with saveCmds := [] })).settle

/-- Whether a portion of a context's work is on an Ethernet link. -/
def State.framesOut (s : State) (ctx : Nat) : Bool :=
  s.txFlows.any fun t => t.frames.any fun f => (f.portion.bind fun p => s.cmd? p.1).any fun c => c.ctx = ctx

/-- Reservations of a context's gangs that have not started, and what its waiting admissions hold, are given up (R396). -/
def State.dropReservations (s : State) (ctx : Nat) : State :=
  let free (q : Gang) : Gang := { q with reserved := [], since := none, aged := false, cluster := none }
  let less (l : Launch) : Launch :=
    { l with held := none, gangs := (l.gangs.map free).filter fun q =>
        q.saved || s.wgs.any fun g => g.launch = l.id && g.gang = q.number && !g.kept }
  { s with launches := mapIf (fun l => l.ctx = ctx) less s.launches }

/-- The HBM ranges in use: the pages of contexts, the logs of objects, and save areas (R117, R126, R397). -/
def State.hbmRanges (s : State) : List (Nat × Nat) :=
  (s.contexts.filter fun c => !c.killed).flatMap fun c =>
    (c.pages.filter fun p => !p.host).map (fun p => (p.phys, p.size))
      ++ c.objects.flatMap (fun o => o.logAt.map fun a => (a, 64 * 2 ^ o.logk))
      ++ c.areaAt.toList

/-- Whether physical bytes of HBM are in no use, nor still accessed (R120, R126, R296). -/
def State.physFree (s : State) (phys n : Nat) : Bool :=
  !(s.hbmRanges.any fun r => decide (r.1 < phys + n) && decide (phys < r.1 + r.2)) && s.untouched phys n

/-- The first free place of some bytes in an HBM stack, at a multiple of `align`. -/
def State.hbmPlace (s : State) (align n stack : Nat) : Option Nat :=
  let base := stack * Config.hbmSpan
  let starts := base :: ((s.hbmRanges.map fun r => (r.1 + r.2 + align - 1) / align * align).filter fun a => a / Config.hbmSpan = stack)
  starts.find? fun a => decide (a % Config.hbmSpan + n ≤ Config.hbmBytes) && s.physFree a n

/-- The save area of a context: the one that CTXSV or the host named, or in device mode the first free place that firmware finds
in HBM (R337, R397, log 9). -/
def State.areaOf (s : State) (c : Context) : Option Nat :=
  match c.saveArea with
  | some a => some a.toNat
  | none => (List.range Config.numStacks).findSome? (s.hbmPlace 4096 (blocksSize (s.saveBlocks c)))

/-- The save of a context completes: its state is moved to the save area in memory, and its vault bytes are freed (R392, log 9). -/
def State.finishSave (s : State) (c : Context) (area : Nat) : State :=
  let bs := s.saveBlocks c
  let s := (s.writeBlocks area bs).dropReservations c.id
  let moved (g : Workgroup) : Workgroup := { g with moved := true, saveAt := none }
  let s := { s with wgs := mapIf (fun g => g.ctx = c.id && !g.resident) moved s.wgs }
  let s := s.updCtx c.id fun c =>
    { c with resident := false, saved := true, saveArea := none, areaAt := some (area, blocksSize bs) }
  s.endSaveCmds c.id

/-- The commands that wait for the save or restore of a context that was killed end with ERR (log 15). -/
def State.endKilledSaves (s : State) (ctx : Nat) : State :=
  let ids := ((s.contexts.find? fun c => c.id = ctx).map Context.saveCmds).getD []
  let clear (c : Context) : Context := { c with saveCmds := [] }
  let s := { s with contexts := mapIf (fun c => c.id = ctx) clear s.contexts }
  (ids.foldl (fun s id => (s.updCmd id fun c => { c with err := true }).endCommand id) s).settle

/-- CONTEXT_SAVE_COMPLETE (R391, R392, R397): in host-assisted mode the area is asked for first; where no area is free the save
waits. -/
def execContextSaveComplete (ctx : Nat) (s : State) : Host.Outcome State Fault Refusal :=
  .next (match s.ctx? ctx with
  | none => s.endKilledSaves ctx
  | some c =>
    let here := s.wgs.any fun g => g.ctx = ctx && g.resident
    if !c.resident || !c.preq || here || s.framesOut ctx then s
    else if c.mode.getLsbD 3 && c.saveArea.isNone then
      if c.events.any fun e => e.function = 3 then s
      else s.postEvent ctx 3 0 (dwordOf (blocksSize (s.saveBlocks c))) 0 0xFFFFFFFF 0
    else match s.areaOf c with
    | some a => s.finishSave c a
    | none => s)

/-- RESTORE_COMPLETE (R337, R393): every gang of the context stands again. -/
def execRestoreComplete (ctx : Nat) (s : State) : Host.Outcome State Fault Refusal :=
  .next (match s.ctx? ctx with
  | none => s
  | some c =>
    let away := s.launches.any fun l => l.ctx = ctx && l.gangs.any Gang.saved
    if !c.resident || c.preq || away || !(c.saved || c.saveCmds != []) then s
    else (s.updCtx ctx fun c => { c with saved := false, areaAt := none, savedSlots := [] }).endSaveCmds ctx)

/-! ### The clock of an experiment (R488) -/

/-- The lane identity of a record that concerns no lane (R474, log 15). -/
def contextIdentity (ctx : Nat) : List Byte :=
  leBytes 2 ctx ++ leBytes 2 0 ++ [0, 0xFF, 0, 0] ++ leBytes 4 0 ++ leBytes 4 0xFFFFFFFF

/-- CEX_REMAIN_TICK (R488). -/
def execCexRemainTick (ctx : Nat) (s : State) : Host.Outcome State Fault Refusal :=
  .next (match s.ctx? ctx with
  | none => s
  | some c =>
    let left := c.cexctl.toNat / 2 ^ 16
    if c.cexPart < 1024 || !c.cexctl.getLsbD 0 then s
    else if 1 < left then
      s.updCtx ctx fun c => { c with cexPart := c.cexPart - 1024, cexctl := c.cexctl - 0x10000 }
    else
      let low : Word := c.cexctl &&& 0xFFFC
      let s := s.updCtx ctx fun c =>
        { c with cexPart := c.cexPart - 1024, cexctl := low ||| 2, causalEnd := c.causalEnd || c.cexctl.getLsbD 2 }
      s.traceRecord ctx (contextIdentity ctx) 6 0 0 c.cexprog.toNat (c.cexdelay.toNat / 4096))

end Sys2Proof.Machine
end

