-- ==== Sys2Proof/Machine/Failures.lean ====
section
/-! DEFINITION. Failing parts: what each failure fences, poisons, damages, relaunches or kills (R12, R41, R43, R45 to R48,
R374, R375, R431). -/

namespace Sys2Proof.Machine

/-! ### CORE_UE (R45, R47) -/

/-- The pixels that the lanes of a pixel workgroup have still to post. -/
def Workgroup.unposted (g : Workgroup) : Option PixelWg :=
  let lane (l : Lane) : Option Pixel :=
    match l.st, l.pixel with
    | .exited, _ => none
    | _, some p => if p.posted && !p.helper then none else some p
    | _, none => none
  if g.pixelCmd.isNone then none else some ⟨0, 0, 0, g.lanes.map lane⟩

/-- A workgroup lost with its core: its lanes are gone, and it waits to be launched again, once event `ev` is answered
where there is one. -/
def State.loseWorkgroup (s : State) (g : Workgroup) (ev : Option Nat) : State :=
  let detach (q : FaultRec) : FaultRec := { q with lanes := q.lanes.filter fun e => e.1.wg != g.id }
  let s := { s with records := s.records.map detach }
  let named := s.cmds.any fun c => c.names.contains g.id
  let s := if named then
      s.updWg g.id fun g => { g with resident := false, kept := true, warps := [], bars := [], jregs := [], panes := [], trap := none, outer := [] }
    else { s with wgs := s.wgs.filter fun w => w.id != g.id }
  let k : Lost := ⟨g.linear, g.gang, g.unposted, ev⟩
  s.updLaunch g.launch fun l => { l with lost := l.lost ++ [k] }

/-- Error recovery for a workgroup of a failed core: launched again where its launch is idempotent, else its context is
killed; in host-assisted mode the host decides first (R43, R45, R375). -/
def State.recoverWorkgroup (s : State) (core : Nat) (g : Workgroup) : State :=
  match s.ctx? g.ctx, s.launch? g.launch with
  | some c, some l =>
    if c.mode.getLsbD 4 then
      let s := s.postEvent g.ctx 4 Cause.eccReg.code 0 (wordOf core) (wordOf g.linear) 0
      s.loseWorkgroup g (some (((s.ctx? g.ctx).map Context.eventSeq).getD 0))
    else if l.header.flags.getLsbD 3 then s.loseWorkgroup g none
    else s.killWith g.ctx .eccReg 0 (wordOf g.linear) 0
  | _, _ => s

/-- The gang reservations that held a fenced core give it up, and wait for another core of their cluster; a waiting admission
gives it up too. A gang whose cluster keeps too few cores is refused (R47). -/
def State.leaveReservations (s : State) (core : Nat) : State :=
  let drop (q : Gang) : Gang := { q with reserved := q.reserved.filter fun r => r.1 != core }
  let leave (l : Launch) : Launch := { l with held := l.held.filter fun h => h.1 != core, gangs := l.gangs.map drop }
  let s := { s with launches := s.launches.map leave }
  s.launches.foldl (fun s l =>
    match l.toReserve.find? fun q => q.cluster = some (clusterOf core) && s.gangShort l q with
    | some q => s.refuseGang l q
    | none => s) s

/-- CORE_UE (R40, R45, R47): the core is fenced until reset. -/
def execCoreUe (core : Nat) (s : State) : Host.Outcome State Fault Refusal :=
  if Config.numCores ≤ core then .next s
  else
    let gs := s.wgs.filter fun g => g.core = core && g.resident
    let s := s.updCore core fun _ => { Core.fresh core with fenced := true }
    let s := { s with pipes := s.pipes.filter fun p => p.core != core }
    let s := gs.foldl (fun s g => s.recoverWorkgroup core g) (s.leaveReservations core)
    .next (s.settle)

/-- The host's answer to an event of error recovery: resume follows R45, fail kills the context (R43, R386). -/
def State.answerRecovery (s : State) (ctx seq : Nat) (fail : Bool) : State :=
  let waits (k : Lost) : Bool := k.event = some seq
  let keeps := (s.launches.filter fun l => l.ctx = ctx && l.lost.any waits).all fun l => l.header.flags.getLsbD 3
  if fail || !keeps then s.killContext ctx .eccReg
  else
    let free (k : Lost) : Lost := if waits k then { k with event := none } else k
    { s with launches := mapIf (fun l => l.ctx = ctx) (fun l => { l with lost := l.lost.map free }) s.launches }

/-! ### Lines and chunks (R45, R46, R48, R431) -/

/-- Whether a vault line holds bytes of a tile of a target, or, given a pixel, of that pixel: the pixels of a tile lie in order in
the bytes of its place (log 7). -/
def Target.inLine (t : Target) (vault line tile : Nat) (pixel : Option Nat) : Bool :=
  t.vaults.any fun e => e.1 = tile && e.2.1 = vault &&
    match pixel with
    | none => decide (e.2.2 < 64 * line + 64) && decide (64 * line < e.2.2 + t.tileBytes)
    | some q => decide (e.2.2 + t.tileBytes / 64 * q < 64 * line + 64) && decide (64 * line < e.2.2 + t.tileBytes / 64 * (q + 1))

/-- The replicas that a vault line holds bytes of: context, handle and die. -/
def State.replicasIn (s : State) (vault line : Nat) : List (Nat × Word × Nat) :=
  s.contexts.flatMap fun c => c.objects.flatMap fun o => o.replicas.zipIdx.filterMap fun r =>
    if r.1.vault = vault && decide (r.1.off < 64 * line + 64) && decide (64 * line < r.1.off + o.stateBytes) then some (c.id, o.handle, r.2)
    else none

/-- A poisoned vault line whose bytes a saved workgroup still holds there stands in its saved state too (R48). -/
def Workgroup.markSaved (vault line : Nat) (g : Workgroup) : Workgroup :=
  if g.core = vault && !g.resident && !g.kept && !g.moved && decide (g.sbase ≤ 64 * line) && decide (64 * line < g.sbase + g.vbytes) then
    { g with savedUe := insertNat (64 * line - g.sbase) g.savedUe }
  else g

/-- VAULT_LINE_UE (R45, R48, R431): the pixels whose bytes the 64-byte line holds are damaged; a line that holds none is poisoned, and
the replicas whose bytes it holds are fenced. -/
def execVaultLineUe (vault line : Nat) (s : State) : Host.Outcome State Fault Refusal :=
  let tiled := s.contexts.any fun c => c.targets.any fun t => t.vaults.any fun e => t.inLine vault line e.1 none
  .next (if 2048 ≤ vault || 16384 ≤ line then s
    else if tiled then
      s.damagePixels vault fun t x y => t.inLine vault line (t.tileIndex (x / 8) (y / 8)) (some (8 * (y % 8) + x % 8))
    else
      let hit := s.replicasIn vault line
      let s := s.poisonLine ((Config.vaultBase + vault * Config.vaultBytes) / 64 + line)
      let s := { s with wgs := s.wgs.map (Workgroup.markSaved vault line) }
      hit.foldl (fun s r => s.fenceReplicas r.1 r.2.1 [r.2.2]) s)

/-- HBM_CHUNK_UE (R45): the 64-byte chunk is poisoned. -/
def execHbmChunkUe (stack chunk : Nat) (s : State) : Host.Outcome State Fault Refusal :=
  .next (if Config.numStacks ≤ stack || Config.hbmBytes < 64 * chunk + 64 then s
    else s.poisonLine (stack * Config.hbmSpan / 64 + chunk))

/-! ### The package (R12, R45, R374) -/

/-- MACHINE_CHECK (R45, R374): delivered to firmware, with DSTATUS[3] set. -/
def execMachineCheck (isFabric : Bool) (s : State) : Host.Outcome State Fault Refusal :=
  .next { s with mcheck := true, fwCause := if isFabric then Cause.mcFabric.code else Cause.mcInternal.code }

/-- CLOCK_THROTTLE (R12): the steps by which ACLK and VCLK are lowered and the HBM banks reduced; no result changes. -/
def execClockThrottle (aclk vclk banks : Nat) (s : State) : Host.Outcome State Fault Refusal :=
  .next { s with aclkStep := aclk, vclkStep := vclk, nmBanks := banks }

/-! ### Events to the host (R43, R386) -/

/-- An event retired: its place is free for the next. -/
def State.retireEvent (s : State) (ctx seq : Nat) : State :=
  let drop (c : Context) : Context := { c with events := c.events.filter fun e => e.seq != seq }
  ({ s with contexts := mapIf (fun c => c.id = ctx) drop s.contexts }).flushEvents ctx

/-- A written event of a context, by its SEQ. -/
def State.event? (s : State) (ctx seq : Nat) : Option EventRec :=
  (s.contexts.find? fun c => c.id = ctx && c.events.any fun e => e.seq = seq && e.written).bind fun c =>
    c.events.find? fun e => e.seq = seq && e.written

/-- EVENT_RETIRE (R386): the host acknowledges a notice. -/
def execEventRetire (ctx seq : Nat) (s : State) : Host.Outcome State Fault Refusal :=
  .next (match s.event? ctx seq with
  | some e => if e.function = 6 || e.function = 7 then s.retireEvent ctx seq else s
  | none => s)

/-- The host's answer to a placement event: the placement may be made; or the work ends, its admission or its call refused (R43,
R125; DESIGN CHOICE, log 7). -/
def State.answerPlacing (s : State) (ctx seq : Nat) (fail : Bool) : State :=
  let give (p : Placing) : Placing := if p.seq = seq then { p with given := true } else p
  let asked := ((s.ctx? ctx).map Context.placing).getD [] |>.find? fun p => p.seq = seq
  if !fail then s.updCtx ctx fun c => { c with placing := c.placing.map give }
  else
    let s := s.updCtx ctx fun c => { c with placing := c.placing.filter fun p => p.seq != seq }
    match asked.map Placing.what with
    | some (.scratchpad launch _ _ _) => s.refuseLaunch launch
    | some _ => { s with replyWord := 0 }
    | none => s

/-- What an answer does for the work its event concerns (R41, R43, R125, R385, R388, R397, R449, R451). -/
def State.answerEvent (s : State) (ctx : Nat) (e : EventRec) (answer : Answer) : State :=
  let fail : Bool := answer = .fail
  match e.function with
  | 0 => (s.parkRelease e.tag.toNat fail).1
  | 1 =>
    if e.purpose = 1 then
      let s := s.updObject ctx e.tag fun o => { o with awaitTrim := false }
      if fail then s else (s.trimObject ctx e.tag).serveObject ctx e.tag
    else if fail then s
    else
      let free (r : Replica) : Replica := if r.fenced then { r with ignored := true } else r
      s.updObject ctx e.tag fun o => o.updReplica (e.purpose - 2) free
  | 2 => s.answerPlacing ctx e.seq fail
  | 3 =>
    match answer with
    | .address a => s.updCtx ctx fun c => { c with saveArea := some (dwordOf (Config.hostBase + a.toNat)) }
    | _ => s
  | 4 => s.answerRecovery ctx e.seq fail
  | 5 =>
    let s := s.updCtx ctx fun c => { c with hungHalt := false, hangCount := 0 }
    if fail then s.raiseHang ctx else s
  | _ => s

/-- HOST_EVENT_ANSWER (R43, R386): the answer ends or resumes the work and retires the record. -/
def execHostEventAnswer (ctx seq : Nat) (answer : Answer) (s : State) : Host.Outcome State Fault Refusal :=
  .next (match s.event? ctx seq with
  | some e => if 5 < e.function then s else (s.answerEvent ctx e answer).retireEvent ctx seq
  | none => s)

end Sys2Proof.Machine
end

