-- ==== Sys2Proof/Machine/Host.lean ====
section
/-! DEFINITION. The host link: BAR0 with its capability list and call windows, and BAR2 (R26 to R31, R37 to R40, R456). -/

namespace Sys2Proof.Machine

/-! ### The capability list (R37 to R40) -/

/-- A capability record: its ID, version and body; the next record lies at the next multiple of 8. -/
structure CapRecord where
  id   : Nat
  body : List Byte
  deriving DecidableEq, Repr

/-- Bytes a record takes up to the next. -/
def CapRecord.span (c : CapRecord) : Nat := (8 + c.body.length + 7) / 8 * 8

/-- The bytes of a record at an offset of BAR0, the last of its list or not. -/
def CapRecord.bytes (c : CapRecord) (at0 : Nat) (last : Bool) : List Byte :=
  let b := leBytes 2 c.id ++ [1] ++ leBytes 1 ((8 + c.body.length) / 4) ++ leBytes 4 (if last then 0 else at0 + c.span) ++ c.body
  b ++ List.replicate (c.span - b.length) 0

/-- The records the device presents (R39, log 16). -/
def State.capRecords (s : State) : List CapRecord :=
  let fenced (v : Nat) : Bool := (s.core v).fenced
  let usable := Config.numCores - s.cores.countP Core.fenced
  let bits (i : Nat) : Nat := (List.range 8).foldl (fun n b => if fenced (8 * i + b) then n + 2 ^ b else n) 0
  [⟨1, leBytes 4 Config.firmwareVersion.toNat ++ leBytes 4 Config.packageSerial.toNat⟩,
   ⟨2, leBytes 2 usable ++ leBytes 2 Config.numStacks ++ leBytes 4 2048 ++ leBytes 8 (Config.numStacks * Config.hbmBytes)⟩,
   ⟨3, leBytes 2 Config.residentContexts.toNat ++ leBytes 2 Config.numContexts⟩,
   ⟨4, leBytes 2 8 ++ leBytes 2 0x40⟩,
   ⟨5, leBytes 4 Config.aclkKHz ++ leBytes 4 Config.vclkKHz ++ leBytes 4 Config.nclkKHz⟩,
   ⟨6, (List.range 256).map fun i => BitVec.ofNat 8 (bits i)⟩]

/-- The list's bytes from an offset on. -/
def capBytes : Nat → List CapRecord → List Byte
  | _, [] => []
  | at0, c :: rest => c.bytes at0 (rest = []) ++ capBytes (at0 + c.span) rest

/-! ### BAR0 (R27, R28) -/

/-- DSTATUS (R27). -/
def State.dstatus (s : State) : Nat :=
  (if s.booted then 1 else 0) + (if s.bootFail then 2 else 0) + (if s.recovery then 4 else 0) + (if s.mcheck then 8 else 0)

/-- A call window of a context. -/
def State.window (s : State) (ctx : Nat) : CallWindow :=
  ((s.windows.find? fun w => w.1 = ctx).map Prod.snd).getD CallWindow.reset

def State.setWindow (s : State) (ctx : Nat) (w : CallWindow) : State :=
  { s with windows := if s.windows.any fun p => p.1 = ctx then mapIf (fun p => p.1 = ctx) (fun _ => (ctx, w)) s.windows
                      else s.windows ++ [(ctx, w)] }

/-- WSTATUS (R28). -/
def CallWindow.wstatus (w : CallWindow) : DWord :=
  dwordOf ((if w.accepted then 1 else 0) + 256 * w.cause.toNat + 2 ^ 32 * (w.count % 2 ^ 32))

/-- What a 64-bit host read at an offset of BAR0 answers (R27, R28, R37). -/
def State.bar0Read (s : State) (off : Nat) : DWord :=
  if off = 0 then dwordOf (0xC0A6 + 65536 * Config.siliconRevision.toNat)
  else if off = 8 then dwordOf Config.capBase
  else if off = 0x10 then dwordOf s.dstatus
  else if 0x800 ≤ off && off < 0x1000 && off % 8 = 0 then
    dwordOf (leNat ((((capBytes Config.capBase s.capRecords).drop (off - 0x800)).take 8)))
  else if 0x1000 ≤ off && off < 0x11000 && off % 0x40 = 0x28 then (s.window ((off - 0x1000) / 0x40)).wstatus
  else if off = 0x11028 then s.dbgWin.wstatus
  else 0

/-- A call window with an argument written. -/
def CallWindow.setArg (w : CallWindow) (k : Nat) (v : DWord) : CallWindow :=
  match k with
  | 0 => { w with a0 := v }
  | 1 => { w with a1 := v }
  | 2 => { w with a2 := v }
  | _ => { w with a3 := v }

/-- The device after a reset, before its boot: memory keeps what it held, and fresh values stay fresh (log 6). -/
def State.afterReset (s : State) : State :=
  { State.reset with mem := s.mem, poison := s.poison, agenda := s.agenda, seq := s.seq, freeCount := s.freeCount }

/-- DRESET (R27). -/
def execDreset (v : DWord) (s : State) : Host.Outcome State Fault Refusal :=
  .next (if v = 0xC0A60001 then s.afterReset else s)

/-! ### Host call windows (R28, R29, R456) -/

/-- A GO of a window refused with a cause. -/
def CallWindow.refuse (w : CallWindow) (c : Cause) : CallWindow := { w with accepted := false, cause := c.code }

/-- Whether a GO keeps the field rules of R29. -/
def hostGoOk (go : DWord) : Bool := goClass go = 4 && goUnit go = 0xFF && goOpcode go = 0 && argBits go 24 40 = 0

/-- The oldest held GO of a window: refused, appended to its queue, or held by a full log (R29, R456). A host GO has no issuing
lane: DIE of the entry it appends is the queue's home die (DESIGN CHOICE, log 7). -/
def State.serveWindow (s : State) (ctx : Nat) : State :=
  let w := s.window ctx
  match w.held with
  | [] => s
  | (go, a0, a1, a2, a3) :: rest =>
    let w := { w with held := rest }
    if !(s.ctx? ctx).any Context.resident then s
    else if !hostGoOk go || !pushArgsOk a0 a1 a2 a3 then s.setWindow ctx (w.refuse .engCmd)
    else match s.pushQueue ctx a3 with
    | none => s.setWindow ctx (w.refuse .engCmd)
    | some o =>
      if o.full then s
      else
        let args := [a0, a1, a2, a3].flatMap fun a => [a.extractLsb' 0 32, a.extractLsb' 32 32]
        (s.appendCall ctx o 0 o.home args).setWindow ctx { w with accepted := rest = [], count := w.count + 1 }

/-- HOST_QUEUE_PUSH (R29): a GO written to the call window of a context. -/
def execHostQueuePush (ctx : Nat) (go : DWord) (s : State) : Host.Outcome State Fault Refusal :=
  let w := s.window ctx
  .next (if Config.numContexts ≤ ctx then s
    else if s.bootFail || !(s.ctx? ctx).any Context.resident then s.setWindow ctx (w.refuse .engError)
    else
      let s := s.setWindow ctx { w with held := w.held ++ [(go, w.a0, w.a1, w.a2, w.a3)], accepted := false }
      if w.held = [] then s.serveWindow ctx else s)

/-- HOST_GO_ACCEPT (R29): the oldest held GO of a window is tried again. -/
def execHostGoAccept (ctx : Nat) (s : State) : Host.Outcome State Fault Refusal := .next (s.serveWindow ctx)

/-! ### BAR2 (R31) -/

/-- Whether an offset of BAR2 is populated. -/
def populated (off : Nat) : Bool :=
  (off < Config.numStacks * Config.hbmSpan && off % Config.hbmSpan < Config.hbmBytes) || inVault off

/-- Whether an access through BAR2 touches a page that is being zeroed: it then waits (R124). -/
def State.bar2Waits (s : State) (off n : Nat) : Bool :=
  s.contexts.any fun c => !c.killed && c.pages.any fun p => p.z && decide (p.phys < off + n) && decide (off < p.phys + p.size)

/-- HOST_BAR2_READ (R31): a read of a poisoned line completes with a poisoned TLP of 0xFF bytes. -/
def execHostBar2Read (off len : Nat) (s : State) : Host.Outcome State Fault Refusal :=
  let byte (i : Nat) : Byte := if populated (off + i) then Memory.read s.mem (off + i) else 0
  let bad := (List.range len).any fun i => populated (off + i) && s.poisoned (off + i)
  .next (if s.bootFail || s.bar2Waits off len then s
    else { s with reply := if bad then List.replicate len 0xFF else (List.range len).map byte, replyBad := bad })

/-- HOST_BAR2_WRITE (R31, R46). -/
def execHostBar2Write (off : Nat) (bytes : List Byte) (s : State) : Host.Outcome State Fault Refusal :=
  .next (if s.bootFail || s.bar2Waits off bytes.length then s
    else if (List.range bytes.length).all fun i => populated (off + i) then s.storeBytes off bytes
    else
      let put (m : Mem) (e : Byte × Nat) : Mem := if populated (off + e.2) then Memory.write m (off + e.2) e.1 else m
      { s with
        mem := bytes.zipIdx.foldl put s.mem
        poison := s.poison.filter fun l => !(decide (off ≤ 64 * l) && decide (64 * l + 64 ≤ off + bytes.length)) })

end Sys2Proof.Machine
end

