-- ==== Sys2Proof/Machine/Debug.lean ====
section
/-! DEFINITION. The debug call window's commands, and the registers of the call windows (R27, R28, R30, R478 to R486). -/

namespace Sys2Proof.Machine

/-! ### Acceptance (R478, R479) -/

/-- A debug GO refused: ENG_CMD in WSTATUS. -/
def State.debugRefuse (s : State) : State := { s with dbgWin := s.dbgWin.refuse .engCmd }

/-- A debug GO accepted, its effect complete. -/
def State.debugAccept (s : State) : State :=
  { s with dbgWin := { s.dbgWin with accepted := true, count := s.dbgWin.count + 1 } }

/-- A debug GO: its arguments stand in the window; refused where its fields or its context are not as it needs, else its
effect and its acceptance. -/
def State.debugGo (s : State) (a0 a1 a2 : DWord) (ok : State → Bool) (k : State → State) : State :=
  let s := { s with dbgWin := { s.dbgWin with a0 := a0, a1 := a1, a2 := a2 } }
  if s.bootFail || !ok s then s.debugRefuse else (k s).debugAccept

/-- Whether the effect of a HALT or STEP is complete: what it halts has stopped, and a group resumed for one instruction has issued it
and been halted again. A workgroup with no ISSUING lane, or one that is not resident, is halted later, and is not waited for (R479, R481,
R482; DESIGN CHOICE, log 15). -/
def State.debugDone (s : State) (q : Nat × Nat × Nat) : Bool :=
  (s.wgs.filter fun g => g.ctx = q.2.1 && g.resident && (q.2.2 = 0xFFFFFFFF || g.linear = q.2.2)).all fun g =>
    !(g.trap.any fun t => !t.entered && (t.debug || q.1 = 4))
      && (q.1 = 2 || g.warps.all fun v => v.stepping = 0 || v.ring.all v.groupWaits)

/-- A HALT or STEP that is under way accepted once its effect is complete (R479). -/
def State.debugSettle (s : State) : State :=
  match s.dbgWork with
  | some q => if s.debugDone q then { s with dbgWork := none }.debugAccept else s
  | none => s

/-- As `debugGo`, for a command whose effect may take time (R479). -/
def State.debugBegin (s : State) (op : Nat) (a0 a1 : DWord) (ok : State → Bool) (k : State → State) : State :=
  let s := { s with dbgWin := { s.dbgWin with a0 := a0, a1 := a1, accepted := false } }
  if s.bootFail || !ok s then s.debugRefuse else { k s with dbgWork := some (op, a0.toNat, a1.toNat) }.debugSettle

/-- The GO of a debug opcode (R478). -/
def debugWord (op : Nat) : DWord := dwordOf (0x10 + 2 ^ 8 * 0xFF + 2 ^ 16 * op)

/-- A GO given to the debug call window: held while an earlier one is not accepted (R28, R479). -/
def State.debugEvent (s : State) (op : Nat) (a0 a1 a2 : DWord) (k : State → State) : State :=
  if s.dbgWork.isNone then k s
  else
    let w := s.dbgWin
    { s with dbgWin := { w with a0 := a0, a1 := a1, a2 := a2, held := w.held ++ [(debugWord op, a0, a1, a2, w.a3)] } }

/-- Whether a context is attached (R478). -/
def State.attached (s : State) (ctx : Nat) : Bool := (s.ctx? ctx).any fun c => (Context.debug c).isSome

/-- Workgroups of a context that are halted for debug, those saved so included (R480). -/
def State.debugHalted (s : State) (ctx : Nat) : List Workgroup :=
  s.wgs.filter fun g => g.ctx = ctx && g.trap.any fun t => t.debug && t.recorded

/-- The workgroup a GO names, halted for debugging. -/
def State.debugWg (s : State) (ctx wg : Nat) : Option Workgroup := (s.debugHalted ctx).find? fun g => g.linear = wg

/-- ATTACH (R478, R480). -/
def State.debugAttach (s : State) (a0 a1 a2 : DWord) : State :=
  let n := a0.toNat
  s.debugGo a0 a1 a2
    (fun s => n < 1024 && a1.toNat % 4096 = 0 && a2.toNat % 4096 = 0 && (s.ctx? n).isSome && !s.attached n)
    fun s => s.updCtx n fun c => { c with debug := some { ring := a1, base := a2, count := 0 } }

/-- ATTACH given to the debug call window. -/
def execAttach (a0 a1 a2 : DWord) (s : State) : Host.Outcome State Fault Refusal :=
  .next (s.debugEvent 0 a0 a1 a2 fun s => s.debugAttach a0 a1 a2)

/-! ### RESUME and DETACH (R477, R482) -/

/-- The halt of a workgroup ended, once the whole of it has stopped; what a saved one files goes to its gang. -/
def State.resumeWg (s : State) (g : Workgroup) : State :=
  match g.trap, s.launch? g.launch with
  | some t, some l =>
    let s := (if t.entered then s else s.haltRest g t).endTrap g.id
    if g.resident then s
    else match s.wg? g.id with
    | some g => s.takeReforms l g.gang g
    | none => s
  | _, _ => s

/-- RESUME (R482). -/
def State.debugResume (s : State) (a0 a1 : DWord) : State :=
  let n := a0.toNat
  s.debugGo a0 a1 s.dbgWin.a2
    (fun s => n < 1024 && a1.toNat < 2 ^ 32 && s.attached n && (s.debugWg n a1.toNat).isSome)
    fun s => match s.debugWg n a1.toNat with
      | some g => s.resumeWg g
      | none => s

/-- RESUME given to the debug call window. -/
def execResume (a0 a1 : DWord) (s : State) : Host.Outcome State Fault Refusal :=
  .next (s.debugEvent 3 a0 a1 s.dbgWin.a2 fun s => s.debugResume a0 a1)

/-- The debug halts of one workgroup ended, the halts within handlers too. -/
def State.resumeAll : Nat → State → Nat → State
  | 0, s, _ => s
  | k + 1, s, wg =>
    match s.wg? wg with
    | some g => if g.trap.any TrapState.debug then State.resumeAll k (s.resumeWg g) wg else s
    | none => s

/-- A comparator of a context turned off (R477). -/
def clearPcmp (ctx : Nat) (p : Word × Nat) : Word × Nat := if p.2 = ctx then (p.1 &&& 0xFFFFFFFC, p.2) else p

/-- DETACH (R477, R482). -/
def State.debugDetach (s : State) (a0 : DWord) : State :=
  let n := a0.toNat
  s.debugGo a0 s.dbgWin.a1 s.dbgWin.a2 (fun s => n < 1024 && s.attached n) fun s =>
    let gs := s.wgs.filter fun g => g.ctx = n
    let s := gs.foldl (fun s g => State.resumeAll (g.outer.length + 1) s g.id) s
    let clear (c : Core) : Core := { c with pcmp := c.pcmp.map (clearPcmp n) }
    let calm (g : Workgroup) : Workgroup := { g with pendHalt := false }
    ({ s with cores := s.cores.map clear, wgs := mapIf (fun g => g.ctx = n) calm s.wgs }).updCtx n fun c =>
      { c with debug := none, trace := none }

/-- DETACH given to the debug call window. -/
def execDetach (a0 : DWord) (s : State) : Host.Outcome State Fault Refusal :=
  .next (s.debugEvent 1 a0 s.dbgWin.a1 s.dbgWin.a2 fun s => s.debugDetach a0)

/-! ### HALT and STEP (R481, R482) -/

/-- The ISSUING lanes of a warp of a workgroup in the current issue group of a reformed group, by position. -/
def State.awayLanes (s : State) (g : Workgroup) (w : Nat) : List LaneRef :=
  (s.core g.core).groups.flatMap fun q =>
    ((q.groups.head?.map Group.lanes).getD []).filterMap fun p =>
      (q.lanes.getD p none).filter fun r => r.wg = g.id && r.warp = w && (s.lane? r).any Lane.issuing

/-- The lane in which HALT raises STEP: the lowest ISSUING one of the current group of the lowest warp that has one, at home or in a
reformed group (R481). -/
def State.haltAt (s : State) (g : Workgroup) : Option LaneRef :=
  (g.warps.zipIdx).findSome? fun v =>
    let home : Option LaneRef := ((v.1.ring.find? fun q => q.gid = v.1.current).bind fun q =>
      if v.1.groupWaits q then none else q.lanes.find? fun p => (v.1.lanes[p]?).any Lane.issuing).map fun p => ⟨g.id, v.2, p⟩
    home.or (s.awayLanes g v.2).head?

/-- HALT on one workgroup: at once, or when a lane next becomes ISSUING, or at its restore; or when fewer than 64 workgroups stand
halted for debug (R480, R481). -/
def State.haltWg (s : State) (g : Workgroup) : State :=
  if g.trap.isSome then s
  else match (if g.resident && !s.debugFull g.ctx g.id then s.haltAt g else none) with
  | some r => s.raise [⟨r, .step, 0⟩]
  | none => s.updWg g.id fun g => { g with pendHalt := true }

/-- HALT (R481). -/
def State.debugHalt (s : State) (a0 a1 : DWord) : State :=
  let n := a0.toNat
  s.debugBegin 2 a0 a1 (fun s => n < 1024 && a1.toNat < 2 ^ 32 && s.attached n) fun s =>
    (s.wgs.filter fun g => g.ctx = n && !g.kept && (a1.toNat = 0xFFFFFFFF || g.linear = a1.toNat)).foldl (fun s g => s.haltWg g) s

/-- HALT given to the debug call window. -/
def execHalt (a0 a1 : DWord) (s : State) : Host.Outcome State Fault Refusal :=
  .next (s.debugEvent 2 a0 a1 s.dbgWin.a2 fun s => s.debugHalt a0 a1)

/-- A warp resumed for one instruction: only its current group issues, its other lanes stay HALTED. -/
def Warp.stepOne (inner : Option Bool) (v : Warp) (fresh : Nat) : Warp :=
  let t := match inner with
    | none => v.resume fresh
    | some handler => v.resumeInner handler fresh
  let mine := ((t.ring.find? fun q => q.gid = t.current).map Group.lanes).getD []
  let keep (e : Lane × Nat) : Lane :=
    if mine.contains e.2 then e.1
    else match e.1.st with
    | .exited | .parked _ _ _ => e.1
    | _ => { e.1 with halted := true, trappc := e.1.pc }
  { t with lanes := t.lanes.zipIdx.map keep, stepping := 1 }

/-- STEP on a halted workgroup: what came true for the group during the halt reaches it (R379, R482). -/
def State.stepWg (s : State) (g : Workgroup) (t : TrapState) : State :=
  let s := (if t.entered then s else s.haltRest g t).emptyLatches g
  let inner := if g.outer = [] then none else some t.handler
  let s := s.updWarp g.id t.warp fun v => v.stepOne inner s.seq
  let s := { s with seq := s.seq + 1200 }
  let s := s.updWg g.id fun g => { g with trap := g.outer.head?, outer := g.outer.drop 1 }
  let s := if g.outer = [] then s.updCore g.core fun c => { c with handler := c.handler.filter fun h => h.2.2.1 != g.id } else s
  let s := s.traceRecord g.ctx (s.laneIdentity g.ctx g.core ⟨g.id, t.warp, 0⟩ true (((s.warp? g.id t.warp).map Warp.active).getD 0))
    5 0 0 0 0
  (s.flushDebug g.ctx).afterHalt g.id

/-- STEP (R482). -/
def State.debugStep (s : State) (a0 a1 : DWord) : State :=
  let n := a0.toNat
  s.debugBegin 4 a0 a1
    (fun s => n < 1024 && a1.toNat < 2 ^ 32 && s.attached n && (s.debugWg n a1.toNat).isSome)
    fun s => match s.debugWg n a1.toNat, (s.debugWg n a1.toNat).bind Workgroup.trap with
      | some g, some t => s.stepWg g t
      | _, _ => s

/-- STEP given to the debug call window. -/
def execStep (a0 a1 : DWord) (s : State) : Host.Outcome State Fault Refusal :=
  .next (s.debugEvent 4 a0 a1 s.dbgWin.a2 fun s => s.debugStep a0 a1)

/-! ### SNAPSHOT, DICT and TRACE (R483 to R486) -/

/-- SNAPSHOT (R483): a save area of the blocks named, in host memory; the machine's state is unchanged but for it. -/
def State.debugSnapshot (s : State) (a0 a1 a2 : DWord) : State :=
  let n := a0.toNat
  s.debugGo a0 a1 a2
    (fun s => n < 1024 && a1.toNat < 2 ^ 32 && a2.toNat % 4096 = 0 && s.attached n && (s.debugWg n a1.toNat).isSome)
    fun s => match s.ctx? n, s.debugWg n a1.toNat with
      | some c, some g =>
        s.writeBlocks (Config.hostBase + a2.toNat) (contextBlock c :: g.blocks (s.scratchBytes g) ++ [⟨.other, 11, 0, []⟩])
      | _, _ => s

/-- SNAPSHOT given to the debug call window. -/
def execSnapshot (a0 a1 a2 : DWord) (s : State) : Host.Outcome State Fault Refusal :=
  .next (s.debugEvent 5 a0 a1 a2 fun s => s.debugSnapshot a0 a1 a2)

/-- What DICT writes: the header of R484 and 1,024 entries. -/
def State.dictDump (s : State) (core ctx slot : Nat) : List Byte :=
  let d := s.slotOf core ctx slot
  let state := match d with | none => 0 | some d => if d.emptied then 2 else 1
  let img := if state = 1 then ((d.bind DictSlot.image).getD []) else []
  let entry (i : Nat) : Template := if i < 0x40 then fixedTemplate i else imageEntry img i
  leBytes 2 core ++ leBytes 1 slot ++ leBytes 1 state ++ leBytes 4 ((d.map DictSlot.loads).getD 0)
    ++ leBytes 2 ((d.map DictSlot.rejected).getD 0) ++ List.replicate 6 0
    ++ (List.range 1024).flatMap fun i => leBytes 16 (entry i).toNat

/-- Whether a context uses a core: it has a workgroup or a slot there. -/
def State.usesCore (s : State) (ctx core : Nat) : Bool :=
  s.wgs.any (fun g => g.ctx = ctx && g.core = core && g.resident) || (s.core core).slots.any fun d => d.ctx = ctx

/-- Whether DICT must wait: a DICTLD is still loading into the slot it names (R484). -/
def State.dictLoading (s : State) (a0 : DWord) : Bool :=
  (s.core (argBits a0 10 11)).jobs.any fun j => j.ctx = argBits a0 0 10 && j.prog = argBits a0 21 2

/-- DICT (R484). -/
def State.debugDict (s : State) (a0 a2 : DWord) : State :=
  let n := argBits a0 0 10
  let core := argBits a0 10 11
  let ok (s : State) : Bool := a0.toNat < 2 ^ 23 && a2.toNat % 4096 = 0 && s.attached n && s.usesCore n core
  if s.dictLoading a0 && ok s then s
  else s.debugGo a0 s.dbgWin.a1 a2 ok fun s => s.storeBytes (Config.hostBase + a2.toNat) (s.dictDump core n (argBits a0 21 2))

/-- DICT given to the debug call window. -/
def execDict (a0 a2 : DWord) (s : State) : Host.Outcome State Fault Refusal :=
  .next (s.debugEvent 6 a0 s.dbgWin.a1 a2 fun s => s.debugDict a0 a2)

/-- TRACE (R485): a buffer of 0 bytes stops the trace, another starts it with an empty header. -/
def State.debugTrace (s : State) (a0 a1 a2 : DWord) : State :=
  let n := a0.toNat
  let bytes := a2.toNat
  s.debugGo a0 a1 a2
    (fun s => n < 1024 && bytes < 2 ^ 32 && s.attached n
      && (bytes = 0 || (a1.toNat % 4096 = 0 && bytes % 4096 = 0 && 8192 ≤ bytes && region a1.toNat = .paged)))
    fun s =>
      if bytes = 0 then s.updCtx n fun c => { c with trace := none }
      else
        let s := match s.lookup n .w a1.toNat with
          | .ok p _ => s.storeBytes p (List.replicate 64 0)
          | _ => s
        s.updCtx n fun c => { c with trace := some { buf := a1, bytes := bytes, written := 0, dropped := 0 } }

/-- TRACE given to the debug call window. -/
def execTrace (a0 a1 a2 : DWord) (s : State) : Host.Outcome State Fault Refusal :=
  .next (s.debugEvent 7 a0 a1 a2 fun s => s.debugTrace a0 a1 a2)

/-! ### A GO written to the debug call window (R28, R30, R478) -/

/-- Whether a GO keeps the field rules of R478. -/
def debugGoOk (go : DWord) : Bool := goClass go = 0x10 && goUnit go = 0xFF && argBits go 24 40 = 0

/-- A debug GO with its arguments: refused where it breaks R478, else the command it names. -/
def State.debugCall (s : State) (go a0 a1 a2 : DWord) : State :=
  if !debugGoOk go then s.debugRefuse
  else match goOpcode go with
  | 0 => s.debugAttach a0 a1 a2
  | 1 => s.debugDetach a0
  | 2 => s.debugHalt a0 a1
  | 3 => s.debugResume a0 a1
  | 4 => s.debugStep a0 a1
  | 5 => s.debugSnapshot a0 a1 a2
  | 6 => s.debugDict a0 a2
  | 7 => s.debugTrace a0 a1 a2
  | _ => s.debugRefuse

/-- Whether a GO names for SNAPSHOT a workgroup that has not stopped yet. -/
def State.snapshotEarly (s : State) (go a0 a1 : DWord) : Bool :=
  goOpcode go = 5 && (s.debugWg a0.toNat a1.toNat).any fun g => g.resident && g.trap.any fun t => !t.entered

/-- The debug GOs that are held, oldest first, taken up to one that is to wait (R479, R483, R484). -/
def State.serveDebug : Nat → State → State
  | 0, s => s.debugSettle
  | n + 1, s =>
    let s := s.debugSettle
    match s.dbgWin.held with
    | [] => s
    | (go, a0, a1, a2, _) :: rest =>
      if s.dbgWork.isSome || (debugGoOk go && (s.snapshotEarly go a0 a1 || (goOpcode go = 6 && s.dictLoading a0))) then s
      else
        let w := s.dbgWin
        let t := ({ s with dbgWin := { w with held := rest } }).debugCall go a0 a1 a2
        State.serveDebug n { t with dbgWin := { t.dbgWin with a0 := w.a0, a1 := w.a1, a2 := w.a2 } }

/-- A GO written to the debug call window, with the arguments that stand there (R28, R30). -/
def State.writeDebugGo (s : State) (go : DWord) : State :=
  let w := s.dbgWin
  State.serveDebug (w.held.length + 1)
    { s with dbgWin := { w with held := w.held ++ [(go, w.a0, w.a1, w.a2, w.a3)], accepted := false } }

/-- REGISTER_WRITE (R27, R28): an argument of a call window is written, or a GO of the debug call window; a write elsewhere is
ignored, a GO of a host call window and DRESET having steps of their own. -/
def execRegisterWrite (off : Nat) (v : DWord) (s : State) : Host.Outcome State Fault Refusal :=
  let k := off % 0x40 / 8
  .next (if off = 0x11020 then s.writeDebugGo v
    else if off % 8 != 0 || 4 ≤ k then s
    else if 0x1000 ≤ off && off < 0x11000 then
      let n := (off - 0x1000) / 0x40
      s.setWindow n ((s.window n).setArg k v)
    else if 0x11000 ≤ off && off < 0x11040 then { s with dbgWin := s.dbgWin.setArg k v }
    else s)

end Sys2Proof.Machine
end

