-- ==== Sys2Proof/Machine/Ethernet.lean ====
section
/-! DEFINITION. The Ethernet ports: frames received, acknowledged, discarded and resent (R24, R32 to R34, R277, R293). -/

namespace Sys2Proof.Machine

/-! ### Frames (R32, R33) -/

/-- Whether a frame is a vault-transfer frame at one of the two ports (R32, R33). -/
def EthFrame.transfers (f : EthFrame) : Bool :=
  let h := headerOf f
  f.port < 2 && f.ipv6Udp && f.dstPort = 47350 && 32 ≤ f.bytes.length && h.magic = 0x4F565846 && h.version = 1 && 1 ≤ h.op && h.op ≤ 4
    && h.len ≤ 4096 && h.resv = 0 && (payloadOf f).length = (if h.op = 1 || h.op = 3 then h.len else 0)

/-- The sequence number with which a flow of frames received from a node is to continue (R34). -/
def State.rxNext (s : State) (node flow : Nat) : Nat :=
  ((s.rxFlows.find? fun p => p.1 = node && p.2.1 = flow).map fun p => p.2.2).getD 0

/-- Whether a frame is a transfer of one kind, next in its flow's order (R34). One already accepted that comes again is no longer next:
it is ignored, and not acknowledged again (DESIGN CHOICE, log 7). -/
def State.accepts (s : State) (op : Nat) (f : EthFrame) : Bool :=
  EthFrame.transfers f && (headerOf f).op = op && (headerOf f).seq = s.rxNext f.node (headerOf f).flow

/-- An answer to a frame, through its port to its node: read data and acknowledgements carry FLOW and SEQ of the frame they answer
(DESIGN CHOICE, log 7). -/
def EthFrame.answer (f : EthFrame) (op : Nat) (payload : List Byte) : EthFrame :=
  frameTo f.port f.node { headerOf f with op := op, len := payload.length } payload

/-- A frame sent that waits for nothing. -/
def State.emit (s : State) (f : EthFrame) : State := { s with ethOut := s.ethOut ++ [f] }

/-- A frame accepted: its flow moves on, and it is acknowledged (R34). -/
def State.acceptFrame (s : State) (f : EthFrame) : State :=
  let h := headerOf f
  let others := s.rxFlows.filter fun (p : Nat × Nat × Nat) => !(p.1 = f.node && p.2.1 = h.flow)
  ({ s with rxFlows := others ++ [(f.node, h.flow, (h.seq + 1) % 2 ^ 32)] }).emit (EthFrame.answer f 4 [])

/-- The physical address of a range of an exported window. -/
def State.exportedAt (s : State) (f : EthFrame) : Option Nat :=
  let h := headerOf f
  (s.exported.find? fun e => e.window.toNat = h.window && decide (h.offset + h.len ≤ e.bytes)).map fun e => e.phys + h.offset

/-- ETH_WRITE_FRAME (R33, R34): the payload is written to the window it names; outside every window it writes nothing. -/
def execEthWriteFrame (frame : EthFrame) (s : State) : Host.Outcome State Fault Refusal :=
  .next (if !s.accepts 1 frame then s
    else
      let s := match s.exportedAt frame with
        | some p => s.storeBytes p (payloadOf frame)
        | none => s
      s.acceptFrame frame)

/-- The bytes a read request is answered with: free values where the line is poisoned (log 14). -/
def State.exportBytes (s : State) (p n : Nat) : List Byte :=
  (List.range n).map fun i => if s.poisoned (p + i) then Config.freeByte (s.freeCount + i) else Memory.read s.mem (p + i)

/-- ETH_READ_REQUEST (R33, R34): acknowledged, and answered with read data, which is held until it is acknowledged in turn. -/
def execEthReadRequest (frame : EthFrame) (s : State) : Host.Outcome State Fault Refusal :=
  .next (if !s.accepts 2 frame then s
    else
      let h := headerOf frame
      let t := s.acceptFrame frame
      match s.exportedAt frame with
      | some p =>
        let t := if s.poisonedRange p h.len then { t with freeCount := t.freeCount + h.len } else t
        t.holdFrame (t.txFlow h.flow frame.node true) none (EthFrame.answer frame 3 (s.exportBytes p h.len))
      | none => t)

/-! ### The frames of copies (R34, R277, R293) -/

/-- Change the frames of a flow that this device sends. -/
def State.updFrames (s : State) (flow node : Nat) (data : Bool) (f : List TxFrame → List TxFrame) : State :=
  let here (t : TxFlow) : Bool := t.flow = flow && t.node = node && t.data = data
  { s with txFlows := mapIf here (fun t => { t with frames := f t.frames }) s.txFlows }

/-- Whether a held frame has a sequence number. -/
def TxFrame.numbered (seq : Nat) (f : TxFrame) : Bool := (headerOf f.frame).seq = seq

/-- A held frame of a flow, by its sequence number. -/
def State.txFrame? (s : State) (flow node : Nat) (data : Bool) (seq : Nat) : Option TxFrame :=
  (s.txFlow flow node data).frames.find? (TxFrame.numbered seq)

/-- A portion at a peer, or from one, has landed. -/
def State.landRemote (s : State) (f : TxFrame) : State :=
  match f.portion.bind fun p => (s.cmd? p.1).map fun c => (c, p.2) with
  | none => s
  | some (c, p) =>
    ((s.updCmd c.id fun k => { k with work := k.work.addLanded p false }).landBytes c.id (headerOf f.frame).len).leaveOrder c

/-- What a held frame's acknowledgement, or its data, does: a frame with all it waits for is dropped, and its portion has landed
(R34, R293). -/
def State.markFrame (s : State) (flow node : Nat) (data : Bool) (f : TxFrame) : State :=
  let seq := (headerOf f.frame).seq
  if f.acked && f.answered then
    (s.updFrames flow node data fun l => l.filter fun q => !q.numbered seq).landRemote f
  else s.updFrames flow node data (mapIf (TxFrame.numbered seq) fun _ => f)

/-- ETH_ACKNOWLEDGE (R34): of a frame of this device, or else of read data it has sent (DESIGN CHOICE, log 7). -/
def execEthAcknowledge (frame : EthFrame) (s : State) : Host.Outcome State Fault Refusal :=
  let h := headerOf frame
  .next (if !(EthFrame.transfers frame && h.op = 4) then s
    else match s.txFrame? h.flow frame.node false h.seq, s.txFrame? h.flow frame.node true h.seq with
    | some f, _ => s.markFrame h.flow frame.node false { f with acked := true }
    | none, some f => s.markFrame h.flow frame.node true { f with acked := true }
    | none, none => s)

/-- The oldest request of a flow whose data has not come. -/
def State.asked? (s : State) (flow node : Nat) : Option TxFrame := (s.txFlow flow node false).frames.find? fun f => !f.answered

/-- The portions of a command whose bytes have come and not yet counted. -/
def State.arrived (s : State) (cmd : Nat) : List Nat :=
  s.txFlows.flatMap fun t => t.frames.filterMap fun f =>
    if f.answered && (headerOf f.frame).op = 2 then (f.portion.filter fun p => p.1 = cmd).map Prod.snd else none

/-- The bytes of read data stored at their portion's destination (R277). -/
def State.storeArrived (s : State) (f : TxFrame) (payload : List Byte) : State :=
  match f.portion.bind fun p => (s.cmd? p.1).map fun c => (c, p.2) with
  | none => s
  | some (c, p) =>
    match c.work with
    | .copy _ dst _ len rows ds _ dsp _ landed bad =>
      match portionAt dst.toNat len rows ds p with
      | none => s
      | some q =>
        match s.operandPhys c.ctx c.lane.wg dsp q.lo with
        | none => s
        | some phys =>
          let whole := coversLine dst.toNat len rows ds (q.lo / 64) (landed ++ s.arrived c.id ++ [p]) bad
          s.storePortion phys (payload.take (q.hi - q.lo)) false whole
    | _ => s

/-- ETH_READ_DATA (R33, R34, R277): accepted for the oldest request of its flow, it is acknowledged, and its payload is stored at the
portion's destination. -/
def execEthReadData (frame : EthFrame) (s : State) : Host.Outcome State Fault Refusal :=
  let h := headerOf frame
  .next (if !(EthFrame.transfers frame && h.op = 3) then s
    else match s.asked? h.flow frame.node with
    | none => s
    | some f =>
      if !f.numbered h.seq then s
      else ((s.storeArrived f (payloadOf frame)).emit (EthFrame.answer frame 4 [])).markFrame h.flow frame.node false
        { f with answered := true })

/-- ETH_FRAME_DISCARD (R32): a frame that is no vault-transfer frame is counted. -/
def execEthFrameDiscard (frame : EthFrame) (s : State) : Host.Outcome State Fault Refusal :=
  .next (if EthFrame.transfers frame then s else { s with discards := s.discards + 1 })

/-- The command of a frame that eight resends did not deliver ends with ERR; what was delivered stays (R34). -/
def State.giveUp (s : State) (cmd : Nat) : State :=
  let drop (t : TxFlow) : TxFlow := { t with frames := t.frames.filter fun f => !f.portion.any fun p => p.1 = cmd }
  let s := { s with txFlows := s.txFlows.map drop }
  match s.cmd? cmd with
  | none => s
  | some c => (((s.updCmd cmd fun k => { k with err := true }).endCommand cmd).settle).leaveOrder c

/-- A frame sent once more. -/
def TxFrame.resent (f : TxFrame) : TxFrame := { f with resends := f.resends + 1 }

/-- RESEND_TIMEOUT (R34): the oldest frame without an acknowledgement and every later one are sent again, up to 8 times a frame. Read
data that is never acknowledged is dropped then (DESIGN CHOICE, log 7). -/
def execResendTimeout (flow : FlowKey) (s : State) : Host.Outcome State Fault Refusal :=
  let t := s.txFlow flow.flow flow.node flow.data
  .next (match t.frames.dropWhile TxFrame.acked with
    | [] => s
    | f :: rest =>
      if f.resends < 8 then
        State.setTxFlow { s with ethOut := s.ethOut ++ (f :: rest).map TxFrame.frame }
          { t with frames := t.frames.takeWhile TxFrame.acked ++ (f :: rest).map TxFrame.resent }
      else match f.portion with
      | some p => s.giveUp p.1
      | none => State.setTxFlow s { t with frames := t.frames.filter fun q => q != f })

end Sys2Proof.Machine
end

