-- ==== Sys2Proof/Machine/Boot.lean ====
section
/-! DEFINITION. Reset, verified and measured boot, and attestation (R35, R36): SHA-256 and ECDSA over P-256 as their
standards give them (log 10). -/

namespace Sys2Proof.Machine

/-! ### SHA-256 -/

/-- The largest number below 2^n whose `power` does not exceed `limit`: its bits are tried from the top. -/
def rootBits (power limit : Nat) : Nat → Nat → Nat
  | 0, r => r
  | n + 1, r => rootBits power limit n (if (r + 2 ^ n) ^ power ≤ limit then r + 2 ^ n else r)

/-- The primes below 312. -/
def smallPrimes : List Nat :=
  (List.range 312).filter fun n => decide (2 ≤ n) && (List.range 18).all fun d => decide (d < 2 || n ≤ d) || n % d != 0

/-- The first 32 bits of the fraction of a root of a prime. -/
def rootWord (power p : Nat) : Word := wordOf (rootBits power (p * 2 ^ (32 * power)) 40 0)

/-- The `n` big-endian bytes of a value. -/
def beBytes (n v : Nat) : List Byte := (leBytes n v).reverse

/-- The value of big-endian bytes. -/
def beNat (bs : List Byte) : Nat := bs.foldl (fun n b => 256 * n + b.toNat) 0

/-- The chaining value, and the working variables of a block. -/
structure Digest where
  a : Word
  b : Word
  c : Word
  d : Word
  e : Word
  f : Word
  g : Word
  h : Word
  deriving DecidableEq, Repr

def Digest.words (v : Digest) : List Word := [v.a, v.b, v.c, v.d, v.e, v.f, v.g, v.h]

def Digest.ofWords (l : List Word) : Digest :=
  let n := fun i => l.getD i 0
  ⟨n 0, n 1, n 2, n 3, n 4, n 5, n 6, n 7⟩

/-- A word turned right by each of some distances, the results combined. -/
def turns (ns : List Nat) (x : Word) : Word := ns.foldl (fun r n => r ^^^ x.rotateRight n) 0

/-- One round, with its constant and its message word. -/
def Digest.round (v : Digest) (k w : Word) : Digest :=
  let choice := (v.e &&& v.f) ||| (~~~ v.e &&& v.g)
  let majority := (v.a &&& (v.b ||| v.c)) ||| (v.b &&& v.c)
  let x := v.h + turns [25, 11, 6] v.e + choice + k + w
  { v with a := x + turns [22, 13, 2] v.a + majority, b := v.a, c := v.b, d := v.c, e := v.d + x, f := v.e, g := v.f, h := v.g }

/-- The message word that enters the window of the last sixteen. -/
def nextWord (w : List Word) : Word :=
  let near := w.getD 14 0
  let far := w.getD 1 0
  w.headD 0 + w.getD 9 0 + (turns [19, 17] near ^^^ near >>> 10) + (turns [18, 7] far ^^^ far >>> 3)

/-- The rounds of a block: the window of message words moves on with each. -/
def Digest.rounds : List Word → List Word → Digest → Digest
  | [], _, v => v
  | k :: ks, w, v => Digest.rounds ks (w.drop 1 ++ [nextWord w]) (v.round k (w.headD 0))

/-- A block of 64 bytes taken into the chaining value. -/
def Digest.absorb (ks : List Word) (v : Digest) (block : List Byte) : Digest :=
  let w := (List.range 16).map fun i => wordOf (beNat ((block.drop (4 * i)).take 4))
  Digest.ofWords ((v.words.zip (Digest.rounds ks w v).words).map fun p => p.1 + p.2)

/-- SHA-256 of bytes. -/
def sha256 (m : List Byte) : List Byte :=
  let zeros := (119 - m.length % 64) % 64
  let p := m ++ 0x80 :: List.replicate zeros 0 ++ beBytes 8 (8 * m.length)
  let start := Digest.ofWords ((smallPrimes.take 8).map (rootWord 2))
  let ks := smallPrimes.map (rootWord 3)
  let last := (List.range (p.length / 64)).foldl (fun v i => v.absorb ks ((p.drop (64 * i)).take 64)) start
  last.words.flatMap fun w => beBytes 4 w.toNat

/-! ### P-256 -/

def p256P : Nat := 0xffffffff00000001000000000000000000000000ffffffffffffffffffffffff
def p256N : Nat := 0xffffffff00000000ffffffffffffffffbce6faada7179e84f3b9cac2fc632551
def p256B : Nat := 0x5ac635d8aa3a93e7b3ebbd55769886bc651d06b0cc53b0f63bce3c3e27d2604b
def p256G : Nat × Nat :=
  (0x6b17d1f2e12c4247f8bce6e563a440f277037d812deb33a0f4a13945d898c296,
   0x4fe342e2fe1a7f9b8ee7eb4a7c0f9e162bce33576b315ececbb6406837bf51f5)

/-- b to the power e modulo m, over the bits of e below 2^k. -/
def powMod (m : Nat) : Nat → Nat → Nat → Nat
  | 0, _, _ => 1
  | k + 1, b, e => (if e % 2 = 1 then b else 1) * powMod m k (b * b % m) (e / 2) % m

/-- The inverse modulo a prime below 2^256. -/
def invMod (m a : Nat) : Nat := powMod m 256 (a % m) (m - 2)

/-- The sum of two points of the curve; none is the point at infinity. -/
def p256Add (a b : Option (Nat × Nat)) : Option (Nat × Nat) :=
  match a, b with
  | none, q => q
  | p, none => p
  | some (x1, y1), some (x2, y2) =>
    if x1 = x2 && (y1 + y2) % p256P = 0 then none
    else
      let num := if x1 = x2 then 3 * x1 * x1 + (p256P - 3) else y2 + (p256P - y1)
      let den := if x1 = x2 then 2 * y1 else x2 + (p256P - x1)
      let l := num % p256P * invMod p256P den % p256P
      let x := (l * l + 2 * p256P - x1 - x2) % p256P
      some (x, (l * (x1 + p256P - x) + (p256P - y1)) % p256P)

/-- A multiple of a point, over the bits of the factor below 2^k. -/
def p256Mul : Nat → Nat → Option (Nat × Nat) → Option (Nat × Nat)
  | 0, _, _ => none
  | k + 1, n, p => p256Add (if n % 2 = 1 then p else none) (p256Mul k (n / 2) (p256Add p p))

/-- Whether a public key is a point of the curve. -/
def p256On (q : Nat × Nat) : Bool :=
  q.1 < p256P && q.2 < p256P && q.2 * q.2 % p256P = (q.1 * q.1 * q.1 + (p256P - 3) * q.1 + p256B) % p256P

/-- ECDSA verification of a digest under a public key of 64 bytes. -/
def ecdsaVerify (key digest : List Byte) (r s : Nat) : Bool :=
  let q := (beNat (key.take 32), beNat (key.drop 32))
  if key.length != 64 || !p256On q || r = 0 || s = 0 || p256N ≤ r || p256N ≤ s then false
  else
    let w := invMod p256N s
    let u1 := beNat digest * w % p256N
    let u2 := r * w % p256N
    match p256Add (p256Mul 256 u1 (some p256G)) (p256Mul 256 u2 (some q)) with
    | none => false
    | some (x, _) => x % p256N = r

/-- ECDSA signature of a digest with a private key and a nonce. -/
def ecdsaSign (key digest : List Byte) (k : Nat) : Nat × Nat :=
  match p256Mul 256 k (some p256G) with
  | none => (0, 0)
  | some (x, _) =>
    let r := x % p256N
    (r, invMod p256N k * (beNat digest + r * beNat key) % p256N)

/-! ### RESET (R35, R36) -/

/-- M after a stage whose digest is `d` (R36). -/
def extendM (m d : List Byte) : List Byte := sha256 (m ++ d)

/-- Whether stage 1 passes: its key is the fused one and its signature holds (R35). -/
def stage1Ok (b : BootInput) : Bool :=
  sha256 b.stage1.key = Config.fusedKeyHash && ecdsaVerify b.stage1.key (sha256 b.stage1.image) b.stage1.sigR b.stage1.sigS

/-- Whether stage 2 passes: its key is signed under the fused key, and its signature under that key holds (R35). -/
def stage2Ok (b : BootInput) : Bool :=
  ecdsaVerify b.stage1.key (sha256 b.stage2.key) b.keySigR b.keySigS
    && ecdsaVerify b.stage2.key (sha256 b.stage2.image) b.stage2.sigR b.stage2.sigS

/-- RESET (R35, R36): the device is reset and boots; a check that fails leaves it in recovery. -/
def execReset (boot : BootInput) (s : State) : Host.Outcome State Fault Refusal :=
  let t := s.afterReset
  .next (if !stage1Ok boot then { t with bootFail := true, recovery := true }
    else
      let m1 := extendM t.measure (sha256 boot.stage1.image)
      if !stage2Ok boot then { t with bootFail := true, recovery := true, measure := m1 }
      else { t with booted := true, measure := extendM m1 (sha256 boot.stage2.image) })

/-- DEVID (R27). -/
def devid : Nat := 0xC0A6 + 65536 * Config.siliconRevision.toNat

/-- ATTESTATION_REPORT (R36): M, DEVID and the nonce, signed with the identity key; the nonce of the signature is a free
value (log 10, log 14). -/
def execAttestationReport (nonce : List Byte) (s : State) : Host.Outcome State Fault Refusal :=
  let report := s.measure ++ leBytes 8 devid ++ nonce
  let k := (List.range 8).foldl (fun n i => 2 ^ 32 * n + (Config.freeWord (s.freeCount + i)).toNat) 0 % (p256N - 1) + 1
  let sig := ecdsaSign (beBytes 32 Config.identityKey) (sha256 report) k
  .next { s with report := some (report, sig.1, sig.2), freeCount := s.freeCount + 8 }

end Sys2Proof.Machine
end

