-- ==== Sys2Proof/Machine/Exchange.lean ====
section
/-! DEFINITION. The instructions that read other lanes: quad exchange and derivatives, warp exchange, reductions, RDLANE
and BCAST (R84, R195, R204, R221 to R226). -/

namespace Sys2Proof.Machine

/-- Slot A at a lane position as it stood before the instruction: none for an empty latch (R195). -/
def Env.srcAt (e : Env) (x : Iss) (f : Form) (g : Sig) (pos : Nat) : Option DWord := e.slot f x.wbase pos f.a g.a

def Iss.has (x : Iss) (pos : Nat) : Bool := x.members.any fun m => m.pos = pos

/-- What an exchange gives a lane: a value, a cause, or the empty entry of a latch. -/
inductive Got where
  | val (v : Val)
  | empty
  | fault (c : Cause)
  deriving DecidableEq, Repr

def Got.ofOption (o : Option DWord) : Got := match o with | some v => .val (plain v) | none => .empty

/-- The results of an exchange written per lane (R194, R195). -/
def State.exchange (s : State) (x : Iss) (f : Form) (g : Sig) (act : List Act) (got : Act → Got) : State :=
  let done := act.map fun a => (a, got a)
  let faults := done.filterMap fun d =>
    match d.2 with
    | .empty => some ⟨d.1.m.ref, Cause.regLatch, latchDetail f g⟩
    | .fault c => some ⟨d.1.m.ref, c, 0⟩
    | .val _ => none
  let rs := done.filterMap fun d =>
    match d.2 with
    | .val v => some (⟨d.1, valWords (g.d.width f.ty) v.v, v.flags⟩ : LaneRes)
    | _ => none
  s.commit x f g act rs faults

/-- An exchange instruction. -/
def exchangeStep (i : Instr) (f : Form) (forbidden : Bool) (got : Iss → Env → Sig → List Act → Act → Got) (s : State) :
    Host.Outcome State Fault Refusal :=
  match front i f forbidden s with
  | .over o => o
  | .go x e g act => .next (s.exchange x f g act (got x e g act))

/-! ### Quads (R84, R222) -/

/-- Whether the quad of a lane position is whole: a reformed group has none (R84). -/
def quadWhole (x : Iss) (pos : Nat) : Bool :=
  x.carried.isNone && (List.range 4).all fun k => x.has (pos / 4 * 4 + k)

/-- A value from the lane of quad index `k m` of the own quad. -/
def quadGot (k : Nat → Nat) (f : Form) (x : Iss) (e : Env) (g : Sig) (a : Act) : Got :=
  if quadWhole x a.m.pos then Got.ofOption (e.srcAt x f g (a.m.pos / 4 * 4 + k (a.m.pos % 4))) else .fault .ctlQuadSplit

/-- A difference of two lanes of the own quad, by quad index. -/
def quadDiff (hi lo : Nat → Nat) (f : Form) (x : Iss) (e : Env) (g : Sig) (a : Act) : Got :=
  if quadWhole x a.m.pos then
    let base := a.m.pos / 4 * 4
    match e.srcAt x f g (base + hi (a.m.pos % 4)), e.srcAt x f g (base + lo (a.m.pos % 4)) with
    | some p, some m => .val (diffVal f p m)
    | _, _ => .empty
  else .fault .ctlQuadSplit

/-- QXH (R222). -/
def execQxh (f : Form) (s : State) : Host.Outcome State Fault Refusal :=
  exchangeStep (.qxh f) f false (fun x e g _ a => quadGot (fun m => m ^^^ 1) f x e g a) s

/-- QXV (R222). -/
def execQxv (f : Form) (s : State) : Host.Outcome State Fault Refusal :=
  exchangeStep (.qxv f) f false (fun x e g _ a => quadGot (fun m => m ^^^ 2) f x e g a) s

/-- QXD (R222). -/
def execQxd (f : Form) (s : State) : Host.Outcome State Fault Refusal :=
  exchangeStep (.qxd f) f false (fun x e g _ a => quadGot (fun m => m ^^^ 3) f x e g a) s

/-- QBC (R222): k is the field immediate of slot B. -/
def execQbc (f : Form) (s : State) : Host.Outcome State Fault Refusal :=
  exchangeStep (.qbc f) f false (fun x e g _ a => quadGot (fun _ => (f.slotImm f.b).toNat) f x e g a) s

/-- DDX (R222). -/
def execDdx (f : Form) (s : State) : Host.Outcome State Fault Refusal :=
  let row (m : Nat) : Nat := if f.m2.getLsbD 0 then m / 2 * 2 else 0
  exchangeStep (.ddx f) f false (fun x e g _ a => quadDiff (fun m => row m + 1) row f x e g a) s

/-- DDY (R222). -/
def execDdy (f : Form) (s : State) : Host.Outcome State Fault Refusal :=
  let col (m : Nat) : Nat := if f.m2.getLsbD 0 then m % 2 else 0
  exchangeStep (.ddy f) f false (fun x e g _ a => quadDiff (fun m => col m + 2) col f x e g a) s

/-! ### The warp (R204, R223 to R226) -/

/-- The source lane of LXCH (R224). -/
def lxchSource (mode l b : Nat) : Nat :=
  match mode with
  | 0 => b % 32
  | 1 => (l + 32 - b % 32) % 32
  | 2 => (l + b) % 32
  | _ => (l ^^^ (b % 32)) % 32

/-- LXCH (R224). -/
def execLxch (f : Form) (s : State) : Host.Outcome State Fault Refusal :=
  exchangeStep (.lxch f) f true (fun x e g _ a =>
    match e.slot f x.wbase a.m.pos f.b g.b with
    | none => .empty
    | some b =>
      let src := lxchSource f.m2.toNat a.m.pos (b.toNat % 2 ^ 32)
      if x.has src then Got.ofOption (e.srcAt x f g src) else .val (plain 0)) s

/-- The contributors' values up to a position: none where one of them is an empty latch (R225). -/
def contributed (x : Iss) (e : Env) (f : Form) (g : Sig) (act : List Act) (upTo : Nat) : Option (List DWord) :=
  (act.filter fun a => a.m.pos ≤ upTo).mapM fun a => e.srcAt x f g a.m.pos

/-- P of a contributor, with the flags of its own step (R225). -/
def scanGot (f : Form) (x : Iss) (e : Env) (g : Sig) (act : List Act) (a : Act) : Got :=
  match contributed x e f g act a.m.pos with
  | none => .empty
  | some xs => .val ((redScan f xs).getLastD (plain 0))

/-- P of the last contributor, with the flags of the lane's own step (R225). -/
def reduceGot (f : Form) (x : Iss) (e : Env) (g : Sig) (act : List Act) (a : Act) : Got :=
  match contributed x e f g act 31, contributed x e f g act a.m.pos with
  | some xs, some ys =>
    .val ⟨((redScan f xs).getLastD (plain 0)).v, ((redScan f ys).getLastD (plain 0)).flags⟩
  | _, _ => .empty

/-- SCANW (R225). -/
def execScanw (f : Form) (s : State) : Host.Outcome State Fault Refusal :=
  exchangeStep (.scanw f) f true (fun x e g act a => scanGot f x e g act a) s

/-- A result computed once per issue from lanes' values: written to slot D of class U (R194, R195). -/
def State.onceCommit (s : State) (x : Iss) (f : Form) (g : Sig) (act : List Act) (r : Option Val) : State :=
  if act = [] then s.endIdle x f g
  else match r with
  | none => s.endIssue x f (faultAll act .regLatch (latchDetail f g))
  | some v =>
    match s.fpTrap (act.map fun a => (⟨a, [], v.flags⟩ : LaneRes)) with
    | some c => (s.addFlags ⟨x.wg, x.warp, 0⟩ v.flags).endIssue x f
        (fpFaults c (act.map fun a => (⟨a, [], v.flags⟩ : LaneRes)) [])
    | none =>
      (s.setRows x (releaseLu f g x.wbase (s.rowsOf x))).commitUni x f (slotNum f f.d) (valWords (g.d.width f.ty) v.v)
        (if act.all (fun a => a.lane.helper) then 0 else v.flags)

/-- REDW (R225). -/
def execRedw (f : Form) (s : State) : Host.Outcome State Fault Refusal :=
  if f.d.cls = .uniform then
    match front (.redw f) f true s with
    | .over o => o
    | .go x e g act =>
      let r := (contributed x e f g act 31).map fun xs =>
        let ys := redScan f xs
        (⟨(ys.getLastD (plain 0)).v, ys.foldl (fun fl y => fl ||| y.flags) 0⟩ : Val)
      .next (s.onceCommit x f g act r)
  else exchangeStep (.redw f) f true (fun x e g act a => reduceGot f x e g act a) s

/-- MATCH (R226). -/
def execMatchw (f : Form) (s : State) : Host.Outcome State Fault Refusal :=
  exchangeStep (.matchw f) f true (fun x e g act a =>
    match act.mapM (fun b => (e.srcAt x f g b.m.pos).map fun v => (b.m.pos, v)), e.srcAt x f g a.m.pos with
    | some vs, some own =>
      .val (plain (BitVec.ofNat 64 (vs.foldl (fun m v => if v.2 = own then m + 2 ^ v.1 else m) 0)))
    | _, _ => .empty) s

/-- RDLANE (R204): it executes once, and is not for reformed groups (R92). -/
def execRdlane (f : Form) (s : State) : Host.Outcome State Fault Refusal :=
  match front (.rdlane f) f true s with
  | .over o => o
  | .go x e g act =>
    let src := (((e.slot f x.wbase 0 f.b g.b).getD 0).toNat) % 32
    .next (s.onceCommit x f g act (if x.has src then (e.srcAt x f g src).map plain else some (plain 0)))

/-- BCAST (R204). -/
def execBcast (f : Form) (s : State) : Host.Outcome State Fault Refusal :=
  exchangeStep (.bcast f) f true (fun x e g act _ =>
    match act with
    | [] => .empty
    | b :: _ => Got.ofOption (e.srcAt x f g b.m.pos)) s

end Sys2Proof.Machine
end

