-- ==== Sys2Proof/Machine/Firmware.lean ====
section
/-! DEFINITION. The calls of the Firmware Interface: contexts, objects, memory, limits and areas (R42, R49, R50, R103, R114,
R115, R117, R120, R124 to R127, R167, R246, R248, R386 to R388, R410, R411, R419, R433 to R435, R453, R493, log 13). -/

namespace Sys2Proof.Machine

/-- A call's answer to its caller. -/
def State.answer (s : State) (v : Nat) : State := { s with replyWord := dwordOf v }

/-- A call that changes a context, where it may; the answer is 1, or 0 for a call refused. The interface is served once
the firmware has booted. -/
def State.callOn (s : State) (ctx : Nat) (ok : Context → Bool) (f : Context → Context) : State :=
  match s.ctx? ctx with
  | some c => if s.booted && ok c then (s.updCtx ctx f).answer 1 else s.answer 0
  | none => s.answer 0

/-! ### Contexts (R493, R50) -/

/-- CONTEXT_CREATE (R493): created not resident, with the bank key the device sets (R115). -/
def execContextCreate (ctx bankKey : Nat) (s : State) : Host.Outcome State Fault Refusal :=
  .next (if !s.booted || Config.numContexts ≤ ctx || (s.ctx? ctx).isSome then s.answer 0
    else ({ s with contexts := (s.contexts.filter fun (c : Context) => c.id != ctx) ++ [Context.created ctx (bankKey % 32)] }).answer 1)

/-- CONTEXT_MAKE_RESIDENT (R493): gangs that were saved may be placed again. -/
def execContextMakeResident (ctx : Nat) (s : State) : Host.Outcome State Fault Refusal :=
  .next (match s.ctx? ctx with
  | some c => if s.booted && !c.resident then (s.startRestore ctx none (if c.saved then c.areaAt.map Prod.fst else none)).answer 1 else s.answer 0
  | none => s.answer 0)

/-- CONTEXT_DESTROY (R50): as a kill, without its event. -/
def execContextDestroy (ctx : Nat) (s : State) : Host.Outcome State Fault Refusal :=
  .next (match s.ctx? ctx with
  | none => s.answer 0
  | some _ =>
    if !s.booted then s.answer 0
    else
      let s := (s.dropContext ctx).endKilledSaves ctx
      ({ s with contexts := s.contexts.filter fun (c : Context) => c.id != ctx }).answer 1)

/-- MODE_WRITE (R41, R42). -/
def execModeWrite (ctx : Nat) (v : Word) (s : State) : Host.Outcome State Fault Refusal :=
  .next (s.callOn ctx (fun c => !c.resident) fun c => { c with mode := v &&& 0x3F })

/-- AGE_LIMIT_SET (R103). -/
def execAgeLimitSet (ctx v : Nat) (s : State) : Host.Outcome State Fault Refusal :=
  .next (s.callOn ctx (fun _ => 1000 ≤ v && v ≤ 1000000) fun c => { c with ageLimit := v })

/-- EXTWAIT_SET (R246). -/
def execExtwaitSet (ctx v : Nat) (s : State) : Host.Outcome State Fault Refusal :=
  .next (s.callOn ctx (fun _ => true) fun c => { c with extwait := v })

/-- HANGLIMIT_SET (R387). -/
def execHanglimitSet (ctx v : Nat) (s : State) : Host.Outcome State Fault Refusal :=
  .next (s.callOn ctx (fun _ => v = 0 || (65536 ≤ v && v ≤ 2 ^ 31)) fun c => { c with hanglimit := v })

/-- TRAP_CONFIG_SET (R167, R381). -/
def execTrapConfigSet (ctx : Nat) (base : DWord) (slot : BitVec 2) (img : DWord) (s : State) : Host.Outcome State Fault Refusal :=
  .next (s.callOn ctx (fun c => !c.resident && base.toNat % 4096 = 0) fun c =>
    { c with trapbase := base, trapdict := slot.toNat, trapimg := img })

/-- Where a vault byte outside the tiles of targets is held under a bank key: the bank, and the line in it (R115). -/
def vaultBank (key off : Nat) : Nat × Nat :=
  let l := off / 64
  ((l ^^^ l / 2 ^ 5 ^^^ l / 2 ^ 10 ^^^ l / 2 ^ 15 ^^^ key) % 32, l / 32)

/-- BANK_KEY_READ (R115). -/
def execBankKeyRead (ctx : Nat) (s : State) : Host.Outcome State Fault Refusal :=
  .next (match s.ctx? ctx with
  | some c => if s.booted then s.answer c.bankKey else s.answer 0
  | none => s.answer 0)

/-- EVENT_AREA_REGISTER (R386). -/
def execEventAreaRegister (ctx : Nat) (addr : DWord) (s : State) : Host.Outcome State Fault Refusal :=
  .next ((s.callOn ctx (fun _ => true) fun c => { c with eventArea := some addr }).flushEvents ctx)

/-- HANG_AREA_REGISTER (R388). -/
def execHangAreaRegister (ctx : Nat) (addr : DWord) (s : State) : Host.Outcome State Fault Refusal :=
  .next (s.callOn ctx (fun _ => true) fun c => { c with hangArea := some addr })

/-! ### Objects (R49, R50) -/

/-- What a read at a creation finds. -/
inductive ReadAt where
  | bytes (b : List Byte)
  | wait
  | refuse
  deriving DecidableEq, Repr

/-- Bytes read at a creation, in `count` accesses of `size`: a failing or poisoned read refuses it (R411). -/
def State.readAt (s : State) (ctx : Nat) (n : Need) (va size count : Nat) : ReadAt :=
  let one (i : Nat) : Nat × Chk :=
    let ea := (va + size * i) % 2 ^ 64
    (ea, s.poisonChk true (s.checkTables ctx n ea size))
  let cs := (List.range count).map one
  match firstBad cs with
  | none => .bytes (cs.flatMap fun c => Memory.bytes s.mem c.2.phys size)
  | some (_, .wait) => .wait
  | some _ => .refuse

/-- Read, then go on with the bytes. -/
def ReadAt.andThen {α : Type} (g : ReadAt) (wait refuse : α) (k : List Byte → α) : α :=
  match g with
  | .bytes b => k b
  | .wait => wait
  | .refuse => refuse

/-- What a creation comes to. -/
inductive Made (α : Type) where
  | ok (a : α)
  | wait
  | refuse

/-- The dictionary of a method: templates outside the method subset are replaced too (R158, R419). -/
def State.methodDict (s : State) (first : Nat) (lines : List Nat) : List (Nat × Template) × Nat :=
  let j : DictJob :=
    { id := 0, ctx := 0, core := 0, phys := 0, prog := 0, va := 0, first := first, count := lines.length, lines := lines, priv := false
      warp := none, launchWg := none }
  let r := loadEntries s j []
  let out (e : Nat × Template) : Bool := (templateMop e.2).toNat != 0x3FF && !methodMop (templateMop e.2).toNat
  (r.1.map fun e => if out e then (e.1, undefinedTemplate) else e, r.2 + r.1.countP out)

/-- A method from its entry of a descriptor (R410, R411). -/
def State.makeMethod (s : State) (ctx : Nat) (b : List Byte) : Made Method :=
  let entry := fieldAt b 0 8
  let dict := fieldAt b 8 8
  let len := fieldAt b 16 2
  let flags := fieldAt b 18 1
  if entry % 4 != 0 || dict % 16 != 0 || len = 0 || 1024 < len || 1 < flags || (b.drop 19).any (· != 0) then .refuse
  else
    (s.readAt ctx .rx entry 4 len).andThen .wait .refuse fun code =>
      (s.readAt ctx .rx dict 16 1).andThen .wait .refuse fun head =>
        match headerOk head with
        | none => .refuse
        | some (first, count) =>
          let cs := imageChks (s.checkTables ctx) dict count
          match firstBad cs with
          | some (_, .wait) => .wait
          | some _ => .refuse
          | none =>
            let d := s.methodDict first (cs.map fun c => c.2.phys)
            .ok { flag := flags = 1, code := (List.range len).map fun i => wordOf (fieldAt code (4 * i) 4), dict := d.1, rejected := d.2 }

/-- The methods of a descriptor, in order. -/
def State.makeMethods (s : State) (ctx : Nat) : List (List Byte) → Made (List Method)
  | [] => .ok []
  | b :: rest =>
    match s.makeMethod ctx b with
    | .wait => .wait
    | .refuse => .refuse
    | .ok m =>
      match State.makeMethods s ctx rest with
      | .ok ms => .ok (m :: ms)
      | r => r

/-- The METHOD entries of a descriptor read and made. -/
def State.readMethods (s : State) (ctx desc n : Nat) : Made (List Method) :=
  (s.readAt ctx .r (desc + 0x40) 1 (32 * n)).andThen .wait .refuse fun b =>
    s.makeMethods ctx ((List.range n).map fun i => (b.drop (32 * i)).take 32)

/-- Whether ranges of vaults lie apart. -/
def apart : List (Nat × Nat × Nat) → Bool
  | [] => true
  | r :: rest => (rest.all fun q => q.1 != r.1 || decide (q.2.1 + q.2.2 ≤ r.2.1) || decide (r.2.1 + r.2.2 ≤ q.2.1)) && apart rest

/-- Whether the device can place ranges of vaults, each a vault, an offset and a length, where it chose to: free, and apart (R113). -/
def State.vaultsOk (s : State) (rs : List (Nat × Nat × Nat)) : Bool :=
  rs.all (fun r => decide (r.1 < 2048) && s.vaultFree r.1 s.seq r.2.1 r.2.2) && apart rs

/-- A target from its descriptor's first 64 bytes. `places` are the vaults in which the device places its tiles, then the offsets
there; a target whose tiles cannot be placed so is refused (R410 to R412, log 7). -/
def State.makeTarget (s : State) (ctx desc index : Nat) (places : List Nat) (b : List Byte) : Made Target :=
  let w := fieldAt b 0 2
  let h := fieldAt b 2 2
  let samples := fieldAt b 4 1
  let nch := fieldAt b 5 1
  let nmeth := fieldAt b 6 1
  let fmts := (List.range 4).map fun c => fieldAt b (8 + c) 1
  let clen := fieldAt b 12 2
  let cva := fieldAt b 16 8
  let tx := (w + 7) / 8
  let tiles := tx * ((h + 7) / 8)
  let owner (i : Nat) : Nat := (i % tx + 3 * (i / tx)) % 8
  let ok := 1 ≤ w && w ≤ 16384 && 1 ≤ h && h ≤ 16384 && [1, 2, 4, 8].contains samples && 1 ≤ nch && nch ≤ 4 && 1 ≤ nmeth
    && nmeth ≤ 16 && fieldAt b 7 1 = 0 && (fmts.take nch).all (· ≤ 3) && (fmts.drop nch).all (· = 0) && clen ≤ 256 && clen % 4 = 0
    && fieldAt b 14 2 = 0 && (clen != 0 || cva = 0) && (b.drop 24).all (· = 0)
    && places.length = 2 * tiles && ((places.take tiles).zipIdx).all fun p => clusterOf p.1 = owner p.2
  let bytes := 64 * samples * ((fmts.take nch).map chanBytes).sum
  let spots := (places.take tiles).zip (places.drop tiles)
  if !ok || !s.vaultsOk (spots.map fun p => (p.1, p.2, bytes)) then .refuse
  else
    (s.readAt ctx .r cva 1 clen).andThen .wait .refuse fun consts =>
      match s.readMethods ctx desc nmeth with
      | .wait => .wait
      | .refuse => .refuse
      | .ok ms => .ok
          { index := index, w := w, h := h, samples := samples, fmts := fmts.take nch, consts := consts, methods := ms, pix := []
            nextpsn := 0, faults := 0, damaged := [], order := [], frags := [], vaults := spots.zipIdx.map fun p => (p.2, p.1.1, p.1.2)
            dead := false }

/-- A replica as created. -/
def Replica.made (vault off : Nat) : Replica :=
  { applied := 0, fenced := false, ignored := false, rets := [], vault := vault, off := off }

/-- The replicas and the log copies of an object of the model's places: four vaults, the offsets there, and two HBM addresses. -/
def madeReplicas (places : List Nat) : List Replica :=
  (List.range 4).map fun d => Replica.made (places.getD d 0) (places.getD (4 + d) 0)

/-- Whether an object can be placed where the device chose to: a replica in a vault of each die, and the two copies of its log in two
HBM stacks of its home die (R126, R433, R435, R452). -/
def State.objectFits (s : State) (places : List Nat) (bytes logk home : Nat) : Bool :=
  let spots := (madeReplicas places).map fun r => (r.vault, r.off, bytes)
  let logs := places.drop 8
  let fits (a : Nat) : Bool :=
    a % 64 = 0 && decide (a % Config.hbmSpan + 64 * 2 ^ logk ≤ Config.hbmBytes) && s.physFree a (64 * 2 ^ logk)
  places.length = 10 && (spots.zipIdx).all (fun p => dieOf p.1.1 = p.2) && s.vaultsOk spots
    && logs.all fits && (logs.map fun a => a / Config.hbmSpan).all (fun k => k / 3 = home)
    && (logs.map fun a => a / Config.hbmSpan).eraseDups.length = 2

/-- A replayed object from its descriptor's first 64 bytes, with the initial bytes of its state (R433 to R435). `places` are the
vaults of its replicas, the offsets there, and the addresses of the two copies of its log (log 7). -/
def State.makeObject (s : State) (ctx desc index home : Nat) (places : List Nat) (b : List Byte) : Made (ReplayObj × List Byte) :=
  let len := fieldAt b 0 4
  let logk := fieldAt b 4 1
  let nmeth := fieldAt b 5 1
  let die := fieldAt b 6 1
  let sva := fieldAt b 8 8
  let ok := 4 ≤ len && len ≤ 65536 && len % 4 = 0 && 8 ≤ logk && logk ≤ 20 && 1 ≤ nmeth && nmeth ≤ 64 && (die ≤ 3 || die = 0xFF)
    && fieldAt b 7 1 = 0 && sva % 4 = 0 && (b.drop 16).all (· = 0) && home ≤ 3
  let die := if die = 0xFF then home else die
  if !ok || !s.objectFits places len logk die then .refuse
  else
    (s.readAt ctx .r sva 4 (len / 4)).andThen .wait .refuse fun st =>
      match s.readMethods ctx desc nmeth with
      | .wait => .wait
      | .refuse => .refuse
      | .ok ms =>
        .ok ({ kind := 2, index := index, statelen := len, logk := logk, home := die, methods := ms
               tail := 0, trim := 0, logAt := places.drop 8, replicas := madeReplicas places, awaitTrim := false
               lost := false, dead := false }, st)

/-- A queue from its descriptor (R453), with the 8 bytes of PUSHED. -/
def State.makeQueue (s : State) (index home : Nat) (places : List Nat) (b : List Byte) : Made (ReplayObj × List Byte) :=
  let logk := fieldAt b 0 1
  if logk < 8 || 20 < logk || (b.drop 1).any (· != 0) || 3 < home || !s.objectFits places 8 logk home then .refuse
  else .ok ({ kind := 4, index := index, statelen := 0, logk := logk, home := home, methods := [], tail := 0, trim := 0
              logAt := places.drop 8, replicas := madeReplicas places, awaitTrim := false, lost := false, dead := false }, leBytes 8 0)

/-- A texture from its descriptor (R248). -/
def makeTexture (index : Nat) (b : List Byte) : Made Texture :=
  let w := fieldAt b 8 2
  let h := fieldAt b 10 2
  let fmt := fieldAt b 12 1
  let size := if fmt = 1 then 8 else 4
  if w = 0 || 16384 < w || h = 0 || 16384 < h || 2 < fmt || 1 < fieldAt b 13 1 || fieldAt b 0 8 % size != 0
      || (b.drop 14).any (· != 0) then .refuse
  else .ok { index := index, texels := dwordOf (fieldAt b 0 8), w := w, h := h, fmt := fmt, wrap := fieldAt b 13 1 = 1 }

/-- The lowest INDEX that no object of a kind holds, below 2^20 (R49, R50). -/
def freeIndex (held : List Nat) : Option Nat :=
  ((List.range (held.length + 1)).find? fun i => !held.contains i).filter fun i => decide (i < 2 ^ 20)

/-- A placement that a call makes: where the host is asked about it, the call has not ended until it agrees (R43, R125). -/
def State.place (s : State) (ctx : Nat) (what : Asked) (tag : Word) (k : State → State) : State :=
  let p := s.placed ctx what tag 0xFFFFFFFF
  if p.2 then (k p.1).placingDone ctx what else p.1

/-- An object entered, and its handle answered; a creation refused answers 0, and one that waits has not ended. -/
def Made.enter {α : Type} (m : Made α) (s : State) (put : α → State) : State :=
  match m with
  | .ok a => put a
  | .refuse => s.answer 0
  | .wait => s

/-- A replayed object or queue entered, its replicas holding their initial bytes. -/
def State.putObject (s : State) (ctx : Nat) (o : ReplayObj) (st : List Byte) (add : Context → Context) : State :=
  ((o.replicas.foldl (fun s r => s.storeFresh r.base st) s).updCtx ctx add).answer o.handle.toNat

/-- A new queue; the first that a context creates is its default queue (R453). -/
def Context.addQueue (q : ReplayObj) (c : Context) : Context :=
  { c with objects := c.objects ++ [q], defaultQ := some (c.defaultQ.getD q.handle) }

/-- A creation of one kind (R50, R248, R411, R435, R453). -/
def State.create (s : State) (ctx kind desc : Nat) (places : List Nat) (home : Nat) : State :=
  match s.ctx? ctx with
  | none => s.answer 0
  | some c =>
    let size := if kind = 3 then 32 else 64
    let held := match kind with
      | 1 => c.targets.map Target.index
      | 3 => c.textures.map Texture.index
      | k => (c.objects.filter fun o => o.kind = k).map ReplayObj.index
    let tag (i : Nat) : Word := wordOf (kind * 2 ^ 28 + i)
    let asked := Asked.object kind (dwordOf desc) places home
    match freeIndex held with
    | none => s.answer 0
    | some i =>
      if region desc != .paged then s.answer 0
      else (s.readAt ctx .r desc 1 size).andThen s (s.answer 0) fun b =>
        match kind with
        | 1 => (s.makeTarget ctx desc i places b).enter s fun t => s.place ctx asked (tag i) fun s =>
            (s.updCtx ctx fun c => { c with targets := c.targets ++ [t] }).answer (0x10000000 + i)
        | 2 => (s.makeObject ctx desc i home places b).enter s fun o => s.place ctx asked (tag i) fun s =>
            s.putObject ctx o.1 o.2 fun c => { c with objects := c.objects ++ [o.1] }
        | 3 => (makeTexture i b).enter s fun t =>
            (s.updCtx ctx fun c => { c with textures := c.textures ++ [t] }).answer (0x30000000 + i)
        | 4 => (s.makeQueue i home places b).enter s fun o => s.place ctx asked (tag i) fun s =>
            s.putObject ctx o.1 o.2 (Context.addQueue o.1)
        | _ => s.answer 0

/-- OBJECT_CREATE (R50): `places` are the places that the device chooses, `home` its choice of home die (R125). -/
def execObjectCreate (ctx kind : Nat) (desc : DWord) (places : List Nat) (home : Nat) (s : State) :
    Host.Outcome State Fault Refusal :=
  .next (if s.booted then s.create ctx kind desc.toNat places home else s.answer 0)

/-! ### Destruction (R50) -/

/-- Where the result of a wait goes. -/
def Wait.dest : Wait → Dest
  | .jwait _ d | .callFull _ _ _ d | .call _ _ _ d | .oread _ _ _ _ d | .waitw _ _ _ _ _ _ d | .settled _ _ _ _ _ d | .landed _ _ d => d
  | _ => noDest

/-- Whether a lane waits on an object. -/
def Wait.onObject (h : Word) : Wait → Bool
  | .callFull k _ _ _ | .call k _ _ _ | .oread k _ _ _ _ | .settled k _ _ _ _ _ => k = h
  | _ => false

/-- The lanes that wait on a destroyed object fault with OBJ_HANDLE, HALTED and saved ones once they go on; a helper lane takes +0
and no fault (R50, R85, R379). -/
def State.faultWaiters (s : State) (ctx : Nat) (h : Word) : State :=
  let ws := ((s.waits ctx).filter fun w => w.2.onObject h).map Prod.fst
  let later (w : Waiter) : Bool := s.held w || !(s.wg? w.ref.wg).any Workgroup.resident
  let helper (w : Waiter) : Bool := (s.lane? w.ref).any Lane.helper
  let zero := ((s.waits ctx).filter fun w => w.2.onObject h && helper w.1).map fun w =>
    (⟨w.1, [0, 0, 0, 0], none, w.2.dest⟩ : WaitEnd)
  let s := ((ws.filter fun w => later w && !helper w).foldl (fun s w => s.setAt w (.waiting (.lost h))) s).satisfyAll zero
  let now := (ws.filter fun w => !later w && !helper w).map Waiter.ref
  (s.updLanes now fun l => { l with st := .issuing }).raise (now.map fun r => ⟨r, .objHandle, h.setWidth 52⟩)

/-- The lanes whose pushes wait in their windows for room in the log of a queue that is destroyed fault with OBJ_HANDLE (R50,
R456). -/
def State.faultPushers (s : State) (ctx : Nat) (o : ReplayObj) : State :=
  if !o.full then s
  else (s.wgs.filter fun g => g.ctx = ctx).foldl (fun s g =>
    g.warps.zipIdx.foldl (fun s v =>
      match v.1.stage with
      | some q => if s.pushesTo ctx q o.handle then s.goAct g.id v.2 q (.refuse .objHandle (o.handle.setWidth 52)) else s
      | none => s) s) s

/-- A command on a target that is destroyed: a raster command's triangles not begun are dropped, the other commands end; each sets
ERR where it is cut short (R50). Pixel workgroups not yet admitted are dropped and those admitted run to their end: the rule is silent
on them (DESIGN CHOICE, log 7). -/
def State.cutShort (s : State) (t : Target) (c : Command) : State :=
  match c.work with
  | .draw tg psn tokens launch =>
    let open' := t.frags.any fun f => f.cmd = c.id && f.st != .done
    let drop (l : Launch) : Launch := if l.id = launch then { l with pixels := [] } else l
    let s := { s with launches := s.launches.map drop }
    s.updCmd c.id fun k => { k with err := k.err || tokens != [] || open', work := .draw tg psn [] launch }
  | _ => (s.updCmd c.id fun k => { k with err := true }).endCommand c.id

/-- A target destroyed. -/
def State.destroyTarget (s : State) (ctx : Nat) (h : Word) : State :=
  match s.target? ctx h with
  | none => s.answer 0
  | some t =>
    let s := s.faultWaiters ctx h
    let s := (s.cmds.filter fun c => c.ctx = ctx && t.order.contains c.id).foldl (fun s c => s.cutShort t c) s
    let gone (q : Target) : Target :=
      if q.index = t.index then { q with dead := true, frags := q.frags.map fun f => { f with st := .done } } else q
    let s := s.updCtx ctx fun c => { c with targets := c.targets.map gone }
    s.settle.answer 1

/-- A replayed object or queue destroyed: pushes not applied end with ERR and their fences are not written, those applied and not
entered are refused and theirs say so, launches they entered run on, and the bytes go with the last of these; a context whose default queue is destroyed has no default queue from then on (R50; both
DESIGN CHOICE, log 15). -/
def State.destroyObject (s : State) (ctx : Nat) (h : Word) : State :=
  match s.object? ctx h with
  | none => s.answer 0
  | some o =>
    let s := (s.faultPushers ctx o).faultWaiters ctx h
    let mine (c : Command) : Bool := c.ctx = ctx && (match c.work with | .push k _ => k = h | _ => false)
    let s := (s.cmds.filter mine).foldl (fun s c => (s.updCmd c.id fun k => { k with err := true }).endCommand c.id) s
    let ps := (((s.ctx? ctx).map Context.pushes).getD []).filter fun p => p.handle = h
    let s := ps.foldl (fun s p => s.refusePush ctx p) s
    let s := s.updCtx ctx fun c =>
      { c with
        objects := mapIf (fun q => q.kind = o.kind && q.index = o.index) (fun q => { q with dead := true }) c.objects
        pushes := c.pushes.filter fun p => p.handle != h
        defaultQ := if c.defaultQ = some h then some 0 else c.defaultQ }
    s.settle.answer 1

/-- OBJECT_DESTROY (R50). -/
def execObjectDestroy (ctx : Nat) (handle : Word) (s : State) : Host.Outcome State Fault Refusal :=
  .next (if !s.booted then s.answer 0
    else match handle.toNat / 2 ^ 20 with
    | 0x100 => s.destroyTarget ctx handle
    | 0x300 =>
      if (s.texture? ctx handle).isSome then
        (s.updCtx ctx fun c => { c with textures := c.textures.filter fun t => t.index != handle.toNat % 2 ^ 20 }).answer 1
      else s.answer 0
    | _ => s.destroyObject ctx handle)

/-! ### Memory (R117, R120, R124 to R127) -/

/-- Whether attributes may stand together (R117). -/
def attrsOk (r w host : Bool) (key : Nat) : Bool := (r || !w) && !(host && key != 0)

def pageSizes : List Nat := [0x10000, 0x200000, 0x40000000]

/-- Whether a physical page is there: HBM, or any host page. -/
def physOk (host : Bool) (size p : Nat) : Bool :=
  p % size = 0 && (if host then inHostMem p
    else p < Config.numStacks * Config.hbmSpan && decide (p % Config.hbmSpan + size ≤ Config.hbmBytes))

/-- Pages of a range, in order of address. -/
def pagesOf (va size : Nat) (r w x host : Bool) (key : Nat) (phys : List Nat) : List Page :=
  phys.zipIdx.map fun p => ⟨va + size * p.2, size, p.1, r, w, x, host, key, !host⟩

/-- The stacks an affinity names (R126); an object's are those of its home die. A handle that names no replayed object or queue, a
target's or a texture's among them, leaves the choice open: R49 and R126 give it no home (DESIGN CHOICE, log 7). -/
def State.affinityStacks (s : State) (ctx : Nat) : Affinity → List Nat
  | .none => List.range 12
  | .die d => [3 * d, 3 * d + 1, 3 * d + 2]
  | .cluster c => [3 * (c / 2), 3 * (c / 2) + 1, 3 * (c / 2) + 2]
  | .stack k => [k]
  | .object h =>
    match s.object? ctx h with
    | some o => [3 * o.home, 3 * o.home + 1, 3 * o.home + 2]
    | none => List.range 12

/-- The stacks in which each 64 KiB page of an allocation lies, or is to lie once a change in progress completes or `extra` is mapped. -/
def State.allocStacks (s : State) (c : Context) (extra : List Page) (a : Alloc) : List (List Nat) :=
  let coming := (s.changes.filter fun k => k.apply && k.ctx = some c.id).flatMap Change.pages
  (List.range (a.size / 0x10000)).map fun i =>
    ((c.pages ++ coming ++ extra).filter fun p => p.holds (a.va + 0x10000 * i)).map fun p => stackOf p.phys

/-- Whether two keyed allocations have their matching pages in one stack: a page not mapped matches any (R127). -/
def keyMet (a b : List (List Nat)) : Bool := (a.zip b).all fun p => p.1.all fun m => p.2.all fun n => m = n

/-- Whether a stack has no free page of a size but those an allocation takes (R126). -/
def State.stackFull (s : State) (k size : Nat) (taken : List Nat) : Bool :=
  (List.range (Config.hbmBytes / size)).all fun i =>
    let p := k * Config.hbmSpan + size * i
    taken.contains p || !s.physFree p size

/-- The affinity that an allocation goes by: one named with a key is that of all the key's allocations (R127). -/
def Context.affinityOf (c : Context) (q : AllocRequest) : Affinity :=
  if q.key = 0 then q.affinity
  else (((c.allocs.filter fun a => a.key = q.key).map Alloc.affinity).find? (· != .none)).getD q.affinity

/-- Whether an allocation is granted, with the pages the device chooses (R117, R126, R127). -/
def State.allocOk (s : State) (c : Context) (q : AllocRequest) : Bool :=
  let count := q.size / q.pageSize
  let mine := q.phys.map stackOf
  let others := (c.allocs.filter fun a => a.key = q.key).map (s.allocStacks c [])
  let named := s.affinityStacks c.id (c.affinityOf q)
  let elsewhere := mine.any fun k => !named.contains k
  pageSizes.contains q.pageSize && q.va % q.pageSize = 0 && q.size % q.pageSize = 0 && q.size != 0 && q.phys.length = count
    && region q.va = .paged && region (q.va + q.size - 1) = .paged && attrsOk q.r q.w q.host q.key
    && q.phys.all (physOk q.host q.pageSize) && q.phys.eraseDups.length = count
    && (q.host || q.phys.all fun p => s.physFree p q.pageSize)
    && (q.host || !elsewhere || named.all fun k => s.stackFull k q.pageSize q.phys)
    && !c.pages.any (fun p => decide (p.va < q.va + q.size) && decide (q.va < p.va + p.size))
    && (q.key = 0 || (q.key < 65536 && q.pageSize = 0x10000 && others.length < 8 && others.all (keyMet (mine.map fun k => [k]))))

/-- ALLOCATE (R124 to R127): its pages are mapped with Z set, once the host has agreed where it is asked about those of HBM. -/
def execAllocate (ctx : Nat) (req : AllocRequest) (s : State) : Host.Outcome State Fault Refusal :=
  let give (s : State) : State := (s.updCtx ctx fun c =>
    { c with
      pages := c.pages ++ pagesOf req.va req.pageSize req.r req.w req.x req.host req.key req.phys
      allocs := c.allocs ++ [⟨req.va, req.size, req.key, req.affinity⟩] }).answer 1
  .next (match s.ctx? ctx with
  | some c =>
    if !s.booted || !s.allocOk c req then s.answer 0
    else if req.host then give s
    else s.place ctx (.pages req) 0 give
  | none => s.answer 0)

/-- Whether a mapping change is well formed (R117). -/
def mapRequestOk (q : MapRequest) : Bool :=
  q.size != 0 && region q.va = .paged && region (q.va + q.size - 1) = .paged
    && (if q.unmap then q.va % 0x10000 = 0 && q.size % 0x10000 = 0
      else pageSizes.contains q.pageSize && q.va % q.pageSize = 0 && q.size = q.pageSize * q.phys.length
        && attrsOk q.r q.w q.host q.key && (q.key = 0 || (q.key < 65536 && q.pageSize = 0x10000))
        && q.phys.all (physOk q.host q.pageSize))

/-- Whether a change leaves the pages of every key where their placement asks: matching pages in one stack (R127). -/
def State.keyKept (s : State) (c : Context) (q : MapRequest) (pages : List Page) : Bool :=
  let keys := ((c.allocs.map Alloc.key).filter fun k => k != 0).eraseDups
  q.unmap || keys.all fun k =>
    let theirs := ((c.allocs.filter fun a => a.key = k).map (s.allocStacks c pages)).zipIdx
    theirs.all fun a => theirs.all fun b => a.2 = b.2 || keyMet a.1 b.1

/-- MAPPING_CHANGE (R120): it completes by a step of its own. -/
def execMappingChange (ctx : Nat) (req : MapRequest) (s : State) : Host.Outcome State Fault Refusal :=
  .next (match s.ctx? ctx with
  | none => s.answer 0
  | some c =>
    let ps := if req.unmap then [] else pagesOf req.va req.pageSize req.r req.w req.x req.host req.key req.phys
    if !s.booted || !mapRequestOk req || !s.keyKept c req ps then s.answer 0
    else (s.enterChange (some ctx) req.va req.size ps req.unmap true).answer 1)

/-! ### The placement directory (R114) -/

/-- A record of the placement directory. -/
inductive Placement where
  | workgroup (linear vault sbase : Nat)
  | tile (target tile vault : Nat)
  | replica (handle : Word) (die vault : Nat)
  | page (va stack : Nat)
  deriving DecidableEq, Repr

/-- What the directory of a context records (R114, R126, R127). -/
def State.placements (s : State) (c : Context) : List Placement :=
  ((s.wgs.filter fun g => g.ctx = c.id && g.resident).map fun g => Placement.workgroup g.linear g.core g.sbase)
    ++ (c.targets.flatMap fun t => t.vaults.map fun v => Placement.tile t.index v.1 v.2.1)
    ++ (c.objects.flatMap fun o => o.replicas.zipIdx.map fun r => Placement.replica o.handle r.2 r.1.vault)
    ++ ((c.pages.filter fun p => !p.host).map fun p => Placement.page p.va (stackOf p.phys))

end Sys2Proof.Machine
end

