-- ==== Sys2Proof/Machine/Dispatch.lean ====
section
/-! DEFINITION. The dispatch of `exec`: one arm for each constructor of Instr. -/

namespace Sys2Proof.Machine

def exec (i : Instr) (s : State) : Host.Outcome State Fault Refusal :=
  match i with
  | .nop f => Sys2Proof.Machine.execNop f s
  | .exit f => Sys2Proof.Machine.execExit f s
  | .dfence f => Sys2Proof.Machine.execDfence f s
  | .dictsw f => Sys2Proof.Machine.execDictsw f s
  | .yield f => Sys2Proof.Machine.execYield f s
  | .bkpt f => Sys2Proof.Machine.execBkpt f s
  | .braUniform f => Sys2Proof.Machine.execBraUniform f s
  | .trap f => Sys2Proof.Machine.execTrap f s
  | .rte f => Sys2Proof.Machine.execRte f s
  | .ret f => Sys2Proof.Machine.execRet f s
  | .sread f => Sys2Proof.Machine.execSread f s
  | .swrite f => Sys2Proof.Machine.execSwrite f s
  | .swriteTrappc f => Sys2Proof.Machine.execSwriteTrappc f s
  | .swriteSrseed f => Sys2Proof.Machine.execSwriteSrseed f s
  | .swriteTrapdict f => Sys2Proof.Machine.execSwriteTrapdict f s
  | .swriteCexctl f => Sys2Proof.Machine.execSwriteCexctl f s
  | .swritePcmp f => Sys2Proof.Machine.execSwritePcmp f s
  | .dictld f => Sys2Proof.Machine.execDictld f s
  | .waitc f => Sys2Proof.Machine.execWaitc f s
  | .voteActive f => Sys2Proof.Machine.execVoteActive f s
  | .vote f => Sys2Proof.Machine.execVote f s
  | .bra f => Sys2Proof.Machine.execBra f s
  | .brx f => Sys2Proof.Machine.execBrx f s
  | .call f => Sys2Proof.Machine.execCall f s
  | .callx f => Sys2Proof.Machine.execCallx f s
  | .join f => Sys2Proof.Machine.execJoin f s
  | .reform f => Sys2Proof.Machine.execReform f s
  | .reformHome f => Sys2Proof.Machine.execReformHome f s
  | .window f => Sys2Proof.Machine.execWindow f s
  | .sleep f => Sys2Proof.Machine.execSleep f s
  | .elect f => Sys2Proof.Machine.execElect f s
  | .launch f => Sys2Proof.Machine.execLaunch f s
  | .iadd f => Sys2Proof.Machine.execIadd f s
  | .isub f => Sys2Proof.Machine.execIsub f s
  | .imul f => Sys2Proof.Machine.execImul f s
  | .imulh f => Sys2Proof.Machine.execImulh f s
  | .imad f => Sys2Proof.Machine.execImad f s
  | .isha f => Sys2Proof.Machine.execIsha f s
  | .imin f => Sys2Proof.Machine.execImin f s
  | .imax f => Sys2Proof.Machine.execImax f s
  | .iabs f => Sys2Proof.Machine.execIabs f s
  | .and f => Sys2Proof.Machine.execAnd f s
  | .or f => Sys2Proof.Machine.execOr f s
  | .xor f => Sys2Proof.Machine.execXor f s
  | .shl f => Sys2Proof.Machine.execShl f s
  | .shr f => Sys2Proof.Machine.execShr f s
  | .rotl f => Sys2Proof.Machine.execRotl f s
  | .bfx f => Sys2Proof.Machine.execBfx f s
  | .bfi f => Sys2Proof.Machine.execBfi f s
  | .popc f => Sys2Proof.Machine.execPopc f s
  | .clz f => Sys2Proof.Machine.execClz f s
  | .brev f => Sys2Proof.Machine.execBrev f s
  | .isetp f => Sys2Proof.Machine.execIsetp f s
  | .sel f => Sys2Proof.Machine.execSel f s
  | .mov f => Sys2Proof.Machine.execMov f s
  | .movi f => Sys2Proof.Machine.execMovi f s
  | .bsel f => Sys2Proof.Machine.execBsel f s
  | .pset f => Sys2Proof.Machine.execPset f s
  | .rdlane f => Sys2Proof.Machine.execRdlane f s
  | .bcast f => Sys2Proof.Machine.execBcast f s
  | .fadd f => Sys2Proof.Machine.execFadd f s
  | .fmul f => Sys2Proof.Machine.execFmul f s
  | .ffma f => Sys2Proof.Machine.execFfma f s
  | .fmin f => Sys2Proof.Machine.execFmin f s
  | .fmax f => Sys2Proof.Machine.execFmax f s
  | .fsetp f => Sys2Proof.Machine.execFsetp f s
  | .fscl f => Sys2Proof.Machine.execFscl f s
  | .rcp f => Sys2Proof.Machine.execRcp f s
  | .rsq f => Sys2Proof.Machine.execRsq f s
  | .sqrt f => Sys2Proof.Machine.execSqrt f s
  | .exp2 f => Sys2Proof.Machine.execExp2 f s
  | .log2 f => Sys2Proof.Machine.execLog2 f s
  | .sin f => Sys2Proof.Machine.execSin f s
  | .cos f => Sys2Proof.Machine.execCos f s
  | .tanh f => Sys2Proof.Machine.execTanh f s
  | .frc f => Sys2Proof.Machine.execFrc f s
  | .frnd f => Sys2Proof.Machine.execFrnd f s
  | .cvt f => Sys2Proof.Machine.execCvt f s
  | .f2i f => Sys2Proof.Machine.execF2i f s
  | .i2f f => Sys2Proof.Machine.execI2f f s
  | .fclass f => Sys2Proof.Machine.execFclass f s
  | .dot4 f => Sys2Proof.Machine.execDot4 f s
  | .qxh f => Sys2Proof.Machine.execQxh f s
  | .qxv f => Sys2Proof.Machine.execQxv f s
  | .qxd f => Sys2Proof.Machine.execQxd f s
  | .qbc f => Sys2Proof.Machine.execQbc f s
  | .ddx f => Sys2Proof.Machine.execDdx f s
  | .ddy f => Sys2Proof.Machine.execDdy f s
  | .lxch f => Sys2Proof.Machine.execLxch f s
  | .redw f => Sys2Proof.Machine.execRedw f s
  | .scanw f => Sys2Proof.Machine.execScanw f s
  | .matchw f => Sys2Proof.Machine.execMatchw f s
  | .ld f => Sys2Proof.Machine.execLd f s
  | .st f => Sys2Proof.Machine.execSt f s
  | .ldv f => Sys2Proof.Machine.execLdv f s
  | .stv f => Sys2Proof.Machine.execStv f s
  | .lds f => Sys2Proof.Machine.execLds f s
  | .pref f => Sys2Proof.Machine.execPref f s
  | .atom f => Sys2Proof.Machine.execAtom f s
  | .atomv f => Sys2Proof.Machine.execAtomv f s
  | .cas f => Sys2Proof.Machine.execCas f s
  | .red f => Sys2Proof.Machine.execRed f s
  | .redv f => Sys2Proof.Machine.execRedv f s
  | .fence f => Sys2Proof.Machine.execFence f s
  | .lineProbe f => Sys2Proof.Machine.execLineProbe f s
  | .lineZero f => Sys2Proof.Machine.execLineZero f s
  | .waitw f => Sys2Proof.Machine.execWaitw f s
  | .swarm f => Sys2Proof.Machine.execSwarm f s
  | .swwait f => Sys2Proof.Machine.execSwwait f s
  | .tex f => Sys2Proof.Machine.execTex f s
  | .tld f => Sys2Proof.Machine.execTld f s
  | .bara f => Sys2Proof.Machine.execBara f s
  | .barw f => Sys2Proof.Machine.execBarw f s
  | .bars f => Sys2Proof.Machine.execBars f s
  | .jset f => Sys2Proof.Machine.execJset f s
  | .jsign f => Sys2Proof.Machine.execJsign f s
  | .convergenceOpComplete wg j => Sys2Proof.Machine.execConvergenceOpComplete wg j s
  | .jwait f => Sys2Proof.Machine.execJwait f s
  | .wload f => Sys2Proof.Machine.execWload f s
  | .mma f => Sys2Proof.Machine.execMma f s
  | .mmg f => Sys2Proof.Machine.execMmg f s
  | .tldt f => Sys2Proof.Machine.execTldt f s
  | .tstt f => Sys2Proof.Machine.execTstt f s
  | .tmov f => Sys2Proof.Machine.execTmov f s
  | .tcvt f => Sys2Proof.Machine.execTcvt f s
  | .tscl f => Sys2Proof.Machine.execTscl f s
  | .acz f => Sys2Proof.Machine.execAcz f s
  | .acrd f => Sys2Proof.Machine.execAcrd f s
  | .acwr f => Sys2Proof.Machine.execAcwr f s
  | .acst f => Sys2Proof.Machine.execAcst f s
  | .post f => Sys2Proof.Machine.execPost f s
  | .tsamp f => Sys2Proof.Machine.execTsamp f s
  | .ocall f => Sys2Proof.Machine.execOcall f s
  | .oread f => Sys2Proof.Machine.execOread f s
  | .sld f => Sys2Proof.Machine.execSld f s
  | .sst f => Sys2Proof.Machine.execSst f s
  | .marg f => Sys2Proof.Machine.execMarg f s
  | .mret f => Sys2Proof.Machine.execMret f s
  | .mtrap f => Sys2Proof.Machine.execMtrap f s
  | .ostat f => Sys2Proof.Machine.execOstat f s
  | .ctxsv f => Sys2Proof.Machine.execCtxsv f s
  | .ctxrs f => Sys2Proof.Machine.execCtxrs f s
  | .tlbi f => Sys2Proof.Machine.execTlbi f s
  | .dictrd f => Sys2Proof.Machine.execDictrd f s
  | .lanex f => Sys2Proof.Machine.execLanex f s
  | .parkr f => Sys2Proof.Machine.execParkr f s
  | .hatchArgStore wg warp => Sys2Proof.Machine.execHatchArgStore wg warp s
  | .copyLinear wg warp => Sys2Proof.Machine.execCopyLinear wg warp s
  | .copyStrided wg warp => Sys2Proof.Machine.execCopyStrided wg warp s
  | .copyFill wg warp => Sys2Proof.Machine.execCopyFill wg warp s
  | .nmLoad wg warp => Sys2Proof.Machine.execNmLoad wg warp s
  | .nmRun wg warp => Sys2Proof.Machine.execNmRun wg warp s
  | .draw wg warp => Sys2Proof.Machine.execDraw wg warp s
  | .invoke wg warp => Sys2Proof.Machine.execInvoke wg warp s
  | .readout wg warp => Sys2Proof.Machine.execReadout wg warp s
  | .queuePush wg warp => Sys2Proof.Machine.execQueuePush wg warp s
  | .goAccept wg warp engine => Sys2Proof.Machine.execGoAccept wg warp engine s
  | .copyPortionLand cmd portion => Sys2Proof.Machine.execCopyPortionLand cmd portion s
  | .completionRegisterWrite wg warp gid => Sys2Proof.Machine.execCompletionRegisterWrite wg warp gid s
  | .nmLoadPart cmd stack bad => Sys2Proof.Machine.execNmLoadPart cmd stack bad s
  | .nmWave cmd stack chunks failing => Sys2Proof.Machine.execNmWave cmd stack chunks failing s
  | .orderTokenIssue cmd tri tx ty => Sys2Proof.Machine.execOrderTokenIssue cmd tri tx ty s
  | .fragmentApply ctx target frag => Sys2Proof.Machine.execFragmentApply ctx target frag s
  | .invokeApply cmd x y => Sys2Proof.Machine.execInvokeApply cmd x y s
  | .workgroupAdmission launch core sbase places => Sys2Proof.Machine.execWorkgroupAdmission launch core sbase places s
  | .gangReservation launch gang core sbase places => Sys2Proof.Machine.execGangReservation launch gang core sbase places s
  | .gangAged launch gang => Sys2Proof.Machine.execGangAged launch gang s
  | .binDraw core bin slot place => Sys2Proof.Machine.execBinDraw core bin slot place s
  | .loadDataLand access => Sys2Proof.Machine.execLoadDataLand access s
  | .translationComplete core ctx va => Sys2Proof.Machine.execTranslationComplete core ctx va s
  | .pageZeroingComplete ctx va => Sys2Proof.Machine.execPageZeroingComplete ctx va s
  | .writeQueueApply line => Sys2Proof.Machine.execWriteQueueApply line s
  | .dictSlotLoad core phys unreadable => Sys2Proof.Machine.execDictSlotLoad core phys unreadable s
  | .waitwReread lane => Sys2Proof.Machine.execWaitwReread lane s
  | .syncExtwait lane => Sys2Proof.Machine.execSyncExtwait lane s
  | .sleepExpiry wg warp gid => Sys2Proof.Machine.execSleepExpiry wg warp gid s
  | .handlerEntry wg => Sys2Proof.Machine.execHandlerEntry wg s
  | .hangDetected ctx => Sys2Proof.Machine.execHangDetected ctx s
  | .eventRetire ctx seq => Sys2Proof.Machine.execEventRetire ctx seq s
  | .hostEventAnswer ctx seq answer => Sys2Proof.Machine.execHostEventAnswer ctx seq answer s
  | .preemptRequest ctx => Sys2Proof.Machine.execPreemptRequest ctx s
  | .cooperativeSave launch gang => Sys2Proof.Machine.execCooperativeSave launch gang s
  | .preForced launch gang => Sys2Proof.Machine.execPreForced launch gang s
  | .contextSaveComplete ctx => Sys2Proof.Machine.execContextSaveComplete ctx s
  | .replayApply ctx obj die badLog => Sys2Proof.Machine.execReplayApply ctx obj die badLog s
  | .replicaRebuild ctx obj die source => Sys2Proof.Machine.execReplicaRebuild ctx obj die source s
  | .coreUe core => Sys2Proof.Machine.execCoreUe core s
  | .vaultLineUe vault line => Sys2Proof.Machine.execVaultLineUe vault line s
  | .hbmChunkUe stack chunk => Sys2Proof.Machine.execHbmChunkUe stack chunk s
  | .dictSlotUe core phys => Sys2Proof.Machine.execDictSlotUe core phys s
  | .replicaUe ctx obj die => Sys2Proof.Machine.execReplicaUe ctx obj die s
  | .bmuFault vault bank => Sys2Proof.Machine.execBmuFault vault bank s
  | .machineCheck isFabric => Sys2Proof.Machine.execMachineCheck isFabric s
  | .clockThrottle aclk vclk banks => Sys2Proof.Machine.execClockThrottle aclk vclk banks s
  | .cexRemainTick ctx => Sys2Proof.Machine.execCexRemainTick ctx s
  | .hostQueuePush ctx go => Sys2Proof.Machine.execHostQueuePush ctx go s
  | .hostGoAccept ctx => Sys2Proof.Machine.execHostGoAccept ctx s
  | .attach a0 a1 a2 => Sys2Proof.Machine.execAttach a0 a1 a2 s
  | .detach a0 => Sys2Proof.Machine.execDetach a0 s
  | .halt a0 a1 => Sys2Proof.Machine.execHalt a0 a1 s
  | .resume a0 a1 => Sys2Proof.Machine.execResume a0 a1 s
  | .step a0 a1 => Sys2Proof.Machine.execStep a0 a1 s
  | .snapshot a0 a1 a2 => Sys2Proof.Machine.execSnapshot a0 a1 a2 s
  | .dict a0 a2 => Sys2Proof.Machine.execDict a0 a2 s
  | .trace a0 a1 a2 => Sys2Proof.Machine.execTrace a0 a1 a2 s
  | .dreset v => Sys2Proof.Machine.execDreset v s
  | .registerWrite off v => Sys2Proof.Machine.execRegisterWrite off v s
  | .hostBar2Read off len => Sys2Proof.Machine.execHostBar2Read off len s
  | .hostBar2Write off bytes => Sys2Proof.Machine.execHostBar2Write off bytes s
  | .reset boot => Sys2Proof.Machine.execReset boot s
  | .attestationReport nonce => Sys2Proof.Machine.execAttestationReport nonce s
  | .ethWriteFrame frame => Sys2Proof.Machine.execEthWriteFrame frame s
  | .ethReadRequest frame => Sys2Proof.Machine.execEthReadRequest frame s
  | .ethReadData frame => Sys2Proof.Machine.execEthReadData frame s
  | .ethAcknowledge frame => Sys2Proof.Machine.execEthAcknowledge frame s
  | .ethFrameDiscard frame => Sys2Proof.Machine.execEthFrameDiscard frame s
  | .resendTimeout flow => Sys2Proof.Machine.execResendTimeout flow s
  | .contextCreate ctx bankKey => Sys2Proof.Machine.execContextCreate ctx bankKey s
  | .contextMakeResident ctx => Sys2Proof.Machine.execContextMakeResident ctx s
  | .contextDestroy ctx => Sys2Proof.Machine.execContextDestroy ctx s
  | .modeWrite ctx v => Sys2Proof.Machine.execModeWrite ctx v s
  | .objectCreate ctx kind desc places home => Sys2Proof.Machine.execObjectCreate ctx kind desc places home s
  | .objectDestroy ctx handle => Sys2Proof.Machine.execObjectDestroy ctx handle s
  | .allocate ctx req => Sys2Proof.Machine.execAllocate ctx req s
  | .mappingChange ctx req => Sys2Proof.Machine.execMappingChange ctx req s
  | .ageLimitSet ctx v => Sys2Proof.Machine.execAgeLimitSet ctx v s
  | .extwaitSet ctx v => Sys2Proof.Machine.execExtwaitSet ctx v s
  | .hanglimitSet ctx v => Sys2Proof.Machine.execHanglimitSet ctx v s
  | .trapConfigSet ctx base slot img => Sys2Proof.Machine.execTrapConfigSet ctx base slot img s
  | .bankKeyRead ctx => Sys2Proof.Machine.execBankKeyRead ctx s
  | .eventAreaRegister ctx addr => Sys2Proof.Machine.execEventAreaRegister ctx addr s
  | .hangAreaRegister ctx addr => Sys2Proof.Machine.execHangAreaRegister ctx addr s
  | .writePerform access => Sys2Proof.Machine.execWritePerform access s
  | .mappingChangeComplete change => Sys2Proof.Machine.execMappingChangeComplete change s
  | .restoreComplete ctx => Sys2Proof.Machine.execRestoreComplete ctx s

end Sys2Proof.Machine
end

