-- ==== Sys2Proof/Machine/Issue.lean ====
section
/-! DEFINITION. The course of an issue up to and after the execution of its instruction: the fetch, what takes its place,
and the decode (R118, R130 to R132, R377, R476, R481, R482, R488). -/

namespace Sys2Proof.Machine

/-- An issue within a skid counts: in its group, and in SKID of its home warp (R377). -/
def State.countSkid (s : State) (x : Iss) : State :=
  if x.members.any fun m => s.skidding m.ref then
    let k := s.nextReadsLatch x
    let s := s.updGroup x.g fun q =>
      if k then { q with chain := q.chain + 1 } else { q with skid := q.skid + 1, chain := 0 }
    match x.g with
    | .home wg w _ => s.updWarp wg w fun v => { v with skid := v.skid + 1 }
    | .reformed _ _ _ => s
  else s

/-- Lanes of an issue whose fetch finds no mapping park, and what that lets happen follows; where no record is free they
wait to try again; in privileged mode that is fatal (R118, R121, R383). -/
def State.fetchAbsent (s : State) (x : Iss) (pc : Word) : State :=
  let va := (s.fetchBase x + pc.setWidth 64).toNat
  let refs := x.members.map Member.ref
  if x.priv then s.killContext x.ctx .pageAbsent (refs.head?.map fun r => ⟨r, .pageAbsent, eaDetail va⟩)
  else
    let t := refs.foldl (fun s r => (s.park x.ctx x.core va [r] false).getD s) s
    let stays := refs.any fun r => (t.lane? r).any Lane.issuing
    if stays then s.stall x .translation
    else ((t.setHold x.g none).regroup x.g ⟨.none, 0⟩).afterAll refs

/-- A fault of the fetch or decode in every lane of the group. -/
def State.issueFault (s : State) (x : Iss) (c : Cause) (d : BitVec 52) : State :=
  (s.setHold x.g none).raise (x.members.map fun m => ⟨m.ref, c, d⟩)

/-- What precedes the execution of an issue: the instruction, the state it executes in, and the state without the side
effects of the issue; or the state the issue ends in without an instruction. -/
inductive Ready where
  | run (i : Instr) (s bare : State)
  | stop (s : State)
  deriving Repr

/-- A debug cause that an issue takes before it executes: its lanes, the cause, and the state without what asked for it (R481, R482,
R488). -/
def State.debugCause (s : State) (x : Iss) : Option (List LaneRef × Cause × State) :=
  match x.members.find? fun m => !x.priv && (s.wg? m.ref.wg).any Workgroup.pendHalt with
  | some m => some ([m.ref], .step, s.updWg m.ref.wg fun g => { g with pendHalt := false })
  | none =>
    if (s.warp? x.wg x.warp).any (fun v => v.stepping = 2) then
      some (x.members.map Member.ref, .step, s.updWarp x.wg x.warp fun v => { v with stepping := 0 })
    else if (s.ctx? x.ctx).any Context.causalEnd then
      some ((x.members.take 1).map Member.ref, .causalEnd, s.updCtx x.ctx fun c => { c with causalEnd := false })
    else none

/-- An issue that a halt request, STEP or CAUSAL_END takes before it executes; where 64 workgroups stand halted for debug the cause waits,
and the group with it (R480 to R482, R488). -/
def State.preempted (s : State) (x : Iss) : Option State :=
  (s.debugCause x).map fun q =>
    let attached := ((s.ctx? x.ctx).bind Context.debug).isSome
    if attached && q.1.any (fun r => s.debugFull x.ctx r.wg) then s.stall x .trapHalt
    else q.2.2.raise (q.1.map fun r => ⟨r, q.2.1, 0⟩)

/-- The word and literal fetched, the instruction decoded, and the side effects of an issue made. -/
def State.issueWord (s : State) (x : Iss) (w lit : Word) : Ready :=
  if s.matchesApart x then .stop (s.partGroup x.g (s.freshAt x))
  else match s.matches x 1 with
  | n :: _ =>
    let s := s.comparators x w lit
    .stop (s.issueFault x .pcmatch (BitVec.ofNat 52 n))
  | [] =>
    let bare := s
    let s := ((s.comparators x w lit).visit x).countSkid x
    let s := (s.switchGroup x).updLanes (x.members.map Member.ref) fun l => { l with fresh := false }
    match s.decodeIn x w lit with
    | .error c =>
      let d := if c = .eccDict then eaDetail (s.fetchBase x + x.pc.setWidth 64).toNat else 0
      .stop (s.issueFault x c d)
    | .ok i => .run i { s with cur := .group x.g } bare

/-- What an issue attempt does for a group in SWWAIT: it looks again (R267). -/
def State.lookAgain (s : State) (x : Iss) : Option State :=
  match (s.groupOf x.g).bind Group.hold with
  | some (.swwait asks npc regs nwb kept) => some (s.swwaitAgain x asks npc regs nwb kept)
  | _ => none

/-- Lanes that left a reformed group with their carried registers write them back into their home map before they issue there:
the state with that done, or the state in which the issue waits for a row in flight, or faults for want of one (R149, R341). -/
def State.carryHome (s : State) (x : Iss) : List LaneRef → State → Except State State
  | [], t => .ok t
  | r :: rest, t =>
    match t.warp? r.wg r.warp, (t.lane? r).bind Lane.carry with
    | some v, some vals =>
      match v.homeRows r vals with
      | .wait => .error (s.stall x .memoryData)
      | .full reg => .error ((s.setHold x.g none).raise [⟨r, .regLivemax, BitVec.ofNat 52 reg⟩])
      | .rows rows => s.carryHome x rest
          ((t.updWarp r.wg r.warp fun v => { v with rows := rows }).updLane r fun l => { l with carry := none })
    | _, _ => s.carryHome x rest t

/-- What stands before the fetch of an issue: a group in SWWAIT that looks again, a halt, and the write-back of carried
registers. -/
def State.beforeFetch (s : State) (x : Iss) : Except State State :=
  match (s.lookAgain x).or (s.preempted x) with
  | some t => .error t
  | none => if x.carried.isSome then .ok s else s.carryHome x (x.members.map Member.ref) s

/-- The issue of a group up to its execution (R130 to R132). -/
def State.prepareIssue (s : State) (x : Iss) : Ready :=
  match s.beforeFetch x with
  | .error t => .stop t
  | .ok s =>
    match s.fetchAt x x.pc with
    | .fault c d => .stop (s.issueFault x c d)
    | .wait => .stop ((s.startWalk x.core x.ctx (s.fetchBase x + x.pc.setWidth 64).toNat).stall x .fetch)
    | .absent => .stop (s.fetchAbsent x x.pc)
    | .word w =>
      if takesLiteral w (s.slotEntry x.core x.ctx x.dslot) && x.pc != 0xFFFFFFFC && (s.slotCause x (wordDix w).toNat).isNone then
        match s.fetchAt x (x.pc + 4) with
        | .fault c d => .stop (s.issueFault x c d)
        | .wait => .stop ((s.startWalk x.core x.ctx (s.fetchBase x + (x.pc + 4).setWidth 64).toNat).stall x .fetch)
        | .absent => .stop (s.fetchAbsent x (x.pc + 4))
        | .word lit => s.issueWord x w lit
      else s.issueWord x w 0

/-- What follows the execution of an issue: the executor is gone, and a stepped group is halted again, at once or, where its instruction
made it wait, before it next issues (R482). -/
def State.afterIssue (s : State) (x : Iss) : State :=
  let s := { s with cur := .none }
  if (s.warp? x.wg x.warp).any (fun v => v.stepping = 1) && !((s.groupOf x.g).any fun g => holdRetries g.hold) then
    if x.members.any (fun m => (s.lane? m.ref).any Lane.halted) then s.updWarp x.wg x.warp fun v => { v with stepping := 0 }
    else
      let out := x.members.filter fun m => (s.lane? m.ref).any Lane.issuing
      if out = [] || (s.groupOf x.g).any (fun g => g.hold.isSome) || s.debugFull x.ctx x.wg then s.updWarp x.wg x.warp fun v => { v with stepping := 2 }
      else (s.updWarp x.wg x.warp fun v => { v with stepping := 0 }).raise (out.map fun m => ⟨m.ref, .step, 0⟩)
  else s

/-- An instruction that only found that it must wait has not issued: of what it did, the reason of its group and the walks
it started remain (R106, R119). -/
def State.notIssued (s : State) (x : Iss) (u : State) : State :=
  ({ s with walks := u.walks }).setHold x.g ((u.groupOf x.g).bind Group.hold)

/-- An issue made ready, as `Ready` with the issue; or the state it ends in without an instruction. -/
inductive ReadyIssue where
  | run (x : Iss) (i : Instr) (s bare : State)
  | stop (s : State)
  deriving Repr

/-- The issue of a group, where it may issue. -/
def State.readyIssue (s : State) (g : GroupRef) : ReadyIssue :=
  match s.iss? g with
  | none => .stop s
  | some x =>
    if s.canIssue x then
      match s.prepareIssue x with
      | .stop t => .stop t
      | .run i t bare => .run x i t bare
    else .stop s

end Sys2Proof.Machine
end

