-- ==== Sys2Proof/Machine/Agenda.lean ====
section
/-! DEFINITION. What the package does where the agenda names no action (log 1): the first step of the device that is due,
else a group that may issue, else the passing of a cycle. -/

namespace Sys2Proof.Machine

/-- The steps of accesses, queued writes, walks and dictionary loads, oldest first. -/
def State.memorySteps (s : State) : List Instr :=
  (s.pend.map fun a =>
    match a.kind with
    | .store _ | .red _ _ _ => Instr.writePerform a.seq
    | _ => .loadDataLand a.seq)
    ++ (s.queue.map fun q => .writeQueueApply q.line)
    ++ (s.walks.map fun w => .translationComplete w.core w.ctx w.va)
    ++ (s.cores.filterMap fun c => c.jobs.head?.map fun j => .dictSlotLoad c.vault j.phys [])
    ++ (s.changes.map fun c => .mappingChangeComplete c.id)
    ++ s.contexts.flatMap fun c => (c.pages.filter Page.z).map fun p => .pageZeroingComplete c.id p.va

/-- How many portion numbers the destination of a command has, some of no portion (R277). -/
def Command.portions (c : Command) : Nat :=
  match c.work with
  | .copy _ _ _ len rows _ _ _ _ _ _ => rows * (len / 64 + 2)
  | .readout _ _ _ _ _ _ _ _ => c.total / 64 + 2
  | _ => 0

/-- The steps of an engine command. -/
def Command.steps (c : Command) : List Instr :=
  let land := ((List.range c.portions).filter fun p => !c.work.landed.contains p).map fun p => Instr.copyPortionLand c.id p
  match c.work with
  | .copy _ _ _ _ _ _ _ _ _ _ _ | .readout _ _ _ _ _ _ _ _ => land
  | .nmLoad _ _ _ left => left.map fun k => .nmLoadPart c.id k false
  | .nmRun _ _ _ _ _ _ parts _ _ _ => parts.map fun p => .nmWave c.id p.1 (p.2.2.take 1) []
  | .draw _ _ tokens _ => tokens.map fun k => .orderTokenIssue c.id k.tri k.tx k.ty
  | .invoke _ _ _ _ _ _ _ _ | .push _ _ | .other => []

/-- The steps of a context's targets and objects. -/
def Context.steps (cmds : List Command) (c : Context) : List Instr :=
  (c.targets.flatMap fun t =>
    (t.frags.map fun f => Instr.fragmentApply c.id t.index f.id)
      ++ cmds.flatMap fun k =>
        match k.work with
        | .invoke _ _ _ _ _ _ _ left => left.map fun i => .invokeApply k.id (i % t.w) (i / t.w)
        | _ => [])
    ++ (c.objects.flatMap fun o => (List.range 4).map fun d => .replayApply c.id o.handle.toNat d false)

/-- The steps of a warp's windows and holds. -/
def Warp.steps (wg w : Nat) (v : Warp) : List Instr :=
  (if v.stage.isSome then (List.range 64).map fun e => Instr.goAccept wg w e else [])
    ++ [.hatchArgStore wg w, .copyLinear wg w, .copyStrided wg w, .copyFill wg w, .nmLoad wg w, .nmRun wg w, .draw wg w
      , .invoke wg w, .readout wg w, .queuePush wg w]
    ++ v.ring.flatMap fun q =>
      match q.hold with
      | some (.creg _ _) => [.completionRegisterWrite wg w q.gid]
      | some (.sleep _) => [.sleepExpiry wg w q.gid]
      | _ => []

/-- The steps of a workgroup and its lanes. -/
def Workgroup.steps (g : Workgroup) : List Instr :=
  (g.warps.zipIdx.flatMap fun v => v.1.steps g.id v.2)
    ++ ((List.range g.jregs.length).map fun j => .convergenceOpComplete g.id j)
    ++ (if g.trap.isSome then [.handlerEntry g.id] else [])

/-- The steps of waits, reformed groups and contexts in a save, a restore or a deadlock. -/
def State.controlSteps (s : State) : List Instr :=
  (s.contexts.flatMap fun c => ((s.waits c.id).map fun w => Instr.waitwReread w.1.ref)
      ++ (s.waits c.id).map fun w => .syncExtwait w.1.ref)
    ++ (s.cores.flatMap fun c => c.groups.flatMap fun r => r.groups.map fun q => .sleepExpiry c.vault (32 + r.slot) q.gid)
    ++ ((s.windows.filter fun w => w.2.held != []).map fun w => .hostGoAccept w.1)
    ++ (s.launches.flatMap fun l => l.gangs.flatMap fun q =>
        [.gangAged l.id q.number, .cooperativeSave l.id q.number, .preForced l.id q.number])
    ++ s.contexts.flatMap fun c => [.contextSaveComplete c.id, .restoreComplete c.id, .hangDetected c.id, .cexRemainTick c.id]

/-- Whether a launch has workgroups to place. -/
def Launch.toPlace (l : Launch) : Bool := !l.ended && (l.waiting || l.lost != [] || l.gangs.any Gang.saved)

/-- The scheduler's steps: admissions, reservations and draws of bins, on the cores in order (log 7). -/
def State.schedulerSteps (s : State) : List Instr :=
  ((s.launches.filter Launch.toPlace).flatMap fun l => (List.range Config.numCores).flatMap fun core =>
    (s.vaultStarts core l.id).flatMap fun base =>
      (l.toReserve.map fun q => Instr.gangReservation l.id q.number core base ((s.gangFit l q core).getD []))
        ++ if l.header.flags.getLsbD 1 && l.lost = [] then [] else [.workgroupAdmission l.id core base ((s.fit l core).getD [])])
    ++ (s.launches.flatMap fun l => l.held.toList.map fun h => .workgroupAdmission l.id h.1 h.2.1 h.2.2)
    ++ s.cores.flatMap fun c => c.bins.flatMap fun b => (List.range 8).flatMap fun slot => (List.range 4).flatMap fun pane =>
        (List.range 8).map fun pipe => .binDraw c.vault b.number slot ⟨pane, pipe⟩

/-- Whether a step of the device is due: it changes something. -/
def State.due (s : State) (i : Instr) : Bool :=
  match exec i { s with cur := .none } with
  | .next t => t != s
  | _ => false

/-- The first step of the device that is due. -/
def State.dueStep (s : State) : Option Instr :=
  (s.memorySteps.find? s.due).or <|
    ((s.cmds.flatMap Command.steps).find? s.due).or <|
      ((s.contexts.flatMap (Context.steps s.cmds)).find? s.due).or <|
        ((s.wgs.flatMap Workgroup.steps).find? s.due).or <|
          (s.controlSteps.find? s.due).or (s.schedulerSteps.find? s.due)

/-! ### The exchange of scheduler entries (R104 to R106) -/

/-- The current group of a scheduler entry of a core (R81). -/
def State.entryGroup (s : State) (core : Nat) : Entry → Option GroupRef
  | .warp wg w => (s.warp? wg w).map fun v => .home wg w v.current
  | .slot n => ((s.core core).groups.find? fun r => r.slot = n).bind fun r => r.groups.head?.map fun q => .reformed core n q.gid

/-- What the next issue of a group finds: whether it begins a walk, and the hold it leaves the group in where it ends before its
instruction or its instruction is to be issued again. -/
def State.nextIssue (s : State) (x : Iss) : Bool × Option Hold :=
  let held (t : State) : Option Hold := (t.groupOf x.g).bind Group.hold
  match s.prepareIssue x with
  | .stop t => (t.walks != s.walks, held t)
  | .run i t _ =>
    match exec i t with
    | .next u => (u.walks != s.walks, if u.retries x then held u else none)
    | _ => (false, some (.stalled .fetch))

/-- Whether a group can issue its next instruction: nothing blocks it, and the instruction does not find that it must wait (R105). A
group whose next issue begins a walk, of its word or of its operands, counts as one that can: nothing else begins that walk (R107; DESIGN
CHOICE, log 15). -/
def State.wouldIssue (s : State) (x : Iss) : Bool :=
  s.mayGo x && (s.groupOf x.g).any (fun q => q.debt = 0) && !(x.members.any fun m => (s.wg? m.ref.wg).any s.forceDue)
    && ((s.nextIssue x).1 || (s.nextIssue x).2.isNone)

/-- Whether a hold is a long-latency dependence: memory data, engine completion, a barrier, a JOIN, a convergence wait or an
object-call return (R105). A group that DFENCE holds meets one while a load of its lanes is outstanding. -/
def State.longHold (s : State) (x : Iss) : Option Hold → Bool
  | some (.stalled .memoryData) | some (.stalled .completionWait) | some (.stalled .barrier) | some (.stalled .join)
  | some (.stalled .convergence) | some (.stalled .objectCall) => true
  | some (.stalled .dictFence) => s.pend.any fun a => a.kind.reads && x.members.any fun m => m.ref = a.lane
  | some (.creg _ _) | some (.swwait _ _ _ _ _) | some (.waitc _ _ _) => true
  | _ => false

/-- Whether the current group of the active entry of a pipe is blocked by a long-latency dependence: it is held by one, its next
instruction finds one, or none of its lanes is ISSUING (R105, R106). -/
def State.longBlocked (s : State) (core : Nat) (e : Entry) : Bool :=
  match (s.entryGroup core e).bind s.iss? with
  | none => true
  | some x => !s.wouldIssue x
      && (!(x.members.all fun m => (s.lane? m.ref).any Lane.issuing) || s.longHold x ((s.groupOf x.g).bind Group.hold)
        || (s.mayGo x && s.longHold x (s.nextIssue x).2))

/-- The entries of a pipe after an exchange: where the active one is blocked by a long-latency dependence, the oldest ready pending one
takes its place, and it is the youngest of the pending (R105). -/
def State.exchanged (s : State) (core : Nat) : List Entry → List Entry
  | [] => []
  | a :: pending =>
    if pending = [] || !s.longBlocked core a then a :: pending
    else match pending.find? fun e => ((s.entryGroup core e).bind s.iss?).any s.wouldIssue with
    | none => a :: pending
    | some e => e :: (pending.filter fun q => q != e) ++ [a]

/-- The exchange on every pipe (R105). -/
def State.swapAll (s : State) : State :=
  s.pipes.foldl (fun t p =>
    t.setPipe { t.pipe p.core p.pane p.pipe with entries := s.exchanged p.core (s.entries p.core p.pane p.pipe) }) s

/-- What the package does of itself after each action: scheduler entries are exchanged, and debug GOs that are held are taken up (R105,
R479). -/
def State.afterAction (s : State) : State := State.serveDebug s.dbgWin.held.length s.swapAll

/-! ### Stall reasons (R106) -/

/-- The reason a lane that waits gives its group. -/
def Wait.stall : Wait → Stall
  | .join _ _ => .join
  | .barrier _ _ => .barrier
  | .signed _ | .jwait _ _ => .convergence
  | .callFull _ _ _ _ | .call _ _ _ _ | .oread _ _ _ _ _ | .lost _ => .objectCall
  | .waitw _ _ _ _ _ _ _ | .settled _ _ _ _ _ _ => .memoryData
  | .yielded => .preemptSave
  | .landed _ _ _ => .trapHalt

/-- The reason a hold gives its group: of a hatch store whose GO waits for a page being zeroed, TRANSLATION (R106, R124, R271). -/
def State.holdStall (s : State) (x : Iss) : Hold → Stall
  | .stalled r => r
  | .sleep _ | .creg _ _ | .swwait _ _ _ _ _ | .waitc _ _ _ => .completionWait
  | .change _ => .translation
  | .window _ _ _ _ =>
    match s.hatchHead x.wg x.warp with
    | some (g, v, e) => if e.m = 4 && s.goCheck g x.warp (v.staged e) = .wait then .translation else .engineWindow
    | none => .engineWindow

/-- The number of a reason in the order of R106. -/
def Stall.rank : Stall → Nat
  | .trapHalt => 1 | .preemptSave => 2 | .dictFence => 3 | .fetch => 4 | .scoreboard => 5 | .completionWait => 6 | .memoryData => 7
  | .translation => 8 | .barrier => 9 | .join => 10 | .convergence => 11 | .objectCall => 12 | .engineWindow => 13 | .pipeBusy => 14
  | .notSelected => 15

/-- The reason of a lane that waits; a signer of a filled round that has not run waits for what the operation needs: a resource of an
earlier one, or a translation (R119, R349). -/
def State.waitStall (s : State) (r : LaneRef) : Wait → Stall
  | .signed j =>
    match s.wg? r.wg, s.conv? r.wg j with
    | some g, some c =>
      if c.filled = 0 || c.ran || c.stopped then .convergence
      else if g.matBusy (c.panes g) c.uses c.filled then .scoreboard else .translation
    | _, _ => .convergence
  | w => w.stall

/-- The reasons that apply to a group; what its next instruction finds counts, and a group that finds nothing in its way is ready. -/
def State.stalls (s : State) (x : Iss) : List Stall :=
  let halted := x.members.any fun m => !x.priv && ((s.wg? m.ref.wg).bind Workgroup.trap).isSome
  let saving := x.members.any fun m => (s.wg? m.ref.wg).any fun g => !g.resident || s.forceDue g
  let waits := x.members.filterMap fun m => match (s.lane? m.ref).map Lane.st with | some (.waiting w) => some (s.waitStall m.ref w) | _ => none
  let next := if s.mayGo x then (match (s.nextIssue x).2 with
    | some h => [s.holdStall x h]
    | none => if s.canIssue x then [] else [.notSelected]) else []
  (if halted then [.trapHalt] else []) ++ (if saving then [.preemptSave] else []) ++ waits
    ++ (((s.groupOf x.g).bind Group.hold).map (s.holdStall x)).toList ++ next

/-- The reason a blocked issue group reports: the first of R106 that applies to it. -/
def State.stallReason (s : State) (g : GroupRef) : Option Stall :=
  (s.iss? g).bind fun x => (s.stalls x).foldl (fun (r : Option Stall) q =>
    match r with
    | some p => some (if q.rank < p.rank then q else p)
    | none => some q) none

/-! ### The choice -/

/-- The action taken where the agenda names none. -/
def State.defaultAction (s : State) : Action :=
  match s.dueStep with
  | some i => .event i
  | none =>
    let gs := s.issuable
    match gs[s.clock % gs.length]? with
    | some g => .issue g
    | none => .tick 1

end Sys2Proof.Machine
end

