-- ==== Sys2Proof/Machine/Step.lean ====
section
/-! DEFINITION. One step of the package: the next action of the agenda, performed (log 1). -/

namespace Sys2Proof.Machine

/-! ### Control cores (R18, R162, R308) -/

/-- Control core `n` as the model holds it: a workgroup of one warp of one lane, in privileged mode, of no context (log 13). -/
def controlCore (n : Nat) : Workgroup :=
  let v := Warp.atLaunch 0 64 ⟨0, 0⟩ 0 0 0 0
  let lone (g : Group) : Group := { g with lanes := [0] }
  let v := { v with lanes := v.lanes.take 1, ring := v.ring.map lone, privileged := true }
  Workgroup.atLaunch (2 ^ 64 + n) Config.numContexts (2 ^ 64 + n) 0 (Config.numCores + n) (programHeader 0) [v]

/-- The issue group of a control core. -/
def controlGroup (n : Nat) : GroupRef := .home (2 ^ 64 + n) 0 0

/-- The state in which a control core executes its next instruction: a core that has not run, or has executed EXIT, starts afresh. -/
def State.withControl (s : State) (n : Nat) : State :=
  if s.ctl.any fun g => g.id = 2 ^ 64 + n && !g.gone then s
  else { s with ctl := s.ctl.filter (fun g => g.id != 2 ^ 64 + n) ++ [controlCore n] }

/-- What stands after an instruction of a control core: it stays in privileged mode (R308). -/
def State.afterControl (s : State) (n : Nat) : State :=
  ({ s with cur := .none }).updWarp (2 ^ 64 + n) 0 fun v => { v with privileged := true }

/-- An instruction of the firmware of a control core, where the core executes it: one whose last instruction still waits, or that
finds that it must wait, changes nothing else (R18, R162, log 13). -/
def State.control (s : State) (n : Nat) (i : Instr) : Host.Outcome State Fault Refusal :=
  let t := s.withControl n
  match t.iss? (controlGroup n) with
  | none => .next s
  | some x =>
    if !controlMop (mopOf i) || 8 ≤ n || !(t.groupOf x.g).any (fun q => holdIssues q.hold) || !(t.lane? ⟨x.wg, 0, 0⟩).any Lane.issuing then
      .next s
    else match exec i { t with cur := .group x.g } with
    | .next u => .next (if u.retries x then t.notIssued x u else u.afterControl n)
    | o => o

/-- What an action does. An issue of a group that may not issue, and an event whose step is not due, change nothing. -/
def perform (a : Action) (s : State) : Host.Outcome State Fault Refusal :=
  match a with
  | .tick n => .next (s.passCycles n)
  | .event i => exec i { s with cur := .none }
  | .firmware n i => s.control n i
  | .issue g =>
    match s.readyIssue g with
    | .stop t => .next t
    | .run x i t bare =>
      match exec i t with
      | .next u => .next (if u.retries x then bare.notIssued x u else u.afterIssue x)
      | o => o

/-- The action a step performs, and the state it performs it in. -/
def State.nextAction (s : State) : Action × State :=
  match s.agenda with
  | a :: rest => (a, { s with agenda := rest })
  | [] => (s.defaultAction, s.passCycles 1)

/-- One step: an action, and what the package does of itself after it. -/
def step (s : State) : Host.Outcome State Fault Refusal :=
  match perform s.nextAction.1 s.nextAction.2 with
  | .next t => .next t.afterAction
  | o => o

/-- The state with an instruction stored where `step` fetches next (log 12): a context, a launch, a workgroup of one
warp on core 0 and an executable page are there for it, and the agenda's next action is the issue of its group. -/
def State.withFetchWord (s : State) (nbits w : Nat) : State :=
  let t := s.withProgram (tableBytes nbits w)
  { t with agenda := .issue (.home s.seq 0 0) :: s.agenda }

end Sys2Proof.Machine
end

