-- ==== Sys2Proof/Safety.lean ====
section
/-! DEFINITION. What claims about the package are stated in terms of: memory in canonical form, an issue that is ready to
execute, the results an issue writes, and what it leaves unchanged. -/

namespace Sys2Proof.Machine

/-- The invariant of the package's memory: its table is canonical. -/
def State.Inv (s : State) : Prop := Memory.wf s.mem = true

/-! ### An issue that is ready -/

/-- A register map whose rows have numbers of their own and 32 values each. -/
def RowsOk (rows : List Row) : Prop := (rows.map Row.id).Nodup ∧ ∀ r ∈ rows, r.vals.length = 32

/-- The active lanes of an issue: its members whose guard is true (R132). -/
def State.actives (s : State) (x : Iss) (f : Form) : List Act :=
  x.members.filterMap fun m => (s.lane? m.ref).bind fun l => if guardOf f l then some ⟨m, l⟩ else none

/-- What the active lanes of an issue read: a lane that names a register it does not carry has no operands (R92). -/
def State.reads (s : State) (x : Iss) (f : Form) (g : Sig) : Env := (s.env x).within x f g (s.actives x f)

/-- The operands of an active lane; none at an empty latch (R140), or where it names a register it does not carry (R92). -/
def State.argsOf (s : State) (x : Iss) (f : Form) (g : Sig) (a : Act) : Option Args :=
  (s.reads x f g).args f g x.wbase a.m.pos a.lane

/-- The issue `exec` acts for may execute an instruction: its word decodes (R134), a reformed group may issue it (R92),
and no source awaits a result (R145). -/
structure CanIssue (i : Instr) (f : Form) (forbidden : Bool) (s : State) (x : Iss) : Prop where
  issue   : s.curIss? = some x
  decodes : decodeFault i f (s.limits x) = none
  allowed : s.actives x f = [] ∨ binFault x f forbidden = false
  idle    : (s.reads x f (sigOf i f)).busy x f (sigOf i f) = false

/-- The parts of the state an issue uses are in order: its map, and a position and an ISSUING lane of its own for each
member. -/
structure IssueOk (s : State) (x : Iss) : Prop where
  rows  : RowsOk (s.rowsOf x)
  pos   : ∀ m ∈ x.members, m.pos < 32
  poss  : (x.members.map Member.pos).Nodup
  lanes : (x.members.map Member.ref).Nodup
  live  : ∀ m ∈ x.members, ∃ l, s.lane? m.ref = some l ∧ l.st = .issuing

/-! ### Registers, latches, flags -/

/-- A register of an issue's map at a lane position: an unmapped one reads 0 (R145). -/
def State.readReg (s : State) (x : Iss) (reg pos : Nat) : Word := rowRead (s.rowsOf x) reg pos

/-- Bypass latch n of an issue's pipe at a lane position (R137). -/
def State.readLatch (s : State) (x : Iss) (pos n : Nat) : Latch := latchAt (s.pipe x.core x.pane x.pipe).latches pos n

/-- The registers an instruction releases by LU (R148). -/
def luRegs (f : Form) (g : Sig) (wbase : Nat) : List Nat :=
  let regs (s : Slot) (o : Opnd) : List Nat := if s.lu then slotRegs f wbase s o else []
  regs f.a g.a ++ regs f.b g.b ++ regs f.c g.c

/-- The destination registers can be prepared: a row is free for each, and none awaits a result (R146, R147). -/
structure DestOk (s : State) (x : Iss) (f : Form) (g : Sig) (results : Nat) : Prop where
  room : ∃ p, prepDest (s.mapLimit x) (releaseLu f g x.wbase (s.rowsOf x)) (dstRegs f g x.wbase)
    (!f.nwb && results != 0) (decide (results = 32)) = .inr p
  idle : ∀ reg ∈ dstRegs f g x.wbase, rowBusy (s.rowsOf x) reg = false

/-- A uniform result whose completion registers, if it names any, hold COUNT 0 (R274). -/
structure UniformOk (s : State) (x : Iss) (n : Nat) (words : List Word) : Prop where
  warp  : ∃ v, s.warp? x.wg x.warp = some v ∧ n + words.length ≤ v.uregs.length
  count : ∀ v k, s.warp? x.wg x.warp = some v → k < words.length → 56 ≤ n + k → cregCount (v.ureg (n + k)) = 0

/-- The flags that lanes of a warp raise (R60). -/
def raisedIn (rs : List LaneRes) (wg w : Nat) : Word :=
  rs.foldl (fun acc r => if r.a.m.ref.wg = wg ∧ r.a.m.ref.warp = w then acc ||| r.raised.setWidth 32 else acc) 0

/-- Whether an issue reads the map of a home warp. -/
def Iss.homeOf (x : Iss) (wg w : Nat) : Prop :=
  match x.g with
  | .home a b _ => a = wg ∧ b = w
  | .reformed _ _ _ => False

/-- What an instruction gives in each active lane, from the state, the issue, what it reads, and its active lanes. -/
abbrev LaneValue := State → Form → Iss → Env → Sig → List Act → Act → Option Val

/-- The value of an instruction whose lanes each compute from their own operands (R193); none at an empty latch (R140). -/
def ownValue (val : Form → Nat → Args → Val) : LaneValue := fun _ f x e g _ a =>
  (e.args f g x.wbase a.m.pos a.lane).map (val f a.m.pos)

/-- The results of an issue: one for each active lane that has a value. -/
def State.laneResults (s : State) (x : Iss) (f : Form) (g : Sig) (val : LaneValue) : List LaneRes :=
  (s.actives x f).filterMap fun a => (val s f x (s.reads x f g) g (s.actives x f) a).map fun v =>
    ⟨a, valWords (g.d.width f.ty) v.v, v.flags⟩

/-- Every active lane has a value. -/
def State.laneValues (s : State) (x : Iss) (f : Form) (g : Sig) (val : LaneValue) : Prop :=
  ∀ a ∈ s.actives x f, (val s f x (s.reads x f g) g (s.actives x f) a).isSome

/-! ### Frames -/

/-- What an instruction that works on registers, predicates and uniform registers leaves unchanged: everything but the
PCs, predicates, map, uniform registers and FPSTAT of the issue's own lanes, warps and group, and the latches of its pipe. -/
structure RegisterFrame (x : Iss) (s t : State) : Prop where
  package    : ∃ wgs ctl cores pipes, t = { s with wgs := wgs, ctl := ctl, cores := cores, pipes := pipes }
  memory     : ∀ a, Memory.read t.mem a = Memory.read s.mem a
  workgroups : ∀ id, t.wg? id = (s.wg? id).map fun g => { g with warps := ((t.wg? id).map Workgroup.warps).getD [] }
  warps      : ∀ wg w, t.warp? wg w = (s.warp? wg w).map fun v =>
    let u := (t.warp? wg w).getD v
    { v with rows := u.rows, lanes := u.lanes, ring := u.ring, fpstat := u.fpstat, uregs := u.uregs }
  cores      : ∀ v, t.core v = { s.core v with groups := (t.core v).groups }
  lanes      : ∀ r, r ∉ x.members.map Member.ref → t.lane? r = s.lane? r
  maps       : ∀ wg w, ¬x.homeOf wg w → (t.warp? wg w).map Warp.rows = (s.warp? wg w).map Warp.rows
  pipes      : ∀ c n i, ¬(c = x.core ∧ n = x.pane ∧ i = x.pipe) → t.pipe c n i = s.pipe c n i

/-- The flags of FPSTAT after an issue: those its lanes raise are set in their home warps, no other bit changes (R60). -/
def FlagsSet (rs : List LaneRes) (s t : State) : Prop :=
  ∀ wg w, (t.warp? wg w).map Warp.fpstat = (s.warp? wg w).map fun v => v.fpstat ||| raisedIn rs wg w

/-- No uniform register changes. -/
def UniformsKept (s t : State) : Prop := ∀ wg w, (t.warp? wg w).map Warp.uregs = (s.warp? wg w).map Warp.uregs

/-- Every member of an issue stands at the next PC, unchanged otherwise (R131). -/
def MovedOn (x : Iss) (f : Form) (s t : State) : Prop :=
  ∀ m ∈ x.members, t.lane? m.ref = (s.lane? m.ref).map fun l => { l with pc := nextPc f x.pc }

/-- The results `rs` of an issue, one for each lane that writes, stand in a vector destination (R138 to R148, R193). -/
structure VectorResult (x : Iss) (f : Form) (g : Sig) (act : List Act) (rs : List LaneRes) (s t : State) : Prop where
  written  : f.nwb = false → ∀ r ∈ rs, ∀ k reg : Nat, (dstRegs f g x.wbase)[k]? = some reg →
    t.readReg x reg r.a.m.pos = r.words.getD k 0
  kept     : ∀ reg pos, f.nwb = true ∨ reg ∉ dstRegs f g x.wbase ∨ pos ∉ rs.map (fun r => r.a.m.pos) →
    t.readReg x reg pos = if reg ∈ luRegs f g x.wbase then 0 else s.readReg x reg pos
  latched  : ∀ r ∈ rs, ∀ k, k < (dstRegs f g x.wbase).length →
    t.readLatch x r.a.m.pos ((dstRegs f g x.wbase).length - 1 - k) = .full (r.words.getD k 0)
  idle     : ∀ m ∈ x.members, m ∉ act.map Act.m → ∀ k reg : Nat, (dstRegs f g x.wbase)[k]? = some reg →
    t.readLatch x m.pos ((dstRegs f g x.wbase).length - 1 - k) = if f.nwb then .empty else .full (t.readReg x reg m.pos)
  absent   : ∀ pos, pos ∉ x.members.map Member.pos → pos < 32 → ∀ n, n < (dstRegs f g x.wbase).length →
    t.readLatch x pos n = .empty
  shifted  : ∀ pos n, pos < 32 → n + (dstRegs f g x.wbase).length < 8 →
    t.readLatch x pos (n + (dstRegs f g x.wbase).length) = s.readLatch x pos n
  flags    : FlagsSet rs s t
  uniforms : UniformsKept s t
  moved    : MovedOn x f s t
  rest     : RegisterFrame x s t

/-- The results of an issue stand in a predicate destination: a write to p7 is ignored (R143). -/
structure PredResult (x : Iss) (f : Form) (g : Sig) (rs : List LaneRes) (s t : State) : Prop where
  written  : ∀ r ∈ rs, t.lane? r.a.m.ref = (s.lane? r.a.m.ref).map fun l =>
    { l.setPred (slotNum f f.d) ((r.words.headD 0).getLsbD 0) with pc := nextPc f x.pc }
  idle     : ∀ m ∈ x.members, m.ref ∉ rs.map (fun r => r.a.m.ref) →
    t.lane? m.ref = (s.lane? m.ref).map fun l => { l with pc := nextPc f x.pc }
  map      : ∀ reg pos, t.readReg x reg pos = if reg ∈ luRegs f g x.wbase then 0 else s.readReg x reg pos
  latches  : t.pipes = s.pipes
  flags    : FlagsSet rs s t
  uniforms : UniformsKept s t
  rest     : RegisterFrame x s t

/-- Words stand in uniform registers of the home warp from `n` upward (R143, R194). -/
structure UniformResult (x : Iss) (f : Form) (released : List Nat) (n : Nat) (words : List Word) (flags : Flags)
    (s t : State) : Prop where
  written : ∀ k, k < words.length → (t.warp? x.wg x.warp).map (fun v => v.ureg (n + k))
    = (s.warp? x.wg x.warp).map fun _ => words.getD k 0
  kept    : ∀ j, j < n ∨ n + words.length ≤ j →
    (t.warp? x.wg x.warp).map (fun v => v.ureg j) = (s.warp? x.wg x.warp).map fun v => v.ureg j
  others  : ∀ wg w, ¬(wg = x.wg ∧ w = x.warp) → (t.warp? wg w).map Warp.uregs = (s.warp? wg w).map Warp.uregs
  map     : ∀ reg pos, t.readReg x reg pos = if reg ∈ released then 0 else s.readReg x reg pos
  latches : t.pipes = s.pipes
  flags   : ∀ wg w, (t.warp? wg w).map Warp.fpstat = (s.warp? wg w).map fun v =>
    if wg = x.wg ∧ w = x.warp then v.fpstat ||| flags.setWidth 32 else v.fpstat
  moved   : MovedOn x f s t
  rest    : RegisterFrame x s t

/-- What a control instruction leaves unchanged: everything but the lanes of its issue, the groups of their warps, the
registers it releases by LU and the model's counter. -/
structure ControlFrame (x : Iss) (f : Form) (g : Sig) (s t : State) : Prop where
  package    : ∃ wgs ctl cores seq, t = { s with wgs := wgs, ctl := ctl, cores := cores, seq := seq }
  memory     : ∀ a, Memory.read t.mem a = Memory.read s.mem a
  workgroups : ∀ id, t.wg? id = (s.wg? id).map fun g => { g with warps := ((t.wg? id).map Workgroup.warps).getD [] }
  warps      : ∀ wg w, t.warp? wg w = (s.warp? wg w).map fun v =>
    let u := (t.warp? wg w).getD v
    { v with rows := u.rows, lanes := u.lanes, ring := u.ring, current := u.current }
  cores      : ∀ v, t.core v = { s.core v with groups := (t.core v).groups }
  lanes      : ∀ r, r ∉ x.members.map Member.ref → t.lane? r = s.lane? r
  maps       : ∀ wg w, ¬x.homeOf wg w → (t.warp? wg w).map Warp.rows = (s.warp? wg w).map Warp.rows
  map        : ∀ reg pos, t.readReg x reg pos = if reg ∈ luRegs f g x.wbase then 0 else s.readReg x reg pos

/-- The end of an issue: its members move on from `u`, and nothing else changes but the hold of their group. -/
structure MovesOnly (x : Iss) (f : Form) (u t : State) : Prop where
  moved    : MovedOn x f u t
  map      : ∀ reg pos, t.readReg x reg pos = u.readReg x reg pos
  warps    : ∀ wg w, t.warp? wg w = (u.warp? wg w).map fun v =>
    { v with lanes := ((t.warp? wg w).getD v).lanes, ring := ((t.warp? wg w).getD v).ring }
  latches  : t.pipes = u.pipes
  rest     : RegisterFrame x u t

/-- No access of the lanes of an issue is in flight or queued. -/
def State.noneInFlight (s : State) (x : Iss) : Prop :=
  ∀ m ∈ x.members, (∀ a ∈ s.pend, s.together m.ref a.lane = false) ∧ ∀ q ∈ s.queue, s.together m.ref q.lane = false

/-- The hold of a group. -/
def State.holdOf (s : State) (g : GroupRef) : Option Hold :=
  (s.groupOf g).bind Group.hold

/-- The state with the registers an instruction releases by LU released (R148). -/
def State.released (s : State) (x : Iss) (f : Form) (g : Sig) : State := s.setRows x (releaseLu f g x.wbase (s.rowsOf x))

/-- The value of a source slot of a once-per-issue instruction, read at its lowest active lane (R306). -/
def State.onceValue (s : State) (x : Iss) (f : Form) (sl : Slot) (o : Opnd) : DWord :=
  ((s.env x).once x f (s.actives x f) sl o).getD 0

/-! ### Accesses -/

/-- What a lane asks of memory, from its operands. -/
abbrev LaneAsk := State → Form → Iss → Act → Args → Ask

/-- The requests of the active lanes of an issue. -/
def State.asked (s : State) (x : Iss) (f : Form) (g : Sig) (ask : LaneAsk) : List (Act × Ask) :=
  (s.actives x f).filterMap fun a =>
    (s.argsOf x f g a).map fun args => (a, ask s f x a args)

/-- Whether a request goes on: no fault, no park, no wait for a translation. -/
def Ask.goesOn : Ask → Bool
  | .access _ _ _ | .value _ | .nothing => true
  | .fault _ _ | .park _ | .wait _ => false

/-- Whether the request of an active lane goes on at once: it passes the checks, and no access of the lane in flight holds
it (R46, R229, R231). -/
def State.goesOn (s : State) (a : Act) (q : Ask) : Bool := q.goesOn && !(q.reads && s.readHeld a.m.ref)

/-- The accesses `new` of an issue are in flight, one for each lane that asks for one; a destination awaits them, and
lanes that take a value at once have it (R145 to R148, R231, R283). -/
structure AccessesIssued (x : Iss) (f : Form) (g : Sig) (acq rel : Bool) (asks : List (Act × Ask)) (new : List Access)
    (s t : State) : Prop where
  issued   : t.pend = s.pend ++ new
  asked    : new.map (fun q => (q.lane, q.dst.pos, q.kind, q.phys, q.size)) = asks.filterMap fun p =>
    match p.2 with
    | .access k a n => some (p.1.m.ref, p.1.m.pos, k, a, n)
    | _ => none
  order    : ∀ q ∈ new, q.ctx = x.ctx ∧ q.acq = acq ∧ q.rel = rel ∧ q.issue = s.seq ∧ s.seq < q.seq ∧ q.seq ≤ t.seq
  distinct : (new.map Access.seq).Nodup
  dest     : ∀ q ∈ new, q.dst.regs = dstRegs f g x.wbase ∧ q.dst.nwb = f.nwb
  awaits   : f.d.cls = .vector → f.nwb = false → ∀ q ∈ new, ∀ k reg : Nat, (dstRegs f g x.wbase)[k]? = some reg →
    ∃ r, findRow (t.rowsOf x) reg = some r ∧ q.rows[k]? = some r.id ∧ q.seq ∈ r.await
  given    : f.nwb = false → ∀ p ∈ asks, ∀ ws, p.2 = .value ws → ∀ k reg : Nat, (dstRegs f g x.wbase)[k]? = some reg →
    t.readReg x reg p.1.m.pos = ws.getD k 0
  kept     : ∀ reg pos, f.nwb = true ∨ reg ∉ dstRegs f g x.wbase ∨ (∀ p ∈ asks, ∀ ws, p.2 = .value ws → p.1.m.pos ≠ pos) →
    t.readReg x reg pos = if reg ∈ luRegs f g x.wbase then 0 else s.readReg x reg pos
  latched  : f.d.cls = .vector → ∀ q ∈ new, ∀ k, k < (dstRegs f g x.wbase).length →
    t.readLatch x q.dst.pos ((dstRegs f g x.wbase).length - 1 - k) = .awaiting q.seq k
  shifted  : f.d.cls = .vector → ∀ pos n, pos < 32 → n + (dstRegs f g x.wbase).length < 8 →
    t.readLatch x pos (n + (dstRegs f g x.wbase).length) = s.readLatch x pos n
  latches  : f.d.cls ≠ .vector → t.pipes = s.pipes
  flags    : FlagsSet [] s t
  uniforms : UniformsKept s t
  moved    : MovedOn x f s t
  rest     : RegisterFrame x { s with pend := t.pend, seq := t.seq } t

/-- The results of an issue stand in a vector destination: those of an instruction that may wait leave the latches empty
(R139, R491); of one that never waits (`late` false) they stand in the latches, beside the register's value in members whose
guard is false (R139). -/
structure HeldResult (x : Iss) (f : Form) (g : Sig) (late : Bool) (rs : List LaneRes) (s t : State) : Prop where
  written  : f.nwb = false → ∀ r ∈ rs, ∀ k reg : Nat, (dstRegs f g x.wbase)[k]? = some reg →
    t.readReg x reg r.a.m.pos = r.words.getD k 0
  kept     : ∀ reg pos, f.nwb = true ∨ reg ∉ dstRegs f g x.wbase ∨ pos ∉ rs.map (fun r => r.a.m.pos) →
    t.readReg x reg pos = if reg ∈ luRegs f g x.wbase then 0 else s.readReg x reg pos
  latched  : late = true → ∀ pos n, pos < 32 → n < (dstRegs f g x.wbase).length → t.readLatch x pos n = .empty
  results  : late = false → ∀ r ∈ rs, ∀ k, k < (dstRegs f g x.wbase).length →
    t.readLatch x r.a.m.pos ((dstRegs f g x.wbase).length - 1 - k) = .full (r.words.getD k 0)
  idle     : late = false → ∀ m ∈ x.members, m ∉ (s.actives x f).map Act.m → ∀ k reg : Nat, (dstRegs f g x.wbase)[k]? = some reg →
    t.readLatch x m.pos ((dstRegs f g x.wbase).length - 1 - k) = if f.nwb then .empty else .full (t.readReg x reg m.pos)
  shifted  : ∀ pos n, pos < 32 → n + (dstRegs f g x.wbase).length < 8 →
    t.readLatch x pos (n + (dstRegs f g x.wbase).length) = s.readLatch x pos n
  flags    : FlagsSet [] s t
  uniforms : UniformsKept s t

/-! ### Completion -/

/-- With a vector destination, an instruction writes the value of each active lane, and nothing else, wherever `given`
holds, its issue may execute, its lanes have values, no trap of FPSTAT is enabled for their flags, and its registers can be
prepared; `post` is what it does beside. -/
def VectorCompletesIf (given : State → Form → Iss → Prop) (post : State → Iss → State → State) (mk : Form → Instr) (forbidden : Bool)
    (val : LaneValue) : Prop :=
  ∀ f s x, CanIssue (mk f) f forbidden s x → IssueOk s x → given s f x → f.d.cls = .vector →
    s.laneValues x f (sigOf (mk f) f) val → s.fpTrap (s.laneResults x f (sigOf (mk f) f) val) = none →
    DestOk s x f (sigOf (mk f) f) (s.laneResults x f (sigOf (mk f) f) val).length →
    ∃ t, exec (mk f) s = .next (post s x t)
      ∧ VectorResult x f (sigOf (mk f) f) (s.actives x f) (s.laneResults x f (sigOf (mk f) f) val) s t

/-- As `VectorCompletesIf`, with nothing more assumed or done. -/
def VectorCompletes (mk : Form → Instr) (forbidden : Bool) (val : LaneValue) : Prop :=
  VectorCompletesIf (fun _ _ _ => True) (fun _ _ t => t) mk forbidden val

/-- As `VectorCompletes`, with a predicate destination. -/
def PredCompletes (mk : Form → Instr) (forbidden : Bool) (val : LaneValue) : Prop :=
  ∀ f s x, CanIssue (mk f) f forbidden s x → IssueOk s x → f.d.cls = .predicate →
    s.laneValues x f (sigOf (mk f) f) val → s.fpTrap (s.laneResults x f (sigOf (mk f) f) val) = none →
    ∃ t, exec (mk f) s = .next t ∧ PredResult x f (sigOf (mk f) f) (s.laneResults x f (sigOf (mk f) f) val) s t

/-- With a uniform destination, an instruction writes one value, computed once (R194), wherever `given` holds, its issue
may execute, a lane is active, no trap of FPSTAT is enabled for its flags, and a completion register it writes holds COUNT 0
(R274). `released` names the registers it releases by LU. -/
def UniformCompletesIf (given : State → Form → Iss → Prop) (post : State → Iss → State → State) (mk : Form → Instr)
    (forbidden : Bool) (val : State → Form → Iss → Env → Sig → List Act → Option Val) (released : Form → Sig → Nat → List Nat) : Prop :=
  ∀ f s x v, CanIssue (mk f) f forbidden s x → given s f x → f.d.cls = .uniform → s.actives x f ≠ [] →
    val s f x (s.reads x f (sigOf (mk f) f)) (sigOf (mk f) f) (s.actives x f) = some v →
    s.fpTrap ((s.actives x f).map fun a => ⟨a, [], v.flags⟩) = none →
    UniformOk s x (slotNum f f.d) (valWords ((sigOf (mk f) f).d.width f.ty) v.v) →
    ∃ t, exec (mk f) s = .next (post s x t)
      ∧ UniformResult x f (released f (sigOf (mk f) f) x.wbase) (slotNum f f.d) (valWords ((sigOf (mk f) f).d.width f.ty) v.v)
          (if (s.actives x f).all (fun a => a.lane.helper) then 0 else v.flags) s t

/-- As `UniformCompletesIf`, with nothing more assumed or done. -/
def UniformCompletes (mk : Form → Instr) (forbidden : Bool) (val : State → Form → Iss → Env → Sig → List Act → Option Val)
    (released : Form → Sig → Nat → List Nat) : Prop :=
  UniformCompletesIf (fun _ _ _ => True) (fun _ _ t => t) mk forbidden val released

/-- An instruction of own-lane operands with a uniform destination: its value is that of lane position 0 (R194). -/
def ownUniform (val : Form → Nat → Args → Val) (_ : State) (f : Form) (x : Iss) (e : Env) (g : Sig) (act : List Act) : Option Val :=
  act.head?.bind fun a => (e.args f g x.wbase 0 a.lane).map (val f 0)

/-- What a control instruction does to an active lane, given its operands. -/
abbrev LaneEffect := State → Form → Iss → Act → Args → Lane → Lane

/-- A control instruction moves each active lane by `eff` and every other member to the next PC, and changes nothing else,
wherever its issue may execute and `given` holds of each active lane. `left` names lanes that then leave their group, for
which what follows (R77, R85, R87, R254) is done. -/
def LanesComplete (mk : Form → Instr) (forbidden : Bool) (given : State → Form → Iss → Act → Args → Prop) (eff : LaneEffect) : Prop :=
  ∀ f s x, CanIssue (mk f) f forbidden s x → IssueOk s x →
    (∀ a ∈ s.actives x f, ∃ args, s.argsOf x f (sigOf (mk f) f) a = some args ∧ given s f x a args) →
    ∃ t, exec (mk f) s = .next t
      ∧ (∀ a ∈ s.actives x f, ∀ args, s.argsOf x f (sigOf (mk f) f) a = some args →
          t.lane? a.m.ref = some (eff s f x a args a.lane))
      ∧ (∀ m ∈ x.members, m ∉ (s.actives x f).map Act.m →
          t.lane? m.ref = (s.lane? m.ref).map fun l => { l with pc := nextPc f x.pc })
      ∧ ControlFrame x f (sigOf (mk f) f) s t

/-- As `LanesComplete`, of lanes that wait from now on: what follows a wait (R77, R85, R87, R254) is done last, for the
warps of the active lanes. -/
def LanesWait (mk : Form → Instr) (forbidden : Bool) (given : State → Form → Iss → Act → Args → Prop) (eff : LaneEffect) : Prop :=
  ∀ f s x, CanIssue (mk f) f forbidden s x → IssueOk s x → s.actives x f ≠ [] →
    (∀ a ∈ s.actives x f, ∃ args, s.argsOf x f (sigOf (mk f) f) a = some args ∧ given s f x a args) →
    ∃ t, exec (mk f) s = .next (t.afterAll ((s.actives x f).map fun a => a.m.ref))
      ∧ (∀ a ∈ s.actives x f, ∀ args, s.argsOf x f (sigOf (mk f) f) a = some args →
          t.lane? a.m.ref = some (eff s f x a args a.lane))
      ∧ (∀ m ∈ x.members, m ∉ (s.actives x f).map Act.m →
          t.lane? m.ref = (s.lane? m.ref).map fun l => { l with pc := nextPc f x.pc })
      ∧ ControlFrame x f (sigOf (mk f) f) s t

/-- A once-per-issue instruction has its effect on the state and its members move on, and nothing else changes, wherever
its issue may execute with an active lane, every active lane carries the registers named (R92), and `given` holds (R306). -/
def OnceCompletes (mk : Form → Instr) (forbidden : Bool) (given : State → Form → Iss → Prop) (effect : State → Form → Iss → State) :
    Prop :=
  ∀ f s x, CanIssue (mk f) f forbidden s x → s.actives x f ≠ [] → (s.reads x f (sigOf (mk f) f)).outside = [] → given s f x →
    ∃ t, exec (mk f) s = .next t ∧ MovesOnly x f (effect s f x) t

/-- A memory instruction issues the accesses its active lanes ask for, and changes nothing else, wherever its issue may
execute, each active lane's operands are read and its request goes on (R229), and its destination registers can
be prepared. -/
def MemCompletes (mk : Form → Instr) (acq rel : Form → Bool) (given : State → Form → Iss → Prop) (ask : LaneAsk) : Prop :=
  ∀ f s x, CanIssue (mk f) f false s x → IssueOk s x → given s f x →
    (∀ a ∈ s.actives x f, ∃ args, s.argsOf x f (sigOf (mk f) f) a = some args
      ∧ s.goesOn a (ask s f x a args) = true) →
    DestOk s x f (sigOf (mk f) f) ((s.asked x f (sigOf (mk f) f) ask).filter fun p => p.2 != .nothing).length →
    ∃ t new, exec (mk f) s = .next t
      ∧ AccessesIssued x f (sigOf (mk f) f) (acq f) (rel f) (s.asked x f (sigOf (mk f) f) ask) new s t

/-- What an instruction that may wait finds in each active lane: a result, or what the lane waits for. -/
abbrev LaneHeld := State → Form → Iss → Sig → Act → Option (List Word ⊕ Wait)

/-- The lanes that have their results at once. -/
def State.heldNow (s : State) (x : Iss) (f : Form) (g : Sig) (held : LaneHeld) : List LaneRes :=
  (s.actives x f).filterMap fun a => match held s f x g a with | some (.inl ws) => some ⟨a, ws, 0⟩ | _ => none

/-- A wait that keeps the values its instruction's LU released, which a lane that issues again at a re-read has back (R148). -/
def State.keepingLu (s : State) (x : Iss) (f : Form) (g : Sig) (a : Act) (w : Wait) : Wait :=
  w.keeping (luKept f g x.wbase (s.rowsOf x) a.m.pos)

/-- An instruction that waits with a destination, wherever its issue may execute, `given` holds and its destination can be
prepared: lanes with a result go on, with it written; where others wait, these stand WAITING at the next PC, and what
follows a wait is done last (R139, R491). -/
def HeldCompletes (mk : Form → Instr) (forbidden : Bool) (given : State → Form → Iss → Prop) (held : LaneHeld) : Prop :=
  ∀ f s x, CanIssue (mk f) f forbidden s x → IssueOk s x → given s f x → f.d.cls = .vector →
    (∀ a ∈ s.actives x f, (held s f x (sigOf (mk f) f) a).isSome) →
    DestOk s x f (sigOf (mk f) f) (s.actives x f).length →
    ∃ t, exec (mk f) s = .next (if (s.heldNow x f (sigOf (mk f) f) held).length = (s.actives x f).length then t
        else t.afterAll ((s.actives x f).map fun a => a.m.ref))
      ∧ HeldResult x f (sigOf (mk f) f) true (s.heldNow x f (sigOf (mk f) f) held) s t
      ∧ (∀ m ∈ x.members, t.lane? m.ref = (s.lane? m.ref).map fun l =>
          match (s.actives x f).find? fun a => a.m = m with
          | some a => match held s f x (sigOf (mk f) f) a with
            | some (.inr w) => { l with st := .waiting (s.keepingLu x f (sigOf (mk f) f) a w), npc := nextPc f x.pc }
            | _ => { l with pc := nextPc f x.pc }
          | none => { l with pc := nextPc f x.pc })
      ∧ (∀ r, r ∉ x.members.map Member.ref → t.lane? r = s.lane? r)
      ∧ ∃ wgs ctl cores pipes seq, t = { s with wgs := wgs, ctl := ctl, cores := cores, pipes := pipes, seq := seq }

/-- No register is released. -/
def releasesNone (_ : Form) (_ : Sig) (_ : Nat) : List Nat := []

end Sys2Proof.Machine
end

