-- ==== Sys2Proof/WellFormed.lean ====
section
/-! DEFINITION. Well-formed instructions: those a valid template and a word can spell (R129, R151 to R159), and steps
whose operands name parts that exist (R10, R13, R14). -/

namespace Sys2Proof

/-- The constructor is the one its major opcode and fields select. -/
def variantOk (i : Instr) (f : Form) : Bool :=
  match instrOf (mopOf i) f with
  | some j => j = i
  | none => false

/-- A fixed index carries its own template (R159); an index of a dictionary carries a valid one (R153). -/
def entryOk (i : Instr) (f : Form) : Bool :=
  if f.dix.toNat < 0x040 then
    f.dix.toNat < 0x010 && f.template (BitVec.ofNat 10 (mopOf i)) == fixedTemplate f.dix.toNat
  else formOk f

/-- A literal stands in a form only where IMMSRC is 1 (R136). -/
def literalOk (f : Form) : Bool := f.immsrc = .literal || f.lit == 0

/-- A lane exists (R74). -/
def LaneRef.ok (r : LaneRef) : Bool := r.warp < 32 && r.lane < 32

/-- The operands of a step name parts of the package that exist. -/
def partsOk : Instr → Bool
  | .goAccept _ _ engine => engine < 64
  | .nmLoadPart _ stack _ => stack < Config.numStacks
  | .nmWave _ stack _ _ => stack < Config.numStacks
  | .workgroupAdmission _ core _ places => core < Config.numCores && places.all (fun p => p.pane < 4 && p.pipe < 8)
  | .gangReservation _ _ core _ places => core < Config.numCores && places.all (fun p => p.pane < 4 && p.pipe < 8)
  | .binDraw core bin slot place => core < Config.numCores && bin < 16 && slot < 8 && place.pane < 4 && place.pipe < 8
  | .dictSlotLoad core phys _ => core < Config.numCores && phys < 8
  | .dictSlotUe core phys => core < Config.numCores && phys < 8
  | .translationComplete core _ _ => core < Config.numCores
  | .waitwReread lane => lane.ok
  | .syncExtwait lane => lane.ok
  | .replayApply _ _ die _ => die < 4
  | .replicaRebuild _ _ die source => die < 4 && source < 4 && die != source
  | .replicaUe _ _ die => die < 4
  | .coreUe core => core < Config.numCores
  | .vaultLineUe vault line => vault < Config.numCores && line < 16384
  | .hbmChunkUe stack chunk => stack < Config.numStacks && chunk < Config.hbmBytes / 64
  | .bmuFault vault bank => vault < Config.numCores && bank < 32
  | .contextCreate ctx bankKey => ctx < Config.numContexts && bankKey < 32
  | .hostQueuePush ctx _ => ctx < Config.numContexts
  | _ => true

/-- A well-formed instruction. -/
def WellFormed (i : Instr) : Bool :=
  match i.form? with
  | some f => variantOk i f && entryOk i f && literalOk f
  | none => partsOk i

end Sys2Proof
end

