-- ==== Sys2Proof/Certificates/Slice0/Obligations.lean ====
section
/-! DEFINITION. The statements about the package, each a proposition to be proved. -/

namespace Sys2Proof

open Machine

/-! ### Instructions of own-lane operands -/

/-- The integer, bit and move instructions with the values of R198 to R203. -/
def integerOps : List ((Form → Instr) × (Form → Args → Val)) :=
  [(.iadd, iaddVal), (.isub, isubVal), (.imul, imulVal), (.imulh, imulhVal), (.imad, imadVal), (.isha, ishaVal)
  , (.imin, iminVal), (.imax, imaxVal), (.iabs, iabsVal), (.and, andVal), (.or, orVal), (.xor, xorVal), (.shl, shlVal)
  , (.shr, shrVal), (.rotl, rotlVal), (.bfx, bfxVal), (.bfi, bfiVal), (.popc, popcVal), (.clz, clzVal), (.brev, brevVal)
  , (.sel, selVal), (.mov, movVal), (.movi, movVal), (.bsel, bselVal)]

/-- The floating and conversion instructions, but for CVT, with the values of R206 to R217. -/
def scalarFloatOps : List ((Form → Instr) × (Form → Args → Val)) :=
  [(.fadd, faddVal), (.fmul, fmulVal), (.ffma, ffmaVal), (.fmin, fminVal), (.fmax, fmaxVal), (.fscl, fsclVal)
  , (.rcp, rcpVal), (.rsq, rsqVal), (.sqrt, sqrtVal), (.exp2, exp2Val), (.log2, log2Val), (.sin, sinVal), (.cos, cosVal)
  , (.tanh, tanhVal), (.frc, frcVal), (.frnd, frndVal), (.f2i, f2iVal), (.i2f, i2fVal)]

/-- With them the dot product of R219, which no method executes (R162, R439). -/
def floatOps : List ((Form → Instr) × (Form → Args → Val)) := scalarFloatOps ++ [(.dot4, dot4Val)]

/-- Those that may have a uniform destination: all but SEL (R202). -/
def uniformOps : List ((Form → Instr) × (Form → Args → Val)) := integerOps.eraseIdx 20 ++ floatOps

/-- The instructions that compute a predicate, with the values of R202, R208 and R218. -/
def predicateOps : List ((Form → Instr) × (Form → Args → Val)) :=
  [(.isetp, isetpVal), (.pset, psetVal), (.fsetp, fsetpVal), (.fclass, fclassVal)]

/-- The generator's next value, where CVT rounds stochastically (R69, R215). -/
def cvtGen (s : State) (x : Iss) : Word := srNext (s.seedOf x)

/-! ### Exchange between lanes -/

/-- A quad instruction's value: its source at member `k` of the quad, in a whole quad (R222). -/
def quadValue (k : Form → Nat → Nat) : LaneValue := fun _ f x e g _ a =>
  if quadWhole x a.m.pos then (e.srcAt x f g (a.m.pos / 4 * 4 + k f (a.m.pos % 4))).map plain else none

/-- A derivative's value: the difference of its source at two members of the quad (R222). -/
def derivValue (hi lo : Form → Nat → Nat) : LaneValue := fun _ f x e g _ a =>
  if quadWhole x a.m.pos then
    match e.srcAt x f g (a.m.pos / 4 * 4 + hi f (a.m.pos % 4)), e.srcAt x f g (a.m.pos / 4 * 4 + lo f (a.m.pos % 4)) with
    | some p, some m => some (diffVal f p m)
    | _, _ => none
  else none

/-- The left member of a derivative's row: of its own row when fine, of the upper row when coarse (R222). -/
def rowOf (f : Form) (m : Nat) : Nat := if f.m2.getLsbD 0 then m / 2 * 2 else 0

/-- The upper member of a derivative's column. -/
def colOf (f : Form) (m : Nat) : Nat := if f.m2.getLsbD 0 then m % 2 else 0

/-- The position LXCH reads: indexed, up, down or exclusive or (R224). -/
def lxchPosition (mode pos b : Nat) : Nat :=
  match mode with
  | 0 => b % 32
  | 1 => (pos + 32 - b % 32) % 32
  | 2 => (pos + b) % 32
  | _ => (pos ^^^ (b % 32)) % 32

/-- LXCH: the source of another lane, 0 where no member stands there (R224). -/
def lxchValue : LaneValue := fun _ f x e g _ a =>
  (e.slot f x.wbase a.m.pos f.b g.b).bind fun b =>
    let src := lxchPosition f.m2.toNat a.m.pos (b.toNat % 2 ^ 32)
    if x.has src then (e.srcAt x f g src).map plain else some (plain 0)

/-- SCANW: the reduction of the contributors up to the lane (R225). -/
def scanValue : LaneValue := fun _ f x e g act a =>
  (contributed x e f g act a.m.pos).map fun xs => (redScan f xs).getLastD (plain 0)

/-- REDW: the reduction of every contributor, with the flags of the lane's own step (R225). -/
def reduceValue : LaneValue := fun _ f x e g act a =>
  match contributed x e f g act 31, contributed x e f g act a.m.pos with
  | some xs, some ys => some ⟨((redScan f xs).getLastD (plain 0)).v, ((redScan f ys).getLastD (plain 0)).flags⟩
  | _, _ => none

/-- REDW with a uniform destination (R225). -/
def reduceUniform (_ : State) (f : Form) (x : Iss) (e : Env) (g : Sig) (act : List Act) : Option Val :=
  (contributed x e f g act 31).map fun xs =>
    ⟨((redScan f xs).getLastD (plain 0)).v, (redScan f xs).foldl (fun fl y => fl ||| y.flags) 0⟩

/-- MATCHW: bit p is 1 where the active lane at p holds the lane's own value (R226). -/
def matchValue : LaneValue := fun _ f x e g act a =>
  match act.mapM (fun b => (e.srcAt x f g b.m.pos).map fun v => (b.m.pos, v)), e.srcAt x f g a.m.pos with
  | some vs, some own => some (plain (BitVec.ofNat 64 (vs.foldl (fun m v => if v.2 = own then m + 2 ^ v.1 else m) 0)))
  | _, _ => none

/-- BCAST: the source of the lowest active lane (R204). -/
def bcastValue : LaneValue := fun _ f x e g act _ => act.head?.bind fun b => (e.srcAt x f g b.m.pos).map plain

/-- RDLANE: the source of the lane slot B names, 0 where no member stands there (R204). -/
def rdlaneValue (_ : State) (f : Form) (x : Iss) (e : Env) (g : Sig) (_ : List Act) : Option Val :=
  let src := ((e.slot f x.wbase 0 f.b g.b).getD 0).toNat % 32
  if x.has src then (e.srcAt x f g src).map plain else some (plain 0)

/-- The exchanges: quads and derivatives, which a reformed group may issue to fault, and those of the whole warp. -/
def exchangeOps : List ((Form → Instr) × Bool × LaneValue) :=
  [(.qxh, false, quadValue fun _ m => m ^^^ 1), (.qxv, false, quadValue fun _ m => m ^^^ 2)
  , (.qxd, false, quadValue fun _ m => m ^^^ 3), (.qbc, false, quadValue fun f _ => (f.slotImm f.b).toNat)
  , (.ddx, false, derivValue (fun f m => rowOf f m + 1) rowOf), (.ddy, false, derivValue (fun f m => colOf f m + 2) colOf)
  , (.lxch, true, lxchValue), (.redw, true, reduceValue), (.scanw, true, scanValue), (.matchw, true, matchValue)
  , (.bcast, true, bcastValue)]

def ExchangeVectorComplete : Prop := ∀ e ∈ exchangeOps, VectorCompletes e.1 e.2.1 e.2.2

def ExchangeUniformComplete : Prop :=
  UniformCompletes .redw true reduceUniform luRegs ∧ UniformCompletes .rdlane true rdlaneValue luRegs

/-! ### Votes and special registers -/

/-- ELECT: true in the lowest active lane (R321). -/
def electValue : LaneValue := fun _ _ _ _ _ act a => some (plain (boolVal (act.head?.any fun b => b.m.pos = a.m.pos)))

/-- VOTE.ANY and VOTE.ALL: of the source predicate over the active lanes (R322). -/
def voteValue : LaneValue := fun _ f _ _ _ act _ =>
  match f.m2.toNat with
  | 1 => some (plain (boolVal (act.any fun b => predOf f b.lane f.a)))
  | 2 => some (plain (boolVal (act.all fun b => predOf f b.lane f.a)))
  | _ => none

/-- VOTE.BALLOT: the mask of the active lanes whose source predicate is true (R322). -/
def ballotValue (_ : State) (f : Form) (_ : Iss) (_ : Env) (_ : Sig) (act : List Act) : Option Val :=
  if f.m2 = 3 then some (plain (maskOf ((act.filter fun b => predOf f b.lane f.a).map fun b => b.m.pos))) else none

/-- VOTE.ACTIVE: the mask of the members of the issue (R322). -/
def activeValue (_ : State) (_ : Form) (x : Iss) (_ : Env) (_ : Sig) (_ : List Act) : Option Val :=
  some (plain (maskOf (x.members.map Member.pos)))

def VotesComplete : Prop :=
  PredCompletes .elect true electValue ∧ PredCompletes .vote true voteValue
    ∧ UniformCompletes .vote true ballotValue releasesNone ∧ UniformCompletes .voteActive true activeValue releasesNone

/-- SREAD: the special register of the lane (R332). -/
def sreadValue : LaneValue := fun s f x e g _ a =>
  (e.args f g x.wbase a.m.pos a.lane).map fun _ => plain (s.special x a.m.ref (f.slotImm f.a).toNat)

/-- SREAD with a uniform destination: the register as lane 0 of the home warp reads it (R332). -/
def sreadUniform (s : State) (f : Form) (x : Iss) (_ : Env) (_ : Sig) (_ : List Act) : Option Val :=
  some (plain (s.special x ⟨x.wg, x.warp, 0⟩ (f.slotImm f.a).toNat))

def SpecialReadComplete : Prop :=
  VectorCompletes .sread false sreadValue ∧ UniformCompletes .sread false sreadUniform releasesNone

/-! ### Branches, calls and windows -/

def noCondition (_ : State) (_ : Form) (_ : Iss) (_ : Act) (_ : Args) : Prop := True

/-- A relative target: the next PC plus 4 times the offset (R309, R312). -/
def relative (f : Form) (x : Iss) (args : Args) : Word := nextPc f x.pc + 4 * args.a.extractLsb' 0 32

/-- An absolute target (R310, R313). -/
def absolute (_ : Form) (_ : Iss) (args : Args) : Word := args.a.extractLsb' 0 32

def BranchesComplete : Prop :=
  LanesComplete .bra false noCondition (fun _ f x _ args l => { l with pc := relative f x args })
    ∧ LanesComplete .braUniform false noCondition (fun _ f x _ args l => { l with pc := relative f x args })
    ∧ LanesComplete .brx false noCondition (fun _ f x _ args l => { l with pc := absolute f x args })

/-- A call whose window stays within the map and whose return fits the four entries of the stack: in a reformed group the
window does not move (R312, R314, R92). -/
def callFits (_ : State) (_ : Form) (x : Iss) (a : Act) (args : Args) : Prop :=
  a.lane.stack.length < 4 ∧ a.lane.wbase + 8 * args.b.toNat ≤ 392 ∧ (x.carried = none ∨ args.b = 0)

/-- A call: the return PC and WBASE are pushed, WBASE moves by 8 times slot B, and the lane stands at the target (R312). -/
def callEffect (target : Form → Iss → Args → Word) : LaneEffect := fun _ f x a args l =>
  { l with
    stack := ⟨nextPc f x.pc, a.lane.wbase⟩ :: a.lane.stack, spilled := a.lane.spilled
    wbase := a.lane.wbase + 8 * args.b.toNat, pc := target f x args }

def CallsComplete : Prop :=
  LanesComplete .call false callFits (callEffect relative) ∧ LanesComplete .callx false callFits (callEffect absolute)

/-- A return from the entry on top of the lane's stack (R315): in a reformed group WBASE does not change (R92). -/
def returnFits (_ : State) (_ : Form) (x : Iss) (a : Act) (_ : Args) : Prop :=
  ∃ q rest, a.lane.stack = q :: rest ∧ q.rwb ≤ 392 ∧ (x.carried = none ∨ q.rwb = a.lane.wbase)

def ReturnsComplete : Prop :=
  LanesComplete .ret false returnFits (fun _ _ _ a _ l =>
    { l with
      stack := a.lane.stack.drop 1, spilled := a.lane.spilled
      wbase := (a.lane.stack.headD ⟨0, 0⟩).rwb, pc := (a.lane.stack.headD ⟨0, 0⟩).rpc })

/-- The window base that WINDOW gives: 8 times slot A, or that beyond the lane's own (R323). -/
def windowBase (f : Form) (a : Act) (args : Args) : Int :=
  (if f.m2 = 0 then 0 else (a.lane.wbase : Int)) + 8 * (args.a.extractLsb' 0 32).toInt

def WindowsComplete : Prop :=
  LanesComplete .window true (fun _ f _ a args => 0 ≤ windowBase f a args ∧ windowBase f a args ≤ 392)
    (fun _ f x a args l => { l with wbase := (windowBase f a args).toNat, pc := nextPc f x.pc })

/-- YIELD goes on, or, while PREQ is set, waits to be saved (R328). -/
def YieldsComplete : Prop :=
  LanesComplete .yield false noCondition (fun s f x _ _ l =>
    if (s.ctx? x.ctx).any Context.preq then { l with st := .waiting .yielded, pc := nextPc f x.pc, npc := nextPc f x.pc }
    else { l with pc := nextPc f x.pc })

/-! ### NOP, EXIT, traps and returns -/

def NopComplete : Prop :=
  ∀ f s x, CanIssue (.nop f) f false s x → ∃ t : State, exec (.nop f) s = .next t ∧ MovesOnly x f s t

/-- TRAP and BKPT (R326, R330): every member moves to the next PC, which a trapped lane then keeps as its resume point,
and each active lane records the cause. -/
def TrapCompletes (mk : Form → Instr) (cause : Form → Cause) : Prop :=
  ∀ f s x, CanIssue (mk f) f false s x → IssueOk s x →
    (∀ a ∈ s.actives x f, (s.argsOf x f (sigOf (mk f) f) a).isSome) →
    ∃ t : State, exec (mk f) s = .next (t.raise ((s.actives x f).map fun a => ⟨a.m.ref, cause f, 0⟩))
      ∧ MovedOn x f s t ∧ (∀ r, r ∉ x.members.map Member.ref → t.lane? r = s.lane? r)
      ∧ ∃ wgs ctl cores seq, t = { s with wgs := wgs, ctl := ctl, cores := cores, seq := seq }

def TrapsComplete : Prop :=
  TrapCompletes .trap (fun f => .swTrap (BitVec.ofNat 4 (f.slotImm f.a).toNat)) ∧ TrapCompletes .bkpt (fun _ => .bkpt)

/-- The return from an exception (R327, R384): in privileged mode the halt ends, each lane is resumed, the warp has its
slots back and leaves privileged mode; waits whose conditions came true meanwhile end after that. A binned lane is filed
again, under the slot kept for it (R379). In user mode RTE raises ILL_PRIV. -/
def RteComplete : Prop :=
  ∀ f s x, CanIssue (.rte f) f false s x → s.actives x f ≠ [] → (s.reads x f (sigOf (.rte f) f)).outside = [] →
    (x.priv = false → exec (.rte f) s = .next (s.endIssue x f (faultAll (s.actives x f) .illPriv 0)))
      ∧ ∀ g t, x.priv = true → s.wg? x.wg = some g → g.trap = some t → g.outer = [] →
        ∃ u : State, exec (.rte f) s = .next (u.afterHalt x.wg)
          ∧ (u.wg? x.wg).map Workgroup.trap = some none
          ∧ ∀ w v p l, g.warps[w]? = some v → v.lanes[p]? = some l →
              (u.lane? ⟨x.wg, w, p⟩).map (fun q => { q with keySlot := none })
                = some { l.resume (if v.privileged then v.saved[p]? else none) with keySlot := none }
              ∧ (u.warp? x.wg w).map Warp.privileged = some false
              ∧ (u.warp? x.wg w).map Warp.active = some (if v.privileged then v.trapAct else v.active)
              ∧ (u.warp? x.wg w).map Warp.pending = some (if v.privileged then v.trapPend else v.pending)

/-! ### Waits and dictionary slots -/

/-- DICTSW and DFENCE (R163, R164), where no trace buffer is on. -/
def DictSlotsComplete : Prop :=
  OnceCompletes .dictsw true
    (fun s f x => x.priv = true ∨ ∀ c, s.ctx? x.ctx = some c → c.trapdict ≠ (f.slotImm f.a).toNat)
    (fun s f x => s.updWarp x.wg x.warp fun v => { v with pending := (f.slotImm f.a).toNat })
  ∧ OnceCompletes .dfence true
    (fun s _ x => ∃ v, s.warp? x.wg x.warp = some v ∧ v.loading = [] ∧ v.loadFail = false
      ∧ (∀ m ∈ x.members, s.quiet m.ref false = true) ∧ (s.ctx? x.ctx).bind Context.trace = none
      ∧ (s.slotOf x.core x.ctx v.pending).any (fun d => d.image.isSome) = true)
    (fun s _ x => s.updWarp x.wg x.warp fun v => { v with active := v.pending })

/-! ### SWRITE -/

/-- The value SWRITE writes. -/
def writeValue (mk : Form → Instr) (s : State) (f : Form) (x : Iss) : DWord := s.onceValue x f f.b (sigOf (mk f) f).b

/-- The value is read: it names no empty latch. -/
def writeReads (mk : Form → Instr) (s : State) (f : Form) (x : Iss) : Prop :=
  ((s.env x).once x f (s.actives x f) f.b (sigOf (mk f) f).b).isSome

/-- SWRITE of register `n`, privileged or not, where the value is `legal`: the write, then LU. -/
def Writes (mk : Form → Instr) (regs : List Nat) (priv : Bool) (legal : Nat → DWord → State → Iss → Prop)
    (write : Nat → DWord → State → Iss → State) : Prop :=
  OnceCompletes mk true
    (fun s f x => (f.slotImm f.a).toNat ∈ regs ∧ (priv = true → x.priv = true) ∧ writeReads mk s f x
      ∧ legal (f.slotImm f.a).toNat (writeValue mk s f x) s x)
    (fun s f x => (write (f.slotImm f.a).toNat (writeValue mk s f x) s x).released x f (sigOf (mk f) f))

def SpecialWriteComplete : Prop :=
  Writes .swrite [0x11] false (fun _ _ _ _ => True)
    (fun _ v s x => s.updWarp x.wg x.warp fun w => { w with fpstat := v.extractLsb' 0 32 &&& 0x3F3F })
  ∧ Writes .swrite [0x13] false (fun _ v _ _ => v.toNat % 8 = 0) (fun _ v s x => s.updWarp x.wg x.warp fun w => { w with csbase := v })
  ∧ Writes .swrite [0x30] true (fun _ _ _ _ => True)
    (fun _ v s x => s.updWarp x.wg x.warp fun w => { w with trapCause := v.extractLsb' 0 8 })
  ∧ Writes .swrite [0x33] true (fun _ v _ _ => v.toNat % 4096 = 0) (fun _ v s x => s.updCtx x.ctx fun c => { c with trapbase := v })
  ∧ Writes .swriteSrseed [0x12] false (fun _ _ _ _ => True)
    (fun _ v s x => s.updWarp x.wg x.warp fun w =>
      { w with srseed := if v.extractLsb' 0 32 = 0 then 0x2545F491 else v.extractLsb' 0 32 })
  ∧ Writes .swritePcmp [0x48, 0x49, 0x4A, 0x4B, 0x4C, 0x4D, 0x4E, 0x4F] true (fun _ v _ _ => v.extractLsb' 27 5 = 0)
    (fun n v s x => s.updCore x.core fun c => { c with pcmp := setNth c.pcmp (n - 0x48) (v.extractLsb' 0 32, x.ctx) })
  ∧ Writes .swriteTrapdict [0x35] true (fun _ _ _ _ => True) (fun _ v s x =>
      let s := s.updCtx x.ctx fun c => { c with trapdict := v.toNat % 4 }
      (((s.wgs.filter fun g => g.ctx = x.ctx && g.resident).map Workgroup.core).eraseDups).foldl (fun s c => s.trapLoad x.ctx c) s)
  ∧ LanesComplete .swriteTrappc true (fun _ _ x _ _ => x.priv = true)
    (fun _ f x _ args l => { l with trappc := args.b.extractLsb' 0 32, pc := nextPc f x.pc })

/-- SWRITE of the causal-experiment registers (R487, R488): while no experiment runs each takes its value; a CEXCTL that
sets RUN clears the delay's upper part and the progress. -/
def CausalWriteComplete : Prop :=
  Writes .swrite [0x41, 0x42, 0x43, 0x44] true
    (fun n v s x => (n < 0x43 → v.toNat % 4 = 0) ∧ ∃ c, s.ctx? x.ctx = some c ∧ c.cexctl.getLsbD 0 = false)
    (fun n v s x => s.updCtx x.ctx fun c =>
      match n with
      | 0x41 => { c with cexlo := v.extractLsb' 0 32 }
      | 0x42 => { c with cexhi := v.extractLsb' 0 32 }
      | 0x43 => { c with cexdelay := wordOf (c.cexdelay.toNat / 4096 * 4096 + v.toNat % 4096) }
      | _ => { c with cexprog := v.extractLsb' 0 32 })
  ∧ Writes .swriteCexctl [0x40] true
    (fun _ v s x => v.extractLsb' 4 12 = 0 ∧ (v.getLsbD 0 = true → v.extractLsb' 16 16 ≠ 0 ∧
      ∀ c, s.ctx? x.ctx = some c → c.cexlo.toNat < c.cexhi.toNat))
    (fun _ v s x => s.updCtx x.ctx fun c =>
      if v.getLsbD 0 then
        { c with cexctl := v.extractLsb' 0 32 &&& 0xFFFFFFFD, cexdelay := wordOf (c.cexdelay.toNat % 4096), cexprog := 0, cexPart := 0 }
      else { c with cexctl := v.extractLsb' 0 32 })

/-! ### Memory -/

def noPremise (_ : State) (_ : Form) (_ : Iss) : Prop := True

def never (_ : Form) : Bool := false

/-- LD: the bytes at Addr + Off are read (R234). -/
def loadAsk : LaneAsk := fun s f x a args =>
  (s.poisonChk true (s.check x.core x.ctx .r (effAddr args.a args.b) (accSize f))).ask a.lane.helper
    (if wideTy f.ty then 2 else 1) (effAddr args.a args.b) fun p => .access (.load (f.ty = .i32)) p (accSize f)

/-- ST: the low bytes of slot C are stored at Addr + Off, by lanes that are no helpers (R234, R85). -/
def memStoreAsk : LaneAsk := fun s f x a args =>
  if a.lane.helper then .nothing
  else (s.check x.core x.ctx .w (effAddr args.a args.b) (accSize f)).ask false 0 (effAddr args.a args.b) fun p =>
    .access (.store (leBytes (accSize f) args.c.toNat)) p (accSize f)

/-- No active lane of an ST addresses the hatch window (R269). -/
def noHatch (s : State) (f : Form) (x : Iss) : Prop :=
  ∀ a ∈ s.actives x f, ∀ args, s.argsOf x f (sigOf (.st f) f) a = some args →
    hatchOffset f (effAddr args.a args.b) = none

/-- The byte offset a vault form names (R239). -/
def vaultOff (args : Args) : Nat := args.a.toNat % 2 ^ 32

/-- LDV: the scratchpad's bytes at the offset are read (R239). -/
def vaultLoadAsk : LaneAsk := fun s f _ a args =>
  (s.poisonChk true (s.vaultChk a.m.ref (vaultOff args) (accSize f) (coreOf f.b args.b))).ask a.lane.helper
    (if wideTy f.ty then 2 else 1) (vaultOff args) fun p => .access (.load (f.ty = .i32)) p (accSize f)

/-- STV: the low bytes of slot B are stored at the offset (R239). -/
def vaultStoreAsk : LaneAsk := fun s f _ a args =>
  if a.lane.helper then .nothing
  else (s.vaultChk a.m.ref (vaultOff args) (accSize f) (coreOf f.c args.c)).ask false 0 (vaultOff args) fun p =>
    .access (.store (leBytes (accSize f) args.b.toNat)) p (accSize f)

/-- ATOM and CAS on memory, ATOMV on a scratchpad: one indivisible read and write; 0 in helper lanes (R242, R244). -/
def swapAsk (place : State → Form → Iss → Act → Args → Nat × Chk) (kind : Form → Args → AccessKind) : LaneAsk := fun s f x a args =>
  if a.lane.helper then .value (List.replicate (atomSize f / 4) 0)
  else (s.poisonChk true (place s f x a args).2).ask false 0 (place s f x a args).1 fun p => .access (kind f args) p (atomSize f)

/-- RED and REDV: an operation entered for its line, nothing in helper lanes (R242, R244). -/
def reduceAsk (place : State → Form → Iss → Act → Args → Nat × Chk) (val : Args → DWord) : LaneAsk := fun s f x a args =>
  if a.lane.helper then .nothing
  else (place s f x a args).2.ask false 0 (place s f x a args).1 fun p =>
    .access (.red f.ty f.m2.toNat (sized (atomSize f) (val args))) p (atomSize f)

/-- Where ATOM, RED and CAS reach memory: both permissions are needed (R229, R240). -/
def memPlace (ea : Args → Nat) (s : State) (f : Form) (x : Iss) (_ : Act) (args : Args) : Nat × Chk :=
  (ea args, s.check x.core x.ctx .rw (ea args) (atomSize f))

/-- Where ATOMV and REDV reach a scratchpad (R239). -/
def vaultPlace (s : State) (f : Form) (_ : Iss) (a : Act) (args : Args) : Nat × Chk :=
  (vaultOff args, s.vaultChk a.m.ref (vaultOff args) (atomSize f) (coreOf f.c args.c))

/-- LINE.ZERO: 64 bytes of 0 are stored (R237). -/
def lineZeroAsk : LaneAsk := fun s _ x a args =>
  if a.lane.helper then .nothing
  else (s.check x.core x.ctx .w (effAddr args.a args.b) 64).ask false 0 (effAddr args.a args.b) fun p =>
    .access (.store (List.replicate 64 0)) p 64

/-- SWARM: a sync word of 16 bytes is read and written (R265). -/
def swarmAsk : LaneAsk := fun s f _ a args =>
  if a.lane.helper then .value [0]
  else (s.poisonChk true (s.vaultChk a.m.ref (vaultOff args) 16 (coreOf f.c args.c))).ask false 0 (vaultOff args) fun p =>
    .access (.sync (args.b.extractLsb' 0 32)) p 16

def LoadsComplete : Prop :=
  MemCompletes .ld strong never noPremise loadAsk ∧ MemCompletes .ldv strong never noPremise vaultLoadAsk

def StoresComplete : Prop :=
  MemCompletes .st never strong noHatch memStoreAsk ∧ MemCompletes .stv never strong noPremise vaultStoreAsk
    ∧ MemCompletes .lineZero never strong noPremise lineZeroAsk

def AtomicsComplete : Prop :=
  MemCompletes .atom strong strong noPremise
      (swapAsk (memPlace fun q => effAddr q.a q.b) fun f q => .atom f.ty f.m2.toNat (sized (atomSize f) q.c))
    ∧ MemCompletes .atomv strong strong noPremise
      (swapAsk vaultPlace fun f q => .atom f.ty f.m2.toNat (sized (atomSize f) q.b))
    ∧ MemCompletes .cas strong strong noPremise
      (swapAsk (memPlace fun q => q.a.toNat) fun f q => .cas (sized (atomSize f) q.b) (sized (atomSize f) q.c))
    ∧ MemCompletes .red never strong noPremise (reduceAsk (memPlace fun q => effAddr q.a q.b) Args.c)
    ∧ MemCompletes .redv never strong noPremise (reduceAsk vaultPlace Args.b)
    ∧ MemCompletes .swarm strong strong noPremise swarmAsk

/-- The coordinates of a texture read: the two words of slot A (R249). -/
def coordinates (mk : Form → Instr) (s : State) (f : Form) (x : Iss) (a : Act) : Word × Word :=
  pairWords (s.env x) f (sigOf (mk f) f) x.wbase a.m.pos

/-- A texture read of the texture slot B names; OBJ_HANDLE where there is none, but 0 in a helper lane (R85, R249). -/
def textureAsk (texels : Form → Texture → Word × Word → Bool × Nat × Nat × List (Option Nat)) (mk : Form → Instr) : LaneAsk :=
  fun s f x a args =>
    match s.texture? x.ctx (args.b.extractLsb' 0 32) with
    | none => if a.lane.helper then .value [0, 0, 0, 0] else .fault .objHandle ((args.b.extractLsb' 0 32).setWidth 52)
    | some t =>
      let q := texels f t (coordinates mk s f x a)
      texelAsk s x a t q.1 q.2.1 q.2.2.1 q.2.2.2

/-- TEX: up to four texels of nonzero weight around the coordinates (R250, R251). -/
def texTexels (f : Form) (t : Texture) (c : Word × Word) : Bool × Nat × Nat × List (Option Nat) :=
  let linear : Bool := f.m2 = 0
  let i := texAxis linear c.1.toNat t.w
  let j := texAxis linear c.2.toNat t.h
  (linear, i.2, j.2,
    [some (t.addr i.1 j.1), if i.2 != 0 then some (t.addr (i.1 + 1) j.1) else none,
     if j.2 != 0 then some (t.addr i.1 (j.1 + 1)) else none,
     if i.2 != 0 && j.2 != 0 then some (t.addr (i.1 + 1) (j.1 + 1)) else none])

/-- TLD: the texel at the integer coordinates (R252). -/
def tldTexels (_ : Form) (t : Texture) (c : Word × Word) : Bool × Nat × Nat × List (Option Nat) :=
  (false, 0, 0, [some (t.addr c.1.toInt c.2.toInt), none, none, none])

def TextureReadsComplete : Prop :=
  MemCompletes .tex never never noPremise (textureAsk texTexels .tex)
    ∧ MemCompletes .tld never never noPremise (textureAsk tldTexels .tld)

/-- LDS reads once for its issue into uniform registers (R235). -/
def ldsAddr (s : State) (f : Form) (x : Iss) : Nat :=
  effAddr (s.onceValue x f f.a (sigOf (.lds f) f).a) (s.onceValue x f f.b (sigOf (.lds f) f).b)

/-- LDS, FENCE and LINE.PROBE, where no access of their lanes is in flight (R235, R237, R247). -/
def OrderedComplete : Prop :=
  (∀ f s x p, CanIssue (.lds f) f true s x → s.actives x f ≠ [] → s.noneInFlight x →
    s.poisonChk true (s.check x.core x.ctx .r (ldsAddr s f x) (accSize f)) = .ok p →
    UniformOk s x (slotNum f f.d) (loadWords (accSize f) (f.ty = .i32) (Memory.le s.mem p (accSize f))) →
    ∃ t, exec (.lds f) s = .next t ∧ UniformResult x f [] (slotNum f f.d)
      (loadWords (accSize f) (f.ty = .i32) (Memory.le s.mem p (accSize f))) 0 s t)
  ∧ (∀ f s x, CanIssue (.fence f) f false s x →
    ((∀ a ∈ s.actives x f, s.quiet a.m.ref (f.m2 = 1) = true) → ∃ t, exec (.fence f) s = .next t ∧ MovesOnly x f s t)
    ∧ ((∃ a ∈ s.actives x f, s.quiet a.m.ref (f.m2 = 1) = false) → exec (.fence f) s = .next (s.stall x .memoryData)))
  ∧ ∀ f s x, CanIssue (.lineProbe f) f false s x → IssueOk s x → s.noneInFlight x →
    (∀ a ∈ s.actives x f, ∃ args p, s.argsOf x f (sigOf (.lineProbe f) f) a = some args
      ∧ s.check x.core x.ctx .r (effAddr args.a args.b) 64 = .ok p) →
    ∃ t : State, exec (.lineProbe f) s = .next t
      ∧ (∀ a ∈ s.actives x f, ∀ args p, s.argsOf x f (sigOf (.lineProbe f) f) a = some args →
          s.check x.core x.ctx .r (effAddr args.a args.b) 64 = .ok p →
          t.lane? a.m.ref = (s.lane? a.m.ref).map fun l =>
            { l.setPred (slotNum f f.d) (!inHostMem p && s.poisoned p) with pc := nextPc f x.pc })
      ∧ (∀ m ∈ x.members, m ∉ (s.actives x f).map Act.m →
          t.lane? m.ref = (s.lane? m.ref).map fun l => { l with pc := nextPc f x.pc })
      ∧ (∀ reg pos, t.readReg x reg pos = if reg ∈ luRegs f (sigOf (.lineProbe f) f) x.wbase then 0 else s.readReg x reg pos)
      ∧ RegisterFrame x s t

/-- PREF (R236): once its word decodes and its sources await nothing it never faults, and the lanes go on; a mapped address
has its translation, or a walk for it, unless 64 walks are in progress on the die (R119); with SERVICE, an address without a
mapping has a fault record, unless every record of the die is in use. -/
def PrefetchComplete : Prop :=
  ∀ f s x, s.curIss? = some x → decodeFault (.pref f) f (s.limits x) = none → IssueOk s x →
    (s.reads x f (sigOf (.pref f) f)).busy x f (sigOf (.pref f) f) = false →
    ∃ t : State, exec (.pref f) s = .next t ∧ MovedOn x f s t ∧ (∀ r, r ∉ x.members.map Member.ref → t.lane? r = s.lane? r)
      ∧ t.pend = s.pend ∧ t.pipes = s.pipes ∧ (∀ r ∈ s.records, r ∈ t.records)
      ∧ (f.m2 ≠ 1 → ∃ wgs ctl cores seq walks, t = { s with wgs := wgs, ctl := ctl, cores := cores, seq := seq, walks := walks })
      ∧ ∀ a ∈ s.actives x f, ∀ args c, s.argsOf x f (sigOf (.pref f) f) a = some args →
          region (effAddr args.a args.b) = .paged → s.ctx? x.ctx = some c →
          match pageOf c.pages (effAddr args.a args.b) with
          | some _ => (s.cached x.core x.ctx (effAddr args.a args.b)).isSome
              ∨ ⟨x.core, x.ctx, effAddr args.a args.b / 65536 * 65536⟩ ∈ t.walks
              ∨ 64 ≤ t.walks.countP fun k => dieOf k.core = dieOf x.core
          | none => f.m2 = 1 →
              (∃ r ∈ t.records, r.die = dieOf x.core ∧ r.ctx = x.ctx ∧ r.region = effAddr args.a args.b / 65536 * 65536)
              ∨ ∀ n, n < Config.faultRecords → ∃ r ∈ t.records, r.die = dieOf x.core ∧ r.index = n

/-- WAITW: the value in memory where the test holds, or a wait for it; a helper lane whose read fails takes 0 for the value
(R85, R245). -/
def waitwOutcome : LaneHeld := fun s f x g a =>
  match s.argsOf x f g a with
  | none => none
  | some args =>
    let n := atomSize f
    let ea := effAddr args.a args.b
    let test (w : DWord) : List Word ⊕ Wait :=
      if waitwTest (waitSigned f) n f.m2.toNat w (sized n args.c) then .inl (valWords (n / 4) w)
      else .inr (.waitw ea n (waitSigned f) f.m2.toNat (sized n args.c) s.clock
        { regs := dstRegs f g x.wbase, pos := a.m.pos, nwb := f.nwb, pred := none })
    match s.poisonChk true (s.check x.core x.ctx .r ea n) with
    | .ok p => some (test (dwordOf (Memory.le s.mem p n)))
    | .fault _ | .absent => if a.lane.helper then some (test 0) else none
    | .wait => none

/-- SWWAIT: the generation of the sync word, once it has passed slot B's (R267); 0 in a helper lane whose read fails (R85). -/
def swwaitOutcome : LaneHeld := fun s f x g a =>
  match s.argsOf x f g a with
  | none => none
  | some args =>
    match s.poisonChk true (s.vaultChk a.m.ref (vaultOff args) 16 (coreOf f.c args.c)) with
    | .ok p =>
      let gen : Word := wordOf (Memory.le s.mem (p + 8) 4)
      if 1 ≤ (gen - args.b.extractLsb' 0 32).toNat && (gen - args.b.extractLsb' 0 32).toNat < 2 ^ 31 then some (.inl [gen])
      else none
    | .fault _ => if a.lane.helper then some (.inl [0]) else none
    | _ => none

/-- What the lanes of an SWWAIT wait for, by position: the offset, the generation and the core index (R267). -/
def swwaitAsks (s : State) (f : Form) (x : Iss) : List (Nat × Nat × Word × Option Nat) :=
  (s.actives x f).filterMap fun a => (s.argsOf x f (sigOf (.swwait f) f) a).map fun args =>
    (a.m.pos, vaultOff args, args.b.extractLsb' 0 32, coreOf f.c args.c)

/-- SWWAIT where no lane faults and some lane's generation has not passed (R139, R267, R491): it has issued, its group is
blocked whole until every lane's has, no lane moves, and the latches take the empty state; then the warp's entry moves on (R81). -/
def SwwaitWaits : Prop :=
  ∀ f s x g, CanIssue (.swwait f) f false s x → IssueOk s x → s.noneInFlight x → f.d.cls = .vector → g = sigOf (.swwait f) f →
    (∀ a ∈ s.actives x f, ∃ args, s.argsOf x f g a = some args ∧
      ((∃ p, s.poisonChk true (s.vaultChk a.m.ref (vaultOff args) 16 (coreOf f.c args.c)) = .ok p)
        ∨ a.lane.helper = true ∧ ∃ c, s.poisonChk true (s.vaultChk a.m.ref (vaultOff args) 16 (coreOf f.c args.c)) = .fault c)) →
    (∃ a ∈ s.actives x f, swwaitOutcome s f x g a = none) → DestOk s x f g (s.actives x f).length →
    ∃ t : State, exec (.swwait f) s = .next (t.settleAt x.g)
      ∧ t.holdOf x.g = some (.swwait (swwaitAsks s f x) (nextPc f x.pc) (dstRegs f g x.wbase) f.nwb
          ((s.actives x f).map fun a => (a.m.pos, luKept f g x.wbase (s.rowsOf x) a.m.pos)))
      ∧ (∀ r, t.lane? r = s.lane? r)
      ∧ (∀ reg pos, t.readReg x reg pos = if reg ∈ luRegs f g x.wbase then 0 else s.readReg x reg pos)
      ∧ (∀ pos n, pos < 32 → n < (dstRegs f g x.wbase).length → t.readLatch x pos n = .empty)
      ∧ (∀ pos n, pos < 32 → n + (dstRegs f g x.wbase).length < 8 →
          t.readLatch x pos (n + (dstRegs f g x.wbase).length) = s.readLatch x pos n)
      ∧ ∃ wgs ctl cores pipes seq, t = { s with wgs := wgs, ctl := ctl, cores := cores, pipes := pipes, seq := seq }

/-- JWAIT: the register's word, while no lane has signed it; a wait otherwise (R262). -/
def jwaitOutcome : LaneHeld := fun s f x g a =>
  (s.conv? x.wg (slotNum f f.a)).map fun c =>
    if c.signed = 0 then .inl [c.word]
    else .inr (.jwait (slotNum f f.a) { regs := dstRegs f g x.wbase, pos := a.m.pos, nwb := f.nwb, pred := none })

/-! ### Reforming -/

/-- REFORM (R90, R319), with at most 32 registers carried, no more than the lanes carry already, and bins for all: each
active lane is filed, and what follows is done for their warps. -/
def ReformsComplete : Prop :=
  ∀ f s x n, CanIssue (.reform f) f false s x → IssueOk s x → n = (f.slotImm f.a).toNat →
    (carriedRegs x n).any (rowBusy (s.rowsOf x)) = false → f.a.cls = .immediate →
    n ≤ 32 → (∀ a ∈ s.actives x f, x.carried.isSome = true → n ≤ a.lane.carried) → (s.core x.core).bins.length + (s.actives x f).length ≤ 16 →
    (∀ a ∈ s.actives x f, (s.argsOf x f (sigOf (.reform f) f) a).isSome) →
    ∃ t : State, exec (.reform f) s = .next (t.afterAll ((s.actives x f).map fun a => a.m.ref))
      ∧ (∀ a ∈ s.actives x f, ∃ l : Lane, t.lane? a.m.ref = some l ∧ l.st = .binned ∧ l.pc = nextPc f x.pc ∧ l.carried = n
          ∧ l.reformed = none
          ∧ ∃ b ∈ (t.core x.core).bins, b.ctx = x.ctx ∧ b.pc = nextPc f x.pc ∧ b.wbase = a.lane.wbase ∧ b.dslot = x.dslot
            ∧ (a.m.ref, s.clock) ∈ b.lanes)
      ∧ (∀ m ∈ x.members, m ∉ (s.actives x f).map Act.m →
          t.lane? m.ref = (s.lane? m.ref).map fun l => { l with pc := nextPc f x.pc })
      ∧ (∀ r, r ∉ x.members.map Member.ref → t.lane? r = s.lane? r)
      ∧ ∃ wgs ctl cores seq, t = { s with wgs := wgs, ctl := ctl, cores := cores, seq := seq }

/-- The home map of a lane. -/
def homeRows (s : State) (r : LaneRef) : List Row := ((s.warp? r.wg r.warp).map Warp.rows).getD []

/-- REFORM.HOME (R93, R319): in a home group it goes on; a lane of a reformed group returns to its home warp, whose map,
with rows free for the registers that lane carries, holds them in the lane's position. -/
def ReformsHomeComplete : Prop :=
  LanesComplete .reformHome false (fun _ _ x _ _ => x.carried = none) (fun _ f x _ _ l => { l with pc := nextPc f x.pc })
  ∧ ∀ f s x core slot gid b n, CanIssue (.reformHome f) f false s x → IssueOk s x → x.g = .reformed core slot gid → x.carried = some (b, n) →
    ((List.range n).map (b + ·)).any (rowBusy (s.rowsOf x)) = false →
    (∀ a ∈ s.actives x f, (s.argsOf x f (sigOf (.reformHome f) f) a).isSome
      ∧ a.lane.reformed = some slot ∧ (s.wg? a.m.ref.wg).map Workgroup.core = some core ∧ a.m.ref.lane < 32
      ∧ ∃ v, s.warp? a.m.ref.wg a.m.ref.warp = some v ∧ RowsOk v.rows ∧ (∀ r ∈ v.rows, r.await = [])
        ∧ v.rows.length + a.lane.carried ≤ v.livemax ∧ v.privileged = false) →
    ∃ t : State, exec (.reformHome f) s = .next t
      ∧ (∀ a ∈ s.actives x f, t.lane? a.m.ref = some { a.lane with
            pc := nextPc f x.pc, st := .issuing, carried := 0, carry := none, reformed := none }
          ∧ ∀ i, i < a.lane.carried → (findRow (s.rowsOf x) (b + i)).isSome →
              rowRead (homeRows t a.m.ref) (b + i) a.m.ref.lane = s.readReg x (b + i) a.m.pos)
      ∧ (∀ m ∈ x.members, m ∉ (s.actives x f).map Act.m →
          t.lane? m.ref = (s.lane? m.ref).map fun l => { l with pc := nextPc f x.pc })
      ∧ ∃ wgs ctl cores seq, t = { s with wgs := wgs, ctl := ctl, cores := cores, seq := seq }

/-! ### Launches and dictionary loads -/

/-- The address LAUNCH and DICTLD name. -/
def launchAddr (s : State) (f : Form) (x : Iss) : Nat := (s.onceValue x f f.a (sigOf (.launch f) f).a).toNat

/-- DICTLD (R157, R324), where the image's header and templates pass their checks and a physical slot is bound or free: a
load is queued for the slot, LOADING names it in the warp, and the members go on. -/
def DictLoadsComplete : Prop :=
  ∀ f s x va first count v, CanIssue (.dictld f) f true s x → s.actives x f ≠ [] → s.noneInFlight x →
    (s.reads x f (sigOf (.dictld f) f)).outside = [] →
    va = (s.onceValue x f f.b (sigOf (.dictld f) f).b).toNat → va % 16 = 0 →
    firstBad [(va, s.poisonChk true (s.check x.core x.ctx .r va 16))] = none →
    headerOk (Memory.bytes s.mem (s.check x.core x.ctx .r va 16).phys 16) = some (first, count) →
    firstBad ((va, s.check x.core x.ctx .rx va 16) :: imageChks (s.check x.core x.ctx) va count) = none →
    (x.priv = true ∨ ∀ c, s.ctx? x.ctx = some c → c.trapdict ≠ (f.slotImm f.a).toNat) →
    ((s.slotOf x.core x.ctx (f.slotImm f.a).toNat).isSome ∨ s.slotsFit x.core [(x.ctx, (f.slotImm f.a).toNat)] = true) →
    s.warp? x.wg x.warp = some v →
    ∃ (t : State) (j : DictJob), exec (.dictld f) s = .next t
      ∧ (t.core x.core).jobs = (s.core x.core).jobs ++ [j]
      ∧ j.ctx = x.ctx ∧ j.core = x.core ∧ j.prog = (f.slotImm f.a).toNat ∧ j.va = dwordOf va ∧ j.first = first ∧ j.count = count
      ∧ j.lines = (imageChks (s.check x.core x.ctx) va count).map (fun c => c.2.phys) ∧ j.warp = some (x.wg, x.warp) ∧ j.priv = x.priv
      ∧ (t.slotOf x.core x.ctx (f.slotImm f.a).toNat).map DictSlot.phys = some j.phys
      ∧ (t.warp? x.wg x.warp).map Warp.loading = some (v.loading ++ [((f.slotImm f.a).toNat, j.id)])
      ∧ MovedOn x f s t ∧ (∀ r, r ∉ x.members.map Member.ref → t.lane? r = s.lane? r)
      ∧ ∃ wgs ctl cores seq, t = { s with wgs := wgs, ctl := ctl, cores := cores, seq := seq }

/-! ### Barriers and convergence registers -/

/-- A lane that has arrived once more at a barrier (R254). -/
def arrived (sc n : Nat) (l : Lane) : Lane :=
  l.setArrival { l.arrival sc n with made := (l.arrival sc n).made + 1 }

/-- The state after the arrivals of an issue, lane by lane, with the phases they complete (R79, R254). -/
def arrivals (s : State) (x : Iss) (f : Form) (arrive : Bool) : State :=
  if arrive then (s.arriveAll x (barLevel f.sc) (f.slotImm f.a).toNat (s.actives x f)).1 else s

/-- BARA, BARW and BARS (R254 to R256), where the accesses of arriving lanes have performed and no arrival faults: each
active lane arrives, and then waits while the phase of its own arrival is not over, or goes on; a lane that goes on stands at
the next PC, as every other member does. -/
def BarCompletes (mk : Form → Instr) (arrive waits : Bool) : Prop :=
  ∀ f s x, CanIssue (mk f) f true s x → IssueOk s x →
    (arrive = true → (∀ a ∈ s.actives x f, s.quiet a.m.ref false = true)
      ∧ (s.arriveAll x (barLevel f.sc) (f.slotImm f.a).toNat (s.actives x f)).2 = []) →
    ∃ t : State, exec (mk f) s = .next t
      ∧ (∀ a ∈ s.actives x f, t.lane? a.m.ref = ((arrivals s x f arrive).lane? a.m.ref).map fun l =>
          if waits = true ∧ (arrivals s x f arrive).barrierOver (barLevel f.sc) (f.slotImm f.a).toNat a.m.ref = false then
            { l with st := .waiting (.barrier (barLevel f.sc) (f.slotImm f.a).toNat), npc := nextPc f x.pc }
          else { l with pc := nextPc f x.pc })
      ∧ (∀ m ∈ x.members, m ∉ (s.actives x f).map Act.m →
          t.lane? m.ref = ((arrivals s x f arrive).lane? m.ref).map fun l => { l with pc := nextPc f x.pc })
      ∧ (∀ r, r ∉ x.members.map Member.ref → t.lane? r = (arrivals s x f arrive).lane? r)
      ∧ ∃ wgs ctl cores seq, t = { arrivals s x f arrive with wgs := wgs, ctl := ctl, cores := cores, seq := seq }

/-- One arrival (R254, R255): it faults by the role and by the phases its lane is ahead, and otherwise counts once more for
the lane, before the phases it completes are completed. -/
def ArrivalCounts : Prop :=
  ∀ s x sc n a g v l, s.wg? x.wg = some g → s.warp? x.wg x.warp = some v → s.lane? a.m.ref = some l →
    State.arrive s x sc n a = match arrivalFault (s.barrier g x.warp sc n) v l sc n with
      | some c => (s, [⟨a.m.ref, c, BitVec.ofNat 52 n⟩])
      | none => (State.completePhases 3 (s.updLane a.m.ref (arrived sc n)) g x.warp sc n, [])

/-- The number slot A of JSET names. -/
def jsetCount (s : State) (f : Form) (x : Iss) : Nat := (s.onceValue x f f.a (sigOf (.jset f) f).a).toNat % 2 ^ 32

/-- JSET (R259): with no lane signed, the target becomes a quarter of the lanes; a target that is so already stays. -/
def JoinTargetsComplete : Prop :=
  OnceCompletes .jset true
    (fun s f x => jsetCount s f x % 4 = 0 ∧ jsetCount s f x ≤ 1020 ∧ ∃ c, s.conv? x.wg (slotNum f f.d) = some c
      ∧ (c.signed = 0 ∨ c.target = jsetCount s f x / 4))
    (fun s f x => s.updConv x.wg (slotNum f f.d) fun c => { c with target := jsetCount s f x / 4 })

/-- JSIGN, WLOAD, MMA and MMG (R95, R260, R261, R351), where the register takes their signatures and their lanes' accesses
have performed: the quads sign and their lanes wait; the last to sign a round opens its operation. -/
def SignCompletes (mk : Form → Instr) (js : Form → Slot) (onePane : Bool) (values : Env → Form → List Word)
    (fill : Nat → Nat → State → State) : Prop :=
  ∀ f s x c, CanIssue (mk f) f true s x → IssueOk s x → s.actives x f ≠ [] → s.conv? x.wg (slotNum f (js f)) = some c →
    maySign c x (mopOf (mk f)) f (values (s.env x) f) onePane ((s.actives x f).map fun a => a.m.pos) = true →
    (∀ a ∈ s.actives x f, s.quiet a.m.ref false = true) →
    ∃ (t : State) (c' : ConvReg),
      exec (mk f) s = .next (if c'.signed = c.target then fill x.wg (slotNum f (js f)) t else t)
      ∧ t.conv? x.wg (slotNum f (js f)) = some c'
      ∧ c'.signed = c.signed + (s.actives x f).length / 4 ∧ c'.target = c.target ∧ c'.progress = c.progress
      ∧ c'.round = some (c.round.getD f)
      ∧ c'.signers = (if c.round.isSome then c.signers else []) ++ (s.actives x f).map (fun a => (x.warp, a.m.pos))
      ∧ (c'.filled = 0 ↔ c'.signed ≠ c.target)
      ∧ (∀ a ∈ s.actives x f, t.lane? a.m.ref
          = some { a.lane with st := .waiting (.signed (slotNum f (js f))), npc := nextPc f x.pc })
      ∧ (∀ m ∈ x.members, m ∉ (s.actives x f).map Act.m →
          t.lane? m.ref = (s.lane? m.ref).map fun l => { l with pc := nextPc f x.pc })
      ∧ (∀ r, r ∉ x.members.map Member.ref → t.lane? r = s.lane? r)
      ∧ ∃ wgs ctl cores seq, t = { s with wgs := wgs, ctl := ctl, cores := cores, seq := seq }

def SignsComplete : Prop :=
  SignCompletes .jsign Form.a false (fun _ _ => []) (fun wg j s => s.completeRound wg j)
  ∧ SignCompletes .wload Form.b false (fun _ _ => []) (fun wg j s => s.tryRound wg j)
  ∧ SignCompletes .mma Form.b false (fun _ _ => []) (fun wg j s => s.tryRound wg j)
  ∧ SignCompletes .mmg Form.b true (fun e f => e.uwords f f.a (sigOf (.mmg f) f).a) (fun wg j s => s.tryRound wg j)

/-! ### Matrix instructions -/

/-- No full round of the workgroup uses on the pane what an instruction uses (R349). -/
def matrixFree (uses : Form → List (MatRes × Bool)) (s : State) (f : Form) (x : Iss) : Prop := s.matStalls x (uses f) = false

/-- ACRD: the accumulator's cell of the row and the lane's position, times the scale, rounded (R371). -/
def acrdValue : LaneValue := fun s f x e g act a =>
  let row := accRowOf e x f g act
  if 63 < row then none
  else
    let ts : Word := if f.c.cls = .none then 0x3F800000 else ((e.once x f act f.c g.c).getD 0).extractLsb' 0 32
    let c := Cells.read ((s.pane x.wg x.pane).acc (slotNum f f.a)) (32 * row + a.m.pos)
    let r := readout f.sat ts c.toNat
    some ⟨dwordOf r.bits, r.flags⟩

/-- ACWR: the lanes' words stand in the row of the accumulator at their positions (R371). -/
def acwrEffect (s : State) (f : Form) (x : Iss) : State :=
  let row := accRowOf (s.env x) x f (sigOf (.acwr f) f) (s.actives x f)
  (s.updPane x.wg x.pane fun p =>
    { p with accs := mapNth p.accs (slotNum f f.d) fun c => (s.actives x f).foldl (fun c a =>
        match (s.env x).slot f x.wbase a.m.pos f.a (sigOf (.acwr f) f).a with
        | some w => Cells.write c (32 * row + a.m.pos) (w.extractLsb' 0 32)
        | none => c) c }).released x f (sigOf (.acwr f) f)

/-- Accumulator instructions (R370, R371): ACZ clears an accumulator, ACWR writes lanes of a row of it, ACRD reads them. -/
def AccumulatorRowsComplete : Prop :=
  OnceCompletes .acz true (matrixFree fun f => [(.acc (slotNum f f.d), true)])
    (fun s f x => s.updPane x.wg x.pane fun p => { p with accs := setNth p.accs (slotNum f f.d) [] })
  ∧ OnceCompletes .acwr true
    (fun s f x => matrixFree (fun f => [(.acc (slotNum f f.d), true)]) s f x
      ∧ accRowOf (s.env x) x f (sigOf (.acwr f) f) (s.actives x f) < 64
      ∧ ∀ a ∈ s.actives x f, ((s.env x).slot f x.wbase a.m.pos f.a (sigOf (.acwr f) f).a).isSome) acwrEffect
  ∧ VectorCompletesIf (fun s f x => matrixFree (fun f => [(.acc (slotNum f f.a), false)]) s f x) (fun _ _ t => t)
    .acrd true acrdValue

/-- TMOV copies a tile with its side file (R365). -/
def tmovEffect (s : State) (f : Form) (x : Iss) : State :=
  s.updPane x.wg x.pane fun p =>
    { p with tiles := setNth p.tiles (slotNum f f.d) (p.tile (slotNum f f.a)), sides := setNth p.sides (slotNum f f.d) (p.side (slotNum f f.a)) }

/-- The scale codes TSCL gives: the byte itself, or the old codes moved by it (R366). -/
def tsclCode (s : State) (f : Form) (x : Iss) (i : Nat) : Int :=
  let v : Byte := (s.onceValue x f f.a (sigOf (.tscl f) f).a).extractLsb' 0 8
  if f.m2 = 0 then v.toNat else (Cells.read ((s.pane x.wg x.pane).side (slotNum f f.d)) i).toNat + v.toInt

/-- Tile instructions that stay on their pane (R365, R366). -/
def TileMovesComplete : Prop :=
  OnceCompletes .tmov true (matrixFree fun f => [(.tile (slotNum f f.d), true), (.tile (slotNum f f.a), false)]) tmovEffect
  ∧ OnceCompletes .tscl true
    (fun s f x => matrixFree (fun f => [(.tile (slotNum f f.d), true)]) s f x
      ∧ ∀ i, i < 64 → 0 ≤ tsclCode s f x i ∧ tsclCode s f x i ≤ 254)
    (fun s f x => s.updPane x.wg x.pane fun p =>
      { p with sides := setNth p.sides (slotNum f f.d)
                 (cellsOf ((List.range 64).map fun i => BitVec.ofNat 8 (tsclCode s f x i).toNat)) })

/-- The scale code TCVT uses for a row (R368). -/
def tcvtScale (s : State) (f : Form) (x : Iss) (r : Nat) : Nat :=
  let p := s.pane x.wg x.pane
  if f.ty = .oz8x4 then sxOf (p.side (slotNum f f.d)) r (f.slotImm f.b).toNat
  else if srcTy f.m2 = .oz8x4 then sxOf (p.side (slotNum f f.a)) r (f.slotImm f.b).toNat else 127

/-- The rows TCVT gives with their flags, and the generator after them (R368). -/
def tcvtOut (s : State) (f : Form) (x : Iss) : List (List Byte × Flags) × Word :=
  let p := s.pane x.wg x.pane
  tcvtRows (fun r gen => tcvtRow' (srcTy f.m2) f.ty f.rm f.sat (f.slotImm f.b).toNat (tcvtScale s f x r) gen
      (tileRow (p.tile (slotNum f f.a)) r) (tileRow (p.tile (slotNum f f.d)) r)) (f.rm = .sr) (List.range 64) (s.seedOf x)

/-- The flags of every active lane of TCVT: those of all its elements. -/
def tcvtFlags (s : State) (f : Form) (x : Iss) : List LaneRes :=
  (s.actives x f).map fun a => ⟨a, [], (tcvtOut s f x).1.foldl (fun fl r => fl ||| r.2) 0⟩

/-- TCVT (R367, R368), where no scale code is 255 and no enabled flag is raised: the tile holds the converted rows. -/
def TileConversionComplete : Prop :=
  OnceCompletes .tcvt true
    (fun s f x => matrixFree (fun f => [(.tile (slotNum f f.d), true), (.tile (slotNum f f.a), false)]) s f x
      ∧ (∀ r, r < 64 → tcvtScale s f x r ≠ 255) ∧ s.fpTrap (tcvtFlags s f x) = none)
    (fun s f x => ((s.setSeed x (tcvtOut s f x).2).addAllFlags (tcvtFlags s f x)).updPane
      x.wg x.pane fun p => { p with tiles := setNth p.tiles (slotNum f f.d) (tileOf ((tcvtOut s f x).1.map Prod.fst)) })

/-- The base and the row distance of TLDT and TSTT (R364). -/
def tileBase (sl : Form → Slot) (o : Sig → Opnd) (mk : Form → Instr) (s : State) (f : Form) (x : Iss) : Nat :=
  (s.onceValue x f (sl f) (o (sigOf (mk f) f))).toNat

/-- The checks of the rows and the side file TLDT reads. -/
def tldtChecks (s : State) (f : Form) (x : Iss) : List (Nat × Chk) × Option (Nat × Chk) :=
  let base := tileBase Form.a Sig.a .tldt s f x
  let w := tileBase Form.b Sig.b .tldt s f x % 2 ^ 32
  let chk (ea : Nat) : Nat × Chk := (ea, s.poisonChk true (s.check x.core x.ctx .r ea 64))
  ((tileRowsAt f base w).map fun r => chk r.2, (tileSideAt f base w).map chk)

/-- TLDT: rows and side file from memory (R364). -/
def tldtEffect (s : State) (f : Form) (x : Iss) : State :=
  let q := tldtChecks s f x
  let read (c : Nat × Chk) : List Byte := Memory.bytes s.mem c.2.phys 64
  s.updPane x.wg x.pane fun p =>
    { p with
      tiles := if q.1 = [] then p.tiles else setNth p.tiles (slotNum f f.d) (tileOf (q.1.map read))
      sides := match q.2 with | some c => setNth p.sides (slotNum f f.d) (cellsOf (read c)) | none => p.sides }

/-- The rows and the side file TSTT stores, with the checks of their addresses. -/
def tsttRows (s : State) (f : Form) (x : Iss) : List ((Nat × Chk) × List Byte) :=
  let base := tileBase Form.b Sig.b .tstt s f x
  let w := tileBase Form.c Sig.c .tstt s f x % 2 ^ 32
  let p := s.pane x.wg x.pane
  let chk (ea : Nat) : Nat × Chk := (ea, s.check x.core x.ctx .w ea 64)
  (tileRowsAt f base w).map (fun r => (chk r.2, tileRow (p.tile (slotNum f f.a)) r.1))
    ++ (tileSideAt f base w).toList.map fun ea => (chk ea, (List.range 64).map (Cells.read (p.side (slotNum f f.a))))

/-- The stores of an issue entered in flight by its lowest active lane: none where every active lane is a helper. -/
def storesBy (s : State) (f : Form) (x : Iss) (ws : List (Nat × AccessKind × Nat)) : State :=
  if (s.actives x f).all (fun a => a.lane.helper) then s
  else match s.actives x f with
  | [] => s
  | a :: _ => ws.foldl (fun s w => s.pushAccess x.ctx a.m.ref w.2.1 w.1 w.2.2 (strong f)) s

/-- TLDT and TSTT (R364), with aligned addresses whose checks pass. -/
def TileMemoryComplete : Prop :=
  OnceCompletes .tldt true
    (fun s f x => matrixFree (fun f => [(.tile (slotNum f f.d), true)]) s f x ∧ s.noneInFlight x
      ∧ tileBase Form.a Sig.a .tldt s f x % 64 = 0 ∧ tileBase Form.b Sig.b .tldt s f x % 2 ^ 32 % 64 = 0
      ∧ firstBad ((tldtChecks s f x).1 ++ (tldtChecks s f x).2.toList) = none) tldtEffect
  ∧ OnceCompletes .tstt true
    (fun s f x => matrixFree (fun f => [(.tile (slotNum f f.a), false)]) s f x
      ∧ tileBase Form.b Sig.b .tstt s f x % 64 = 0 ∧ tileBase Form.c Sig.c .tstt s f x % 2 ^ 32 % 64 = 0
      ∧ firstBad ((tsttRows s f x).map Prod.fst) = none)
    (fun s f x => storesBy s f x ((tsttRows s f x).map fun q => (q.1.2.phys, .store q.2, 64)))

/-- The uniform registers ACST reads. -/
def acstWords (s : State) (f : Form) (x : Iss) : List Word := (s.env x).uwords f f.b (sigOf (.acst f) f).b

/-- The rows of the accumulator as ACST reads them out (R372). -/
def acstRows (s : State) (f : Form) (x : Iss) : List (List FRes) :=
  (List.range 64).map fun m =>
    (accRow ((s.pane x.wg x.pane).acc (slotNum f f.a)) m).map (readout f.sat ((acstWords s f x).getD 3 0))

/-- The flags of every active lane of ACST: those of all its elements. -/
def acstFlags (s : State) (f : Form) (x : Iss) : List LaneRes :=
  (s.actives x f).map fun a => ⟨a, [], (acstRows s f x).foldl (fun fl r => r.foldl (fun fl q => fl ||| q.flags) fl) 0⟩

/-- The checks of the rows ACST stores or reduces, 128 bytes each. -/
def acstChecks (s : State) (f : Form) (x : Iss) : List (Nat × Chk) :=
  (List.range 64).map fun m =>
    let ea := ((joinWords (acstWords s f x)).toNat + m * ((acstWords s f x).getD 2 0).toNat) % 2 ^ 64
    (ea, s.check x.core x.ctx (if f.m2 = 0 then .w else .rw) ea 128)

/-- ACST (R372): each element of the accumulator, read out, is stored or added at its row and column. -/
def AccumulatorStoreComplete : Prop :=
  OnceCompletes .acst true
    (fun s f x => matrixFree (fun f => [(.acc (slotNum f f.a), false)]) s f x
      ∧ (joinWords (acstWords s f x)).toNat % 128 = 0 ∧ ((acstWords s f x).getD 2 0).toNat % 128 = 0
      ∧ s.fpTrap (acstFlags s f x) = none ∧ firstBad (acstChecks s f x) = none)
    (fun s f x => storesBy (s.addAllFlags (acstFlags s f x)) f x
      (((acstChecks s f x).zip (acstRows s f x)).flatMap fun r => r.2.zipIdx.map fun q =>
        (r.1.2.phys + 4 * q.2, if f.m2 = 0 then .store (leBytes 4 q.1.bits) else .red .f32 0 (dwordOf q.1.bits), 4)))

/-- A round that is full, whose signers all wait, and which no earlier full round of the workgroup conflicts with. -/
structure RoundReady (s : State) (wg j : Nat) (g : Workgroup) (c : ConvReg) (f : Form) : Prop where
  group   : s.wg? wg = some g
  reg     : s.conv? wg j = some c
  round   : c.round = some f
  full    : c.filled ≠ 0
  notRun  : c.ran = false
  waiting : ∀ r ∈ c.lanes wg, ∃ w ∈ s.waitsOf r, w.2 = .signed j ∧ (c.stopped = false ∨ s.held w.1 = false)
  present : g.resident = true
  free    : g.matBusy (c.panes g) c.uses c.filled = false
  quiet   : ∀ r ∈ c.lanes wg, s.quiet r false = true

/-- The panes of a workgroup once MMA has run on some of them (R358). -/
def accumulated (f : Form) (on : List Nat) (ps : List PaneState) : List PaneState :=
  ps.zipIdx.map fun e => if e.2 ∈ on then mmaPane f e.1 else e.1

/-! ### Objects and targets -/

/-- The coverage a lane posts: that of slot B within its pixel's own (R425). -/
def postCover (s : State) (f : Form) (x : Iss) (a : Act) (p : Pixel) : Nat :=
  (((s.argsOf x f (sigOf (.post f) f) a).map fun q => q.b.toNat).getD 0) % 256 &&& p.mask.toNat

/-- The values a lane posts. -/
def postWords (s : State) (f : Form) (x : Iss) (a : Act) : List Word :=
  ((s.env x).words f x.wbase a.m.pos f.a (sigOf (.post f) f).a).getD []

/-- The object slot B of OCALL and OREAD names, and the method. -/
def objectOf (mk : Form → Instr) (s : State) (f : Form) (x : Iss) : Word × Word :=
  let u := (s.env x).uwords f f.b (sigOf (mk f) f).b
  (u.getD 0 0, u.getD 1 0)

/-- The position after `n` others that follow a position (R436). -/
def posAfter (p : Word) : Nat → Word
  | 0 => p
  | n + 1 => nextPos (posAfter p n)

/-- The arguments a lane's OCALL passes. -/
def callArgs (s : State) (f : Form) (x : Iss) (a : Act) : List Word :=
  ((s.env x).words f x.wbase a.m.pos f.a (sigOf (.ocall f) f).a).getD []

/-- The entry of the `n`-th call of an issue (R437). -/
def callEntry (s : State) (f : Form) (x : Iss) (o : ReplayObj) (a : Act) (n : Nat) : LogEntry :=
  { pos := posAfter o.tail (n + 1), method := (objectOf .ocall s f x).2.toNat, die := dieOf x.core
    args := callArgs s f x a, ret := 0, status := 0 }

/-- The destination of a lane's wait for a return (R443). -/
def callDest (f : Form) (x : Iss) (a : Act) : Dest :=
  { regs := dstRegs f (sigOf (.ocall f) f) x.wbase, pos := a.m.pos, nwb := f.nwb, pred := some (slotNum f f.c) }

/-- OCALL may be made by the active lanes: none is a helper, none of R443's faults applies, their accesses have performed and the
destination can be prepared. -/
structure CallOk (f : Form) (s : State) (x : Iss) (o : ReplayObj) : Prop where
  issue  : CanIssue (.ocall f) f true s x
  whole  : IssueOk s x
  acts   : s.actives x f ≠ []
  plain  : ∀ a ∈ s.actives x f, a.lane.helper = false
  dest   : f.d.cls = .vector
  object : s.object? x.ctx (objectOf .ocall s f x).1 = some o
  legal  : callFault s x.ctx (dieOf x.core) (objectOf .ocall s f x).1 (objectOf .ocall s f x).2 = none
  quiet  : ∀ a ∈ s.actives x f, s.quiet a.m.ref false = true
  ready  : DestOk s x f (sigOf (.ocall f) f) (s.actives x f).length

/-- The lanes of an issue after OCALL: the `n`-th active lane waits as `w` says, every other member goes on. -/
def CallsWait (f : Form) (s : State) (x : Iss) (w : Act → Nat → Wait) (t : State) : Prop :=
  (∀ (n : Nat) (a : Act), (s.actives x f)[n]? = some a →
      t.lane? a.m.ref = some { a.lane with
        st := .waiting (s.keepingLu x f (sigOf (.ocall f) f) a (w a n)), npc := nextPc f x.pc })
    ∧ (∀ m ∈ x.members, m ∉ (s.actives x f).map Act.m →
        t.lane? m.ref = (s.lane? m.ref).map fun l => { l with pc := nextPc f x.pc })
    ∧ ∀ r, r ∉ x.members.map Member.ref → t.lane? r = s.lane? r

/-- OCALL (R436, R437, R443, R448): with room in the log, the lanes' calls are appended in ascending position at the next
positions, their entries are written to both copies of the log, and each lane waits for its return; with the log full each waits
for room, and nothing is appended. -/
def ObjectCallComplete : Prop :=
  (∀ f s x o, CallOk f s x o → (∀ n, n < (s.actives x f).length → (posAfter o.tail n - o.trim).toNat < 2 ^ o.logk) →
    ∃ t : State, exec (.ocall f) s = .next (t.afterAll ((s.actives x f).map fun a => a.m.ref))
      ∧ CallsWait f s x (fun a n => .call (objectOf .ocall s f x).1 (posAfter o.tail (n + 1)) false (callDest f x a)) t
      ∧ t.object? x.ctx (objectOf .ocall s f x).1 = some { o with tail := posAfter o.tail (s.actives x f).length }
      ∧ t.mem = ((s.actives x f).zipIdx.foldl (fun u a => u.putEntry o (callEntry s f x o a.1 a.2)) s).mem
      ∧ ∃ wgs ctl cores pipes contexts seq mem poison, t = { s with
            wgs := wgs, ctl := ctl, cores := cores, pipes := pipes, contexts := contexts, seq := seq, mem := mem, poison := poison })
  ∧ ∀ f s x o, CallOk f s x o → o.full = true → s.hostMode x.ctx 1 = false →
    ∃ t : State, exec (.ocall f) s = .next (t.afterAll ((s.actives x f).map fun a => a.m.ref))
      ∧ CallsWait f s x (fun a _ => .callFull (objectOf .ocall s f x).1 (objectOf .ocall s f x).2 (callArgs s f x a) (callDest f x a)) t
      ∧ ∃ wgs ctl cores pipes seq, t = { s with wgs := wgs, ctl := ctl, cores := cores, pipes := pipes, seq := seq }

/-- What an instruction with a predicate beside its result finds in each active lane: the result, or what the lane waits for. -/
abbrev PredHeld := State → Form → Iss → Act → Option ((List Word × Bool) ⊕ Wait)

/-- The lanes that have such a result at once. -/
def predNow (s : State) (f : Form) (x : Iss) (val : PredHeld) : List LaneRes :=
  (s.actives x f).filterMap fun a => match val s f x a with | some (.inl v) => some ⟨a, v.1, 0⟩ | _ => none

/-- A result with a predicate: lanes that have it go on, the words in the destination and the truth in the predicate register;
where others wait, these stand WAITING at the next PC; the latches of an instruction that may wait (`late`) take the empty state. -/
def HeldPredCompletes (mk : Form → Instr) (forbidden : Bool) (late : Form → Bool) (given : State → Form → Iss → Prop)
    (pred : Form → Option Nat) (val : PredHeld) : Prop :=
  ∀ f s x, CanIssue (mk f) f forbidden s x → IssueOk s x → given s f x → f.d.cls = .vector →
    (∀ a ∈ s.actives x f, (val s f x a).isSome) → DestOk s x f (sigOf (mk f) f) (s.actives x f).length →
    ∃ t, exec (mk f) s = .next (if (predNow s f x val).length = (s.actives x f).length then t
        else t.afterAll ((s.actives x f).map fun a => a.m.ref))
      ∧ HeldResult x f (sigOf (mk f) f) (late f) (predNow s f x val) s t
      ∧ (∀ m ∈ x.members, t.lane? m.ref = (s.lane? m.ref).map fun l =>
          match (s.actives x f).find? fun a => a.m = m with
          | some a => match val s f x a, pred f with
            | some (.inr w), _ => { l with st := .waiting (s.keepingLu x f (sigOf (mk f) f) a w), npc := nextPc f x.pc }
            | some (.inl v), some n => { l.setPred n v.2 with pc := nextPc f x.pc }
            | _, _ => { l with pc := nextPc f x.pc }
          | none => { l with pc := nextPc f x.pc })
      ∧ (∀ r, r ∉ x.members.map Member.ref → t.lane? r = s.lane? r)
      ∧ ∃ wgs ctl cores pipes seq, t = { s with wgs := wgs, ctl := ctl, cores := cores, pipes := pipes, seq := seq }

/-- OREAD: once the replica of the lane's die has reached the minimum, the method's return word and APPLIED, and whether it
succeeded; until then the lane waits (R444). -/
def oreadValue : PredHeld := fun s f x a =>
  (s.object? x.ctx (objectOf .oread s f x).1).map fun o =>
    let applied := (o.replica (dieOf x.core)).applied
    let m := s.readReg x (vecReg f x.wbase f.d + 1) a.m.pos
    let min := if m = 0xFFFFFFFF then o.tail else if m = 0 then applied else m
    let args := ((s.env x).words f x.wbase a.m.pos f.a (sigOf (.oread f) f).a).getD []
    if (applied - min).toNat < 2 ^ 31 then
      let q := o.run (s.stateOf o (dieOf x.core)) (objectOf .oread s f x).2.toNat args applied (dieOf x.core)
      .inl ([q.2.1, applied], q.2.2 = 1)
    else .inr (.oread (objectOf .oread s f x).1 (objectOf .oread s f x).2 args min
      { regs := dstRegs f (sigOf (.oread f) f) x.wbase, pos := a.m.pos, nwb := f.nwb, pred := some (slotNum f f.c) })

/-- The predicate register of TSAMP: CURRENT has one. -/
def tsampPred (f : Form) : Option Nat := if f.m2 = 1 then some (slotNum f f.c) else none

/-- TSAMP of a pixel with nothing pending in the order, or of the current one: the sample's channels, and whether a fragment
of the pixel is pending; SETTLED waits for what is pending (R303, R427); in a helper lane 0 and false where another lane would
fault. -/
def tsampValue : PredHeld := fun s f x a =>
  let failing : Option ((List Word × Bool) ⊕ Wait) := if a.lane.helper then some (.inl ([0, 0, 0, 0], false)) else none
  let c := coordinates .tsamp s f x a
  let px := c.1.toNat % 65536
  let py := c.1.toNat / 65536
  match s.argsOf x f (sigOf (.tsamp f) f) a with
  | none => failing
  | some args =>
    let h : Word := args.b.extractLsb' 0 32
    match s.target? x.ctx h with
    | none => failing
    | some t =>
      if t.w ≤ px ∨ t.h ≤ py ∨ t.samples ≤ c.2.toNat ∨ (f.m2 = 0 ∧ (a.lane.pixel.any fun p => p.target = h) = true) then failing
      else if f.m2 = 0 ∧ s.pixelPending t t.order px py = true then
        some (.inr (.settled h px py c.2.toNat t.order
          { regs := dstRegs f (sigOf (.tsamp f) f) x.wbase, pos := a.m.pos, nwb := f.nwb, pred := tsampPred f }))
      else match s.sampleNow a.m.ref t px py c.2.toNat with
        | some ws => some (.inl (ws, s.fragmentPending t t.order px py))
        | none => failing

/-- OCALL of helper lanes, which append nothing and take 0 and false (R85); OREAD and TSAMP (R427, R444). -/
def ObjectReadsComplete : Prop :=
  HeldPredCompletes .oread true (fun _ => true)
    (fun s f x => (∀ a ∈ s.actives x f, s.acquiring a.m.ref = false) ∧ rowBusy (s.rowsOf x) (vecReg f x.wbase f.d + 1) = false
      ∧ oreadFault s x.ctx (dieOf x.core) (objectOf .oread s f x).1 (objectOf .oread s f x).2 = none)
    (fun f => some (slotNum f f.c)) oreadValue
  ∧ HeldPredCompletes .tsamp false (fun f => f.m2 != 1) noPremise tsampPred tsampValue
  ∧ HeldPredCompletes .ocall true (fun _ => true) (fun s f x => ∀ a ∈ s.actives x f, a.lane.helper = true) (fun f => some (slotNum f f.c))
      fun _ _ _ _ => some (.inl ([0, 0], false))

/-- OSTAT: the field of the target or object the lane's handle names (R446). -/
def ostatValue : LaneValue := fun s f x e g _ a =>
  (e.slot f x.wbase a.m.pos f.a g.a).bind fun v =>
    (s.ostat x.ctx (dieOf x.core) (v.extractLsb' 0 32) f.m2.toNat).map fun w => plain (w.setWidth 64)

/-! ### Method invocations -/

/-- What an instruction with a result leaves in the invocation that executes it (R138 to R142, R148, R420); that a register
released by LU reads 0 in an invocation, as an unmapped one does in a warp (R145), is log 15's reading. -/
structure MethodResult (f : Form) (g : Sig) (val : DWord) (v u : Invocation) : Prop where
  next    : u.pc = nextPc f v.pc
  written : f.d.cls = .vector → f.nwb = false → ∀ k reg : Nat, (dstRegs f g 0)[k]? = some reg → reg < v.regs.length →
    u.reg reg = (valWords (g.d.width f.ty) val).getD k 0
  kept    : ∀ reg, f.d.cls ≠ .vector ∨ f.nwb = true ∨ reg ∉ dstRegs f g 0 →
    u.reg reg = if reg ∈ luRegs f g 0 then 0 else v.reg reg
  latched : f.d.cls = .vector → ∀ k, k < (dstRegs f g 0).length →
    u.latches.getD ((dstRegs f g 0).length - 1 - k) .empty = .full ((valWords (g.d.width f.ty) val).getD k 0)
  preds   : ∀ n, n < 7 → u.pred n = if f.d.cls = .predicate ∧ n = slotNum f f.d then val.getLsbD 0 else v.pred n
  rest    : ∃ pc regs preds latches, u = { v with pc := pc, regs := regs, preds := preds, latches := latches }

/-- An instruction decodes in an invocation, its guard is true and its operands are read. -/
def MethodReads (mk : Form → Instr) (s : State) (f : Form) (v : Invocation) (x : Args) : Prop :=
  s.cur = .method v ∧ decodeFault (mk f) f methodLimits = none ∧ v.guard f = true ∧ v.args? f (sigOf (mk f) f) = some x

/-- The instructions of a method that compute one value from their operands: MOPs up to 0x094, so no DOT4 (R162, R420, R439). -/
def methodOps : List ((Form → Instr) × (Form → Args → Val)) :=
  integerOps ++ scalarFloatOps ++ predicateOps ++ [(Instr.cvt, fun f => cvtVal f 0 0)]

/-- The instructions that only a method executes (R421). -/
def methodOnlyOps : List (Form → Instr) := [.sld, .sst, .marg, .mret, .mtrap]

/-- In a method, the arithmetic instructions compute as in a lane, without flags (R62, R420, R439); SLD reads the window and
MARG an argument (R422, R423). -/
def MethodValuesComplete : Prop :=
  (∀ e ∈ methodOps, ∀ f s v x, MethodReads e.1 s f v x →
    ∃ u, exec (e.1 f) s = .next { s with cur := .method u } ∧ MethodResult f (sigOf (e.1 f) f) (e.2 f x).v v u)
  ∧ (∀ f s v x w, MethodReads .sld s f v x → v.load (x.a.toNat % 2 ^ 32) = .inl w →
    ∃ u, exec (.sld f) s = .next { s with cur := .method u } ∧ MethodResult f (sigOf (.sld f) f) (w.setWidth 64) v u)
  ∧ ∀ f s v x, MethodReads .marg s f v x →
    ∃ u, exec (.marg f) s = .next { s with cur := .method u }
      ∧ MethodResult f (sigOf (.marg f) f) ((v.args.getD x.a.toNat 0).setWidth 64) v u

/-- The registers of an invocation after LU, which read 0 (R148, log 15). -/
def releasedRegs (f : Form) (g : Sig) (v : Invocation) : List Word := (luRegs f g 0).foldl (fun l n => setNth l n 0) v.regs

/-- SST buffers its write, MRET, MTRAP and EXIT end the invocation, branches move it, NOP goes on (R309, R310, R420, R422, R441). -/
def MethodControlComplete : Prop :=
  (∀ f s v x, MethodReads .sst s f v x → v.storeFault (x.a.toNat % 2 ^ 32) = none →
    exec (.sst f) s = .next { s with cur := .method { v with
      regs := releasedRegs f (sigOf (.sst f) f) v, writes := (x.a.toNat % 2 ^ 32, x.b.extractLsb' 0 32) :: v.writes
      pc := nextPc f v.pc } })
  ∧ (∀ f s v x, MethodReads .mret s f v x →
    exec (.mret f) s = .next { s with cur := .method { v with
      regs := releasedRegs f (sigOf (.mret f) f) v, ended := some (0, x.a.extractLsb' 0 32) } })
  ∧ (∀ f s v x, MethodReads .mtrap s f v x →
    exec (.mtrap f) s = .next { s with cur := .method { v with
      regs := releasedRegs f (sigOf (.mtrap f) f) v, ended := some (1, x.a.extractLsb' 0 32) } })
  ∧ (∀ f s v x, MethodReads .exit s f v x →
    exec (.exit f) s = .next { s with cur := .method { v with regs := releasedRegs f (sigOf (.exit f) f) v, ended := some (0, 0) } })
  ∧ (∀ f s v x, MethodReads .nop s f v x → exec (.nop f) s = .next { s with cur := .method { v with
      regs := releasedRegs f (sigOf (.nop f) f) v, pc := nextPc f v.pc } })
  ∧ ∀ mk ∈ ([.bra, .braUniform] : List (Form → Instr)), ∀ f s v x, MethodReads mk s f v x →
    exec (mk f) s = .next { s with cur := .method { v with
      regs := releasedRegs f (sigOf (mk f) f) v, pc := nextPc f v.pc + 4 * x.a.extractLsb' 0 32 } }

/-- In a method, an instruction whose guard is false only goes on, with its latches and LU (R138, R148); one that reads an empty
latch, and an offset that SLD or SST may not name, end the invocation with their cause (R140, R422, R440, R441); in a lane the
five instructions of methods are decode faults (R421). -/
def MethodEdgesComplete : Prop :=
  (∀ mk ∈ methodOps.map Prod.fst ++ methodOnlyOps, ∀ f s v, s.cur = .method v → decodeFault (mk f) f methodLimits = none →
    v.guard f = false → ∃ u : Invocation, exec (mk f) s = .next { s with cur := .method u } ∧ u.pc = nextPc f v.pc
      ∧ u.regs = releasedRegs f (sigOf (mk f) f) v ∧ ∃ pc regs latches, u = { v with pc := pc, regs := regs, latches := latches })
  ∧ (∀ mk ∈ methodOps.map Prod.fst ++ methodOnlyOps, ∀ f s v, s.cur = .method v → decodeFault (mk f) f methodLimits = none →
    v.guard f = true → v.args? f (sigOf (mk f) f) = none →
    exec (mk f) s = .next { s with cur := .method { v with ended := some (2, Cause.regLatch.code.setWidth 32) } })
  ∧ (∀ f s v x c, MethodReads .sld s f v x → v.load (x.a.toNat % 2 ^ 32) = .inr c →
    exec (.sld f) s = .next { s with cur := .method { v with
      regs := releasedRegs f (sigOf (.sld f) f) v, ended := some (2, c.code.setWidth 32) } })
  ∧ (∀ f s v x c, MethodReads .sst s f v x → v.storeFault (x.a.toNat % 2 ^ 32) = some c →
    exec (.sst f) s = .next { s with cur := .method { v with
      regs := releasedRegs f (sigOf (.sst f) f) v, ended := some (2, c.code.setWidth 32) } })
  ∧ ∀ mk ∈ methodOnlyOps, ∀ f lim, lim.method = false → decodeFault (mk f) f lim ≠ none

/-! ### Privileged instructions -/

/-- A once-per-issue operand of 32 bits. -/
def onceNat (sl : Form → Slot) (o : Sig → Opnd) (mk : Form → Instr) (s : State) (f : Form) (x : Iss) : Nat :=
  (s.onceValue x f (sl f) (o (sigOf (mk f) f))).toNat % 2 ^ 32

/-- CTXSV and CTXRS (R337), with nothing against them: a command that waits is counted and entered, and the context's save
or restore begins, which reads the save area at slot B's address. -/
def SaveCommandsComplete : Prop :=
  (∀ f s x n v k, CanIssue (.ctxsv f) f true s x → s.actives x f ≠ [] → (s.reads x f (sigOf (.ctxsv f) f)).outside = [] → n = onceNat Form.a Sig.a .ctxsv s f x →
    s.saveCause x n (s.onceValue x f f.b (sigOf (.ctxsv f) f).b).toNat (f.slotImm f.c).toNat true = none →
    (∀ a ∈ s.actives x f, s.quiet a.m.ref false = true) → s.warp? x.wg x.warp = some v → s.ctx? n = some k →
    ∃ (t : State) (c : Command), exec (.ctxsv f) s = .next t ∧ t.cmds = s.cmds ++ [c] ∧ c.ctx = x.ctx ∧ c.creg = (f.slotImm f.c).toNat
      ∧ t.ctx? n = some { k with
          preqAt := if k.preq then k.preqAt else s.clock, preq := true
          saveArea := some (s.onceValue x f f.b (sigOf (.ctxsv f) f).b), saveCmds := k.saveCmds ++ [c.id] }
      ∧ (t.warp? x.wg x.warp).map Warp.uregs
          = some (setNth v.uregs (56 + (f.slotImm f.c).toNat) (v.ureg (56 + (f.slotImm f.c).toNat) + 1))
      ∧ MovedOn x f s t ∧ t.mem = s.mem)
  ∧ ∀ f s x n v k, CanIssue (.ctxrs f) f true s x → s.actives x f ≠ [] → (s.reads x f (sigOf (.ctxrs f) f)).outside = [] → n = onceNat Form.a Sig.a .ctxrs s f x →
    s.saveCause x n (s.onceValue x f f.b (sigOf (.ctxrs f) f).b).toNat (f.slotImm f.c).toNat false = none →
    (∀ a ∈ s.actives x f, s.quiet a.m.ref false = true) → s.warp? x.wg x.warp = some v → s.ctx? n = some k →
    ∃ (t u : State) (c : Command), exec (.ctxrs f) s = .next t
      ∧ u.cmds = s.cmds ++ [c] ∧ c.ctx = x.ctx ∧ c.creg = (f.slotImm f.c).toNat ∧ u.ctx? n = some k
      ∧ (∃ wgs ctl cmds seq, u = { s with wgs := wgs, ctl := ctl, cmds := cmds, seq := seq })
      ∧ MovesOnly x f (u.startRestore n (some c.id) (some (s.onceValue x f f.b (sigOf (.ctxrs f) f).b).toNat)) t
      ∧ t.mem = s.mem
      ∧ (t.ctx? n).map (fun q => (q.resident, q.preq, q.saveCmds)) = some (true, false, k.saveCmds ++ [c.id])

/-- The range of a TLBI: its context's 64 KiB regions, its whole context, or every context (R338). -/
def tlbiTarget (s : State) (f : Form) (x : Iss) : Option (Option Nat × Nat × Nat) :=
  let ctx := onceNat Form.a Sig.a .tlbi s f x
  let base := (s.onceValue x f f.b (sigOf (.tlbi f) f).b).toNat
  let count := onceNat Form.c Sig.c .tlbi s f x
  match f.m2.toNat with
  | 0 => if count = 0 ∨ s.ctx? ctx = none then none else some (some ctx, base, 65536 * count)
  | 1 => if s.ctx? ctx = none then none else some (some ctx, 0, 2 ^ 52)
  | _ => some (none, 0, 2 ^ 52)

/-- TLBI (R120, R338): a change that covers the range is entered, and the group waits for it; one that covers nothing only
goes on. -/
def InvalidationsComplete : Prop :=
  ∀ f s x, CanIssue (.tlbi f) f true s x → s.actives x f ≠ [] →
    (f.m2 = 0 → (s.onceValue x f f.b (sigOf (.tlbi f) f).b).toNat % 65536 = 0) →
    (tlbiTarget s f x = none → ∃ t, exec (.tlbi f) s = .next t ∧ MovesOnly x f s t)
    ∧ ∀ c b n, tlbiTarget s f x = some (c, b, n) →
      ∃ (t : State) (k : Change), exec (.tlbi f) s = .next t ∧ t.changes = s.changes ++ [k]
        ∧ k.ctx = c ∧ k.base = b ∧ k.size = n ∧ k.apply = false ∧ t.holdOf x.g = some (.change k.id)
        ∧ (∀ m ∈ x.members, t.lane? m.ref = (s.lane? m.ref).map fun l => { l with npc := nextPc f x.pc })
        ∧ ∃ wgs ctl cores seq changes, t = { s with wgs := wgs, ctl := ctl, cores := cores, seq := seq, changes := changes }

/-- What a read of words gives in its lanes, where it gives some. -/
def wordsValue (read : State → Form → Iss → Args → Option (List Word)) (s : State) (f : Form) (x : Iss) (g : Sig) : List LaneRes :=
  (s.actives x f).filterMap fun a => (s.argsOf x f g a).bind fun args =>
    (read s f x args).map fun ws => ⟨a, ws, 0⟩

/-- Such a read completes. -/
def WordsComplete (mk : Form → Instr) (read : State → Form → Iss → Args → Option (List Word)) : Prop :=
  ∀ f s x, CanIssue (mk f) f true s x → IssueOk s x → f.d.cls = .vector →
    (wordsValue read s f x (sigOf (mk f) f)).length = (s.actives x f).length →
    DestOk s x f (sigOf (mk f) f) (s.actives x f).length →
    ∃ t, exec (mk f) s = .next t
      ∧ VectorResult x f (sigOf (mk f) f) (s.actives x f) (wordsValue read s f x (sigOf (mk f) f)) s t

/-- DICTRD: the template that an entry of a dictionary slot decodes to, as four words (R339). -/
def dictrdWords (s : State) (f : Form) (x : Iss) (args : Args) : Option (List Word) :=
  match s.dictEntry x (f.b.cls = .none) (args.a.toNat % 2 ^ 32) (args.b.toNat % 2 ^ 32) with
  | .inl t => some ((List.range 4).map fun i => t.extractLsb' (32 * i) 32)
  | .inr _ => none

/-- LANEX on a core that is no control core: a word of the side buffer of a warp of the workgroup (R340, R380). -/
def lanexWords (s : State) (_ : Form) (x : Iss) (args : Args) : Option (List Word) :=
  let a := args.a.toNat % 2 ^ 32
  if a % 4 = 0 ∧ a ≤ 252 ∧ s.isControl x.wg = false then
    (s.warp? x.wg (args.b.toNat % 2 ^ 32)).map fun v =>
      [(((v.lanes[a / 8]?).map fun l : Lane => l.side.bits).getD 0).extractLsb' (8 * (a % 8)) 32]
  else none

/-- PARKR (R341): the record it names is freed and its lanes released with what they parked for retried or failed; the
predicate says whether there was one. -/
def parkrEffect (s : State) (f : Form) (x : Iss) : State × Bool :=
  let a := onceNat Form.a Sig.a .parkr s f x
  match s.records.find? fun r => r.index = a % 1024 && r.die = a / 1024 % 4 with
  | none => (s, false)
  | some q => (s.releaseRecord q (f.m2 = 1), true)

def PrivilegedReadsComplete : Prop :=
  WordsComplete .dictrd dictrdWords ∧ WordsComplete .lanex lanexWords ∧ VectorCompletes .ostat true ostatValue
  ∧ ∀ f s x, CanIssue (.parkr f) f true s x → s.actives x f ≠ [] → onceNat Form.a Sig.a .parkr s f x < 4096 →
      exec (.parkr f) s = .next ((parkrEffect s f x).1.commitPred x f (sigOf (.parkr f) f)
        ((s.actives x f).map fun a => ⟨a, [if (parkrEffect s f x).2 then 1 else 0], 0⟩) [])

/-! ### Accesses that perform -/

/-- The words a performed access gives its lane (R230, R242, R251, R252, R265). -/
def accessWords (m : Mem) (a : Access) : List Word :=
  match a.kind with
  | .load signed => loadWords a.size signed (Memory.le m a.phys a.size)
  | .texel fmt linear fx fy addrs => texWords fmt linear fx fy (addrs.map fun p => if p = 0 then 0 else Memory.le m (p - 1) a.size)
  | .atom _ _ _ | .cas _ _ => valWords (if a.size = 8 then 2 else 1) (dwordOf (Memory.le m a.phys a.size))
  | .sync _ => [wordOf (Memory.le m (a.phys + 8) 4)]
  | .store _ | .red _ _ _ => []

/-- The bytes a performed access stores at its address (R234, R242, R265). -/
def accessBytes (m : Mem) (a : Access) : List Byte :=
  match a.kind with
  | .atom ty op v => leBytes a.size (atomOp ty op (dwordOf (Memory.le m a.phys a.size)) v).toNat
  | .cas cmp new => leBytes a.size (if dwordOf (Memory.le m a.phys a.size) = cmp then new.toNat else Memory.le m a.phys a.size)
  | .store v => v
  | .sync v => swarmBytes v (Memory.le m (a.phys + 8) 4)
  | .load _ | .texel _ _ _ _ _ | .red _ _ _ => []

/-- The map in which an access has its destination: that of the home warp, or of the reformed group it was issued from. -/
def accessRows (s : State) (a : Access) : List Row :=
  match a.reformed with
  | some (core, slot) => (((s.core core).groups.find? fun q => q.slot = slot).map Reformed.rows).getD []
  | none => ((s.warp? a.lane.wg a.lane.warp).map Warp.rows).getD []

/-- Memory after bytes are stored at an address: those bytes there, every other byte as before. -/
def StoredAt (p : Nat) (bs : List Byte) (m m' : Mem) : Prop :=
  ∀ a, Memory.read m' a = if p ≤ a ∧ a < p + bs.length then bs.getD (a - p) 0 else Memory.read m a

/-- The words of an access stand in its rows at its lane position, and the rows no longer await it; every other value of
the map is as before (R145, R147). -/
structure ResultLanded (a : Access) (words : List Word) (rows rows' : List Row) : Prop where
  mapped  : ∀ reg, (findRow rows' reg).map Row.id = (findRow rows reg).map Row.id
  landed  : ∀ reg r k, findRow rows reg = some r → a.rows[k]? = some r.id → k < words.length →
    rowRead rows' reg a.dst.pos = words.getD k 0 ∧ (∃ r', findRow rows' reg = some r' ∧ r'.await = r.await.filter (· != a.seq))
  kept    : ∀ reg r pos, findRow rows reg = some r → pos ≠ a.dst.pos ∨ r.id ∉ a.rows → rowRead rows' reg pos = rowRead rows reg pos

/-- An access that may perform does: LOAD_DATA_LAND for those that read, WRITE_PERFORM for the others (R128, R145, R242,
R265, R288). -/
def AccessPerforms (ev : Nat → Instr) (reads : Bool) : Prop :=
  ∀ s n a, s.Inv → s.pend.find? (fun b => b.seq = n) = some a → a.kind.reads = reads → s.mayPerform a = true →
    RowsOk (accessRows s a) → a.rows.Nodup → a.dst.pos < 32 →
    ∃ t : State, exec (ev n) s = .next (t.endIfGone a.lane.wg)
      ∧ t.pend = s.pend.filter (fun b => b.seq != n)
      ∧ StoredAt a.phys (accessBytes s.mem a) s.mem t.mem
      ∧ ResultLanded a (accessWords s.mem a) (accessRows s a) (accessRows t a)
      ∧ (t.pipes = if reads then s.pipes.map fun p => { p with latches := fillLatches n (accessWords s.mem a) p.latches } else s.pipes)
      ∧ (t.queue = match a.kind with
          | .red ty op v => s.queue ++ [{ lane := a.lane, line := a.phys / 64, phys := a.phys, ty := ty, op := op, v := v }]
          | _ => s.queue)
      ∧ (∀ r, r ≠ a.lane → t.lane? r = s.lane? r)
      ∧ (t.lane? a.lane = (s.lane? a.lane).map fun l => { l with carry := ((t.lane? a.lane).bind Lane.carry) })
      ∧ ∃ wgs ctl cores pipes pend mem poison queue, t = { s with
          wgs := wgs, ctl := ctl, cores := cores, pipes := pipes, pend := pend, mem := mem, poison := poison, queue := queue }

/-- A single reduction queued for a line that is not poisoned reaches memory (R128, R243); one of a poisoned line is
discarded (R242). -/
def QueueApplies : Prop :=
  ∀ s line q, s.Inv → s.queue.filter (fun q => q.line = line) = [q] →
    ∃ t : State, exec (.writeQueueApply line) s = .next (t.endIfGone q.lane.wg) ∧ t.queue = s.queue.filter (fun q => q.line != line)
      ∧ (if s.poisoned q.phys = true then t = { s with queue := t.queue }
        else StoredAt q.phys (leBytes (elemBits q.ty / 8)
            (atomOp q.ty q.op (dwordOf (Memory.le s.mem q.phys (elemBits q.ty / 8))) q.v).toNat) s.mem t.mem
          ∧ ∃ mem poison, t = { s with queue := t.queue, mem := mem, poison := poison })

/-! ### Translations -/

/-- TRANSLATION_COMPLETE (R119): a walk that finds a mapping ends with it in both caches; one that finds none only ends. -/
def WalkCompletes : Prop :=
  ∀ s core ctx va, (⟨core, ctx, va⟩ : Walk) ∈ s.walks →
    ∃ t : State, exec (.translationComplete core ctx va) s = .next t
      ∧ t.walks = s.walks.filter (· != ⟨core, ctx, va⟩)
      ∧ (match (s.ctx? ctx).bind fun c => pageOf c.pages va with
        | none => t = { s with walks := t.walks }
        | some p => (clusterOf core, ctx, p) ∈ t.l2 ∧ (ctx, p) ∈ (t.core core).l1
            ∧ (∀ c, c ≠ core → t.core c = s.core c) ∧ ∃ cores l2, t = { s with walks := t.walks, cores := cores, l2 := l2 })

/-- PAGE_ZEROING_COMPLETE (R124): the bytes of a page with Z set read 0 and its lines are not poisoned, every other byte is
as before, and Z is clear. -/
def ZeroingCompletes : Prop :=
  ∀ s ctx va c p, s.Inv → s.ctx? ctx = some c → c.pages.find? (fun p => p.va = va && p.z) = some p →
    ∃ t : State, exec (.pageZeroingComplete ctx va) s = .next t
      ∧ (∀ a, Memory.read t.mem a = if p.phys ≤ a ∧ a < p.phys + p.size then 0 else Memory.read s.mem a)
      ∧ (∀ l, l ∈ t.poison ↔ l ∈ s.poison ∧ ¬(p.phys ≤ 64 * l ∧ 64 * l < p.phys + p.size))
      ∧ (t.ctx? ctx).map Context.pages = some (c.pages.map fun q => if q.va = va ∧ q.z = true then { q with z := false } else q)
      ∧ ∃ mem poison contexts l2 cores, t = { s with mem := mem, poison := poison, contexts := contexts, l2 := l2, cores := cores }

/-- MAPPING_CHANGE_COMPLETE (R120, R124): the change is over, no cache holds a translation it covers, and the context has the
new mapping, in which a page of HBM that did not stand so is to be zeroed; then the groups that wait for it go on. That a page
which the change overlaps in part goes whole is the model's choice (log 8). -/
def ChangeCompletes : Prop :=
  ∀ s n c, s.changes.find? (fun c => c.id = n) = some c → s.changeReady c = true →
    ∃ t : State, exec (.mappingChangeComplete n) s = .next t.wakeAllChanges
      ∧ t.changes = s.changes.filter (fun d => d.id != n)
      ∧ (∀ e ∈ t.l2, e ∈ s.l2 ∧ c.covers e.2.1 e.2.2 = false)
      ∧ (∀ k ∈ t.cores, ∀ e ∈ k.l1, c.covers e.1 e.2 = false)
      ∧ (∀ id k, s.ctx? id = some k → (t.ctx? id).map Context.pages = some (
          if c.apply = true ∧ c.ctx = some id ∧ k.killed = false then
            (k.pages.filter fun p => !c.covers id p) ++ c.pages.map (Page.placed k.pages)
          else k.pages))
      ∧ ∃ changes l2 cores contexts, t = { s with changes := changes, l2 := l2, cores := cores, contexts := contexts }

/-! ### Waits that end -/

/-- A once-per-issue wait of group `q` of a home warp ends: its lanes stand at `npc`, which is the resume point of a HALTED one
(R306, R379, R384); nothing else of the warp changes but its groups. -/
structure HoldEnds (wg w : Nat) (q : Group) (npc : Word) (v v' : Warp) (s t : State) : Prop where
  before : s.warp? wg w = some v
  after  : t.warp? wg w = some v'
  lanes  : ∀ p l, p ∈ q.lanes → v.lanes[p]? = some l →
    v'.lanes[p]? = some (l.moveTo npc)
  others : ∀ p, p ∉ q.lanes → v'.lanes[p]? = v.lanes[p]?
  free   : ∀ k ∈ v'.ring, k.gid = q.gid → k.hold = none
  warp   : v' = { v with lanes := v'.lanes, ring := v'.ring, current := v'.current, uregs := v'.uregs }
  rest   : ∃ wgs ctl, t = { s with wgs := wgs, ctl := ctl }
  away   : ∀ a b, ¬(a = wg ∧ b = w) → t.warp? a b = s.warp? a b

/-- What a re-read of a lane in WAITW gives it: the value read, once its test holds, and where it goes (R245). -/
def rereadNow (s : State) (g : Workgroup) (q : LaneRef) : Option (List Word × Dest) :=
  match (s.lane? q).map Lane.st with
  | some (.waiting (.waitw ea n signed cmp val _ dst)) =>
    match s.poisonChk true (s.check g.core g.ctx .r ea n) with
    | .ok p =>
      let v := dwordOf (Memory.le s.mem p n)
      if waitwTest signed n cmp v val then some (valWords (n / 4) v, dst) else none
    | _ => none
  | _ => none

/-- A lane of a home warp that waits for nothing, or one in WAITW that is not HALTED, whose read passes its check, and whose
destination is mapped and awaits nothing. -/
structure Rereads (s : State) (g : Workgroup) (v : Warp) (q : LaneRef) : Prop where
  waits : ∃ l, s.lane? q = some l ∧ l.reformed = none ∧ ((∀ w, l.st ≠ .waiting w)
    ∨ ∃ ea n signed cmp val since dst p, l.st = .waiting (.waitw ea n signed cmp val since dst) ∧ l.halted = false
      ∧ s.poisonChk true (s.check g.core g.ctx .r ea n) = .ok p)
  place : ∀ ws dst, rereadNow s g q = some (ws, dst) → dst.pos = q.lane ∧ dst.pos < 32 ∧ dst.regs.Nodup
    ∧ (dst.nwb = true ∨ ∀ reg ∈ dst.regs, ∃ row, findRow v.rows reg = some row ∧ row.await = [])

/-- WAITW_REREAD (R245, R491): the lanes of a group whose tests hold now take their values and go on together; one whose test
does not hold waits on. -/
def RereadCompletes : Prop :=
  ∀ s r g v, s.wg? r.wg = some g → s.warp? r.wg r.warp = some v → g.resident = true → v.saves = [] → RowsOk v.rows →
    (s.groupMates r).Nodup → (∀ q ∈ s.groupMates r, Rereads s g v q) →
    ((∀ q ∈ s.groupMates r, rereadNow s g q = none) → exec (.waitwReread r) s = .next s)
    ∧ ∃ t : State, exec (.waitwReread r) s = .next t
        ∧ (∀ q ∈ s.groupMates r, t.lane? q = (s.lane? q).map fun l =>
            if (rereadNow s g q).isSome then { l with pc := l.npc, st := .issuing } else l)
        ∧ (∀ q ∈ s.groupMates r, ∀ ws dst, rereadNow s g q = some (ws, dst) → dst.nwb = false →
            ∀ k reg : Nat, dst.regs[k]? = some reg → k < ws.length → rowRead (homeRows t q) reg dst.pos = ws.getD k 0)
        ∧ (∀ q, q ∉ s.groupMates r → t.lane? q = s.lane? q) ∧ ∃ wgs ctl seq, t = { s with wgs := wgs, ctl := ctl, seq := seq }

/-- SYNC_EXTWAIT (R246): a WAITW longer than EXTWAIT, where that is not 0, ends in a fault. -/
def ExtwaitRaises : Prop :=
  ∀ s r l g c ea n signed cmp val since dst, s.lane? r = some l → l.st = .waiting (.waitw ea n signed cmp val since dst) →
    s.wg? r.wg = some g → s.ctx? g.ctx = some c → g.resident = true → l.halted = false → c.extwait ≠ 0 →
    exec (.syncExtwait r) s = .next (if c.extwait < s.clock - since then
      ((s.giveBack r dst.kept).updLane r fun l => { l with st := .issuing }).raise [⟨r, .syncExtwait, 0⟩] else s)

/-- SLEEP_EXPIRY (R330): once CLOCK has reached the end of a SLEEP, its group goes on; before, it sleeps on. -/
def SleepExpires : Prop :=
  ∀ s wg w gid g v q u n, w < 32 → s.wg? wg = some g → s.warp? wg w = some v → v.ring.find? (fun q => q.gid = gid) = some q →
    q.hold = some (.sleep n) → g.resident = true → (∀ p ∈ q.lanes, ∃ l, v.lanes[p]? = some l ∧ l.halted = false) →
    (q.lanes.head?.bind fun p => v.lanes[p]?).map Lane.npc = some u → q.lanes.Nodup →
    (s.clock < n → exec (.sleepExpiry wg w gid) s = .next s)
    ∧ (n ≤ s.clock → ∃ t v', exec (.sleepExpiry wg w gid) s = .next t ∧ HoldEnds wg w q u v v' s t ∧ v'.uregs = v.uregs)

/-- COMPLETION_REGISTER_WRITE (R274): a write that waited is made once COUNT of what it writes is 0, and the group goes on. -/
def RegisterWriteCompletes : Prop :=
  ∀ s wg w gid g v q n x npc, s.wg? wg = some g → s.warp? wg w = some v → v.ring.find? (fun q => q.gid = gid) = some q →
    q.hold = some (.creg [(n, x)] npc) → s.windowRuns g = true → n < v.uregs.length → q.lanes.Nodup →
    (cregCount (v.ureg n) ≠ 0 → exec (.completionRegisterWrite wg w gid) s = .next s)
    ∧ (cregCount (v.ureg n) = 0 → ∃ t v', exec (.completionRegisterWrite wg w gid) s = .next t ∧ HoldEnds wg w q npc v v' s t
      ∧ v'.uregs = setNth v.uregs n x)

/-! ### The engine window -/

/-- HATCH_ARG_STORE (R269, R271): the entry at the head of a window's queue writes argument register `m` of its lane; a GO
of no class and opcode is refused with ENG_CMD. The stores that are complete then end. -/
def ArgumentStores : Prop :=
  ∀ s wg w g v e, s.hatchHead wg w = some (g, v, e) →
    (e.m < 4 → ∃ t : State, exec (.hatchArgStore wg w) s = .next (t.finishWindows wg w)
      ∧ t.warp? wg w = some { v with
          hatchq := v.hatchq.drop 1, args := setNth v.args e.lane (setNth (v.args.getD e.lane []) e.m e.val) }
      ∧ (∀ a b, ¬(a = wg ∧ b = w) → t.warp? a b = s.warp? a b) ∧ ∃ wgs ctl, t = { s with wgs := wgs, ctl := ctl })
    ∧ (4 ≤ e.m → engineOp e.val = none → ∃ t : State, exec (.hatchArgStore wg w) s = .next (t.finishWindows wg w)
      ∧ t.warp? wg w = some { v with
          hatchq := v.hatchq.drop 1
          ring := mapIf (fun q => q.gid = e.gid) (fun q => { q with hold := q.hold.map (Hold.addFault e.lane .engCmd (goDetail e.val)) })
            v.ring }
      ∧ (∀ a b, ¬(a = wg ∧ b = w) → t.warp? a b = s.warp? a b) ∧ ∃ wgs ctl, t = { s with wgs := wgs, ctl := ctl })

/-- A GO of an operation at the head of a window's queue (R269, R271): one that passes the checks enters the stage, an
NM_RUN with the operands fixed (R464); one that is refused gives its lane the fault. For a DRAW no access of the lane is in flight or queued: its header is read as a load of
that lane (R406). -/
def Stages (ev : Nat → Nat → Instr) (op : EngineOp) : Prop :=
  ∀ s wg w g v e, s.hatchHead wg w = some (g, v, e) → e.m = 4 → engineOp e.val = some op →
    (op = .draw → (∀ a ∈ s.pend, s.together ⟨wg, w, e.lane⟩ a.lane = false) ∧ ∀ q ∈ s.queue, s.together ⟨wg, w, e.lane⟩ q.lane = false) →
    (∀ p, s.goCheck g w (v.staged e) = .ok p →
      ∃ t : State, exec (ev wg w) s = .next t
        ∧ t.warp? wg w = some { v with hatchq := v.hatchq.drop 1, stage := some (s.fixed g (v.staged e)) }
        ∧ (∀ a b, ¬(a = wg ∧ b = w) → t.warp? a b = s.warp? a b) ∧ ∃ wgs ctl, t = { s with wgs := wgs, ctl := ctl })
    ∧ ∀ c d, s.goCheck g w (v.staged e) = .refuse c d →
      ∃ t : State, exec (ev wg w) s = .next (t.finishWindows wg w)
        ∧ t.warp? wg w = some { v with
            hatchq := v.hatchq.drop 1
            ring := mapIf (fun q => q.gid = e.gid) (fun q => { q with hold := q.hold.map (Hold.addFault e.lane c d) }) v.ring }
        ∧ (∀ a b, ¬(a = wg ∧ b = w) → t.warp? a b = s.warp? a b) ∧ ∃ wgs ctl, t = { s with wgs := wgs, ctl := ctl }

/-- A remote operand of a command lies in its peer's window (R24). -/
def goReaches (s : State) (g : Workgroup) (q : Staged) (total : Nat) : Prop :=
  match engineOp q.go with
  | some .linear | some .strided | some .fill => s.copyReaches g q = true
  | some .readout => isRemote q.a2.toNat total = true → q.a3.getLsbD 0 = false → s.remoteOk g.ctx false q.a2.toNat 1 0 total = true
  | _ => True

/-! ### The engines -/

/-- No read of a line is in flight. -/
def noReaders (s : State) (line : Nat) : Prop :=
  ∀ a ∈ s.pend, a.kind.reads = true → ∀ r ∈ a.ranges, ¬(r.1 < 64 * line + 64 ∧ 64 * line < r.1 + r.2)

/-- The bytes of a copy's portion, each with whether its line is poisoned (R275, R278). -/
def portionBytes (s : State) (c : Command) (op : Nat) (src : DWord) (ss : Nat) (ssp : Bool) (row at0 n : Nat) : List (Byte × Bool) :=
  (List.range n).map fun i => s.copyByte c op src ss ssp row (at0 + i)

/-- COPY_PORTION_LAND of a copy between places that are not remote (R275 to R278): the portion's bytes stand at the
destination, the command has them, and its register falls by their number or the command ends. A line that takes a poisoned
byte is poisoned; no read of it is in flight then. -/
def CopyLands : Prop :=
  ∀ s id n c op dst src len rows ds ss dsp ssp landed bad q phys bs, s.Inv → s.cmd? id = some c →
    c.work = .copy op dst src len rows ds ss dsp ssp landed bad → s.engineRuns c = true → n ∉ landed → s.inFlight id n = false →
    portionAt dst.toNat len rows ds n = some q →
    bs = portionBytes s c op src ss ssp q.row (q.lo - (dst.toNat + q.row * ds)) (q.hi - q.lo) →
    (dsp = true ∨ isRemote q.lo (q.hi - q.lo) = false) →
    (op = 2 ∨ ssp = true ∨ isRemote (src.toNat + q.row * ss + (q.lo - (dst.toNat + q.row * ds))) (q.hi - q.lo) = false) →
    s.operandPhys c.ctx c.lane.wg dsp q.lo = some phys → (bs.any Prod.snd = true → noReaders s (phys / 64)) →
    ∃ t : State, exec (.copyPortionLand id n) s = .next (t.landBytes id (q.hi - q.lo))
      ∧ StoredAt phys (bs.map Prod.fst) s.mem t.mem
      ∧ ((bs.any fun b => b.2) = true → t.poisoned phys = true)
      ∧ t.cmd? id = some { c with
          ue := c.ue || bs.any Prod.snd
          work := .copy op dst src len rows ds ss dsp ssp (landed ++ [n]) (if bs.any Prod.snd then bad ++ [n] else bad) }
      ∧ ∃ mem poison cmds, t = { s with mem := mem, poison := poison, cmds := cmds }

/-- COPY_PORTION_LAND of a portion whose destination is remote (R24, R33, R34): a WRITE frame with its bytes leaves through the
port of the peer entry, numbered next in its flow, and is kept until it is acknowledged. -/
def CopySends : Prop :=
  ∀ s id n c op dst src len rows ds ss ssp landed bad q peer off bs, s.cmd? id = some c →
    c.work = .copy op dst src len rows ds ss false ssp landed bad → s.engineRuns c = true → n ∉ landed → s.inFlight id n = false →
    portionAt dst.toNat len rows ds n = some q →
    bs = portionBytes s c op src ss ssp q.row (q.lo - (dst.toNat + q.row * ds)) (q.hi - q.lo) →
    isRemote q.lo (q.hi - q.lo) = true → s.peerOf c.ctx q.lo (q.hi - q.lo) = some (peer, off) →
    ∃ (t : State) (f : EthFrame), exec (.copyPortionLand id n) s = .next t ∧ t.ethOut = s.ethOut ++ [f]
      ∧ f.port = peer.port ∧ f.node = peer.node ∧ (headerOf f).op = 1 ∧ (headerOf f).seq = (s.txFlow c.engine peer.node false).nextSeq % 2 ^ 32
      ∧ (headerOf f).len = q.hi - q.lo ∧ (headerOf f).offset = off ∧ (headerOf f).window = peer.window.toNat
      ∧ payloadOf f = bs.map Prod.fst
      ∧ t.inFlight id n = true ∧ ∃ cmds ethOut txFlows, t = { s with cmds := cmds, ethOut := ethOut, txFlows := txFlows }

/-- COPY_PORTION_LAND of a READOUT (R430, R431): with no application left before it at its pixels, the samples stand at the
destination. -/
def ReadoutLands : Prop :=
  ∀ s id n c h x0 y0 x1 y1 dst dsp landed t q phys bs, s.Inv → s.cmd? id = some c →
    c.work = .readout h x0 y0 x1 y1 dst dsp landed → s.engineRuns c = true → n ∉ landed → s.inFlight id n = false →
    s.target? c.ctx h = some t → portionAt dst.toNat c.total 1 0 n = some q →
    (∀ i, i < (q.hi - q.lo) / 16 → ∀ p, p = readoutPlace t x0 y0 x1 ((q.lo - dst.toNat) / 16 + i) →
      s.pixelPending t (t.before id) p.1 p.2.1 = false) →
    bs = (List.range (q.hi - q.lo)).map (fun i => readoutByte t x0 y0 x1 (q.lo - dst.toNat + i)) →
    (dsp = true ∨ isRemote q.lo (q.hi - q.lo) = false) → s.operandPhys c.ctx c.lane.wg dsp q.lo = some phys →
    ∃ t : State, exec (.copyPortionLand id n) s = .next ((t.landBytes id (q.hi - q.lo)).leaveOrder c)
      ∧ StoredAt phys (bs.map Prod.fst) s.mem t.mem
      ∧ t.cmd? id = some { c with ue := c.ue || bs.any Prod.snd, work := .readout h x0 y0 x1 y1 dst dsp (landed ++ [n]) }
      ∧ ∃ mem poison cmds, t = { s with mem := mem, poison := poison, cmds := cmds }

/-- The words of a LOAD (R463). -/
def programWords (s : State) (c : Command) (va : DWord) (len : Nat) : List Word :=
  (List.range len).map fun i => wordOf (Memory.le s.mem ((s.operandPhys c.ctx c.lane.wg false (va.toNat + 4 * i)).getD 0) 4)

/-- NM_LOAD_PART (R463): a valid program for which there is room stands in the sequencer's slot; another empties it and sets
ERR. -/
def LoadPartLands : Prop :=
  ∀ s id stack bad c prog len va left k ok, s.cmd? id = some c → c.work = .nmLoad prog len va left → s.engineRuns c = true →
    stack ∈ left → (∀ d ∈ s.cmdsBefore id, d.work.runsOn stack = false) → s.ctx? c.ctx = some k →
    ok = (!bad && !((List.range len).any fun i => s.poisoned ((s.operandPhys c.ctx c.lane.wg false (va.toNat + 4 * i)).getD 0))
      && decide (s.storeUse c.ctx stack prog + len ≤ Config.controlStore) && programOk (programWords s c va len)) →
    ∃ t : State, exec (.nmLoadPart id stack bad) s = .next (t.landBytes id 1)
      ∧ (t.ctx? c.ctx).bind (fun k => k.program stack prog) = (if ok = true then some (programWords s c va len) else none)
      ∧ t.cmd? id = some { c with err := c.err || !ok, work := .nmLoad prog len va (left.filter (· != stack)) }
      ∧ ∃ contexts cmds, t = { s with contexts := contexts, cmds := cmds }

/-- NM_WAVE of one chunk index of a part that has others left (R464 to R473): the program's body is carried out at its
chunks, and 64 bytes have landed. -/
def WaveLands : Prop :=
  ∀ (s : State) (r : RunState) id stack i failing c left body q, s.cmd? id = some c → c.work = r.work → s.engineRuns c = true →
    (r.parts.find? fun p => p.1 = stack) = some (stack, true, left) → (r.parts.map Prod.fst).Nodup → i ∈ left →
    (∃ j ∈ left, j ≠ i) → (∀ d ∈ s.cmdsBefore id, d.work.loadsOn stack = false) → s.chunkFree c stack r.ops i = true →
    ((s.ctx? c.ctx).bind fun k => k.program stack r.prog).bind programBody = some body →
    q = s.runBody { phys := fun j => (s.operandPhys c.ctx c.lane.wg false (r.ops.getD j 0 + 64 * i)).getD 0, params := r.params
                    failing := fun j => failing.contains (i, j) } body →
    (∀ j ∈ q.2, noReaders s ((s.operandPhys c.ctx c.lane.wg false (r.ops.getD j 0 + 64 * i)).getD 0 / 64)) →
    ∃ (t : State) (u : RunState), exec (.nmWave id stack [i] failing) s = .next (t.landPart id 64)
      ∧ t.mem = q.1.mem ∧ t.poison = q.1.poison
      ∧ (∃ d, t.cmd? id = some d ∧ d = { c with work := u.work, ue := c.ue || decide (0 < u.bad) })
      ∧ u.done = r.done + 1 ∧ u.bad = (if q.2 = [] then r.bad else r.bad + 1)
      ∧ (u.parts.find? fun p => p.1 = stack) = some (stack, true, left.filter (· != i))
      ∧ ∃ mem poison cmds, t = { s with mem := mem, poison := poison, cmds := cmds }

/-- ORDER_TOKEN_ISSUE (R415, R416): the next token of its tile, with slots free for it, goes: its fragments are entered and
its quads wait for admission. -/
def TokenIssues : Prop :=
  ∀ s id tri tx ty c h psn tokens launch t k l, s.cmd? id = some c → c.work = .draw h psn tokens launch →
    s.target? c.ctx h = some t → tokens.find? (fun k => k.tri = tri && k.tx = tx && k.ty = ty) = some k →
    s.engineRuns c = true → s.tokenNext t c k = true → s.slotsFree t k = true → s.launch? launch = some l → l.refused = false →
    ∃ u : State, exec (.orderTokenIssue id tri tx ty) s = .next (u.settle.wakeSettled c.ctx)
      ∧ u.target? c.ctx h = some (t.addToken c (psn + wordOf tri) k s.seq false)
      ∧ u.cmd? id = some { c with work := .draw h psn (tokens.filter (· != k)) launch }
      ∧ u.launch? launch = some { l with pixels := l.pixels ++ packQuads tri tx ty (t.quads id h (psn + wordOf tri) k) }
      ∧ ∃ contexts cmds launches seq, u = { s with contexts := contexts, cmds := cmds, launches := launches, seq := seq }

/-- FRAGMENT_APPLY (R417, R423): a posted fragment that is ready is applied by its method at its pixel, once. -/
def FragmentApplies : Prop :=
  ∀ s ctx n id k t f m cov vals q, s.ctx? ctx = some k → k.targets.find? (fun t => t.index = n && !t.dead) = some t →
    t.frags.find? (fun f => f.id = id) = some f → f.st = .posted m cov vals →
    s.fragmentReady t f ((t.methods[m]?).any fun m => m.flag) = true → q = t.apply m f.x f.y (fragmentArgs f cov vals) →
    ∃ u : State, exec (.fragmentApply ctx n id) s = .next (u.settle.wakeSettled ctx)
      ∧ ((u.ctx? ctx).bind fun k => k.targets.find? fun t => t.index = n)
          = (k.targets.find? fun t => t.index = n).map (fun _ => { q.1 with
              frags := mapIf (fun g => g.id = id) (fun g => { g with st := .done }) t.frags })
      ∧ (∀ c, s.cmd? f.cmd = some c → u.cmd? f.cmd = some { c with err := c.err || q.2 })
      ∧ ∃ contexts cmds, u = { s with contexts := contexts, cmds := cmds }

/-- INVOKE_APPLY (R429, R431) at a pixel that is not the last: the method is applied there, unless the pixel is damaged. -/
def InvokeApplies : Prop :=
  ∀ s id x y c h m x0 y0 x1 y1 args left t q, s.cmd? id = some c → c.work = .invoke h m x0 y0 x1 y1 args left →
    s.target? c.ctx h = some t → s.engineRuns c = true → x < t.w → t.pixIndex x y ∈ left → (∃ j ∈ left, j ≠ t.pixIndex x y) →
    s.pixelHeld t (t.before id) x y = false →
    q = (if t.isDamaged x y = true then (t, false) else t.apply m x y (invokeArgs t args x y)) →
    ∃ u : State, exec (.invokeApply id x y) s = .next (u.wakeSettled c.ctx)
      ∧ u.target? c.ctx h = some q.1
      ∧ u.cmd? id = some { c with
          err := c.err || q.2, work := .invoke h m x0 y0 x1 y1 args (left.filter (· != t.pixIndex x y)) }
      ∧ ∃ contexts cmds, u = { s with contexts := contexts, cmds := cmds }

/-! ### Scheduling -/

/-- WORKGROUP_ADMISSION (R45, R76, R101, R111, R494): the next workgroup of a launch without gangs, where its core has room
for it, or holds it already, the device places it without the host, and its reads pass, stands on the core, its lanes ISSUING at
their entry PC with nothing mapped, its scratchpad 0. -/
def AdmissionCompletes : Prop :=
  ∀ s id core sbase places l args, s.Inv → s.launch? id = some l → l.lost = [] → l.header.flags.getLsbD 1 = false →
    (∀ c, l.origin ≠ .draw c) → l.waiting = true → s.dispatches l.ctx = true → s.hostMode l.ctx 2 = false →
    s.admissionOpen l core sbase places = true → places.length = l.header.warpRoles.length →
    s.admissionReads l.ctx l.header (s.loadSlots core l.ctx l.header != []) = .ok args →
    ∃ (t : State) (g : Workgroup), exec (.workgroupAdmission id core sbase places) s = .next t ∧ t.wgs = s.wgs ++ [g]
      ∧ g.ctx = l.ctx ∧ g.launch = id ∧ g.linear = l.nextWg ∧ g.core = core ∧ g.sbase = sbase ∧ g.vbytes = l.header.vbytes
      ∧ g.resident = true ∧ g.trap = none ∧ g.warps.length = l.header.warpRoles.length
      ∧ (∀ v ∈ g.warps, v.rows = [] ∧ v.privileged = false ∧ v.lanes.length = 32 ∧ ∀ k ∈ v.lanes,
          k.st = .issuing ∧ k.preds = 0 ∧ k.stack = [] ∧ (k.pc, k.wbase) ∈ l.header.used.map fun r => (r.entry, 8 * r.wbase0))
      ∧ (∀ a, Memory.read t.mem a = if vaultPhys core sbase ≤ a ∧ a < vaultPhys core sbase + l.header.vbytes then 0
          else Memory.read s.mem a)
      ∧ (t.launch? id).map (fun k => (k.nextWg, k.live)) = some (l.nextWg + 1, l.live + 1)
      ∧ ∃ wgs cores mem poison launches contexts pipes seq, t = { s with
          wgs := wgs, cores := cores, mem := mem, poison := poison, launches := launches, contexts := contexts, pipes := pipes, seq := seq }

/-- GANG_RESERVATION (R47, R102, R393) of a core for the gang a launch places next, or a saved gang, which needs others still:
the core is reserved with its place, in one cluster with the others. -/
def ReservationCompletes : Prop :=
  ∀ s id gang core sbase places l q, s.launch? id = some l → l.toReserve.find? (fun k => k.number = gang) = some q →
    s.dispatches l.ctx = true → q.reserved.length + 1 < s.gangSize l q → s.gangShort l q = false →
    s.gangSize l q ≤ s.usableCores (clusterOf core) → s.gangLacks l q core = true → s.reservedOn core = false →
    s.agedBars l gang core = false → s.dispatchTurn l core = true → s.gangAdmits l q core sbase places = true →
    ∃ t : State, exec (.gangReservation id gang core sbase places) s = .next t
      ∧ (t.launch? id).bind (fun k => k.gangs.find? fun k => k.number = gang)
          = some { q with reserved := q.reserved ++ [(core, sbase, places)], since := some (q.since.getD s.clock)
                          cluster := some (clusterOf core) }
      ∧ ∃ launches, t = { s with launches := launches }

/-- GANG_AGED (R103): a gang that has held a reservation for the age limit is aged. -/
def GangAges : Prop :=
  ∀ s id n l c, s.launch? id = some l → s.ctx? l.ctx = some c →
    ∃ t : State, exec (.gangAged id n) s = .next t
      ∧ (t.launch? id).map Launch.gangs = some (l.gangs.map fun q =>
          if q.number = n ∧ q.reserved ≠ [] ∧ (∃ a, q.since = some a ∧ a + c.ageLimit ≤ s.clock) then { q with aged := true } else q)
      ∧ ∃ launches, t = { s with launches := launches }

/-- BIN_DRAW (R91, R92, R104, R149): a bin that is due gives its first lanes, at most 32, to a free group slot as an entry of a
pipe whose pane has one free; they are ISSUING there, one group. -/
def DrawCompletes : Prop :=
  ∀ s core bin slot place b n, (s.core core).bins.find? (fun b => b.number = bin) = some b →
    (32 ≤ b.lanes.length ∨ ∃ e ∈ b.lanes, e.2 + 256 ≤ s.clock) → slot < 8 → (∀ g ∈ (s.core core).groups, g.slot ≠ slot) →
    place.pane < 4 → place.pipe < 8 →
    n = ((b.lanes.take 32).map Prod.fst).foldl (fun m r => max m (((s.lane? r).map Lane.carried).getD 0)) 0 →
    paneFits (s.panePipes core s.seq place.pane ++ [place.pipe]) = true → s.groupsOn core s.seq < 8 →
    (s.ctx? b.ctx).any (fun k => k.resident && !k.hungHalt) = true →
    ((b.lanes.take 32).map Prod.fst).Nodup → ((s.core core).bins.map Bin.number).Nodup →
    ∃ (t : State) (g : Reformed), exec (.binDraw core bin slot place) s = .next t
      ∧ (t.core core).groups = (s.core core).groups ++ [g] ∧ g.slot = slot ∧ g.ctx = b.ctx ∧ g.dslot = b.dslot
      ∧ g.wbase0 = b.wbase ∧ g.pane = place.pane ∧ g.pipe = place.pipe ∧ g.carried = n
      ∧ (∀ (p : Nat) (e : LaneRef × Nat), p < 32 → b.lanes[p]? = some e → g.lanes[p]? = some (some e.1))
      ∧ (∀ e ∈ b.lanes.take 32, t.lane? e.1 = (s.lane? e.1).map fun l =>
          { l with st := .issuing, reformed := some slot, carry := none })
      ∧ (∀ r, r ∉ (b.lanes.take 32).map Prod.fst → t.lane? r = s.lane? r)
      ∧ ((t.core core).bins.find? fun k => k.number = bin).map Bin.lanes
          = (if b.lanes.drop 32 = [] then none else some (b.lanes.drop 32))
      ∧ ∃ wgs ctl cores pipes seq, t = { s with wgs := wgs, ctl := ctl, cores := cores, pipes := pipes, seq := seq }

/-- DICT_SLOT_LOAD (R153, R154, R158, R164), where no trace buffer is on: the oldest load into a physical slot completes; a
template that is invalid, or in a line that cannot be read, is replaced and counted. -/
def SlotLoads : Prop :=
  ∀ s core phys bad j d, (s.core core).jobs.find? (fun j => j.phys = phys) = some j → j.first ≠ 0 →
    (s.ctx? j.ctx).bind Context.trace = none → (s.core core).slots.find? (fun d => d.phys = phys) = some d →
    ∃ t : State, exec (.dictSlotLoad core phys bad) s = .next t
      ∧ (t.core core).slots.find? (fun d => d.phys = phys) = some { d with
          image := some (loadEntries s j bad).1, emptied := false, loads := d.loads + 1, lastVa := j.va
          rejected := (loadEntries s j bad).2 }
      ∧ (∀ k ∈ (t.core core).jobs, k.id ≠ j.id)
      ∧ (∀ (i : Nat) (a : Nat), j.lines[i]? = some a → (loadEntries s j bad).1[i]? = some (j.first + i,
          let t : Template := BitVec.ofNat 128 (Memory.le s.mem a 16)
          if (s.poisoned a || bad.contains (a / 64)) = false ∧ templateValid j.priv t = true
            ∧ (templateMop t).toNat ≠ 0x3FF then t else undefinedTemplate))
      ∧ (∀ wg w v, j.warp = some (wg, w) → s.warp? wg w = some v → j.launchWg = none →
          t.warp? wg w = some { v with
            loading := v.loading.filter (fun l => l.2 != j.id), rejected := (loadEntries s j bad).2
            loadFail := v.loadFail || (s.core core).slots.any (fun d => d.phys = phys && d.emptied) })
      ∧ ∃ wgs ctl cores, t = { s with wgs := wgs, ctl := ctl, cores := cores }

/-- DICT_SLOT_UE (R45, R169): the slot stays bound, emptied. -/
def SlotFails : Prop :=
  ∀ s core phys d, (s.core core).slots.find? (fun d => d.phys = phys) = some d →
    ∃ t : State, exec (.dictSlotUe core phys) s = .next t
      ∧ (t.core core).slots.find? (fun d => d.phys = phys) = some { d with image := none, emptied := true }
      ∧ ∃ cores, t = { s with cores := cores }

/-! ### Exceptions and hangs -/

/-- The lane of a trapping warp in its handler (R381, R382): one that is EXITED or PARKED stays so, any other is ISSUING at
the vector with WBASE 392. -/
def inHandler (vector : Word) (l : Lane) : Lane :=
  match l.st with
  | .exited | .parked _ _ _ => l
  | _ => { l with halted := false, st := .issuing, pc := vector, npc := vector, wbase := 392 }

/-- A trap that enters a handler: of a vectored cause, or of a debug cause whose context has a DBGBASE (R376, R383, R480). -/
def entersHandler (c : Context) (t : TrapState) : Prop := t.debug = true → ∃ d, c.debug = some d ∧ d.base ≠ 0

/-- The offset of a cause's handler: 0x100 times its class, or of a debug cause times its number in the class (R381, R480). -/
def vectorOf (t : TrapState) : Word :=
  wordOf (0x100 * if t.debug = true then t.cause.code.toNat % 16 else t.cause.code.toNat / 16)

/-- A workgroup in a trap that has not begun its handler, whose context runs. -/
structure Trapped (s : State) (wg : Nat) (g : Workgroup) (t : TrapState) (v : Warp) (c : Context) : Prop where
  group : s.wg? wg = some g
  trap  : g.trap = some t
  warp  : g.warps[t.warp]? = some v
  ctx   : s.ctx? g.ctx = some c
  fresh : t.entered = false
  runs  : g.resident = true ∧ c.resident = true ∧ c.hungHalt = false

/-- HANDLER_ENTRY (R376, R377, R381 to R383, R480): once the workgroup has stopped, its warps are halted; where the cause has a
handler and the rows of its pipe are free, the trapping warp is in privileged mode, on the trap slot, its lanes at the cause's
vector; a debug cause without DBGBASE leaves it halted. Until then nothing changes. -/
def HandlerEnters : Prop :=
  (∀ s wg g t v c, Trapped s wg g t v c → entersHandler c t → (t.debug = true → t.recorded = true) → s.skidOver g t = true → s.issuedOver g = true →
    s.handlerFree g t.warp v = true →
    ∃ (u : State) (v' : Warp), exec (.handlerEntry wg) s = .next u
      ∧ (u.wg? wg).map Workgroup.trap = some (some { t with entered := true, handler := true })
      ∧ u.warp? wg t.warp = some v' ∧ v'.privileged = true ∧ v'.active = c.trapdict ∧ v'.pending = c.trapdict
      ∧ v'.lanes = v.lanes.map (inHandler (vectorOf t))
      ∧ v'.saved = v.lanes.map (fun l => ⟨l.st, l.wbase, l.pc, l.npc⟩) ∧ v'.rows = v.rows ∧ v'.uregs = v.uregs
      ∧ v'.trapAct = v.active ∧ v'.trapPend = v.pending
      ∧ (∀ w p l, w ≠ t.warp → u.lane? ⟨wg, w, p⟩ = some l →
          l.halted = true ∨ l.st = .exited ∨ ∃ a b e, l.st = .parked a b e)
      ∧ (v.pane, v.pipe, wg, t.warp) ∈ (u.core g.core).handler
      ∧ (c.trace = none → u.mem = s.mem ∧ u.contexts = s.contexts)
      ∧ ∃ wgs ctl cores pipes pend seq mem poison contexts, u = { s with
          wgs := wgs, ctl := ctl, cores := cores, pipes := pipes, pend := pend, seq := seq, mem := mem, poison := poison
          contexts := contexts })
  ∧ (∀ s wg g t v c, Trapped s wg g t v c → ¬entersHandler c t → (t.debug = true → t.recorded = true) → s.skidOver g t = true → s.issuedOver g = true →
    ∃ u : State, exec (.handlerEntry wg) s = .next u
      ∧ (u.wg? wg).map Workgroup.trap = some (some { t with entered := true, handler := false })
      ∧ (∀ w p l, w ≠ t.warp → u.lane? ⟨wg, w, p⟩ = some l →
          l.halted = true ∨ l.st = .exited ∨ ∃ a b e, l.st = .parked a b e)
      ∧ (∀ p, u.lane? ⟨wg, t.warp, p⟩ = s.lane? ⟨wg, t.warp, p⟩)
      ∧ ∃ wgs ctl cores pipes pend, u = { s with wgs := wgs, ctl := ctl, cores := cores, pipes := pipes, pend := pend })
  ∧ ∀ s wg g t v c, Trapped s wg g t v c →
    (t.debug = true ∧ t.recorded = false) ∨ s.skidOver g t = false ∨ s.issuedOver g = false ∨ (entersHandler c t ∧ s.handlerFree g t.warp v = false) →
    exec (.handlerEntry wg) s = .next s

/-- HANG_DETECTED (R387, R388): past HANGLIMIT, the waiting lanes fault with SYNC_HANG, or with MODE[5] the context's groups
stop and the host is told. -/
def HangDetects : Prop :=
  ∀ s ctx c, s.ctx? ctx = some c → c.resident = true → c.hungHalt = false → c.hanglimit ≠ 0 →
    (c.hanglimit < c.hangCount → c.mode.getLsbD 5 = false → ∃ u : State, exec (.hangDetected ctx) s = .next (u.raiseHang ctx)
      ∧ u.ctx? ctx = some { c with hangCount := 0 }
      ∧ ∃ mem poison contexts, u = { s with mem := mem, poison := poison, contexts := contexts })
    ∧ (c.hanglimit < c.hangCount → c.mode.getLsbD 5 = true → ∃ u : State, exec (.hangDetected ctx) s = .next (u.flushEvents ctx)
      ∧ u.ctx? ctx = some { c with
          hangCount := 0, hungHalt := true, eventSeq := (c.eventSeq + 1) % 2 ^ 32
          events := c.events ++ [{
            seq := (c.eventSeq + 1) % 2 ^ 32, function := 5, cause := Cause.syncHang.code, addr := 0, tag := 0, wg := 0xFFFFFFFF
            detail := dwordOf (min (s.hangGraph ctx).1.length 4095), written := false, purpose := 0 }] }
      ∧ ∃ mem poison contexts, u = { s with mem := mem, poison := poison, contexts := contexts })
    ∧ (c.hangCount ≤ c.hanglimit → exec (.hangDetected ctx) s = .next s)

/-! ### Pre-emption -/

/-- PREEMPT_REQUEST (R389): PREQ[0] of a resident context is set. -/
def PreemptRequested : Prop :=
  ∀ s ctx c, s.ctx? ctx = some c → c.resident = true →
    ∃ t : State, exec (.preemptRequest ctx) s = .next t
      ∧ t.ctx? ctx = some { c with preq := true, preqAt := if c.preq then c.preqAt else s.clock }
      ∧ ∃ contexts, t = { s with contexts := contexts }

/-- What the save of a gang leaves (R168, R391, R392): its workgroups are off their cores with the bytes of their scratchpads, the
state of each stands in a save area of its vault, if there was room for one, and the gang is saved. -/
structure GangSaved (l : Launch) (n : Nat) (gs : List Workgroup) (s t : State) : Prop where
  away  : ∀ g ∈ gs, ∃ g', t.wg? g.id = some g' ∧ g'.resident = false
    ∧ ∀ o, o < g.vbytes → Memory.read g'.savedMem o = Memory.read s.mem (vaultPhys g.core g.sbase + o)
  kept  : ∀ a, (∀ g ∈ gs, ∀ g' b k, t.wg? g.id = some g' → g'.saveAt = some (b, k) →
      ¬(vaultPhys g.core b ≤ a ∧ a < vaultPhys g.core b + k)) → Memory.read t.mem a = Memory.read s.mem a
  gang  : ∀ k, t.launch? l.id = some k → ∀ q ∈ k.gangs, q.number = n → q.saved = true ∧ q.reserved = []
  rows  : ∀ g ∈ gs, ∀ h ∈ (t.core g.core).handler, h.2.2.1 ≠ g.id
  rest  : ∃ wgs ctl cores mem poison contexts launches pipes pend records freeCount seq, t = { s with
    wgs := wgs, ctl := ctl, cores := cores, mem := mem, poison := poison, contexts := contexts, launches := launches, pipes := pipes
    pend := pend, records := records, freeCount := freeCount, seq := seq }

/-- A gang of a launch that stands on its cores, with its context to be pre-empted and nothing of it in flight. -/
structure Savable (s : State) (id n : Nat) (l : Launch) (gs : List Workgroup) (c : Context) : Prop where
  inv    : s.Inv
  launch : s.launch? id = some l
  ctx    : s.ctx? l.ctx = some c
  asked  : c.resident = true ∧ c.preq = true
  here   : s.gangHere l n = gs
  stands : gs ≠ []
  apart  : (s.wgs.map Workgroup.id).Nodup ∧ (s.cores.map Core.vault).Nodup
  groups : ∀ g ∈ gs, g.ctx = l.ctx ∧ g.core < 2048 ∧ g.sbase + g.vbytes ≤ Config.vaultBytes
  landed : ∀ g ∈ gs, s.inFlightOf g = false

/-- COOPERATIVE_SAVE and PRE_FORCED (R390): before the deadline, a gang of a launch that can yield is saved once its lanes all
wait; past it, or where the launch cannot yield, any is, and the host is told with FUNCTION 7. -/
def GangSaves : Prop :=
  (∀ s id n l gs c, Savable s id n l gs c → (∀ g ∈ gs, s.busyLanes g = false) → l.header.flags.getLsbD 2 = true →
    s.clock < c.preqAt + l.header.deadlineCycles →
    ∃ t, exec (.cooperativeSave id n) s = .next t ∧ GangSaved l n gs s t)
  ∧ ∀ s id n l g gs c, Savable s id n l (g :: gs) c →
    (l.header.flags.getLsbD 2 = false ∨ c.preqAt + l.header.deadlineCycles ≤ s.clock) →
    ∃ t : State, exec (.preForced id n) s = .next (t.postEvent l.ctx 7 Cause.preForced.code 0 0 (wordOf g.linear) 0)
      ∧ GangSaved l n (g :: gs) s t

/-- CONTEXT_SAVE_COMPLETE (R391, R392, R397): with no workgroup on a core, the context's state is moved to its save area and the
save is complete; in host-assisted mode the host is asked for the area first, and with no area the save waits. -/
def ContextSaves : Prop :=
  ∀ s ctx c, s.ctx? ctx = some c → c.resident = true → c.preq = true →
    (∀ g ∈ s.wgs, g.ctx = ctx → g.resident = false) → s.framesOut ctx = false →
    (∀ a, (c.saveArea = none → c.mode.getLsbD 3 = false) → s.areaOf c = some a →
      ∃ t : State, exec (.contextSaveComplete ctx) s = .next (t.endSaveCmds ctx)
        ∧ t.ctx? ctx = some { c with
            resident := false, saved := true, saveArea := none, areaAt := some (a, blocksSize (s.saveBlocks c)) }
        ∧ t.mem = (s.writeBlocks a (s.saveBlocks c)).mem
        ∧ t.wgs = s.wgs.map (fun g => if g.ctx = ctx ∧ g.resident = false then { g with moved := true, saveAt := none } else g)
        ∧ ∃ wgs launches contexts mem poison freeCount, t = { s with
            wgs := wgs, launches := launches, contexts := contexts, mem := mem, poison := poison, freeCount := freeCount })
    ∧ ((c.saveArea = none → c.mode.getLsbD 3 = false) → s.areaOf c = none → exec (.contextSaveComplete ctx) s = .next s)
    ∧ (c.saveArea = none → c.mode.getLsbD 3 = true → (∀ e ∈ c.events, e.function ≠ 3) →
      exec (.contextSaveComplete ctx) s
        = .next (s.postEvent ctx 3 0 (dwordOf (blocksSize (s.saveBlocks c))) 0 0xFFFFFFFF 0))

/-- RESTORE_COMPLETE (R393): with every gang on its cores again, the restore is over. -/
def ContextRestores : Prop :=
  ∀ s ctx c, s.ctx? ctx = some c → c.resident = true → c.preq = false → (c.saved = true ∨ c.saveCmds ≠ []) →
    (∀ l ∈ s.launches, l.ctx = ctx → ∀ q ∈ l.gangs, q.saved = false) →
    ∃ t : State, exec (.restoreComplete ctx) s = .next (t.endSaveCmds ctx)
      ∧ t.ctx? ctx = some { c with saved := false, areaAt := none, savedSlots := [] } ∧ ∃ contexts, t = { s with contexts := contexts }

/-- CEX_REMAIN_TICK (R488): each 1024 cycles of a running experiment lower REMAIN by 1; at its end RUN is clear and DONE
set, and a trace buffer has a record of it (R486). -/
def ExperimentTicks : Prop :=
  ∀ s ctx c, s.ctx? ctx = some c → 1024 ≤ c.cexPart → c.cexctl.getLsbD 0 = true →
    (1 < c.cexctl.toNat / 2 ^ 16 → ∃ t : State, exec (.cexRemainTick ctx) s = .next t
      ∧ t.ctx? ctx = some { c with cexPart := c.cexPart - 1024, cexctl := c.cexctl - 0x10000 }
      ∧ ∃ contexts, t = { s with contexts := contexts })
    ∧ (c.cexctl.toNat / 2 ^ 16 ≤ 1 → ∃ t : State, exec (.cexRemainTick ctx) s
        = .next (t.traceRecord ctx (contextIdentity ctx) 6 0 0 c.cexprog.toNat (c.cexdelay.toNat / 4096))
      ∧ t.ctx? ctx = some { c with
          cexPart := c.cexPart - 1024, cexctl := (c.cexctl &&& 0xFFFC) ||| 2, causalEnd := c.causalEnd || c.cexctl.getLsbD 2 }
      ∧ ∃ contexts, t = { s with contexts := contexts })

/-! ### Replay and failures -/

/-- REPLAY_APPLY (R438, R441) of an object at a die that has a position to apply, whose entry a copy of the log holds: the
method runs on the die's replica and its writes are committed there; the home die writes the return into both copies. -/
def ReplayApplies : Prop :=
  ∀ s ctx obj die o e q, s.object? ctx (wordOf obj) = some o → o.kind = 2 → o.behind die = true → die < o.replicas.length →
    s.entry? o (nextPos (o.replica die).applied) = some e →
    (∀ c, s.ctx? ctx = some c → ∀ p ∈ c.pushes, p.handle ≠ wordOf obj) →
    q = o.run (s.stateOf o die) e.method e.args e.pos e.die →
    ∃ (u : State) (o' : ReplayObj), exec (.replayApply ctx obj die false) s = .next (u.serveObject ctx (wordOf obj))
      ∧ u.object? ctx (wordOf obj) = some o'
      ∧ o'.replica die = { o.replica die with
          applied := e.pos, rets := (o.replica die).rets ++ [(e.pos, q.2.1, q.2.2)] }
      ∧ (∀ d, d ≠ die → o'.replica d = o.replica d)
      ∧ u.mem = (if die = o.home then
            ((s.commitState (o.replica die).base q.1).putEntry o { e with ret := q.2.1, status := q.2.2 }).mem
          else (s.commitState (o.replica die).base q.1).mem)
      ∧ ∃ contexts mem poison, u = { s with contexts := contexts, mem := mem, poison := poison }

/-- REPLICA_REBUILD (R451): a fenced replica takes the copy of one that is not, at the place `freshPlace` gives: fresh vault bytes
of the die, or where it lay if none are free, the model's choice (log 7). -/
def ReplicaRebuilds : Prop :=
  ∀ s ctx obj die source o p, s.Inv → s.object? ctx (wordOf obj) = some o → die < 4 → source < 4 → o.replicas.length = 4 → o.lost = false →
    (o.replica die).fenced = true → (o.replica die).ignored = true → (o.replica source).fenced = false →
    p = s.freshPlace die o.stateBytes (o.replica die) →
    ∃ (u : State) (o' : ReplayObj), exec (.replicaRebuild ctx obj die source) s = .next (u.serveObject ctx (wordOf obj))
      ∧ u.object? ctx (wordOf obj) = some o'
      ∧ o'.replica die = { o.replica source with vault := p.1, off := p.2, fenced := false, ignored := false }
      ∧ (∀ d, d ≠ die → o'.replica d = o.replica d)
      ∧ StoredAt (vaultPhys p.1 p.2) (Memory.bytes s.mem (o.replica source).base o.stateBytes) s.mem u.mem
      ∧ ∃ contexts mem poison, u = { s with contexts := contexts, mem := mem, poison := poison }

/-- REPLICA_UE (R45, R451) in device mode: the replica is fenced, and with none left the object is lost. -/
def ReplicaFails : Prop :=
  ∀ s ctx obj die o, s.object? ctx (wordOf obj) = some o → die < 4 → o.replicas.length = 4 → (o.replica die).fenced = false →
    s.hostMode ctx 1 = false →
    ∃ (u : State) (o' : ReplayObj), exec (.replicaUe ctx obj die) s = .next (u.serveObject ctx (wordOf obj))
      ∧ u.object? ctx (wordOf obj) = some o' ∧ (o'.replica die).fenced = true ∧ (o'.replica die).ignored = true
      ∧ (∀ d, d ≠ die → o'.replica d = o.replica d) ∧ (o'.lost = true ↔ ∀ d, d < 4 → (o'.replica d).fenced = true)
      ∧ ∃ contexts, u = { s with contexts := contexts }

/-- CORE_UE (R45, R47), with no gang of its cluster waiting for cores: the core is fenced and holds nothing; a workgroup on it
whose launch is idempotent is to be launched again, where device mode recovers from errors. -/
def CoreFails : Prop :=
  (∀ s core, core < Config.numCores → (∀ g ∈ s.wgs, g.core = core → g.resident = false) →
    (∀ l ∈ s.launches, ∀ q ∈ l.gangs, q.cluster ≠ some (clusterOf core)) →
    ∃ u : State, exec (.coreUe core) s = .next u.settle ∧ u.core core = { Core.fresh core with fenced := true }
      ∧ (∀ k, k ≠ core → u.core k = s.core k) ∧ (∀ p ∈ u.pipes, p.core ≠ core)
      ∧ ∃ cores pipes launches, u = { s with cores := cores, pipes := pipes, launches := launches })
  ∧ ∀ s core g c l, core < Config.numCores → (s.wgs.filter fun g => g.core = core && g.resident) = [g] →
    (∀ l ∈ s.launches, ∀ q ∈ l.gangs, q.cluster ≠ some (clusterOf core)) → s.ctx? g.ctx = some c → s.launch? g.launch = some l →
    c.mode.getLsbD 4 = false → l.header.flags.getLsbD 3 = true →
    ∃ u : State, exec (.coreUe core) s = .next u.settle ∧ (u.core core).fenced = true
      ∧ (∀ k, u.wg? g.id = some k → k.resident = false ∨ k.core ≠ core)
      ∧ (u.launch? g.launch).map Launch.lost = some (l.lost ++ [⟨g.linear, g.gang, g.unposted, none⟩])

/-- In every target, the pixels that a test names are damaged, and no other that was not. -/
def Damages (hit : Target → Nat → Nat → Prop) (s u : State) : Prop :=
  (∀ ctx h t, s.target? ctx h = some t → ∃ t', u.target? ctx h = some t'
    ∧ (∀ x y, x < t.w → y < t.h → (t'.isDamaged x y = true ↔ t.isDamaged x y = true ∨ hit t x y))
    ∧ ∃ damaged frags, t' = { t with damaged := damaged, frags := frags })
  ∧ ∃ contexts, u = { s with contexts := contexts }

/-- Whether a vault line holds bytes of a tile of a target. -/
def tiledLine (s : State) (vault line : Nat) : Prop :=
  ∃ c ∈ s.contexts, ∃ t ∈ c.targets, ∃ e ∈ t.vaults, t.inLine vault line e.1 none = true

/-- VAULT_LINE_UE and HBM_CHUNK_UE (R45, R431), of lines no read of which is in flight: the line is poisoned, and the replicas
that have bytes in it are fenced; of a line that holds bytes of tiles, the pixels whose bytes it holds are damaged. -/
def LinesFail : Prop :=
  (∀ s vault line, vault < 2048 → line < 16384 → ¬tiledLine s vault line →
    noReaders s ((Config.vaultBase + vault * Config.vaultBytes) / 64 + line) →
    ∃ t : State, exec (.vaultLineUe vault line) s
        = .next ((s.replicasIn vault line).foldl (fun u r => u.fenceReplicas r.1 r.2.1 [r.2.2]) t)
      ∧ (∀ l, l ∈ t.poison ↔ l ∈ s.poison ∨ l = (Config.vaultBase + vault * Config.vaultBytes) / 64 + line)
      ∧ t.wgs = s.wgs.map (Workgroup.markSaved vault line)
      ∧ ∃ poison wgs, t = { s with poison := poison, wgs := wgs })
  ∧ (∀ s vault line, vault < 2048 → line < 16384 → tiledLine s vault line →
    ∃ u : State, exec (.vaultLineUe vault line) s = .next (u.contexts.foldl (fun s c => s.wakeSettled c.id) u.settle)
      ∧ Damages (fun t x y => t.vaultOf (x / 8) (y / 8) = vault
          ∧ t.inLine vault line (t.tileIndex (x / 8) (y / 8)) (some (8 * (y % 8) + x % 8)) = true) s u)
  ∧ ∀ s stack chunk, stack < Config.numStacks → 64 * chunk + 64 ≤ Config.hbmBytes →
    noReaders s (stack * Config.hbmSpan / 64 + chunk) →
    ∃ t : State, exec (.hbmChunkUe stack chunk) s = .next t
      ∧ (∀ l, l ∈ t.poison ↔ l ∈ s.poison ∨ l = stack * Config.hbmSpan / 64 + chunk) ∧ ∃ poison, t = { s with poison := poison }

/-- BMU_FAULT (R45, R431): every pixel of a target that lies in the bank of the vault is damaged, and no other. -/
def BankFails : Prop :=
  ∀ s vault bank, ∃ u : State,
    exec (.bmuFault vault bank) s = .next (u.contexts.foldl (fun s c => s.wakeSettled c.id) u.settle)
    ∧ Damages (fun t x y => t.vaultOf (x / 8) (y / 8) = vault ∧ pixelBank x y = bank) s u

/-- MACHINE_CHECK (R45, R374) and CLOCK_THROTTLE (R12). -/
def PackageFails : Prop :=
  (∀ s b, exec (.machineCheck b) s
      = .next { s with mcheck := true, fwCause := if b = true then Cause.mcFabric.code else Cause.mcInternal.code })
    ∧ ∀ s a v n, exec (.clockThrottle a v n) s = .next { s with aclkStep := a, vclkStep := v, nmBanks := n }

/-- EVENT_RETIRE and HOST_EVENT_ANSWER (R43, R386, R388, R397): a notice is retired; an answer has its effect on what the
event concerns, then the record is retired. -/
def EventsEnd : Prop :=
  (∀ s ctx n e c, s.event? ctx n = some e → e.function = 6 ∨ e.function = 7 → s.ctx? ctx = some c →
    (∀ k ∈ s.contexts, k.id = ctx → k = c) →
    ∃ u : State, exec (.eventRetire ctx n) s = .next (u.flushEvents ctx)
      ∧ u.ctx? ctx = some { c with events := c.events.filter fun e => e.seq != n } ∧ ∃ contexts, u = { s with contexts := contexts })
  ∧ (∀ s ctx n e c a, s.event? ctx n = some e → e.function = 3 → s.ctx? ctx = some c → (∀ k ∈ s.contexts, k.id = ctx → k = c) →
    ∃ u : State, exec (.hostEventAnswer ctx n (.address a)) s = .next (u.flushEvents ctx)
      ∧ u.ctx? ctx = some { c with
          saveArea := some (dwordOf (Config.hostBase + a.toNat)), events := c.events.filter fun e => e.seq != n }
      ∧ ∃ contexts, u = { s with contexts := contexts })
  ∧ ∀ s ctx n e c, s.event? ctx n = some e → e.function = 5 → s.ctx? ctx = some c → (∀ k ∈ s.contexts, k.id = ctx → k = c) →
    ∃ u : State, exec (.hostEventAnswer ctx n .resume) s = .next (u.flushEvents ctx)
      ∧ u.ctx? ctx = some { c with hungHalt := false, hangCount := 0, events := c.events.filter fun e => e.seq != n }
      ∧ ∃ contexts, u = { s with contexts := contexts }

/-! ### The host -/

/-- Whether a call window's arguments ask for something (R29, R454, R456): a GO with legal fields, of a live queue with room. -/
structure PushStands (s : State) (ctx : Nat) (go a0 a1 a2 a3 : DWord) (o : ReplayObj) : Prop where
  fields   : hostGoOk go = true
  args     : pushArgsOk a0 a1 a2 a3 = true
  resident : (s.ctx? ctx).any Context.resident = true
  queue    : s.pushQueue ctx a3 = some o
  room     : o.full = false

/-- The words of four arguments, low word first (R454). -/
def argWords (as : List DWord) : List Word := as.flatMap fun a => [a.extractLsb' 0 32, a.extractLsb' 32 32]

/-- What an accepted push leaves: the next position of its queue holds the arguments, in both copies of its log, and the window
counts it (R29, R456). DIE of the entry is the queue's home die, the model's choice (log 7). -/
structure PushAccepted (ctx : Nat) (as : List DWord) (a3 : DWord) (o : ReplayObj) (w : CallWindow) (s t : State) : Prop where
  queue  : t.pushQueue ctx a3 = some { o with tail := nextPos o.tail }
  entry  : t.mem = (s.putEntry o {
    pos := nextPos o.tail, method := 0, die := o.home, args := argWords as, ret := 0, status := 0 }).mem
  window : t.window ctx = w
  rest   : ∃ contexts windows mem poison, t = { s with contexts := contexts, windows := windows, mem := mem, poison := poison }

/-- HOST_QUEUE_PUSH and HOST_GO_ACCEPT (R29, R456). -/
def HostPushes : Prop :=
  (∀ s ctx go o, ctx < Config.numContexts → s.bootFail = false → (s.window ctx).held = [] →
    PushStands s ctx go (s.window ctx).a0 (s.window ctx).a1 (s.window ctx).a2 (s.window ctx).a3 o →
    ∃ t : State, exec (.hostQueuePush ctx go) s = .next t
      ∧ PushAccepted ctx [(s.window ctx).a0, (s.window ctx).a1, (s.window ctx).a2, (s.window ctx).a3] (s.window ctx).a3 o
          { s.window ctx with accepted := true, count := (s.window ctx).count + 1 } s t)
  ∧ (∀ s ctx go, ctx < Config.numContexts → s.bootFail = true ∨ (s.ctx? ctx).any Context.resident = false →
    ∃ t : State, exec (.hostQueuePush ctx go) s = .next t
      ∧ t.window ctx = { s.window ctx with accepted := false, cause := Cause.engError.code }
      ∧ ∃ windows, t = { s with windows := windows })
  ∧ (∀ s ctx go a0 a1 a2 a3 rest o, (s.window ctx).held = (go, a0, a1, a2, a3) :: rest → PushStands s ctx go a0 a1 a2 a3 o →
    ∃ t : State, exec (.hostGoAccept ctx) s = .next t
      ∧ PushAccepted ctx [a0, a1, a2, a3] a3 o
          { s.window ctx with held := rest, accepted := decide (rest = []), count := (s.window ctx).count + 1 } s t)
  ∧ ∀ s ctx go a0 a1 a2 a3 rest o, (s.window ctx).held = (go, a0, a1, a2, a3) :: rest → hostGoOk go = true →
    pushArgsOk a0 a1 a2 a3 = true → (s.ctx? ctx).any Context.resident = true → s.pushQueue ctx a3 = some o → o.full = true →
    exec (.hostGoAccept ctx) s = .next s

/-- REGISTER_WRITE (R27, R28, R30, R478): an argument of a call window takes the value; a GO of the debug call window that breaks
R478 is refused with ENG_CMD, and one of ATTACH does what ATTACH does with the arguments there; a write to a register that is
neither is ignored. -/
def RegistersWrite : Prop :=
  (∀ s n k v, n < 1024 → k < 4 → ∃ t : State, exec (.registerWrite (0x1000 + 0x40 * n + 8 * k) v) s = .next t
    ∧ t.window n = (match k with
        | 0 => { s.window n with a0 := v }
        | 1 => { s.window n with a1 := v }
        | 2 => { s.window n with a2 := v }
        | _ => { s.window n with a3 := v })
    ∧ (∀ m, m ≠ n → t.window m = s.window m) ∧ ∃ windows, t = { s with windows := windows })
  ∧ (∀ s v, exec (.registerWrite 0x11000 v) s = .next { s with dbgWin := { s.dbgWin with a0 := v } })
  ∧ (∀ s v, s.dbgWin.held = [] → s.dbgWork = none → debugGoOk v = false ∨ 8 ≤ goOpcode v →
    exec (.registerWrite 0x11020 v) s = .next { s with dbgWin := { s.dbgWin with accepted := false, cause := Cause.engCmd.code } })
  ∧ (∀ s v, s.dbgWin.held = [] → s.dbgWork = none → debugGoOk v = true → goOpcode v = 0 →
    exec (.registerWrite 0x11020 v) s = exec (.attach s.dbgWin.a0 s.dbgWin.a1 s.dbgWin.a2) s)
  ∧ ∀ s off v, off ≠ 0x11020 → off < 0x1000 ∨ 0x11040 ≤ off ∨ off % 8 ≠ 0 ∨ 4 ≤ off % 0x40 / 8 →
    exec (.registerWrite off v) s = .next s

/-- DRESET (R27): 0xC0A60001 resets the device, of which memory keeps its bytes; another value does nothing. -/
def DeviceResets : Prop :=
  (∀ s, exec (.dreset 0xC0A60001) s = .next
    { State.reset with mem := s.mem, poison := s.poison, agenda := s.agenda, seq := s.seq, freeCount := s.freeCount })
  ∧ ∀ s v, v ≠ 0xC0A60001 → exec (.dreset v) s = .next s

/-- HOST_BAR2_READ and HOST_BAR2_WRITE (R31), of bytes no page of which is being zeroed: a read answers with memory, 0 at
unpopulated offsets, and with 0xFF where a line is poisoned; a write reaches the populated ones. -/
def MemoryWindow : Prop :=
  (∀ s off n, s.bootFail = false → s.bar2Waits off n = false →
    exec (.hostBar2Read off n) s = .next (
      if (List.range n).any (fun i => populated (off + i) && s.poisoned (off + i)) = true then
        { s with reply := List.replicate n 0xFF, replyBad := true }
      else
        { s with
          reply := (List.range n).map fun i => if populated (off + i) = true then Memory.read s.mem (off + i) else 0
          replyBad := false }))
  ∧ ∀ s off bs, s.Inv → s.bootFail = false → s.bar2Waits off bs.length = false →
    ∃ t : State, exec (.hostBar2Write off bs) s = .next t
      ∧ (∀ a, Memory.read t.mem a = if off ≤ a ∧ a < off + bs.length ∧ populated a = true then bs.getD (a - off) 0
          else Memory.read s.mem a)
      ∧ ∃ mem poison, t = { s with mem := mem, poison := poison }

/-! ### The debug window -/

/-- The window of a debug GO with its arguments. -/
def debugArgs (w : CallWindow) (a0 a1 a2 : DWord) : CallWindow := { w with a0 := a0, a1 := a1, a2 := a2 }

/-- A context the debug window may name: attached, on a device that boots (R478). -/
structure Attached (s : State) (a0 : DWord) (c : Context) : Prop where
  boot  : s.bootFail = false
  idle  : s.dbgWork = none
  range : a0.toNat < 1024
  ctx   : s.ctx? a0.toNat = some c
  debug : (Context.debug c).isSome = true

/-- ATTACH and DETACH (R478, R480, R482): a context is attached, where it is not yet; with nothing of it halted for debug,
DETACH clears its comparators and its trace. -/
def Attaches : Prop :=
  (∀ s a0 a1 a2 c, s.bootFail = false → s.dbgWork = none → a0.toNat < 1024 → a1.toNat % 4096 = 0 → a2.toNat % 4096 = 0 →
    s.ctx? a0.toNat = some c →
    (Context.debug c = none → ∃ t : State, exec (.attach a0 a1 a2) s = .next t
      ∧ t.ctx? a0.toNat = some { c with debug := some { ring := a1, base := a2, count := 0 } }
      ∧ t.dbgWin = { debugArgs s.dbgWin a0 a1 a2 with accepted := true, count := s.dbgWin.count + 1 }
      ∧ ∃ contexts dbgWin, t = { s with contexts := contexts, dbgWin := dbgWin })
    ∧ ((Context.debug c).isSome = true → exec (.attach a0 a1 a2) s = .next
        { s with dbgWin := { debugArgs s.dbgWin a0 a1 a2 with accepted := false, cause := Cause.engCmd.code } }))
  ∧ ∀ s a0 c, Attached s a0 c → (s.wgs.map Workgroup.id).Nodup → (∀ g ∈ s.wgs, g.ctx = a0.toNat → g.trap.any TrapState.debug = false) →
    ∃ t : State, exec (.detach a0) s = .next t
      ∧ t.ctx? a0.toNat = some { c with debug := none, trace := none }
      ∧ (∀ k ∈ t.cores, ∀ p ∈ k.pcmp, p.2 = a0.toNat → p.1 &&& 3 = 0)
      ∧ (∀ g ∈ t.wgs, g.ctx = a0.toNat → g.pendHalt = false)
      ∧ ∃ wgs cores contexts dbgWin, t = { s with wgs := wgs, cores := cores, contexts := contexts, dbgWin := dbgWin }

/-- A debug GO is accepted on `t`, its effect (R479). -/
def accepts (s t : State) (a0 a1 a2 : DWord) : State :=
  { t with dbgWin := { debugArgs s.dbgWin a0 a1 a2 with accepted := true, count := s.dbgWin.count + 1 } }

/-- The state in which a HALT or STEP begins: its arguments stand in the window, and it is not accepted yet. -/
def started (s : State) (a0 a1 : DWord) : State :=
  { s with dbgWin := { debugArgs s.dbgWin a0 a1 s.dbgWin.a2 with accepted := false } }

/-- A HALT or STEP, its effect begun, is accepted once that is complete, be it at once (R479). -/
def acceptOnceDone (op : Nat) (a0 a1 : DWord) (t : State) : State :=
  ({ t with dbgWork := some (op, a0.toNat, a1.toNat) } : State).debugSettle

/-- HALT, RESUME and STEP (R479 to R482): HALT raises STEP in a lane of a workgroup that issues, or does so later, and is
accepted once the workgroup has stopped; RESUME ends the halt of one that is halted; STEP lets its warp execute one
instruction. -/
def HaltsAndResumes : Prop :=
  (∀ s a0 a1 c g, Attached s a0 c → a1.toNat < 2 ^ 32 →
    (s.wgs.filter fun g => g.ctx = a0.toNat && !g.kept && (a1.toNat = 0xFFFFFFFF || g.linear = a1.toNat)) = [g] →
    g.trap = none → s.wg? g.id = some g →
    (∀ r, g.resident = true → s.debugFull g.ctx g.id = false → s.haltAt g = some r →
      ∃ u : State, exec (.halt a0 a1) s = .next (acceptOnceDone 2 a0 a1 (u.raise [⟨r, .step, 0⟩])) ∧ u = started s a0 a1)
    ∧ (g.resident = false ∨ s.debugFull g.ctx g.id = true ∨ s.haltAt g = none →
      ∃ u : State, exec (.halt a0 a1) s = .next (acceptOnceDone 2 a0 a1 u) ∧ u.wg? g.id = some { g with pendHalt := true }
        ∧ ∃ wgs ctl, u = { started s a0 a1 with wgs := wgs, ctl := ctl }))
  ∧ (∀ s a0 a1 c, Attached s a0 c → a1.toNat < 2 ^ 32 →
    (∀ g ∈ s.wgs, g.ctx = a0.toNat → a1.toNat = 0xFFFFFFFF ∨ g.linear = a1.toNat → ∃ t, g.trap = some t ∧ t.entered = true) →
    exec (.halt a0 a1) s = .next (accepts s s a0 a1 s.dbgWin.a2))
  ∧ (∀ s a0 a1 c g t l, Attached s a0 c → a1.toNat < 2 ^ 32 → s.debugWg a0.toNat a1.toNat = some g → s.wg? g.id = some g →
    g.trap = some t → t.entered = true → g.outer = [] → g.resident = true → s.launch? g.launch = some l →
    ∃ u : State, exec (.resume a0 a1) s = .next (u.afterHalt g.id).debugAccept
      ∧ (u.wg? g.id).map Workgroup.trap = some none
      ∧ (∀ w v p k, g.warps[w]? = some v → v.lanes[p]? = some k →
          (u.lane? ⟨g.id, w, p⟩).map (fun q => { q with keySlot := none })
            = some { k.resume (if v.privileged then v.saved[p]? else none) with keySlot := none })
      ∧ u.dbgWin = debugArgs s.dbgWin a0 a1 s.dbgWin.a2)
  ∧ ∀ s a0 a1 c g t v, Attached s a0 c → a1.toNat < 2 ^ 32 → s.debugWg a0.toNat a1.toNat = some g → s.wg? g.id = some g →
    g.trap = some t → t.entered = true → g.outer = [] → s.warp? g.id t.warp = some v → (s.ctx? g.ctx).bind Context.trace = none →
    ∃ u : State, exec (.step a0 a1) s = .next (acceptOnceDone 4 a0 a1 ((u.flushDebug g.ctx).afterHalt g.id))
      ∧ (u.wg? g.id).map Workgroup.trap = some none
      ∧ u.warp? g.id t.warp = some (v.stepOne none s.seq)
      ∧ ∃ wgs ctl cores pipes seq dbgWin, u = { s with
          wgs := wgs, ctl := ctl, cores := cores, pipes := pipes, seq := seq, dbgWin := dbgWin }

/-- SNAPSHOT, DICT and TRACE (R483 to R486): what each writes; TRACE with a length of 0 stops the trace. Where the fields of a
block's body lie in what SNAPSHOT writes is the model's choice (log 9). -/
def DebugWrites : Prop :=
  (∀ s a0 a1 a2 c g, Attached s a0 c → a1.toNat < 2 ^ 32 → a2.toNat % 4096 = 0 → s.debugWg a0.toNat a1.toNat = some g →
    ∃ t : State, exec (.snapshot a0 a1 a2) s = .next t
      ∧ t.mem = (s.writeBlocks (Config.hostBase + a2.toNat) 
          (contextBlock c :: g.blocks (s.scratchBytes g) ++ [⟨.other, 11, 0, []⟩])).mem
      ∧ ∃ mem poison freeCount, t = accepts s { s with mem := mem, poison := poison, freeCount := freeCount } a0 a1 a2)
  ∧ (∀ s a0 a2 n core slot c, s.Inv → s.bootFail = false → s.dbgWork = none → a0.toNat < 2 ^ 23 → n = a0.toNat % 2 ^ 10 →
    core = a0.toNat / 2 ^ 10 % 2 ^ 11 → slot = a0.toNat / 2 ^ 21 % 2 ^ 2 → a2.toNat % 4096 = 0 → s.ctx? n = some c →
    (Context.debug c).isSome = true → s.usesCore n core = true → (∀ j ∈ (s.core core).jobs, ¬(j.ctx = n ∧ j.prog = slot)) →
    ∃ t : State, exec (.dict a0 a2) s = .next t
      ∧ StoredAt (Config.hostBase + a2.toNat) (s.dictDump core n slot) s.mem t.mem
      ∧ ∃ mem poison, t = accepts s { s with mem := mem, poison := poison } a0 s.dbgWin.a1 a2)
  ∧ (∀ s a0 a1 c, Attached s a0 c → ∃ t : State, exec (.trace a0 a1 0) s = .next t
      ∧ t.ctx? a0.toNat = some { c with trace := none } ∧ ∃ contexts, t = accepts s { s with contexts := contexts } a0 a1 0)
  ∧ ∀ s a0 a1 a2 c, s.Inv → Attached s a0 c → a2.toNat < 2 ^ 32 → a1.toNat % 4096 = 0 → a2.toNat % 4096 = 0 → 8192 ≤ a2.toNat →
    region a1.toNat = .paged → ∃ t : State, exec (.trace a0 a1 a2) s = .next t
      ∧ t.ctx? a0.toNat = some { c with trace := some { buf := a1, bytes := a2.toNat, written := 0, dropped := 0 } }
      ∧ (∀ p z, s.lookup a0.toNat .w a1.toNat = .ok p z → StoredAt p (List.replicate 64 0) s.mem t.mem)
      ∧ ∃ mem poison contexts, t = accepts s { s with mem := mem, poison := poison, contexts := contexts } a0 a1 a2

/-! ### Ethernet and boot -/

/-- A frame received moves its flow on, and goes out of the state otherwise only by what is sent (R34). -/
structure FrameTaken (f : EthFrame) (out : List EthFrame) (s t : State) : Prop where
  sent  : t.ethOut = s.ethOut ++ out
  moved : t.rxNext f.node (headerOf f).flow = ((headerOf f).seq + 1) % 2 ^ 32

/-- ETH_WRITE_FRAME, ETH_READ_REQUEST and ETH_FRAME_DISCARD (R32 to R34): a frame next in its flow's order reaches the window it
names, and is acknowledged; the data a request is answered with is held until it is acknowledged in turn; a frame out of order
does nothing, and one that is no vault-transfer frame is counted. FLOW and SEQ of the answers are the model's choice (log 7). -/
def FramesArrive : Prop :=
  (∀ s f, s.Inv → s.accepts 1 f = true → ∃ t : State, exec (.ethWriteFrame f) s = .next t
    ∧ (∀ p, s.exportedAt f = some p → StoredAt p (payloadOf f) s.mem t.mem) ∧ (s.exportedAt f = none → t.mem = s.mem)
    ∧ FrameTaken f [EthFrame.answer f 4 []] s t
    ∧ ∃ mem poison rxFlows ethOut, t = { s with mem := mem, poison := poison, rxFlows := rxFlows, ethOut := ethOut })
  ∧ (∀ s f p data, s.accepts 2 f = true → s.exportedAt f = some p → s.poisonedRange p (headerOf f).len = false →
    (∀ i, i < (headerOf f).len → s.poisoned (p + i) = false) →
    data = EthFrame.answer f 3 (Memory.bytes s.mem p (headerOf f).len) →
    ∃ t : State, exec (.ethReadRequest f) s = .next t ∧ FrameTaken f [EthFrame.answer f 4 [], data] s t
      ∧ (t.txFlow (headerOf f).flow f.node true).frames
          = (s.txFlow (headerOf f).flow f.node true).frames ++ [⟨false, true, none, data, 0⟩]
      ∧ ∃ rxFlows ethOut txFlows, t = { s with rxFlows := rxFlows, ethOut := ethOut, txFlows := txFlows })
  ∧ (∀ s f, s.accepts 2 f = true → s.exportedAt f = none →
    ∃ t : State, exec (.ethReadRequest f) s = .next t ∧ FrameTaken f [EthFrame.answer f 4 []] s t
      ∧ ∃ rxFlows ethOut, t = { s with rxFlows := rxFlows, ethOut := ethOut })
  ∧ (∀ s f, s.accepts 1 f = false → exec (.ethWriteFrame f) s = .next s)
  ∧ (∀ s f, s.accepts 2 f = false → exec (.ethReadRequest f) s = .next s)
  ∧ ∀ s f, EthFrame.transfers f = false → exec (.ethFrameDiscard f) s = .next { s with discards := s.discards + 1 }

/-- ETH_ACKNOWLEDGE (R34, R293): a held frame that has all it waits for is dropped, and its portion has landed; one that still
waits for its data is marked. -/
def AcknowledgesComplete : Prop :=
  ∀ s f w data flow seq, EthFrame.transfers f = true → (headerOf f).op = 4 → flow = (headerOf f).flow → seq = (headerOf f).seq →
    s.txFrame? flow f.node data seq = some w → (data = true → s.txFrame? flow f.node false seq = none) →
    (w.answered = true → ∃ t : State, exec (.ethAcknowledge f) s = .next (t.landRemote { w with acked := true })
      ∧ t.txFrame? flow f.node data seq = none ∧ ∃ txFlows, t = { s with txFlows := txFlows })
    ∧ (w.answered = false → ∃ t : State, exec (.ethAcknowledge f) s = .next t
      ∧ t.txFrame? flow f.node data seq = some { w with acked := true } ∧ ∃ txFlows, t = { s with txFlows := txFlows })

/-- ETH_READ_DATA (R33, R34, R277, R293): the data of the oldest request of its flow stands at its portion's destination and is
acknowledged; the portion has landed once the request is acknowledged too. Other data does nothing. -/
def ReadDataComplete : Prop :=
  (∀ s f w id p c op dst src len rows ds ss dsp ssp landed bad q phys flow seq, s.Inv → EthFrame.transfers f = true →
    (headerOf f).op = 3 → flow = (headerOf f).flow → seq = (headerOf f).seq →
    s.asked? flow f.node = some w → (headerOf w.frame).seq = seq → w.portion = some (id, p) → s.cmd? id = some c →
    c.work = .copy op dst src len rows ds ss dsp ssp landed bad →
    portionAt dst.toNat len rows ds p = some q → s.operandPhys c.ctx c.lane.wg dsp q.lo = some phys →
    ∃ t : State, exec (.ethReadData f) s = .next (if w.acked = true then t.landRemote { w with answered := true } else t)
      ∧ StoredAt phys ((payloadOf f).take (q.hi - q.lo)) s.mem t.mem
      ∧ t.ethOut = s.ethOut ++ [EthFrame.answer f 4 []]
      ∧ t.txFrame? flow f.node false seq = (if w.acked = true then none else some { w with answered := true })
      ∧ ∃ mem poison txFlows ethOut, t = { s with mem := mem, poison := poison, txFlows := txFlows, ethOut := ethOut })
  ∧ ∀ s f, (∀ w, s.asked? (headerOf f).flow f.node = some w → (headerOf w.frame).seq ≠ (headerOf f).seq) →
    exec (.ethReadData f) s = .next s

/-- RESEND_TIMEOUT (R34): the oldest frame of a flow that is not acknowledged and every later one are sent again, a frame up to
8 times; then the command of that frame is given up, and read data, which has none, is dropped (the model's choice, log 7). -/
def ResendsComplete : Prop :=
  ∀ s flow node data (w : TxFlow) x rest, w = s.txFlow flow node data → w.frames.dropWhile TxFrame.acked = x :: rest →
    (x.resends < 8 → ∃ t : State, exec (.resendTimeout ⟨flow, node, data⟩) s = .next t
      ∧ t.ethOut = s.ethOut ++ (x :: rest).map TxFrame.frame
      ∧ t.txFlow flow node data
          = { w with frames := w.frames.takeWhile TxFrame.acked ++ (x :: rest).map fun f => { f with resends := f.resends + 1 } }
      ∧ ∃ txFlows ethOut, t = { s with txFlows := txFlows, ethOut := ethOut })
    ∧ (8 ≤ x.resends → ∀ p, x.portion = some p → exec (.resendTimeout ⟨flow, node, data⟩) s = .next (s.giveUp p.1))
    ∧ (8 ≤ x.resends → x.portion = none → ∃ t : State, exec (.resendTimeout ⟨flow, node, data⟩) s = .next t
      ∧ t.txFlow flow node data = { w with frames := w.frames.filter (· != x) }
      ∧ ∃ txFlows, t = { s with txFlows := txFlows })

/-- RESET and ATTESTATION_REPORT (R35, R36): the stages are verified and measured in turn, and one that fails leaves the
device in recovery; the report is the measurement, DEVID and the nonce. -/
def Boots : Prop :=
  (∀ s b, ∃ t : State, exec (.reset b) s = .next t
    ∧ (if stage1Ok b = false then t.booted = false ∧ t.bootFail = true ∧ t.recovery = true ∧ t.measure = State.reset.measure
      else if stage2Ok b = false then t.booted = false ∧ t.bootFail = true ∧ t.recovery = true
        ∧ t.measure = sha256 (State.reset.measure ++ sha256 b.stage1.image)
      else t.booted = true ∧ t.bootFail = false ∧ t.recovery = false
        ∧ t.measure = sha256 (sha256 (State.reset.measure ++ sha256 b.stage1.image) ++ sha256 b.stage2.image))
    ∧ ∃ booted bootFail recovery measure, t = { State.reset with
        mem := s.mem, poison := s.poison, agenda := s.agenda, seq := s.seq, freeCount := s.freeCount
        booted := booted, bootFail := bootFail, recovery := recovery, measure := measure })
  ∧ ∀ s nonce, ∃ (t : State) (sig : Nat × Nat), exec (.attestationReport nonce) s = .next t
      ∧ t.report = some (s.measure ++ leBytes 8 devid ++ nonce, sig)
      ∧ (∃ k, 1 ≤ k ∧ k < p256N
          ∧ sig = ecdsaSign (beBytes 32 Config.identityKey) (sha256 (s.measure ++ leBytes 8 devid ++ nonce)) k)
      ∧ ∃ report freeCount, t = { s with report := report, freeCount := freeCount }

/-! ### The Firmware Interface -/

/-- A call that changes one context and answers 1. -/
def Calls1 (i : Instr) (s : State) (ctx : Nat) (c' : Context) : Prop :=
  ∃ t : State, exec i s = .next t ∧ t.ctx? ctx = some c' ∧ (∀ n, n ≠ ctx → t.ctx? n = s.ctx? n)
    ∧ ∃ contexts, t = { s with contexts := contexts, replyWord := 1 }

/-- A call that is refused: it answers 0 and changes nothing. -/
def Refuses (i : Instr) (s : State) : Prop := exec i s = .next { s with replyWord := 0 }

/-- The calls that set a field of a context, within the ranges they take (R42, R103, R167, R246, R387, R388, R493); out of
range they are refused. -/
def SettingsChange : Prop :=
  ∀ s ctx c, s.booted = true → s.ctx? ctx = some c →
    (c.resident = false → ∃ t : State, exec (.contextMakeResident ctx) s = .next { t with replyWord := 1 }
        ∧ t = s.startRestore ctx none (if c.saved then c.areaAt.map Prod.fst else none)
        ∧ (c.saved = false → t.ctx? ctx = some { c with resident := true, preq := false } ∧ (∀ n, n ≠ ctx → t.ctx? n = s.ctx? n)
          ∧ ∃ contexts cmds freeCount, t = { s with contexts := contexts, cmds := cmds, freeCount := freeCount }))
    ∧ (∀ v, c.resident = false → Calls1 (.modeWrite ctx v) s ctx { c with mode := v &&& 0x3F })
    ∧ (∀ v, c.resident = true → Refuses (.modeWrite ctx v) s)
    ∧ (∀ v, 1000 ≤ v → v ≤ 1000000 → Calls1 (.ageLimitSet ctx v) s ctx { c with ageLimit := v })
    ∧ (∀ v, v < 1000 ∨ 1000000 < v → Refuses (.ageLimitSet ctx v) s)
    ∧ (∀ v, Calls1 (.extwaitSet ctx v) s ctx { c with extwait := v })
    ∧ (∀ v, v = 0 ∨ (65536 ≤ v ∧ v ≤ 2 ^ 31) → Calls1 (.hanglimitSet ctx v) s ctx { c with hanglimit := v })
    ∧ (∀ v, v ≠ 0 → v < 65536 ∨ 2 ^ 31 < v → Refuses (.hanglimitSet ctx v) s)
    ∧ (∀ b k i, c.resident = false → b.toNat % 4096 = 0 →
        Calls1 (.trapConfigSet ctx b k i) s ctx { c with trapbase := b, trapdict := k.toNat, trapimg := i })
    ∧ exec (.bankKeyRead ctx) s = .next { s with replyWord := dwordOf c.bankKey }
    ∧ (∀ a, Calls1 (.hangAreaRegister ctx a) s ctx { c with hangArea := some a })
    ∧ (∀ a, ∃ t : State, exec (.eventAreaRegister ctx a) s = .next (t.flushEvents ctx)
        ∧ t.ctx? ctx = some { c with eventArea := some a } ∧ ∃ contexts, t = { s with contexts := contexts, replyWord := 1 })

/-- CONTEXT_CREATE and CONTEXT_DESTROY (R50, R493): a context is created not resident under a number that is free; one that
is destroyed is gone. -/
def ContextsChange : Prop :=
  (∀ s ctx k, s.booted = true → ctx < Config.numContexts → s.ctx? ctx = none →
    ∃ t : State, exec (.contextCreate ctx k) s = .next t ∧ t.ctx? ctx = some (Context.created ctx (k % 32))
      ∧ (t.ctx? ctx).map Context.resident = some false
      ∧ (∀ n, n ≠ ctx → t.ctx? n = s.ctx? n) ∧ ∃ contexts, t = { s with contexts := contexts, replyWord := 1 })
  ∧ (∀ s ctx k, (s.ctx? ctx).isSome = true → Refuses (.contextCreate ctx k) s)
  ∧ ∀ s ctx c, s.booted = true → s.ctx? ctx = some c → ∃ t : State, exec (.contextDestroy ctx) s = .next t
      ∧ t.ctx? ctx = none ∧ t.replyWord = 1

/-- A context of which the question about a placement, if the host was asked one, is over (R125). -/
def placingOver (what : Asked) (c : Context) : Context := { c with placing := c.placing.filter fun p => !p.what.same what }

/-- Memory once the replicas of a new object hold its initial bytes (R435). -/
def replicasFilled (s : State) (o : ReplayObj × List Byte) : Mem := (o.1.replicas.foldl (fun s r => s.storeFresh r.base o.2) s).mem

/-- OBJECT_CREATE (R50, R248, R411, R435, R453), where the host is not asked about placements: what the descriptor makes is
entered under the lowest free number, and the answer is its handle. -/
def ObjectsMade : Prop :=
  ∀ s ctx kind (desc : DWord) places home c b what, s.booted = true → s.ctx? ctx = some c → s.hostMode ctx 2 = false →
    what = .object kind desc places home →
    region desc.toNat = .paged → s.readAt ctx .r desc.toNat 1 (if kind = 3 then 32 else 64) = .bytes b →
    (∀ t i, kind = 1 → freeIndex (c.targets.map Target.index) = some i → s.makeTarget ctx desc.toNat i places b = .ok t →
      ∃ u : State, exec (.objectCreate ctx kind desc places home) s = .next u
        ∧ u.ctx? ctx = some (placingOver what { c with targets := c.targets ++ [t] })
        ∧ u.replyWord = dwordOf (0x10000000 + i)
        ∧ ∃ contexts replyWord, u = { s with contexts := contexts, replyWord := replyWord })
    ∧ (∀ o i, kind = 2 → freeIndex ((c.objects.filter fun o => o.kind = 2).map ReplayObj.index) = some i →
        s.makeObject ctx desc.toNat i home places b = .ok o →
      ∃ u : State, exec (.objectCreate ctx kind desc places home) s = .next u
        ∧ u.ctx? ctx = some (placingOver what { c with objects := c.objects ++ [o.1] }) ∧ u.replyWord = dwordOf o.1.handle.toNat
        ∧ u.mem = replicasFilled s o
        ∧ ∃ contexts replyWord mem poison, u = { s with contexts := contexts, replyWord := replyWord, mem := mem, poison := poison })
    ∧ (∀ t i, kind = 3 → freeIndex (c.textures.map Texture.index) = some i → makeTexture i b = .ok t →
      ∃ u : State, exec (.objectCreate ctx kind desc places home) s = .next u
        ∧ u.ctx? ctx = some { c with textures := c.textures ++ [t] } ∧ u.replyWord = dwordOf (0x30000000 + i)
        ∧ ∃ contexts replyWord, u = { s with contexts := contexts, replyWord := replyWord })
    ∧ (∀ o i, kind = 4 → freeIndex ((c.objects.filter fun o => o.kind = 4).map ReplayObj.index) = some i →
        s.makeQueue i home places b = .ok o →
      ∃ u : State, exec (.objectCreate ctx kind desc places home) s = .next u
        ∧ u.ctx? ctx = some (placingOver what { c with
            objects := c.objects ++ [o.1], defaultQ := some (c.defaultQ.getD o.1.handle) })
        ∧ u.replyWord = dwordOf o.1.handle.toNat ∧ u.mem = replicasFilled s o
        ∧ ∃ contexts replyWord mem poison, u = { s with contexts := contexts, replyWord := replyWord, mem := mem, poison := poison })

/-- No lane waits on an object, and no staged push waits for room in its log (R50). -/
def unusedObject (s : State) (ctx : Nat) (h : Word) (o : ReplayObj) : Prop :=
  (∀ w ∈ s.waits ctx, w.2.onObject h = false)
    ∧ (o.full = false ∨ ∀ g ∈ s.wgs, g.ctx = ctx → ∀ v ∈ g.warps, ∀ q, v.stage = some q → s.pushesTo ctx q o.handle = false)

/-- OBJECT_DESTROY (R50) of a texture, and of a replayed object or queue that nothing waits on or uses. -/
def ObjectsGo : Prop :=
  (∀ s ctx h t, s.booted = true → s.texture? ctx h = some t → ∃ u : State, exec (.objectDestroy ctx h) s = .next u
    ∧ u.texture? ctx h = none ∧ ∃ contexts, u = { s with contexts := contexts, replyWord := 1 })
  ∧ ∀ s ctx h o c, s.booted = true → s.object? ctx h = some o → s.ctx? ctx = some c → (∀ p ∈ c.pushes, p.handle ≠ h) →
    unusedObject s ctx h o → (∀ d ∈ s.cmds, ∀ n, d.work ≠ .push h n) →
    ∃ u : State, exec (.objectDestroy ctx h) s = .next { u.settle with replyWord := 1 } ∧ u.object? ctx h = none
      ∧ ∃ contexts, u = { s with contexts := contexts }

/-- The pages that a call maps. -/
def givenPages (q : AllocRequest) : List Page :=
  q.phys.zipIdx.map fun p => ⟨q.va + q.pageSize * p.2, q.pageSize, p.1, q.r, q.w, q.x, q.host, q.key, !q.host⟩

/-- A context with an allocation granted: its pages are mapped, those of HBM with Z set (R124). -/
def allocated (q : AllocRequest) (c : Context) : Context :=
  { c with pages := c.pages ++ givenPages q, allocs := c.allocs ++ [⟨q.va, q.size, q.key, q.affinity⟩] }

/-- The pages that a mapping change asks for. -/
def askedPages (q : MapRequest) : List Page :=
  if q.unmap = true then [] else
    q.phys.zipIdx.map fun p => ⟨q.va + q.pageSize * p.2, q.pageSize, p.1, q.r, q.w, q.x, q.host, q.key, !q.host⟩

/-- ALLOCATE and MAPPING_CHANGE (R117, R120, R124 to R127): a range that may be allocated is mapped, once the host has agreed
where MODE asks it about pages of HBM; a change that is well formed and keeps the places of its key is entered, and completes by a
step of its own. -/
def MemoryMaps : Prop :=
  (∀ s ctx q c, s.booted = true → s.ctx? ctx = some c →
    (s.allocOk c q = true → q.host = true → Calls1 (.allocate ctx q) s ctx (allocated q c))
    ∧ (s.allocOk c q = true → q.host = false → s.hostMode ctx 2 = false →
        Calls1 (.allocate ctx q) s ctx (placingOver (.pages q) (allocated q c)))
    ∧ (s.allocOk c q = true → q.host = false → s.hostMode ctx 2 = true → (∀ p ∈ c.placing, p.what.same (.pages q) = false) →
        exec (.allocate ctx q) s = .next (s.askPlace ctx (.pages q) 0 0xFFFFFFFF))
    ∧ (s.allocOk c q = false → Refuses (.allocate ctx q) s))
  ∧ ∀ s ctx q c, s.booted = true → s.ctx? ctx = some c →
    (mapRequestOk q = true → s.keyKept c q (askedPages q) = true →
      ∃ (t : State) (k : Change), exec (.mappingChange ctx q) s = .next t ∧ t.changes = s.changes ++ [k]
      ∧ k.ctx = some ctx ∧ k.base = q.va ∧ k.size = q.size ∧ k.unmap = q.unmap ∧ k.apply = true ∧ k.pages = askedPages q
      ∧ ∃ changes seq, t = { s with changes := changes, seq := seq, replyWord := 1 })
    ∧ (mapRequestOk q = false ∨ s.keyKept c q (askedPages q) = false → Refuses (.mappingChange ctx q) s)

/-! ### Rules of the manual -/

/-- The element operations of R199 with a reduced result: each with its exact result, from the typed elements of its
operands. -/
def exactOps : List ((Form → Args → Val) × (Form → Args → Nat → Int)) :=
  let a (f : Form) (x : Args) (i : Nat) : Int := typed f.ty (elem (elemBits f.ty) x.a i)
  let b (f : Form) (x : Args) (i : Nat) : Int := typed f.ty (elem (elemBits f.ty) x.b i)
  let c (f : Form) (x : Args) (i : Nat) : Int := typed f.ty (elem (elemBits f.ty) x.c i)
  [ (iaddVal, fun f x i => a f x i + b f x i), (isubVal, fun f x i => a f x i - b f x i)
  , (imulVal, fun f x i => a f x i * b f x i), (imadVal, fun f x i => a f x i * b f x i + c f x i)
  , (ishaVal, fun f x i => a f x i * 2 ^ x.c.toNat + b f x i), (iabsVal, fun f x i => |a f x i|) ]

/-- Whether a template whose bytes stand at an address is counted as rejected (R153, R154, R158). -/
def isRejected (s : State) (priv : Bool) (unreadable : List Nat) (line : Nat) : Bool :=
  let t : Template := BitVec.ofNat 128 (Memory.le s.mem line 16)
  s.poisoned line || unreadable.contains (line / 64) || ((templateMop t).toNat != 0x3FF && !templateValid priv t)

/-! ### Exceptions -/

/-- What a vectored cause raised in a lane of an unhalted workgroup leaves (R376, R379 to R381): the workgroup traps for the
lane's warp, whose ISSUING lanes are halted at their PCs, the side buffer and TRAPCAUSE hold the cause, and TRAPLANE the lane. -/
def Vectored (fault : LaneFault) (v : Warp) (s t : State) : Prop :=
  let wg := fault.lane.wg
  let w := fault.lane.warp
  (t.wg? wg).bind Workgroup.trap = some {
      warp := w, cause := fault.cause, debug := false, entered := false, handler := false, recorded := false
      tag := if isDebugCause fault.cause then fault.detail.toNat else 0, since := s.clock }
  ∧ (t.warp? wg w).map (fun u => (u.trapCause, u.trapLane)) = some (fault.cause.code, fault.lane.lane)
  ∧ (∀ (n : Nat) (l : Lane), v.lanes[n]? = some l → l.st = .issuing → l.halted = false → l.reformed = none →
      ∃ k, t.lane? ⟨wg, w, n⟩ = some k ∧ k.halted = true ∧ k.trappc = l.pc ∧ k.pc = l.pc
        ∧ k.side.cause = (if n = fault.lane.lane then fault.cause.code else 0)
        ∧ k.side.detail = (if n = fault.lane.lane ∧ isDebugCause fault.cause = false then fault.detail else 0))
  ∧ (∀ id, id ≠ wg → t.wg? id = s.wg? id)
  ∧ t.mem = s.mem

/-! ### Encoding and steps -/

/-- The literal of an issue: the word that follows where the template takes one (R131, R136). -/
def LiteralAt (s : State) (x : Iss) (w lit : Word) : Prop :=
  if takesLiteral w (s.slotEntry x.core x.ctx x.dslot) && x.pc != 0xFFFFFFFC then s.fetchAt x (x.pc + 4) = .word lit else lit = 0

/-- What a step does with the outcome of its action: after a next state, what the package does of itself (log 1). -/
def andAfter : Host.Outcome State Fault Refusal → Host.Outcome State Fault Refusal
  | .next t => .next t.afterAction
  | .fault e => .fault e
  | .refused e => .refused e

/-- An outcome with a change of its next state. -/
def nextWith (k : State → State) : Host.Outcome State Fault Refusal → Host.Outcome State Fault Refusal
  | .next t => .next (k t)
  | .fault e => .fault e
  | .refused e => .refused e

/-- The state in which an issue executes its instruction: comparators, experiment and skid have counted, and the latches are
those of its group (R83, R140, R377, R476, R489). -/
def issuedFrom (s : State) (x : Iss) (w lit : Word) : State :=
  let t := ((((s.comparators x w lit).visit x).countSkid x).switchGroup x).updLanes (x.members.map Member.ref)
    fun l => { l with fresh := false }
  { t with cur := .group x.g }

end Sys2Proof

/-! ### The statements -/

open Sys2Proof Sys2Proof.Machine

/-- The integer instructions write each active lane's value to a vector destination, and nothing else. -/
def Obligations.IntegerVector : Prop :=
  ∀ e ∈ integerOps, VectorCompletes e.1 false (ownValue fun f _ => e.2 f)

/-- The floating, conversion and dot-product instructions write each active lane's value to a vector destination, and nothing
else (R206 to R219). -/
def Obligations.FloatVector : Prop :=
  ∀ e ∈ floatOps, VectorCompletes e.1 false (ownValue fun f _ => e.2 f)

/-- With a uniform destination, these instructions write one value for their issue (R194). -/
def Obligations.OwnUniform : Prop :=
  ∀ e ∈ uniformOps, UniformCompletes e.1 false (ownUniform fun f _ => e.2 f) releasesNone

/-- ISETP, PSET, FSETP and FCLASS write each active lane's predicate, and nothing else (R202, R208, R218). -/
def Obligations.OwnPredicate : Prop :=
  ∀ e ∈ predicateOps, PredCompletes e.1 false (ownValue fun f _ => e.2 f)

/-- CVT in every rounding mode but SR, and in SR, which advances the generator of the home warp (R69, R213 to R215). -/
def Obligations.Conversion : Prop :=
  VectorCompletesIf (fun _ f _ => f.rm ≠ .sr) (fun _ _ t => t) .cvt false (ownValue fun f => cvtVal f 0)
  ∧ UniformCompletesIf (fun _ f _ => f.rm ≠ .sr) (fun _ _ t => t) .cvt false (ownUniform fun f => cvtVal f 0) releasesNone
  ∧ VectorCompletesIf (fun _ f _ => f.rm = .sr) (fun s x t => t.setSeed x (cvtGen s x)) .cvt false
      (fun s f x e g act a => ownValue (fun f => cvtVal f (cvtGen s x)) s f x e g act a)
  ∧ UniformCompletesIf (fun _ f _ => f.rm = .sr) (fun s x t => t.setSeed x (cvtGen s x)) .cvt false
      (fun s f x e g act => ownUniform (fun f => cvtVal f (cvtGen s x)) s f x e g act) releasesNone

/-- The exchanges between lanes and the votes complete, vector, uniform or predicate (R204, R222 to R226, R321, R322). -/
def Obligations.Exchanges : Prop := ExchangeVectorComplete ∧ ExchangeUniformComplete ∧ VotesComplete

/-- JOIN: a lane that holds a pass for this PC gives it up and goes on; any other waits with the mask it named (R87, R318). -/
def Obligations.Joins : Prop :=
  LanesWait .join true noCondition (fun _ f x a args l =>
    if a.lane.pass = some x.pc then { l with pass := none, pc := nextPc f x.pc }
    else { l with st := .waiting (.join (args.a.extractLsb' 0 32) (slotNum f f.a)), npc := nextPc f x.pc })

/-- Branches, calls, returns, WINDOW, YIELD and NOP complete (R308 to R315, R323, R328). -/
def Obligations.Transfers : Prop := BranchesComplete ∧ CallsComplete ∧ ReturnsComplete ∧ WindowsComplete ∧ YieldsComplete ∧ NopComplete

/-- EXIT (R320): every active lane is EXITED with an empty stack, every other member goes on, memory stays; then what
follows an exit is done for the warps of the lanes that left. -/
def Obligations.Exits : Prop :=
  ∀ f s x, CanIssue (.exit f) f false s x → IssueOk s x →
    (∀ a ∈ s.actives x f, (s.argsOf x f (sigOf (.exit f) f) a).isSome) →
    ∃ t : State, exec (.exit f) s = .next (t.afterAll ((s.actives x f).map fun a => a.m.ref))
      ∧ (∀ a ∈ s.actives x f, ∃ l : Lane, t.lane? a.m.ref = some l ∧ l.st = .exited ∧ l.stack = [] ∧ l.spilled = 0)
      ∧ (∀ m ∈ x.members, m ∉ (s.actives x f).map Act.m →
          t.lane? m.ref = (s.lane? m.ref).map fun l => { l with pc := nextPc f x.pc })
      ∧ t.mem = s.mem

/-- TRAP and BKPT raise their exceptions; RTE returns from one (R326, R327, R330, R384). -/
def Obligations.TrapInstructions : Prop := TrapsComplete ∧ RteComplete

/-- WAITC and SLEEP (R329, R330, R274): a wait that is over at once goes on; else the group is held at it,
and the warp's entry moves on (R81). -/
def Obligations.Waits : Prop :=
  OnceCompletes .waitc false (fun s f x => ∃ v, s.warp? x.wg x.warp = some v ∧ v.ureg (slotNum f f.a) = 0) (fun s _ _ => s)
    ∧ (∀ f s x, CanIssue (.waitc f) f false s x → s.actives x f ≠ [] →
        ∀ v, s.warp? x.wg x.warp = some v → cregCount (v.ureg (slotNum f f.a)) ≠ 0 →
        exec (.waitc f) s = .next ((s.setHold x.g
          (some (.waitc (slotNum f f.a) (nextPc f x.pc) ((s.actives x f).map fun a => a.m.pos)))).settleAt x.g))
    ∧ (∀ f s x, CanIssue (.sleep f) f false s x → s.actives x f ≠ [] →
        (s.onceValue x f f.a (sigOf (.sleep f) f).a = 0 → ∃ t : State, exec (.sleep f) s = .next t ∧ MovedOn x f s t
            ∧ ∃ wgs ctl cores seq, t = { s with wgs := wgs, ctl := ctl, cores := cores, seq := seq })
        ∧ ∀ n, n ≠ 0 → (s.onceValue x f f.a (sigOf (.sleep f) f).a).toNat = n → ∃ t : State, exec (.sleep f) s = .next t
            ∧ t.holdOf x.g = some (.sleep (s.clock + n))
            ∧ (∀ m ∈ x.members, t.lane? m.ref = (s.lane? m.ref).map fun l => { l with npc := nextPc f x.pc })
            ∧ ∃ wgs ctl cores seq, t = { s with wgs := wgs, ctl := ctl, cores := cores, seq := seq })

/-- SREAD reads each special register, and SWRITE writes each that R332 lets it write (R332 to R334, R487, R488). -/
def Obligations.SpecialRegisters : Prop := SpecialReadComplete ∧ SpecialWriteComplete ∧ CausalWriteComplete

/-- LD, LDV, ST, STV and LINE.ZERO issue their accesses (R234, R237, R239). -/
def Obligations.LoadsAndStores : Prop := LoadsComplete ∧ StoresComplete

/-- ATOM, ATOMV, CAS, RED, REDV, SWARM, TEX and TLD issue their accesses (R240 to R244, R249 to R252, R265). -/
def Obligations.AtomicsAndTextures : Prop := AtomicsComplete ∧ TextureReadsComplete

/-- LDS, FENCE, LINE.PROBE and PREF complete (R235 to R237, R247). -/
def Obligations.OrderedReads : Prop := OrderedComplete ∧ PrefetchComplete

/-- WAITW and JWAIT (R245, R262): a lane whose test holds has its value and goes on; any other waits. SWWAIT (R267): where the
generation has passed in every lane they go on with it; else their group waits whole. -/
def Obligations.HeldReads : Prop :=
  HeldCompletes .waitw false (fun s _ x => s.noneInFlight x) waitwOutcome
    ∧ HeldCompletes .swwait false (fun s _ x => s.noneInFlight x) swwaitOutcome
    ∧ SwwaitWaits
    ∧ HeldCompletes .jwait true noPremise jwaitOutcome

/-- REFORM and REFORM.HOME complete (R90, R93, R319). -/
def Obligations.Reforming : Prop := ReformsComplete ∧ ReformsHomeComplete

/-- LAUNCH (R335), where the header's bytes and those of the image it names pass their checks, the header is a legal one
and COUNT can grow: a launch is entered, COUNT is one more, and the members go on. -/
def Obligations.Launches : Prop :=
  ∀ f s x h v, CanIssue (.launch f) f true s x → s.actives x f ≠ [] → s.noneInFlight x →
    launchAddr s f x % 8 = 0 → firstBad (s.headerChks (s.check x.core x.ctx) (launchAddr s f x)) = none →
    h = Header.parse (s.bytesAt (s.headerChks (s.check x.core x.ctx) (launchAddr s f x))) →
    (h.dictVa ≠ 0 → firstBad [s.imageChk (s.check x.core x.ctx) h.dictVa.toNat] = none) →
    s.headersOk x.ctx h (s.imageChk (s.check x.core x.ctx) h.dictVa.toNat) = true →
    s.warp? x.wg x.warp = some v →
    cregCount (v.ureg (56 + (f.slotImm f.b).toNat)) < 0x3FFFFFFF →
    ∃ (t : State) (l : Launch) (c : Command), exec (.launch f) s = .next t
      ∧ t.launches = s.launches ++ [l] ∧ l.ctx = x.ctx ∧ l.header = h ∧ l.nextWg = 0 ∧ l.live = 0 ∧ l.refused = false
      ∧ l.origin = .launch c.id
      ∧ t.cmds = s.cmds ++ [c] ∧ c.ctx = x.ctx ∧ c.creg = (f.slotImm f.b).toNat ∧ c.scope = (if f.sc = .system then 6 else 5)
      ∧ (t.warp? x.wg x.warp).map Warp.uregs
          = some (setNth v.uregs (56 + (f.slotImm f.b).toNat) (v.ureg (56 + (f.slotImm f.b).toNat) + 1))
      ∧ MovedOn x f s t ∧ (∀ r, r ∉ x.members.map Member.ref → t.lane? r = s.lane? r)
      ∧ ∃ wgs ctl cores launches cmds seq,
          t = { s with wgs := wgs, ctl := ctl, cores := cores, launches := launches, cmds := cmds, seq := seq }

/-- DICTSW, DFENCE and DICTLD complete (R157, R163, R164, R324). -/
def Obligations.Dictionaries : Prop := DictSlotsComplete ∧ DictLoadsComplete

/-- BARA arrives, BARW waits, BARS does both (R253 to R257). -/
def Obligations.Barriers : Prop :=
  BarCompletes .bara true false ∧ BarCompletes .barw false true ∧ BarCompletes .bars true true ∧ ArrivalCounts

/-- JSET sets a target, and JSIGN, WLOAD, MMA and MMG sign (R95, R259 to R261, R351). -/
def Obligations.Convergence : Prop := JoinTargetsComplete ∧ SignsComplete

/-- TMOV, TSCL, TCVT, TLDT and TSTT complete (R364 to R368). -/
def Obligations.Tiles : Prop := TileMovesComplete ∧ TileConversionComplete ∧ TileMemoryComplete

/-- ACZ, ACRD, ACWR and ACST complete (R370 to R372). -/
def Obligations.Accumulators : Prop := AccumulatorRowsComplete ∧ AccumulatorStoreComplete

/-- CONVERGENCE_OP_COMPLETE (R95, R351 to R358): the operation of WLOAD latches the weights of the tile on every pane, that
of MMA replaces each pane's accumulator by its sum with the products; then the round is over, and its signers and the lanes
that wait for it go on. An operation that has run completes once its lanes' accesses have performed. -/
def Obligations.Rounds : Prop :=
  (∀ s wg j g c f w, RoundReady s wg j g c f → c.mop = 0x160 →
    (∀ p, p < 4 → p ∈ (c.signers.filterMap fun q => (g.warps[q.1]?).map Warp.pane)) →
    wloadWeights f.ty g.panes (slotNum f f.a) = some w →
    exec (.convergenceOpComplete wg j) s = .next
      (((s.updWg wg fun g => { g with panes := g.panes.map fun p : PaneState => { p with weights := some w } }).updConv wg j
        fun c => { c with ran := true, stopped := false }).completeRound wg j))
  ∧ (∀ s wg j g c f, RoundReady s wg j g c f → c.mop = 0x161 →
    (∀ n ∈ c.panes g, ∀ p, g.panes[n]? = some p → formatsMatch f.ty p.weights = true
      ∧ (f.ty = .oz8x4 → ∀ e ∈ p.side (slotNum f f.a), e.2 ≠ 255)) →
    exec (.convergenceOpComplete wg j) s = .next
      (((s.updWg wg fun h => { h with panes := accumulated f (c.panes g) h.panes }).updConv wg j
        fun c => { c with ran := true, stopped := false }).completeRound wg j))
  ∧ ∀ s wg j c, s.conv? wg j = some c → c.filled ≠ 0 → c.ran = true →
    exec (.convergenceOpComplete wg j) s = .next (if (c.lanes wg).all (fun r => s.quiet r false) then s.completeRound wg j else s)

/-- POST (R425), by lanes that are helpers or shade, each alone, a pixel of a live target they have not posted to: the fragment takes the
method, the coverage and the values, and what is ready is applied. -/
def Obligations.Posts : Prop :=
  ∀ f s x, CanIssue (.post f) f false s x → IssueOk s x →
    (∀ a ∈ s.actives x f, (s.argsOf x f (sigOf (.post f) f) a).isSome
      ∧ (a.lane.helper = true ∨ ∃ p t, a.lane.pixel = some p ∧ p.posted = false ∧ s.target? x.ctx p.target = some t
        ∧ (f.slotImm f.c).toNat < t.methods.length)) →
    (∀ a ∈ s.actives x f, ∀ b ∈ s.actives x f, ∀ p q, a.lane.helper = false → b.lane.helper = false → a.lane.pixel = some p →
      b.lane.pixel = some q → p.cmd = q.cmd → p.psn = q.psn → p.xy = q.xy → a = b) →
    ∃ t : State, exec (.post f) s = .next (t.settle.wakeSettled x.ctx)
      ∧ (∀ a ∈ s.actives x f, t.lane? a.m.ref = some { a.lane with
            pc := nextPc f x.pc
            pixel := if a.lane.helper then a.lane.pixel else a.lane.pixel.map fun p => { p with posted := true } })
      ∧ (∀ m ∈ x.members, m ∉ (s.actives x f).map Act.m →
          t.lane? m.ref = (s.lane? m.ref).map fun l => { l with pc := nextPc f x.pc })
      ∧ (∀ r, r ∉ x.members.map Member.ref → t.lane? r = s.lane? r)
      ∧ (∀ a ∈ s.actives x f, ∀ (p : Pixel) (q : Target) (n : Nat) (fr : Fragment), a.lane.helper = false → a.lane.pixel = some p → s.target? x.ctx p.target = some q →
          q.frags[n]? = some fr → fr.st = .opened → fr.cmd = p.cmd → fr.psn = p.psn → fr.x = p.xy.toNat % 65536 →
          fr.y = p.xy.toNat / 65536 →
          (t.target? x.ctx p.target).bind (fun q' => q'.frags[n]?) = some { fr with
            st := if postCover s f x a p = 0 ∨ q.isDamaged fr.x fr.y = true then .done
              else .posted (f.slotImm f.c).toNat (wordOf (postCover s f x a p)) (postWords s f x a) })
      ∧ ∃ wgs ctl cores contexts seq, t = { s with wgs := wgs, ctl := ctl, cores := cores, contexts := contexts, seq := seq }

/-- OCALL, OREAD and TSAMP complete (R427, R437, R443, R444). -/
def Obligations.ObjectAccess : Prop := ObjectCallComplete ∧ ObjectReadsComplete

/-- In an invocation, instructions compute, read and write its window, branch and end it (R309, R310, R420 to R423, R439 to R441). -/
def Obligations.Methods : Prop := MethodValuesComplete ∧ MethodControlComplete ∧ MethodEdgesComplete

/-- CTXSV, CTXRS, TLBI, DICTRD, LANEX, OSTAT and PARKR complete (R337 to R341, R446). -/
def Obligations.Privileged : Prop := SaveCommandsComplete ∧ InvalidationsComplete ∧ PrivilegedReadsComplete

/-- LOAD_DATA_LAND, WRITE_PERFORM and WRITE_QUEUE_APPLY (R128, R145, R242, R243, R288). -/
def Obligations.Performing : Prop := AccessPerforms .loadDataLand true ∧ AccessPerforms .writePerform false ∧ QueueApplies

/-- TRANSLATION_COMPLETE, PAGE_ZEROING_COMPLETE and MAPPING_CHANGE_COMPLETE (R119, R120, R124). -/
def Obligations.Translations : Prop := WalkCompletes ∧ ZeroingCompletes ∧ ChangeCompletes

/-- WAITW_REREAD, SYNC_EXTWAIT, SLEEP_EXPIRY and COMPLETION_REGISTER_WRITE (R245, R246, R274, R330). -/
def Obligations.WaitsEnd : Prop := RereadCompletes ∧ ExtwaitRaises ∧ SleepExpires ∧ RegisterWriteCompletes

/-- HATCH_ARG_STORE and the nine operations a GO may name (R268 to R271). -/
def Obligations.Window : Prop :=
  ArgumentStores ∧ Stages .copyLinear .linear ∧ Stages .copyStrided .strided ∧ Stages .copyFill .fill ∧ Stages .nmLoad .nmLoad
    ∧ Stages .nmRun .nmRun ∧ Stages .draw .draw ∧ Stages .invoke .invoke ∧ Stages .readout .readout ∧ Stages .queuePush .push

/-- GO_ACCEPT (R272): a staged GO that passes its checks again, once its lane's accesses have performed and an instance
takes it, becomes a command; COUNT of its register rises by its total, and the stage is empty. -/
def Obligations.Acceptance : Prop :=
  ∀ s wg w engine g v q p, s.wg? wg = some g → s.warp? wg w = some v → v.stage = some q → s.windowRuns g = true →
    s.instanceOk g.core q engine = true → s.quiet ⟨wg, w, q.lane⟩ false = true →
    (engineOp q.go = some .push → (s.pushQueue g.ctx q.a3).any ReplayObj.full = false) →
    s.goCheck g w q = .ok p → goReaches s g q p.total → 56 + goCreg q.go < v.uregs.length →
    ∃ (t : State) (c : Command), exec (.goAccept wg w engine) s = .next ((t.finishWindows wg w).settle)
      ∧ t.warp? wg w = some { v with
          stage := none, uregs := setNth v.uregs (56 + goCreg q.go) (v.ureg (56 + goCreg q.go) + wordOf p.total) }
      ∧ (∀ a b, ¬(a = wg ∧ b = w) → t.warp? a b = s.warp? a b)
      ∧ t.cmds = s.cmds ++ [c] ∧ c.id = s.seq ∧ c.ctx = g.ctx ∧ c.lane = ⟨wg, w, q.lane⟩ ∧ c.launch = g.launch
      ∧ c.cls = goClass q.go ∧ c.scope = goScope q.go ∧ c.acq = goAcq q.go ∧ c.rel = goRel q.go ∧ c.creg = goCreg q.go
      ∧ c.sync = goSync q.go ∧ c.total = p.total ∧ c.fallen = 0 ∧ c.err = false
      ∧ (engineOp q.go ≠ some .draw → t.launches = s.launches ∧ c.ue = false ∧ (engineOp q.go ≠ some .push → t.mem = s.mem))
      ∧ ∃ wgs ctl cmds seq contexts mem poison launches, t = { s with
          wgs := wgs, ctl := ctl, cmds := cmds, seq := seq, contexts := contexts, mem := mem, poison := poison, launches := launches }

/-- COPY_PORTION_LAND, NM_LOAD_PART, NM_WAVE, ORDER_TOKEN_ISSUE, FRAGMENT_APPLY and INVOKE_APPLY. -/
def Obligations.Engines : Prop :=
  CopyLands ∧ CopySends ∧ ReadoutLands ∧ LoadPartLands ∧ WaveLands ∧ TokenIssues ∧ FragmentApplies ∧ InvokeApplies

/-- WORKGROUP_ADMISSION, GANG_RESERVATION, GANG_AGED, BIN_DRAW, DICT_SLOT_LOAD and DICT_SLOT_UE. -/
def Obligations.Scheduling : Prop :=
  AdmissionCompletes ∧ ReservationCompletes ∧ GangAges ∧ DrawCompletes ∧ SlotLoads ∧ SlotFails

/-- HANDLER_ENTRY and HANG_DETECTED. -/
def Obligations.Exceptions : Prop := HandlerEnters ∧ HangDetects

/-- PREEMPT_REQUEST, COOPERATIVE_SAVE, PRE_FORCED, CONTEXT_SAVE_COMPLETE, RESTORE_COMPLETE and CEX_REMAIN_TICK. -/
def Obligations.Preemption : Prop :=
  PreemptRequested ∧ GangSaves ∧ ContextSaves ∧ ContextRestores ∧ ExperimentTicks

/-- REPLAY_APPLY, REPLICA_REBUILD and REPLICA_UE. -/
def Obligations.Replay : Prop := ReplayApplies ∧ ReplicaRebuilds ∧ ReplicaFails

/-- CORE_UE, VAULT_LINE_UE, HBM_CHUNK_UE, BMU_FAULT, MACHINE_CHECK, CLOCK_THROTTLE, EVENT_RETIRE and HOST_EVENT_ANSWER. -/
def Obligations.Failures : Prop := CoreFails ∧ LinesFail ∧ BankFails ∧ PackageFails ∧ EventsEnd

/-- HOST_QUEUE_PUSH, HOST_GO_ACCEPT, REGISTER_WRITE, DRESET, HOST_BAR2_READ and HOST_BAR2_WRITE. -/
def Obligations.HostLink : Prop := HostPushes ∧ RegistersWrite ∧ DeviceResets ∧ MemoryWindow

/-- ATTACH, DETACH, HALT, RESUME, STEP, SNAPSHOT, DICT and TRACE (R478 to R486; the bodies of SNAPSHOT's blocks are log 9's). -/
def Obligations.DebugWindow : Prop := Attaches ∧ HaltsAndResumes ∧ DebugWrites

/-- ETH_WRITE_FRAME, ETH_READ_REQUEST, ETH_FRAME_DISCARD, ETH_ACKNOWLEDGE, ETH_READ_DATA, RESEND_TIMEOUT, RESET and
ATTESTATION_REPORT. -/
def Obligations.LinksAndBoot : Prop := FramesArrive ∧ AcknowledgesComplete ∧ ReadDataComplete ∧ ResendsComplete ∧ Boots

/-- The calls of the Firmware Interface, whose forms are the model's (log 13), with the effects the rules give. -/
def Obligations.FirmwareCalls : Prop := SettingsChange ∧ ContextsChange ∧ ObjectsMade ∧ ObjectsGo ∧ MemoryMaps

/-- R198: elements are read unsigned, or as two's complement where the type is an I type; the exact result of IADD, ISUB,
IMUL, IMAD, ISHA and IABS is reduced modulo 2^w, or with SAT to the nearest bound of the element's range. -/
def Obligations.IntegerReduction : Prop :=
  (∀ ty n, n < 2 ^ elemBits ty →
    typed ty n = if ty = .i32 ∨ ty = .i64 ∨ ty = .i8x4 ∨ ty = .i16x2 then (BitVec.ofNat (elemBits ty) n).toInt else n)
  ∧ ∀ e ∈ exactOps, ∀ f x i, i < tyElems f.ty →
      (f.sat = false → (elem (elemBits f.ty) (e.1 f x).v i : Int) = e.2 f x i % 2 ^ elemBits f.ty)
      ∧ (f.sat = true → typed f.ty (elem (elemBits f.ty) (e.1 f x).v i) = max (tyMin f.ty) (min (tyMax f.ty) (e.2 f x i)))

/-- R321: ELECT writes 1 in the active lane of lowest position, and 0 in every other active lane. -/
def Obligations.ElectLowest : Prop :=
  ∀ f s x, CanIssue (.elect f) f true s x → IssueOk s x → x.members.Pairwise (fun a b => a.pos < b.pos) →
    f.d.cls = .predicate →
    ∃ t, exec (.elect f) s = .next t ∧ ∀ a ∈ s.actives x f, (t.lane? a.m.ref).map Lane.preds
      = some (a.lane.setPred (slotNum f f.d) (decide (∀ b ∈ s.actives x f, a.m.pos ≤ b.m.pos))).preds

/-- R226: MATCH writes in each contributor a mask whose bit m is set when lane m is a contributor and its a equals that of
the lane in every bit. -/
def Obligations.MatchMask : Prop :=
  ∀ f s x, CanIssue (.matchw f) f true s x → IssueOk s x → f.d.cls = .vector → f.nwb = false →
    (∀ a ∈ s.actives x f, ((s.env x).srcAt x f (sigOf (.matchw f) f) a.m.pos).isSome) →
    DestOk s x f (sigOf (.matchw f) f) (s.actives x f).length →
    ∃ t, exec (.matchw f) s = .next t ∧ ∀ a ∈ s.actives x f, ∀ reg, (dstRegs f (sigOf (.matchw f) f) x.wbase)[0]? = some reg →
      ∀ m, m < 32 → ((t.readReg x reg a.m.pos).getLsbD m = true ↔ ∃ b ∈ s.actives x f, b.m.pos = m
        ∧ (s.env x).srcAt x f (sigOf (.matchw f) f) m = (s.env x).srcAt x f (sigOf (.matchw f) f) a.m.pos)

/-- R365 and R370: TMOV copies the 64 rows and the side file of ta into td, without effect on the tiles where td is ta; ACZ
writes +0 to every element of acd. -/
def Obligations.TileRules : Prop :=
  (∀ f s x g p, CanIssue (.tmov f) f true s x → s.actives x f ≠ [] →
    matrixFree (fun f => [(.tile (slotNum f f.d), true), (.tile (slotNum f f.a), false)]) s f x →
    s.wg? x.wg = some g → g.panes[x.pane]? = some p → slotNum f f.d < p.tiles.length → slotNum f f.d < p.sides.length →
    ∃ t, exec (.tmov f) s = .next t
      ∧ (∀ r, r < 64 → tileRow ((t.pane x.wg x.pane).tile (slotNum f f.d)) r = tileRow (p.tile (slotNum f f.a)) r)
      ∧ (∀ i, Cells.read ((t.pane x.wg x.pane).side (slotNum f f.d)) i = Cells.read (p.side (slotNum f f.a)) i)
      ∧ (slotNum f f.d = slotNum f f.a → t.pane x.wg x.pane = p))
  ∧ ∀ f s x, CanIssue (.acz f) f true s x → s.actives x f ≠ [] → matrixFree (fun f => [(.acc (slotNum f f.d), true)]) s f x →
    ∃ t, exec (.acz f) s = .next t ∧ ∀ i, Cells.read ((t.pane x.wg x.pane).acc (slotNum f f.d)) i = 0

/-- R46, of a lane's store: one that covers a poisoned line whole clears its poison; any other leaves it in place. -/
def Obligations.StorePoison : Prop :=
  ∀ s n a bs, s.pend.find? (fun b => b.seq = n) = some a → a.kind = .store bs → s.mayPerform a = true →
    ∃ t, exec (.writePerform n) s = .next t
      ∧ ∀ line, line ∈ t.poison ↔ line ∈ s.poison ∧ ¬(a.phys ≤ 64 * line ∧ 64 * line + 64 ≤ a.phys + bs.length)

/-- R76 and R348, of a launch without gangs that no DRAW made: a workgroup at its launch, each lane at the ENTRY and
8 × WBASE0 of its role, its predicates false and its stack empty; no vector register mapped, every uniform register 0, both
dictionary slots DICTSLOT; tiles, side files and accumulators 0, no weights. -/
def Obligations.LaunchState : Prop :=
  ∀ s id core sbase places l args, s.launch? id = some l → l.lost = [] → l.header.flags.getLsbD 1 = false →
    (∀ c, l.origin ≠ .draw c) → l.waiting = true → s.dispatches l.ctx = true → s.hostMode l.ctx 2 = false →
    s.admissionOpen l core sbase places = true → places.length = l.header.warpRoles.length →
    s.admissionReads l.ctx l.header (s.loadSlots core l.ctx l.header != []) = .ok args →
    ∃ (t : State) (g : Workgroup), exec (.workgroupAdmission id core sbase places) s = .next t ∧ t.wgs = s.wgs ++ [g]
      ∧ (∀ (w n : Nat) (r : Role), l.header.warpRoles[w]? = some (n, r) → ∃ v : Warp, g.warps[w]? = some v ∧ v.rows = [] ∧ v.active = r.dictslot
        ∧ v.pending = r.dictslot ∧ v.lanes.length = 32 ∧ (∀ k, k < 64 → v.ureg k = 0)
        ∧ ∀ k ∈ v.lanes, k.pc = r.entry ∧ k.wbase = 8 * r.wbase0 ∧ (∀ p, p < 7 → k.preds.getLsbD p = false) ∧ k.stack = [])
      ∧ ∀ p : Nat, p < 4 → ∃ q : PaneState, g.panes[p]? = some q ∧ q.weights = none
        ∧ ∀ n i, Cells.read (q.tile n) i = 0 ∧ Cells.read (q.side n) i = 0 ∧ Cells.read (q.acc n) i = 0

/-- R42: MODE is written only while its context is not resident; a write while it is resident is refused and leaves it
unchanged. The call, its answers 1 and 0 and its need of a booted firmware are log 13's form. -/
def Obligations.ModeWrites : Prop :=
  ∀ s ctx c v, s.booted = true → s.ctx? ctx = some c →
    ∃ t : State, exec (.modeWrite ctx v) s = .next t ∧ t.replyWord = (if c.resident then 0 else 1)
      ∧ (t.ctx? ctx).map Context.mode = some (if c.resident then c.mode else v &&& 0x3F)

/-- R154: the undefined template is MOP 0x3FF with every other bit 0; an image entry with that MOP is stored as the
undefined template, and is not counted as rejected unless its line is poisoned or unreadable (R158). -/
def Obligations.UndefinedEntries : Prop :=
  undefinedTemplate = BitVec.ofNat 128 (0x3FF * 2 ^ 118)
  ∧ (∀ s j unreadable k line, j.lines[k]? = some line →
    (templateMop (BitVec.ofNat 128 (Memory.le s.mem line 16))).toNat = 0x3FF →
    (loadEntries s j unreadable).1[k]? = some (j.first + k, undefinedTemplate))
  ∧ ∀ s j unreadable, (loadEntries s j unreadable).2 = (j.lines.filter (isRejected s j.priv unreadable)).length

/-- A decode fault is raised in every lane of the issue group, whatever its guard, and the instruction has no other effect
(R132, R135); a privileged instruction has one outside privileged mode (R161). -/
def Obligations.DecodeFaults : Prop :=
  (∀ i f c s x, i.form? = some f → s.curIss? = some x → decodeFault i f (s.limits x) = some c →
    exec i s = .next ((s.setHold x.g none).raise (x.members.map fun m => ⟨m.ref, c, decodeDetail f c⟩)))
  ∧ ∀ i f lim, privilegedMop (mopOf i) = true → lim.priv = false → decodeFault i f lim ≠ none

/-- Taking an exception (R374 to R381, R383, R398): a vectored cause halts the workgroup of its lane; one in privileged mode,
or without a TRAPBASE, kills the context, of which no command or record is left, and no other context changes. That no workgroup of
it is left is log 18's choice: R398 makes its lanes EXITED. -/
def Obligations.ExceptionTaken : Prop :=
  (∀ s fault g v c, s.isControl fault.lane.wg = false → s.wg? fault.lane.wg = some g → g.warps[fault.lane.warp]? = some v → s.ctx? g.ctx = some c →
    (isDebugCause fault.cause = true → c.debug = none) →
    (v.privileged = false → g.trap = none → c.trapbase ≠ 0 → Vectored fault v s (s.raise [fault]))
    ∧ (v.privileged = true ∨ (g.trap = none ∧ c.trapbase = 0) →
      s.raise [fault] = s.killContext g.ctx fault.cause (some fault)))
  ∧ ∀ (s t : State) ctx c cause fault, s.ctx? ctx = some c → t = s.killContext ctx cause fault →
      t.wgs = s.wgs.filter (fun g => g.ctx != ctx) ∧ t.cmds = s.cmds.filter (fun k => k.ctx != ctx)
      ∧ t.records = s.records.filter (fun r => r.ctx != ctx)
      ∧ t.ctx? ctx = none
      ∧ (∃ k ∈ t.contexts, k.id = ctx ∧ k.killed = true ∧ k.resident = false ∧ k.eventSeq = (c.eventSeq + 1) % 2 ^ 32)
      ∧ ∀ n, n ≠ ctx → t.ctx? n = s.ctx? n

/-- The words and templates of four instructions, written out from R129, R151, R152 and R159, are read as them. -/
def Obligations.SampleWords : Prop :=
  -- EXIT: index 1, every other bit 0
  (∃ f, decode 0x00400000 (fun _ => undefinedTemplate) 0 = .ok (.exit f) ∧ f.dix = 1 ∧ f.pg = 7 ∧ f.pgn = false)
  -- BRA.UNIFORM by −2 words: index 6, FA:FB all ones but the lowest bit
  ∧ (∃ f, decode (6#10 ++ 0#1 ++ 0#7 ++ 0x7F#7 ++ 0x7E#7) (fun _ => undefinedTemplate) 0 = .ok (.braUniform f)
      ∧ f.immValue = -2 ∧ f.hint = .uniform)
  -- MOVI v(WBASE + 5) := 0x12345678: index 10, FD 5, the literal
  ∧ (∃ f, decode (10#10 ++ 0#1 ++ 5#7 ++ 0#7 ++ 0#7) (fun _ => undefinedTemplate) 0x12345678 = .ok (.movi f)
      ∧ f.immValue = 0x12345678 ∧ f.d = ⟨.vector, .fd, false, 0⟩ ∧ f.fd = 5 ∧ f.a = ⟨.immediate, .fixed, false, 0⟩)
  -- IADD.I32 v(FD) := v(FA) + v(FB) at index 0x155, MOP 0x040, MOD 0, TY 2, PG 7
  ∧ ∃ f, decode (0x155#10 ++ 0#1 ++ 1#7 ++ 2#7 ++ 3#7)
        (fun _ => 0x040#10 ++ 0#6 ++ 2#4 ++ 0#3 ++ 0#2 ++ 0#2 ++ 0#1 ++ 7#3 ++ 0#1 ++ 0x2800#16 ++ 0x3000#16 ++ 0x3800#16 ++ 0#16 ++ 0#32) 0
        = .ok (.iadd f)
      ∧ f.ty = .i32 ∧ f.rm = .rne ∧ f.sat = false ∧ f.d = ⟨.vector, .fd, false, 0⟩ ∧ f.a = ⟨.vector, .fa, false, 0⟩
      ∧ f.b = ⟨.vector, .fb, false, 0⟩ ∧ f.c = Slot.none ∧ f.fd = 1 ∧ f.fa = 2 ∧ f.fb = 3

/-- No word decodes to an instruction of a MOP that is not assigned: the indices 0x010 to 0x03F are reserved (R132, R159),
and an entry of such a MOP is refused (R160, R161). -/
def Obligations.UnassignedRefused : Prop :=
  (∀ w entry lit, 0x010 ≤ (wordDix w).toNat → (wordDix w).toNat < 0x040 → decode w entry lit = .error .reserved)
  ∧ (∀ w entry lit, 0x040 ≤ (wordDix w).toNat → assignedMop (templateMop (entry (wordDix w).toNat)).toNat = false →
    decode w entry lit = .error .undefined)
  ∧ ∀ w entry lit i, decode w entry lit = .ok i → assignedMop (mopOf i) = true

/-- Decoding what a well-formed instruction of a lane encodes gives the instruction back, with every field (R129, R151). -/
def Obligations.EncodeDecode : Prop :=
  ∀ i e entry, WellFormed i = true → encode i = some e → entry (wordDix e.word).toNat = e.template →
    decode e.word entry e.literal = .ok i

/-- What a word decodes to is well-formed and encodes to that word, its template and its literal, where its template is a
valid one (R153). -/
def Obligations.DecodeEncode : Prop :=
  ∀ w entry lit i, decode w entry lit = .ok i →
    (0x040 ≤ (wordDix w).toNat → templateValid true (entry (wordDix w).toNat) = true) →
    WellFormed i = true ∧ encode i = some {
      template := if (wordDix w).toNat < 0x040 then fixedTemplate (wordDix w).toNat else entry (wordDix w).toNat
      word := w
      literal := if takesLiteral w entry then lit else 0 }

/-- A step performs the next action of the agenda, then what the package does of itself (log 1): an issue executes the instruction
its words decode to, once what stands before it in its group is done (R130 to R132); an event, and an instruction of the firmware of
a control core, execute theirs (R18, log 13); a tick passes cycles. With nothing on the agenda it performs the default action. -/
def Obligations.StepRuns : Prop :=
  (∀ s g rest u v x w lit i, s.agenda = .issue g :: rest → u = { s with agenda := rest } → u.iss? g = some x →
    u.canIssue x = true → u.beforeFetch x = .ok v → v.matchesApart x = false → v.matches x 1 = [] → v.fetchAt x x.pc = .word w → LiteralAt v x w lit →
    v.decodeIn x w lit = .ok i →
    step s = andAfter (nextWith (fun t => if t.retries x = true then v.notIssued x t else t.afterIssue x)
      (exec i (issuedFrom v x w lit))))
  ∧ (∀ s i rest, s.agenda = .event i :: rest → step s = andAfter (exec i { s with agenda := rest, cur := .none }))
  ∧ (∀ (s u : State) n i rest x q, s.agenda = .firmware n i :: rest → n < 8 → controlMop (mopOf i) = true →
    u = ({ s with agenda := rest } : State).withControl n → u.iss? (controlGroup n) = some x →
    u.groupOf x.g = some q → holdIssues q.hold = true → (u.lane? ⟨x.wg, 0, 0⟩).map Lane.issuing = some true →
    step s = andAfter (nextWith (fun t => if t.retries x = true then u.notIssued x t else t.afterControl n)
      (exec i { u with cur := .group x.g })))
  ∧ (∀ s n rest, s.agenda = .tick n :: rest → step s = .next (State.passCycles { s with agenda := rest } n).afterAction)
  ∧ ∀ s, s.agenda = [] → step s = andAfter (perform s.defaultAction (s.passCycles 1))

/-- Memory is canonical after reset. -/
def Obligations.ResetInv : Prop := State.reset.Inv

/-- Every step keeps memory canonical, from any state in which it is. -/
def Obligations.StepKeepsInv : Prop := ∀ s t : State, s.Inv → step s = .next t → t.Inv
end

