-- ==== Sys2Proof/Laws/State.lean ====
section
/-! SUPPORT. What each update of a part of the state leaves of its other fields. -/

namespace Sys2Proof.Machine

/-! ### State.updCtx -/

@[simp] theorem State.updCtx_clock (s : State) (id : Nat) (k : Context → Context) : (s.updCtx id k).clock = s.clock := rfl
@[simp] theorem State.updCtx_aclkStep (s : State) (id : Nat) (k : Context → Context) : (s.updCtx id k).aclkStep = s.aclkStep := rfl
@[simp] theorem State.updCtx_vclkStep (s : State) (id : Nat) (k : Context → Context) : (s.updCtx id k).vclkStep = s.vclkStep := rfl
@[simp] theorem State.updCtx_nmBanks (s : State) (id : Nat) (k : Context → Context) : (s.updCtx id k).nmBanks = s.nmBanks := rfl
@[simp] theorem State.updCtx_booted (s : State) (id : Nat) (k : Context → Context) : (s.updCtx id k).booted = s.booted := rfl
@[simp] theorem State.updCtx_bootFail (s : State) (id : Nat) (k : Context → Context) : (s.updCtx id k).bootFail = s.bootFail := rfl
@[simp] theorem State.updCtx_recovery (s : State) (id : Nat) (k : Context → Context) : (s.updCtx id k).recovery = s.recovery := rfl
@[simp] theorem State.updCtx_mcheck (s : State) (id : Nat) (k : Context → Context) : (s.updCtx id k).mcheck = s.mcheck := rfl
@[simp] theorem State.updCtx_fwCause (s : State) (id : Nat) (k : Context → Context) : (s.updCtx id k).fwCause = s.fwCause := rfl
@[simp] theorem State.updCtx_measure (s : State) (id : Nat) (k : Context → Context) : (s.updCtx id k).measure = s.measure := rfl
@[simp] theorem State.updCtx_mem (s : State) (id : Nat) (k : Context → Context) : (s.updCtx id k).mem = s.mem := rfl
@[simp] theorem State.updCtx_poison (s : State) (id : Nat) (k : Context → Context) : (s.updCtx id k).poison = s.poison := rfl
@[simp] theorem State.updCtx_l2 (s : State) (id : Nat) (k : Context → Context) : (s.updCtx id k).l2 = s.l2 := rfl
@[simp] theorem State.updCtx_walks (s : State) (id : Nat) (k : Context → Context) : (s.updCtx id k).walks = s.walks := rfl
@[simp] theorem State.updCtx_changes (s : State) (id : Nat) (k : Context → Context) : (s.updCtx id k).changes = s.changes := rfl
@[simp] theorem State.updCtx_records (s : State) (id : Nat) (k : Context → Context) : (s.updCtx id k).records = s.records := rfl
@[simp] theorem State.updCtx_pend (s : State) (id : Nat) (k : Context → Context) : (s.updCtx id k).pend = s.pend := rfl
@[simp] theorem State.updCtx_queue (s : State) (id : Nat) (k : Context → Context) : (s.updCtx id k).queue = s.queue := rfl
@[simp] theorem State.updCtx_cores (s : State) (id : Nat) (k : Context → Context) : (s.updCtx id k).cores = s.cores := rfl
@[simp] theorem State.updCtx_pipes (s : State) (id : Nat) (k : Context → Context) : (s.updCtx id k).pipes = s.pipes := rfl
@[simp] theorem State.updCtx_wgs (s : State) (id : Nat) (k : Context → Context) : (s.updCtx id k).wgs = s.wgs := rfl
@[simp] theorem State.updCtx_ctl (s : State) (id : Nat) (k : Context → Context) : (s.updCtx id k).ctl = s.ctl := rfl
@[simp] theorem State.updCtx_launches (s : State) (id : Nat) (k : Context → Context) : (s.updCtx id k).launches = s.launches := rfl
@[simp] theorem State.updCtx_cmds (s : State) (id : Nat) (k : Context → Context) : (s.updCtx id k).cmds = s.cmds := rfl
@[simp] theorem State.updCtx_windows (s : State) (id : Nat) (k : Context → Context) : (s.updCtx id k).windows = s.windows := rfl
@[simp] theorem State.updCtx_dbgWin (s : State) (id : Nat) (k : Context → Context) : (s.updCtx id k).dbgWin = s.dbgWin := rfl
@[simp] theorem State.updCtx_dbgWork (s : State) (id : Nat) (k : Context → Context) : (s.updCtx id k).dbgWork = s.dbgWork := rfl
@[simp] theorem State.updCtx_discards (s : State) (id : Nat) (k : Context → Context) : (s.updCtx id k).discards = s.discards := rfl
@[simp] theorem State.updCtx_rxFlows (s : State) (id : Nat) (k : Context → Context) : (s.updCtx id k).rxFlows = s.rxFlows := rfl
@[simp] theorem State.updCtx_txFlows (s : State) (id : Nat) (k : Context → Context) : (s.updCtx id k).txFlows = s.txFlows := rfl
@[simp] theorem State.updCtx_exported (s : State) (id : Nat) (k : Context → Context) : (s.updCtx id k).exported = s.exported := rfl
@[simp] theorem State.updCtx_ethOut (s : State) (id : Nat) (k : Context → Context) : (s.updCtx id k).ethOut = s.ethOut := rfl
@[simp] theorem State.updCtx_vectors (s : State) (id : Nat) (k : Context → Context) : (s.updCtx id k).vectors = s.vectors := rfl
@[simp] theorem State.updCtx_reply (s : State) (id : Nat) (k : Context → Context) : (s.updCtx id k).reply = s.reply := rfl
@[simp] theorem State.updCtx_replyBad (s : State) (id : Nat) (k : Context → Context) : (s.updCtx id k).replyBad = s.replyBad := rfl
@[simp] theorem State.updCtx_replyWord (s : State) (id : Nat) (k : Context → Context) : (s.updCtx id k).replyWord = s.replyWord := rfl
@[simp] theorem State.updCtx_report (s : State) (id : Nat) (k : Context → Context) : (s.updCtx id k).report = s.report := rfl
@[simp] theorem State.updCtx_agenda (s : State) (id : Nat) (k : Context → Context) : (s.updCtx id k).agenda = s.agenda := rfl
@[simp] theorem State.updCtx_cur (s : State) (id : Nat) (k : Context → Context) : (s.updCtx id k).cur = s.cur := rfl
@[simp] theorem State.updCtx_freeCount (s : State) (id : Nat) (k : Context → Context) : (s.updCtx id k).freeCount = s.freeCount := rfl
@[simp] theorem State.updCtx_seq (s : State) (id : Nat) (k : Context → Context) : (s.updCtx id k).seq = s.seq := rfl

/-! ### State.updCore -/

@[simp] theorem State.updCore_clock (s : State) (v : Nat) (k : Core → Core) : (s.updCore v k).clock = s.clock := by
  unfold State.updCore; split <;> rfl
@[simp] theorem State.updCore_aclkStep (s : State) (v : Nat) (k : Core → Core) : (s.updCore v k).aclkStep = s.aclkStep := by
  unfold State.updCore; split <;> rfl
@[simp] theorem State.updCore_vclkStep (s : State) (v : Nat) (k : Core → Core) : (s.updCore v k).vclkStep = s.vclkStep := by
  unfold State.updCore; split <;> rfl
@[simp] theorem State.updCore_nmBanks (s : State) (v : Nat) (k : Core → Core) : (s.updCore v k).nmBanks = s.nmBanks := by
  unfold State.updCore; split <;> rfl
@[simp] theorem State.updCore_booted (s : State) (v : Nat) (k : Core → Core) : (s.updCore v k).booted = s.booted := by
  unfold State.updCore; split <;> rfl
@[simp] theorem State.updCore_bootFail (s : State) (v : Nat) (k : Core → Core) : (s.updCore v k).bootFail = s.bootFail := by
  unfold State.updCore; split <;> rfl
@[simp] theorem State.updCore_recovery (s : State) (v : Nat) (k : Core → Core) : (s.updCore v k).recovery = s.recovery := by
  unfold State.updCore; split <;> rfl
@[simp] theorem State.updCore_mcheck (s : State) (v : Nat) (k : Core → Core) : (s.updCore v k).mcheck = s.mcheck := by
  unfold State.updCore; split <;> rfl
@[simp] theorem State.updCore_fwCause (s : State) (v : Nat) (k : Core → Core) : (s.updCore v k).fwCause = s.fwCause := by
  unfold State.updCore; split <;> rfl
@[simp] theorem State.updCore_measure (s : State) (v : Nat) (k : Core → Core) : (s.updCore v k).measure = s.measure := by
  unfold State.updCore; split <;> rfl
@[simp] theorem State.updCore_mem (s : State) (v : Nat) (k : Core → Core) : (s.updCore v k).mem = s.mem := by
  unfold State.updCore; split <;> rfl
@[simp] theorem State.updCore_poison (s : State) (v : Nat) (k : Core → Core) : (s.updCore v k).poison = s.poison := by
  unfold State.updCore; split <;> rfl
@[simp] theorem State.updCore_l2 (s : State) (v : Nat) (k : Core → Core) : (s.updCore v k).l2 = s.l2 := by
  unfold State.updCore; split <;> rfl
@[simp] theorem State.updCore_walks (s : State) (v : Nat) (k : Core → Core) : (s.updCore v k).walks = s.walks := by
  unfold State.updCore; split <;> rfl
@[simp] theorem State.updCore_changes (s : State) (v : Nat) (k : Core → Core) : (s.updCore v k).changes = s.changes := by
  unfold State.updCore; split <;> rfl
@[simp] theorem State.updCore_records (s : State) (v : Nat) (k : Core → Core) : (s.updCore v k).records = s.records := by
  unfold State.updCore; split <;> rfl
@[simp] theorem State.updCore_pend (s : State) (v : Nat) (k : Core → Core) : (s.updCore v k).pend = s.pend := by
  unfold State.updCore; split <;> rfl
@[simp] theorem State.updCore_queue (s : State) (v : Nat) (k : Core → Core) : (s.updCore v k).queue = s.queue := by
  unfold State.updCore; split <;> rfl
@[simp] theorem State.updCore_contexts (s : State) (v : Nat) (k : Core → Core) : (s.updCore v k).contexts = s.contexts := by
  unfold State.updCore; split <;> rfl
@[simp] theorem State.updCore_pipes (s : State) (v : Nat) (k : Core → Core) : (s.updCore v k).pipes = s.pipes := by
  unfold State.updCore; split <;> rfl
@[simp] theorem State.updCore_wgs (s : State) (v : Nat) (k : Core → Core) : (s.updCore v k).wgs = s.wgs := by
  unfold State.updCore; split <;> rfl
@[simp] theorem State.updCore_ctl (s : State) (v : Nat) (k : Core → Core) : (s.updCore v k).ctl = s.ctl := by
  unfold State.updCore; split <;> rfl
@[simp] theorem State.updCore_launches (s : State) (v : Nat) (k : Core → Core) : (s.updCore v k).launches = s.launches := by
  unfold State.updCore; split <;> rfl
@[simp] theorem State.updCore_cmds (s : State) (v : Nat) (k : Core → Core) : (s.updCore v k).cmds = s.cmds := by
  unfold State.updCore; split <;> rfl
@[simp] theorem State.updCore_windows (s : State) (v : Nat) (k : Core → Core) : (s.updCore v k).windows = s.windows := by
  unfold State.updCore; split <;> rfl
@[simp] theorem State.updCore_dbgWin (s : State) (v : Nat) (k : Core → Core) : (s.updCore v k).dbgWin = s.dbgWin := by
  unfold State.updCore; split <;> rfl
@[simp] theorem State.updCore_dbgWork (s : State) (v : Nat) (k : Core → Core) : (s.updCore v k).dbgWork = s.dbgWork := by
  unfold State.updCore; split <;> rfl
@[simp] theorem State.updCore_discards (s : State) (v : Nat) (k : Core → Core) : (s.updCore v k).discards = s.discards := by
  unfold State.updCore; split <;> rfl
@[simp] theorem State.updCore_rxFlows (s : State) (v : Nat) (k : Core → Core) : (s.updCore v k).rxFlows = s.rxFlows := by
  unfold State.updCore; split <;> rfl
@[simp] theorem State.updCore_txFlows (s : State) (v : Nat) (k : Core → Core) : (s.updCore v k).txFlows = s.txFlows := by
  unfold State.updCore; split <;> rfl
@[simp] theorem State.updCore_exported (s : State) (v : Nat) (k : Core → Core) : (s.updCore v k).exported = s.exported := by
  unfold State.updCore; split <;> rfl
@[simp] theorem State.updCore_ethOut (s : State) (v : Nat) (k : Core → Core) : (s.updCore v k).ethOut = s.ethOut := by
  unfold State.updCore; split <;> rfl
@[simp] theorem State.updCore_vectors (s : State) (v : Nat) (k : Core → Core) : (s.updCore v k).vectors = s.vectors := by
  unfold State.updCore; split <;> rfl
@[simp] theorem State.updCore_reply (s : State) (v : Nat) (k : Core → Core) : (s.updCore v k).reply = s.reply := by
  unfold State.updCore; split <;> rfl
@[simp] theorem State.updCore_replyBad (s : State) (v : Nat) (k : Core → Core) : (s.updCore v k).replyBad = s.replyBad := by
  unfold State.updCore; split <;> rfl
@[simp] theorem State.updCore_replyWord (s : State) (v : Nat) (k : Core → Core) : (s.updCore v k).replyWord = s.replyWord := by
  unfold State.updCore; split <;> rfl
@[simp] theorem State.updCore_report (s : State) (v : Nat) (k : Core → Core) : (s.updCore v k).report = s.report := by
  unfold State.updCore; split <;> rfl
@[simp] theorem State.updCore_agenda (s : State) (v : Nat) (k : Core → Core) : (s.updCore v k).agenda = s.agenda := by
  unfold State.updCore; split <;> rfl
@[simp] theorem State.updCore_cur (s : State) (v : Nat) (k : Core → Core) : (s.updCore v k).cur = s.cur := by
  unfold State.updCore; split <;> rfl
@[simp] theorem State.updCore_freeCount (s : State) (v : Nat) (k : Core → Core) : (s.updCore v k).freeCount = s.freeCount := by
  unfold State.updCore; split <;> rfl
@[simp] theorem State.updCore_seq (s : State) (v : Nat) (k : Core → Core) : (s.updCore v k).seq = s.seq := by
  unfold State.updCore; split <;> rfl

/-! ### State.updWg -/

@[simp] theorem State.updWg_clock (s : State) (id : Nat) (k : Workgroup → Workgroup) : (s.updWg id k).clock = s.clock := rfl
@[simp] theorem State.updWg_aclkStep (s : State) (id : Nat) (k : Workgroup → Workgroup) : (s.updWg id k).aclkStep = s.aclkStep := rfl
@[simp] theorem State.updWg_vclkStep (s : State) (id : Nat) (k : Workgroup → Workgroup) : (s.updWg id k).vclkStep = s.vclkStep := rfl
@[simp] theorem State.updWg_nmBanks (s : State) (id : Nat) (k : Workgroup → Workgroup) : (s.updWg id k).nmBanks = s.nmBanks := rfl
@[simp] theorem State.updWg_booted (s : State) (id : Nat) (k : Workgroup → Workgroup) : (s.updWg id k).booted = s.booted := rfl
@[simp] theorem State.updWg_bootFail (s : State) (id : Nat) (k : Workgroup → Workgroup) : (s.updWg id k).bootFail = s.bootFail := rfl
@[simp] theorem State.updWg_recovery (s : State) (id : Nat) (k : Workgroup → Workgroup) : (s.updWg id k).recovery = s.recovery := rfl
@[simp] theorem State.updWg_mcheck (s : State) (id : Nat) (k : Workgroup → Workgroup) : (s.updWg id k).mcheck = s.mcheck := rfl
@[simp] theorem State.updWg_fwCause (s : State) (id : Nat) (k : Workgroup → Workgroup) : (s.updWg id k).fwCause = s.fwCause := rfl
@[simp] theorem State.updWg_measure (s : State) (id : Nat) (k : Workgroup → Workgroup) : (s.updWg id k).measure = s.measure := rfl
@[simp] theorem State.updWg_mem (s : State) (id : Nat) (k : Workgroup → Workgroup) : (s.updWg id k).mem = s.mem := rfl
@[simp] theorem State.updWg_poison (s : State) (id : Nat) (k : Workgroup → Workgroup) : (s.updWg id k).poison = s.poison := rfl
@[simp] theorem State.updWg_l2 (s : State) (id : Nat) (k : Workgroup → Workgroup) : (s.updWg id k).l2 = s.l2 := rfl
@[simp] theorem State.updWg_walks (s : State) (id : Nat) (k : Workgroup → Workgroup) : (s.updWg id k).walks = s.walks := rfl
@[simp] theorem State.updWg_changes (s : State) (id : Nat) (k : Workgroup → Workgroup) : (s.updWg id k).changes = s.changes := rfl
@[simp] theorem State.updWg_records (s : State) (id : Nat) (k : Workgroup → Workgroup) : (s.updWg id k).records = s.records := rfl
@[simp] theorem State.updWg_pend (s : State) (id : Nat) (k : Workgroup → Workgroup) : (s.updWg id k).pend = s.pend := rfl
@[simp] theorem State.updWg_queue (s : State) (id : Nat) (k : Workgroup → Workgroup) : (s.updWg id k).queue = s.queue := rfl
@[simp] theorem State.updWg_contexts (s : State) (id : Nat) (k : Workgroup → Workgroup) : (s.updWg id k).contexts = s.contexts := rfl
@[simp] theorem State.updWg_cores (s : State) (id : Nat) (k : Workgroup → Workgroup) : (s.updWg id k).cores = s.cores := rfl
@[simp] theorem State.updWg_pipes (s : State) (id : Nat) (k : Workgroup → Workgroup) : (s.updWg id k).pipes = s.pipes := rfl
@[simp] theorem State.updWg_launches (s : State) (id : Nat) (k : Workgroup → Workgroup) : (s.updWg id k).launches = s.launches := rfl
@[simp] theorem State.updWg_cmds (s : State) (id : Nat) (k : Workgroup → Workgroup) : (s.updWg id k).cmds = s.cmds := rfl
@[simp] theorem State.updWg_windows (s : State) (id : Nat) (k : Workgroup → Workgroup) : (s.updWg id k).windows = s.windows := rfl
@[simp] theorem State.updWg_dbgWin (s : State) (id : Nat) (k : Workgroup → Workgroup) : (s.updWg id k).dbgWin = s.dbgWin := rfl
@[simp] theorem State.updWg_dbgWork (s : State) (id : Nat) (k : Workgroup → Workgroup) : (s.updWg id k).dbgWork = s.dbgWork := rfl
@[simp] theorem State.updWg_discards (s : State) (id : Nat) (k : Workgroup → Workgroup) : (s.updWg id k).discards = s.discards := rfl
@[simp] theorem State.updWg_rxFlows (s : State) (id : Nat) (k : Workgroup → Workgroup) : (s.updWg id k).rxFlows = s.rxFlows := rfl
@[simp] theorem State.updWg_txFlows (s : State) (id : Nat) (k : Workgroup → Workgroup) : (s.updWg id k).txFlows = s.txFlows := rfl
@[simp] theorem State.updWg_exported (s : State) (id : Nat) (k : Workgroup → Workgroup) : (s.updWg id k).exported = s.exported := rfl
@[simp] theorem State.updWg_ethOut (s : State) (id : Nat) (k : Workgroup → Workgroup) : (s.updWg id k).ethOut = s.ethOut := rfl
@[simp] theorem State.updWg_vectors (s : State) (id : Nat) (k : Workgroup → Workgroup) : (s.updWg id k).vectors = s.vectors := rfl
@[simp] theorem State.updWg_reply (s : State) (id : Nat) (k : Workgroup → Workgroup) : (s.updWg id k).reply = s.reply := rfl
@[simp] theorem State.updWg_replyBad (s : State) (id : Nat) (k : Workgroup → Workgroup) : (s.updWg id k).replyBad = s.replyBad := rfl
@[simp] theorem State.updWg_replyWord (s : State) (id : Nat) (k : Workgroup → Workgroup) : (s.updWg id k).replyWord = s.replyWord := rfl
@[simp] theorem State.updWg_report (s : State) (id : Nat) (k : Workgroup → Workgroup) : (s.updWg id k).report = s.report := rfl
@[simp] theorem State.updWg_agenda (s : State) (id : Nat) (k : Workgroup → Workgroup) : (s.updWg id k).agenda = s.agenda := rfl
@[simp] theorem State.updWg_cur (s : State) (id : Nat) (k : Workgroup → Workgroup) : (s.updWg id k).cur = s.cur := rfl
@[simp] theorem State.updWg_freeCount (s : State) (id : Nat) (k : Workgroup → Workgroup) : (s.updWg id k).freeCount = s.freeCount := rfl
@[simp] theorem State.updWg_seq (s : State) (id : Nat) (k : Workgroup → Workgroup) : (s.updWg id k).seq = s.seq := rfl

/-! ### State.updWarp -/

@[simp] theorem State.updWarp_clock (s : State) (wg w : Nat) (k : Warp → Warp) : (s.updWarp wg w k).clock = s.clock := rfl
@[simp] theorem State.updWarp_aclkStep (s : State) (wg w : Nat) (k : Warp → Warp) : (s.updWarp wg w k).aclkStep = s.aclkStep := rfl
@[simp] theorem State.updWarp_vclkStep (s : State) (wg w : Nat) (k : Warp → Warp) : (s.updWarp wg w k).vclkStep = s.vclkStep := rfl
@[simp] theorem State.updWarp_nmBanks (s : State) (wg w : Nat) (k : Warp → Warp) : (s.updWarp wg w k).nmBanks = s.nmBanks := rfl
@[simp] theorem State.updWarp_booted (s : State) (wg w : Nat) (k : Warp → Warp) : (s.updWarp wg w k).booted = s.booted := rfl
@[simp] theorem State.updWarp_bootFail (s : State) (wg w : Nat) (k : Warp → Warp) : (s.updWarp wg w k).bootFail = s.bootFail := rfl
@[simp] theorem State.updWarp_recovery (s : State) (wg w : Nat) (k : Warp → Warp) : (s.updWarp wg w k).recovery = s.recovery := rfl
@[simp] theorem State.updWarp_mcheck (s : State) (wg w : Nat) (k : Warp → Warp) : (s.updWarp wg w k).mcheck = s.mcheck := rfl
@[simp] theorem State.updWarp_fwCause (s : State) (wg w : Nat) (k : Warp → Warp) : (s.updWarp wg w k).fwCause = s.fwCause := rfl
@[simp] theorem State.updWarp_measure (s : State) (wg w : Nat) (k : Warp → Warp) : (s.updWarp wg w k).measure = s.measure := rfl
@[simp] theorem State.updWarp_mem (s : State) (wg w : Nat) (k : Warp → Warp) : (s.updWarp wg w k).mem = s.mem := rfl
@[simp] theorem State.updWarp_poison (s : State) (wg w : Nat) (k : Warp → Warp) : (s.updWarp wg w k).poison = s.poison := rfl
@[simp] theorem State.updWarp_l2 (s : State) (wg w : Nat) (k : Warp → Warp) : (s.updWarp wg w k).l2 = s.l2 := rfl
@[simp] theorem State.updWarp_walks (s : State) (wg w : Nat) (k : Warp → Warp) : (s.updWarp wg w k).walks = s.walks := rfl
@[simp] theorem State.updWarp_changes (s : State) (wg w : Nat) (k : Warp → Warp) : (s.updWarp wg w k).changes = s.changes := rfl
@[simp] theorem State.updWarp_records (s : State) (wg w : Nat) (k : Warp → Warp) : (s.updWarp wg w k).records = s.records := rfl
@[simp] theorem State.updWarp_pend (s : State) (wg w : Nat) (k : Warp → Warp) : (s.updWarp wg w k).pend = s.pend := rfl
@[simp] theorem State.updWarp_queue (s : State) (wg w : Nat) (k : Warp → Warp) : (s.updWarp wg w k).queue = s.queue := rfl
@[simp] theorem State.updWarp_contexts (s : State) (wg w : Nat) (k : Warp → Warp) : (s.updWarp wg w k).contexts = s.contexts := rfl
@[simp] theorem State.updWarp_cores (s : State) (wg w : Nat) (k : Warp → Warp) : (s.updWarp wg w k).cores = s.cores := rfl
@[simp] theorem State.updWarp_pipes (s : State) (wg w : Nat) (k : Warp → Warp) : (s.updWarp wg w k).pipes = s.pipes := rfl
@[simp] theorem State.updWarp_launches (s : State) (wg w : Nat) (k : Warp → Warp) : (s.updWarp wg w k).launches = s.launches := rfl
@[simp] theorem State.updWarp_cmds (s : State) (wg w : Nat) (k : Warp → Warp) : (s.updWarp wg w k).cmds = s.cmds := rfl
@[simp] theorem State.updWarp_windows (s : State) (wg w : Nat) (k : Warp → Warp) : (s.updWarp wg w k).windows = s.windows := rfl
@[simp] theorem State.updWarp_dbgWin (s : State) (wg w : Nat) (k : Warp → Warp) : (s.updWarp wg w k).dbgWin = s.dbgWin := rfl
@[simp] theorem State.updWarp_dbgWork (s : State) (wg w : Nat) (k : Warp → Warp) : (s.updWarp wg w k).dbgWork = s.dbgWork := rfl
@[simp] theorem State.updWarp_discards (s : State) (wg w : Nat) (k : Warp → Warp) : (s.updWarp wg w k).discards = s.discards := rfl
@[simp] theorem State.updWarp_rxFlows (s : State) (wg w : Nat) (k : Warp → Warp) : (s.updWarp wg w k).rxFlows = s.rxFlows := rfl
@[simp] theorem State.updWarp_txFlows (s : State) (wg w : Nat) (k : Warp → Warp) : (s.updWarp wg w k).txFlows = s.txFlows := rfl
@[simp] theorem State.updWarp_exported (s : State) (wg w : Nat) (k : Warp → Warp) : (s.updWarp wg w k).exported = s.exported := rfl
@[simp] theorem State.updWarp_ethOut (s : State) (wg w : Nat) (k : Warp → Warp) : (s.updWarp wg w k).ethOut = s.ethOut := rfl
@[simp] theorem State.updWarp_vectors (s : State) (wg w : Nat) (k : Warp → Warp) : (s.updWarp wg w k).vectors = s.vectors := rfl
@[simp] theorem State.updWarp_reply (s : State) (wg w : Nat) (k : Warp → Warp) : (s.updWarp wg w k).reply = s.reply := rfl
@[simp] theorem State.updWarp_replyBad (s : State) (wg w : Nat) (k : Warp → Warp) : (s.updWarp wg w k).replyBad = s.replyBad := rfl
@[simp] theorem State.updWarp_replyWord (s : State) (wg w : Nat) (k : Warp → Warp) : (s.updWarp wg w k).replyWord = s.replyWord := rfl
@[simp] theorem State.updWarp_report (s : State) (wg w : Nat) (k : Warp → Warp) : (s.updWarp wg w k).report = s.report := rfl
@[simp] theorem State.updWarp_agenda (s : State) (wg w : Nat) (k : Warp → Warp) : (s.updWarp wg w k).agenda = s.agenda := rfl
@[simp] theorem State.updWarp_cur (s : State) (wg w : Nat) (k : Warp → Warp) : (s.updWarp wg w k).cur = s.cur := rfl
@[simp] theorem State.updWarp_freeCount (s : State) (wg w : Nat) (k : Warp → Warp) : (s.updWarp wg w k).freeCount = s.freeCount := rfl
@[simp] theorem State.updWarp_seq (s : State) (wg w : Nat) (k : Warp → Warp) : (s.updWarp wg w k).seq = s.seq := rfl

/-! ### State.updLane -/

@[simp] theorem State.updLane_clock (s : State) (r : LaneRef) (k : Lane → Lane) : (s.updLane r k).clock = s.clock := rfl
@[simp] theorem State.updLane_aclkStep (s : State) (r : LaneRef) (k : Lane → Lane) : (s.updLane r k).aclkStep = s.aclkStep := rfl
@[simp] theorem State.updLane_vclkStep (s : State) (r : LaneRef) (k : Lane → Lane) : (s.updLane r k).vclkStep = s.vclkStep := rfl
@[simp] theorem State.updLane_nmBanks (s : State) (r : LaneRef) (k : Lane → Lane) : (s.updLane r k).nmBanks = s.nmBanks := rfl
@[simp] theorem State.updLane_booted (s : State) (r : LaneRef) (k : Lane → Lane) : (s.updLane r k).booted = s.booted := rfl
@[simp] theorem State.updLane_bootFail (s : State) (r : LaneRef) (k : Lane → Lane) : (s.updLane r k).bootFail = s.bootFail := rfl
@[simp] theorem State.updLane_recovery (s : State) (r : LaneRef) (k : Lane → Lane) : (s.updLane r k).recovery = s.recovery := rfl
@[simp] theorem State.updLane_mcheck (s : State) (r : LaneRef) (k : Lane → Lane) : (s.updLane r k).mcheck = s.mcheck := rfl
@[simp] theorem State.updLane_fwCause (s : State) (r : LaneRef) (k : Lane → Lane) : (s.updLane r k).fwCause = s.fwCause := rfl
@[simp] theorem State.updLane_measure (s : State) (r : LaneRef) (k : Lane → Lane) : (s.updLane r k).measure = s.measure := rfl
@[simp] theorem State.updLane_mem (s : State) (r : LaneRef) (k : Lane → Lane) : (s.updLane r k).mem = s.mem := rfl
@[simp] theorem State.updLane_poison (s : State) (r : LaneRef) (k : Lane → Lane) : (s.updLane r k).poison = s.poison := rfl
@[simp] theorem State.updLane_l2 (s : State) (r : LaneRef) (k : Lane → Lane) : (s.updLane r k).l2 = s.l2 := rfl
@[simp] theorem State.updLane_walks (s : State) (r : LaneRef) (k : Lane → Lane) : (s.updLane r k).walks = s.walks := rfl
@[simp] theorem State.updLane_changes (s : State) (r : LaneRef) (k : Lane → Lane) : (s.updLane r k).changes = s.changes := rfl
@[simp] theorem State.updLane_records (s : State) (r : LaneRef) (k : Lane → Lane) : (s.updLane r k).records = s.records := rfl
@[simp] theorem State.updLane_pend (s : State) (r : LaneRef) (k : Lane → Lane) : (s.updLane r k).pend = s.pend := rfl
@[simp] theorem State.updLane_queue (s : State) (r : LaneRef) (k : Lane → Lane) : (s.updLane r k).queue = s.queue := rfl
@[simp] theorem State.updLane_contexts (s : State) (r : LaneRef) (k : Lane → Lane) : (s.updLane r k).contexts = s.contexts := rfl
@[simp] theorem State.updLane_cores (s : State) (r : LaneRef) (k : Lane → Lane) : (s.updLane r k).cores = s.cores := rfl
@[simp] theorem State.updLane_pipes (s : State) (r : LaneRef) (k : Lane → Lane) : (s.updLane r k).pipes = s.pipes := rfl
@[simp] theorem State.updLane_launches (s : State) (r : LaneRef) (k : Lane → Lane) : (s.updLane r k).launches = s.launches := rfl
@[simp] theorem State.updLane_cmds (s : State) (r : LaneRef) (k : Lane → Lane) : (s.updLane r k).cmds = s.cmds := rfl
@[simp] theorem State.updLane_windows (s : State) (r : LaneRef) (k : Lane → Lane) : (s.updLane r k).windows = s.windows := rfl
@[simp] theorem State.updLane_dbgWin (s : State) (r : LaneRef) (k : Lane → Lane) : (s.updLane r k).dbgWin = s.dbgWin := rfl
@[simp] theorem State.updLane_dbgWork (s : State) (r : LaneRef) (k : Lane → Lane) : (s.updLane r k).dbgWork = s.dbgWork := rfl
@[simp] theorem State.updLane_discards (s : State) (r : LaneRef) (k : Lane → Lane) : (s.updLane r k).discards = s.discards := rfl
@[simp] theorem State.updLane_rxFlows (s : State) (r : LaneRef) (k : Lane → Lane) : (s.updLane r k).rxFlows = s.rxFlows := rfl
@[simp] theorem State.updLane_txFlows (s : State) (r : LaneRef) (k : Lane → Lane) : (s.updLane r k).txFlows = s.txFlows := rfl
@[simp] theorem State.updLane_exported (s : State) (r : LaneRef) (k : Lane → Lane) : (s.updLane r k).exported = s.exported := rfl
@[simp] theorem State.updLane_ethOut (s : State) (r : LaneRef) (k : Lane → Lane) : (s.updLane r k).ethOut = s.ethOut := rfl
@[simp] theorem State.updLane_vectors (s : State) (r : LaneRef) (k : Lane → Lane) : (s.updLane r k).vectors = s.vectors := rfl
@[simp] theorem State.updLane_reply (s : State) (r : LaneRef) (k : Lane → Lane) : (s.updLane r k).reply = s.reply := rfl
@[simp] theorem State.updLane_replyBad (s : State) (r : LaneRef) (k : Lane → Lane) : (s.updLane r k).replyBad = s.replyBad := rfl
@[simp] theorem State.updLane_replyWord (s : State) (r : LaneRef) (k : Lane → Lane) : (s.updLane r k).replyWord = s.replyWord := rfl
@[simp] theorem State.updLane_report (s : State) (r : LaneRef) (k : Lane → Lane) : (s.updLane r k).report = s.report := rfl
@[simp] theorem State.updLane_agenda (s : State) (r : LaneRef) (k : Lane → Lane) : (s.updLane r k).agenda = s.agenda := rfl
@[simp] theorem State.updLane_cur (s : State) (r : LaneRef) (k : Lane → Lane) : (s.updLane r k).cur = s.cur := rfl
@[simp] theorem State.updLane_freeCount (s : State) (r : LaneRef) (k : Lane → Lane) : (s.updLane r k).freeCount = s.freeCount := rfl
@[simp] theorem State.updLane_seq (s : State) (r : LaneRef) (k : Lane → Lane) : (s.updLane r k).seq = s.seq := rfl

/-! ### State.updLaunch -/

@[simp] theorem State.updLaunch_clock (s : State) (id : Nat) (k : Launch → Launch) : (s.updLaunch id k).clock = s.clock := rfl
@[simp] theorem State.updLaunch_aclkStep (s : State) (id : Nat) (k : Launch → Launch) : (s.updLaunch id k).aclkStep = s.aclkStep := rfl
@[simp] theorem State.updLaunch_vclkStep (s : State) (id : Nat) (k : Launch → Launch) : (s.updLaunch id k).vclkStep = s.vclkStep := rfl
@[simp] theorem State.updLaunch_nmBanks (s : State) (id : Nat) (k : Launch → Launch) : (s.updLaunch id k).nmBanks = s.nmBanks := rfl
@[simp] theorem State.updLaunch_booted (s : State) (id : Nat) (k : Launch → Launch) : (s.updLaunch id k).booted = s.booted := rfl
@[simp] theorem State.updLaunch_bootFail (s : State) (id : Nat) (k : Launch → Launch) : (s.updLaunch id k).bootFail = s.bootFail := rfl
@[simp] theorem State.updLaunch_recovery (s : State) (id : Nat) (k : Launch → Launch) : (s.updLaunch id k).recovery = s.recovery := rfl
@[simp] theorem State.updLaunch_mcheck (s : State) (id : Nat) (k : Launch → Launch) : (s.updLaunch id k).mcheck = s.mcheck := rfl
@[simp] theorem State.updLaunch_fwCause (s : State) (id : Nat) (k : Launch → Launch) : (s.updLaunch id k).fwCause = s.fwCause := rfl
@[simp] theorem State.updLaunch_measure (s : State) (id : Nat) (k : Launch → Launch) : (s.updLaunch id k).measure = s.measure := rfl
@[simp] theorem State.updLaunch_mem (s : State) (id : Nat) (k : Launch → Launch) : (s.updLaunch id k).mem = s.mem := rfl
@[simp] theorem State.updLaunch_poison (s : State) (id : Nat) (k : Launch → Launch) : (s.updLaunch id k).poison = s.poison := rfl
@[simp] theorem State.updLaunch_l2 (s : State) (id : Nat) (k : Launch → Launch) : (s.updLaunch id k).l2 = s.l2 := rfl
@[simp] theorem State.updLaunch_walks (s : State) (id : Nat) (k : Launch → Launch) : (s.updLaunch id k).walks = s.walks := rfl
@[simp] theorem State.updLaunch_changes (s : State) (id : Nat) (k : Launch → Launch) : (s.updLaunch id k).changes = s.changes := rfl
@[simp] theorem State.updLaunch_records (s : State) (id : Nat) (k : Launch → Launch) : (s.updLaunch id k).records = s.records := rfl
@[simp] theorem State.updLaunch_pend (s : State) (id : Nat) (k : Launch → Launch) : (s.updLaunch id k).pend = s.pend := rfl
@[simp] theorem State.updLaunch_queue (s : State) (id : Nat) (k : Launch → Launch) : (s.updLaunch id k).queue = s.queue := rfl
@[simp] theorem State.updLaunch_contexts (s : State) (id : Nat) (k : Launch → Launch) : (s.updLaunch id k).contexts = s.contexts := rfl
@[simp] theorem State.updLaunch_cores (s : State) (id : Nat) (k : Launch → Launch) : (s.updLaunch id k).cores = s.cores := rfl
@[simp] theorem State.updLaunch_pipes (s : State) (id : Nat) (k : Launch → Launch) : (s.updLaunch id k).pipes = s.pipes := rfl
@[simp] theorem State.updLaunch_wgs (s : State) (id : Nat) (k : Launch → Launch) : (s.updLaunch id k).wgs = s.wgs := rfl
@[simp] theorem State.updLaunch_ctl (s : State) (id : Nat) (k : Launch → Launch) : (s.updLaunch id k).ctl = s.ctl := rfl
@[simp] theorem State.updLaunch_cmds (s : State) (id : Nat) (k : Launch → Launch) : (s.updLaunch id k).cmds = s.cmds := rfl
@[simp] theorem State.updLaunch_windows (s : State) (id : Nat) (k : Launch → Launch) : (s.updLaunch id k).windows = s.windows := rfl
@[simp] theorem State.updLaunch_dbgWin (s : State) (id : Nat) (k : Launch → Launch) : (s.updLaunch id k).dbgWin = s.dbgWin := rfl
@[simp] theorem State.updLaunch_dbgWork (s : State) (id : Nat) (k : Launch → Launch) : (s.updLaunch id k).dbgWork = s.dbgWork := rfl
@[simp] theorem State.updLaunch_discards (s : State) (id : Nat) (k : Launch → Launch) : (s.updLaunch id k).discards = s.discards := rfl
@[simp] theorem State.updLaunch_rxFlows (s : State) (id : Nat) (k : Launch → Launch) : (s.updLaunch id k).rxFlows = s.rxFlows := rfl
@[simp] theorem State.updLaunch_txFlows (s : State) (id : Nat) (k : Launch → Launch) : (s.updLaunch id k).txFlows = s.txFlows := rfl
@[simp] theorem State.updLaunch_exported (s : State) (id : Nat) (k : Launch → Launch) : (s.updLaunch id k).exported = s.exported := rfl
@[simp] theorem State.updLaunch_ethOut (s : State) (id : Nat) (k : Launch → Launch) : (s.updLaunch id k).ethOut = s.ethOut := rfl
@[simp] theorem State.updLaunch_vectors (s : State) (id : Nat) (k : Launch → Launch) : (s.updLaunch id k).vectors = s.vectors := rfl
@[simp] theorem State.updLaunch_reply (s : State) (id : Nat) (k : Launch → Launch) : (s.updLaunch id k).reply = s.reply := rfl
@[simp] theorem State.updLaunch_replyBad (s : State) (id : Nat) (k : Launch → Launch) : (s.updLaunch id k).replyBad = s.replyBad := rfl
@[simp] theorem State.updLaunch_replyWord (s : State) (id : Nat) (k : Launch → Launch) : (s.updLaunch id k).replyWord = s.replyWord := rfl
@[simp] theorem State.updLaunch_report (s : State) (id : Nat) (k : Launch → Launch) : (s.updLaunch id k).report = s.report := rfl
@[simp] theorem State.updLaunch_agenda (s : State) (id : Nat) (k : Launch → Launch) : (s.updLaunch id k).agenda = s.agenda := rfl
@[simp] theorem State.updLaunch_cur (s : State) (id : Nat) (k : Launch → Launch) : (s.updLaunch id k).cur = s.cur := rfl
@[simp] theorem State.updLaunch_freeCount (s : State) (id : Nat) (k : Launch → Launch) : (s.updLaunch id k).freeCount = s.freeCount := rfl
@[simp] theorem State.updLaunch_seq (s : State) (id : Nat) (k : Launch → Launch) : (s.updLaunch id k).seq = s.seq := rfl

/-! ### State.updCmd -/

@[simp] theorem State.updCmd_clock (s : State) (id : Nat) (k : Command → Command) : (s.updCmd id k).clock = s.clock := rfl
@[simp] theorem State.updCmd_aclkStep (s : State) (id : Nat) (k : Command → Command) : (s.updCmd id k).aclkStep = s.aclkStep := rfl
@[simp] theorem State.updCmd_vclkStep (s : State) (id : Nat) (k : Command → Command) : (s.updCmd id k).vclkStep = s.vclkStep := rfl
@[simp] theorem State.updCmd_nmBanks (s : State) (id : Nat) (k : Command → Command) : (s.updCmd id k).nmBanks = s.nmBanks := rfl
@[simp] theorem State.updCmd_booted (s : State) (id : Nat) (k : Command → Command) : (s.updCmd id k).booted = s.booted := rfl
@[simp] theorem State.updCmd_bootFail (s : State) (id : Nat) (k : Command → Command) : (s.updCmd id k).bootFail = s.bootFail := rfl
@[simp] theorem State.updCmd_recovery (s : State) (id : Nat) (k : Command → Command) : (s.updCmd id k).recovery = s.recovery := rfl
@[simp] theorem State.updCmd_mcheck (s : State) (id : Nat) (k : Command → Command) : (s.updCmd id k).mcheck = s.mcheck := rfl
@[simp] theorem State.updCmd_fwCause (s : State) (id : Nat) (k : Command → Command) : (s.updCmd id k).fwCause = s.fwCause := rfl
@[simp] theorem State.updCmd_measure (s : State) (id : Nat) (k : Command → Command) : (s.updCmd id k).measure = s.measure := rfl
@[simp] theorem State.updCmd_mem (s : State) (id : Nat) (k : Command → Command) : (s.updCmd id k).mem = s.mem := rfl
@[simp] theorem State.updCmd_poison (s : State) (id : Nat) (k : Command → Command) : (s.updCmd id k).poison = s.poison := rfl
@[simp] theorem State.updCmd_l2 (s : State) (id : Nat) (k : Command → Command) : (s.updCmd id k).l2 = s.l2 := rfl
@[simp] theorem State.updCmd_walks (s : State) (id : Nat) (k : Command → Command) : (s.updCmd id k).walks = s.walks := rfl
@[simp] theorem State.updCmd_changes (s : State) (id : Nat) (k : Command → Command) : (s.updCmd id k).changes = s.changes := rfl
@[simp] theorem State.updCmd_records (s : State) (id : Nat) (k : Command → Command) : (s.updCmd id k).records = s.records := rfl
@[simp] theorem State.updCmd_pend (s : State) (id : Nat) (k : Command → Command) : (s.updCmd id k).pend = s.pend := rfl
@[simp] theorem State.updCmd_queue (s : State) (id : Nat) (k : Command → Command) : (s.updCmd id k).queue = s.queue := rfl
@[simp] theorem State.updCmd_contexts (s : State) (id : Nat) (k : Command → Command) : (s.updCmd id k).contexts = s.contexts := rfl
@[simp] theorem State.updCmd_cores (s : State) (id : Nat) (k : Command → Command) : (s.updCmd id k).cores = s.cores := rfl
@[simp] theorem State.updCmd_pipes (s : State) (id : Nat) (k : Command → Command) : (s.updCmd id k).pipes = s.pipes := rfl
@[simp] theorem State.updCmd_wgs (s : State) (id : Nat) (k : Command → Command) : (s.updCmd id k).wgs = s.wgs := rfl
@[simp] theorem State.updCmd_ctl (s : State) (id : Nat) (k : Command → Command) : (s.updCmd id k).ctl = s.ctl := rfl
@[simp] theorem State.updCmd_launches (s : State) (id : Nat) (k : Command → Command) : (s.updCmd id k).launches = s.launches := rfl
@[simp] theorem State.updCmd_windows (s : State) (id : Nat) (k : Command → Command) : (s.updCmd id k).windows = s.windows := rfl
@[simp] theorem State.updCmd_dbgWin (s : State) (id : Nat) (k : Command → Command) : (s.updCmd id k).dbgWin = s.dbgWin := rfl
@[simp] theorem State.updCmd_dbgWork (s : State) (id : Nat) (k : Command → Command) : (s.updCmd id k).dbgWork = s.dbgWork := rfl
@[simp] theorem State.updCmd_discards (s : State) (id : Nat) (k : Command → Command) : (s.updCmd id k).discards = s.discards := rfl
@[simp] theorem State.updCmd_rxFlows (s : State) (id : Nat) (k : Command → Command) : (s.updCmd id k).rxFlows = s.rxFlows := rfl
@[simp] theorem State.updCmd_txFlows (s : State) (id : Nat) (k : Command → Command) : (s.updCmd id k).txFlows = s.txFlows := rfl
@[simp] theorem State.updCmd_exported (s : State) (id : Nat) (k : Command → Command) : (s.updCmd id k).exported = s.exported := rfl
@[simp] theorem State.updCmd_ethOut (s : State) (id : Nat) (k : Command → Command) : (s.updCmd id k).ethOut = s.ethOut := rfl
@[simp] theorem State.updCmd_vectors (s : State) (id : Nat) (k : Command → Command) : (s.updCmd id k).vectors = s.vectors := rfl
@[simp] theorem State.updCmd_reply (s : State) (id : Nat) (k : Command → Command) : (s.updCmd id k).reply = s.reply := rfl
@[simp] theorem State.updCmd_replyBad (s : State) (id : Nat) (k : Command → Command) : (s.updCmd id k).replyBad = s.replyBad := rfl
@[simp] theorem State.updCmd_replyWord (s : State) (id : Nat) (k : Command → Command) : (s.updCmd id k).replyWord = s.replyWord := rfl
@[simp] theorem State.updCmd_report (s : State) (id : Nat) (k : Command → Command) : (s.updCmd id k).report = s.report := rfl
@[simp] theorem State.updCmd_agenda (s : State) (id : Nat) (k : Command → Command) : (s.updCmd id k).agenda = s.agenda := rfl
@[simp] theorem State.updCmd_cur (s : State) (id : Nat) (k : Command → Command) : (s.updCmd id k).cur = s.cur := rfl
@[simp] theorem State.updCmd_freeCount (s : State) (id : Nat) (k : Command → Command) : (s.updCmd id k).freeCount = s.freeCount := rfl
@[simp] theorem State.updCmd_seq (s : State) (id : Nat) (k : Command → Command) : (s.updCmd id k).seq = s.seq := rfl

/-! ### State.setPipe -/

@[simp] theorem State.setPipe_clock (s : State) (p : Pipe) : (s.setPipe p).clock = s.clock := by
  unfold State.setPipe; dsimp only; split <;> rfl
@[simp] theorem State.setPipe_aclkStep (s : State) (p : Pipe) : (s.setPipe p).aclkStep = s.aclkStep := by
  unfold State.setPipe; dsimp only; split <;> rfl
@[simp] theorem State.setPipe_vclkStep (s : State) (p : Pipe) : (s.setPipe p).vclkStep = s.vclkStep := by
  unfold State.setPipe; dsimp only; split <;> rfl
@[simp] theorem State.setPipe_nmBanks (s : State) (p : Pipe) : (s.setPipe p).nmBanks = s.nmBanks := by
  unfold State.setPipe; dsimp only; split <;> rfl
@[simp] theorem State.setPipe_booted (s : State) (p : Pipe) : (s.setPipe p).booted = s.booted := by
  unfold State.setPipe; dsimp only; split <;> rfl
@[simp] theorem State.setPipe_bootFail (s : State) (p : Pipe) : (s.setPipe p).bootFail = s.bootFail := by
  unfold State.setPipe; dsimp only; split <;> rfl
@[simp] theorem State.setPipe_recovery (s : State) (p : Pipe) : (s.setPipe p).recovery = s.recovery := by
  unfold State.setPipe; dsimp only; split <;> rfl
@[simp] theorem State.setPipe_mcheck (s : State) (p : Pipe) : (s.setPipe p).mcheck = s.mcheck := by
  unfold State.setPipe; dsimp only; split <;> rfl
@[simp] theorem State.setPipe_fwCause (s : State) (p : Pipe) : (s.setPipe p).fwCause = s.fwCause := by
  unfold State.setPipe; dsimp only; split <;> rfl
@[simp] theorem State.setPipe_measure (s : State) (p : Pipe) : (s.setPipe p).measure = s.measure := by
  unfold State.setPipe; dsimp only; split <;> rfl
@[simp] theorem State.setPipe_mem (s : State) (p : Pipe) : (s.setPipe p).mem = s.mem := by
  unfold State.setPipe; dsimp only; split <;> rfl
@[simp] theorem State.setPipe_poison (s : State) (p : Pipe) : (s.setPipe p).poison = s.poison := by
  unfold State.setPipe; dsimp only; split <;> rfl
@[simp] theorem State.setPipe_l2 (s : State) (p : Pipe) : (s.setPipe p).l2 = s.l2 := by
  unfold State.setPipe; dsimp only; split <;> rfl
@[simp] theorem State.setPipe_walks (s : State) (p : Pipe) : (s.setPipe p).walks = s.walks := by
  unfold State.setPipe; dsimp only; split <;> rfl
@[simp] theorem State.setPipe_changes (s : State) (p : Pipe) : (s.setPipe p).changes = s.changes := by
  unfold State.setPipe; dsimp only; split <;> rfl
@[simp] theorem State.setPipe_records (s : State) (p : Pipe) : (s.setPipe p).records = s.records := by
  unfold State.setPipe; dsimp only; split <;> rfl
@[simp] theorem State.setPipe_pend (s : State) (p : Pipe) : (s.setPipe p).pend = s.pend := by
  unfold State.setPipe; dsimp only; split <;> rfl
@[simp] theorem State.setPipe_queue (s : State) (p : Pipe) : (s.setPipe p).queue = s.queue := by
  unfold State.setPipe; dsimp only; split <;> rfl
@[simp] theorem State.setPipe_contexts (s : State) (p : Pipe) : (s.setPipe p).contexts = s.contexts := by
  unfold State.setPipe; dsimp only; split <;> rfl
@[simp] theorem State.setPipe_cores (s : State) (p : Pipe) : (s.setPipe p).cores = s.cores := by
  unfold State.setPipe; dsimp only; split <;> rfl
@[simp] theorem State.setPipe_wgs (s : State) (p : Pipe) : (s.setPipe p).wgs = s.wgs := by
  unfold State.setPipe; dsimp only; split <;> rfl
@[simp] theorem State.setPipe_ctl (s : State) (p : Pipe) : (s.setPipe p).ctl = s.ctl := by
  unfold State.setPipe; dsimp only; split <;> rfl
@[simp] theorem State.setPipe_launches (s : State) (p : Pipe) : (s.setPipe p).launches = s.launches := by
  unfold State.setPipe; dsimp only; split <;> rfl
@[simp] theorem State.setPipe_cmds (s : State) (p : Pipe) : (s.setPipe p).cmds = s.cmds := by
  unfold State.setPipe; dsimp only; split <;> rfl
@[simp] theorem State.setPipe_windows (s : State) (p : Pipe) : (s.setPipe p).windows = s.windows := by
  unfold State.setPipe; dsimp only; split <;> rfl
@[simp] theorem State.setPipe_dbgWin (s : State) (p : Pipe) : (s.setPipe p).dbgWin = s.dbgWin := by
  unfold State.setPipe; dsimp only; split <;> rfl
@[simp] theorem State.setPipe_dbgWork (s : State) (p : Pipe) : (s.setPipe p).dbgWork = s.dbgWork := by
  unfold State.setPipe; dsimp only; split <;> rfl
@[simp] theorem State.setPipe_discards (s : State) (p : Pipe) : (s.setPipe p).discards = s.discards := by
  unfold State.setPipe; dsimp only; split <;> rfl
@[simp] theorem State.setPipe_rxFlows (s : State) (p : Pipe) : (s.setPipe p).rxFlows = s.rxFlows := by
  unfold State.setPipe; dsimp only; split <;> rfl
@[simp] theorem State.setPipe_txFlows (s : State) (p : Pipe) : (s.setPipe p).txFlows = s.txFlows := by
  unfold State.setPipe; dsimp only; split <;> rfl
@[simp] theorem State.setPipe_exported (s : State) (p : Pipe) : (s.setPipe p).exported = s.exported := by
  unfold State.setPipe; dsimp only; split <;> rfl
@[simp] theorem State.setPipe_ethOut (s : State) (p : Pipe) : (s.setPipe p).ethOut = s.ethOut := by
  unfold State.setPipe; dsimp only; split <;> rfl
@[simp] theorem State.setPipe_vectors (s : State) (p : Pipe) : (s.setPipe p).vectors = s.vectors := by
  unfold State.setPipe; dsimp only; split <;> rfl
@[simp] theorem State.setPipe_reply (s : State) (p : Pipe) : (s.setPipe p).reply = s.reply := by
  unfold State.setPipe; dsimp only; split <;> rfl
@[simp] theorem State.setPipe_replyBad (s : State) (p : Pipe) : (s.setPipe p).replyBad = s.replyBad := by
  unfold State.setPipe; dsimp only; split <;> rfl
@[simp] theorem State.setPipe_replyWord (s : State) (p : Pipe) : (s.setPipe p).replyWord = s.replyWord := by
  unfold State.setPipe; dsimp only; split <;> rfl
@[simp] theorem State.setPipe_report (s : State) (p : Pipe) : (s.setPipe p).report = s.report := by
  unfold State.setPipe; dsimp only; split <;> rfl
@[simp] theorem State.setPipe_agenda (s : State) (p : Pipe) : (s.setPipe p).agenda = s.agenda := by
  unfold State.setPipe; dsimp only; split <;> rfl
@[simp] theorem State.setPipe_cur (s : State) (p : Pipe) : (s.setPipe p).cur = s.cur := by
  unfold State.setPipe; dsimp only; split <;> rfl
@[simp] theorem State.setPipe_freeCount (s : State) (p : Pipe) : (s.setPipe p).freeCount = s.freeCount := by
  unfold State.setPipe; dsimp only; split <;> rfl
@[simp] theorem State.setPipe_seq (s : State) (p : Pipe) : (s.setPipe p).seq = s.seq := by
  unfold State.setPipe; dsimp only; split <;> rfl

end Sys2Proof.Machine
end

