-- ==== Sys2Proof/Laws/Parts.lean ====
section
/-! SUPPORT. What each part of the state reads as after an update of a part: contexts, cores, workgroups, warps, lanes,
launches, commands, pipes. -/

namespace Sys2Proof.Machine

/-! ### Lists -/

theorem mapIf_find? {α : Type} (p q : α → Bool) (k : α → α) (l : List α) (hk : ∀ x, p x → q (k x) = q x) :
    (mapIf p k l).find? q = (l.find? q).map fun x => if p x then k x else x := by
  induction l with
  | nil => rfl
  | cons x xs ih =>
    have hq : q (if p x then k x else x) = q x := by
      split
      next h => exact hk x h
      next => rfl
    simp only [mapIf, List.map_cons, List.find?_cons, hq]
    cases q x with
    | true => rfl
    | false => exact ih

theorem mapIf_any {α : Type} (p q : α → Bool) (k : α → α) (l : List α) (hk : ∀ x, q (k x) = q x) :
    (mapIf p k l).any q = l.any q := by
  induction l with
  | nil => rfl
  | cons x xs ih =>
    have hq : q (if p x then k x else x) = q x := by split <;> simp [hk]
    simp only [mapIf, List.map_cons, List.any_cons, hq] at ih ⊢
    rw [ih]

@[simp] theorem mapNth_getElem? {α : Type} (l : List α) (n i : Nat) (k : α → α) :
    (mapNth l n k)[i]? = if i = n then l[i]?.map k else l[i]? := by
  induction l generalizing n i with
  | nil => simp [mapNth]
  | cons x xs ih =>
    cases n with
    | zero => cases i <;> simp [mapNth]
    | succ n => cases i <;> simp [mapNth, ih]

@[simp] theorem mapNth_length {α : Type} (l : List α) (n : Nat) (k : α → α) : (mapNth l n k).length = l.length := by
  induction l generalizing n with
  | nil => rfl
  | cons x xs ih => cases n <;> simp [mapNth, ih]

@[simp] theorem setNth_getElem? {α : Type} (l : List α) (n i : Nat) (v : α) :
    (setNth l n v)[i]? = if i = n then l[i]?.map (fun _ => v) else l[i]? := by
  induction l generalizing n i with
  | nil => simp [setNth]
  | cons x xs ih =>
    cases n with
    | zero => cases i <;> simp [setNth]
    | succ n => cases i <;> simp [setNth, ih]

@[simp] theorem setNth_length {α : Type} (l : List α) (n : Nat) (v : α) : (setNth l n v).length = l.length := by
  induction l generalizing n with
  | nil => rfl
  | cons x xs ih => cases n <;> simp [setNth, ih]

theorem setNth_getD {α : Type} (l : List α) (n i : Nat) (v d : α) (h : n < l.length) :
    (setNth l n v).getD i d = if i = n then v else l.getD i d := by
  simp only [List.getD_eq_getElem?_getD, setNth_getElem?]
  split
  next hi => subst hi; simp [h]
  next => rfl

/-! ### Workgroups, warps, lanes -/

theorem State.wg?_updWg (s : State) (id j : Nat) (k : Workgroup → Workgroup) (hk : ∀ g, (k g).id = g.id) :
    (s.updWg id k).wg? j = if j = id then (s.wg? j).map k else s.wg? j := by
  have found : ∀ l : List Workgroup, (l.find? fun w => w.id = j).map (fun g => if g.id = id then k g else g)
      = if j = id then (l.find? fun w => w.id = j).map k else l.find? fun w => w.id = j := by
    intro l
    cases hf : l.find? (fun w => decide (w.id = j)) with
    | none => simp
    | some g => have := List.find?_some hf; simp only [decide_eq_true_eq] at this; subst this; split <;> simp_all
  simp only [State.wg?, State.updWg]
  rw [mapIf_find? _ _ _ _ (by simp [hk]), mapIf_find? _ _ _ _ (by simp [hk])]
  simp only [decide_eq_true_eq, found]
  split
  next => cases s.wgs.find? (fun w => decide (w.id = j)) <;> simp
  next => rfl

@[simp] theorem State.wg?_updCore (s : State) (v : Nat) (k : Core → Core) (id : Nat) : (s.updCore v k).wg? id = s.wg? id := by
  simp [State.wg?]

@[simp] theorem State.wg?_setPipe (s : State) (p : Pipe) (id : Nat) : (s.setPipe p).wg? id = s.wg? id := by
  simp [State.wg?]

@[simp] theorem State.warp?_updCore (s : State) (v : Nat) (k : Core → Core) (wg w : Nat) :
    (s.updCore v k).warp? wg w = s.warp? wg w := by simp [State.warp?]

@[simp] theorem State.warp?_setPipe (s : State) (p : Pipe) (wg w : Nat) : (s.setPipe p).warp? wg w = s.warp? wg w := by
  simp [State.warp?]

theorem State.wg?_updWarp (s : State) (wg w j : Nat) (k : Warp → Warp) :
    (s.updWarp wg w k).wg? j
      = if j = wg then (s.wg? j).map (fun g => { g with warps := mapNth g.warps w k }) else s.wg? j :=
  s.wg?_updWg wg j _ (by simp)

theorem State.warp?_updWarp (s : State) (wg w j i : Nat) (k : Warp → Warp) :
    (s.updWarp wg w k).warp? j i = if j = wg ∧ i = w then (s.warp? j i).map k else s.warp? j i := by
  simp only [State.warp?, State.wg?_updWarp]
  by_cases hj : j = wg
  · subst hj
    cases s.wg? j <;> simp
  · simp [hj]

theorem State.lane?_updWarp (s : State) (wg w : Nat) (k : Warp → Warp) (r : LaneRef) (hk : ∀ v, (k v).lanes = v.lanes) :
    (s.updWarp wg w k).lane? r = s.lane? r := by
  simp only [State.lane?, State.warp?_updWarp]
  split
  next => cases s.warp? r.wg r.warp <;> simp [hk]
  next => rfl

theorem State.warp?_updLane (s : State) (r : LaneRef) (k : Lane → Lane) (j i : Nat) :
    (s.updLane r k).warp? j i
      = if j = r.wg ∧ i = r.warp then (s.warp? j i).map (fun w => { w with lanes := mapNth w.lanes r.lane k })
        else s.warp? j i := s.warp?_updWarp r.wg r.warp j i _

theorem State.lane?_updLane (s : State) (r q : LaneRef) (k : Lane → Lane) :
    (s.updLane r k).lane? q = if q = r then (s.lane? q).map k else s.lane? q := by
  simp only [State.lane?, State.warp?_updLane]
  by_cases hw : q.wg = r.wg ∧ q.warp = r.warp
  · by_cases hl : q.lane = r.lane
    · have : q = r := by cases q; cases r; simp_all
      subst this
      cases s.warp? q.wg q.warp <;> simp
    · have : q ≠ r := fun h => hl (by rw [h])
      cases s.warp? q.wg q.warp <;> simp [hw, hl, this]
  · have : q ≠ r := fun h => hw (by rw [h]; exact ⟨rfl, rfl⟩)
    simp [hw, this]

theorem State.lane?_updLanes (s : State) (rs : List LaneRef) (q : LaneRef) (k : Lane → Lane) (idem : ∀ l, k (k l) = k l) :
    (s.updLanes rs k).lane? q = if q ∈ rs then (s.lane? q).map k else s.lane? q := by
  induction rs generalizing s with
  | nil => simp [State.updLanes]
  | cons r rs ih =>
    have step : s.updLanes (r :: rs) k = (s.updLane r k).updLanes rs k := rfl
    rw [step, ih, State.lane?_updLane]
    by_cases hr : q = r
    · by_cases hm : q ∈ rs
      · simp only [hr, if_true, List.mem_cons, true_or]
        simp only [hr] at hm
        cases s.lane? r <;> simp [hm, idem]
      · simp only [hr] at hm
        simp [hr, hm]
    · by_cases hm : q ∈ rs <;> simp [hr, hm]

/-! ### Cores, pipes -/

theorem State.core_updCore (s : State) (v j : Nat) (k : Core → Core) (hk : ∀ c, (k c).vault = c.vault) :
    (s.updCore v k).core j = if j = v then k (s.core j) else s.core j := by
  simp only [State.updCore]
  split
  next hany =>
    simp only [State.core]
    rw [mapIf_find? _ _ _ _ (by simp [hk])]
    by_cases hj : j = v
    · subst hj
      cases hf : s.cores.find? (fun c => decide (c.vault = j)) with
      | none =>
        obtain ⟨c, hc, hv⟩ := List.any_eq_true.mp hany
        exact absurd hv (List.find?_eq_none.mp hf c hc)
      | some c => have := List.find?_some hf; simp_all
    · cases hf : s.cores.find? (fun c => decide (c.vault = j)) with
      | none => simp [hj]
      | some c => have := List.find?_some hf; simp_all
  next hany =>
    have hv : (k (Core.fresh v)).vault = v := by rw [hk]; rfl
    by_cases hj : j = v
    · subst hj
      have : s.cores.find? (fun c => decide (c.vault = j)) = none := by simp_all
      simp [State.core, this, hv]
    · simp only [State.core, if_neg hj]
      have : (v = j) = False := by simp [Ne.symm hj]
      simp [List.find?_append, hv, this]

theorem State.pipe_setPipe (s : State) (p : Pipe) (c n i : Nat) :
    (s.setPipe p).pipe c n i = if c = p.core ∧ n = p.pane ∧ i = p.pipe then p else s.pipe c n i := by
  simp only [State.setPipe]
  split
  next hany =>
    simp only [State.pipe]
    rw [mapIf_find? _ _ _ _ (by simp; intro x h1 h2 h3; simp [h1, h2, h3])]
    by_cases h : c = p.core ∧ n = p.pane ∧ i = p.pipe
    · obtain ⟨rfl, rfl, rfl⟩ := h
      cases hf : s.pipes.find? (fun q => decide (q.core = p.core) && decide (q.pane = p.pane) && decide (q.pipe = p.pipe)) with
      | none =>
        obtain ⟨q, hq, hv⟩ := List.any_eq_true.mp hany
        exact absurd hv (List.find?_eq_none.mp hf q hq)
      | some q => have := List.find?_some hf; simp_all
    · rw [if_neg h]
      cases hf : s.pipes.find? (fun q => decide (q.core = c) && decide (q.pane = n) && decide (q.pipe = i)) with
      | none => rfl
      | some q =>
        have := List.find?_some hf
        simp only [Bool.and_eq_true, decide_eq_true_eq] at this
        obtain ⟨⟨rfl, rfl⟩, rfl⟩ := this
        have : ¬((q.core = p.core ∧ q.pane = p.pane) ∧ q.pipe = p.pipe) := fun k => h ⟨k.1.1, k.1.2, k.2⟩
        simp [this]
  next hany =>
    have none : ∀ q ∈ s.pipes, ¬((q.core = p.core ∧ q.pane = p.pane) ∧ q.pipe = p.pipe) := by simpa using hany
    simp only [State.pipe, List.find?_append]
    by_cases h : c = p.core ∧ n = p.pane ∧ i = p.pipe
    · obtain ⟨rfl, rfl, rfl⟩ := h
      have : s.pipes.find? (fun q => decide (q.core = p.core) && decide (q.pane = p.pane) && decide (q.pipe = p.pipe)) = Option.none := by
        simpa using none
      simp [this]
    · have : ¬((p.core = c ∧ p.pane = n) ∧ p.pipe = i) := fun k => h ⟨k.1.1.symm, k.1.2.symm, k.2.symm⟩
      simp [h, this]

end Sys2Proof.Machine
end

