-- ==== Sys2Proof/Laws/Rows.lean ====
section
/-! SUPPORT. The register map: what a register reads as after a release, a preparation and a write (R144 to R148). -/

namespace Sys2Proof.Machine

/-! ### Finding a row -/

theorem findRow_reg {rows : List Row} {reg : Nat} {r : Row} (h : findRow rows reg = some r) : r.reg = some reg := by
  simpa using List.find?_some h

theorem findRow_mem {rows : List Row} {reg : Nat} {r : Row} (h : findRow rows reg = some r) : r ∈ rows :=
  List.mem_of_find?_eq_some h

/-! ### Release (R148) -/

theorem findRow_release (rows : List Row) (q reg : Nat) :
    findRow (releaseReg rows q) reg = if reg = q then none else findRow rows reg := by
  unfold findRow releaseReg
  induction rows with
  | nil => simp [mapIf]
  | cons r rs ih =>
    simp only [mapIf, List.map_cons] at ih ⊢
    by_cases hr : r.reg = some q
    · by_cases ha : r.await = []
      · by_cases hq : reg = q
        · simp_all
        · have : q ≠ reg := Ne.symm hq
          simp_all
      · by_cases hq : reg = q
        · simp_all
        · have : q ≠ reg := Ne.symm hq
          simp_all
    · cases hreg : r.reg with
      | none => by_cases ha : r.await = [] <;> simp_all
      | some n =>
        have hn : n ≠ q := fun h => hr (by rw [hreg, h])
        by_cases hm : n = reg
        · subst hm; simp_all
        · simp_all

theorem rowRead_release (rows : List Row) (q reg pos : Nat) :
    rowRead (releaseReg rows q) reg pos = if reg = q then 0 else rowRead rows reg pos := by
  unfold rowRead; rw [findRow_release]; by_cases h : reg = q <;> simp [h]

theorem rowBusy_release (rows : List Row) (q reg : Nat) :
    rowBusy (releaseReg rows q) reg = if reg = q then false else rowBusy rows reg := by
  unfold rowBusy; rw [findRow_release]; by_cases h : reg = q <;> simp [h]

theorem RowsOk.release {rows : List Row} (h : RowsOk rows) (q : Nat) : RowsOk (releaseReg rows q) := by
  have ids : (mapIf (fun r : Row => r.reg = some q) (fun r => { r with reg := none }) rows).map Row.id = rows.map Row.id := by
    simp only [mapIf, List.map_map]
    refine List.map_congr_left fun r _ => ?_
    simp only [Function.comp]; split <;> rfl
  constructor
  · exact ((List.filter_sublist.map Row.id).nodup (ids ▸ h.1))
  · intro r hr
    have hm := List.mem_of_mem_filter hr
    simp only [mapIf, List.mem_map] at hm
    obtain ⟨r', hr', rfl⟩ := hm
    have := h.2 r' hr'
    split <;> exact this

theorem RowsOk.releases {rows : List Row} (h : RowsOk rows) (qs : List Nat) : RowsOk (qs.foldl releaseReg rows) := by
  induction qs generalizing rows with
  | nil => exact h
  | cons q qs ih => exact ih (h.release q)

theorem rowRead_releases (rows : List Row) (qs : List Nat) (reg pos : Nat) :
    rowRead (qs.foldl releaseReg rows) reg pos = if reg ∈ qs then 0 else rowRead rows reg pos := by
  induction qs generalizing rows with
  | nil => simp
  | cons q qs ih =>
    simp only [List.foldl_cons, ih, rowRead_release, List.mem_cons]
    by_cases h1 : reg ∈ qs <;> by_cases h2 : reg = q <;> simp [h1, h2]

theorem rowBusy_releases (rows : List Row) (qs : List Nat) (reg : Nat) (h : rowBusy rows reg = false) :
    rowBusy (qs.foldl releaseReg rows) reg = false := by
  induction qs generalizing rows with
  | nil => exact h
  | cons q qs ih => exact ih _ (by rw [rowBusy_release]; split <;> simp [h])

/-! ### Preparing destinations (R146, R147) -/

theorem foldl_max_ge (rows : List Row) (m : Nat) : m ≤ rows.foldl (fun m r => max m (r.id + 1)) m := by
  induction rows generalizing m with
  | nil => exact Nat.le_refl m
  | cons r rs ih => exact Nat.le_trans (Nat.le_max_left _ _) (ih _)

theorem foldl_max_mem (rows : List Row) (m : Nat) {r : Row} (h : r ∈ rows) : r.id < rows.foldl (fun m r => max m (r.id + 1)) m := by
  induction rows generalizing m with
  | nil => simp at h
  | cons q qs ih =>
    simp only [List.foldl_cons]
    cases List.mem_cons.mp h with
    | inl e => subst e; exact Nat.lt_of_lt_of_le (Nat.lt_of_lt_of_le (Nat.lt_succ_self _) (Nat.le_max_right _ _)) (foldl_max_ge qs _)
    | inr e => exact ih _ e

/-- A map after a row is prepared for registers that await nothing: each has its row, and every register reads as before. -/
structure Prepared (rows rows' : List Row) (regs ids : List Nat) : Prop where
  ok   : RowsOk rows'
  len  : ids.length = regs.length
  row  : ∀ (k reg : Nat), regs[k]? = some reg → ∃ r, findRow rows' reg = some r ∧ ids[k]? = some r.id
  read : ∀ reg pos, rowRead rows' reg pos = rowRead rows reg pos
  keep : ∀ reg r, findRow rows reg = some r → findRow rows' reg = some r
  busy : ∀ reg, rowBusy rows' reg = rowBusy rows reg

theorem replicate_getD (pos : Nat) : (List.replicate 32 (0 : Word)).getD pos 0 = 0 := by
  rw [List.getD_eq_getElem?_getD, List.getElem?_replicate]; split <;> rfl

theorem freshRow_spec {rows : List Row} (h : RowsOk rows) (reg : Nat) (handler : Bool) (hn : findRow rows reg = none) :
    Prepared rows (freshRow rows reg handler).1 [reg] [(freshRow rows reg handler).2] := by
  have fnd : ∀ q, findRow (freshRow rows reg handler).1 q
      = (findRow rows q).or (if q = reg then some
          { id := (freshRow rows reg handler).2, reg := some reg, vals := List.replicate 32 0, await := [], handler := handler } else none) := by
    intro q
    simp only [freshRow, findRow, List.find?_append]
    by_cases hq : q = reg
    · simp [hq]
    · have : reg ≠ q := Ne.symm hq
      simp [hq, this]
  refine ⟨⟨?_, ?_⟩, rfl, ?_, ?_, ?_, ?_⟩
  · simp only [freshRow, List.map_append, List.map_cons, List.map_nil]
    rw [List.nodup_append]
    refine ⟨h.1, by simp, ?_⟩
    intro a ha b hb
    simp only [List.mem_map, List.mem_singleton] at ha hb
    obtain ⟨r, hr, rfl⟩ := ha
    have := foldl_max_mem rows 0 hr
    omega
  · intro r hr
    simp only [freshRow, List.mem_append, List.mem_singleton] at hr
    cases hr with
    | inl e => exact h.2 r e
    | inr e => subst e; simp
  · intro k q hq
    cases k with
    | zero =>
      simp only [List.getElem?_cons_zero, Option.some.injEq] at hq
      subst hq
      exact ⟨_, by rw [fnd, hn, if_pos rfl, Option.none_or], rfl⟩
    | succ k => simp at hq
  · intro q pos
    simp only [rowRead, fnd]
    cases hf : findRow rows q with
    | some r => rfl
    | none =>
      by_cases hq : q = reg
      · rw [if_pos hq, Option.none_or]; exact replicate_getD pos
      · rw [if_neg hq]; rfl
  · intro q r hr; rw [fnd, hr]; rfl
  · intro q
    simp only [rowBusy, fnd]
    cases hf : findRow rows q with
    | some r => rfl
    | none => by_cases hq : q = reg <;> simp [hq]

theorem prepReg_spec {lim : MapLimit} {rows rows' : List Row} {covers : Bool} {reg id : Nat} (h : RowsOk rows)
    (idle : rowBusy rows reg = false) (hp : prepReg lim rows covers reg = .ready rows' id) : Prepared rows rows' [reg] [id] := by
  simp only [prepReg] at hp
  split at hp
  next hn =>
    split at hp
    · split at hp
      · cases hp
      · cases hp; exact freshRow_spec h reg true hn
    · split at hp
      · cases hp
      · split at hp
        · cases hp
        · cases hp; exact freshRow_spec h reg false hn
  next r hr =>
    have ha : r.await = [] := by simpa [rowBusy, hr] using idle
    rw [if_pos ha] at hp
    cases hp
    refine ⟨h, rfl, ?_, fun _ _ => rfl, fun _ _ e => e, fun _ => rfl⟩
    intro k q hq
    cases k with
    | zero => simp only [List.getElem?_cons_zero, Option.some.injEq] at hq; subst hq; exact ⟨r, hr, rfl⟩
    | succ k => simp at hq

theorem prepRegs_spec {lim : MapLimit} {covers : Bool} {rows rows' : List Row} {regs ids : List Nat} (h : RowsOk rows)
    (idle : ∀ reg ∈ regs, rowBusy rows reg = false) (hp : prepRegs lim covers rows regs = some (.inr (rows', ids))) :
    Prepared rows rows' regs ids := by
  induction regs generalizing rows ids with
  | nil =>
    simp only [prepRegs, Option.some.injEq, Sum.inr.injEq, Prod.mk.injEq] at hp
    obtain ⟨rfl, rfl⟩ := hp
    exact ⟨h, rfl, by simp, fun _ _ => rfl, fun _ _ e => e, fun _ => rfl⟩
  | cons reg rest ih =>
    simp only [prepRegs] at hp
    split at hp
    · simp at hp
    · simp at hp
    next rows1 id hr =>
      have p1 := prepReg_spec h (idle reg (by simp)) hr
      split at hp
      next rows2 ids2 h2 =>
        simp only [Option.some.injEq, Sum.inr.injEq, Prod.mk.injEq] at hp
        obtain ⟨rfl, rfl⟩ := hp
        have p2 := ih p1.ok (fun q hq => by rw [p1.busy]; exact idle q (by simp [hq])) h2
        refine ⟨p2.ok, by simp [p2.len], ?_, fun q pos => (p2.read q pos).trans (p1.read q pos),
          fun q r e => p2.keep q r (p1.keep q r e), fun q => (p2.busy q).trans (p1.busy q)⟩
        intro k q hq
        cases k with
        | zero =>
          simp only [List.getElem?_cons_zero, Option.some.injEq] at hq
          subst hq
          obtain ⟨r, hr', hid⟩ := p1.row 0 _ rfl
          exact ⟨r, p2.keep _ r hr', hid⟩
        | succ k => exact p2.row k q hq
      next hno => exact absurd hp (by intro e; exact hno _ _ e)

/-! ### Writing rows -/

theorem findRow_write (rows : List Row) (id pos reg : Nat) (v : Word) :
    findRow (rowWrite rows id pos v) reg
      = (findRow rows reg).map fun r => if r.id = id then { r with vals := setNth r.vals pos v } else r := by
  unfold findRow rowWrite
  rw [mapIf_find? _ _ _ _ (by simp)]
  simp

theorem RowsOk.write {rows : List Row} (h : RowsOk rows) (id pos : Nat) (v : Word) : RowsOk (rowWrite rows id pos v) := by
  constructor
  · have : (rowWrite rows id pos v).map Row.id = rows.map Row.id := by
      simp only [rowWrite, mapIf, List.map_map]
      refine List.map_congr_left fun r _ => ?_
      simp only [Function.comp]; split <;> rfl
    rw [this]; exact h.1
  · intro r hr
    simp only [rowWrite, mapIf, List.mem_map] at hr
    obtain ⟨r', hr', rfl⟩ := hr
    have := h.2 r' hr'
    split
    · simpa using this
    · exact this

/-- A row found has a place for every lane position. -/
theorem RowsOk.found {rows : List Row} (h : RowsOk rows) {reg : Nat} {r : Row} (hr : findRow rows reg = some r) :
    r.vals.length = 32 := h.2 r (findRow_mem hr)

theorem RowsOk.writes {rows : List Row} (h : RowsOk rows) (pos : Nat) (ps : List (Nat × Word)) :
    RowsOk (ps.foldl (fun rows p => rowWrite rows p.1 pos p.2) rows) := by
  induction ps generalizing rows with
  | nil => exact h
  | cons p ps ih => exact ih (h.write _ _ _)

/-- The row of a register keeps its number through writes. -/
theorem findRow_writes (rows : List Row) (pos reg : Nat) (ps : List (Nat × Word)) :
    (findRow (ps.foldl (fun rows p => rowWrite rows p.1 pos p.2) rows) reg).map Row.id = (findRow rows reg).map Row.id := by
  induction ps generalizing rows with
  | nil => rfl
  | cons p ps ih =>
    simp only [List.foldl_cons, ih, findRow_write, Option.map_map]
    cases findRow rows reg with
    | none => rfl
    | some r => simp only [Option.map_some, Function.comp]; split <;> rfl

theorem rowRead_write {rows : List Row} (h : RowsOk rows) (id pos reg q : Nat) (v : Word) (hp : pos < 32) :
    rowRead (rowWrite rows id pos v) reg q
      = if (findRow rows reg).map Row.id = some id ∧ q = pos then v else rowRead rows reg q := by
  unfold rowRead
  rw [findRow_write]
  cases hf : findRow rows reg with
  | none => simp
  | some r =>
    have hl := h.found hf
    by_cases hid : r.id = id
    · simp only [Option.map_some, hid, if_true, true_and]
      exact setNth_getD r.vals pos q v 0 (by omega)
    · simp [hid]

/-- Writes at one position: a register whose row is not among them, and every other position, read as before. -/
theorem rowRead_writes_other {rows : List Row} (h : RowsOk rows) (pos reg q : Nat) (hp : pos < 32) (ps : List (Nat × Word))
    (ho : q ≠ pos ∨ ∀ r, findRow rows reg = some r → r.id ∉ ps.map Prod.fst) :
    rowRead (ps.foldl (fun rows p => rowWrite rows p.1 pos p.2) rows) reg q = rowRead rows reg q := by
  induction ps generalizing rows with
  | nil => rfl
  | cons p ps ih =>
    simp only [List.foldl_cons]
    rw [ih (h.write _ _ _), rowRead_write h _ _ _ _ _ hp, if_neg]
    · rintro ⟨e, rfl⟩
      cases ho with
      | inl k => exact k rfl
      | inr k =>
        cases hf : findRow rows reg with
        | none => simp [hf] at e
        | some r =>
          simp only [hf, Option.map_some, Option.some.injEq] at e
          exact k r hf (by simp [e])
    · cases ho with
      | inl k => exact .inl k
      | inr k =>
        refine .inr fun r hr => ?_
        rw [findRow_write] at hr
        cases hf : findRow rows reg with
        | none => simp [hf] at hr
        | some r' =>
          simp only [hf, Option.map_some, Option.some.injEq] at hr
          have := k r' hf
          have hid : r.id = r'.id := by subst hr; split <;> rfl
          rw [hid]
          intro hm
          exact this (by simp only [List.map_cons, List.mem_cons]; exact .inr hm)

/-- Writes at one position to rows with numbers of their own: a row among them holds its word. -/
theorem rowRead_writes_at {rows : List Row} (h : RowsOk rows) (pos reg : Nat) (hp : pos < 32) (ps : List (Nat × Word))
    (nd : (ps.map Prod.fst).Nodup) {r : Row} (hr : findRow rows reg = some r) {k : Nat} {v : Word} (hk : ps[k]? = some (r.id, v)) :
    rowRead (ps.foldl (fun rows p => rowWrite rows p.1 pos p.2) rows) reg pos = v := by
  induction ps generalizing rows k r with
  | nil => simp at hk
  | cons p ps ih =>
    simp only [List.foldl_cons]
    simp only [List.map_cons, List.nodup_cons] at nd
    have hf := findRow_write rows p.1 pos reg p.2
    rw [hr, Option.map_some] at hf
    cases k with
    | zero =>
      simp only [List.getElem?_cons_zero, Option.some.injEq] at hk
      subst hk
      rw [rowRead_writes_other (h.write _ _ _) _ _ _ hp, rowRead_write h _ _ _ _ _ hp, if_pos ⟨by simp [hr], rfl⟩]
      refine .inr fun q hq => ?_
      rw [hf, Option.some.injEq] at hq
      have : q.id = r.id := by subst hq; split <;> rfl
      rw [this]; exact nd.1
    | succ k =>
      refine ih (h.write _ _ _) nd.2 (k := k) hf ?_
      simp only [List.getElem?_cons_succ] at hk
      rw [hk]; congr 2; split <;> rfl

/-- The results of an issue written: an active position of a destination register holds its word; every other place of
the map reads as before (R193, R147). -/
theorem rowRead_writeResults {rows : List Row} (h : RowsOk rows) {regs ids : List Nat} (hn : regs.Nodup) (hl : ids.length = regs.length)
    (hrows : ∀ (k reg : Nat), regs[k]? = some reg → ∃ r, findRow rows reg = some r ∧ ids[k]? = some r.id)
    (res : List (Nat × List Word)) (hpos : ∀ e ∈ res, e.1 < 32) (hnd : (res.map Prod.fst).Nodup)
    (hw : ∀ e ∈ res, regs.length ≤ e.2.length) :
    (∀ e ∈ res, ∀ k reg : Nat, regs[k]? = some reg → rowRead (writeResults rows ids res) reg e.1 = e.2.getD k 0)
    ∧ (∀ reg pos, reg ∉ regs ∨ pos ∉ res.map Prod.fst → rowRead (writeResults rows ids res) reg pos = rowRead rows reg pos) := by
  have idnd : ids.Nodup := by
    rw [List.nodup_iff_getElem?_ne_getElem?]
    intro i j hij hj heq
    have hi : i < ids.length := by omega
    have hi' : i < regs.length := by omega
    have hj' : j < regs.length := by omega
    obtain ⟨a, ha, ea⟩ := hrows i regs[i] (List.getElem?_eq_getElem hi')
    obtain ⟨b, hb, eb⟩ := hrows j regs[j] (List.getElem?_eq_getElem hj')
    have hid : a.id = b.id := by simpa [ea, eb] using heq
    have hab : a = b := by
      have := List.inj_on_of_nodup_map h.1 (findRow_mem ha) (findRow_mem hb) hid
      exact this
    subst hab
    have := (findRow_reg ha).symm.trans (findRow_reg hb)
    simp only [Option.some.injEq] at this
    exact absurd ((List.Nodup.getElem_inj_iff hn).mp this) (by omega)
  induction res generalizing rows with
  | nil => exact ⟨by simp, fun _ _ _ => rfl⟩
  | cons e es ih =>
    have hp := hpos e (by simp)
    have hrows' : ∀ k reg : Nat, regs[k]? = some reg →
        ∃ r, findRow ((ids.zip e.2).foldl (fun rows p => rowWrite rows p.1 e.1 p.2) rows) reg = some r ∧ ids[k]? = some r.id := by
      intro k reg hk
      obtain ⟨r, hr, hi⟩ := hrows k reg hk
      have := findRow_writes rows e.1 reg (ids.zip e.2)
      rw [hr, Option.map_some] at this
      cases hf : findRow ((ids.zip e.2).foldl (fun rows p => rowWrite rows p.1 e.1 p.2) rows) reg with
      | none => simp [hf] at this
      | some q =>
        simp only [hf, Option.map_some, Option.some.injEq] at this
        exact ⟨q, rfl, by rw [this, hi]⟩
    simp only [List.map_cons, List.nodup_cons] at hnd
    have := ih (h.writes e.1 (ids.zip e.2)) hrows' (fun x hx => hpos x (by simp [hx])) hnd.2 (fun x hx => hw x (by simp [hx]))
    constructor
    · intro x hx k reg hk
      cases List.mem_cons.mp hx with
      | inr hx => exact this.1 x hx k reg hk
      | inl hx =>
        subst hx
        have go := this.2 reg x.1 (.inr hnd.1)
        refine Eq.trans go ?_
        obtain ⟨r, hr, hi⟩ := hrows k reg hk
        have hkl : k < regs.length := (List.getElem?_eq_some_iff.mp hk).1
        have hwl := hw x (by simp)
        have hkw : k < x.2.length := by omega
        refine rowRead_writes_at h x.1 reg hp (ids.zip x.2) ?_ hr (k := k) ?_
        · rw [List.map_fst_zip (by omega)]; exact idnd
        · rw [List.getElem?_zip_eq_some]
          exact ⟨hi, by simp [List.getD_eq_getElem?_getD, List.getElem?_eq_getElem hkw]⟩
    · intro reg pos ho
      have go := this.2 reg pos (by
        cases ho with
        | inl k => exact .inl k
        | inr k => exact .inr (fun m => k (by simp only [List.map_cons, List.mem_cons]; exact .inr m)))
      refine Eq.trans go (rowRead_writes_other h e.1 reg pos hp _ ?_)
      cases ho with
      | inr k => exact .inl (fun m => k (by simp [m]))
      | inl k =>
        refine .inr fun r hr hm => ?_
        rw [List.map_fst_zip (by rw [hl]; exact hw e (by simp))] at hm
        obtain ⟨i, hi, hie⟩ := List.getElem_of_mem hm
        have hi' : i < regs.length := by omega
        obtain ⟨q, hq, hqi⟩ := hrows i regs[i] (List.getElem?_eq_getElem hi')
        rw [List.getElem?_eq_getElem hi, Option.some.injEq, hie] at hqi
        have hrq : r = q := List.inj_on_of_nodup_map h.1 (findRow_mem hr) (findRow_mem hq) hqi
        subst hrq
        have := (findRow_reg hr).symm.trans (findRow_reg hq)
        simp only [Option.some.injEq] at this
        exact k (this ▸ List.getElem_mem hi')

end Sys2Proof.Machine
end

