-- ==== Sys2Proof/Laws/Issue.lean ====
section
/-! SUPPORT. The shared course of a lane's instruction: its front, its register map, its hold, the moving of its lanes,
and the writing of its results (R132 to R148, R193 to R196). -/

namespace Sys2Proof.Machine

/-! ### The front -/

theorem State.actives_eq (s : State) (x : Iss) (f : Form) : s.actives x f = s.actsOf x f := rfl

@[simp] theorem Env.within_rows (e : Env) (x : Iss) (f : Form) (g : Sig) (act : List Act) : (e.within x f g act).rows = e.rows := by
  unfold Env.within; split <;> rfl
@[simp] theorem Env.within_lat (e : Env) (x : Iss) (f : Form) (g : Sig) (act : List Act) : (e.within x f g act).lat = e.lat := by
  unfold Env.within; split <;> rfl
@[simp] theorem Env.within_uregs (e : Env) (x : Iss) (f : Form) (g : Sig) (act : List Act) : (e.within x f g act).uregs = e.uregs := by
  unfold Env.within; split <;> rfl
@[simp] theorem State.reads_rows (s : State) (x : Iss) (f : Form) (g : Sig) : (s.reads x f g).rows = (s.env x).rows := by
  simp [State.reads]
@[simp] theorem State.reads_lat (s : State) (x : Iss) (f : Form) (g : Sig) : (s.reads x f g).lat = (s.env x).lat := by
  simp [State.reads]
@[simp] theorem State.reads_uregs (s : State) (x : Iss) (f : Form) (g : Sig) : (s.reads x f g).uregs = (s.env x).uregs := by
  simp [State.reads]
@[simp] theorem State.reads_words (s : State) (x : Iss) (f : Form) (g : Sig) (h : Form) (w p : Nat) (sl : Slot) (o : Opnd) :
    (s.reads x f g).words h w p sl o = (s.env x).words h w p sl o := by simp [Env.words]
@[simp] theorem State.reads_uwords (s : State) (x : Iss) (f : Form) (g : Sig) (h : Form) (sl : Slot) (o : Opnd) :
    (s.reads x f g).uwords h sl o = (s.env x).uwords h sl o := by simp [Env.uwords]
@[simp] theorem State.reads_slot (s : State) (x : Iss) (f : Form) (g : Sig) (h : Form) (w p : Nat) (sl : Slot) (o : Opnd) :
    (s.reads x f g).slot h w p sl o = (s.env x).slot h w p sl o := by simp [Env.slot]

/-- In a home group what an issue reads is what stands in its map, latches and uniform registers. -/
theorem State.reads_home (s : State) (x : Iss) (f : Form) (g : Sig) (h : x.carried = none) : s.reads x f g = s.env x := by
  simp [State.reads, Env.within, h]

/-- An issue that is ready passes the front with its active lanes. -/
theorem front_canIssue {i : Instr} {f : Form} {forbidden : Bool} {s : State} {x : Iss} (h : CanIssue i f forbidden s x) :
    front i f forbidden s = .go x (s.reads x f (sigOf i f)) (sigOf i f) (s.actives x f) := by
  have hb : (s.actives x f != [] && binFault x f forbidden) = false := by
    cases h.allowed with
    | inl e => simp [e]
    | inr e => simp [e]
  have hi : ((s.env x).within x f (sigOf i f) (s.actives x f)).busy x f (sigOf i f) = false := h.idle
  simp only [front, frontBin, h.issue, h.decodes, ← State.actives_eq, State.reads, hi, hb, List.any_nil, Bool.or_false,
    Bool.false_and, Bool.false_eq_true, if_false]

theorem CanIssue.cur {i : Instr} {f : Form} {forbidden : Bool} {s : State} {x : Iss} (h : CanIssue i f forbidden s x) :
    s.cur = .group x.g := by
  have h := h.issue
  unfold State.curIss? at h
  split at h
  next g hg =>
    rw [hg]
    cases g with
    | home wg w gid =>
      simp only [State.iss?, Option.bind_eq_bind, Option.bind_eq_some_iff, Option.some.injEq] at h
      obtain ⟨_, _, _, _, _, _, _, _, _, _, rfl⟩ := h
      rfl
    | reformed core slot gid =>
      simp only [State.iss?, Option.bind_eq_bind, Option.bind_eq_some_iff, Option.some.injEq] at h
      obtain ⟨_, _, _, _, _, _, _, _, rfl⟩ := h
      rfl
  · cases h

/-- What the issue of a group rests on: its warp, or its reformed group. -/
theorem CanIssue.place {i : Instr} {f : Form} {forbidden : Bool} {s : State} {x : Iss} (h : CanIssue i f forbidden s x) :
    match x.g with
    | .home wg w _ => (s.warp? wg w).isSome ∧ x.wg = wg ∧ x.warp = w
    | .reformed core slot _ => ∃ r, (s.core core).groups.find? (fun r => r.slot = slot) = some r := by
  have hc := h.cur
  have h := h.issue
  unfold State.curIss? at h
  rw [hc] at h
  simp only at h
  generalize hg : x.g = g at h
  cases g with
  | home wg w gid =>
    simp only [State.iss?, Option.bind_eq_bind, Option.bind_eq_some_iff, Option.some.injEq] at h
    obtain ⟨a, ha, b, hb, _, _, _, _, _, _, rfl⟩ := h
    exact ⟨by simp [State.warp?, ha, hb], rfl, rfl⟩
  | reformed core slot gid =>
    simp only [State.iss?, Option.bind_eq_bind, Option.bind_eq_some_iff, Option.some.injEq] at h
    obtain ⟨a, ha, _⟩ := h
    exact ⟨a, ha⟩

/-- The active lanes are members, with the lanes the state holds for them. -/
theorem mem_actives {s : State} {x : Iss} {f : Form} {a : Act} (h : a ∈ s.actives x f) :
    a.m ∈ x.members ∧ s.lane? a.m.ref = some a.lane ∧ guardOf f a.lane = true := by
  simp only [State.actives, List.mem_filterMap, Option.bind_eq_some_iff] at h
  obtain ⟨m, hm, l, hl, hg⟩ := h
  split at hg
  next g =>
    cases hg
    exact ⟨hm, hl, g⟩
  · cases hg

theorem actives_sublist (s : State) (x : Iss) (f : Form) : List.Sublist ((s.actives x f).map Act.m) x.members := by
  unfold State.actives
  induction x.members with
  | nil => exact List.Sublist.slnil
  | cons m ms ih =>
    simp only [List.filterMap_cons]
    cases hl : s.lane? m.ref with
    | none => simpa using ih.cons m
    | some l =>
      by_cases hg : guardOf f l
      · simpa [hg] using ih.cons_cons m
      · simpa [hg] using ih.cons m

/-! ### A group's map and hold -/

@[simp] theorem releaseLu_eq (f : Form) (g : Sig) (wbase : Nat) (rows : List Row) :
    releaseLu f g wbase rows = (luRegs f g wbase).foldl releaseReg rows := rfl

theorem State.raise_nil (s : State) : s.raise [] = s := rfl

/-- The map of an issue after a map is set. -/
theorem State.rowsOf_updWarp (s : State) (x : Iss) (wg w : Nat) (k : Warp → Warp) (hk : ∀ v, (k v).rows = v.rows) :
    (s.updWarp wg w k).rowsOf x = s.rowsOf x := by
  unfold State.rowsOf
  cases x.g with
  | home a b _ =>
    simp only [State.warp?_updWarp]
    split
    · cases s.warp? a b <;> simp [hk]
    · rfl
  | reformed core slot gid => rfl

theorem State.rowsOf_setRows {i : Instr} {f : Form} {forbidden : Bool} {s : State} {x : Iss} (h : CanIssue i f forbidden s x)
    (rows : List Row) : (s.setRows x rows).rowsOf x = rows := by
  have hp := h.place
  unfold State.rowsOf State.setRows
  cases hg : x.g with
  | home wg w gid =>
    rw [hg] at hp
    simp only at hp
    obtain ⟨v, hv⟩ := Option.isSome_iff_exists.mp hp.1
    simp [State.warp?_updWarp, hv]
  | reformed core slot gid =>
    rw [hg] at hp
    simp only at hp
    obtain ⟨r, hr⟩ := hp
    simp only
    rw [State.core_updCore]
    · simp only [if_true]
      rw [mapIf_find? _ _ _ _ (by simp), hr]
      have := List.find?_some hr
      simp_all
    · intro c; rfl

theorem RegisterFrame.refl (x : Iss) (s : State) : RegisterFrame x s s := by
  refine ⟨⟨s.wgs, s.ctl, s.cores, s.pipes, rfl⟩, fun _ => rfl, fun id => ?_, fun wg w => ?_, fun _ => rfl, fun _ _ => rfl,
    fun _ _ _ => rfl, fun _ _ _ _ => rfl⟩
  · cases s.wg? id <;> simp
  · cases s.warp? wg w <;> simp

theorem RegisterFrame.trans {x : Iss} {s t u : State} (h : RegisterFrame x s t) (k : RegisterFrame x t u) : RegisterFrame x s u := by
  refine ⟨?_, fun a => (k.memory a).trans (h.memory a), fun id => ?_, fun wg w => ?_, fun v => ?_,
    fun r hr => (k.lanes r hr).trans (h.lanes r hr), fun wg w hw => (k.maps wg w hw).trans (h.maps wg w hw),
    fun c n i hp => (k.pipes c n i hp).trans (h.pipes c n i hp)⟩
  · obtain ⟨w1, l1, c1, p1, rfl⟩ := h.package
    obtain ⟨w2, l2, c2, p2, rfl⟩ := k.package
    exact ⟨w2, l2, c2, p2, rfl⟩
  · have h1 := h.workgroups id
    have h2 := k.workgroups id
    cases hs : s.wg? id with
    | none => rw [hs] at h1; simp only [Option.map_none] at h1; rw [h1] at h2; simpa using h2
    | some g =>
      rw [hs] at h1; simp only [Option.map_some] at h1
      rw [h1] at h2; simp only [Option.map_some] at h2
      rw [h2]; simp
  · have h1 := h.warps wg w
    have h2 := k.warps wg w
    cases hs : s.warp? wg w with
    | none => rw [hs] at h1; simp only [Option.map_none] at h1; rw [h1] at h2; simpa using h2
    | some g =>
      rw [hs] at h1; simp only [Option.map_some] at h1
      rw [h1] at h2; simp only [Option.map_some] at h2
      rw [h2]; simp
  · rw [k.cores v, h.cores v]

/-- A change of a warp within the frame. -/
theorem RegisterFrame.updWarp (x : Iss) (s : State) (wg w : Nat) (k : Warp → Warp)
    (hk : ∀ v, k v = { v with rows := (k v).rows, lanes := (k v).lanes, ring := (k v).ring, fpstat := (k v).fpstat, uregs := (k v).uregs })
    (hl : ∀ v i, (⟨wg, w, i⟩ : LaneRef) ∉ x.members.map Member.ref → (k v).lanes[i]? = v.lanes[i]?)
    (hr : x.homeOf wg w ∨ ∀ v, (k v).rows = v.rows) : RegisterFrame x s (s.updWarp wg w k) := by
  refine ⟨⟨_, _, _, _, rfl⟩, fun _ => rfl, fun id => ?_, fun a b => ?_, fun _ => rfl, fun r hm => ?_, fun a b hab => ?_,
    fun _ _ _ _ => rfl⟩
  · rw [State.wg?_updWarp]
    split
    · cases s.wg? id <;> simp
    · cases s.wg? id <;> simp
  · rw [State.warp?_updWarp]
    split
    · cases s.warp? a b with
      | none => rfl
      | some v => simp only [Option.map_some, Option.getD_some]; rw [← hk]
    · cases s.warp? a b <;> simp
  · simp only [State.lane?, State.warp?_updWarp]
    split
    next h =>
      cases hv : s.warp? r.wg r.warp with
      | none => rfl
      | some v =>
        simp only [Option.map_some, Option.bind_some]
        refine hl v r.lane ?_
        obtain ⟨rfl, rfl⟩ := h
        exact hm
    · rfl
  · rw [State.warp?_updWarp]
    split
    next h =>
      cases hr with
      | inl e => exact absurd (by rw [h.1, h.2]; exact e) hab
      | inr e => cases s.warp? a b <;> simp [e]
    · rfl

/-- A change of the groups of a core. -/
theorem RegisterFrame.updCore (x : Iss) (s : State) (core : Nat) (k : Core → Core) (hk : ∀ c, k c = { c with groups := (k c).groups }) :
    RegisterFrame x s (s.updCore core k) := by
  refine ⟨?_, fun a => by simp, fun id => ?_, fun a b => ?_, fun v => ?_, fun r _ => ?_, fun a b _ => ?_, fun _ _ _ _ => ?_⟩
  · unfold State.updCore; split <;> exact ⟨_, _, _, _, rfl⟩
  · rw [State.wg?_updCore]; cases s.wg? id <;> simp
  · rw [State.warp?_updCore]; cases s.warp? a b <;> simp
  · rw [State.core_updCore _ _ _ _ (fun c => by rw [hk])]
    split
    · exact hk _
    · rfl
  · simp [State.lane?]
  · simp
  · simp [State.pipe]

/-- A change of the latches of the issue's pipe. -/
theorem RegisterFrame.setPipe (x : Iss) (s : State) (p : Pipe) (hc : p.core = x.core) (hn : p.pane = x.pane) (hi : p.pipe = x.pipe) :
    RegisterFrame x s (s.setPipe p) := by
  refine ⟨?_, fun a => by simp, fun id => ?_, fun a b => ?_, fun v => ?_, fun r _ => ?_, fun a b _ => ?_, fun c n i h => ?_⟩
  · unfold State.setPipe; dsimp only; split <;> exact ⟨_, _, _, _, rfl⟩
  · rw [State.wg?_setPipe]; cases s.wg? id <;> simp
  · rw [State.warp?_setPipe]; cases s.warp? a b <;> simp
  · simp [State.core]
  · simp [State.lane?]
  · simp
  · rw [State.pipe_setPipe, hc, hn, hi, if_neg h]

end Sys2Proof.Machine
end

