-- ==== Sys2Proof/Laws/Results.lean ====
section
/-! SUPPORT. Each shared operation of an issue's results, said once: what it changes and that it stays within the frame. -/

namespace Sys2Proof.Machine

/-! ### The hold of a group -/

theorem State.lane?_updCore (s : State) (c : Nat) (k : Core → Core) (r : LaneRef) : (s.updCore c k).lane? r = s.lane? r := by
  simp [State.lane?, State.warp?_updCore]

theorem State.lane?_setPipe (s : State) (p : Pipe) (r : LaneRef) : (s.setPipe p).lane? r = s.lane? r := by
  simp [State.lane?, State.warp?_setPipe]

theorem State.rowsOf_setPipe (s : State) (p : Pipe) (x : Iss) : (s.setPipe p).rowsOf x = s.rowsOf x := by
  simp [State.rowsOf, State.warp?_setPipe, State.core]

theorem State.setHold_frame (x : Iss) (s : State) (g : GroupRef) (h : Option Hold) : RegisterFrame x s (s.setHold g h) := by
  cases g with
  | home wg w gid => exact RegisterFrame.updWarp x s wg w _ (fun _ => rfl) (fun _ _ _ => rfl) (.inr fun _ => rfl)
  | reformed core slot gid =>
    simp only [State.setHold, State.updGroup]
    exact RegisterFrame.updCore x s core _ (fun _ => rfl)

/-- A hold that changes leaves lanes, maps, FPSTAT, uniform registers and latches. -/
theorem State.setHold_lane? (s : State) (g : GroupRef) (h : Option Hold) (r : LaneRef) : (s.setHold g h).lane? r = s.lane? r := by
  cases g with
  | home wg w gid => exact s.lane?_updWarp wg w _ r (fun _ => rfl)
  | reformed core slot gid => exact s.lane?_updCore core _ r

theorem State.setHold_warp (s : State) (g : GroupRef) (h : Option Hold) {α : Type} (k : Warp → α)
    (hk : ∀ (v : Warp) ring, k { v with ring := ring } = k v) (wg w : Nat) :
    ((s.setHold g h).warp? wg w).map k = (s.warp? wg w).map k := by
  cases g with
  | home a b gid =>
    simp only [State.setHold, State.updGroup, State.warp?_updWarp]
    split
    · cases s.warp? wg w <;> simp [hk]
    · rfl
  | reformed core slot gid => simp only [State.setHold, State.updGroup, State.warp?_updCore]

theorem State.setHold_rowsOf (s : State) (g : GroupRef) (h : Option Hold) (x : Iss) : (s.setHold g h).rowsOf x = s.rowsOf x := by
  cases g with
  | home wg w gid => exact s.rowsOf_updWarp x wg w _ (fun _ => rfl)
  | reformed core slot gid =>
    unfold State.rowsOf State.setHold State.updGroup
    cases x.g with
    | home a b c => simp only [State.warp?_updCore]
    | reformed a b d =>
      simp only
      rw [State.core_updCore]
      rotate_left
      · intro c; rfl
      split
      next e =>
        subst e
        rw [mapIf_find? _ _ _ _ (by simp)]
        cases (s.core a).groups.find? (fun r => decide (r.slot = b)) with
        | none => rfl
        | some r => simp only [Option.map_some, Option.getD_some]; split <;> rfl
      · rfl

theorem State.setHold_pipes (s : State) (g : GroupRef) (h : Option Hold) : (s.setHold g h).pipes = s.pipes := by
  cases g <;> simp [State.setHold, State.updGroup]

/-! ### Lanes -/

theorem State.updLane_frame (x : Iss) (s : State) (r : LaneRef) (k : Lane → Lane) (h : r ∈ x.members.map Member.ref) :
    RegisterFrame x s (s.updLane r k) := by
  refine RegisterFrame.updWarp x s r.wg r.warp _ (fun _ => rfl) (fun v i hi => ?_) (.inr fun _ => rfl)
  simp only [mapNth_getElem?]
  rw [if_neg]
  rintro rfl
  exact hi h

theorem State.updLanes_frame (x : Iss) (s : State) (rs : List LaneRef) (k : Lane → Lane) (h : ∀ r ∈ rs, r ∈ x.members.map Member.ref) :
    RegisterFrame x s (s.updLanes rs k) := by
  induction rs generalizing s with
  | nil => exact RegisterFrame.refl x s
  | cons r rs ih =>
    exact (s.updLane_frame x r k (h r (by simp))).trans (ih (s.updLane r k) (fun q hq => h q (by simp [hq])))

theorem State.updLane_warp (s : State) (r : LaneRef) (k : Lane → Lane) {α : Type} (q : Warp → α)
    (hq : ∀ (v : Warp) lanes, q { v with lanes := lanes } = q v) (wg w : Nat) :
    ((s.updLane r k).warp? wg w).map q = (s.warp? wg w).map q := by
  rw [State.warp?_updLane]
  split
  · cases s.warp? wg w <;> simp [hq]
  · rfl

theorem State.updLanes_warp (s : State) (rs : List LaneRef) (k : Lane → Lane) {α : Type} (q : Warp → α)
    (hq : ∀ (v : Warp) lanes, q { v with lanes := lanes } = q v) (wg w : Nat) :
    ((s.updLanes rs k).warp? wg w).map q = (s.warp? wg w).map q := by
  induction rs generalizing s with
  | nil => rfl
  | cons r rs ih => exact (ih (s.updLane r k)).trans (s.updLane_warp r k q hq wg w)

theorem State.updLane_rowsOf (s : State) (r : LaneRef) (k : Lane → Lane) (x : Iss) : (s.updLane r k).rowsOf x = s.rowsOf x :=
  s.rowsOf_updWarp x r.wg r.warp _ (fun _ => rfl)

theorem State.updLanes_rowsOf (s : State) (rs : List LaneRef) (k : Lane → Lane) (x : Iss) : (s.updLanes rs k).rowsOf x = s.rowsOf x := by
  induction rs generalizing s with
  | nil => rfl
  | cons r rs ih => exact (ih (s.updLane r k)).trans (s.updLane_rowsOf r k x)

theorem State.updLanes_pipes (s : State) (rs : List LaneRef) (k : Lane → Lane) : (s.updLanes rs k).pipes = s.pipes := by
  induction rs generalizing s with
  | nil => rfl
  | cons r rs ih => exact ih (s.updLane r k)

theorem State.moveLanes_lane? (s : State) (rs : List LaneRef) (pc : Word) (q : LaneRef) :
    (s.moveLanes rs pc).lane? q = if q ∈ rs then (s.lane? q).map (fun l => { l with pc := pc }) else s.lane? q :=
  s.lane?_updLanes rs q _ (fun _ => rfl)

/-! ### The end of an issue without faults -/

/-- An issue that ends without faults: every member stands at the next PC, and nothing else the claims speak of changes. -/
structure EndsPlain (x : Iss) (f : Form) (s t : State) : Prop where
  lanes : ∀ r, t.lane? r = if r ∈ x.members.map Member.ref then (s.lane? r).map (fun l => { l with pc := nextPc f x.pc }) else s.lane? r
  warps : ∀ {α : Type} (q : Warp → α), (∀ (v : Warp) lanes, q { v with lanes := lanes } = q v) →
    (∀ (v : Warp) ring, q { v with ring := ring } = q v) → ∀ wg w, (t.warp? wg w).map q = (s.warp? wg w).map q
  map   : t.rowsOf x = s.rowsOf x
  pipes : t.pipes = s.pipes
  frame : RegisterFrame x s t

theorem State.endIssue_plain (s : State) (x : Iss) (f : Form) : EndsPlain x f s (s.endIssue x f []) := by
  have e : s.endIssue x f [] = ((s.setHold x.g none).moveLanes (x.members.map Member.ref) (nextPc f x.pc)) := by
    simp [State.endIssue, State.raise_nil]
  rw [e]
  refine ⟨fun r => ?_, fun q h1 h2 wg w => ?_, ?_, ?_, ?_⟩
  · rw [State.moveLanes_lane?, State.setHold_lane?]
  · exact (State.updLanes_warp _ _ _ q h1 wg w).trans (s.setHold_warp x.g none q h2 wg w)
  · exact (State.updLanes_rowsOf _ _ _ x).trans (s.setHold_rowsOf x.g none x)
  · exact (State.updLanes_pipes _ _ _).trans (s.setHold_pipes x.g none)
  · exact (s.setHold_frame x x.g none).trans (State.updLanes_frame x _ _ _ (fun r hr => hr))

/-! ### FPSTAT -/

theorem State.addFlags_frame (x : Iss) (s : State) (r : LaneRef) (fl : Flags) : RegisterFrame x s (s.addFlags r fl) := by
  unfold State.addFlags
  split
  · exact RegisterFrame.refl x s
  · exact RegisterFrame.updWarp x s r.wg r.warp _ (fun _ => rfl) (fun _ _ _ => rfl) (.inr fun _ => rfl)

theorem State.addFlags_lane? (s : State) (r : LaneRef) (fl : Flags) (q : LaneRef) : (s.addFlags r fl).lane? q = s.lane? q := by
  unfold State.addFlags
  split
  · rfl
  · exact s.lane?_updWarp _ _ _ _ (fun _ => rfl)

theorem State.addFlags_warp (s : State) (r : LaneRef) (fl : Flags) {α : Type} (q : Warp → α)
    (hq : ∀ (v : Warp) n, q { v with fpstat := n } = q v) (wg w : Nat) :
    ((s.addFlags r fl).warp? wg w).map q = (s.warp? wg w).map q := by
  unfold State.addFlags
  split
  · rfl
  · rw [State.warp?_updWarp]
    split
    · cases s.warp? wg w <;> simp [hq]
    · rfl

theorem State.addFlags_fpstat (s : State) (r : LaneRef) (fl : Flags) (wg w : Nat) :
    ((s.addFlags r fl).warp? wg w).map Warp.fpstat
      = (s.warp? wg w).map fun v => v.fpstat ||| if r.wg = wg ∧ r.warp = w then fl.setWidth 32 else 0 := by
  unfold State.addFlags
  split
  next h => subst h; simp
  next h =>
    rw [State.warp?_updWarp]
    by_cases e : wg = r.wg ∧ w = r.warp
    · rw [if_pos e, Option.map_map]
      refine congrArg (fun k => (s.warp? wg w).map k) (funext fun v => ?_)
      simp [e.1, e.2]
    · rw [if_neg e]
      refine congrArg (fun k => (s.warp? wg w).map k) (funext fun v => ?_)
      rw [if_neg (fun k => e ⟨k.1.symm, k.2.symm⟩)]; simp

theorem State.addFlags_rowsOf (s : State) (r : LaneRef) (fl : Flags) (x : Iss) : (s.addFlags r fl).rowsOf x = s.rowsOf x := by
  unfold State.addFlags
  split
  · rfl
  · exact s.rowsOf_updWarp x _ _ _ (fun _ => rfl)

theorem State.addFlags_pipes (s : State) (r : LaneRef) (fl : Flags) : (s.addFlags r fl).pipes = s.pipes := by
  unfold State.addFlags; split <;> rfl

/-- One lane's flags taken into those of a warp. -/
def flagStep (wg w : Nat) (acc : Word) (r : LaneRes) : Word :=
  if r.a.m.ref.wg = wg ∧ r.a.m.ref.warp = w then acc ||| r.raised.setWidth 32 else acc

theorem flagStep_foldl (wg w : Nat) (rs : List LaneRes) (acc : Word) :
    rs.foldl (flagStep wg w) acc = acc ||| rs.foldl (flagStep wg w) 0 := by
  induction rs generalizing acc with
  | nil => simp
  | cons r rs ih =>
    simp only [List.foldl_cons]
    rw [ih, ih (flagStep wg w 0 r)]
    unfold flagStep
    split
    · rw [BitVec.or_assoc]; simp
    · simp

theorem State.addAllFlags_spec (x : Iss) (s : State) (rs : List LaneRes) :
    RegisterFrame x s (s.addAllFlags rs) ∧ (∀ q, (s.addAllFlags rs).lane? q = s.lane? q)
    ∧ (∀ {α : Type} (q : Warp → α), (∀ (v : Warp) n, q { v with fpstat := n } = q v) → ∀ wg w,
        ((s.addAllFlags rs).warp? wg w).map q = (s.warp? wg w).map q)
    ∧ FlagsSet rs s (s.addAllFlags rs) ∧ (s.addAllFlags rs).rowsOf x = s.rowsOf x ∧ (s.addAllFlags rs).pipes = s.pipes := by
  suffices h : ∀ (rs : List LaneRes) (s : State),
      RegisterFrame x s (s.addAllFlags rs) ∧ (∀ q, (s.addAllFlags rs).lane? q = s.lane? q)
      ∧ (∀ {α : Type} (q : Warp → α), (∀ (v : Warp) n, q { v with fpstat := n } = q v) → ∀ wg w,
          ((s.addAllFlags rs).warp? wg w).map q = (s.warp? wg w).map q)
      ∧ (∀ wg w, ((s.addAllFlags rs).warp? wg w).map Warp.fpstat = (s.warp? wg w).map fun v => rs.foldl (flagStep wg w) v.fpstat)
      ∧ (s.addAllFlags rs).rowsOf x = s.rowsOf x ∧ (s.addAllFlags rs).pipes = s.pipes by
    obtain ⟨a, b, c, d, e⟩ := h rs s
    refine ⟨a, b, c, fun wg w => ?_, e⟩
    rw [d wg w]
    exact congrArg (fun k => (s.warp? wg w).map k) (funext fun v => flagStep_foldl wg w rs _)
  intro rs
  induction rs with
  | nil =>
    intro s
    exact ⟨RegisterFrame.refl x s, fun _ => rfl, fun _ _ _ _ => rfl, fun wg w => rfl, rfl, rfl⟩
  | cons r rs ih =>
    intro s
    have e : s.addAllFlags (r :: rs) = (s.addFlags r.a.m.ref r.raised).addAllFlags rs := rfl
    obtain ⟨a, b, c, d, m, p⟩ := ih (s.addFlags r.a.m.ref r.raised)
    rw [e]
    refine ⟨(s.addFlags_frame x _ _).trans a, fun q => (b q).trans (s.addFlags_lane? _ _ q),
      fun q hq wg w => (c q hq wg w).trans (s.addFlags_warp _ _ q hq wg w), fun wg w => ?_,
      m.trans (s.addFlags_rowsOf _ _ x), p.trans (s.addFlags_pipes _ _)⟩
    have h2 := s.addFlags_fpstat r.a.m.ref r.raised wg w
    rw [d wg w]
    generalize hA : (s.addFlags r.a.m.ref r.raised).warp? wg w = A at h2 ⊢
    cases A with
    | none =>
      cases hs : s.warp? wg w with
      | none => rfl
      | some v => simp [hs] at h2
    | some u =>
      cases hs : s.warp? wg w with
      | none => simp [hs] at h2
      | some v =>
        simp only [hs, Option.map_some, Option.some.injEq] at h2 ⊢
        rw [h2, List.foldl_cons]
        refine congrArg (fun a => rs.foldl (flagStep wg w) a) ?_
        unfold flagStep
        split <;> simp

/-! ### Latches (R138) -/

theorem shiftLatches_at (lat : List (List Latch)) (entry : Nat → Latch) (pos n : Nat) (hp : pos < 32) (hn : n < 8) :
    latchAt (shiftLatches lat entry) pos n = if n = 0 then entry pos else latchAt lat pos (n - 1) := by
  have : (shiftLatches lat entry).getD pos [] = entry pos :: (lat.getD pos (List.replicate 8 .empty)).take 7 := by
    simp [shiftLatches, List.getD_eq_getElem?_getD, hp]
  unfold latchAt
  rw [this]
  cases n with
  | zero => rfl
  | succ n =>
    simp only [List.getD_cons_succ, Nat.add_one_sub_one]
    rw [if_neg (by omega), List.getD_eq_getElem?_getD, List.getElem?_take, if_pos (by omega), ← List.getD_eq_getElem?_getD]
    simp only [List.getD_eq_getElem?_getD]
    cases lat[pos]? with
    | some c => rfl
    | none =>
      simp only [Option.getD_none]
      rw [List.getElem?_replicate]; split <;> rfl

/-- After `words` shifts, the newest latch holds the last word, and older entries have moved up. -/
theorem shifts_at (lat : List (List Latch)) (entry : Nat → Nat → Latch) (words pos n : Nat) (hp : pos < 32) (hn : n < 8) :
    latchAt ((List.range words).foldl (fun lat k => shiftLatches lat (entry k)) lat) pos n
      = if n < words then entry (words - 1 - n) pos else latchAt lat pos (n - words) := by
  induction words generalizing n with
  | zero => simp
  | succ w ih =>
    rw [List.range_succ, List.foldl_append, List.foldl_cons, List.foldl_nil, shiftLatches_at _ _ _ _ hp hn]
    cases n with
    | zero => simp
    | succ n =>
      rw [if_neg (by omega), Nat.add_one_sub_one, ih n (by omega)]
      by_cases h : n < w
      · rw [if_pos h, if_pos (by omega)]; congr 1; omega
      · rw [if_neg h, if_neg (by omega)]; congr 1; omega

theorem State.shiftPipe_frame (x : Iss) (s : State) (words : Nat) (entry : Nat → Nat → Latch) :
    RegisterFrame x s (s.shiftPipe x words entry) := by
  have key : ∀ c n i, (s.pipe c n i).core = c ∧ (s.pipe c n i).pane = n ∧ (s.pipe c n i).pipe = i := by
    intro c n i
    unfold State.pipe
    cases hf : s.pipes.find? (fun p => decide (p.core = c) && decide (p.pane = n) && decide (p.pipe = i)) with
    | none => exact ⟨rfl, rfl, rfl⟩
    | some p =>
      have := List.find?_some hf
      simp only [Bool.and_eq_true, decide_eq_true_eq] at this
      exact ⟨this.1.1, this.1.2, this.2⟩
  obtain ⟨h1, h2, h3⟩ := key x.core x.pane x.pipe
  exact RegisterFrame.setPipe x s _ h1 h2 h3

theorem State.shiftPipe_latch (x : Iss) (s : State) (words : Nat) (entry : Nat → Nat → Latch) (pos n : Nat) (hp : pos < 32) (hn : n < 8) :
    (s.shiftPipe x words entry).readLatch x pos n = if n < words then entry (words - 1 - n) pos else s.readLatch x pos (n - words) := by
  have key : ∀ c n i, (s.pipe c n i).core = c ∧ (s.pipe c n i).pane = n ∧ (s.pipe c n i).pipe = i := by
    intro c n i
    unfold State.pipe
    cases hf : s.pipes.find? (fun p => decide (p.core = c) && decide (p.pane = n) && decide (p.pipe = i)) with
    | none => exact ⟨rfl, rfl, rfl⟩
    | some p =>
      have := List.find?_some hf
      simp only [Bool.and_eq_true, decide_eq_true_eq] at this
      exact ⟨this.1.1, this.1.2, this.2⟩
  obtain ⟨h1, h2, h3⟩ := key x.core x.pane x.pipe
  unfold State.readLatch State.shiftPipe
  rw [State.pipe_setPipe, if_pos ⟨h1.symm, h2.symm, h3.symm⟩]
  exact shifts_at _ entry words pos n hp hn

end Sys2Proof.Machine
end

