-- ==== Sys2Proof/Laws/Commit.lean ====
section
/-! SUPPORT. The writing of results: vector, predicate and uniform destinations, each said once (R138 to R148, R193 to
R196). -/

namespace Sys2Proof.Machine

theorem slotRegs_nodup (f : Form) (wbase : Nat) (s : Slot) (o : Opnd) : (slotRegs f wbase s o).Nodup := by
  unfold slotRegs
  split
  · exact (List.nodup_range).map (fun a b h => Nat.add_right_cancel h)
  · exact List.nodup_nil

/-- What the results of an issue have in common: one for each active lane, at least as wide as the destination. -/
structure ResultsOk (s : State) (x : Iss) (f : Form) (g : Sig) (rs : List LaneRes) : Prop where
  acts  : rs.map LaneRes.a = s.actives x f
  width : ∀ r ∈ rs, (dstRegs f g x.wbase).length ≤ r.words.length

theorem ResultsOk.mem {s : State} {x : Iss} {f : Form} {g : Sig} {rs : List LaneRes} (h : ResultsOk s x f g rs) {r : LaneRes}
    (hr : r ∈ rs) : r.a ∈ s.actives x f := h.acts ▸ List.mem_map_of_mem hr

theorem ResultsOk.poss {s : State} {x : Iss} {f : Form} {g : Sig} {rs : List LaneRes} (h : ResultsOk s x f g rs) (ok : IssueOk s x) :
    (rs.map fun r => r.a.m.pos).Nodup := by
  have e : (rs.map fun r => r.a.m.pos) = ((s.actives x f).map Act.m).map Member.pos := by
    rw [← h.acts]; simp
  rw [e]
  exact ((actives_sublist s x f).map Member.pos).nodup ok.poss

/-- A result found by its position. -/
theorem find_pos {α : Type} (l : List (Nat × α)) (hn : (l.map Prod.fst).Nodup) {e : Nat × α} (h : e ∈ l) :
    l.find? (fun r => decide (r.1 = e.1)) = some e := by
  induction l with
  | nil => simp at h
  | cons a as ih =>
    simp only [List.map_cons, List.nodup_cons] at hn
    cases List.mem_cons.mp h with
    | inl k => subst k; simp
    | inr k =>
      have : a.1 ≠ e.1 := fun q => hn.1 (q ▸ List.mem_map_of_mem k)
      simp [this, ih hn.2 k]

/-- A map set: what else the claims speak of stays. -/
theorem State.setRows_spec {i : Instr} {forbidden : Bool} {s : State} {x : Iss} {f : Form} (hc : CanIssue i f forbidden s x)
    (rows : List Row) :
    (s.setRows x rows).rowsOf x = rows ∧ RegisterFrame x s (s.setRows x rows) ∧ (∀ r, (s.setRows x rows).lane? r = s.lane? r)
    ∧ (∀ {α : Type} (q : Warp → α), (∀ (v : Warp) rows, q { v with rows := rows } = q v) → ∀ wg w,
        ((s.setRows x rows).warp? wg w).map q = (s.warp? wg w).map q)
    ∧ (s.setRows x rows).pipes = s.pipes := by
  refine ⟨s.rowsOf_setRows hc rows, ?_, fun r => ?_, fun q hq wg w => ?_, ?_⟩
  · simp only [State.setRows]
    cases hg : x.g with
    | home wg w gid =>
      refine RegisterFrame.updWarp x s wg w _ (fun _ => rfl) (fun _ _ _ => rfl) (.inl ?_)
      unfold Iss.homeOf; rw [hg]; exact ⟨rfl, rfl⟩
    | reformed core slot => exact RegisterFrame.updCore x s core _ (fun _ => rfl)
  · simp only [State.setRows]
    cases x.g with
    | home wg w gid => exact s.lane?_updWarp _ _ _ _ (fun _ => rfl)
    | reformed core slot => exact s.lane?_updCore _ _ _
  · simp only [State.setRows]
    cases x.g with
    | home a b gid =>
      simp only [State.warp?_updWarp]
      split
      · cases s.warp? wg w <;> simp [hq]
      · rfl
    | reformed core slot => simp only [State.warp?_updCore]
  · simp only [State.setRows]
    cases x.g <;> simp

/-- What preparing the destination registers gives: a map that reads as before, with a row for each (R146, R147). -/
theorem prepDest_spec {lim : MapLimit} {rows : List Row} {regs : List Nat} {writes covers : Bool} {p : List Row × List Nat}
    (ok : RowsOk rows) (idle : ∀ reg ∈ regs, rowBusy rows reg = false) (hp : prepDest lim rows regs writes covers = .inr p) :
    RowsOk p.1 ∧ (∀ reg pos, rowRead p.1 reg pos = rowRead rows reg pos)
    ∧ (writes = true → p.2.length = regs.length ∧ ∀ (k reg : Nat), regs[k]? = some reg → ∃ r, findRow p.1 reg = some r ∧ p.2[k]? = some r.id)
    ∧ (writes = false → p.2 = []) := by
  have never : ∀ (regs : List Nat) (rows : List Row), prepRegs lim covers rows regs ≠ none := by
    intro regs
    induction regs with
    | nil => intro rows; simp [prepRegs]
    | cons reg rest ih =>
      intro rows
      simp only [prepRegs]
      split
      · simp
      · simp
      next rows' id _ =>
        split
        · simp
        · exact ih rows'
  unfold prepDest at hp
  split at hp
  next hcase =>
    cases hp
    refine ⟨ok, fun _ _ => rfl, fun hw => ?_, fun _ => rfl⟩
    have hreg : regs = [] := by simpa [hw] using hcase
    rw [hreg]; exact ⟨rfl, fun k reg e => by simp at e⟩
  next hcase =>
    split at hp
    next r heq =>
      subst hp
      have := prepRegs_spec ok idle heq
      exact ⟨this.ok, this.read, fun _ => ⟨this.len, this.row⟩, fun h => absurd (by simp [h]) hcase⟩
    next heq => exact absurd heq (never _ _)

theorem State.commitVec_spec {i : Instr} {forbidden : Bool} {s : State} {x : Iss} {f : Form} {g : Sig} {rs : List LaneRes}
    (hc : CanIssue i f forbidden s x) (ok : IssueOk s x) (hr : ResultsOk s x f g rs) (hd : DestOk s x f g rs.length)
    (h8 : (dstRegs f g x.wbase).length ≤ 8) :
    VectorResult x f g (s.actives x f) rs s (s.commitVec x f g (s.actives x f) rs []) := by
  obtain ⟨p, hp⟩ := hd.room
  have hbusy : ∀ reg ∈ dstRegs f g x.wbase, rowBusy (releaseLu f g x.wbase (s.rowsOf x)) reg = false :=
    fun reg hreg => rowBusy_releases _ _ _ (hd.idle reg hreg)
  have hidle : (!f.nwb && decide ((s.actives x f).length < x.members.length)
      && (dstRegs f g x.wbase).any (rowBusy (releaseLu f g x.wbase (s.rowsOf x)))) = false := by
    have : (dstRegs f g x.wbase).any (rowBusy (releaseLu f g x.wbase (s.rowsOf x))) = false := by
      simpa [List.any_eq_false] using hbusy
    rw [this, Bool.and_false]
  have hne : (rs != []) = (rs.length != 0) := by cases rs <;> rfl
  -- the map before the results are written
  have ok0 : RowsOk (releaseLu f g x.wbase (s.rowsOf x)) := ok.rows.releases _
  have read0 : ∀ reg pos, rowRead (releaseLu f g x.wbase (s.rowsOf x)) reg pos
      = if reg ∈ luRegs f g x.wbase then 0 else s.readReg x reg pos := fun reg pos => rowRead_releases _ _ _ _
  obtain ⟨okp, readp, hids', hnids⟩ := prepDest_spec ok0 hbusy hp
  have hids : f.nwb = false → rs ≠ [] → p.2.length = (dstRegs f g x.wbase).length ∧ ∀ (k reg : Nat),
      (dstRegs f g x.wbase)[k]? = some reg → ∃ r, findRow p.1 reg = some r ∧ p.2[k]? = some r.id := fun hn hrs =>
    hids' (by cases rs <;> simp_all)
  have hnwbids : f.nwb = true → p.2 = [] := fun hn => hnids (by simp [hn])
  let res : List (Nat × List Word) := rs.map fun r => (r.a.m.pos, r.words)
  have hresnd : (res.map Prod.fst).Nodup := by
    have : res.map Prod.fst = rs.map fun r => r.a.m.pos := by simp [res]
    rw [this]; exact hr.poss ok
  have hrespos : ∀ e ∈ res, e.1 < 32 := by
    intro e he
    simp only [res, List.mem_map] at he
    obtain ⟨r, hm, rfl⟩ := he
    exact ok.pos _ (mem_actives (hr.mem hm)).1
  have hreslen : ∀ e ∈ res, (dstRegs f g x.wbase).length ≤ e.2.length := by
    intro e he
    simp only [res, List.mem_map] at he
    obtain ⟨r, hm, rfl⟩ := he
    exact hr.width r hm
  let rows2 := writeResults p.1 p.2 res
  -- the final map
  have final : (f.nwb = false → ∀ r ∈ rs, ∀ k reg : Nat, (dstRegs f g x.wbase)[k]? = some reg →
        rowRead rows2 reg r.a.m.pos = r.words.getD k 0)
      ∧ (∀ reg pos, f.nwb = true ∨ reg ∉ dstRegs f g x.wbase ∨ pos ∉ rs.map (fun r => r.a.m.pos) →
        rowRead rows2 reg pos = rowRead p.1 reg pos) := by
    cases hn : f.nwb with
    | true =>
      have : p.2 = [] := hnwbids hn
      have hz : rows2 = p.1 := by
        simp only [rows2, this, writeResults, List.zip_nil_left, List.foldl_nil]
        generalize res = l
        induction l with
        | nil => rfl
        | cons a as ih => exact ih
      exact ⟨by simp, fun _ _ _ => by rw [hz]⟩
    | false =>
      by_cases hrs : rs = []
      · have hz : rows2 = p.1 := by simp [rows2, res, hrs, writeResults]
        exact ⟨by simp [hrs], fun _ _ _ => by rw [hz]⟩
      · obtain ⟨hl, hrow⟩ := hids hn hrs
        have := rowRead_writeResults okp (slotRegs_nodup f x.wbase f.d g.d) hl hrow res hrespos hresnd hreslen
        refine ⟨fun _ r hm k reg hk => this.1 (r.a.m.pos, r.words) (List.mem_map_of_mem hm) k reg hk, fun reg pos h => ?_⟩
        refine this.2 reg pos ?_
        have e : res.map Prod.fst = rs.map fun r => r.a.m.pos := by simp [res]
        rw [e]
        exact h.resolve_left (by simp)
  -- the state written
  let s1 := s.setRows x rows2
  let s2 := s1.addAllFlags rs
  let resl : List (Nat × List Latch) := rs.map fun r => (r.a.m.pos, r.words.map Latch.full)
  let s3 := s2.shiftPipe x (dstRegs f g x.wbase).length
    (fun k pos => latchEntry x (s.actives x f) f.nwb rows2 (dstRegs f g x.wbase) resl k pos)
  have hcommit : s.commitVec x f g (s.actives x f) rs [] = s3.endIssue x f [] := by
    unfold State.commitVec
    simp only [if_true]
    rw [hne, hp]
    simp only [hidle, Bool.false_eq_true, if_false]
    rfl
  rw [hcommit]
  obtain ⟨m1, f1, l1, w1, p1⟩ := s.setRows_spec hc rows2
  obtain ⟨f2, l2, w2, fl2, m2, p2⟩ := s1.addAllFlags_spec x rs
  have f3 : RegisterFrame x s2 s3 := s2.shiftPipe_frame x _ _
  have l3 : ∀ r, s3.lane? r = s2.lane? r := fun r => by
    simp only [s3, State.shiftPipe, State.lane?_setPipe]
  have w3 : ∀ wg w, s3.warp? wg w = s2.warp? wg w := fun wg w => by
    simp only [s3, State.shiftPipe, State.warp?_setPipe]
  have m3 : s3.rowsOf x = rows2 := by
    simp only [s3, State.shiftPipe, State.rowsOf_setPipe]
    exact m2.trans m1
  have e4 := s3.endIssue_plain x f
  have readEnd : ∀ reg pos, (s3.endIssue x f []).readReg x reg pos = rowRead rows2 reg pos := fun reg pos => by
    unfold State.readReg; rw [e4.map, m3]
  have pipe2 : ∀ c n k, s2.pipe c n k = s.pipe c n k := fun c n k => by
    unfold State.pipe; rw [show s2.pipes = s.pipes from p2.trans p1]
  have latch4 : ∀ pos n, (s3.endIssue x f []).readLatch x pos n = s3.readLatch x pos n := fun pos n => by
    unfold State.readLatch State.pipe; rw [e4.pipes]
  have latch3 : ∀ pos n, pos < 32 → n < 8 → s3.readLatch x pos n
      = if n < (dstRegs f g x.wbase).length then
          latchEntry x (s.actives x f) f.nwb rows2 (dstRegs f g x.wbase) resl ((dstRegs f g x.wbase).length - 1 - n) pos
        else s.readLatch x pos (n - (dstRegs f g x.wbase).length) := fun pos n h1 h2 => by
    rw [show s3.readLatch x pos n = _ from s2.shiftPipe_latch x _ _ pos n h1 h2]
    refine congrArg _ ?_
    unfold State.readLatch; rw [pipe2]
  have resl_find : ∀ pos, resl.find? (fun r => decide (r.1 = pos)) = (rs.find? (fun r => decide (r.a.m.pos = pos))).map
      (fun r => (r.a.m.pos, r.words.map Latch.full)) := fun pos => by
    simp only [resl, List.find?_map]; rfl
  have rs_find : ∀ r ∈ rs, rs.find? (fun q => decide (q.a.m.pos = r.a.m.pos)) = some r := by
    have nd := hr.poss ok
    clear_value rows2 s1 s2 s3 resl
    clear final readEnd latch3 latch4 m1 m2 m3 l1 l2 l3 w1 w2 w3 f1 f2 f3 fl2 p1 p2 e4 hcommit resl_find hresnd hrespos hreslen hidle
    clear hids hd hp
    have : ∀ l : List LaneRes, (l.map fun r => r.a.m.pos).Nodup → ∀ r ∈ l, l.find? (fun q => decide (q.a.m.pos = r.a.m.pos)) = some r := by
      intro l
      induction l with
      | nil => intro _ r hm; simp at hm
      | cons a as ih =>
        intro hn r hm
        simp only [List.map_cons, List.nodup_cons] at hn
        cases List.mem_cons.mp hm with
        | inl k => subst k; simp
        | inr k =>
          have hne : a.a.m.pos ≠ r.a.m.pos := fun q => hn.1 (q ▸ List.mem_map_of_mem (f := fun r : LaneRes => r.a.m.pos) k)
          simp [hne, ih hn.2 r k]
    exact this rs nd
  refine ⟨fun hn r hm k reg hk => ?_, fun reg pos h => ?_, fun r hm k hk => ?_, fun m hm hna k reg hk => ?_,
    fun pos hna hp32 n hn => ?_, fun pos n hp32 hn => ?_, fun wg w => ?_, fun wg w => ?_, fun m hm => ?_, ?_⟩
  · rw [readEnd]; exact final.1 hn r hm k reg hk
  · rw [readEnd, final.2 reg pos h, readp, read0]
  · have hpos := ok.pos _ (mem_actives (hr.mem hm)).1
    rw [latch4, latch3 _ _ hpos (by omega), if_pos (by omega)]
    have hkk : (dstRegs f g x.wbase).length - 1 - ((dstRegs f g x.wbase).length - 1 - k) = k := by omega
    rw [hkk]
    unfold latchEntry
    rw [resl_find, rs_find r hm]
    have hwl := hr.width r hm
    simp only [Option.map_some]
    rw [List.getD_eq_getElem?_getD, List.getElem?_map, List.getD_eq_getElem?_getD,
      List.getElem?_eq_getElem (by omega : k < r.words.length)]
    rfl
  · have hkl : k < (dstRegs f g x.wbase).length := (List.getElem?_eq_some_iff.mp hk).1
    rw [latch4, latch3 _ _ (ok.pos m hm) (by omega), if_pos (by omega)]
    have hkk : (dstRegs f g x.wbase).length - 1 - ((dstRegs f g x.wbase).length - 1 - k) = k := by omega
    rw [hkk]
    have hno : rs.find? (fun r => decide (r.a.m.pos = m.pos)) = none := by
      rw [List.find?_eq_none]
      intro r hm' he
      simp only [decide_eq_true_eq] at he
      have hma := mem_actives (hr.mem hm')
      have : r.a.m = m := List.inj_on_of_nodup_map ok.poss hma.1 hm he
      exact hna (this ▸ List.mem_map_of_mem (hr.mem hm'))
    have hactno : ((s.actives x f).any fun a => decide (a.m.pos = m.pos)) = false := by
      rw [List.any_eq_false]
      intro a ha he
      simp only [decide_eq_true_eq] at he
      have : a.m = m := List.inj_on_of_nodup_map ok.poss (mem_actives ha).1 hm he
      exact hna (this ▸ List.mem_map_of_mem ha)
    have hmem : (x.members.any fun q => decide (q.pos = m.pos)) = true :=
      List.any_eq_true.mpr ⟨m, hm, by simp⟩
    unfold latchEntry
    rw [resl_find, hno]
    simp only [Option.map_none, hactno, hmem, Bool.not_true, Bool.or_false]
    rw [readEnd, List.getD_eq_getElem?_getD, hk]
    rfl
  · rw [latch4, latch3 _ _ hp32 (by omega), if_pos hn]
    have hno : rs.find? (fun r => decide (r.a.m.pos = pos)) = none := by
      rw [List.find?_eq_none]
      intro r hm' he
      simp only [decide_eq_true_eq] at he
      exact hna (he ▸ List.mem_map_of_mem (mem_actives (hr.mem hm')).1)
    have hmem : (x.members.any fun q => decide (q.pos = pos)) = false := by
      rw [List.any_eq_false]
      intro a ha he
      simp only [decide_eq_true_eq] at he
      exact hna (he ▸ List.mem_map_of_mem ha)
    unfold latchEntry
    rw [resl_find, hno]
    simp [hmem]
  · rw [latch4, latch3 _ _ hp32 (by omega), if_neg (by omega)]
    congr 1; omega
  · have := fl2 wg w
    rw [e4.warps Warp.fpstat (fun _ _ => rfl) (fun _ _ => rfl) wg w, w3, this]
    have hw := w1 (fun v : Warp => v.fpstat ||| raisedIn rs wg w) (fun _ _ => rfl) wg w
    exact hw
  · rw [e4.warps Warp.uregs (fun _ _ => rfl) (fun _ _ => rfl) wg w, w3, w2 Warp.uregs (fun _ _ => rfl) wg w]
    exact w1 Warp.uregs (fun _ _ => rfl) wg w
  · rw [e4.lanes, if_pos (List.mem_map_of_mem hm), l3, l2, l1]
  · exact ((f1.trans f2).trans f3).trans e4.frame

/-! ### Predicates -/

theorem State.setPreds_spec (x : Iss) (n : Nat) (s : State) (rs : List LaneRes) (hm : ∀ r ∈ rs, r.a.m.ref ∈ x.members.map Member.ref)
    (nd : (rs.map fun r => r.a.m.ref).Nodup) :
    let t := rs.foldl (fun s r => s.updLane r.a.m.ref fun l => l.setPred n ((r.words.headD 0).getLsbD 0)) s
    RegisterFrame x s t ∧ t.rowsOf x = s.rowsOf x ∧ t.pipes = s.pipes
    ∧ (∀ {α : Type} (q : Warp → α), (∀ (v : Warp) lanes, q { v with lanes := lanes } = q v) → ∀ wg w,
        (t.warp? wg w).map q = (s.warp? wg w).map q)
    ∧ (∀ r ∈ rs, t.lane? r.a.m.ref = (s.lane? r.a.m.ref).map fun l => l.setPred n ((r.words.headD 0).getLsbD 0))
    ∧ (∀ q, q ∉ rs.map (fun r => r.a.m.ref) → t.lane? q = s.lane? q) := by
  induction rs generalizing s with
  | nil => exact ⟨RegisterFrame.refl x s, rfl, rfl, fun _ _ _ _ => rfl, by simp, fun _ _ => rfl⟩
  | cons r rs ih =>
    simp only [List.map_cons, List.nodup_cons] at nd
    obtain ⟨a, b, c, d, e, g⟩ := ih (s.updLane r.a.m.ref fun l => l.setPred n ((r.words.headD 0).getLsbD 0))
      (fun q hq => hm q (by simp [hq])) nd.2
    simp only [List.foldl_cons]
    refine ⟨(s.updLane_frame x _ _ (hm r (by simp))).trans a, b.trans (s.updLane_rowsOf _ _ x), c.trans rfl,
      fun q hq wg w => (d q hq wg w).trans (s.updLane_warp _ _ q hq wg w), fun q hq => ?_, fun q hq => ?_⟩
    · cases List.mem_cons.mp hq with
      | inl k =>
        subst k
        rw [g _ nd.1, State.lane?_updLane, if_pos rfl]
      | inr k =>
        have hne : q.a.m.ref ≠ r.a.m.ref := fun h => nd.1 (h ▸ List.mem_map_of_mem (f := fun r : LaneRes => r.a.m.ref) k)
        rw [e q k, State.lane?_updLane, if_neg hne]
    · simp only [List.map_cons, List.mem_cons, not_or] at hq
      rw [g q hq.2, State.lane?_updLane, if_neg hq.1]

theorem State.commitPred_spec {i : Instr} {forbidden : Bool} {s : State} {x : Iss} {f : Form} {g : Sig} {rs : List LaneRes}
    (hc : CanIssue i f forbidden s x) (ok : IssueOk s x) (hr : rs.map LaneRes.a = s.actives x f) :
    PredResult x f g rs s (s.commitPred x f g rs []) := by
  obtain ⟨m1, f1, l1, w1, p1⟩ := s.setRows_spec hc (releaseLu f g x.wbase (s.rowsOf x))
  let s1 := s.setRows x (releaseLu f g x.wbase (s.rowsOf x))
  obtain ⟨f2, l2, w2, fl2, m2, p2⟩ := s1.addAllFlags_spec x rs
  have hmem : ∀ r ∈ rs, r.a.m.ref ∈ x.members.map Member.ref := fun r h =>
    List.mem_map_of_mem (mem_actives (hr ▸ List.mem_map_of_mem h : r.a ∈ s.actives x f)).1
  have hnd : (rs.map fun r => r.a.m.ref).Nodup := by
    have e : (rs.map fun r => r.a.m.ref) = ((s.actives x f).map Act.m).map Member.ref := by rw [← hr]; simp
    rw [e]; exact ((actives_sublist s x f).map Member.ref).nodup ok.lanes
  obtain ⟨f3, m3, p3, w3, l3, o3⟩ := State.setPreds_spec x (slotNum f f.d) (s1.addAllFlags rs) rs hmem hnd
  generalize hs3 : rs.foldl (fun s r => s.updLane r.a.m.ref fun l => l.setPred (slotNum f f.d) ((r.words.headD 0).getLsbD 0))
    (s1.addAllFlags rs) = s3 at f3 m3 p3 w3 l3 o3
  have e4 := s3.endIssue_plain x f
  have hcommit : s.commitPred x f g rs [] = s3.endIssue x f [] := by
    unfold State.commitPred
    simp only [if_true]
    rw [← hs3]
  rw [hcommit]
  refine ⟨fun r hm => ?_, fun m hm hna => ?_, fun reg pos => ?_, ?_, fun wg w => ?_, fun wg w => ?_, ?_⟩
  · rw [e4.lanes, if_pos (hmem r hm), l3 r hm, l2, l1, Option.map_map]; rfl
  · rw [e4.lanes, if_pos (List.mem_map_of_mem hm), o3 _ hna, l2, l1]
  · have : (s3.endIssue x f []).rowsOf x = releaseLu f g x.wbase (s.rowsOf x) := e4.map.trans (m3.trans (m2.trans m1))
    unfold State.readReg; rw [this]; exact rowRead_releases _ _ _ _
  · exact e4.pipes.trans (p3.trans (p2.trans p1))
  · rw [e4.warps Warp.fpstat (fun _ _ => rfl) (fun _ _ => rfl) wg w, w3 Warp.fpstat (fun _ _ => rfl) wg w, fl2 wg w]
    exact w1 (fun v : Warp => v.fpstat ||| raisedIn rs wg w) (fun _ _ => rfl) wg w
  · rw [e4.warps Warp.uregs (fun _ _ => rfl) (fun _ _ => rfl) wg w, w3 Warp.uregs (fun _ _ => rfl) wg w,
      w2 Warp.uregs (fun _ _ => rfl) wg w]
    exact w1 Warp.uregs (fun _ _ => rfl) wg w
  · exact ((f1.trans f2).trans f3).trans e4.frame

/-! ### Uniform registers -/

theorem setUregs_at (ws : List Word) (n : Nat) (v : Warp) (j : Nat) (h : n + ws.length ≤ v.uregs.length) :
    ((ws.zipIdx.map fun p => (n + p.2, p.1)).foldl (fun w p => w.setUreg p.1 p.2) v).ureg j
      = if n ≤ j ∧ j < n + ws.length then ws.getD (j - n) 0 else v.ureg j := by
  suffices h' : ∀ (ws : List Word) (k : Nat) (v : Warp), n + k + ws.length ≤ v.uregs.length →
      (((ws.zipIdx k).map fun p => (n + p.2, p.1)).foldl (fun w p => w.setUreg p.1 p.2) v).ureg j
        = if n + k ≤ j ∧ j < n + k + ws.length then ws.getD (j - (n + k)) 0 else v.ureg j by
    simpa using h' ws 0 v (by simpa using h)
  intro ws
  induction ws with
  | nil => intro k v _; simp
  | cons a as ih =>
    intro k v hl
    simp only [List.length_cons] at hl
    simp only [List.zipIdx_cons, List.map_cons, List.foldl_cons]
    rw [ih (k + 1) (v.setUreg (n + k) a) (by simp only [Warp.setUreg, setNth_length]; omega)]
    by_cases hj : j = n + k
    · subst hj
      rw [if_neg (by omega), if_pos (by simp)]
      simp only [Warp.ureg, Warp.setUreg]
      rw [setNth_getD _ _ _ _ _ (by omega)]; simp
    · by_cases hin : n + (k + 1) ≤ j ∧ j < n + (k + 1) + as.length
      · rw [if_pos hin, if_pos (by simp only [List.length_cons]; omega)]
        obtain ⟨d, hd⟩ : ∃ d, j - (n + k) = d + 1 := ⟨j - (n + k) - 1, by omega⟩
        rw [hd, show j - (n + (k + 1)) = d by omega]; rfl
      · rw [if_neg hin, if_neg (by simp only [List.length_cons]; omega)]
        simp only [Warp.ureg, Warp.setUreg]
        rw [setNth_getD _ _ _ _ _ (by omega), if_neg hj]

theorem setUregs_rest (ps : List (Nat × Word)) (v : Warp) :
    ps.foldl (fun w p => w.setUreg p.1 p.2) v = { v with uregs := (ps.foldl (fun w p => w.setUreg p.1 p.2) v).uregs } := by
  induction ps generalizing v with
  | nil => rfl
  | cons p ps ih => simp only [List.foldl_cons]; rw [ih]; rfl

theorem State.commitUni_spec {s : State} {x : Iss} (f : Form) {n : Nat} {words : List Word} (fl : Flags) (hu : UniformOk s x n words) :
    UniformResult x f [] n words fl s (s.commitUni x f n words fl) := by
  obtain ⟨v, hv, hl⟩ := hu.warp
  have hidx : ∀ p ∈ words.zipIdx.map (fun p => (n + p.2, p.1)), ∃ k, k < words.length ∧ p.1 = n + k := by
    intro p hp
    simp only [List.mem_map] at hp
    obtain ⟨q, hq, rfl⟩ := hp
    have := List.mem_zipIdx hq
    exact ⟨q.2, by omega, rfl⟩
  have hbusy : ((words.zipIdx.map fun p => (n + p.2, p.1)).any fun p =>
      decide (56 ≤ p.1) && ((s.warp? x.wg x.warp).map fun w => cregCount (w.ureg p.1) != 0).getD false) = false := by
    rw [List.any_eq_false]
    intro p hp
    obtain ⟨k, hk, e⟩ := hidx p hp
    rw [hv, e]
    by_cases h56 : 56 ≤ n + k
    · simp [h56, hu.count v k hv hk h56]
    · simp [h56]
  let s1 := s.addFlags ⟨x.wg, x.warp, 0⟩ fl
  let s2 := s1.updWarp x.wg x.warp fun w => (words.zipIdx.map fun p => (n + p.2, p.1)).foldl (fun w p => w.setUreg p.1 p.2) w
  have e : s.commitUni x f n words fl = s2.endIssue x f [] := by
    unfold State.commitUni
    simp only [hbusy, Bool.false_eq_true, if_false]
    rfl
  rw [e]
  have e4 := s2.endIssue_plain x f
  have f1 := s.addFlags_frame x ⟨x.wg, x.warp, 0⟩ fl
  have f2 : RegisterFrame x s1 s2 := by
    refine RegisterFrame.updWarp x s1 x.wg x.warp _ (fun v => ?_) (fun v i _ => ?_) (.inr fun v => ?_)
    · rw [setUregs_rest]
    · rw [setUregs_rest]
    · rw [setUregs_rest]
  have w2 : ∀ {α : Type} (q : Warp → α), (∀ (v : Warp) u, q { v with uregs := u } = q v) → ∀ wg w,
      (s2.warp? wg w).map q = (s1.warp? wg w).map q := by
    intro α q hq wg w
    simp only [s2, State.warp?_updWarp]
    split
    · cases s1.warp? wg w with
      | none => rfl
      | some v => simp only [Option.map_some]; rw [setUregs_rest]; simp [hq]
    · rfl
  have ur : (s2.warp? x.wg x.warp).map Warp.uregs
      = some ((words.zipIdx.map fun p => (n + p.2, p.1)).foldl (fun w p => w.setUreg p.1 p.2) v).uregs := by
    have h1 := s.addFlags_warp ⟨x.wg, x.warp, 0⟩ fl Warp.uregs (fun _ _ => rfl) x.wg x.warp
    rw [hv] at h1
    simp only [s2, State.warp?_updWarp, and_self, if_true]
    cases hs1 : s1.warp? x.wg x.warp with
    | none => simp only [s1] at hs1; simp [hs1] at h1
    | some u =>
      simp only [s1] at hs1
      simp only [hs1, Option.map_some, Option.some.injEq] at h1 ⊢
      clear hs1
      have : ∀ (ps : List (Nat × Word)) (a b : Warp), a.uregs = b.uregs →
          (ps.foldl (fun w p => w.setUreg p.1 p.2) a).uregs = (ps.foldl (fun w p => w.setUreg p.1 p.2) b).uregs := by
        intro ps
        induction ps with
        | nil => intro a b h; exact h
        | cons p ps ih => intro a b h; exact ih _ _ (by simp [Warp.setUreg, h])
      exact this _ u v h1
  have read : ∀ j, ((s2.endIssue x f []).warp? x.wg x.warp).map (fun v => v.ureg j)
      = some (if n ≤ j ∧ j < n + words.length then words.getD (j - n) 0 else v.ureg j) := by
    intro j
    have h := e4.warps Warp.uregs (fun _ _ => rfl) (fun _ _ => rfl) x.wg x.warp
    rw [ur] at h
    have hj : ((s2.endIssue x f []).warp? x.wg x.warp).map (fun v => v.ureg j)
        = (((s2.endIssue x f []).warp? x.wg x.warp).map Warp.uregs).map fun u => u.getD j 0 := by
      rw [Option.map_map]; rfl
    rw [hj, h, Option.map_some]
    exact congrArg some (setUregs_at words n v j hl)
  refine ⟨fun k hk => ?_, fun j hj => ?_, fun wg w hne => ?_, fun reg pos => ?_, ?_, fun wg w => ?_, fun m hm => ?_, ?_⟩
  · rw [read, if_pos (by omega), hv, show n + k - n = k by omega]; rfl
  · rw [read, if_neg (by omega), hv]; rfl
  · rw [e4.warps Warp.uregs (fun _ _ => rfl) (fun _ _ => rfl) wg w]
    have : (s2.warp? wg w).map Warp.uregs = (s1.warp? wg w).map Warp.uregs := by
      simp only [s2, State.warp?_updWarp]; rw [if_neg hne]
    rw [this]
    exact s.addFlags_warp _ fl Warp.uregs (fun _ _ => rfl) wg w
  · have h2 : s2.rowsOf x = s1.rowsOf x := s1.rowsOf_updWarp x _ _ _ (fun v => by rw [setUregs_rest])
    have : (s2.endIssue x f []).rowsOf x = s.rowsOf x := e4.map.trans (h2.trans (s.addFlags_rowsOf _ _ x))
    unfold State.readReg; rw [this]; simp
  · exact e4.pipes.trans (s.addFlags_pipes _ _)
  · rw [e4.warps Warp.fpstat (fun _ _ => rfl) (fun _ _ => rfl) wg w, w2 Warp.fpstat (fun _ _ => rfl) wg w]
    have h := s.addFlags_fpstat ⟨x.wg, x.warp, 0⟩ fl wg w
    rw [show (s1.warp? wg w).map Warp.fpstat = _ from h]
    refine congrArg (fun k => (s.warp? wg w).map k) (funext fun v => ?_)
    by_cases hp : x.wg = wg ∧ x.warp = w
    · rw [if_pos hp, if_pos ⟨hp.1.symm, hp.2.symm⟩]
    · rw [if_neg hp, if_neg (fun q => hp ⟨q.1.symm, q.2.symm⟩)]; simp
  · rw [e4.lanes, if_pos (List.mem_map_of_mem hm)]
    have h2 : s2.lane? m.ref = s1.lane? m.ref := s1.lane?_updWarp _ _ _ _ (fun v => by rw [setUregs_rest])
    rw [h2]; exact congrArg _ (s.addFlags_lane? _ _ _)
  · exact (f1.trans f2).trans e4.frame

end Sys2Proof.Machine
end

