-- ==== Sys2Proof/Laws/Alu.lean ====
section
/-! SUPPORT. An instruction whose lanes compute from their own operands, executed: its three kinds of destination (R193 to
R196). -/

namespace Sys2Proof.Machine

theorem valWords_length (n : Nat) (v : DWord) : (valWords n v).length = if n = 2 then 2 else 1 := by
  unfold valWords; split <;> rfl

theorem slotRegs_length (f : Form) (wbase : Nat) (s : Slot) (o : Opnd) : (slotRegs f wbase s o).length ≤ o.width f.ty := by
  unfold slotRegs; split <;> simp

theorem valWords_wide (f : Form) (g : Sig) (wbase : Nat) (v : DWord) (hw : g.d.width f.ty ≤ 2) :
    (dstRegs f g wbase).length ≤ (valWords (g.d.width f.ty) v).length := by
  have := slotRegs_length f wbase f.d g.d
  rw [valWords_length]
  unfold dstRegs
  split <;> omega

/-- Where each active lane has a value, each has its result. -/
theorem laneResults_acts {s : State} {x : Iss} {f : Form} {g : Sig} {val : LaneValue} (h : s.laneValues x f g val) :
    (s.laneResults x f g val).map LaneRes.a = s.actives x f := by
  unfold State.laneResults
  unfold State.laneValues at h
  suffices ∀ l : List Act, (∀ a ∈ l, (val s f x (s.reads x f g) g (s.actives x f) a).isSome) →
      (l.filterMap fun a => (val s f x (s.reads x f g) g (s.actives x f) a).map fun v =>
        (⟨a, valWords (g.d.width f.ty) v.v, v.flags⟩ : LaneRes)).map LaneRes.a = l from this _ h
  intro l
  induction l with
  | nil => intro _; rfl
  | cons a as ih =>
    intro h
    obtain ⟨v, hv⟩ := Option.isSome_iff_exists.mp (h a (by simp))
    simp only [List.filterMap_cons, hv, Option.map_some, List.map_cons]
    rw [ih (fun b hb => h b (by simp [hb]))]

theorem laneResults_ok {s : State} {x : Iss} {f : Form} {g : Sig} {val : LaneValue} (h : s.laneValues x f g val)
    (hw : g.d.width f.ty ≤ 2) : ResultsOk s x f g (s.laneResults x f g val) := by
  refine ⟨laneResults_acts h, fun r hr => ?_⟩
  simp only [State.laneResults, List.mem_filterMap, Option.map_eq_some_iff] at hr
  obtain ⟨a, _, args, _, rfl⟩ := hr
  exact valWords_wide f g x.wbase _ hw

/-- Results of every active lane, without a fault or an enabled trap, written to a vector destination. -/
theorem State.commit_vector {i : Instr} {forbidden : Bool} {f : Form} {s : State} {x : Iss} {g : Sig} {rs : List LaneRes}
    (hc : CanIssue i f forbidden s x) (ok : IssueOk s x) (hd : f.d.cls = .vector) (hr : ResultsOk s x f g rs)
    (ht : s.fpTrap rs = none) (hdst : DestOk s x f g rs.length) (hw : g.d.width f.ty ≤ 8) :
    VectorResult x f g (s.actives x f) rs s (s.commit x f g (s.actives x f) rs []) := by
  unfold State.commit
  rw [ht]
  simp only
  rw [if_neg (by rw [hd]; decide)]
  refine State.commitVec_spec hc ok hr hdst ?_
  have := slotRegs_length f x.wbase f.d g.d
  unfold dstRegs; omega

theorem State.commit_pred {i : Instr} {forbidden : Bool} {f : Form} {s : State} {x : Iss} {g : Sig} {rs : List LaneRes}
    (hc : CanIssue i f forbidden s x) (ok : IssueOk s x) (hd : f.d.cls = .predicate) (hr : rs.map LaneRes.a = s.actives x f)
    (ht : s.fpTrap rs = none) : PredResult x f g rs s (s.commit x f g (s.actives x f) rs []) := by
  unfold State.commit
  rw [ht]
  simp only
  rw [if_pos hd]
  exact State.commitPred_spec hc ok hr

/-! ### Own-lane operands -/

theorem aluCommit_lanes {s : State} {x : Iss} {f : Form} {g : Sig} (val : Form → Nat → Args → Val)
    (h : s.laneValues x f g (ownValue val)) (hd : f.d.cls ≠ .uniform) :
    s.aluCommit x (s.reads x f g) f g (s.actives x f) (val f) = s.commit x f g (s.actives x f) (s.laneResults x f g (ownValue val)) [] := by
  have noFaults : (((s.actives x f).map fun a => (a, (s.reads x f g).args f g x.wbase a.m.pos a.lane)).filterMap fun d =>
      match d.2 with
      | none => some ((s.reads x f g).lackFault f g d.1)
      | some _ => none) = [] := by
    rw [List.filterMap_eq_nil_iff]
    intro d hd
    simp only [List.mem_map] at hd
    obtain ⟨a, ha, rfl⟩ := hd
    have := h a ha
    simp only [ownValue, Option.isSome_map] at this
    obtain ⟨args, e⟩ := Option.isSome_iff_exists.mp this
    simp only [e]
  unfold State.aluCommit
  rw [if_neg hd]
  simp only
  refine (congrArg (s.commit x f g (s.actives x f) _) noFaults).trans ?_
  congr 1
  unfold State.laneResults ownValue
  rw [List.filterMap_map]
  refine List.filterMap_congr fun a _ => ?_
  simp only [Function.comp, Option.map_map]
  rfl

/-- What `exec` answers in a group for an instruction of own-lane operands. -/
theorem aluExec_group {i : Instr} {f : Form} {s : State} {x : Iss} (val : Nat → Args → Val) (hc : CanIssue i f false s x) :
    aluExec i f val s = .next (s.aluCommit x (s.reads x f (sigOf i f)) f (sigOf i f) (s.actives x f) val) := by
  unfold aluExec
  rw [hc.cur]
  simp only
  unfold aluStep
  rw [front_canIssue hc]

theorem aluExec_vector {i : Instr} {f : Form} {s : State} {x : Iss} (val : Form → Nat → Args → Val) (hc : CanIssue i f false s x)
    (ok : IssueOk s x) (hd : f.d.cls = .vector) (ha : s.laneValues x f (sigOf i f) (ownValue val))
    (ht : s.fpTrap (s.laneResults x f (sigOf i f) (ownValue val)) = none)
    (hdst : DestOk s x f (sigOf i f) (s.laneResults x f (sigOf i f) (ownValue val)).length) (hw : (sigOf i f).d.width f.ty ≤ 2) :
    ∃ t, aluExec i f (val f) s = .next t
      ∧ VectorResult x f (sigOf i f) (s.actives x f) (s.laneResults x f (sigOf i f) (ownValue val)) s t := by
  refine ⟨_, aluExec_group _ hc, ?_⟩
  rw [aluCommit_lanes val ha (by rw [hd]; decide)]
  exact State.commit_vector hc ok hd (laneResults_ok ha hw) ht hdst (by omega)

theorem aluExec_pred {i : Instr} {f : Form} {s : State} {x : Iss} (val : Form → Nat → Args → Val) (hc : CanIssue i f false s x)
    (ok : IssueOk s x) (hd : f.d.cls = .predicate) (ha : s.laneValues x f (sigOf i f) (ownValue val))
    (ht : s.fpTrap (s.laneResults x f (sigOf i f) (ownValue val)) = none) :
    ∃ t, aluExec i f (val f) s = .next t ∧ PredResult x f (sigOf i f) (s.laneResults x f (sigOf i f) (ownValue val)) s t := by
  refine ⟨_, aluExec_group _ hc, ?_⟩
  rw [aluCommit_lanes val ha (by rw [hd]; decide)]
  exact State.commit_pred hc ok hd (laneResults_acts ha) ht

theorem aluExec_uniform {i : Instr} {f : Form} {s : State} {x : Iss} (val : Form → Nat → Args → Val) {v : Val}
    (hc : CanIssue i f false s x) (hd : f.d.cls = .uniform)
    (ha : ownUniform val s f x (s.reads x f (sigOf i f)) (sigOf i f) (s.actives x f) = some v)
    (ht : s.fpTrap ((s.actives x f).map fun a => ⟨a, [], v.flags⟩) = none)
    (hu : UniformOk s x (slotNum f f.d) (valWords ((sigOf i f).d.width f.ty) v.v)) :
    ∃ t, aluExec i f (val f) s = .next t
      ∧ UniformResult x f [] (slotNum f f.d) (valWords ((sigOf i f).d.width f.ty) v.v)
          (if (s.actives x f).all (fun a => a.lane.helper) then 0 else v.flags) s t := by
  refine ⟨_, aluExec_group _ hc, ?_⟩
  cases hact : s.actives x f with
  | nil => rw [hact] at ha; cases ha
  | cons a rest =>
    rw [hact] at ha ht
    simp only [ownUniform, List.head?_cons, Option.bind_some, Option.map_eq_some_iff] at ha
    obtain ⟨args, hargs, rfl⟩ := ha
    unfold State.aluCommit
    rw [if_pos hd]
    simp only [hargs]
    rw [ht]
    exact State.commitUni_spec f _ hu

/-! ### Values from other lanes -/

/-- An exchange whose active lanes all get a value. -/
theorem exchange_commit {s : State} {x : Iss} {f : Form} {g : Sig} {got : Act → Got} {val : LaneValue}
    (h : ∀ a ∈ s.actives x f, ∀ v, val s f x (s.reads x f g) g (s.actives x f) a = some v → got a = .val v)
    (hv : s.laneValues x f g val) :
    s.exchange x f g (s.actives x f) got = s.commit x f g (s.actives x f) (s.laneResults x f g val) [] := by
  have hg : ∀ a ∈ s.actives x f, ∃ v, val s f x (s.reads x f g) g (s.actives x f) a = some v ∧ got a = .val v := fun a ha => by
    obtain ⟨v, e⟩ := Option.isSome_iff_exists.mp (hv a ha)
    exact ⟨v, e, h a ha v e⟩
  have noFaults : (((s.actives x f).map fun a => (a, got a)).filterMap fun d =>
      match d.2 with
      | .empty => some (⟨d.1.m.ref, Cause.regLatch, latchDetail f g⟩ : LaneFault)
      | .fault c => some ⟨d.1.m.ref, c, 0⟩
      | .val _ => none) = [] := by
    rw [List.filterMap_eq_nil_iff]
    intro d hd
    simp only [List.mem_map] at hd
    obtain ⟨a, ha, rfl⟩ := hd
    obtain ⟨v, _, e⟩ := hg a ha
    simp only [e]
  unfold State.exchange
  simp only
  refine (congrArg (s.commit x f g (s.actives x f) _) noFaults).trans ?_
  congr 1
  unfold State.laneResults
  rw [List.filterMap_map]
  refine List.filterMap_congr fun a ha => ?_
  obtain ⟨v, e1, e2⟩ := hg a ha
  simp only [Function.comp, e1, e2, Option.map_some]

theorem exchangeStep_vector {i : Instr} {f : Form} {forbidden : Bool} {s : State} {x : Iss}
    {got : Iss → Env → Sig → List Act → Act → Got} {val : LaneValue} (hc : CanIssue i f forbidden s x) (ok : IssueOk s x)
    (hd : f.d.cls = .vector)
    (h : ∀ a v, val s f x (s.reads x f (sigOf i f)) (sigOf i f) (s.actives x f) a = some v → got x (s.reads x f (sigOf i f)) (sigOf i f) (s.actives x f) a = .val v)
    (ha : s.laneValues x f (sigOf i f) val) (ht : s.fpTrap (s.laneResults x f (sigOf i f) val) = none)
    (hdst : DestOk s x f (sigOf i f) (s.laneResults x f (sigOf i f) val).length) (hw : (sigOf i f).d.width f.ty ≤ 2) :
    ∃ t, exchangeStep i f forbidden got s = .next t
      ∧ VectorResult x f (sigOf i f) (s.actives x f) (s.laneResults x f (sigOf i f) val) s t := by
  refine ⟨_, by unfold exchangeStep; rw [front_canIssue hc], ?_⟩
  rw [exchange_commit (fun a _ => h a) ha]
  exact State.commit_vector hc ok hd (laneResults_ok ha hw) ht hdst (by omega)

/-! ### Values computed once -/

theorem RegisterFrame.setRows {i : Instr} {forbidden : Bool} {s : State} {x : Iss} {f : Form} (hc : CanIssue i f forbidden s x)
    (rows : List Row) : RegisterFrame x s (s.setRows x rows) := (s.setRows_spec hc rows).2.1

theorem State.onceCommit_spec {i : Instr} {forbidden : Bool} {s : State} {x : Iss} {f : Form} {g : Sig} {v : Val}
    (hc : CanIssue i f forbidden s x) (hact : s.actives x f ≠ []) (ht : s.fpTrap ((s.actives x f).map fun a => ⟨a, [], v.flags⟩) = none)
    (hu : UniformOk s x (slotNum f f.d) (valWords (g.d.width f.ty) v.v)) :
    UniformResult x f (luRegs f g x.wbase) (slotNum f f.d) (valWords (g.d.width f.ty) v.v)
      (if (s.actives x f).all (fun a => a.lane.helper) then 0 else v.flags) s (s.onceCommit x f g (s.actives x f) (some v)) := by
  obtain ⟨m1, f1, l1, w1, p1⟩ := s.setRows_spec hc (releaseLu f g x.wbase (s.rowsOf x))
  unfold State.onceCommit
  rw [if_neg hact]
  simp only
  rw [ht]
  simp only
  generalize hs1 : s.setRows x (releaseLu f g x.wbase (s.rowsOf x)) = s1 at m1 f1 l1 w1 p1
  have hu1 : UniformOk s1 x (slotNum f f.d) (valWords (g.d.width f.ty) v.v) := by
    have hur := w1 Warp.uregs (fun _ _ => rfl) x.wg x.warp
    obtain ⟨u, hv, hl⟩ := hu.warp
    rw [hv] at hur
    cases hs : s1.warp? x.wg x.warp with
    | none => simp [hs] at hur
    | some u1 =>
      simp only [hs, Option.map_some, Option.some.injEq] at hur
      refine ⟨⟨u1, hs, hur ▸ hl⟩, fun q k hq hk h56 => ?_⟩
      rw [hs] at hq
      cases hq
      have := hu.count u k hv hk h56
      unfold Warp.ureg at this ⊢
      rw [hur]; exact this
  have r := State.commitUni_spec f (if (s.actives x f).all (fun a => a.lane.helper) then 0 else v.flags) hu1
  have wv : ∀ {α : Type} (q : Warp → α), (∀ (v : Warp) rows, q { v with rows := rows } = q v) → ∀ wg w,
      (s1.warp? wg w).map q = (s.warp? wg w).map q := w1
  refine ⟨fun k hk => ?_, fun j hj => ?_, fun wg w hne => ?_, fun reg pos => ?_, ?_, fun wg w => ?_, fun m hm => ?_, f1.trans r.rest⟩
  · rw [r.written k hk]; exact wv (fun _ => (valWords (g.d.width f.ty) v.v).getD k 0) (fun _ _ => rfl) _ _
  · rw [r.kept j hj]; exact wv (fun v => v.ureg j) (fun _ _ => rfl) _ _
  · rw [r.others wg w hne]; exact wv Warp.uregs (fun _ _ => rfl) _ _
  · rw [r.map reg pos]
    have : s1.readReg x reg pos = if reg ∈ luRegs f g x.wbase then 0 else s.readReg x reg pos := by
      unfold State.readReg; rw [m1]; exact rowRead_releases _ _ _ _
    simpa using this
  · exact r.latches.trans p1
  · rw [r.flags wg w]
    exact wv (fun u => if wg = x.wg ∧ w = x.warp then
      u.fpstat ||| BitVec.setWidth 32 (if ((s.actives x f).all fun a => a.lane.helper) = true then 0 else v.flags) else u.fpstat)
      (fun _ _ => rfl) _ _
  · rw [r.moved m hm, l1]

theorem State.onceVal_spec {s : State} {x : Iss} {f : Form} {g : Sig} {v : Val} (hact : s.actives x f ≠ []) (hfl : v.flags = 0)
    (hu : UniformOk s x (slotNum f f.d) (valWords (g.d.width f.ty) v.v)) :
    UniformResult x f [] (slotNum f f.d) (valWords (g.d.width f.ty) v.v)
      (if (s.actives x f).all (fun a => a.lane.helper) then 0 else v.flags) s
      (s.onceVal x f (s.actives x f) (valWords (g.d.width f.ty) v.v)) := by
  unfold State.onceVal
  rw [if_neg hact]
  have : (if (s.actives x f).all (fun a => a.lane.helper) then 0 else v.flags) = 0 := by rw [hfl]; split <;> rfl
  rw [this]
  exact State.commitUni_spec f 0 hu

end Sys2Proof.Machine
end

