-- ==== Sys2Proof/Laws/Memory.lean ====
section
/-! SUPPORT. Sparse tables and memory: a read after a write, and the canonical form under every operation that writes. -/

namespace Sys2Proof.Machine

variable {w : Nat}

@[simp] theorem Cells.read_nil (i : Nat) : Cells.read ([] : Cells w) i = 0 := rfl

theorem Cells.wfFrom_mono {lo lo' : Nat} (h : lo' ≤ lo) {t : Cells w} (ht : Cells.wfFrom lo t = true) :
    Cells.wfFrom lo' t = true := by
  cases t with
  | nil => rfl
  | cons e rest =>
    simp only [Cells.wfFrom, Bool.and_eq_true, decide_eq_true_eq, bne_iff_ne, ne_eq] at ht ⊢
    exact ⟨⟨by omega, ht.1.2⟩, ht.2⟩

theorem Cells.read_below {t : Cells w} {lo i : Nat} (ht : Cells.wfFrom lo t = true) (h : i < lo) : Cells.read t i = 0 := by
  induction t generalizing lo with
  | nil => rfl
  | cons e rest ih =>
    simp only [Cells.wfFrom, Bool.and_eq_true, decide_eq_true_eq] at ht
    have hne : e.1 ≠ i := by omega
    simp only [Cells.read, hne, if_false]
    exact ih ht.2 (by omega)

theorem Cells.wfFrom_write {t : Cells w} {lo i : Nat} (v : BitVec w) (ht : Cells.wfFrom lo t = true) (h : lo ≤ i) :
    Cells.wfFrom lo (Cells.write t i v) = true := by
  induction t generalizing lo with
  | nil => by_cases hv : v = 0 <;> simp_all [Cells.write, Cells.wfFrom]
  | cons e rest ih =>
    have h' := ht
    simp only [Cells.wfFrom, Bool.and_eq_true, decide_eq_true_eq, bne_iff_ne, ne_eq] at ht
    simp only [Cells.write]
    split
    · split
      · exact h'
      · simp_all [Cells.wfFrom]
    · split
      · split
        · exact Cells.wfFrom_mono (by omega) ht.2
        · simp_all [Cells.wfFrom]
      · have := ih ht.2 (by omega)
        simp_all [Cells.wfFrom]

/-- A read after a write to the same index gives the value; another index reads as before. -/
theorem Cells.read_write {t : Cells w} {lo : Nat} (ht : Cells.wfFrom lo t = true) (i j : Nat) (v : BitVec w) :
    Cells.read (Cells.write t i v) j = if j = i then v else Cells.read t j := by
  induction t generalizing lo with
  | nil =>
    by_cases hv : v = 0
    · simp [Cells.write, hv]
    · simp only [Cells.write, hv, if_false, Cells.read]
      by_cases hj : j = i
      · simp [hj]
      · rw [if_neg (fun h : i = j => hj h.symm), if_neg hj]
  | cons e rest ih =>
    simp only [Cells.wfFrom, Bool.and_eq_true, decide_eq_true_eq] at ht
    simp only [Cells.write]
    split
    next hlt =>
      have below : Cells.read (e :: rest) i = 0 := by
        simp only [Cells.read, show e.1 ≠ i by omega, if_false]
        exact Cells.read_below ht.2 (by omega)
      split
      next hv =>
        by_cases hj : j = i
        · simp only [hj, if_true]; exact below.trans hv.symm
        · rw [if_neg hj]
      next hv =>
        by_cases hj : j = i
        · simp [Cells.read, hj]
        · rw [if_neg hj]; simp only [Cells.read]; rw [if_neg (fun h : i = j => hj h.symm)]
    next hlt =>
      split
      next heq =>
        have gone : Cells.read rest i = 0 := Cells.read_below ht.2 (by omega)
        split
        next hv =>
          by_cases hj : j = i
          · simp only [hj, if_true]; exact gone.trans hv.symm
          · rw [if_neg hj]; simp only [Cells.read]; rw [if_neg (by omega)]
        next hv =>
          by_cases hj : j = i
          · simp [Cells.read, hj]
          · rw [if_neg hj]; simp only [Cells.read]; rw [if_neg (by omega), if_neg (by omega)]
      next heq =>
        have hi : e.1 ≠ i := by omega
        by_cases hk : e.1 = j
        · have : j ≠ i := by omega
          simp [Cells.read, hk, this]
        · simp only [Cells.read, hk, if_false]
          exact ih ht.2

/-! ### Memory -/

theorem Memory.wf_write {m : Mem} (a : Nat) (v : Byte) (h : Memory.wf m = true) : Memory.wf (Memory.write m a v) = true :=
  Cells.wfFrom_write v h (Nat.zero_le a)

theorem Memory.read_write {m : Mem} (h : Memory.wf m = true) (a b : Nat) (v : Byte) :
    Memory.read (Memory.write m a v) b = if b = a then v else Memory.read m b := Cells.read_write h a b v

theorem Memory.wf_store {m : Mem} (a : Nat) (bs : List Byte) (h : Memory.wf m = true) : Memory.wf (Memory.store m a bs) = true := by
  induction bs generalizing m a with
  | nil => exact h
  | cons b bs ih => exact ih (a + 1) (Memory.wf_write a b h)

/-- After bytes are stored, an address within them reads its byte and every other reads as before. -/
theorem Memory.read_store {m : Mem} (h : Memory.wf m = true) (a : Nat) (bs : List Byte) (b : Nat) :
    Memory.read (Memory.store m a bs) b = if a ≤ b ∧ b < a + bs.length then bs.getD (b - a) 0 else Memory.read m b := by
  induction bs generalizing m a with
  | nil => simp [Memory.store]
  | cons c bs ih =>
    simp only [Memory.store]
    rw [ih (Memory.wf_write a c h), Memory.read_write h]
    by_cases hb : b = a
    · subst hb; simp
    · by_cases hin : a + 1 ≤ b ∧ b < a + 1 + bs.length
      · rw [if_pos hin, if_pos (by simp only [List.length_cons]; omega)]
        obtain ⟨k, hk⟩ : ∃ k, b - a = k + 1 := ⟨b - a - 1, by omega⟩
        rw [hk, show b - (a + 1) = k by omega]; rfl
      · rw [if_neg hin, if_neg hb, if_neg (by simp only [List.length_cons]; omega)]

theorem State.wf_storeBytes {s : State} (p : Nat) (bs : List Byte) (h : Memory.wf s.mem = true) :
    Memory.wf (s.storeBytes p bs).mem = true := Memory.wf_store p bs h

theorem State.read_storeBytes {s : State} (h : Memory.wf s.mem = true) (p : Nat) (bs : List Byte) (b : Nat) :
    Memory.read (s.storeBytes p bs).mem b = if p ≤ b ∧ b < p + bs.length then bs.getD (b - p) 0 else Memory.read s.mem b :=
  Memory.read_store h p bs b

end Sys2Proof.Machine
end

