-- ==== Sys2Proof/Laws/Access.lean ====
section
/-! SUPPORT. What the common end of the memory instructions does where every lane's request goes on (R145 to R148, R229). -/

namespace Sys2Proof.Machine

/-- The row of a register, by number and awaited results, is unchanged by writes of values. -/
theorem findRow_writeResults (rows : List Row) (ids : List Nat) (res : List (Nat × List Word)) (reg : Nat) :
    (findRow (writeResults rows ids res) reg).map (fun r => (r.id, r.await)) = (findRow rows reg).map fun r => (r.id, r.await) := by
  unfold writeResults
  induction res generalizing rows with
  | nil => rfl
  | cons e es ih =>
    rw [List.foldl_cons, ih]
    generalize ids.zip e.2 = ps
    induction ps generalizing rows with
    | nil => rfl
    | cons p ps ih2 =>
      rw [List.foldl_cons, ih2, findRow_write]
      cases findRow rows reg with
      | none => rfl
      | some r => simp only [Option.map_some]; split <;> rfl

theorem findRow_awaitRows (rows : List Row) (ids seqs : List Nat) (reg : Nat) :
    findRow (awaitRows rows ids seqs) reg
      = (findRow rows reg).map fun r => if ids.contains r.id then { r with await := r.await ++ seqs } else r := by
  unfold findRow awaitRows
  exact mapIf_find? _ _ _ _ (fun _ _ => rfl)

theorem rowRead_awaitRows (rows : List Row) (ids seqs : List Nat) (reg pos : Nat) :
    rowRead (awaitRows rows ids seqs) reg pos = rowRead rows reg pos := by
  unfold rowRead
  rw [findRow_awaitRows]
  cases findRow rows reg with
  | none => rfl
  | some r => simp only [Option.map_some]; split <;> rfl

theorem RowsOk.await {rows : List Row} (h : RowsOk rows) (ids seqs : List Nat) : RowsOk (awaitRows rows ids seqs) := by
  have e : (awaitRows rows ids seqs).map Row.id = rows.map Row.id := by
    simp only [awaitRows, mapIf, List.map_map]
    refine List.map_congr_left fun r _ => ?_
    simp only [Function.comp]; split <;> rfl
  refine ⟨e ▸ h.1, fun r hr => ?_⟩
  simp only [awaitRows, mapIf, List.mem_map] at hr
  obtain ⟨q, hq, rfl⟩ := hr
  split <;> exact h.2 q hq

theorem RowsOk.writeResults {rows : List Row} (h : RowsOk rows) (ids : List Nat) (res : List (Nat × List Word)) :
    RowsOk (writeResults rows ids res) := by
  unfold Machine.writeResults
  induction res generalizing rows with
  | nil => exact h
  | cons e es ih => exact ih (h.writes _ _)

/-- Numbers in place of indices. -/
theorem zipIdx_seqs {α : Type} (l : List α) (n : Nat) (k : α × Nat → Nat) (hk : ∀ e, k e = n + e.2) :
    (l.zipIdx.map k).Nodup := by
  have : k = (fun i => n + i) ∘ Prod.snd := funext hk
  rw [this, ← List.map_map]
  refine List.Nodup.map (fun a b h => Nat.add_left_cancel h) ?_
  rw [List.zipIdx_map_snd]
  exact List.nodup_range'

/-- The end of a memory instruction none of whose lanes faults or parks. -/
theorem State.endMem_plain (s : State) (x : Iss) (f : Form) : s.endMem x f [] [] = s.endIssue x f [] := by
  unfold State.endMem State.endIssue State.parkLanes
  simp [List.filter_eq_self.mpr, State.raise_nil]

/-- The accesses of an issue: numbers of their own, and the requests they make. -/
theorem accessesOf_spec (s : State) (x : Iss) (acq rel nwb : Bool) (regs ids : List Nat) (as : List (Act × Ask)) :
    (accessesOf s x acq rel nwb regs ids as).map (fun q => (q.lane, q.dst.pos, q.kind, q.phys, q.size)) = (as.filterMap fun p =>
        match p.2 with
        | .access k a n => some (p.1.m.ref, p.1.m.pos, k, a, n)
        | _ => none)
    ∧ (∀ q ∈ accessesOf s x acq rel nwb regs ids as, q.ctx = x.ctx ∧ q.acq = acq ∧ q.rel = rel ∧ q.issue = s.seq ∧ s.seq < q.seq
        ∧ q.seq < s.seq + 1 + (accessesOf s x acq rel nwb regs ids as).length)
    ∧ ((accessesOf s x acq rel nwb regs ids as).map Access.seq).Nodup
    ∧ (∀ q ∈ accessesOf s x acq rel nwb regs ids as, q.dst.regs = regs ∧ q.dst.nwb = nwb ∧ q.rows = ids)
    ∧ ∀ q ∈ accessesOf s x acq rel nwb regs ids as, ∃ p ∈ as, p.1.m.pos = q.dst.pos ∧ ∃ k a n, p.2 = .access k a n := by
  unfold accessesOf
  simp only
  generalize hreal : (as.filterMap fun p => match p.2 with | .access k a n => some (p.1, k, a, n) | _ => none) = real
  refine ⟨?_, fun q hq => ?_, ?_, fun q hq => ?_, fun q hq => ?_⟩
  · rw [List.map_map]
    have : ∀ n, (real.zipIdx n).map ((fun q : Access => (q.lane, q.dst.pos, q.kind, q.phys, q.size)) ∘ fun e =>
        ({ seq := s.seq + 1 + e.2, issue := s.seq, ctx := x.ctx, lane := e.1.1.m.ref, kind := e.1.2.1, phys := e.1.2.2.1
           size := e.1.2.2.2, acq := acq, rel := rel, dst := { regs := regs, pos := e.1.1.m.pos, nwb := nwb, pred := none }, rows := ids
           reformed := match x.g with | .reformed core slot _ => some (core, slot) | .home _ _ _ => none } : Access))
        = real.map fun e => (e.1.m.ref, e.1.m.pos, e.2) := by
      intro n
      clear hreal
      induction real generalizing n with
      | nil => rfl
      | cons a l ih => simp only [List.zipIdx_cons, List.map_cons, ih]; rfl
    refine (this 0).trans ?_
    rw [← hreal, List.map_filterMap]
    refine List.filterMap_congr fun p _ => ?_
    cases p.2 <;> rfl
  · simp only [List.mem_map] at hq
    obtain ⟨e, he, rfl⟩ := hq
    have := List.snd_lt_of_mem_zipIdx he
    simp only [List.length_map, List.length_zipIdx, true_and]
    omega
  · rw [List.map_map]
    exact zipIdx_seqs real (s.seq + 1) _ fun _ => rfl
  · simp only [List.mem_map] at hq
    obtain ⟨e, he, rfl⟩ := hq
    exact ⟨rfl, rfl, rfl⟩
  · simp only [List.mem_map] at hq
    obtain ⟨e, he, rfl⟩ := hq
    have hm := List.fst_mem_of_mem_zipIdx he
    rw [← hreal, List.mem_filterMap] at hm
    obtain ⟨p, hp, h⟩ := hm
    refine ⟨p, hp, ?_⟩
    cases hq : p.2 with
    | access k a n =>
      rw [hq] at h
      simp only [Option.some.injEq] at h
      exact ⟨by rw [← h], k, a, n, rfl⟩
    | _ => rw [hq] at h; cases h

/-- The common end of the memory instructions, unfolded. -/
theorem State.issueMem_eq (s : State) (x : Iss) (f : Form) (g : Sig) (act : List Act) (acq rel : Bool) (ask : Act → Ask) :
    s.issueMem x f g act acq rel ask = (
      let as := act.map fun a => (a, ask a)
      let waits := as.filterMap fun p => match p.2 with | .wait ea => some ea | _ => none
      if as.any fun p => p.2.reads && s.readHeld p.1.m.ref then s.stall x .memoryData
      else if waits != [] then (waits.foldl (fun s ea => s.startWalk x.core x.ctx ea) s).stall x .translation
      else
        let faults := as.filterMap fun p => match p.2 with | .fault c d => some (⟨p.1.m.ref, c, d⟩ : LaneFault) | _ => none
        let parks := as.filterMap fun p => match p.2 with | .park ea => some (p.1.m.ref, ea) | _ => none
        let regs := dstRegs f g x.wbase
        let dest := f.d.cls = .vector
        let done := as.filterMap fun p => match p.2 with
          | .access _ _ _ => some p.1 | .value _ => some p.1 | _ => none
        let rows := if faults = [] && parks = [] then releaseLu f g x.wbase (s.rowsOf x) else s.rowsOf x
        let idle := dest && !f.nwb && decide (act.length < x.members.length) && regs.any (rowBusy rows)
        match prepDest (s.mapLimit x) rows regs (dest && !f.nwb && done != []) (decide (done.length = 32)) with
        | .inl .full =>
          let seen := done.filter fun a => !a.lane.helper
          s.endMem x f (inOrder x (faults ++ seen.map fun a => ⟨a.m.ref, .regLivemax, BitVec.ofNat 52 (regs.headD 0)⟩)) parks
        | .inl _ => s.stall x .memoryData
        | .inr (rows, ids) =>
          if idle then s.stall x .memoryData
          else
            let acc := accessesOf s x acq rel f.nwb regs ids as
            let vals := as.filterMap fun p => match p.2 with | .value ws => some (p.1.m.pos, ws) | _ => none
            let rows := writeResults (awaitRows rows ids (if dest then acc.map Access.seq else [])) ids vals
            let res := (acc.map fun a => (a.dst.pos, (List.range regs.length).map (Latch.awaiting a.seq)))
              ++ vals.map fun v => (v.1, v.2.map Latch.full)
            let s := { s.setRows x rows with pend := s.pend ++ acc, seq := s.seq + 1 + acc.length }
            let s := if dest then s.shiftPipe x regs.length (fun k pos => latchEntry x act f.nwb rows regs res k pos) else s
            s.endMem x f faults parks) := rfl

/-- Everything the common end of the memory instructions does where every active lane's request goes on. -/
theorem State.issueMem_spec {i : Instr} {forbidden : Bool} {s : State} {x : Iss} {f : Form} {g : Sig} (acq rel : Bool)
    {ask : Act → Ask} (hc : CanIssue i f forbidden s x) (ok : IssueOk s x) (hg : ∀ a ∈ s.actives x f, s.goesOn a (ask a) = true)
    (hw : ∀ a ∈ s.actives x f, ∀ ws, ask a = .value ws → (dstRegs f g x.wbase).length ≤ ws.length)
    (hd : DestOk s x f g ((((s.actives x f).map fun a => (a, ask a)).filter fun p => p.2 != .nothing).length))
    (h8 : (dstRegs f g x.wbase).length ≤ 8) :
    ∃ new, AccessesIssued x f g acq rel ((s.actives x f).map fun a => (a, ask a)) new s
      (s.issueMem x f g (s.actives x f) acq rel ask) := by
  generalize has : ((s.actives x f).map fun a => (a, ask a)) = as at hd
  have both : ∀ p ∈ as, p.2.goesOn = true ∧ (p.2.reads && s.readHeld p.1.m.ref) = false := by
    rw [← has]; intro p hp; simp only [List.mem_map] at hp; obtain ⟨a, ha, rfl⟩ := hp
    have := hg a ha
    simp only [State.goesOn, Bool.and_eq_true, Bool.not_eq_true'] at this
    exact this
  have goes : ∀ p ∈ as, p.2.goesOn = true := fun p hp => (both p hp).1
  have free : (as.any fun p => p.2.reads && s.readHeld p.1.m.ref) = false := by
    rw [List.any_eq_false]; intro p hp; rw [(both p hp).2]; decide
  clear both
  have acts : ∀ p ∈ as, p.1 ∈ s.actives x f ∧ ask p.1 = p.2 := by
    rw [← has]; intro p hp; simp only [List.mem_map] at hp; obtain ⟨a, ha, rfl⟩ := hp; exact ⟨ha, rfl⟩
  have noWaits : (as.filterMap fun p => match p.2 with | .wait ea => some ea | _ => none) = [] := by
    rw [List.filterMap_eq_nil_iff]; intro p hp; have := goes p hp; cases h : p.2 <;> simp_all [Ask.goesOn]
  have noFaults : (as.filterMap fun p => match p.2 with | .fault c d => some (⟨p.1.m.ref, c, d⟩ : LaneFault) | _ => none) = [] := by
    rw [List.filterMap_eq_nil_iff]; intro p hp; have := goes p hp; cases h : p.2 <;> simp_all [Ask.goesOn]
  have noParks : (as.filterMap fun p => match p.2 with | .park ea => some (p.1.m.ref, ea) | _ => none) = [] := by
    rw [List.filterMap_eq_nil_iff]; intro p hp; have := goes p hp; cases h : p.2 <;> simp_all [Ask.goesOn]
  generalize hdone : (as.filterMap fun p => match p.2 with | .access _ _ _ => some p.1 | .value _ => some p.1 | _ => none) = done
  have hlen : done.length = (as.filter fun p => p.2 != .nothing).length := by
    rw [← hdone]
    clear hdone has hd acts noWaits noFaults noParks free
    induction as with
    | nil => rfl
    | cons p ps ih =>
      have := ih fun q hq => goes q (by simp [hq])
      have hp := goes p (by simp)
      cases h : p.2 <;> simp_all [Ask.goesOn]
  rw [← hlen] at hd
  obtain ⟨p, hp⟩ := hd.room
  have hbusy : ∀ reg ∈ dstRegs f g x.wbase, rowBusy (releaseLu f g x.wbase (s.rowsOf x)) reg = false :=
    fun reg hreg => rowBusy_releases _ _ _ (hd.idle reg hreg)
  have hany : (dstRegs f g x.wbase).any (rowBusy (releaseLu f g x.wbase (s.rowsOf x))) = false := by
    simpa [List.any_eq_false] using hbusy
  have ok0 : RowsOk (releaseLu f g x.wbase (s.rowsOf x)) := ok.rows.releases _
  obtain ⟨okp, readp, hids, hnids⟩ := prepDest_spec ok0 hbusy hp
  have noDst : f.d.cls ≠ .vector → dstRegs f g x.wbase = [] := fun h => by simp [dstRegs, slotRegs, h]
  have hp' : prepDest (s.mapLimit x) (releaseLu f g x.wbase (s.rowsOf x)) (dstRegs f g x.wbase)
      (decide (f.d.cls = .vector) && !f.nwb && done != []) (decide (done.length = 32)) = .inr p := by
    rw [← hp]
    by_cases h : f.d.cls = .vector
    · rw [show (done != []) = (done.length != 0) by cases done <;> rfl]; simp [h]
    · simp [prepDest, noDst h]
  have hpids : f.nwb = true → p.2 = [] := fun h => hnids (by simp [h])
  -- the accesses, and the map with the values at hand
  let acc := accessesOf s x acq rel f.nwb (dstRegs f g x.wbase) p.2 as
  obtain ⟨asked, order, distinct, dest, froms⟩ := accessesOf_spec s x acq rel f.nwb (dstRegs f g x.wbase) p.2 as
  let vals : List (Nat × List Word) := as.filterMap fun p => match p.2 with | .value ws => some (p.1.m.pos, ws) | _ => none
  let rows1 := awaitRows p.1 p.2 (if f.d.cls = .vector then acc.map Access.seq else [])
  let rows2 := writeResults rows1 p.2 vals
  have ok1 : RowsOk rows1 := okp.await _ _
  have read1 : ∀ reg pos, rowRead rows1 reg pos = if reg ∈ luRegs f g x.wbase then 0 else s.readReg x reg pos := fun reg pos => by
    rw [rowRead_awaitRows, readp]; exact rowRead_releases _ _ _ _
  have posNodup : ((s.actives x f).map fun a => a.m.pos).Nodup := by
    have h := ((actives_sublist s x f).map Member.pos).nodup ok.poss
    rwa [List.map_map] at h
  have vals_mem : ∀ e ∈ vals, ∃ a ∈ s.actives x f, ask a = .value e.2 ∧ a.m.pos = e.1 := fun e he => by
    simp only [vals, List.mem_filterMap] at he
    obtain ⟨q, hq, h⟩ := he
    cases hq2 : q.2 <;> simp only [hq2, Option.some.injEq, reduceCtorEq] at h
    subst h
    exact ⟨q.1, (acts q hq).1, (acts q hq).2.trans hq2, rfl⟩
  have valsNodup : (vals.map Prod.fst).Nodup := by
    have : List.Sublist (vals.map Prod.fst) ((s.actives x f).map fun a => a.m.pos) := by
      have e1 : (s.actives x f).map (fun a => a.m.pos) = as.map fun p => p.1.m.pos := by rw [← has, List.map_map]; rfl
      rw [e1]
      clear_value rows1 rows2
      clear has hd acts noWaits noFaults noParks free hdone goes vals_mem asked order distinct dest froms hlen e1
      simp only [vals]
      clear vals
      induction as with
      | nil => exact List.Sublist.slnil
      | cons q qs ih =>
        cases h : q.2 <;> simp only [List.filterMap_cons, h, List.map_cons]
        all_goals first | exact ih.cons _ | exact ih.cons_cons _
    exact this.nodup posNodup
  have hdis : ∀ e ∈ vals, f.nwb = false → f.d.cls = .vector → (p.2.length = (dstRegs f g x.wbase).length ∧ ∀ (k reg : Nat),
      (dstRegs f g x.wbase)[k]? = some reg → ∃ r, findRow p.1 reg = some r ∧ p.2[k]? = some r.id) := fun e he hn hv => by
    refine hids ?_
    have : done.length ≠ 0 := by
      obtain ⟨a, ha, h1, _⟩ := vals_mem e he
      have hm : a ∈ done := by
        rw [← hdone, List.mem_filterMap]
        exact ⟨(a, ask a), has ▸ List.mem_map_of_mem ha, by simp [h1]⟩
      intro h0; rw [List.length_eq_zero_iff.mp h0] at hm; simp at hm
    simp [hn, this]
  have rowsAwait : ∀ (k reg : Nat), (p.2.length = (dstRegs f g x.wbase).length ∧ ∀ (k reg : Nat),
      (dstRegs f g x.wbase)[k]? = some reg → ∃ r, findRow p.1 reg = some r ∧ p.2[k]? = some r.id) →
      (dstRegs f g x.wbase)[k]? = some reg → ∃ r, findRow rows1 reg = some r ∧ p.2[k]? = some r.id
        ∧ r.await = (((findRow p.1 reg).map Row.await).getD []) ++ (if f.d.cls = .vector then acc.map Access.seq else []) :=
    fun k reg h hk => by
      obtain ⟨r, hr, hi⟩ := h.2 k reg hk
      have hcon : p.2.contains r.id = true := by
        rw [List.contains_iff_mem]; exact List.mem_of_getElem? hi
      refine ⟨{ r with await := r.await ++ if f.d.cls = .vector then acc.map Access.seq else [] }, ?_, hi, by rw [hr]; rfl⟩
      rw [findRow_awaitRows, hr, Option.map_some, hcon, if_pos rfl]
  have final : (f.nwb = false → ∀ e ∈ vals, ∀ k reg : Nat, (dstRegs f g x.wbase)[k]? = some reg → rowRead rows2 reg e.1 = e.2.getD k 0)
      ∧ (∀ reg pos, f.nwb = true ∨ reg ∉ dstRegs f g x.wbase ∨ (∀ e ∈ vals, e.1 ≠ pos) → rowRead rows2 reg pos = rowRead rows1 reg pos) := by
    have whole : ∀ (h : p.2.length = (dstRegs f g x.wbase).length ∧ ∀ (k reg : Nat),
        (dstRegs f g x.wbase)[k]? = some reg → ∃ r, findRow p.1 reg = some r ∧ p.2[k]? = some r.id),
        _ := fun h => rowRead_writeResults ok1 (slotRegs_nodup f x.wbase f.d g.d) h.1
          (fun k reg hk => let ⟨r, a, b, _⟩ := rowsAwait k reg h hk; ⟨r, a, b⟩) vals
          (fun e he => let ⟨a, ha, _, h2⟩ := vals_mem e he; h2 ▸ ok.pos _ (mem_actives ha).1) valsNodup
          (fun e he => let ⟨a, ha, h1, _⟩ := vals_mem e he; hw a ha _ h1)
    have noIds : p.2 = [] → rows2 = rows1 := fun h => by
      simp only [rows2, h, writeResults, List.zip_nil_left, List.foldl_nil]
      generalize vals = l
      generalize rows1 = r
      induction l with
      | nil => rfl
      | cons a as ih => exact ih
    refine ⟨fun hn e he k reg hk => ?_, fun reg pos h => ?_⟩
    · have hv : f.d.cls = .vector := by by_contra hv; simp [noDst hv] at hk
      exact (whole (hdis e he hn hv)).1 e he k reg hk
    · by_cases hz : p.2 = []
      · rw [noIds hz]
      · by_cases hv : vals = []
        · simp only [rows2, hv, writeResults, List.foldl_nil]
        · obtain ⟨e, he⟩ := List.exists_mem_of_ne_nil _ hv
          have hn : f.nwb = false := by
            cases h : f.nwb with
            | false => rfl
            | true => exact absurd (hpids h) hz
          by_cases hd' : f.d.cls = .vector
          · refine (whole (hdis e he hn hd')).2 reg pos ?_
            cases h with
            | inl h => rw [hn] at h; cases h
            | inr h =>
              refine h.imp_right fun h hm => ?_
              simp only [List.mem_map] at hm
              obtain ⟨q, hq, rfl⟩ := hm
              exact h q hq rfl
          · exfalso
            have hids0 : p.2 = [] := by
              have := hp'
              simp [prepDest, noDst hd'] at this
              rw [← this]
            exact hz hids0
  -- the state written
  let s0 : State := { s with pend := s.pend ++ acc, seq := s.seq + 1 + acc.length }
  have hc0 : CanIssue i f forbidden s0 x := ⟨hc.issue, hc.decodes, hc.allowed, hc.idle⟩
  let s1 := s0.setRows x rows2
  let res : List (Nat × List Latch) := (acc.map fun a => (a.dst.pos, (List.range (dstRegs f g x.wbase).length).map (Latch.awaiting a.seq)))
    ++ vals.map fun v => (v.1, v.2.map Latch.full)
  let s2 := if f.d.cls = .vector then s1.shiftPipe x (dstRegs f g x.wbase).length
      (fun k pos => latchEntry x (s.actives x f) f.nwb rows2 (dstRegs f g x.wbase) res k pos) else s1
  have hend : s.issueMem x f g (s.actives x f) acq rel ask = s2.endIssue x f [] := by
    rw [State.issueMem_eq]
    simp only
    rw [has, noWaits, free]
    simp only [bne_self_eq_false, Bool.false_eq_true, if_false]
    rw [noFaults, noParks]
    simp only [decide_true, Bool.and_self, if_true]
    rw [hdone, hp']
    simp only [hany, Bool.and_false, Bool.false_eq_true, if_false]
    rw [State.endMem_plain]
    congr 1
    have hset : ({ s.setRows x rows2 with pend := s.pend ++ acc, seq := s.seq + 1 + acc.length } : State) = s1 := by
      simp only [s1, s0, State.setRows]
      cases x.g with
      | home a b c => rfl
      | reformed a b d => simp only [State.updCore]; split <;> rfl
    by_cases hv : f.d.cls = .vector
    · simp only [hv, if_true, s2]
      rw [← hset]
      simp only [rows2, rows1, hv, if_true]
      rfl
    · simp only [hv, if_false, s2]
      rw [← hset]
      simp only [rows2, rows1, hv, if_false]
      rfl
  rw [hend]
  refine ⟨acc, ?_⟩
  obtain ⟨m1, f1, l1, w1, p1⟩ := s0.setRows_spec hc0 rows2
  have f2 : RegisterFrame x s1 s2 := by
    simp only [s2]; split
    · exact s1.shiftPipe_frame x _ _
    · exact RegisterFrame.refl x s1
  have l2 : ∀ r, s2.lane? r = s1.lane? r := fun r => by
    simp only [s2]; split <;> simp only [State.shiftPipe, State.lane?_setPipe]
  have w2 : ∀ wg w, s2.warp? wg w = s1.warp? wg w := fun wg w => by
    simp only [s2]; split <;> simp only [State.shiftPipe, State.warp?_setPipe]
  have m2 : s2.rowsOf x = rows2 := by
    simp only [s2]; split
    · simp only [State.shiftPipe, State.rowsOf_setPipe]; exact m1
    · exact m1
  have pend2 : s2.pend = s.pend ++ acc ∧ s2.seq = s.seq + 1 + acc.length := by
    have e1 : s1.pend = s.pend ++ acc ∧ s1.seq = s.seq + 1 + acc.length := by
      obtain ⟨_, _, _, _, h⟩ := f1.package
      simp only [s1, h]; exact ⟨rfl, rfl⟩
    simp only [s2]; split
    · simp only [State.shiftPipe, State.setPipe_pend, State.setPipe_seq]; exact e1
    · exact e1
  have e4 := s2.endIssue_plain x f
  have pendE : (s2.endIssue x f []).pend = s.pend ++ acc ∧ (s2.endIssue x f []).seq = s.seq + 1 + acc.length := by
    obtain ⟨_, _, _, _, h⟩ := e4.frame.package
    rw [h]; exact pend2
  have readEnd : ∀ reg pos, (s2.endIssue x f []).readReg x reg pos = rowRead rows2 reg pos := fun reg pos => by
    unfold State.readReg; rw [e4.map, m2]
  have rowsEnd : (s2.endIssue x f []).rowsOf x = rows2 := e4.map.trans m2
  have rows2row : ∀ reg, (findRow rows2 reg).map (fun r => (r.id, r.await)) = (findRow rows1 reg).map fun r => (r.id, r.await) :=
    fun reg => findRow_writeResults rows1 p.2 vals reg
  have doneNe : ∀ q ∈ acc, done.length ≠ 0 := fun q hq h0 => by
    obtain ⟨e, he, _, k, a, n, h1⟩ := froms q hq
    have : e.1 ∈ done := by rw [← hdone, List.mem_filterMap]; exact ⟨e, he, by simp [h1]⟩
    rw [List.length_eq_zero_iff.mp h0] at this; simp at this
  have pipe1 : ∀ c n k, s1.pipe c n k = s.pipe c n k := fun c n k => by
    unfold State.pipe; rw [show s1.pipes = s.pipes from p1]
  have latchE : ∀ pos n, (s2.endIssue x f []).readLatch x pos n = s2.readLatch x pos n := fun pos n => by
    unfold State.readLatch State.pipe; rw [e4.pipes]
  have latch2 : f.d.cls = .vector → ∀ pos n, pos < 32 → n < 8 → s2.readLatch x pos n
      = if n < (dstRegs f g x.wbase).length then
          latchEntry x (s.actives x f) f.nwb rows2 (dstRegs f g x.wbase) res ((dstRegs f g x.wbase).length - 1 - n) pos
        else s.readLatch x pos (n - (dstRegs f g x.wbase).length) := fun hv pos n h1 h2 => by
    simp only [s2, hv, if_true]
    rw [s1.shiftPipe_latch x _ _ pos n h1 h2]
    refine congrArg _ ?_
    unfold State.readLatch; rw [pipe1]
  refine ⟨pendE.1, ?_, fun q hq => ?_, distinct, fun q hq => ⟨(dest q hq).1, (dest q hq).2.1⟩, fun hv hn q hq k reg hk => ?_,
    fun hn e he ws hws k reg hk => ?_, fun reg pos h => ?_, fun hv q hq k hk => ?_, fun hv pos n h1 h2 => ?_, fun hv => ?_,
    fun wg w => ?_, fun wg w => ?_, fun m hm => ?_, ?_⟩
  · exact asked
  · obtain ⟨a, b, c, d, e, h⟩ := order q hq
    exact ⟨a, b, c, d, e, by rw [pendE.2]; simp only [acc]; omega⟩
  · obtain ⟨r, hr, hi, ha⟩ := rowsAwait k reg (hids (by simp [hn, doneNe q hq])) hk
    have h2 := rows2row reg
    rw [hr] at h2
    cases hr2 : findRow rows2 reg with
    | none => rw [hr2] at h2; cases h2
    | some r2 =>
      rw [hr2] at h2
      simp only [Option.map_some, Option.some.injEq, Prod.mk.injEq] at h2
      refine ⟨r2, by rw [rowsEnd, hr2], ?_, ?_⟩
      · rw [(dest q hq).2.2, h2.1]; exact hi
      · rw [h2.2, ha, if_pos hv]
        exact List.mem_append_right _ (List.mem_map_of_mem hq)
  · rw [readEnd]
    refine final.1 hn (e.1.m.pos, ws) ?_ k reg hk
    simp only [vals, List.mem_filterMap]
    exact ⟨e, he, by simp [hws]⟩
  · rw [readEnd, final.2 reg pos ?_, read1]
    refine h.imp_right fun h => h.imp_right fun h e he => ?_
    obtain ⟨a, ha, h1, h2⟩ := vals_mem e he
    rw [← h2]
    exact h (a, ask a) (has ▸ List.mem_map_of_mem ha) _ h1
  · obtain ⟨e, he, h1, _⟩ := froms q hq
    have hpos : q.dst.pos < 32 := h1 ▸ ok.pos _ (mem_actives (acts e he).1).1
    rw [latchE, latch2 hv _ _ hpos (by omega), if_pos (by omega)]
    rw [show (dstRegs f g x.wbase).length - 1 - ((dstRegs f g x.wbase).length - 1 - k) = k by omega]
    have hfind : res.find? (fun r => decide (r.1 = q.dst.pos))
        = some (q.dst.pos, (List.range (dstRegs f g x.wbase).length).map (Latch.awaiting q.seq)) := by
      have nd : (acc.map fun q => q.dst.pos).Nodup := by
        have e1 : acc.map (fun q => q.dst.pos) = (as.filterMap fun p =>
            match p.2 with
            | .access k a n => some (p.1.m.ref, p.1.m.pos, k, a, n)
            | _ => none).map fun e => e.2.1 := by
          rw [← asked, List.map_map]; rfl
        rw [e1]
        have e2 : (s.actives x f).map (fun a => a.m.pos) = as.map fun p => p.1.m.pos := by rw [← has, List.map_map]; rfl
        rw [e2] at posNodup
        refine List.Sublist.nodup ?_ posNodup
        clear_value acc rows1 rows2 s0 s1 s2 res vals
        clear posNodup e2 e1 he asked
        clear froms order distinct dest hdone hlen goes acts noWaits noFaults noParks free has hd
        induction as with
        | nil => exact List.Sublist.slnil
        | cons q qs ih =>
          cases h : q.2 <;> simp only [List.filterMap_cons, h, List.map_cons]
          all_goals first | exact ih.cons _ | exact ih.cons_cons _
      have := find_pos (acc.map fun a => (a.dst.pos, (List.range (dstRegs f g x.wbase).length).map (Latch.awaiting a.seq)))
        (by rw [List.map_map]; exact nd) (List.mem_map_of_mem hq)
      simp only [res, List.find?_append, this, Option.some_or]
    unfold latchEntry
    rw [hfind]
    simp [List.getD_eq_getElem?_getD, List.getElem?_range hk]
  · rw [latchE, latch2 hv _ _ h1 h2, if_neg (by omega)]
    congr 1; omega
  · rw [e4.pipes]
    simp only [s2, hv, if_false]
    exact p1
  · rw [e4.warps Warp.fpstat (fun _ _ => rfl) (fun _ _ => rfl) wg w, w2]
    refine (w1 Warp.fpstat (fun _ _ => rfl) wg w).trans ?_
    change Option.map Warp.fpstat (s.warp? wg w) = _
    simp [raisedIn]
  · rw [e4.warps Warp.uregs (fun _ _ => rfl) (fun _ _ => rfl) wg w, w2]
    exact w1 Warp.uregs (fun _ _ => rfl) wg w
  · rw [e4.lanes, if_pos (List.mem_map_of_mem hm), l2, l1]
    rfl
  · rw [pendE.1, pendE.2]
    exact (f1.trans f2).trans e4.frame

/-- A memory instruction whose lanes each make one access. -/
theorem memStep_spec {i : Instr} {f : Form} {s : State} {x : Iss} {acq rel : Bool} {ask : Iss → Act → Args → State → Ask}
    {ask' : LaneAsk} (hc : CanIssue i f false s x) (ok : IssueOk s x)
    (hk : ∀ a ∈ s.actives x f, ∀ args, s.argsOf x f (sigOf i f) a = some args → ask x a args s = ask' s f x a args)
    (hg : ∀ a ∈ s.actives x f, ∃ args, s.argsOf x f (sigOf i f) a = some args ∧ s.goesOn a (ask' s f x a args) = true)
    (hw : ∀ a args ws, ask' s f x a args = .value ws → (dstRegs f (sigOf i f) x.wbase).length ≤ ws.length)
    (hd : DestOk s x f (sigOf i f) ((s.asked x f (sigOf i f) ask').filter fun p => p.2 != .nothing).length)
    (h8 : (dstRegs f (sigOf i f) x.wbase).length ≤ 8) :
    ∃ t new, memStep i f acq rel ask s = .next t ∧ AccessesIssued x f (sigOf i f) acq rel (s.asked x f (sigOf i f) ask') new s t := by
  let k : Act → Ask := fun a => match s.argsOf x f (sigOf i f) a with
    | none => (s.reads x f (sigOf i f)).lackAsk f (sigOf i f) a
    | some args => ask x a args s
  have e : (s.actives x f).map (fun a => (a, k a)) = s.asked x f (sigOf i f) ask' := by
    unfold State.asked
    suffices ∀ l : List Act, (∀ a ∈ l, a ∈ s.actives x f) → l.map (fun a => (a, k a)) = l.filterMap fun a =>
        (s.argsOf x f (sigOf i f) a).map fun args => (a, ask' s f x a args) from this _ fun a h => h
    intro l
    induction l with
    | nil => intro _; rfl
    | cons a as ih =>
      intro h
      obtain ⟨args, h1, _⟩ := hg a (h a (by simp))
      simp only [List.map_cons, List.filterMap_cons, h1, Option.map_some, ih fun b hb => h b (by simp [hb]), k]
      rw [hk a (h a (by simp)) args h1]
  obtain ⟨new, hn⟩ := State.issueMem_spec acq rel (ask := k) hc ok
    (fun a ha => by
      obtain ⟨args, h1, h2⟩ := hg a ha
      simp only [k, h1]; rw [hk a ha args h1]; exact h2)
    (fun a ha ws h => by
      obtain ⟨args, h1, _⟩ := hg a ha
      simp only [k, h1] at h; rw [hk a ha args h1] at h; exact hw a args ws h)
    (by rw [e]; exact hd) h8
  rw [e] at hn
  exact ⟨_, new, by unfold memStep; rw [front_canIssue hc]; rfl, hn⟩

/-! ### Memory cleared -/

theorem Cells.wfFrom_filter {t : Cells w} {lo : Nat} (p : Nat × BitVec w → Bool) (ht : Cells.wfFrom lo t = true) :
    Cells.wfFrom lo (t.filter p) = true := by
  induction t generalizing lo with
  | nil => rfl
  | cons e rest ih =>
    simp only [Cells.wfFrom, Bool.and_eq_true, decide_eq_true_eq, bne_iff_ne, ne_eq] at ht
    rw [List.filter_cons]
    split
    · simp only [Cells.wfFrom, Bool.and_eq_true, decide_eq_true_eq, bne_iff_ne, ne_eq]
      exact ⟨ht.1, ih ht.2⟩
    · exact Cells.wfFrom_mono (by omega) (ih ht.2)

theorem Memory.wf_clear {m : Mem} (a n : Nat) (h : Memory.wf m = true) : Memory.wf (Memory.clear m a n) = true :=
  Cells.wfFrom_filter _ h

/-- Cleared bytes read 0, every other byte reads as before. -/
theorem Memory.read_clear {m : Mem} (h : Memory.wf m = true) (a n b : Nat) :
    Memory.read (Memory.clear m a n) b = if a ≤ b ∧ b < a + n then 0 else Memory.read m b := by
  unfold Memory.wf at h
  unfold Memory.read Memory.clear
  generalize 0 = lo at h
  induction m generalizing lo with
  | nil => simp
  | cons e rest ih =>
    simp only [Cells.wfFrom, Bool.and_eq_true, decide_eq_true_eq, bne_iff_ne, ne_eq] at h
    have hr := ih (e.1 + 1) h.2
    rw [List.filter_cons]
    by_cases he : e.1 = b
    · subst he
      have hz := Cells.read_below h.2 (Nat.lt_succ_self e.1)
      split
      · rename_i hp
        simp only [Bool.or_eq_true, decide_eq_true_eq] at hp
        rw [if_neg (by omega)]; simp [Cells.read]
      · rename_i hp
        simp only [Bool.or_eq_true, decide_eq_true_eq] at hp
        rw [hr, if_pos (by omega), if_pos (by omega)]
    · split
      · simp only [Cells.read, he, if_false]; exact hr
      · rw [hr]; simp only [Cells.read, he, if_false]

end Sys2Proof.Machine
end

