-- ==== Sys2Proof/Laws/Control.lean ====
section
/-! SUPPORT. The course of per-lane control instructions: what each lane becomes, and what stays (R80, R306, R307). -/

namespace Sys2Proof.Machine

/-! ### Regrouping (R80) -/

theorem Warp.settleIn_rest (order : List Group) (v : Warp) : v.settleIn order = { v with current := (v.settleIn order).current } := by
  unfold Warp.settleIn Warp.rotate; repeat' split
  all_goals rfl

theorem Warp.settle_rest (v : Warp) : v.settle = { v with current := v.settle.current } := v.settleIn_rest v.ring

theorem Warp.remake_rest (parts : Group → List Group) (v : Warp) :
    v.remake parts = { v with ring := (v.remake parts).ring, current := (v.remake parts).current } := by
  unfold Warp.remake; rw [Warp.settleIn_rest]

theorem partitionBy_ne_nil {κ : Type} [DecidableEq κ] (key : Nat → κ) (p : Nat) (ps : List Nat) : partitionBy key (p :: ps) ≠ [] := by
  unfold partitionBy
  simp only
  split <;> simp

/-- Whether a lane stands in an issue group: ISSUING or WAITING. -/
def Lane.grouped (l : Lane) : Bool := match l.st with | .issuing | .waiting _ => true | _ => false

theorem splitGroup_ne_nil (o : SplitOrder) (lane : Nat → Option Lane) (fresh : Nat) (g : Group)
    (h : ∃ p ∈ g.lanes, ((lane p).any Lane.grouped) = true) : splitGroup o lane fresh g ≠ [] := by
  obtain ⟨p, hp, hl⟩ := h
  by_cases hw : ((lane p).any fun l => match l.st with | .waiting _ => true | _ => false) = true
  · have hmem : p ∈ g.lanes.filter fun p => (lane p).any fun l => match l.st with | .waiting _ => true | _ => false :=
      List.mem_filter.mpr ⟨hp, hw⟩
    unfold splitGroup
    simp only
    generalize g.lanes.filter (fun p => (lane p).any fun l => match l.st with | .waiting _ => true | _ => false) = waiting at hmem
    have : waiting ≠ [] := fun e => by simp [e] at hmem
    intro hz
    simp only [List.map_eq_nil_iff, List.zipIdx_eq_nil_iff, List.append_eq_nil_iff, this, if_false] at hz
    exact absurd hz.2 (by simp)
  replace hl : ((lane p).any fun l => decide (l.st = .issuing)) = true := by
    cases hlp : lane p with
    | none => simp [hlp] at hl
    | some l =>
      simp only [hlp, Option.any_some, Lane.grouped] at hl hw ⊢
      cases hst : l.st <;> simp_all
  have hmem : p ∈ g.lanes.filter fun p => (lane p).any fun l => decide (l.st = .issuing) := List.mem_filter.mpr ⟨hp, hl⟩
  unfold splitGroup
  simp only
  generalize g.lanes.filter (fun p => (lane p).any fun l => decide (l.st = .issuing)) = issuing at hmem
  cases issuing with
  | nil => simp at hmem
  | cons q qs =>
    have hcs := partitionBy_ne_nil (fun p => ((lane p).map fun l => (l.pc, l.wbase)).getD (0, 0)) q qs
    generalize partitionBy (fun p => ((lane p).map fun l => (l.pc, l.wbase)).getD (0, 0)) (q :: qs) = cs at hcs
    have ho : orderClasses o cs ≠ [] := by
      unfold orderClasses
      simp only
      split
      · simp
      · simpa using hcs
    intro hz
    simp only [List.map_eq_nil_iff, List.zipIdx_eq_nil_iff, List.append_eq_nil_iff] at hz
    exact ho hz.1

/-- The view of a state that the claims on control instructions speak of: its maps, and what its warps hold beside. -/
structure Regroups (x : Iss) (s t : State) : Prop where
  package    : ∃ wgs ctl cores seq, t = { s with wgs := wgs, ctl := ctl, cores := cores, seq := seq }
  lanes      : ∀ r, t.lane? r = s.lane? r
  workgroups : ∀ id, t.wg? id = (s.wg? id).map fun g => { g with warps := ((t.wg? id).map Workgroup.warps).getD [] }
  warps      : ∀ wg w, t.warp? wg w = (s.warp? wg w).map fun v =>
    { v with ring := ((t.warp? wg w).getD v).ring, current := ((t.warp? wg w).getD v).current }
  cores      : ∀ v, t.core v = { s.core v with groups := (t.core v).groups }

theorem Regroups.trans {x : Iss} {s t u : State} (h : Regroups x s t) (k : Regroups x t u) : Regroups x s u := by
  refine ⟨?_, fun r => (k.lanes r).trans (h.lanes r), fun id => ?_, fun wg w => ?_, fun v => by rw [k.cores v, h.cores v]⟩
  · obtain ⟨w1, l1, c1, n1, rfl⟩ := h.package
    obtain ⟨w2, l2, c2, n2, rfl⟩ := k.package
    exact ⟨w2, l2, c2, n2, rfl⟩
  · have h1 := h.workgroups id
    have h2 := k.workgroups id
    cases hs : s.wg? id with
    | none => rw [hs] at h1; simp only [Option.map_none] at h1; rw [h1] at h2; simpa using h2
    | some g =>
      rw [hs] at h1; simp only [Option.map_some] at h1
      rw [h1] at h2; simp only [Option.map_some] at h2
      rw [h2]; simp
  · have h1 := h.warps wg w
    have h2 := k.warps wg w
    cases hs : s.warp? wg w with
    | none => rw [hs] at h1; simp only [Option.map_none] at h1; rw [h1] at h2; simpa using h2
    | some g =>
      rw [hs] at h1; simp only [Option.map_some] at h1
      rw [h1] at h2; simp only [Option.map_some] at h2
      rw [h2]; simp

theorem Regroups.updCore (x : Iss) (s : State) (core : Nat) (k : Core → Core) (hk : ∀ c, k c = { c with groups := (k c).groups }) :
    Regroups x s (s.updCore core k) := by
  refine ⟨?_, fun r => s.lane?_updCore core k r, fun id => ?_, fun a b => ?_, fun v => ?_⟩
  · unfold State.updCore; split <;> exact ⟨_, _, _, _, rfl⟩
  · rw [State.wg?_updCore]; cases s.wg? id <;> simp
  · rw [State.warp?_updCore]; cases s.warp? a b <;> simp
  · rw [State.core_updCore _ _ _ _ (fun c => by rw [hk])]
    split
    · exact hk _
    · rfl

theorem Regroups.seq {x : Iss} {s t : State} (h : Regroups x s t) (n : Nat) : Regroups x s { t with seq := n } := by
  refine ⟨?_, h.lanes, h.workgroups, h.warps, h.cores⟩
  obtain ⟨w, l, c, m, rfl⟩ := h.package
  exact ⟨w, l, c, n, rfl⟩

theorem State.regroup_spec (x : Iss) (s : State) (g : GroupRef) (o : SplitOrder) : Regroups x s (s.regroup g o) := by
  cases g with
  | home wg w gid =>
    let k : Warp → Warp := fun v => v.remake fun q => if q.gid = gid then splitGroup o (fun p => v.lanes[p]?) s.seq q else [q]
    have hk : ∀ v : Warp, k v = { v with ring := (k v).ring, current := (k v).current } := fun v => v.remake_rest _
    have e : s.regroup (.home wg w gid) o = { s.updWarp wg w k with seq := s.seq + 33 } := rfl
    rw [e]
    have hw : ∀ a b, ({ s.updWarp wg w k with seq := s.seq + 33 } : State).warp? a b = (s.updWarp wg w k).warp? a b := fun _ _ => rfl
    have hg : ∀ a, ({ s.updWarp wg w k with seq := s.seq + 33 } : State).wg? a = (s.updWarp wg w k).wg? a := fun _ => rfl
    refine ⟨⟨_, _, _, _, rfl⟩, fun r => ?_, fun id => ?_, fun a b => ?_, fun _ => rfl⟩
    · exact s.lane?_updWarp wg w k r (fun v => by rw [hk])
    · rw [hg, State.wg?_updWarp]
      split <;> cases s.wg? id <;> simp
    · rw [hw, State.warp?_updWarp]
      split
      · cases s.warp? a b with
        | none => rfl
        | some v => simp only [Option.map_some, Option.getD_some]; rw [← hk]
      · cases s.warp? a b <;> simp
  | reformed core slot gid =>
    simp only [State.regroup, State.settleReformed]
    refine Regroups.seq ((Regroups.updCore x s core _ ?_).trans (Regroups.updCore x _ core _ ?_)) (s.seq + 33)
    · intro c; rfl
    · intro c; rfl

theorem State.regroup_lane? (s : State) (g : GroupRef) (o : SplitOrder) (r : LaneRef) : (s.regroup g o).lane? r = s.lane? r :=
  (s.regroup_spec ⟨g, 0, 0, 0, 0, [], 0, 0, 0, false, 0, 0, none, none⟩ g o).lanes r

/-- The map of an issue after its group is regrouped, while one of its lanes is ISSUING. -/
theorem State.regroup_rowsOf (s : State) (x : Iss) (o : SplitOrder)
    (h : ∀ core slot gid, x.g = .reformed core slot gid → ∃ r q, (s.core core).groups.find? (fun r => r.slot = slot) = some r
      ∧ r.groups.find? (fun q => q.gid = gid) = some q ∧ ∃ p ∈ q.lanes, ((((r.lanes[p]?).getD none).bind s.lane?).any Lane.grouped) = true) :
    (s.regroup x.g o).rowsOf x = s.rowsOf x := by
  unfold State.rowsOf
  cases hg : x.g with
  | home wg w gid =>
    have := (s.regroup_spec x (.home wg w gid) o).warps wg w
    simp only
    rw [this]
    cases s.warp? wg w <;> rfl
  | reformed core slot gid =>
    obtain ⟨r, q, hf, hq, hp⟩ := h core slot gid hg
    simp only [State.regroup, State.settleReformed]
    have : ∀ (t : State) k, ({ t.updCore core k with seq := s.seq + 33 } : State).core core = (t.updCore core k).core core :=
      fun _ _ => rfl
    rw [this, State.core_updCore]
    rotate_left
    · intro c; rfl
    rw [State.core_updCore]
    rotate_left
    · intro c; rfl
    simp only [if_true]
    rw [mapIf_find? _ _ _ _ (by simp), List.find?_filter, Option.map_map]
    generalize hk : (fun r : Reformed =>
      ({ r with groups := r.groups.flatMap fun y =>
          if y.gid = gid then splitGroup o (fun p => ((r.lanes[p]?).getD none).bind s.lane?) s.seq y else [y] } : Reformed)) = k
    have hks : ∀ r, (k r).slot = r.slot := by intro r; rw [← hk]
    have hkr : ∀ r, (k r).rows = r.rows := by intro r; rw [← hk]
    have hne : (k r).groups ≠ [] := by
      rw [← hk]
      simp only
      intro e
      have hz := List.flatMap_eq_nil_iff.mp e q (List.mem_of_find?_eq_some hq)
      have hgid : q.gid = gid := by simpa using List.find?_some hq
      rw [if_pos hgid] at hz
      exact splitGroup_ne_nil o _ s.seq q hp hz
    clear hk hp hq
    refine (congrArg (Option.getD · []) (Option.map_congr (g := Reformed.rows)
      fun x _ => by simp only [Function.comp]; split <;> rfl)).trans ?_
    generalize hl : (s.core core).groups = l at hf
    clear hl
    induction l with
    | nil => simp at hf
    | cons a as ih =>
      simp only [mapIf, List.map_cons, List.find?_cons] at hf ih ⊢
      by_cases ha : a.slot = slot
      · simp only [ha, decide_true, Option.some.injEq] at hf
        subst hf
        simp only [ha, decide_true, if_true, hks, hne, ne_eq, not_false_eq_true, bne_iff_ne, and_self]
        simp [hkr]
      · simp only [ha, decide_false] at hf
        simp only [ha, decide_false, Bool.false_eq_true, if_false]
        have := ih hf
        simpa [ha] using this

/-! ### The lanes of an issue, one after another (R307) -/

/-- What each lane of a per-lane instruction does, where none faults or parks: `k` changes its own lane by `eff`. -/
theorem eachLane_spec (x : Iss) (e : Env) (f : Form) (g : Sig) (k : Act → Args → State → State × Done) (eff : Act → Args → Lane → Lane)
    (s0 : State) (acts : List Act) (s : State) (t : Tally)
    (hargs : ∀ a ∈ acts, ∃ args, e.args f g x.wbase a.m.pos a.lane = some args
      ∧ ∀ u : State, (∃ wgs ctl, u = { s0 with wgs := wgs, ctl := ctl }) → k a args u = (u.updLane a.m.ref (eff a args), .ok))
    (hs : ∃ wgs ctl, s = { s0 with wgs := wgs, ctl := ctl }) :
    ∃ u, eachLane x e f g k acts s t = (u, t)
      ∧ u = acts.foldl (fun s a => match e.args f g x.wbase a.m.pos a.lane with
          | some args => s.updLane a.m.ref (eff a args) | none => s) s := by
  induction acts generalizing s with
  | nil => exact ⟨s, rfl, rfl⟩
  | cons a as ih =>
    obtain ⟨args, ha, hk⟩ := hargs a (by simp)
    obtain ⟨wgs, ctl, rfl⟩ := hs
    obtain ⟨u, hu, he⟩ := ih (({ s0 with wgs := wgs, ctl := ctl } : State).updLane a.m.ref (eff a args))
      (fun b hb => hargs b (by simp [hb])) ⟨_, _, rfl⟩
    refine ⟨u, ?_, ?_⟩
    · simp only [eachLane, ha, hk _ ⟨wgs, ctl, rfl⟩]
      exact hu
    · simp only [List.foldl_cons, ha]
      exact he

/-- Lanes changed one after another, each once. -/
theorem updEach_spec (x : Iss) (eff : Act → Lane → Lane) (acts : List Act) (s : State)
    (hm : ∀ a ∈ acts, a.m.ref ∈ x.members.map Member.ref) (nd : (acts.map fun a => a.m.ref).Nodup) :
    let t := acts.foldl (fun s a => s.updLane a.m.ref (eff a)) s
    RegisterFrame x s t ∧ t.rowsOf x = s.rowsOf x ∧ (∃ wgs ctl, t = { s with wgs := wgs, ctl := ctl })
    ∧ (∀ {α : Type} (q : Warp → α), (∀ (v : Warp) lanes, q { v with lanes := lanes } = q v) → ∀ wg w,
        (t.warp? wg w).map q = (s.warp? wg w).map q)
    ∧ (∀ a ∈ acts, t.lane? a.m.ref = (s.lane? a.m.ref).map (eff a))
    ∧ (∀ q, q ∉ acts.map (fun a => a.m.ref) → t.lane? q = s.lane? q) := by
  induction acts generalizing s with
  | nil => exact ⟨RegisterFrame.refl x s, rfl, ⟨s.wgs, s.ctl, rfl⟩, fun _ _ _ _ => rfl, by simp, fun _ _ => rfl⟩
  | cons r rs ih =>
    simp only [List.map_cons, List.nodup_cons] at nd
    obtain ⟨a, b, c, d, e, g⟩ := ih (s.updLane r.m.ref (eff r)) (fun q hq => hm q (by simp [hq])) nd.2
    simp only [List.foldl_cons]
    refine ⟨(s.updLane_frame x _ _ (hm r (by simp))).trans a, b.trans (s.updLane_rowsOf _ _ x), ?_,
      fun q hq wg w => (d q hq wg w).trans (s.updLane_warp _ _ q hq wg w), fun q hq => ?_, fun q hq => ?_⟩
    · obtain ⟨w, l, hw⟩ := c; exact ⟨w, l, hw⟩
    · cases List.mem_cons.mp hq with
      | inl k => subst k; rw [g _ nd.1, State.lane?_updLane, if_pos rfl]
      | inr k =>
        have hne : q.m.ref ≠ r.m.ref := fun h => nd.1 (h ▸ List.mem_map_of_mem (f := fun r : Act => r.m.ref) k)
        rw [e q k, State.lane?_updLane, if_neg hne]
    · simp only [List.map_cons, List.mem_cons, not_or] at hq
      rw [g q hq.2, State.lane?_updLane, if_neg hq.1]

/-- A frame of registers, without the pipes. -/
theorem RegisterFrame.control {x : Iss} {f : Form} {g : Sig} {s t u : State} (h : RegisterFrame x s t) (hp : t.pipes = s.pipes)
    (hq : ∀ wg w, (t.warp? wg w).map (fun v : Warp => (v.fpstat, v.uregs)) = (s.warp? wg w).map fun v => (v.fpstat, v.uregs))
    (k : Regroups x t u) (hm : ∀ reg pos, u.readReg x reg pos = if reg ∈ luRegs f g x.wbase then 0 else s.readReg x reg pos) :
    ControlFrame x f g s u := by
  refine ⟨?_, fun a => ?_, fun id => ?_, fun wg w => ?_, fun v => ?_, fun r hr => (k.lanes r).trans (h.lanes r hr), fun wg w hw => ?_, hm⟩
  · obtain ⟨w1, l1, c1, p1, rfl⟩ := h.package
    obtain ⟨w2, l2, c2, q2, rfl⟩ := k.package
    refine ⟨w2, l2, c2, q2, ?_⟩
    simp only at hp
    subst hp
    rfl
  · obtain ⟨w1, l1, c1, p1, rfl⟩ := h.package
    obtain ⟨w2, l2, c2, q2, rfl⟩ := k.package
    rfl
  · have h1 := h.workgroups id
    have h2 := k.workgroups id
    cases hs : s.wg? id with
    | none => rw [hs] at h1; simp only [Option.map_none] at h1; rw [h1] at h2; simpa using h2
    | some g =>
      rw [hs] at h1; simp only [Option.map_some] at h1
      rw [h1] at h2; simp only [Option.map_some] at h2
      rw [h2]; simp
  · have h1 := h.warps wg w
    have h2 := k.warps wg w
    have h3 := hq wg w
    cases hs : s.warp? wg w with
    | none => rw [hs] at h1; simp only [Option.map_none] at h1; rw [h1] at h2; simpa using h2
    | some v =>
      rw [hs] at h1 h3; simp only [Option.map_some] at h1 h3
      cases ht : t.warp? wg w with
      | none => rw [ht] at h3; cases h3
      | some v1 =>
        rw [ht] at h1 h2 h3
        simp only [Option.map_some, Option.some.injEq, Option.getD_some, Prod.mk.injEq] at h1 h2 h3
        rw [h2]
        simp only [Option.map_some, Option.getD_some]
        rw [h1, h3.1, h3.2]
  · rw [k.cores v, h.cores v]
  · have h2 := k.warps wg w
    have h1 := h.maps wg w hw
    rw [← h1, h2, Option.map_map]
    cases t.warp? wg w <;> rfl

/-- The group of an issue in its reformed group (R80, R91). -/
def GroupAt (s : State) (x : Iss) : Prop :=
  ∀ core slot gid, x.g = .reformed core slot gid → ∃ r q, (s.core core).groups.find? (fun r => r.slot = slot) = some r
    ∧ r.groups.find? (fun q => q.gid = gid) = some q ∧ x.members = q.lanes.filterMap fun p => ((r.lanes[p]?).getD none).map fun ref => (⟨p, ref⟩ : Member)

theorem CanIssue.groupAt {i : Instr} {f : Form} {forbidden : Bool} {s : State} {x : Iss} (h : CanIssue i f forbidden s x) :
    GroupAt s x := by
  intro core slot gid hg
  have hc := h.cur
  have h := h.issue
  unfold State.curIss? at h
  rw [hc, hg] at h
  simp only [State.iss?, Option.bind_eq_bind, Option.bind_eq_some_iff, Option.some.injEq] at h
  obtain ⟨r, hr, q, hq, _, _, _, _, rfl⟩ := h
  exact ⟨r, q, hr, hq, rfl⟩

theorem CanIssue.nonempty {i : Instr} {f : Form} {forbidden : Bool} {s : State} {x : Iss} (h : CanIssue i f forbidden s x) :
    x.members ≠ [] := by
  have hc := h.cur
  have h := h.issue
  unfold State.curIss? at h
  rw [hc] at h
  simp only at h
  generalize x.g = g at h
  cases g with
  | home wg w gid =>
    simp only [State.iss?, Option.bind_eq_bind, Option.bind_eq_some_iff, Option.some.injEq] at h
    obtain ⟨_, _, _, _, q, _, l0, hl0, _, _, rfl⟩ := h
    intro e
    simp only [List.map_eq_nil_iff] at e
    simp [e] at hl0
  | reformed core slot gid =>
    simp only [State.iss?, Option.bind_eq_bind, Option.bind_eq_some_iff, Option.some.injEq] at h
    obtain ⟨_, _, _, _, m0, hm0, _, _, rfl⟩ := h
    intro e
    simp only at e
    simp [e] at hm0

/-- The change of a core's groups that keeps each group's lanes keeps the issue's group. -/
theorem GroupAt.updCore {s : State} {x : Iss} (h : GroupAt s x) (core : Nat) (slot : Nat) (k : Reformed → Reformed)
    (hs : ∀ r, (k r).slot = r.slot) (hl : ∀ r, (k r).lanes = r.lanes)
    (hg : ∀ r q gid, r.groups.find? (fun q => q.gid = gid) = some q →
      ∃ q', (k r).groups.find? (fun q => q.gid = gid) = some q' ∧ q'.lanes = q.lanes) :
    GroupAt (s.updCore core fun c => { c with groups := mapIf (fun r => r.slot = slot) k c.groups }) x := by
  intro c n gid hx
  obtain ⟨r, q, hf, hq, hm⟩ := h c n gid hx
  rw [State.core_updCore]
  rotate_left
  · intro c; rfl
  split
  next e =>
    subst e
    simp only
    rw [mapIf_find? _ _ _ _ (by intro r _; simp [hs]), hf]
    by_cases hsl : r.slot = slot
    · obtain ⟨q', hq', hl'⟩ := hg r q gid hq
      refine ⟨k r, q', by simp [hsl], hq', ?_⟩
      rw [hm, hl', hl]
    · exact ⟨r, q, by simp [hsl], hq, hm⟩
  next e => exact ⟨r, q, hf, hq, hm⟩

theorem GroupAt.of_cores {s t : State} {x : Iss} (h : GroupAt s x) (hc : t.cores = s.cores) : GroupAt t x := by
  intro c n gid hx
  have : t.core c = s.core c := by unfold State.core; rw [hc]
  rw [this]; exact h c n gid hx

theorem GroupAt.setHold {s : State} {x : Iss} (h : GroupAt s x) (g : GroupRef) (o : Option Hold) : GroupAt (s.setHold g o) x := by
  cases g with
  | home wg w gid => exact h.of_cores rfl
  | reformed core slot gid =>
    refine h.updCore core slot _ (fun _ => rfl) (fun _ => rfl) (fun r q n hr => ?_)
    refine ⟨_, (mapIf_find? (fun q => q.gid = gid) (fun q => q.gid = n) (fun q : Group => { q with hold := o }) r.groups
      fun _ _ => rfl).trans (congrArg _ hr), ?_⟩
    simp only
    split <;> rfl

theorem GroupAt.setRows {s : State} {x : Iss} (h : GroupAt s x) (rows : List Row) : GroupAt (s.setRows x rows) x := by
  unfold State.setRows
  cases hx : x.g with
  | home wg w gid => exact h.of_cores rfl
  | reformed core slot gid =>
    exact h.updCore core slot _ (fun _ => rfl) (fun _ => rfl) (fun r q n hr => ⟨q, hr, rfl⟩)

/-- An issue with a member still in its group keeps its map when its group is regrouped. -/
theorem GroupAt.regroup {s : State} {x : Iss} (h : GroupAt s x) (o : SplitOrder)
    (hm : ∃ m ∈ x.members, (s.lane? m.ref).any Lane.grouped = true) : (s.regroup x.g o).rowsOf x = s.rowsOf x := by
  refine s.regroup_rowsOf x o fun core slot gid hx => ?_
  obtain ⟨r, q, hf, hq, he⟩ := h core slot gid hx
  obtain ⟨m, hmem, hl⟩ := hm
  rw [he] at hmem
  simp only [List.mem_filterMap, Option.map_eq_some_iff] at hmem
  obtain ⟨p, hp, ref, href, rfl⟩ := hmem
  refine ⟨r, q, hf, hq, p, hp, ?_⟩
  rw [href]; exact hl

/-- The body of a per-lane instruction where every lane does what `eff` says: lanes, maps and frame (R80, R306). -/
theorem State.laneBody_spec {i : Instr} {f : Form} {forbidden : Bool} {s : State} {x : Iss} (hint : Hint)
    (wait : Act → Args → State → Option Nat) (k : Act → Args → State → State × Done) (eff : Act → Args → Lane → Lane)
    (hc : CanIssue i f forbidden s x) (ok : IssueOk s x)
    (hst : ∀ a args l, l.st = .issuing → (eff a args l).grouped = true)
    (hargs : ∀ a ∈ s.actives x f, ∃ args, (s.reads x f (sigOf i f)).args f (sigOf i f) x.wbase a.m.pos a.lane = some args ∧ wait a args s = none
      ∧ ∀ u : State, (∃ wgs ctl cores, u = { s with wgs := wgs, ctl := ctl, cores := cores }) → k a args u = (u.updLane a.m.ref (eff a args), .ok)) :
    ∃ t, s.laneBody x (s.reads x f (sigOf i f)) f (sigOf i f) (s.actives x f) hint wait k = (t, ⟨[], []⟩)
      ∧ (∀ a ∈ s.actives x f, ∀ args, (s.reads x f (sigOf i f)).args f (sigOf i f) x.wbase a.m.pos a.lane = some args →
          t.lane? a.m.ref = some (eff a args a.lane))
      ∧ (∀ m ∈ x.members, m ∉ (s.actives x f).map Act.m → t.lane? m.ref = (s.lane? m.ref).map fun l => { l with pc := nextPc f x.pc })
      ∧ ControlFrame x f (sigOf i f) s t := by
  have hmiss : ((s.actives x f).filterMap fun a => ((s.reads x f (sigOf i f)).args f (sigOf i f) x.wbase a.m.pos a.lane).bind fun args => wait a args s)
      = [] := by
    rw [List.filterMap_eq_nil_iff]
    intro a ha
    obtain ⟨args, e1, e2, _⟩ := hargs a ha
    simp [e1, e2]
  let idle := (x.members.map Member.ref).filter fun r => !(s.actives x f).any fun a => a.m.ref = r
  let s1 := (s.setHold x.g none).moveLanes idle (nextPc f x.pc)
  let one : State → Act → State := fun s a => match (s.reads x f (sigOf i f)).args f (sigOf i f) x.wbase a.m.pos a.lane with
    | some args => s.updLane a.m.ref (eff a args) | none => s
  have hactm : ∀ a ∈ s.actives x f, a.m.ref ∈ x.members.map Member.ref := fun a ha => List.mem_map_of_mem (mem_actives ha).1
  have hactnd : ((s.actives x f).map fun a => a.m.ref).Nodup := by
    have e : ((s.actives x f).map fun a => a.m.ref) = ((s.actives x f).map Act.m).map Member.ref := by simp
    rw [e]; exact ((actives_sublist s x f).map Member.ref).nodup ok.lanes
  have hs1 : ∃ wgs ctl cores, s1 = { s with wgs := wgs, ctl := ctl, cores := cores } := by
    obtain ⟨w1, n1, c1, p1, e1⟩ := (s.setHold_frame x x.g none).package
    have hp := s.setHold_pipes x.g none
    refine ⟨s1.wgs, s1.ctl, s1.cores, ?_⟩
    have hm : ∀ (rs : List LaneRef) (u : State), (u.updLanes rs fun l => { l with pc := nextPc f x.pc })
        = { u with wgs := (u.updLanes rs fun l => { l with pc := nextPc f x.pc }).wgs
                   ctl := (u.updLanes rs fun l => { l with pc := nextPc f x.pc }).ctl } := by
      intro rs
      induction rs with
      | nil => intro u; rfl
      | cons r rs ih => intro u; exact ih (u.updLane r _)
    have : s1 = { s.setHold x.g none with wgs := s1.wgs, ctl := s1.ctl } := hm idle _
    rw [this, e1]
    rw [e1] at hp
    simp only at hp
    subst hp
    rfl
  have hargs' : ∀ a ∈ s.actives x f, ∃ args, (s.reads x f (sigOf i f)).args f (sigOf i f) x.wbase a.m.pos a.lane = some args
      ∧ ∀ u : State, (∃ wgs ctl, u = { s1 with wgs := wgs, ctl := ctl }) → k a args u = (u.updLane a.m.ref (eff a args), .ok) := by
    intro a ha
    obtain ⟨args, e1, _, e3⟩ := hargs a ha
    refine ⟨args, e1, fun u hu => e3 u ?_⟩
    obtain ⟨w0, n0, c0, h0⟩ := hs1
    obtain ⟨w1, n1, rfl⟩ := hu
    exact ⟨w1, n1, c0, by rw [h0]⟩
  obtain ⟨s2, he2, hs2⟩ := eachLane_spec x (s.reads x f (sigOf i f)) f (sigOf i f) k eff s1 (s.actives x f) s1 ⟨[], []⟩ hargs' ⟨s1.wgs, s1.ctl, rfl⟩
  let ef : Act → Lane → Lane := fun a => match (s.reads x f (sigOf i f)).args f (sigOf i f) x.wbase a.m.pos a.lane with
    | some args => eff a args | none => id
  have hs2' : s2 = (s.actives x f).foldl (fun s a => s.updLane a.m.ref (ef a)) s1 := by
    rw [hs2]
    have : ∀ l : List Act, (∀ a ∈ l, a ∈ s.actives x f) → ∀ u : State,
        l.foldl (fun u a => match (s.reads x f (sigOf i f)).args f (sigOf i f) x.wbase a.m.pos a.lane with
          | some args => u.updLane a.m.ref (eff a args) | none => u) u = l.foldl (fun u a => u.updLane a.m.ref (ef a)) u := by
      intro l
      induction l with
      | nil => intro _ u; rfl
      | cons a as ih =>
        intro hl u
        obtain ⟨args, e1, _⟩ := hargs a (hl a (by simp))
        simp only [List.foldl_cons, ef, e1]
        exact ih (fun b hb => hl b (by simp [hb])) _
    exact this _ (fun a h => h) s1
  obtain ⟨f2, m2, c2, w2, l2, o2⟩ := updEach_spec x ef (s.actives x f) s1 hactm hactnd
  rw [← hs2'] at f2 m2 c2 w2 l2 o2
  let rows := releaseLu f (sigOf i f) x.wbase (s2.rowsOf x)
  let s3 := s2.setRows x rows
  let s4 := s3.regroup x.g ⟨hint, nextPc f x.pc⟩
  have hbody : s.laneBody x (s.reads x f (sigOf i f)) f (sigOf i f) (s.actives x f) hint wait k = (s4, ⟨[], []⟩) := by
    unfold State.laneBody
    simp only [hmiss]
    rw [if_neg (by simp)]
    have : eachLane x (s.reads x f (sigOf i f)) f (sigOf i f) k (s.actives x f)
        ((s.setHold x.g none).moveLanes ((x.members.map Member.ref).filter fun r => !(s.actives x f).any fun a => a.m.ref = r) (nextPc f x.pc))
        ⟨[], []⟩ = (s2, ⟨[], []⟩) := he2
    simp only [this]
    have hp : ∀ u : State, u.parkLanes x [] = u := fun u => by unfold State.parkLanes; simp
    simp only [hp]
    rfl
  have l1 : ∀ r, s1.lane? r = if r ∈ idle then (s.lane? r).map (fun l => { l with pc := nextPc f x.pc }) else s.lane? r := fun r => by
    simp only [s1]; rw [State.moveLanes_lane?, State.setHold_lane?]
  have f1 : RegisterFrame x s s1 := (s.setHold_frame x x.g none).trans
    (State.updLanes_frame x _ _ _ (fun r hr => (List.mem_filter.mp hr).1))
  have w1 : ∀ {α : Type} (q : Warp → α), (∀ (v : Warp) lanes, q { v with lanes := lanes } = q v) →
      (∀ (v : Warp) ring, q { v with ring := ring } = q v) → ∀ wg w, (s1.warp? wg w).map q = (s.warp? wg w).map q := fun q h1 h2 wg w =>
    (State.updLanes_warp _ _ _ q h1 wg w).trans (s.setHold_warp x.g none q h2 wg w)
  have m1 : s1.rowsOf x = s.rowsOf x := (State.updLanes_rowsOf _ _ _ x).trans (s.setHold_rowsOf x.g none x)
  have p1 : s1.pipes = s.pipes := (State.updLanes_pipes _ _ _).trans (s.setHold_pipes x.g none)
  have p2 : s2.pipes = s1.pipes := by obtain ⟨w, n, hw⟩ := c2; rw [hw]
  have g2 : GroupAt s2 x := by
    have g1 : GroupAt s1 x := (hc.groupAt.setHold x.g none).of_cores (by
      have : ∀ (rs : List LaneRef) (u : State) (q : Lane → Lane), (u.updLanes rs q).cores = u.cores := by
        intro rs
        induction rs with
        | nil => intro u q; rfl
        | cons r rs ih => intro u q; exact ih (u.updLane r q) q
      exact this _ _ _)
    exact g1.of_cores (by obtain ⟨w, n, hw⟩ := c2; rw [hw])
  have idle_act : ∀ a ∈ s.actives x f, a.m.ref ∉ idle := by
    intro a ha hi
    have := (List.mem_filter.mp hi).2
    simp only [Bool.not_eq_true', List.any_eq_false, decide_eq_true_eq] at this
    exact this a ha rfl
  have lane2 : ∀ a ∈ s.actives x f, ∀ args, (s.reads x f (sigOf i f)).args f (sigOf i f) x.wbase a.m.pos a.lane = some args →
      s2.lane? a.m.ref = some (eff a args a.lane) := by
    intro a ha args hargs
    rw [l2 a ha, l1, if_neg (idle_act a ha), (mem_actives ha).2.1]
    simp only [Option.map_some, ef, hargs]
  have notact : ∀ m ∈ x.members, m ∉ (s.actives x f).map Act.m → m.ref ∉ (s.actives x f).map fun a => a.m.ref := by
    intro m hm hna hin
    simp only [List.mem_map] at hin
    obtain ⟨a, ha, e⟩ := hin
    have : a.m = m := List.inj_on_of_nodup_map ok.lanes (mem_actives ha).1 hm e
    exact hna (this ▸ List.mem_map_of_mem ha)
  have idle2 : ∀ m ∈ x.members, m ∉ (s.actives x f).map Act.m → s2.lane? m.ref = (s.lane? m.ref).map fun l => { l with pc := nextPc f x.pc } := by
    intro m hm hna
    have hno := notact m hm hna
    rw [o2 _ hno, l1, if_pos]
    refine List.mem_filter.mpr ⟨List.mem_map_of_mem hm, ?_⟩
    simp only [Bool.not_eq_true', List.any_eq_false, decide_eq_true_eq]
    intro a ha e
    exact hno (e ▸ List.mem_map_of_mem (f := fun a : Act => a.m.ref) ha)
  -- setting the map
  have hset : (∀ r, s3.lane? r = s2.lane? r) ∧ RegisterFrame x s2 s3 ∧ s3.pipes = s2.pipes ∧ s3.rowsOf x = rows
      ∧ (∀ wg w, (s3.warp? wg w).map (fun v : Warp => (v.fpstat, v.uregs)) = (s2.warp? wg w).map fun v => (v.fpstat, v.uregs)) := by
    have hplace := hc.place
    refine ⟨fun r => ?_, ?_, ?_, ?_, fun wg w => ?_⟩
    · simp only [s3, State.setRows]
      cases x.g with
      | home wg w gid => exact s2.lane?_updWarp _ _ _ _ (fun _ => rfl)
      | reformed core slot gid => exact s2.lane?_updCore _ _ _
    · simp only [s3, State.setRows]
      cases hg : x.g with
      | home wg w gid =>
        refine RegisterFrame.updWarp x s2 wg w _ (fun _ => rfl) (fun _ _ _ => rfl) (.inl ?_)
        unfold Iss.homeOf; rw [hg]; exact ⟨rfl, rfl⟩
      | reformed core slot gid => exact RegisterFrame.updCore x s2 core _ (fun _ => rfl)
    · simp only [s3, State.setRows]; cases x.g <;> simp
    · simp only [s3, State.rowsOf, State.setRows]
      cases hg : x.g with
      | home wg w gid =>
        rw [hg] at hplace
        simp only at hplace
        obtain ⟨v, hv⟩ := Option.isSome_iff_exists.mp hplace.1
        have e1 := w1 (fun _ : Warp => ()) (fun _ _ => rfl) (fun _ _ => rfl) wg w
        have e2 := w2 (fun _ : Warp => ()) (fun _ _ => rfl) wg w
        rw [hv] at e1
        cases hs2w : s2.warp? wg w with
        | none =>
          cases hs1w : s1.warp? wg w with
          | none => rw [hs1w] at e1; cases e1
          | some _ => rw [hs2w, hs1w] at e2; cases e2
        | some u => simp [State.warp?_updWarp, hs2w]
      | reformed core slot gid =>
        obtain ⟨r, q, hf, _⟩ := g2 core slot gid hg
        simp only
        rw [State.core_updCore]
        · simp only [if_true]
          rw [mapIf_find? _ _ _ _ (by simp), hf]
          have := List.find?_some hf
          simp_all
        · intro c; rfl
    · simp only [s3, State.setRows]
      cases x.g with
      | home a b gid =>
        simp only [State.warp?_updWarp]
        split
        · cases s2.warp? wg w <;> simp
        · rfl
      | reformed core slot gid => simp only [State.warp?_updCore]
  obtain ⟨l3, f3, p3, m3, w3⟩ := hset
  have g3 : GroupAt s3 x := g2.setRows rows
  have r4 := s3.regroup_spec x x.g ⟨hint, nextPc f x.pc⟩
  have m4 : s4.rowsOf x = rows := by
    refine (g3.regroup ⟨hint, nextPc f x.pc⟩ ?_).trans m3
    obtain ⟨m, hm⟩ := List.exists_mem_of_ne_nil _ hc.nonempty
    refine ⟨m, hm, ?_⟩
    obtain ⟨l, hl, hli⟩ := ok.live m hm
    rw [l3]
    by_cases hact : m ∈ (s.actives x f).map Act.m
    · obtain ⟨a, ha, rfl⟩ := List.mem_map.mp hact
      obtain ⟨args, e1, _⟩ := hargs a ha
      rw [lane2 a ha args e1]
      have : a.lane = l := by
        have := (mem_actives ha).2.1
        rw [hl] at this; exact (Option.some.inj this).symm
      simp only [Option.any_some]
      exact hst a args a.lane (this ▸ hli)
    · rw [idle2 m hm hact, hl]
      simp only [Option.map_some, Option.any_some, Lane.grouped, hli]
  refine ⟨s4, hbody, fun a ha args hargs => ?_, fun m hm hna => ?_, ?_⟩
  · rw [r4.lanes, l3]; exact lane2 a ha args hargs
  · rw [r4.lanes, l3]; exact idle2 m hm hna
  · refine RegisterFrame.control ((f1.trans f2).trans f3) (p3.trans (p2.trans p1)) (fun wg w => ?_) r4 (fun reg pos => ?_)
    · rw [w3 wg w, w2 (fun v : Warp => (v.fpstat, v.uregs)) (fun _ _ => rfl) wg w]
      exact w1 (fun v : Warp => (v.fpstat, v.uregs)) (fun _ _ => rfl) (fun _ _ => rfl) wg w
    · have : s4.rowsOf x = releaseLu f (sigOf i f) x.wbase (s.rowsOf x) := by
        rw [m4]; simp only [rows]; rw [m2, m1]
      unfold State.readReg
      rw [this]
      exact rowRead_releases _ _ _ _

end Sys2Proof.Machine
end

