-- ==== Sys2Proof/Laws/PerInstr.lean ====
section
/-! SUPPORT. One lemma for each instruction: a lane's instruction has a MOP of R160, so its template has an entry. -/

namespace Sys2Proof.Laws.Encoding

/-- A lane's instruction has one of the MOPs of R160. -/
def Statement (i : Instr) : Prop := ∀ f, i.form? = some f → assignedMop (mopOf i) = true

/-- A step of the device, the host or firmware has no form. -/
theorem noForm {i : Instr} (h : i.form? = none) : Statement i := fun f hf => by rw [h] at hf; cases hf

theorem nop (f : Form) : Statement (.nop f) := fun _ _ => rfl
theorem exit (f : Form) : Statement (.exit f) := fun _ _ => rfl
theorem dfence (f : Form) : Statement (.dfence f) := fun _ _ => rfl
theorem dictsw (f : Form) : Statement (.dictsw f) := fun _ _ => rfl
theorem yield (f : Form) : Statement (.yield f) := fun _ _ => rfl
theorem bkpt (f : Form) : Statement (.bkpt f) := fun _ _ => rfl
theorem braUniform (f : Form) : Statement (.braUniform f) := fun _ _ => rfl
theorem trap (f : Form) : Statement (.trap f) := fun _ _ => rfl
theorem rte (f : Form) : Statement (.rte f) := fun _ _ => rfl
theorem ret (f : Form) : Statement (.ret f) := fun _ _ => rfl
theorem sread (f : Form) : Statement (.sread f) := fun _ _ => rfl
theorem swrite (f : Form) : Statement (.swrite f) := fun _ _ => rfl
theorem swriteTrappc (f : Form) : Statement (.swriteTrappc f) := fun _ _ => rfl
theorem swriteSrseed (f : Form) : Statement (.swriteSrseed f) := fun _ _ => rfl
theorem swriteTrapdict (f : Form) : Statement (.swriteTrapdict f) := fun _ _ => rfl
theorem swriteCexctl (f : Form) : Statement (.swriteCexctl f) := fun _ _ => rfl
theorem swritePcmp (f : Form) : Statement (.swritePcmp f) := fun _ _ => rfl
theorem dictld (f : Form) : Statement (.dictld f) := fun _ _ => rfl
theorem waitc (f : Form) : Statement (.waitc f) := fun _ _ => rfl
theorem voteActive (f : Form) : Statement (.voteActive f) := fun _ _ => rfl
theorem vote (f : Form) : Statement (.vote f) := fun _ _ => rfl
theorem bra (f : Form) : Statement (.bra f) := fun _ _ => rfl
theorem brx (f : Form) : Statement (.brx f) := fun _ _ => rfl
theorem call (f : Form) : Statement (.call f) := fun _ _ => rfl
theorem callx (f : Form) : Statement (.callx f) := fun _ _ => rfl
theorem join (f : Form) : Statement (.join f) := fun _ _ => rfl
theorem reform (f : Form) : Statement (.reform f) := fun _ _ => rfl
theorem reformHome (f : Form) : Statement (.reformHome f) := fun _ _ => rfl
theorem window (f : Form) : Statement (.window f) := fun _ _ => rfl
theorem sleep (f : Form) : Statement (.sleep f) := fun _ _ => rfl
theorem elect (f : Form) : Statement (.elect f) := fun _ _ => rfl
theorem launch (f : Form) : Statement (.launch f) := fun _ _ => rfl
theorem iadd (f : Form) : Statement (.iadd f) := fun _ _ => rfl
theorem isub (f : Form) : Statement (.isub f) := fun _ _ => rfl
theorem imul (f : Form) : Statement (.imul f) := fun _ _ => rfl
theorem imulh (f : Form) : Statement (.imulh f) := fun _ _ => rfl
theorem imad (f : Form) : Statement (.imad f) := fun _ _ => rfl
theorem isha (f : Form) : Statement (.isha f) := fun _ _ => rfl
theorem imin (f : Form) : Statement (.imin f) := fun _ _ => rfl
theorem imax (f : Form) : Statement (.imax f) := fun _ _ => rfl
theorem iabs (f : Form) : Statement (.iabs f) := fun _ _ => rfl
theorem and (f : Form) : Statement (.and f) := fun _ _ => rfl
theorem or (f : Form) : Statement (.or f) := fun _ _ => rfl
theorem xor (f : Form) : Statement (.xor f) := fun _ _ => rfl
theorem shl (f : Form) : Statement (.shl f) := fun _ _ => rfl
theorem shr (f : Form) : Statement (.shr f) := fun _ _ => rfl
theorem rotl (f : Form) : Statement (.rotl f) := fun _ _ => rfl
theorem bfx (f : Form) : Statement (.bfx f) := fun _ _ => rfl
theorem bfi (f : Form) : Statement (.bfi f) := fun _ _ => rfl
theorem popc (f : Form) : Statement (.popc f) := fun _ _ => rfl
theorem clz (f : Form) : Statement (.clz f) := fun _ _ => rfl
theorem brev (f : Form) : Statement (.brev f) := fun _ _ => rfl
theorem isetp (f : Form) : Statement (.isetp f) := fun _ _ => rfl
theorem sel (f : Form) : Statement (.sel f) := fun _ _ => rfl
theorem mov (f : Form) : Statement (.mov f) := fun _ _ => rfl
theorem movi (f : Form) : Statement (.movi f) := fun _ _ => rfl
theorem bsel (f : Form) : Statement (.bsel f) := fun _ _ => rfl
theorem pset (f : Form) : Statement (.pset f) := fun _ _ => rfl
theorem rdlane (f : Form) : Statement (.rdlane f) := fun _ _ => rfl
theorem bcast (f : Form) : Statement (.bcast f) := fun _ _ => rfl
theorem fadd (f : Form) : Statement (.fadd f) := fun _ _ => rfl
theorem fmul (f : Form) : Statement (.fmul f) := fun _ _ => rfl
theorem ffma (f : Form) : Statement (.ffma f) := fun _ _ => rfl
theorem fmin (f : Form) : Statement (.fmin f) := fun _ _ => rfl
theorem fmax (f : Form) : Statement (.fmax f) := fun _ _ => rfl
theorem fsetp (f : Form) : Statement (.fsetp f) := fun _ _ => rfl
theorem fscl (f : Form) : Statement (.fscl f) := fun _ _ => rfl
theorem rcp (f : Form) : Statement (.rcp f) := fun _ _ => rfl
theorem rsq (f : Form) : Statement (.rsq f) := fun _ _ => rfl
theorem sqrt (f : Form) : Statement (.sqrt f) := fun _ _ => rfl
theorem exp2 (f : Form) : Statement (.exp2 f) := fun _ _ => rfl
theorem log2 (f : Form) : Statement (.log2 f) := fun _ _ => rfl
theorem sin (f : Form) : Statement (.sin f) := fun _ _ => rfl
theorem cos (f : Form) : Statement (.cos f) := fun _ _ => rfl
theorem tanh (f : Form) : Statement (.tanh f) := fun _ _ => rfl
theorem frc (f : Form) : Statement (.frc f) := fun _ _ => rfl
theorem frnd (f : Form) : Statement (.frnd f) := fun _ _ => rfl
theorem cvt (f : Form) : Statement (.cvt f) := fun _ _ => rfl
theorem f2i (f : Form) : Statement (.f2i f) := fun _ _ => rfl
theorem i2f (f : Form) : Statement (.i2f f) := fun _ _ => rfl
theorem fclass (f : Form) : Statement (.fclass f) := fun _ _ => rfl
theorem dot4 (f : Form) : Statement (.dot4 f) := fun _ _ => rfl
theorem qxh (f : Form) : Statement (.qxh f) := fun _ _ => rfl
theorem qxv (f : Form) : Statement (.qxv f) := fun _ _ => rfl
theorem qxd (f : Form) : Statement (.qxd f) := fun _ _ => rfl
theorem qbc (f : Form) : Statement (.qbc f) := fun _ _ => rfl
theorem ddx (f : Form) : Statement (.ddx f) := fun _ _ => rfl
theorem ddy (f : Form) : Statement (.ddy f) := fun _ _ => rfl
theorem lxch (f : Form) : Statement (.lxch f) := fun _ _ => rfl
theorem redw (f : Form) : Statement (.redw f) := fun _ _ => rfl
theorem scanw (f : Form) : Statement (.scanw f) := fun _ _ => rfl
theorem matchw (f : Form) : Statement (.matchw f) := fun _ _ => rfl
theorem ld (f : Form) : Statement (.ld f) := fun _ _ => rfl
theorem st (f : Form) : Statement (.st f) := fun _ _ => rfl
theorem ldv (f : Form) : Statement (.ldv f) := fun _ _ => rfl
theorem stv (f : Form) : Statement (.stv f) := fun _ _ => rfl
theorem lds (f : Form) : Statement (.lds f) := fun _ _ => rfl
theorem pref (f : Form) : Statement (.pref f) := fun _ _ => rfl
theorem atom (f : Form) : Statement (.atom f) := fun _ _ => rfl
theorem atomv (f : Form) : Statement (.atomv f) := fun _ _ => rfl
theorem cas (f : Form) : Statement (.cas f) := fun _ _ => rfl
theorem red (f : Form) : Statement (.red f) := fun _ _ => rfl
theorem redv (f : Form) : Statement (.redv f) := fun _ _ => rfl
theorem fence (f : Form) : Statement (.fence f) := fun _ _ => rfl
theorem lineProbe (f : Form) : Statement (.lineProbe f) := fun _ _ => rfl
theorem lineZero (f : Form) : Statement (.lineZero f) := fun _ _ => rfl
theorem waitw (f : Form) : Statement (.waitw f) := fun _ _ => rfl
theorem swarm (f : Form) : Statement (.swarm f) := fun _ _ => rfl
theorem swwait (f : Form) : Statement (.swwait f) := fun _ _ => rfl
theorem tex (f : Form) : Statement (.tex f) := fun _ _ => rfl
theorem tld (f : Form) : Statement (.tld f) := fun _ _ => rfl
theorem bara (f : Form) : Statement (.bara f) := fun _ _ => rfl
theorem barw (f : Form) : Statement (.barw f) := fun _ _ => rfl
theorem bars (f : Form) : Statement (.bars f) := fun _ _ => rfl
theorem jset (f : Form) : Statement (.jset f) := fun _ _ => rfl
theorem jsign (f : Form) : Statement (.jsign f) := fun _ _ => rfl
theorem convergenceOpComplete (wg j : Nat) :
    Statement (.convergenceOpComplete wg j) := noForm rfl
theorem jwait (f : Form) : Statement (.jwait f) := fun _ _ => rfl
theorem wload (f : Form) : Statement (.wload f) := fun _ _ => rfl
theorem mma (f : Form) : Statement (.mma f) := fun _ _ => rfl
theorem mmg (f : Form) : Statement (.mmg f) := fun _ _ => rfl
theorem tldt (f : Form) : Statement (.tldt f) := fun _ _ => rfl
theorem tstt (f : Form) : Statement (.tstt f) := fun _ _ => rfl
theorem tmov (f : Form) : Statement (.tmov f) := fun _ _ => rfl
theorem tcvt (f : Form) : Statement (.tcvt f) := fun _ _ => rfl
theorem tscl (f : Form) : Statement (.tscl f) := fun _ _ => rfl
theorem acz (f : Form) : Statement (.acz f) := fun _ _ => rfl
theorem acrd (f : Form) : Statement (.acrd f) := fun _ _ => rfl
theorem acwr (f : Form) : Statement (.acwr f) := fun _ _ => rfl
theorem acst (f : Form) : Statement (.acst f) := fun _ _ => rfl
theorem post (f : Form) : Statement (.post f) := fun _ _ => rfl
theorem tsamp (f : Form) : Statement (.tsamp f) := fun _ _ => rfl
theorem ocall (f : Form) : Statement (.ocall f) := fun _ _ => rfl
theorem oread (f : Form) : Statement (.oread f) := fun _ _ => rfl
theorem sld (f : Form) : Statement (.sld f) := fun _ _ => rfl
theorem sst (f : Form) : Statement (.sst f) := fun _ _ => rfl
theorem marg (f : Form) : Statement (.marg f) := fun _ _ => rfl
theorem mret (f : Form) : Statement (.mret f) := fun _ _ => rfl
theorem mtrap (f : Form) : Statement (.mtrap f) := fun _ _ => rfl
theorem ostat (f : Form) : Statement (.ostat f) := fun _ _ => rfl
theorem ctxsv (f : Form) : Statement (.ctxsv f) := fun _ _ => rfl
theorem ctxrs (f : Form) : Statement (.ctxrs f) := fun _ _ => rfl
theorem tlbi (f : Form) : Statement (.tlbi f) := fun _ _ => rfl
theorem dictrd (f : Form) : Statement (.dictrd f) := fun _ _ => rfl
theorem lanex (f : Form) : Statement (.lanex f) := fun _ _ => rfl
theorem parkr (f : Form) : Statement (.parkr f) := fun _ _ => rfl
theorem hatchArgStore (wg warp : Nat) :
    Statement (.hatchArgStore wg warp) := noForm rfl
theorem copyLinear (wg warp : Nat) :
    Statement (.copyLinear wg warp) := noForm rfl
theorem copyStrided (wg warp : Nat) :
    Statement (.copyStrided wg warp) := noForm rfl
theorem copyFill (wg warp : Nat) :
    Statement (.copyFill wg warp) := noForm rfl
theorem nmLoad (wg warp : Nat) :
    Statement (.nmLoad wg warp) := noForm rfl
theorem nmRun (wg warp : Nat) :
    Statement (.nmRun wg warp) := noForm rfl
theorem draw (wg warp : Nat) :
    Statement (.draw wg warp) := noForm rfl
theorem invoke (wg warp : Nat) :
    Statement (.invoke wg warp) := noForm rfl
theorem readout (wg warp : Nat) :
    Statement (.readout wg warp) := noForm rfl
theorem queuePush (wg warp : Nat) :
    Statement (.queuePush wg warp) := noForm rfl
theorem goAccept (wg warp engine : Nat) :
    Statement (.goAccept wg warp engine) := noForm rfl
theorem copyPortionLand (cmd portion : Nat) :
    Statement (.copyPortionLand cmd portion) := noForm rfl
theorem completionRegisterWrite (wg warp gid : Nat) :
    Statement (.completionRegisterWrite wg warp gid) := noForm rfl
theorem nmLoadPart (cmd stack : Nat) (bad : Bool) :
    Statement (.nmLoadPart cmd stack bad) := noForm rfl
theorem nmWave (cmd stack : Nat) (chunks : List Nat) (failing : List (Nat × Nat)) :
    Statement (.nmWave cmd stack chunks failing) := noForm rfl
theorem orderTokenIssue (cmd tri tx ty : Nat) :
    Statement (.orderTokenIssue cmd tri tx ty) := noForm rfl
theorem fragmentApply (ctx target frag : Nat) :
    Statement (.fragmentApply ctx target frag) := noForm rfl
theorem invokeApply (cmd x y : Nat) :
    Statement (.invokeApply cmd x y) := noForm rfl
theorem workgroupAdmission (launch core sbase : Nat) (places : List Place) :
    Statement (.workgroupAdmission launch core sbase places) := noForm rfl
theorem gangReservation (launch gang core sbase : Nat) (places : List Place) :
    Statement (.gangReservation launch gang core sbase places) := noForm rfl
theorem gangAged (launch gang : Nat) :
    Statement (.gangAged launch gang) := noForm rfl
theorem binDraw (core bin slot : Nat) (place : Place) :
    Statement (.binDraw core bin slot place) := noForm rfl
theorem loadDataLand (access : Nat) :
    Statement (.loadDataLand access) := noForm rfl
theorem translationComplete (core ctx va : Nat) :
    Statement (.translationComplete core ctx va) := noForm rfl
theorem pageZeroingComplete (ctx va : Nat) :
    Statement (.pageZeroingComplete ctx va) := noForm rfl
theorem writeQueueApply (line : Nat) :
    Statement (.writeQueueApply line) := noForm rfl
theorem dictSlotLoad (core phys : Nat) (unreadable : List Nat) :
    Statement (.dictSlotLoad core phys unreadable) := noForm rfl
theorem waitwReread (lane : LaneRef) :
    Statement (.waitwReread lane) := noForm rfl
theorem syncExtwait (lane : LaneRef) :
    Statement (.syncExtwait lane) := noForm rfl
theorem sleepExpiry (wg warp gid : Nat) :
    Statement (.sleepExpiry wg warp gid) := noForm rfl
theorem handlerEntry (wg : Nat) :
    Statement (.handlerEntry wg) := noForm rfl
theorem hangDetected (ctx : Nat) :
    Statement (.hangDetected ctx) := noForm rfl
theorem eventRetire (ctx seq : Nat) :
    Statement (.eventRetire ctx seq) := noForm rfl
theorem hostEventAnswer (ctx seq : Nat) (answer : Answer) :
    Statement (.hostEventAnswer ctx seq answer) := noForm rfl
theorem preemptRequest (ctx : Nat) :
    Statement (.preemptRequest ctx) := noForm rfl
theorem cooperativeSave (launch gang : Nat) :
    Statement (.cooperativeSave launch gang) := noForm rfl
theorem preForced (launch gang : Nat) :
    Statement (.preForced launch gang) := noForm rfl
theorem contextSaveComplete (ctx : Nat) :
    Statement (.contextSaveComplete ctx) := noForm rfl
theorem replayApply (ctx obj die : Nat) (badLog : Bool) :
    Statement (.replayApply ctx obj die badLog) := noForm rfl
theorem replicaRebuild (ctx obj die source : Nat) :
    Statement (.replicaRebuild ctx obj die source) := noForm rfl
theorem coreUe (core : Nat) :
    Statement (.coreUe core) := noForm rfl
theorem vaultLineUe (vault line : Nat) :
    Statement (.vaultLineUe vault line) := noForm rfl
theorem hbmChunkUe (stack chunk : Nat) :
    Statement (.hbmChunkUe stack chunk) := noForm rfl
theorem dictSlotUe (core phys : Nat) :
    Statement (.dictSlotUe core phys) := noForm rfl
theorem replicaUe (ctx obj die : Nat) :
    Statement (.replicaUe ctx obj die) := noForm rfl
theorem bmuFault (vault bank : Nat) :
    Statement (.bmuFault vault bank) := noForm rfl
theorem machineCheck (isFabric : Bool) :
    Statement (.machineCheck isFabric) := noForm rfl
theorem clockThrottle (aclk vclk banks : Nat) :
    Statement (.clockThrottle aclk vclk banks) := noForm rfl
theorem cexRemainTick (ctx : Nat) :
    Statement (.cexRemainTick ctx) := noForm rfl
theorem hostQueuePush (ctx : Nat) (go : DWord) :
    Statement (.hostQueuePush ctx go) := noForm rfl
theorem hostGoAccept (ctx : Nat) :
    Statement (.hostGoAccept ctx) := noForm rfl
theorem attach (a0 a1 a2 : DWord) :
    Statement (.attach a0 a1 a2) := noForm rfl
theorem detach (a0 : DWord) :
    Statement (.detach a0) := noForm rfl
theorem halt (a0 a1 : DWord) :
    Statement (.halt a0 a1) := noForm rfl
theorem resume (a0 a1 : DWord) :
    Statement (.resume a0 a1) := noForm rfl
theorem step (a0 a1 : DWord) :
    Statement (.step a0 a1) := noForm rfl
theorem snapshot (a0 a1 a2 : DWord) :
    Statement (.snapshot a0 a1 a2) := noForm rfl
theorem dict (a0 a2 : DWord) :
    Statement (.dict a0 a2) := noForm rfl
theorem trace (a0 a1 a2 : DWord) :
    Statement (.trace a0 a1 a2) := noForm rfl
theorem dreset (v : DWord) :
    Statement (.dreset v) := noForm rfl
theorem registerWrite (off : Nat) (v : DWord) :
    Statement (.registerWrite off v) := noForm rfl
theorem hostBar2Read (off len : Nat) :
    Statement (.hostBar2Read off len) := noForm rfl
theorem hostBar2Write (off : Nat) (bytes : List Byte) :
    Statement (.hostBar2Write off bytes) := noForm rfl
theorem reset (boot : BootInput) :
    Statement (.reset boot) := noForm rfl
theorem attestationReport (nonce : List Byte) :
    Statement (.attestationReport nonce) := noForm rfl
theorem ethWriteFrame (frame : EthFrame) :
    Statement (.ethWriteFrame frame) := noForm rfl
theorem ethReadRequest (frame : EthFrame) :
    Statement (.ethReadRequest frame) := noForm rfl
theorem ethReadData (frame : EthFrame) :
    Statement (.ethReadData frame) := noForm rfl
theorem ethAcknowledge (frame : EthFrame) :
    Statement (.ethAcknowledge frame) := noForm rfl
theorem ethFrameDiscard (frame : EthFrame) :
    Statement (.ethFrameDiscard frame) := noForm rfl
theorem resendTimeout (flow : FlowKey) :
    Statement (.resendTimeout flow) := noForm rfl
theorem contextCreate (ctx bankKey : Nat) :
    Statement (.contextCreate ctx bankKey) := noForm rfl
theorem contextMakeResident (ctx : Nat) :
    Statement (.contextMakeResident ctx) := noForm rfl
theorem contextDestroy (ctx : Nat) :
    Statement (.contextDestroy ctx) := noForm rfl
theorem modeWrite (ctx : Nat) (v : Word) :
    Statement (.modeWrite ctx v) := noForm rfl
theorem objectCreate (ctx kind : Nat) (desc : DWord) (places : List Nat) (home : Nat) :
    Statement (.objectCreate ctx kind desc places home) := noForm rfl
theorem objectDestroy (ctx : Nat) (handle : Word) :
    Statement (.objectDestroy ctx handle) := noForm rfl
theorem allocate (ctx : Nat) (req : AllocRequest) :
    Statement (.allocate ctx req) := noForm rfl
theorem mappingChange (ctx : Nat) (req : MapRequest) :
    Statement (.mappingChange ctx req) := noForm rfl
theorem ageLimitSet (ctx v : Nat) :
    Statement (.ageLimitSet ctx v) := noForm rfl
theorem extwaitSet (ctx v : Nat) :
    Statement (.extwaitSet ctx v) := noForm rfl
theorem hanglimitSet (ctx v : Nat) :
    Statement (.hanglimitSet ctx v) := noForm rfl
theorem trapConfigSet (ctx : Nat) (base : DWord) (slot : BitVec 2) (img : DWord) :
    Statement (.trapConfigSet ctx base slot img) := noForm rfl
theorem bankKeyRead (ctx : Nat) :
    Statement (.bankKeyRead ctx) := noForm rfl
theorem eventAreaRegister (ctx : Nat) (addr : DWord) :
    Statement (.eventAreaRegister ctx addr) := noForm rfl
theorem hangAreaRegister (ctx : Nat) (addr : DWord) :
    Statement (.hangAreaRegister ctx addr) := noForm rfl
theorem writePerform (access : Nat) :
    Statement (.writePerform access) := noForm rfl
theorem mappingChangeComplete (change : Nat) :
    Statement (.mappingChangeComplete change) := noForm rfl
theorem restoreComplete (ctx : Nat) :
    Statement (.restoreComplete ctx) := noForm rfl

end Sys2Proof.Laws.Encoding
end

