-- ==== Sys2Proof/Laws/Places.lean ====
section
/-! SUPPORT. Where the chunks of pages lie in HBM (R127). -/

namespace Sys2Proof.Machine

/-- Chunks at one offset of pages of 64 KiB lie in one bank group and column address, whatever the pages; in one stack where the
pages do (R127). -/
theorem chunkPlace_coincides {p q : Nat} (hs : stackOf p = stackOf q) (ho : p % 65536 = q % 65536) :
    (chunkPlace p).stack = (chunkPlace q).stack ∧ (chunkPlace p).group = (chunkPlace q).group
      ∧ (chunkPlace p).column = (chunkPlace q).column := by
  have h : p / 64 % 1024 = q / 64 % 1024 := by omega
  exact ⟨hs, by simp only [chunkPlace, h], by simp only [chunkPlace, h]⟩

/-- Chunks at one offset of different pages of a stack lie in rows of their own (R127). -/
theorem chunkPlace_rows {p q : Nat} (hs : stackOf p = stackOf q) (ho : p % 65536 = q % 65536) (hne : p ≠ q) :
    (chunkPlace p).row ≠ (chunkPlace q).row := by
  simp only [chunkPlace, stackOf, Config.hbmSpan] at *
  omega

end Sys2Proof.Machine
end

