-- ==== Sys2Proof/Tests/Slice0.lean ====
section
/-! SUPPORT. Tests on small states: ill-formed terms refused, words read as the manual spells them, single instructions with
results worked out by hand from their rules, and for each statement a state and operands that meet its hypotheses. -/

namespace Sys2Proof.Tests

open Sys2Proof Machine

-- One theorem after another: all at once they would take more memory than a check may.
set_option Elab.async false

/-! ### Forms -/

/-- A form of a dictionary entry: every slot empty, guard p7. -/
def form : Form :=
  { dix := 0x055, nwb := false, fd := 0, fa := 0, fb := 0, m2 := 0, sat := false, rm := .rne, ty := .b32, sc := .lane
    hint := .none, immsrc := .template, pgn := false, pg := 7, b96 := false, d := .none, a := .none, b := .none, c := .none
    imm := 0, lit := 0 }

/-- A slot fixed to a register. -/
def reg (c : Cls) (n : Nat) : Slot := ⟨c, .fixed, false, BitVec.ofNat 10 n⟩
def V (n : Nat) : Slot := reg .vector n
def U (n : Nat) : Slot := reg .uniform n
def P (n : Nat) : Slot := reg .predicate n
def T (n : Nat) : Slot := reg .tile n
def A (n : Nat) : Slot := reg .accumulator n
def J (n : Nat) : Slot := reg .convergence n
/-- An immediate slot that reads IMM. -/
def I : Slot := ⟨.immediate, .fixed, false, 0⟩
/-- An immediate slot that reads a hole. -/
def H (h : Hole) : Slot := ⟨.immediate, h, false, 0⟩

/-! ### Ill-formed terms -/

theorem smoke_wellFormed : WellFormed (.iadd { form with ty := .i32, d := V 1, a := V 2, b := V 3 }) = true := by decide

theorem smoke_variant : WellFormed (.voteActive { form with m2 := 1, d := P 1, a := P 2 }) = false := by decide
theorem smoke_reservedIndex : WellFormed (.iadd { form with dix := 0x010, ty := .i32, d := V 1, a := V 2, b := V 3 }) = false := by
  decide
theorem smoke_fixedTemplate : WellFormed (.exit { form with dix := 0x001, pg := 6 }) = false := by decide
theorem smoke_bit96 : WellFormed (.iadd { form with b96 := true }) = false := by decide
theorem smoke_slotEmpty : WellFormed (.iadd { form with d := ⟨.none, .fixed, false, 1⟩ }) = false := by decide
theorem smoke_slotImmediate : WellFormed (.mov { form with d := ⟨.immediate, .fixed, false, 0⟩ }) = false := by decide
theorem smoke_slotNumber : WellFormed (.mov { form with a := U 64 }) = false := by decide
theorem smoke_slotLatchWritten : WellFormed (.mov { form with d := V 0x200, a := V 0x200 }) = false := by decide
theorem smoke_slotHole : WellFormed (.mov { form with a := ⟨.vector, .fa, false, 1⟩ }) = false := by decide
theorem smoke_slotLu : WellFormed (.mov { form with d := ⟨.vector, .fd, true, 0⟩ }) = false := by decide
theorem smoke_immUnread : WellFormed (.mov { form with immsrc := .literal, lit := 5, a := V 1 }) = false := by decide
theorem smoke_immOverlap : WellFormed (.mov { form with immsrc := .fb, a := I, b := ⟨.vector, .fb, false, 0⟩ }) = false := by decide
theorem smoke_immPair : WellFormed (.mov { form with immsrc := .faFb, a := I, b := ⟨.vector, .fa, false, 0⟩ }) = false := by decide
theorem smoke_literal : WellFormed (.mov { form with a := I, lit := 5 }) = false := by decide

/-- Steps that name parts the package does not have (R10, R13, R14, R74). -/
theorem smoke_parts : ([
    .goAccept 0 0 64, .nmLoadPart 0 Config.numStacks false, .nmWave 0 Config.numStacks [] [], .workgroupAdmission 0 Config.numCores 0 []
  , .workgroupAdmission 0 0 0 [⟨4, 0⟩], .gangReservation 0 0 0 0 [⟨0, 8⟩], .gangReservation 0 0 Config.numCores 0 [], .binDraw 0 16 0 ⟨0, 0⟩
  , .binDraw 0 0 8 ⟨0, 0⟩, .binDraw Config.numCores 0 0 ⟨0, 0⟩, .binDraw 0 0 0 ⟨4, 0⟩, .dictSlotLoad 0 8 [], .dictSlotUe Config.numCores 0
  , .translationComplete Config.numCores 0 0, .waitwReread ⟨0, 32, 0⟩, .syncExtwait ⟨0, 0, 32⟩, .replayApply 0 0 4 false
  , .replicaRebuild 0 0 1 1, .replicaRebuild 0 0 4 1, .replicaUe 0 0 4, .coreUe Config.numCores, .vaultLineUe 0 16384
  , .vaultLineUe Config.numCores 0, .hbmChunkUe Config.numStacks 0, .hbmChunkUe 0 (Config.hbmBytes / 64), .bmuFault 0 32
  , .bmuFault Config.numCores 0, .contextCreate Config.numContexts 0, .contextCreate 0 32, .hostQueuePush Config.numContexts 0
  ] : List Instr).all (fun i => !WellFormed i) = true := by decide +kernel

theorem smoke_partsOk : ([
    .goAccept 0 0 63, .workgroupAdmission 0 (Config.numCores - 1) 0 [⟨3, 7⟩], .binDraw 0 15 7 ⟨3, 7⟩, .dictSlotLoad 0 7 []
  , .waitwReread ⟨0, 31, 31⟩, .replicaRebuild 0 0 1 3, .vaultLineUe 0 16383, .bmuFault 0 31, .contextCreate 0 31, .reset ⟨⟨[], [], 0, 0⟩, ⟨[], [], 0, 0⟩, 0, 0⟩
  ] : List Instr).all WellFormed = true := by decide +kernel

/-! ### Decoding -/

/-- No entry is loaded. -/
def noEntry (_ : Nat) : Template := undefinedTemplate

/-- A template from its fields, high bits first (R151): MOP, MOD[5:4], SAT, MOD[2:0], TY, SC, HINT, IMMSRC, PGN, PG, bit 96,
slots D, A, B, C, IMM. -/
def tpl (mop : BitVec 10) (m2 : BitVec 2) (sat : BitVec 1) (rm : BitVec 3) (ty : BitVec 4) (sc : BitVec 3) (hint immsrc : BitVec 2)
    (d a b c : BitVec 16) (imm : BitVec 32) : Template :=
  mop ++ m2 ++ sat ++ rm ++ ty ++ sc ++ hint ++ immsrc ++ 0#1 ++ 7#3 ++ 0#1 ++ d ++ a ++ b ++ c ++ imm

/-- Index 0x055 with a template and hole fields decodes to an instruction. -/
def reads (t : Template) (fd fa fb : BitVec 7) (i : Instr) : Bool :=
  match decode (0x055#10 ++ 0#1 ++ fd ++ fa ++ fb) (fun _ => t) 0 with
  | .ok j => j = i
  | .error _ => false

/-- A word of a fixed entry, with the literal that follows, decodes to an instruction. -/
def readsFixed (w lit : Word) (i : Instr) : Bool :=
  match decode w noEntry lit with
  | .ok j => j = i
  | .error _ => false

/-- The fixed entries (R159): index, hole fields and the operands their templates name. -/
theorem test_decode_fixed : (
    readsFixed 0x00000000 0 (.nop { form with dix := 0 })
    && readsFixed 0x00400000 0 (.exit { form with dix := 1 })
    && readsFixed 0x00800000 0 (.dfence { form with dix := 2 })
    && readsFixed 0x00C00002 0 (.dictsw { form with dix := 3, fb := 2, a := H .fb })
    && readsFixed 0x01000000 0 (.yield { form with dix := 4 })
    && readsFixed 0x01400000 0 (.bkpt { form with dix := 5 })
    && readsFixed 0x01803FFE 0 (.braUniform { form with dix := 6, fa := 0x7F, fb := 0x7E, hint := .uniform, immsrc := .faFb, a := I })
    && readsFixed 0x01C00005 0 (.trap { form with dix := 7, fb := 5, a := H .fb })
    && readsFixed 0x02000000 0 (.rte { form with dix := 8 })
    && readsFixed 0x02400000 0 (.ret { form with dix := 9 })
    && readsFixed 0x02814000 0x12345678 (.movi { form with
        dix := 10, fd := 5, immsrc := .literal, d := ⟨.vector, .fd, false, 0⟩, a := I, lit := 0x12345678 })
    && readsFixed 0x02C0C006 0 (.sread { form with dix := 11, fd := 3, fb := 6, d := ⟨.vector, .fd, false, 0⟩, a := H .fb }) ) = true := by
  decide +kernel

theorem test_decode_fixedWrites : (
    let w (fa : BitVec 7) : Word := 12#10 ++ 0#1 ++ 0#7 ++ fa ++ 4#7
    let f (fa : BitVec 7) : Form := { form with dix := 12, fa := fa, fb := 4, a := H .fa, b := ⟨.vector, .fb, false, 0⟩ }
    readsFixed (w 0x11) 0 (.swrite (f 0x11)) && readsFixed (w 0x31) 0 (.swriteTrappc (f 0x31))
    && readsFixed (w 0x12) 0 (.swriteSrseed (f 0x12)) && readsFixed (w 0x35) 0 (.swriteTrapdict (f 0x35))
    && readsFixed (w 0x40) 0 (.swriteCexctl (f 0x40)) && readsFixed (w 0x48) 0 (.swritePcmp (f 0x48))
    && readsFixed (w 0x4F) 0 (.swritePcmp (f 0x4F)) && readsFixed (w 0x33) 0 (.swrite (f 0x33)) ) = true := by decide +kernel

theorem test_decode_fixedSystem : (
    readsFixed (13#10 ++ 0#1 ++ 2#7 ++ 4#7 ++ 0#7) 0
      (.dictld { form with dix := 13, fd := 2, fa := 4, ty := .n64, a := H .fd, b := ⟨.uniform, .fa, false, 0⟩ })
    && readsFixed (14#10 ++ 0#1 ++ 0#7 ++ 0#7 ++ 57#7) 0 (.waitc { form with dix := 14, fb := 57, a := ⟨.uniform, .fb, false, 0⟩ })
    && readsFixed (15#10 ++ 0#1 ++ 9#7 ++ 0#7 ++ 0#7) 0 (.voteActive { form with dix := 15, fd := 9, d := ⟨.uniform, .fd, false, 0⟩ })
    ) = true := by decide +kernel

/-- Each MOP of a group in ascending order, with its other template bits 0 (R160). -/
def readsGroup (first : Nat) (mks : List (Form → Instr)) : Bool :=
  mks.zipIdx.all fun e => reads (tpl (BitVec.ofNat 10 (first + e.2)) 0 0 0 0 0 0 0 0 0 0 0 0) 0 0 0 (e.1 form)

theorem test_decode_control :
    readsGroup 0x000 [.nop, .bra, .brx, .call, .callx, .ret, .join, .reform, .exit, .window, .dictld, .dictsw, .dfence, .trap, .rte
      , .yield, .bkpt, .sread, .swrite, .waitc, .sleep, .elect, .voteActive, .launch] = true := by decide +kernel

theorem test_decode_integer :
    readsGroup 0x040 [.iadd, .isub, .imul, .imulh, .imad, .isha, .imin, .imax, .iabs, .and, .or, .xor, .shl, .shr, .rotl, .bfx, .bfi
      , .popc, .clz, .brev, .isetp, .sel, .mov, .movi, .bsel, .pset, .rdlane, .bcast] = true := by decide +kernel

theorem test_decode_float :
    readsGroup 0x080 [.fadd, .fmul, .ffma, .fmin, .fmax, .fsetp, .fscl, .rcp, .rsq, .sqrt, .exp2, .log2, .sin, .cos, .tanh, .frc
      , .frnd, .cvt, .f2i, .i2f, .fclass, .dot4] = true := by decide +kernel

theorem test_decode_exchange :
    (readsGroup 0x0C0 [.qxh, .qxv, .qxd, .qbc, .ddx, .ddy] && readsGroup 0x0C8 [.lxch, .redw, .scanw, .matchw]) = true := by
  decide +kernel

theorem test_decode_memory :
    readsGroup 0x100 [.ld, .st, .ldv, .stv, .lds, .pref, .atom, .atomv, .cas, .red, .redv, .fence, .lineProbe, .waitw, .swarm, .swwait
      , .tex, .tld] = true := by decide +kernel

theorem test_decode_barrier : readsGroup 0x140 [.bara, .barw, .bars, .jset, .jsign, .jwait] = true := by decide +kernel

theorem test_decode_matrix :
    readsGroup 0x160 [.wload, .mma, .mmg, .tldt, .tstt, .tmov, .tcvt, .tscl, .acz, .acrd, .acwr, .acst] = true := by decide +kernel

theorem test_decode_object :
    readsGroup 0x180 [.post, .tsamp, .ocall, .oread, .sld, .sst, .marg, .mret, .mtrap, .ostat] = true := by decide +kernel

theorem test_decode_privileged : readsGroup 0x1C0 [.ctxsv, .ctxrs, .tlbi, .dictrd, .lanex, .parkr] = true := by decide +kernel

/-- MOD[5:4] tells VOTE, REFORM.HOME and LINE.ZERO from the other rows of their MOPs (R237, R319, R322). -/
theorem test_decode_variants :
    (reads (tpl 0x016 1 0 0 0 0 0 0 0 0 0 0 0) 0 0 0 (.vote { form with m2 := 1 })
      && reads (tpl 0x007 1 0 0 0 0 0 0 0 0 0 0 0) 0 0 0 (.reformHome { form with m2 := 1 })
      && reads (tpl 0x10C 1 0 0 0 0 0 0 0 0 0 0 0) 0 0 0 (.lineZero { form with m2 := 1 })) = true := by decide +kernel

/-- IMAD.I64.SAT v(FD) := v(FA) LU × s6 + IMM, guard inverted p3, each field by its bits (R129, R151, R152). -/
theorem test_decode_fields :
    decode (0x155#10 ++ 1#1 ++ 0x01#7 ++ 0x02#7 ++ 0x00#7)
      (fun _ => 0b0001000100#10 ++ 0b001000#6 ++ 0b0100#4 ++ 0b000#3 ++ 0b10#2 ++ 0b00#2 ++ 1#1 ++ 3#3 ++ 0#1
        ++ 0b0010100000000000#16 ++ 0b0011010000000000#16 ++ 0b0100000000000110#16 ++ 0b1110000000000000#16 ++ 0xFFFFFFF0#32) 0
      = .ok (.imad { form with
          dix := 0x155, nwb := true, fd := 1, fa := 2, sat := true, ty := .i64, hint := .unlikely, pgn := true, pg := 3
          d := ⟨.vector, .fd, false, 0⟩, a := ⟨.vector, .fa, true, 0⟩, b := U 6, c := I, imm := 0xFFFFFFF0 }) := by decide +kernel

/-- FADD.F16x2 with rounding toward minus infinity, and LD.N32 of system scope with MOD[5:4] 2. -/
theorem test_decode_fieldsMore :
    (reads (tpl 0b0010000000 0 0 3 6 0 0 0 0x2800 0x3000 0x3800 0 0) 1 2 3
        (.fadd { form with
          fd := 1, fa := 2, fb := 3, rm := .rdn, ty := .f16x2
          d := ⟨.vector, .fd, false, 0⟩, a := ⟨.vector, .fa, false, 0⟩, b := ⟨.vector, .fb, false, 0⟩ })
      && reads (tpl 0b0100000000 2 0 0 1 6 0 0 0x2005 0x4002 0xE000 0 8) 0 0 0
        (.ld { form with m2 := 2, ty := .n32, sc := .system, d := V 5, a := U 2, b := I, imm := 8 })) = true := by decide +kernel

/-- What R159 and R161 refuse: indices 0x010 to 0x03F, the undefined template, and MOPs that are not assigned. -/
theorem test_decode_refused :
    (decode (0x010#10 ++ 0#22) noEntry 0 = .error .reserved) ∧ (decode (0x03F#10 ++ 0#22) noEntry 0 = .error .reserved)
      ∧ (decode (0x040#10 ++ 0#22) noEntry 0 = .error .undefined)
      ∧ ([0x018, 0x05C, 0x096, 0x0C6, 0x0C7, 0x0CC, 0x112, 0x146, 0x16C, 0x18A, 0x1C6, 0x3FE, 0x3FF] : List Nat).all (fun m =>
          match decode (0x040#10 ++ 0#22) (fun _ => tpl (BitVec.ofNat 10 m) 0 0 0 0 0 0 0 0 0 0 0 0) 0 with
          | .ok _ => false
          | .error e => e = .undefined) = true := by decide +kernel

/-- The bytes of a word stand lowest first (R5), and the literal follows. -/
theorem test_decode_bytes :
    decodeBytes [0x00, 0x40, 0x81, 0x02, 0x78, 0x56, 0x34, 0x12] noEntry = .ok (.movi { form with
      dix := 10, fd := 5, immsrc := .literal, d := ⟨.vector, .fd, false, 0⟩, a := I, lit := 0x12345678 }) := by decide +kernel

theorem test_encode : encode (.trap { form with dix := 7, fb := 5, a := H .fb })
    = some { template := 0x0340000E0000F8000000000000000000, word := 0x01C00005, literal := 0 } := by decide +kernel

/-! ### A small machine -/

/-- A register of a map, with its value in each lane. -/
def row (n : Nat) (v : Nat → Word) : Row := { id := n, reg := some n, vals := (List.range 32).map v, await := [], handler := false }

/-- The lanes of a warp of which 0 to 3 run, and the others are EXITED. -/
def fourLanes (l : Lane) : List Lane := (List.range 32).map fun k => if k < 4 then l else { l with st := .exited }

/-- Registers of the small machine: v2 is 10 + lane, v3 is 3, v4 and v5 hold 0x10100 as an address, v6 is −2, v7 is 1.0. -/
def labRows : List Row :=
  [row 2 fun k => BitVec.ofNat 32 (10 + k), row 3 fun _ => 3, row 4 fun _ => 0x10100, row 5 fun _ => 0, row 6 fun _ => 0xFFFFFFFE
  , row 7 fun _ => 0x3F800000]

/-- Uniform registers: s0 and s1 hold the address 0x10100, s2 is 5, s3 is 0. -/
def labUregs : List Word := [0x10100, 0, 5, 0] ++ List.replicate 60 0

/-- The small machine: context 0, launch 0 and workgroup 0, on core 0, of one warp whose lanes 0 to 3 issue; one page at
0x10000, a scratchpad of 1024 bytes, four tiles, two accumulators and four convergence registers. -/
def lab : State :=
  let s := State.reset.withProgram []
  let s := s.updWarp 0 0 fun v =>
    { v with rows := labRows, uregs := labUregs, lanes := fourLanes (Lane.atLaunch 0x100 0)
             ring := v.ring.map fun g => { g with lanes := [0, 1, 2, 3] } }
  let s := s.updWg 0 fun g =>
    { g with vbytes := 1024, tileN := 4, accN := 2, jregs := List.replicate 4 ⟨0, 0, 0, none, 0, [], [], 0, 0, false, false⟩
             panes := List.replicate 4 ⟨List.replicate 4 [], List.replicate 4 [], List.replicate 2 [], none⟩ }
  { s with booted := true, cur := .group (.home 0 0 0) }

/-- The small machine in privileged mode. -/
def labPriv : State := lab.updWarp 0 0 fun v => { v with privileged := true }

/-- The issue a state executes for. -/
def iss (s : State) : Iss := (s.curIss?).getD
  { g := .home 0 0 0, ctx := 0, core := 0, pane := 0, pipe := 0, members := [], pc := 0, wbase := 0, dslot := 0, priv := false
    wg := 0, warp := 0, carried := none }

/-- A register of lane 0 after an instruction. -/
def after (i : Instr) (s : State) (reg : Nat) (pos : Nat := 0) : Option Word :=
  match exec i s with
  | .next t => if (t.lane? ⟨0, 0, pos⟩).any (fun l => !l.halted) then some (rowRead (t.rowsOf (iss s)) reg pos) else none
  | _ => none

/-- A predicate register of a lane after an instruction. -/
def predAfter (i : Instr) (s : State) (n : Nat) (pos : Nat := 0) : Option Bool :=
  match exec i s with
  | .next t => (t.lane? ⟨0, 0, pos⟩).bind fun l => if l.halted then none else some (l.pred n)
  | _ => none

/-- A uniform register after an instruction. -/
def uniAfter (i : Instr) (s : State) (n : Nat) : Option Word :=
  match exec i s with
  | .next t => (t.warp? 0 0).map fun v => v.ureg n
  | _ => none

/-- The cause the side buffer of a lane holds after an instruction. -/
def causeAfter (i : Instr) (s : State) (pos : Nat := 0) : Option Byte :=
  match exec i s with
  | .next t => (t.lane? ⟨0, 0, pos⟩).bind fun l => if l.halted then some l.side.cause else none
  | _ => none

/-! ### Hypotheses of the lane instructions -/

/-- `CanIssue`, computed. -/
def canIssueB (i : Instr) (f : Form) (forbidden : Bool) (s : State) : Bool :=
  s.curIss? = some (iss s) && (decodeFault i f (s.limits (iss s))).isNone
    && ((s.actives (iss s) f).isEmpty || !binFault (iss s) f forbidden)
    && !(s.reads (iss s) f (sigOf i f)).busy (iss s) f (sigOf i f)

theorem canIssue_of {i f b s} (h : canIssueB i f b s = true) : CanIssue i f b s (iss s) := by
  simp only [canIssueB, Bool.and_eq_true, Bool.or_eq_true, decide_eq_true_eq, Option.isNone_iff_eq_none, List.isEmpty_iff,
    Bool.not_eq_true'] at h
  exact ⟨h.1.1.1, h.1.1.2, h.1.2, h.2⟩

/-- `IssueOk`, computed. -/
def issueOkB (s : State) : Bool :=
  let x := iss s
  decide (((s.rowsOf x).map Row.id).Nodup) && (s.rowsOf x).all (fun r => r.vals.length = 32) && x.members.all (fun m => m.pos < 32)
    && decide ((x.members.map Member.pos).Nodup) && decide ((x.members.map Member.ref).Nodup)
    && x.members.all fun m => (s.lane? m.ref).any fun l => l.st = .issuing

theorem issueOk_of {s} (h : issueOkB s = true) : IssueOk s (iss s) := by
  simp only [issueOkB, Bool.and_eq_true, decide_eq_true_eq, List.all_eq_true] at h
  refine ⟨⟨h.1.1.1.1.1, h.1.1.1.1.2⟩, h.1.1.1.2, h.1.1.2, h.1.2, fun m hm => ?_⟩
  have := h.2 m hm
  cases hl : s.lane? m.ref with
  | none => simp [hl] at this
  | some l => exact ⟨l, rfl, by simpa [hl] using this⟩

/-- `DestOk`, computed. -/
def destOkB (s : State) (f : Form) (g : Sig) (results : Nat) : Bool :=
  let x := iss s
  (match prepDest (s.mapLimit x) (releaseLu f g x.wbase (s.rowsOf x)) (dstRegs f g x.wbase) (!f.nwb && results != 0)
      (decide (results = 32)) with | .inr _ => true | .inl _ => false)
    && (dstRegs f g x.wbase).all fun reg => !rowBusy (s.rowsOf x) reg

theorem destOk_of {s f g n} (h : destOkB s f g n = true) : DestOk s (iss s) f g n := by
  simp only [destOkB, Bool.and_eq_true, List.all_eq_true, Bool.not_eq_true'] at h
  refine ⟨?_, h.2⟩
  split at h
  · exact ⟨_, by assumption⟩
  · simp at h

/-- `UniformOk`, computed. -/
def uniformOkB (s : State) (n : Nat) (words : List Word) : Bool :=
  match s.warp? (iss s).wg (iss s).warp with
  | some v => decide (n + words.length ≤ v.uregs.length)
      && (List.range words.length).all fun k => decide (n + k < 56) || cregCount (v.ureg (n + k)) = 0
  | none => false

theorem uniformOk_of {s n words} (h : uniformOkB s n words = true) : UniformOk s (iss s) n words := by
  unfold uniformOkB at h
  split at h
  · rename_i v hv
    simp only [Bool.and_eq_true, decide_eq_true_eq, List.all_eq_true, List.mem_range, Bool.or_eq_true] at h
    refine ⟨⟨v, hv, h.1⟩, fun u k hu hk hn => ?_⟩
    cases hv.symm.trans hu
    rcases h.2 k hk with h | h
    · omega
    · exact h
  · simp at h

/-- The hypotheses of `VectorCompletes`, computed. -/
def vectorB (mk : Form → Instr) (forbidden : Bool) (val : LaneValue) (f : Form) (s : State) : Bool :=
  let x := iss s
  let g := sigOf (mk f) f
  canIssueB (mk f) f forbidden s && issueOkB s && f.d.cls = .vector
    && (s.actives x f).all (fun a => (val s f x (s.reads x f g) g (s.actives x f) a).isSome)
    && (s.fpTrap (s.laneResults x f g val)).isNone && destOkB s f g (s.laneResults x f g val).length

/-- The hypotheses of `VectorCompletes`. -/
def VectorGiven (mk : Form → Instr) (forbidden : Bool) (val : LaneValue) (f : Form) (s : State) : Prop :=
  CanIssue (mk f) f forbidden s (iss s) ∧ IssueOk s (iss s) ∧ f.d.cls = .vector ∧ s.laneValues (iss s) f (sigOf (mk f) f) val
    ∧ s.fpTrap (s.laneResults (iss s) f (sigOf (mk f) f) val) = none
    ∧ DestOk s (iss s) f (sigOf (mk f) f) (s.laneResults (iss s) f (sigOf (mk f) f) val).length

theorem vector_of {mk b val f s} (h : vectorB mk b val f s = true) : VectorGiven mk b val f s := by
  simp only [vectorB, Bool.and_eq_true, decide_eq_true_eq, List.all_eq_true, Option.isNone_iff_eq_none] at h
  exact ⟨canIssue_of h.1.1.1.1.1, issueOk_of h.1.1.1.1.2, h.1.1.1.2, h.1.1.2, h.1.2, destOk_of h.2⟩

/-- The hypotheses of `PredCompletes`, computed. -/
def predB (mk : Form → Instr) (forbidden : Bool) (val : LaneValue) (f : Form) (s : State) : Bool :=
  let x := iss s
  let g := sigOf (mk f) f
  canIssueB (mk f) f forbidden s && issueOkB s && f.d.cls = .predicate
    && (s.actives x f).all (fun a => (val s f x (s.reads x f g) g (s.actives x f) a).isSome)
    && (s.fpTrap (s.laneResults x f g val)).isNone

/-- The hypotheses of `PredCompletes`. -/
def PredGiven (mk : Form → Instr) (forbidden : Bool) (val : LaneValue) (f : Form) (s : State) : Prop :=
  CanIssue (mk f) f forbidden s (iss s) ∧ IssueOk s (iss s) ∧ f.d.cls = .predicate ∧ s.laneValues (iss s) f (sigOf (mk f) f) val
    ∧ s.fpTrap (s.laneResults (iss s) f (sigOf (mk f) f) val) = none

theorem pred_of {mk b val f s} (h : predB mk b val f s = true) : PredGiven mk b val f s := by
  simp only [predB, Bool.and_eq_true, decide_eq_true_eq, List.all_eq_true, Option.isNone_iff_eq_none] at h
  exact ⟨canIssue_of h.1.1.1.1, issueOk_of h.1.1.1.2, h.1.1.2, h.1.2, h.2⟩

/-- The hypotheses of `UniformCompletes`, computed. -/
def uniformB (mk : Form → Instr) (forbidden : Bool) (val : State → Form → Iss → Env → Sig → List Act → Option Val) (f : Form)
    (s : State) : Bool :=
  let x := iss s
  match val s f x (s.reads x f (sigOf (mk f) f)) (sigOf (mk f) f) (s.actives x f) with
  | some v => canIssueB (mk f) f forbidden s && f.d.cls = .uniform && !(s.actives x f).isEmpty
      && (s.fpTrap ((s.actives x f).map fun a => ⟨a, [], v.flags⟩)).isNone
      && uniformOkB s (slotNum f f.d) (valWords ((sigOf (mk f) f).d.width f.ty) v.v)
  | none => false

/-- The hypotheses of `UniformCompletes`. -/
def UniformGiven (mk : Form → Instr) (forbidden : Bool) (val : State → Form → Iss → Env → Sig → List Act → Option Val) (f : Form)
    (s : State) (v : Val) : Prop :=
  CanIssue (mk f) f forbidden s (iss s) ∧ f.d.cls = .uniform ∧ s.actives (iss s) f ≠ []
    ∧ val s f (iss s) (s.reads (iss s) f (sigOf (mk f) f)) (sigOf (mk f) f) (s.actives (iss s) f) = some v
    ∧ s.fpTrap ((s.actives (iss s) f).map fun a => ⟨a, [], v.flags⟩) = none
    ∧ UniformOk s (iss s) (slotNum f f.d) (valWords ((sigOf (mk f) f).d.width f.ty) v.v)

theorem uniform_of {mk b val f s} (h : uniformB mk b val f s = true) : ∃ v, UniformGiven mk b val f s v := by
  unfold uniformB at h
  dsimp only at h
  split at h
  · rename_i v hv
    simp only [Bool.and_eq_true, decide_eq_true_eq, Option.isNone_iff_eq_none, Bool.not_eq_true', List.isEmpty_eq_false_iff] at h
    exact ⟨v, canIssue_of h.1.1.1.1, h.1.1.1.2, h.1.1.2, hv, h.1.2, uniformOk_of h.2⟩
  · simp at h

/-! ### Witnesses: arithmetic, exchanges, votes, special registers -/

/-- Forms of v1 := op(v2, v3, ...) for the integer instructions, in the order of `integerOps`. -/
def integerForms : List Form :=
  let two (ty : Ty) : Form := { form with ty := ty, d := V 1, a := V 2, b := V 3 }
  let one (ty : Ty) : Form := { form with ty := ty, d := V 1, a := V 2 }
  let three (ty : Ty) : Form := { form with ty := ty, d := V 1, a := V 2, b := V 3, c := V 6 }
  [two .i32, two .i32, two .i32, two .n32, three .i32, { two .i32 with c := I, imm := 2 }, two .i32, two .n32, one .i32, two .b32
  , { two .b32 with m2 := 1 }, two .b32, two .b32, two .i32, two .b32, two .n32, three .b32, one .b32, one .b32, one .b32
  , { two .b32 with c := P 0 }, one .b32, { form with d := V 1, a := I, imm := 7 }, three .b32]

/-- Forms for `floatOps`. -/
def floatForms : List Form :=
  let two : Form := { form with ty := .f32, d := V 1, a := V 7, b := V 7 }
  let one : Form := { form with ty := .f32, d := V 1, a := V 7 }
  [two, two, { two with c := V 7 }, two, two, { two with b := V 3 }, one, one, one, one, one, one, one, one, one, one
  , { form with ty := .i32, d := V 1, a := V 7 }, { form with ty := .i32, d := V 1, a := V 2 }
  , { form with ty := .i8x4, d := V 1, a := V 2, b := V 3, c := V 3 }]

/-- A form with its result in s6, its vector sources replaced by s2, and its latches unread (R194). -/
def toUniform (f : Form) : Form :=
  let s (x : Slot) : Slot := if x.cls = .vector then U 2 else x
  { f with d := U 6, a := s f.a, b := s f.b, c := s f.c }

theorem witness_IntegerVector : integerOps.length = integerForms.length
    ∧ ∀ p ∈ integerOps.zip integerForms, VectorGiven p.1.1 false (ownValue fun f _ => p.1.2 f) p.2 lab :=
  ⟨by decide +kernel, fun p hp => vector_of (List.all_eq_true.mp (by decide +kernel : (integerOps.zip integerForms).all
    (fun p => vectorB p.1.1 false (ownValue fun f _ => p.1.2 f) p.2 lab) = true) p hp)⟩

theorem witness_FloatVector : floatOps.length = floatForms.length
    ∧ ∀ p ∈ floatOps.zip floatForms, VectorGiven p.1.1 false (ownValue fun f _ => p.1.2 f) p.2 lab :=
  ⟨by decide +kernel, fun p hp => vector_of (List.all_eq_true.mp (by decide +kernel : (floatOps.zip floatForms).all
    (fun p => vectorB p.1.1 false (ownValue fun f _ => p.1.2 f) p.2 lab) = true) p hp)⟩

theorem witness_OwnUniform : ∀ p ∈ uniformOps.zip (integerForms.eraseIdx 20 ++ floatForms),
    ∃ v, UniformGiven p.1.1 false (ownUniform fun f _ => p.1.2 f) (toUniform p.2) lab v :=
  fun p hp => uniform_of (List.all_eq_true.mp (by decide +kernel :
    (uniformOps.zip (integerForms.eraseIdx 20 ++ floatForms)).all
      (fun p => uniformB p.1.1 false (ownUniform fun f _ => p.1.2 f) (toUniform p.2) lab) = true) p hp)

/-! ### Values of the arithmetic instructions, in lane 1, where v2 is 11, v3 is 3, v6 is −2 and v7 is 1.0 -/

/-- v1 of lane 1 after each instruction. -/
def values (l : List (Instr × Word)) : Bool := l.all fun e => after e.1 lab 1 1 = some e.2

def two (ty : Ty) (a b : Nat) : Form := { form with ty := ty, d := V 1, a := V a, b := V b }
def one (ty : Ty) (a : Nat) : Form := { form with ty := ty, d := V 1, a := V a }

theorem test_integer_arithmetic : values [
    (.iadd (two .i32 2 3), 14), (.iadd (two .n32 6 3), 1), (.isub (two .i32 3 2), 0xFFFFFFF8), (.imul (two .i32 2 6), 0xFFFFFFEA)
  , (.imulh (two .n32 6 6), 0xFFFFFFFC), (.imulh (two .i32 6 3), 0xFFFFFFFF), (.imad { two .i32 2 3 with c := V 6 }, 31)
  , (.isha { two .i32 2 3 with c := I, imm := 2 }, 47), (.imin (two .i32 6 3), 0xFFFFFFFE), (.imin (two .n32 6 3), 3)
  , (.imax (two .n32 6 3), 0xFFFFFFFE), (.iabs (one .i32 6), 2)] = true := by decide +kernel

/-- SAT to the nearest bound, and packed elements without a carry between them (R53). -/
theorem test_integer_reduced : values [
    (.isub { two .n32 3 2 with sat := true }, 0), (.iadd { two .n32 6 3 with sat := true }, 0xFFFFFFFF)
  , (.iadd (two .n16x2 6 3), 0xFFFF0001), (.iadd { two .n8x4 6 3 with sat := true }, 0xFFFFFFFF)] = true := by decide +kernel

theorem test_integer_bits : values [
    (.and (two .b32 2 3), 3), (.and { two .b32 2 3 with m2 := 1 }, 8), (.or (two .b32 2 3), 11), (.xor (two .b32 2 3), 8)
  , (.shl (two .b32 2 3), 88), (.shl (two .b32 2 6), 0), (.shr (two .i32 6 3), 0xFFFFFFFF), (.shr (two .n32 6 3), 0x1FFFFFFF)
  , (.rotl (two .b32 6 3), 0xFFFFFFF7), (.bfx { two .n32 2 2 with b := I, imm := 0x0201 }, 1)
  , (.bfx { two .i32 2 2 with b := I, imm := 0x0200 }, 0xFFFFFFFF)
  , (.bfi { two .b32 2 6 with c := I, imm := 0x0404 }, 0xFFFFFFBE), (.popc (one .b32 2), 3), (.clz (one .b32 2), 28)
  , (.brev (one .b32 3), 0xC0000000)] = true := by decide +kernel

/-- BSEL: bytes chosen, zeroed and inverted (R201): selectors 4, 0, 0, 0 with byte 1 zeroed and byte 2 inverted. -/
theorem test_bsel : values [(.bsel { two .b32 2 6 with c := I, imm := 0x042004 }, 0x0BF400FE)] = true := by decide +kernel

theorem test_moves : values [
    (.sel { two .b32 2 3 with c := P 7 }, 11), (.sel { two .b32 2 3 with c := P 0 }, 3), (.mov (one .b32 6), 0xFFFFFFFE)
  , (.movi { form with d := V 1, a := I, imm := 0xFFFFFFF9 }, 0xFFFFFFF9), (.bcast (one .b32 2), 10)] = true := by decide +kernel

/-- A guard that is false leaves a lane's destination as it was. -/
theorem test_guard : values [(.mov { one .b32 6 with pg := 0, d := V 3 }, 0)] = true
    ∧ after (.mov { one .b32 6 with pg := 0, d := V 3 }) lab 3 1 = some 3
    ∧ after (.mov { one .b32 6 with pg := 0, pgn := true, d := V 3 }) lab 3 1 = some 0xFFFFFFFE := by decide +kernel

theorem test_float : values [
    (.fadd (two .f32 7 7), 0x40000000), (.fmul (two .f32 7 7), 0x3F800000), (.ffma { two .f32 7 7 with c := V 7 }, 0x40000000)
  , (.fmin (two .f32 7 8), 0), (.fmax (two .f32 7 8), 0x3F800000), (.fscl (two .f32 7 3), 0x41000000), (.rcp (one .f32 7), 0x3F800000)
  , (.rsq (one .f32 7), 0x3F800000), (.sqrt (one .f32 7), 0x3F800000), (.exp2 (one .f32 7), 0x40000000), (.log2 (one .f32 7), 0)
  , (.sin (one .f32 8), 0), (.cos (one .f32 8), 0x3F800000), (.tanh (one .f32 8), 0), (.frc (one .f32 7), 0)
  , (.frnd (one .f32 7), 0x3F800000), (.f2i (one .i32 7), 1), (.i2f (one .i32 2), 0x41300000)
  , (.dot4 { two .i8x4 2 3 with c := V 3 }, 36)] = true := by decide +kernel

/-- 1.0 in F32 is 0x3C00 in F16; it takes element q, the other comes from slot C (R213). -/
theorem test_cvt : values [
    (.cvt { one .f16x2 7 with b := I, imm := 1, c := V 2 }, 0x3C00000B), (.cvt { one .f16x2 7 with b := I, imm := 0, c := V 2 }, 0x3C00)
  , (.cvt { one .f32 7 with m2 := 2, b := I, imm := 1 }, 0x3F800000)] = true := by decide +kernel

/-- Comparisons and classes (R202, R208, R218), and PSET's table. -/
theorem test_predicates :
    predAfter (.isetp { two .i32 6 3 with d := P 1, m2 := 1 }) lab 1 = some true
    ∧ predAfter (.isetp { two .n32 6 3 with d := P 1, m2 := 1 }) lab 1 = some false
    ∧ predAfter (.pset { form with d := P 1, a := P 7, b := P 0, c := P 7, imm := 0x20 }) lab 1 = some true
    ∧ predAfter (.fsetp { two .f32 8 7 with d := P 1, m2 := 1 }) lab 1 = some true
    ∧ predAfter (.fclass { one .f32 7 with d := P 1, b := I, imm := 0x40 }) lab 1 = some true
    ∧ predAfter (.fclass { one .f32 7 with d := P 1, b := I, imm := 0x3BF }) lab 1 = some false := by decide +kernel

/-- Exchanges, in lane 1 of a warp of lanes 0 to 3 in which v2 is 10 + lane (R204, R222 to R226). -/
theorem test_exchange : values [
    (.qxh (one .b32 2), 10), (.qxv (one .b32 2), 13), (.qxd (one .b32 2), 12), (.qbc { one .b32 2 with b := I, imm := 3 }, 13)
  , (.ddx (one .f32 7), 0), (.ddy (one .f32 7), 0), (.lxch { one .b32 2 with b := I, imm := 2, m2 := 2 }, 13)
  , (.lxch { one .b32 2 with b := I, imm := 9 }, 0), (.redw (one .n32 2), 46), (.redw { one .n32 2 with m2 := 2 }, 13)
  , (.scanw (one .n32 2), 21), (.matchw (one .b32 3), 0xF), (.matchw (one .b32 2), 2)] = true := by decide +kernel

theorem test_uniform :
    uniAfter (.rdlane { form with d := U 6, a := V 2, b := I, imm := 3 }) lab 6 = some 13
    ∧ uniAfter (.rdlane { form with d := U 6, a := V 2, b := I, imm := 9 }) lab 6 = some 0
    ∧ uniAfter (.redw { form with ty := .n32, d := U 6, a := V 2 }) lab 6 = some 46
    ∧ uniAfter (.iadd { form with ty := .n32, d := U 6, a := U 2, b := I, imm := 4 }) lab 6 = some 9 := by decide +kernel

theorem test_votes :
    uniAfter (.voteActive { form with d := U 6 }) lab 6 = some 0xF
    ∧ uniAfter (.vote { form with m2 := 3, d := U 6, a := P 7 }) lab 6 = some 0xF
    ∧ uniAfter (.vote { form with m2 := 3, d := U 6, a := P 0 }) lab 6 = some 0
    ∧ predAfter (.vote { form with m2 := 1, d := P 1, a := P 0 }) lab 1 = some false
    ∧ predAfter (.vote { form with m2 := 2, d := P 1, a := P 7 }) lab 1 = some true
    ∧ predAfter (.elect { form with d := P 1 }) lab 1 0 = some true
    ∧ predAfter (.elect { form with d := P 1 }) lab 1 2 = some false := by decide +kernel

/-! ### Witnesses: predicates, conversions, exchanges, votes -/

def predicateForms : List Form :=
  [ { two .i32 2 3 with d := P 1 }, { form with d := P 1, a := P 0, b := P 0, c := P 0 }, { two .f32 7 7 with d := P 1 }
  , { one .f32 7 with d := P 1, b := I, imm := 1 } ]

theorem witness_OwnPredicate : predicateOps.length = predicateForms.length
    ∧ ∀ p ∈ predicateOps.zip predicateForms, PredGiven p.1.1 false (ownValue fun f _ => p.1.2 f) p.2 lab :=
  ⟨by decide +kernel, fun p hp => pred_of (List.all_eq_true.mp (by decide +kernel : (predicateOps.zip predicateForms).all
    (fun p => predB p.1.1 false (ownValue fun f _ => p.1.2 f) p.2 lab) = true) p hp)⟩

/-- CVT.F16 q = 1 of v7. -/
def cvtForm (rm : Rm) : Form := { one .f16x2 7 with b := I, imm := 1, c := V 2, rm := rm }

theorem witness_Conversion :
    (cvtForm .rne).rm ≠ .sr ∧ VectorGiven .cvt false (ownValue fun f => cvtVal f 0) (cvtForm .rne) lab
    ∧ (∃ v, UniformGiven .cvt false (ownUniform fun f => cvtVal f 0) (toUniform (cvtForm .rne)) lab v)
    ∧ (cvtForm .sr).rm = .sr
    ∧ VectorGiven .cvt false (fun s f x e g act a => ownValue (fun f => cvtVal f (cvtGen s x)) s f x e g act a) (cvtForm .sr) lab
    ∧ ∃ v, UniformGiven .cvt false (fun s f x e g act => ownUniform (fun f => cvtVal f (cvtGen s x)) s f x e g act)
        (toUniform (cvtForm .sr)) lab v :=
  ⟨by decide, vector_of (by decide +kernel), uniform_of (by decide +kernel), rfl, vector_of (by decide +kernel),
    uniform_of (by decide +kernel)⟩

def exchangeForms : List Form :=
  [one .b32 2, one .b32 2, one .b32 2, { one .b32 2 with b := I, imm := 3 }, one .f32 7, one .f32 7, { one .b32 2 with b := I, imm := 2 }
  , one .n32 2, one .n32 2, one .b32 2, one .b32 2]

theorem witness_Exchanges : exchangeOps.length = exchangeForms.length
    ∧ (∀ p ∈ exchangeOps.zip exchangeForms, VectorGiven p.1.1 p.1.2.1 p.1.2.2 p.2 lab)
    ∧ (∃ v, UniformGiven .redw true reduceUniform { one .n32 2 with d := U 6 } lab v)
    ∧ (∃ v, UniformGiven .rdlane true rdlaneValue { one .b32 2 with d := U 6, b := I, imm := 3 } lab v)
    ∧ PredGiven .elect true electValue { form with d := P 1 } lab
    ∧ PredGiven .vote true voteValue { form with m2 := 1, d := P 1, a := P 0 } lab
    ∧ (∃ v, UniformGiven .vote true ballotValue { form with m2 := 3, d := U 6, a := P 0 } lab v)
    ∧ (∃ v, UniformGiven .voteActive true activeValue { form with d := U 6 } lab v) :=
  ⟨by decide +kernel, fun p hp => vector_of (List.all_eq_true.mp (by decide +kernel : (exchangeOps.zip exchangeForms).all
    (fun p => vectorB p.1.1 p.1.2.1 p.1.2.2 p.2 lab) = true) p hp), uniform_of (by decide +kernel), uniform_of (by decide +kernel),
    pred_of (by decide +kernel), pred_of (by decide +kernel), uniform_of (by decide +kernel), uniform_of (by decide +kernel)⟩

theorem witness_ElectLowest : CanIssue (.elect { form with d := P 1 }) { form with d := P 1 } true lab (iss lab) ∧ IssueOk lab (iss lab)
    ∧ (iss lab).members.Pairwise (fun a b => a.pos < b.pos) :=
  ⟨canIssue_of (by decide +kernel), issueOk_of (by decide +kernel), by decide +kernel⟩

theorem witness_MatchMask : CanIssue (.matchw (one .b32 2)) (one .b32 2) true lab (iss lab) ∧ IssueOk lab (iss lab)
    ∧ (∀ a ∈ lab.actives (iss lab) (one .b32 2), ((lab.env (iss lab)).srcAt (iss lab) (one .b32 2) (sigOf (.matchw (one .b32 2)) (one .b32 2)) a.m.pos).isSome)
    ∧ DestOk lab (iss lab) (one .b32 2) (sigOf (.matchw (one .b32 2)) (one .b32 2)) (lab.actives (iss lab) (one .b32 2)).length :=
  ⟨canIssue_of (by decide +kernel), issueOk_of (by decide +kernel), by decide +kernel, destOk_of (by decide +kernel)⟩

/-! ### Hypotheses of the control instructions -/

theorem some_of_any {α : Type} {o : Option α} {p : α → Bool} (h : o.any p = true) : ∃ v, o = some v ∧ p v = true := by
  cases o with
  | none => simp at h
  | some v => exact ⟨v, rfl, by simpa using h⟩

/-- The hypotheses of `LanesComplete`. -/
def LanesGiven (mk : Form → Instr) (forbidden : Bool) (given : State → Form → Iss → Act → Args → Prop) (f : Form) (s : State) : Prop :=
  CanIssue (mk f) f forbidden s (iss s) ∧ IssueOk s (iss s) ∧ s.actives (iss s) f ≠ []
    ∧ ∀ a ∈ s.actives (iss s) f, ∃ args,
        s.argsOf (iss s) f (sigOf (mk f) f) a = some args ∧ given s f (iss s) a args

/-- The same, computed. -/
def lanesB (mk : Form → Instr) (forbidden : Bool) (given : State → Form → Iss → Act → Args → Bool) (f : Form) (s : State) : Bool :=
  canIssueB (mk f) f forbidden s && issueOkB s && !(s.actives (iss s) f).isEmpty
    && (s.actives (iss s) f).all fun a =>
      (s.argsOf (iss s) f (sigOf (mk f) f) a).any fun args => given s f (iss s) a args

theorem lanes_of {mk b} {given : State → Form → Iss → Act → Args → Prop} (givenB : State → Form → Iss → Act → Args → Bool) {f s}
    (hg : ∀ s f x a args, givenB s f x a args = true → given s f x a args) (h : lanesB mk b givenB f s = true) :
    LanesGiven mk b given f s := by
  simp only [lanesB, Bool.and_eq_true, Bool.not_eq_true', List.isEmpty_eq_false_iff, List.all_eq_true] at h
  refine ⟨canIssue_of h.1.1.1, issueOk_of h.1.1.2, h.1.2, fun a ha => ?_⟩
  obtain ⟨args, h1, h2⟩ := some_of_any (h.2 a ha)
  exact ⟨args, h1, hg _ _ _ _ _ h2⟩

/-- The hypotheses of `OnceCompletes` without its own condition. -/
def OnceGiven (i : Instr) (f : Form) (forbidden : Bool) (s : State) : Prop :=
  CanIssue i f forbidden s (iss s) ∧ s.actives (iss s) f ≠ [] ∧ (s.reads (iss s) f (sigOf i f)).outside = []

theorem once_of {i f b s} (h : (canIssueB i f b s && !(s.actives (iss s) f).isEmpty
    && (s.reads (iss s) f (sigOf i f)).outside.isEmpty) = true) : OnceGiven i f b s := by
  simp only [Bool.and_eq_true, Bool.not_eq_true', List.isEmpty_eq_false_iff, List.isEmpty_iff] at h
  exact ⟨canIssue_of h.1.1, h.1.2, h.2⟩

theorem always {given : State → Form → Iss → Act → Args → Prop} (h : ∀ s f x a args, given s f x a args) :
    ∀ s f x a args, (fun _ _ _ _ _ => true : State → Form → Iss → Act → Args → Bool) s f x a args = true → given s f x a args :=
  fun s f x a args _ => h s f x a args

/-- Results and what they are to be. -/
def same {α : Type} [DecidableEq α] (l : List (α × α)) : Bool := l.all fun e => e.1 = e.2

/-! ### Control transfers -/

/-- The small machine with an entry on each lane's stack. -/
def labCalled : State :=
  lab.updWarp 0 0 fun v => { v with lanes := v.lanes.map fun l => { l with wbase := 16, stack := [⟨0x200, 8⟩] } }

/-- The PC, WBASE and stack depth of a lane after an instruction. -/
def laneAfter (i : Instr) (s : State) (pos : Nat := 0) : Option (Word × Nat × Nat) :=
  match exec i s with
  | .next t => (t.lane? ⟨0, 0, pos⟩).bind fun l => if l.halted then none else some (l.pc, l.wbase, l.stack.length)
  | _ => none

/-- Branches by −2 words from 0x100, to v4, and calls with a window of 8 registers (R131, R309 to R315). -/
theorem test_transfers : same [
    (laneAfter (.bra { form with a := I, imm := 0xFFFFFFFE }) lab, some (0xFC, 0, 0))
  , (laneAfter (.braUniform { form with dix := 6, fa := 0x7F, fb := 0x7E, hint := .uniform, immsrc := .faFb, a := I }) lab, some (0xFC, 0, 0))
  , (laneAfter (.brx { form with a := V 4 }) lab, some (0x10100, 0, 0))
  , (laneAfter (.call { form with a := I, imm := 3, b := H .fb, fb := 1 }) lab, some (0x110, 8, 1))
  , (laneAfter (.callx { form with a := V 4, b := H .fb, fb := 0 }) labCalled, some (0x10100, 16, 2))
  , (laneAfter (.ret form) labCalled, some (0x200, 8, 0))
  , (laneAfter (.window { form with a := I, imm := 3 }) lab, some (0x104, 24, 0))
  , (laneAfter (.window { form with a := I, imm := 0xFFFFFFFF, m2 := 1 }) labCalled, some (0x104, 8, 1))
  , (laneAfter (.yield form) lab, some (0x104, 0, 0)), (laneAfter (.nop form) lab, some (0x104, 0, 0))
  , (laneAfter (.nop { form with b := I, immsrc := .literal }) lab, none), (laneAfter (.ret form) lab, none)] = true := by decide +kernel

theorem witness_Transfers :
    LanesGiven .bra false noCondition { form with a := I, imm := 0xFFFFFFFE } lab
    ∧ LanesGiven .braUniform false noCondition { form with dix := 6, fa := 0x7F, fb := 0x7E, hint := .uniform, immsrc := .faFb, a := I } lab
    ∧ LanesGiven .brx false noCondition { form with a := V 4 } lab
    ∧ LanesGiven .call false callFits { form with a := I, b := H .fb, fb := 49 } lab
    ∧ LanesGiven .callx false callFits { form with a := V 4, b := H .fb, fb := 1 } labCalled
    ∧ LanesGiven .ret false returnFits form labCalled
    ∧ LanesGiven .window true (fun _ f _ a args => 0 ≤ windowBase f a args ∧ windowBase f a args ≤ 392) { form with a := I, imm := 49 } lab
    ∧ LanesGiven .yield false noCondition form lab
    ∧ CanIssue (.nop form) form false lab (iss lab) := by
  refine ⟨lanes_of _ (always fun _ _ _ _ _ => trivial) (by decide +kernel), lanes_of _ (always fun _ _ _ _ _ => trivial) (by decide +kernel),
    lanes_of _ (always fun _ _ _ _ _ => trivial) (by decide +kernel),
    lanes_of (fun _ _ x a args => decide (a.lane.stack.length < 4 ∧ a.lane.wbase + 8 * args.b.toNat ≤ 392) && x.carried.isNone)
      ?_ (by decide +kernel),
    lanes_of (fun _ _ x a args => decide (a.lane.stack.length < 4 ∧ a.lane.wbase + 8 * args.b.toNat ≤ 392) && x.carried.isNone)
      ?_ (by decide +kernel),
    lanes_of (fun _ _ x a _ => x.carried.isNone && match a.lane.stack with | q :: _ => decide (q.rwb ≤ 392) | [] => false)
      ?_ (by decide +kernel),
    lanes_of (fun _ f _ a args => decide (0 ≤ windowBase f a args ∧ windowBase f a args ≤ 392)) (fun _ _ _ _ _ h => of_decide_eq_true h)
      (by decide +kernel),
    lanes_of _ (always fun _ _ _ _ _ => trivial) (by decide +kernel), canIssue_of (by decide +kernel)⟩
  · intro s f x a args h
    simp only [Bool.and_eq_true, decide_eq_true_eq, Option.isNone_iff_eq_none] at h
    exact ⟨h.1.1, h.1.2, .inl h.2⟩
  · intro s f x a args h
    simp only [Bool.and_eq_true, decide_eq_true_eq, Option.isNone_iff_eq_none] at h
    exact ⟨h.1.1, h.1.2, .inl h.2⟩
  · intro s f x a args h
    simp only [Bool.and_eq_true, Option.isNone_iff_eq_none] at h
    split at h
    · rename_i q rest hq
      exact ⟨q, rest, hq, by simpa using h.2, .inl h.1⟩
    · simp at h

theorem witness_Joins : LanesGiven .join true noCondition { form with a := U 2 } lab :=
  lanes_of _ (always fun _ _ _ _ _ => trivial) (by decide +kernel)

theorem witness_Exits : LanesGiven .exit false noCondition form lab := lanes_of _ (always fun _ _ _ _ _ => trivial) (by decide +kernel)

/-- Waits and exits by their states (R87, R320, R326): JOIN with a mask of all its lanes lets them go on. -/
theorem test_leave :
    laneAfter (.join { form with a := U 2 }) lab 1 = some (0x104, 0, 0)
    ∧ laneAfter (.join { form with a := U 2 }) (lab.updWarp 0 0 fun v => { v with uregs := setNth v.uregs 2 0xF }) = some (0x104, 0, 0)
    ∧ ((match exec (.exit { form with pg := 0, pgn := true }) (lab.updLane ⟨0, 0, 1⟩ fun l => { l with preds := 1 }) with
        | .next t => (List.range 4).map fun k => (t.lane? ⟨0, 0, k⟩).map Lane.st
        | _ => []) = [some .exited, some .issuing, some .exited, some .exited]) := by decide +kernel

/-- A context with a vector table. -/
def labTable : State := lab.updCtx 0 fun c => { c with trapbase := 0x10000 }

/-- TRAP 5 raises SW_TRAP5, BKPT its own cause, and a lane's TRAPPC is the next PC (R326). -/
theorem test_traps :
    causeAfter (.trap { form with a := I, imm := 5 }) labTable = some 0xE5 ∧ causeAfter (.bkpt form) labTable = some 0x00
    ∧ ((match exec (.trap { form with a := I, imm := 5 }) labTable with
        | .next t => (t.lane? ⟨0, 0, 2⟩).map fun l : Lane => (l.halted, l.trappc)
        | _ => none) = some (true, 0x104))
    ∧ causeAfter (.rte form) labTable = some 0x22 ∧ causeAfter (.iadd { form with ty := .f32, d := V 1, a := V 2, b := V 3 }) labTable = some 0x23
    ∧ causeAfter (.ld { form with d := V 1, a := V 2, b := I, ty := .b32 }) labTable = some 0x40 := by decide +kernel

/-- A workgroup whose only warp runs its handler since a TRAP at 0x100. -/
def labHandler : State :=
  let s := labTable.updWarp 0 0 fun v =>
    { v with
      privileged := true, trapAct := 2, trapPend := 1
      saved := v.lanes.map fun l => ⟨l.st, l.wbase, l.pc, l.npc⟩, ringSaved := v.ring
      lanes := v.lanes.map fun l => if l.st = .exited then l else { l with halted := false, trappc := 0x104, pc := 0x40 } }
  s.updWg 0 fun g => { g with trap := some ⟨0, .swTrap 5, false, true, true, false, 0, 0⟩ }

theorem test_rte :
    laneAfter (.rte form) labHandler = some (0x104, 0, 0)
    ∧ ((match exec (.rte form) labHandler with
        | .next t => (t.warp? 0 0).map fun v => (v.privileged, v.active, v.pending)
        | _ => none) = some (false, 2, 1)) := by decide +kernel

theorem witness_TrapInstructions :
    LanesGiven .trap false noCondition { form with a := I, imm := 5 } labTable ∧ LanesGiven .bkpt false noCondition form labTable
    ∧ (OnceGiven (.rte form) form false lab ∧ (iss lab).priv = false)
    ∧ OnceGiven (.rte form) form false labHandler ∧ (iss labHandler).priv = true
    ∧ ∃ g, labHandler.wg? 0 = some g ∧ (g.trap.isSome && g.outer.isEmpty) = true :=
  ⟨lanes_of _ (always fun _ _ _ _ _ => trivial) (by decide +kernel), lanes_of _ (always fun _ _ _ _ _ => trivial) (by decide +kernel),
    ⟨once_of (by decide +kernel), by decide +kernel⟩, once_of (by decide +kernel), by decide +kernel, some_of_any (by decide +kernel)⟩

/-! ### Waits, dictionary slots, special registers -/

/-- s57 counts an engine command in flight. -/
def labCounting : State := lab.updWarp 0 0 fun v => { v with uregs := setNth v.uregs 57 1 }

theorem test_waits :
    laneAfter (.waitc { form with a := U 56 }) lab = some (0x104, 0, 0)
    ∧ ((match exec (.waitc { form with a := U 57 }) labCounting with | .next t => t.holdOf (.home 0 0 0) | _ => none)
        = some (.waitc 57 0x104 [0, 1, 2, 3]))
    ∧ laneAfter (.sleep { form with a := U 3 }) lab = some (0x104, 0, 0)
    ∧ ((match exec (.sleep { form with a := U 2 }) { lab with clock := 100 } with | .next t => t.holdOf (.home 0 0 0) | _ => none)
        = some (.sleep 105)) := by decide +kernel

theorem witness_Waits :
    (OnceGiven (.waitc { form with a := U 56 }) { form with a := U 56 } false lab
      ∧ ∃ v, lab.warp? 0 0 = some v ∧ decide (v.ureg 56 = 0) = true)
    ∧ (OnceGiven (.waitc { form with a := U 57 }) { form with a := U 57 } false labCounting
      ∧ ∃ v, labCounting.warp? 0 0 = some v ∧ decide (cregCount (v.ureg 57) ≠ 0) = true)
    ∧ (OnceGiven (.sleep { form with a := U 3 }) { form with a := U 3 } false lab
      ∧ lab.onceValue (iss lab) { form with a := U 3 } (U 3) (sigOf (.sleep form) form).a = 0)
    ∧ OnceGiven (.sleep { form with a := U 2 }) { form with a := U 2 } false lab
      ∧ (lab.onceValue (iss lab) { form with a := U 2 } (U 2) (sigOf (.sleep form) form).a).toNat = 5 :=
  ⟨⟨once_of (by decide +kernel), some_of_any (by decide +kernel)⟩, ⟨once_of (by decide +kernel), some_of_any (by decide +kernel)⟩,
    ⟨once_of (by decide +kernel), by decide +kernel⟩, once_of (by decide +kernel), by decide +kernel⟩

/-- A dictionary slot with an image. -/
def slot0 : DictSlot :=
  { phys := 0, ctx := 0, prog := 0, image := some [], emptied := false, loads := 1, lastVa := 0, rejected := 0 }

/-- The small machine with slot 0 loaded. -/
def labDict : State := lab.updCore 0 fun c => { c with slots := [slot0] }

theorem test_dictionary :
    ((match exec (.dictsw { form with a := I, imm := 2 }) lab with
        | .next t => (t.warp? 0 0).map fun v => (v.active, v.pending)
        | _ => none) = some (0, 2))
    ∧ ((match exec (.dfence form) (labDict.updWarp 0 0 fun v => { v with active := 1 }) with
        | .next t => (t.warp? 0 0).map fun v => (v.active, v.pending)
        | _ => none) = some (0, 0))
    ∧ causeAfter (.dfence form) labTable = some 0x12 ∧ causeAfter (.dictsw { form with a := I, imm := 3 }) labTable = some 0x14 := by
  decide +kernel

theorem witness_Dictionaries :
    (OnceGiven (.dictsw { form with a := I, imm := 2 }) { form with a := I, imm := 2 } true lab
      ∧ ∃ c, lab.ctx? 0 = some c ∧ decide (c.trapdict ≠ 2) = true)
    ∧ OnceGiven (.dfence form) form true labDict
    ∧ (∃ v, labDict.warp? 0 0 = some v ∧ (decide (v.loading = []) && !v.loadFail) = true)
    ∧ (∀ m ∈ (iss labDict).members, labDict.quiet m.ref false = true) ∧ (labDict.ctx? 0).bind Context.trace = none
    ∧ (labDict.slotOf 0 0 0).any (fun d => d.image.isSome) = true :=
  ⟨⟨once_of (by decide +kernel), some_of_any (by decide +kernel)⟩, once_of (by decide +kernel), some_of_any (by decide +kernel),
    by decide +kernel, by decide +kernel, by decide +kernel⟩

/-- A write of special register `n` from `v2`, or from the pair v4, v5 where it is 64 bits wide, or a value. -/
def writeForm (n : Nat) (b : Slot) (v : Word) : Form := { form with a := H .fa, fa := BitVec.ofNat 7 n, b := b, imm := v }
def wide (f : Form) : Form := { f with ty := .n64 }

/-- What SREAD then reads (R332): register n after it is written. -/
def readBack (mk : Form → Instr) (f : Form) (s : State) : Option DWord :=
  match exec (mk f) s with
  | .next t => if (t.lane? ⟨0, 0, 0⟩).any (fun l => !l.halted) then some (t.special (iss s) ⟨0, 0, 0⟩ f.fa.toNat) else none
  | _ => none

theorem test_special : same [
    (readBack .swrite (writeForm 0x11 I 0xFFFFFFFF) lab, some 0x3F3F), (readBack .swrite (wide (writeForm 0x13 I 0x40)) lab, some 0x40)
  , (readBack .swriteSrseed (writeForm 0x12 I 0) lab, some 0x2545F491), (readBack .swriteSrseed (writeForm 0x12 (V 3) 0) lab, some 3)
  , (readBack .swrite (writeForm 0x30 I 0xE5) labPriv, some 0xE5), (readBack .swrite (wide (writeForm 0x33 I 0x5000)) labPriv, some 0x5000)
  , (readBack .swriteTrappc (writeForm 0x31 I 0x44) labPriv, some 0x44), (readBack .swriteTrapdict (writeForm 0x35 I 1) labPriv, some 1)
  , (readBack .swritePcmp (writeForm 0x4F I 0x5) labPriv, some 5), (readBack .swriteCexctl (writeForm 0x40 I 0) labPriv, some 0)
  , (readBack .swrite (writeForm 0x30 I 0) labTable, none), (readBack .swritePcmp (writeForm 0x48 I 0) labTable, none)] = true := by
  decide +kernel

/-- SREAD of LANEID, of the lane's PC, and of WARPID in a uniform register (R332). -/
theorem test_sread :
    after (.sread { form with d := V 1, a := H .fa, fa := 0x00 }) lab 1 3 = some 3
    ∧ uniAfter (.sread { form with d := U 6, a := H .fa, fa := 0x11 }) (lab.updWarp 0 0 fun v => { v with fpstat := 0x11 }) 6 = some 0x11 := by
  decide +kernel

/-- The hypotheses of `Writes`, but for the legality of the value. -/
def WriteGiven (mk : Form → Instr) (regs : List Nat) (priv : Bool) (f : Form) (s : State) : Prop :=
  OnceGiven (mk f) f true s ∧ (f.slotImm f.a).toNat ∈ regs ∧ (priv = true → (iss s).priv = true) ∧ writeReads mk s f (iss s)

theorem write_of {mk regs priv f s}
    (h : (canIssueB (mk f) f true s && !(s.actives (iss s) f).isEmpty
      && (s.reads (iss s) f (sigOf (mk f) f)).outside.isEmpty && regs.contains (f.slotImm f.a).toNat && (!priv || (iss s).priv)
      && ((s.env (iss s)).once (iss s) f (s.actives (iss s) f) f.b (sigOf (mk f) f).b).isSome) = true) :
    WriteGiven mk regs priv f s := by
  simp only [Bool.and_eq_true, Bool.not_eq_true', List.isEmpty_eq_false_iff, Bool.or_eq_true, List.contains_eq_mem,
    decide_eq_true_eq, List.isEmpty_iff] at h
  refine ⟨⟨canIssue_of h.1.1.1.1.1, h.1.1.1.1.2, h.1.1.1.2⟩, h.1.1.2, fun hp => ?_, h.2⟩
  rcases h.1.2 with h' | h'
  · simp [hp] at h'
  · exact h'

theorem witness_SpecialRegisters :
    VectorGiven .sread false sreadValue { form with d := V 1, a := H .fa, fa := 0x00 } lab
    ∧ (∃ v, UniformGiven .sread false sreadUniform { form with d := U 6, a := H .fa, fa := 0x11 } lab v)
    ∧ WriteGiven .swrite [0x11] false (writeForm 0x11 (V 3) 0) lab
    ∧ (WriteGiven .swrite [0x13] false (wide (writeForm 0x13 I 0x40)) lab
      ∧ (writeValue .swrite lab (wide (writeForm 0x13 I 0x40)) (iss lab)).toNat % 8 = 0)
    ∧ WriteGiven .swrite [0x30] true (writeForm 0x30 I 0xE5) labPriv
    ∧ (WriteGiven .swrite [0x33] true (wide (writeForm 0x33 I 0x5000)) labPriv
      ∧ (writeValue .swrite labPriv (wide (writeForm 0x33 I 0x5000)) (iss labPriv)).toNat % 4096 = 0)
    ∧ WriteGiven .swriteSrseed [0x12] false (writeForm 0x12 I 0) lab
    ∧ (WriteGiven .swritePcmp [0x48, 0x49, 0x4A, 0x4B, 0x4C, 0x4D, 0x4E, 0x4F] true (writeForm 0x4F I 0x5) labPriv
      ∧ (writeValue .swritePcmp labPriv (writeForm 0x4F I 0x5) (iss labPriv)).extractLsb' 27 5 = 0)
    ∧ WriteGiven .swriteTrapdict [0x35] true (writeForm 0x35 I 1) labPriv :=
  ⟨vector_of (by decide +kernel), uniform_of (by decide +kernel), write_of (by decide +kernel),
    ⟨write_of (by decide +kernel), by decide +kernel⟩, write_of (by decide +kernel), ⟨write_of (by decide +kernel), by decide +kernel⟩,
    write_of (by decide +kernel), ⟨write_of (by decide +kernel), by decide +kernel⟩, write_of (by decide +kernel)⟩

theorem witness_SpecialRegisters_trappc : LanesGiven .swriteTrappc true (fun _ _ x _ _ => x.priv = true) (writeForm 0x31 I 0x44) labPriv :=
  lanes_of (fun _ _ x _ _ => x.priv) (fun _ _ _ _ _ h => h) (by decide +kernel)

/-- The causal registers, each at a value it takes, with no experiment running; then one that starts (R487, R488). -/
theorem witness_SpecialRegisters_causal :
    (∀ n ∈ [0x41, 0x42, 0x43, 0x44], WriteGiven .swrite [0x41, 0x42, 0x43, 0x44] true (writeForm n I 8) labPriv
      ∧ (writeValue .swrite labPriv (writeForm n I 8) (iss labPriv)).toNat % 4 = 0)
    ∧ (∃ c, labPriv.ctx? 0 = some c ∧ (!c.cexctl.getLsbD 0) = true)
    ∧ (WriteGiven .swriteCexctl [0x40] true (writeForm 0x40 I 0) labPriv
      ∧ (writeValue .swriteCexctl labPriv (writeForm 0x40 I 0) (iss labPriv)).extractLsb' 4 12 = 0)
    ∧ ∃ s : State, WriteGiven .swriteCexctl [0x40] true (writeForm 0x40 I 0x00010001) s
      ∧ (writeValue .swriteCexctl s (writeForm 0x40 I 0x00010001) (iss s)).getLsbD 0 = true
      ∧ (writeValue .swriteCexctl s (writeForm 0x40 I 0x00010001) (iss s)).extractLsb' 16 16 ≠ 0
      ∧ ∃ c, s.ctx? 0 = some c ∧ decide (c.cexlo.toNat < c.cexhi.toNat) = true :=
  by
  refine ⟨?_, some_of_any (by decide +kernel), ⟨write_of (by decide +kernel), by decide +kernel⟩,
    labPriv.updCtx 0 fun c => { c with cexlo := 0, cexhi := 0x100 }, write_of (by decide +kernel), by decide +kernel, by decide +kernel,
    some_of_any (by decide +kernel)⟩
  intro n hn
  simp only [List.mem_cons, List.not_mem_nil, or_false] at hn
  rcases hn with rfl | rfl | rfl | rfl <;> exact ⟨write_of (by decide +kernel), by decide +kernel⟩

/-! ### Memory -/

/-- The hypotheses of `MemCompletes` without its own condition. -/
def MemGiven (mk : Form → Instr) (ask : LaneAsk) (f : Form) (s : State) : Prop :=
  CanIssue (mk f) f false s (iss s) ∧ IssueOk s (iss s)
    ∧ (∀ a ∈ s.actives (iss s) f, ∃ args, s.argsOf (iss s) f (sigOf (mk f) f) a = some args ∧ s.goesOn a (ask s f (iss s) a args) = true)
    ∧ DestOk s (iss s) f (sigOf (mk f) f) ((s.asked (iss s) f (sigOf (mk f) f) ask).filter fun p => p.2 != .nothing).length

/-- The same, computed, where some lane asks for an access. -/
def memB (mk : Form → Instr) (ask : LaneAsk) (f : Form) (s : State) : Bool :=
  canIssueB (mk f) f false s && issueOkB s
    && (s.actives (iss s) f).all (fun a =>
      (s.argsOf (iss s) f (sigOf (mk f) f) a).any fun args => s.goesOn a (ask s f (iss s) a args))
    && destOkB s f (sigOf (mk f) f) ((s.asked (iss s) f (sigOf (mk f) f) ask).filter fun p => p.2 != .nothing).length
    && (s.asked (iss s) f (sigOf (mk f) f) ask).any fun p => match p.2 with | .access _ _ _ => true | _ => false

theorem mem_of {mk ask f s} (h : memB mk ask f s = true) : MemGiven mk ask f s := by
  simp only [memB, Bool.and_eq_true, List.all_eq_true] at h
  exact ⟨canIssue_of h.1.1.1.1, issueOk_of h.1.1.1.2, fun a ha => some_of_any (h.1.1.2 a ha), destOk_of h.1.2⟩

/-- Addr in s0 and s1, Off an immediate. -/
def at0 (f : Form) : Form := { f with a := U 0, b := I }
/-- A vault form: its offset an immediate. -/
def atVault (f : Form) : Form := { f with a := I, imm := 64 }

theorem witness_LoadsAndStores :
    MemGiven .ld loadAsk (at0 { form with d := V 1 }) lab ∧ MemGiven .ldv vaultLoadAsk (atVault { form with d := V 1 }) lab
    ∧ (MemGiven .st memStoreAsk (at0 { form with c := V 2 }) lab
      ∧ (lab.actives (iss lab) (at0 { form with c := V 2 })).all (fun a =>
          (lab.argsOf (iss lab) (at0 { form with c := V 2 }) (sigOf (.st (at0 { form with c := V 2 })) (at0 { form with c := V 2 })) a).all
            fun args => (hatchOffset (at0 { form with c := V 2 }) (effAddr args.a args.b)).isNone)
        = true)
    ∧ MemGiven .stv vaultStoreAsk (atVault { form with b := V 2 }) lab
    ∧ MemGiven .lineZero lineZeroAsk (at0 { form with m2 := 1 }) lab :=
  ⟨mem_of (by decide +kernel), mem_of (by decide +kernel), ⟨mem_of (by decide +kernel), by decide +kernel⟩, mem_of (by decide +kernel),
    mem_of (by decide +kernel)⟩

/-- Texture 0 of 4 by 4 texels at 0x10200 (R248). -/
def labTex : State := lab.updCtx 0 fun c => { c with textures := [⟨0, 0x10200, 4, 4, 0, false⟩] }

/-- TEX and TLD of the texture whose handle is an immediate. -/
def texForm : Form := { form with ty := .f32, d := V 10, a := V 8, b := I, imm := 0x30000000 }

theorem witness_AtomicsAndTextures :
    MemGiven .atom (swapAsk (memPlace fun q => effAddr q.a q.b) fun f q => .atom f.ty f.m2.toNat (sized (atomSize f) q.c))
      (at0 { form with d := V 1, c := V 2 }) lab
    ∧ MemGiven .atomv (swapAsk vaultPlace fun f q => .atom f.ty f.m2.toNat (sized (atomSize f) q.b)) (atVault { form with d := V 1, b := V 2 }) lab
    ∧ MemGiven .cas (swapAsk (memPlace fun q => q.a.toNat) fun f q => .cas (sized (atomSize f) q.b) (sized (atomSize f) q.c))
      { form with d := V 1, a := U 0, b := V 2, c := V 3 } lab
    ∧ MemGiven .red (reduceAsk (memPlace fun q => effAddr q.a q.b) Args.c) (at0 { form with c := V 2 }) lab
    ∧ MemGiven .redv (reduceAsk vaultPlace Args.b) (atVault { form with b := V 2 }) lab
    ∧ MemGiven .swarm swarmAsk (atVault { form with d := V 1, b := V 2 }) lab
    ∧ MemGiven .tex (textureAsk texTexels .tex) texForm labTex ∧ MemGiven .tld (textureAsk tldTexels .tld) texForm labTex :=
  ⟨mem_of (by decide +kernel), mem_of (by decide +kernel), mem_of (by decide +kernel), mem_of (by decide +kernel), mem_of (by decide +kernel),
    mem_of (by decide +kernel), mem_of (by decide +kernel), mem_of (by decide +kernel)⟩

/-- The accesses an instruction issues, by lane, address and size. -/
def issued (i : Instr) (s : State) : List (Nat × Nat × Nat) :=
  match exec i s with
  | .next t => t.pend.map fun a => (a.lane.lane, a.phys, a.size)
  | _ => []

/-- The address 0x10100 is byte 0x100 of the page at 0 (R118); offset 64 of the scratchpad of vault 0 (R31, R239). -/
theorem test_accesses :
    same [(issued (.ld (at0 { form with d := V 1, imm := 4 })) lab, [(0, 0x104, 4), (1, 0x104, 4), (2, 0x104, 4), (3, 0x104, 4)])
      , (issued (.st (at0 { form with c := V 2, m2 := 1, ty := .n32, imm := 1 })) lab, [(0, 0x101, 1), (1, 0x101, 1), (2, 0x101, 1), (3, 0x101, 1)])
      , (issued (.lineZero (at0 { form with m2 := 1, imm := 64 })) lab, [(0, 0x140, 64), (1, 0x140, 64), (2, 0x140, 64), (3, 0x140, 64)])
      , (issued (.ldv (atVault { form with d := V 1 })) lab, (List.range 4).map fun k => (k, Config.vaultBase + 64, 4))
      , (issued (.cas (wide { form with d := V 10, a := U 0, b := V 2, c := V 2 })) lab, (List.range 4).map fun k => (k, 0x100, 8))] = true := by
  decide +kernel

/-- The hypotheses of `HeldCompletes` without its own condition. -/
def HeldGiven (mk : Form → Instr) (forbidden : Bool) (held : LaneHeld) (f : Form) (s : State) : Prop :=
  CanIssue (mk f) f forbidden s (iss s) ∧ IssueOk s (iss s) ∧ f.d.cls = .vector
    ∧ (∀ a ∈ s.actives (iss s) f, (held s f (iss s) (sigOf (mk f) f) a).isSome)
    ∧ DestOk s (iss s) f (sigOf (mk f) f) (s.actives (iss s) f).length

theorem held_of {mk b held f s} (h : (canIssueB (mk f) f b s && issueOkB s && decide (f.d.cls = .vector)
    && (s.actives (iss s) f).all (fun a => (held s f (iss s) (sigOf (mk f) f) a).isSome)
    && destOkB s f (sigOf (mk f) f) (s.actives (iss s) f).length) = true) : HeldGiven mk b held f s := by
  simp only [Bool.and_eq_true, decide_eq_true_eq, List.all_eq_true] at h
  exact ⟨canIssue_of h.1.1.1.1, issueOk_of h.1.1.1.2, h.1.1.2, h.1.2, destOk_of h.2⟩

/-- No access of the issue's lanes is in flight or queued, where none is at all. -/
theorem noneInFlight_of {s : State} {x : Iss} (hp : s.pend = []) (hq : s.queue = []) : s.noneInFlight x :=
  fun _ _ => ⟨fun a ha => (by rw [hp] at ha; cases ha), fun q hq' => (by rw [hq] at hq'; cases hq')⟩

/-- WAITW of a word that equals slot C, and of one that does not: 0x100 holds 0. -/
def waitwForm (v : Nat) : Form := at0 { form with d := V 1, c := V v }

/-- The sync word at offset 64 of the scratchpad has GEN 6. -/
def labSync : State := { lab with mem := Memory.store lab.mem (Config.vaultBase + 64) (leBytes 8 0 ++ leBytes 4 6) }

/-- SWWAIT for a generation after 64, at the word whose GEN is 6. -/
def syncAhead : Form := atVault { form with d := V 1, b := I, imm := 64 }

/-- Whether the check of a lane's SWWAIT passes. -/
def syncPassesB (s : State) (f : Form) (a : Act) : Bool :=
  (s.argsOf (iss s) f (sigOf (.swwait f) f) a).any fun args =>
    match s.poisonChk true (s.vaultChk a.m.ref (vaultOff args) 16 (coreOf f.c args.c)) with | .ok _ => true | _ => false

theorem syncPasses_of {s f a} (h : syncPassesB s f a = true) : ∃ args, s.argsOf (iss s) f (sigOf (.swwait f) f) a = some args
    ∧ ∃ p, s.poisonChk true (s.vaultChk a.m.ref (vaultOff args) 16 (coreOf f.c args.c)) = .ok p := by
  obtain ⟨args, ha, h⟩ := some_of_any h
  split at h
  · exact ⟨args, ha, _, by assumption⟩
  · simp at h

theorem witness_HeldReads :
    (HeldGiven .waitw false waitwOutcome (waitwForm 8) lab ∧ HeldGiven .waitw false waitwOutcome (waitwForm 2) lab ∧ lab.noneInFlight (iss lab))
    ∧ (HeldGiven .swwait false swwaitOutcome (atVault { form with d := V 1, b := V 3 }) labSync ∧ labSync.noneInFlight (iss labSync))
    ∧ (HeldGiven .swwait false (fun _ _ _ _ _ => some (.inl [])) syncAhead labSync
      ∧ (∀ a ∈ labSync.actives (iss labSync) syncAhead, ∃ args, labSync.argsOf (iss labSync) syncAhead (sigOf (.swwait syncAhead) syncAhead) a = some args
        ∧ ∃ p, labSync.poisonChk true (labSync.vaultChk a.m.ref (vaultOff args) 16 (coreOf syncAhead.c args.c)) = .ok p)
      ∧ ∃ a ∈ labSync.actives (iss labSync) syncAhead,
        swwaitOutcome labSync syncAhead (iss labSync) (sigOf (.swwait syncAhead) syncAhead) a = none)
    ∧ HeldGiven .jwait true jwaitOutcome { form with d := V 1, a := J 0 } lab :=
  ⟨⟨held_of (by decide +kernel), held_of (by decide +kernel), noneInFlight_of (by decide +kernel) (by decide +kernel)⟩,
    ⟨held_of (by decide +kernel), noneInFlight_of (by decide +kernel) (by decide +kernel)⟩,
    ⟨held_of (by decide +kernel), fun a ha => syncPasses_of (List.all_eq_true.mp (by decide +kernel :
      (labSync.actives (iss labSync) syncAhead).all (syncPassesB labSync syncAhead) = true) a ha), by decide +kernel⟩, held_of (by decide +kernel)⟩

/-- A WAITW whose test holds gives the word, one whose test fails waits; SWWAIT gives GEN; JWAIT gives TARGET and counts. -/
theorem test_held :
    after (.waitw (waitwForm 8)) lab 1 = some 0
    ∧ ((match exec (.waitw (waitwForm 2)) lab with
        | .next t => (t.lane? ⟨0, 0, 0⟩).map fun l : Lane => match l.st with | .waiting _ => true | _ => false
        | _ => none) = some true)
    ∧ after (.swwait (atVault { form with d := V 1, b := V 3 })) labSync 1 = some 6
    ∧ after (.swwait syncAhead) labSync 1 = some 0
    ∧ ((match exec (.swwait syncAhead) labSync with
        | .next t => (t.holdOf (.home 0 0 0)).map fun h => match h with | .swwait _ n _ _ _ => n | _ => 0
        | _ => none) = some 0x104) := by decide +kernel

/-- The word at 0x100 of memory is 0x44332211. -/
def labWord : State := { lab with mem := Memory.store lab.mem 0x100 [0x11, 0x22, 0x33, 0x44] }

theorem test_ordered :
    uniAfter (.lds (at0 { form with d := U 6 })) labWord 6 = some 0x44332211
    ∧ predAfter (.lineProbe (at0 { form with d := P 1 })) lab 1 = some false
    ∧ predAfter (.lineProbe (at0 { form with d := P 1 })) (lab.addPoison 4) 1 = some true
    ∧ laneAfter (.fence { form with sc := .device }) lab = some (0x104, 0, 0)
    ∧ laneAfter (.pref (at0 form)) lab = some (0x104, 0, 0) := by decide +kernel

/-- A store of lane 0 in flight. -/
def storing : Access :=
  { seq := 7, ctx := 0, lane := ⟨0, 0, 0⟩, kind := .store [0xAA, 0xBB], phys := 0x100, size := 2, acq := false, rel := false, issue := 6
    dst := ⟨[], 0, false, none, []⟩, rows := [], reformed := none }

/-- The small machine with that store in flight. -/
def labStoring : State := { lab with pend := [storing], seq := 8 }

theorem witness_OrderedReads :
    (CanIssue (.lds (at0 { form with d := U 6 })) (at0 { form with d := U 6 }) true lab (iss lab)
      ∧ lab.actives (iss lab) (at0 { form with d := U 6 }) ≠ [] ∧ lab.noneInFlight (iss lab)
      ∧ lab.poisonChk true (lab.check 0 0 .r (ldsAddr lab (at0 { form with d := U 6 }) (iss lab)) 4) = .ok 0x100
      ∧ UniformOk lab (iss lab) 6 (loadWords 4 false (Memory.le lab.mem 0x100 4)))
    ∧ (CanIssue (.fence { form with sc := .device }) { form with sc := .device } false lab (iss lab)
      ∧ (∀ a ∈ lab.actives (iss lab) form, lab.quiet a.m.ref false = true))
    ∧ (CanIssue (.fence { form with sc := .device }) { form with sc := .device } false labStoring (iss labStoring)
      ∧ ∃ a ∈ labStoring.actives (iss labStoring) form, labStoring.quiet a.m.ref false = false)
    ∧ LanesGiven .lineProbe false (fun s _ x _ args => ∃ p, s.check x.core x.ctx .r (effAddr args.a args.b) 64 = .ok p)
        (at0 { form with d := P 1 }) lab
    ∧ LanesGiven .pref false noCondition (at0 form) lab ∧ LanesGiven .pref false noCondition (at0 { form with m2 := 1, imm := 0x100000 }) lab := by
  refine ⟨⟨canIssue_of (by decide +kernel), by decide +kernel, noneInFlight_of (by decide +kernel) (by decide +kernel),
      by decide +kernel, uniformOk_of (by decide +kernel)⟩, ⟨canIssue_of (by decide +kernel), by decide +kernel⟩,
    ⟨canIssue_of (by decide +kernel), by decide +kernel⟩,
    lanes_of (fun s _ x _ args => match s.check x.core x.ctx .r (effAddr args.a args.b) 64 with | .ok _ => true | _ => false) ?_
      (by decide +kernel),
    lanes_of _ (always fun _ _ _ _ _ => trivial) (by decide +kernel), lanes_of _ (always fun _ _ _ _ _ => trivial) (by decide +kernel)⟩
  intro s f x a args h
  split at h
  · exact ⟨_, by assumption⟩
  · simp at h

/-! ### Reforming -/

/-- A reformed group of lanes 0 and 1 in group slot 0, carrying v0 and v1. -/
def labReformed : State :=
  let g : Reformed :=
    { slot := 0, ctx := 0, dslot := 0, keyPc := 0x100, wbase0 := 0, pane := 0, pipe := 1
      lanes := [some ⟨0, 0, 0⟩, some ⟨0, 0, 1⟩] ++ List.replicate 30 none, groups := [⟨0, [0, 1], none, 0, 0, 0⟩], carried := 2
      rows := [row 0 fun _ => 0x111, row 1 fun _ => 0x222] }
  let s := lab.updCore 0 fun c => { c with groups := [g] }
  let s := s.updWarp 0 0 fun v =>
    { v with ring := v.ring.map (fun q => { q with lanes := [2, 3] })
             lanes := v.lanes.zipIdx.map fun e => if e.2 < 2 then { e.1 with reformed := some 0, carried := 2 } else e.1 }
  { s with cur := .group (.reformed 0 0 0) }

/-- REFORM carrying two registers files its lanes in a bin; REFORM.HOME brings two lanes back with theirs (R90, R93). -/
theorem test_reform :
    ((match exec (.reform { form with a := I, imm := 2 }) lab with
      | .next t => (t.core 0).bins.map fun b => (b.pc, b.lanes.map fun e => e.1.lane)
      | _ => []) = [(0x104, [0, 1, 2, 3])])
    ∧ ((match exec (.reformHome { form with m2 := 1 }) labReformed with
      | .next t => (t.lane? ⟨0, 0, 1⟩).map fun l : Lane => (l.reformed, rowRead (homeRows t ⟨0, 0, 1⟩) 1 1)
      | _ => none) = some (none, 0x222)) := by decide +kernel

theorem witness_Reforming :
    (LanesGiven .reform false noCondition { form with a := I, imm := 2 } lab ∧ (carriedRegs (iss lab) 2).any (rowBusy (lab.rowsOf (iss lab))) = false
      ∧ (lab.core 0).bins.length + (lab.actives (iss lab) form).length ≤ 16)
    ∧ LanesGiven .reformHome false (fun _ _ x _ _ => x.carried = none) { form with m2 := 1 } lab
    ∧ (iss labReformed).g = .reformed 0 0 0 ∧ (iss labReformed).carried = some (0, 2)
    ∧ ((List.range 2).map (0 + ·)).any (rowBusy (labReformed.rowsOf (iss labReformed))) = false
    ∧ LanesGiven .reformHome false (fun s _ _ a _ => a.lane.reformed = some 0 ∧ (s.wg? a.m.ref.wg).map Workgroup.core = some 0 ∧ a.m.ref.lane < 32
        ∧ ∃ v, s.warp? a.m.ref.wg a.m.ref.warp = some v ∧ RowsOk v.rows ∧ (∀ r ∈ v.rows, r.await = [])
          ∧ v.rows.length + a.lane.carried ≤ v.livemax ∧ v.privileged = false) { form with m2 := 1 } labReformed := by
  refine ⟨⟨lanes_of _ (always fun _ _ _ _ _ => trivial) (by decide +kernel), by decide +kernel, by decide +kernel⟩,
    lanes_of (fun _ _ x _ _ => x.carried.isNone) (fun _ _ _ _ _ h => Option.isNone_iff_eq_none.mp h) (by decide +kernel),
    by decide +kernel, by decide +kernel, by decide +kernel,
    lanes_of (fun s _ _ a _ => decide (a.lane.reformed = some 0 ∧ (s.wg? a.m.ref.wg).map Workgroup.core = some 0 ∧ a.m.ref.lane < 32)
      && (s.warp? a.m.ref.wg a.m.ref.warp).any fun v => decide ((v.rows.map Row.id).Nodup) && v.rows.all (fun r => r.vals.length = 32)
        && v.rows.all (fun r => r.await = []) && decide (v.rows.length + a.lane.carried ≤ v.livemax) && !v.privileged) ?_ (by decide +kernel)⟩
  intro s f x a args h
  simp only [Bool.and_eq_true, decide_eq_true_eq] at h
  obtain ⟨v, hv, h2⟩ := some_of_any h.2
  simp only [Bool.and_eq_true, decide_eq_true_eq, List.all_eq_true, Bool.not_eq_true'] at h2
  exact ⟨h.1.1, h.1.2.1, h.1.2.2, v, hv, ⟨h2.1.1.1.1, h2.1.1.1.2⟩, h2.1.1.2, h2.1.2, h2.2⟩

/-! ### Launches, images -/

/-- A launch header of one warp with its code at 0x10000 (R96): 64 bytes, then four roles of 16. -/
def headerBytes : List Byte :=
  leBytes 4 0x4F4C4831 ++ leBytes 4 0 ++ leBytes 4 2 ++ leBytes 4 1 ++ leBytes 4 1 ++ leBytes 2 1 ++ [0, 1]
    ++ leBytes 4 64 ++ [1, 1, 1, 0] ++ leBytes 8 0x10000 ++ leBytes 8 0 ++ leBytes 8 0 ++ leBytes 4 0 ++ leBytes 4 0
    ++ (leBytes 4 0x40 ++ [1, 16, 1, 0] ++ leBytes 8 0) ++ List.replicate 48 0

/-- An image of one template at index 0x040 (R157): 16 bytes of header, then IADD.I32. -/
def imageBytes : List Byte :=
  leBytes 4 0x4F444931 ++ leBytes 2 0x40 ++ leBytes 2 1 ++ leBytes 8 0
    ++ leBytes 16 (tpl 0x040 0 0 0 2 0 0 0 0x2800 0x3000 0x3800 0 0).toNat

/-- A header at 0x10100 and an image at 0x10200. -/
def labLaunch : State := { lab with mem := Memory.store (Memory.store lab.mem 0x100 headerBytes) 0x200 imageBytes }

def launchForm : Form := { form with ty := .n64, sc := .device, a := U 0, b := I, imm := 1 }

theorem test_launch :
    ((match exec (.launch launchForm) labLaunch with
      | .next t => (t.launches.getLast?.map fun l : Launch => (l.header.gx, l.header.codeVa.toNat, l.nextWg), (t.warp? 0 0).map fun v => v.ureg 57)
      | _ => (none, none)) = (some (2, 0x10000, 0), some 1)) := by decide +kernel

theorem witness_Launches : OnceGiven (.launch launchForm) launchForm true labLaunch ∧ labLaunch.noneInFlight (iss labLaunch)
    ∧ launchAddr labLaunch launchForm (iss labLaunch) = 0x10100 ∧ firstBad (labLaunch.headerChks (labLaunch.check 0 0) 0x10100) = none
    ∧ (Header.parse (labLaunch.bytesAt (labLaunch.headerChks (labLaunch.check 0 0) 0x10100))).dictVa = 0
    ∧ labLaunch.headersOk 0 (Header.parse (labLaunch.bytesAt (labLaunch.headerChks (labLaunch.check 0 0) 0x10100))) (labLaunch.imageChk (labLaunch.check 0 0) 0) = true
    ∧ ∃ v, labLaunch.warp? 0 0 = some v ∧ decide (cregCount (v.ureg 57) < 0x3FFFFFFF) = true :=
  ⟨once_of (by decide +kernel), noneInFlight_of (by decide +kernel) (by decide +kernel), by decide +kernel, by decide +kernel, by decide +kernel,
    by decide +kernel, some_of_any (by decide +kernel)⟩

/-- The same with the image's address in s0 and s1. -/
def labImage : State := labLaunch.updWarp 0 0 fun v => { v with uregs := setNth v.uregs 0 0x10200 }
def dictldForm : Form := { form with ty := .n64, a := I, imm := 1, b := U 0 }

theorem test_dictld :
    ((match exec (.dictld dictldForm) labImage with
      | .next t => ((t.core 0).jobs.map fun j : DictJob => (j.prog, j.first, j.count, j.lines), (t.slotOf 0 0 1).isSome)
      | _ => ([], false)) = ([(1, 0x40, 1, [0x210])], true)) := by decide +kernel

theorem witness_Dictionaries_load : OnceGiven (.dictld dictldForm) dictldForm true labImage ∧ labImage.noneInFlight (iss labImage)
    ∧ (labImage.onceValue (iss labImage) dictldForm (U 0) (sigOf (.dictld dictldForm) dictldForm).b).toNat = 0x10200
    ∧ firstBad [(0x10200, labImage.poisonChk true (labImage.check 0 0 .r 0x10200 16))] = none
    ∧ headerOk (Memory.bytes labImage.mem (labImage.check 0 0 .r 0x10200 16).phys 16) = some (0x40, 1)
    ∧ firstBad ((0x10200, labImage.check 0 0 .rx 0x10200 16) :: imageChks (labImage.check 0 0) 0x10200 1) = none
    ∧ (∃ c, labImage.ctx? 0 = some c ∧ decide (c.trapdict ≠ 1) = true) ∧ labImage.slotsFit 0 [(0, 1)] = true
    ∧ (labImage.warp? 0 0).isSome = true :=
  ⟨once_of (by decide +kernel), noneInFlight_of (by decide +kernel) (by decide +kernel), by decide +kernel, by decide +kernel, by decide +kernel,
    by decide +kernel, some_of_any (by decide +kernel), by decide +kernel, by decide +kernel⟩

/-! ### Barriers and convergence registers -/

/-- Barrier 1 of the workgroup. -/
def barForm : Form := { form with sc := .workgroup, a := I, imm := 1 }

theorem test_barrier :
    laneAfter (.bara barForm) lab = some (0x104, 0, 0) ∧ laneAfter (.barw barForm) lab = some (0x104, 0, 0)
    ∧ laneAfter (.bars barForm) lab = some (0x104, 0, 0)
    ∧ ((match exec (.bars { barForm with pg := 0, pgn := true }) (lab.updLane ⟨0, 0, 1⟩ fun l => { l with preds := 1 }) with
        | .next t => (List.range 2).map fun k => (t.lane? ⟨0, 0, k⟩).map Lane.st
        | _ => []) = [some (.waiting (.barrier 2 1)), some .issuing]) := by decide +kernel

theorem witness_Barriers :
    (∀ mk ∈ ([.bara, .barw, .bars] : List (Form → Instr)), CanIssue (mk barForm) barForm true lab (iss lab)) ∧ IssueOk lab (iss lab)
    ∧ (∀ a ∈ lab.actives (iss lab) barForm, lab.quiet a.m.ref false = true)
    ∧ ∃ g, lab.wg? 0 = some g ∧ (g.warps[0]?.any fun v => (lab.actives (iss lab) barForm).all fun a =>
        (arrivalFault (lab.barrier g 0 (barLevel .workgroup) 1) v a.lane (barLevel .workgroup) 1).isNone) = true :=
  ⟨fun mk hm => canIssue_of (List.all_eq_true.mp (by decide +kernel :
      ([.bara, .barw, .bars] : List (Form → Instr)).all (fun mk => canIssueB (mk barForm) barForm true lab) = true) mk hm),
    issueOk_of (by decide +kernel), by decide +kernel, some_of_any (by decide +kernel)⟩

/-- Convergence register 0 has a target of two quads. -/
def labConv : State := lab.updConv 0 0 fun c => { c with target := 2 }

def conv (s : State) : Option (Nat × Nat × Nat) := (s.conv? 0 0).map fun c => (c.target, c.signed, c.progress)

theorem test_convergence :
    ((match exec (.jset { form with d := J 0, a := I, imm := 8 }) lab with | .next t => conv t | _ => none) = some (2, 0, 0))
    ∧ ((match exec (.jsign { form with a := J 0 }) labConv with | .next t => conv t | _ => none) = some (2, 1, 0))
    ∧ ((match exec (.jsign { form with a := J 0 }) (lab.updConv 0 0 fun c => { c with target := 1 }) with | .next t => conv t | _ => none)
      = some (1, 0, 0)) := by decide +kernel

def mmaForm : Form := { form with ty := .f16x2, d := A 0, a := T 0, b := J 0 }

theorem witness_Convergence :
    OnceGiven (.jset { form with d := J 0, a := I, imm := 8 }) { form with d := J 0, a := I, imm := 8 } true lab
    ∧ jsetCount lab { form with d := J 0, a := I, imm := 8 } (iss lab) = 8 ∧ (∃ c, lab.conv? 0 0 = some c ∧ decide (c.signed = 0) = true)
    ∧ IssueOk labConv (iss labConv) ∧ labConv.actives (iss labConv) form ≠ []
    ∧ (∀ a ∈ labConv.actives (iss labConv) form, labConv.quiet a.m.ref false = true)
    ∧ CanIssue (.jsign { form with a := J 0 }) { form with a := J 0 } true labConv (iss labConv)
    ∧ CanIssue (.wload { mmaForm with d := .none }) { mmaForm with d := .none } true labConv (iss labConv)
    ∧ CanIssue (.mma mmaForm) mmaForm true labConv (iss labConv)
    ∧ CanIssue (.mmg { mmaForm with a := U 16 }) { mmaForm with a := U 16 } true labConv (iss labConv)
    ∧ ∃ c, labConv.conv? 0 0 = some c ∧ (maySign c (iss labConv) 0x144 { form with a := J 0 } [] false [0, 1, 2, 3]
        && maySign c (iss labConv) 0x160 { mmaForm with d := .none } [] false [0, 1, 2, 3]
        && maySign c (iss labConv) 0x161 mmaForm [] false [0, 1, 2, 3]
        && maySign c (iss labConv) 0x162 { mmaForm with a := U 16 } (List.replicate 16 0) true [0, 1, 2, 3]) = true :=
  ⟨once_of (by decide +kernel), by decide +kernel, some_of_any (by decide +kernel), issueOk_of (by decide +kernel), by decide +kernel,
    by decide +kernel, canIssue_of (by decide +kernel), canIssue_of (by decide +kernel), canIssue_of (by decide +kernel),
    canIssue_of (by decide +kernel), some_of_any (by decide +kernel)⟩

/-! ### Matrix instructions -/

/-- Accumulator 0 has 3.0 in element 32 of pane 0, tile 0 has byte 7 at index 65 and its side file 127 at 2. -/
def labMat : State := lab.updPane 0 0 fun p =>
  { p with accs := [[(32, 0x40400000)], []], tiles := [[(65, 7)], [], [], []], sides := [[(2, 127)], [], [], []] }

def aczForm : Form := { form with ty := .f32, d := A 0 }
def acrdForm : Form := { form with ty := .f32, d := V 1, a := A 0, b := I, imm := 1 }
def acwrForm : Form := { form with ty := .f32, d := A 1, a := V 7, b := I, imm := 2 }
/-- ACST of accumulator 0: its address, row distance and scale in s16 to s19. -/
def acstForm : Form := { form with ty := .f32, a := A 0, b := U 16 }
def labAcst : State := labMat.updWarp 0 0 fun v =>
  { v with uregs := setNth (setNth (setNth (setNth v.uregs 16 0x12000) 17 0) 18 128) 19 0x3F800000 }

theorem test_accumulators :
    ((match exec (.acz aczForm) labMat with | .next t => Cells.read ((t.pane 0 0).acc 0) 32 | _ => 9) = 0)
    ∧ after (.acrd acrdForm) labMat 1 = some 0x40400000 ∧ after (.acrd acrdForm) labMat 1 1 = some 0
    ∧ ((match exec (.acwr acwrForm) labMat with
      | .next t => (Cells.read ((t.pane 0 0).acc 1) 65, Cells.read ((t.pane 0 0).acc 1) 68)
      | _ => (9, 9)) = (0x3F800000, 0)) := by decide +kernel

theorem witness_Accumulators :
    (OnceGiven (.acz aczForm) aczForm true labMat ∧ matrixFree (fun f => [(.acc (slotNum f f.d), true)]) labMat aczForm (iss labMat))
    ∧ (OnceGiven (.acwr acwrForm) acwrForm true labMat ∧ matrixFree (fun f => [(.acc (slotNum f f.d), true)]) labMat acwrForm (iss labMat)
      ∧ accRowOf (labMat.env (iss labMat)) (iss labMat) acwrForm (sigOf (.acwr acwrForm) acwrForm) (labMat.actives (iss labMat) acwrForm) < 64
      ∧ ∀ a ∈ labMat.actives (iss labMat) acwrForm,
        ((labMat.env (iss labMat)).slot acwrForm 0 a.m.pos acwrForm.a (sigOf (.acwr acwrForm) acwrForm).a).isSome)
    ∧ (VectorGiven .acrd true acrdValue acrdForm labMat ∧ labMat.actives (iss labMat) acrdForm ≠ []
      ∧ matrixFree (fun f => [(.acc (slotNum f f.a), false)]) labMat acrdForm (iss labMat))
    ∧ OnceGiven (.acst acstForm) acstForm true labAcst ∧ matrixFree (fun f => [(.acc (slotNum f f.a), false)]) labAcst acstForm (iss labAcst)
    ∧ (joinWords (acstWords labAcst acstForm (iss labAcst))).toNat % 128 = 0 ∧ ((acstWords labAcst acstForm (iss labAcst)).getD 2 0).toNat % 128 = 0
    ∧ firstBad (acstChecks labAcst acstForm (iss labAcst)) = none :=
  ⟨⟨once_of (by decide +kernel), (by decide +kernel : labMat.matStalls _ _ = false)⟩,
    ⟨once_of (by decide +kernel), (by decide +kernel : labMat.matStalls _ _ = false), by decide +kernel, by decide +kernel⟩,
    ⟨vector_of (by decide +kernel), by decide +kernel, (by decide +kernel : labMat.matStalls _ _ = false)⟩,
    once_of (by decide +kernel), (by decide +kernel : labAcst.matStalls _ _ = false), by decide +kernel, by decide +kernel, by decide +kernel⟩

/-- No element of ACST raises a flag whose trap is enabled. -/
theorem witness_Accumulators_flags : labAcst.fpTrap (acstFlags labAcst acstForm (iss labAcst)) = none := by decide +kernel

def tmovForm : Form := { form with d := T 1, a := T 0 }
def tsclForm : Form := { form with d := T 0, a := I, imm := 1, m2 := 1 }
def tcvtForm : Form := { form with ty := .bf16x2, m2 := 1, d := T 1, a := T 0 }
def tldtForm : Form := { form with d := T 2, a := U 0, b := I, imm := 64 }
def tsttForm : Form := { form with a := T 0, b := U 0, c := I, imm := 64 }

/-- A store of the tile instruction TSTT: 64 bytes of row 1, and nothing of other rows. -/
theorem test_tiles :
    ((match exec (.tmov tmovForm) labMat with
      | .next t => (Cells.read ((t.pane 0 0).tile 1) 65, Cells.read ((t.pane 0 0).side 1) 2)
      | _ => (0, 0)) = (7, 127))
    ∧ ((match exec (.tscl { tsclForm with m2 := 0 }) labMat with | .next t => Cells.read ((t.pane 0 0).side 0) 63 | _ => 0) = 1)
    ∧ ((match exec (.tldt tldtForm) labWord with | .next t => Cells.read ((t.pane 0 0).tile 2) 1 | _ => 0) = 0x22)
    ∧ ((match exec (.tstt tsttForm) labMat with
      | .next t => (t.pend.filter fun a => a.phys = 0x140).map fun a =>
          match a.kind with | .store bs => (bs.length, bs.getD 1 0) | _ => (0, 0)
      | _ => []) = [(64, 7)]) := by decide +kernel

theorem witness_Tiles :
    (OnceGiven (.tmov tmovForm) tmovForm true labMat
      ∧ matrixFree (fun f => [(.tile (slotNum f f.d), true), (.tile (slotNum f f.a), false)]) labMat tmovForm (iss labMat))
    ∧ (OnceGiven (.tscl tsclForm) tsclForm true labMat ∧ matrixFree (fun f => [(.tile (slotNum f f.d), true)]) labMat tsclForm (iss labMat)
      ∧ ∀ i, i < 64 → 0 ≤ tsclCode labMat tsclForm (iss labMat) i ∧ tsclCode labMat tsclForm (iss labMat) i ≤ 254)
    ∧ (OnceGiven (.tldt tldtForm) tldtForm true labMat ∧ matrixFree (fun f => [(.tile (slotNum f f.d), true)]) labMat tldtForm (iss labMat)
      ∧ labMat.noneInFlight (iss labMat) ∧ tileBase Form.a Sig.a .tldt labMat tldtForm (iss labMat) % 64 = 0
      ∧ firstBad ((tldtChecks labMat tldtForm (iss labMat)).1 ++ (tldtChecks labMat tldtForm (iss labMat)).2.toList) = none)
    ∧ OnceGiven (.tstt tsttForm) tsttForm true labMat ∧ matrixFree (fun f => [(.tile (slotNum f f.a), false)]) labMat tsttForm (iss labMat)
      ∧ tileBase Form.b Sig.b .tstt labMat tsttForm (iss labMat) % 64 = 0
      ∧ firstBad ((tsttRows labMat tsttForm (iss labMat)).map Prod.fst) = none :=
  ⟨⟨once_of (by decide +kernel), (by decide +kernel : labMat.matStalls _ _ = false)⟩,
    ⟨once_of (by decide +kernel), (by decide +kernel : labMat.matStalls _ _ = false), by decide +kernel⟩,
    ⟨once_of (by decide +kernel), (by decide +kernel : labMat.matStalls _ _ = false), noneInFlight_of (by decide +kernel) (by decide +kernel),
      by decide +kernel, by decide +kernel⟩,
    once_of (by decide +kernel), (by decide +kernel : labMat.matStalls _ _ = false), by decide +kernel, by decide +kernel⟩

theorem witness_Tiles_conversion : OnceGiven (.tcvt tcvtForm) tcvtForm true labMat
    ∧ matrixFree (fun f => [(.tile (slotNum f f.d), true), (.tile (slotNum f f.a), false)]) labMat tcvtForm (iss labMat)
    ∧ (∀ r, r < 64 → tcvtScale labMat tcvtForm (iss labMat) r ≠ 255) ∧ labMat.fpTrap (tcvtFlags labMat tcvtForm (iss labMat)) = none :=
  ⟨once_of (by decide +kernel), (by decide +kernel : labMat.matStalls _ _ = false), by decide +kernel, by decide +kernel⟩

theorem witness_TileRules : (OnceGiven (.tmov tmovForm) tmovForm true labMat ∧ OnceGiven (.acz aczForm) aczForm true labMat)
    ∧ ∃ g, labMat.wg? 0 = some g ∧ (g.panes[0]?.any fun p => decide (slotNum tmovForm tmovForm.d < p.tiles.length)
        && decide (slotNum tmovForm tmovForm.d < p.sides.length)) = true :=
  ⟨⟨once_of (by decide +kernel), once_of (by decide +kernel)⟩, some_of_any (by decide +kernel)⟩

/-- A full round of an operation, signed by lanes 0 to 3 of each warp of a workgroup. -/
def labRound (f : Form) (mop : Nat) (warps : List Nat) : State :=
  let s := labMat.updWg 0 fun g =>
    let v := (g.warps.head?).getD (Warp.atLaunch 0 32 ⟨0, 0⟩ 0 0 0 0)
    let lane (l : Lane) : Lane := if l.st = .exited then l else { l with st := .waiting (.signed 0), npc := 0x104 }
    { g with warps := warps.map fun n => { v with pane := n, lanes := v.lanes.map lane } }
  let who := (List.range warps.length).flatMap fun w => (List.range 4).map fun l => (w, l)
  let s := s.updConv 0 0 fun c =>
    { c with target := warps.length, signed := warps.length, round := some f, mop := mop, signers := who, filled := 1 }
  { s with cur := .none }

/-- `RoundReady`, and what else a round's operation needs, computed. -/
theorem round_of {s : State} {wg j : Nat} {extra : Workgroup → ConvReg → Form → Bool}
    (h : ((s.wg? wg).any fun g => (s.conv? wg j).any fun c => c.round.any fun f => decide (c.filled ≠ 0) && !c.ran
      && (c.lanes wg).all (fun r => (s.waitsOf r).any (fun w => decide (w.2 = .signed j) && (!c.stopped || !s.held w.1)) && s.quiet r false)
      && g.resident
      && !g.matBusy (c.panes g) c.uses c.filled && extra g c f) = true) :
    ∃ g c f, RoundReady s wg j g c f ∧ extra g c f = true := by
  obtain ⟨g, hg, h⟩ := some_of_any h
  obtain ⟨c, hc, h⟩ := some_of_any h
  obtain ⟨f, hf, h⟩ := some_of_any h
  simp only [Bool.and_eq_true, decide_eq_true_eq, Bool.not_eq_true', List.all_eq_true] at h
  refine ⟨g, c, f, ⟨hg, hc, hf, h.1.1.1.1.1, h.1.1.1.1.2, fun r hr => ?_, h.1.1.2, h.1.2, fun r hr => (h.1.1.1.2 r hr).2⟩, h.2⟩
  obtain ⟨w, hw, h2⟩ := List.any_eq_true.mp (h.1.1.1.2 r hr).1
  simp only [Bool.and_eq_true, decide_eq_true_eq, Bool.or_eq_true, Bool.not_eq_true'] at h2
  exact ⟨w, hw, h2⟩

def wloadForm : Form := { mmaForm with d := .none }
/-- Weights of 0 on every pane. -/
def labMma : State := (labRound mmaForm 0x161 [0]).updWg 0 fun g =>
  { g with panes := g.panes.map fun p : PaneState => { p with weights := some ⟨.f16x2, [], []⟩ } }

theorem witness_Rounds :
    (∃ g c f, RoundReady (labRound wloadForm 0x160 [0, 1, 2, 3]) 0 0 g c f ∧ (decide (c.mop = 0x160)
      && (List.range 4).all (fun p => (c.signers.filterMap fun q => (g.warps[q.1]?).map Warp.pane).contains p)
      && (wloadWeights f.ty g.panes (slotNum f f.a)).isSome) = true)
    ∧ (∃ g c f, RoundReady labMma 0 0 g c f ∧ (decide (c.mop = 0x161)
      && (c.panes g).all fun n => g.panes[n]?.all fun p => formatsMatch f.ty p.weights) = true)
    ∧ ∃ c, ((labRound mmaForm 0x161 [0]).updConv 0 0 fun c => { c with ran := true }).conv? 0 0 = some c
      ∧ (decide (c.filled ≠ 0) && c.ran) = true :=
  ⟨round_of (by decide +kernel), round_of (by decide +kernel), some_of_any (by decide +kernel)⟩

/-- WLOAD latches weights and MMA accumulates once; the register is idle again and its signers go on (R95, R357, R358). -/
theorem test_rounds :
    ((match exec (.convergenceOpComplete 0 0) (labRound wloadForm 0x160 [0, 1, 2, 3]) with
      | .next t => (conv t, (t.pane 0 2).weights.isSome, (t.lane? ⟨0, 1, 3⟩).map fun l : Lane => (l.st, l.pc))
      | _ => (none, false, none)) = (some (4, 0, 0), true, some (.issuing, 0x104)))
    ∧ ((match exec (.convergenceOpComplete 0 0) labMma with
      | .next t => (conv t, Cells.read ((t.pane 0 0).acc 0) 32)
      | _ => (none, 0)) = (some (1, 0, 0), 0x40400000)) := by decide +kernel

/-! ### Objects and targets -/

/-- A method of one word: EXIT for a target, or one that reads nothing. -/
def exitMethod (flag : Bool) : Method := { flag := flag, code := [0x00400000], dict := [], rejected := 0 }

/-- Target 1 of 2 by 2 pixels with one sample of one channel, with a fragment open at (1, 0) for command 9. -/
def target1 : Target :=
  { index := 1, w := 2, h := 2, samples := 1, fmts := [0], consts := [], methods := [exitMethod true], pix := [], nextpsn := 5, faults := 0
    damaged := [], order := [9], frags := [⟨20, 9, 4, 1, 0, 1, .opened⟩], vaults := [(0, 7, 8192)], dead := false }

/-- A replayed object whose method 0 is a WRITE method and method 1 a READ method, its log at 0x40000 of HBM stacks 0 and 1, its
replicas at offset 4096 of the first vault of each die. -/
def object1 : ReplayObj :=
  { kind := 2, index := 1, statelen := 64, logk := 8, home := 0, methods := [exitMethod true, exitMethod false], tail := 6, trim := 6
    logAt := [0x40000, Config.hbmSpan + 0x40000]
    replicas := (List.range 4).map fun d => { applied := 6, fenced := false, ignored := false, rets := [], vault := 512 * d, off := 4096 }
    awaitTrim := false, lost := false, dead := false }

/-- The pixel a lane shades. -/
def pixel1 : Pixel :=
  { cmd := 9, target := 0x10000001, psn := 4, xy := 1, bary0 := 0, bary1 := 0, mask := 1, helper := false, posted := false }

/-- The target and the object in the context; lane 0 alone has p0, and shades the pixel. s20 to s23 name the object and a
method of it. -/
def labObj : State :=
  let s := lab.updCtx 0 fun c => { c with targets := [target1], objects := [object1] }
  let s := s.updWarp 0 0 fun v => { v with uregs := setNth (setNth (setNth (setNth v.uregs 20 0x20000001) 21 0) 22 0x20000001) 23 1 }
  s.updLane ⟨0, 0, 0⟩ fun l => { l with preds := 1, pixel := some pixel1 }

/-- Lane 0 posts by method 0: coverage in slot B, values v12 to v15. -/
def postForm : Form := { form with pg := 0, a := V 12, b := V 3, c := H .fb }
def ocallForm : Form := { form with pg := 0, d := V 20, a := V 24, b := U 20, c := P 1 }
def oreadForm : Form := { form with d := V 20, a := V 24, b := U 22, c := P 1 }
/-- TSAMP of the coordinates in v8 and v9, which are 0: pixel (0, 0), sample 0. -/
def tsampForm : Form := { form with d := V 20, a := V 8, b := I, imm := 0x10000001, m2 := 1, c := P 1 }
def ostatForm (k : BitVec 2) (h : Word) : Form := { form with d := V 1, a := I, imm := h, m2 := k }

/-- What a lane of `labObj` has after an instruction, and the object's tail and log. -/
theorem test_objects :
    ((match exec (.post postForm) labObj with
      | .next t => ((t.lane? ⟨0, 0, 0⟩).bind Lane.pixel).map Pixel.posted
      | _ => none) = some true)
    ∧ ((match exec (.ocall ocallForm) labObj with
      | .next t => (t.object? 0 0x20000001).map fun o => (o.tail, (t.entry? o 7).map fun e => (e.method, e.die))
      | _ => none) = some (7, some (0, 0)))
    ∧ after (.oread oreadForm) labObj 21 = some 6
    ∧ predAfter (.tsamp tsampForm) (lab.updCtx 0 fun c => { c with targets := [target1] }) 1 = some false := by decide +kernel

theorem test_ostat : same [
    (after (.ostat (ostatForm 0 0x10000001)) labObj 1, some 5), (after (.ostat (ostatForm 2 0x10000001)) labObj 1, some 0)
  , (after (.ostat (ostatForm 0 0x20000001)) labObj 1, some 6), (after (.ostat (ostatForm 3 0x20000001)) labObj 1, some (8 * 2048))
  ] = true := by decide +kernel

theorem witness_Posts : CanIssue (.post postForm) postForm false labObj (iss labObj) ∧ IssueOk labObj (iss labObj)
    ∧ labObj.actives (iss labObj) postForm ≠ []
    ∧ (labObj.actives (iss labObj) postForm).all (fun a =>
        (labObj.argsOf (iss labObj) postForm (sigOf (.post postForm) postForm) a).isSome
          && (a.lane.helper || a.lane.pixel.any fun p => !p.posted && (labObj.target? 0 p.target).any fun t =>
            decide ((postForm.slotImm postForm.c).toNat < t.methods.length))) = true
    ∧ (labObj.actives (iss labObj) postForm).length = 1 :=
  ⟨canIssue_of (by decide +kernel), issueOk_of (by decide +kernel), by decide +kernel, by decide +kernel, by decide +kernel⟩

/-- `CallOk`, computed. -/
def callOkB (s : State) (f : Form) : Bool :=
  let x := iss s
  canIssueB (.ocall f) f true s && issueOkB s && !(s.actives x f).isEmpty
    && (s.actives x f).all (fun a => !a.lane.helper && s.quiet a.m.ref false) && decide (f.d.cls = .vector)
    && (callFault s x.ctx (dieOf x.core) (objectOf .ocall s f x).1 (objectOf .ocall s f x).2).isNone
    && destOkB s f (sigOf (.ocall f) f) (s.actives x f).length

theorem callOk_of {s f o} (h : callOkB s f = true) (ho : s.object? (iss s).ctx (objectOf .ocall s f (iss s)).1 = some o) :
    CallOk f s (iss s) o := by
  simp only [callOkB, Bool.and_eq_true, Bool.not_eq_true', List.isEmpty_eq_false_iff, List.all_eq_true, decide_eq_true_eq,
    Option.isNone_iff_eq_none] at h
  exact ⟨canIssue_of h.1.1.1.1.1.1, issueOk_of h.1.1.1.1.1.2, h.1.1.1.1.2, fun a ha => (h.1.1.1.2 a ha).1, h.1.1.2, ho, h.1.2,
    fun a ha => (h.1.1.1.2 a ha).2, destOk_of h.2⟩

/-- The hypotheses of `HeldPredCompletes` without its own condition. -/
def HeldPredGiven (mk : Form → Instr) (forbidden : Bool) (val : PredHeld) (f : Form) (s : State) : Prop :=
  CanIssue (mk f) f forbidden s (iss s) ∧ IssueOk s (iss s) ∧ f.d.cls = .vector
    ∧ (∀ a ∈ s.actives (iss s) f, (val s f (iss s) a).isSome) ∧ DestOk s (iss s) f (sigOf (mk f) f) (s.actives (iss s) f).length

theorem heldPred_of {mk b val f s} (h : (canIssueB (mk f) f b s && issueOkB s && decide (f.d.cls = .vector)
    && (s.actives (iss s) f).all (fun a => (val s f (iss s) a).isSome)
    && destOkB s f (sigOf (mk f) f) (s.actives (iss s) f).length) = true) : HeldPredGiven mk b val f s := by
  simp only [Bool.and_eq_true, decide_eq_true_eq, List.all_eq_true] at h
  exact ⟨canIssue_of h.1.1.1.1, issueOk_of h.1.1.1.2, h.1.1.2, h.1.2, destOk_of h.2⟩

/-- The object with its log full; its replicas behind its tail; the target with a fragment pending at (0, 0), and read in the order;
and every lane a helper. -/
def labFull : State := labObj.updObject 0 0x20000001 fun o => { o with trim := o.tail - 256 }
def labBehind : State := (labObj.updObject 0 0x20000001 fun o => { o with tail := 9 }).updWarp 0 0 fun v =>
  { v with rows := v.rows ++ [row 21 fun _ => 0xFFFFFFFF] }
def labPending : State := labObj.updTarget 0 1 fun t => { t with frags := t.frags.map fun f => { f with x := 0 } }
def labHelpers : State := labObj.updLanes (List.range 4 |>.map fun k => ⟨0, 0, k⟩) fun l =>
  { l with pixel := some { pixel1 with helper := true } }
/-- TSAMP.SETTLED by the lanes that shade nothing. -/
def settledForm : Form := { tsampForm with m2 := 0, c := .none, pg := 0, pgn := true }

/-- A call appends with room and waits for room without; OREAD and TSAMP.SETTLED have their results, or wait; helper lanes take 0. -/
theorem witness_ObjectAccess :
    (∃ o, CallOk ocallForm labObj (iss labObj) o
      ∧ (List.range (labObj.actives (iss labObj) ocallForm).length).all (fun n => decide ((posAfter o.tail n - o.trim).toNat < 2 ^ o.logk)) = true)
    ∧ (∃ o, CallOk ocallForm labFull (iss labFull) o ∧ (o.full && !labFull.hostMode 0 1) = true)
    ∧ (∀ s ∈ [labObj, labBehind], HeldPredGiven .oread true oreadValue oreadForm s
      ∧ (∀ a ∈ s.actives (iss s) oreadForm, s.acquiring a.m.ref = false)
      ∧ rowBusy (s.rowsOf (iss s)) (vecReg oreadForm 0 oreadForm.d + 1) = false
      ∧ oreadFault s 0 (dieOf 0) (objectOf .oread s oreadForm (iss s)).1 (objectOf .oread s oreadForm (iss s)).2 = none)
    ∧ HeldPredGiven .tsamp false tsampValue tsampForm labObj
    ∧ (∀ s ∈ [labObj, labPending], HeldPredGiven .tsamp false tsampValue settledForm s)
    ∧ HeldPredGiven .ocall true (fun _ _ _ _ => some (.inl ([0, 0], false))) ocallForm labHelpers
    ∧ ∀ a ∈ labHelpers.actives (iss labHelpers) ocallForm, a.lane.helper = true := by
  have call (s : State) (p : ReplayObj → Bool) (h : callOkB s ocallForm = true)
      (ho : (s.object? (iss s).ctx (objectOf .ocall s ocallForm (iss s)).1).any p = true) : ∃ o, CallOk ocallForm s (iss s) o ∧ p o = true := by
    obtain ⟨o, h1, h2⟩ := some_of_any ho
    exact ⟨o, callOk_of h h1, h2⟩
  refine ⟨call labObj _ (by decide +kernel) (by decide +kernel), call labFull _ (by decide +kernel) (by decide +kernel), fun s hs => ?_,
    heldPred_of (by decide +kernel), fun s hs => ?_, heldPred_of (by decide +kernel), by decide +kernel⟩
  · rcases List.mem_pair.mp hs with rfl | rfl <;>
      exact ⟨heldPred_of (by decide +kernel), by decide +kernel, by decide +kernel, by decide +kernel⟩
  · rcases List.mem_pair.mp hs with rfl | rfl <;> exact heldPred_of (by decide +kernel)

/-- In `labBehind` the lanes of OREAD wait, and in `labPending` those of TSAMP.SETTLED. -/
theorem test_objectWaits :
    (labBehind.actives (iss labBehind) oreadForm).map (fun a => ((oreadValue labBehind oreadForm (iss labBehind) a).any Sum.isRight))
      = List.replicate 4 true
    ∧ (labPending.actives (iss labPending) settledForm).map (fun a => ((tsampValue labPending settledForm (iss labPending) a).any Sum.isRight))
      = List.replicate 3 true := by decide +kernel

/-! ### Method invocations -/

/-- An invocation on a target of one sample and one channel, whose argument 3 is 77; its v2 is 11 and v3 is 3. -/
def invocation : Invocation :=
  let v := Invocation.start 1 1 [0] (leBytes 4 0x55) false (exitMethod true) [] [] 0 ([0, 1, 2, 77] ++ List.replicate 12 0)
  { v with regs := setNth (setNth v.regs 2 11) 3 3 }
def labMethod : State := { lab with cur := .method invocation }

def methodReadsB (mk : Form → Instr) (s : State) (f : Form) (v : Invocation) : Bool :=
  s.cur = .method v && (decodeFault (mk f) f methodLimits).isNone && v.guard f && (v.args? f (sigOf (mk f) f)).isSome

theorem methodReads_of {mk s f v} (h : methodReadsB mk s f v = true) : ∃ x, MethodReads mk s f v x := by
  simp only [methodReadsB, Bool.and_eq_true, decide_eq_true_eq, Option.isNone_iff_eq_none] at h
  obtain ⟨x, hx⟩ := Option.isSome_iff_exists.mp h.2
  exact ⟨x, h.1.1.1, h.1.1.2, h.1.2, hx⟩

def sldForm : Form := { form with d := V 1, a := I, imm := 0x100 }
def sstForm : Form := { form with a := I, imm := 0x100, b := V 2 }
def margForm : Form := { form with d := V 1, a := I, imm := 3 }
def mretForm : Form := { form with a := V 2 }
def mtrapForm : Form := { form with a := I, imm := 9 }

/-- The invocation after an instruction. -/
def inMethod (i : Instr) : Option Invocation :=
  match exec i labMethod with
  | .next t => match t.cur with
    | .method v => some v
    | _ => none
  | _ => none

/-- v1 and PC of the invocation after an instruction. -/
theorem test_method : same [
    ((inMethod (.iadd (two .i32 2 3))).map fun v => (v.reg 1, v.pc), some (14, 4))
  , ((inMethod (.sld sldForm)).map fun v => (v.reg 1, v.pc), some (0, 4))
  , ((inMethod (.sld { sldForm with imm := 0 })).map fun v => (v.reg 1, v.pc), some (0x55, 4))
  , ((inMethod (.marg margForm)).map fun v => (v.reg 1, v.pc), some (77, 4))
  , ((inMethod (.bra { form with a := I, imm := 2 })).map fun v => (v.reg 1, v.pc), some (0, 12))] = true := by decide +kernel

/-- The writes and the end of the invocation after an instruction. -/
theorem test_methodEnds : (inMethod (.sst sstForm)).map Invocation.writes = some [(0x100, 11)]
    ∧ same [((inMethod (.mret mretForm)).map Invocation.ended, some (some (0, 11)))
      , ((inMethod (.mtrap mtrapForm)).map Invocation.ended, some (some (1, 9)))
      , ((inMethod (.exit form)).map Invocation.ended, some (some (0, 0)))] = true := by decide +kernel

/-- Forms for `methodOps`. -/
def methodForms : List Form := integerForms ++ floatForms.dropLast ++ predicateForms ++ [cvtForm .rne]

/-- `RowsOk`, of rows whose numbers and lengths are computed. -/
theorem rowsOk_of {rows : List Row} (h : (decide (rows.map Row.id).Nodup && rows.all fun r => r.vals.length = 32) = true) : RowsOk rows := by
  simp only [Bool.and_eq_true, decide_eq_true_eq, List.all_eq_true] at h
  exact h

theorem witness_Methods :
    methodOps.length = methodForms.length ∧ (∀ p ∈ methodOps.zip methodForms, ∃ x, MethodReads p.1.1 labMethod p.2 invocation x)
    ∧ (∃ x, MethodReads .sld labMethod sldForm invocation x) ∧ (∃ w, invocation.load 0x100 = .inl w)
    ∧ (∃ x, MethodReads .marg labMethod margForm invocation x)
    ∧ ((∃ x, MethodReads .sst labMethod sstForm invocation x) ∧ invocation.storeFault 0x100 = none)
    ∧ (∃ x, MethodReads .mret labMethod mretForm invocation x) ∧ (∃ x, MethodReads .mtrap labMethod mtrapForm invocation x)
    ∧ (∃ x, MethodReads .exit labMethod form invocation x) ∧ (∃ x, MethodReads .nop labMethod form invocation x) ∧ (∃ x, MethodReads .bra labMethod { form with a := I, imm := 2 } invocation x)
    ∧ ∃ x, MethodReads .braUniform labMethod { form with dix := 6, hint := .uniform, immsrc := .faFb, a := I } invocation x :=
  ⟨by decide +kernel, fun p hp => methodReads_of (List.all_eq_true.mp (by decide +kernel :
      (methodOps.zip methodForms).all (fun p => methodReadsB p.1.1 labMethod p.2 invocation) = true) p hp),
    methodReads_of (by decide +kernel), ⟨_, rfl⟩, methodReads_of (by decide +kernel), ⟨methodReads_of (by decide +kernel), by decide +kernel⟩,
    methodReads_of (by decide +kernel), methodReads_of (by decide +kernel), methodReads_of (by decide +kernel),
    methodReads_of (by decide +kernel), methodReads_of (by decide +kernel), methodReads_of (by decide +kernel)⟩

/-- A form whose guard is false in the invocation, one that reads an empty latch, and offsets that SLD and SST may not name. -/
theorem witness_Methods_edges :
    (methodForms.zip methodOps).all (fun p => (decodeFault (p.2.1 { p.1 with pg := 0 }) { p.1 with pg := 0 } methodLimits).isNone
      && !invocation.guard { p.1 with pg := 0 }) = true
    ∧ ([(sldForm, Instr.sld), (sstForm, .sst), (margForm, .marg), (mretForm, .mret), (mtrapForm, .mtrap)].all fun p =>
      (decodeFault (p.2 { p.1 with pg := 0 }) { p.1 with pg := 0 } methodLimits).isNone && !invocation.guard { p.1 with pg := 0 }) = true
    ∧ ([(mretForm, Instr.mret), (one .b32 2, .mov)].all fun p => (decodeFault (p.2 { p.1 with a := V 0x200 }) { p.1 with a := V 0x200 } methodLimits).isNone
      && invocation.guard { p.1 with a := V 0x200 } && (invocation.args? { p.1 with a := V 0x200 } (sigOf (p.2 p.1) p.1)).isNone) = true
    ∧ (∃ x, MethodReads .sld labMethod { sldForm with imm := 2 } invocation x) ∧ (∃ c, invocation.load 2 = .inr c)
    ∧ (∃ x, MethodReads .sst labMethod { sstForm with imm := 2 } invocation x) ∧ (invocation.storeFault 2).isSome = true :=
  ⟨by decide +kernel, by decide +kernel, by decide +kernel, methodReads_of (by decide +kernel), ⟨_, rfl⟩, methodReads_of (by decide +kernel),
    by decide +kernel⟩

/-! ### Privileged instructions -/

/-- Privileged code of context 0, with a context 5 that is resident or not. -/
def labTwo (resident : Bool) : State :=
  { labPriv with contexts := labPriv.contexts ++ [{ Context.created 5 0 with resident := resident }] }

/-- CTXSV and CTXRS of context 5 with the area 0 and completion register 1. -/
def saveForm : Form := { form with ty := .n64, a := U 2, b := U 4, c := I, imm := 1 }
def tlbiForm (m : BitVec 2) : Form :=
  if m = 0 then { form with ty := .n64, a := U 2, b := U 4, c := I, imm := 1 } else { form with ty := .n64, m2 := m, a := U 2 }
def dictrdForm : Form := { form with d := V 12, a := I, imm := 0x00A }
def lanexForm : Form := { form with d := V 1, a := I, imm := 8, b := H .fb }
def parkrForm : Form := { form with d := P 1, a := I, imm := 0 }

/-- A record of die 0 to which no lane is attached. -/
def labRecord : State := { labPriv with records := [⟨0, 0, 0, 0x100000, []⟩] }

theorem test_privileged :
    ((match exec (.ctxsv saveForm) (labTwo true) with
      | .next t => ((t.ctx? 5).map fun c : Context => (c.preq, c.resident), (t.warp? 0 0).map fun v => v.ureg 57)
      | _ => (none, none)) = (some (true, true), some 1))
    ∧ ((match exec (.ctxrs saveForm) (labTwo false) with
      | .next t => (t.ctx? 5).map fun c : Context => (c.preq, c.resident)
      | _ => none) = some (false, true))
    ∧ ((match exec (.tlbi (tlbiForm 1)) (labTwo true) with
      | .next t => t.changes.map fun k => (k.ctx, k.base, k.size)
      | _ => []) = [(some 5, 0, 2 ^ 52)])
    ∧ after (.dictrd dictrdForm) labPriv 15 = some 0x15C0002E ∧ after (.dictrd dictrdForm) labPriv 14 = some 0x2800E000
    ∧ after (.lanex lanexForm) (labPriv.updLane ⟨0, 0, 1⟩ fun l => { l with side := ⟨0x41, 1, false, 0xABC⟩ }) 1
      = some (BitVec.ofNat 32 (0x41 + 0x100 + 0xABC * 2 ^ 12))
    ∧ predAfter (.parkr parkrForm) labRecord 1 = some true ∧ predAfter (.parkr parkrForm) labPriv 1 = some false
    ∧ causeAfter (.parkr parkrForm) labTable = some 0x22 := by decide +kernel

theorem witness_Privileged :
    (OnceGiven (.ctxsv saveForm) saveForm true (labTwo true) ∧ onceNat Form.a Sig.a .ctxsv (labTwo true) saveForm (iss (labTwo true)) = 5
      ∧ (labTwo true).saveCause (iss (labTwo true)) 5 0 1 true = none
      ∧ (labTwo true).onceValue (iss (labTwo true)) saveForm (U 4) (sigOf (.ctxsv saveForm) saveForm).b = 0
      ∧ (∀ a ∈ (labTwo true).actives (iss (labTwo true)) saveForm, (labTwo true).quiet a.m.ref false = true)
      ∧ ((labTwo true).warp? 0 0).isSome = true ∧ ((labTwo true).ctx? 5).isSome = true)
    ∧ (OnceGiven (.ctxrs saveForm) saveForm true (labTwo false) ∧ (labTwo false).saveCause (iss (labTwo false)) 5 0 1 false = none)
    ∧ (OnceGiven (.tlbi (tlbiForm 1)) (tlbiForm 1) true labPriv ∧ tlbiTarget labPriv (tlbiForm 1) (iss labPriv) = none)
    ∧ (OnceGiven (.tlbi (tlbiForm 0)) (tlbiForm 0) true (labTwo true)
      ∧ tlbiTarget (labTwo true) (tlbiForm 0) (iss (labTwo true)) = some (some 5, 0, 65536)
      ∧ ((labTwo true).onceValue (iss (labTwo true)) (tlbiForm 0) (tlbiForm 0).b (sigOf (.tlbi (tlbiForm 0)) (tlbiForm 0)).b).toNat % 65536 = 0)
    ∧ (CanIssue (.dictrd dictrdForm) dictrdForm true labPriv (iss labPriv) ∧ IssueOk labPriv (iss labPriv)
      ∧ (wordsValue dictrdWords labPriv dictrdForm (iss labPriv) (sigOf (.dictrd dictrdForm) dictrdForm)).length = 4
      ∧ DestOk labPriv (iss labPriv) dictrdForm (sigOf (.dictrd dictrdForm) dictrdForm) 4)
    ∧ (CanIssue (.lanex lanexForm) lanexForm true labPriv (iss labPriv)
      ∧ (wordsValue lanexWords labPriv lanexForm (iss labPriv) (sigOf (.lanex lanexForm) lanexForm)).length = 4
      ∧ DestOk labPriv (iss labPriv) lanexForm (sigOf (.lanex lanexForm) lanexForm) 4)
    ∧ VectorGiven .ostat true ostatValue (ostatForm 0 0x10000001) labObj
    ∧ OnceGiven (.parkr parkrForm) parkrForm true labRecord ∧ onceNat Form.a Sig.a .parkr labRecord parkrForm (iss labRecord) < 4096 :=
  ⟨⟨once_of (by decide +kernel), by decide +kernel, by decide +kernel, by decide +kernel, by decide +kernel, by decide +kernel,
      by decide +kernel⟩, ⟨once_of (by decide +kernel), by decide +kernel⟩, ⟨once_of (by decide +kernel), by decide +kernel⟩,
    ⟨once_of (by decide +kernel), by decide +kernel, by decide +kernel⟩,
    ⟨canIssue_of (by decide +kernel), issueOk_of (by decide +kernel), by decide +kernel, destOk_of (by decide +kernel)⟩,
    ⟨canIssue_of (by decide +kernel), by decide +kernel, destOk_of (by decide +kernel)⟩, vector_of (by decide +kernel),
    once_of (by decide +kernel), by decide +kernel⟩

/-! ### Accesses, translations and waits -/

/-- The state after an instruction: the same one where it answers none. -/
def next (i : Instr) (s : State) : State :=
  match exec i s with
  | .next t => t
  | _ => s

/-- The small machine with the four loads of LD v1 in flight, of the word 0xA4 at its address. -/
def labLoading : State := next (.ld (at0 { form with d := V 1 })) { lab with mem := Memory.store lab.mem 0x100 [0xA4] }

/-- A reduction of lane 0 that is queued (R128): ADD of 3 to the word at 0x100. -/
def labQueued : State := { lab with mem := Memory.store lab.mem 0x100 [4], queue := [⟨⟨0, 0, 0⟩, 4, 0x100, .n32, 0, 3⟩] }

theorem test_performing :
    (labLoading.pend.map fun a => rowRead (accessRows (next (.loadDataLand a.seq) labLoading) a) 1 a.dst.pos) = [0xA4, 0xA4, 0xA4, 0xA4]
    ∧ Memory.le (next (.writePerform 7) labStoring).mem 0x100 4 = 0xBBAA
    ∧ Memory.le (next (.writeQueueApply 4) labQueued).mem 0x100 4 = 7 := by decide +kernel

theorem wf_of {s : State} (h : Memory.wf s.mem = true) : s.Inv := h

theorem witness_Performing :
    (labLoading.Inv ∧ ∃ a, labLoading.pend[0]? = some a ∧ (labLoading.pend.find? (fun b => b.seq = a.seq) = some a ∧ a.kind.reads = true
      ∧ labLoading.mayPerform a = true ∧ ((accessRows labLoading a).map Row.id).Nodup ∧ (∀ r ∈ accessRows labLoading a, r.vals.length = 32)
      ∧ a.rows.Nodup ∧ a.dst.pos < 32))
    ∧ (labStoring.Inv ∧ labStoring.pend.find? (fun b => b.seq = 7) = some storing ∧ storing.kind.reads = false
      ∧ labStoring.mayPerform storing = true ∧ ((accessRows labStoring storing).map Row.id).Nodup
      ∧ (∀ r ∈ accessRows labStoring storing, r.vals.length = 32) ∧ storing.rows.Nodup ∧ storing.dst.pos < 32)
    ∧ labQueued.Inv ∧ labQueued.queue.filter (fun q => q.line = 4) = [⟨⟨0, 0, 0⟩, 4, 0x100, .n32, 0, 3⟩] :=
  ⟨⟨wf_of (by decide +kernel), _, rfl, by decide +kernel⟩, ⟨wf_of (by decide +kernel), by decide +kernel⟩, wf_of (by decide +kernel), by decide +kernel⟩

/-- StorePoison: a store that covers line 4 whole, and one that does not, of a line that is poisoned. -/
def labPoisoned (n : Nat) : State :=
  { labStoring with poison := [4], pend := [{ storing with kind := .store (List.replicate n 1), size := n }] }

theorem witness_StorePoison :
    (∀ n ∈ [2, 64], ∃ a bs, (labPoisoned n).pend.find? (fun b => b.seq = 7) = some a ∧ a.kind = .store bs
      ∧ (labPoisoned n).mayPerform a = true)
    ∧ (next (.writePerform 7) (labPoisoned 64)).poison = [] ∧ (next (.writePerform 7) (labPoisoned 2)).poison = [4] := by
  refine ⟨fun n hn => ?_, by decide +kernel, by decide +kernel⟩
  rcases List.mem_pair.mp hn with rfl | rfl
  · exact ⟨_, _, rfl, rfl, by decide +kernel⟩
  · exact ⟨_, _, rfl, rfl, by decide +kernel⟩

/-- A page at 0x30000 that is being zeroed, with a byte and a poisoned line in it. -/
def zeroPage : Page := { va := 0x30000, size := 0x10000, phys := 0x20000, r := true, w := true, x := false, host := false, key := 0, z := true }
def labZeroing : State :=
  let s := lab.updCtx 0 fun c => { c with pages := c.pages ++ [zeroPage] }
  { s with mem := Memory.store s.mem 0x20010 [9], poison := [0x20040 / 64], walks := [⟨0, 0, 0x10040⟩, ⟨0, 0, 0x50000⟩] }

/-- A change of context 0 that unmaps its page at 0x10000, with nothing in flight to it. -/
def labChange : State := { lab with changes := [⟨5, some 0, 0x10000, 0x10000, [], true, true⟩], wgs := [] }

theorem test_translations :
    ((next (.translationComplete 0 0 0x10040) labZeroing).l2.map fun e => e.2.2.va) = [0x10000]
    ∧ ((next (.pageZeroingComplete 0 0x30000) labZeroing).poison, Memory.le (next (.pageZeroingComplete 0 0x30000) labZeroing).mem 0x20010 1) = ([], 0)
    ∧ (((next (.mappingChangeComplete 5) labChange).ctx? 0).map fun c => c.pages.length) = some 0 := by decide +kernel

theorem witness_Translations :
    ((⟨0, 0, 0x10040⟩ : Walk) ∈ labZeroing.walks ∧ ((labZeroing.ctx? 0).bind fun c => pageOf c.pages 0x10040).isSome = true)
    ∧ ((⟨0, 0, 0x50000⟩ : Walk) ∈ labZeroing.walks ∧ ((labZeroing.ctx? 0).bind fun c => pageOf c.pages 0x50000).isSome = false)
    ∧ (labZeroing.Inv ∧ ∃ c, labZeroing.ctx? 0 = some c ∧ (c.pages.find? (fun p => p.va = 0x30000 && p.z) = some zeroPage))
    ∧ ∃ c, labChange.changes.find? (fun c => c.id = 5) = some c ∧ labChange.changeReady c = true :=
  ⟨by decide +kernel, by decide +kernel, ⟨wf_of (by decide +kernel), _, rfl, by decide +kernel⟩, _, rfl, by decide +kernel⟩

/-! ### Waits that end -/

/-- Lane 0 in WAITW for the word at 0x10100 to become `v`, from the clock 10 on. -/
def labWaitw (v : Nat) : State :=
  let w : Wait := .waitw 0x10100 4 false 0 (dwordOf v) 10 ⟨[1], 0, false, none, []⟩
  let s := lab.updLane ⟨0, 0, 0⟩ fun l => { l with st := .waiting w, npc := 0x104 }
  let s := s.updWarp 0 0 fun u => { u with rows := u.rows ++ [row 1 fun _ => 0] }
  let s := s.updCtx 0 fun c => { c with extwait := 100 }
  { s with clock := 200, mem := Memory.store s.mem 0x100 [7] }

/-- The group of the small machine held. -/
def labHeld (h : Hold) : State :=
  let s := lab.updLanes (List.range 4 |>.map fun k => ⟨0, 0, k⟩) fun l => { l with npc := 0x104 }
  { s.updWarp 0 0 fun v => { v with ring := v.ring.map fun g => { g with hold := some h } } with clock := 50 }

def pcOf (s : State) : Option Word := (s.lane? ⟨0, 0, 0⟩).map Lane.pc

theorem test_waitsEnd : same [
    (pcOf (next (.waitwReread ⟨0, 0, 0⟩) (labWaitw 7)), some 0x104), (pcOf (next (.waitwReread ⟨0, 0, 0⟩) (labWaitw 8)), some 0x100)
  , (((next (.waitwReread ⟨0, 0, 0⟩) (labWaitw 7)).warp? 0 0).map fun v => rowRead v.rows 1 0, some 7)
  , (pcOf (next (.sleepExpiry 0 0 0) (labHeld (.sleep 50))), some 0x104), (pcOf (next (.sleepExpiry 0 0 0) (labHeld (.sleep 51))), some 0x100)
  , (((next (.completionRegisterWrite 0 0 0) (labHeld (.creg [(57, 3)] 0x104))).warp? 0 0).map fun v => v.ureg 57, some 3)] = true
    ∧ causeAfter (.syncExtwait ⟨0, 0, 0⟩) ((labWaitw 8).updCtx 0 fun c => { c with trapbase := 0x10000 }) = some Cause.syncExtwait.code := by
  decide +kernel

/-- `Rereads`, computed. -/
def rereadsB (s : State) (g : Workgroup) (v : Warp) (q : LaneRef) : Bool :=
  ((s.lane? q).any fun l => l.reformed = none && match l.st with
    | .waiting (.waitw ea n _ _ _ _ _) => !l.halted && match s.poisonChk true (s.check g.core g.ctx .r ea n) with | .ok _ => true | _ => false
    | .waiting _ => false
    | _ => true)
  && (rereadNow s g q).all fun r => r.2.pos = q.lane && decide (r.2.pos < 32) && decide r.2.regs.Nodup
    && (r.2.nwb || r.2.regs.all fun reg => (findRow v.rows reg).any fun row => row.await.isEmpty)

theorem rereads_of {s : State} {g v} {qs : List LaneRef} (h : qs.all (rereadsB s g v) = true) (q : LaneRef) (hq : q ∈ qs) : Rereads s g v q := by
  have h := List.all_eq_true.mp h q hq
  rw [rereadsB, Bool.and_eq_true] at h
  obtain ⟨l, hl, hw⟩ := some_of_any h.1
  simp only [Bool.and_eq_true, decide_eq_true_eq] at hw
  obtain ⟨hr, hw⟩ := hw
  refine ⟨⟨l, hl, hr, ?_⟩, fun ws dst hd => ?_⟩
  · split at hw
    · rename_i hs
      simp only [Bool.and_eq_true, Bool.not_eq_true'] at hw
      have h2 := hw.2
      split at h2
      · exact .inr ⟨_, _, _, _, _, _, _, _, hs, hw.1, by assumption⟩
      · simp at h2
    · simp at hw
    · rename_i hs
      exact .inl hs
  · have h2 := h.2
    simp only [hd, Option.all_some, Bool.and_eq_true, decide_eq_true_eq, Bool.or_eq_true, List.all_eq_true] at h2
    refine ⟨h2.1.1.1, h2.1.1.2, h2.1.2, h2.2.imp id fun h reg hr => ?_⟩
    obtain ⟨row, hf, he⟩ := some_of_any (h reg hr)
    exact ⟨row, hf, List.isEmpty_iff.mp he⟩

/-- A sleep that has ended and one that has not; a register whose COUNT is 0 and one whose is not. -/
theorem witness_WaitsEnd :
    (∀ n ∈ [7, 8], ∃ g v, (labWaitw n).wg? 0 = some g ∧ (labWaitw n).warp? 0 0 = some v ∧ g.resident = true ∧ v.saves = [] ∧ RowsOk v.rows
      ∧ ((labWaitw n).groupMates ⟨0, 0, 0⟩).Nodup ∧ ∀ q ∈ (labWaitw n).groupMates ⟨0, 0, 0⟩, Rereads (labWaitw n) g v q)
    ∧ (∃ l g c, (labWaitw 7).lane? ⟨0, 0, 0⟩ = some l ∧ (labWaitw 7).wg? 0 = some g ∧ (labWaitw 7).ctx? 0 = some c
      ∧ l.st = .waiting (.waitw 0x10100 4 false 0 7 10 ⟨[1], 0, false, none, []⟩) ∧ l.halted = false ∧ g.resident = true ∧ c.extwait ≠ 0)
    ∧ (∀ h ∈ [Hold.sleep 50, .sleep 51, .creg [(57, 3)] 0x104], ∃ v q g, (labHeld h).warp? 0 0 = some v ∧ v.ring.find? (fun q => q.gid = 0) = some q
      ∧ (labHeld h).wg? 0 = some g
      ∧ (q.hold = some h ∧ g.resident = true ∧ (labHeld h).windowRuns g = true
        ∧ (q.lanes.all fun p => (v.lanes[p]?).any fun l => !l.halted) = true ∧ q.lanes.Nodup ∧ 57 < v.uregs.length
        ∧ (q.lanes.head?.bind fun p => v.lanes[p]?).map Lane.npc = some 0x104 ∧ cregCount (v.ureg 57) = 0))
    ∧ ∃ v, ((labHeld (.creg [(57, 3)] 0x104)).updWarp 0 0 fun v => { v with uregs := setNth v.uregs 57 1 }).warp? 0 0 = some v
      ∧ cregCount (v.ureg 57) ≠ 0 := by
  refine ⟨fun n hn => ⟨_, _, rfl, rfl, ?_⟩, ⟨_, _, _, rfl, rfl, rfl, by decide +kernel⟩, fun h hh => ?_, _, rfl, by decide +kernel⟩
  · rcases List.mem_pair.mp hn with rfl | rfl
    · exact ⟨by decide +kernel, by decide +kernel, rowsOk_of (by decide +kernel), by decide +kernel, fun q hq => rereads_of (by decide +kernel) q hq⟩
    · exact ⟨by decide +kernel, by decide +kernel, rowsOk_of (by decide +kernel), by decide +kernel, fun q hq => rereads_of (by decide +kernel) q hq⟩
  simp only [List.mem_cons, List.not_mem_nil, or_false] at hh
  rcases hh with rfl | rfl | rfl <;> exact ⟨_, _, _, rfl, rfl, rfl, by decide +kernel⟩

/-! ### The engine window -/

/-- A GO of a class and opcode, its UNIT 0xFF and its completion register s57. -/
def goWord (cls op : Nat) : DWord := dwordOf (cls + 0xFF * 2 ^ 8 + op * 2 ^ 16 + 1 * 2 ^ 29)

/-- Queue 0, the default queue of its context. -/
def queue0 : ReplayObj := { object1 with kind := 4, index := 0, methods := [] }

/-- The small machine with an allocation of key 7 over its page, target 1, queue 0, a header of a DRAW at 0x10400, a
triangle from (0, 0) to (4, 0) to (0, 4) in a buffer at 0x10800, and lane 0's store of `val` at offset 8 m in its window, after the arguments `args`. -/
def labWindow (m : Nat) (val : DWord) (args : List DWord) : State :=
  let s := lab.updCtx 0 fun c =>
    { c with allocs := [⟨0x10000, 0x10000, 7, .none⟩], targets := [target1], objects := [queue0], defaultQ := some 0x40000000 }
  let s := s.updWarp 0 0 fun v =>
    { v with hatchq := [⟨0, 0, m, val⟩], args := setNth v.args 0 args
             ring := v.ring.map fun g => { g with hold := some (.window 0x104 [] [] []) } }
  let header := leBytes 4 0x4F4C4831 ++ leBytes 4 1 ++ leBytes 4 1 ++ headerBytes.drop 12
  let tri := leBytes 8 0 ++ leBytes 4 0x40800000 ++ leBytes 8 0 ++ leBytes 4 0x40800000
  { s with mem := Memory.store (Memory.store s.mem 0x400 header) 0x840 tri }

/-- A GO of each operation that passes the checks, with its arguments. -/
def goCases : List (EngineOp × DWord × List DWord) := [
    (.linear, goWord 0 0, [0x10100, 0x10200, 70, 0]), (.strided, goWord 0 1, [0x10100, 0x10200, 0x200000010, 0x4000000020])
  , (.fill, goWord 0 2, [0x10100, 0x1122334455667788, 16, 0]), (.nmLoad, goWord 1 0, [0x10000, 0x10001, 0, 0])
  , (.nmRun, goWord 1 1, [0x70001, 2, 0, 0]), (.draw, goWord 2 0, [0x10800, 0x110000001, 0x10400, 0])
  , (.invoke, goWord 3 0, [0x10000001, 0x0001000100000000, 0, 0]), (.readout, goWord 3 1, [0x10000001, 0x0001000100000000, 0x10200, 0])
  , (.push, goWord 4 0, [0x10400, 0, 0, 0]) ]

/-- The head of the window of warp 0, its GO's operation, and whether the GO passes the checks or is refused. -/
def headB (op : EngineOp) (ok : Bool) (s : State) : Bool :=
  (s.hatchHead 0 0).any fun h => h.2.2.m = 4 && engineOp h.2.2.val = some op
    && match s.goCheck h.1 0 (h.2.1.staged h.2.2) with | .ok _ => ok | .refuse _ _ => !ok | _ => false

def stageEvent : EngineOp → Instr
  | .linear => .copyLinear 0 0 | .strided => .copyStrided 0 0 | .fill => .copyFill 0 0 | .nmLoad => .nmLoad 0 0 | .nmRun => .nmRun 0 0
  | .draw => .draw 0 0 | .invoke => .invoke 0 0 | .readout => .readout 0 0 | .push => .queuePush 0 0

/-- The same GO with SCOPE 7, which is refused (R271). -/
def badGo (go : DWord) : DWord := go ||| 0x7000000

theorem test_window :
    (goCases.map fun c => ((next (stageEvent c.1) (labWindow 4 c.2.1 c.2.2)).warp? 0 0).map fun v => v.stage.map Staged.go)
      = goCases.map (fun c => some (some c.2.1))
    ∧ ((next (.hatchArgStore 0 0) (labWindow 2 9 [5, 6, 7, 8])).warp? 0 0).map (fun v => v.args.getD 0 []) = some [5, 6, 9, 8]
    ∧ causeAfter (.copyFill 0 0) ((labWindow 4 (badGo (goWord 0 2)) [0x10100, 1, 16, 0]).updCtx 0 fun c => { c with trapbase := 0x10000 })
      = some Cause.engOrder.code := by decide +kernel

theorem witness_Window :
    (∀ c ∈ goCases, ∃ g v e, (labWindow 4 c.2.1 c.2.2).hatchHead 0 0 = some (g, v, e) ∧ e.m = 4 ∧ engineOp e.val = some c.1
      ∧ ∃ p, (labWindow 4 c.2.1 c.2.2).goCheck g 0 (v.staged e) = .ok p)
    ∧ (∀ c ∈ goCases, ∃ g v e, (labWindow 4 (badGo c.2.1) c.2.2).hatchHead 0 0 = some (g, v, e) ∧ e.m = 4 ∧ engineOp e.val = some c.1
      ∧ ∃ k d, (labWindow 4 (badGo c.2.1) c.2.2).goCheck g 0 (v.staged e) = .refuse k d)
    ∧ (∃ g v e, (labWindow 3 9 []).hatchHead 0 0 = some (g, v, e) ∧ e.m < 4)
    ∧ ∃ g v e, (labWindow 4 (goWord 5 0) []).hatchHead 0 0 = some (g, v, e) ∧ 4 ≤ e.m ∧ engineOp e.val = none := by
  refine ⟨fun c hc => ?_, fun c hc => ?_, ⟨_, _, _, rfl, by decide⟩, _, _, _, rfl, by decide, by decide +kernel⟩
  · have h := List.all_eq_true.mp (by decide +kernel : (goCases.all fun c => headB c.1 true (labWindow 4 c.2.1 c.2.2)) = true) c hc
    obtain ⟨⟨g, v, e⟩, h1, h2⟩ := some_of_any h
    simp only [Bool.and_eq_true, decide_eq_true_eq] at h2
    refine ⟨g, v, e, h1, h2.1.1, h2.1.2, ?_⟩
    have h3 := h2.2
    split at h3
    · exact ⟨_, by assumption⟩
    all_goals simp at h3
  · have h := List.all_eq_true.mp (by decide +kernel : (goCases.all fun c => headB c.1 false (labWindow 4 (badGo c.2.1) c.2.2)) = true) c hc
    obtain ⟨⟨g, v, e⟩, h1, h2⟩ := some_of_any h
    simp only [Bool.and_eq_true, decide_eq_true_eq] at h2
    refine ⟨g, v, e, h1, h2.1.1, h2.1.2, ?_⟩
    have h3 := h2.2
    split at h3
    · simp at h3
    · exact ⟨_, _, by assumption⟩
    all_goals simp at h3

/-- The machine with each GO staged. -/
def labStaged (c : EngineOp × DWord × List DWord) : State := next (stageEvent c.1) (labWindow 4 c.2.1 c.2.2)

/-- The hypotheses of `Acceptance`, computed. -/
def acceptB (s : State) : Bool :=
  (s.wg? 0).any fun g => (s.warp? 0 0).any fun v => v.stage.any fun q =>
    s.windowRuns g && s.instanceOk g.core q 0 && s.quiet ⟨0, 0, q.lane⟩ false && !(s.pushQueue g.ctx q.a3).any ReplayObj.full
      && (match s.goCheck g 0 q with | .ok _ => true | _ => false) && s.copyReaches g q
      && decide (56 + goCreg q.go < v.uregs.length)

theorem test_acceptance :
    (goCases.map fun c => ((next (.goAccept 0 0 0) (labStaged c)).warp? 0 0).map fun v => v.ureg 57)
      = [some 70, some 32, some 16, some 12, some 128, some 1, some 1, some 64, some 1]
    ∧ (goCases.map fun c => (next (.goAccept 0 0 0) (labStaged c)).cmds.map Command.total)
      = [[70], [32], [16], [12], [128], [1], [1], [64], [1]] := by decide +kernel

theorem witness_Acceptance : ∀ c ∈ goCases, ∃ g v q p, (labStaged c).wg? 0 = some g ∧ (labStaged c).warp? 0 0 = some v ∧ v.stage = some q
    ∧ (labStaged c).windowRuns g = true ∧ (labStaged c).instanceOk g.core q 0 = true ∧ (labStaged c).quiet ⟨0, 0, q.lane⟩ false = true
    ∧ ((labStaged c).pushQueue g.ctx q.a3).any ReplayObj.full = false ∧ (labStaged c).goCheck g 0 q = .ok p
    ∧ (labStaged c).copyReaches g q = true ∧ 56 + goCreg q.go < v.uregs.length := by
  intro c hc
  have h := List.all_eq_true.mp (by decide +kernel : (goCases.all fun c => acceptB (labStaged c)) = true) c hc
  obtain ⟨g, hg, h⟩ := some_of_any h
  obtain ⟨v, hv, h⟩ := some_of_any h
  obtain ⟨q, hq, h⟩ := some_of_any h
  simp only [Bool.and_eq_true, decide_eq_true_eq, Bool.not_eq_true'] at h
  obtain ⟨⟨⟨⟨⟨⟨h1, h2⟩, h3⟩, h4⟩, h5⟩, h6⟩, h7⟩ := h
  split at h5
  · exact ⟨g, v, q, _, hg, hv, hq, h1, h2, h3, h4, by assumption, h6, h7⟩
  · simp at h5

/-! ### The engines -/

/-- The machine with a command accepted: each GO of `goCases` by number, and a copy to window 0 of a peer. -/
def labCmd (k : Nat) : State := match goCases[k]? with | some c => next (.goAccept 0 0 0) (labStaged c) | none => lab
def labRemote : State :=
  let s := (labCmd 0).updCtx 0 fun c => { c with peers := [⟨true, 0, 3, 0x1000, 9⟩] }
  s.updCmd 1 fun c => { c with work := .copy 0 0xC000000000000 0x10200 70 1 0 0 false false [] [] }

/-- Memory with the bytes 1, 2, … at 0x10200. -/
def withSource (s : State) : State := { s with mem := Memory.store s.mem 0x200 ((List.range 70).map fun k => BitVec.ofNat 8 (k + 1)) }

/-- Command 1 of a state, where it runs and its work is as asked. -/
def cmdB (s : State) (p : Command → Bool) : Bool := Memory.wf s.mem && (s.cmd? 1).any fun c => s.engineRuns c && p c

/-- Hypotheses on portion 0 of a copy or READOUT to `dst` of `len` bytes. -/
def portionB (s : State) (c : Command) (dst : DWord) (len : Nat) : Bool :=
  !s.inFlight 1 0 && (portionAt dst.toNat len 1 0 0).any fun q => !isRemote q.lo (q.hi - q.lo)
    && (s.operandPhys c.ctx c.lane.wg false q.lo).isSome

/-- The READOUT and the INVOKE on a target that no fragment waits for; the DRAW with its token issued and its first fragment
posted to method 0. -/
def labReadout : State := (labCmd 7).updTarget 0 1 fun t => { t with frags := [] }
def labIssued : State := next (.orderTokenIssue 1 0 0 0) (labCmd 5)
def labPosted : State := labIssued.updTarget 0 1 fun t => { t with frags := t.frags.zipIdx.map fun e => if e.2 = 1 then { e.1 with st := .posted 0 1 [7] } else e.1 }
/-- The RUN with its part started and a program for it. -/
def labRun : State :=
  let s := (labCmd 4).updCtx 0 fun c => { c with nmProgs := [(0, 1, [0])] }
  s.updCmd 1 fun c => { c with work := .nmRun 1 0 2 [0, 0, 0, 0] 0 [0x10000] [(0, true, [0, 1])] 0 0 none }

theorem test_engines :
    Memory.le (next (.copyPortionLand 1 0) (withSource (labCmd 0))).mem 0x13F 1 = 64
    ∧ Memory.le (next (.copyPortionLand 1 1) (withSource (labCmd 0))).mem 0x140 1 = 65
    ∧ (next (.copyPortionLand 1 1) (withSource (labCmd 0))).cmds.map Command.fallen = [6]
    ∧ ((next (.copyPortionLand 1 0) (withSource labRemote)).ethOut.map fun f => ((headerOf f).op, (headerOf f).window, (payloadOf f).take 2)) = [(1, 3, [1, 2])]
    ∧ ((next (.nmLoadPart 1 2 false) (labCmd 3)).ctx? 0).bind (fun c => c.program 2 1) = some [0]
    ∧ (((next (.nmWave 1 0 [1] []) labRun).cmd? 1).map fun c => (c.fallen, c.work.chunksLeft 0)) = some (64, [0x10000])
    ∧ ((labIssued.target? 0 0x10000001).map fun t => (t.frags.length, labIssued.launches.map fun l => l.pixels.length)) = some (5, [0, 1])
    ∧ (((next (.invokeApply 1 0 0) (labCmd 6)).cmd? 1).map fun c => c.work.pixelLeft target1 0 0) = some false := by decide +kernel

theorem test_fragments :
    ((next (.fragmentApply 0 1 3) labPosted).target? 0 0x10000001).map (fun t => t.frags.map fun f => (f.id, f.st == .done))
      = some [(20, false), (3, true), (4, false), (5, false), (6, false)] := by decide +kernel

theorem witness_Engines :
    (cmdB (labCmd 0) fun c => c.work = .copy 0 0x10100 0x10200 70 1 0 0 false false [] [] && portionB (labCmd 0) c 0x10100 70
      && !isRemote 0x10200 64) = true
    ∧ (cmdB labRemote fun c => c.work = .copy 0 0xC000000000000 0x10200 70 1 0 0 false false [] [] && !labRemote.inFlight 1 0
      && isRemote 0xC000000000000 64 && (labRemote.peerOf c.ctx 0xC000000000000 64).isSome) = true
    ∧ (cmdB labReadout fun c => c.work = .readout 0x10000001 0 0 1 1 0x10200 false [] && c.total = 64 && portionB labReadout c 0x10200 64
      && (labReadout.target? 0 0x10000001).any fun t => (List.range 4).all fun i =>
        !labReadout.pixelPending t (t.before 1) (readoutPlace t 0 0 1 i).1 (readoutPlace t 0 0 1 i).2.1) = true
    ∧ (cmdB (labCmd 3) fun c => c.work = .nmLoad 1 1 0x10000 (List.range 12) && (labCmd 3).cmdsBefore 1 = [] && ((labCmd 3).ctx? c.ctx).isSome) = true
    ∧ (cmdB labRun fun c => c.work = (RunState.work ⟨1, 0, 2, [0, 0, 0, 0], 0, [0x10000], [(0, true, [0, 1])], 0, 0, none⟩) && labRun.cmdsBefore 1 = []
      && labRun.chunkFree c 0 [0x10000] 1 && ((labRun.ctx? c.ctx).bind fun k => k.program 0 1).bind programBody = some []) = true
    ∧ (cmdB (labCmd 5) fun c => c.work = .draw 0x10000001 5 [⟨0, 0, 0, [0, 0, 1024, 0, 0, 1024]⟩] 2
      && ((labCmd 5).target? c.ctx 0x10000001).any (fun t => (labCmd 5).tokenNext t c ⟨0, 0, 0, [0, 0, 1024, 0, 0, 1024]⟩
        && (labCmd 5).slotsFree t ⟨0, 0, 0, [0, 0, 1024, 0, 0, 1024]⟩) && ((labCmd 5).launch? 2).any fun l => !l.refused) = true
    ∧ ((labPosted.ctx? 0).any fun k => (k.targets.find? fun t => t.index = 1 && !t.dead).any fun t => t.frags.any fun f =>
        f.st = .posted 0 1 [7] && t.frags.find? (fun g => g.id = f.id) = some f
          && labPosted.fragmentReady t f ((t.methods[0]?).any fun m => m.flag)) = true
    ∧ (cmdB (labCmd 6) fun c => c.work = .invoke 0x10000001 0 0 0 1 1 [0, 0, 0, 0] [0, 1, 2, 3]
      && ((labCmd 6).target? c.ctx 0x10000001).any fun t => t.pixIndex 0 0 = 0 && !(labCmd 6).pixelHeld t (t.before 1) 0 0) = true := by
  decide +kernel

/-! ### Scheduling -/

/-- The launch of `headerBytes` entered, its arguments at 0x10000. -/
def labEntered : State :=
  let s := next (.launch launchForm) labLaunch
  s.updLaunch 2 fun l => { l with header := { l.header with argVa := 0x10000 } }

/-- The same as a launch in gangs of two, the first not reserved yet, or reserved on core 1 since the clock 5. -/
def labGang (reserved : List (Nat × Nat × List Place)) : State :=
  let s := labEntered.updLaunch 2 fun l =>
    { l with header := { l.header with flags := 2, gang := 2 }
             gangs := [{ Gang.single 0 with reserved := reserved, since := if reserved = [] then none else some 5 }] }
  { s with clock := 100000 }

/-- Lane 0 filed at the clock 0 in bin 3 of core 0, due at 256. -/
def labBin : State :=
  let s := lab.updLane ⟨0, 0, 0⟩ fun l => { l with st := .binned, carried := 2 }
  { s.updCore 0 fun c => { c with bins := [⟨3, 0, 0x104, 0, 0, [(⟨0, 0, 0⟩, 0)]⟩] } with clock := 300 }

/-- A load of one template from 0x10210 into a slot. -/
def labLoad : State := next (.dictld dictldForm) labImage

theorem test_scheduling :
    ((next (.workgroupAdmission 2 1 0 [⟨2, 3⟩]) labEntered).wgs.map fun g : Workgroup => (g.core, g.linear, g.warps.map fun v => [v.pane, v.pipe, v.lanes.length]))
      = [(0, 0, [[0, 0, 32]]), (1, 0, [[2, 3, 32]])]
    ∧ ((next (.gangReservation 2 0 1 0 [⟨2, 3⟩]) (labGang [])).launch? 2).map (fun l => l.gangs.map fun q : Gang => q.reserved.map Prod.fst) = some [[1]]
    ∧ ((next (.gangAged 2 0) (labGang [(1, 0, [])])).launch? 2).map (fun l => l.gangs.map Gang.aged) = some [true]
    ∧ ((next (.binDraw 0 3 5 ⟨1, 1⟩) labBin).core 0).groups.map (fun g => (g.slot, g.pipe, g.keyPc)) = [(5, 1, 0x104)]
    ∧ (((next (.dictSlotLoad 0 (((labLoad.core 0).jobs.map DictJob.phys).getD 0 0) []) labLoad).slotOf 0 0 1).map fun d => (d.image.map List.length, d.rejected))
      = some (some 1, 0)
    ∧ ((next (.dictSlotUe 0 slot0.phys) labDict).core 0).slots.map DictSlot.emptied = [true] := by decide +kernel

/-- The hypotheses of the admission of launch 2 to core 1, computed. -/
def admitB (s : State) : Bool :=
  (s.launch? 2).any fun l => l.lost = [] && !l.header.flags.getLsbD 1 && (match l.origin with | .draw _ => false | _ => true)
    && l.waiting && s.dispatches l.ctx && !s.hostMode l.ctx 2 && s.admissionOpen l 1 0 [⟨2, 3⟩] && l.header.warpRoles.length = 1
    && match s.admissionReads l.ctx l.header (s.loadSlots 1 l.ctx l.header != []) with | .ok _ => true | _ => false

theorem witness_Scheduling :
    (labEntered.Inv ∧ admitB labEntered = true)
    ∧ (((labGang []).launch? 2).any fun l => (labGang []).dispatches l.ctx && (l.toReserve.find? fun k => k.number = 0).any fun q =>
      decide (q.reserved.length + 1 < (labGang []).gangSize l q) && !(labGang []).gangShort l q
      && decide ((labGang []).gangSize l q ≤ (labGang []).usableCores (clusterOf 1)) && (labGang []).gangLacks l q 1
      && !(labGang []).reservedOn 1 && !(labGang []).agedBars l 0 1
      && (labGang []).dispatchTurn l 1 && (labGang []).gangAdmits l q 1 0 [⟨2, 3⟩]) = true
    ∧ (((labGang [(1, 0, [])]).launch? 2).any fun l => ((labGang [(1, 0, [])]).ctx? l.ctx).any fun c => l.gangs.any fun q =>
        q.since.any fun a => decide (a + c.ageLimit ≤ (labGang [(1, 0, [])]).clock)) = true
    ∧ ((labBin.core 0).bins.find? fun b => b.number = 3) = some ⟨3, 0, 0x104, 0, 0, [(⟨0, 0, 0⟩, 0)]⟩ ∧ 256 ≤ labBin.clock
      ∧ (labBin.core 0).groups = [] ∧ paneFits (labBin.panePipes 0 labBin.seq 1 ++ [1]) = true ∧ labBin.groupsOn 0 labBin.seq < 8
      ∧ (labBin.ctx? 0).any (fun k => k.resident && !k.hungHalt) = true
    ∧ ((labLoad.core 0).jobs.any fun j => j.first != 0 && ((labLoad.ctx? j.ctx).bind Context.trace).isNone
        && (labLoad.core 0).jobs.find? (fun k => k.phys = j.phys) = some j && (labLoad.core 0).slots.any fun d => d.phys = j.phys) = true
    ∧ ((labDict.core 0).slots.find? fun d => d.phys = slot0.phys).isSome = true := by
  refine ⟨⟨wf_of (by decide +kernel), by decide +kernel⟩, ?_⟩
  decide +kernel

theorem witness_LaunchState : admitB labEntered = true ∧ (labEntered.launch? 2).any (fun l => (l.header.warpRoles[0]?).isSome) = true := by
  decide +kernel

/-! ### Exceptions and hangs -/

/-- A workgroup in which TRAP 5 was executed at 0x100. -/
def labTrapped : State := next (.trap { form with a := I, imm := 5 }) labTable

/-- A context past its HANGLIMIT, with or without MODE[5]. -/
def labHung (host : Bool) : State :=
  lab.updCtx 0 fun c => { c with hanglimit := 65536, hangCount := 65537, mode := if host then 0x20 else 0, eventArea := some 0x1000, trapbase := 0x10000 }

theorem test_exceptions :
    laneAfter (.handlerEntry 0) labTrapped = some (0xE00, 392, 0)
    ∧ ((next (.handlerEntry 0) labTrapped).warp? 0 0).map (fun v => (v.privileged, v.trapCause)) = some (true, 0xE5)
    ∧ (next (.hangDetected 0) (labHung true)).contexts.map (fun c => (c.hungHalt, c.events.map EventRec.function)) = [(true, [5])]
    ∧ ((next (.hangDetected 0) (labHung false)).contexts.map fun c => (c.hungHalt, c.hangCount)) = [(false, 0)] := by decide +kernel

/-- A trap of a debug cause that has no handler, and one whose workgroup has a store of the window left to carry out. -/
def labStopped : State :=
  next (.bkpt form) (labTable.updCtx 0 fun c => { c with debug := some { ring := 0, base := 0, count := 0 } })
def labUnfinished : State := labTrapped.updWarp 0 0 fun v => { v with hatchq := [⟨0, 0, 2, 9⟩] }

/-- `Trapped`, and whether the trap enters a handler, and what else holds, computed. -/
def trappedB (s : State) (enters : Bool) (p : Workgroup → TrapState → Warp → Bool) : Bool :=
  (s.wg? 0).any fun g => g.trap.any fun t => (g.warps[t.warp]?).any fun v => (s.ctx? g.ctx).any fun c =>
    (!t.debug || t.recorded) && !t.entered && g.resident && c.resident && !c.hungHalt && (!t.debug || (Context.debug c).any fun d => d.base != 0) == enters && p g t v

/-- The halt for debug of a workgroup that waits for one of the 64 records (R480). -/
def labUnrecorded : State :=
  labStopped.updWg 0 fun g => { g with trap := g.trap.map fun t => { t with recorded := false } }

theorem witness_Exceptions_unrecorded :
    (labUnrecorded.wg? 0).any (fun g => g.trap.any fun t => t.debug && !t.recorded && !t.entered) = true := by decide +kernel

theorem witness_Exceptions :
    trappedB labTrapped true (fun g t v => labTrapped.skidOver g t && labTrapped.issuedOver g && labTrapped.handlerFree g t.warp v) = true
    ∧ trappedB labStopped false (fun g t _ => labStopped.skidOver g t && labStopped.issuedOver g) = true
    ∧ trappedB labUnfinished true (fun g _ _ => !labUnfinished.issuedOver g) = true
    ∧ (∀ h : Bool, ((labHung h).ctx? 0).any (fun c => c.resident && !c.hungHalt && c.hanglimit != 0 && decide (c.hanglimit < c.hangCount)
        && c.mode.getLsbD 5 == h) = true)
    ∧ ((lab.updCtx 0 fun c => { c with hanglimit := 65536 }).ctx? 0).any (fun c => c.resident && !c.hungHalt && decide (c.hangCount ≤ c.hanglimit)) = true := by
  decide +kernel

/-- A fault of lane 1 in a context with a vector table, in one without, and in privileged mode. -/
def fault1 : LaneFault := ⟨⟨0, 0, 1⟩, .addrAlign, 0x44⟩

theorem test_exceptionTaken :
    ((labTable.raise [fault1]).lane? ⟨0, 0, 1⟩).map (fun l => (l.halted, l.trappc, l.side.cause, l.side.detail)) = some (true, 0x100, 0x40, 0x44)
    ∧ ((labTable.raise [fault1]).lane? ⟨0, 0, 2⟩).map (fun l => (l.halted, l.side.cause)) = some (true, 0)
    ∧ (lab.raise [fault1]).contexts.map (fun c => (c.killed, c.eventSeq)) = [(true, 1)] := by decide +kernel

theorem witness_ExceptionTaken :
    ((labTable.wg? 0).any fun g => (g.warps[0]?).any fun v => (labTable.ctx? g.ctx).any fun c =>
      !isDebugCause fault1.cause && !v.privileged && g.trap.isNone && c.trapbase != 0) = true
    ∧ ((lab.wg? 0).any fun g => (g.warps[0]?).any fun v => (lab.ctx? g.ctx).any fun c => !v.privileged && g.trap.isNone && c.trapbase = 0) = true
    ∧ ((labPriv.wg? 0).any fun g => (g.warps[0]?).any fun v => v.privileged && (labPriv.ctx? g.ctx).isSome) = true := by decide +kernel

/-- A decode fault: an IADD of an F type; and a privileged instruction outside privileged mode. -/
theorem witness_DecodeFaults :
    lab.curIss? = some (iss lab) ∧ decodeFault (.iadd { form with ty := .f32, d := V 1, a := V 2, b := V 3 })
      { form with ty := .f32, d := V 1, a := V 2, b := V 3 } (lab.limits (iss lab)) = some .illType
    ∧ privilegedMop (mopOf (.parkr parkrForm)) = true ∧ (lab.limits (iss lab)).priv = false := by decide +kernel

/-! ### Pre-emption -/

/-- The small machine asked to save, its scratchpad all of its vault, without tiles: its launch can yield and its lanes are in YIELD, or it cannot and they issue, past the deadline. -/
def labSaving (yields : Bool) : State :=
  let s := lab.updLaunch 0 fun l => { l with gangs := [Gang.single 0], header := { l.header with flags := if yields then 4 else 0 } }
  let s := s.updCtx 0 fun c => { c with preq := true, eventArea := some 0x1000 }
  let s := if yields then s.updLanes (List.range 4 |>.map fun k => ⟨0, 0, k⟩) fun l => { l with st := .waiting .yielded } else s
  let s := s.updWg 0 fun g => { g with vbytes := Config.vaultBytes, tileN := 0, accN := 0 }
  { s with clock := if yields then 10 else 9000, mem := Memory.store s.mem (Config.vaultBase + 3) [0x5A] }

/-- A context asked to save with nothing on a core, its area known or not, the host's to choose or not; and one restored. -/
def labSaved (area : Option DWord) (host : Bool) : State :=
  let s := lab.updCtx 0 fun c => { c with preq := true, saveArea := area, mode := if host then 8 else 0 }
  s.updWg 0 fun g => { g with resident := false }
def labRestored : State := lab.updCtx 0 fun c => { c with saved := true }

/-- A running experiment with `n` units left. -/
def labExperiment (n : Nat) : State := lab.updCtx 0 fun c => { c with cexPart := 1024, cexctl := wordOf (n * 2 ^ 16 + 1) }

def readSaved (s : State) : Option (Bool × Nat) := (s.wg? 0).map fun g => (g.resident, (Memory.read g.savedMem 3).toNat)

theorem test_preemption :
    readSaved (next (.cooperativeSave 0 0) (labSaving true)) = some (false, 0x5A) ∧ readSaved (next (.cooperativeSave 0 0) (labSaving false)) = some (true, 0)
    ∧ readSaved (next (.preForced 0 0) (labSaving false)) = some (false, 0x5A)
    ∧ ((next (.contextSaveComplete 0) (labSaved none false)).contexts.map fun c => (c.resident, c.saved)) = [(false, true)]
    ∧ ((next (.contextSaveComplete 0) (labSaved none true)).contexts.map fun c => (c.resident, c.events.map EventRec.function)) = [(true, [3])]
    ∧ ((next (.restoreComplete 0) labRestored).contexts.map Context.saved) = [false]
    ∧ ((next (.cexRemainTick 0) (labExperiment 5)).contexts.map fun c => (c.cexctl, c.cexPart)) = [(0x40001, 0)]
    ∧ ((next (.cexRemainTick 0) (labExperiment 1)).contexts.map fun c => (c.cexctl, c.cexPart)) = [(2, 0)]
    ∧ ((next (.preemptRequest 0) lab).contexts.map Context.preq) = [true] := by decide +kernel

/-- The hypotheses of `ContextSaves`, computed. -/
def savedB (area : Option DWord) (host : Bool) : Bool :=
  ((labSaved area host).ctx? 0).any (fun c => c.resident && c.preq && c.saveArea == area && c.mode.getLsbD 3 == host && c.events.isEmpty
      && ((labSaved area host).areaOf c).isSome)
    && (labSaved area host).wgs.all (fun g => !g.resident) && !(labSaved area host).framesOut 0

/-- `Savable` of gang 0 of launch 0, and what else holds of its workgroup, computed. -/
def savableB (s : State) (p : Launch → Workgroup → Context → Bool) : Bool :=
  Memory.wf s.mem && (s.launch? 0).any fun l => (s.ctx? l.ctx).any fun c => c.resident && c.preq
    && decide ((s.wgs.map Workgroup.id).Nodup ∧ (s.cores.map Core.vault).Nodup) && match s.gangHere l 0 with
    | [g] => g.ctx = l.ctx && decide (g.core < 2048 ∧ g.sbase + g.vbytes ≤ Config.vaultBytes) && !s.inFlightOf g && p l g c
    | _ => false

theorem witness_Preemption :
    ((lab.ctx? 0).any Context.resident) = true
    ∧ savableB (labSaving true) (fun l g c => !(labSaving true).busyLanes g && l.header.flags.getLsbD 2
      && decide ((labSaving true).clock < c.preqAt + l.header.deadlineCycles)) = true
    ∧ savableB (labSaving false) (fun l _ c => !l.header.flags.getLsbD 2 && decide (c.preqAt + l.header.deadlineCycles ≤ (labSaving false).clock)) = true
    ∧ savedB none false = true ∧ savedB (some 0x20000) false = true ∧ savedB none true = true
    ∧ (labRestored.ctx? 0).any (fun c => c.resident && !c.preq && c.saved && labRestored.launches.all fun l => l.gangs = []) = true
    ∧ ∀ n ∈ [1, 5], ((labExperiment n).ctx? 0).any (fun c => decide (1024 ≤ c.cexPart) && c.cexctl.getLsbD 0 && c.cexctl.toNat / 2 ^ 16 = n) = true := by
  decide +kernel

/-! ### Replay and failures -/

/-- The object with the call of `test_objects` in its log, at position 7. -/
def labLogged : State := next (.ocall ocallForm) labObj

/-- The object with the replica of die 1 fenced. -/
def labFenced : State :=
  labObj.updObject 0 0x20000001 fun o => { o with replicas := mapNth o.replicas 1 fun r => { r with fenced := true, ignored := true } }

def replicaOf (s : State) (d : Nat) : Option (Word × Bool) := (s.object? 0 0x20000001).map fun o => ((o.replica d).applied, (o.replica d).fenced)

theorem test_replay :
    replicaOf (next (.replayApply 0 0x20000001 2 false) labLogged) 2 = some (7, false)
    ∧ replicaOf (next (.replayApply 0 0x20000001 2 false) labLogged) 1 = some (6, false)
    ∧ replicaOf (next (.replicaRebuild 0 0x20000001 1 3) labFenced) 1 = some (6, false)
    ∧ replicaOf (next (.replicaUe 0 0x20000001 2) labObj) 2 = some (6, true) := by decide +kernel

theorem witness_Replay :
    ((labLogged.object? 0 0x20000001).any fun o => o.kind = 2 && o.behind 0 && o.behind 2 && decide (o.replicas.length = 4)
      && (labLogged.entry? o (nextPos (o.replica 0).applied)).isSome && (labLogged.entry? o (nextPos (o.replica 2).applied)).isSome && o.home = 0) = true
    ∧ (labLogged.ctx? 0).any (fun c => c.pushes.isEmpty) = true
    ∧ ((labFenced.object? 0 0x20000001).any fun o => decide (o.replicas.length = 4) && !o.lost && (o.replica 1).fenced && (o.replica 1).ignored
      && !(o.replica 3).fenced) = true
    ∧ ((labObj.object? 0 0x20000001).any fun o => decide (o.replicas.length = 4) && !(o.replica 2).fenced) = true ∧ labObj.hostMode 0 1 = false := by
  decide +kernel

/-- Core 0 fails beneath an idempotent launch. -/
def labIdempotent : State := lab.updLaunch 0 fun l => { l with header := { l.header with flags := 8 } }

/-- Context 0 with a written event of a function. -/
def labEvent (function : Nat) : State :=
  lab.updCtx 0 fun c => { c with
    hungHalt := decide (function = 5), hangCount := 3, eventArea := some 0x1000, eventSeq := 4
    events := [{ seq := 4, function := function, cause := 0, addr := 0, tag := 0, wg := 0, detail := 0, written := true, purpose := 0 }] }

def eventsOf (s : State) : List (Nat × Bool × Option DWord) := s.contexts.map fun c => (c.events.length, c.hungHalt, c.saveArea)

theorem test_failures :
    ((next (.coreUe 0) labIdempotent).launches.map fun l => l.lost.map Lost.linear) = [[0]] ∧ ((next (.coreUe 0) labIdempotent).core 0).fenced = true
    ∧ (next (.coreUe 5) lab).wgs.length = 1 ∧ (next (.coreUe 0) lab).contexts.map Context.killed = [true]
    ∧ (next (.vaultLineUe 2 7) lab).poison = [(Config.vaultBase + 2 * 0x100000) / 64 + 7] ∧ (next (.hbmChunkUe 1 3) lab).poison = [Config.hbmSpan / 64 + 3]
    ∧ ((next (.bmuFault 7 9) labObj).target? 0 0x10000001).map Target.damaged = some [3]
    ∧ (next (.machineCheck true) lab).fwCause = 0xF0 ∧ (next (.clockThrottle 1 2 3) lab).vclkStep = 2 := by decide +kernel

theorem test_events :
    eventsOf (next (.eventRetire 0 4) (labEvent 7)) = [(0, false, none)] ∧ eventsOf (next (.eventRetire 0 4) (labEvent 5)) = [(1, true, none)]
    ∧ eventsOf (next (.hostEventAnswer 0 4 (.address 0x2000)) (labEvent 3)) = [(0, false, some (dwordOf (Config.hostBase + 0x2000)))]
    ∧ eventsOf (next (.hostEventAnswer 0 4 .resume) (labEvent 5)) = [(0, false, none)] := by decide +kernel

theorem witness_Failures :
    (5 < Config.numCores ∧ (∀ g ∈ lab.wgs, g.core = 5 → g.resident = false) ∧ ∀ l ∈ lab.launches, l.gangs = [])
    ∧ ((labIdempotent.wgs.filter fun g => g.core = 0 && g.resident) = labIdempotent.wgs ∧ labIdempotent.wgs.length = 1
      ∧ (labIdempotent.wgs.all fun g => (labIdempotent.ctx? g.ctx).any (fun c => !c.mode.getLsbD 4)
        && (labIdempotent.launch? g.launch).any fun l => l.header.flags.getLsbD 3 && l.gangs.isEmpty) = true)
    ∧ ((labObj.target? 0 0x10000001).isSome && labObj.contexts.any fun c => c.targets.any fun t => t.vaults.any fun e => t.inLine 7 128 e.1 none) = true
    ∧ (lab.contexts.all (fun c => c.targets.isEmpty) && lab.pend.isEmpty) = true
    ∧ (∀ f ∈ [3, 5, 6, 7], ((labEvent f).event? 0 4).any (fun e => e.function = f) = true ∧ ((labEvent f).contexts.map Context.id = [0])
      ∧ ((labEvent f).ctx? 0).isSome = true) := by decide +kernel

/-! ### The host -/

/-- Context 0 with queue 0 as its default queue, and GOs held in its window. -/
def labQueue (tail : Word) (held : List (DWord × DWord × DWord × DWord × DWord)) : State :=
  let s := lab.updCtx 0 fun c => { c with objects := [{ queue0 with tail := tail }], defaultQ := some 0x40000000 }
  { s with windows := [(0, { CallWindow.reset with a0 := 0x10400, held := held })] }

/-- A GO of a queue push, as a host writes it (R29). -/
def hostGo : DWord := 0x000FF04
def heldGo : DWord × DWord × DWord × DWord × DWord := (hostGo, 0x10400, 0, 0, 0)

def tailOf (s : State) : Option (Word × Bool × Nat) := (s.pushQueue 0 0).map fun o => (o.tail, (s.entry? o 7).isSome, (s.window 0).count)

theorem test_host :
    tailOf (next (.hostQueuePush 0 hostGo) (labQueue 6 [])) = some (7, true, 1) ∧ tailOf (next (.hostGoAccept 0) (labQueue 6 [heldGo])) = some (7, true, 1)
    ∧ tailOf (next (.hostGoAccept 0) (labQueue 2054 [heldGo])) = some (2054, false, 0)
    ∧ ((next (.registerWrite 0x1048 9) lab).window 1).a1 = 9 ∧ (next (.registerWrite 0x11000 9) lab).dbgWin.a0 = 9
    ∧ (next (.dreset 0xC0A60001) labStoring).pend = [] ∧ (next (.dreset 1) labStoring).pend = [storing]
    ∧ (next (.hostBar2Read 0x100 2) labWord).reply = [0x11, 0x22] ∧ (next (.hostBar2Read 0x100 1) { labWord with poison := [4] }).replyBad = true
    ∧ Memory.le (next (.hostBar2Write 0x200 [1, 2]) lab).mem 0x200 2 = 0x201 := by decide +kernel

/-- A push that is accepted, one refused for the device's state, one that goes on waiting. -/
theorem witness_HostLink :
    (∀ s ∈ [labQueue 6 [], labQueue 6 [heldGo]], s.bootFail = false ∧ hostGoOk hostGo = true ∧ pushArgsOk 0x10400 0 0 0 = true
      ∧ (s.ctx? 0).any Context.resident = true ∧ (s.pushQueue 0 0).any (fun o => !o.full) = true ∧ (s.window 0).a0 = 0x10400
      ∧ ((s.window 0).a1, (s.window 0).a2, (s.window 0).a3) = (0, 0, 0))
    ∧ ((labQueue 6 []).window 0).held = [] ∧ ((labQueue 6 [heldGo]).window 0).held = [heldGo]
    ∧ ((labQueue 2054 [heldGo]).pushQueue 0 0).any (fun o => o.full) = true ∧ ({ lab with bootFail := true } : State).bootFail = true
    ∧ lab.bootFail = false ∧ lab.bar2Waits 0x100 2 = false
    ∧ lab.dbgWin.held = [] ∧ debugGoOk 0x0000FF11 = false ∧ (debugGoOk 0x0008FF10 = true ∧ goOpcode 0x0008FF10 = 8)
      ∧ (debugGoOk 0x0000FF10 = true ∧ goOpcode 0x0000FF10 = 0) := by decide +kernel

theorem witness_HostLink_memory : lab.Inv := wf_of (by decide +kernel)

/-! ### The debug window -/

/-- The small machine attached to a debugger: a ring at host address 0, and no DBGBASE. -/
def labDebug : State := lab.updCtx 0 fun c => { c with debug := some { ring := 0, base := 0, count := 0 } }

/-- The same, halted by HALT, the whole workgroup stopped and the HALT accepted. -/
def labHalted : State := (next (.handlerEntry 0) (next (.halt 0 0xFFFFFFFF) labDebug)).debugSettle

/-- Comparator 0 of core 0 set for context 0. -/
def labCompare : State := labDebug.updCore 0 fun c => { c with pcmp := setNth c.pcmp 0 (0x103, 0) }

/-- A context that is saved, so that no lane of it issues. -/
def labAway : State := labDebug.updWg 0 fun g => { g with resident := false }

def trapOf (s : State) : Option (Option (Cause × Bool)) := (s.wg? 0).map fun g => g.trap.map fun t => (t.cause, t.entered)

theorem test_debug :
    (next (.attach 0 0x1000 0) lab).contexts.map (fun c => (Context.debug c).map Debug.ring) = [some 0x1000]
    ∧ (next (.attach 0 0x1000 0) labDebug).dbgWin.cause = Cause.engCmd.code
    ∧ trapOf labHalted = some (some (.step, true)) ∧ labHalted.dbgWin.accepted = true ∧ trapOf (next (.resume 0 0) labHalted) = some none
    ∧ laneAfter (.resume 0 0) labHalted = some (0x100, 0, 0) ∧ ((next (.step 0 0) labHalted).warp? 0 0).map Warp.stepping = some 1
    ∧ ((next (.detach 0) labCompare).core 0).pcmp.map (fun p => p.1 &&& 3) = List.replicate 8 0
    ∧ (next (.halt 0 0) labAway).wgs.map Workgroup.pendHalt = [true] := by decide +kernel

theorem test_trace :
    (next (.trace 0 0x10000 0x2000) labDebug).contexts.map (fun c => c.trace.map TraceBuf.bytes) = [some 0x2000]
    ∧ (next (.trace 0 0x10000 0) labDebug).contexts.map Context.trace = [none] := by decide +kernel

def attachedB (s : State) : Bool := !s.bootFail && (s.ctx? 0).any fun c => (Context.debug c).isSome

theorem witness_DebugWindow_idle : lab.dbgWork = none ∧ labDebug.dbgWork = none ∧ labAway.dbgWork = none ∧ labHalted.dbgWork = none
    ∧ (labHalted.wgs.all fun g => g.trap.any TrapState.entered) = true := by decide +kernel

theorem witness_DebugWindow :
    (lab.bootFail = false ∧ (lab.ctx? 0).any (fun c => (Context.debug c).isNone) = true)
    ∧ (attachedB labDebug = true ∧ (labDebug.wgs.map Workgroup.id).Nodup ∧ (labDebug.wgs.all fun g => g.trap.isNone && g.resident && (labDebug.haltAt g).isSome && !labDebug.debugFull 0 0) = true
      ∧ (labDebug.wgs.filter fun g => g.ctx = 0 && !g.kept && g.linear = 0) = labDebug.wgs ∧ labDebug.wgs.length = 1)
    ∧ (attachedB labAway = true ∧ (labAway.wgs.all fun g => g.trap.isNone && !g.resident) = true)
    ∧ (attachedB labHalted = true ∧ ((labHalted.debugWg 0 0).any fun g => labHalted.wg? g.id = some g && g.trap.any (fun t => t.entered
        && (labHalted.warp? g.id t.warp).isSome) && g.outer.isEmpty && g.resident && (labHalted.launch? g.launch).isSome
        && ((labHalted.ctx? g.ctx).bind Context.trace).isNone) = true)
    ∧ labDebug.usesCore 0 0 = true ∧ (labDebug.core 0).jobs = [] ∧ region 0x10000 = .paged
    ∧ (match labDebug.lookup 0 .w 0x10000 with | .ok _ _ => true | _ => false) = true := by decide +kernel

theorem witness_DebugWindow_memory : labDebug.Inv := wf_of (by decide +kernel)

/-! ### Ethernet -/

/-- The device with an exported window 3 at 0x100, of 64 bytes. -/
def labExport : State := { labWord with exported := [⟨3, 0x100, 64⟩] }

/-- A frame of node 9 at port 1, by default of flow 5, to window 3 at offset 2. -/
def frame (op n : Nat) (payload : List Byte) (seq : Nat := 0) (window : Nat := 3) : EthFrame :=
  frameTo 1 9 (EthHeader.of op 5 seq n 2 window) payload

/-- A frame that is no vault-transfer frame: its header is not there. -/
def badFrame : EthFrame := { frame 1 2 [9, 8] with bytes := [9, 8] }

/-- A copy of 70 bytes from window 0 of a peer to 0x10100, its first portion asked for on flow 0. -/
def labReading : State :=
  let s := labRemote.updCmd 1 fun c => { c with work := .copy 0 0x10100 0xC000000000000 70 1 0 0 false false [] [] }
  next (.copyPortionLand 1 0) s

/-- A copy whose first portion was sent to a peer on flow 0, and resent `n` times. -/
def labSent (n : Nat) : State :=
  let s := next (.copyPortionLand 1 0) (withSource labRemote)
  { s with txFlows := s.txFlows.map fun t => { t with frames := t.frames.map fun f => { f with resends := n } } }

/-- A frame that answers SEQ 0 of the flow. -/
def answerTo (s : State) (op : Nat) (payload : List Byte) : EthFrame :=
  frameTo 0 9 (EthHeader.of op (((s.txFlows.head?).map TxFlow.flow).getD 0) 0 payload.length 0 3) payload

theorem test_ethernet :
    Memory.le (next (.ethWriteFrame (frame 1 2 [9, 8])) labExport).mem 0x102 2 = 0x809
    ∧ ((next (.ethReadRequest (frame 2 2 [])) labExport).ethOut.map fun f => ((headerOf f).op, payloadOf f)) = [(4, []), (3, [0x33, 0x44])]
    ∧ (next (.ethWriteFrame (frame 1 2 [9, 8] 1)) labExport).ethOut = [] ∧ (next (.ethFrameDiscard badFrame) lab).discards = 1
    ∧ (next (.ethAcknowledge (answerTo (labSent 0) 4 [])) (labSent 0)).cmds.map Command.fallen = [64]
    ∧ Memory.le (next (.ethReadData (answerTo labReading 3 (List.replicate 64 7))) labReading).mem 0x13F 1 = 7
    ∧ (next (.resendTimeout ⟨0, 9, false⟩) (labSent 3)).ethOut.length = 2 ∧ (next (.resendTimeout ⟨0, 9, false⟩) (labSent 8)).cmds = [] := by decide +kernel

/-- What window 3 was read from is held until node 9 acknowledges it. -/
def labAnswered (n : Nat) : State :=
  let s := next (.ethReadRequest (frame 2 2 [])) labExport
  { s with txFlows := s.txFlows.map fun t => { t with frames := t.frames.map fun f => { f with resends := n } } }

theorem witness_LinksAndBoot :
    (labExport.accepts 1 (frame 1 2 [9, 8]) = true ∧ labExport.exportedAt (frame 1 2 [9, 8]) = some 0x102)
    ∧ (labExport.accepts 2 (frame 2 2 []) = true ∧ labExport.exportedAt (frame 2 2 []) = some 0x102 ∧ labExport.poison = [])
    ∧ (labExport.accepts 2 (frame 2 2 [] 0 8) = true ∧ labExport.exportedAt (frame 2 2 [] 0 8) = none)
    ∧ labExport.accepts 1 (frame 1 2 [9, 8] 1) = false ∧ labExport.accepts 2 (frame 1 2 [9, 8]) = false
    ∧ EthFrame.transfers badFrame = false
    ∧ (EthFrame.transfers (answerTo (labSent 0) 4 []) = true ∧ (headerOf (answerTo (labSent 0) 4 [])).op = 4
      ∧ ((labSent 0).txFrame? (headerOf (answerTo (labSent 0) 4 [])).flow 9 false 0).any TxFrame.answered = true)
    ∧ (EthFrame.transfers (answerTo labReading 4 []) = true
      ∧ (labReading.txFrame? (headerOf (answerTo labReading 4 [])).flow 9 false 0).any (fun w => !w.answered) = true)
    ∧ (EthFrame.transfers (answerTo labReading 3 (List.replicate 64 7)) = true ∧ (headerOf (answerTo labReading 3 (List.replicate 64 7))).op = 3
      ∧ (labReading.asked? (headerOf (answerTo labReading 3 (List.replicate 64 7))).flow 9).any (fun w => (headerOf w.frame).seq = 0 && w.portion = some (1, 0)) = true
      ∧ ((labReading.cmd? 1).any fun c => c.work = .copy 0 0x10100 0xC000000000000 70 1 0 0 false false [] [] && (portionAt 0x10100 70 1 0 0).any fun q => (labReading.operandPhys c.ctx c.lane.wg false q.lo).isSome) = true)
    ∧ (labExport.asked? 5 9).isNone = true
    ∧ (∀ n ∈ [3, 8], (((labSent n).txFlow 0 9 false).frames.dropWhile TxFrame.acked).map (fun f => (f.resends, f.portion)) = [(n, some (1, 0))])
    ∧ (((labAnswered 8).txFlow 5 9 true).frames.dropWhile TxFrame.acked).map (fun f => (f.resends, f.portion)) = [(8, none)] := by
  decide +kernel

theorem witness_LinksAndBoot_memory : labExport.Inv ∧ labReading.Inv := ⟨wf_of (by decide +kernel), wf_of (by decide +kernel)⟩

/-! ### The Firmware Interface -/

/-- Context 5, not resident, beside context 0. -/
def labIdle : State := { lab with contexts := lab.contexts ++ [Context.created 5 0] }

/-- An allocation of two pages, the second with no room, and a change. -/
def allocation (phys : List Nat) : AllocRequest :=
  { va := 0x200000, size := 0x20000, pageSize := 0x10000, r := true, w := true, x := false, host := false, affinity := .none, key := 0, phys := phys }
def mapping (va : Nat) : MapRequest :=
  { va := va, size := 0x10000, unmap := false, pageSize := 0x10000, r := true, w := false, x := false, host := false, key := 0, phys := [0x40000] }

/-- An allocation of host memory; and the device asking the host about placements. -/
def hostAllocation : AllocRequest := { allocation [Config.hostBase, Config.hostBase + 0x10000] with host := true }
def labPlaced : State := lab.updCtx 0 fun c => { c with mode := 4 }

/-- A descriptor at 0x10600: a texture of 4 by 4 texels, a queue of 256 entries, or a target and an object with one method
at 0x10700 whose dictionary is the image at 0x10200. -/
def labDescriptor (kind : Nat) : State :=
  let method := leBytes 8 0x10700 ++ leBytes 8 0x10200 ++ leBytes 2 1 ++ [1] ++ List.replicate 13 0
  let b := match kind with
    | 1 => leBytes 2 8 ++ leBytes 2 8 ++ [1, 1, 1, 0] ++ List.replicate 56 0 ++ method
    | 2 => leBytes 4 64 ++ [8, 1, 0xFF, 0] ++ leBytes 8 0x10000 ++ List.replicate 48 0 ++ method
    | 3 => leBytes 8 0x10400 ++ leBytes 2 4 ++ leBytes 2 4 ++ [0, 1] ++ List.replicate 18 0
    | _ => [8] ++ List.replicate 63 0
  { labImage with mem := Memory.store (Memory.store labImage.mem 0x600 b) 0x700 (leBytes 4 0x00400000) }

/-- A tile in vault 0, or a replica in the first vault of each die and the copies of a log in two stacks of die 2. -/
def places (kind : Nat) : List Nat :=
  if kind = 1 then [0, 8192]
  else [0, 512, 1024, 1536, 8192, 8192, 8192, 8192, 6 * Config.hbmSpan + 0x40000, 7 * Config.hbmSpan + 0x40000]

theorem test_firmware : same [
    ((next (.contextMakeResident 5) labIdle).contexts.map Context.resident, [true, true])
  , ((next (.contextCreate 6 3) lab).contexts.map Context.resident, [true, false]), ((next (.contextDestroy 5) labIdle).contexts.map Context.resident, [true])] = true
    ∧ same [((next (.modeWrite 5 0x7F) labIdle).contexts.map fun c => c.mode.toNat, [0, 0x3F]), ((next (.modeWrite 0 1) labIdle).contexts.map fun c => c.mode.toNat, [0, 0])
    , ((next (.ageLimitSet 0 999) lab).contexts.map Context.ageLimit, [50000]), ((next (.ageLimitSet 0 1000) lab).contexts.map Context.ageLimit, [1000])
    , ((next (.hanglimitSet 0 65536) lab).contexts.map Context.hanglimit, [65536]), ((next (.hanglimitSet 0 65535) lab).contexts.map Context.hanglimit, [0x1000000])
    , ((next (.allocate 0 (allocation [0x20000, 0x40000])) lab).contexts.map fun c => c.pages.length, [3])
    , ((next (.allocate 0 (allocation [0x20000, 0])) lab).contexts.map fun c => c.pages.length, [1])] = true := by decide +kernel

theorem test_objectsMade :
    ([1, 2, 3, 4].map fun k => (next (.objectCreate 0 k 0x10600 (places k) 2) (labDescriptor k)).replyWord)
      = [0x10000000, 0x20000000, 0x30000000, 0x40000000] := by decide +kernel

theorem test_objectsGo :
    (next (.objectDestroy 0 0x30000000) labTex).contexts.map (fun c => c.textures.length) = [0]
    ∧ (next (.objectDestroy 0 0x20000001) labObj).contexts.map (fun c => c.objects.length) = [0] := by decide +kernel

/-- Whether a creation finds its descriptor and what it makes. -/
def madeB (k : Nat) : Bool :=
  let s := labDescriptor k
  (s.ctx? 0).any fun c => c.targets.isEmpty && c.objects.isEmpty && c.textures.isEmpty && freeIndex [] = some 0 && !s.hostMode 0 2 && match s.readAt 0 .r 0x10600 1 (if k = 3 then 32 else 64) with
    | .bytes b => match k with
      | 1 => (match s.makeTarget 0 0x10600 0 (places 1) b with | .ok _ => true | _ => false)
      | 2 => (match s.makeObject 0 0x10600 0 2 (places 2) b with | .ok _ => true | _ => false)
      | 3 => (match makeTexture 0 b with | .ok _ => true | _ => false)
      | _ => (match s.makeQueue 0 2 (places 4) b with | .ok _ => true | _ => false)
    | _ => false

theorem witness_FirmwareCalls :
    (labIdle.booted = true ∧ (labIdle.ctx? 5).any (fun c => !c.resident) = true ∧ (labIdle.ctx? 0).any Context.resident = true
      ∧ labIdle.ctx? 6 = none ∧ 6 < Config.numContexts)
    ∧ (([1, 2, 3, 4].all madeB) = true ∧ region 0x10600 = .paged)
    ∧ ((labTex.texture? 0 0x30000000).isSome = true ∧ (labObj.object? 0 0x20000001).isSome = true ∧ (labObj.ctx? 0).any (fun c => c.pushes.isEmpty) = true
      ∧ labObj.waits 0 = [] ∧ ((labObj.object? 0 0x20000001).any fun o => !o.full) = true ∧ labObj.cmds = [])
    ∧ (lab.ctx? 0).any (fun c => lab.allocOk c (allocation [0x20000, 0x40000]) && !lab.allocOk c (allocation [0x20000, 0])) = true
    ∧ ((lab.ctx? 0).any fun c => lab.allocOk c hostAllocation && c.placing.isEmpty) = true ∧ hostAllocation.host = true ∧ lab.hostMode 0 2 = false
    ∧ (labPlaced.hostMode 0 2 && (labPlaced.ctx? 0).any fun c => labPlaced.allocOk c (allocation [0x20000, 0x40000]) && c.placing.isEmpty) = true
    ∧ (mapRequestOk (mapping 0x300000) && (lab.ctx? 0).any fun c => lab.keyKept c (mapping 0x300000) (askedPages (mapping 0x300000))) = true
    ∧ mapRequestOk (mapping 0x300001) = false := by decide +kernel

/-! ### Rules, encodings, steps -/

theorem witness_IntegerReduction :
    (0xFF < 2 ^ elemBits .i8x4 ∧ 3 < tyElems .i8x4 ∧ 0 < tyElems .i64) ∧ ({ form with sat := false }).sat = false
      ∧ ({ form with sat := true }).sat = true := by decide

/-- MODE of a context that is not resident, and of one that is. -/
theorem witness_ModeWrites : labIdle.booted = true ∧ (labIdle.ctx? 5).any (fun c => !c.resident) = true
    ∧ (labIdle.ctx? 0).any (fun c => c.resident) = true := by decide +kernel

/-- A load of two lines, the first of MOP 0x3FF with its other bits 1, the second poisoned. -/
def labUndefined : State := { lab with mem := Memory.store lab.mem 0x400 (leBytes 16 (2 ^ 128 - 1)), poison := [0x440 / 64] }
def jobUndefined : DictJob :=
  { id := 1, ctx := 0, core := 0, phys := 0, prog := 1, va := 0x10400, first := 0x40, count := 2, lines := [0x400, 0x440], priv := false
    warp := none, launchWg := none }

theorem witness_UndefinedEntries : jobUndefined.lines[0]? = some 0x400
    ∧ (templateMop (BitVec.ofNat 128 (Memory.le labUndefined.mem 0x400 16))).toNat = 0x3FF
    ∧ loadEntries labUndefined jobUndefined [] = ([(0x40, undefinedTemplate), (0x41, undefinedTemplate)], 1) := by decide +kernel

/-- A reserved index, and a MOP that is not assigned. -/
theorem witness_UnassignedRefused :
    (0x010 ≤ (wordDix 0x04000000).toNat ∧ (wordDix 0x04000000).toNat < 0x040)
    ∧ (0x040 ≤ (wordDix 0x10000000).toNat ∧ assignedMop (templateMop (tpl 0x3F0 0 0 0 0 0 0 0 0 0 0 0 0)).toNat = false)
    ∧ (match decode 0x00400000 noEntry 0 with | .ok i => mopOf i | .error _ => 0) = mopOf (.exit form) := by decide +kernel

/-- IADD.I32 v1 := v2 + v3, as a well-formed term. -/
def iadd123 : Instr := .iadd { form with ty := .i32, d := V 1, a := V 2, b := V 3 }

theorem witness_EncodeDecode : ∃ e, WellFormed iadd123 = true ∧ encode iadd123 = some e
    ∧ (fun _ => e.template : Nat → Template) (wordDix e.word).toNat = e.template ∧ (wordDix e.word).toNat = 0x055 :=
  ⟨_, by decide +kernel, rfl, rfl, by decide +kernel⟩

/-- The same from its words; and a fixed entry, whose template is not asked for. -/
theorem witness_DecodeEncode :
    (match encode iadd123 with
      | some e => (match decode e.word (fun _ => e.template) 0 with | .ok i => decide (i = iadd123) | .error _ => false)
        && templateValid true e.template
      | none => false) = true
    ∧ (match decode 0x00400000 noEntry 0 with | .ok _ => decide ((wordDix 0x00400000).toNat < 0x040) | .error _ => false) = true := by
  decide +kernel

/-- The small machine about to issue a word with what follows it, or another action. -/
def labIssue (w lit : Nat) : State :=
  { lab with mem := Memory.store lab.mem 0x100 (leBytes 4 w ++ leBytes 4 lit), agenda := [.issue (.home 0 0 0)], cur := .none }
def labAction (a : Action) : State := { labPriv with agenda := [a], cur := .none }

/-- The hypotheses of an issue, computed. -/
def issueB (s : State) (w lit : Word) (takes : Bool) : Bool :=
  let u := { s with agenda := [] }
  s.agenda = [.issue (.home 0 0 0)] && (u.iss? (.home 0 0 0)).any fun x =>
    u.canIssue x && match u.beforeFetch x with
    | .error _ => false
    | .ok u => !u.matchesApart x && (u.matches x 1).isEmpty && u.fetchAt x x.pc = .word w
      && (takesLiteral w (u.slotEntry x.core x.ctx x.dslot) && x.pc != 0xFFFFFFFC) == takes
      && (if takes then u.fetchAt x (x.pc + 4) = .word lit else lit = 0)
      && (match u.decodeIn x w lit with | .ok _ => true | .error _ => false)

/-- EXIT and MOVI v5 := 0x12345678 issued; a TLBI of the firmware of control core 2. -/
theorem witness_StepRuns : issueB (labIssue 0x00400000 0) 0x00400000 0 false = true ∧ issueB (labIssue 0x02814000 0x12345678) 0x02814000 0x12345678 true = true
    ∧ (labAction (.event (.machineCheck false))).agenda = [.event (.machineCheck false)]
    ∧ (labAction (.tick 3)).agenda = [.tick 3] ∧ controlMop (mopOf (.tlbi (tlbiForm 1))) = true
    ∧ (((labAction (.firmware 2 (.tlbi (tlbiForm 1)))).withControl 2).iss? (controlGroup 2)).any (fun x =>
        (((labAction (.firmware 2 (.tlbi (tlbiForm 1)))).withControl 2).groupOf x.g).any (fun q => holdIssues q.hold)
          && (((labAction (.firmware 2 (.tlbi (tlbiForm 1)))).withControl 2).lane? ⟨x.wg, 0, 0⟩).any Lane.issuing) = true := by
  decide +kernel

def stepped (s : State) : Option State := match step s with | .next t => some t | _ => none

theorem test_steps :
    ((stepped (labIssue 0x00400000 0)).map fun t => (t.lane? ⟨0, 0, 0⟩).map Lane.st) = some none
    ∧ ((stepped (labIssue 0x02814000 0x12345678)).map fun t => (rowRead (homeRows t ⟨0, 0, 0⟩) 5 3, (t.lane? ⟨0, 0, 0⟩).map Lane.pc))
      = some (0x12345678, some 0x108)
    ∧ (stepped (labAction (.event (.machineCheck false)))).map State.fwCause = some 0xF1
    ∧ (stepped (labAction (.tick 3))).map State.clock = some 3 := by decide +kernel

/-- A control core computes in its own registers; LANEX of it raises ILL_PRIV (R18, R162, R340); a bad debug GO is refused (R478). -/
theorem test_control :
    ((stepped (labAction (.firmware 2 (.movi { form with dix := 10, immsrc := .literal, fd := 5, d := ⟨.vector, .fd, false, 0⟩, a := I, lit := 7 })))).map
        fun t => (rowRead (homeRows t ⟨2 ^ 64 + 2, 0, 0⟩) 5 0, (t.warp? 0 0).map Warp.rows == some labRows)) = some (7, true)
    ∧ ((stepped (labAction (.firmware 2 (.lanex lanexForm)))).bind fun t => (t.warp? (2 ^ 64 + 2) 0).map Warp.trapCause) = some 0x22
    ∧ (next (.registerWrite 0x11020 0x0000FF11) lab).dbgWin.cause = Cause.engCmd.code := by decide +kernel

theorem witness_StepKeepsInv : ∃ t, (labIssue 0x02814000 0x12345678).Inv ∧ step (labIssue 0x02814000 0x12345678) = .next t ∧ t.mem ≠ [] := by
  have h : (match step (labIssue 0x02814000 0x12345678) with | .next t => decide (t.mem ≠ []) | _ => false) = true := by decide +kernel
  split at h
  · rename_i t ht
    exact ⟨t, wf_of (by decide +kernel), ht, by simpa using h⟩
  · simp at h

end Sys2Proof.Tests
end

section
/-! SUPPORT. Every operation of the package keeps the table of memory canonical: one lemma for each function that gives a state,
named after it, so that the proof `h.setHold.raise` reads as the state `(s.setHold g p).raise fs` it is about. Memory itself changes
in `Memory.store` and `Memory.clear` alone. -/

namespace Sys2Proof.Machine

variable {s : State}

/-- The state an outcome goes on in keeps memory canonical. -/
def NextInv : Host.Outcome State Fault Refusal → Prop
  | .next t => t.Inv
  | .fault _ => True
  | .refused _ => True

/-- The state of a register write that is not refused keeps memory canonical. -/
def LeftInv : State ⊕ Cause → Prop
  | .inl t => t.Inv
  | .inr _ => True

/-- An update of fields other than memory. -/
theorem State.Inv.update {clock aclkStep vclkStep nmBanks booted bootFail recovery mcheck fwCause measure poison l2
    walks changes records pend queue contexts cores pipes wgs ctl launches cmds windows
    dbgWin dbgWork discards rxFlows txFlows exported ethOut vectors reply replyBad replyWord
    report agenda cur freeCount seq} (h : s.Inv) :
    State.Inv ⟨clock, aclkStep, vclkStep, nmBanks, booted, bootFail, recovery, mcheck, fwCause, measure, s.mem, poison, l2,
      walks, changes, records, pend, queue, contexts, cores, pipes, wgs, ctl, launches, cmds, windows, dbgWin,
      dbgWork, discards, rxFlows, txFlows, exported, ethOut, vectors, reply, replyBad, replyWord, report, agenda,
      cur, freeCount, seq⟩ := h

theorem State.Inv.ite {c : Prop} [Decidable c] {s t : State} (h : s.Inv) (k : t.Inv) : (if c then s else t).Inv := by
  split <;> assumption

theorem NextInv.ite {c : Prop} [Decidable c] {s t} (h : NextInv s) (k : NextInv t) : NextInv (if c then s else t) := by
  split <;> assumption

theorem State.Inv.getD {o : Option State} (h : s.Inv) (k : ∀ t, o = some t → t.Inv) : (o.getD s).Inv := by
  cases o
  · exact h
  · exact k _ rfl

theorem State.Inv.foldl {α : Type} {f : State → α → State} {l : List α} (h : s.Inv)
    (hf : ∀ s x, s.Inv → (f s x).Inv) : (l.foldl f s).Inv :=
  List.foldlRecOn (motive := State.Inv) l f h fun s k x _ => hf s x k

theorem State.Inv.foldlFst {α β : Type} {f : State × β → α → State × β} {l : List α} {p : State × β} (h : p.1.Inv)
    (hf : ∀ p x, p.1.Inv → (f p x).1.Inv) : (l.foldl f p).1.Inv :=
  List.foldlRecOn (motive := fun p : State × β => p.1.Inv) l f h fun p k x _ => hf p x k

theorem State.Inv.fst_eq {α : Type} {t : State} {p : State × α} {a : α} (h : p.1.Inv) (e : p = (t, a)) : t.Inv := by
  subst e; exact h

/-! ### Parts of the state, exceptions, parking -/

theorem State.Inv.updCtx {id f} (h : s.Inv) : (s.updCtx id f).Inv := h.update
theorem State.Inv.updCore {v f} (h : s.Inv) : (s.updCore v f).Inv := .ite h.update h.update
theorem State.Inv.updWg {id f} (h : s.Inv) : (s.updWg id f).Inv := h.update
theorem State.Inv.updWarp {wg w f} (h : s.Inv) : (s.updWarp wg w f).Inv := h.updWg
theorem State.Inv.updLane {r f} (h : s.Inv) : (s.updLane r f).Inv := h.updWarp
theorem State.Inv.updLanes {rs f} (h : s.Inv) : (s.updLanes rs f).Inv := .foldl h fun _ _ hs => hs.updLane
theorem State.Inv.updLaunch {id f} (h : s.Inv) : (s.updLaunch id f).Inv := h.update
theorem State.Inv.updCmd {id f} (h : s.Inv) : (s.updCmd id f).Inv := h.update
theorem State.Inv.setPipe {p} (h : s.Inv) : (s.setPipe p).Inv := .ite h.update h.update
theorem State.Inv.updTarget {ctx index f} (h : s.Inv) : (s.updTarget ctx index f).Inv := h.updCtx
theorem State.Inv.updObject {ctx hd f} (h : s.Inv) : (s.updObject ctx hd f).Inv := h.updCtx
theorem State.Inv.keepEntries {core pane pipe} (h : s.Inv) : (s.keepEntries core pane pipe).Inv := h.setPipe
theorem State.Inv.addPoison {line} (h : s.Inv) : (s.addPoison line).Inv := h.update
theorem State.Inv.clearPoison {line} (h : s.Inv) : (s.clearPoison line).Inv := h.update
theorem State.Inv.storeBytes {p bs} (h : s.Inv) : (s.storeBytes p bs).Inv := State.wf_storeBytes p bs h

theorem State.Inv.startWalk {core ctx va} (h : s.Inv) : (s.startWalk core ctx va).Inv := by
  unfold State.startWalk
  split
  · exact h
  · exact .ite h h.update

theorem State.Inv.setRows {x rows} (h : s.Inv) : (s.setRows x rows).Inv := by
  unfold State.setRows
  split
  · exact h.updWarp
  · exact h.updCore

theorem State.Inv.updGroup {g f} (h : s.Inv) : (s.updGroup g f).Inv := by
  unfold State.updGroup
  split
  · exact h.updWarp
  · exact h.updCore

theorem State.Inv.setHold {g hd} (h : s.Inv) : (s.setHold g hd).Inv := h.updGroup
theorem State.Inv.stall {x r} (h : s.Inv) : (s.stall x r).Inv := h.setHold

theorem State.Inv.flushEvents {ctx} (h : s.Inv) : (s.flushEvents ctx).Inv := by
  unfold State.flushEvents
  split
  · exact h
  · split
    · exact h
    · exact .foldl h fun _ _ hs => .ite hs hs.storeBytes.update

theorem State.Inv.postEvent {ctx fn cause addr tag wg detail} (h : s.Inv) :
    (s.postEvent ctx fn cause addr tag wg detail).Inv :=
  h.updCtx.flushEvents

theorem State.Inv.traceRecord {ctx ident type a8 a16 word a64} (h : s.Inv) :
    (s.traceRecord ctx ident type a8 a16 word a64).Inv := by
  unfold State.traceRecord
  split
  · exact h
  · dsimp only
    split
    · exact h.storeBytes.storeBytes.updCtx
    · exact h.storeBytes.updCtx
    · exact h.updCtx

theorem State.Inv.dropContext {ctx} (h : s.Inv) : (s.dropContext ctx).Inv := h.update

theorem State.Inv.killWith {ctx cause addr wg detail} (h : s.Inv) :
    (s.killWith ctx cause addr wg detail).Inv := by
  unfold State.killWith
  split
  · exact h
  · exact h.postEvent.dropContext

theorem State.Inv.killContext {ctx cause fault} (h : s.Inv) : (s.killContext ctx cause fault).Inv := h.killWith
theorem State.Inv.killAt {ctx cause va} (h : s.Inv) : (s.killAt ctx cause va).Inv := h.killWith

theorem State.Inv.holdLanes {g rs r} (h : s.Inv) : (s.holdLanes g rs r).Inv := by
  unfold State.holdLanes
  refine .ite h ?_
  split
  · exact h.updWarp
  · exact h.updCore

theorem State.Inv.partGroup {g ps} (h : s.Inv) : (s.partGroup g ps).Inv := by
  unfold State.partGroup
  refine .update ?_
  split
  · exact h.updWarp
  · exact h.updCore

theorem State.Inv.settleReformed {core slot} (h : s.Inv) : (s.settleReformed core slot).Inv := h.updCore

theorem State.Inv.regroup {g o} (h : s.Inv) : (s.regroup g o).Inv := by
  unfold State.regroup
  split
  · exact h.updWarp.update
  · exact h.updCore.settleReformed.update

theorem State.Inv.rotate {g} (h : s.Inv) : (s.rotate g).Inv := by
  unfold State.rotate
  split
  · exact h.updWarp
  · exact h.updCore.settleReformed

theorem State.Inv.settleAt {g} (h : s.Inv) : (s.settleAt g).Inv := by
  unfold State.settleAt
  split
  · exact h.updWarp
  · exact h.settleReformed

theorem State.Inv.release {wg w lanes} (h : s.Inv) : (s.release wg w lanes).Inv := .ite h h.updWarp.update

theorem State.Inv.takeOut {core r} (h : s.Inv) : (s.takeOut core r).Inv := by
  unfold State.takeOut
  split
  · exact h
  · split
    · exact h
    · exact h.updLane.update.updCore.settleReformed

theorem State.Inv.unfile {core r} (h : s.Inv) : (s.unfile core r).Inv := h.updCore

theorem State.Inv.unbin {core r} (h : s.Inv) : (s.unbin core r).Inv := by
  unfold State.unbin
  split
  · exact h.takeOut.updLane
  · split
    · exact h
    · exact h.updLane.unfile

theorem State.Inv.haltOne {core v r f} (h : s.Inv) : (s.haltOne core v r f).Inv := by
  unfold State.haltOne
  split
  · exact h
  · refine .ite ?_ (.ite h.updLane.unbin h.updLane)
    split
    · exact h.updLane
    · exact h

theorem State.Inv.haltWarp {wg w fs} (h : s.Inv) : (s.haltWarp wg w fs).Inv := by
  unfold State.haltWarp
  split
  · exact .updWarp (.foldl h fun _ _ hs => hs.haltOne)
  · exact h

theorem State.Inv.haltSkid {wg w fs} (h : s.Inv) : (s.haltSkid wg w fs).Inv := by
  unfold State.haltSkid
  split
  · exact .update (.updWarp (.foldl h fun _ _ hs => hs.haltOne))
  · exact h

theorem State.Inv.haltRaising {wg trapping fs} (h : s.Inv) : (s.haltRaising wg trapping fs).Inv :=
  .foldl h fun _ _ hs => .updWarp (.ite hs.haltWarp hs.haltSkid)

theorem State.Inv.flushDebug {ctx} (h : s.Inv) : (s.flushDebug ctx).Inv := by
  unfold State.flushDebug
  refine .foldl h ?_
  intro _ _ hs
  split
  · exact .ite hs.storeBytes.update.updWg.updCtx hs
  · exact hs

theorem State.Inv.startTrap {wg f debug outer} (h : s.Inv) : (s.startTrap wg f debug outer).Inv := h.updWarp.updWg

theorem State.Inv.broadcast {wg} (h : s.Inv) : (s.broadcast wg).Inv := by
  unfold State.broadcast
  split
  · exact h
  · exact h.updWg.updCore

theorem State.Inv.causeWaits {rs} (h : s.Inv) : (s.causeWaits rs).Inv := by
  unfold State.causeWaits
  refine .foldl h ?_
  intro _ _ hs
  split <;> exact hs.holdLanes

theorem State.Inv.raiseIn {wg fs} (h : s.Inv) : (s.raiseIn wg fs).Inv := by
  unfold State.raiseIn
  split
  · refine .ite h.updWarp ?_
    refine .ite h.killContext ?_
    refine .ite h.causeWaits ?_
    refine .ite ?_ ?_
    · exact .ite h.haltRaising.haltWarp.startTrap h.haltRaising
    · refine .ite h.killContext ?_
      exact .ite h.broadcast.haltRaising.startTrap.flushDebug h.broadcast.haltRaising.startTrap
  · exact h

theorem State.Inv.raise {fs} (h : s.Inv) : (s.raise fs).Inv := .foldl h fun _ _ hs => hs.raiseIn
theorem State.Inv.raiseApart {fs} (h : s.Inv) : (s.raiseApart fs).Inv := h.raise
theorem State.Inv.emptyLatches {g} (h : s.Inv) : (s.emptyLatches g).Inv := h.update

theorem State.Inv.fileLane {core ctx pc wbase dslot r} (h : s.Inv) :
    (s.fileLane core ctx pc wbase dslot r).Inv :=
  h.updCore

theorem State.Inv.refile {g r} (h : s.Inv) : (s.refile g r).Inv := by
  unfold State.refile
  split
  · exact h
  · exact h.fileLane.updLane

theorem State.Inv.endHalt {wg g} (h : s.Inv) : (s.endHalt wg g).Inv := by
  unfold State.endHalt
  refine .flushDebug ?_
  refine .foldl ?_ fun _ _ hs => hs.traceRecord
  exact .foldl h.emptyLatches.updWg.update.updCore fun _ _ hs => hs.refile

theorem State.Inv.returnFromTrap {wg} (h : s.Inv) : (s.returnFromTrap wg).Inv := by
  unfold State.returnFromTrap
  split
  · exact h
  · split
    · exact h.emptyLatches.updWarp.update.updWg.traceRecord.flushDebug
    · exact h.endHalt

theorem State.Inv.park {s t : State} {ctx core va ls signer} (h : s.Inv)
    (e : s.park ctx core va ls signer = some t) : t.Inv := by
  unfold State.park at e
  dsimp only at e
  split at e
  · cases e
    exact .foldl (.update (.foldl h fun _ _ k => k.takeOut)) fun _ _ k => k.updLane
  · split at e
    · cases e
    · cases e
      exact .foldl (.update (.foldl (.ite h.update.postEvent h.update) fun _ _ k => k.takeOut)) fun _ _ k => k.updLane

/-! ### The front and the commits of lane instructions -/

theorem State.Inv.moveLanes {ls pc} (h : s.Inv) : (s.moveLanes ls pc).Inv := h.updLanes
theorem State.Inv.endIssue {x f faults} (h : s.Inv) : (s.endIssue x f faults).Inv := h.setHold.moveLanes.raise

theorem State.Inv.frontBin {i f bin l o} (h : s.Inv) (e : Machine.frontBin i f bin s l = .over o) : NextInv o := by
  unfold Machine.frontBin at e
  split at e
  · cases e; trivial
  · dsimp only at e
    split at e
    · cases e; exact h.setHold.raise
    · split at e
      · cases e; exact h.endIssue
      · split at e
        all_goals
          split at e
          · cases e; exact h.stall
          · cases e

theorem State.Inv.front {i f b l o} (h : s.Inv) (e : Machine.front i f b s l = .over o) : NextInv o := h.frontBin e
theorem State.Inv.endIdle {x f g} (h : s.Inv) : (s.endIdle x f g).Inv := h.setRows.endIssue
theorem State.Inv.shiftPipe {x words entry} (h : s.Inv) : (s.shiftPipe x words entry).Inv := h.setPipe
theorem State.Inv.addFlags {r fl} (h : s.Inv) : (s.addFlags r fl).Inv := .ite h h.updWarp
theorem State.Inv.addAllFlags {rs} (h : s.Inv) : (s.addAllFlags rs).Inv := .foldl h fun _ _ hs => hs.addFlags

theorem State.Inv.commitVec {x f g act rs faults} (h : s.Inv) : (s.commitVec x f g act rs faults).Inv := by
  unfold State.commitVec
  dsimp only
  split
  · exact h.endIssue
  · exact h.stall
  · exact .ite h.stall h.setRows.addAllFlags.shiftPipe.endIssue

theorem State.Inv.commitPred {x f g rs faults} (h : s.Inv) : (s.commitPred x f g rs faults).Inv :=
  .endIssue (.foldl (.addAllFlags (.ite h.setRows h)) fun _ _ hs => hs.updLane)

theorem State.Inv.commitUni {x f n words fl} (h : s.Inv) : (s.commitUni x f n words fl).Inv :=
  .ite h.addFlags.setHold h.addFlags.updWarp.endIssue

theorem State.Inv.commit {x f g act rs faults} (h : s.Inv) : (s.commit x f g act rs faults).Inv := by
  unfold State.commit
  split
  · exact h.addAllFlags.endIssue
  · exact .ite h.commitPred h.commitVec

theorem State.Inv.aluCommit {x e f g act val} (h : s.Inv) : (s.aluCommit x e f g act val).Inv := by
  unfold State.aluCommit
  refine .ite ?_ h.commit
  split
  · exact h.endIssue
  · split
    · exact h.endIssue
    · dsimp only
      split
      · exact h.addAllFlags.endIssue
      · exact h.commitUni

theorem State.Inv.aluStep {i f val} (h : s.Inv) : NextInv (Machine.aluStep i f val s) := by
  unfold Machine.aluStep
  split
  · exact h.front ‹_›
  · exact h.aluCommit

/-! ### The issue of a group -/

theorem State.Inv.switchGroup {x} (h : s.Inv) : (s.switchGroup x).Inv := .ite h.setPipe h.setPipe

theorem State.Inv.comparators {x w lit} (h : s.Inv) : (s.comparators x w lit).Inv :=
  .foldl (.foldl h fun _ _ hs => hs.traceRecord) fun _ _ hs => hs.updCtx

theorem State.Inv.visit {x} (h : s.Inv) : (s.visit x).Inv := by
  unfold State.visit
  split
  · exact h
  · exact .ite h h.updCtx.update

theorem State.Inv.passCycles {n} (h : s.Inv) : (s.passCycles n).Inv := h.update

/-! ### Completion registers, commands, launches -/

theorem State.Inv.advanceLane {r pc} (h : s.Inv) : (s.advanceLane r pc).Inv := h.updLane

theorem State.Inv.endHold {wg w q npc faults} (h : s.Inv) : (s.endHold wg w q npc faults).Inv := by
  unfold State.endHold
  refine .raise ?_
  refine .ite ?_ ?_
  · exact .updWarp (.foldl h.setHold fun _ _ hs => hs.advanceLane)
  · exact .regroup (.foldl h.setHold fun _ _ hs => hs.advanceLane)

theorem State.Inv.wakeWaitc {wg w n} (h : s.Inv) : (s.wakeWaitc wg w n).Inv := by
  unfold State.wakeWaitc
  split
  · exact h
  · refine .ite h ?_
    refine .foldl h ?_
    intro _ _ hs
    split
    · exact .ite hs.endHold hs
    · exact hs

theorem State.Inv.fall {r creg n err ue} (h : s.Inv) : (s.fall r creg n err ue).Inv := h.updWarp.wakeWaitc

theorem State.Inv.landSync {wg sync n error} (h : s.Inv) : (s.landSync wg sync n error).Inv := by
  unfold State.landSync
  refine .ite h ?_
  split
  · exact h
  · exact h.storeBytes

theorem State.Inv.unbindSlots {core ctx} (h : s.Inv) : (s.unbindSlots core ctx).Inv := .ite h h.updCore
theorem State.Inv.dropKept (h : s.Inv) : s.dropKept.Inv := h.update

theorem State.Inv.endWorkgroup {id} (h : s.Inv) : (s.endWorkgroup id).Inv := by
  unfold State.endWorkgroup
  split
  · exact h
  · exact .unbindSlots (.updCore (.update (.ite h.updWg h.update)))

theorem State.Inv.noteGo {r n go} (h : s.Inv) : (s.noteGo r n go).Inv := h.updWarp

theorem State.Inv.endCommand {id} (h : s.Inv) : (s.endCommand id).Inv := by
  unfold State.endCommand
  split
  · exact h
  · exact .dropKept (.fall (.landSync (.ite h.update.noteGo h.update)))

theorem State.Inv.landPart {id n} (h : s.Inv) : (s.landPart id n).Inv := by
  unfold State.landPart
  split
  · exact h
  · exact h.updCmd.landSync.fall

theorem State.Inv.writeFence {ctx fence value refused} (h : s.Inv) :
    (s.writeFence ctx fence value refused).Inv := by
  unfold State.writeFence
  refine .ite h ?_
  dsimp only
  split
  · split
    · exact h.storeBytes
    · exact h
  · exact .ite h.storeBytes h
  · exact h

theorem State.Inv.endLaunch {l} (h : s.Inv) : (s.endLaunch l).Inv := by
  unfold State.endLaunch
  dsimp only
  split
  · exact h.update.updCmd.endCommand
  · split
    · exact .ite h.update.writeFence.fall h.update.writeFence
    · exact h.update.writeFence
  · exact h.update
  · exact h.update

theorem State.Inv.settleSteps {n} (h : s.Inv) : (State.settleSteps n s).Inv := by
  induction n generalizing s with
  | zero => exact h
  | succ n ih =>
    unfold State.settleSteps
    split
    · exact ih h.endLaunch
    · split
      · exact ih (.endCommand h.updCtx)
      · exact h

theorem State.Inv.freeDead (h : s.Inv) : s.freeDead.Inv := .ite h h.update
theorem State.Inv.settle (h : s.Inv) : s.settle.Inv := h.settleSteps.freeDead

/-! ### Waits, barriers, joins, exits -/

theorem State.Inv.setAt {w st} (h : s.Inv) : (s.setAt w st).Inv := h.updWarp

theorem State.Inv.setLaneRows {r rows} (h : s.Inv) : (s.setLaneRows r rows).Inv := by
  unfold State.setLaneRows
  split
  · exact h.updCore
  · exact h.updWarp

theorem State.Inv.wake {rs} (h : s.Inv) : (s.wake rs).Inv := by
  unfold State.wake
  refine .ite ?_ ?_
  · exact .foldl (.foldl h fun _ _ hs => hs.updLane) fun _ _ hs => hs.release
  · refine .foldl ?_ ?_
    · exact .update (.foldl (.foldl h fun _ _ hs => hs.updLane) fun _ _ hs => hs.release)
    · exact fun _ _ hs => .foldl hs fun _ _ ht => ht.settleReformed

theorem State.Inv.giveBack {r k} (h : s.Inv) : (s.giveBack r k).Inv := .ite h h.updLane

theorem State.Inv.keepRegs {r} (h : s.Inv) : (s.keepRegs r).Inv := by
  unfold State.keepRegs
  split
  · exact h.giveBack
  · exact h

theorem State.Inv.waitFaults {fs} (h : s.Inv) : (s.waitFaults fs).Inv :=
  .raiseApart (.updLanes (.foldl h fun _ _ hs => hs.keepRegs))

theorem State.Inv.waitFault {r c d} (h : s.Inv) : (s.waitFault r c d).Inv := h.waitFaults

theorem State.Inv.landWords {s t : State} {r ws p d} (h : s.Inv) (e : s.landWords r ws p d = .over t) : t.Inv := by
  unfold State.landWords at e
  dsimp only at e
  split at e
  · cases e
    split
    · exact h.updLane
    · exact h
  · split at e
    · cases e
      split
      · exact h.setLaneRows.updLane
      · exact h.setLaneRows
    · cases e
    · cases e
    · cases e
      split
      · exact h.updLane
      · exact h

theorem State.Inv.landAll {es} (h : s.Inv) : (State.landAll es s).1.Inv := by
  induction es generalizing s with
  | nil => exact h
  | cons e rest ih =>
    unfold State.landAll
    split
    · exact ih (h.landWords ‹_›)
    · exact ih h.setAt
    · exact ih h

theorem State.Inv.satisfyAll {es} (h : s.Inv) : (s.satisfyAll es).Inv :=
  .waitFaults (.wake (.landAll (.foldl h fun _ _ hs => hs.setAt)))

theorem State.Inv.landLate {rs} (h : s.Inv) : (s.landLate rs).Inv := by
  unfold State.landLate
  split
  · exact h
  · exact h.satisfyAll

theorem State.Inv.wakeSettled {ctx} (h : s.Inv) : (s.wakeSettled ctx).Inv := h.satisfyAll.waitFaults

theorem State.Inv.setBarrier {g w sc n b} (h : s.Inv) : (s.setBarrier g w sc n b).Inv := by
  unfold State.setBarrier
  split
  · exact h.updWarp
  · exact h.updWg
  · exact h.updLaunch
  · exact h.updLaunch

theorem State.Inv.completePhases {k g w sc n} (h : s.Inv) : (State.completePhases k s g w sc n).Inv := by
  induction k generalizing s g with
  | zero => exact h
  | succ k ih =>
    unfold State.completePhases
    exact .ite (ih (.satisfyAll (.updLanes h.setBarrier))) h.setBarrier

theorem State.Inv.catchUp {g} (h : s.Inv) : (s.catchUp g).Inv := .foldl h fun _ _ hs => hs.updLanes.satisfyAll
theorem State.Inv.barriersOf {g w} (h : s.Inv) : (s.barriersOf g w).Inv := .foldl h fun _ _ hs => hs.completePhases

theorem State.Inv.settleJoins {wg w} (h : s.Inv) : (s.settleJoins wg w).Inv := by
  unfold State.settleJoins
  dsimp only
  split
  · exact .ite h.updWarp.update.updWarp.raise h.updWarp.update
  · exact h.updWarp.update

theorem State.Inv.nullFragment {ctx p} (h : s.Inv) : (s.nullFragment ctx p).Inv := .ite h h.updTarget
theorem State.Inv.dropLoads {r} (h : s.Inv) : (s.dropLoads r).Inv := .ite h h.setLaneRows.update

theorem State.Inv.leaveReformed {r} (h : s.Inv) : (s.leaveReformed r).Inv := by
  unfold State.leaveReformed
  split
  · exact h.updCore.settleReformed.updLane
  · exact h

theorem State.Inv.leaveBin {r} (h : s.Inv) : (s.leaveBin r).Inv := by
  unfold State.leaveBin
  split
  · exact h.unfile
  · exact h

theorem State.Inv.exitLane {ctx r} (h : s.Inv) : (s.exitLane ctx r).Inv := by
  unfold State.exitLane
  refine .updLane ?_
  refine .leaveBin ?_
  refine .leaveReformed ?_
  refine .dropLoads ?_
  split
  · exact h.nullFragment
  · exact h

theorem State.Inv.endIfGone {wg} (h : s.Inv) : (s.endIfGone wg).Inv := by
  unfold State.endIfGone
  split
  · exact .ite (.ite h.endWorkgroup.settle h) h.landLate
  · exact h

theorem State.Inv.afterLanes {wg w} (h : s.Inv) : (s.afterLanes wg w).Inv := by
  unfold State.afterLanes
  split
  · refine .wakeSettled ?_
    refine .endIfGone ?_
    refine .settleJoins ?_
    split
    · exact .barriersOf (.updWarp (.foldl h fun _ _ hs => hs.exitLane))
    · exact .updWarp (.foldl h fun _ _ hs => hs.exitLane)
  · exact h

theorem State.Inv.afterAll {rs} (h : s.Inv) : (s.afterAll rs).Inv := .foldl h fun _ _ hs => hs.afterLanes

theorem State.Inv.wakeChanges {wg w} (h : s.Inv) : (s.wakeChanges wg w).Inv := by
  unfold State.wakeChanges
  split
  · exact h
  · refine .foldl h ?_
    intro _ _ hs
    split
    · exact .ite hs hs.endHold
    · exact hs

theorem State.Inv.raiseLost {refs} (h : s.Inv) : (s.raiseLost refs).Inv := h.waitFaults.updLanes.raiseApart

theorem State.Inv.afterHalt {wg} (h : s.Inv) : (s.afterHalt wg).Inv := by
  unfold State.afterHalt
  split
  · exact h
  · refine .raiseLost ?_
    refine .wakeSettled ?_
    exact .foldl h.satisfyAll fun _ _ hs => .foldl hs.settleJoins.wakeChanges fun _ _ ht => ht.wakeWaitc

theorem State.Inv.endTrap {wg} (h : s.Inv) : (s.endTrap wg).Inv := h.returnFromTrap.afterHalt

theorem State.Inv.unpark {rs} (h : s.Inv) : (s.unpark rs).Inv := by
  unfold State.unpark
  split
  · exact h
  · exact .update (.updWarp (.foldl h fun _ _ hs => hs.updLane))

/-! ### Memory accesses -/

theorem State.Inv.landResult {a words} (h : s.Inv) : (s.landResult a words).Inv := by
  unfold State.landResult
  refine .update ?_
  refine .ite ?_ ?_
  · split
    · exact h.updCore
    · exact h.updWarp
  · refine .updLane ?_
    split
    · exact h.updCore
    · exact h.updWarp

theorem State.Inv.perform {a} (h : s.Inv) : (s.perform a).Inv := by
  unfold State.perform
  dsimp only
  split
  · exact h.update.landResult
  · exact h.update.landResult
  · exact h.update.storeBytes.landResult
  · exact h.update.storeBytes.landResult
  · exact h.update.storeBytes
  · exact h.update.update
  · exact h.update.storeBytes.landResult

theorem State.Inv.applyQueued {q} (h : s.Inv) : (s.applyQueued q).Inv := .ite h h.storeBytes
theorem State.Inv.applyLine {line} (h : s.Inv) : (s.applyLine line).Inv := .foldl h.update fun _ _ hs => hs.applyQueued
theorem State.Inv.performNow {a} (h : s.Inv) : (s.performNow a).Inv := .perform (.foldl h fun _ _ hs => hs.applyLine)
theorem State.Inv.endAllGone (h : s.Inv) : s.endAllGone.Inv := .foldl h fun _ _ hs => hs.endIfGone
theorem State.Inv.performAll {mine} (h : s.Inv) : (s.performAll mine).Inv := .foldl h fun _ _ hs => hs.performNow

theorem State.Inv.drain {r} (h : s.Inv) : (s.drain r).Inv :=
  .ite h (.endAllGone (.foldl h.performAll fun _ _ hs => hs.applyLine))

theorem State.Inv.poisonLine {line} (h : s.Inv) : (s.poisonLine line).Inv := .addPoison (.ite h.performAll.endAllGone h)

theorem State.Inv.parkLanes {x ps} (h : s.Inv) : (s.parkLanes x ps).Inv :=
  .ite h.killContext (.foldl h fun _ _ hs => .getD hs fun _ e => hs.park e)

theorem State.Inv.holdUnparked {x rs} (h : s.Inv) : (s.holdUnparked x rs).Inv := h.holdLanes

theorem State.Inv.endMem {x f faults parks} (h : s.Inv) : (s.endMem x f faults parks).Inv := by
  unfold State.endMem
  refine .ite ?_ ?_
  · exact h.setHold.moveLanes.parkLanes.raise
  · exact h.setHold.moveLanes.parkLanes.raise.regroup.holdUnparked.afterAll

theorem State.Inv.issueMem {x f g act acq rel ask} (h : s.Inv) : (s.issueMem x f g act acq rel ask).Inv := by
  unfold State.issueMem
  refine .ite h.stall ?_
  refine .ite ?_ ?_
  · exact .stall (.foldl h fun _ _ hs => hs.startWalk)
  · dsimp only
    split
    · exact h.endMem
    · exact h.stall
    · exact .ite h.stall (.endMem (.ite h.setRows.update.shiftPipe h.setRows.update))

/-! ### Methods -/

theorem State.Inv.aluExec {i f val} (h : s.Inv) : NextInv (Machine.aluExec i f val s) := by
  unfold Machine.aluExec
  split
  · exact h.update
  · exact h.aluStep

theorem State.Inv.methodExec {i f act} (h : s.Inv) : NextInv (Machine.methodExec i f act s) := by
  unfold Machine.methodExec
  split
  · exact h.update
  · split
    · exact h.front ‹_›
    · exact h.endIssue

/-! ### Control instructions -/

/-- The lanes of an issue one after another, each by a step that keeps memory canonical. -/
theorem State.Inv.eachLane {x e f g k act t} (h : s.Inv)
    (hk : ∀ a args s, s.Inv → (k a args s).1.Inv) : (Machine.eachLane x e f g k act s t).1.Inv := by
  induction act generalizing s t with
  | nil => exact h
  | cons a rest ih =>
    unfold Machine.eachLane
    split
    · exact ih h
    · next args _ =>
      have hs := hk a args s h
      split <;> next e => rw [e] at hs; exact ih hs

theorem State.Inv.laneBody {x e f g act hint wait k} (h : s.Inv) (hk : ∀ a args s, s.Inv → (k a args s).1.Inv) :
    (s.laneBody x e f g act hint wait k).1.Inv := by
  unfold State.laneBody
  dsimp only
  split
  · exact .stall (.foldl h fun _ _ hs => hs.startWalk)
  · split
    · exact .holdUnparked (.regroup (.parkLanes (.setRows (h.setHold.moveLanes.eachLane hk))))
    · exact .holdUnparked (.regroup (.parkLanes (h.setHold.moveLanes.eachLane hk)))

theorem State.Inv.laneEnd {p left} (h : p.1.Inv) : (State.laneEnd p left).Inv := h.raise.afterAll

theorem State.Inv.laneStep {i f forbidden hint k} (h : s.Inv) (hk : ∀ x a args s, s.Inv → (k x a args s).1.Inv) :
    NextInv (Machine.laneStep i f forbidden hint k s) := by
  unfold Machine.laneStep
  split
  · exact h.front ‹_›
  · exact State.Inv.laneEnd (h.laneBody fun _ _ _ hs => hk _ _ _ _ hs)

theorem State.Inv.onceFault {x f act c d} (h : s.Inv) : (s.onceFault x f act c d).Inv := h.endIssue

theorem State.Inv.onceStep {i f forbidden k idle} (h : s.Inv) (hk : ∀ x e g act s, s.Inv → (k x e g act s).Inv)
    (hidle : ∀ x g s, s.Inv → (idle x g s).Inv) :
    NextInv (Machine.onceStep i f forbidden k s idle) := by
  unfold Machine.onceStep
  split
  · exact h.front ‹_›
  · show State.Inv _
    refine .ite (hidle _ _ _ h) ?_
    split
    · exact h.onceFault
    · exact hk _ _ _ _ _ h

theorem State.Inv.execNop {f} (h : s.Inv) : NextInv (Machine.execNop f s) := by
  unfold Machine.execNop
  split
  · exact h.update
  · split
    · exact h.front ‹_›
    · exact h.endIssue

theorem State.Inv.execExit {f} (h : s.Inv) : NextInv (Machine.execExit f s) := by
  unfold Machine.execExit
  split
  · exact h.update
  · split
    · exact h.front ‹_›
    · exact State.Inv.laneEnd (h.laneBody fun _ _ _ hs => hs.exitLane)

theorem State.Inv.branchStep {i f target} (h : s.Inv) : NextInv (Machine.branchStep i f target s) := by
  unfold Machine.branchStep
  split
  · exact h.front ‹_›
  · exact State.Inv.laneEnd (.laneBody (.ite h.rotate h) fun _ _ _ hs => hs.moveLanes)

theorem State.Inv.braBody {i f} (h : s.Inv) : NextInv (Machine.braBody i f s) := by
  unfold Machine.braBody
  split
  · exact h.update
  · exact h.branchStep

theorem State.Inv.pushStore {x r phys bs} (h : s.Inv) : (s.pushStore x r phys bs).Inv := h.update

theorem State.Inv.callLane {f target x a args} (h : s.Inv) : (Machine.callLane f target x a args s).1.Inv := by
  unfold Machine.callLane
  dsimp only
  split
  · exact h
  · split
    · exact h
    · split
      · exact h.updLane
      · split
        · exact h
        · split
          · exact h.pushStore.updLane
          · exact h
          · exact h
          · exact h

theorem State.Inv.callStep {i f target} (h : s.Inv) : NextInv (Machine.callStep i f target s) := by
  unfold Machine.callStep
  split
  · exact h.front ‹_›
  · exact State.Inv.laneEnd (h.laneBody fun _ _ _ hs => hs.callLane)

theorem State.Inv.retTo {x a q stack spilled} (h : s.Inv) : (Machine.retTo x a q stack spilled s).1.Inv := by
  unfold Machine.retTo
  split
  · exact h
  · split
    · exact h
    · exact h.updLane

theorem State.Inv.retLane {x a x1} (h : s.Inv) : (Machine.retLane x a x1 s).1.Inv := by
  unfold Machine.retLane
  split
  · exact h.retTo
  · split
    · exact h
    · dsimp only
      split
      · exact h.drain.retTo
      · exact h
      · exact h
      · exact h

theorem State.Inv.execRet {f} (h : s.Inv) : NextInv (Machine.execRet f s) := by
  unfold Machine.execRet
  split
  · exact h.front ‹_›
  · exact State.Inv.laneEnd (h.laneBody fun _ _ _ hs => hs.retLane)

theorem State.Inv.joinLane {f x a args} (h : s.Inv) : (Machine.joinLane f x a args s).1.Inv := by
  unfold Machine.joinLane
  dsimp only
  split <;> exact h.updLane

theorem State.Inv.execJoin {f} (h : s.Inv) : NextInv (Machine.execJoin f s) := by
  unfold Machine.execJoin
  split
  · exact h.front ‹_›
  · exact .ite h.endIssue (State.Inv.laneEnd (.rotate (h.laneBody fun _ _ _ hs => hs.joinLane)))

theorem State.Inv.reformLane {f x a args} (h : s.Inv) : (Machine.reformLane f x a args s).1.Inv := by
  unfold Machine.reformLane
  dsimp only
  split
  · exact h
  · split
    · exact h
    · exact h.leaveReformed.updLane.fileLane

theorem State.Inv.execReform {f} (h : s.Inv) : NextInv (Machine.execReform f s) := by
  unfold Machine.execReform
  split
  · exact trivial
  · split
    · exact h.front ‹_›
    · exact State.Inv.ite h.stall (.laneEnd (h.laneBody fun _ _ _ hs => hs.reformLane))

theorem State.Inv.homeLane {f x a} (h : s.Inv) : (Machine.homeLane f x a s).1.Inv := by
  unfold Machine.homeLane
  dsimp only
  split
  · exact h.moveLanes
  · split
    · exact h
    · split
      · exact h
      · exact h
      · exact h.leaveReformed.updWarp.update

theorem State.Inv.execReformHome {f} (h : s.Inv) : NextInv (Machine.execReformHome f s) := by
  unfold Machine.execReformHome
  split
  · exact trivial
  · dsimp only
    split
    · exact h.front ‹_›
    · exact State.Inv.ite h.stall (.laneEnd (h.laneBody fun _ _ _ hs => hs.homeLane))

theorem State.Inv.predEach {x f g act b} (h : s.Inv) : (s.predEach x f g act b).Inv := h.commitPred

theorem State.Inv.execElect {f} (h : s.Inv) : NextInv (Machine.execElect f s) := by
  unfold Machine.execElect
  split
  · exact h.front ‹_›
  · exact h.predEach

theorem State.Inv.onceVal {x f act words} (h : s.Inv) : (s.onceVal x f act words).Inv := .ite h.endIssue h.commitUni

theorem State.Inv.execVoteActive {f} (h : s.Inv) : NextInv (Machine.execVoteActive f s) := by
  unfold Machine.execVoteActive
  split
  · exact h.front ‹_›
  · exact h.onceVal

theorem State.Inv.execVote {f} (h : s.Inv) : NextInv (Machine.execVote f s) := by
  unfold Machine.execVote
  split
  · exact h.front ‹_›
  · dsimp only
    split
    · exact h.predEach
    · exact h.predEach
    · exact h.onceVal

theorem State.Inv.windowLane {f a args} (h : s.Inv) : (Machine.windowLane f a args s).1.Inv := by
  unfold Machine.windowLane
  dsimp only
  split
  · split
    · exact h
    · exact h.updLane
  · split
    · exact h
    · exact h.updLane

theorem State.Inv.execWindow {f} (h : s.Inv) : NextInv (Machine.execWindow f s) := by
  unfold Machine.execWindow
  refine h.laneStep ?_
  intro _ _ _ _ hs
  split
  · exact .moveLanes (.fst_eq hs.windowLane ‹_›)
  · exact hs.windowLane

theorem State.Inv.trapLane {f c x a x1} (h : s.Inv) : (Machine.trapLane f c x a x1 s).1.Inv := h.moveLanes
theorem State.Inv.execTrap {f} (h : s.Inv) : NextInv (Machine.execTrap f s) := h.laneStep fun _ _ _ _ hs => hs.trapLane
theorem State.Inv.execBkpt {f} (h : s.Inv) : NextInv (Machine.execBkpt f s) := h.laneStep fun _ _ _ _ hs => hs.trapLane

theorem State.Inv.execRte {f} (h : s.Inv) : NextInv (Machine.execRte f s) :=
  h.onceStep (fun _ _ _ _ _ hs => .ite hs.endTrap hs.onceFault) fun _ _ _ hs => hs.endIdle

theorem State.Inv.yieldLane {f x a x1} (h : s.Inv) : (Machine.yieldLane f x a x1 s).1.Inv := by
  unfold Machine.yieldLane
  dsimp only
  split
  · exact h.updLane
  · exact h.moveLanes

theorem State.Inv.execYield {f} (h : s.Inv) : NextInv (Machine.execYield f s) :=
  h.laneStep fun _ _ _ _ hs => hs.yieldLane

theorem State.Inv.execWaitc {f} (h : s.Inv) : NextInv (Machine.execWaitc f s) := by
  unfold Machine.execWaitc
  refine h.onceStep ?_ fun _ _ _ hs => hs.endIdle
  intro _ _ _ _ _ hs
  dsimp only
  split
  · exact hs
  · refine .ite ?_ hs.setHold.settleAt
    split
    · exact hs.onceFault
    · exact hs.endIssue

theorem State.Inv.execSleep {f} (h : s.Inv) : NextInv (Machine.execSleep f s) := by
  unfold Machine.execSleep
  refine h.onceStep ?_ fun _ _ _ hs => hs.endIdle
  exact fun _ _ _ _ _ hs => .ite hs.endIssue.rotate hs.updLanes.setHold.rotate

/-! ### Floating-point instructions -/

theorem State.Inv.setSeed {x v} (h : s.Inv) : (s.setSeed x v).Inv := h.updWarp

theorem State.Inv.cvtSr {f} (h : s.Inv) : NextInv (Machine.cvtSr f s) := by
  unfold Machine.cvtSr
  split
  · exact h.front ‹_›
  · exact State.Inv.ite h.aluCommit h.aluCommit.setSeed

theorem State.Inv.execCvt {f} (h : s.Inv) : NextInv (Machine.execCvt f s) := by
  unfold Machine.execCvt
  split
  · exact h.aluExec
  · exact .ite h.cvtSr h.aluExec

/-! ### Objects and their service -/

theorem State.Inv.putEntry {o e} (h : s.Inv) : (s.putEntry o e).Inv := .foldl h fun _ _ hs => hs.storeBytes

theorem State.Inv.appendCall {ctx o k die args} (h : s.Inv) : (s.appendCall ctx o k die args).Inv :=
  h.updObject.putEntry

theorem State.Inv.commitState {base ws} (h : s.Inv) : (s.commitState base ws).Inv :=
  .foldl h fun _ _ hs => hs.storeBytes

theorem State.Inv.trimObject {ctx hd} (h : s.Inv) : (s.trimObject ctx hd).Inv := by
  unfold State.trimObject
  split
  · exact h
  · exact h.updObject

theorem State.Inv.postObjectEvent {ctx hd purpose} (h : s.Inv) : (s.postObjectEvent ctx hd purpose).Inv :=
  h.postEvent.updCtx

theorem State.Inv.askTrim {ctx hd issued} (h : s.Inv) : (s.askTrim ctx hd issued).Inv := by
  unfold State.askTrim
  split
  · exact h
  · exact .ite h.updObject.postObjectEvent h

theorem State.Inv.servedLane {ctx h v e} (k : v.s.Inv) : (Served.lane ctx h v e).s.Inv := by
  unfold Served.lane
  dsimp only
  repeat' split
  all_goals first | exact k | exact k.appendCall.setAt | exact k.askTrim

theorem State.Inv.serveObject {ctx hd} (h : s.Inv) : (s.serveObject ctx hd).Inv := by
  unfold State.serveObject
  dsimp only
  refine .raise (.updLanes (.satisfyAll ?_))
  exact List.foldlRecOn (motive := fun v : Served => v.s.Inv) _ _ (State.Inv.ite h h.trimObject) fun _ hv _ _ => hv.servedLane

/-! ### Dictionary slots -/

theorem State.Inv.parkOnce {x f act ea} (h : s.Inv) : (s.parkOnce x f act ea).Inv := by
  unfold State.parkOnce
  refine .ite h.killContext ?_
  dsimp only
  split
  · exact h.stall
  · exact .afterAll (.regroup (.moveLanes (.setHold (h.park ‹_›))))

theorem State.Inv.startWalks {core ctx cs} (h : s.Inv) : (s.startWalks core ctx cs).Inv :=
  .foldl h fun _ _ hs => hs.startWalk

theorem State.Inv.onceChecked {s k : State} {x f act cs} (h : s.Inv) (hs : k.Inv) :
    (s.onceChecked x f act cs k).Inv := by
  unfold State.onceChecked
  split
  · exact hs
  · exact h.onceFault
  · exact h.parkOnce
  · exact h.startWalks.stall

theorem State.Inv.drainAll {x} (h : s.Inv) : (s.drainAll x).Inv := .foldl h fun _ _ hs => hs.drain

theorem State.Inv.bindSlot {s t : State} {core ctx prog n} (h : s.Inv)
    (e : s.bindSlot core ctx prog = some (n, t)) : t.Inv := by
  unfold State.bindSlot at e
  split at e
  · cases e; exact h
  · split at e
    · cases e
    · split at e
      · cases e
      · cases e; exact h.updCore

theorem State.Inv.addJob {core j} (h : s.Inv) : (s.addJob core j).Inv := h.updCore.update

theorem State.Inv.trapLoad {ctx core} (h : s.Inv) : (s.trapLoad ctx core).Inv := by
  unfold State.trapLoad
  split
  · exact h
  · refine .ite h ?_
    split
    · exact h
    · exact .ite (h.bindSlot ‹_›) (.addJob (h.bindSlot ‹_›))

theorem State.Inv.startLoad {x f act k va first count lines} (h : s.Inv) :
    (s.startLoad x f act k va first count lines).Inv := by
  unfold State.startLoad
  refine .ite h.onceFault ?_
  split
  · exact h.onceFault
  · exact .endIssue (.updWarp (.addJob (h.bindSlot ‹_›)))

theorem State.Inv.execDictld {f} (h : s.Inv) : NextInv (Machine.execDictld f s) := by
  unfold Machine.execDictld
  refine h.onceStep ?_ fun _ _ _ hs => hs.endIdle
  intro _ _ _ _ _ hs
  refine .ite hs.onceFault ?_
  refine hs.drainAll.onceChecked ?_
  split
  · exact hs.drainAll.onceFault
  · exact hs.drainAll.onceChecked hs.drainAll.startLoad

theorem State.Inv.execDictsw {f} (h : s.Inv) : NextInv (Machine.execDictsw f s) :=
  h.onceStep (fun _ _ _ _ _ hs => .ite hs.onceFault hs.updWarp.endIssue) fun _ _ _ hs => hs.endIdle

theorem State.Inv.fenceSlots {x f act v} (h : s.Inv) : (s.fenceSlots x f act v).Inv := by
  unfold State.fenceSlots
  refine .ite h.updWarp.onceFault ?_
  exact .ite h.onceFault (.ite h.updWarp.endIssue h.updWarp.endIssue.traceRecord)

theorem State.Inv.execDfence {f} (h : s.Inv) : NextInv (Machine.execDfence f s) := by
  unfold Machine.execDfence
  refine h.onceStep ?_ fun _ _ _ hs => hs.endIdle
  intro _ _ _ _ _ hs
  split
  · exact hs
  · exact .ite hs.stall hs.fenceSlots

theorem State.Inv.execSwriteTrapdict {f} (h : s.Inv) : NextInv (Machine.execSwriteTrapdict f s) := by
  unfold Machine.execSwriteTrapdict
  refine h.onceStep ?_ fun _ _ _ hs => hs.endIdle
  intro _ _ _ _ _ hs
  split
  · exact hs.onceFault
  · exact .ite hs.onceFault (.endIdle (.foldl hs.updCtx fun _ _ ht => ht.trapLoad))

theorem State.Inv.finishLoad {core j unreadable} (h : s.Inv) : (s.finishLoad core j unreadable).Inv := by
  unfold State.finishLoad
  refine .traceRecord ?_
  split
  · refine .updWg ?_
    split
    · exact h.updCore.updWarp
    · exact h.updCore
  · split
    · exact h.updCore.updWarp
    · exact h.updCore

theorem State.Inv.loadTrap {core j us} (h : s.Inv) : (s.loadTrap core j us).Inv := by
  have bad : ∀ {u : State} (b : Nat × Chk), u.Inv →
      (match b.2 with
        | .fault c => u.killContext j.ctx c
        | .absent => (u.park j.ctx core b.1 [] false).getD u
        | _ => u : State).Inv := by
    intro u b k
    split
    · exact k.killContext
    · exact .getD k fun _ e => k.park e
    · exact k
  unfold State.loadTrap
  dsimp only
  split
  · exact bad _ h
  · refine .ite h.killContext ?_
    split
    · exact h.killContext
    · split
      · exact bad _ h
      · exact h.finishLoad

theorem State.Inv.execDictSlotLoad {core phys unreadable} (h : s.Inv) :
    NextInv (Machine.execDictSlotLoad core phys unreadable s) := by
  unfold Machine.execDictSlotLoad
  split
  · exact h
  · exact State.Inv.ite h.loadTrap h.finishLoad

theorem State.Inv.execDictSlotUe {core phys} (h : s.Inv) : NextInv (Machine.execDictSlotUe core phys s) :=
  State.Inv.ite h.updCore h

/-! ### Special registers -/

theorem State.Inv.execSread {f} (h : s.Inv) : NextInv (Machine.execSread f s) := by
  unfold Machine.execSread
  split
  · exact h.front ‹_›
  · exact State.Inv.ite h.onceVal h.commit

theorem LeftInv.left {r : State ⊕ Cause} {t : State} (h : LeftInv r) (e : r = .inl t) : t.Inv := by
  subst e; exact h

theorem State.Inv.swriteStep {i f priv k} (h : s.Inv) (hk : ∀ x v s, s.Inv → LeftInv (k x v s)) :
    NextInv (Machine.swriteStep i f priv k s) := by
  refine h.onceStep (fun x _ _ _ s h => ?_) fun _ _ _ k => k.endIdle
  split
  · exact h.onceFault
  · refine .ite h.onceFault ?_
    split
    · exact .endIssue (.setRows (LeftInv.left (hk _ _ _ h) ‹_›))
    · exact h.onceFault

theorem State.Inv.writeCtx {ctx k} (h : s.Inv) : LeftInv (s.writeCtx ctx k) := by
  unfold State.writeCtx
  split
  · exact h
  · split
    · exact h.updCtx
    · exact trivial

theorem State.Inv.swriteEffect {n x v} (h : s.Inv) : LeftInv (Machine.swriteEffect n x v s) := by
  unfold Machine.swriteEffect
  split
  · exact h.updWarp
  · split
    · exact trivial
    · exact h.updWarp
  · exact h.updWarp
  · split
    · exact trivial
    · exact h.writeCtx
  · exact h.writeCtx

theorem State.Inv.execSwrite {f} (h : s.Inv) : NextInv (Machine.execSwrite f s) :=
  h.swriteStep fun _ _ _ hs => hs.swriteEffect

theorem State.Inv.execSwriteSrseed {f} (h : s.Inv) : NextInv (Machine.execSwriteSrseed f s) :=
  h.swriteStep fun _ _ _ hs => hs.updWarp

theorem State.Inv.execSwriteCexctl {f} (h : s.Inv) : NextInv (Machine.execSwriteCexctl f s) :=
  h.swriteStep fun _ _ _ hs => hs.writeCtx

theorem State.Inv.execSwritePcmp {f} (h : s.Inv) : NextInv (Machine.execSwritePcmp f s) := by
  unfold Machine.execSwritePcmp
  refine h.swriteStep ?_
  intro _ _ _ hs
  dsimp only
  split
  · exact trivial
  · exact hs.updCore

theorem State.Inv.trappcLane {f x a args} (h : s.Inv) : (Machine.trappcLane f x a args s).1.Inv := by
  unfold Machine.trappcLane
  split
  · exact h
  · exact h.updLane

theorem State.Inv.execSwriteTrappc {f} (h : s.Inv) : NextInv (Machine.execSwriteTrappc f s) :=
  h.laneStep fun _ _ _ _ hs => hs.trappcLane

/-! ### Memory instructions -/

theorem State.Inv.memStep {i f acq rel ask} (h : s.Inv) : NextInv (Machine.memStep i f acq rel ask s) := by
  unfold Machine.memStep
  split
  · exact h.front ‹_›
  · exact h.issueMem

theorem State.Inv.execLd {f} (h : s.Inv) : NextInv (Machine.execLd f s) := h.memStep

theorem State.Inv.issueHatch {x f g as es} (h : s.Inv) : (s.issueHatch x f g as es).Inv :=
  .ite (.stall (.foldl h fun _ _ hs => hs.startWalk)) h.update.updWarp.setHold

theorem State.Inv.execSt {f} (h : s.Inv) : NextInv (Machine.execSt f s) := by
  unfold Machine.execSt
  split
  · exact h.front ‹_›
  · dsimp only
    split
    · exact State.Inv.ite h.issueMem h.issueHatch
    · exact h.issueMem

theorem State.Inv.execLds {f} (h : s.Inv) : NextInv (Machine.execLds f s) := by
  unfold Machine.execLds
  refine h.onceStep ?_ fun _ _ _ hs => hs.endIdle
  exact fun _ _ _ _ _ hs => .ite hs.drainAll.commitUni (hs.drainAll.onceChecked hs.drainAll.commitUni)

theorem State.Inv.prefLane {f x args} (h : s.Inv) : (Machine.prefLane f x args s).Inv := by
  unfold Machine.prefLane
  dsimp only
  split
  · split
    · exact h.startWalk
    · exact .ite (.getD h fun _ e => h.park e) h
  · exact h

theorem State.Inv.execPref {f} (h : s.Inv) : NextInv (Machine.execPref f s) := by
  unfold Machine.execPref
  split
  · exact h.frontBin ‹_›
  · show State.Inv _
    refine .endIdle ?_
    refine .foldl h ?_
    intro _ _ hs
    split
    · exact hs.prefLane
    · exact hs

theorem State.Inv.execLdv {f} (h : s.Inv) : NextInv (Machine.execLdv f s) := h.memStep
theorem State.Inv.execStv {f} (h : s.Inv) : NextInv (Machine.execStv f s) := h.memStep
theorem State.Inv.execAtom {f} (h : s.Inv) : NextInv (Machine.execAtom f s) := h.memStep
theorem State.Inv.execAtomv {f} (h : s.Inv) : NextInv (Machine.execAtomv f s) := h.memStep
theorem State.Inv.execCas {f} (h : s.Inv) : NextInv (Machine.execCas f s) := h.memStep
theorem State.Inv.execRed {f} (h : s.Inv) : NextInv (Machine.execRed f s) := h.memStep
theorem State.Inv.execRedv {f} (h : s.Inv) : NextInv (Machine.execRedv f s) := h.memStep

theorem State.Inv.execFence {f} (h : s.Inv) : NextInv (Machine.execFence f s) := by
  unfold Machine.execFence
  split
  · exact h.front ‹_›
  · exact State.Inv.ite h.endIssue h.stall

theorem State.Inv.execLineZero {f} (h : s.Inv) : NextInv (Machine.execLineZero f s) := h.memStep

theorem State.Inv.execLineProbe {f} (h : s.Inv) : NextInv (Machine.execLineProbe f s) := by
  unfold Machine.execLineProbe
  split
  · exact h.front ‹_›
  · refine .ite ?_ ?_
    · exact State.Inv.stall (.foldl h.drainAll fun _ _ hs => hs.startWalk)
    · show State.Inv _
      refine .endMem ?_
      refine .foldl ?_ ?_
      · exact .ite h.drainAll.setRows h.drainAll
      · intro _ _ hs
        split
        · exact hs.updLane
        · exact hs

theorem State.Inv.issueWait {x f g act pred held late} (h : s.Inv) :
    (s.issueWait x f g act pred held late).Inv := by
  unfold State.issueWait
  refine .ite ?_ ?_
  · exact .stall (.foldl h fun _ _ hs => hs.startWalk)
  · dsimp only
    split
    · exact h.endMem
    · exact h.stall
    · refine .ite h.stall ?_
      refine .ite ?_ ?_
      · refine .raise ?_
        refine .ite ?_ ?_
        · refine .parkLanes ?_
          refine .foldl ?_ fun _ _ hs => hs.updLane
          refine .moveLanes ?_
          refine .setHold ?_
          refine .shiftPipe ?_
          refine .foldl h.setRows ?_
          intro _ _ hs
          split
          · exact hs.updLane
          · exact hs
        · refine .holdUnparked ?_
          refine .regroup ?_
          refine .parkLanes ?_
          refine .foldl ?_ fun _ _ hs => hs.updLane
          refine .moveLanes ?_
          refine .setHold ?_
          refine .shiftPipe ?_
          refine .foldl h.setRows ?_
          intro _ _ hs
          split
          · exact hs.updLane
          · exact hs
      · refine .afterAll ?_
        refine .raise ?_
        refine .ite ?_ ?_
        · refine .parkLanes ?_
          refine .foldl ?_ fun _ _ hs => hs.updLane
          refine .moveLanes ?_
          refine .setHold ?_
          refine .shiftPipe ?_
          refine .foldl h.setRows ?_
          intro _ _ hs
          split
          · exact hs.updLane
          · exact hs
        · refine .holdUnparked ?_
          refine .regroup ?_
          refine .parkLanes ?_
          refine .foldl ?_ fun _ _ hs => hs.updLane
          refine .moveLanes ?_
          refine .setHold ?_
          refine .shiftPipe ?_
          refine .foldl h.setRows ?_
          intro _ _ hs
          split
          · exact hs.updLane
          · exact hs

theorem State.Inv.execWaitw {f} (h : s.Inv) : NextInv (Machine.execWaitw f s) := by
  unfold Machine.execWaitw
  split
  · exact h.front ‹_›
  · exact h.drainAll.issueWait

theorem State.Inv.rereadPark {p} (h : s.Inv) : (s.rereadPark p).Inv := by
  unfold State.rereadPark
  split
  · exact h
  · refine .ite h.killContext ?_
    split
    · exact .afterLanes (h.keepRegs.park ‹_›)
    · exact h

theorem State.Inv.execWaitwReread {lane} (h : s.Inv) : NextInv (Machine.execWaitwReread lane s) := by
  unfold Machine.execWaitwReread
  show State.Inv _
  refine .foldl ?_ fun _ _ hs => hs.rereadPark
  refine .waitFaults ?_
  refine .satisfyAll ?_
  refine .foldl h ?_
  intro _ _ hs
  split
  · exact hs.startWalk
  · exact hs

theorem State.Inv.execSyncExtwait {lane} (h : s.Inv) : NextInv (Machine.execSyncExtwait lane s) := by
  unfold Machine.execSyncExtwait
  split
  · exact State.Inv.ite h.waitFault h
  · exact h

theorem State.Inv.execSwarm {f} (h : s.Inv) : NextInv (Machine.execSwarm f s) := h.memStep

theorem State.Inv.swwaitHold {x f g asks faults} (h : s.Inv) : (s.swwaitHold x f g asks faults).Inv := by
  unfold State.swwaitHold
  dsimp only
  split
  · exact h.endMem
  · exact h.stall
  · exact h.setRows.shiftPipe.partGroup.setHold.settleAt.raise

theorem State.Inv.execSwwait {f} (h : s.Inv) : NextInv (Machine.execSwwait f s) := by
  unfold Machine.execSwwait
  split
  · exact h.front ‹_›
  · exact State.Inv.ite h.drainAll.swwaitHold h.drainAll.issueWait

theorem State.Inv.landLooks {s t : State} {regs nwb ls fs} (h : s.Inv)
    (e : State.landLooks regs nwb ls s = some (t, fs)) : t.Inv := by
  induction ls generalizing s fs with
  | nil => cases e; exact h
  | cons l rest ih =>
    unfold State.landLooks at e
    split at e
    · split at e
      · exact ih (h.landWords ‹_›) e
      · cases e
      · obtain ⟨q, hq, hp⟩ := Option.map_eq_some_iff.1 e
        cases hp; exact ih h hq
    · obtain ⟨q, hq, hp⟩ := Option.map_eq_some_iff.1 e
      cases hp; exact ih h hq
    · exact ih h e

theorem State.Inv.swwaitAgain {x asks npc regs nwb kept} (h : s.Inv) :
    (s.swwaitAgain x asks npc regs nwb kept).Inv := by
  unfold State.swwaitAgain
  refine .ite h ?_
  split
  · exact h
  · refine .raise ?_
    refine .ite ?_ ?_
    · exact .settleAt (.updLanes (.setHold (.foldl (h.landLooks ‹_›) fun _ _ hs => hs.giveBack)))
    · exact .regroup (.updLanes (.setHold (.foldl (h.landLooks ‹_›) fun _ _ hs => hs.giveBack)))

theorem State.Inv.texStepOf {i f k} (h : s.Inv) : NextInv (Machine.texStepOf i f k s) := by
  unfold Machine.texStepOf
  split
  · exact h.front ‹_›
  · exact h.issueMem

theorem State.Inv.execTex {f} (h : s.Inv) : NextInv (Machine.execTex f s) := h.texStepOf
theorem State.Inv.execTld {f} (h : s.Inv) : NextInv (Machine.execTld f s) := h.texStepOf

theorem State.Inv.execLoadDataLand {access} (h : s.Inv) : NextInv (Machine.execLoadDataLand access s) := by
  unfold Machine.execLoadDataLand
  split
  · exact State.Inv.ite h.perform.endIfGone h
  · exact h

theorem State.Inv.execWritePerform {access} (h : s.Inv) : NextInv (Machine.execWritePerform access s) := by
  unfold Machine.execWritePerform
  split
  · exact State.Inv.ite h.perform.endIfGone h
  · exact h

theorem State.Inv.execWriteQueueApply {line} (h : s.Inv) : NextInv (Machine.execWriteQueueApply line s) :=
  State.Inv.foldl h.applyLine fun _ _ hs => hs.endIfGone

theorem State.Inv.execTranslationComplete {core ctx va} (h : s.Inv) :
    NextInv (Machine.execTranslationComplete core ctx va s) := by
  unfold Machine.execTranslationComplete
  refine .ite h ?_
  dsimp only
  split
  · exact h.update
  · exact h.update.update.updCore

theorem State.Inv.execPageZeroingComplete {ctx va} (h : s.Inv) :
    NextInv (Machine.execPageZeroingComplete ctx va s) := by
  unfold Machine.execPageZeroingComplete
  split
  · exact h
  · exact Memory.wf_clear _ _ h.updCtx

/-! ### Object instructions -/

theorem State.Inv.postFragment {ctx p k cov vals} (h : s.Inv) : (s.postFragment ctx p k cov vals).Inv := h.updTarget

theorem State.Inv.postLane {f x a vals m} (h : s.Inv) : (Machine.postLane f x a vals m s).1.Inv := by
  unfold Machine.postLane
  dsimp only
  split
  · exact h.moveLanes
  · split
    · exact h
    · split
      · exact h
      · split
        · exact h
        · split
          · exact h
          · exact h.postFragment.updLane.moveLanes

theorem State.Inv.execPost {f} (h : s.Inv) : NextInv (Machine.execPost f s) := by
  unfold Machine.execPost
  split
  · exact h.front ‹_›
  · exact State.Inv.wakeSettled (.settle (.laneEnd (h.laneBody fun _ _ _ hs => hs.postLane)))

theorem State.Inv.execTsamp {f} (h : s.Inv) : NextInv (Machine.execTsamp f s) := by
  unfold Machine.execTsamp
  split
  · exact h.front ‹_›
  · exact h.issueWait

theorem State.Inv.ocallLane {x die hd k args dst} (h : s.Inv) :
    (Machine.ocallLane x die hd k args dst s).1.Inv := by
  unfold Machine.ocallLane
  split
  · exact h
  · split
    · exact h
    · exact h.appendCall

theorem State.Inv.execOcall {f} (h : s.Inv) : NextInv (Machine.execOcall f s) := by
  unfold Machine.execOcall
  split
  · exact h.front ‹_›
  · show State.Inv _
    refine .ite h.stall ?_
    refine .ite h.stall ?_
    refine .issueWait ?_
    refine .ite ?_ ?_
    · refine .askTrim ?_
      split
      · split
        · exact h
        · exact .foldlFst h fun _ _ hs => hs.ocallLane
      · split
        · exact h
        · exact .foldlFst h fun _ _ hs => hs.ocallLane
    · split
      · split
        · exact h
        · exact .foldlFst h fun _ _ hs => hs.ocallLane
      · split
        · exact h
        · exact .foldlFst h fun _ _ hs => hs.ocallLane

theorem State.Inv.execOread {f} (h : s.Inv) : NextInv (Machine.execOread f s) := by
  unfold Machine.execOread
  split
  · exact trivial
  · dsimp only
    split
    · exact h.front ‹_›
    · exact State.Inv.ite h.stall h.issueWait

theorem State.Inv.execOstat {f} (h : s.Inv) : NextInv (Machine.execOstat f s) := by
  unfold Machine.execOstat
  split
  · exact h.front ‹_›
  · exact h.commit

/-! ### Launches, admission, gangs, bins -/

theorem State.Inv.enterLaunch {ctx hd o} (h : s.Inv) : (s.enterLaunch ctx hd o).Inv := h.update

theorem State.Inv.refuseLaunch {id} (h : s.Inv) : (s.refuseLaunch id).Inv := by
  unfold State.refuseLaunch
  split
  · exact h
  · refine .wakeSettled ?_
    refine .settle ?_
    refine .updLaunch ?_
    split
    · refine .updCmd ?_
      refine .foldl h ?_
      intro _ _ hs
      refine .foldl hs ?_
      intro _ _ ht
      split
      · exact ht.nullFragment
      · exact ht
    · refine .foldl h ?_
      intro _ _ hs
      refine .foldl hs ?_
      intro _ _ ht
      split
      · exact ht.nullFragment
      · exact ht

theorem State.Inv.startCommand {x r scope creg} (h : s.Inv) : (s.startCommand x r scope creg).Inv := h.updWarp.update

theorem State.Inv.launchGo {x f act hd} (h : s.Inv) : (s.launchGo x f act hd).Inv := by
  unfold State.launchGo
  refine h.onceChecked ?_
  refine .ite h.onceFault ?_
  refine .ite h.stall ?_
  split
  · exact h
  · exact h.startCommand.enterLaunch.endIssue

theorem State.Inv.execLaunch {f} (h : s.Inv) : NextInv (Machine.execLaunch f s) := by
  unfold Machine.execLaunch
  refine h.onceStep ?_ fun _ _ _ hs => hs.endIdle
  exact fun _ _ _ _ _ hs => .ite hs.onceFault (hs.drainAll.onceChecked hs.drainAll.launchGo)

theorem State.Inv.askPlace {ctx what tag wg} (h : s.Inv) : (s.askPlace ctx what tag wg).Inv := h.postEvent.updCtx

theorem State.Inv.placed {ctx what tag wg} (h : s.Inv) : (s.placed ctx what tag wg).1.Inv := by
  unfold State.placed
  split
  · exact h
  · split
    · split
      · exact h
      · exact h.askPlace
    · exact h.askPlace

theorem State.Inv.placingDone {ctx what} (h : s.Inv) : (s.placingDone ctx what).Inv := h.updCtx

theorem State.Inv.admissionLoads {core ctx wg hd ks} (h : s.Inv) : (s.admissionLoads core ctx wg hd ks).Inv := by
  unfold State.admissionLoads
  refine .foldl h ?_
  intro _ _ hs
  split
  · exact hs
  · exact hs.addJob

theorem State.Inv.bindAll {core ctx ks} (h : s.Inv) : (s.bindAll core ctx ks).Inv := by
  refine .foldl h fun s k h => ?_
  split
  · exact h.bindSlot ‹_›
  · exact h

theorem State.Inv.letIn {l linear core sbase places args pixels} (h : s.Inv) :
    (s.letIn l linear core sbase places args pixels).Inv := by
  unfold State.letIn
  refine .admissionLoads ?_
  refine .foldl ?_ fun _ _ hs => hs.keepEntries
  exact .placingDone (.updLaunch (Memory.wf_clear _ _ h.trapLoad.bindAll))

theorem State.Inv.admissionAbsent {l core va} (h : s.Inv) : (s.admissionAbsent l core va).Inv :=
  .updLaunch (.getD h fun _ e => h.park e)

theorem State.Inv.withReads {l linear core sbase places k} (h : s.Inv) (hk : ∀ s bs, s.Inv → (k s bs).Inv) :
    (s.withReads l linear core sbase places k).Inv := by
  unfold State.withReads
  refine .ite h.updLaunch.placed ?_
  split
  · exact hk _ _ h.updLaunch
  · exact h.updLaunch.refuseLaunch
  · exact h.updLaunch.admissionAbsent
  · exact h.updLaunch

theorem State.Inv.admitNext {l linear core sbase places args pixels} (h : s.Inv) :
    (s.admitNext l linear core sbase places args pixels).Inv :=
  h.updLaunch.letIn

theorem State.Inv.readmit {l k core sbase places args} (h : s.Inv) :
    (s.readmit l k core sbase places args).Inv :=
  h.updLaunch.letIn.updWg

theorem State.Inv.execWorkgroupAdmission {launch core sbase places} (h : s.Inv) :
    NextInv (Machine.execWorkgroupAdmission launch core sbase places s) := by
  unfold Machine.execWorkgroupAdmission
  split
  · exact h
  · show State.Inv _
    refine .ite h ?_
    split
    · exact h.withReads fun _ _ hs => hs.readmit
    · split
      · exact h
      · exact h.withReads fun _ _ hs => hs.admitNext.updLaunch
    · exact .ite h (h.withReads fun _ _ hs => hs.admitNext)

theorem State.Inv.startGang {l q} (h : s.Inv) : (s.startGang l q).Inv := by
  unfold State.startGang
  refine .updLaunch ?_
  refine .foldl h ?_
  intro _ _ hs
  split
  · exact hs.letIn
  · exact hs

theorem State.Inv.restoreSlots {ctx old core} (h : s.Inv) : (s.restoreSlots ctx old core).Inv := by
  unfold State.restoreSlots
  refine .foldl h ?_
  intro _ _ hs
  split
  · exact hs
  · exact .updCore (hs.bindSlot ‹_›)

theorem State.Inv.retryWaits {ws} (h : s.Inv) : (s.retryWaits ws).Inv :=
  .wake (.updLanes (.foldl h fun _ _ hs => hs.setAt))

theorem State.Inv.restoreSleeps {g} (h : s.Inv) : (s.restoreSleeps g).Inv := h.updWg.updCore

theorem State.Inv.placeGroups {core gs} (h : s.Inv) : (s.placeGroups core gs).Inv :=
  .foldl h fun _ _ hs => hs.keepEntries.updCore.setPipe.updLanes

theorem State.Inv.placeSaved {q g core sbase ps} (h : s.Inv) : (s.placeSaved q g core sbase ps).Inv := by
  have hm : ∀ (m : Mem) (es : List (Nat × Byte)), Memory.wf m = true →
      Memory.wf (es.foldl (fun m e => Memory.write m (vaultPhys core sbase + e.1) e.2) m) = true := fun m es k =>
    List.foldlRecOn (motive := fun m : Mem => Memory.wf m = true) es _ k fun _ k _ _ => Memory.wf_write _ _ k
  unfold State.placeSaved
  refine .foldl ?_ fun _ _ k => k.keepEntries
  have hs : State.Inv { (s.restoreSlots g.ctx g.core core).trapLoad g.ctx core with
      mem := g.savedMem.foldl (fun m e => Memory.write m (vaultPhys core sbase + e.1) e.2)
        (Memory.clear ((s.restoreSlots g.ctx g.core core).trapLoad g.ctx core).mem (vaultPhys core sbase) g.vbytes) } :=
    hm _ _ (Memory.wf_clear _ _ h.restoreSlots.trapLoad)
  have hf : ∀ {u : State} {bs : List Bin}, u.Inv →
      (bs.foldl (fun s b => b.lanes.foldl (fun s e => s.fileLane core g.ctx b.pc b.wbase b.dslot e.1) s) u).Inv :=
    fun k => .foldl k fun _ _ k => .foldl k fun _ _ k => k.fileLane
  split
  · exact .emptyLatches (.placingDone (.placeGroups (hf (.updCore (.updWg hs)))))
  · exact .placingDone (.placeGroups (hf (.updCore (.updWg hs))))

theorem State.Inv.unparkAll {g} (h : s.Inv) : (s.unparkAll g).Inv := .updWg (.foldl h fun _ _ hs => hs.unpark)

theorem State.Inv.restoreWaits {id} (h : s.Inv) : (s.restoreWaits id).Inv := by
  unfold State.restoreWaits
  split
  · exact h
  · refine .raiseLost ?_
    refine .catchUp ?_
    refine .unparkAll ?_
    refine .restoreSleeps ?_
    refine .satisfyAll ?_
    refine .retryWaits ?_
    refine .foldl h ?_
    intro _ _ hs
    split
    · exact hs.setAt
    · exact hs

theorem State.Inv.restoreGang {l q} (h : s.Inv) : (s.restoreGang l q).Inv :=
  .foldl (.updLaunch (.foldl h fun _ _ hs => hs.placeSaved)) fun _ _ hs => hs.restoreWaits

theorem State.Inv.gangPlaced {l q} (h : s.Inv) : (s.gangPlaced l q).1.Inv := .foldlFst h fun _ _ hs => hs.placed

theorem State.Inv.tryStart {l gang} (h : s.Inv) : (s.tryStart l gang).Inv := by
  unfold State.tryStart
  split
  · exact h
  · refine .ite h ?_
    refine .ite h.gangPlaced ?_
    refine .ite h.restoreGang ?_
    split
    · exact h.startGang
    · exact h.refuseLaunch
    · exact h.admissionAbsent
    · exact h

theorem State.Inv.refuseGang {l q} (h : s.Inv) : (s.refuseGang l q).Inv := by
  unfold State.refuseGang
  refine .refuseLaunch ?_
  exact .foldl h.updLaunch fun _ _ hs => .endWorkgroup (.foldl hs fun _ _ ht => ht.exitLane)

theorem State.Inv.execGangReservation {launch gang core sbase places} (h : s.Inv) :
    NextInv (Machine.execGangReservation launch gang core sbase places s) := by
  unfold Machine.execGangReservation
  split
  · exact h
  · split
    · exact h
    · show State.Inv _
      refine .ite h ?_
      refine .ite h.tryStart ?_
      refine .ite h.refuseGang ?_
      refine .ite ?_ h
      dsimp only
      split
      · exact h.updLaunch.tryStart
      · exact h.updLaunch

theorem State.Inv.execGangAged {launch gang} (h : s.Inv) : NextInv (Machine.execGangAged launch gang s) := by
  unfold Machine.execGangAged
  split
  · exact h
  · exact h.updLaunch

theorem State.Inv.execBinDraw {core bin slot place} (h : s.Inv) :
    NextInv (Machine.execBinDraw core bin slot place s) := by
  unfold Machine.execBinDraw
  dsimp only
  split
  · exact h
  · exact .ite h h.keepEntries.update.updCore.keepEntries.updLanes

/-! ### The engine window -/

theorem State.Inv.updHold {wg w gid f} (h : s.Inv) : (s.updHold wg w gid f).Inv := h.updWarp

theorem State.Inv.endWindow {wg w q npc lu faults parks} (h : s.Inv) :
    (s.endWindow wg w q npc lu faults parks).Inv := by
  unfold State.endWindow
  refine .ite h.killContext ?_
  refine .afterAll ?_
  refine .raise ?_
  refine .holdLanes ?_
  refine .ite ?_ ?_
  · refine .foldl ?_ ?_
    · refine .ite ?_ ?_
      · exact .updWarp (.foldl h.setHold fun _ _ hs => hs.advanceLane)
      · exact .foldl h.setHold fun _ _ hs => hs.advanceLane
    · exact fun _ _ hs => .getD hs fun _ e => hs.park e
  · refine .regroup ?_
    refine .foldl ?_ ?_
    · refine .ite ?_ ?_
      · exact .updWarp (.foldl h.setHold fun _ _ hs => hs.advanceLane)
      · exact .foldl h.setHold fun _ _ hs => hs.advanceLane
    · exact fun _ _ hs => .getD hs fun _ e => hs.park e

theorem State.Inv.finishWindows {wg w} (h : s.Inv) : (s.finishWindows wg w).Inv := by
  unfold State.finishWindows
  split
  · exact h
  · refine .foldl h ?_
    intro _ _ hs
    split
    · exact .ite hs hs.endWindow
    · exact hs

theorem State.Inv.popHatch {wg w} (h : s.Inv) : (s.popHatch wg w).Inv := h.updWarp

theorem State.Inv.goAct {wg w q c} (h : s.Inv) : (s.goAct wg w q c).Inv := by
  unfold State.goAct
  dsimp only
  split
  · exact h
  · exact h
  · exact h.updWarp.updHold.finishWindows
  · exact h.updWarp.updHold.finishWindows

theorem State.Inv.execHatchArgStore {wg warp} (h : s.Inv) : NextInv (Machine.execHatchArgStore wg warp s) := by
  unfold Machine.execHatchArgStore
  split
  · exact h
  · exact State.Inv.ite h.popHatch.updWarp.finishWindows (.ite h.popHatch.updHold.finishWindows h)

theorem State.Inv.stageGo {op wg w} (h : s.Inv) : (s.stageGo op wg w).Inv := by
  unfold State.stageGo
  split
  · exact h
  · refine .ite h ?_
    dsimp only
    split
    · exact .ite h.drain h
    · exact .goAct (.updWarp (.popHatch (.ite h.drain h)))

theorem State.Inv.execCompletionRegisterWrite {wg warp gid} (h : s.Inv) :
    NextInv (Machine.execCompletionRegisterWrite wg warp gid s) := by
  unfold Machine.execCompletionRegisterWrite
  split
  · split
    · exact .ite h.updWarp.endHold h
    · exact h
  · exact h

/-! ### Copies -/

theorem State.Inv.storePortion {phys bs bad whole} (h : s.Inv) : (s.storePortion phys bs bad whole).Inv :=
  .ite h.poisonLine.storeBytes.addPoison (.ite h.storeBytes.clearPoison h.storeBytes)

theorem State.Inv.landBytes {id n} (h : s.Inv) : (s.landBytes id n).Inv := by
  unfold State.landBytes
  split
  · exact h
  · exact .ite h.endCommand.settle h.landPart

theorem State.Inv.setTxFlow {t} (h : s.Inv) : (s.setTxFlow t).Inv := h.update
theorem State.Inv.holdFrame {t portion f} (h : s.Inv) : (s.holdFrame t portion f).Inv := h.update.setTxFlow

theorem State.Inv.sendFrame {flow cmd portion op peer off len payload} (h : s.Inv) :
    (s.sendFrame flow cmd portion op peer off len payload).Inv :=
  h.holdFrame

theorem State.Inv.copyPortion {c p} (h : s.Inv) : (s.copyPortion c p).Inv := by
  unfold State.copyPortion
  split
  · split
    · exact h
    · refine .ite ?_ ?_
      · split
        · exact h
        · exact h.updCmd.sendFrame
      · refine .ite ?_ ?_
        · split
          · exact h
          · exact h.sendFrame
        · split
          · exact h
          · exact h.storePortion.updCmd.landBytes
  · exact h

theorem State.Inv.readoutPortion {c p} (h : s.Inv) : (s.readoutPortion c p).Inv := by
  unfold State.readoutPortion
  split
  · split
    · refine .ite h ?_
      refine .ite ?_ ?_
      · split
        · exact h
        · exact h.updCmd.sendFrame
      · split
        · exact h
        · exact h.storePortion.updCmd.landBytes
    · exact h
  · exact h

theorem State.Inv.leaveOrder {c} (h : s.Inv) : (s.leaveOrder c).Inv := .ite h h.updCtx.wakeSettled

theorem State.Inv.execCopyPortionLand {cmd portion} (h : s.Inv) :
    NextInv (Machine.execCopyPortionLand cmd portion s) := by
  unfold Machine.execCopyPortionLand
  split
  · exact h
  · refine .ite h ?_
    split
    · exact h.readoutPortion.leaveOrder
    · exact h.copyPortion

/-! ### Near-memory programs -/

theorem State.Inv.runBody {e body} (h : s.Inv) : (s.runBody e body).1.Inv := by
  unfold State.runBody
  dsimp only
  split
  · exact .foldl h fun _ _ hs => hs.storeBytes
  · exact .foldl h fun _ _ hs => hs.poisonLine

theorem State.Inv.execNmLoadPart {cmd stack bad} (h : s.Inv) :
    NextInv (Machine.execNmLoadPart cmd stack bad s) := by
  unfold Machine.execNmLoadPart
  split
  · exact h
  · split
    · exact .ite h h.updCtx.updCmd.landBytes
    · exact h

theorem State.Inv.runIndex {c body failing r i} (h : s.Inv) : (s.runIndex c body failing r i).1.Inv := by
  unfold State.runIndex
  dsimp only
  split <;> exact h.runBody

theorem State.Inv.writeRecord {c r} (h : s.Inv) : (s.writeRecord c r).Inv := by
  unfold State.writeRecord
  refine .ite h ?_
  split
  · exact h
  · exact h.storeBytes

theorem State.Inv.runLanded {c r err n} (h : s.Inv) : (s.runLanded c r err n).Inv :=
  .ite h.updCmd.writeRecord.endCommand.settle (.ite h.updCmd h.updCmd.landPart)

theorem State.Inv.runWave {c r stack started left chunks failing} (h : s.Inv) :
    (s.runWave c r stack started left chunks failing).Inv :=
  .ite h.runLanded (.runLanded (.foldlFst h fun _ _ hs => hs.runIndex))

theorem State.Inv.execNmWave {cmd stack chunks failing} (h : s.Inv) :
    NextInv (Machine.execNmWave cmd stack chunks failing s) := by
  unfold Machine.execNmWave
  split
  · exact h
  · split
    · exact h
    · split
      · exact h
      · exact .ite h h.runWave

/-! ### Raster commands -/

theorem State.Inv.execOrderTokenIssue {cmd tri tx ty} (h : s.Inv) :
    NextInv (Machine.execOrderTokenIssue cmd tri tx ty s) := by
  unfold Machine.execOrderTokenIssue
  split
  · exact h
  · split
    · split
      · refine .ite h ?_
        exact State.Inv.wakeSettled (.settle (.ite h.updTarget.update.updCmd h.updTarget.update.updCmd.updLaunch))
      · exact h
    · exact h

theorem State.Inv.execFragmentApply {ctx target frag} (h : s.Inv) :
    NextInv (Machine.execFragmentApply ctx target frag s) := by
  unfold Machine.execFragmentApply
  split
  · exact h
  · split
    · exact h
    · split
      · exact .ite h h.updTarget.updCmd.settle.wakeSettled
      · exact h

theorem State.Inv.execInvokeApply {cmd x y} (h : s.Inv) : NextInv (Machine.execInvokeApply cmd x y s) := by
  unfold Machine.execInvokeApply
  split
  · exact h
  · split
    · split
      · exact h
      · exact .ite h (State.Inv.wakeSettled (.ite h.updTarget.updCmd.landBytes.leaveOrder h.updTarget.updCmd))
    · exact h

theorem State.Inv.damagePixels {vault hit} (h : s.Inv) : (s.damagePixels vault hit).Inv :=
  .foldl h.update.settle fun _ _ hs => hs.wakeSettled

/-! ### Replayed objects -/

theorem State.Inv.refusePush {ctx p} (h : s.Inv) : (s.refusePush ctx p).Inv := by
  unfold State.refusePush
  dsimp only
  split
  · exact h.writeFence.fall
  · exact h.writeFence

theorem State.Inv.servePush {ctx home p} (h : s.Inv) : (s.servePush ctx home p).Inv := by
  unfold State.servePush
  dsimp only
  split
  · exact h.updCtx.enterLaunch
  · exact .ite h h.updCtx.refusePush
  · exact h
  · exact .getD h.updCtx fun _ e => h.updCtx.park e

theorem State.Inv.servePushes {ctx hd home} (h : s.Inv) : (s.servePushes ctx hd home).Inv :=
  .foldl h fun _ _ hs => .ite hs.servePush hs

theorem State.Inv.applyPush {ctx o e} (h : s.Inv) : (s.applyPush ctx o e).Inv := by
  unfold State.applyPush
  dsimp only
  split
  · exact h.updCtx.servePush.updCmd.endCommand.settle
  · exact h.updCtx.servePush

theorem State.Inv.applyAt {ctx o d e} (h : s.Inv) : (s.applyAt ctx o d e).Inv :=
  .ite h.commitState.updObject.putEntry h.commitState.updObject

theorem State.Inv.fenceReplicas {ctx hd dies} (h : s.Inv) : (s.fenceReplicas ctx hd dies).Inv := by
  unfold State.fenceReplicas
  split
  · exact h
  · exact .serveObject (.ite (.foldl h.updObject fun _ _ hs => hs.postObjectEvent) h.updObject)

theorem State.Inv.execReplayApply {ctx obj die badLog} (h : s.Inv) :
    NextInv (Machine.execReplayApply ctx obj die badLog s) := by
  unfold Machine.execReplayApply
  dsimp only
  split
  · exact h
  · refine .ite ?_ ?_
    · exact State.Inv.fenceReplicas (.ite h.servePushes h)
    · split
      · exact State.Inv.serveObject (.ite h.servePushes h)
      · show State.Inv _
        refine .serveObject ?_
        exact .ite (.applyPush (.applyAt (.ite h.servePushes h))) (.applyAt (.ite h.servePushes h))

theorem State.Inv.storeFresh {phys bs} (h : s.Inv) : (s.storeFresh phys bs).Inv := h.storeBytes.update
theorem State.Inv.copyReplica {n source dest} (h : s.Inv) : (s.copyReplica n source dest).Inv := h.storeFresh

theorem State.Inv.execReplicaRebuild {ctx obj die source} (h : s.Inv) :
    NextInv (Machine.execReplicaRebuild ctx obj die source s) := by
  unfold Machine.execReplicaRebuild
  dsimp only
  split
  · exact h
  · exact .ite h.copyReplica.updObject.serveObject h

/-! ### Acceptance of a GO -/

theorem State.Inv.acceptDraw {g q c} (h : s.Inv) : (s.acceptDraw g q c).Inv := by
  unfold State.acceptDraw
  dsimp only
  split
  · exact h
  · refine .update ?_
    refine .updTarget ?_
    split
    · exact h.enterLaunch.storeBytes
    · exact h.enterLaunch

theorem State.Inv.acceptTarget {g q c} (h : s.Inv) : (s.acceptTarget g q c).Inv := by
  unfold State.acceptTarget
  dsimp only
  split
  · exact h
  · exact .ite h.updTarget.update h.updTarget.update

theorem State.Inv.acceptWork {g w q p engine} (h : s.Inv) : (s.acceptWork g w q p engine).Inv := by
  unfold State.acceptWork
  dsimp only
  split
  · exact .ite h.update.update h.update.update.updCmd.endCommand.settle
  · exact .ite h.update.update h.update.update.updCmd.endCommand.settle
  · exact .ite h.update.update h.update.update.updCmd.endCommand.settle
  · exact h.update.update
  · exact h.update.update
  · exact h.update.acceptDraw
  · exact h.update.acceptTarget
  · exact .ite h.update.acceptTarget.updCmd.endCommand.settle.leaveOrder h.update.acceptTarget
  · split
    · exact h.update
    · exact h.update.appendCall.update
  · exact h.update

theorem State.Inv.execGoAccept {wg warp engine} (h : s.Inv) :
    NextInv (Machine.execGoAccept wg warp engine s) := by
  unfold Machine.execGoAccept
  split
  · refine .ite h ?_
    split
    · exact h.updWarp.acceptWork.finishWindows.settle
    · exact h.goAct
  · exact h

/-! ### Barriers and convergence registers -/

theorem State.Inv.arrive {x sc n a} (h : s.Inv) : (s.arrive x sc n a).1.Inv := by
  unfold State.arrive
  split
  · split
    · exact h
    · exact h.updLane.completePhases
  · exact h

theorem State.Inv.arriveAll {x sc n act} (h : s.Inv) : (s.arriveAll x sc n act).1.Inv :=
  .foldlFst h fun _ _ hs => hs.arrive

theorem State.Inv.barrierIssue {x f act arrive waits} (h : s.Inv) :
    (s.barrierIssue x f act arrive waits).Inv := by
  unfold State.barrierIssue
  refine .raise ?_
  refine .ite ?_ ?_
  · refine .updLanes ?_
    refine .moveLanes ?_
    refine .setHold ?_
    split
    · exact h.arriveAll
    · exact h
  · refine .regroup ?_
    refine .updLanes ?_
    refine .moveLanes ?_
    refine .setHold ?_
    split
    · exact h.arriveAll
    · exact h

theorem State.Inv.barStep {i f arrive waits} (h : s.Inv) : NextInv (Machine.barStep i f arrive waits s) := by
  unfold Machine.barStep
  split
  · exact h.front ‹_›
  · exact State.Inv.ite h.stall h.barrierIssue

theorem State.Inv.updConv {wg j f} (h : s.Inv) : (s.updConv wg j f).Inv := h.updWg

theorem State.Inv.execJset {f} (h : s.Inv) : NextInv (Machine.execJset f s) := by
  unfold Machine.execJset
  refine h.onceStep ?_ fun _ _ _ hs => hs.endIdle
  intro _ _ _ _ _ hs
  dsimp only
  split
  · exact hs.onceFault
  · exact .ite hs.onceFault (.ite hs.updConv.endIssue (.ite hs.endIssue hs.onceFault))

theorem State.Inv.completeRound {wg j} (h : s.Inv) : (s.completeRound wg j).Inv := by
  unfold State.completeRound
  split
  · exact h
  · exact h.updConv.satisfyAll

theorem State.Inv.sign {x f act j mop values fill} (h : s.Inv) (hfill : ∀ n m s, s.Inv → (fill n m s).Inv) :
    (s.sign x f act j mop values fill).Inv := by
  unfold State.sign
  refine .ite ?_ ?_
  · exact hfill _ _ _ h.updConv.update.setHold.moveLanes.updLanes.regroup
  · exact h.updConv.update.setHold.moveLanes.updLanes.regroup

theorem State.Inv.signStep {i f js onePane values fill} (h : s.Inv) (hfill : ∀ n m s, s.Inv → (fill n m s).Inv) :
    NextInv (Machine.signStep i f js onePane values fill s) := by
  unfold Machine.signStep
  split
  · exact h.front ‹_›
  · show State.Inv _
    refine .ite h.endIdle ?_
    split
    · exact h.endIssue
    · exact .ite h.onceFault (.ite h.stall (h.sign fun _ _ _ hs => hfill _ _ _ hs))

theorem State.Inv.execJsign {f} (h : s.Inv) : NextInv (Machine.execJsign f s) :=
  h.signStep fun _ _ _ hs => hs.completeRound

theorem State.Inv.execJwait {f} (h : s.Inv) : NextInv (Machine.execJwait f s) := by
  unfold Machine.execJwait
  split
  · exact h.front ‹_›
  · exact h.issueWait

/-! ### Matrix work -/

theorem State.Inv.updPane {wg p f} (h : s.Inv) : (s.updPane wg p f).Inv := h.updWg

theorem State.Inv.matStep {i f uses k idle} (h : s.Inv) (hk : ∀ x e g act s, s.Inv → (k x e g act s).Inv)
    (hidle : ∀ x g s, s.Inv → (idle x g s).Inv) :
    NextInv (Machine.matStep i f uses k s idle) := by
  unfold Machine.matStep
  split
  · exact h.stall
  · exact h.onceStep (fun _ _ _ _ _ hs => hk _ _ _ _ _ hs) fun _ _ _ hs => hidle _ _ _ hs

theorem State.Inv.pushAccess {x r kind phys size rel} (h : s.Inv) : (s.pushAccess x r kind phys size rel).Inv :=
  h.update

theorem State.Inv.mmgRow {f g j pane w a signers i} (h : s.Inv) :
    (Machine.mmgRow f g j pane w a signers i s).1.Inv := by
  unfold Machine.mmgRow
  dsimp only
  split
  · exact h.updPane.updConv
  · split
    · exact h
    · split
      · exact h.updPane.updConv
      · split
        · exact h.updPane
        · split
          · split
            · exact .foldl h.updPane fun _ _ hs => hs.addFlags
            · split
              · exact .updConv (.foldl h.updPane fun _ _ hs => hs.addFlags)
              · exact .updConv (.foldl (.foldl h.updPane fun _ _ hs => hs.addFlags) fun _ _ hs => hs.pushAccess)
          · split
            · exact .foldl h.updPane fun _ _ hs => hs.addFlags
            · split
              · exact .updConv (.foldl h.updPane fun _ _ hs => hs.addFlags)
              · exact .updConv (.foldl (.foldl h.updPane fun _ _ hs => hs.addFlags) fun _ _ hs => hs.pushAccess)

theorem State.Inv.mmgRows {row is} (h : s.Inv) (hk : ∀ i s, s.Inv → (row i s).1.Inv) :
    (Machine.mmgRows row is s).1.Inv := by
  induction is generalizing s with
  | nil => exact h
  | cons i rest ih =>
    have hi := hk i s h
    unfold Machine.mmgRows
    split
    · next e => rw [e] at hi; exact ih hi
    · exact hi

theorem State.Inv.roundFault {wg j c cause d} (h : s.Inv) : (s.roundFault wg j c cause d).Inv :=
  .raiseApart (.foldl h.updConv fun _ _ hs => hs.setAt)

theorem State.Inv.roundPark {g j c va} (h : s.Inv) : (s.roundPark g j c va).Inv := by
  unfold State.roundPark
  dsimp only
  split
  · exact h
  · exact .afterAll (.updConv (h.park ‹_›))

/-- The state in which an operation of a round leaves off keeps memory canonical. -/
def OpEnd.Inv : OpEnd → Prop
  | .done t | .absent _ t | .stopped _ _ t => t.Inv
  | .fault _ _ | .wait _ => True

theorem State.Inv.wloadOp {f g j c} (h : s.Inv) : (Machine.wloadOp f g j c s).Inv := by
  unfold Machine.wloadOp
  dsimp only
  split
  · trivial
  · split
    · trivial
    · exact h.updWg

theorem State.Inv.mmaOp {f g j c} (h : s.Inv) : (Machine.mmaOp f g j c s).Inv := by
  unfold Machine.mmaOp
  dsimp only
  split
  · trivial
  · split
    · trivial
    · exact h.updWg

theorem State.Inv.mmgOp {f g j c} (h : s.Inv) : (Machine.mmgOp f g j c s).Inv := by
  unfold Machine.mmgOp
  dsimp only
  split
  · trivial
  · next w _ =>
    split
    · trivial
    · split
      · trivial
      · split
        · trivial
        · exact h
        · trivial
        · have hr := h.mmgRows (row := Machine.mmgRow f g j c.pane w (MmgArgs.of c.values) (c.lanes g.id))
            (is := (List.range 64).drop c.progress) fun _ _ k => k.mmgRow
          split <;> rename_i e
          · rw [e] at hr; exact hr
          · rw [e] at hr; exact hr
          · rw [e] at hr; exact hr
          · trivial
          · rw [e] at hr; exact hr

theorem State.Inv.roundOp {f g j c} (h : s.Inv) : (Machine.roundOp f g j c s).Inv := by
  unfold Machine.roundOp
  split
  · exact h.wloadOp
  · exact h.mmaOp
  · exact h.mmgOp
  · exact h

theorem State.Inv.tryRound {wg j} (h : s.Inv) : (s.tryRound wg j).Inv := by
  unfold State.tryRound
  split
  · next g c _ _ =>
    split
    · exact h
    · next f _ =>
      refine .ite h ?_
      have ho : (Machine.roundOp f g j c s).Inv := h.roundOp
      split <;> rename_i e
      · rw [e] at ho; exact ho.updConv
      · exact h.roundFault
      · exact h.startWalk
      · rw [e] at ho; exact ho.roundPark
      · rw [e] at ho; exact .raiseApart ho.updConv
  · exact h

theorem State.Inv.execConvergenceOpComplete {wg j} (h : s.Inv) :
    NextInv (Machine.execConvergenceOpComplete wg j s) := by
  unfold Machine.execConvergenceOpComplete
  dsimp only
  split
  · exact State.Inv.ite h.tryRound.completeRound h.tryRound
  · exact h.tryRound

theorem State.Inv.execWload {f} (h : s.Inv) : NextInv (Machine.execWload f s) := h.signStep fun _ _ _ hs => hs.tryRound
theorem State.Inv.execMma {f} (h : s.Inv) : NextInv (Machine.execMma f s) := h.signStep fun _ _ _ hs => hs.tryRound
theorem State.Inv.execMmg {f} (h : s.Inv) : NextInv (Machine.execMmg f s) := h.signStep fun _ _ _ hs => hs.tryRound

theorem State.Inv.execTldt {f} (h : s.Inv) : NextInv (Machine.execTldt f s) := by
  unfold Machine.execTldt
  refine h.matStep ?_ fun _ _ _ hs => hs.endIdle
  exact fun _ _ _ _ _ hs => .ite hs.onceFault (hs.drainAll.onceChecked hs.drainAll.updPane.endIssue)

theorem State.Inv.execTstt {f} (h : s.Inv) : NextInv (Machine.execTstt f s) := by
  unfold Machine.execTstt
  refine h.matStep ?_ fun _ _ _ hs => hs.endIdle
  intro _ _ _ _ _ hs
  refine .ite hs.onceFault ?_
  refine hs.onceChecked ?_
  refine .endIssue ?_
  refine .ite hs ?_
  split
  · exact hs
  · exact .foldl hs fun _ _ ht => ht.pushAccess

theorem State.Inv.execTmov {f} (h : s.Inv) : NextInv (Machine.execTmov f s) :=
  h.matStep (fun _ _ _ _ _ hs => hs.updPane.endIssue) fun _ _ _ hs => hs.endIdle

theorem State.Inv.execTscl {f} (h : s.Inv) : NextInv (Machine.execTscl f s) :=
  h.matStep (fun _ _ _ _ _ hs => .ite hs.onceFault hs.updPane.endIssue) fun _ _ _ hs => hs.endIdle

theorem State.Inv.execTcvt {f} (h : s.Inv) : NextInv (Machine.execTcvt f s) := by
  unfold Machine.execTcvt
  refine h.matStep ?_ fun _ _ _ hs => hs.endIdle
  intro _ _ _ _ _ hs
  refine .ite hs.onceFault ?_
  dsimp only
  split
  · exact hs.setSeed.addAllFlags.endIssue
  · exact hs.setSeed.addAllFlags.updPane.endIssue

theorem State.Inv.execAcz {f} (h : s.Inv) : NextInv (Machine.execAcz f s) :=
  h.matStep (fun _ _ _ _ _ hs => hs.updPane.endIssue) fun _ _ _ hs => hs.endIdle

theorem State.Inv.execAcrd {f} (h : s.Inv) : NextInv (Machine.execAcrd f s) :=
  h.matStep (fun _ _ _ _ _ hs => .ite hs.onceFault hs.commit) fun _ _ _ hs => hs.commit

theorem State.Inv.execAcwr {f} (h : s.Inv) : NextInv (Machine.execAcwr f s) := by
  unfold Machine.execAcwr
  refine h.matStep ?_ fun _ _ _ hs => hs.endIdle
  exact fun _ _ _ _ _ hs => .ite hs.onceFault (.endIssue (.ite hs.updPane.setRows hs.updPane))

theorem State.Inv.execAcst {f} (h : s.Inv) : NextInv (Machine.execAcst f s) := by
  unfold Machine.execAcst
  refine h.matStep ?_ fun _ _ _ hs => hs.endIdle
  intro _ _ _ _ _ hs
  refine .ite hs.onceFault ?_
  dsimp only
  split
  · exact hs.addAllFlags.endIssue
  · refine hs.onceChecked ?_
    refine .endIssue ?_
    refine .ite hs.addAllFlags ?_
    split
    · exact hs.addAllFlags
    · exact .foldl hs.addAllFlags fun _ _ ht => .foldl ht fun _ _ hu => hu.pushAccess

/-! ### Save areas -/

theorem State.Inv.writeBlocks {phys bs} (h : s.Inv) : (s.writeBlocks phys bs).Inv :=
  .foldlFst h fun _ _ hs => hs.storeBytes.update

theorem State.Inv.readSeeds {ctx b} (h : s.Inv) : (s.readSeeds ctx b).Inv := .foldl h fun _ _ hs => hs.updWarp

theorem State.Inv.readEngine {id b} (h : s.Inv) : (s.readEngine id b).Inv := by
  unfold State.readEngine
  dsimp only
  split
  · exact h
  · split
    · exact h.updCmd.updLaunch
    · exact h.updCmd

theorem State.Inv.readPart {ctx p b} (h : s.Inv) : (s.readPart ctx p b).Inv := by
  unfold State.readPart
  split
  · exact h.updCtx
  · exact h.readSeeds
  · exact h.updCtx
  · exact h.updLaunch
  · exact h.updLaunch
  · exact h.updWg
  · exact h.updWg
  · exact h.updWarp
  · exact h.updLane
  · exact h.updLaunch
  · exact h.updLaunch
  · exact h.readEngine
  · exact h

theorem State.Inv.regather {s old : State} {ctx} (h : s.Inv) : (s.regather old ctx).Inv :=
  .foldl h fun _ _ hs => hs.updWarp.update

theorem State.Inv.readBlocks {ctx phys bs} (h : s.Inv) : (s.readBlocks ctx phys bs).Inv :=
  .regather (.foldlFst h fun _ _ hs => .ite hs.readPart hs)

/-! ### Privileged instructions -/

theorem State.Inv.startSave {ctx area cmd} (h : s.Inv) : (s.startSave ctx area cmd).Inv := h.updCtx
theorem State.Inv.resumeCmds {ctx} (h : s.Inv) : (s.resumeCmds ctx).Inv := h.update

theorem State.Inv.startRestore {ctx cmd area} (h : s.Inv) : (s.startRestore ctx cmd area).Inv := by
  unfold State.startRestore
  refine .resumeCmds ?_
  refine .updCtx ?_
  split
  · exact h.readBlocks
  · exact h

theorem State.Inv.saveStep {i f save} (h : s.Inv) : NextInv (Machine.saveStep i f save s) := by
  unfold Machine.saveStep
  refine h.onceStep ?_ fun _ _ _ hs => hs.endIdle
  intro _ _ _ _ _ hs
  dsimp only
  split
  · exact hs.onceFault
  · refine .ite hs.stall ?_
    split
    · exact hs
    · exact .endIssue (.ite hs.startCommand.startSave hs.startCommand.startRestore)

theorem State.Inv.enterChange {ctx base size pages unmap apply} (h : s.Inv) :
    (s.enterChange ctx base size pages unmap apply).Inv :=
  h.update

theorem State.Inv.execTlbi {f} (h : s.Inv) : NextInv (Machine.execTlbi f s) := by
  unfold Machine.execTlbi
  refine h.onceStep ?_ fun _ _ _ hs => hs.endIdle
  intro _ _ _ _ _ hs
  refine .ite hs.onceFault ?_
  split
  · exact hs.endIssue
  · exact hs.enterChange.updLanes.setHold

theorem State.Inv.wakeAllChanges (h : s.Inv) : s.wakeAllChanges.Inv :=
  .foldl h fun _ _ hs => .foldl hs fun _ _ ht => ht.wakeChanges

theorem State.Inv.execMappingChangeComplete {change} (h : s.Inv) :
    NextInv (Machine.execMappingChangeComplete change s) := by
  unfold Machine.execMappingChangeComplete
  split
  · exact h
  · exact .ite h h.update.wakeAllChanges

theorem State.Inv.readStep {i f k} (h : s.Inv) : NextInv (Machine.readStep i f k s) := by
  unfold Machine.readStep
  split
  · exact h.front ‹_›
  · exact h.commitVec

theorem State.Inv.parkFaults {fs} (h : s.Inv) : (s.parkFaults fs).Inv := .raiseApart (.foldl h fun _ _ hs => hs.updLane)

theorem State.Inv.failUnattached {q} (h : s.Inv) : (s.failUnattached q).Inv := by
  unfold State.failUnattached
  dsimp only
  split
  · exact .killAt (.foldl (.foldl h fun _ _ hs => hs.refuseLaunch) fun _ _ hs => hs.updCtx.refusePush)
  · exact .foldl (.foldl h fun _ _ hs => hs.refuseLaunch) fun _ _ hs => hs.updCtx.refusePush

theorem State.Inv.releaseRecord {q fail} (h : s.Inv) : (s.releaseRecord q fail).Inv := by
  unfold State.releaseRecord
  refine .afterAll ?_
  refine .ite ?_ ?_
  · refine .failUnattached ?_
    refine .ite ?_ ?_
    · refine .ite ?_ ?_
      · exact .parkFaults (.foldl h.update fun _ _ hs => hs.unpark)
      · exact .foldl h.update fun _ _ hs => hs.unpark
    · refine .foldl ?_ fun _ _ hs => hs.updConv
      refine .ite ?_ ?_
      · exact .parkFaults (.foldl h.update fun _ _ hs => hs.unpark)
      · exact .foldl h.update fun _ _ hs => hs.unpark
  · refine .ite ?_ ?_
    · refine .ite ?_ ?_
      · exact .parkFaults (.foldl h.update fun _ _ hs => hs.unpark)
      · exact .foldl h.update fun _ _ hs => hs.unpark
    · refine .foldl ?_ fun _ _ hs => hs.updConv
      refine .ite ?_ ?_
      · exact .parkFaults (.foldl h.update fun _ _ hs => hs.unpark)
      · exact .foldl h.update fun _ _ hs => hs.unpark

theorem State.Inv.parkRelease {a fail} (h : s.Inv) : (s.parkRelease a fail).1.Inv := by
  unfold State.parkRelease
  split
  · exact h
  · exact h.releaseRecord

theorem State.Inv.execParkr {f} (h : s.Inv) : NextInv (Machine.execParkr f s) := by
  unfold Machine.execParkr
  refine h.onceStep ?_ fun _ _ _ hs => hs.endIdle
  exact fun _ _ _ _ _ hs => .ite hs.onceFault hs.parkRelease.predEach

/-! ### Handlers and hangs -/

theorem State.Inv.wakeReformed {core slot gid} (h : s.Inv) : (s.wakeReformed core slot gid).Inv := by
  unfold State.wakeReformed
  split
  · exact h
  · split
    · split
      · exact .ite h h.updCore.updLanes.settleReformed
      · exact h
    · exact h

theorem State.Inv.execSleepExpiry {wg warp gid} (h : s.Inv) :
    NextInv (Machine.execSleepExpiry wg warp gid s) := by
  unfold Machine.execSleepExpiry
  show State.Inv _
  refine .ite h.wakeReformed ?_
  split
  · split
    · split
      · exact .ite h h.endHold
      · exact h
    · exact h
  · exact h

theorem State.Inv.haltRest {g t} (h : s.Inv) : (s.haltRest g t).Inv := .foldl h fun _ _ hs => .ite hs hs.haltWarp

theorem State.Inv.enterHandler {g t v} (h : s.Inv) : (s.enterHandler g t v).Inv :=
  h.traceRecord.updWarp.updCore.update.emptyLatches

theorem State.Inv.execHandlerEntry {wg} (h : s.Inv) : NextInv (Machine.execHandlerEntry wg s) := by
  unfold Machine.execHandlerEntry
  show State.Inv _
  split
  · exact h
  · split
    · exact .ite h (.ite h.haltRest.updWg.emptyLatches h.haltRest.updWg.enterHandler)
    · exact h

theorem State.Inv.writeHang {ctx es} (h : s.Inv) : (s.writeHang ctx es).Inv := by
  unfold State.writeHang
  split
  · exact h
  · exact .foldl h.storeBytes fun _ _ hs => hs.storeBytes

theorem State.Inv.raiseHang {ctx} (h : s.Inv) : (s.raiseHang ctx).Inv := h.raise

theorem State.Inv.execHangDetected {ctx} (h : s.Inv) : NextInv (Machine.execHangDetected ctx s) := by
  unfold Machine.execHangDetected
  show State.Inv _
  split
  · exact h
  · exact .ite h (.ite h.writeHang.updCtx.postEvent h.writeHang.updCtx.raiseHang)

/-! ### Pre-emption -/

theorem State.Inv.execPreemptRequest {ctx} (h : s.Inv) : NextInv (Machine.execPreemptRequest ctx s) :=
  State.Inv.ite h.startSave h

theorem State.Inv.detachParked {g} (h : s.Inv) : (s.detachParked g).Inv := h.update
theorem State.Inv.takeReforms {l gang g} (h : s.Inv) : (s.takeReforms l gang g).Inv := h.updLaunch.updCore

theorem State.Inv.saveInVault {g} (h : s.Inv) : (s.saveInVault g).Inv := by
  unfold State.saveInVault
  dsimp only
  split
  · exact h
  · exact h.updWg.writeBlocks

theorem State.Inv.saveWorkgroup {l gang g} (h : s.Inv) : (s.saveWorkgroup l gang g).Inv := by
  unfold State.saveWorkgroup
  refine .unbindSlots ?_
  refine .updCore ?_
  split
  · exact h.detachParked.takeReforms.updCtx.emptyLatches.updWg.saveInVault
  · exact h.detachParked.takeReforms.updCtx.emptyLatches.updWg

theorem State.Inv.saveGang {l gang} (h : s.Inv) : (s.saveGang l gang).Inv :=
  .foldl h.updLaunch fun _ _ hs => hs.saveWorkgroup

theorem State.Inv.execCooperativeSave {launch gang} (h : s.Inv) :
    NextInv (Machine.execCooperativeSave launch gang s) := by
  unfold Machine.execCooperativeSave
  show State.Inv _
  split
  · exact h
  · exact .ite h.saveGang h

theorem State.Inv.execPreForced {launch gang} (h : s.Inv) : NextInv (Machine.execPreForced launch gang s) := by
  unfold Machine.execPreForced
  show State.Inv _
  split
  · exact .ite h.saveGang.postEvent h
  · exact h

theorem State.Inv.endSaveCmds {ctx} (h : s.Inv) : (s.endSaveCmds ctx).Inv :=
  .settle (.foldl h.updCtx fun _ _ hs => hs.endCommand)

theorem State.Inv.dropReservations {ctx} (h : s.Inv) : (s.dropReservations ctx).Inv := h.update

theorem State.Inv.finishSave {c area} (h : s.Inv) : (s.finishSave c area).Inv :=
  h.writeBlocks.dropReservations.update.updCtx.endSaveCmds

theorem State.Inv.endKilledSaves {ctx} (h : s.Inv) : (s.endKilledSaves ctx).Inv :=
  .settle (.foldl h.update fun _ _ hs => hs.updCmd.endCommand)

theorem State.Inv.execContextSaveComplete {ctx} (h : s.Inv) :
    NextInv (Machine.execContextSaveComplete ctx s) := by
  unfold Machine.execContextSaveComplete
  show State.Inv _
  split
  · exact h.endKilledSaves
  · refine .ite h ?_
    refine .ite (.ite h h.postEvent) ?_
    split
    · exact h.finishSave
    · exact h

theorem State.Inv.execRestoreComplete {ctx} (h : s.Inv) : NextInv (Machine.execRestoreComplete ctx s) := by
  unfold Machine.execRestoreComplete
  show State.Inv _
  split
  · exact h
  · exact .ite h h.updCtx.endSaveCmds

theorem State.Inv.execCexRemainTick {ctx} (h : s.Inv) : NextInv (Machine.execCexRemainTick ctx s) := by
  unfold Machine.execCexRemainTick
  show State.Inv _
  split
  · exact h
  · exact .ite h (.ite h.updCtx h.updCtx.traceRecord)

/-! ### Failing parts -/

theorem State.Inv.loseWorkgroup {g ev} (h : s.Inv) : (s.loseWorkgroup g ev).Inv :=
  .updLaunch (.ite h.update.updWg h.update.update)

theorem State.Inv.recoverWorkgroup {core g} (h : s.Inv) : (s.recoverWorkgroup core g).Inv := by
  unfold State.recoverWorkgroup
  split
  · exact .ite h.postEvent.loseWorkgroup (.ite h.loseWorkgroup h.killWith)
  · exact h

theorem State.Inv.leaveReservations {core} (h : s.Inv) : (s.leaveReservations core).Inv := by
  unfold State.leaveReservations
  refine .foldl h.update ?_
  intro _ _ hs
  split
  · exact hs.refuseGang
  · exact hs

theorem State.Inv.execCoreUe {core} (h : s.Inv) : NextInv (Machine.execCoreUe core s) := by
  unfold Machine.execCoreUe
  refine .ite h ?_
  exact State.Inv.settle (.foldl h.updCore.update.leaveReservations fun _ _ hs => hs.recoverWorkgroup)

theorem State.Inv.answerRecovery {ctx seq fail} (h : s.Inv) : (s.answerRecovery ctx seq fail).Inv :=
  .ite h.killContext h.update

theorem State.Inv.execVaultLineUe {vault line} (h : s.Inv) : NextInv (Machine.execVaultLineUe vault line s) :=
  State.Inv.ite h (.ite h.damagePixels (.foldl h.poisonLine.update fun _ _ hs => hs.fenceReplicas))

theorem State.Inv.execHbmChunkUe {stack chunk} (h : s.Inv) : NextInv (Machine.execHbmChunkUe stack chunk s) :=
  State.Inv.ite h h.poisonLine

theorem State.Inv.execMachineCheck {isFabric} (h : s.Inv) : NextInv (Machine.execMachineCheck isFabric s) := h.update

theorem State.Inv.execClockThrottle {aclk vclk banks} (h : s.Inv) :
    NextInv (Machine.execClockThrottle aclk vclk banks s) :=
  h.update

theorem State.Inv.retireEvent {ctx seq} (h : s.Inv) : (s.retireEvent ctx seq).Inv := h.update.flushEvents

theorem State.Inv.execEventRetire {ctx seq} (h : s.Inv) : NextInv (Machine.execEventRetire ctx seq s) := by
  unfold Machine.execEventRetire
  show State.Inv _
  split
  · exact .ite h.retireEvent h
  · exact h

theorem State.Inv.answerPlacing {ctx seq fail} (h : s.Inv) : (s.answerPlacing ctx seq fail).Inv := by
  unfold State.answerPlacing
  refine .ite h.updCtx ?_
  dsimp only
  split
  · exact h.updCtx.refuseLaunch
  · exact h.updCtx.update
  · exact h.updCtx

theorem State.Inv.answerEvent {ctx e answer} (h : s.Inv) : (s.answerEvent ctx e answer).Inv := by
  unfold State.answerEvent
  dsimp only
  split
  · exact h.parkRelease
  · exact .ite (.ite h.updObject h.updObject.trimObject.serveObject) (.ite h h.updObject)
  · exact h.answerPlacing
  · split
    · exact h.updCtx
    · exact h
  · exact h.answerRecovery
  · exact .ite h.updCtx.raiseHang h.updCtx
  · exact h

theorem State.Inv.execHostEventAnswer {ctx seq answer} (h : s.Inv) :
    NextInv (Machine.execHostEventAnswer ctx seq answer s) := by
  unfold Machine.execHostEventAnswer
  show State.Inv _
  split
  · exact .ite h h.answerEvent.retireEvent
  · exact h

/-! ### The host link -/

theorem State.Inv.setWindow {ctx w} (h : s.Inv) : (s.setWindow ctx w).Inv := h.update
theorem State.Inv.afterReset (h : s.Inv) : s.afterReset.Inv := h.update
theorem State.Inv.execDreset {v} (h : s.Inv) : NextInv (Machine.execDreset v s) := State.Inv.ite h.afterReset h

theorem State.Inv.serveWindow {ctx} (h : s.Inv) : (s.serveWindow ctx).Inv := by
  unfold State.serveWindow
  dsimp only
  split
  · exact h
  · refine .ite h ?_
    refine .ite h.setWindow ?_
    split
    · exact h.setWindow
    · exact .ite h h.appendCall.setWindow

theorem State.Inv.execHostQueuePush {ctx go} (h : s.Inv) : NextInv (Machine.execHostQueuePush ctx go s) :=
  State.Inv.ite h (.ite h.setWindow (.ite h.setWindow.serveWindow h.setWindow))

theorem State.Inv.execHostBar2Read {off len} (h : s.Inv) : NextInv (Machine.execHostBar2Read off len s) :=
  State.Inv.ite h h.update

theorem State.Inv.execHostBar2Write {off bs} (h : s.Inv) : NextInv (Machine.execHostBar2Write off bs s) := by
  have hm := List.foldlRecOn (motive := fun m : Mem => Memory.wf m = true) bs.zipIdx
    (fun m e => if populated (off + e.2) then Memory.write m (off + e.2) e.1 else m) h fun m k e _ => by
      split
      · exact Memory.wf_write _ _ k
      · exact k
  exact State.Inv.ite h (.ite h.storeBytes hm)

/-! ### The debug window -/

theorem State.Inv.debugRefuse (h : s.Inv) : s.debugRefuse.Inv := h.update
theorem State.Inv.debugAccept (h : s.Inv) : s.debugAccept.Inv := h.update

theorem State.Inv.debugGo {a0 a1 a2 ok k} (h : s.Inv) (hk : ∀ s, s.Inv → (k s).Inv) :
    (s.debugGo a0 a1 a2 ok k).Inv :=
  .ite h.update.debugRefuse (.debugAccept (hk _ h.update))

theorem State.Inv.debugSettle (h : s.Inv) : s.debugSettle.Inv := by
  unfold State.debugSettle
  split
  · exact .ite h.update.debugAccept h
  · exact h

theorem State.Inv.debugBegin {op a0 a1 ok k} (h : s.Inv) (hk : ∀ s, s.Inv → (k s).Inv) :
    (s.debugBegin op a0 a1 ok k).Inv :=
  .ite h.update.debugRefuse (.debugSettle (.update (hk _ h.update)))

theorem State.Inv.debugEvent {op a0 a1 a2 k} (h : s.Inv) (hk : ∀ s, s.Inv → (k s).Inv) :
    (s.debugEvent op a0 a1 a2 k).Inv :=
  .ite (hk _ h) h.update

theorem State.Inv.debugAttach {a0 a1 a2} (h : s.Inv) : (s.debugAttach a0 a1 a2).Inv := h.debugGo fun _ hs => hs.updCtx

theorem State.Inv.execAttach {a0 a1 a2} (h : s.Inv) : NextInv (Machine.execAttach a0 a1 a2 s) :=
  h.debugEvent fun _ hs => hs.debugAttach

theorem State.Inv.resumeWg {g} (h : s.Inv) : (s.resumeWg g).Inv := by
  unfold State.resumeWg
  split
  · refine .ite (.endTrap (.ite h h.haltRest)) ?_
    split
    · exact .takeReforms (.endTrap (.ite h h.haltRest))
    · exact .endTrap (.ite h h.haltRest)
  · exact h

theorem State.Inv.debugResume {a0 a1} (h : s.Inv) : (s.debugResume a0 a1).Inv := by
  unfold State.debugResume
  refine h.debugGo ?_
  intro _ hs
  split
  · exact hs.resumeWg
  · exact hs

theorem State.Inv.execResume {a0 a1} (h : s.Inv) : NextInv (Machine.execResume a0 a1 s) :=
  h.debugEvent fun _ hs => hs.debugResume

theorem State.Inv.resumeAll {n wg} (h : s.Inv) : (State.resumeAll n s wg).Inv := by
  induction n generalizing s with
  | zero => exact h
  | succ n ih =>
    unfold State.resumeAll
    split
    · exact .ite (ih h.resumeWg) h
    · exact h

theorem State.Inv.debugDetach {a0} (h : s.Inv) : (s.debugDetach a0).Inv :=
  h.debugGo fun _ hs => .updCtx (.update (.foldl hs fun _ _ ht => ht.resumeAll))

theorem State.Inv.execDetach {a0} (h : s.Inv) : NextInv (Machine.execDetach a0 s) :=
  h.debugEvent fun _ hs => hs.debugDetach

theorem State.Inv.haltWg {g} (h : s.Inv) : (s.haltWg g).Inv := by
  unfold State.haltWg
  refine .ite h ?_
  split
  · exact h.raise
  · exact h.updWg

theorem State.Inv.debugHalt {a0 a1} (h : s.Inv) : (s.debugHalt a0 a1).Inv :=
  h.debugBegin fun _ hs => .foldl hs fun _ _ ht => ht.haltWg

theorem State.Inv.execHalt {a0 a1} (h : s.Inv) : NextInv (Machine.execHalt a0 a1 s) :=
  h.debugEvent fun _ hs => hs.debugHalt

theorem State.Inv.stepWg {g t} (h : s.Inv) : (s.stepWg g t).Inv := by
  unfold State.stepWg
  refine .afterHalt ?_
  refine .flushDebug ?_
  refine .traceRecord ?_
  refine .ite ?_ ?_
  · exact .updCore (.updWg (.update (.updWarp (.emptyLatches (.ite h h.haltRest)))))
  · exact .updWg (.update (.updWarp (.emptyLatches (.ite h h.haltRest))))

theorem State.Inv.debugStep {a0 a1} (h : s.Inv) : (s.debugStep a0 a1).Inv := by
  unfold State.debugStep
  refine h.debugBegin ?_
  intro _ hs
  split
  · exact hs.stepWg
  · exact hs

theorem State.Inv.execStep {a0 a1} (h : s.Inv) : NextInv (Machine.execStep a0 a1 s) :=
  h.debugEvent fun _ hs => hs.debugStep

theorem State.Inv.debugSnapshot {a0 a1 a2} (h : s.Inv) : (s.debugSnapshot a0 a1 a2).Inv := by
  unfold State.debugSnapshot
  refine h.debugGo ?_
  intro _ hs
  split
  · exact hs.writeBlocks
  · exact hs

theorem State.Inv.execSnapshot {a0 a1 a2} (h : s.Inv) : NextInv (Machine.execSnapshot a0 a1 a2 s) :=
  h.debugEvent fun _ hs => hs.debugSnapshot

theorem State.Inv.debugDict {a0 a2} (h : s.Inv) : (s.debugDict a0 a2).Inv :=
  .ite h (h.debugGo fun _ hs => hs.storeBytes)

theorem State.Inv.execDict {a0 a2} (h : s.Inv) : NextInv (Machine.execDict a0 a2 s) :=
  h.debugEvent fun _ hs => hs.debugDict

theorem State.Inv.debugTrace {a0 a1 a2} (h : s.Inv) : (s.debugTrace a0 a1 a2).Inv := by
  unfold State.debugTrace
  refine h.debugGo ?_
  intro _ hs
  refine .ite hs.updCtx ?_
  refine .updCtx ?_
  split
  · exact hs.storeBytes
  · exact hs

theorem State.Inv.execTrace {a0 a1 a2} (h : s.Inv) : NextInv (Machine.execTrace a0 a1 a2 s) :=
  h.debugEvent fun _ hs => hs.debugTrace

theorem State.Inv.debugCall {go a0 a1 a2} (h : s.Inv) : (s.debugCall go a0 a1 a2).Inv := by
  unfold State.debugCall
  refine .ite h.debugRefuse ?_
  split
  · exact h.debugAttach
  · exact h.debugDetach
  · exact h.debugHalt
  · exact h.debugResume
  · exact h.debugStep
  · exact h.debugSnapshot
  · exact h.debugDict
  · exact h.debugTrace
  · exact h.debugRefuse

theorem State.Inv.serveDebug {n} (h : s.Inv) : (State.serveDebug n s).Inv := by
  induction n generalizing s with
  | zero => exact h.debugSettle
  | succ n ih =>
    have hs := h.debugSettle
    unfold State.serveDebug
    dsimp only
    split
    · exact hs
    · exact .ite hs (ih (.update (.debugCall (.update hs))))

theorem State.Inv.writeDebugGo {go} (h : s.Inv) : (s.writeDebugGo go).Inv := h.update.serveDebug

theorem State.Inv.execRegisterWrite {off v} (h : s.Inv) : NextInv (Machine.execRegisterWrite off v s) :=
  State.Inv.ite h.writeDebugGo (.ite h (.ite h.setWindow (.ite h.update h)))

/-! ### Ethernet -/

theorem State.Inv.emit {f} (h : s.Inv) : (s.emit f).Inv := h.update
theorem State.Inv.acceptFrame {f} (h : s.Inv) : (s.acceptFrame f).Inv := h.update.emit

theorem State.Inv.execEthWriteFrame {frame} (h : s.Inv) : NextInv (Machine.execEthWriteFrame frame s) := by
  unfold Machine.execEthWriteFrame
  show State.Inv _
  refine .ite h ?_
  refine .acceptFrame ?_
  split
  · exact h.storeBytes
  · exact h

theorem State.Inv.execEthReadRequest {frame} (h : s.Inv) : NextInv (Machine.execEthReadRequest frame s) := by
  unfold Machine.execEthReadRequest
  show State.Inv _
  refine .ite h ?_
  dsimp only
  split
  · exact .holdFrame (.ite h.acceptFrame.update h.acceptFrame)
  · exact h.acceptFrame

theorem State.Inv.updFrames {flow node data f} (h : s.Inv) : (s.updFrames flow node data f).Inv := h.update

theorem State.Inv.landRemote {f} (h : s.Inv) : (s.landRemote f).Inv := by
  unfold State.landRemote
  split
  · exact h
  · exact h.updCmd.landBytes.leaveOrder

theorem State.Inv.markFrame {flow node data f} (h : s.Inv) : (s.markFrame flow node data f).Inv :=
  .ite h.updFrames.landRemote h.updFrames

theorem State.Inv.execEthAcknowledge {frame} (h : s.Inv) : NextInv (Machine.execEthAcknowledge frame s) := by
  unfold Machine.execEthAcknowledge
  show State.Inv _
  refine .ite h ?_
  split
  · exact h.markFrame
  · exact h.markFrame
  · exact h

theorem State.Inv.storeArrived {f payload} (h : s.Inv) : (s.storeArrived f payload).Inv := by
  unfold State.storeArrived
  split
  · exact h
  · split
    · split
      · exact h
      · split
        · exact h
        · exact h.storePortion
    · exact h

theorem State.Inv.execEthReadData {frame} (h : s.Inv) : NextInv (Machine.execEthReadData frame s) := by
  unfold Machine.execEthReadData
  show State.Inv _
  refine .ite h ?_
  split
  · exact h
  · exact .ite h h.storeArrived.emit.markFrame

theorem State.Inv.execEthFrameDiscard {frame} (h : s.Inv) : NextInv (Machine.execEthFrameDiscard frame s) :=
  State.Inv.ite h h.update

theorem State.Inv.giveUp {cmd} (h : s.Inv) : (s.giveUp cmd).Inv := by
  unfold State.giveUp
  dsimp only
  split
  · exact h.update
  · exact h.update.updCmd.endCommand.settle.leaveOrder

theorem State.Inv.execResendTimeout {flow} (h : s.Inv) : NextInv (Machine.execResendTimeout flow s) := by
  unfold Machine.execResendTimeout
  show State.Inv _
  split
  · exact h
  · refine .ite h.update.setTxFlow ?_
    split
    · exact h.giveUp
    · exact h.setTxFlow

/-! ### Boot -/

theorem State.Inv.execReset {boot} (h : s.Inv) : NextInv (Machine.execReset boot s) :=
  State.Inv.ite h.afterReset.update (.ite h.afterReset.update h.afterReset.update)

theorem State.Inv.execAttestationReport {nonce} (h : s.Inv) : NextInv (Machine.execAttestationReport nonce s) :=
  h.update

/-! ### Exchanges between lanes -/

theorem State.Inv.exchange {x f g act got} (h : s.Inv) : (s.exchange x f g act got).Inv := h.commit

theorem State.Inv.exchangeStep {i f forbidden got} (h : s.Inv) :
    NextInv (Machine.exchangeStep i f forbidden got s) := by
  unfold Machine.exchangeStep
  split
  · exact h.front ‹_›
  · exact h.exchange

theorem State.Inv.onceCommit {x f g act r} (h : s.Inv) : (s.onceCommit x f g act r).Inv := by
  unfold State.onceCommit
  refine .ite h.endIdle ?_
  split
  · exact h.endIssue
  · split
    · exact h.addFlags.endIssue
    · exact h.setRows.commitUni

theorem State.Inv.execRedw {f} (h : s.Inv) : NextInv (Machine.execRedw f s) := by
  unfold Machine.execRedw
  refine .ite ?_ h.exchangeStep
  split
  · exact h.front ‹_›
  · exact h.onceCommit

theorem State.Inv.execRdlane {f} (h : s.Inv) : NextInv (Machine.execRdlane f s) := by
  unfold Machine.execRdlane
  split
  · exact h.front ‹_›
  · exact h.onceCommit

/-! ### Firmware calls -/

theorem State.Inv.answer {v} (h : s.Inv) : (s.answer v).Inv := h.update

theorem State.Inv.callOn {ctx ok f} (h : s.Inv) : (s.callOn ctx ok f).Inv := by
  unfold State.callOn
  split
  · exact .ite h.updCtx.answer h.answer
  · exact h.answer

theorem State.Inv.execContextCreate {ctx bankKey} (h : s.Inv) :
    NextInv (Machine.execContextCreate ctx bankKey s) :=
  State.Inv.ite h.answer h.update.answer

theorem State.Inv.execContextMakeResident {ctx} (h : s.Inv) :
    NextInv (Machine.execContextMakeResident ctx s) := by
  unfold Machine.execContextMakeResident
  show State.Inv _
  split
  · exact .ite h.startRestore.answer h.answer
  · exact h.answer

theorem State.Inv.execContextDestroy {ctx} (h : s.Inv) : NextInv (Machine.execContextDestroy ctx s) := by
  unfold Machine.execContextDestroy
  show State.Inv _
  split
  · exact h.answer
  · exact .ite h.answer h.dropContext.endKilledSaves.update.answer

theorem State.Inv.execBankKeyRead {ctx} (h : s.Inv) : NextInv (Machine.execBankKeyRead ctx s) := by
  unfold Machine.execBankKeyRead
  show State.Inv _
  split
  · exact .ite h.answer h.answer
  · exact h.answer

theorem State.Inv.execEventAreaRegister {ctx addr} (h : s.Inv) :
    NextInv (Machine.execEventAreaRegister ctx addr s) :=
  h.callOn.flushEvents

theorem State.Inv.place {ctx what tag k} (h : s.Inv) (hk : ∀ s, s.Inv → (k s).Inv) :
    (s.place ctx what tag k).Inv :=
  .ite (.placingDone (hk _ h.placed)) h.placed

theorem State.Inv.enter {α : Type} {m : Made α} {put} (h : s.Inv) (hk : ∀ a, (put a).Inv) : (m.enter s put).Inv := by
  cases m
  · exact hk _
  · exact h
  · exact h.answer

theorem State.Inv.putObject {ctx o st add} (h : s.Inv) : (s.putObject ctx o st add).Inv :=
  .answer (.updCtx (.foldl h fun _ _ hs => hs.storeFresh))

theorem State.Inv.andThen {g : ReadAt} {s t : State} {k} (h : s.Inv) (h' : t.Inv) (hk : ∀ b, (k b).Inv) :
    (g.andThen s t k).Inv := by
  cases g
  · exact hk _
  · exact h
  · exact h'

theorem State.Inv.create {ctx kind desc ps home} (h : s.Inv) : (s.create ctx kind desc ps home).Inv := by
  unfold State.create
  split
  · exact h.answer
  · dsimp only
    split
    · exact h.answer
    · refine .ite h.answer (.andThen h h.answer fun _ => ?_)
      split
      · exact h.enter fun _ => .place h fun _ k => .answer k.updCtx
      · exact h.enter fun _ => .place h fun _ k => k.putObject
      · exact h.enter fun _ => .answer h.updCtx
      · exact h.enter fun _ => .place h fun _ k => k.putObject
      · exact h.answer

theorem State.Inv.execObjectCreate {ctx kind desc places home} (h : s.Inv) :
    NextInv (Machine.execObjectCreate ctx kind desc places home s) :=
  State.Inv.ite h.create h.answer

theorem State.Inv.faultWaiters {ctx hd} (h : s.Inv) : (s.faultWaiters ctx hd).Inv :=
  .raise (.updLanes (.satisfyAll (.foldl h fun _ _ hs => hs.setAt)))

theorem State.Inv.faultPushers {ctx o} (h : s.Inv) : (s.faultPushers ctx o).Inv := by
  unfold State.faultPushers
  refine .ite h ?_
  refine .foldl h ?_
  intro _ _ hs
  refine .foldl hs ?_
  intro _ _ ht
  split
  · exact .ite ht.goAct ht
  · exact ht

theorem State.Inv.cutShort {t c} (h : s.Inv) : (s.cutShort t c).Inv := by
  unfold State.cutShort
  split
  · exact h.update.updCmd
  · exact h.updCmd.endCommand

theorem State.Inv.destroyTarget {ctx hd} (h : s.Inv) : (s.destroyTarget ctx hd).Inv := by
  unfold State.destroyTarget
  split
  · exact h.answer
  · exact .answer (.settle (.updCtx (.foldl h.faultWaiters fun _ _ hs => hs.cutShort)))

theorem State.Inv.destroyObject {ctx hd} (h : s.Inv) : (s.destroyObject ctx hd).Inv := by
  unfold State.destroyObject
  split
  · exact h.answer
  · refine .answer ?_
    refine .settle ?_
    refine .updCtx ?_
    refine .foldl ?_ fun _ _ hs => hs.refusePush
    exact .foldl h.faultPushers.faultWaiters fun _ _ hs => hs.updCmd.endCommand

theorem State.Inv.execObjectDestroy {ctx handle} (h : s.Inv) :
    NextInv (Machine.execObjectDestroy ctx handle s) := by
  unfold Machine.execObjectDestroy
  show State.Inv _
  refine .ite h.answer ?_
  split
  · exact h.destroyTarget
  · exact .ite h.updCtx.answer h.answer
  · exact h.destroyObject

theorem State.Inv.execAllocate {ctx req} (h : s.Inv) : NextInv (Machine.execAllocate ctx req s) := by
  unfold Machine.execAllocate
  show State.Inv _
  dsimp only
  split
  · exact .ite h.answer (.ite h.updCtx.answer (h.place fun _ hs => hs.updCtx.answer))
  · exact h.answer

theorem State.Inv.execMappingChange {ctx req} (h : s.Inv) : NextInv (Machine.execMappingChange ctx req s) := by
  unfold Machine.execMappingChange
  show State.Inv _
  split
  · exact h.answer
  · exact .ite h.answer h.enterChange.answer

/-! ### Every instruction -/

/-- Every instruction and every step of another agent keeps memory canonical. -/
theorem State.Inv.exec (h : s.Inv) (i : Instr) : NextInv (Machine.exec i s) := by
  match i with
  | .nop .. => exact h.execNop
  | .exit .. => exact h.execExit
  | .dfence .. => exact h.execDfence
  | .dictsw .. => exact h.execDictsw
  | .yield .. => exact h.execYield
  | .bkpt .. => exact h.execBkpt
  | .braUniform .. | .bra .. => exact h.braBody
  | .trap .. => exact h.execTrap
  | .rte .. => exact h.execRte
  | .ret .. => exact h.execRet
  | .sread .. => exact h.execSread
  | .swrite .. => exact h.execSwrite
  | .swriteTrappc .. => exact h.execSwriteTrappc
  | .swriteSrseed .. => exact h.execSwriteSrseed
  | .swriteTrapdict .. => exact h.execSwriteTrapdict
  | .swriteCexctl .. => exact h.execSwriteCexctl
  | .swritePcmp .. => exact h.execSwritePcmp
  | .dictld .. => exact h.execDictld
  | .waitc .. => exact h.execWaitc
  | .voteActive .. => exact h.execVoteActive
  | .vote .. => exact h.execVote
  | .brx .. => exact h.branchStep
  | .call .. | .callx .. => exact h.callStep
  | .join .. => exact h.execJoin
  | .reform .. => exact h.execReform
  | .reformHome .. => exact h.execReformHome
  | .window .. => exact h.execWindow
  | .sleep .. => exact h.execSleep
  | .elect .. => exact h.execElect
  | .launch .. => exact h.execLaunch
  | .iadd .. | .isub .. | .imul .. | .imulh .. | .imad .. | .isha .. | .imin .. | .imax .. | .iabs ..
    | .and .. | .or .. | .xor .. | .shl .. | .shr .. | .rotl .. | .bfx .. | .bfi .. | .popc .. | .clz ..
    | .brev .. | .isetp .. | .sel .. | .mov .. | .movi .. | .bsel .. | .pset .. | .fadd .. | .fmul ..
    | .ffma .. | .fmin .. | .fmax .. | .fsetp .. | .fscl .. | .rcp .. | .rsq .. | .sqrt .. | .exp2 ..
    | .log2 .. | .sin .. | .cos .. | .tanh .. | .frc .. | .frnd .. | .f2i .. | .i2f .. | .fclass ..
    | .dot4 .. => exact h.aluExec
  | .rdlane .. => exact h.execRdlane
  | .bcast .. | .qxh .. | .qxv .. | .qxd .. | .qbc .. | .ddx .. | .ddy .. | .lxch .. | .scanw .. | .matchw .. => exact h.exchangeStep
  | .cvt .. => exact h.execCvt
  | .redw .. => exact h.execRedw
  | .ld .. => exact h.execLd
  | .st .. => exact h.execSt
  | .ldv .. => exact h.execLdv
  | .stv .. => exact h.execStv
  | .lds .. => exact h.execLds
  | .pref .. => exact h.execPref
  | .atom .. => exact h.execAtom
  | .atomv .. => exact h.execAtomv
  | .cas .. => exact h.execCas
  | .red .. => exact h.execRed
  | .redv .. => exact h.execRedv
  | .fence .. => exact h.execFence
  | .lineProbe .. => exact h.execLineProbe
  | .lineZero .. => exact h.execLineZero
  | .waitw .. => exact h.execWaitw
  | .swarm .. => exact h.execSwarm
  | .swwait .. => exact h.execSwwait
  | .tex .. => exact h.execTex
  | .tld .. => exact h.execTld
  | .bara .. | .barw .. | .bars .. => exact h.barStep
  | .jset .. => exact h.execJset
  | .jsign .. => exact h.execJsign
  | .convergenceOpComplete .. => exact h.execConvergenceOpComplete
  | .jwait .. => exact h.execJwait
  | .wload .. => exact h.execWload
  | .mma .. => exact h.execMma
  | .mmg .. => exact h.execMmg
  | .tldt .. => exact h.execTldt
  | .tstt .. => exact h.execTstt
  | .tmov .. => exact h.execTmov
  | .tcvt .. => exact h.execTcvt
  | .tscl .. => exact h.execTscl
  | .acz .. => exact h.execAcz
  | .acrd .. => exact h.execAcrd
  | .acwr .. => exact h.execAcwr
  | .acst .. => exact h.execAcst
  | .post .. => exact h.execPost
  | .tsamp .. => exact h.execTsamp
  | .ocall .. => exact h.execOcall
  | .oread .. => exact h.execOread
  | .sld .. | .sst .. | .marg .. | .mret .. | .mtrap .. => exact h.methodExec
  | .ostat .. => exact h.execOstat
  | .ctxsv .. | .ctxrs .. => exact h.saveStep
  | .tlbi .. => exact h.execTlbi
  | .dictrd .. | .lanex .. => exact h.readStep
  | .parkr .. => exact h.execParkr
  | .hatchArgStore .. => exact h.execHatchArgStore
  | .copyLinear .. | .copyStrided .. | .copyFill .. | .nmLoad .. | .nmRun .. | .draw .. | .invoke ..
    | .readout .. | .queuePush .. => exact h.stageGo
  | .goAccept .. => exact h.execGoAccept
  | .copyPortionLand .. => exact h.execCopyPortionLand
  | .completionRegisterWrite .. => exact h.execCompletionRegisterWrite
  | .nmLoadPart .. => exact h.execNmLoadPart
  | .nmWave .. => exact h.execNmWave
  | .orderTokenIssue .. => exact h.execOrderTokenIssue
  | .fragmentApply .. => exact h.execFragmentApply
  | .invokeApply .. => exact h.execInvokeApply
  | .workgroupAdmission .. => exact h.execWorkgroupAdmission
  | .gangReservation .. => exact h.execGangReservation
  | .gangAged .. => exact h.execGangAged
  | .binDraw .. => exact h.execBinDraw
  | .loadDataLand .. => exact h.execLoadDataLand
  | .translationComplete .. => exact h.execTranslationComplete
  | .pageZeroingComplete .. => exact h.execPageZeroingComplete
  | .writeQueueApply .. => exact h.execWriteQueueApply
  | .dictSlotLoad .. => exact h.execDictSlotLoad
  | .waitwReread .. => exact h.execWaitwReread
  | .syncExtwait .. => exact h.execSyncExtwait
  | .sleepExpiry .. => exact h.execSleepExpiry
  | .handlerEntry .. => exact h.execHandlerEntry
  | .hangDetected .. => exact h.execHangDetected
  | .eventRetire .. => exact h.execEventRetire
  | .hostEventAnswer .. => exact h.execHostEventAnswer
  | .preemptRequest .. => exact h.execPreemptRequest
  | .cooperativeSave .. => exact h.execCooperativeSave
  | .preForced .. => exact h.execPreForced
  | .contextSaveComplete .. => exact h.execContextSaveComplete
  | .replayApply .. => exact h.execReplayApply
  | .replicaRebuild .. => exact h.execReplicaRebuild
  | .coreUe .. => exact h.execCoreUe
  | .vaultLineUe .. => exact h.execVaultLineUe
  | .hbmChunkUe .. => exact h.execHbmChunkUe
  | .dictSlotUe .. => exact h.execDictSlotUe
  | .replicaUe .. => exact h.fenceReplicas
  | .bmuFault .. => exact h.damagePixels
  | .machineCheck .. => exact h.execMachineCheck
  | .clockThrottle .. => exact h.execClockThrottle
  | .cexRemainTick .. => exact h.execCexRemainTick
  | .hostQueuePush .. => exact h.execHostQueuePush
  | .hostGoAccept .. => exact h.serveWindow
  | .attach .. => exact h.execAttach
  | .detach .. => exact h.execDetach
  | .halt .. => exact h.execHalt
  | .resume .. => exact h.execResume
  | .step .. => exact h.execStep
  | .snapshot .. => exact h.execSnapshot
  | .dict .. => exact h.execDict
  | .trace .. => exact h.execTrace
  | .dreset .. => exact h.execDreset
  | .registerWrite .. => exact h.execRegisterWrite
  | .hostBar2Read .. => exact h.execHostBar2Read
  | .hostBar2Write .. => exact h.execHostBar2Write
  | .reset .. => exact h.execReset
  | .attestationReport .. => exact h.execAttestationReport
  | .ethWriteFrame .. => exact h.execEthWriteFrame
  | .ethReadRequest .. => exact h.execEthReadRequest
  | .ethReadData .. => exact h.execEthReadData
  | .ethAcknowledge .. => exact h.execEthAcknowledge
  | .ethFrameDiscard .. => exact h.execEthFrameDiscard
  | .resendTimeout .. => exact h.execResendTimeout
  | .contextCreate .. => exact h.execContextCreate
  | .contextMakeResident .. => exact h.execContextMakeResident
  | .contextDestroy .. => exact h.execContextDestroy
  | .modeWrite .. | .ageLimitSet .. | .extwaitSet .. | .hanglimitSet .. | .trapConfigSet ..
    | .hangAreaRegister .. => exact h.callOn
  | .objectCreate .. => exact h.execObjectCreate
  | .objectDestroy .. => exact h.execObjectDestroy
  | .allocate .. => exact h.execAllocate
  | .mappingChange .. => exact h.execMappingChange
  | .bankKeyRead .. => exact h.execBankKeyRead
  | .eventAreaRegister .. => exact h.execEventAreaRegister
  | .writePerform .. => exact h.execWritePerform
  | .mappingChangeComplete .. => exact h.execMappingChangeComplete
  | .restoreComplete .. => exact h.execRestoreComplete

/-! ### The course of an issue -/

theorem State.Inv.countSkid {x} (h : s.Inv) : (s.countSkid x).Inv := by
  unfold State.countSkid
  refine .ite ?_ h
  dsimp only
  split
  · exact h.updGroup.updWarp
  · exact h.updGroup

theorem State.Inv.fetchAbsent {x pc} (h : s.Inv) : (s.fetchAbsent x pc).Inv := by
  unfold State.fetchAbsent
  refine .ite h.killContext ?_
  refine .ite h.stall ?_
  exact .afterAll (.regroup (.setHold (.foldl h fun _ _ hs => .getD hs fun _ e => hs.park e)))

theorem State.Inv.issueFault {x c d} (h : s.Inv) : (s.issueFault x c d).Inv := h.setHold.raise

theorem State.Inv.afterIssue {x} (h : s.Inv) : (s.afterIssue x).Inv :=
  .ite (.ite h.update.updWarp (.ite h.update.updWarp h.update.updWarp.raise)) h.update

theorem State.Inv.notIssued {s u : State} {x} (h : s.Inv) : (s.notIssued x u).Inv := h.update.setHold

theorem State.Inv.debugCause {s t : State} {x rs c} (h : s.Inv) (e : s.debugCause x = some (rs, c, t)) : t.Inv := by
  unfold State.debugCause at e
  split at e
  · cases e; exact h.updWg
  · split at e
    · cases e; exact h.updWarp
    · split at e
      · cases e; exact h.updCtx
      · cases e

theorem State.Inv.preempted {s t : State} {x} (h : s.Inv) (e : s.preempted x = some t) : t.Inv := by
  obtain ⟨⟨rs, c, u⟩, hq, rfl⟩ := Option.map_eq_some_iff.1 e
  exact .ite h.stall (h.debugCause hq).raise

theorem State.Inv.lookAgain {s t : State} {x} (h : s.Inv) (e : s.lookAgain x = some t) : t.Inv := by
  unfold State.lookAgain at e
  split at e
  · cases e; exact h.swwaitAgain
  · cases e

/-- Both ways in which what stands before the fetch may end keep memory canonical. -/
def BothInv : Except State State → Prop
  | .ok t | .error t => t.Inv

theorem State.Inv.carryHome {s t : State} {x rs} (h : s.Inv) (k : t.Inv) : BothInv (s.carryHome x rs t) := by
  induction rs generalizing t with
  | nil => exact k
  | cons r rest ih =>
    unfold State.carryHome
    split
    · split
      · exact h.stall
      · exact h.setHold.raise
      · exact ih k.updWarp.updLane
    · exact ih k

theorem State.Inv.beforeFetch {x} (h : s.Inv) : BothInv (s.beforeFetch x) := by
  unfold State.beforeFetch
  split
  · next e =>
    obtain e | ⟨-, e⟩ := Option.or_eq_some_iff.1 e
    · exact h.lookAgain e
    · exact h.preempted e
  · split
    · exact h
    · exact h.carryHome h

/-- An issue made ready keeps memory canonical in each state it holds. -/
def Ready.Inv : Ready → Prop
  | .run _ s bare => s.Inv ∧ bare.Inv
  | .stop s => s.Inv

theorem State.Inv.issueWord {x w lit} (h : s.Inv) : (s.issueWord x w lit).Inv := by
  unfold State.issueWord
  split
  · exact h.partGroup
  · split
    · exact h.comparators.issueFault
    · dsimp only
      have hs := h.comparators (x := x) (w := w) (lit := lit) |>.visit (x := x) |>.countSkid (x := x) |>.switchGroup (x := x)
      split
      · exact hs.updLanes.issueFault
      · exact ⟨hs.updLanes, h⟩

theorem State.Inv.prepareIssue {x} (h : s.Inv) : (s.prepareIssue x).Inv := by
  have hb : BothInv (s.beforeFetch x) := h.beforeFetch
  unfold State.prepareIssue
  split
  · next e => rw [e] at hb; exact hb
  · next u e =>
    rw [e] at hb
    have hu : u.Inv := hb
    split
    · exact hu.issueFault
    · exact hu.startWalk.stall
    · exact hu.fetchAbsent
    · split
      · split
        · exact hu.issueFault
        · exact hu.startWalk.stall
        · exact hu.fetchAbsent
        · exact hu.issueWord
      · exact hu.issueWord

@[inherit_doc Ready.Inv]
def ReadyIssue.Inv : ReadyIssue → Prop
  | .run _ _ s bare => s.Inv ∧ bare.Inv
  | .stop s => s.Inv

theorem State.Inv.readyIssue {g} (h : s.Inv) : (s.readyIssue g).Inv := by
  unfold State.readyIssue
  split
  · exact h
  · next x _ =>
    split
    · have hp : (s.prepareIssue x).Inv := h.prepareIssue
      split <;> rename_i e <;> rw [e] at hp <;> exact hp
    · exact h

/-! ### The exchange of entries -/

theorem State.Inv.swapAll (h : s.Inv) : s.swapAll.Inv := .foldl h fun _ _ hs => hs.setPipe
theorem State.Inv.afterAction (h : s.Inv) : s.afterAction.Inv := h.swapAll.serveDebug

/-! ### A step -/

theorem State.Inv.withControl {n} (h : s.Inv) : (s.withControl n).Inv := .ite h h.update
theorem State.Inv.afterControl {n} (h : s.Inv) : (s.afterControl n).Inv := h.update.updWarp

theorem State.Inv.control {n i} (h : s.Inv) : NextInv (s.control n i) := by
  unfold State.control
  dsimp only
  split
  · exact h
  · next x _ =>
    split
    · exact h
    · have he : NextInv (Machine.exec i { s.withControl n with cur := .group x.g }) :=
        State.Inv.exec (.update h.withControl) i
      split
      · next e => rw [e] at he; exact State.Inv.ite h.withControl.notIssued he.afterControl
      · exact he

theorem State.Inv.performAction {a} (h : s.Inv) : NextInv (Machine.perform a s) := by
  cases a with
  | tick n => exact h.passCycles
  | event i => exact State.Inv.exec (.update h) i
  | firmware n i => exact h.control
  | issue g =>
    have hr : (s.readyIssue g).Inv := h.readyIssue
    unfold Machine.perform
    dsimp only
    split
    · next e => rw [e] at hr; exact hr
    · next x i t bare e =>
      rw [e] at hr
      obtain ⟨ht, hb⟩ := hr
      have he : NextInv (Machine.exec i t) := ht.exec i
      split
      · next e => rw [e] at he; exact State.Inv.ite hb.notIssued he.afterIssue
      · exact he

theorem State.Inv.nextAction (h : s.Inv) : s.nextAction.2.Inv := by
  unfold State.nextAction
  split
  · exact h
  · exact h.passCycles

/-- The outcome of a step: an action performed, then what the package does of itself. -/
theorem State.Inv.step (h : s.Inv) : NextInv (Machine.step s) := by
  have hp : NextInv (Machine.perform s.nextAction.1 s.nextAction.2) := h.nextAction.performAction
  unfold Machine.step
  split
  · next e => rw [e] at hp; exact hp.afterAction
  · exact hp

/-- Settles O59: the table after reset lists nothing. -/
theorem resetInv : Obligations.ResetInv := by
  unfold Obligations.ResetInv State.Inv
  rfl

/-- Settles O60: what a step performs, and what the package does after it, are made of operations that each keep memory canonical. -/
theorem stepKeepsInv : Obligations.StepKeepsInv := by
  intro s t h e
  have ht : NextInv (step s) := h.step
  rw [e] at ht
  exact ht

end Sys2Proof.Machine
end
section
/-! SUPPORT. StorePoison fails: what follows the store of a lane may write an event record of the host, which covers a
line whole. -/

namespace Sys2Proof.Machine

/-- A store of two bytes by lane 0 of workgroup 0. -/
def twoByteStore : Access :=
  { seq := 7, ctx := 0, lane := ⟨0, 0, 0⟩, kind := .store [0xAA, 0xBB], phys := 0x100, size := 2, acq := false, rel := false, issue := 6
    dst := noDest, rows := [], reformed := none }

/-- The line of the host's memory in which the next event record of context 0 stands, for an event area at 0 (R386). -/
def eventLine : Nat := (Config.hostBase + 64) / 64

/-- The program of workgroup 0 with that store in flight, and a result of lane 0 that still waits for a row, of v9 (R147). A
register is mapped and LIVEMAX is 1, so the result ends in REG_LIVEMAX (R146), which without a trap handler kills the
context; the line of the record of that is poisoned. -/
def storeThenFault : State :=
  let s := { State.reset.withProgram [] with pend := [twoByteStore], poison := [eventLine] }
  let s := s.updWarp 0 0 fun v =>
    { v with livemax := 1, rows := [{ id := 0, reg := some 2, vals := List.replicate 32 0, await := [], handler := false }] }
  let s := s.updLane ⟨0, 0, 0⟩ fun l => { l with st := .waiting (.landed [7] none { noDest with regs := [9], nwb := false }) }
  s.updCtx 0 fun c => { c with eventArea := some 0 }

theorem storeThenFault_performs :
    storeThenFault.pend.find? (fun b => b.seq = 7) = some twoByteStore ∧ storeThenFault.mayPerform twoByteStore = true := by
  decide +kernel

/-- The event record is written after the store, over the whole poisoned line. -/
theorem storeThenFault_clears :
    ∃ t, exec (.writePerform 7) storeThenFault = .next t ∧ eventLine ∉ t.poison :=
  ⟨_, rfl, by decide +kernel⟩

theorem storeThenFault_poisoned : eventLine ∈ storeThenFault.poison := by decide +kernel

/-- The store of two bytes covers no line. -/
theorem twoByteStore_covers_none (line : Nat) : ¬(twoByteStore.phys ≤ 64 * line ∧ 64 * line + 64 ≤ twoByteStore.phys + 2) := by
  simp only [twoByteStore]
  omega

/-- Refutes O48: WRITE_PERFORM goes on after the store to what the workgroup's waiting results do (R147). In
`storeThenFault` one of them ends in a fault that kills the context, whose event record clears the poison of a line that the
store does not touch. -/
theorem not_storePoison : ¬ Obligations.StorePoison := by
  intro h
  obtain ⟨hfind, hmay⟩ := storeThenFault_performs
  obtain ⟨t, ht, hline⟩ := h storeThenFault 7 twoByteStore [0xAA, 0xBB] hfind rfl hmay
  obtain ⟨u, hu, hclear⟩ := storeThenFault_clears
  have htu : t = u := by rw [ht] at hu; exact Host.Outcome.next.inj hu
  exact hclear (htu ▸ (hline eventLine).mpr ⟨storeThenFault_poisoned, twoByteStore_covers_none eventLine⟩)

end Sys2Proof.Machine
end
section
/-! SUPPORT. The contexts after an update of one, and the calls of the Firmware Interface: what a call that may be made
answers and leaves unchanged (O43, O50). -/

namespace Sys2Proof.Machine

/-! ### Contexts -/

/-- A change of a context that leaves its number and whether it was killed. -/
def KeepsId (f : Context → Context) : Prop := ∀ c, (f c).id = c.id ∧ (f c).killed = c.killed

theorem ctx?_some_id {s : State} {id : Nat} {c : Context} (h : s.ctx? id = some c) : c.id = id ∧ c.killed = false := by
  simpa [State.ctx?] using List.find?_some h

theorem ctx?_updCtx {f : Context → Context} (hf : KeepsId f) (s : State) (id n : Nat) :
    (s.updCtx id f).ctx? n = if n = id then (s.ctx? n).map f else s.ctx? n := by
  have found : (s.updCtx id f).ctx? n = (s.ctx? n).map fun c => if c.id = id && !c.killed then f c else c :=
    mapIf_find? _ _ _ _ fun c _ => by simp [hf c]
  rw [found]
  cases hc : s.ctx? n with
  | none => simp
  | some c =>
    obtain ⟨rfl, hk⟩ := ctx?_some_id hc
    split <;> simp [*]

theorem ctx?_updCtx_same {f : Context → Context} (hf : KeepsId f) {s : State} {id : Nat} {c : Context} (h : s.ctx? id = some c) :
    (s.updCtx id f).ctx? id = some (f c) := by simp [ctx?_updCtx hf, h]

theorem ctx?_updCtx_ne {f : Context → Context} (hf : KeepsId f) (s : State) {id n : Nat} (h : n ≠ id) :
    (s.updCtx id f).ctx? n = s.ctx? n := by simp [ctx?_updCtx hf, h]

/-- Which context has a number is told by the contexts alone. -/
theorem ctx?_of_contexts {s t : State} (h : t.contexts = s.contexts) (n : Nat) : t.ctx? n = s.ctx? n := by
  simp only [State.ctx?, h]

@[simp] theorem ctx?_answer (s : State) (v n : Nat) : (s.answer v).ctx? n = s.ctx? n := rfl

/-! ### Calls that change a context -/

theorem callOn_granted {s : State} {ctx : Nat} {c : Context} {ok : Context → Bool} (f : Context → Context)
    (hb : s.booted = true) (hc : s.ctx? ctx = some c) (hok : ok c = true) :
    s.callOn ctx ok f = (s.updCtx ctx f).answer 1 := by simp [State.callOn, hc, hb, hok]

theorem callOn_refused {s : State} {ctx : Nat} {c : Context} {ok : Context → Bool} (f : Context → Context)
    (hc : s.ctx? ctx = some c) (hok : ok c = false) : s.callOn ctx ok f = s.answer 0 := by
  simp [State.callOn, hc, hok]

/-- An update of a context, answered with 1, is all that `Calls1` asks of a call. -/
theorem calls1_of_updCtx {i : Instr} {s : State} {ctx : Nat} {c : Context} {f : Context → Context} (hf : KeepsId f)
    (hc : s.ctx? ctx = some c) (he : exec i s = .next ((s.updCtx ctx f).answer 1)) : Calls1 i s ctx (f c) :=
  ⟨_, he, ctx?_updCtx_same hf hc, fun _ hn => ctx?_updCtx_ne hf s hn, _, rfl⟩

/-- A call on a context that may be made. -/
theorem calls1_of_callOn {i : Instr} {s : State} {ctx : Nat} {c : Context} {ok : Context → Bool} {f : Context → Context}
    (he : exec i s = .next (s.callOn ctx ok f)) (hf : KeepsId f) (hb : s.booted = true) (hc : s.ctx? ctx = some c)
    (hok : ok c = true) : Calls1 i s ctx (f c) :=
  calls1_of_updCtx hf hc (by rw [he, callOn_granted f hb hc hok])

/-- A call on a context that may not be made. -/
theorem refuses_of_callOn {i : Instr} {s : State} {ctx : Nat} {c : Context} {ok : Context → Bool} {f : Context → Context}
    (he : exec i s = .next (s.callOn ctx ok f)) (hc : s.ctx? ctx = some c) (hok : ok c = false) : Refuses i s := by
  rw [Refuses, he, callOn_refused f hc hok]
  rfl

theorem modeWrite_granted {s : State} {ctx : Nat} {c : Context} (v : Word) (hb : s.booted = true) (hc : s.ctx? ctx = some c)
    (hr : c.resident = false) : Calls1 (.modeWrite ctx v) s ctx { c with mode := v &&& 0x3F } :=
  calls1_of_callOn (f := fun c => { c with mode := v &&& 0x3F }) rfl (fun _ => ⟨rfl, rfl⟩) hb hc (by simp [hr])

theorem modeWrite_refused {s : State} {ctx : Nat} {c : Context} (v : Word) (hc : s.ctx? ctx = some c) (hr : c.resident = true) :
    Refuses (.modeWrite ctx v) s := refuses_of_callOn rfl hc (by simp [hr])

/-- Settles O50: MODE_WRITE is a call on a context that may be made while the context is not resident. -/
theorem modeWrites : Obligations.ModeWrites := by
  intro s ctx c v hb hc
  cases hr : c.resident with
  | true => exact ⟨_, modeWrite_refused v hc hr, rfl, congrArg (Option.map Context.mode) hc⟩
  | false =>
    obtain ⟨t, ht, hctx, -, contexts, rfl⟩ := modeWrite_granted v hb hc hr
    exact ⟨_, ht, rfl, congrArg (Option.map Context.mode) hctx⟩

/-! ### Settings -/

/-- A context that is resident again. -/
def Context.restored (c : Context) : Context := { c with resident := true, preq := false }

@[simp] theorem ctx?_resumeCmds (s : State) (ctx n : Nat) : (s.resumeCmds ctx).ctx? n = s.ctx? n := rfl

/-- A restore that reads no save area makes the context resident; commands of the engines go on. -/
theorem startRestore_unsaved {s : State} {ctx : Nat} {c : Context} (hc : s.ctx? ctx = some c) :
    (s.startRestore ctx none none).ctx? ctx = some c.restored
      ∧ (∀ n, n ≠ ctx → (s.startRestore ctx none none).ctx? n = s.ctx? n)
      ∧ ∃ contexts cmds freeCount, s.startRestore ctx none none = { s with contexts := contexts, cmds := cmds, freeCount := freeCount } := by
  have upd : s.startRestore ctx none none
      = (s.updCtx ctx fun c => { c with resident := true, preq := false, saveCmds := c.saveCmds ++ [] }).resumeCmds ctx := by
    simp [State.startRestore, hc]
  have keeps : KeepsId fun c => { c with resident := true, preq := false, saveCmds := c.saveCmds ++ [] } := fun _ => ⟨rfl, rfl⟩
  refine ⟨?_, fun n hn => ?_, ?_⟩
  · rw [upd, ctx?_resumeCmds, ctx?_updCtx_same keeps hc, List.append_nil]
    rfl
  · rw [upd, ctx?_resumeCmds, ctx?_updCtx_ne keeps s hn]
  · rw [upd]
    exact ⟨_, _, _, rfl⟩

theorem contextMakeResident_granted {s : State} {ctx : Nat} {c : Context} (hb : s.booted = true) (hc : s.ctx? ctx = some c)
    (hr : c.resident = false) :
    ∃ t : State, exec (.contextMakeResident ctx) s = .next { t with replyWord := 1 }
      ∧ t = s.startRestore ctx none (if c.saved then c.areaAt.map Prod.fst else none)
      ∧ (c.saved = false → t.ctx? ctx = some { c with resident := true, preq := false } ∧ (∀ n, n ≠ ctx → t.ctx? n = s.ctx? n)
        ∧ ∃ contexts cmds freeCount, t = { s with contexts := contexts, cmds := cmds, freeCount := freeCount }) := by
  refine ⟨_, ?_, rfl, fun hs => ?_⟩
  · change Host.Outcome.next _ = _
    rw [hc]
    simp [hb, hr, State.answer, dwordOf]
  · rw [if_neg (by simp [hs])]
    exact startRestore_unsaved hc

theorem bankKeyRead_answers {s : State} {ctx : Nat} {c : Context} (hb : s.booted = true) (hc : s.ctx? ctx = some c) :
    exec (.bankKeyRead ctx) s = .next { s with replyWord := dwordOf c.bankKey } := by
  change Host.Outcome.next _ = _
  rw [hc]
  simp [hb, State.answer]

theorem eventAreaRegister_granted {s : State} {ctx : Nat} {c : Context} (a : DWord) (hb : s.booted = true) (hc : s.ctx? ctx = some c) :
    ∃ t : State, exec (.eventAreaRegister ctx a) s = .next (t.flushEvents ctx)
      ∧ t.ctx? ctx = some { c with eventArea := some a } ∧ ∃ contexts, t = { s with contexts := contexts, replyWord := 1 } := by
  refine ⟨_, rfl, ?_⟩
  rw [callOn_granted _ hb hc rfl]
  exact ⟨ctx?_updCtx_same (f := fun c => { c with eventArea := some a }) (fun _ => ⟨rfl, rfl⟩) hc, _, rfl⟩

theorem settingsChange : SettingsChange := by
  intro s ctx c hb hc
  refine ⟨contextMakeResident_granted hb hc, fun v => modeWrite_granted v hb hc, fun v => modeWrite_refused v hc,
    fun v hlo hhi => ?_, fun v hv => ?_, fun v => ?_, fun v hv => ?_, fun v hv hr => ?_, fun b k i hr ha => ?_,
    bankKeyRead_answers hb hc, fun a => ?_, fun a => eventAreaRegister_granted a hb hc⟩
  case refine_1 =>
    exact calls1_of_callOn (f := fun c => { c with ageLimit := v }) rfl (fun _ => ⟨rfl, rfl⟩) hb hc (by simp [hlo, hhi])
  case refine_2 => exact refuses_of_callOn rfl hc (by simp only [Bool.and_eq_false_iff, decide_eq_false_iff_not]; omega)
  case refine_3 => exact calls1_of_callOn (f := fun c => { c with extwait := v }) rfl (fun _ => ⟨rfl, rfl⟩) hb hc rfl
  case refine_4 =>
    exact calls1_of_callOn (f := fun c => { c with hanglimit := v }) rfl (fun _ => ⟨rfl, rfl⟩) hb hc (by simpa using hv)
  case refine_5 =>
    exact refuses_of_callOn rfl hc (by
      simp only [Bool.or_eq_false_iff, Bool.and_eq_false_iff, decide_eq_false_iff_not]; omega)
  case refine_6 =>
    exact calls1_of_callOn (f := fun c => { c with trapbase := b, trapdict := k.toNat, trapimg := i }) rfl (fun _ => ⟨rfl, rfl⟩) hb hc
      (by simp [hr, ha])
  case refine_7 => exact calls1_of_callOn (f := fun c => { c with hangArea := some a }) rfl (fun _ => ⟨rfl, rfl⟩) hb hc rfl

end Sys2Proof.Machine
end
section
/-! SUPPORT. Contexts and objects made and destroyed, ranges allocated and mapping changes entered: the calls of the
Firmware Interface of O43. -/

namespace Sys2Proof.Machine

/-! ### Contexts made and destroyed -/

/-- The contexts that a context's number is taken from. -/
theorem ctx?_without (s : State) (ctx n : Nat) :
    ({ s with contexts := s.contexts.filter fun (c : Context) => c.id != ctx } : State).ctx? n = if n = ctx then none else s.ctx? n := by
  simp only [State.ctx?, List.find?_filter]
  split
  next h => simp +contextual [h]
  next h =>
    congr 1
    funext c
    by_cases hc : c.id = n <;> simp [hc, h]

/-- A context entered in the place of any other of its number. -/
def State.enterCtx (s : State) (d : Context) : State :=
  { s with contexts := (s.contexts.filter fun (c : Context) => c.id != d.id) ++ [d] }

theorem ctx?_enterCtx (s : State) (d : Context) (n : Nat) (hd : d.killed = false) :
    (s.enterCtx d).ctx? n = if n = d.id then some d else s.ctx? n := by
  have hw := ctx?_without s d.id n
  simp only [State.ctx?, State.enterCtx] at hw ⊢
  rw [List.find?_append, hw]
  split
  next h => simp [h, hd]
  next h => simp [Ne.symm h]

theorem contextCreate_granted {s : State} {ctx k : Nat} (hb : s.booted = true) (hn : ctx < Config.numContexts) (hc : s.ctx? ctx = none) :
    ∃ t : State, exec (.contextCreate ctx k) s = .next t ∧ t.ctx? ctx = some (Context.created ctx (k % 32))
      ∧ (t.ctx? ctx).map Context.resident = some false
      ∧ (∀ n, n ≠ ctx → t.ctx? n = s.ctx? n) ∧ ∃ contexts, t = { s with contexts := contexts, replyWord := 1 } := by
  have he : exec (.contextCreate ctx k) s = .next ((s.enterCtx (Context.created ctx (k % 32))).answer 1) :=
    congrArg Host.Outcome.next (if_neg (by simp [hb, hc, hn]))
  have entered : ((s.enterCtx (Context.created ctx (k % 32))).answer 1).ctx? ctx = some (Context.created ctx (k % 32)) := by
    rw [ctx?_answer, ctx?_enterCtx _ _ _ rfl]
    exact if_pos rfl
  refine ⟨_, he, entered, by rw [entered]; rfl, fun n h => ?_, _, rfl⟩
  rw [ctx?_answer, ctx?_enterCtx _ _ _ rfl]
  exact if_neg h

theorem contextCreate_refused {s : State} {ctx k : Nat} (hc : (s.ctx? ctx).isSome = true) : Refuses (.contextCreate ctx k) s := by
  change Host.Outcome.next _ = _
  rw [if_pos (by simp [hc])]
  rfl

theorem contextDestroy_granted {s : State} {ctx : Nat} {c : Context} (hb : s.booted = true) (hc : s.ctx? ctx = some c) :
    ∃ t : State, exec (.contextDestroy ctx) s = .next t ∧ t.ctx? ctx = none ∧ t.replyWord = 1 := by
  refine ⟨_, rfl, ?_, ?_⟩
  · simp only [hc, hb, Bool.not_true, Bool.false_eq_true, if_false, ctx?_answer, ctx?_without, if_true]
  · simp only [hc, hb, Bool.not_true, Bool.false_eq_true, if_false]
    rfl

theorem contextsChange : ContextsChange :=
  ⟨fun _ _ _ => contextCreate_granted, fun _ _ _ => contextCreate_refused, fun _ _ _ => contextDestroy_granted⟩

/-! ### Placements (R125) -/

/-- Where MODE does not ask the host about placements, a call goes on at once. -/
theorem place_unasked {s : State} {ctx : Nat} (what : Asked) (tag : Word) (k : State → State) (hm : s.hostMode ctx 2 = false) :
    s.place ctx what tag k = (k s).placingDone ctx what := by
  simp [State.place, State.placed, hm]

theorem keepsId_placingOver (what : Asked) : KeepsId (placingOver what) := fun _ => ⟨rfl, rfl⟩

theorem placingDone_eq (s : State) (ctx : Nat) (what : Asked) : s.placingDone ctx what = s.updCtx ctx (placingOver what) := rfl

/-- A context changed by a call, and its placement over. -/
theorem ctx?_placingDone {f : Context → Context} (hf : KeepsId f) {s : State} {ctx : Nat} {c : Context} (what : Asked) (v : Nat)
    (hc : s.ctx? ctx = some c) : (((s.updCtx ctx f).answer v).placingDone ctx what).ctx? ctx = some (placingOver what (f c)) := by
  rw [placingDone_eq, ctx?_updCtx_same (keepsId_placingOver what) (by rw [ctx?_answer, ctx?_updCtx_same hf hc])]

theorem ctx?_placingDone_ne {f : Context → Context} (hf : KeepsId f) (s : State) {ctx n : Nat} (what : Asked) (v : Nat) (h : n ≠ ctx) :
    (((s.updCtx ctx f).answer v).placingDone ctx what).ctx? n = s.ctx? n := by
  rw [placingDone_eq, ctx?_updCtx_ne (keepsId_placingOver what) _ h, ctx?_answer, ctx?_updCtx_ne hf s h]

/-! ### Objects made (R50) -/

theorem storeFresh_frame (s : State) (phys : Nat) (bs : List Byte) :
    ∃ mem poison, s.storeFresh phys bs = { s with mem := mem, poison := poison } := ⟨_, _, rfl⟩

/-- The replicas of a new object are filled in memory alone. -/
theorem fillReplicas_frame (rs : List Replica) (st : List Byte) (s : State) :
    ∃ mem poison, rs.foldl (fun s r => s.storeFresh r.base st) s = { s with mem := mem, poison := poison } := by
  induction rs generalizing s with
  | nil => exact ⟨_, _, rfl⟩
  | cons r rs ih =>
    obtain ⟨mem, poison, h⟩ := ih (s.storeFresh r.base st)
    exact ⟨mem, poison, h⟩

/-- An object put where the host is not asked: it is entered, its handle answered, and its replicas are filled. -/
theorem putObject_placed {add : Context → Context} (hf : KeepsId add) {s : State} {ctx : Nat} {c : Context} (what : Asked)
    (o : ReplayObj × List Byte) (hc : s.ctx? ctx = some c) :
    ((s.putObject ctx o.1 o.2 add).placingDone ctx what).ctx? ctx = some (placingOver what (add c))
      ∧ ((s.putObject ctx o.1 o.2 add).placingDone ctx what).replyWord = dwordOf o.1.handle.toNat
      ∧ ((s.putObject ctx o.1 o.2 add).placingDone ctx what).mem = replicasFilled s o
      ∧ ∃ contexts replyWord mem poison, (s.putObject ctx o.1 o.2 add).placingDone ctx what
          = { s with contexts := contexts, replyWord := replyWord, mem := mem, poison := poison } := by
  obtain ⟨mem, poison, hfill⟩ := fillReplicas_frame o.1.replicas o.2 s
  refine ⟨?_, rfl, rfl, ?_⟩
  · exact ctx?_placingDone hf what _ (by rw [hfill]; exact hc)
  · rw [State.putObject, hfill]
    exact ⟨_, _, _, _, rfl⟩

theorem dwordOf_toNat (v : DWord) : dwordOf v.toNat = v := by simp [dwordOf]

/-- A creation whose descriptor is read: what is made of its bytes is entered. -/
theorem objectCreate_target {s : State} {ctx : Nat} {desc : DWord} {places : List Nat} {home i : Nat} {c : Context} {b : List Byte} {t : Target}
    (hb : s.booted = true) (hc : s.ctx? ctx = some c) (hm : s.hostMode ctx 2 = false) (hr : region desc.toNat = .paged)
    (hd : s.readAt ctx .r desc.toNat 1 64 = .bytes b) (hi : freeIndex (c.targets.map Target.index) = some i)
    (ht : s.makeTarget ctx desc.toNat i places b = .ok t) :
    exec (.objectCreate ctx 1 desc places home) s
      = .next (((s.updCtx ctx fun c => { c with targets := c.targets ++ [t] }).answer (0x10000000 + i)).placingDone ctx
          (.object 1 desc places home)) := by
  change Host.Outcome.next _ = _
  rw [if_pos hb]
  simp [State.create, hc, hi, hr, hd, ht, ReadAt.andThen, Made.enter, place_unasked _ _ _ hm, dwordOf_toNat]

theorem objectCreate_object {s : State} {ctx : Nat} {desc : DWord} {places : List Nat} {home i : Nat} {c : Context} {b : List Byte}
    {o : ReplayObj × List Byte}
    (hb : s.booted = true) (hc : s.ctx? ctx = some c) (hm : s.hostMode ctx 2 = false) (hr : region desc.toNat = .paged)
    (hd : s.readAt ctx .r desc.toNat 1 64 = .bytes b)
    (hi : freeIndex ((c.objects.filter fun o => o.kind = 2).map ReplayObj.index) = some i)
    (ho : s.makeObject ctx desc.toNat i home places b = .ok o) :
    exec (.objectCreate ctx 2 desc places home) s
      = .next ((s.putObject ctx o.1 o.2 fun c => { c with objects := c.objects ++ [o.1] }).placingDone ctx
          (.object 2 desc places home)) := by
  change Host.Outcome.next _ = _
  rw [if_pos hb]
  simp [State.create, hc, hi, hr, hd, ho, ReadAt.andThen, Made.enter, place_unasked _ _ _ hm, dwordOf_toNat]

theorem objectCreate_texture {s : State} {ctx : Nat} {desc : DWord} {places : List Nat} {home i : Nat} {c : Context} {b : List Byte} {t : Texture}
    (hb : s.booted = true) (hc : s.ctx? ctx = some c) (hr : region desc.toNat = .paged)
    (hd : s.readAt ctx .r desc.toNat 1 32 = .bytes b) (hi : freeIndex (c.textures.map Texture.index) = some i)
    (ht : makeTexture i b = .ok t) :
    exec (.objectCreate ctx 3 desc places home) s
      = .next ((s.updCtx ctx fun c => { c with textures := c.textures ++ [t] }).answer (0x30000000 + i)) := by
  change Host.Outcome.next _ = _
  rw [if_pos hb]
  simp [State.create, hc, hi, hr, hd, ht, ReadAt.andThen, Made.enter]

theorem objectCreate_queue {s : State} {ctx : Nat} {desc : DWord} {places : List Nat} {home i : Nat} {c : Context} {b : List Byte}
    {o : ReplayObj × List Byte}
    (hb : s.booted = true) (hc : s.ctx? ctx = some c) (hm : s.hostMode ctx 2 = false) (hr : region desc.toNat = .paged)
    (hd : s.readAt ctx .r desc.toNat 1 64 = .bytes b)
    (hi : freeIndex ((c.objects.filter fun o => o.kind = 4).map ReplayObj.index) = some i)
    (ho : s.makeQueue i home places b = .ok o) :
    exec (.objectCreate ctx 4 desc places home) s
      = .next ((s.putObject ctx o.1 o.2 (Context.addQueue o.1)).placingDone ctx (.object 4 desc places home)) := by
  change Host.Outcome.next _ = _
  rw [if_pos hb]
  simp [State.create, hc, hi, hr, hd, ho, ReadAt.andThen, Made.enter, place_unasked _ _ _ hm, dwordOf_toNat]

theorem objectsMade : ObjectsMade := by
  rintro s ctx kind desc places home c b what hb hc hm rfl hr hd
  refine ⟨?_, ?_, ?_, ?_⟩
  · rintro t i rfl hi ht
    exact ⟨_, objectCreate_target hb hc hm hr hd hi ht,
      ctx?_placingDone (f := fun c => { c with targets := c.targets ++ [t] }) (fun _ => ⟨rfl, rfl⟩) _ _ hc, rfl, _, _, rfl⟩
  · rintro o i rfl hi ho
    exact ⟨_, objectCreate_object hb hc hm hr hd hi ho,
      putObject_placed (add := fun c => { c with objects := c.objects ++ [o.1] }) (fun _ => ⟨rfl, rfl⟩) _ o hc⟩
  · rintro t i rfl hi ht
    exact ⟨_, objectCreate_texture hb hc hr hd hi ht,
      ctx?_updCtx_same (f := fun c => { c with textures := c.textures ++ [t] }) (fun _ => ⟨rfl, rfl⟩) hc, rfl, _, _, rfl⟩
  · rintro o i rfl hi ho
    exact ⟨_, objectCreate_queue hb hc hm hr hd hi ho, putObject_placed (add := Context.addQueue o.1) (fun _ => ⟨rfl, rfl⟩) _ o hc⟩

/-! ### Objects destroyed (R50) -/

theorem foldl_fixed_of_mem {α β : Type} {f : α → β → α} {a : α} {l : List β} (h : ∀ b ∈ l, f a b = a) : l.foldl f a = a := by
  induction l with
  | nil => rfl
  | cons b l ih => rw [List.foldl_cons, h b List.mem_cons_self, ih fun x hx => h x (List.mem_cons_of_mem b hx)]

@[simp] theorem satisfyAll_nil (s : State) : s.satisfyAll [] = s := rfl

/-- No lane waits on the object: none faults. -/
theorem faultWaiters_unused {s : State} {ctx : Nat} {h : Word} (hw : ∀ w ∈ s.waits ctx, w.2.onObject h = false) :
    s.faultWaiters ctx h = s := by
  have none_on : (s.waits ctx).filter (fun w => w.2.onObject h) = [] := List.filter_eq_nil_iff.mpr fun w hm => by simp [hw w hm]
  have none_helper : (s.waits ctx).filter (fun w => w.2.onObject h && (s.lane? w.1.ref).any Lane.helper) = [] :=
    List.filter_eq_nil_iff.mpr fun w hm => by simp [hw w hm]
  unfold State.faultWaiters
  dsimp only
  rw [none_on, none_helper]
  rfl

/-- No staged push waits for room in the log of the object: none faults. -/
theorem faultPushers_unused {s : State} {ctx : Nat} {o : ReplayObj}
    (hp : o.full = false ∨ ∀ g ∈ s.wgs, g.ctx = ctx → ∀ v ∈ g.warps, ∀ q, v.stage = some q → s.pushesTo ctx q o.handle = false) :
    s.faultPushers ctx o = s := by
  unfold State.faultPushers
  split
  · rfl
  · next hfull =>
    have hp := hp.resolve_left (by simpa using hfull)
    refine foldl_fixed_of_mem fun g hg => foldl_fixed_of_mem fun v hv => ?_
    obtain ⟨hg, hctx⟩ := List.mem_filter.mp hg
    have hv : v.1 ∈ g.warps := List.fst_mem_of_mem_zipIdx hv
    split
    · next q hq => rw [hp g hg (by simpa using hctx) v.1 hv q hq]; rfl
    · rfl

/-- A context without an object and its pushes. -/
def Context.without (o : ReplayObj) (h : Word) (c : Context) : Context :=
  { c with
    objects := mapIf (fun q => q.kind = o.kind && q.index = o.index) (fun q => { q with dead := true }) c.objects
    pushes := c.pushes.filter fun p => p.handle != h
    defaultQ := if c.defaultQ = some h then some 0 else c.defaultQ }

theorem destroyObject_unused {s : State} {ctx : Nat} {h : Word} {o : ReplayObj} {c : Context} (ho : s.object? ctx h = some o)
    (hc : s.ctx? ctx = some c) (hps : ∀ p ∈ c.pushes, p.handle ≠ h) (hu : unusedObject s ctx h o)
    (hw : ∀ d ∈ s.cmds, ∀ n, d.work ≠ .push h n) :
    s.destroyObject ctx h = (s.updCtx ctx (Context.without o h)).settle.answer 1 := by
  have no_cmd (mine : Command → Bool) (hmine : ∀ d, mine d = true → ∃ n, d.work = .push h n) : s.cmds.filter mine = [] :=
    List.filter_eq_nil_iff.mpr fun d hd hm => (hmine d hm).elim (hw d hd)
  have no_push : c.pushes.filter (fun p => p.handle = h) = [] := List.filter_eq_nil_iff.mpr fun p hp => by simp [hps p hp]
  unfold State.destroyObject
  rw [ho]
  dsimp only
  rw [faultPushers_unused hu.2, faultWaiters_unused hu.1, no_cmd _ ?pushes, List.foldl_nil, hc, Option.map_some, Option.getD_some, no_push]
  · rfl
  case pushes =>
    intro d hd
    split at hd
    · next n hwork => exact ⟨n, by simp_all⟩
    · simp at hd

theorem object?_kind {s : State} {ctx : Nat} {h : Word} {o : ReplayObj} (ho : s.object? ctx h = some o) :
    h.toNat / 2 ^ 20 ≠ 0x100 ∧ h.toNat / 2 ^ 20 ≠ 0x300 ∧ o.kind = h.toNat / 2 ^ 28 ∧ o.index = h.toNat % 2 ^ 20 := by
  unfold State.object? at ho
  split at ho
  · next hk =>
    obtain ⟨c, -, hf⟩ := Option.bind_eq_some_iff.mp ho
    have := List.find?_some hf
    simp only [Bool.and_eq_true, Bool.or_eq_true, decide_eq_true_eq] at this hk
    omega
  · simp at ho

/-- Once dead, the object is not there. -/
theorem object?_without {s : State} {ctx : Nat} {h : Word} {o : ReplayObj} (ho : s.object? ctx h = some o) :
    (s.updCtx ctx (Context.without o h)).object? ctx h = none := by
  obtain ⟨-, -, hkind, hindex⟩ := object?_kind ho
  have keeps : KeepsId (Context.without o h) := fun _ => ⟨rfl, rfl⟩
  unfold State.object?
  split
  · rw [ctx?_updCtx keeps, if_pos rfl, Option.bind_map]
    refine Option.bind_eq_none_iff.mpr fun c _ => List.find?_eq_none.mpr fun q hq => ?_
    obtain ⟨p, -, rfl⟩ := List.mem_map.mp hq
    rw [hkind, hindex]
    by_cases hp : p.kind = h.toNat / 2 ^ 28 ∧ p.index = h.toNat % 2 ^ 20
    · simp [hp.1, hp.2]
    · simp only [← Bool.decide_and, hp, decide_false, Bool.false_and, Bool.false_eq_true, if_false, not_false_eq_true]
  · rfl

theorem objectDestroy_object {s : State} {ctx : Nat} {h : Word} {o : ReplayObj} (hb : s.booted = true) (ho : s.object? ctx h = some o) :
    exec (.objectDestroy ctx h) s = .next (s.destroyObject ctx h) := by
  obtain ⟨htarget, htexture, -⟩ := object?_kind ho
  change Host.Outcome.next _ = _
  rw [if_neg (by simp [hb])]
  split
  · contradiction
  · contradiction
  · rfl

theorem texture?_kind {s : State} {ctx : Nat} {h : Word} {t : Texture} (ht : s.texture? ctx h = some t) : h.toNat / 2 ^ 20 = 0x300 := by
  unfold State.texture? at ht
  split at ht
  · assumption
  · simp at ht

theorem objectDestroy_texture {s : State} {ctx : Nat} {h : Word} {t : Texture} (hb : s.booted = true) (ht : s.texture? ctx h = some t) :
    exec (.objectDestroy ctx h) s = .next ((s.updCtx ctx fun c =>
      { c with textures := c.textures.filter fun t => t.index != h.toNat % 2 ^ 20 }).answer 1) := by
  change Host.Outcome.next _ = _
  rw [if_neg (by simp [hb]), texture?_kind ht]
  simp [ht]

/-- Once it is taken from its context, a texture is not there. -/
theorem texture?_removed (s : State) (ctx : Nat) (h : Word) :
    (s.updCtx ctx fun c => { c with textures := c.textures.filter fun t => t.index != h.toNat % 2 ^ 20 }).texture? ctx h = none := by
  unfold State.texture?
  split
  · rw [ctx?_updCtx (f := fun c => { c with textures := c.textures.filter fun t => t.index != h.toNat % 2 ^ 20 }) fun _ => ⟨rfl, rfl⟩,
      if_pos rfl, Option.bind_map]
    exact Option.bind_eq_none_iff.mpr fun c _ => by simp [List.find?_filter]
  · rfl

theorem objectsGo : ObjectsGo := by
  refine ⟨fun s ctx h t hb ht => ?_, fun s ctx h o c hb ho hc hps hu hw => ?_⟩
  · exact ⟨_, objectDestroy_texture hb ht, texture?_removed s ctx h, _, rfl⟩
  · refine ⟨_, ?_, object?_without ho, _, rfl⟩
    rw [objectDestroy_object hb ho, destroyObject_unused ho hc hps hu hw]
    rfl

/-! ### Memory -/

/-- The pages of a range are given with Z set, and those of the host without. -/
theorem allocate_granted {s : State} {ctx : Nat} {q : AllocRequest} {c : Context} (hb : s.booted = true) (hc : s.ctx? ctx = some c)
    (hok : s.allocOk c q = true) :
    exec (.allocate ctx q) s = .next (if q.host then (s.updCtx ctx (allocated q)).answer 1
      else s.place ctx (.pages q) 0 fun s => (s.updCtx ctx (allocated q)).answer 1) := by
  change Host.Outcome.next _ = _
  rw [hc]
  dsimp only
  rw [if_neg (by simp [hb, hok])]
  rfl

theorem allocate_refused {s : State} {ctx : Nat} {q : AllocRequest} {c : Context} (hc : s.ctx? ctx = some c)
    (hok : s.allocOk c q = false) : Refuses (.allocate ctx q) s := by
  change Host.Outcome.next _ = _
  rw [hc]
  dsimp only
  rw [if_pos (by simp [hok])]
  rfl

/-- Where MODE asks the host about placements and it has not been asked about this one, the call asks it. -/
theorem place_asks {s : State} {ctx : Nat} {c : Context} (what : Asked) (tag : Word) (k : State → State) (hm : s.hostMode ctx 2 = true)
    (hc : s.ctx? ctx = some c) (hnew : ∀ p ∈ c.placing, p.what.same what = false) :
    s.place ctx what tag k = s.askPlace ctx what tag 0xFFFFFFFF := by
  have : c.placing.find? (fun p => p.what.same what) = none := List.find?_eq_none.mpr fun p hp => by simp [hnew p hp]
  simp [State.place, State.placed, hm, hc, this]

/-- MAPPING_CHANGE by its checks. -/
theorem mappingChange_eq {s : State} {ctx : Nat} (q : MapRequest) {c : Context} (hc : s.ctx? ctx = some c) :
    exec (.mappingChange ctx q) s = .next (if !s.booted || !mapRequestOk q || !s.keyKept c q (askedPages q) then s.answer 0
      else (s.enterChange (some ctx) q.va q.size (askedPages q) q.unmap true).answer 1) := by
  change Host.Outcome.next _ = _
  rw [hc]
  rfl

theorem mappingChange_granted {s : State} {ctx : Nat} {q : MapRequest} {c : Context} (hb : s.booted = true) (hc : s.ctx? ctx = some c)
    (hok : mapRequestOk q = true) (hk : s.keyKept c q (askedPages q) = true) :
    exec (.mappingChange ctx q) s = .next ((s.enterChange (some ctx) q.va q.size (askedPages q) q.unmap true).answer 1) := by
  rw [mappingChange_eq q hc, if_neg (by simp [hb, hok, hk])]

theorem mappingChange_refused {s : State} {ctx : Nat} {q : MapRequest} {c : Context} (hc : s.ctx? ctx = some c)
    (h : mapRequestOk q = false ∨ s.keyKept c q (askedPages q) = false) : Refuses (.mappingChange ctx q) s := by
  rw [Refuses, mappingChange_eq q hc, if_pos (by rcases h with h | h <;> simp [h])]
  rfl

theorem keepsId_allocated (q : AllocRequest) : KeepsId (allocated q) := fun _ => ⟨rfl, rfl⟩

theorem memoryMaps : MemoryMaps := by
  refine ⟨fun s ctx q c hb hc => ⟨fun hok hh => ?_, fun hok hh hm => ?_, fun hok hh hm hnew => ?_, allocate_refused hc⟩,
    fun s ctx q c hb hc => ⟨fun hok hk => ?_, mappingChange_refused hc⟩⟩
  · exact calls1_of_updCtx (keepsId_allocated q) hc (by rw [allocate_granted hb hc hok, if_pos hh])
  · refine ⟨_, ?_, ctx?_placingDone (keepsId_allocated q) (.pages q) 1 hc,
      fun n hn => ctx?_placingDone_ne (keepsId_allocated q) s (.pages q) 1 hn, _, rfl⟩
    rw [allocate_granted hb hc hok, if_neg (by simp [hh]), place_unasked _ _ _ hm]
  · rw [allocate_granted hb hc hok, if_neg (by simp [hh]), place_asks _ _ _ hm hc hnew]
  · exact ⟨_, _, mappingChange_granted hb hc hok hk, rfl, rfl, rfl, rfl, rfl, rfl, rfl, _, _, rfl⟩

/-- Settles O43: each call by the case of its checks in the model. -/
theorem firmwareCalls : Obligations.FirmwareCalls :=
  ⟨settingsChange, contextsChange, objectsMade, objectsGo, memoryMaps⟩

end Sys2Proof.Machine
end
section
/-! SUPPORT. What scheduling changes: cores and slots, pipes, launches, reformed groups (O35). -/

namespace Sys2Proof.Machine

/-! ### Parts that an operation leaves -/

theorem updCore_frame (s : State) (v : Nat) (k : Core → Core) : ∃ cores, s.updCore v k = { s with cores := cores } := by
  unfold State.updCore
  split
  · exact ⟨_, rfl⟩
  · exact ⟨_, rfl⟩

theorem setPipe_frame (s : State) (p : Pipe) : ∃ pipes, s.setPipe p = { s with pipes := pipes } := by
  unfold State.setPipe
  dsimp only
  split
  · exact ⟨_, rfl⟩
  · exact ⟨_, rfl⟩

theorem keepEntries_frame (s : State) (core pane pipe : Nat) : ∃ pipes, s.keepEntries core pane pipe = { s with pipes := pipes } :=
  setPipe_frame s _

theorem keepAllEntries_frame (core : Nat) (places : List Place) (s : State) :
    ∃ pipes, places.foldl (fun s p => s.keepEntries core p.pane p.pipe) s = { s with pipes := pipes } := by
  induction places generalizing s with
  | nil => exact ⟨_, rfl⟩
  | cons p ps ih =>
    obtain ⟨pipes, hp⟩ := keepEntries_frame s core p.pane p.pipe
    obtain ⟨pipes', hps⟩ := ih (s.keepEntries core p.pane p.pipe)
    exact ⟨pipes', by rw [List.foldl_cons, hps, hp]⟩

theorem updLanes_frame (rs : List LaneRef) (k : Lane → Lane) (s : State) :
    ∃ wgs ctl, s.updLanes rs k = { s with wgs := wgs, ctl := ctl } := by
  unfold State.updLanes
  induction rs generalizing s with
  | nil => exact ⟨_, _, rfl⟩
  | cons r rs ih =>
    obtain ⟨wgs, ctl, h⟩ := ih (s.updLane r k)
    exact ⟨wgs, ctl, h⟩

/-! ### Slots (R155 to R169) -/

/-- A core's slots and loads, and the counter of the model, are all that differ. -/
def CoresOnly (s t : State) : Prop := ∃ cores seq, t = { s with cores := cores, seq := seq }

theorem CoresOnly.refl (s : State) : CoresOnly s s := ⟨_, _, rfl⟩

theorem CoresOnly.trans {s t u : State} (h : CoresOnly s t) (k : CoresOnly t u) : CoresOnly s u := by
  obtain ⟨_, _, rfl⟩ := h
  obtain ⟨_, _, rfl⟩ := k
  exact ⟨_, _, rfl⟩

theorem CoresOnly.foldl {α : Type} {f : State → α → State} (hf : ∀ s a, CoresOnly s (f s a)) (l : List α) (s : State) :
    CoresOnly s (l.foldl f s) := by
  induction l generalizing s with
  | nil => exact .refl s
  | cons a l ih => exact (hf s a).trans (ih _)

theorem coresOnly_updCore (s : State) (v : Nat) (k : Core → Core) : CoresOnly s (s.updCore v k) := by
  obtain ⟨_, h⟩ := updCore_frame s v k
  exact ⟨_, _, h⟩

theorem coresOnly_addJob (s : State) (core : Nat) (j : DictJob) : CoresOnly s (s.addJob core j) := by
  obtain ⟨_, h⟩ := updCore_frame s core fun c => { c with jobs := c.jobs ++ [{ j with id := s.seq }] }
  exact ⟨_, _, by rw [State.addJob, h]⟩

theorem coresOnly_bindSlot {s : State} {core ctx prog : Nat} {p : Nat × State} (h : s.bindSlot core ctx prog = some p) :
    CoresOnly s p.2 := by
  unfold State.bindSlot at h
  split at h
  · cases h
    exact .refl s
  · split at h
    · cases h
    · split at h
      · cases h
      · cases h
        dsimp only
        exact coresOnly_updCore s core _

theorem coresOnly_bindAll (s : State) (core ctx : Nat) (ks : List Nat) : CoresOnly s (s.bindAll core ctx ks) :=
  .foldl (fun s k => by
    split
    · next p hp => exact coresOnly_bindSlot hp
    · exact .refl s) ks s

theorem coresOnly_trapLoad (s : State) (ctx core : Nat) : CoresOnly s (s.trapLoad ctx core) := by
  unfold State.trapLoad
  split
  · exact .refl s
  · split
    · exact .refl s
    · split
      · exact .refl s
      · next phys t hb =>
        have hb : CoresOnly s t := coresOnly_bindSlot hb
        split
        · exact hb
        · exact hb.trans (coresOnly_addJob t core _)

theorem coresOnly_admissionLoads (s : State) (core ctx wg : Nat) (h : Header) (ks : List Nat) :
    CoresOnly s (s.admissionLoads core ctx wg h ks) := by
  unfold State.admissionLoads
  exact .foldl (fun s k => by
    split
    · exact .refl s
    · exact coresOnly_addJob s core _) ks s

theorem slotFails : SlotFails := by
  intro s core phys d hd
  have any : (s.core core).slots.any (fun d => d.phys = phys) = true :=
    List.any_eq_true.mpr ⟨d, List.mem_of_find?_eq_some hd, by simpa using List.find?_some hd⟩
  refine ⟨_, congrArg Host.Outcome.next (if_pos any), ?_, updCore_frame s core _⟩
  rw [State.core_updCore _ _ _ _ (by simp), if_pos rfl, mapIf_find? _ _ _ _ (by simp), hd]
  exact congrArg some (if_pos (by simpa using List.find?_some hd))

/-- Where no trace buffer is on, nothing is recorded. -/
theorem traceRecord_off {s : State} {ctx : Nat} (h : (s.ctx? ctx).bind Context.trace = none) (ident : List Byte) (a b c d e : Nat) :
    s.traceRecord ctx ident a b c d e = s := by
  unfold State.traceRecord
  rw [h]

/-- A slot that a load has filled. -/
def DictSlot.filled (j : DictJob) (r : List (Nat × Template) × Nat) (d : DictSlot) : DictSlot :=
  { d with image := some r.1, emptied := false, loads := d.loads + 1, lastVa := j.va, rejected := r.2 }

/-- A core on which a load has completed. -/
def Core.loaded (j : DictJob) (r : List (Nat × Template) × Nat) (c : Core) : Core :=
  { c with
    slots := c.slots.map fun d => if d.phys = j.phys then d.filled j r else d
    jobs := c.jobs.filter fun k => k.id != j.id }

/-- A warp of which a load has completed, into a slot that was emptied since or not (R164, R165). -/
def Warp.loaded (j : DictJob) (rejected : Nat) (spoilt : Bool) (v : Warp) : Warp :=
  { v with loading := v.loading.filter (fun l => l.2 != j.id), rejected := rejected, loadFail := v.loadFail || spoilt }

/-- The warp, or the warps of the admission, that a load was for. -/
def State.tellLoad (s : State) (j : DictJob) (rejected : Nat) (spoilt : Bool) : State :=
  let s := match j.warp with
    | some (wg, w) => s.updWarp wg w (Warp.loaded j rejected spoilt)
    | none => s
  match j.launchWg with
  | some wg => s.updWg wg fun g => { g with warps := g.warps.map fun v : Warp => { v with rejected := rejected } }
  | none => s

theorem tellLoad_frame (s : State) (j : DictJob) (rejected : Nat) (spoilt : Bool) :
    ∃ wgs ctl, s.tellLoad j rejected spoilt = { s with wgs := wgs, ctl := ctl } := by
  unfold State.tellLoad
  dsimp only
  split <;> split <;> exact ⟨_, _, rfl⟩

theorem tellLoad_core (s : State) (j : DictJob) (rejected : Nat) (spoilt : Bool) (core : Nat) :
    (s.tellLoad j rejected spoilt).core core = s.core core := by
  obtain ⟨_, _, h⟩ := tellLoad_frame s j rejected spoilt
  rw [h]
  rfl

theorem tellLoad_ctx? (s : State) (j : DictJob) (rejected : Nat) (spoilt : Bool) (n : Nat) :
    (s.tellLoad j rejected spoilt).ctx? n = s.ctx? n := by
  obtain ⟨_, _, h⟩ := tellLoad_frame s j rejected spoilt
  rw [h]
  rfl

/-- The state in which a load has completed, without its trace record. -/
def State.loadDone (s : State) (core : Nat) (j : DictJob) (bad : List Nat) : State :=
  (s.updCore core (Core.loaded j (loadEntries s j bad))).tellLoad j (loadEntries s j bad).2
    ((s.core core).slots.any fun d => d.phys = j.phys && d.emptied)

theorem loadDone_core (s : State) (core : Nat) (j : DictJob) (bad : List Nat) :
    (s.loadDone core j bad).core core = (s.core core).loaded j (loadEntries s j bad) := by
  rw [State.loadDone, tellLoad_core, State.core_updCore s core core (Core.loaded j _) fun _ => rfl, if_pos rfl]

theorem loadDone_frame (s : State) (core : Nat) (j : DictJob) (bad : List Nat) :
    ∃ wgs ctl cores, s.loadDone core j bad = { s with wgs := wgs, ctl := ctl, cores := cores } := by
  obtain ⟨wgs, ctl, htell⟩ := tellLoad_frame (s.updCore core (Core.loaded j (loadEntries s j bad))) j (loadEntries s j bad).2
    ((s.core core).slots.any fun d => d.phys = j.phys && d.emptied)
  obtain ⟨cores, hcores⟩ := updCore_frame s core (Core.loaded j (loadEntries s j bad))
  rw [State.loadDone, htell, hcores]
  exact ⟨_, _, _, rfl⟩

theorem finishLoad_untraced {s : State} {j : DictJob} (core : Nat) (bad : List Nat) (h : (s.ctx? j.ctx).bind Context.trace = none) :
    s.finishLoad core j bad = s.loadDone core j bad := by
  refine traceRecord_off (s := s.loadDone core j bad) ?_ ..
  obtain ⟨_, _, _, hdone⟩ := loadDone_frame s core j bad
  rw [hdone]
  exact h

/-- The slot that a load fills. -/
theorem loadDone_slot {s : State} {core : Nat} {j : DictJob} {d : DictSlot} (bad : List Nat)
    (hd : (s.core core).slots.find? (fun d => d.phys = j.phys) = some d) :
    ((s.loadDone core j bad).core core).slots.find? (fun d => d.phys = j.phys) = some (d.filled j (loadEntries s j bad)) := by
  rw [loadDone_core]
  have hfill := mapIf_find? (fun d : DictSlot => d.phys = j.phys) (fun d => d.phys = j.phys) (DictSlot.filled j (loadEntries s j bad))
    (s.core core).slots (fun _ _ => rfl)
  simp only [mapIf, decide_eq_true_eq, hd, Option.map_some] at hfill
  exact hfill.trans (congrArg some (if_pos (by simpa using List.find?_some hd)))

/-- The entry that an image stores at a template's index (R154, R158). -/
theorem loadEntries_getElem? (s : State) (j : DictJob) (bad : List Nat) {i a : Nat} (h : j.lines[i]? = some a) :
    (loadEntries s j bad).1[i]? = some (j.first + i,
      let t : Template := BitVec.ofNat 128 (Memory.le s.mem a 16)
      if (s.poisoned a || bad.contains (a / 64)) = false ∧ templateValid j.priv t = true
        ∧ (templateMop t).toNat ≠ 0x3FF then t else undefinedTemplate) := by
  simp only [loadEntries, List.getElem?_map, List.getElem?_zipIdx, h, Option.map_some, Nat.zero_add]
  cases hbad : s.poisoned a || bad.contains (a / 64) with
  | true => simp
  | false =>
    by_cases hmop : (templateMop (BitVec.ofNat 128 (Memory.le s.mem a 16))).toNat = 0x3FF
    · simp [hmop]
    · by_cases hv : templateValid j.priv (BitVec.ofNat 128 (Memory.le s.mem a 16)) = true <;> simp [hmop, hv]

theorem dictSlotLoad_eq {s : State} {core phys : Nat} {j : DictJob} (bad : List Nat)
    (hj : (s.core core).jobs.find? (fun j => j.phys = phys) = some j) (hf : j.first ≠ 0) :
    exec (.dictSlotLoad core phys bad) s = .next (s.finishLoad core j bad) := by
  change execDictSlotLoad core phys bad s = _
  unfold execDictSlotLoad
  rw [hj]
  exact congrArg Host.Outcome.next (if_neg hf)

theorem slotLoads : SlotLoads := by
  intro s core phys bad j d hj hfirst htrace hd
  obtain rfl : j.phys = phys := by simpa using List.find?_some hj
  refine ⟨_, dictSlotLoad_eq bad hj hfirst, ?_⟩
  rw [finishLoad_untraced core bad htrace]
  refine ⟨loadDone_slot bad hd, fun k hk => ?_, fun i a hi => loadEntries_getElem? s j bad hi, fun wg w v hw hv hl => ?_,
    loadDone_frame s core j bad⟩
  · rw [loadDone_core] at hk
    simpa using (List.mem_filter.mp hk).2
  · unfold State.loadDone State.tellLoad
    rw [hw, hl]
    dsimp only
    rw [State.warp?_updWarp, if_pos ⟨rfl, rfl⟩, State.warp?_updCore, hv]
    rfl

end Sys2Proof.Machine
end
section
/-! SUPPORT. Gangs, draws and admissions complete (O35). -/

namespace Sys2Proof.Machine

/-! ### Launches and gangs (R102, R103) -/

theorem launch?_some_id {s : State} {id : Nat} {l : Launch} (h : s.launch? id = some l) : l.id = id := by
  simpa [State.launch?] using List.find?_some h

theorem launch?_updLaunch {f : Launch → Launch} (hf : ∀ l, (f l).id = l.id) (s : State) (id n : Nat) :
    (s.updLaunch id f).launch? n = if n = id then (s.launch? n).map f else s.launch? n := by
  have found : (s.updLaunch id f).launch? n = (s.launch? n).map fun l => if l.id = id then f l else l := by
    have h := mapIf_find? (fun l : Launch => l.id = id) (fun l => l.id = n) f s.launches fun l _ => by simp [hf]
    simpa [State.launch?, State.updLaunch] using h
  rw [found]
  cases hl : s.launch? n with
  | none => simp
  | some l =>
    obtain rfl := launch?_some_id hl
    split <;> simp [*]

theorem launch?_updLaunch_same {f : Launch → Launch} (hf : ∀ l, (f l).id = l.id) {s : State} {id : Nat} {l : Launch}
    (h : s.launch? id = some l) : (s.updLaunch id f).launch? id = some (f l) := by simp [launch?_updLaunch hf, h]

/-- A launch whose gangs of a number are aged, where they have held a reservation for the age limit. -/
def Launch.age (gang limit clock : Nat) (l : Launch) : Launch :=
  { l with
    gangs := mapIf (fun q => q.number = gang && q.reserved != [] && q.since.any fun t => decide (t + limit ≤ clock))
      (fun q => { q with aged := true }) l.gangs }

theorem gangAges : GangAges := by
  intro s id n l c hl hc
  have he : exec (.gangAged id n) s = .next (s.updLaunch id (Launch.age n c.ageLimit s.clock)) := by
    change execGangAged id n s = _
    unfold execGangAged
    rw [hl]
    dsimp only
    rw [hc]
    rfl
  refine ⟨_, he, ?_, _, rfl⟩
  rw [launch?_updLaunch_same (f := Launch.age n c.ageLimit s.clock) (fun _ => rfl) hl]
  refine congrArg some (List.map_congr_left fun q _ => ?_)
  simp only [Bool.and_eq_true, decide_eq_true_eq, bne_iff_ne, Option.any_eq_true, and_assoc]

/-- A gang with one more core reserved (R102). -/
def Gang.reserve (q : Gang) (clock core sbase : Nat) (places : List Place) : Gang :=
  { q with reserved := q.reserved ++ [(core, sbase, places)], since := some (q.since.getD clock), cluster := some (clusterOf core) }

/-- A launch one of whose gangs is another. -/
def Launch.putGang (gang : Nat) (q : Gang) (l : Launch) : Launch :=
  { l with gangs := if l.gangs.any (fun k => k.number = gang) then mapIf (fun k => k.number = gang) (fun _ => q) l.gangs
                    else l.gangs ++ [q] }

theorem putGang_find? {gang : Nat} {q : Gang} (l : Launch) (hq : q.number = gang) :
    (l.putGang gang q).gangs.find? (fun k => k.number = gang) = some q := by
  unfold Launch.putGang
  dsimp only
  split
  · next hany =>
    rw [mapIf_find? _ _ _ _ fun _ hk => by simp_all]
    cases hf : l.gangs.find? (fun k => decide (k.number = gang)) with
    | none =>
      obtain ⟨k, hk, hn⟩ := List.any_eq_true.mp hany
      exact absurd hn (List.find?_eq_none.mp hf k hk)
    | some k => exact congrArg some (if_pos (List.find?_some hf))
  · next hany =>
    have : l.gangs.find? (fun k => decide (k.number = gang)) = none := by simpa using hany
    simp [List.find?_append, this, hq]

/-- A gang that lacks a core still does not start. -/
theorem tryStart_short {s : State} {l : Launch} {gang : Nat} {q : Gang} (hq : l.gangs.find? (fun q => q.number = gang) = some q)
    (h : q.reserved.length < s.gangSize l q) : s.tryStart l gang = s := by
  unfold State.tryStart
  rw [hq]
  exact if_pos (by simp [h])

theorem reservationCompletes : ReservationCompletes := by
  intro s id gang core sbase places l q hl hq hd hsize hshort husable hlacks hon haged hturn hadmits
  have hnum : q.number = gang := by simpa using List.find?_some hq
  let r := q.reserve s.clock core sbase places
  have hput : (s.updLaunch id (Launch.putGang gang r)).launch? id = some (l.putGang gang r) :=
    launch?_updLaunch_same (f := Launch.putGang gang r) (fun _ => rfl) hl
  have hfind : (l.putGang gang r).gangs.find? (fun k => k.number = gang) = some r := putGang_find? l hnum
  have he : exec (.gangReservation id gang core sbase places) s = .next (s.updLaunch id (Launch.putGang gang r)) := by
    change execGangReservation id gang core sbase places s = _
    unfold execGangReservation
    rw [hl]
    dsimp only
    rw [hq]
    dsimp only
    rw [if_neg (by simp [hd]), if_neg (by omega), if_neg (by simp [hshort]),
      if_pos (by simp [husable, hlacks, hon, haged, hturn, hadmits])]
    change Host.Outcome.next (match (s.updLaunch id (Launch.putGang gang r)).launch? id with
      | some l => (s.updLaunch id (Launch.putGang gang r)).tryStart l gang
      | none => s.updLaunch id (Launch.putGang gang r)) = _
    rw [hput]
    refine congrArg Host.Outcome.next (tryStart_short hfind ?_)
    have : r.reserved.length = q.reserved.length + 1 := by simp [r, Gang.reserve]
    rw [this]
    exact hsize
  refine ⟨_, he, ?_, _, rfl⟩
  rw [hput]
  exact hfind

/-! ### Draws (R91, R92) -/

/-- The lanes that a draw of a bin takes, in filing order. -/
def Bin.drawn (b : Bin) : List LaneRef := (b.lanes.take 32).map Prod.fst

/-- The group that a draw forms. -/
def State.drawnGroup (s : State) (b : Bin) (slot : Nat) (place : Place) : Reformed :=
  let n := b.drawn.foldl (fun m r => max m (((s.lane? r).map Lane.carried).getD 0)) 0
  { slot := slot, ctx := b.ctx, dslot := b.dslot, keyPc := b.pc, wbase0 := b.wbase, pane := place.pane, pipe := place.pipe
    lanes := (b.drawn.map some) ++ List.replicate (32 - b.drawn.length) none
    groups := [{ gid := s.seq, lanes := List.range b.drawn.length, hold := none, debt := 0 }]
    carried := n, rows := s.drawnRows b.drawn b.wbase n, lead := b.drawn.head? }

/-- The bins of a core of which one has been drawn from: one left empty is freed. -/
def drawnBins (bin : Nat) (bs : List Bin) : List Bin :=
  (mapIf (fun k : Bin => k.number = bin) (fun k => { k with lanes := k.lanes.drop 32 }) bs).filter fun k => k.lanes != []

/-- A core with a group drawn from one of its bins. -/
def Core.draw (bin : Nat) (g : Reformed) (c : Core) : Core :=
  { c with groups := c.groups ++ [g], bins := drawnBins bin c.bins }

/-- A lane that a draw takes. -/
def Lane.draw (slot : Nat) (l : Lane) : Lane := { l with st := .issuing, reformed := some slot, carry := none }

/-- The state after a draw, but for the order of the pipe's entries. -/
def State.takeDraw (s : State) (core bin slot : Nat) (place : Place) (b : Bin) : State :=
  let t := s.keepEntries core place.pane place.pipe
  ({ t with seq := s.seq + 1 }).updCore core (Core.draw bin (s.drawnGroup b slot place))

/-- The state after a draw. -/
def State.draw (s : State) (core bin slot : Nat) (place : Place) (b : Bin) : State :=
  ((s.takeDraw core bin slot place b).keepEntries core place.pane place.pipe).updLanes b.drawn (Lane.draw slot)

theorem binDraw_eq {s : State} {core bin slot : Nat} {place : Place} {b : Bin}
    (hb : (s.core core).bins.find? (fun b => b.number = bin) = some b)
    (hdue : 32 ≤ b.lanes.length ∨ ∃ e ∈ b.lanes, e.2 + 256 ≤ s.clock) (hslot : slot < 8)
    (hfree : ∀ g ∈ (s.core core).groups, g.slot ≠ slot) (hpane : place.pane < 4) (hpipe : place.pipe < 8)
    (hfits : paneFits (s.panePipes core s.seq place.pane ++ [place.pipe]) = true) (hroom : s.groupsOn core s.seq < 8)
    (hruns : (s.ctx? b.ctx).any (fun k => k.resident && !k.hungHalt) = true) :
    exec (.binDraw core bin slot place) s = .next (s.draw core bin slot place b) := by
  change execBinDraw core bin slot place s = _
  unfold execBinDraw
  dsimp only
  rw [hb]
  dsimp only
  rw [if_neg]
  · rfl
  · have due : (decide (32 ≤ b.lanes.length) || b.lanes.any fun e => decide (e.2 + 256 ≤ s.clock)) = true := by simpa using hdue
    have free : (s.core core).groups.any (fun g => g.slot = slot) = false := by simpa using hfree
    simp [due, free, hpane, hpipe, hfits, hruns, Nat.not_le.mpr hslot, Nat.not_le.mpr hroom]

/-- A draw changes a core, of its rings, bins and groups, and the order of a pipe's entries. -/
theorem takeDraw_frame (s : State) (core bin slot : Nat) (place : Place) (b : Bin) :
    ∃ cores pipes seq, s.takeDraw core bin slot place b = { s with cores := cores, pipes := pipes, seq := seq } := by
  obtain ⟨pipes, hkeep⟩ := keepEntries_frame s core place.pane place.pipe
  obtain ⟨cores, hcores⟩ := updCore_frame ({ s with pipes := pipes, seq := s.seq + 1 } : State) core
    (Core.draw bin (s.drawnGroup b slot place))
  exact ⟨cores, pipes, _, by unfold State.takeDraw; rw [hkeep]; exact hcores⟩

theorem draw_frame (s : State) (core bin slot : Nat) (place : Place) (b : Bin) :
    ∃ wgs ctl cores pipes seq, s.draw core bin slot place b
      = { s with wgs := wgs, ctl := ctl, cores := cores, pipes := pipes, seq := seq } := by
  obtain ⟨cores, pipes, seq, htake⟩ := takeDraw_frame s core bin slot place b
  obtain ⟨pipes', hkeep⟩ := keepEntries_frame (s.takeDraw core bin slot place b) core place.pane place.pipe
  obtain ⟨wgs, ctl, hlanes⟩ := updLanes_frame b.drawn (Lane.draw slot)
    ((s.takeDraw core bin slot place b).keepEntries core place.pane place.pipe)
  rw [State.draw, hlanes, hkeep, htake]
  exact ⟨_, _, _, _, _, rfl⟩

theorem core_keepEntries (s : State) (core pane pipe j : Nat) : (s.keepEntries core pane pipe).core j = s.core j := by
  obtain ⟨_, h⟩ := keepEntries_frame s core pane pipe
  rw [h]
  rfl

theorem core_updLanes (rs : List LaneRef) (k : Lane → Lane) (s : State) (j : Nat) : (s.updLanes rs k).core j = s.core j := by
  obtain ⟨_, _, h⟩ := updLanes_frame rs k s
  rw [h]
  rfl

theorem draw_core (s : State) (core bin slot : Nat) (place : Place) (b : Bin) :
    (s.draw core bin slot place b).core core = (s.core core).draw bin (s.drawnGroup b slot place) := by
  rw [State.draw, core_updLanes, core_keepEntries, State.takeDraw,
    State.core_updCore _ core core (Core.draw bin (s.drawnGroup b slot place)) fun _ => rfl, if_pos rfl]
  exact congrArg _ (core_keepEntries s core place.pane place.pipe core)

theorem lane?_keepEntries (s : State) (core pane pipe : Nat) (r : LaneRef) : (s.keepEntries core pane pipe).lane? r = s.lane? r := by
  obtain ⟨_, h⟩ := keepEntries_frame s core pane pipe
  rw [h]
  rfl

theorem lane?_takeDraw (s : State) (core bin slot : Nat) (place : Place) (b : Bin) (r : LaneRef) :
    (s.takeDraw core bin slot place b).lane? r = s.lane? r := by
  obtain ⟨_, _, _, h⟩ := takeDraw_frame s core bin slot place b
  rw [h]
  rfl

theorem draw_lane? (s : State) (core bin slot : Nat) (place : Place) (b : Bin) (r : LaneRef) :
    (s.draw core bin slot place b).lane? r = if r ∈ b.drawn then (s.lane? r).map (Lane.draw slot) else s.lane? r := by
  rw [State.draw, State.lane?_updLanes _ _ _ (Lane.draw slot) fun _ => rfl, lane?_keepEntries, lane?_takeDraw]

/-- A number that no bin has is not among the bins after a draw from it. -/
theorem drawnBins_absent {bin : Nat} {bs : List Bin} (h : ∀ k ∈ bs, k.number ≠ bin) :
    (drawnBins bin bs).find? (fun k => k.number = bin) = none := by
  refine List.find?_eq_none.mpr fun k hk => ?_
  obtain ⟨q, hq, rfl⟩ := List.mem_map.mp (List.mem_filter.mp hk).1
  simp [h q hq]

/-- What a draw leaves of its bin. -/
theorem drawnBins_left {bin : Nat} {b : Bin} (bs : List Bin) (hb : bs.find? (fun b => b.number = bin) = some b)
    (hnodup : (bs.map Bin.number).Nodup) :
    ((drawnBins bin bs).find? fun k => k.number = bin).map Bin.lanes = if b.lanes.drop 32 = [] then none else some (b.lanes.drop 32) := by
  induction bs with
  | nil => simp at hb
  | cons x xs ih =>
    rw [List.map_cons, List.nodup_cons] at hnodup
    by_cases hx : x.number = bin
    · have hxb : x = b := by simpa [hx] using hb
      have absent := drawnBins_absent (bin := bin) (bs := xs) fun k hk hn => hnodup.1 (hx ▸ hn ▸ List.mem_map_of_mem hk)
      subst hxb
      unfold drawnBins mapIf at absent ⊢
      by_cases hl : x.lanes.drop 32 = []
      · simp only [List.map_cons, hx, decide_true, if_true, hl, bne_self_eq_false, List.filter_cons, Bool.false_eq_true, if_false, absent,
          Option.map_none]
      · simp [List.map_cons, hx, hl, -List.drop_eq_nil_iff]
    · have hrest : xs.find? (fun b => b.number = bin) = some b := by simpa [hx] using hb
      have ih := ih hrest hnodup.2
      unfold drawnBins mapIf at ih ⊢
      rw [List.map_cons, if_neg (by simp [hx]), List.filter_cons]
      split
      · rw [List.find?_cons_of_neg (by simp [hx])]
        exact ih
      · exact ih

/-- The place of a lane in the group that a draw forms. -/
theorem drawnGroup_lane {s : State} {b : Bin} {slot : Nat} {place : Place} {p : Nat} {e : LaneRef × Nat} (hp : p < 32)
    (he : b.lanes[p]? = some e) : (s.drawnGroup b slot place).lanes[p]? = some (some e.1) := by
  have hget : b.drawn[p]? = some e.1 := by simp [Bin.drawn, hp, he]
  have hlen : p < b.drawn.length := (List.getElem?_eq_some_iff.mp hget).1
  change ((b.drawn.map some) ++ List.replicate (32 - b.drawn.length) none)[p]? = _
  rw [List.getElem?_append_left (by simpa using hlen), List.getElem?_map, hget]
  rfl

theorem drawCompletes : DrawCompletes := by
  rintro s core bin slot place b n hb hdue hslot hfree hpane hpipe rfl hfits hroom hruns hlanes hbins
  refine ⟨_, s.drawnGroup b slot place, binDraw_eq hb hdue hslot hfree hpane hpipe hfits hroom hruns, ?_, rfl, rfl, rfl, rfl, rfl, rfl, rfl,
    fun p e hp he => drawnGroup_lane hp he, fun e he => ?_, fun r hr => ?_, ?_, draw_frame s core bin slot place b⟩
  · rw [draw_core]
    rfl
  · rw [draw_lane?]
    exact if_pos (List.mem_map_of_mem he)
  · rw [draw_lane?]
    exact if_neg hr
  · rw [draw_core]
    exact drawnBins_left _ hb hbins

end Sys2Proof.Machine
end
section
/-! SUPPORT. The admission of the next workgroup of a launch (O35): what stands on its core afterwards, and what the
admission leaves. -/

namespace Sys2Proof.Machine

/-- The holds of an admission's places, and what is counted once its workgroup is in. -/
def Launch.letIn (l : Launch) : Launch := { l with live := l.live + 1, held := none }

theorem letIn_frame (s : State) (l : Launch) (linear core sbase : Nat) (places : List Place) (args : List Byte) (pixels : Option PixelWg) :
    ∃ rejected cores contexts pipes seq, s.letIn l linear core sbase places args pixels
      = { s with
          launches := (s.updLaunch l.id Launch.letIn).launches
          wgs := s.wgs ++ [Workgroup.make l s.seq linear core sbase places args rejected pixels]
          mem := Memory.clear s.mem (vaultPhys core sbase) l.header.vbytes
          poison := s.poison.filter fun k =>
            !(decide (vaultPhys core sbase ≤ 64 * k) && decide (64 * k < vaultPhys core sbase + l.header.vbytes))
          cores := cores, contexts := contexts, pipes := pipes, seq := seq } := by
  unfold State.letIn
  dsimp only
  obtain ⟨cores, seq, hbound⟩ := (coresOnly_trapLoad s l.ctx core).trans (coresOnly_bindAll _ core l.ctx (l.header.used.map fun r => r.dictslot))
  rw [hbound]
  obtain ⟨cores', seq', hloads⟩ := coresOnly_admissionLoads
    (places.foldl (fun s p => s.keepEntries core p.pane p.pipe) _) core l.ctx s.seq l.header (s.loadSlots core l.ctx l.header)
  rw [hloads]
  obtain ⟨pipes, hkeep⟩ := keepAllEntries_frame core places _
  rw [hkeep]
  exact ⟨_, _, _, _, _, rfl⟩

/-- The launch whose next workgroup is admitted, as its own gang. -/
def Launch.admitNext (l : Launch) : Launch :=
  { l with nextWg := l.nextWg + 1, absent := none, gangs := l.gangs ++ [Gang.single l.nextWg] }

theorem admitNext_eq (s : State) (l : Launch) (linear core sbase : Nat) (places : List Place) (args : List Byte) (pixels : Option PixelWg) :
    s.admitNext l linear core sbase places args pixels
      = (s.updLaunch l.id Launch.admitNext).letIn l linear core sbase places args pixels := rfl

/-- A launch that holds the places of its admission. -/
def Launch.hold (core sbase : Nat) (places : List Place) (l : Launch) : Launch := { l with held := some (core, sbase, places) }

/-- The state in which a launch holds the places of its admission. -/
def State.holdPlaces (s : State) (l : Launch) (core sbase : Nat) (places : List Place) : State :=
  s.updLaunch l.id (Launch.hold core sbase places)

/-- Where MODE does not ask the host about placements and the reads of an admission pass, it goes on at once. -/
theorem withReads_placed {s : State} {l : Launch} {linear core sbase : Nat} {places : List Place} {args : List Byte}
    (hmode : s.hostMode l.ctx 2 = false)
    (hreads : s.admissionReads l.ctx l.header (s.loadSlots core l.ctx l.header != []) = .ok args) (k : State → List Byte → State) :
    s.withReads l linear core sbase places k = k (s.holdPlaces l core sbase places) args := by
  have hmode : (s.holdPlaces l core sbase places).hostMode l.ctx 2 = false := hmode
  have hreads : (s.holdPlaces l core sbase places).admissionReads l.ctx l.header
    ((s.holdPlaces l core sbase places).loadSlots core l.ctx l.header != []) = .ok args := hreads
  unfold State.holdPlaces Launch.hold at hmode hreads ⊢
  simp only [State.withReads, State.placed, hmode, hreads, Bool.not_false, Bool.not_true, Bool.false_eq_true, if_true, if_false]

theorem workgroupAdmission_eq {s : State} {id core sbase : Nat} {places : List Place} {l : Launch} {args : List Byte}
    (hl : s.launch? id = some l) (hlost : l.lost = []) (hflag : l.header.flags.getLsbD 1 = false) (horigin : ∀ c, l.origin ≠ .draw c)
    (hwait : l.waiting = true) (hdisp : s.dispatches l.ctx = true) (hmode : s.hostMode l.ctx 2 = false)
    (hopen : s.admissionOpen l core sbase places = true)
    (hreads : s.admissionReads l.ctx l.header (s.loadSlots core l.ctx l.header != []) = .ok args) :
    exec (.workgroupAdmission id core sbase places) s
      = .next ((s.holdPlaces l core sbase places).admitNext l l.nextWg core sbase places args none) := by
  have hagain : s.again l core = none := by simp [State.again, hlost]
  change execWorkgroupAdmission id core sbase places s = _
  unfold execWorkgroupAdmission
  rw [hl]
  dsimp only
  rw [hagain, if_neg (by simp [hdisp, hwait, hopen])]
  cases ho : l.origin with
  | draw c => exact absurd ho (horigin c)
  | _ =>
    dsimp only
    rw [if_neg (by simp only [hflag]; decide), withReads_placed hmode hreads]

/-! ### The workgroup that is admitted (R76) -/

theorem warpRoles_mem {h : Header} {e : Nat × Role} (he : e ∈ h.warpRoles) : e.2 ∈ h.used := by
  obtain ⟨r, hr, he⟩ := List.mem_flatMap.mp he
  rw [List.eq_of_mem_replicate he]
  exact List.fst_mem_of_mem_zipIdx hr

/-- A warp of a workgroup made for no pixels is at the launch state of its role. -/
theorem make_warp {l : Launch} {id linear core sbase : Nat} {places : List Place} {args : List Byte} {rejected : Nat → Nat} {v : Warp}
    (hv : v ∈ (Workgroup.make l id linear core sbase places args rejected none).warps) :
    ∃ n r p, r ∈ l.header.used ∧ v = Warp.atLaunch n r.livemax p r.entry (8 * r.wbase0) r.dictslot (rejected r.dictslot) := by
  obtain ⟨e, he, rfl⟩ := List.mem_map.mp hv
  exact ⟨_, _, _, warpRoles_mem (List.of_mem_zip he).1, rfl⟩

theorem make_warps_length {l : Launch} {id linear core sbase : Nat} {places : List Place} {args : List Byte} {rejected : Nat → Nat}
    (hp : places.length = l.header.warpRoles.length) :
    (Workgroup.make l id linear core sbase places args rejected none).warps.length = l.header.warpRoles.length := by
  change (List.map _ (l.header.warpRoles.zip places)).length = _
  simp [hp]

/-- A launch with its next workgroup admitted: it is placed, and live. -/
def Launch.admitted (core sbase : Nat) (places : List Place) (l : Launch) : Launch :=
  (l.hold core sbase places).admitNext.letIn

theorem updLaunch_updLaunch {f g : Launch → Launch} (hf : ∀ l, (f l).id = l.id) (s : State) (id : Nat) :
    (s.updLaunch id f).updLaunch id g = s.updLaunch id fun l => g (f l) := by
  unfold State.updLaunch mapIf
  rw [List.map_map]
  congr 1
  refine List.map_congr_left fun l _ => ?_
  by_cases hl : l.id = id <;> simp [hl, hf]

/-- What the admission of a launch's next workgroup changes. -/
theorem admitted_frame (s : State) (l : Launch) (core sbase : Nat) (places : List Place) (args : List Byte) :
    ∃ rejected cores contexts pipes seq, (s.holdPlaces l core sbase places).admitNext l l.nextWg core sbase places args none
      = { s with
          launches := (s.updLaunch l.id (Launch.admitted core sbase places)).launches
          wgs := s.wgs ++ [Workgroup.make l s.seq l.nextWg core sbase places args rejected none]
          mem := Memory.clear s.mem (vaultPhys core sbase) l.header.vbytes
          poison := s.poison.filter fun k =>
            !(decide (vaultPhys core sbase ≤ 64 * k) && decide (64 * k < vaultPhys core sbase + l.header.vbytes))
          cores := cores, contexts := contexts, pipes := pipes, seq := seq } := by
  obtain ⟨rejected, cores, contexts, pipes, seq, hin⟩ := letIn_frame
    ((s.holdPlaces l core sbase places).updLaunch l.id Launch.admitNext) l l.nextWg core sbase places args none
  have hlaunches : (((s.holdPlaces l core sbase places).updLaunch l.id Launch.admitNext).updLaunch l.id Launch.letIn).launches
      = (s.updLaunch l.id (Launch.admitted core sbase places)).launches := by
    rw [State.holdPlaces, updLaunch_updLaunch (f := Launch.hold core sbase places) fun _ => rfl,
      updLaunch_updLaunch (f := fun l => (l.hold core sbase places).admitNext) fun _ => rfl]
    rfl
  rw [hlaunches] at hin
  exact ⟨rejected, cores, contexts, pipes, seq, hin⟩

theorem admissionCompletes : AdmissionCompletes := by
  intro s id core sbase places l args hinv hl hlost hflag horigin hwait hdisp hmode hopen hplaces hreads
  obtain rfl := launch?_some_id hl
  obtain ⟨rejected, cores, contexts, pipes, seq, hin⟩ := admitted_frame s l core sbase places args
  have hlaunch : (s.updLaunch l.id (Launch.admitted core sbase places)).launch? l.id = some (l.admitted core sbase places) :=
    launch?_updLaunch_same (f := Launch.admitted core sbase places) (fun _ => rfl) hl
  refine ⟨_, Workgroup.make l s.seq l.nextWg core sbase places args rejected none,
    (workgroupAdmission_eq hl hlost hflag horigin hwait hdisp hmode hopen hreads).trans (congrArg Host.Outcome.next hin),
    rfl, rfl, rfl, rfl, rfl, rfl, rfl, rfl, rfl, make_warps_length hplaces, fun v hv => ?_,
    Memory.read_clear hinv (vaultPhys core sbase) l.header.vbytes,
    congrArg (Option.map fun k => (k.nextWg, k.live)) hlaunch, _, _, _, _, _, _, _, _, rfl⟩
  obtain ⟨n, r, p, hr, rfl⟩ := make_warp hv
  refine ⟨rfl, rfl, List.length_replicate, fun k hk => ?_⟩
  rw [List.eq_of_mem_replicate hk]
  exact ⟨rfl, rfl, rfl, List.mem_map_of_mem hr⟩

/-- Settles O35: admissions, reservations, aged gangs, draws and dictionary loads, each by the case in which the model
completes it. -/
theorem scheduling : Obligations.Scheduling :=
  ⟨admissionCompletes, reservationCompletes, gangAges, drawCompletes, slotLoads, slotFails⟩

end Sys2Proof.Machine
end

section
/-! SUPPORT. Failures fails, in its second clause on CORE_UE: a workgroup lost with its core goes, but its number may still
be that of a control core. `Failures` names the state only up to the settling that follows, so this shows first what
settling keeps: the workgroups and control cores, unless a command ends or a context is killed. -/

namespace Sys2Proof.Machine

/-- Where a workgroup or a control core stands, by its number. -/
structure Stand where
  id       : Nat
  core     : Nat
  resident : Bool
  kept     : Bool
  deriving DecidableEq

def Workgroup.stand (g : Workgroup) : Stand := ⟨g.id, g.core, g.resident, g.kept⟩

/-- A context has been killed, or a property holds of the workgroups, the control cores, and what commands name. -/
def KilledOr (Q : List Stand → List Stand → List (List Nat) → Prop) (s : State) : Prop :=
  (∃ c ∈ s.contexts, c.killed = true) ∨ Q (s.wgs.map Workgroup.stand) (s.ctl.map Workgroup.stand) (s.cmds.map Command.names)

section Kept

variable {Q : List Stand → List Stand → List (List Nat) → Prop} {s t : State}

/-! ### Parts of the state -/

theorem KilledOr.keep (h : KilledOr Q s) (hk : (∃ c ∈ s.contexts, c.killed = true) → ∃ c ∈ t.contexts, c.killed = true)
    (hw : t.wgs.map Workgroup.stand = s.wgs.map Workgroup.stand) (hc : t.ctl.map Workgroup.stand = s.ctl.map Workgroup.stand)
    (hn : t.cmds.map Command.names = s.cmds.map Command.names) : KilledOr Q t := by
  unfold KilledOr
  rw [hw, hc, hn]
  exact h.imp_left hk

/-- An operation on other parts of the state. -/
theorem KilledOr.other (h : KilledOr Q s)
    (e : (t.contexts, t.wgs, t.ctl, t.cmds) = (s.contexts, s.wgs, s.ctl, s.cmds) := by rfl) : KilledOr Q t := by
  simp only [Prod.mk.injEq] at e
  obtain ⟨ec, ew, ek, en⟩ := e
  exact h.keep (by rw [ec]; exact id) (by rw [ew]) (by rw [ek]) (by rw [en])

theorem foldl_keeps {α : Type} {P : State → Prop} {f : State → α → State} (hf : ∀ s a, P s → P (f s a)) (l : List α) {s : State}
    (h : P s) : P (l.foldl f s) := by
  induction l generalizing s with
  | nil => exact h
  | cons a l ih => exact ih (hf s a h)

theorem KilledOr.foldl {α : Type} {f : State → α → State} {l : List α} (h : KilledOr Q s)
    (hf : ∀ s a, KilledOr Q s → KilledOr Q (f s a)) : KilledOr Q (l.foldl f s) := foldl_keeps hf l h

theorem KilledOr.ite {p : Prop} [Decidable p] (hs : KilledOr Q s) (ht : KilledOr Q t) : KilledOr Q (if p then s else t) := by
  split
  · exact hs
  · exact ht

theorem map_mapIf_of_eq {α β : Type} {p : α → Bool} {f : α → α} {q : α → β} (hf : ∀ x, q (f x) = q x) (l : List α) :
    (mapIf p f l).map q = l.map q := by
  unfold mapIf
  rw [List.map_map]
  refine List.map_congr_left fun x _ => ?_
  simp only [Function.comp]
  split
  · exact hf x
  · rfl

theorem KilledOr.updWg {id : Nat} {f : Workgroup → Workgroup} (h : KilledOr Q s) (hf : ∀ g, (f g).stand = g.stand := by intro _; rfl) :
    KilledOr Q (s.updWg id f) :=
  h.keep (fun hk => hk) (map_mapIf_of_eq hf _) (map_mapIf_of_eq hf _) rfl

theorem KilledOr.updWarp {wg w : Nat} {f : Warp → Warp} (h : KilledOr Q s) : KilledOr Q (s.updWarp wg w f) := h.updWg

theorem KilledOr.updLane {r : LaneRef} {f : Lane → Lane} (h : KilledOr Q s) : KilledOr Q (s.updLane r f) := h.updWarp

theorem killed_mapIf {p : Context → Bool} {f : Context → Context} {cs : List Context} (hf : ∀ c, c.killed = true → (f c).killed = true)
    (h : ∃ c ∈ cs, c.killed = true) : ∃ c ∈ mapIf p f cs, c.killed = true := by
  obtain ⟨c, hc, hk⟩ := h
  refine ⟨_, List.mem_map_of_mem hc, ?_⟩
  split
  · exact hf c hk
  · exact hk

theorem KilledOr.updCtx {ctx : Nat} {f : Context → Context} (h : KilledOr Q s)
    (hf : ∀ c, c.killed = true → (f c).killed = true := by intro _ h; exact h) : KilledOr Q (s.updCtx ctx f) :=
  h.keep (killed_mapIf hf) rfl rfl rfl

theorem KilledOr.storeBytes {a : Nat} {bs : List Byte} (h : KilledOr Q s) : KilledOr Q (s.storeBytes a bs) := h.other

theorem KilledOr.vectors {vs : List Nat} (h : KilledOr Q s) : KilledOr Q { s with vectors := vs } := h.other

theorem KilledOr.updCore {v : Nat} {f : Core → Core} (h : KilledOr Q s) : KilledOr Q (s.updCore v f) := by
  obtain ⟨_, e⟩ := updCore_frame s v f
  rw [e]
  exact h.other

theorem KilledOr.updCmd {id : Nat} {f : Command → Command} (h : KilledOr Q s) (hf : ∀ c, (f c).names = c.names := by intro _; rfl) :
    KilledOr Q (s.updCmd id f) :=
  h.keep (fun hk => hk) rfl rfl (map_mapIf_of_eq hf _)

/-! ### Contexts killed -/

/-- A context ended: it is killed, or there is none of its number. -/
theorem KilledOr.dropContext {ctx : Nat} (hc : ∃ c ∈ s.contexts, c.id = ctx) : KilledOr Q (s.dropContext ctx) := by
  obtain ⟨c, hc, hid⟩ := hc
  refine .inl ⟨_, List.mem_map_of_mem hc, ?_⟩
  simp [hid]

/-- An operation on the events of contexts, and on parts that hold neither workgroups nor commands. -/
def Posted (s t : State) : Prop :=
  (t.contexts.map fun c => (c.id, c.killed)) = (s.contexts.map fun c => (c.id, c.killed)) ∧ t.wgs = s.wgs ∧ t.ctl = s.ctl ∧ t.cmds = s.cmds

theorem posted_updCtx {ctx : Nat} {f : Context → Context} (h : Posted s t) (hf : KeepsId f) : Posted s (t.updCtx ctx f) := by
  obtain ⟨hc, hrest⟩ := h
  exact ⟨(map_mapIf_of_eq (fun c => by rw [(hf c).1, (hf c).2]) t.contexts).trans hc, hrest⟩

theorem posted_storeBytes (a : Nat) (bs : List Byte) (h : Posted s t) : Posted s (t.storeBytes a bs) := h

theorem posted_written {vectors : List Nat} {p : Context → Bool} {f : Context → Context} (h : Posted s t) (hf : KeepsId f) :
    Posted s { t with vectors := vectors, contexts := mapIf p f t.contexts } := by
  obtain ⟨hc, hrest⟩ := h
  exact ⟨(map_mapIf_of_eq (fun c => by rw [(hf c).1, (hf c).2]) t.contexts).trans hc, hrest⟩

theorem posted_flushEvents {ctx : Nat} (h : Posted s t) : Posted s (t.flushEvents ctx) := by
  unfold State.flushEvents
  split
  · exact h
  · split
    · exact h
    · refine foldl_keeps (P := Posted s) (fun t e ht => ?_) _ h
      dsimp only
      split
      · exact ht
      · exact posted_written (posted_storeBytes _ _ ht) fun _ => ⟨rfl, rfl⟩

theorem posted_postEvent (s : State) (ctx fn : Nat) (cause : Byte) (addr : DWord) (tag wg : Word) (detail : DWord) :
    Posted s (s.postEvent ctx fn cause addr tag wg detail) :=
  posted_flushEvents (posted_updCtx ⟨rfl, rfl, rfl, rfl⟩ fun _ => ⟨rfl, rfl⟩)

theorem KilledOr.killWith {ctx : Nat} {cause : Cause} {addr : DWord} {wg : Word} {detail : DWord} (h : KilledOr Q s) :
    KilledOr Q (s.killWith ctx cause addr wg detail) := by
  unfold State.killWith
  split
  · exact h
  · next c hc =>
    obtain ⟨hids, -⟩ := posted_postEvent s ctx 6 cause.code addr 0 wg detail
    have hmem : (c.id, c.killed) ∈ s.contexts.map fun c => (c.id, c.killed) := List.mem_map_of_mem (List.mem_of_find?_eq_some hc)
    rw [← hids] at hmem
    obtain ⟨d, hd, heq⟩ := List.mem_map.mp hmem
    exact KilledOr.dropContext ⟨d, hd, (Prod.mk.inj heq).1.trans (ctx?_some_id hc).1⟩

theorem KilledOr.killContext {ctx : Nat} {cause : Cause} {fault : Option LaneFault} (h : KilledOr Q s) :
    KilledOr Q (s.killContext ctx cause fault) := h.killWith

/-! ### Exceptions taken -/

theorem KilledOr.settleReformed {core slot : Nat} (h : KilledOr Q s) : KilledOr Q (s.settleReformed core slot) := h.updCore

theorem KilledOr.holdLanes {g : GroupRef} {rs : List LaneRef} {r : Stall} (h : KilledOr Q s) : KilledOr Q (s.holdLanes g rs r) := by
  unfold State.holdLanes
  refine .ite h ?_
  split
  · exact h.updWarp
  · exact h.updCore

theorem KilledOr.regroup {g : GroupRef} {o : SplitOrder} (h : KilledOr Q s) : KilledOr Q (s.regroup g o) := by
  unfold State.regroup
  split
  · exact h.updWarp.other
  · exact h.updCore.settleReformed.other

theorem KilledOr.takeOut {core : Nat} {r : LaneRef} (h : KilledOr Q s) : KilledOr Q (s.takeOut core r) := by
  unfold State.takeOut
  split
  · exact h
  · split
    · exact h
    · exact (KilledOr.other (s := s.updLane r _) h.updLane).updCore.settleReformed

theorem KilledOr.unbin {core : Nat} {r : LaneRef} (h : KilledOr Q s) : KilledOr Q (s.unbin core r) := by
  unfold State.unbin
  split
  · exact h.takeOut.updLane
  · split
    · exact h
    · exact h.updLane.updCore

theorem KilledOr.haltOne {core : Nat} {v : Warp} {r : LaneRef} {f : Option LaneFault} (h : KilledOr Q s) :
    KilledOr Q (s.haltOne core v r f) := by
  unfold State.haltOne
  split
  · exact h
  · refine .ite ?_ (.ite h.updLane.unbin h.updLane)
    split
    · exact h.updLane
    · exact h

theorem KilledOr.haltWarp {wg w : Nat} {fs : List LaneFault} (h : KilledOr Q s) : KilledOr Q (s.haltWarp wg w fs) := by
  unfold State.haltWarp
  split
  · exact .updWarp (h.foldl fun _ _ hs => hs.haltOne)
  · exact h

theorem KilledOr.haltSkid {wg w : Nat} {fs : List LaneFault} (h : KilledOr Q s) : KilledOr Q (s.haltSkid wg w fs) := by
  unfold State.haltSkid
  split
  · exact .other (.updWarp (h.foldl fun _ _ hs => hs.haltOne))
  · exact h

theorem KilledOr.haltRaising {wg trapping : Nat} {fs : List LaneFault} (h : KilledOr Q s) : KilledOr Q (s.haltRaising wg trapping fs) :=
  h.foldl fun _ _ hs => .updWarp (.ite hs.haltWarp hs.haltSkid)

theorem KilledOr.startTrap {wg : Nat} {f : LaneFault} {debug : Bool} {outer : List TrapState} (h : KilledOr Q s) :
    KilledOr Q (s.startTrap wg f debug outer) := h.updWarp.updWg

theorem KilledOr.broadcast {wg : Nat} (h : KilledOr Q s) : KilledOr Q (s.broadcast wg) := by
  unfold State.broadcast
  split
  · exact h
  · exact h.updWg.updCore

theorem KilledOr.flushDebug {ctx : Nat} (h : KilledOr Q s) : KilledOr Q (s.flushDebug ctx) := by
  unfold State.flushDebug
  refine h.foldl fun s _ hs => ?_
  split
  · refine .ite (.updCtx (.updWg ?_)) hs
    exact hs.storeBytes.vectors
  · exact hs

theorem KilledOr.causeWaits {rs : List LaneRef} (h : KilledOr Q s) : KilledOr Q (s.causeWaits rs) := by
  unfold State.causeWaits
  refine h.foldl fun _ _ hs => ?_
  split
  · exact hs.holdLanes
  · exact hs.holdLanes

theorem KilledOr.raiseIn {wg : Nat} {fs : List LaneFault} (h : KilledOr Q s) : KilledOr Q (s.raiseIn wg fs) := by
  unfold State.raiseIn
  split
  · refine .ite h.updWarp (.ite h.killContext (.ite h.causeWaits (.ite ?_ (.ite h.killContext ?_))))
    · exact .ite h.haltRaising.haltWarp.startTrap h.haltRaising
    · exact .ite h.broadcast.haltRaising.startTrap.flushDebug h.broadcast.haltRaising.startTrap
  · exact h

theorem KilledOr.raise {fs : List LaneFault} (h : KilledOr Q s) : KilledOr Q (s.raise fs) := h.foldl fun _ _ hs => hs.raiseIn

/-! ### Completion registers fall -/

theorem KilledOr.setHold {g : GroupRef} {hd : Option Hold} (h : KilledOr Q s) : KilledOr Q (s.setHold g hd) := by
  unfold State.setHold State.updGroup
  split
  · exact h.updWarp
  · exact h.updCore

theorem KilledOr.endHold {wg w : Nat} {q : Group} {npc : Word} {faults : List LaneFault} (h : KilledOr Q s) :
    KilledOr Q (s.endHold wg w q npc faults) := by
  unfold State.endHold
  have hgo := h.setHold (g := .home wg w q.gid) (hd := none)
  exact .raise (.ite (.updWarp (hgo.foldl fun _ _ hs => hs.updLane)) (.regroup (hgo.foldl fun _ _ hs => hs.updLane)))

theorem KilledOr.fall {r : LaneRef} {creg n : Nat} {err ue : Bool} (h : KilledOr Q s) : KilledOr Q (s.fall r creg n err ue) := by
  unfold State.fall State.wakeWaitc
  have hset := h.updWarp (wg := r.wg) (w := r.warp) (f := fun v => v.setUreg (56 + creg) (cregFall n err ue (v.ureg (56 + creg))))
  split
  · exact hset
  · refine .ite hset (hset.foldl fun s q hs => ?_)
    split
    · exact .ite hs.endHold hs
    · exact hs

theorem KilledOr.writeFence {ctx : Nat} {fence value : DWord} {refused : Bool} (h : KilledOr Q s) :
    KilledOr Q (s.writeFence ctx fence value refused) := by
  unfold State.writeFence
  refine .ite h ?_
  dsimp only
  split
  · split
    · exact h.other
    · exact h
  · exact .ite h.other h
  · exact h

/-! ### Commands and launches end -/

/-- No kept workgroup stands that no command names. -/
def AllNamed (ws : List Stand) (names : List (List Nat)) : Prop :=
  ∀ w ∈ ws, w.kept = true → w.resident = false → ∃ ns ∈ names, w.id ∈ ns

/-- What a command's end makes true. -/
theorem allNamed_dropKept (s : State) : AllNamed (s.dropKept.wgs.map Workgroup.stand) (s.dropKept.cmds.map Command.names) := by
  intro w hw hk hr
  obtain ⟨g, hg, rfl⟩ := List.mem_map.mp hw
  obtain ⟨-, hg⟩ := List.mem_filter.mp hg
  have hk : g.kept = true := hk
  have hr : g.resident = false := hr
  rw [hk, hr] at hg
  simp only [Bool.not_false, Bool.and_self, Bool.true_and, Bool.not_not, List.any_eq_true] at hg
  obtain ⟨c, hc, hn⟩ := hg
  exact ⟨c.names, List.mem_map_of_mem hc, List.contains_iff_mem.mp hn⟩

theorem KilledOr.endCommand {id : Nat} (hQ : ∀ ws cs ns, AllNamed ws ns → Q ws cs ns) (h : KilledOr Q s) : KilledOr Q (s.endCommand id) := by
  unfold State.endCommand
  split
  · exact h
  · exact .inr (hQ _ _ _ (allNamed_dropKept _))

theorem KilledOr.endLaunch {l : Launch} (hQ : ∀ ws cs ns, AllNamed ws ns → Q ws cs ns) (h : KilledOr Q s) : KilledOr Q (s.endLaunch l) := by
  have hgone : KilledOr Q { s with launches := s.launches.filter fun k => k.id != l.id } := h.other
  unfold State.endLaunch
  dsimp only
  split
  · exact .endCommand hQ hgone.updCmd
  · split
    · exact .ite hgone.writeFence.fall hgone.writeFence
    · exact hgone.writeFence
  · exact hgone
  · exact hgone

theorem KilledOr.settle (hQ : ∀ ws cs ns, AllNamed ws ns → Q ws cs ns) (h : KilledOr Q s) : KilledOr Q s.settle := by
  have steps (n : Nat) : ∀ s, KilledOr Q s → KilledOr Q (State.settleSteps n s) := by
    induction n with
    | zero => exact fun _ h => h
    | succ n ih =>
      intro s h
      unfold State.settleSteps
      split
      · exact ih _ (h.endLaunch hQ)
      · split
        · exact ih _ (.endCommand hQ h.updCtx)
        · exact h
  have hsteps := steps (s.launches.length + s.cmds.length) s h
  unfold State.settle State.freeDead
  refine .ite hsteps (hsteps.keep ?_ rfl rfl rfl)
  rintro ⟨c, hc, hk⟩
  exact ⟨_, List.mem_map_of_mem hc, hk⟩

end Kept

end Sys2Proof.Machine
end

section
/-! SUPPORT. A core fails whose workgroup has the number of a control core (O39). -/

namespace Sys2Proof.Machine

/-- What a control core of a number still says of `CoreFails`: no workgroup has the number, and what the control cores have under
it is not a resident workgroup of core 0; or a kept workgroup stands that a command's end would have dropped. -/
def NotOnCore (i : Nat) (ws cs : List Stand) (ns : List (List Nat)) : Prop :=
  AllNamed ws ns ∨ (∃ w ∈ ws, w.id = i) ∨ ∀ c, cs.find? (fun c => c.id = i) = some c → c.resident = false ∨ c.core ≠ 0

theorem stand_find? (i : Nat) (gs : List Workgroup) :
    (gs.map Workgroup.stand).find? (fun w => w.id = i) = (gs.find? fun g => g.id = i).map Workgroup.stand := by
  rw [List.find?_map]
  rfl

/-- The second clause of `CoreFails`, as the control cores have it. -/
theorem notOnCore_of_wg? {u : State} {i : Nat} (h : ∀ k, u.wg? i = some k → k.resident = false ∨ k.core ≠ 0) :
    NotOnCore i (u.wgs.map Workgroup.stand) (u.ctl.map Workgroup.stand) (u.cmds.map Command.names) := by
  cases hw : u.wgs.find? fun g => g.id = i with
  | some g =>
    have hid : g.id = i := by simpa using List.find?_some hw
    exact .inr (.inl ⟨g.stand, List.mem_map_of_mem (List.mem_of_find?_eq_some hw), hid⟩)
  | none =>
    refine .inr (.inr fun c hc => ?_)
    rw [stand_find?] at hc
    obtain ⟨k, hk, rfl⟩ := Option.map_eq_some_iff.mp hc
    exact h k (by rw [State.wg?, hw, Option.none_or, hk])

/-- The program's workgroup, of an idempotent launch, on core 0; a kept workgroup that no command names; and a control core that
has the number and the core of the program's workgroup. -/
def numberClash : State :=
  let s := State.reset.withProgram []
  let aside (g : Workgroup) : Workgroup := { g with id := 1, resident := false, kept := true }
  { s.updLaunch 0 (fun l => { l with header := { l.header with flags := 8 } }) with wgs := s.wgs ++ s.wgs.map aside, ctl := s.wgs }

theorem numberClash_meets :
    (∃ g, numberClash.wgs.filter (fun g => g.core = 0 && g.resident) = [g] ∧ g.id = 0 ∧ g.ctx = 0 ∧ g.launch = 0)
    ∧ (∀ l ∈ numberClash.launches, ∀ q ∈ l.gangs, q.cluster ≠ some (clusterOf 0))
    ∧ (∃ c, numberClash.ctx? 0 = some c ∧ c.mode.getLsbD 4 = false)
    ∧ ∃ l, numberClash.launch? 0 = some l ∧ l.header.flags.getLsbD 3 = true :=
  ⟨⟨_, rfl, rfl, rfl, rfl⟩, by decide +kernel, ⟨_, rfl, by decide +kernel⟩, ⟨_, rfl, by decide +kernel⟩⟩

/-- After CORE_UE no context is killed, the kept workgroup still stands, and so does the control core. -/
theorem numberClash_after :
    ∃ t, exec (.coreUe 0) numberClash = .next t ∧ (∀ c ∈ t.contexts, c.killed = false)
      ∧ t.wgs.map Workgroup.stand = [⟨1, 0, false, true⟩] ∧ t.ctl.map Workgroup.stand = [⟨0, 0, true, false⟩] ∧ t.cmds.map Command.names = [] :=
  ⟨_, rfl, by decide +kernel⟩

/-- Refutes O39: `CoreFails` says that no workgroup of the lost one's number is resident on the failed core, but CORE_UE takes
the number only from the workgroups. In `numberClash` a control core has it and stands on the core, and the kept
workgroup shows that the settling has ended no command, so that it stood there before it too. -/
theorem not_failures : ¬ Obligations.Failures := by
  intro h
  obtain ⟨⟨-, hlost⟩, -⟩ := h
  obtain ⟨⟨g, hg, hid, hctx, hlaunch⟩, hgangs, ⟨c, hc, hmode⟩, ⟨l, hl, hflag⟩⟩ := numberClash_meets
  obtain ⟨u, hu, -, hnot, -⟩ := hlost numberClash 0 g c l (by decide) hg hgangs (hctx ▸ hc) (hlaunch ▸ hl) hmode hflag
  obtain ⟨t, ht, hkilled, hws, hcs, hns⟩ := numberClash_after
  obtain rfl : u.settle = t := Host.Outcome.next.inj (hu.symm.trans ht)
  have hsettled : KilledOr (NotOnCore 0) u.settle :=
    KilledOr.settle (fun _ _ _ => .inl) (.inr (notOnCore_of_wg? (hid ▸ hnot)))
  unfold KilledOr NotOnCore AllNamed at hsettled
  rw [hws, hcs, hns] at hsettled
  rcases hsettled with ⟨c, hc, hk⟩ | hall | ⟨w, hw, hi⟩ | hfree
  · rw [hkilled c hc] at hk
    exact Bool.false_ne_true hk
  · obtain ⟨ns, hns, -⟩ := hall _ List.mem_cons_self rfl rfl
    exact List.not_mem_nil hns
  · rw [List.mem_singleton.mp hw] at hi
    exact Nat.one_ne_zero hi
  · exact (hfree _ rfl).elim (fun h => Bool.false_ne_true h.symm) fun h => h rfl

end Sys2Proof.Machine
end

section
/-! SUPPORT. Frames of the Ethernet ports, received, acknowledged, answered and sent again; boot and attestation (O42). -/

namespace Sys2Proof.Machine

/-! ### Flows received (R34) -/

/-- What a test takes from a list, it does not find there. -/
theorem find?_filter_not {α : Type} (q : α → Bool) (l : List α) : (l.filter fun x => !q x).find? q = none :=
  List.find?_eq_none.mpr fun x hx => by simpa using (List.mem_filter.mp hx).2

theorem rxNext_acceptFrame (s : State) (f : EthFrame) :
    (s.acceptFrame f).rxNext f.node (headerOf f).flow = ((headerOf f).seq + 1) % 2 ^ 32 := by
  have none_left : (s.rxFlows.filter fun p => !(p.1 = f.node && p.2.1 = (headerOf f).flow)).find?
      (fun p => p.1 = f.node && p.2.1 = (headerOf f).flow) = none := find?_filter_not _ _
  have found : (s.acceptFrame f).rxFlows.find? (fun p => p.1 = f.node && p.2.1 = (headerOf f).flow)
      = some (f.node, (headerOf f).flow, ((headerOf f).seq + 1) % 2 ^ 32) := by
    change List.find? _ (List.filter _ s.rxFlows ++ [_]) = _
    rw [List.find?_append, none_left]
    simp
  rw [State.rxNext, found]
  rfl

/-- A frame accepted is acknowledged, and its flow moves on. -/
theorem frameTaken_acceptFrame (s : State) (f : EthFrame) : FrameTaken f [EthFrame.answer f 4 []] s (s.acceptFrame f) :=
  ⟨rfl, rxNext_acceptFrame s f⟩

/-! ### Flows sent (R34) -/

/-- Whether a flow is the one of some frames that this device sends to a node. -/
def TxFlow.isAt (flow node : Nat) (data : Bool) (t : TxFlow) : Prop := t.flow = flow ∧ t.node = node ∧ t.data = data

theorem txFlow_isAt (s : State) (flow node : Nat) (data : Bool) : (s.txFlow flow node data).isAt flow node data := by
  unfold State.txFlow
  cases h : s.txFlows.find? fun t => t.flow = flow && t.node = node && t.data = data with
  | none => exact ⟨rfl, rfl, rfl⟩
  | some t =>
    have h := List.find?_some h
    simp only [Bool.and_eq_true, decide_eq_true_eq] at h
    exact ⟨h.1.1, h.1.2, h.2⟩

theorem txFlow_setTxFlow {t : TxFlow} {flow node : Nat} {data : Bool} (s : State) (h : t.isAt flow node data) :
    (s.setTxFlow t).txFlow flow node data = t := by
  obtain ⟨rfl, rfl, rfl⟩ := h
  have none_left : (s.txFlows.filter fun u => !(u.flow = t.flow && u.node = t.node && u.data = t.data)).find?
      (fun u => u.flow = t.flow && u.node = t.node && u.data = t.data) = none := find?_filter_not _ _
  unfold State.txFlow State.setTxFlow
  rw [List.find?_append, none_left]
  simp

theorem txFlow_updFrames (s : State) (flow node : Nat) (data : Bool) (f : List TxFrame → List TxFrame) (hf : f [] = []) :
    ((s.updFrames flow node data f).txFlow flow node data).frames = f (s.txFlow flow node data).frames := by
  unfold State.txFlow State.updFrames
  dsimp only
  rw [mapIf_find? _ _ (fun t : TxFlow => { t with frames := f t.frames }) _ fun _ _ => rfl]
  cases h : s.txFlows.find? fun t => t.flow = flow && t.node = node && t.data = data with
  | none => exact hf.symm
  | some t =>
    rw [Option.map_some, if_pos (List.find?_some h)]
    rfl

/-- The frames of a number, dropped from their flow. -/
def State.dropFrames (s : State) (flow node : Nat) (data : Bool) (seq : Nat) : State :=
  s.updFrames flow node data fun l => l.filter fun q => !q.numbered seq

/-- The frames of a number, with one in their place. -/
def State.putFrame (s : State) (flow node : Nat) (data : Bool) (w : TxFrame) : State :=
  s.updFrames flow node data (mapIf (TxFrame.numbered (headerOf w.frame).seq) fun _ => w)

theorem txFrame?_dropFrames (s : State) (flow node : Nat) (data : Bool) (seq : Nat) :
    (s.dropFrames flow node data seq).txFrame? flow node data seq = none := by
  rw [State.txFrame?, State.dropFrames, txFlow_updFrames _ _ _ _ _ rfl]
  exact List.find?_eq_none.mpr fun q hq => by simpa using (List.mem_filter.mp hq).2

theorem txFrame?_putFrame {s : State} {flow node : Nat} {data : Bool} {v w : TxFrame}
    (h : s.txFrame? flow node data (headerOf w.frame).seq = some v) :
    (s.putFrame flow node data w).txFrame? flow node data (headerOf w.frame).seq = some w := by
  rw [State.txFrame?] at h
  rw [State.txFrame?, State.putFrame, txFlow_updFrames _ _ _ _ _ rfl, mapIf_find? _ _ _ _ fun q hq => by rw [hq]; simp [TxFrame.numbered], h,
    Option.map_some, if_pos (List.find?_some h)]

/-- A held frame that has all it waits for is dropped, and its portion lands. -/
theorem markFrame_done {w : TxFrame} (s : State) (flow node : Nat) (data : Bool) (ha : w.acked = true) (hb : w.answered = true) :
    s.markFrame flow node data w = (s.dropFrames flow node data (headerOf w.frame).seq).landRemote w := by
  unfold State.markFrame
  exact if_pos (by rw [ha, hb]; rfl)

theorem markFrame_waiting {w : TxFrame} (s : State) (flow node : Nat) (data : Bool) (h : (w.acked && w.answered) = false) :
    s.markFrame flow node data w = s.putFrame flow node data w := by
  unfold State.markFrame
  exact if_neg (by rw [h]; exact Bool.false_ne_true)

theorem txFrame?_seq {s : State} {flow node seq : Nat} {data : Bool} {w : TxFrame} (h : s.txFrame? flow node data seq = some w) :
    (headerOf w.frame).seq = seq := by simpa [TxFrame.numbered] using List.find?_some h

/-! ### Frames that arrive (R32 to R34) -/

theorem ethWriteFrame_accepted {s : State} {f : EthFrame} (h : s.accepts 1 f = true) :
    exec (.ethWriteFrame f) s = .next ((match s.exportedAt f with
      | some p => s.storeBytes p (payloadOf f)
      | none => s).acceptFrame f) := by
  change Host.Outcome.next _ = _
  rw [if_neg (by simp [h])] <;> rfl

/-- The operation of an answer's header, read from its bytes. -/
theorem headerOf_answer_op (f : EthFrame) (op : Nat) (payload : List Byte) : (headerOf (EthFrame.answer f op payload)).op = op % 256 := by
  simp [headerOf, EthFrame.answer, frameTo, EthHeader.bytes, leBytes, fieldAt, leNat]

/-- Read data that is sent waits for its acknowledgement alone. -/
theorem holdFrame_data (s : State) (t : TxFlow) (f : EthFrame) (payload : List Byte) :
    s.holdFrame t none (EthFrame.answer f 3 payload)
      = State.setTxFlow (s.emit (EthFrame.answer f 3 payload))
          { t with frames := t.frames ++ [⟨false, true, none, EthFrame.answer f 3 payload, 0⟩] } := by
  unfold State.holdFrame
  rw [headerOf_answer_op]
  rfl

theorem exportBytes_sound {s : State} {p n : Nat} (h : ∀ i, i < n → s.poisoned (p + i) = false) : s.exportBytes p n = Memory.bytes s.mem p n := by
  refine List.map_congr_left fun i hi => ?_
  rw [h i (List.mem_range.mp hi)]
  rfl

theorem ethReadRequest_answered {s : State} {f : EthFrame} {p : Nat} (h : s.accepts 2 f = true) (hp : s.exportedAt f = some p)
    (hrange : s.poisonedRange p (headerOf f).len = false) (hsound : ∀ i, i < (headerOf f).len → s.poisoned (p + i) = false) :
    exec (.ethReadRequest f) s = .next ((s.acceptFrame f).holdFrame (s.txFlow (headerOf f).flow f.node true) none
      (EthFrame.answer f 3 (Memory.bytes s.mem p (headerOf f).len))) := by
  change Host.Outcome.next _ = _
  rw [if_neg (by simp [h])]
  dsimp only
  rw [hp]
  dsimp only
  rw [hrange, exportBytes_sound hsound, if_neg Bool.false_ne_true]
  rfl

theorem ethReadRequest_outside {s : State} {f : EthFrame} (h : s.accepts 2 f = true) (hp : s.exportedAt f = none) :
    exec (.ethReadRequest f) s = .next (s.acceptFrame f) := by
  change Host.Outcome.next _ = _
  rw [if_neg (by simp [h])]
  dsimp only
  rw [hp]

theorem framesArrive : FramesArrive := by
  refine ⟨fun s f hinv h => ?_, ?_, fun s f h hp => ?_, fun s f h => ?_, fun s f h => ?_, fun s f h => ?_⟩
  · refine ⟨_, ethWriteFrame_accepted h, ?_⟩
    cases hp : s.exportedAt f with
    | none => exact ⟨fun _ hq => (Option.some_ne_none _ hq.symm).elim, fun _ => rfl, frameTaken_acceptFrame s f, _, _, _, _, rfl⟩
    | some p =>
      refine ⟨fun q hq => ?_, fun hq => (Option.some_ne_none _ hq).elim, ⟨rfl, rxNext_acceptFrame _ f⟩, _, _, _, _, rfl⟩
      obtain rfl := Option.some.inj hq
      exact State.read_storeBytes hinv p (payloadOf f)
  · rintro s f p data h hp hrange hsound rfl
    refine ⟨_, ethReadRequest_answered h hp hrange hsound, ?_⟩
    rw [holdFrame_data]
    refine ⟨⟨?_, rxNext_acceptFrame s f⟩, ?_, _, _, _, rfl⟩
    · change (s.ethOut ++ [_]) ++ [_] = s.ethOut ++ [_, _]
      rw [List.append_assoc]
      rfl
    · have hkey : TxFlow.isAt (headerOf f).flow f.node true { s.txFlow (headerOf f).flow f.node true with
          frames := (s.txFlow (headerOf f).flow f.node true).frames
            ++ [⟨false, true, none, EthFrame.answer f 3 (Memory.bytes s.mem p (headerOf f).len), 0⟩] } :=
        txFlow_isAt s (headerOf f).flow f.node true
      rw [txFlow_setTxFlow _ hkey]
  · exact ⟨_, ethReadRequest_outside h hp, frameTaken_acceptFrame s f, _, _, rfl⟩
  · exact congrArg Host.Outcome.next (if_pos (by simp [h]))
  · exact congrArg Host.Outcome.next (if_pos (by simp [h]))
  · exact congrArg Host.Outcome.next (if_neg (by simp [h]))

/-! ### Acknowledgements and read data -/

theorem ethAcknowledge_eq {s : State} {f : EthFrame} {w : TxFrame} {data : Bool} (hf : EthFrame.transfers f = true) (hop : (headerOf f).op = 4)
    (hw : s.txFrame? (headerOf f).flow f.node data (headerOf f).seq = some w)
    (hown : data = true → s.txFrame? (headerOf f).flow f.node false (headerOf f).seq = none) :
    exec (.ethAcknowledge f) s = .next (s.markFrame (headerOf f).flow f.node data { w with acked := true }) := by
  change Host.Outcome.next _ = _
  rw [if_neg (by simp [hf, hop])]
  cases data with
  | false => rw [hw]
  | true => rw [hown rfl, hw]

theorem acknowledgesComplete : AcknowledgesComplete := by
  rintro s f w data flow seq hf hop rfl rfl hw hown
  have he := ethAcknowledge_eq hf hop hw hown
  have hseq := txFrame?_seq hw
  refine ⟨fun ha => ?_, fun ha => ?_⟩
  · rw [markFrame_done (w := { w with acked := true }) _ _ _ _ rfl ha] at he
    refine ⟨_, he, ?_, _, rfl⟩
    rw [hseq]
    exact txFrame?_dropFrames _ _ _ _ _
  · rw [markFrame_waiting (w := { w with acked := true }) _ _ _ _ (by simp [ha])] at he
    refine ⟨_, he, ?_, _, rfl⟩
    have hput := txFrame?_putFrame (w := { w with acked := true }) (hseq.symm ▸ hw)
    rw [hseq] at hput
    exact hput

theorem storePortion_frame (s : State) (phys : Nat) (bs : List Byte) (whole : Bool) :
    ∃ poison, s.storePortion phys bs false whole = { s with mem := (s.storeBytes phys bs).mem, poison := poison } := by
  unfold State.storePortion
  dsimp only
  rw [if_neg Bool.false_ne_true]
  split
  · exact ⟨_, rfl⟩
  · exact ⟨_, rfl⟩

theorem storeArrived_frame {s : State} {w : TxFrame} {id p : Nat} {c : Command} {op : Nat} {dst src : DWord} {len rows ds ss : Nat}
    {dsp ssp : Bool} {landed bad : List Nat} {q : Portion} {phys : Nat} (payload : List Byte) (hp : w.portion = some (id, p))
    (hc : s.cmd? id = some c) (hwork : c.work = .copy op dst src len rows ds ss dsp ssp landed bad)
    (hq : portionAt dst.toNat len rows ds p = some q) (hphys : s.operandPhys c.ctx c.lane.wg dsp q.lo = some phys) :
    ∃ poison, s.storeArrived w payload = { s with mem := (s.storeBytes phys (payload.take (q.hi - q.lo))).mem, poison := poison } := by
  unfold State.storeArrived
  rw [hp, Option.bind_some, hc, Option.map_some]
  dsimp only
  rw [hwork]
  dsimp only
  rw [hq]
  dsimp only
  rw [hphys]
  exact storePortion_frame _ _ _ _

theorem ethReadData_eq {s : State} {f : EthFrame} {w : TxFrame} (hf : EthFrame.transfers f = true) (hop : (headerOf f).op = 3)
    (hw : s.asked? (headerOf f).flow f.node = some w) (hseq : (headerOf w.frame).seq = (headerOf f).seq) :
    exec (.ethReadData f) s = .next (((s.storeArrived w (payloadOf f)).emit (EthFrame.answer f 4 [])).markFrame (headerOf f).flow f.node false
      { w with answered := true }) := by
  change Host.Outcome.next _ = _
  rw [if_neg (by simp [hf, hop]), hw]
  exact congrArg Host.Outcome.next (if_neg (by simp [TxFrame.numbered, hseq]))

theorem readDataComplete : ReadDataComplete := by
  refine ⟨?_, fun s f hne => ?_⟩
  · rintro s f w id p c op dst src len rows ds ss dsp ssp landed bad q phys flow seq hinv hf hop rfl rfl hw hseq hp hc hwork hq hphys
    have he := ethReadData_eq hf hop hw hseq
    obtain ⟨poison, harrived⟩ := storeArrived_frame (payloadOf f) hp hc hwork hq hphys
    have hstored := State.read_storeBytes (s := s) hinv phys ((payloadOf f).take (q.hi - q.lo))
    rw [harrived] at he
    by_cases ha : w.acked = true
    · rw [markFrame_done (w := { w with answered := true }) _ _ _ _ ha rfl, hseq] at he
      rw [if_pos ha]
      exact ⟨_, he.trans (congrArg Host.Outcome.next (if_pos ha).symm), hstored, rfl, txFrame?_dropFrames _ _ _ _ _, _, _, _, _, rfl⟩
    · rw [markFrame_waiting (w := { w with answered := true }) _ _ _ _ (by simp [ha])] at he
      have hheld : ∃ v, s.txFrame? (headerOf f).flow f.node false (headerOf f).seq = some v :=
        Option.isSome_iff_exists.mp (List.find?_isSome.mpr ⟨w, List.mem_of_find?_eq_some hw, by simp [TxFrame.numbered, hseq]⟩)
      obtain ⟨v, hv⟩ := hheld
      have hput := txFrame?_putFrame (w := { w with answered := true }) (s := State.emit { s with
        mem := (s.storeBytes phys ((payloadOf f).take (q.hi - q.lo))).mem, poison := poison } (EthFrame.answer f 4 [])) (hseq.symm ▸ hv)
      rw [hseq] at hput
      rw [if_neg ha]
      exact ⟨_, he.trans (congrArg Host.Outcome.next (if_neg ha).symm), hstored, rfl, hput, _, _, _, _, rfl⟩
  · change Host.Outcome.next _ = _
    refine congrArg Host.Outcome.next ?_
    split
    · rfl
    · split
      · rfl
      · next w hw => exact if_pos (by simp [TxFrame.numbered, hne w hw])

/-! ### Resends (R34) -/

theorem resendTimeout_again {s : State} {flow node : Nat} {data : Bool} {x : TxFrame} {rest : List TxFrame}
    (h : (s.txFlow flow node data).frames.dropWhile TxFrame.acked = x :: rest) (hx : x.resends < 8) :
    exec (.resendTimeout ⟨flow, node, data⟩) s = .next (State.setTxFlow { s with ethOut := s.ethOut ++ (x :: rest).map TxFrame.frame }
      { s.txFlow flow node data with
        frames := (s.txFlow flow node data).frames.takeWhile TxFrame.acked ++ (x :: rest).map TxFrame.resent }) := by
  change execResendTimeout _ s = _
  unfold execResendTimeout
  dsimp only
  rw [h]
  exact congrArg Host.Outcome.next (if_pos hx)

/-- The oldest frame that is not acknowledged has been sent often enough. -/
theorem resendTimeout_last {s : State} {flow node : Nat} {data : Bool} {x : TxFrame} {rest : List TxFrame}
    (h : (s.txFlow flow node data).frames.dropWhile TxFrame.acked = x :: rest) (hx : 8 ≤ x.resends) :
    exec (.resendTimeout ⟨flow, node, data⟩) s = .next (match x.portion with
      | some p => s.giveUp p.1
      | none => State.setTxFlow s { s.txFlow flow node data with frames := (s.txFlow flow node data).frames.filter fun q => q != x }) := by
  change execResendTimeout _ s = _
  unfold execResendTimeout
  dsimp only
  rw [h]
  exact congrArg Host.Outcome.next (if_neg (Nat.not_lt.mpr hx))

theorem resendsComplete : ResendsComplete := by
  rintro s flow node data w x rest rfl h
  have hkey : (s.txFlow flow node data).isAt flow node data := txFlow_isAt s flow node data
  refine ⟨fun hx => ?_, fun hx p hp => ?_, fun hx hp => ?_⟩
  · exact ⟨_, resendTimeout_again h hx, rfl, txFlow_setTxFlow _ hkey, _, _, rfl⟩
  · rw [resendTimeout_last h hx, hp]
  · refine ⟨_, (resendTimeout_last h hx).trans (by rw [hp]), txFlow_setTxFlow _ hkey, _, rfl⟩

/-! ### Boot (R35, R36) -/

theorem reset_stage1Fails {b : BootInput} (s : State) (h : stage1Ok b = false) :
    exec (.reset b) s = .next { s.afterReset with bootFail := true, recovery := true } :=
  congrArg Host.Outcome.next (if_pos (by rw [h]; rfl))

theorem reset_stage2Fails {b : BootInput} (s : State) (h : stage1Ok b = true) (h2 : stage2Ok b = false) :
    exec (.reset b) s = .next { s.afterReset with
      bootFail := true, recovery := true, measure := extendM s.afterReset.measure (sha256 b.stage1.image) } :=
  congrArg Host.Outcome.next ((if_neg (by rw [h]; decide)).trans (if_pos (by rw [h2]; rfl)))

theorem reset_boots {b : BootInput} (s : State) (h : stage1Ok b = true) (h2 : stage2Ok b = true) :
    exec (.reset b) s = .next { s.afterReset with
      booted := true, measure := extendM (extendM s.afterReset.measure (sha256 b.stage1.image)) (sha256 b.stage2.image) } :=
  congrArg Host.Outcome.next ((if_neg (by rw [h]; decide)).trans (if_neg (by rw [h2]; decide)))

theorem boots : Boots := by
  refine ⟨fun s b => ?_, fun s nonce => ?_⟩
  · cases h : stage1Ok b with
    | false =>
      refine ⟨_, reset_stage1Fails s h, ?_, _, _, _, _, rfl⟩
      rw [if_pos rfl]
      exact ⟨rfl, rfl, rfl, rfl⟩
    | true =>
      cases h2 : stage2Ok b with
      | false =>
        refine ⟨_, reset_stage2Fails s h h2, ?_, _, _, _, _, rfl⟩
        rw [if_neg (show ¬true = false by decide), if_pos rfl]
        exact ⟨rfl, rfl, rfl, rfl⟩
      | true =>
        refine ⟨_, reset_boots s h h2, ?_, _, _, _, _, rfl⟩
        rw [if_neg (show ¬true = false by decide), if_neg (show ¬true = false by decide)]
        exact ⟨rfl, rfl, rfl, rfl⟩
  · refine ⟨_, _, rfl, rfl, ⟨_, Nat.le_add_left 1 _, ?_, rfl⟩, _, _, rfl⟩
    have := Nat.mod_lt ((List.range 8).foldl (fun n i => 2 ^ 32 * n + (Config.freeWord (s.freeCount + i)).toNat) 0)
      (show p256N - 1 > 0 by decide)
    omega

/-- Settles O42: frames by the order of their flows, boot by the stages that pass. -/
theorem linksAndBoot : Obligations.LinksAndBoot :=
  ⟨framesArrive, acknowledgesComplete, readDataComplete, resendsComplete, boots⟩

end Sys2Proof.Machine
end

section
/-! SUPPORT. The instructions that compute one value from their own operands, named once for groups and invocations: how `exec`
runs them, and the width of their destination (R193, R420). -/

namespace Sys2Proof.Machine

/-- Whether a destination column names one register, or a pair where TY is 64 bits wide: no destination of R197 to R219 spans more. -/
def Opnd.ofType (o : Opnd) : Bool := decide (o.span = .ty) || decide (o.span = .one)

theorem Opnd.width_le_two {o : Opnd} (h : o.ofType = true) (ty : Ty) : o.width ty ≤ 2 := by
  simp only [Opnd.ofType, Bool.or_eq_true, decide_eq_true_eq] at h
  unfold Opnd.width
  rcases h with h | h <;> rw [h]
  · dsimp only; split <;> omega
  · exact Nat.le_succ 1

/-- `exec` runs `mk` as an instruction of own-lane operands with the value `val`, in a lane and in a method. -/
structure ComputesOwn (mk : Form → Instr) (val : Form → Args → Val) : Prop where
  exec_eq : ∀ f s, exec (mk f) s = aluExec (mk f) f (fun _ => val f) s
  dest    : ∀ f, (sigOf (mk f) f).d.ofType = true

theorem computesOwn_integerOps : ∀ e ∈ integerOps, ComputesOwn e.1 e.2 := by
  intro e he
  fin_cases he <;> exact ⟨fun _ _ => rfl, fun _ => rfl⟩

theorem computesOwn_scalarFloatOps : ∀ e ∈ scalarFloatOps, ComputesOwn e.1 e.2 := by
  intro e he
  fin_cases he <;> exact ⟨fun _ _ => rfl, fun _ => rfl⟩

theorem computesOwn_predicateOps : ∀ e ∈ predicateOps, ComputesOwn e.1 e.2 := by
  intro e he
  fin_cases he <;> exact ⟨fun _ _ => rfl, fun _ => rfl⟩

theorem computesOwn_dot4 : ComputesOwn .dot4 dot4Val := ⟨fun _ _ => rfl, fun _ => rfl⟩

theorem computesOwn_floatOps : ∀ e ∈ floatOps, ComputesOwn e.1 e.2 := by
  intro e he
  rcases List.mem_append.mp he with hs | hd
  · exact computesOwn_scalarFloatOps e hs
  · rw [List.mem_singleton.mp hd]
    exact computesOwn_dot4

/-- With a vector destination such an instruction writes the value of each active lane (R193). -/
theorem ComputesOwn.vectorCompletes {mk : Form → Instr} {val : Form → Args → Val} (h : ComputesOwn mk val) :
    VectorCompletes mk false (ownValue fun f _ => val f) := by
  intro f s x hc ok _ hd ha ht hdst
  rw [h.exec_eq]
  exact aluExec_vector (fun f _ => val f) hc ok hd ha ht hdst (Opnd.width_le_two (h.dest f) f.ty)

/-- Settles O2: each of the instructions is run by `aluExec`, whose results of active lanes stand in a vector destination. -/
theorem floatVector : Obligations.FloatVector := fun e he => (computesOwn_floatOps e he).vectorCompletes

end Sys2Proof.Machine
end

section
/-! SUPPORT. CVT (R213 to R215): an issue that has written its result is not to be issued again, so that in SR the generator of
the home warp advances (R69, log 15). -/

namespace Sys2Proof.Machine

/-! ### Issues that are over -/

@[simp] theorem State.updLanes_cores (s : State) (rs : List LaneRef) (k : Lane → Lane) : (s.updLanes rs k).cores = s.cores := by
  induction rs generalizing s with
  | nil => rfl
  | cons r rs ih => exact ih (s.updLane r k)

/-- A change of lanes leaves the records of their groups. -/
@[simp] theorem State.groupOf_updLanes (s : State) (rs : List LaneRef) (k : Lane → Lane) (g : GroupRef) :
    (s.updLanes rs k).groupOf g = s.groupOf g := by
  cases g with
  | home wg w gid =>
    have h := State.updLanes_warp s rs k (fun v : Warp => v.ring.find? fun x => x.gid = gid) (fun _ _ => rfl) wg w
    simpa only [State.groupOf, Option.bind_map, Function.id_comp] using congrArg (fun o => o.bind id) h
  | reformed core slot gid => simp only [State.groupOf, State.core, State.updLanes_cores]

/-- A group found by its number among groups that were all given a hold under that number. -/
theorem find?_mapIf_hold {gs : List Group} {gid : Nat} {h : Option Hold} {q : Group}
    (hq : (mapIf (fun x : Group => x.gid = gid) (fun x => { x with hold := h }) gs).find? (fun x => x.gid = gid) = some q) :
    q.hold = h := by
  rw [mapIf_find? _ _ _ _ (by intros; rfl)] at hq
  obtain ⟨r, hr, rfl⟩ := Option.map_eq_some_iff.mp hq
  rw [if_pos (List.find?_some hr)]

/-- After a hold is set, the group has that hold. -/
theorem State.groupOf_setHold {s : State} {g : GroupRef} {h : Option Hold} {q : Group} (hq : (s.setHold g h).groupOf g = some q) :
    q.hold = h := by
  cases g with
  | home wg w gid =>
    simp only [State.setHold, State.updGroup, State.groupOf, State.warp?_updWarp, and_self, if_true, Option.bind_eq_some_iff,
      Option.map_eq_some_iff] at hq
    obtain ⟨v, ⟨u, -, rfl⟩, hq⟩ := hq
    exact find?_mapIf_hold hq
  | reformed core slot gid =>
    simp only [State.setHold, State.updGroup, State.groupOf, Option.bind_eq_some_iff] at hq
    obtain ⟨v, hv, hq⟩ := hq
    rw [State.core_updCore _ _ _ _ (by intros; rfl), if_pos rfl, mapIf_find? _ _ _ _ (by intros; rfl)] at hv
    obtain ⟨u, hu, rfl⟩ := Option.map_eq_some_iff.mp hv
    rw [if_pos (List.find?_some hu)] at hq
    exact find?_mapIf_hold hq

/-- A group whose hold is no reason to try again is not issued again. -/
theorem State.retries_setHold (s : State) (x : Iss) {h : Option Hold} (hh : holdRetries h = false) :
    (s.setHold x.g h).retries x = false := by
  unfold State.retries
  cases hq : (s.setHold x.g h).groupOf x.g with
  | none => rfl
  | some q => simp [State.groupOf_setHold hq, hh]

/-- An issue that ends without faults is over. -/
theorem State.retries_endIssue (s : State) (x : Iss) (f : Form) : (s.endIssue x f []).retries x = false := by
  have h := s.retries_setHold x (h := none) rfl
  simpa [State.retries, State.endIssue, State.raise_nil, State.moveLanes] using h

/-- Results that find their registers are written, and the issue is over. -/
theorem State.retries_commitVec {s : State} {x : Iss} {f : Form} {g : Sig} {act : List Act} {rs : List LaneRes}
    (hd : DestOk s x f g rs.length) : (s.commitVec x f g act rs []).retries x = false := by
  obtain ⟨p, hp⟩ := hd.room
  have hne : (rs != []) = (rs.length != 0) := by cases rs <;> rfl
  have hbusy : (dstRegs f g x.wbase).any (rowBusy (releaseLu f g x.wbase (s.rowsOf x))) = false :=
    List.any_eq_false.mpr fun reg hreg => by simp [rowBusy_releases _ (luRegs f g x.wbase) _ (hd.idle reg hreg)]
  unfold State.commitVec
  simp only [if_true, hne, hp, hbusy, Bool.and_false, Bool.false_eq_true, if_false]
  exact State.retries_endIssue _ x f

/-- A uniform result is written, or waits for its completion registers: in neither case is it computed again (R274). -/
theorem State.retries_commitUni (s : State) (x : Iss) (f : Form) (n : Nat) (words : List Word) (fl : Flags) :
    (s.commitUni x f n words fl).retries x = false := by
  unfold State.commitUni
  dsimp only
  split
  · exact State.retries_setHold _ x rfl
  · exact State.retries_endIssue _ x f

/-- Results of every active lane, without a trap, written to a vector destination: the issue is over. -/
theorem State.retries_commit {s : State} {x : Iss} {f : Form} {g : Sig} {act : List Act} {rs : List LaneRes}
    (hd : f.d.cls = .vector) (ht : s.fpTrap rs = none) (hdst : DestOk s x f g rs.length) :
    (s.commit x f g act rs []).retries x = false := by
  unfold State.commit
  rw [ht]
  dsimp only
  rw [if_neg (by rw [hd]; decide)]
  exact State.retries_commitVec hdst

/-- With a uniform destination the value is that of the lane at position 0 (R194). -/
theorem aluCommit_uniform {s : State} {x : Iss} {f : Form} {g : Sig} (val : Form → Nat → Args → Val) {v : Val}
    (hd : f.d.cls = .uniform)
    (ha : ownUniform val s f x (s.reads x f g) g (s.actives x f) = some v)
    (ht : s.fpTrap ((s.actives x f).map fun a => ⟨a, [], v.flags⟩) = none) :
    s.aluCommit x (s.reads x f g) f g (s.actives x f) (val f)
      = s.commitUni x f (slotNum f f.d) (valWords (g.d.width f.ty) v.v)
          (if (s.actives x f).all (fun a => a.lane.helper) then 0 else v.flags) := by
  cases hact : s.actives x f with
  | nil => rw [hact] at ha; cases ha
  | cons a rest =>
    rw [hact] at ha ht
    obtain ⟨args, hargs, rfl⟩ := Option.map_eq_some_iff.mp ha
    unfold State.aluCommit
    rw [if_pos hd]
    simp only [hargs]
    rw [ht]

/-! ### CVT -/

theorem cvt_dest (f : Form) : (sigOf (.cvt f) f).d.ofType = true := rfl

/-- In a group, with any mode but SR, CVT is an instruction of own-lane operands. -/
theorem exec_cvt_group {f : Form} {s : State} {x : Iss} (hc : CanIssue (.cvt f) f false s x) (hm : f.rm ≠ .sr) :
    exec (.cvt f) s = aluExec (.cvt f) f (cvtVal f 0) s := by
  change execCvt f s = _
  unfold execCvt
  rw [hc.cur]
  exact if_neg hm

/-- In a group, with SR, an issue that is over leaves the generator advanced (R69, R215). -/
theorem exec_cvt_sr {f : Form} {s t : State} {x : Iss} (hc : CanIssue (.cvt f) f false s x) (hm : f.rm = .sr)
    (ht : s.aluCommit x (s.reads x f (sigOf (.cvt f) f)) f (sigOf (.cvt f) f) (s.actives x f) (cvtVal f (cvtGen s x)) = t)
    (hr : t.retries x = false) : exec (.cvt f) s = .next (t.setSeed x (cvtGen s x)) := by
  have hx : exec (.cvt f) s = cvtSr f s := by
    change execCvt f s = _
    unfold execCvt
    rw [hc.cur]
    exact if_pos hm
  rw [hx]
  unfold cvtSr
  rw [front_canIssue hc]
  unfold cvtGen at ht ⊢
  dsimp only
  rw [ht, hr]
  rfl

theorem cvt_vector : VectorCompletesIf (fun _ f _ => f.rm ≠ .sr) (fun _ _ t => t) .cvt false (ownValue fun f => cvtVal f 0) := by
  intro f s x hc ok hm hd ha ht hdst
  rw [exec_cvt_group hc hm]
  exact aluExec_vector (fun f => cvtVal f 0) hc ok hd ha ht hdst (Opnd.width_le_two (cvt_dest f) f.ty)

theorem cvt_uniform : UniformCompletesIf (fun _ f _ => f.rm ≠ .sr) (fun _ _ t => t) .cvt false (ownUniform fun f => cvtVal f 0)
    releasesNone := by
  intro f s x v hc hm hd _ ha ht hu
  rw [exec_cvt_group hc hm]
  exact aluExec_uniform (fun f => cvtVal f 0) hc hd ha ht hu

/-- A value that reads the state beside its own operands: CVT in SR, which reads the generator (R215). -/
def ownValueAt (val : State → Iss → Form → Nat → Args → Val) : LaneValue := fun s f x e g act a =>
  ownValue (val s x) s f x e g act a

theorem laneResults_ownValueAt (val : State → Iss → Form → Nat → Args → Val) (s : State) (x : Iss) (f : Form) (g : Sig) :
    s.laneResults x f g (ownValueAt val) = s.laneResults x f g (ownValue (val s x)) := by
  simp only [State.laneResults, ownValueAt]

theorem laneValues_ownValueAt (val : State → Iss → Form → Nat → Args → Val) (s : State) (x : Iss) (f : Form) (g : Sig) :
    s.laneValues x f g (ownValueAt val) ↔ s.laneValues x f g (ownValue (val s x)) := by
  simp only [State.laneValues, ownValueAt]

theorem cvt_vector_sr : VectorCompletesIf (fun _ f _ => f.rm = .sr) (fun s x t => t.setSeed x (cvtGen s x)) .cvt false
    (ownValueAt fun s x f => cvtVal f (cvtGen s x)) := by
  intro f s x hc ok hm hd ha ht hdst
  rw [laneValues_ownValueAt] at ha
  rw [laneResults_ownValueAt] at ht hdst ⊢
  have hw := Opnd.width_le_two (cvt_dest f) f.ty
  have hcommit := aluCommit_lanes _ ha (by rw [hd]; decide)
  have hover := State.retries_commit (act := s.actives x f) hd ht hdst
  have hresult := State.commit_vector hc ok hd (laneResults_ok ha hw) ht hdst (by omega)
  exact ⟨_, exec_cvt_sr hc hm hcommit hover, hresult⟩

theorem cvt_uniform_sr : UniformCompletesIf (fun _ f _ => f.rm = .sr) (fun s x t => t.setSeed x (cvtGen s x)) .cvt false
    (fun s f x e g act => ownUniform (fun f => cvtVal f (cvtGen s x)) s f x e g act) releasesNone := by
  intro f s x v hc hm hd _ ha ht hu
  exact ⟨_, exec_cvt_sr hc hm (aluCommit_uniform (fun f => cvtVal f (cvtGen s x)) hd ha ht) (State.retries_commitUni s x f _ _ _),
    State.commitUni_spec f _ hu⟩

/-- Settles O5: with SR the results are written as with every other mode, and as the issue is over the generator is the next. -/
theorem conversion : Obligations.Conversion := ⟨cvt_vector, cvt_uniform, cvt_vector_sr, cvt_uniform_sr⟩

end Sys2Proof.Machine
end

section
/-! SUPPORT. The instructions of a method invocation (R420 to R423, R439 to R441): the course they share, what a written result
leaves in the invocation, and how `exec` runs each of them. -/

namespace Sys2Proof.Machine

/-! ### The course of a method's instruction (R420) -/

theorem Invocation.run_reads {v : Invocation} {i : Instr} {f : Form} {x : Args} (act : Sig → Args → Invocation → Invocation)
    (hd : decodeFault i f methodLimits = none) (hg : v.guard f = true) (hx : v.args? f (sigOf i f) = some x) :
    v.run i f act = act (sigOf i f) x (v.release f (sigOf i f)) := by
  simp only [Invocation.run, hd, hg, hx, if_true]

/-- An empty latch ends the invocation (R140, R441). -/
theorem Invocation.run_latch {v : Invocation} {i : Instr} {f : Form} (act : Sig → Args → Invocation → Invocation)
    (hd : decodeFault i f methodLimits = none) (hg : v.guard f = true) (hx : v.args? f (sigOf i f) = none) :
    v.run i f act = v.fail .regLatch := by
  simp only [Invocation.run, hd, hg, hx, if_true]

/-- Under a guard that is false nothing is computed: the latches shift, LU releases, and the invocation goes on (R138, R148). -/
theorem Invocation.run_idle {v : Invocation} {i : Instr} {f : Form} (act : Sig → Args → Invocation → Invocation)
    (hd : decodeFault i f methodLimits = none) (hg : v.guard f = false) :
    v.run i f act = ((v.release f (sigOf i f)).write f (sigOf i f) none).advance f := by
  simp only [Invocation.run, hd, hg, Bool.false_eq_true, if_false]

theorem Invocation.release_eq (v : Invocation) (f : Form) (g : Sig) : v.release f g = { v with regs := releasedRegs f g v } := rfl

/-- The window of SLD and SST is no register (R422). -/
@[simp] theorem Invocation.load_release (v : Invocation) (f : Form) (g : Sig) (o : Nat) : (v.release f g).load o = v.load o := rfl
@[simp] theorem Invocation.storeFault_release (v : Invocation) (f : Form) (g : Sig) (o : Nat) :
    (v.release f g).storeFault o = v.storeFault o := rfl

/-! ### Registers -/

/-- Registers that LU releases read 0 (R148, log 15). -/
theorem setZeros_getD (ns : List Nat) (regs : List Word) (reg : Nat) :
    (ns.foldl (fun l n => setNth l n 0) regs).getD reg 0 = if reg ∈ ns then 0 else regs.getD reg 0 := by
  induction ns generalizing regs with
  | nil => simp
  | cons n ns ih =>
    rw [List.foldl_cons, ih]
    by_cases hn : reg = n
    · subst hn
      have : (setNth regs reg (0 : Word)).getD reg 0 = 0 := by
        rw [List.getD_eq_getElem?_getD, setNth_getElem?, if_pos rfl]
        cases regs[reg]? <;> rfl
      rw [this, if_pos List.mem_cons_self, ite_self]
    · have : (setNth regs n (0 : Word)).getD reg 0 = regs.getD reg 0 := by
        rw [List.getD_eq_getElem?_getD, setNth_getElem?, if_neg hn, ← List.getD_eq_getElem?_getD]
      rw [this]
      simp only [List.mem_cons, hn, false_or]

theorem releasedRegs_getD (f : Form) (g : Sig) (v : Invocation) (reg : Nat) :
    (releasedRegs f g v).getD reg 0 = if reg ∈ luRegs f g 0 then 0 else v.reg reg := setZeros_getD _ _ reg

theorem releasedRegs_length (f : Form) (g : Sig) (v : Invocation) : (releasedRegs f g v).length = v.regs.length := by
  unfold releasedRegs
  generalize luRegs f g 0 = ns
  generalize v.regs = regs
  induction ns generalizing regs with
  | nil => rfl
  | cons n ns ih => rw [List.foldl_cons, ih, setNth_length]

/-- Words written to registers: a register that none of them names keeps its own. -/
theorem setWords_getD_other (ps : List (Nat × Word)) (regs : List Word) {reg : Nat} (h : reg ∉ ps.map Prod.fst) :
    (ps.foldl (fun l p => setNth l p.1 p.2) regs).getD reg 0 = regs.getD reg 0 := by
  induction ps generalizing regs with
  | nil => rfl
  | cons p ps ih =>
    obtain ⟨hp, hps⟩ := List.ne_and_not_mem_of_not_mem_cons h
    rw [List.foldl_cons, ih _ hps, List.getD_eq_getElem?_getD, setNth_getElem?, if_neg hp, ← List.getD_eq_getElem?_getD]

/-- Words written to registers that are named once: each register holds its word. -/
theorem setWords_getD (ps : List (Nat × Word)) (regs : List Word) {reg k : Nat} {w : Word} (nd : (ps.map Prod.fst).Nodup)
    (hk : ps[k]? = some (reg, w)) (hr : reg < regs.length) : (ps.foldl (fun l p => setNth l p.1 p.2) regs).getD reg 0 = w := by
  induction ps generalizing regs k with
  | nil => simp at hk
  | cons p ps ih =>
    obtain ⟨hp, hps⟩ := List.nodup_cons.mp nd
    rw [List.foldl_cons]
    cases k with
    | zero =>
      obtain rfl : p = (reg, w) := by simpa using hk
      rw [setWords_getD_other ps _ hp, setNth_getD _ _ _ _ _ hr, if_pos rfl]
    | succ k => exact ih _ hps hk (by rw [setNth_length]; exact hr)

/-! ### Latches -/

/-- After `n` words, latch `j` holds the word that was shifted in `j` words before the last (R138). -/
theorem shiftWords_getD (entry : Nat → Latch) (l : List Latch) {n j : Nat} (hn : n ≤ 8) (hj : j < n) :
    ((List.range n).foldl (fun l k => entry k :: l.take 7) l).getD j .empty = entry (n - 1 - j) := by
  induction n generalizing j with
  | zero => omega
  | succ n ih =>
    rw [List.range_succ, List.foldl_append, List.foldl_cons, List.foldl_nil]
    cases j with
    | zero => rfl
    | succ j =>
      rw [List.getD_cons_succ, List.getD_eq_getElem?_getD, List.getElem?_take, if_pos (by omega), ← List.getD_eq_getElem?_getD,
        ih (by omega) (by omega)]
      congr 1
      omega

/-! ### Predicates -/

theorem preds_set_getLsbD (p : BitVec 7) (n m : Nat) (b : Bool) (hm : m < 7) :
    (if b then p ||| (1#7 <<< n) else p &&& ~~~(1#7 <<< n)).getLsbD m = if m = n then b else p.getLsbD m := by
  have hbit : (1#7 <<< n).getLsbD m = decide (m = n) := by
    rw [BitVec.getLsbD_shiftLeft, BitVec.getLsbD_one, decide_eq_true hm, Bool.true_and, decide_eq_true (by omega : 0 < 7),
      Bool.true_and, ← decide_not, ← Bool.decide_and]
    exact decide_eq_decide.mpr (by omega)
  cases b with
  | true =>
    rw [if_pos rfl, BitVec.getLsbD_or, hbit]
    by_cases h : m = n <;> simp [h]
  | false =>
    rw [if_neg Bool.false_ne_true, BitVec.getLsbD_and, BitVec.getLsbD_not, hbit, decide_eq_true hm]
    by_cases h : m = n <;> simp [h]

/-! ### A result written (R138 to R142) -/

theorem dstRegs_eq_nil {f : Form} (h : f.d.cls ≠ .vector) (g : Sig) (wbase : Nat) : dstRegs f g wbase = [] := by
  unfold dstRegs slotRegs
  rw [if_neg (by simp [h])]

theorem Invocation.write_rest (v : Invocation) (f : Form) (g : Sig) (val : Option DWord) :
    ∃ regs preds latches, v.write f g val = { v with regs := regs, preds := preds, latches := latches } := by
  unfold Invocation.write
  split
  · split
    · exact ⟨_, _, _, rfl⟩
    · dsimp only
      split <;> exact ⟨_, _, _, rfl⟩
  · exact ⟨_, _, _, rfl⟩

/-- A result in a predicate: a write to p7 is ignored (R143). -/
theorem Invocation.write_predicate {v : Invocation} {f : Form} (g : Sig) (val : DWord) (h : f.d.cls = .predicate) :
    v.write f g (some val) = if slotNum f f.d = 7 then v else { v with
      preds := if val.getLsbD 0 then v.preds ||| (1#7 <<< slotNum f f.d) else v.preds &&& ~~~(1#7 <<< slotNum f f.d) } := by
  simp only [Invocation.write, if_pos h]

/-- Where slot D is no predicate, the registers after a result (R138, R141). -/
theorem Invocation.write_regs {v : Invocation} {f : Form} (g : Sig) (val : DWord) (h : f.d.cls ≠ .predicate) :
    (v.write f g (some val)).regs = if f.nwb then v.regs
      else ((dstRegs f g 0).zip (valWords (g.d.width f.ty) val)).foldl (fun l p => setNth l p.1 p.2) v.regs := by
  simp only [Invocation.write, if_neg h]

/-- Where there is no result, no register or predicate changes. -/
theorem Invocation.write_none (v : Invocation) (f : Form) (g : Sig) :
    ∃ latches, v.write f g none = { v with latches := latches } := by
  unfold Invocation.write
  split
  · exact ⟨_, rfl⟩
  · simp only [List.zip_nil_right, List.foldl_nil, ite_self]
    exact ⟨_, rfl⟩

theorem Invocation.write_reg {v : Invocation} {f : Form} {g : Sig} {val : DWord} (hw : g.d.width f.ty ≤ 2) (hv : f.d.cls = .vector)
    (hn : f.nwb = false) {k reg : Nat} (hk : (dstRegs f g 0)[k]? = some reg) (hr : reg < v.regs.length) :
    (v.write f g (some val)).reg reg = (valWords (g.d.width f.ty) val).getD k 0 := by
  have hlen := valWords_wide f g 0 val hw
  have hkl : k < (valWords (g.d.width f.ty) val).length := by
    have := (List.getElem?_eq_some_iff.mp hk).1
    omega
  unfold Invocation.reg
  rw [Invocation.write_regs g _ (by rw [hv]; decide), hn]
  refine setWords_getD _ _ ?_ (k := k) ?_ hr
  · rw [List.map_fst_zip hlen]
    exact slotRegs_nodup f 0 f.d g.d
  · rw [List.getElem?_zip_eq_some]
    exact ⟨hk, by simp [List.getD_eq_getElem?_getD, List.getElem?_eq_getElem hkl]⟩

theorem Invocation.write_reg_other {v : Invocation} {f : Form} {g : Sig} {val : DWord} {reg : Nat}
    (h : f.d.cls ≠ .vector ∨ f.nwb = true ∨ reg ∉ dstRegs f g 0) : (v.write f g (some val)).reg reg = v.reg reg := by
  by_cases hp : f.d.cls = .predicate
  · rw [Invocation.write_predicate g val hp]
    split <;> rfl
  · unfold Invocation.reg
    rw [Invocation.write_regs g _ hp]
    split
    next => rfl
    next hn =>
      have hreg : reg ∉ dstRegs f g 0 := by
        rcases h with h | h | h
        · simp [dstRegs_eq_nil h]
        · exact absurd h hn
        · exact h
      refine setWords_getD_other _ _ fun hm => hreg ?_
      obtain ⟨p, hp, rfl⟩ := List.mem_map.mp hm
      exact (List.of_mem_zip hp).1

theorem Invocation.write_latch {v : Invocation} {f : Form} {g : Sig} {val : DWord} (hw : g.d.width f.ty ≤ 2) (hv : f.d.cls = .vector)
    {k : Nat} (hk : k < (dstRegs f g 0).length) :
    (v.write f g (some val)).latches.getD ((dstRegs f g 0).length - 1 - k) .empty
      = .full ((valWords (g.d.width f.ty) val).getD k 0) := by
  have hlen := valWords_wide f g 0 val hw
  have h2 := slotRegs_length f 0 f.d g.d
  have hkl : k < (valWords (g.d.width f.ty) val).length := by omega
  have hp : f.d.cls ≠ .predicate := by rw [hv]; decide
  simp only [Invocation.write, if_neg hp]
  rw [shiftWords_getD _ _ (by unfold dstRegs; omega) (by omega)]
  rw [show (dstRegs f g 0).length - 1 - ((dstRegs f g 0).length - 1 - k) = k by omega]
  simp [List.getD_eq_getElem?_getD, List.getElem?_eq_getElem hkl]

theorem Invocation.write_pred {v : Invocation} {f : Form} {g : Sig} {val : DWord} {n : Nat} (hn : n < 7) :
    (v.write f g (some val)).pred n = if f.d.cls = .predicate ∧ n = slotNum f f.d then val.getLsbD 0 else v.pred n := by
  have h7 : n ≠ 7 := by omega
  by_cases hp : f.d.cls = .predicate
  · rw [Invocation.write_predicate g val hp]
    by_cases hs : slotNum f f.d = 7
    · rw [if_pos hs, if_neg (by omega)]
    · rw [if_neg hs]
      simp only [Invocation.pred, if_neg h7, preds_set_getLsbD _ _ _ _ hn, hp, true_and]
  · simp only [Invocation.write, Invocation.pred, hp, false_and, if_false]

/-- A result written after LU, and the invocation at its next word (R138 to R142, R148). -/
theorem methodResult_write (v : Invocation) (f : Form) {g : Sig} (val : DWord) (hw : g.d.width f.ty ≤ 2) :
    MethodResult f g val v (((v.release f g).write f g (some val)).advance f) := by
  refine ⟨?_, fun hv hn k reg hk hr => ?_, fun reg h => ?_, fun hv k hk => ?_, fun n hn => ?_, ?_⟩
  · obtain ⟨regs, preds, latches, e⟩ := (v.release f g).write_rest f g (some val)
    rw [e]; rfl
  · exact Invocation.write_reg hw hv hn hk (by rw [Invocation.release_eq, releasedRegs_length]; exact hr)
  · exact (Invocation.write_reg_other h).trans (releasedRegs_getD f g v reg)
  · exact Invocation.write_latch hw hv hk
  · exact Invocation.write_pred hn
  · obtain ⟨regs, preds, latches, e⟩ := (v.release f g).write_rest f g (some val)
    rw [e]; exact ⟨_, _, _, _, rfl⟩

/-! ### The instructions of methods, executed -/

/-- An instruction in an invocation follows the course, with an effect `act` of its own. -/
def RunsInMethod (mk : Form → Instr) (act : Form → Sig → Args → Invocation → Invocation) : Prop :=
  ∀ f s v, s.cur = .method v → exec (mk f) s = .next { s with cur := .method (v.run (mk f) f (act f)) }

/-- The effect of an instruction that writes one value (R62, R420). -/
def resultAct (val : Form → Args → Invocation → DWord) (f : Form) (g : Sig) (x : Args) (v : Invocation) : Invocation :=
  (v.write f g (some (val f x v))).advance f

/-- The effect of SLD (R422, R440). -/
def sldAct (f : Form) (g : Sig) (x : Args) (v : Invocation) : Invocation :=
  match v.load (x.a.toNat % 2 ^ 32) with
  | .inl w => (v.write f g (some (w.setWidth 64))).advance f
  | .inr c => v.fail c

/-- The effect of SST (R422, R440). -/
def sstAct (f : Form) (_ : Sig) (x : Args) (v : Invocation) : Invocation :=
  match v.storeFault (x.a.toNat % 2 ^ 32) with
  | none => ({ v with writes := (x.a.toNat % 2 ^ 32, x.b.extractLsb' 0 32) :: v.writes }).advance f
  | some c => v.fail c

/-- The effect of an instruction that ends its invocation (R420, R441). -/
def endAct (status : Nat) (word : Args → Word) (_ : Form) (_ : Sig) (x : Args) (v : Invocation) : Invocation :=
  { v with ended := some (status, word x) }

/-- The effect of a branch (R309, R310). -/
def branchAct (f : Form) (_ : Sig) (x : Args) (v : Invocation) : Invocation := { v with pc := relTarget f v.pc x.a }

/-- An instruction whose guard is true and whose operands are read acts on the invocation after LU. -/
theorem RunsInMethod.reads {mk : Form → Instr} {act : Form → Sig → Args → Invocation → Invocation} (h : RunsInMethod mk act)
    {f : Form} {s : State} {v : Invocation} {x : Args} (hr : MethodReads mk s f v x) :
    exec (mk f) s = .next { s with cur := .method (act f (sigOf (mk f) f) x (v.release f (sigOf (mk f) f))) } := by
  obtain ⟨hcur, hdec, hguard, hargs⟩ := hr
  rw [h f s v hcur, Invocation.run_reads _ hdec hguard hargs]

/-- An instruction that writes one value has its result. -/
theorem RunsInMethod.result {mk : Form → Instr} {val : Form → Args → Invocation → DWord} (h : RunsInMethod mk (resultAct val))
    {f : Form} {s : State} {v : Invocation} {x : Args} (hr : MethodReads mk s f v x) (hd : (sigOf (mk f) f).d.ofType = true) :
    ∃ u, exec (mk f) s = .next { s with cur := .method u }
      ∧ MethodResult f (sigOf (mk f) f) (val f x (v.release f (sigOf (mk f) f))) v u :=
  ⟨_, h.reads hr, methodResult_write v f _ (Opnd.width_le_two hd f.ty)⟩

theorem ComputesOwn.runsInMethod {mk : Form → Instr} {val : Form → Args → Val} (h : ComputesOwn mk val) :
    RunsInMethod mk (resultAct fun f x _ => (val f x).v) := by
  intro f s v hcur
  rw [h.exec_eq]
  unfold aluExec
  rw [hcur]
  rfl

theorem runsInMethod_cvt : RunsInMethod .cvt (resultAct fun f x _ => (cvtVal f 0 0 x).v) := by
  intro f s v hcur
  change execCvt f s = _
  unfold execCvt aluExec
  rw [hcur]
  rfl

/-- The instructions of `methodOps` write their value, to a destination of one register or of a pair. -/
theorem methodOps_runs : ∀ e ∈ methodOps,
    RunsInMethod e.1 (resultAct fun f x _ => (e.2 f x).v) ∧ ∀ f, (sigOf (e.1 f) f).d.ofType = true := by
  intro e he
  simp only [methodOps, List.mem_append, List.mem_singleton] at he
  rcases he with ((hi | hf) | hp) | rfl
  · exact ⟨(computesOwn_integerOps e hi).runsInMethod, (computesOwn_integerOps e hi).dest⟩
  · exact ⟨(computesOwn_scalarFloatOps e hf).runsInMethod, (computesOwn_scalarFloatOps e hf).dest⟩
  · exact ⟨(computesOwn_predicateOps e hp).runsInMethod, (computesOwn_predicateOps e hp).dest⟩
  · exact ⟨runsInMethod_cvt, cvt_dest⟩

theorem methodExec_cur {i : Instr} {f : Form} {act : Sig → Args → Invocation → Invocation} {s : State} {v : Invocation}
    (h : s.cur = .method v) : methodExec i f act s = .next { s with cur := .method (v.run i f act) } := by
  unfold methodExec
  rw [h]

theorem runsInMethod_sld : RunsInMethod .sld sldAct := fun _ _ _ h => methodExec_cur h
theorem runsInMethod_sst : RunsInMethod .sst sstAct := fun _ _ _ h => methodExec_cur h
theorem runsInMethod_marg : RunsInMethod .marg (resultAct fun _ x v => (v.args.getD x.a.toNat 0).setWidth 64) :=
  fun _ _ _ h => methodExec_cur h
theorem runsInMethod_mret : RunsInMethod .mret (endAct 0 fun x => x.a.extractLsb' 0 32) := fun _ _ _ h => methodExec_cur h
theorem runsInMethod_mtrap : RunsInMethod .mtrap (endAct 1 fun x => x.a.extractLsb' 0 32) := fun _ _ _ h => methodExec_cur h

theorem runsInMethod_exit : RunsInMethod .exit (endAct 0 fun _ => 0) := by
  intro f s v hcur
  change execExit f s = _
  unfold execExit
  rw [hcur]
  rfl

theorem runsInMethod_nop : RunsInMethod .nop fun f _ _ v => v.advance f := by
  intro f s v hcur
  change execNop f s = _
  unfold execNop
  rw [hcur]

theorem braBody_method {i : Instr} {f : Form} {s : State} {v : Invocation} (h : s.cur = .method v) :
    braBody i f s = .next { s with cur := .method (v.run i f (branchAct f)) } := by
  unfold braBody
  rw [h]
  rfl

theorem runsInMethod_bra : RunsInMethod .bra branchAct := fun _ _ _ h => braBody_method h
theorem runsInMethod_braUniform : RunsInMethod .braUniform branchAct := fun _ _ _ h => braBody_method h

/-! ### Values, control and edges (R309, R310, R420 to R423, R439 to R441) -/

theorem methodValuesComplete : MethodValuesComplete := by
  refine ⟨fun e he f s v x hr => ?_, fun f s v x w hr hload => ?_, fun f s v x hr => ?_⟩
  · obtain ⟨hrun, hdest⟩ := methodOps_runs e he
    exact hrun.result hr (hdest f)
  · have hact : sldAct f (sigOf (.sld f) f) x (v.release f (sigOf (.sld f) f))
        = ((v.release f (sigOf (.sld f) f)).write f (sigOf (.sld f) f) (some (w.setWidth 64))).advance f := by
      unfold sldAct
      rw [Invocation.load_release, hload]
    exact ⟨_, hact ▸ runsInMethod_sld.reads hr, methodResult_write v f _ (Opnd.width_le_two rfl f.ty)⟩
  · exact runsInMethod_marg.result hr rfl

theorem methodControlComplete : MethodControlComplete := by
  refine ⟨fun f s v x hr hok => ?_, fun f s v x hr => runsInMethod_mret.reads hr, fun f s v x hr => runsInMethod_mtrap.reads hr,
    fun f s v x hr => runsInMethod_exit.reads hr, fun f s v x hr => runsInMethod_nop.reads hr, fun mk hmk f s v x hr => ?_⟩
  · rw [runsInMethod_sst.reads hr]
    unfold sstAct
    rw [Invocation.storeFault_release, hok]
    rfl
  · simp only [List.mem_cons, List.not_mem_nil, or_false] at hmk
    rcases hmk with rfl | rfl
    · exact runsInMethod_bra.reads hr
    · exact runsInMethod_braUniform.reads hr

/-- Every instruction of `methodOps`, and those that only a method executes, follow the course. -/
theorem methodOps_or_methodOnlyOps_runs : ∀ mk ∈ methodOps.map Prod.fst ++ methodOnlyOps, ∃ act, RunsInMethod mk act := by
  intro mk hmk
  rcases List.mem_append.mp hmk with h | h
  · obtain ⟨e, he, rfl⟩ := List.mem_map.mp h
    exact ⟨_, (methodOps_runs e he).1⟩
  · simp only [methodOnlyOps, List.mem_cons, List.not_mem_nil, or_false] at h
    rcases h with rfl | rfl | rfl | rfl | rfl
    · exact ⟨_, runsInMethod_sld⟩
    · exact ⟨_, runsInMethod_sst⟩
    · exact ⟨_, runsInMethod_marg⟩
    · exact ⟨_, runsInMethod_mret⟩
    · exact ⟨_, runsInMethod_mtrap⟩

/-- A word decodes where none of the checks of R132 and R420 fails. -/
theorem firstFault_eq_none {l : List (Option Cause)} : firstFault l = none ↔ ∀ c ∈ l, c = none := by
  simp only [firstFault, List.findSome?_eq_none_iff, id_eq]

/-- Outside a method, the instructions of methods are decode faults (R421). -/
theorem decodeFault_methodOnly {i : Instr} {f : Form} {lim : Limits} (hi : methodOnly i = true) (hl : lim.method = false) :
    decodeFault i f lim ≠ none := by
  intro h
  have hc : faultUnless .objMethod (!(methodOnly i && !lim.method)) = none := by
    refine firstFault_eq_none.mp h _ ?_
    simp only [List.mem_cons, true_or, or_true]
  rw [hi, hl] at hc
  exact absurd hc (by decide)

theorem methodOnly_methodOnlyOps : ∀ mk ∈ methodOnlyOps, ∀ f, methodOnly (mk f) = true := by
  intro mk hmk f
  simp only [methodOnlyOps, List.mem_cons, List.not_mem_nil, or_false] at hmk
  rcases hmk with rfl | rfl | rfl | rfl | rfl <;> rfl

theorem methodEdgesComplete : MethodEdgesComplete := by
  refine ⟨fun mk hmk f s v hcur hdec hguard => ?_, fun mk hmk f s v hcur hdec hguard hargs => ?_, fun f s v x c hr hload => ?_,
    fun f s v x c hr hstore => ?_, fun mk hmk f lim hlim => decodeFault_methodOnly (methodOnly_methodOnlyOps mk hmk f) hlim⟩
  · obtain ⟨act, hrun⟩ := methodOps_or_methodOnlyOps_runs mk hmk
    obtain ⟨latches, hwrite⟩ := (v.release f (sigOf (mk f) f)).write_none f (sigOf (mk f) f)
    refine ⟨_, hrun f s v hcur, ?_⟩
    rw [Invocation.run_idle _ hdec hguard, hwrite]
    exact ⟨rfl, rfl, _, _, _, rfl⟩
  · obtain ⟨act, hrun⟩ := methodOps_or_methodOnlyOps_runs mk hmk
    rw [hrun f s v hcur, Invocation.run_latch _ hdec hguard hargs]
    rfl
  · rw [runsInMethod_sld.reads hr]
    unfold sldAct
    rw [Invocation.load_release, hload]
    rfl
  · rw [runsInMethod_sst.reads hr]
    unfold sstAct
    rw [Invocation.storeFault_release, hstore]
    rfl

/-- Settles O27: each instruction follows the one course of R420, and its effect on the invocation after LU is read off. -/
theorem methods : Obligations.Methods := ⟨methodValuesComplete, methodControlComplete, methodEdgesComplete⟩

end Sys2Proof.Machine
end

section
/-! SUPPORT. What an issue does before it executes leaves the dictionary slots as they were, so the word decodes in the state
of the issue as it did before (R132, R169). -/

namespace Sys2Proof.Machine

/-- The two states hold the same dictionary slots on every core. -/
def SlotsKept (s t : State) : Prop := ∀ v, (t.core v).slots = (s.core v).slots

theorem SlotsKept.refl (s : State) : SlotsKept s s := fun _ => rfl

theorem SlotsKept.trans {s t u : State} (h : SlotsKept s t) (k : SlotsKept t u) : SlotsKept s u :=
  fun v => (k v).trans (h v)

theorem SlotsKept.of_cores {s t : State} (h : t.cores = s.cores) : SlotsKept s t := fun v => by simp only [State.core, h]

theorem SlotsKept.updCore (s : State) (v : Nat) (k : Core → Core) (hv : ∀ c, (k c).vault = c.vault)
    (hs : ∀ c, (k c).slots = c.slots) : SlotsKept s (s.updCore v k) := fun j => by
  rw [State.core_updCore s v j k hv]
  split
  · exact hs _
  · rfl

theorem SlotsKept.foldl {α : Type} (f : State → α → State) (hf : ∀ s a, SlotsKept s (f s a)) (l : List α) (s : State) :
    SlotsKept s (l.foldl f s) := by
  induction l generalizing s with
  | nil => exact .refl s
  | cons a l ih => exact (hf s a).trans (ih (f s a))

theorem SlotsKept.updGroup (s : State) (g : GroupRef) (k : Group → Group) : SlotsKept s (s.updGroup g k) := by
  cases g with
  | home wg w gid => exact .of_cores rfl
  | reformed core slot gid => exact .updCore s core _ (fun _ => rfl) fun _ => rfl

theorem SlotsKept.updLanes (s : State) (rs : List LaneRef) (k : Lane → Lane) : SlotsKept s (s.updLanes rs k) :=
  SlotsKept.foldl (fun s r => s.updLane r k) (fun _ _ => .of_cores rfl) rs s

theorem storeBytes_cores (s : State) (phys : Nat) (bs : List Byte) : (s.storeBytes phys bs).cores = s.cores := rfl

theorem SlotsKept.traceRecord (s : State) (ctx : Nat) (ident : List Byte) (a b c d e : Nat) :
    SlotsKept s (s.traceRecord ctx ident a b c d e) := by
  unfold State.traceRecord
  split
  · exact .refl s
  · dsimp only
    split <;> exact .of_cores (by simp only [State.updCtx_cores, storeBytes_cores])

theorem SlotsKept.comparators (s : State) (x : Iss) (w lit : Word) : SlotsKept s (s.comparators x w lit) :=
  (SlotsKept.foldl (fun s n => s.traceRecord x.ctx (s.issIdentity x false) 1 n 0 w.toNat lit.toNat)
    (fun s _ => traceRecord s _ _ _ _ _ _ _) _ s).trans
    (SlotsKept.foldl (fun s _ => s.updCtx x.ctx fun c => if c.cexctl.getLsbD 0 then { c with cexprog := c.cexprog + 1 } else c)
      (fun _ _ => .of_cores rfl) _ _)

theorem SlotsKept.mapIf (s t : State) {p : Core → Bool} {k : Core → Core} (h : t.cores = Machine.mapIf p k s.cores)
    (hv : ∀ c, (k c).vault = c.vault) (hs : ∀ c, (k c).slots = c.slots) : SlotsKept s t := fun v => by
  simp only [State.core, h]
  rw [mapIf_find? _ _ _ _ (by simp [hv])]
  cases s.cores.find? (fun c => decide (c.vault = v)) with
  | none => rfl
  | some c =>
    simp only [Option.map_some, Option.getD_some]
    split
    · exact hs c
    · rfl

theorem SlotsKept.visit (s : State) (x : Iss) : SlotsKept s (s.visit x) := by
  unfold State.visit
  split
  · exact .refl s
  · split
    · exact .refl s
    · exact .mapIf s _ rfl (fun _ => rfl) fun _ => rfl

theorem SlotsKept.countSkid (s : State) (x : Iss) : SlotsKept s (s.countSkid x) := by
  unfold State.countSkid
  split
  · dsimp only
    refine (SlotsKept.updGroup s x.g fun q =>
      if s.nextReadsLatch x then { q with chain := q.chain + 1 } else { q with skid := q.skid + 1, chain := 0 }).trans ?_
    cases x.g with
    | home wg w gid => exact .of_cores rfl
    | reformed core slot gid => exact .refl _
  · exact .refl s

theorem SlotsKept.switchGroup (s : State) (x : Iss) : SlotsKept s (s.switchGroup x) := by
  unfold State.switchGroup
  dsimp only
  split <;> exact .of_cores (by simp)

theorem SlotsKept.issuedFrom (s : State) (x : Iss) (w lit : Word) : SlotsKept s (issuedFrom s x w lit) :=
  (SlotsKept.comparators s x w lit).trans <| (SlotsKept.visit _ x).trans <| (SlotsKept.countSkid _ x).trans <|
    (SlotsKept.switchGroup _ x).trans <| (SlotsKept.updLanes _ _ _).trans (.of_cores rfl)

/-- A decode reads nothing of the state but the slots. -/
theorem SlotsKept.decodeIn {s t : State} (h : SlotsKept s t) (x : Iss) (w lit : Word) :
    t.decodeIn x w lit = s.decodeIn x w lit := by
  have hof : ∀ core ctx prog, t.slotOf core ctx prog = s.slotOf core ctx prog := fun core ctx prog => by
    simp only [State.slotOf, h core]
  have hent : ∀ core ctx prog, t.slotEntry core ctx prog = s.slotEntry core ctx prog := fun core ctx prog => by
    funext dix
    simp only [State.slotEntry, hof]
  simp only [State.decodeIn, State.slotCause, hof, hent]

theorem slotCause_of_decodeIn {s : State} {x : Iss} {w lit : Word} {i : Instr} (h : s.decodeIn x w lit = .ok i) :
    s.slotCause x (wordDix w).toNat = none := by
  unfold State.decodeIn at h
  split at h
  · cases h
  · assumption

end Sys2Proof.Machine
end

section
/-! SUPPORT. An issue whose word decodes runs that instruction, and what a step does with each kind of action (log 1). -/

namespace Sys2Proof.Machine

theorem issueWord_run {s : State} {x : Iss} {w lit : Word} {i : Instr} (hapart : s.matchesApart x = false)
    (hmatch : s.matches x 1 = []) (hdec : s.decodeIn x w lit = .ok i) :
    s.issueWord x w lit = .run i (issuedFrom s x w lit) s := by
  have h := (SlotsKept.issuedFrom s x w lit).decodeIn x w lit
  rw [hdec] at h
  have h' : (((((s.comparators x w lit).visit x).countSkid x).switchGroup x).updLanes (x.members.map Member.ref)
    fun l => { l with fresh := false }).decodeIn x w lit = .ok i := h
  simp only [State.issueWord, hapart, Bool.false_eq_true, if_false, hmatch, h']
  rfl

/-- The words of an issue are its word and the literal that its template takes (R131, R136). -/
theorem prepareIssue_run {s v : State} {x : Iss} {w lit : Word} {i : Instr} (hv : s.beforeFetch x = .ok v)
    (hapart : v.matchesApart x = false) (hmatch : v.matches x 1 = []) (hw : v.fetchAt x x.pc = .word w)
    (hlit : LiteralAt v x w lit) (hdec : v.decodeIn x w lit = .ok i) :
    s.prepareIssue x = .run i (issuedFrom v x w lit) v := by
  have hrun := issueWord_run hapart hmatch hdec
  have hslot := slotCause_of_decodeIn hdec
  unfold LiteralAt at hlit
  simp only [State.prepareIssue, hv, hw, hslot, Option.isNone_none, Bool.and_true]
  split at hlit
  next h => rw [if_pos h, hlit]; exact hrun
  next h => rw [if_neg h, ← hlit]; exact hrun

theorem readyIssue_run {s t bare : State} {g : GroupRef} {x : Iss} {i : Instr} (hx : s.iss? g = some x)
    (hcan : s.canIssue x = true) (hrun : s.prepareIssue x = .run i t bare) : s.readyIssue g = .run x i t bare := by
  simp only [State.readyIssue, hx, hcan, if_true, hrun]

theorem step_eq (s : State) : step s = andAfter (perform s.nextAction.1 s.nextAction.2) := by
  unfold step andAfter
  cases perform s.nextAction.1 s.nextAction.2 <;> rfl

theorem nextAction_cons {s : State} {a : Action} {rest : List Action} (h : s.agenda = a :: rest) :
    s.nextAction = (a, { s with agenda := rest }) := by
  simp only [State.nextAction, h]

theorem step_cons {s : State} {a : Action} {rest : List Action} (h : s.agenda = a :: rest) :
    step s = andAfter (perform a { s with agenda := rest }) := by
  rw [step_eq, nextAction_cons h]

theorem perform_issue {s t bare : State} {g : GroupRef} {x : Iss} {i : Instr} (h : s.readyIssue g = .run x i t bare) :
    perform (.issue g) s
      = nextWith (fun u => if u.retries x = true then bare.notIssued x u else u.afterIssue x) (exec i t) := by
  simp only [perform, h, nextWith]
  cases exec i t <;> rfl

theorem perform_firmware {s u : State} {n : Nat} {i : Instr} {x : Iss} {q : Group} (hn : n < 8)
    (hm : controlMop (mopOf i) = true) (hu : u = s.withControl n) (hx : u.iss? (controlGroup n) = some x)
    (hq : u.groupOf x.g = some q) (hh : holdIssues q.hold = true)
    (hl : (u.lane? ⟨x.wg, 0, 0⟩).map Lane.issuing = some true) :
    perform (.firmware n i) s = nextWith (fun t => if t.retries x = true then u.notIssued x t else t.afterControl n)
      (exec i { u with cur := .group x.g }) := by
  subst hu
  have hl' : ((s.withControl n).lane? ⟨x.wg, 0, 0⟩).any Lane.issuing = true := by
    cases h : (s.withControl n).lane? ⟨x.wg, 0, 0⟩ <;> simp_all
  have hn' : decide (8 ≤ n) = false := by simpa using hn
  simp only [perform, State.control, hx, hm, hq, hl', hn', Option.any_some, hh, Bool.not_true, Bool.or_false,
    Bool.false_eq_true, if_false, nextWith]
  cases exec i { s.withControl n with cur := .group x.g } <;> rfl

/-- Settles O58: each action of the agenda through what `perform` does with it; of an issue, by the run that its word and
literal make ready, which decodes as before since nothing an issue does before it executes changes a dictionary slot. -/
theorem stepRuns : Obligations.StepRuns := by
  unfold Obligations.StepRuns
  refine ⟨?_, ?_, ?_, ?_, ?_⟩
  · intro s g rest u v x w lit i hag hu hx hcan hv hapart hmatch hw hlit hdec
    subst hu
    rw [step_cons hag, perform_issue (readyIssue_run hx hcan (prepareIssue_run hv hapart hmatch hw hlit hdec))]
  · intro s i rest hag
    rw [step_cons hag]
    rfl
  · intro s u n i rest x q hag hn hm hu hx hq hh hl
    rw [step_cons hag, perform_firmware hn hm hu hx hq hh hl]
  · intro s n rest hag
    rw [step_cons hag]
    rfl
  · intro s hag
    rw [step_eq]
    simp only [State.nextAction, hag]

end Sys2Proof.Machine
end

section
/-! SUPPORT. The workgroup of an admission at its launch, warp by warp and pane by pane (R76, R348). -/

namespace Sys2Proof.Machine

/-- The warp of a role stands at the role's index, at the launch state of the role. -/
theorem make_warp_at {l : Launch} {places : List Place} (hp : places.length = l.header.warpRoles.length) (id linear core sbase : Nat)
    (args : List Byte) (rejected : Nat → Nat) {w n : Nat} {r : Role} (hr : l.header.warpRoles[w]? = some (n, r)) :
    ∃ p, (Workgroup.make l id linear core sbase places args rejected none).warps[w]?
      = some (Warp.atLaunch n r.livemax p r.entry (8 * r.wbase0) r.dictslot (rejected r.dictslot)) := by
  obtain ⟨hw, -⟩ := List.getElem?_eq_some_iff.mp hr
  have hplace : places[w]? = some places[w] := List.getElem?_eq_getElem (hp ▸ hw)
  refine ⟨places[w], ?_⟩
  change (List.map _ (l.header.warpRoles.zip places))[w]? = _
  rw [List.getElem?_map, (List.getElem?_zip_eq_some (z := ((n, r), places[w]))).mpr ⟨hr, hplace⟩]
  rfl

/-- A pane that holds nothing: every element of its tiles, side files and accumulators is 0, and no weights are latched. -/
def PaneState.blank (tiles accs : Nat) : PaneState :=
  ⟨List.replicate tiles [], List.replicate tiles [], List.replicate accs [], none⟩

theorem getD_replicate_nil {w : Nat} (m n : Nat) : (List.replicate m ([] : Cells w)).getD n [] = [] := by
  rw [List.getD_eq_getElem?_getD, List.getElem?_replicate]
  split <;> rfl

theorem blank_reads (tiles accs n i : Nat) :
    Cells.read ((PaneState.blank tiles accs).tile n) i = 0 ∧ Cells.read ((PaneState.blank tiles accs).side n) i = 0
      ∧ Cells.read ((PaneState.blank tiles accs).acc n) i = 0 := by
  simp only [PaneState.blank, PaneState.tile, PaneState.side, PaneState.acc, getD_replicate_nil]
  exact ⟨rfl, rfl, rfl⟩

theorem make_pane (l : Launch) (id linear core sbase : Nat) (places : List Place) (args : List Byte) (rejected : Nat → Nat) {p : Nat}
    (hp : p < 4) : (Workgroup.make l id linear core sbase places args rejected none).panes[p]?
      = some (PaneState.blank l.header.tiles l.header.accs) := by
  change (List.replicate 4 (PaneState.blank l.header.tiles l.header.accs))[p]? = _
  rw [List.getElem?_replicate, if_pos hp]

theorem atLaunch_ureg (role livemax : Nat) (p : Place) (pc : Word) (wbase slot rejected k : Nat) :
    (Warp.atLaunch role livemax p pc wbase slot rejected).ureg k = 0 := by
  change (List.replicate 64 (0 : Word)).getD k 0 = 0
  rw [List.getD_eq_getElem?_getD, List.getElem?_replicate]
  split <;> rfl

theorem atLaunch_pred (pc : Word) (wbase p : Nat) : (Lane.atLaunch pc wbase).preds.getLsbD p = false :=
  BitVec.getLsbD_zero

/-- Settles O49: the workgroup that an admission adds, read role by role and pane by pane. -/
theorem launchState : Obligations.LaunchState := by
  unfold Obligations.LaunchState
  intro s id core sbase places l args hl hlost hflag horigin hwait hdisp hmode hopen hplaces hreads
  obtain ⟨rejected, cores, contexts, pipes, seq, hin⟩ := admitted_frame s l core sbase places args
  refine ⟨_, Workgroup.make l s.seq l.nextWg core sbase places args rejected none,
    (workgroupAdmission_eq hl hlost hflag horigin hwait hdisp hmode hopen hreads).trans (congrArg Host.Outcome.next hin),
    rfl, fun w n r hr => ?_, fun p hp => ?_⟩
  · obtain ⟨p, hv⟩ := make_warp_at hplaces s.seq l.nextWg core sbase args rejected hr
    refine ⟨_, hv, rfl, rfl, rfl, List.length_replicate, fun k _ => atLaunch_ureg _ _ _ _ _ _ _ k, fun k hk => ?_⟩
    rw [List.eq_of_mem_replicate hk]
    exact ⟨rfl, rfl, fun p _ => atLaunch_pred _ _ p, rfl⟩
  · exact ⟨_, make_pane l s.seq l.nextWg core sbase places args rejected hp, rfl, fun n i => blank_reads _ _ n i⟩

end Sys2Proof.Machine
end

section
/-! SUPPORT. The operation of a full round, and the end of the round (R95, R351 to R358). -/

namespace Sys2Proof.Machine

theorem wg?_some_id {s : State} {wg : Nat} {g : Workgroup} (h : s.wg? wg = some g) : g.id = wg := by
  unfold State.wg? at h
  cases hf : s.wgs.find? (fun w => decide (w.id = wg)) with
  | some k =>
    rw [hf] at h
    obtain rfl : k = g := by simpa using h
    simpa using List.find?_some hf
  | none =>
    rw [hf, Option.none_or] at h
    simpa using List.find?_some h

theorem conv?_updConv (s : State) (wg j : Nat) (k : ConvReg → ConvReg) :
    (s.updConv wg j k).conv? wg j = (s.conv? wg j).map k := by
  have hg : (s.updConv wg j k).wg? wg = (s.wg? wg).map fun g => { g with jregs := mapNth g.jregs j k } := by
    rw [State.updConv, State.wg?_updWg, if_pos rfl]
    exact fun _ => rfl
  rw [State.conv?, State.conv?, hg]
  cases s.wg? wg <;> simp

theorem conv?_updPanes (s : State) (wg j : Nat) (k : Workgroup → List PaneState) :
    (s.updWg wg fun g => { g with panes := k g }).conv? wg j = s.conv? wg j := by
  rw [State.conv?, State.conv?, State.wg?_updWg, if_pos rfl]
  · cases s.wg? wg <;> rfl
  · exact fun _ => rfl

/-- The operation of a round that is ready runs. -/
theorem roundReady_tryRound {s t : State} {wg j : Nat} {g : Workgroup} {c : ConvReg} {f : Form} (h : RoundReady s wg j g c f)
    (hop : roundOp f g j c s = .done t) :
    s.tryRound wg j = t.updConv wg j fun c => { c with ran := true, stopped := false } := by
  have hwaits : ((c.lanes wg).all fun r => (s.waitsOf r).any fun w => w.2 = .signed j && (!c.stopped || !s.held w.1)) = true := by
    refine List.all_eq_true.mpr fun r hr => ?_
    obtain ⟨w, hw, hsigned, hgoes⟩ := h.waiting r hr
    refine List.any_eq_true.mpr ⟨w, hw, ?_⟩
    rcases hgoes with hc | hs <;> simp [*]
  simp only [State.tryRound, h.group, h.reg, h.round, hwaits, h.full, h.notRun, h.present, h.free, hop, decide_false, Bool.or_self,
    Bool.not_true, Bool.false_eq_true, if_false]

theorem tryRound_ran {s : State} {wg j : Nat} {c : ConvReg} (hc : s.conv? wg j = some c) (hran : c.ran = true) :
    s.tryRound wg j = s := by
  unfold State.tryRound
  rw [hc]
  cases s.wg? wg with
  | none => rfl
  | some g =>
    dsimp only
    cases c.round with
    | none => rfl
    | some f => simp [hran]

/-- A round whose operation has run is over once its lanes are quiet. -/
theorem convergenceOpComplete_eq {s t : State} {wg j : Nat} {c : ConvReg} (ht : s.tryRound wg j = t)
    (hc : t.conv? wg j = some c) (hfull : c.filled ≠ 0) (hran : c.ran = true) :
    exec (.convergenceOpComplete wg j) s
      = .next (if (c.lanes wg).all (fun r => t.quiet r false) then t.completeRound wg j else t) := by
  change execConvergenceOpComplete wg j s = _
  have hfull : (c.filled != 0) = true := by simpa using hfull
  simp only [execConvergenceOpComplete, ht, hc, hfull, hran, Bool.true_and]

/-- An operation that changes only panes completes its round at once. -/
theorem roundReady_completes {s : State} {wg j : Nat} {g : Workgroup} {c : ConvReg} {f : Form} (h : RoundReady s wg j g c f)
    (k : Workgroup → List PaneState) (hop : roundOp f g j c s = .done (s.updWg wg fun g => { g with panes := k g })) :
    exec (.convergenceOpComplete wg j) s
      = .next (((s.updWg wg fun g => { g with panes := k g }).updConv wg j
          fun c => { c with ran := true, stopped := false }).completeRound wg j) := by
  have hc : ((s.updWg wg fun g => { g with panes := k g }).updConv wg j fun c => { c with ran := true, stopped := false }).conv? wg j
      = some { c with ran := true, stopped := false } := by rw [conv?_updConv, conv?_updPanes, h.reg]; rfl
  rw [convergenceOpComplete_eq (roundReady_tryRound h hop) hc h.full rfl, if_pos]
  exact List.all_eq_true.mpr h.quiet

theorem wloadOp_done {f : Form} {g : Workgroup} {j : Nat} {c : ConvReg} {s : State} {w : Weights}
    (hpanes : ∀ p, p < 4 → p ∈ c.signers.filterMap fun q => (g.warps[q.1]?).map Warp.pane)
    (hw : wloadWeights f.ty g.panes (slotNum f f.a) = some w) :
    wloadOp f g j c s
      = .done (s.updWg g.id fun g => { g with panes := g.panes.map fun p : PaneState => { p with weights := some w } }) := by
  have hall : [0, 1, 2, 3].all (c.signers.filterMap fun p => (g.warps[p.1]?).map Warp.pane).eraseDups.contains = true := by
    refine List.all_eq_true.mpr fun p hp => ?_
    rw [List.contains_iff_mem, List.mem_eraseDups]
    refine hpanes p ?_
    fin_cases hp <;> decide
  simp only [wloadOp, hall, hw, Bool.not_true, Bool.false_eq_true, if_false]

theorem mmaOp_done {f : Form} {g : Workgroup} {j : Nat} {c : ConvReg} {s : State}
    (hpanes : ∀ n ∈ c.panes g, ∀ p, g.panes[n]? = some p → formatsMatch f.ty p.weights = true
      ∧ (f.ty = .oz8x4 → ∀ e ∈ p.side (slotNum f f.a), e.2 ≠ 255)) :
    mmaOp f g j c s = .done (s.updWg g.id fun h => { h with panes := accumulated f (c.panes g) h.panes }) := by
  have hformats : ((c.panes g).filterMap fun n => g.panes[n]?).all (fun p => formatsMatch f.ty p.weights) = true := by
    refine List.all_eq_true.mpr fun p hp => ?_
    obtain ⟨n, hn, hp⟩ := List.mem_filterMap.mp hp
    exact (hpanes n hn p hp).1
  have hscales : (decide (f.ty = .oz8x4)
      && ((c.panes g).filterMap fun n => g.panes[n]?).any fun p => (p.side (slotNum f f.a)).any fun e => e.2 = 255) = false := by
    by_cases hty : f.ty = .oz8x4
    · simp only [hty, decide_true, Bool.true_and, List.any_eq_false, List.any_eq_true, decide_eq_true_eq, not_exists, not_and]
      intro p hp e he
      obtain ⟨n, hn, hp⟩ := List.mem_filterMap.mp hp
      exact (hpanes n hn p hp).2 hty e he
    · simp [hty]
  simp only [mmaOp, hformats, hscales, Bool.not_true, Bool.false_eq_true, if_false, accumulated, List.contains_iff_mem]

/-- Settles O24: the operation of a ready round changes only the panes, so its round completes at once; an operation that has
run is not tried again. -/
theorem rounds : Obligations.Rounds := by
  unfold Obligations.Rounds
  refine ⟨?_, ?_, ?_⟩
  · intro s wg j g c f w h hmop hpanes hw
    refine roundReady_completes h _ ?_
    simp only [roundOp, hmop]
    rw [wloadOp_done hpanes hw, wg?_some_id h.group]
  · intro s wg j g c f h hmop hpanes
    refine roundReady_completes h _ ?_
    simp only [roundOp, hmop]
    rw [mmaOp_done hpanes, wg?_some_id h.group]
  · intro s wg j c hc hfull hran
    exact convergenceOpComplete_eq (tryRound_ran hc hran) hc hfull hran

end Sys2Proof.Machine
end

section
/-! SUPPORT. Once-per-issue instructions that are ready, and the rings of issue groups: what a hold, a move of lanes and a move
of the scheduler's entry make of them (R78 to R81, R306). -/

namespace Sys2Proof.Machine

/-! ### Changes that change nothing -/

theorem mapNth_eq_self {α : Type} {l : List α} {n : Nat} {k : α → α} (h : ∀ c, l[n]? = some c → k c = c) : mapNth l n k = l := by
  refine List.ext_getElem? fun i => ?_
  rw [mapNth_getElem?]
  split
  next hi =>
    subst hi
    cases hl : l[i]? with
    | none => rfl
    | some c => exact congrArg some (h c hl)
  next => rfl

theorem mapIf_eq_self {α : Type} (p : α → Bool) {k : α → α} (h : ∀ c, k c = c) (l : List α) : mapIf p k l = l := by
  unfold mapIf
  refine (List.map_congr_left fun c _ => ?_).trans (List.map_id l)
  split
  · exact h c
  · rfl

theorem updLane_self {k : Lane → Lane} (h : ∀ l, k l = l) (s : State) (r : LaneRef) : s.updLane r k = s := by
  have hwarp : ∀ w : Warp, { w with lanes := mapNth w.lanes r.lane k } = w := fun w => by
    rw [mapNth_eq_self fun c _ => h c]
  have hwg : ∀ g : Workgroup, { g with warps := mapNth g.warps r.warp fun w => { w with lanes := mapNth w.lanes r.lane k } } = g :=
    fun g => by rw [mapNth_eq_self fun c _ => hwarp c]
  unfold State.updLane State.updWarp State.updWg
  rw [mapIf_eq_self _ hwg, mapIf_eq_self _ hwg]

/-! ### An instruction that names no vector register (R92) -/

theorem slotRegs_of_not_vector {f : Form} {sl : Slot} (h : sl.cls ≠ .vector) (wbase : Nat) (o : Opnd) :
    slotRegs f wbase sl o = [] := by
  simp [slotRegs, h]

theorem classOk_not_vector {f : Form} {g : Sig} {isD : Bool} {sl : Slot} {o : Opnd} (h : classOk f g isD sl o = true)
    (ho : Cls.vector ∉ o.cls) : sl.cls ≠ .vector := by
  rintro hv
  simp only [classOk, hv, Bool.and_eq_true, List.contains_iff_mem] at h
  exact ho h.1

/-- The slots of an instruction that decodes are of the classes of its row (R134). -/
theorem decodeFault_classOk {i : Instr} {f : Form} {lim : Limits} (h : decodeFault i f lim = none) :
    classOk f (sigOf i f) true f.d (sigOf i f).d = true ∧ classOk f (sigOf i f) false f.a (sigOf i f).a = true
      ∧ classOk f (sigOf i f) false f.b (sigOf i f).b = true ∧ classOk f (sigOf i f) false f.c (sigOf i f).c = true := by
  have hall : ∀ ok, faultUnless .illClass ok ∈ [faultUnless .illClass (classOk f (sigOf i f) true f.d (sigOf i f).d),
      faultUnless .illClass (classOk f (sigOf i f) false f.a (sigOf i f).a), faultUnless .illClass (classOk f (sigOf i f) false f.b (sigOf i f).b),
      faultUnless .illClass (classOk f (sigOf i f) false f.c (sigOf i f).c)] → ok = true := by
    intro ok hok
    have hnone : faultUnless .illClass ok = none := by
      refine firstFault_eq_none.mp h _ ?_
      simp only [List.mem_cons, List.not_mem_nil, or_false] at hok ⊢
      rcases hok with hok | hok | hok | hok <;> simp [hok]
    cases ok with
    | true => rfl
    | false => cases hnone
  exact ⟨hall _ (by simp), hall _ (by simp), hall _ (by simp), hall _ (by simp)⟩

/-- Of an instruction whose row has no vector slot, no lane lacks a register. -/
theorem CanIssue.outside_nil {i : Instr} {f : Form} {forbidden : Bool} {s : State} {x : Iss} (h : CanIssue i f forbidden s x)
    (hd : Cls.vector ∉ (sigOf i f).d.cls) (ha : Cls.vector ∉ (sigOf i f).a.cls) (hb : Cls.vector ∉ (sigOf i f).b.cls)
    (hc : Cls.vector ∉ (sigOf i f).c.cls) : (s.reads x f (sigOf i f)).outside = [] := by
  obtain ⟨kd, ka, kb, kc⟩ := decodeFault_classOk h.decodes
  unfold State.reads Env.within
  split
  · rfl
  · simp [srcRegs, dstRegs, slotRegs_of_not_vector (classOk_not_vector kd hd), slotRegs_of_not_vector (classOk_not_vector ka ha),
      slotRegs_of_not_vector (classOk_not_vector kb hb), slotRegs_of_not_vector (classOk_not_vector kc hc)]

theorem absent_not_vector : Cls.vector ∉ Operand.absent.cls := by decide
theorem uni32_not_vector : Cls.vector ∉ Operand.uni32.cls := by decide
theorem uniImm32_not_vector : Cls.vector ∉ Operand.uniImm32.cls := by decide

/-! ### A once-per-issue instruction that is ready -/

theorem onceStep_canIssue {i : Instr} {f : Form} {forbidden : Bool} {s : State} {x : Iss} (h : CanIssue i f forbidden s x)
    (hact : s.actives x f ≠ []) (hout : (s.reads x f (sigOf i f)).outside = []) (k : Iss → Env → Sig → List Act → State → State)
    (idle : Iss → Sig → State → State) :
    onceStep i f forbidden k s idle = .next (k x (s.reads x f (sigOf i f)) (sigOf i f) (s.actives x f) s) := by
  simp only [onceStep, front_canIssue h, hact, hout, if_false]

theorem reads_once (s : State) (x : Iss) (f : Form) (g : Sig) (act : List Act) (sl : Slot) (o : Opnd) :
    (s.reads x f g).once x f act sl o = (s.env x).once x f act sl o := by
  simp only [Env.once, State.reads_slot]

/-! ### The end of an issue without faults -/

theorem EndsPlain.movesOnly {x : Iss} {f : Form} {s t : State} (h : EndsPlain x f s t) : MovesOnly x f s t where
  moved m hm := by rw [h.lanes, if_pos (List.mem_map_of_mem hm)]
  map reg pos := by rw [State.readReg, State.readReg, h.map]
  warps wg w := by
    have hkeep := h.warps (fun v : Warp => { v with lanes := [], ring := [] }) (fun _ _ => rfl) (fun _ _ => rfl) wg w
    cases ht : t.warp? wg w with
    | none =>
      rw [ht] at hkeep
      cases hs : s.warp? wg w with
      | none => rfl
      | some v => rw [hs] at hkeep; cases hkeep
    | some u =>
      rw [ht] at hkeep
      cases hs : s.warp? wg w with
      | none => rw [hs] at hkeep; cases hkeep
      | some v =>
        rw [hs] at hkeep
        have hu : ({ u with lanes := [], ring := [] } : Warp) = { v with lanes := [], ring := [] } := Option.some.inj hkeep
        have hback := congrArg (fun k : Warp => ({ k with lanes := u.lanes, ring := u.ring } : Warp)) hu
        exact congrArg some hback
  latches := h.pipes
  rest := h.frame

/-- The states differ in their workgroups, their cores and the model's counter alone. -/
def GroupsOnly (s t : State) : Prop :=
  ∃ wgs ctl cores seq, t = { s with wgs := wgs, ctl := ctl, cores := cores, seq := seq }

theorem GroupsOnly.trans {s t u : State} (h : GroupsOnly s t) (k : GroupsOnly t u) : GroupsOnly s u := by
  obtain ⟨_, _, _, _, rfl⟩ := h
  obtain ⟨_, _, _, _, rfl⟩ := k
  exact ⟨_, _, _, _, rfl⟩

theorem GroupsOnly.updLanes (s : State) (rs : List LaneRef) (k : Lane → Lane) : GroupsOnly s (s.updLanes rs k) := by
  obtain ⟨wgs, ctl, h⟩ := updLanes_frame rs k s
  exact ⟨wgs, ctl, s.cores, s.seq, h⟩

theorem EndsPlain.groupsOnly {x : Iss} {f : Form} {s t : State} (h : EndsPlain x f s t) : GroupsOnly s t := by
  obtain ⟨wgs, ctl, cores, pipes, rfl⟩ := h.frame.package
  obtain rfl : pipes = s.pipes := h.pipes
  exact ⟨wgs, ctl, cores, s.seq, rfl⟩

/-! ### The lanes of an issue -/

theorem moveLanes_frame (x : Iss) (s : State) (rs : List LaneRef) (pc : Word) (h : ∀ r ∈ rs, r ∈ x.members.map Member.ref) :
    RegisterFrame x s (s.moveLanes rs pc) := s.updLanes_frame x rs _ h

theorem actives_ref_mem {s : State} {x : Iss} {f : Form} (ok : IssueOk s x) {m : Member} (hm : m ∈ x.members) :
    m.ref ∈ (s.actives x f).map (fun a => a.m.ref) ↔ m ∈ (s.actives x f).map Act.m := by
  constructor
  · intro h
    obtain ⟨a, ha, he⟩ := List.mem_map.mp h
    obtain rfl : a.m = m := List.inj_on_of_nodup_map ok.lanes (mem_actives ha).1 hm he
    exact List.mem_map_of_mem ha
  · intro h
    obtain ⟨a, ha, rfl⟩ := List.mem_map.mp h
    exact List.mem_map_of_mem (f := fun a : Act => a.m.ref) ha

/-! ### Regrouping: a hold, and a move of the scheduler's entry -/

theorem Regroups.refl (x : Iss) (s : State) : Regroups x s s := by
  refine ⟨⟨s.wgs, s.ctl, s.cores, s.seq, rfl⟩, fun _ => rfl, fun id => ?_, fun wg w => ?_, fun _ => rfl⟩
  · cases s.wg? id <;> rfl
  · cases s.warp? wg w <;> rfl

theorem Regroups.groupsOnly {x : Iss} {s t : State} (h : Regroups x s t) : GroupsOnly s t := h.package

theorem Regroups.updWarp (x : Iss) (s : State) (wg w : Nat) (k : Warp → Warp)
    (hk : ∀ v, k v = { v with ring := (k v).ring, current := (k v).current }) : Regroups x s (s.updWarp wg w k) := by
  refine ⟨⟨_, _, _, _, rfl⟩, fun r => ?_, fun id => ?_, fun a b => ?_, fun _ => rfl⟩
  · exact s.lane?_updWarp wg w k r fun v => by rw [hk]
  · rw [State.wg?_updWarp]
    split <;> cases s.wg? id <;> rfl
  · rw [State.warp?_updWarp]
    split
    · cases s.warp? a b with
      | none => rfl
      | some v => exact congrArg some (hk v)
    · cases s.warp? a b <;> rfl

theorem Regroups.updGroup (x : Iss) (s : State) (g : GroupRef) (k : Group → Group) : Regroups x s (s.updGroup g k) := by
  cases g with
  | home wg w gid => exact .updWarp x s wg w _ fun _ => rfl
  | reformed core slot gid => exact .updCore x s core _ fun _ => rfl

theorem Regroups.settleReformed (x : Iss) (s : State) (core slot : Nat) : Regroups x s (s.settleReformed core slot) :=
  .updCore x s core _ fun _ => rfl

/-- A move of the entry changes nothing of a warp but which group is current, and of a reformed group the turn of its ring. -/
theorem Regroups.rotate (x : Iss) (s : State) (g : GroupRef) : Regroups x s (s.rotate g) := by
  cases g with
  | home wg w gid =>
    refine .updWarp x s wg w _ fun v => ?_
    split <;> rfl
  | reformed core slot gid => exact (Regroups.updCore x s core _ fun _ => rfl).trans (.settleReformed x _ core slot)

theorem Regroups.settleAt (x : Iss) (s : State) (g : GroupRef) : Regroups x s (s.settleAt g) := by
  cases g with
  | home wg w gid => exact .updWarp x s wg w _ fun v => by rw [Warp.settle_rest]
  | reformed core slot gid => exact .settleReformed x s core slot

/-! ### The ring of a group -/

/-- The number of a group in its ring. -/
def gidOf : GroupRef → Nat
  | .home _ _ gid => gid
  | .reformed _ _ gid => gid

/-- The ring a group stands in. -/
def State.ringOf (s : State) : GroupRef → List Group
  | .home wg w _ => ((s.warp? wg w).map Warp.ring).getD []
  | .reformed core slot _ => (((s.core core).groups.find? fun r => r.slot = slot).map Reformed.groups).getD []

theorem groupOf_eq (s : State) (g : GroupRef) : s.groupOf g = (s.ringOf g).find? fun q => q.gid = gidOf g := by
  cases g with
  | home wg w gid =>
    simp only [State.groupOf, State.ringOf, gidOf]
    cases s.warp? wg w <;> rfl
  | reformed core slot gid =>
    simp only [State.groupOf, State.ringOf, gidOf]
    cases (s.core core).groups.find? fun r => r.slot = slot <;> rfl

/-- The group of an issue stands in its ring. -/
theorem CanIssue.inRing {i : Instr} {f : Form} {forbidden : Bool} {s : State} {x : Iss} (h : CanIssue i f forbidden s x) :
    ∃ q ∈ s.ringOf x.g, q.gid = gidOf x.g := by
  have hc := h.cur
  have h := h.issue
  unfold State.curIss? at h
  rw [hc] at h
  simp only at h
  suffices hq : ∃ q, s.groupOf x.g = some q by
    obtain ⟨q, hq⟩ := hq
    rw [groupOf_eq] at hq
    exact ⟨q, List.mem_of_find?_eq_some hq, by simpa using List.find?_some hq⟩
  generalize x.g = g at h
  cases g with
  | home wg w gid =>
    simp only [State.iss?, Option.bind_eq_bind, Option.bind_eq_some_iff, Option.some.injEq] at h
    obtain ⟨a, ha, b, hb, q, hq, _⟩ := h
    exact ⟨q, by simp [State.groupOf, State.warp?, ha, hb, hq]⟩
  | reformed core slot gid =>
    simp only [State.iss?, Option.bind_eq_bind, Option.bind_eq_some_iff, Option.some.injEq] at h
    obtain ⟨r, hr, q, hq, _⟩ := h
    exact ⟨q, by simp [State.groupOf, hr, hq]⟩

/-- Where every group of a number is held alike, the group of that number is. -/
theorem holdOf_of_ring {s : State} {g : GroupRef} {h : Hold} (hin : ∃ q ∈ s.ringOf g, q.gid = gidOf g)
    (hall : ∀ q ∈ s.ringOf g, q.gid = gidOf g → q.hold = some h) : s.holdOf g = some h := by
  rw [State.holdOf, groupOf_eq]
  cases hf : (s.ringOf g).find? fun q => q.gid = gidOf g with
  | none =>
    obtain ⟨q, hq, hg⟩ := hin
    exact absurd (by simpa using hg) (List.find?_eq_none.mp hf q hq)
  | some q => exact hall q (List.mem_of_find?_eq_some hf) (by simpa using List.find?_some hf)

/-- A change of the reformed groups of a slot that keeps their slot. -/
theorem find?_updSlot (s : State) (core slot : Nat) (k : Reformed → Reformed) (hk : ∀ r, (k r).slot = r.slot) :
    (((s.updCore core fun c => { c with groups := mapIf (fun r => r.slot = slot) k c.groups }).core core).groups.find?
      fun r => r.slot = slot) = ((s.core core).groups.find? fun r => r.slot = slot).map k := by
  rw [State.core_updCore, if_pos rfl]
  rotate_left
  · exact fun _ => rfl
  dsimp only
  rw [mapIf_find? _ _ _ _ (by simp [hk])]
  cases hf : (s.core core).groups.find? (fun r => decide (r.slot = slot)) with
  | none => rfl
  | some r =>
    have hr : r.slot = slot := by simpa using List.find?_some hf
    simp [hr]

theorem ringOf_setHold (s : State) (g : GroupRef) (h : Option Hold) :
    (s.setHold g h).ringOf g = mapIf (fun q => q.gid = gidOf g) (fun q => { q with hold := h }) (s.ringOf g) := by
  cases g with
  | home wg w gid =>
    simp only [State.ringOf, State.setHold, State.updGroup, State.warp?_updWarp, and_self, if_true, gidOf]
    cases s.warp? wg w <;> rfl
  | reformed core slot gid =>
    simp only [State.ringOf, State.setHold, State.updGroup, gidOf]
    rw [find?_updSlot]
    rotate_left
    · exact fun _ => rfl
    cases (s.core core).groups.find? fun r => r.slot = slot <;> rfl

theorem mem_turnRing (waits : Group → Bool) (gs : List Group) (q : Group) : q ∈ turnRing waits gs ↔ q ∈ gs := by
  unfold turnRing
  split
  next n hn =>
    rw [List.mem_append, or_comm, ← List.mem_append, List.take_append_drop]
  · rfl

theorem mem_ringOf_settleReformed (s : State) (core slot gid : Nat) (q : Group) :
    q ∈ (s.settleReformed core slot).ringOf (.reformed core slot gid) ↔ q ∈ s.ringOf (.reformed core slot gid) := by
  simp only [State.ringOf, State.settleReformed]
  rw [find?_updSlot]
  rotate_left
  · exact fun _ => rfl
  cases (s.core core).groups.find? fun r => r.slot = slot with
  | none => rfl
  | some r => exact mem_turnRing _ _ q

/-- A move of the entry keeps the groups of the ring. -/
theorem mem_ringOf_rotate (s : State) (g : GroupRef) (q : Group) : q ∈ (s.rotate g).ringOf g ↔ q ∈ s.ringOf g := by
  cases g with
  | home wg w gid =>
    simp only [State.ringOf, State.rotate, State.warp?_updWarp, and_self, if_true]
    cases s.warp? wg w with
    | none => rfl
    | some v =>
      simp only [Option.map_some, Option.getD_some]
      split <;> rfl
  | reformed core slot gid =>
    rw [State.rotate, mem_ringOf_settleReformed]
    simp only [State.ringOf]
    rw [find?_updSlot]
    rotate_left
    · intro r
      split <;> rfl
    cases (s.core core).groups.find? fun r => r.slot = slot with
    | none => rfl
    | some r =>
      simp only [Option.map_some, Option.getD_some]
      split
      · rw [List.mem_append, or_comm, ← List.mem_append, List.take_append_drop]
      · rfl

theorem updLanes_clock (s : State) (rs : List LaneRef) (k : Lane → Lane) : (s.updLanes rs k).clock = s.clock := by
  obtain ⟨wgs, ctl, h⟩ := updLanes_frame rs k s
  rw [h]

theorem ringOf_updLanes (s : State) (rs : List LaneRef) (k : Lane → Lane) (g : GroupRef) :
    (s.updLanes rs k).ringOf g = s.ringOf g := by
  cases g with
  | home wg w gid => exact congrArg (Option.getD · []) (s.updLanes_warp rs k Warp.ring (fun _ _ => rfl) wg w)
  | reformed core slot gid =>
    obtain ⟨wgs, ctl, h⟩ := updLanes_frame rs k s
    rw [h]
    rfl

/-- A group that is held and gives way stands with its hold. -/
theorem holdOf_rotate_setHold {s : State} {g : GroupRef} (hin : ∃ q ∈ s.ringOf g, q.gid = gidOf g) (h : Hold) :
    ((s.setHold g (some h)).rotate g).holdOf g = some h := by
  have hmem : ∀ q, q ∈ ((s.setHold g (some h)).rotate g).ringOf g
      ↔ q ∈ mapIf (fun q => q.gid = gidOf g) (fun q => { q with hold := some h }) (s.ringOf g) := fun q => by
    rw [mem_ringOf_rotate, ringOf_setHold]
  refine holdOf_of_ring ?_ fun q hq hg => ?_
  · obtain ⟨q, hq, hg⟩ := hin
    exact ⟨{ q with hold := some h }, (hmem _).mpr (List.mem_map.mpr ⟨q, hq, by simp [hg]⟩), hg⟩
  · obtain ⟨p, -, rfl⟩ := List.mem_map.mp ((hmem q).mp hq)
    by_cases hp : p.gid = gidOf g
    · simp [hp]
    · simp [hp] at hg

end Sys2Proof.Machine
end

section
/-! SUPPORT. WAITC and SLEEP: a wait that is over goes on, and one that is not holds its group (R81, R329, R330). -/

namespace Sys2Proof.Machine

theorem waitc_outside {f : Form} {s : State} {x : Iss} (h : CanIssue (.waitc f) f false s x) :
    (s.reads x f (sigOf (.waitc f) f)).outside = [] :=
  h.outside_nil absent_not_vector uni32_not_vector absent_not_vector absent_not_vector

theorem sleep_outside {f : Form} {s : State} {x : Iss} (h : CanIssue (.sleep f) f false s x) :
    (s.reads x f (sigOf (.sleep f) f)).outside = [] :=
  h.outside_nil absent_not_vector uniImm32_not_vector absent_not_vector absent_not_vector

theorem waitc_over : OnceCompletes .waitc false
    (fun s f x => ∃ v, s.warp? x.wg x.warp = some v ∧ v.ureg (slotNum f f.a) = 0) (fun s _ _ => s) := by
  intro f s x hc hact hout hgiven
  obtain ⟨v, hv, hzero⟩ := hgiven
  refine ⟨_, ?_, (s.endIssue_plain x f).movesOnly⟩
  change execWaitc f s = _
  rw [execWaitc, onceStep_canIssue hc hact hout, hv]
  simp only [hzero, cregCount, waitcCause]
  rfl

theorem waitc_holds {f : Form} {s : State} {x : Iss} {v : Warp} (hc : CanIssue (.waitc f) f false s x) (hact : s.actives x f ≠ [])
    (hv : s.warp? x.wg x.warp = some v) (hcount : cregCount (v.ureg (slotNum f f.a)) ≠ 0) :
    exec (.waitc f) s = .next ((s.setHold x.g
      (some (.waitc (slotNum f f.a) (nextPc f x.pc) ((s.actives x f).map fun a => a.m.pos)))).settleAt x.g) := by
  change execWaitc f s = _
  rw [execWaitc, onceStep_canIssue hc hact (waitc_outside hc), hv]
  simp only [hcount, if_false]

/-- The state in which SLEEP of `n` holds its group, before the entry moves on. -/
def State.asleep (s : State) (x : Iss) (f : Form) (n : Nat) : State :=
  (s.updLanes (x.members.map Member.ref) fun l => { l with npc := nextPc f x.pc }).setHold x.g (some (.sleep (s.clock + n)))

theorem sleep_eq {f : Form} {s : State} {x : Iss} (hc : CanIssue (.sleep f) f false s x) (hact : s.actives x f ≠ []) :
    exec (.sleep f) s = .next (if (s.onceValue x f f.a (sigOf (.sleep f) f).a).toNat = 0 then (s.endIssue x f []).rotate x.g
      else (s.asleep x f (s.onceValue x f f.a (sigOf (.sleep f) f).a).toNat).rotate x.g) := by
  change execSleep f s = _
  rw [execSleep, onceStep_canIssue hc hact (sleep_outside hc)]
  simp only [reads_once, State.onceValue, State.asleep, updLanes_clock]
  rfl

theorem asleep_lane? (s : State) (x : Iss) (f : Form) (n : Nat) (r : LaneRef) : (s.asleep x f n).lane? r
    = if r ∈ x.members.map Member.ref then (s.lane? r).map (fun l => { l with npc := nextPc f x.pc }) else s.lane? r := by
  rw [State.asleep, State.setHold_lane?, State.lane?_updLanes]
  exact fun _ => rfl

theorem asleep_groupsOnly (s : State) (x : Iss) (f : Form) (n : Nat) : GroupsOnly s (s.asleep x f n) :=
  (GroupsOnly.updLanes s _ _).trans (Regroups.updGroup x _ x.g _).groupsOnly

/-- Settles O11: WAITC and SLEEP name no register that a lane could lack, so they act once for their issue; a wait that is over is
the plain end of the issue, and the hold of one that is not stays with the group when the entry moves on. -/
theorem waits : Obligations.Waits := by
  unfold Obligations.Waits
  refine ⟨waitc_over, fun f s x hc hact v hv hcount => waitc_holds hc hact hv hcount, fun f s x hc hact => ⟨fun hzero => ?_, ?_⟩⟩
  · have hplain := s.endIssue_plain x f
    have hturn := Regroups.rotate x (s.endIssue x f []) x.g
    refine ⟨(s.endIssue x f []).rotate x.g, (sleep_eq hc hact).trans (by rw [hzero]; rfl), fun m hm => ?_, ?_⟩
    · rw [hturn.lanes]
      exact hplain.movesOnly.moved m hm
    · exact hplain.groupsOnly.trans hturn.groupsOnly
  · rintro n hn rfl
    have hturn := Regroups.rotate x (s.asleep x f (s.onceValue x f f.a (sigOf (.sleep f) f).a).toNat) x.g
    refine ⟨(s.asleep x f (s.onceValue x f f.a (sigOf (.sleep f) f).a).toNat).rotate x.g,
      (sleep_eq hc hact).trans (by rw [if_neg hn]), ?_, fun m hm => ?_, ?_⟩
    · refine holdOf_rotate_setHold ?_ _
      rw [ringOf_updLanes]
      exact hc.inRing
    · rw [hturn.lanes, asleep_lane?, if_pos (List.mem_map_of_mem hm)]
    · exact (asleep_groupsOnly s x f _).trans hturn.groupsOnly

end Sys2Proof.Machine
end

section
/-! SUPPORT. JOIN: its lanes go on or wait as each finds, and the entry then moves on from the group (R81, R87, R318). -/

namespace Sys2Proof.Machine

theorem rowsOf_settleReformed (s : State) (x : Iss) {core slot gid : Nat} (hg : x.g = .reformed core slot gid) :
    (s.settleReformed core slot).rowsOf x = s.rowsOf x := by
  simp only [State.rowsOf, hg, State.settleReformed]
  rw [find?_updSlot]
  rotate_left
  · exact fun _ => rfl
  cases (s.core core).groups.find? fun r => r.slot = slot <;> rfl

/-- A move of the entry keeps the map of the issue. -/
theorem rowsOf_rotate (s : State) (x : Iss) : (s.rotate x.g).rowsOf x = s.rowsOf x := by
  cases hg : x.g with
  | home wg w gid =>
    refine s.rowsOf_updWarp x wg w _ fun v => ?_
    split <;> rfl
  | reformed core slot gid =>
    rw [State.rotate, rowsOf_settleReformed _ x hg]
    simp only [State.rowsOf, hg]
    rw [find?_updSlot]
    rotate_left
    · intro r
      split <;> rfl
    cases (s.core core).groups.find? fun r => r.slot = slot with
    | none => rfl
    | some r =>
      simp only [Option.map_some, Option.getD_some]
      split <;> rfl

/-- Regrouping that keeps the map of the issue stays within the frame of a control instruction. -/
theorem ControlFrame.regroups {x : Iss} {f : Form} {g : Sig} {s t u : State} (h : ControlFrame x f g s t) (k : Regroups x t u)
    (hrows : u.rowsOf x = t.rowsOf x) : ControlFrame x f g s u where
  package := GroupsOnly.trans h.package k.package
  memory a := by
    obtain ⟨_, _, _, _, rfl⟩ := k.package
    exact h.memory a
  workgroups id := by
    have h1 := h.workgroups id
    have h2 := k.workgroups id
    cases hs : s.wg? id with
    | none =>
      rw [hs] at h1
      rw [h1] at h2
      exact h2
    | some v =>
      rw [hs] at h1
      rw [h1] at h2
      rw [h2]
      rfl
  warps wg w := by
    have h1 := h.warps wg w
    have h2 := k.warps wg w
    cases hs : s.warp? wg w with
    | none =>
      rw [hs] at h1
      rw [h1] at h2
      exact h2
    | some v =>
      rw [hs] at h1
      rw [h1] at h2
      rw [h2]
      rfl
  cores v := by rw [k.cores v, h.cores v]
  lanes r hr := (k.lanes r).trans (h.lanes r hr)
  maps wg w hw := by
    rw [← h.maps wg w hw, k.warps wg w, Option.map_map]
    rfl
  map reg pos := by
    rw [State.readReg, hrows]
    exact h.map reg pos

/-- What JOIN makes of an active lane (R87). -/
def joined (f : Form) (x : Iss) (a : Act) (args : Args) (l : Lane) : Lane :=
  if a.lane.pass = some x.pc then { l with pass := none, pc := nextPc f x.pc }
  else { l with st := .waiting (.join (args.a.extractLsb' 0 32) (slotNum f f.a)), npc := nextPc f x.pc }

theorem joinLane_eq (f : Form) (x : Iss) (a : Act) (args : Args) (u : State) :
    joinLane f x a args u = (u.updLane a.m.ref (joined f x a args), .ok) := by
  unfold joinLane joined
  dsimp only
  split <;> rfl

theorem joined_grouped (f : Form) (x : Iss) (a : Act) (args : Args) (l : Lane) (h : l.st = .issuing) :
    (joined f x a args l).grouped = true := by
  unfold joined
  split
  · simp only [Lane.grouped, h]
  · rfl

/-- Settles O7: each active lane of the one body becomes what `joined` says, and the move of the entry that follows keeps lanes,
maps and frame. -/
theorem joins : Obligations.Joins := by
  unfold Obligations.Joins
  intro f s x hc ok hact hargs
  obtain ⟨t, hbody, hlanes, hidle, hframe⟩ := State.laneBody_spec .none noWait (joinLane f x) (joined f x) hc ok
    (fun a args l hl => joined_grouped f x a args l hl) fun a ha => by
      obtain ⟨args, hargs, -⟩ := hargs a ha
      exact ⟨args, hargs, rfl, fun u _ => joinLane_eq f x a args u⟩
  have hturn := Regroups.rotate x t x.g
  refine ⟨t.rotate x.g, ?_, fun a ha args hargs => ?_, fun m hm hidle' => ?_, hframe.regroups hturn (rowsOf_rotate t x)⟩
  · change execJoin f s = _
    simp only [execJoin, front_canIssue hc, hact, if_false, hbody, State.laneEnd, State.raise_nil, List.map_nil, List.append_nil]
  · rw [hturn.lanes]
    exact hlanes a ha args hargs
  · rw [hturn.lanes]
    exact hidle m hm hidle'

end Sys2Proof.Machine
end

section
/-! SUPPORT. Convergence registers: a target set anew, and the lanes of an issue that sign and wait (R95, R259 to R261, R351). -/

namespace Sys2Proof.Machine

/-! ### What leaves a convergence register -/

theorem conv?_of_workgroups {s t : State} (h : ∀ id, t.wg? id = (s.wg? id).map fun g => { g with warps := ((t.wg? id).map Workgroup.warps).getD [] })
    (wg j : Nat) : t.conv? wg j = s.conv? wg j := by
  rw [State.conv?, State.conv?, h wg]
  cases s.wg? wg <;> rfl

theorem lane?_of_wg? {s t : State} (h : ∀ id, t.wg? id = s.wg? id) (r : LaneRef) : t.lane? r = s.lane? r := by
  simp only [State.lane?, State.warp?, h]

theorem lane?_updConv (s : State) (wg j : Nat) (k : ConvReg → ConvReg) (r : LaneRef) : (s.updConv wg j k).lane? r = s.lane? r := by
  simp only [State.lane?, State.warp?, State.updConv]
  rw [State.wg?_updWg]
  · split
    · cases s.wg? r.wg <;> rfl
    · rfl
  · exact fun _ => rfl

/-! ### JSET (R259) -/

/-- A change of a convergence register to what it is leaves every workgroup as it was. -/
theorem wg?_updConv_self {s : State} {wg j : Nat} {c : ConvReg} {k : ConvReg → ConvReg} (hc : s.conv? wg j = some c) (hk : k c = c)
    (id : Nat) : (s.updConv wg j k).wg? id = s.wg? id := by
  rw [State.updConv, State.wg?_updWg]
  · split
    next hid =>
      subst hid
      cases hg : s.wg? id with
      | none => rfl
      | some g =>
        rw [State.conv?, hg] at hc
        have hregs : mapNth g.jregs j k = g.jregs := mapNth_eq_self fun d hd => by
          obtain rfl : c = d := Option.some.inj (hc.symm.trans hd)
          exact hk
        rw [Option.map_some, hregs]
    next => rfl
  · exact fun _ => rfl

/-- What holds of the end of an issue from a state holds from one whose workgroups read the same. -/
theorem MovesOnly.of_wg? {x : Iss} {f : Form} {s u t : State} (h : MovesOnly x f s t) (hwg : ∀ id, u.wg? id = s.wg? id)
    (hu : ∃ wgs ctl, u = { s with wgs := wgs, ctl := ctl }) : MovesOnly x f u t := by
  have hwarp : ∀ wg w, u.warp? wg w = s.warp? wg w := fun wg w => by simp only [State.warp?, hwg]
  have hlane := lane?_of_wg? hwg
  obtain ⟨wgs, ctl, rfl⟩ := hu
  have hrows : ({ s with wgs := wgs, ctl := ctl } : State).rowsOf x = s.rowsOf x := by
    unfold State.rowsOf
    cases x.g with
    | home a b gid => exact congrArg (fun v => (Option.map Warp.rows v).getD []) (hwarp a b)
    | reformed core slot gid => rfl
  obtain ⟨wgs', ctl', cores, pipes, ht⟩ := h.rest.package
  refine ⟨fun m hm => ?_, fun reg pos => ?_, fun wg w => ?_, h.latches, ⟨⟨wgs', ctl', cores, pipes, ht⟩, h.rest.memory, fun id => ?_,
    fun wg w => ?_, h.rest.cores, fun r hr => ?_, fun wg w hw => ?_, h.rest.pipes⟩⟩
  · rw [hlane]
    exact h.moved m hm
  · rw [h.map, State.readReg, State.readReg, hrows]
  · rw [hwarp]
    exact h.warps wg w
  · rw [hwg]
    exact h.rest.workgroups id
  · rw [hwarp]
    exact h.rest.warps wg w
  · rw [hlane]
    exact h.rest.lanes r hr
  · rw [hwarp]
    exact h.rest.maps wg w hw

theorem joinTargetsComplete : JoinTargetsComplete := by
  rintro f s x hc hact hout ⟨hquads, hmax, c, hreg, hset⟩
  have hrun : exec (.jset f) s = .next (if c.signed = 0 then
      (s.updConv x.wg (slotNum f f.d) fun c => { c with target := jsetCount s f x / 4 }).endIssue x f []
      else s.endIssue x f []) := by
    change execJset f s = _
    rw [execJset, onceStep_canIssue hc hact hout, reads_once]
    change Host.Outcome.next (match s.conv? x.wg (slotNum f f.d) with
      | none => _
      | some c => if jsetCount s f x % 4 != 0 || 1020 < jsetCount s f x then _ else _) = _
    have hlegal : (jsetCount s f x % 4 != 0 || decide (1020 < jsetCount s f x)) = false := by
      simp only [hquads, Bool.or_eq_false_iff, decide_eq_false_iff_not, not_lt]
      exact ⟨rfl, hmax⟩
    simp only [hreg, hlegal, Bool.false_eq_true, if_false]
    refine congrArg Host.Outcome.next ?_
    split
    · rfl
    next hsigned => exact if_pos (hset.resolve_left hsigned).symm
  by_cases hsigned : c.signed = 0
  · rw [if_pos hsigned] at hrun
    exact ⟨_, hrun, (State.endIssue_plain _ x f).movesOnly⟩
  · rw [if_neg hsigned] at hrun
    refine ⟨_, hrun, (s.endIssue_plain x f).movesOnly.of_wg? (wg?_updConv_self hreg ?_) ⟨_, _, rfl⟩⟩
    rw [← hset.resolve_left hsigned]

/-! ### Signing (R260, R351) -/

/-- A register once lanes at some positions of a warp have signed it; the first of a round open it. -/
def signedReg (x : Iss) (f : Form) (mop : Nat) (values : List Word) (ps : List Nat) (seq : Nat) (c : ConvReg) : ConvReg :=
  let o := if c.round.isSome then c else { c with round := some f, mop := mop, values := values, pane := x.pane, signers := [] }
  let k := o.signed + ps.length / 4
  { o with signed := k, signers := o.signers ++ ps.map fun p => (x.warp, p), filled := if k = o.target then seq + 1 else 0 }

/-- The state once the active lanes of an issue have signed a register and wait. -/
def State.signIn (s : State) (x : Iss) (f : Form) (act : List Act) (j mop : Nat) (values : List Word) : State :=
  let refs := act.map fun a => a.m.ref
  let t : State := { s.updConv x.wg j (signedReg x f mop values (act.map fun a => a.m.pos) s.seq) with seq := s.seq + 1 }
  (((t.setHold x.g none).moveLanes ((x.members.map Member.ref).filter fun r => !refs.contains r) (nextPc f x.pc)).updLanes refs
    fun l => { l with st := .waiting (.signed j), npc := nextPc f x.pc }).regroup x.g ⟨.none, 0⟩

theorem sign_eq (s : State) (x : Iss) (f : Form) (act : List Act) (j mop : Nat) (values : List Word) (fill : Nat → Nat → State → State) :
    s.sign x f act j mop values fill
      = if ((s.signIn x f act j mop values).conv? x.wg j).any fun c => c.filled != 0 then
          fill x.wg j (s.signIn x f act j mop values) else s.signIn x f act j mop values := rfl

theorem signIn_conv? {s : State} {x : Iss} {f : Form} {act : List Act} {j : Nat} {c : ConvReg} (mop : Nat) (values : List Word)
    (hc : s.conv? x.wg j = some c) (hm : ∀ a ∈ act, a.m ∈ x.members) :
    (s.signIn x f act j mop values).conv? x.wg j = some (signedReg x f mop values (act.map fun a => a.m.pos) s.seq c) := by
  rw [State.signIn, conv?_of_workgroups (Regroups.workgroups (State.regroup_spec x _ _ _)),
    conv?_of_workgroups (State.updLanes_frame x _ _ _ fun r hr => ?_).workgroups,
    conv?_of_workgroups (moveLanes_frame x _ _ _ fun r hr => (List.mem_filter.mp hr).1).workgroups,
    conv?_of_workgroups (State.setHold_frame x _ _ _).workgroups]
  · change (s.updConv x.wg j _).conv? x.wg j = _
    rw [conv?_updConv, hc]
    rfl
  · obtain ⟨a, ha, rfl⟩ := List.mem_map.mp hr
    exact List.mem_map_of_mem (hm a ha)

theorem signIn_lane? (s : State) (x : Iss) (f : Form) (act : List Act) (j mop : Nat) (values : List Word) (r : LaneRef) :
    (s.signIn x f act j mop values).lane? r
      = if r ∈ act.map (fun a => a.m.ref) then
          (s.lane? r).map fun l => { l with st := .waiting (.signed j), npc := nextPc f x.pc }
        else if r ∈ x.members.map Member.ref then (s.lane? r).map fun l => { l with pc := nextPc f x.pc }
        else s.lane? r := by
  have hreg : ∀ t : State, (t = { s.updConv x.wg j (signedReg x f mop values (act.map fun a => a.m.pos) s.seq) with seq := s.seq + 1 }) →
      t.lane? r = s.lane? r := fun t ht => by
    subst ht
    exact lane?_updConv s x.wg j _ r
  rw [State.signIn, State.regroup_lane?, State.lane?_updLanes, State.moveLanes_lane?, State.setHold_lane?, hreg _ rfl]
  · by_cases hact : r ∈ act.map fun a => a.m.ref
    · have hin : (act.map fun a => a.m.ref).contains r = true := List.contains_iff_mem.mpr hact
      simp only [hact, if_true, List.mem_filter, hin, Bool.not_true, Bool.false_eq_true, and_false, if_false]
    · have hout : (act.map fun a => a.m.ref).contains r = false := by simpa using hact
      simp only [hact, if_false, List.mem_filter, hout, Bool.not_false, and_true]
  · exact fun _ => rfl

theorem signIn_groupsOnly (s : State) (x : Iss) (f : Form) (act : List Act) (j mop : Nat) (values : List Word) :
    GroupsOnly s (s.signIn x f act j mop values) := by
  have hreg : GroupsOnly s { s.updConv x.wg j (signedReg x f mop values (act.map fun a => a.m.pos) s.seq) with seq := s.seq + 1 } :=
    ⟨_, _, _, _, rfl⟩
  exact hreg.trans <| (Regroups.updGroup x _ x.g _).groupsOnly.trans <| (GroupsOnly.updLanes _ _ _).trans <|
    (GroupsOnly.updLanes _ _ _).trans (State.regroup_spec x _ _ _).groupsOnly

theorem signedReg_spec (x : Iss) (f : Form) (mop : Nat) (values : List Word) (ps : List Nat) (seq : Nat) (c : ConvReg) :
    (signedReg x f mop values ps seq c).signed = c.signed + ps.length / 4
      ∧ (signedReg x f mop values ps seq c).target = c.target ∧ (signedReg x f mop values ps seq c).progress = c.progress
      ∧ (signedReg x f mop values ps seq c).round = some (c.round.getD f)
      ∧ (signedReg x f mop values ps seq c).signers = (if c.round.isSome then c.signers else []) ++ ps.map (fun p => (x.warp, p))
      ∧ ((signedReg x f mop values ps seq c).filled = 0 ↔ (signedReg x f mop values ps seq c).signed ≠ c.target) := by
  unfold signedReg
  cases hr : c.round with
  | none => simp
  | some q => simp [hr]

/-- The signing instructions, each with its register, its values and what runs once its round is full. -/
theorem signStep_completes {mk : Form → Instr} {js : Form → Slot} {onePane : Bool} {values : Env → Form → List Word}
    {fill : Nat → Nat → State → State} (read : Form → Env → Sig → List Word)
    (hexec : ∀ f s, exec (mk f) s = signStep (mk f) f (js f) onePane (read f) fill s)
    (hread : ∀ (s : State) (x : Iss) (f : Form), read f (s.reads x f (sigOf (mk f) f)) (sigOf (mk f) f) = values (s.env x) f) :
    SignCompletes mk js onePane values fill := by
  intro f s x c hc ok hact hreg hmay hquiet
  let mop := mopOf (mk f)
  let vs := values (s.env x) f
  have hconv := signIn_conv? (f := f) mop vs hreg fun a ha => (mem_actives (s := s) (x := x) (f := f) ha).1
  have hlane := signIn_lane? s x f (s.actives x f) (slotNum f (js f)) mop vs
  obtain ⟨hsigned, htarget, hprogress, hround, hsigners, hfilled⟩ :=
    signedReg_spec x f mop vs ((s.actives x f).map fun a => a.m.pos) s.seq c
  refine ⟨s.signIn x f (s.actives x f) (slotNum f (js f)) mop vs, _, ?_, hconv, by simpa using hsigned, htarget, hprogress, hround,
    by rw [hsigners, List.map_map]; rfl, hfilled, fun a ha => ?_, fun m hm hidle => ?_, fun r hr => ?_, signIn_groupsOnly s x f _ _ _ _⟩
  · have hquiet : ((s.actives x f).all fun a => s.quiet a.m.ref false) = true := List.all_eq_true.mpr hquiet
    rw [hexec]
    simp only [signStep, front_canIssue hc, hact, if_false, hreg, hread, hmay, hquiet, Bool.not_true, Bool.false_eq_true]
    rw [sign_eq, hconv]
    refine congrArg Host.Outcome.next (if_congr ?_ rfl rfl)
    rw [Option.any_some, bne_iff_ne, ne_eq, hfilled, not_not]
  · rw [hlane, if_pos (List.mem_map_of_mem (f := fun a : Act => a.m.ref) ha), (mem_actives ha).2.1]
    rfl
  · rw [hlane, if_neg fun h => hidle ((actives_ref_mem ok hm).mp h), if_pos (List.mem_map_of_mem hm)]
  · rw [hlane, if_neg, if_neg hr]
    intro h
    obtain ⟨a, ha, rfl⟩ := List.mem_map.mp h
    exact hr (List.mem_map_of_mem (mem_actives ha).1)

/-- Settles O21: JSET by its two legal cases, the signing instructions by the one course they share. -/
theorem convergence : Obligations.Convergence :=
  ⟨joinTargetsComplete,
    signStep_completes (fun _ _ _ => []) (fun _ _ => rfl) fun _ _ _ => rfl,
    signStep_completes (fun _ _ _ => []) (fun _ _ => rfl) fun _ _ _ => rfl,
    signStep_completes (fun _ _ _ => []) (fun _ _ => rfl) fun _ _ _ => rfl,
    signStep_completes (fun f e g => e.uwords f f.a g.a) (fun _ _ => rfl) fun s x f => s.reads_uwords x f _ f f.a _⟩

end Sys2Proof.Machine
end

section
/-! SUPPORT. Reforming fails: of REFORM.HOME it says that members whose guard is false go on, whatever awaits a result, where the
model lets the issue wait for the results in flight of the registers that its group carries, before it looks at guards. -/

namespace Sys2Proof.Machine

/-- REFORM.HOME guarded by p0. -/
def guardedHome : Form :=
  { dix := 0x055, nwb := false, fd := 0, fa := 0, fb := 0, m2 := 1, sat := false, rm := .rne, ty := .b32, sc := .lane
    hint := .none, immsrc := .template, pgn := false, pg := 0, b96 := false, d := .none, a := .none, b := .none, c := .none
    imm := 0, lit := 0 }

/-- A reformed group of one lane, whose p0 is false, that carries v0; a result in flight is awaited there. -/
def awaitedGroup : Reformed :=
  { slot := 0, ctx := 0, dslot := 0, keyPc := 0, wbase0 := 0, pane := 0, pipe := 0, lanes := [some ⟨0, 0, 0⟩]
    groups := [{ gid := 0, lanes := [0], hold := none, debt := 0 }], carried := 1
    rows := [{ id := 0, reg := some 0, vals := List.replicate 32 0, await := [1], handler := false }] }

/-- The program's warp with its lane 0 in that group, which issues. -/
def awaitedHome : State :=
  let s := State.reset.withProgram []
  let s := s.updLane ⟨0, 0, 0⟩ fun l => { l with reformed := some 0, carried := 1 }
  { s.updCore 0 fun c => { c with groups := [awaitedGroup] } with cur := .group (.reformed 0 0 0) }

def awaitedIssue : Iss :=
  { g := .reformed 0 0 0, ctx := 0, core := 0, pane := 0, pipe := 0, members := [⟨0, ⟨0, 0, 0⟩⟩], pc := 0, wbase := 0, dslot := 0
    priv := false, wg := 0, warp := 0, carried := some (0, 1) }

theorem awaitedHome_actives : awaitedHome.actives awaitedIssue guardedHome = [] := by decide +kernel

theorem awaitedHome_canIssue : CanIssue (.reformHome guardedHome) guardedHome false awaitedHome awaitedIssue :=
  ⟨by decide +kernel, by decide +kernel, .inl awaitedHome_actives, by decide +kernel⟩

theorem awaitedHome_issueOk : IssueOk awaitedHome awaitedIssue where
  rows := ⟨by decide +kernel, by decide +kernel⟩
  pos := by decide +kernel
  poss := by decide +kernel
  lanes := by decide +kernel
  live m hm := by
    rw [List.mem_singleton.mp hm]
    exact ⟨_, rfl, by decide +kernel⟩

/-- The issue waits, and its lane stands where it stood. -/
theorem awaitedHome_waits : ∃ t, exec (.reformHome guardedHome) awaitedHome = .next t ∧ (t.lane? ⟨0, 0, 0⟩).map Lane.pc = some 0 :=
  ⟨_, rfl, by decide +kernel⟩

/-- Refutes O17: in `awaitedHome` every guard of the issue is false, so its member should go on; but REFORM.HOME waits for the
result in flight of the register that the group carries. -/
theorem not_reforming : ¬ Obligations.Reforming := by
  rintro ⟨-, hhome, -⟩
  obtain ⟨t, ht, -, hidle, -⟩ := hhome guardedHome awaitedHome awaitedIssue awaitedHome_canIssue awaitedHome_issueOk
    (by rw [awaitedHome_actives]; exact fun a ha => absurd ha List.not_mem_nil)
  obtain ⟨u, hu, hpc⟩ := awaitedHome_waits
  obtain rfl : t = u := Host.Outcome.next.inj (ht.symm.trans hu)
  have hmoved := hidle ⟨0, ⟨0, 0, 0⟩⟩ List.mem_cons_self (by rw [awaitedHome_actives]; exact List.not_mem_nil)
  have hmoved := congrArg (Option.map Lane.pc) hmoved
  rw [hpc, Option.map_map] at hmoved
  exact absurd hmoved (by decide +kernel)

end Sys2Proof.Machine
end

section
/-! SUPPORT. Instructions that may wait with a destination, where each active lane has its result or waits: what their issue leaves
of the map, the latches and the lanes (R139, R146, R491). -/

namespace Sys2Proof.Machine

/-! ### What the lanes find -/

/-- What an active lane finds: its words with what a predicate register takes, or what the lane waits for. -/
abbrev Found := (List Word × Option Bool) ⊕ Wait

def heldOf : Found → Held
  | .inl p => .now p.1 p.2
  | .inr w => .wait w

/-- The results at hand. -/
def foundNow (out : Act → Found) (act : List Act) : List LaneRes :=
  act.filterMap fun a => match out a with | .inl p => some ⟨a, p.1, 0⟩ | .inr _ => none

/-- The results at hand with what a predicate register takes. -/
def foundPairs (out : Act → Found) (act : List Act) : List (Act × List Word × Option Bool) :=
  act.filterMap fun a => match out a with | .inl p => some (a, p.1, p.2) | .inr _ => none

/-- The lanes that wait, each with what it waits for. -/
def foundWaits (keep : Act → Wait → Wait) (out : Act → Found) (act : List Act) : List (Act × Wait) :=
  act.filterMap fun a => match out a with | .inl _ => none | .inr w => some (a, keep a w)

/-- What a result makes of its lane's predicates. -/
def predSet (pred : Option Nat) (o : Found) (l : Lane) : Lane :=
  match o, pred with
  | .inl (_, some b), some n => l.setPred n b
  | _, _ => l

/-- What a wait makes of its lane. -/
def waitSet (npc : Word) (keep : Wait → Wait) (o : Found) (l : Lane) : Lane :=
  match o with
  | .inl _ => l
  | .inr w => { l with st := .waiting (keep w), npc := npc }

theorem predSet_st (pred : Option Nat) (o : Found) (l : Lane) : (predSet pred o l).st = l.st := by
  unfold predSet
  split
  · unfold Lane.setPred
    split <;> rfl
  · rfl

theorem foundNow_eq_pairs (out : Act → Found) (act : List Act) :
    foundNow out act = (foundPairs out act).map fun p => ⟨p.1, p.2.1, 0⟩ := by
  unfold foundNow foundPairs
  rw [List.map_filterMap]
  refine List.filterMap_congr fun a _ => ?_
  cases out a <;> rfl

theorem mem_foundNow {out : Act → Found} {act : List Act} {r : LaneRes} (h : r ∈ foundNow out act) :
    r.a ∈ act ∧ ∃ p, out r.a = .inl p ∧ r.words = p.1 := by
  obtain ⟨a, ha, hr⟩ := List.mem_filterMap.mp h
  cases ho : out a with
  | inl p =>
    rw [ho] at hr
    obtain rfl := Option.some.inj hr
    exact ⟨ha, p, ho, rfl⟩
  | inr w =>
    rw [ho] at hr
    cases hr

theorem foundNow_acts_sublist (out : Act → Found) (act : List Act) : ((foundNow out act).map LaneRes.a).Sublist act := by
  unfold foundNow
  induction act with
  | nil => exact .slnil
  | cons a act ih =>
    rw [List.filterMap_cons]
    cases out a with
    | inl p => exact ih.cons_cons a
    | inr w => exact ih.cons a

theorem found_lengths (keep : Act → Wait → Wait) (out : Act → Found) (act : List Act) :
    (foundPairs out act).length + (foundWaits keep out act).length = act.length := by
  unfold foundPairs foundWaits
  induction act with
  | nil => rfl
  | cons a act ih =>
    simp only [List.filterMap_cons]
    cases out a with
    | inl p =>
      simp only [List.length_cons]
      omega
    | inr w =>
      simp only [List.length_cons]
      omega

theorem foundWaits_eq_nil (keep : Act → Wait → Wait) (out : Act → Found) (act : List Act) :
    foundWaits keep out act = [] ↔ (foundNow out act).length = act.length := by
  have hsum := found_lengths keep out act
  rw [← List.length_eq_zero_iff, foundNow_eq_pairs, List.length_map]
  omega

theorem foundWaits_any (keep : Act → Wait → Wait) (out : Act → Found) (act : List Act) (r : LaneRef) :
    ((foundWaits keep out act).any fun p => p.1.m.ref = r) = act.any fun a => (out a).isRight && a.m.ref = r := by
  unfold foundWaits
  induction act with
  | nil => rfl
  | cons a act ih =>
    rw [List.filterMap_cons, List.any_cons]
    cases out a with
    | inl p => exact ih
    | inr w =>
      rw [List.any_cons, ih]
      rfl

theorem foldl_foundPairs {out : Act → Found} {pred : Option Nat} {F : State → Act × List Word × Option Bool → State}
    (hF : ∀ u a p, F u (a, p) = u.updLane a.m.ref (predSet pred (.inl p))) (act : List Act) (u : State) :
    (foundPairs out act).foldl F u = act.foldl (fun u a => u.updLane a.m.ref (predSet pred (out a))) u := by
  unfold foundPairs
  induction act generalizing u with
  | nil => rfl
  | cons a act ih =>
    rw [List.filterMap_cons, List.foldl_cons]
    cases ho : out a with
    | inl p =>
      rw [List.foldl_cons, hF]
      exact ih _
    | inr w =>
      rw [updLane_self (k := predSet pred (.inr w)) fun _ => rfl]
      exact ih _

theorem foldl_foundWaits {out : Act → Found} {npc : Word} (keep : Act → Wait → Wait) (act : List Act) (u : State) :
    (foundWaits keep out act).foldl (fun u p => u.updLane p.1.m.ref fun l => { l with st := .waiting p.2, npc := npc }) u
      = act.foldl (fun u a => u.updLane a.m.ref (waitSet npc (keep a) (out a))) u := by
  unfold foundWaits
  induction act generalizing u with
  | nil => rfl
  | cons a act ih =>
    rw [List.filterMap_cons, List.foldl_cons]
    cases ho : out a with
    | inl p =>
      rw [updLane_self (k := waitSet npc (keep a) (.inl p)) fun _ => rfl]
      exact ih _
    | inr w => exact ih _

/-! ### The state such an issue leaves -/

/-- The map with the results at hand written to prepared rows. -/
def foundRows (out : Act → Found) (act : List Act) (p : List Row × List Nat) : List Row :=
  writeResults p.1 p.2 ((foundNow out act).map fun r => (r.a.m.pos, r.words))

/-- What enters the latches: nothing of an instruction that may wait, else what a result brings (R139). -/
def foundEntry (x : Iss) (f : Form) (g : Sig) (late : Bool) (act : List Act) (out : Act → Found) (rows : List Row) (k pos : Nat) : Latch :=
  if late then .empty
  else latchEntry x act f.nwb rows (dstRegs f g x.wbase) ((foundNow out act).map fun r => (r.a.m.pos, r.words.map Latch.full)) k pos

/-- The lanes that go on: every member that does not wait. -/
def foundMovers (x : Iss) (act : List Act) (out : Act → Found) : List LaneRef :=
  (x.members.map Member.ref).filter fun r => !act.any fun a => (out a).isRight && a.m.ref = r

/-- The latches shifted, and the group free of its hold. -/
def State.foundIssued (s : State) (x : Iss) (f : Form) (g : Sig) (act : List Act) (late : Bool) (out : Act → Found) (rows : List Row) :
    State :=
  (s.shiftPipe x (dstRegs f g x.wbase).length (foundEntry x f g late act out rows)).setHold x.g none

/-- The state of such an issue before its group splits. -/
def State.foundIn (s : State) (x : Iss) (f : Form) (g : Sig) (act : List Act) (pred : Option Nat) (late : Bool) (out : Act → Found)
    (rows : List Row) : State :=
  let written := act.foldl (fun u a => u.updLane a.m.ref (predSet pred (out a))) (s.setRows x rows)
  act.foldl (fun u a => u.updLane a.m.ref (waitSet (nextPc f x.pc) (s.keepingLu x f g a) (out a)))
    ((written.foundIssued x f g act late out rows).moveLanes (foundMovers x act out) (nextPc f x.pc))

/-- The state of such an issue: its group splits where a lane waits. -/
def State.foundEnd (s : State) (x : Iss) (f : Form) (g : Sig) (act : List Act) (pred : Option Nat) (late : Bool) (out : Act → Found)
    (rows : List Row) : State :=
  if (foundNow out act).length = act.length then s.foundIn x f g act pred late out rows
  else (s.foundIn x f g act pred late out rows).regroup x.g ⟨.none, 0⟩

theorem predSet_none (o : Found) (l : Lane) : predSet none o l = l := by
  rcases o with ⟨ws, b | b⟩ | w <;> rfl

theorem updLane_predSet (u : State) (a : Act) (pred : Option Nat) (ws : List Word) (b : Option Bool) :
    (match pred, b with
      | some n, some v => u.updLane a.m.ref fun l => l.setPred n v
      | _, _ => u) = u.updLane a.m.ref (predSet pred (.inl (ws, b))) := by
  cases pred with
  | none => exact (updLane_self (predSet_none _) u _).symm
  | some n =>
    cases b with
    | none => exact (updLane_self (k := predSet (some n) (.inl (ws, none))) (fun _ => rfl) u _).symm
    | some v => rfl

theorem parkLanes_nil (u : State) (x : Iss) : u.parkLanes x [] = u := by
  simp [State.parkLanes]

theorem issueWait_found {s : State} {x : Iss} {f : Form} {g : Sig} {act : List Act} {pred : Option Nat} {late : Bool}
    {held : Act → Held} {out : Act → Found} {p : List Row × List Nat} (hheld : ∀ a ∈ act, held a = heldOf (out a))
    (hprep : prepDest (s.mapLimit x) (releaseLu f g x.wbase (s.rowsOf x)) (dstRegs f g x.wbase) (!f.nwb && act.length != 0)
      (decide (act.length = 32)) = .inr p)
    (hidle : (dstRegs f g x.wbase).any (rowBusy p.1) = false) :
    s.issueWait x f g act pred held late
      = if (foundNow out act).length = act.length then s.foundEnd x f g act pred late out (foundRows out act p)
        else (s.foundEnd x f g act pred late out (foundRows out act p)).afterAll (act.map fun a => a.m.ref) := by
  have hmap : (act.map fun a => (a, held a)) = act.map fun a => (a, heldOf (out a)) :=
    List.map_congr_left fun a ha => by rw [hheld a ha]
  unfold State.issueWait
  dsimp only
  rw [hmap]
  generalize hwalks : (List.filterMap _ (act.map fun a => (a, heldOf (out a))) : List Nat) = walks
  obtain rfl : walks = [] := by
    rw [← hwalks, List.filterMap_map, List.filterMap_eq_nil_iff]
    intro a _
    dsimp only [Function.comp]
    cases out a <;> rfl
  generalize hfaults : (List.filterMap _ (act.map fun a => (a, heldOf (out a))) : List LaneFault) = faults
  obtain rfl : faults = [] := by
    rw [← hfaults, List.filterMap_map, List.filterMap_eq_nil_iff]
    intro a _
    dsimp only [Function.comp]
    cases out a <;> rfl
  generalize hparks : (List.filterMap _ (act.map fun a => (a, heldOf (out a))) : List (LaneRef × Nat)) = parks
  obtain rfl : parks = [] := by
    rw [← hparks, List.filterMap_map, List.filterMap_eq_nil_iff]
    intro a _
    dsimp only [Function.comp]
    cases out a <;> rfl
  generalize hnows : (List.filterMap _ (act.map fun a => (a, heldOf (out a))) : List (Act × List Word × Option Bool)) = nows
  obtain rfl : nows = foundPairs out act := by
    rw [← hnows, List.filterMap_map]
    refine List.filterMap_congr fun a _ => ?_
    dsimp only [Function.comp]
    cases out a <;> rfl
  generalize hwaits : (List.filterMap _ (act.map fun a => (a, heldOf (out a))) : List (Act × Wait)) = waits
  obtain rfl : waits = foundWaits (fun a => s.keepingLu x f g a) out act := by
    rw [← hwaits, List.filterMap_map]
    refine List.filterMap_congr fun a _ => ?_
    dsimp only [Function.comp]
    cases out a <;> rfl
  have hlen : ((foundPairs out act).map (fun p => p.1) ++ (foundWaits (fun a => s.keepingLu x f g a) out act).map fun p => p.1).length
      = act.length := by
    rw [List.length_append, List.length_map, List.length_map, found_lengths]
  have hne : (((foundPairs out act).map (fun p => p.1) ++ (foundWaits (fun a => s.keepingLu x f g a) out act).map fun p => p.1) != [])
      = (act.length != 0) := by
    rw [← hlen]
    generalize (foundPairs out act).map (fun p => p.1) ++ (foundWaits (fun a => s.keepingLu x f g a) out act).map (fun p => p.1) = live
    cases live <;> rfl
  have hrows : ((foundPairs out act).map fun p => (p.1.m.pos, p.2.1)) = (foundNow out act).map fun r => (r.a.m.pos, r.words) := by
    rw [foundNow_eq_pairs, List.map_map]
    rfl
  have hlatches : ((foundPairs out act).map fun p => (p.1.m.pos, p.2.1.map Latch.full))
      = (foundNow out act).map fun r => (r.a.m.pos, r.words.map Latch.full) := by
    rw [foundNow_eq_pairs, List.map_map]
    rfl
  have hstall : (!late && !f.nwb && decide (act.length < x.members.length) && (dstRegs f g x.wbase).any (rowBusy p.1)) = false := by
    rw [hidle, Bool.and_false]
  obtain ⟨rows, ids⟩ := p
  simp only [hne, hlen, decide_true, Bool.and_self, if_true, hprep, bne_self_eq_false, Bool.false_eq_true, if_false, hstall, hrows,
    hlatches, List.any_nil, Bool.false_or, foundWaits_any, foundWaits_eq_nil, Bool.and_true, decide_eq_true_eq]
  rw [foldl_foundPairs (pred := pred), foldl_foundWaits, parkLanes_nil]
  · unfold State.foundEnd
    split <;> rfl
  · rintro u a ⟨ws, b⟩
    exact updLane_predSet u a pred ws b

/-! ### What it leaves, beside the split of the group -/

/-- The states differ in workgroups, cores, pipes and the model's counter alone. -/
def IssueOnly (s t : State) : Prop :=
  ∃ wgs ctl cores pipes seq, t = { s with wgs := wgs, ctl := ctl, cores := cores, pipes := pipes, seq := seq }

theorem IssueOnly.trans {s t u : State} (h : IssueOnly s t) (k : IssueOnly t u) : IssueOnly s u := by
  obtain ⟨_, _, _, _, _, rfl⟩ := h
  obtain ⟨_, _, _, _, _, rfl⟩ := k
  exact ⟨_, _, _, _, _, rfl⟩

theorem RegisterFrame.issueOnly {x : Iss} {s t : State} (h : RegisterFrame x s t) : IssueOnly s t := by
  obtain ⟨wgs, ctl, cores, pipes, rfl⟩ := h.package
  exact ⟨wgs, ctl, cores, pipes, s.seq, rfl⟩

theorem Regroups.issueOnly {x : Iss} {s t : State} (h : Regroups x s t) : IssueOnly s t := by
  obtain ⟨wgs, ctl, cores, seq, rfl⟩ := h.package
  exact ⟨wgs, ctl, cores, s.pipes, seq, rfl⟩

/-- What a state holds of an issue once its results and waits are in: `t` after `s`, with `rows` for its map. -/
structure Leaves (x : Iss) (f : Form) (g : Sig) (act : List Act) (pred : Option Nat) (late : Bool) (out : Act → Found) (rows : List Row)
    (s t : State) : Prop where
  frame  : IssueOnly s t
  map    : t.rowsOf x = rows
  kept   : ∀ wg w, (t.warp? wg w).map (fun v : Warp => (v.fpstat, v.uregs)) = (s.warp? wg w).map fun v => (v.fpstat, v.uregs)
  latch  : ∀ pos n, pos < 32 → n < 8 → t.readLatch x pos n
    = if n < (dstRegs f g x.wbase).length then foundEntry x f g late act out rows ((dstRegs f g x.wbase).length - 1 - n) pos
      else s.readLatch x pos (n - (dstRegs f g x.wbase).length)
  now    : ∀ a ∈ act, ∀ p, out a = .inl p → t.lane? a.m.ref = some { predSet pred (.inl p) a.lane with pc := nextPc f x.pc }
  waits  : ∀ a ∈ act, ∀ w, out a = .inr w →
    t.lane? a.m.ref = some { a.lane with st := .waiting (s.keepingLu x f g a w), npc := nextPc f x.pc }
  idle   : ∀ m ∈ x.members, m ∉ act.map Act.m → t.lane? m.ref = (s.lane? m.ref).map fun l => { l with pc := nextPc f x.pc }
  others : ∀ r, r ∉ x.members.map Member.ref → t.lane? r = s.lane? r

theorem shiftPipe_warp? (s : State) (x : Iss) (n : Nat) (entry : Nat → Nat → Latch) (wg w : Nat) :
    (s.shiftPipe x n entry).warp? wg w = s.warp? wg w := by
  rw [State.shiftPipe, State.warp?_setPipe]

theorem shiftPipe_lane? (s : State) (x : Iss) (n : Nat) (entry : Nat → Nat → Latch) (r : LaneRef) :
    (s.shiftPipe x n entry).lane? r = s.lane? r := by
  rw [State.shiftPipe, State.lane?_setPipe]

theorem shiftPipe_rowsOf (s : State) (x y : Iss) (n : Nat) (entry : Nat → Nat → Latch) :
    (s.shiftPipe x n entry).rowsOf y = s.rowsOf y := by
  rw [State.shiftPipe, State.rowsOf_setPipe]

theorem readLatch_of_pipes {s t : State} (h : t.pipes = s.pipes) (x : Iss) (pos n : Nat) : t.readLatch x pos n = s.readLatch x pos n := by
  simp only [State.readLatch, State.pipe, h]

theorem GroupAt.updLanes {s : State} {x : Iss} (h : GroupAt s x) (rs : List LaneRef) (k : Lane → Lane) : GroupAt (s.updLanes rs k) x := by
  obtain ⟨wgs, ctl, he⟩ := updLanes_frame rs k s
  exact h.of_cores (by rw [he])

theorem GroupAt.shiftPipe {s : State} {x : Iss} (h : GroupAt s x) (y : Iss) (n : Nat) (entry : Nat → Nat → Latch) :
    GroupAt (s.shiftPipe y n entry) x := h.of_cores (by rw [State.shiftPipe, State.setPipe_cores])

theorem actives_refs_nodup {s : State} {x : Iss} {f : Form} (ok : IssueOk s x) : ((s.actives x f).map fun a => a.m.ref).Nodup := by
  have hmap : ((s.actives x f).map fun a => a.m.ref) = ((s.actives x f).map Act.m).map Member.ref := by rw [List.map_map]; rfl
  rw [hmap]
  exact ((actives_sublist s x f).map Member.ref).nodup ok.lanes

theorem actives_ref_unique {s : State} {x : Iss} {f : Form} (ok : IssueOk s x) {a b : Act} (ha : a ∈ s.actives x f)
    (hb : b ∈ s.actives x f) (h : a.m.ref = b.m.ref) : a = b :=
  List.inj_on_of_nodup_map (actives_refs_nodup ok) ha hb h

theorem mem_foundMovers {x : Iss} {act : List Act} {out : Act → Found} {m : Member} (hm : m ∈ x.members)
    (h : ∀ a ∈ act, (out a).isRight = true → a.m.ref ≠ m.ref) : m.ref ∈ foundMovers x act out := by
  refine List.mem_filter.mpr ⟨List.mem_map_of_mem hm, ?_⟩
  rw [Bool.not_eq_true', List.any_eq_false]
  intro a ha
  by_cases ho : (out a).isRight = true
  · simp [ho, h a ha ho]
  · simp [ho]

theorem not_mem_foundMovers {x : Iss} {act : List Act} {out : Act → Found} {a : Act} (ha : a ∈ act) (ho : (out a).isRight = true) :
    a.m.ref ∉ foundMovers x act out := fun h => by
  have hnot := (List.mem_filter.mp h).2
  rw [Bool.not_eq_true', List.any_eq_false] at hnot
  exact hnot a ha (by simp [ho])

theorem foundMovers_members {x : Iss} {act : List Act} {out : Act → Found} {r : LaneRef} (h : r ∈ foundMovers x act out) :
    r ∈ x.members.map Member.ref := (List.mem_filter.mp h).1

/-- The shift of the latches, the free group and the moves change no map, and of the lanes those alone that move. -/
theorem foundMoved_spec (s : State) (x : Iss) (f : Form) (g : Sig) (act : List Act) (late : Bool) (out : Act → Found) (rows : List Row)
    {t : State} (ht : t = (s.foundIssued x f g act late out rows).moveLanes (foundMovers x act out) (nextPc f x.pc)) :
    RegisterFrame x s t ∧ t.rowsOf x = s.rowsOf x
      ∧ t.pipes = (s.shiftPipe x (dstRegs f g x.wbase).length (foundEntry x f g late act out rows)).pipes
      ∧ (∀ wg w, (t.warp? wg w).map (fun v : Warp => (v.fpstat, v.uregs)) = (s.warp? wg w).map fun v => (v.fpstat, v.uregs))
      ∧ (∀ r, t.lane? r = if r ∈ foundMovers x act out then (s.lane? r).map (fun l => { l with pc := nextPc f x.pc }) else s.lane? r)
      ∧ (GroupAt s x → GroupAt t x) := by
  subst ht
  unfold State.foundIssued
  refine ⟨?_, ?_, ?_, fun wg w => ?_, fun r => ?_, fun h => ((h.shiftPipe x _ _).setHold x.g none).updLanes _ _⟩
  · exact (s.shiftPipe_frame x _ _).trans <| (State.setHold_frame x _ x.g none).trans <|
      moveLanes_frame x _ _ _ fun _ => foundMovers_members
  · rw [State.moveLanes, State.updLanes_rowsOf, State.setHold_rowsOf, shiftPipe_rowsOf]
  · exact (State.updLanes_pipes _ _ _).trans (State.setHold_pipes _ _ _)
  · rw [State.moveLanes, State.updLanes_warp _ _ _ _ fun _ _ => rfl, State.setHold_warp _ _ _ _ fun _ _ => rfl, shiftPipe_warp?]
  · rw [State.moveLanes_lane?, State.setHold_lane?, shiftPipe_lane?]

/-- The lanes, map and latches of such an issue before its group splits, and its group in its ring. -/
theorem foundIn_leaves {i : Instr} {forbidden : Bool} {s : State} {x : Iss} {f : Form} {g : Sig} (hc : CanIssue i f forbidden s x)
    (ok : IssueOk s x) (pred : Option Nat) (late : Bool) (out : Act → Found) (rows : List Row) :
    Leaves x f g (s.actives x f) pred late out rows s (s.foundIn x f g (s.actives x f) pred late out rows)
      ∧ GroupAt (s.foundIn x f g (s.actives x f) pred late out rows) x := by
  have hmem : ∀ a ∈ s.actives x f, a.m.ref ∈ x.members.map Member.ref := fun a ha => List.mem_map_of_mem (mem_actives ha).1
  obtain ⟨m1, f1, l1, w1, p1⟩ := s.setRows_spec hc rows
  obtain ⟨f2, m2, ⟨wgs2, ctl2, e2⟩, w2, a2, o2⟩ :=
    updEach_spec x (fun a => predSet pred (out a)) (s.actives x f) (s.setRows x rows) hmem (actives_refs_nodup ok)
  unfold State.foundIn
  dsimp only
  generalize (s.actives x f).foldl (fun u a => u.updLane a.m.ref (predSet pred (out a))) (s.setRows x rows) = written at *
  generalize hmoved : (written.foundIssued x f g (s.actives x f) late out rows).moveLanes (foundMovers x (s.actives x f) out)
    (nextPc f x.pc) = moved
  obtain ⟨f3, m3, p3, w3, l3, g3⟩ := foundMoved_spec written x f g (s.actives x f) late out rows hmoved.symm
  obtain ⟨f4, m4, ⟨wgs4, ctl4, e4⟩, w4, a4, o4⟩ :=
    updEach_spec x (fun a => waitSet (nextPc f x.pc) (s.keepingLu x f g a) (out a)) (s.actives x f) moved hmem (actives_refs_nodup ok)
  generalize (s.actives x f).foldl (fun u a => u.updLane a.m.ref (waitSet (nextPc f x.pc) (s.keepingLu x f g a) (out a))) moved = t at *
  have hwritten : ∀ a ∈ s.actives x f, written.lane? a.m.ref = some (predSet pred (out a) a.lane) := fun a ha => by
    rw [a2 a ha, l1, (mem_actives ha).2.1]
    rfl
  have hframe : RegisterFrame x s t := f1.trans (f2.trans (f3.trans f4))
  have hgroup : GroupAt written x := (hc.groupAt.setRows rows).of_cores (by rw [e2])
  refine ⟨⟨hframe.issueOnly, by rw [m4, m3, m2, m1], fun wg w => ?_, fun pos n hp hn => ?_, fun a ha p ho => ?_, fun a ha w ho => ?_,
    fun m hm hidle => ?_, fun r hr => hframe.lanes r hr⟩, (g3 hgroup).of_cores (by rw [e4])⟩
  · rw [w4 _ fun _ _ => rfl, w3, w2 _ fun _ _ => rfl, w1 _ fun _ _ => rfl]
  · have hpipes : t.pipes = moved.pipes := by rw [e4]
    have hbefore : written.pipes = s.pipes := by
      rw [e2]
      exact p1
    rw [readLatch_of_pipes (hpipes.trans p3), State.shiftPipe_latch _ _ _ _ _ _ hp hn, readLatch_of_pipes hbefore]
  · have hin : a.m.ref ∈ foundMovers x (s.actives x f) out := mem_foundMovers (mem_actives ha).1 fun b hb hr he => by
      rw [actives_ref_unique ok hb ha he, ho] at hr
      cases hr
    rw [a4 a ha, l3, if_pos hin, hwritten a ha, ho]
    rfl
  · rw [a4 a ha, l3, if_neg (not_mem_foundMovers ha (by rw [ho]; rfl)), hwritten a ha, ho]
    rfl
  · have hout : m.ref ∉ (s.actives x f).map fun a => a.m.ref := fun h => hidle ((actives_ref_mem ok hm).mp h)
    have hin : m.ref ∈ foundMovers x (s.actives x f) out :=
      mem_foundMovers hm fun a ha _ he => hout (he ▸ List.mem_map_of_mem (f := fun a : Act => a.m.ref) ha)
    rw [o4 _ hout, l3, if_pos hin, o2 _ hout, l1]

/-- The split of the group keeps all that. -/
theorem foundEnd_leaves {i : Instr} {forbidden : Bool} {s : State} {x : Iss} {f : Form} {g : Sig} (hc : CanIssue i f forbidden s x)
    (ok : IssueOk s x) (pred : Option Nat) (late : Bool) (out : Act → Found) (rows : List Row) :
    Leaves x f g (s.actives x f) pred late out rows s (s.foundEnd x f g (s.actives x f) pred late out rows) := by
  obtain ⟨h, hgroup⟩ := foundIn_leaves (g := g) hc ok pred late out rows
  unfold State.foundEnd
  split
  · exact h
  · have hturn := State.regroup_spec x (s.foundIn x f g (s.actives x f) pred late out rows) x.g ⟨.none, 0⟩
    have hstands : ∃ m ∈ x.members, ((s.foundIn x f g (s.actives x f) pred late out rows).lane? m.ref).any Lane.grouped = true := by
      obtain ⟨m, hm⟩ := List.exists_mem_of_ne_nil _ hc.nonempty
      refine ⟨m, hm, ?_⟩
      obtain ⟨l, hl, hissuing⟩ := ok.live m hm
      by_cases hact : m ∈ (s.actives x f).map Act.m
      · obtain ⟨a, ha, rfl⟩ := List.mem_map.mp hact
        have hlane : a.lane = l := Option.some.inj ((mem_actives ha).2.1.symm.trans hl)
        cases ho : out a with
        | inl q =>
          rw [h.now a ha q ho, Option.any_some, Lane.grouped]
          dsimp only
          rw [predSet_st, hlane, hissuing]
        | inr w =>
          rw [h.waits a ha w ho]
          rfl
      · rw [h.idle m hm hact, hl]
        simp only [Option.map_some, Option.any_some, Lane.grouped, hissuing]
    refine ⟨h.frame.trans hturn.issueOnly, (hgroup.regroup _ hstands).trans h.map, fun wg w => ?_, fun pos n hp hn => ?_,
      fun a ha q ho => (hturn.lanes _).trans (h.now a ha q ho), fun a ha w ho => (hturn.lanes _).trans (h.waits a ha w ho),
      fun m hm hidle => (hturn.lanes _).trans (h.idle m hm hidle), fun r hr => (hturn.lanes _).trans (h.others r hr)⟩
    · rw [← h.kept wg w, hturn.warps wg w, Option.map_map]
      rfl
    · rw [← h.latch pos n hp hn]
      obtain ⟨_, _, _, _, he⟩ := hturn.package
      exact readLatch_of_pipes (by rw [he]) x pos n

/-! ### The map and the latches of the results (R139, R146, R148) -/

theorem prepDest_busy {lim : MapLimit} {rows : List Row} {regs : List Nat} {writes covers : Bool} {p : List Row × List Nat}
    (ok : RowsOk rows) (idle : ∀ reg ∈ regs, rowBusy rows reg = false) (hp : prepDest lim rows regs writes covers = .inr p) :
    regs.any (rowBusy p.1) = false := by
  refine List.any_eq_false.mpr fun reg hreg => ?_
  rw [Bool.not_eq_true]
  unfold prepDest at hp
  split at hp
  · cases hp
    exact idle reg hreg
  · split at hp
    next r heq =>
      subst hp
      rw [(prepRegs_spec ok idle heq).busy reg]
      exact idle reg hreg
    · cases hp
      exact idle reg hreg

/-- Results written to prepared registers: they read there, and everything else reads as before. -/
theorem prepared_results {lim : MapLimit} {rows : List Row} {regs : List Nat} {writes covers : Bool} {p : List Row × List Nat}
    (ok : RowsOk rows) (idle : ∀ reg ∈ regs, rowBusy rows reg = false) (hp : prepDest lim rows regs writes covers = .inr p)
    (hregs : regs.Nodup) {res : List (Nat × List Word)} (hpos : ∀ e ∈ res, e.1 < 32) (hnd : (res.map Prod.fst).Nodup)
    (hw : ∀ e ∈ res, regs.length ≤ e.2.length) :
    (writes = true → ∀ e ∈ res, ∀ k reg : Nat, regs[k]? = some reg → rowRead (writeResults p.1 p.2 res) reg e.1 = e.2.getD k 0)
      ∧ ∀ reg pos, writes = false ∨ reg ∉ regs ∨ pos ∉ res.map Prod.fst →
          rowRead (writeResults p.1 p.2 res) reg pos = rowRead rows reg pos := by
  obtain ⟨okp, hread, hids, hnone⟩ := prepDest_spec ok idle hp
  cases writes with
  | false =>
    refine ⟨fun h => (Bool.false_ne_true h).elim, fun reg pos _ => ?_⟩
    rw [hnone rfl, ← hread reg pos]
    refine congrArg (fun r => rowRead r reg pos) ?_
    unfold writeResults
    exact List.foldl_fixed' (fun _ => rfl) res
  | true =>
    obtain ⟨hlen, hrow⟩ := hids rfl
    obtain ⟨hwritten, hkept⟩ := rowRead_writeResults okp hregs hlen hrow res hpos hnd hw
    exact ⟨fun _ => hwritten, fun reg pos h => (hkept reg pos (h.resolve_left (by simp))).trans (hread reg pos)⟩

theorem foundNow_poss_nodup {s : State} {x : Iss} {f : Form} (ok : IssueOk s x) (out : Act → Found) :
    ((foundNow out (s.actives x f)).map fun r => r.a.m.pos).Nodup := by
  have hmap : ((foundNow out (s.actives x f)).map fun r => r.a.m.pos)
      = (((foundNow out (s.actives x f)).map LaneRes.a).map Act.m).map Member.pos := by
    rw [List.map_map, List.map_map]
    rfl
  rw [hmap]
  exact ((((foundNow_acts_sublist out _).map Act.m).trans (actives_sublist s x f)).map Member.pos).nodup ok.poss

/-- The latch of a lane with a result (R139). -/
theorem latchEntry_result (x : Iss) (act : List Act) (nwb : Bool) (rows : List Row) (regs : List Nat) {rs : List LaneRes}
    (hnd : (rs.map fun r => r.a.m.pos).Nodup) {r : LaneRes} (hr : r ∈ rs) {k : Nat} (hk : k < r.words.length) :
    latchEntry x act nwb rows regs (rs.map fun r => (r.a.m.pos, r.words.map Latch.full)) k r.a.m.pos = .full (r.words.getD k 0) := by
  have hfind := find_pos (rs.map fun r => (r.a.m.pos, r.words.map Latch.full)) (by rw [List.map_map]; exact hnd)
    (List.mem_map_of_mem (f := fun r : LaneRes => (r.a.m.pos, r.words.map Latch.full)) hr)
  unfold latchEntry
  rw [hfind]
  simp [List.getD_eq_getElem?_getD, List.getElem?_eq_getElem hk]

/-- The latch of a member whose guard is false (R139). -/
theorem latchEntry_idle (x : Iss) (act : List Act) (nwb : Bool) (rows : List Row) (regs : List Nat) {rs : List LaneRes} {m : Member}
    (hm : m ∈ x.members) (hact : ∀ a ∈ act, a.m.pos ≠ m.pos) (hsub : ∀ r ∈ rs, r.a ∈ act) (k : Nat) :
    latchEntry x act nwb rows regs (rs.map fun r => (r.a.m.pos, r.words.map Latch.full)) k m.pos
      = if nwb then .empty else .full (rowRead rows (regs.getD k 0) m.pos) := by
  have hnone : (rs.map fun r => (r.a.m.pos, r.words.map Latch.full)).find? (fun r => r.1 = m.pos) = none := by
    refine List.find?_eq_none.mpr fun e he => ?_
    obtain ⟨r, hr, rfl⟩ := List.mem_map.mp he
    simpa using hact r.a (hsub r hr)
  have hmember : (x.members.any fun q => q.pos = m.pos) = true := List.any_eq_true.mpr ⟨m, hm, by simp⟩
  have hinactive : (act.any fun a => a.m.pos = m.pos) = false := by
    refine List.any_eq_false.mpr fun a ha => ?_
    simpa using hact a ha
  unfold latchEntry
  rw [hnone]
  simp only [hmember, hinactive, Bool.not_true, Bool.or_false]

theorem Leaves.heldResult {s t : State} {x : Iss} {f : Form} {g : Sig} {pred : Option Nat} {late : Bool} {out : Act → Found}
    {p : List Row × List Nat} (h : Leaves x f g (s.actives x f) pred late out (foundRows out (s.actives x f) p) s t) (ok : IssueOk s x)
    (hd : DestOk s x f g (s.actives x f).length) (h8 : (dstRegs f g x.wbase).length ≤ 8)
    (hprep : prepDest (s.mapLimit x) (releaseLu f g x.wbase (s.rowsOf x)) (dstRegs f g x.wbase) (!f.nwb && (s.actives x f).length != 0)
      (decide ((s.actives x f).length = 32)) = .inr p)
    (hwords : ∀ a ∈ s.actives x f, ∀ q, out a = .inl q → (dstRegs f g x.wbase).length ≤ q.1.length) :
    HeldResult x f g late (foundNow out (s.actives x f)) s t := by
  have hwide : ∀ r ∈ foundNow out (s.actives x f), (dstRegs f g x.wbase).length ≤ r.words.length := fun r hr => by
    obtain ⟨ha, q, ho, hq⟩ := mem_foundNow hr
    rw [hq]
    exact hwords r.a ha q ho
  have hpos : ∀ r ∈ foundNow out (s.actives x f), r.a.m.pos < 32 := fun r hr =>
    ok.pos _ (mem_actives (mem_foundNow hr).1).1
  have hfst : (((foundNow out (s.actives x f)).map fun r => (r.a.m.pos, r.words)).map Prod.fst)
      = (foundNow out (s.actives x f)).map fun r => r.a.m.pos := by
    rw [List.map_map]
    rfl
  obtain ⟨hwritten, hkept⟩ := prepared_results (res := (foundNow out (s.actives x f)).map fun r => (r.a.m.pos, r.words))
    (ok.rows.releases _) (fun reg hreg => rowBusy_releases _ _ _ (hd.idle reg hreg)) hprep (slotRegs_nodup f x.wbase f.d g.d)
    (fun e he => by obtain ⟨r, hr, rfl⟩ := List.mem_map.mp he; exact hpos r hr)
    (by rw [hfst]; exact foundNow_poss_nodup ok out)
    (fun e he => by obtain ⟨r, hr, rfl⟩ := List.mem_map.mp he; exact hwide r hr)
  have hread : ∀ reg pos, t.readReg x reg pos = rowRead (foundRows out (s.actives x f) p) reg pos := fun reg pos => by
    rw [State.readReg, h.map]
  have hidle : ∀ m ∈ x.members, m ∉ (s.actives x f).map Act.m → ∀ a ∈ s.actives x f, a.m.pos ≠ m.pos := fun m hm hout a ha he =>
    hout ((List.inj_on_of_nodup_map ok.poss (mem_actives ha).1 hm he) ▸ List.mem_map_of_mem ha)
  refine ⟨fun hn r hr k reg hk => ?_, fun reg pos hcase => ?_, fun hlate pos n hp hn => ?_, fun hlate r hr k hk => ?_,
    fun hlate m hm hout k reg hk => ?_, fun pos n hp hn => ?_, fun wg w => ?_, fun wg w => ?_⟩
  · rw [hread]
    refine hwritten ?_ _ (List.mem_map_of_mem (f := fun r : LaneRes => (r.a.m.pos, r.words)) hr) k reg hk
    have hne : (s.actives x f).length ≠ 0 := fun hz => by
      rw [List.length_eq_zero_iff] at hz
      exact absurd (hz ▸ (mem_foundNow hr).1) List.not_mem_nil
    simp [hn, hne]
  · rw [hread, foundRows, hkept reg pos]
    · exact rowRead_releases _ _ _ _
    · rw [hfst]
      exact hcase.imp_left fun hn => by simp [hn]
  · rw [h.latch pos n hp (by omega), if_pos hn, foundEntry, hlate]
    rfl
  · rw [h.latch _ _ (hpos r hr) (by omega), if_pos (by omega), foundEntry, hlate]
    have hback : (dstRegs f g x.wbase).length - 1 - ((dstRegs f g x.wbase).length - 1 - k) = k := by omega
    rw [hback]
    exact latchEntry_result x _ _ _ _ (foundNow_poss_nodup ok out) hr (hk.trans_le (hwide r hr))
  · have hkl : k < (dstRegs f g x.wbase).length := (List.getElem?_eq_some_iff.mp hk).1
    rw [h.latch _ _ (ok.pos m hm) (by omega), if_pos (by omega), foundEntry, hlate]
    have hback : (dstRegs f g x.wbase).length - 1 - ((dstRegs f g x.wbase).length - 1 - k) = k := by omega
    rw [hback]
    refine (latchEntry_idle x _ _ _ _ hm (hidle m hm hout) (fun r hr => (mem_foundNow hr).1) k).trans ?_
    rw [hread, List.getD_eq_getElem?_getD, hk]
    rfl
  · rw [h.latch pos _ hp hn, if_neg (by omega), Nat.add_sub_cancel]
  · have hboth := congrArg (Option.map Prod.fst) (h.kept wg w)
    rw [Option.map_map, Option.map_map] at hboth
    refine hboth.trans (congrArg (fun k => (s.warp? wg w).map k) (funext fun v => ?_))
    simp [raisedIn]
  · have hboth := congrArg (Option.map Prod.snd) (h.kept wg w)
    rw [Option.map_map, Option.map_map] at hboth
    exact hboth

/-- The issue of an instruction that may wait, where each active lane has its result or waits. -/
theorem issueWait_spec {i : Instr} {forbidden : Bool} {s : State} {x : Iss} {f : Form} {g : Sig} (hc : CanIssue i f forbidden s x)
    (ok : IssueOk s x) (hd : DestOk s x f g (s.actives x f).length) (h8 : (dstRegs f g x.wbase).length ≤ 8) {held : Act → Held}
    {out : Act → Found} (hheld : ∀ a ∈ s.actives x f, held a = heldOf (out a))
    (hwords : ∀ a ∈ s.actives x f, ∀ q, out a = .inl q → (dstRegs f g x.wbase).length ≤ q.1.length) (pred : Option Nat) (late : Bool) :
    ∃ (t : State) (rows : List Row), s.issueWait x f g (s.actives x f) pred held late
        = (if (foundNow out (s.actives x f)).length = (s.actives x f).length then t
          else t.afterAll ((s.actives x f).map fun a => a.m.ref))
      ∧ Leaves x f g (s.actives x f) pred late out rows s t
      ∧ HeldResult x f g late (foundNow out (s.actives x f)) s t := by
  obtain ⟨p, hprep⟩ := hd.room
  have hbusy := prepDest_busy (ok.rows.releases _) (fun reg hreg => rowBusy_releases _ _ _ (hd.idle reg hreg)) hprep
  have hleaves := foundEnd_leaves (g := g) hc ok pred late out (foundRows out (s.actives x f) p)
  exact ⟨_, _, issueWait_found hheld hprep hbusy, hleaves, hleaves.heldResult ok hd h8 hprep hwords⟩

end Sys2Proof.Machine
end

section
/-! SUPPORT. WAITW, SWWAIT and JWAIT: each lane has its value or waits, and an SWWAIT that waits blocks its group whole (R81, R139,
R245, R262, R267). -/

namespace Sys2Proof.Machine

/-! ### No access is in flight -/

theorem accessesBefore_none {s : State} {mine : Access → Bool} (h : ∀ a ∈ s.pend, mine a = false) : s.accessesBefore mine = [] := by
  unfold State.accessesBefore
  generalize s.pend = l at h
  induction l with
  | nil => rfl
  | cons a l ih =>
    rw [List.foldr_cons, ih fun b hb => h b (by simp [hb]), h a (by simp)]
    rfl

theorem drain_none {s : State} {r : LaneRef} (hp : ∀ a ∈ s.pend, s.together r a.lane = false)
    (hq : ∀ q ∈ s.queue, s.together r q.lane = false) : s.drain r = s := by
  have hbefore : s.accessesBefore (fun a => s.together r a.lane) = [] := accessesBefore_none hp
  have hqueue : (s.queue.filter fun q => s.together r q.lane) = [] := List.filter_eq_nil_iff.mpr fun q h => by simp [hq q h]
  simp only [State.drain, State.performAll, hbefore, List.foldl_nil, hqueue, List.map_nil, List.eraseDups_nil, decide_true,
    Bool.and_self, if_true]

/-- With no access of its lanes in flight, an issue drains nothing (R283). -/
theorem drainAll_none {s : State} {x : Iss} (h : s.noneInFlight x) : s.drainAll x = s := by
  unfold State.drainAll
  unfold State.noneInFlight at h
  generalize x.members = ms at h
  induction ms with
  | nil => rfl
  | cons m ms ih =>
    obtain ⟨hp, hq⟩ := h m (by simp)
    rw [List.foldl_cons, drain_none hp hq]
    exact ih fun n hn => h n (by simp [hn])

/-! ### The lanes of an issue by their active lane -/

theorem find?_actives_some {s : State} {x : Iss} {f : Form} {m : Member} {a : Act}
    (h : (s.actives x f).find? (fun a => a.m = m) = some a) : a ∈ s.actives x f ∧ a.m = m :=
  ⟨List.mem_of_find?_eq_some h, by simpa using List.find?_some h⟩

theorem find?_actives_none {s : State} {x : Iss} {f : Form} {m : Member}
    (h : (s.actives x f).find? (fun a => a.m = m) = none) : m ∉ (s.actives x f).map Act.m := by
  rintro hm
  obtain ⟨a, ha, he⟩ := List.mem_map.mp hm
  exact absurd (by simpa using he) (List.find?_eq_none.mp h a ha)

/-- What an instruction without a predicate finds. -/
def foundBare : Option (List Word ⊕ Wait) → Found
  | some (.inl ws) => .inl (ws, none)
  | some (.inr w) => .inr w
  | none => .inl ([], none)

theorem foundBare_inl {o : Option (List Word ⊕ Wait)} (ho : o.isSome) {q : List Word × Option Bool} (h : foundBare o = .inl q) :
    o = some (.inl q.1) := by
  obtain _ | ws | w := o
  · cases ho
  · obtain rfl := Sum.inl.inj h
    rfl
  · cases h

theorem heldNow_eq {s : State} {x : Iss} {f : Form} {g : Sig} {held : LaneHeld} (h : ∀ a ∈ s.actives x f, (held s f x g a).isSome) :
    s.heldNow x f g held = foundNow (fun a => foundBare (held s f x g a)) (s.actives x f) := by
  unfold State.heldNow foundNow
  refine List.filterMap_congr fun a ha => ?_
  obtain ⟨o, ho⟩ := Option.isSome_iff_exists.mp (h a ha)
  dsimp only
  rw [ho]
  cases o <;> rfl

/-- An instruction whose issue is that of a wait with a destination, and whose lanes find what `held` says, completes so. -/
theorem heldCompletes_of {mk : Form → Instr} {forbidden : Bool} {given : State → Form → Iss → Prop} {held : LaneHeld}
    (find : State → Form → Iss → Act → Held)
    (hexec : ∀ f s x, CanIssue (mk f) f forbidden s x → given s f x → (∀ a ∈ s.actives x f, (held s f x (sigOf (mk f) f) a).isSome) →
      exec (mk f) s = .next (s.issueWait x f (sigOf (mk f) f) (s.actives x f) none (find s f x)))
    (hfind : ∀ f s x, ∀ a ∈ s.actives x f, ∀ o, held s f x (sigOf (mk f) f) a = some o → find s f x a = heldOf (foundBare (some o)))
    (h8 : ∀ (f : Form) (x : Iss), (dstRegs f (sigOf (mk f) f) x.wbase).length ≤ 8)
    (hwords : ∀ f s x a ws, held s f x (sigOf (mk f) f) a = some (.inl ws) → (dstRegs f (sigOf (mk f) f) x.wbase).length ≤ ws.length) :
    HeldCompletes mk forbidden given held := by
  intro f s x hc ok hgiven _ hsome hd
  obtain ⟨t, rows, hrun, hleaves, hresult⟩ := issueWait_spec (held := find s f x) hc ok hd (h8 f x)
    (out := fun a => foundBare (held s f x (sigOf (mk f) f) a))
    (fun a ha => by
      obtain ⟨o, ho⟩ := Option.isSome_iff_exists.mp (hsome a ha)
      rw [hfind f s x a ha o ho, ho])
    (fun a ha q hq => hwords f s x a q.1 (foundBare_inl (hsome a ha) hq)) none true
  rw [heldNow_eq hsome]
  refine ⟨t, (hexec f s x hc hgiven hsome).trans (congrArg Host.Outcome.next hrun), hresult, fun m hm => ?_, hleaves.others, hleaves.frame⟩
  cases hfound : (s.actives x f).find? (fun a => a.m = m) with
  | none => exact hleaves.idle m hm (find?_actives_none hfound)
  | some a =>
    obtain ⟨ha, rfl⟩ := find?_actives_some hfound
    obtain ⟨o, ho⟩ := Option.isSome_iff_exists.mp (hsome a ha)
    rw [(mem_actives ha).2.1, Option.map_some]
    cases o with
    | inl ws =>
      rw [hleaves.now a ha (ws, none) (by rw [ho]; rfl)]
      simp only [ho]
      rfl
    | inr w =>
      rw [hleaves.waits a ha w (by rw [ho]; rfl)]
      simp only [ho]

/-! ### WAITW and JWAIT (R245, R262) -/

theorem dstRegs_le (f : Form) (g : Sig) (wbase : Nat) : (dstRegs f g wbase).length ≤ g.d.width f.ty :=
  slotRegs_length f wbase f.d g.d

/-- What WAITW finds in an active lane. -/
def waitwFind (s : State) (f : Form) (x : Iss) (a : Act) : Held :=
  match s.argsOf x f (sigOf (.waitw f) f) a with
  | none => (s.reads x f (sigOf (.waitw f) f)).lackHeld f (sigOf (.waitw f) f) a
  | some args => waitwHeld f x a args (waitDest x f (sigOf (.waitw f) f) a none) s

theorem eq_of_ite_inl {α β : Type} {c : Prop} [Decidable c] {u v : α} {w : β} (h : (if c then .inl u else .inr w : α ⊕ β) = .inl v) :
    u = v := by
  split at h
  · exact Sum.inl.inj h
  · cases h

/-- The value where a test holds, a wait where it does not. -/
theorem tested_found {c : Prop} [Decidable c] {n : Nat} {v : DWord} {k : Wait} {o : List Word ⊕ Wait}
    (h : some (if c then .inl (valWords n v) else .inr k) = some o) :
    (if c then Held.now (valWords n v) none else .wait k) = heldOf (foundBare (some o)) ∧ ∀ ws, o = .inl ws → ∃ w, ws = valWords n w := by
  obtain rfl := Option.some.inj h
  refine ⟨?_, fun ws hws => ⟨v, (eq_of_ite_inl hws).symm⟩⟩
  split <;> rfl

theorem waitwFind_eq {f : Form} {s : State} {x : Iss} {a : Act} {o : List Word ⊕ Wait}
    (h : waitwOutcome s f x (sigOf (.waitw f) f) a = some o) :
    waitwFind s f x a = heldOf (foundBare (some o)) ∧ ∀ ws, o = .inl ws → ∃ w, ws = valWords (atomSize f / 4) w := by
  unfold waitwOutcome at h
  unfold waitwFind
  cases hargs : s.argsOf x f (sigOf (.waitw f) f) a with
  | none =>
    rw [hargs] at h
    cases h
  | some args =>
    rw [hargs] at h
    unfold waitwHeld
    dsimp only at h ⊢
    cases hchk : s.poisonChk true (s.check x.core x.ctx .r (effAddr args.a args.b) (atomSize f)) with
    | ok p =>
      rw [hchk] at h
      exact tested_found h
    | wait =>
      rw [hchk] at h
      cases h
    | fault c =>
      rw [hchk] at h
      dsimp only at h ⊢
      split at h
      next hh =>
        rw [if_pos hh]
        exact tested_found h
      · cases h
    | absent =>
      rw [hchk] at h
      dsimp only at h ⊢
      split at h
      next hh =>
        rw [if_pos hh]
        exact tested_found h
      · cases h

theorem atomSize_words (f : Form) (w : DWord) : (if wideTy f.ty then 2 else 1) ≤ (valWords (atomSize f / 4) w).length := by
  rw [valWords_length, atomSize]
  split <;> decide

theorem waitw_width (f : Form) : (sigOf (.waitw f) f).d.width f.ty = if wideTy f.ty then 2 else 1 := rfl

theorem waitwCompletes : HeldCompletes .waitw false (fun s _ x => s.noneInFlight x) waitwOutcome :=
  heldCompletes_of waitwFind
    (fun f s x hc hquiet _ => by
      change execWaitw f s = _
      rw [execWaitw, front_canIssue hc]
      dsimp only
      rw [drainAll_none hquiet]
      rfl)
    (fun f s x a _ o ho => (waitwFind_eq ho).1)
    (fun f x => by
      have := dstRegs_le f (sigOf (.waitw f) f) x.wbase
      rw [waitw_width] at this
      split at this <;> omega)
    (fun f s x a ws h => by
      obtain ⟨w, rfl⟩ := (waitwFind_eq h).2 ws rfl
      exact (dstRegs_le _ _ _).trans ((waitw_width f).trans_le (atomSize_words f w)))

/-- What JWAIT finds in an active lane. -/
def jwaitFind (s : State) (f : Form) (x : Iss) (a : Act) : Held :=
  match s.conv? x.wg (slotNum f f.a) with
  | some c => if c.signed = 0 then .now [c.word] none else .wait (.jwait (slotNum f f.a) (waitDest x f (sigOf (.jwait f) f) a none))
  | none => .now [0] none

theorem jwaitCompletes : HeldCompletes .jwait true noPremise jwaitOutcome :=
  heldCompletes_of jwaitFind
    (fun f s x hc _ _ => by
      change execJwait f s = _
      rw [execJwait, front_canIssue hc]
      rfl)
    (fun f s x a _ o ho => by
      obtain ⟨c, hconv, rfl⟩ := Option.map_eq_some_iff.mp ho
      rw [jwaitFind, hconv]
      dsimp only
      split <;> rfl)
    (fun f x => (dstRegs_le f (sigOf (.jwait f) f) x.wbase).trans (show 1 ≤ 8 by decide))
    (fun f s x a ws h => by
      obtain ⟨c, -, ho⟩ := Option.map_eq_some_iff.mp h
      split at ho
      · obtain rfl := Sum.inl.inj ho
        exact dstRegs_le _ _ _
      · cases ho)

/-! ### SWWAIT (R267) -/

/-- What SWWAIT finds in an active lane. -/
def swwaitFind (s : State) (f : Form) (x : Iss) (a : Act) : Held :=
  match s.argsOf x f (sigOf (.swwait f) f) a with
  | none => (s.reads x f (sigOf (.swwait f) f)).lackHeld f (sigOf (.swwait f) f) a
  | some args => s.swwaitLook a.m.ref (swwaitAsk f args).1 (swwaitAsk f args).2.1 (swwaitAsk f args).2.2

/-- Whether an active lane has its operands and its read succeeds, or is that of a helper lane that fails. -/
def SwwaitClear (s : State) (f : Form) (x : Iss) (a : Act) : Prop :=
  ∃ args, s.argsOf x f (sigOf (.swwait f) f) a = some args ∧
    ((∃ p, s.poisonChk true (s.vaultChk a.m.ref (vaultOff args) 16 (coreOf f.c args.c)) = .ok p)
      ∨ a.lane.helper = true ∧ ∃ c, s.poisonChk true (s.vaultChk a.m.ref (vaultOff args) 16 (coreOf f.c args.c)) = .fault c)

/-- What SWWAIT finds by what a lane has: its generation, or nothing yet. -/
def swwaitHeld (o : Option (List Word ⊕ Wait)) : Held :=
  match o with
  | none => .walk 0
  | some o => heldOf (foundBare (some o))

theorem swwaitFind_of_clear {f : Form} {s : State} {x : Iss} {a : Act} (ha : a ∈ s.actives x f) (h : SwwaitClear s f x a) :
    swwaitFind s f x a = swwaitHeld (swwaitOutcome s f x (sigOf (.swwait f) f) a) := by
  obtain ⟨args, hargs, hchk⟩ := h
  unfold swwaitFind swwaitOutcome
  simp only [hargs]
  unfold State.swwaitLook
  change (match s.poisonChk true (s.vaultChk a.m.ref (vaultOff args) 16 (coreOf f.c args.c)) with
    | .ok p => _
    | .fault c => _
    | _ => _) = _
  rcases hchk with ⟨p, hp⟩ | ⟨hh, c, hf⟩
  · simp only [hp]
    change (if genAfter (wordOf (Memory.le s.mem (p + 8) 4)) (args.b.extractLsb' 0 32) then Held.now [wordOf (Memory.le s.mem (p + 8) 4)] none
        else .walk 0)
      = swwaitHeld (if genAfter (wordOf (Memory.le s.mem (p + 8) 4)) (args.b.extractLsb' 0 32) then
          some (.inl [wordOf (Memory.le s.mem (p + 8) 4)]) else none)
    split <;> rfl
  · simp only [hf, hh, (mem_actives ha).2.1, Option.any_some, if_true]
    rfl

theorem swwaitOutcome_some {f : Form} {s : State} {x : Iss} {a : Act} {o : List Word ⊕ Wait}
    (h : swwaitOutcome s f x (sigOf (.swwait f) f) a = some o) : SwwaitClear s f x a ∧ ∃ w : Word, o = .inl [w] := by
  unfold swwaitOutcome at h
  cases hargs : s.argsOf x f (sigOf (.swwait f) f) a with
  | none =>
    rw [hargs] at h
    cases h
  | some args =>
    rw [hargs] at h
    dsimp only at h
    cases hchk : s.poisonChk true (s.vaultChk a.m.ref (vaultOff args) 16 (coreOf f.c args.c)) with
    | ok p =>
      rw [hchk] at h
      dsimp only at h
      split at h
      · exact ⟨⟨args, hargs, .inl ⟨p, hchk⟩⟩, _, (Option.some.inj h).symm⟩
      · cases h
    | fault c =>
      rw [hchk] at h
      dsimp only at h
      split at h
      next hh => exact ⟨⟨args, hargs, .inr ⟨hh, c, hchk⟩⟩, _, (Option.some.inj h).symm⟩
      · cases h
    | absent =>
      rw [hchk] at h
      cases h
    | wait =>
      rw [hchk] at h
      cases h

def Held.isWalk : Held → Bool
  | .walk _ => true
  | _ => false

theorem swwait_exec {f : Form} {s : State} {x : Iss} (hc : CanIssue (.swwait f) f false s x) (hquiet : s.noneInFlight x) :
    exec (.swwait f) s = .next (if (s.actives x f).any fun a => (swwaitFind s f x a).isWalk then
        s.swwaitHold x f (sigOf (.swwait f) f)
          ((s.actives x f).filterMap fun a => (s.argsOf x f (sigOf (.swwait f) f) a).bind fun v => match swwaitFind s f x a with
            | .fault _ _ => none
            | _ => some (a, swwaitAsk f v))
          ((s.actives x f).filterMap fun a => match swwaitFind s f x a with
            | .fault c d => some ⟨a.m.ref, c, d⟩
            | _ => none)
      else s.issueWait x f (sigOf (.swwait f) f) (s.actives x f) none (swwaitFind s f x)) := by
  change execSwwait f s = _
  rw [execSwwait, front_canIssue hc]
  dsimp only
  rw [drainAll_none hquiet]
  rfl

theorem swwaitCompletes : HeldCompletes .swwait false (fun s _ x => s.noneInFlight x) swwaitOutcome := by
  have hfind : ∀ f s x, ∀ a ∈ s.actives x f, ∀ o, swwaitOutcome s f x (sigOf (.swwait f) f) a = some o →
      swwaitFind s f x a = heldOf (foundBare (some o)) := fun f s x a ha o ho => by
    rw [swwaitFind_of_clear ha (swwaitOutcome_some ho).1, ho]
    rfl
  refine heldCompletes_of swwaitFind (fun f s x hc hquiet hall => ?_) hfind
    (fun f x => (dstRegs_le f (sigOf (.swwait f) f) x.wbase).trans (show 1 ≤ 8 by decide)) (fun f s x a ws h => ?_)
  · have hnone : ((s.actives x f).any fun a => (swwaitFind s f x a).isWalk) = false := List.any_eq_false.mpr fun a ha => by
      obtain ⟨o, ho⟩ := Option.isSome_iff_exists.mp (hall a ha)
      obtain ⟨w, rfl⟩ := (swwaitOutcome_some ho).2
      rw [hfind f s x a ha _ ho]
      exact Bool.false_ne_true
    rw [swwait_exec hc hquiet, hnone]
    rfl
  · obtain ⟨-, w, hw⟩ := swwaitOutcome_some h
    obtain rfl := Sum.inl.inj hw
    exact dstRegs_le _ _ _

/-! ### An SWWAIT that waits -/

theorem updWarp_self {k : Warp → Warp} (h : ∀ v, k v = v) (s : State) (wg w : Nat) : s.updWarp wg w k = s := by
  have hwg : ∀ g : Workgroup, { g with warps := mapNth g.warps w k } = g := fun g => by rw [mapNth_eq_self fun c _ => h c]
  unfold State.updWarp State.updWg
  rw [mapIf_eq_self _ hwg, mapIf_eq_self _ hwg]

theorem updCore_self {k : Core → Core} (h : ∀ c, k c = c) {s : State} {core : Nat} (hin : (s.core core).groups ≠ []) :
    s.updCore core k = s := by
  have hany : (s.cores.any fun c => c.vault = core) = true := by
    by_contra hno
    refine hin ?_
    have hfind : s.cores.find? (fun c => c.vault = core) = none :=
      List.find?_eq_none.mpr fun c hc he => hno (List.any_eq_true.mpr ⟨c, hc, he⟩)
    rw [State.core, hfind]
    rfl
  rw [State.updCore, if_pos hany, mapIf_eq_self _ h]

/-- No position leaves the group. -/
theorem partGroup_nil {s : State} {g : GroupRef} (hin : ∃ q ∈ s.ringOf g, q.gid = gidOf g) :
    s.partGroup g [] = { s with seq := s.seq + 2 } := by
  have hflat : ∀ (gid : Nat) (gs : List Group), gs.flatMap (fun q => if q.gid != gid || ([] : List Nat) = [] then [q]
      else [{ q with lanes := q.lanes.filter fun p => !([] : List Nat).contains p },
        { q with gid := s.seq + 1, lanes := [], hold := none }]) = gs := fun gid gs => by
    simp
  unfold State.partGroup
  cases g with
  | home wg w gid =>
    dsimp only
    rw [updWarp_self fun v => by rw [hflat]]
  | reformed core slot gid =>
    dsimp only
    rw [updCore_self fun c => ?_]
    · rintro hno
      obtain ⟨q, hq, -⟩ := hin
      rw [State.ringOf, hno] at hq
      cases hq
    · rw [mapIf_eq_self _ fun q => by rw [hflat]]

theorem ringOf_setRows {i : Instr} {f : Form} {forbidden : Bool} {s : State} {x : Iss} (hc : CanIssue i f forbidden s x) (rows : List Row) :
    (s.setRows x rows).ringOf x.g = s.ringOf x.g := by
  obtain ⟨-, -, -, hwarp, -⟩ := s.setRows_spec hc rows
  cases hx : x.g with
  | home wg w gid => exact congrArg (Option.getD · []) (hwarp Warp.ring (fun _ _ => rfl) wg w)
  | reformed core slot gid =>
    unfold State.setRows
    rw [hx]
    simp only [State.ringOf]
    rw [find?_updSlot]
    rotate_left
    · exact fun _ => rfl
    cases (s.core core).groups.find? fun r => r.slot = slot <;> rfl

theorem ringOf_shiftPipe (s : State) (x : Iss) (n : Nat) (entry : Nat → Nat → Latch) (g : GroupRef) :
    (s.shiftPipe x n entry).ringOf g = s.ringOf g := by
  cases g with
  | home wg w gid => simp only [State.ringOf, shiftPipe_warp?]
  | reformed core slot gid => simp only [State.ringOf, State.core, State.shiftPipe, State.setPipe_cores]

/-- A group that is given a hold has it. -/
theorem holdOf_setHold {s : State} {g : GroupRef} (hin : ∃ q ∈ s.ringOf g, q.gid = gidOf g) (h : Hold) :
    (s.setHold g (some h)).holdOf g = some h := by
  refine holdOf_of_ring ?_ fun q hq hg => ?_
  · obtain ⟨q, hq, hg⟩ := hin
    rw [ringOf_setHold]
    exact ⟨{ q with hold := some h }, List.mem_map.mpr ⟨q, hq, by simp [hg]⟩, hg⟩
  · rw [ringOf_setHold] at hq
    obtain ⟨p, -, rfl⟩ := List.mem_map.mp hq
    by_cases hp : p.gid = gidOf g
    · simp [hp]
    · simp [hp] at hg

theorem setHold_seq_issueOnly (x : Iss) (s : State) (n : Nat) (g : GroupRef) (h : Option Hold) :
    IssueOnly s (({ s with seq := n } : State).setHold g h) :=
  IssueOnly.trans (t := { s with seq := n }) ⟨_, _, _, _, _, rfl⟩ (State.setHold_frame x _ g h).issueOnly

/-- The state of an SWWAIT that waits, before its entry moves on. -/
def State.swwaitHeldAt (s : State) (x : Iss) (f : Form) (g : Sig) (rows : List Row) : State :=
  let u := (s.setRows x rows).shiftPipe x (dstRegs f g x.wbase).length fun _ _ => .empty
  ({ u with seq := u.seq + 2 } : State).setHold x.g (some (.swwait (swwaitAsks s f x) (nextPc f x.pc) (dstRegs f g x.wbase) f.nwb
    ((s.actives x f).map fun a => (a.m.pos, luKept f g x.wbase (s.rowsOf x) a.m.pos))))

/-- What it leaves (R139, R148, R267, R491). -/
theorem swwaitHeldAt_spec {i : Instr} {forbidden : Bool} {s : State} {x : Iss} {f : Form} (g : Sig) (hc : CanIssue i f forbidden s x)
    (rows : List Row) :
    (s.swwaitHeldAt x f g rows).holdOf x.g = some (.swwait (swwaitAsks s f x) (nextPc f x.pc) (dstRegs f g x.wbase) f.nwb
        ((s.actives x f).map fun a => (a.m.pos, luKept f g x.wbase (s.rowsOf x) a.m.pos)))
      ∧ (∀ r, (s.swwaitHeldAt x f g rows).lane? r = s.lane? r)
      ∧ (s.swwaitHeldAt x f g rows).rowsOf x = rows
      ∧ (∀ pos n, pos < 32 → n < 8 → (s.swwaitHeldAt x f g rows).readLatch x pos n
          = if n < (dstRegs f g x.wbase).length then .empty else s.readLatch x pos (n - (dstRegs f g x.wbase).length))
      ∧ IssueOnly s (s.swwaitHeldAt x f g rows) := by
  obtain ⟨hrows, hframe, hlane, -, hpipes⟩ := s.setRows_spec hc rows
  have hring : ∀ k : Nat, ({ (s.setRows x rows).shiftPipe x (dstRegs f g x.wbase).length fun _ _ => .empty with seq := k } : State).ringOf
      x.g = s.ringOf x.g := fun k => by
    rw [← ringOf_setRows hc rows, ← ringOf_shiftPipe (s.setRows x rows) x (dstRegs f g x.wbase).length fun _ _ => .empty]
    cases x.g <;> rfl
  refine ⟨holdOf_setHold ?_ _, fun r => ?_, ?_, fun pos n hp hn => ?_, ?_⟩
  · rw [hring]
    exact hc.inRing
  · rw [State.swwaitHeldAt, State.setHold_lane?, ← hlane r]
    exact shiftPipe_lane? (s.setRows x rows) x _ _ r
  · rw [State.swwaitHeldAt, State.setHold_rowsOf]
    exact (shiftPipe_rowsOf (s.setRows x rows) x x _ _).trans hrows
  · rw [State.swwaitHeldAt, readLatch_of_pipes (State.setHold_pipes _ _ _), ← readLatch_of_pipes hpipes]
    exact State.shiftPipe_latch x (s.setRows x rows) _ _ pos n hp hn
  · exact hframe.issueOnly.trans ((State.shiftPipe_frame x _ _ _).issueOnly.trans (setHold_seq_issueOnly x _ _ x.g _))

theorem swwaitHold_eq {i : Instr} {forbidden : Bool} {s : State} {x : Iss} {f : Form} {g : Sig} (hc : CanIssue i f forbidden s x)
    {asks : List (Act × Nat × Word × Option Nat)} {p : List Row × List Nat}
    (hprep : prepDest (s.mapLimit x) (releaseLu f g x.wbase (s.rowsOf x)) (dstRegs f g x.wbase) (!f.nwb) (decide (asks.length = 32)) = .inr p)
    (hacts : asks.map Prod.fst = s.actives x f) (hasks : (asks.map fun a => (a.1.m.pos, a.2)) = swwaitAsks s f x) :
    s.swwaitHold x f g asks [] = (s.swwaitHeldAt x f g p.1).settleAt x.g := by
  have hkept : (asks.map fun a => (a.1.m.pos, luKept f g x.wbase (s.rowsOf x) a.1.m.pos))
      = (s.actives x f).map fun a => (a.m.pos, luKept f g x.wbase (s.rowsOf x) a.m.pos) := by
    rw [← hacts, List.map_map]
    rfl
  have hin : ∃ q ∈ (((s.setRows x p.1).shiftPipe x (dstRegs f g x.wbase).length fun _ _ => .empty).ringOf x.g), q.gid = gidOf x.g := by
    rw [ringOf_shiftPipe, ringOf_setRows hc]
    exact hc.inRing
  have hbad : ((x.members.filter fun m => ([] : List LaneFault).any fun q => q.lane = m.ref).map Member.pos) = [] := by
    simp
  unfold State.swwaitHold
  simp only [if_true, hprep, hbad, hkept, hasks, partGroup_nil hin]
  rfl

/-- What the active lanes of an SWWAIT ask. -/
def swwaitAsked (s : State) (f : Form) (x : Iss) : List (Act × Nat × Word × Option Nat) :=
  (s.actives x f).filterMap fun a => (s.argsOf x f (sigOf (.swwait f) f) a).map fun v => (a, swwaitAsk f v)

theorem swwaitAsked_acts {s : State} {f : Form} {x : Iss} (h : ∀ a ∈ s.actives x f, SwwaitClear s f x a) :
    (swwaitAsked s f x).map Prod.fst = s.actives x f := by
  rw [swwaitAsked, List.map_filterMap]
  refine (List.filterMap_congr fun a ha => ?_).trans List.filterMap_some
  obtain ⟨args, hargs, -⟩ := h a ha
  rw [hargs]
  rfl

theorem swwaitAsked_poss (s : State) (f : Form) (x : Iss) : ((swwaitAsked s f x).map fun a => (a.1.m.pos, a.2)) = swwaitAsks s f x := by
  rw [swwaitAsked, List.map_filterMap]
  refine List.filterMap_congr fun a _ => ?_
  cases s.argsOf x f (sigOf (.swwait f) f) a <;> rfl

/-- A lane that is clear finds its generation, or nothing yet. -/
theorem swwaitFind_cases {f : Form} {s : State} {x : Iss} {a : Act} (ha : a ∈ s.actives x f) (h : SwwaitClear s f x a) :
    swwaitFind s f x a = .walk 0 ∨ ∃ ws, swwaitFind s f x a = .now ws none := by
  rw [swwaitFind_of_clear ha h]
  cases ho : swwaitOutcome s f x (sigOf (.swwait f) f) a with
  | none => exact .inl rfl
  | some o =>
    obtain ⟨-, w, rfl⟩ := swwaitOutcome_some ho
    exact .inr ⟨[w], rfl⟩

/-- An SWWAIT of clear lanes, one of which has nothing yet, holds its group. -/
theorem swwait_exec_holds {f : Form} {s : State} {x : Iss} (hc : CanIssue (.swwait f) f false s x) (hquiet : s.noneInFlight x)
    (hclear : ∀ a ∈ s.actives x f, SwwaitClear s f x a)
    (hnone : ∃ a ∈ s.actives x f, swwaitOutcome s f x (sigOf (.swwait f) f) a = none) :
    exec (.swwait f) s = .next (s.swwaitHold x f (sigOf (.swwait f) f) (swwaitAsked s f x) []) := by
  have hwalks : ((s.actives x f).any fun a => (swwaitFind s f x a).isWalk) = true := by
    obtain ⟨b, hb, hnone⟩ := hnone
    refine List.any_eq_true.mpr ⟨b, hb, ?_⟩
    rw [swwaitFind_of_clear hb (hclear b hb), hnone]
    rfl
  have hfaults : ((s.actives x f).filterMap fun a => match swwaitFind s f x a with
      | .fault c d => some (⟨a.m.ref, c, d⟩ : LaneFault)
      | _ => none) = [] := List.filterMap_eq_nil_iff.mpr fun a ha => by
    rcases swwaitFind_cases ha (hclear a ha) with h | ⟨ws, h⟩
    · rw [h]
    · rw [h]
  have hasks : ((s.actives x f).filterMap fun a => (s.argsOf x f (sigOf (.swwait f) f) a).bind fun v => match swwaitFind s f x a with
      | .fault _ _ => none
      | _ => some (a, swwaitAsk f v)) = swwaitAsked s f x := List.filterMap_congr fun a ha => by
    rcases swwaitFind_cases ha (hclear a ha) with h | ⟨ws, h⟩
    · rw [h, Option.map_eq_bind]
      rfl
    · rw [h, Option.map_eq_bind]
      rfl
  rw [swwait_exec hc hquiet, hwalks, if_pos rfl, hfaults, hasks]

theorem swwaitWaits : SwwaitWaits := by
  rintro f s x g hc ok hquiet _ rfl hclear hnone hd
  obtain ⟨p, hprep⟩ := hd.room
  have hne : (s.actives x f).length ≠ 0 := fun hz => by
    obtain ⟨b, hb, -⟩ := hnone
    rw [List.length_eq_zero_iff] at hz
    exact absurd (hz ▸ hb) List.not_mem_nil
  have hflag : (!f.nwb && (s.actives x f).length != 0) = !f.nwb := by simp [hne]
  have hlen : (swwaitAsked s f x).length = (s.actives x f).length := by rw [← List.length_map Prod.fst, swwaitAsked_acts hclear]
  rw [hflag, ← hlen] at hprep
  obtain ⟨hhold, hlanes, hrows, hlatch, honly⟩ := swwaitHeldAt_spec (sigOf (.swwait f) f) hc p.1
  have hread := (prepDest_spec (ok.rows.releases _) (fun reg hreg => rowBusy_releases _ _ _ (hd.idle reg hreg)) hprep).2.1
  refine ⟨s.swwaitHeldAt x f (sigOf (.swwait f) f) p.1, ?_, hhold, hlanes, fun reg pos => ?_, fun pos n hp hn => ?_, fun pos n hp hn => ?_,
    honly⟩
  · rw [swwait_exec_holds hc hquiet hclear hnone, swwaitHold_eq hc hprep (swwaitAsked_acts hclear) (swwaitAsked_poss s f x)]
  · rw [State.readReg, hrows, hread reg pos]
    exact rowRead_releases _ _ _ _
  · have h8 : (dstRegs f (sigOf (.swwait f) f) x.wbase).length ≤ 8 := (dstRegs_le _ _ _).trans (show 1 ≤ 8 by decide)
    rw [hlatch pos n hp (by omega), if_pos hn]
  · rw [hlatch pos _ hp hn, if_neg (by omega), Nat.add_sub_cancel]

/-- Settles O16: the lanes of a wait with a destination find each its result or what it waits for; only an SWWAIT waits as a whole. -/
theorem heldReads : Obligations.HeldReads := by
  unfold Obligations.HeldReads
  exact ⟨waitwCompletes, swwaitCompletes, swwaitWaits, jwaitCompletes⟩

end Sys2Proof.Machine
end

section
/-! SUPPORT. OREAD and TSAMP, with a predicate beside the result, and OCALL, whose calls are appended one after another (R303, R427,
R436, R437, R443, R444, R448). -/

namespace Sys2Proof.Machine

/-! ### A result with a predicate -/

/-- What an instruction with a predicate finds. -/
def foundPred : (List Word × Bool) ⊕ Wait → Found
  | .inl v => .inl (v.1, some v.2)
  | .inr w => .inr w

/-- The lanes' findings, of an instruction that finds something in each. -/
def foundAll (val : PredHeld) (s : State) (f : Form) (x : Iss) (a : Act) : Found :=
  ((val s f x a).map foundPred).getD (.inl ([], none))

theorem foundAll_some {val : PredHeld} {s : State} {f : Form} {x : Iss} {a : Act} {o : (List Word × Bool) ⊕ Wait}
    (h : val s f x a = some o) : foundAll val s f x a = foundPred o := by
  rw [foundAll, h]
  rfl

theorem predNow_eq {val : PredHeld} {s : State} {f : Form} {x : Iss} (h : ∀ a ∈ s.actives x f, (val s f x a).isSome) :
    predNow s f x val = foundNow (foundAll val s f x) (s.actives x f) := by
  unfold predNow foundNow
  refine List.filterMap_congr fun a ha => ?_
  obtain ⟨o, ho⟩ := Option.isSome_iff_exists.mp (h a ha)
  rw [foundAll_some ho, ho]
  cases o <;> rfl

/-- An instruction whose issue is that of a wait with a destination and a predicate register, and whose lanes find what `val` says,
completes so. -/
theorem heldPredCompletes_of {mk : Form → Instr} {forbidden : Bool} {late : Form → Bool} {given : State → Form → Iss → Prop}
    {pred : Form → Option Nat} {val : PredHeld} (find : State → Form → Iss → Act → Held)
    (hexec : ∀ f s x, CanIssue (mk f) f forbidden s x → given s f x → DestOk s x f (sigOf (mk f) f) (s.actives x f).length →
      exec (mk f) s = .next (s.issueWait x f (sigOf (mk f) f) (s.actives x f) (pred f) (find s f x) (late f)))
    (hfind : ∀ f s x, given s f x → ∀ a ∈ s.actives x f, ∀ o, val s f x a = some o → find s f x a = heldOf (foundPred o))
    (h8 : ∀ (f : Form) (x : Iss), (dstRegs f (sigOf (mk f) f) x.wbase).length ≤ 8)
    (hwords : ∀ f s x a v, val s f x a = some (.inl v) → (dstRegs f (sigOf (mk f) f) x.wbase).length ≤ v.1.length) :
    HeldPredCompletes mk forbidden late given pred val := by
  intro f s x hc ok hgiven _ hsome hd
  obtain ⟨t, rows, hrun, hleaves, hresult⟩ := issueWait_spec (held := find s f x) hc ok hd (h8 f x) (out := foundAll val s f x)
    (fun a ha => by
      obtain ⟨o, ho⟩ := Option.isSome_iff_exists.mp (hsome a ha)
      rw [hfind f s x hgiven a ha o ho, foundAll_some ho])
    (fun a ha q hq => by
      obtain ⟨o, ho⟩ := Option.isSome_iff_exists.mp (hsome a ha)
      rw [foundAll_some ho] at hq
      cases o with
      | inl v =>
        obtain rfl := Sum.inl.inj hq
        exact hwords f s x a v ho
      | inr w => cases hq) (pred f) (late f)
  rw [predNow_eq hsome]
  refine ⟨t, (hexec f s x hc hgiven hd).trans (congrArg Host.Outcome.next hrun), hresult, fun m hm => ?_, hleaves.others, hleaves.frame⟩
  cases hfound : (s.actives x f).find? (fun a => a.m = m) with
  | none => exact hleaves.idle m hm (find?_actives_none hfound)
  | some a =>
    obtain ⟨ha, rfl⟩ := find?_actives_some hfound
    obtain ⟨o, ho⟩ := Option.isSome_iff_exists.mp (hsome a ha)
    rw [(mem_actives ha).2.1, Option.map_some]
    cases o with
    | inl v =>
      rw [hleaves.now a ha (v.1, some v.2) (foundAll_some ho)]
      simp only [ho]
      cases pred f <;> rfl
    | inr w =>
      rw [hleaves.waits a ha w (foundAll_some ho)]
      simp only [ho]

/-- What an issue reads by slots does not depend on what its lanes carry. -/
theorem reads_words (s : State) (x : Iss) (f : Form) (g : Sig) (wbase pos : Nat) (sl : Slot) (o : Opnd) :
    (s.reads x f g).words f wbase pos sl o = (s.env x).words f wbase pos sl o := by
  simp only [Env.words, State.reads, Env.within_rows, Env.within_lat]

theorem reads_uwords (s : State) (x : Iss) (f : Form) (g : Sig) (sl : Slot) (o : Opnd) :
    (s.reads x f g).uwords f sl o = (s.env x).uwords f sl o := by
  simp only [Env.uwords, State.reads, Env.within_uregs]

/-! ### OREAD (R444) -/

/-- The front of an instruction that reads registers beside its slots (R145). -/
theorem front_canIssue_reading {i : Instr} {f : Form} {forbidden : Bool} {s : State} {x : Iss} (h : CanIssue i f forbidden s x)
    {extra : List Nat} (hextra : extra.any (rowBusy (s.rowsOf x)) = false) :
    front i f forbidden s extra = .go x (s.reads x f (sigOf i f)) (sigOf i f) (s.actives x f) := by
  have hbin : (s.actives x f != [] && binFault x f forbidden) = false := by
    rcases h.allowed with e | e <;> simp [e]
  have hidle : ((s.env x).within x f (sigOf i f) (s.actives x f)).busy x f (sigOf i f) = false := h.idle
  have hrows : (s.env x).rows = s.rowsOf x := rfl
  simp only [front, frontBin, h.issue, h.decodes, ← State.actives_eq, State.reads, hbin, hidle, Env.within_rows, hrows, hextra,
    Bool.or_false, Bool.false_and, Bool.false_eq_true, if_false]

/-- What OREAD finds in an active lane. -/
def oreadFind (s : State) (f : Form) (x : Iss) (a : Act) : Held :=
  match oreadFault s x.ctx (dieOf x.core) (objectOf .oread s f x).1 (objectOf .oread s f x).2, s.object? x.ctx (objectOf .oread s f x).1 with
  | some c, _ => .fault c ((objectOf .oread s f x).1.setWidth 52)
  | none, none => .fault .objHandle ((objectOf .oread s f x).1.setWidth 52)
  | none, some o =>
    oreadHeld s o (dieOf x.core) (objectOf .oread s f x).1 (objectOf .oread s f x).2 (s.readReg x (vecReg f x.wbase f.d + 1) a.m.pos)
      (((s.env x).words f x.wbase a.m.pos f.a (sigOf (.oread f) f).a).getD [])
      (waitDest x f (sigOf (.oread f) f) a (some (slotNum f f.c)))

theorem oread_exec {f : Form} {s : State} {x : Iss} (hc : CanIssue (.oread f) f true s x)
    (hquiet : ∀ a ∈ s.actives x f, s.acquiring a.m.ref = false)
    (hidle : rowBusy (s.rowsOf x) (vecReg f x.wbase f.d + 1) = false) :
    exec (.oread f) s = .next (s.issueWait x f (sigOf (.oread f) f) (s.actives x f) (some (slotNum f f.c)) (oreadFind s f x)) := by
  have hany : ((s.actives x f).any fun a => s.acquiring a.m.ref) = false := List.any_eq_false.mpr fun a ha => by simp [hquiet a ha]
  have hrows : (s.reads x f (sigOf (.oread f) f)).rows = s.rowsOf x := Env.within_rows _ _ _ _ _
  change execOread f s = _
  rw [execOread, hc.issue]
  dsimp only
  rw [front_canIssue_reading hc (by simp [hidle])]
  simp only [hany, Bool.false_eq_true, if_false, reads_words, reads_uwords, hrows]
  rfl

theorem oreadFind_eq {f : Form} {s : State} {x : Iss} {a : Act} {o : (List Word × Bool) ⊕ Wait}
    (hlegal : oreadFault s x.ctx (dieOf x.core) (objectOf .oread s f x).1 (objectOf .oread s f x).2 = none)
    (h : oreadValue s f x a = some o) : oreadFind s f x a = heldOf (foundPred o) := by
  obtain ⟨obj, hobj, rfl⟩ := Option.map_eq_some_iff.mp h
  simp only [oreadFind, hlegal, hobj, oreadHeld, reaches, decide_eq_true_eq]
  rw [apply_ite foundPred, apply_ite heldOf]
  rfl

theorem oreadCompletes : HeldPredCompletes .oread true (fun _ => true)
    (fun s f x => (∀ a ∈ s.actives x f, s.acquiring a.m.ref = false) ∧ rowBusy (s.rowsOf x) (vecReg f x.wbase f.d + 1) = false
      ∧ oreadFault s x.ctx (dieOf x.core) (objectOf .oread s f x).1 (objectOf .oread s f x).2 = none)
    (fun f => some (slotNum f f.c)) oreadValue :=
  heldPredCompletes_of oreadFind
    (fun f s x hc hgiven _ => oread_exec hc hgiven.1 hgiven.2.1)
    (fun f s x hgiven a _ o ho => oreadFind_eq hgiven.2.2 ho)
    (fun f x => (dstRegs_le f (sigOf (.oread f) f) x.wbase).trans (show 2 ≤ 8 by decide))
    (fun f s x a v h => by
      obtain ⟨obj, -, ho⟩ := Option.map_eq_some_iff.mp h
      refine (dstRegs_le f (sigOf (.oread f) f) x.wbase).trans ?_
      obtain rfl := eq_of_ite_inl ho
      exact Nat.le_refl 2)

/-! ### TSAMP (R427) -/

/-- What TSAMP finds in an active lane. -/
def tsampFind (s : State) (f : Form) (x : Iss) (a : Act) : Held :=
  match s.argsOf x f (sigOf (.tsamp f) f) a with
  | none =>
    if a.lane.helper then .now [0, 0, 0, 0] (some false)
    else .fault ((s.reads x f (sigOf (.tsamp f) f)).lack f (sigOf (.tsamp f) f) a.m.pos).1
      ((s.reads x f (sigOf (.tsamp f) f)).lack f (sigOf (.tsamp f) f) a.m.pos).2
  | some args =>
    tsampHeld f x a (coordinates .tsamp s f x a).1 (coordinates .tsamp s f x a).2 (args.b.extractLsb' 0 32)
      (waitDest x f (sigOf (.tsamp f) f) a (tsampPred f)) s

theorem tsamp_exec {f : Form} {s : State} {x : Iss} (hc : CanIssue (.tsamp f) f false s x) :
    exec (.tsamp f) s
      = .next (s.issueWait x f (sigOf (.tsamp f) f) (s.actives x f) (tsampPred f) (tsampFind s f x) (f.m2 != 1)) := by
  have hpair : ∀ pos, pairWords (s.reads x f (sigOf (.tsamp f) f)) f (sigOf (.tsamp f) f) x.wbase pos
      = pairWords (s.env x) f (sigOf (.tsamp f) f) x.wbase pos := fun pos => by
    rw [pairWords, reads_words, pairWords]
  change execTsamp f s = _
  rw [execTsamp, front_canIssue hc]
  simp only [hpair]
  rfl

/-- A lane takes 0 and false where only a helper lane goes on. -/
theorem helperZero_eq {a : Act} {held : Held} {o : (List Word × Bool) ⊕ Wait}
    (h : (if a.lane.helper then some (.inl ([0, 0, 0, 0], false)) else none : Option ((List Word × Bool) ⊕ Wait)) = some o)
    (hheld : a.lane.helper = true → held = .now [0, 0, 0, 0] (some false)) :
    held = heldOf (foundPred o) ∧ ∀ v, o = .inl v → v.1.length = 4 := by
  split at h
  next hh =>
    obtain rfl := Option.some.inj h
    refine ⟨hheld hh, fun v hv => ?_⟩
    obtain rfl := Sum.inl.inj hv
    rfl
  · cases h

theorem sampleNow_length {s : State} {r : LaneRef} {t : Target} {x y k : Nat} {ws : List Word} (h : s.sampleNow r t x y k = some ws) :
    ws.length = 4 := by
  unfold State.sampleNow at h
  split at h
  · obtain rfl := Option.some.inj h
    simp [Target.sample]
  · split at h
    · obtain rfl := Option.some.inj h
      rfl
    · cases h

theorem tsampFind_eq {f : Form} {s : State} {x : Iss} {a : Act} {o : (List Word × Bool) ⊕ Wait} (h : tsampValue s f x a = some o) :
    tsampFind s f x a = heldOf (foundPred o) ∧ ∀ v, o = .inl v → v.1.length = 4 := by
  unfold tsampValue at h
  unfold tsampFind
  cases hargs : s.argsOf x f (sigOf (.tsamp f) f) a with
  | none =>
    simp only [hargs] at h ⊢
    exact helperZero_eq h fun hh => if_pos hh
  | some args =>
    simp only [hargs] at h ⊢
    unfold tsampHeld
    cases ht : s.target? x.ctx (args.b.extractLsb' 0 32) with
    | none =>
      simp only [ht] at h ⊢
      exact helperZero_eq h fun hh => by rw [sampFault, if_pos hh]
    | some t =>
      simp only [ht, Bool.or_eq_true, Bool.and_eq_true, decide_eq_true_eq] at h ⊢
      by_cases hrange : (t.w ≤ (coordinates .tsamp s f x a).1.toNat % 65536 ∨ t.h ≤ (coordinates .tsamp s f x a).1.toNat / 65536)
          ∨ t.samples ≤ (coordinates .tsamp s f x a).2.toNat
      · rw [if_pos (by tauto)] at h
        rw [if_pos hrange]
        exact helperZero_eq h fun hh => if_pos hh
      rw [if_neg hrange]
      by_cases hown : f.m2 = 0 ∧ (a.lane.pixel.any fun p => p.target = args.b.extractLsb' 0 32) = true
      · rw [if_pos (by tauto)] at h
        rw [if_pos hown]
        exact helperZero_eq h fun hh => by rw [sampFault, if_pos hh]
      rw [if_neg (by tauto)] at h
      rw [if_neg hown]
      by_cases hpending : f.m2 = 0 ∧ s.pixelPending t t.order ((coordinates .tsamp s f x a).1.toNat % 65536)
          ((coordinates .tsamp s f x a).1.toNat / 65536) = true
      · rw [if_pos hpending] at h ⊢
        obtain rfl := Option.some.inj h
        exact ⟨rfl, fun v hv => nomatch hv⟩
      rw [if_neg hpending] at h ⊢
      cases hws : s.sampleNow a.m.ref t ((coordinates .tsamp s f x a).1.toNat % 65536)
          ((coordinates .tsamp s f x a).1.toNat / 65536) (coordinates .tsamp s f x a).2.toNat with
      | none =>
        simp only [hws] at h ⊢
        exact helperZero_eq h fun hh => by rw [sampFault, if_pos hh]
      | some ws =>
        simp only [hws] at h ⊢
        obtain rfl := Option.some.inj h
        refine ⟨rfl, fun v hv => ?_⟩
        obtain rfl := Sum.inl.inj hv
        exact sampleNow_length hws

theorem tsampCompletes : HeldPredCompletes .tsamp false (fun f => f.m2 != 1) noPremise tsampPred tsampValue :=
  heldPredCompletes_of tsampFind
    (fun f s x hc _ _ => tsamp_exec hc)
    (fun f s x _ a _ o ho => (tsampFind_eq ho).1)
    (fun f x => (dstRegs_le f (sigOf (.tsamp f) f) x.wbase).trans (show 4 ≤ 8 by decide))
    (fun f s x a v h => (dstRegs_le f (sigOf (.tsamp f) f) x.wbase).trans ((tsampFind_eq h).2 v rfl).ge)

/-! ### The issue of OCALL (R443) -/

theorem ne_nil_eq_length {α : Type} [DecidableEq α] (l : List α) : (l != []) = (l.length != 0) := by
  cases l <;> rfl

theorem issueWait_congr {s : State} {x : Iss} {f : Form} {g : Sig} {act : List Act} {pred : Option Nat} {held held' : Act → Held}
    (h : ∀ a ∈ act, held a = held' a) (late : Bool) : s.issueWait x f g act pred held late = s.issueWait x f g act pred held' late := by
  have hmap : (act.map fun a => (a, held a)) = act.map fun a => (a, held' a) := List.map_congr_left fun a ha => by rw [h a ha]
  unfold State.issueWait
  rw [hmap]

/-- A lane's call after those of other lanes, with what the lane finds. -/
def callOne (s : State) (f : Form) (x : Iss) (acc : State × List (Nat × Held)) (a : Act) : State × List (Nat × Held) :=
  let q := ocallLane x (dieOf x.core) (objectOf .ocall s f x).1 (objectOf .ocall s f x).2 (callArgs s f x a) (callDest f x a) acc.1
  (q.1, acc.2 ++ [(a.m.pos, q.2)])

/-- The calls of the lanes that are no helpers. -/
def callsMade (s : State) (f : Form) (x : Iss) : State × List (Nat × Held) :=
  ((s.actives x f).filter fun a => !a.lane.helper).foldl (callOne s f x) (s, [])

/-- What an active lane finds after the calls. -/
def callFound (made : List (Nat × Held)) (a : Act) : Held :=
  if a.lane.helper then .now [0, 0] (some false) else ((made.find? fun e => e.1 = a.m.pos).map Prod.snd).getD (.now [0, 0] none)

def Held.awaitsRoom : Held → Bool
  | .wait (.callFull _ _ _ _) => true
  | _ => false

/-- The state in which OCALL issues once its calls are made: a full log has been told to the host (R449). -/
def callState (s : State) (f : Form) (x : Iss) : State :=
  if (callsMade s f x).2.any fun e => e.2.awaitsRoom then (callsMade s f x).1.askTrim x.ctx (objectOf .ocall s f x).1 true
  else (callsMade s f x).1

theorem ocall_exec {f : Form} {s : State} {x : Iss} (hc : CanIssue (.ocall f) f true s x)
    (hd : DestOk s x f (sigOf (.ocall f) f) (s.actives x f).length)
    (hlegal : ∀ a ∈ s.actives x f, a.lane.helper = true
      ∨ callFault s x.ctx (dieOf x.core) (objectOf .ocall s f x).1 (objectOf .ocall s f x).2 = none)
    (hquiet : ∀ a ∈ s.actives x f, a.lane.helper = true ∨ s.quiet a.m.ref false = true) :
    exec (.ocall f) s = .next ((callState s f x).issueWait x f (sigOf (.ocall f) f) (s.actives x f) (some (slotNum f f.c))
      (callFound (callsMade s f x).2)) := by
  obtain ⟨p, hprep⟩ := hd.room
  rw [← ne_nil_eq_length] at hprep
  change execOcall f s = _
  rw [execOcall, front_canIssue hc]
  simp only [reads_words, reads_uwords]
  generalize hcalls : (s.actives x f).filter _ = calls
  obtain rfl : calls = (s.actives x f).filter fun a => !a.lane.helper := by
    rw [← hcalls]
    refine List.filter_congr fun a ha => ?_
    rcases hlegal a ha with h | h
    · simp [h]
    · change (if a.lane.helper = true then _ else (callFault s x.ctx (dieOf x.core) (objectOf .ocall s f x).1 (objectOf .ocall s f x).2).map _).isNone
        = _
      rw [h]
      cases a.lane.helper <;> rfl
  have hall : (((s.actives x f).filter fun a => !a.lane.helper).all fun a => s.quiet a.m.ref false) = true := by
    refine List.all_eq_true.mpr fun a ha => ?_
    obtain ⟨ha, hplain⟩ := List.mem_filter.mp ha
    exact (hquiet a ha).resolve_left (by simpa using hplain)
  have hserved : ((s.actives x f).filter fun a => a.lane.helper
      || (callFault s x.ctx (dieOf x.core) (objectOf .ocall s f x).1 (objectOf .ocall s f x).2).isNone) = s.actives x f := by
    refine List.filter_eq_self.mpr fun a ha => ?_
    rw [Bool.or_eq_true]
    exact (hlegal a ha).imp_right fun h => Option.isNone_iff_eq_none.mpr h
  dsimp only [objectOf] at hserved
  simp only [hserved, if_true, hprep, hall, Bool.not_true, Bool.false_eq_true, if_false]
  refine congrArg Host.Outcome.next (issueWait_congr (fun a ha => ?_) _)
  rcases hlegal a ha with h | h
  · simp only [callFound, h, if_true]
  · dsimp only [objectOf] at h
    rw [h]
    unfold callFound
    cases a.lane.helper <;> rfl

/-! ### OCALL of helper lanes (R85) -/

theorem ocall_helpers_exec {f : Form} {s : State} {x : Iss} (hc : CanIssue (.ocall f) f true s x)
    (hhelp : ∀ a ∈ s.actives x f, a.lane.helper = true) (hd : DestOk s x f (sigOf (.ocall f) f) (s.actives x f).length) :
    exec (.ocall f) s = .next (s.issueWait x f (sigOf (.ocall f) f) (s.actives x f) (some (slotNum f f.c))
      fun _ => .now [0, 0] (some false)) := by
  have hnone : ((s.actives x f).filter fun a => !a.lane.helper) = [] := List.filter_eq_nil_iff.mpr fun a ha => by simp [hhelp a ha]
  have hmade : callsMade s f x = (s, []) := by
    rw [callsMade, hnone]
    rfl
  have hstate : callState s f x = s := by
    rw [callState, hmade]
    rfl
  rw [ocall_exec hc hd (fun a ha => .inl (hhelp a ha)) (fun a ha => .inl (hhelp a ha)), hstate]
  exact congrArg Host.Outcome.next (issueWait_congr (fun a ha => if_pos (hhelp a ha)) _)

theorem ocallCompletes : HeldPredCompletes .ocall true (fun _ => true) (fun s f x => ∀ a ∈ s.actives x f, a.lane.helper = true)
    (fun f => some (slotNum f f.c)) fun _ _ _ _ => some (.inl ([0, 0], false)) :=
  heldPredCompletes_of (fun _ _ _ _ => .now [0, 0] (some false))
    (fun f s x hc hhelp hd => ocall_helpers_exec hc hhelp hd)
    (fun f s x _ a _ o ho => by
      obtain rfl := Option.some.inj ho
      rfl)
    (fun f x => (dstRegs_le f (sigOf (.ocall f) f) x.wbase).trans (show 2 ≤ 8 by decide))
    (fun f s x a v h => by
      obtain rfl := Sum.inl.inj (Option.some.inj h)
      exact dstRegs_le f (sigOf (.ocall f) f) x.wbase)

/-! ### Appended calls (R436, R437) -/

/-- An object's handle is the one that names it. -/
theorem handle_of_object? {s : State} {ctx : Nat} {h : Word} {o : ReplayObj} (ho : s.object? ctx h = some o) : o.handle = h := by
  obtain ⟨-, -, hkind, hindex⟩ := object?_kind ho
  have hclass : h.toNat / 2 ^ 20 = 0x200 ∨ h.toNat / 2 ^ 20 = 0x400 := by
    unfold State.object? at ho
    split at ho
    next hk => simpa using hk
    · cases ho
  have hnum : o.kind * 2 ^ 28 + o.index = h.toNat := by
    rw [hkind, hindex]
    omega
  rw [ReplayObj.handle, hnum, wordOf, BitVec.ofNat_toNat, BitVec.setWidth_eq]

/-- A change of an object that keeps what names it. -/
theorem object?_updObject {s : State} {ctx : Nat} {h : Word} {o : ReplayObj} (ho : s.object? ctx h = some o) {k : ReplayObj → ReplayObj}
    (hk : ∀ q, (k q).kind = q.kind ∧ (k q).index = q.index ∧ (k q).dead = q.dead) :
    (s.updObject ctx h k).object? ctx h = some (k o) := by
  obtain ⟨-, -, hkind, hindex⟩ := object?_kind ho
  unfold State.object? at ho ⊢
  split at ho
  next hclass =>
    obtain ⟨c, hc, hfind⟩ := Option.bind_eq_some_iff.mp ho
    have hkeeps : KeepsId fun c : Context =>
        { c with objects := mapIf (fun o => o.kind = h.toNat / 2 ^ 28 && o.index = h.toNat % 2 ^ 20) k c.objects } := fun _ => ⟨rfl, rfl⟩
    rw [if_pos hclass, State.updObject, ctx?_updCtx_same hkeeps hc, Option.bind_some, mapIf_find? _ _ _ _ fun q _ => ?_,
      hfind, Option.map_some, if_pos (by simp [hkind, hindex])]
    obtain ⟨h1, h2, h3⟩ := hk q
    rw [h1, h2, h3]
  · cases ho

/-- Memory with an entry in both copies of a log. -/
def putMem (o : ReplayObj) (m : Mem) (e : LogEntry) : Mem := o.logAt.foldl (fun m b => Memory.store m (o.slotAt e.pos b) e.bytes) m

theorem putEntry_eq (s : State) (o : ReplayObj) (e : LogEntry) : ∃ poison, s.putEntry o e = { s with mem := putMem o s.mem e, poison := poison } := by
  unfold State.putEntry putMem
  generalize o.logAt = copies
  generalize e.bytes = bytes
  induction copies generalizing s with
  | nil => exact ⟨s.poison, rfl⟩
  | cons b copies ih =>
    obtain ⟨poison, h⟩ := ih (s.storeBytes (o.slotAt e.pos b) bytes)
    exact ⟨poison, h⟩

theorem foldl_putEntry_mem {α : Type} (o : ReplayObj) (e : α → LogEntry) (l : List α) (s : State) :
    (l.foldl (fun u a => u.putEntry o (e a)) s).mem = l.foldl (fun m a => putMem o m (e a)) s.mem := by
  induction l generalizing s with
  | nil => rfl
  | cons a l ih =>
    obtain ⟨poison, h⟩ := putEntry_eq s o (e a)
    rw [List.foldl_cons, List.foldl_cons, ih, h]

/-- The states differ in contexts, memory and poison alone. -/
def LogOnly (s t : State) : Prop := ∃ contexts mem poison, t = { s with contexts := contexts, mem := mem, poison := poison }

theorem LogOnly.trans {s t u : State} (h : LogOnly s t) (k : LogOnly t u) : LogOnly s u := by
  obtain ⟨_, _, _, rfl⟩ := h
  obtain ⟨_, _, _, rfl⟩ := k
  exact ⟨_, _, _, rfl⟩

theorem LogOnly.canIssue {i : Instr} {f : Form} {forbidden : Bool} {s t : State} {x : Iss} (h : LogOnly s t)
    (hc : CanIssue i f forbidden s x) : CanIssue i f forbidden t x := by
  obtain ⟨_, _, _, rfl⟩ := h
  exact ⟨hc.issue, hc.decodes, hc.allowed, hc.idle⟩

theorem LogOnly.issueOk {s t : State} {x : Iss} (h : LogOnly s t) (ok : IssueOk s x) : IssueOk t x := by
  obtain ⟨_, _, _, rfl⟩ := h
  exact ⟨ok.rows, ok.pos, ok.poss, ok.lanes, ok.live⟩

theorem LogOnly.destOk {s t : State} {x : Iss} {f : Form} {g : Sig} {n : Nat} (h : LogOnly s t) (hd : DestOk s x f g n) : DestOk t x f g n := by
  obtain ⟨_, _, _, rfl⟩ := h
  exact ⟨hd.room, hd.idle⟩

theorem LogOnly.actives {s t : State} (h : LogOnly s t) (x : Iss) (f : Form) : t.actives x f = s.actives x f := by
  obtain ⟨_, _, _, rfl⟩ := h
  rfl

theorem LogOnly.lane? {s t : State} (h : LogOnly s t) (r : LaneRef) : t.lane? r = s.lane? r := by
  obtain ⟨_, _, _, rfl⟩ := h
  rfl

theorem LogOnly.keepingLu {s t : State} (h : LogOnly s t) (x : Iss) (f : Form) (g : Sig) (a : Act) (w : Wait) :
    t.keepingLu x f g a w = s.keepingLu x f g a w := by
  obtain ⟨_, _, _, rfl⟩ := h
  rfl

/-- An appended call (R436, R437). -/
theorem appendCall_spec {s : State} {ctx : Nat} {h : Word} {o : ReplayObj} (ho : s.object? ctx h = some o) (k die : Nat) (args : List Word) :
    (s.appendCall ctx o k die args).object? ctx h = some { o with tail := nextPos o.tail }
      ∧ (s.appendCall ctx o k die args).mem
        = putMem o s.mem { pos := nextPos o.tail, method := k, die := die, args := args, ret := 0, status := 0 }
      ∧ LogOnly s (s.appendCall ctx o k die args) := by
  unfold State.appendCall
  rw [handle_of_object? ho]
  obtain ⟨poison, hput⟩ := putEntry_eq (s.updObject ctx h fun o => { o with tail := nextPos o.tail }) o
    { pos := nextPos o.tail, method := k, die := die, args := args, ret := 0, status := 0 }
  rw [hput]
  exact ⟨object?_updObject ho fun _ => ⟨rfl, rfl, rfl⟩, rfl, _, _, _, rfl⟩

/-- What the lanes of OCALL find, where the log has room. -/
def callWaits (s : State) (f : Form) (x : Iss) (o : ReplayObj) (l : List (Act × Nat)) : List (Nat × Held) :=
  l.map fun e => (e.1.m.pos, .wait (.call (objectOf .ocall s f x).1 (posAfter o.tail (e.2 + 1)) false (callDest f x e.1)))

/-- Calls of lanes one after another, the first of them the `n`-th (R436, R443). -/
theorem callOne_foldl {s : State} {f : Form} {x : Iss} {o : ReplayObj} (as : List Act) (n : Nat) (u : State) (made : List (Nat × Held))
    (ho : u.object? x.ctx (objectOf .ocall s f x).1 = some { o with tail := posAfter o.tail n })
    (hroom : ∀ i, i < as.length → (posAfter o.tail (n + i) - o.trim).toNat < 2 ^ o.logk) :
    (as.foldl (callOne s f x) (u, made)).2 = made ++ callWaits s f x o (as.zipIdx n)
      ∧ (as.foldl (callOne s f x) (u, made)).1.object? x.ctx (objectOf .ocall s f x).1
        = some { o with tail := posAfter o.tail (n + as.length) }
      ∧ (as.foldl (callOne s f x) (u, made)).1.mem
        = (as.zipIdx n).foldl (fun m a => putMem o m (callEntry s f x o a.1 a.2)) u.mem
      ∧ LogOnly u (as.foldl (callOne s f x) (u, made)).1 := by
  induction as generalizing n u made with
  | nil => exact ⟨(List.append_nil _).symm, ho, rfl, _, _, _, rfl⟩
  | cons a as ih =>
    have hfull : ({ o with tail := posAfter o.tail n } : ReplayObj).full = false := by
      have := hroom 0 (by simp)
      simpa [ReplayObj.full] using this
    obtain ⟨hobj, hmem, honly⟩ := appendCall_spec ho (objectOf .ocall s f x).2.toNat (dieOf x.core) (callArgs s f x a)
    have hone : callOne s f x (u, made) a
        = (u.appendCall x.ctx { o with tail := posAfter o.tail n } (objectOf .ocall s f x).2.toNat (dieOf x.core) (callArgs s f x a),
          made ++ callWaits s f x o [(a, n)]) := by
      unfold callOne ocallLane
      simp only [ho, hfull, Bool.false_eq_true, if_false]
      rfl
    rw [List.foldl_cons, hone, List.zipIdx_cons, List.length_cons]
    obtain ⟨h2, hobj', hmem', honly'⟩ := ih (n + 1) _ (made ++ callWaits s f x o [(a, n)]) hobj fun i hi => by
      have := hroom (i + 1) (by simpa using hi)
      rwa [← Nat.add_assoc, Nat.add_right_comm] at this
    refine ⟨?_, ?_, ?_, honly.trans honly'⟩
    · rw [h2, List.append_assoc]
      rfl
    · rw [hobj', Nat.add_right_comm, Nat.add_assoc]
    · rw [hmem', hmem]
      rfl

/-! ### OCALL (R443, R448) -/

/-- With its calls made, OCALL issues with every active lane waiting. -/
theorem callOk_issues {f : Form} {s : State} {x : Iss} {o : ReplayObj} (ok : CallOk f s x o) {w : Act → Nat → Wait}
    (hstate : LogOnly s (callState s f x))
    (hfound : ∀ n a, (s.actives x f)[n]? = some a → callFound (callsMade s f x).2 a = .wait (w a n)) :
    ∃ t : State, exec (.ocall f) s = .next (t.afterAll ((s.actives x f).map fun a => a.m.ref)) ∧ CallsWait f s x w t
      ∧ IssueOnly (callState s f x) t := by
  have hrun := ocall_exec ok.issue ok.ready (fun _ _ => .inr ok.legal) fun a ha => .inr (ok.quiet a ha)
  have hacts := hstate.actives x f
  obtain ⟨t, rows, hissue, hleaves, -⟩ := issueWait_spec (held := callFound (callsMade s f x).2) (hstate.canIssue ok.issue)
    (hstate.issueOk ok.whole) (hacts ▸ hstate.destOk ok.ready)
    ((dstRegs_le f (sigOf (.ocall f) f) x.wbase).trans (show 2 ≤ 8 by decide))
    (out := fun a => .inr (w a ((s.actives x f).idxOf a)))
    (fun a ha => hfound _ a (List.getElem?_idxOf (hacts ▸ ha)))
    (fun a _ q hq => nomatch hq) (some (slotNum f f.c)) true
  have hnone : foundNow (fun a => .inr (w a ((s.actives x f).idxOf a))) (s.actives x f) = [] :=
    List.filterMap_eq_nil_iff.mpr fun _ _ => rfl
  rw [hacts, hnone, if_neg fun h => ok.acts (List.length_eq_zero_iff.mp h.symm)] at hissue
  rw [hacts] at hleaves
  refine ⟨t, hrun.trans (congrArg Host.Outcome.next hissue), ⟨fun n a hn => ?_, fun m hm hidle => ?_, fun r hr => ?_⟩, hleaves.frame⟩
  · have hidx : (s.actives x f).idxOf a = n := by
      obtain ⟨hlt, rfl⟩ := List.getElem?_eq_some_iff.mp hn
      exact ((actives_refs_nodup ok.whole).of_map _).idxOf_getElem n hlt
    rw [hleaves.waits a (List.mem_of_getElem? hn) _ rfl, hidx, hstate.keepingLu]
  · rw [hleaves.idle m hm hidle, hstate.lane?]
  · rw [hleaves.others r hr, hstate.lane?]

theorem actives_poss_nodup {s : State} {x : Iss} {f : Form} (ok : IssueOk s x) : ((s.actives x f).map fun a => a.m.pos).Nodup := by
  have hmap : ((s.actives x f).map fun a => a.m.pos) = ((s.actives x f).map Act.m).map Member.pos := by
    rw [List.map_map]
    rfl
  rw [hmap]
  exact ((actives_sublist s x f).map Member.pos).nodup ok.poss

theorem callFound_of_mem {made : List (Nat × Held)} {a : Act} {q : Held} (hplain : a.lane.helper = false)
    (hkeys : (made.map Prod.fst).Nodup) (hmem : (a.m.pos, q) ∈ made) : callFound made a = q := by
  rw [callFound, hplain]
  simp only [Bool.false_eq_true, if_false]
  rw [find_pos made hkeys hmem]
  rfl

theorem callWaits_keys (s : State) (f : Form) (x : Iss) (o : ReplayObj) (as : List Act) (n : Nat) :
    (callWaits s f x o (as.zipIdx n)).map Prod.fst = as.map fun a => a.m.pos := by
  rw [callWaits, List.map_map]
  calc (as.zipIdx n).map (Prod.fst ∘ _) = ((as.zipIdx n).map Prod.fst).map fun a => a.m.pos := by rw [List.map_map]; rfl
    _ = as.map fun a => a.m.pos := by rw [List.zipIdx_map_fst]

/-- Of lanes none of which is a helper, every one calls. -/
theorem callsMade_plain {s : State} {f : Form} {x : Iss} (h : ∀ a ∈ s.actives x f, a.lane.helper = false) :
    callsMade s f x = (s.actives x f).foldl (callOne s f x) (s, []) := by
  rw [callsMade, List.filter_eq_self.mpr fun a ha => by simp [h a ha]]

/-- With the log full every lane waits for room, and nothing is appended (R448). -/
theorem callOne_foldl_full {s : State} {f : Form} {x : Iss} {o : ReplayObj} (ho : s.object? x.ctx (objectOf .ocall s f x).1 = some o)
    (hfull : o.full = true) (as : List Act) (made : List (Nat × Held)) :
    as.foldl (callOne s f x) (s, made) = (s, made ++ as.map fun a =>
      (a.m.pos, .wait (.callFull (objectOf .ocall s f x).1 (objectOf .ocall s f x).2 (callArgs s f x a) (callDest f x a)))) := by
  induction as generalizing made with
  | nil => rw [List.foldl_nil, List.map_nil, List.append_nil]
  | cons a as ih =>
    have hone : callOne s f x (s, made) a = (s, made ++ [(a.m.pos,
        .wait (.callFull (objectOf .ocall s f x).1 (objectOf .ocall s f x).2 (callArgs s f x a) (callDest f x a)))]) := by
      unfold callOne ocallLane
      simp only [ho, hfull, if_true]
    rw [List.foldl_cons, hone, ih, List.append_assoc]
    rfl

/-- Outside host-assisted mode nothing is told (R449). -/
theorem askTrim_of_mode {s : State} {ctx : Nat} (h : s.hostMode ctx 1 = false) (hd : Word) (issued : Bool) : s.askTrim ctx hd issued = s := by
  unfold State.askTrim
  cases s.object? ctx hd with
  | none => rfl
  | some o => simp [h]

/-- With room in the log, the calls are appended. -/
theorem callsAppend {f : Form} {s : State} {x : Iss} {o : ReplayObj} (ok : CallOk f s x o)
    (hroom : ∀ n, n < (s.actives x f).length → (posAfter o.tail n - o.trim).toNat < 2 ^ o.logk) :
    (callsMade s f x).2 = callWaits s f x o (s.actives x f).zipIdx
      ∧ (callState s f x).object? x.ctx (objectOf .ocall s f x).1 = some { o with tail := posAfter o.tail (s.actives x f).length }
      ∧ (callState s f x).mem = ((s.actives x f).zipIdx.foldl (fun u a => u.putEntry o (callEntry s f x o a.1 a.2)) s).mem
      ∧ LogOnly s (callState s f x) := by
  obtain ⟨hmade, hobj, hmem, honly⟩ := callOne_foldl (f := f) (s.actives x f) 0 s [] ok.object fun i hi => by simpa using hroom i hi
  rw [List.nil_append, ← callsMade_plain ok.plain] at hmade
  have hstate : callState s f x = ((s.actives x f).foldl (callOne s f x) (s, [])).1 := by
    rw [callState, if_neg, callsMade_plain ok.plain]
    rw [hmade, Bool.not_eq_true, List.any_eq_false]
    intro e he
    obtain ⟨p, -, rfl⟩ := List.mem_map.mp he
    exact Bool.false_ne_true
  rw [hstate, foldl_putEntry_mem]
  exact ⟨hmade, by rwa [Nat.zero_add] at hobj, hmem, honly⟩

theorem objectCallComplete : ObjectCallComplete := by
  refine ⟨fun f s x o ok hroom => ?_, fun f s x o ok hfull hmode => ?_⟩
  · obtain ⟨hmade, hobj, hmem, hlog⟩ := callsAppend ok hroom
    obtain ⟨t, hrun, hwait, hframe⟩ := callOk_issues ok hlog
      (w := fun a n => .call (objectOf .ocall s f x).1 (posAfter o.tail (n + 1)) false (callDest f x a)) fun n a hn => by
        rw [hmade]
        refine callFound_of_mem (ok.plain a (List.mem_of_getElem? hn)) ?_
          (List.mem_map.mpr ⟨(a, n), List.mk_mem_zipIdx_iff_getElem?.mpr hn, rfl⟩)
        rw [callWaits_keys]
        exact actives_poss_nodup ok.whole
    generalize callState s f x = u at hobj hmem hlog hframe
    obtain ⟨wgs, ctl, cores, pipes, seq, rfl⟩ := hframe
    obtain ⟨contexts, mem, poison, rfl⟩ := hlog
    exact ⟨_, hrun, hwait, hobj, hmem, wgs, ctl, cores, pipes, contexts, seq, mem, poison, rfl⟩
  · have hmade := (callsMade_plain ok.plain).trans (callOne_foldl_full ok.object hfull (s.actives x f) [])
    rw [List.nil_append] at hmade
    have hstate : callState s f x = s := by
      rw [callState, hmade, askTrim_of_mode hmode, ite_self]
    obtain ⟨t, hrun, hwait, hframe⟩ := callOk_issues ok (by rw [hstate]; exact ⟨_, _, _, rfl⟩)
      (w := fun a _ => .callFull (objectOf .ocall s f x).1 (objectOf .ocall s f x).2 (callArgs s f x a) (callDest f x a)) fun n a hn => by
        rw [hmade]
        refine callFound_of_mem (ok.plain a (List.mem_of_getElem? hn)) ?_
          (List.mem_map_of_mem (f := fun a : Act => (a.m.pos, Held.wait (.callFull (objectOf .ocall s f x).1 (objectOf .ocall s f x).2
            (callArgs s f x a) (callDest f x a)))) (List.mem_of_getElem? hn))
        rw [List.map_map]
        exact actives_poss_nodup ok.whole
    rw [hstate] at hframe
    exact ⟨t, hrun, hwait, hframe⟩

/-- Settles O26: a call appends its entries lane by lane and each lane waits, and OREAD, TSAMP and OCALL of helpers have their results
or wait. -/
theorem objectAccess : Obligations.ObjectAccess := by
  unfold Obligations.ObjectAccess
  exact ⟨objectCallComplete, oreadCompletes, tsampCompletes, ocallCompletes⟩

end Sys2Proof.Machine
end

section
/-! SUPPORT. Walks, zeroing and mapping changes that complete: the caches, the pages and the memory they leave (R119, R120, R124). -/

namespace Sys2Proof.Machine

/-! ### A walk (R119) -/

/-- What enters a cache that holds at least one entry is in it. -/
theorem mem_cacheFill {α : Type} [DecidableEq α] {n : Nat} (hn : 0 < n) (e : α) (l : List α) : e ∈ cacheFill n e l := by
  unfold cacheFill
  generalize l.filter (· != e) = old
  rw [List.drop_append_of_le_length (by simp only [List.length_append, List.length_singleton]; omega)]
  exact List.mem_append_right _ (List.mem_singleton_self e)

/-- The L2 translations once the mapping `p` has entered the cache of a core's cluster. -/
def State.l2Filled (s : State) (core ctx : Nat) (p : Page) : List (Nat × Nat × Page) :=
  s.l2.filter (fun e => !decide (e.1 = clusterOf core))
    ++ cacheFill 4096 (clusterOf core, ctx, p) (s.l2.filter fun e => decide (e.1 = clusterOf core))

/-- The state once a mapping has entered the caches that `core` sees. -/
def State.cacheMapping (s : State) (core ctx : Nat) (p : Page) : State :=
  State.updCore { s with l2 := s.l2Filled core ctx p } core fun c => { c with l1 := cacheFill 64 (ctx, p) c.l1 }

theorem cacheMapping_l2 (s : State) (core ctx : Nat) (p : Page) : (clusterOf core, ctx, p) ∈ (s.cacheMapping core ctx p).l2 := by
  rw [State.cacheMapping, State.updCore_l2]
  exact List.mem_append_right _ (mem_cacheFill (by decide) _ _)

theorem cacheMapping_core (s : State) (core ctx : Nat) (p : Page) (c : Nat) : (s.cacheMapping core ctx p).core c
    = if c = core then { s.core c with l1 := cacheFill 64 (ctx, p) (s.core c).l1 } else s.core c :=
  State.core_updCore { s with l2 := s.l2Filled core ctx p } core c (fun c => { c with l1 := cacheFill 64 (ctx, p) c.l1 }) fun _ => rfl

theorem cacheMapping_frame (s : State) (core ctx : Nat) (p : Page) :
    ∃ cores l2, s.cacheMapping core ctx p = { s with cores := cores, l2 := l2 } := by
  obtain ⟨cores, hcores⟩ := updCore_frame { s with l2 := s.l2Filled core ctx p } core fun c => { c with l1 := cacheFill 64 (ctx, p) c.l1 }
  exact ⟨cores, _, hcores⟩

/-- The state once a walk has ended. -/
def State.walkEnded (s : State) (core ctx va : Nat) : State := { s with walks := s.walks.filter (· != ⟨core, ctx, va⟩) }

theorem translationComplete_eq {s : State} {core ctx va : Nat} (h : (⟨core, ctx, va⟩ : Walk) ∈ s.walks) :
    exec (.translationComplete core ctx va) s = .next (((s.ctx? ctx).bind fun c => pageOf c.pages va).elim (s.walkEnded core ctx va)
      ((s.walkEnded core ctx va).cacheMapping core ctx)) := by
  change execTranslationComplete core ctx va s = _
  rw [execTranslationComplete, if_neg (by simpa using h)]
  change (match (s.ctx? ctx).bind fun c => pageOf c.pages va with | none => _ | some p => _) = _
  cases (s.ctx? ctx).bind fun c => pageOf c.pages va <;> rfl

theorem walkCompletes : WalkCompletes := by
  intro s core ctx va hwalk
  refine ⟨_, translationComplete_eq hwalk, ?_⟩
  cases (s.ctx? ctx).bind fun c => pageOf c.pages va with
  | none => exact ⟨rfl, rfl⟩
  | some p =>
    have hcore := cacheMapping_core (s.walkEnded core ctx va) core ctx p
    obtain ⟨cores, l2, hframe⟩ := cacheMapping_frame (s.walkEnded core ctx va) core ctx p
    have hwalks : ((s.walkEnded core ctx va).cacheMapping core ctx p).walks = s.walks.filter (· != ⟨core, ctx, va⟩) := by rw [hframe]; rfl
    rw [Option.elim_some]
    refine ⟨hwalks, cacheMapping_l2 _ _ _ _, ?_, fun c hc => ?_, cores, l2, ?_⟩
    · rw [hcore, if_pos rfl]
      exact mem_cacheFill (by decide) _ _
    · exact (hcore c).trans (if_neg hc)
    · rw [hwalks]
      exact hframe

/-! ### Zeroing (R124) -/

/-- A page once its zeroing at `va` is done. -/
def Page.zeroed (va : Nat) (q : Page) : Page := if zeroing va q then { q with z := false } else q

/-- The state after the page `p` at `va` of a context has been zeroed. -/
def State.zeroPage (s : State) (ctx va : Nat) (p : Page) : State :=
  { s.updCtx ctx fun c => { c with pages := c.pages.map (Page.zeroed va) } with
    mem := Memory.clear s.mem p.phys p.size
    poison := s.poison.filter fun l => !(decide (p.phys ≤ 64 * l) && decide (64 * l < p.phys + p.size))
    l2 := s.l2.map fun e => if e.2.1 = ctx then (e.1, e.2.1, Page.zeroed va e.2.2) else e
    cores := s.cores.map fun c => { c with l1 := c.l1.map fun e => if e.1 = ctx then (e.1, Page.zeroed va e.2) else e } }

theorem pageZeroing_eq {s : State} {ctx va : Nat} {c : Context} {p : Page} (hc : s.ctx? ctx = some c)
    (hp : c.pages.find? (fun p => p.va = va && p.z) = some p) :
    exec (.pageZeroingComplete ctx va) s = .next (s.zeroPage ctx va p) := by
  have hfound : (s.ctx? ctx).bind (fun c => c.pages.find? (zeroing va)) = some p := by rw [hc]; exact hp
  change execPageZeroingComplete ctx va s = _
  rw [execPageZeroingComplete, hfound]
  rfl

theorem zeroingCompletes : ZeroingCompletes := by
  intro s ctx va c p hinv hc hp
  refine ⟨_, pageZeroing_eq hc hp, fun a => Memory.read_clear hinv _ _ a, fun l => ?_, ?_, _, _, _, _, _, rfl⟩
  · simp only [State.zeroPage, List.mem_filter, Bool.not_eq_true', Bool.and_eq_false_iff, decide_eq_false_iff_not, not_and_or]
  · have hctx : (s.zeroPage ctx va p).ctx? ctx = some { c with pages := c.pages.map (Page.zeroed va) } :=
      ctx?_updCtx_same (f := fun c : Context => { c with pages := c.pages.map (Page.zeroed va) }) (fun _ => ⟨rfl, rfl⟩) hc
    rw [hctx, Option.map_some]
    refine congrArg some (List.map_congr_left fun q _ => ?_)
    simp only [Page.zeroed, zeroing, Bool.and_eq_true, decide_eq_true_eq]

/-! ### A mapping change (R120, R124) -/

/-- The tables of a context once a change has completed. -/
def Change.tables (c : Change) (k : Context) : Context := if c.apply && c.ctx = some k.id && !k.killed then k.repaged c else k

/-- The state once a change has completed, before the groups that wait for it go on. -/
def State.changed (s : State) (c : Change) : State :=
  { s with
    changes := s.changes.filter fun d => d.id != c.id
    cores := s.cores.map fun k => { k with l1 := k.l1.filter fun e => !c.covers e.1 e.2 }
    l2 := s.l2.filter fun e => !c.covers e.2.1 e.2.2
    contexts := s.contexts.map c.tables }

theorem mappingChangeComplete_eq {s : State} {n : Nat} {c : Change} (hc : s.changes.find? (fun c => c.id = n) = some c)
    (hready : s.changeReady c = true) : exec (.mappingChangeComplete n) s = .next (s.changed c).wakeAllChanges := by
  obtain rfl : c.id = n := by simpa using List.find?_some hc
  change execMappingChangeComplete c.id s = _
  simp only [execMappingChangeComplete, hc, hready, Bool.not_true, Bool.false_eq_true, if_false]
  rfl

theorem tables_keepsId (c : Change) : KeepsId c.tables := fun k => by unfold Change.tables; split <;> exact ⟨rfl, rfl⟩

theorem ctx?_changed (s : State) (c : Change) (id : Nat) : (s.changed c).ctx? id = (s.ctx? id).map c.tables := by
  have hkeeps := tables_keepsId c
  unfold State.ctx? State.changed
  rw [List.find?_map]
  refine congrArg (fun p => (s.contexts.find? p).map c.tables) (funext fun k => ?_)
  simp only [Function.comp, (hkeeps k).1, (hkeeps k).2]

theorem changeCompletes : ChangeCompletes := by
  intro s n c hc hready
  have hid : c.id = n := by simpa using List.find?_some hc
  refine ⟨_, mappingChangeComplete_eq hc hready, by rw [← hid]; rfl, fun e he => ?_, fun k hk e he => ?_, fun id k hk => ?_, _, _, _, _, rfl⟩
  · obtain ⟨hold, hfree⟩ := List.mem_filter.mp he
    exact ⟨hold, by simpa using hfree⟩
  · obtain ⟨k, _, rfl⟩ := List.mem_map.mp hk
    simpa using (List.mem_filter.mp he).2
  · obtain ⟨rfl, hlive⟩ := ctx?_some_id hk
    rw [ctx?_changed, hk, Option.map_some, Option.map_some]
    unfold Change.tables
    by_cases happly : c.apply = true ∧ c.ctx = some k.id
    · simp only [happly.1, happly.2, hlive, Context.repaged, Bool.not_false, decide_true, Bool.and_self, and_self, if_true]
    · rw [if_neg (by simpa [hlive] using happly), if_neg fun h => happly ⟨h.1, h.2.1⟩]

/-- Settles O30: each completion is one update of the state, read back part by part. -/
theorem translations : Obligations.Translations := by
  unfold Obligations.Translations
  exact ⟨walkCompletes, zeroingCompletes, changeCompletes⟩

end Sys2Proof.Machine
end

section
/-! SUPPORT. What an access that performs leaves: the bytes it stores, the words that land in rows and latches, and the reduction
it queues (R128, R145, R147, R230, R242, R243, R265, R288). -/

namespace Sys2Proof.Machine

/-! ### Words land in rows (R145, R147) -/

/-- A row once word `p` of access `seq`, a row's number with a value, has landed at a position. -/
def Row.landed (seq pos : Nat) (r : Row) (p : Nat × Word) : Row :=
  if r.id = p.1 then { r with await := r.await.filter (· != seq), vals := setNth r.vals pos p.2 } else r

theorem Row.landed_reg (seq pos : Nat) (r : Row) (p : Nat × Word) : (r.landed seq pos p).reg = r.reg := by
  unfold Row.landed; split <;> rfl

theorem Row.landed_id (seq pos : Nat) (r : Row) (p : Nat × Word) : (r.landed seq pos p).id = r.id := by
  unfold Row.landed; split <;> rfl

theorem Row.landed_other {seq pos q : Nat} (hq : q ≠ pos) (r : Row) (p : Nat × Word) :
    (r.landed seq pos p).vals.getD q 0 = r.vals.getD q 0 := by
  unfold Row.landed
  split
  · simp only [List.getD_eq_getElem?_getD, setNth_getElem?, if_neg hq]
  · rfl

theorem rowLand_eq (rows : List Row) (id seq pos : Nat) (v : Word) : rowLand rows id seq pos (some v)
    = (rows.map fun r => r.landed seq pos (id, v)).filter fun r => r.reg.isSome || r.await != [] := by
  simp only [rowLand, mapIf, Row.landed, decide_eq_true_eq]

/-- A row that is mapped stays when a result lands. -/
theorem findRow_rowLand (rows : List Row) (id seq pos reg : Nat) (v : Word) :
    findRow (rowLand rows id seq pos (some v)) reg = (findRow rows reg).map fun r => r.landed seq pos (id, v) := by
  unfold findRow
  rw [rowLand_eq, List.find?_filter, List.find?_map]
  refine congrArg (fun p => (rows.find? p).map _) (funext fun r => ?_)
  by_cases h : r.reg = some reg <;> simp [Row.landed_reg, h]

/-- The rows of a map once the words of an access have landed in them. -/
def landRows (a : Access) (words : List Word) (rows : List Row) : List Row :=
  (a.rows.zip words).foldl (fun rows p => rowLand rows p.1 a.seq a.dst.pos (some p.2)) rows

theorem landRows_nil (a : Access) (words : List Word) : landRows a words [] = [] := by
  unfold landRows
  induction a.rows.zip words with
  | nil => rfl
  | cons p ps ih => exact ih

theorem findRow_landRows (a : Access) (words : List Word) (rows : List Row) (reg : Nat) :
    findRow (landRows a words rows) reg
      = (findRow rows reg).map fun r => (a.rows.zip words).foldl (Row.landed a.seq a.dst.pos) r := by
  unfold landRows
  generalize a.rows.zip words = ps
  induction ps generalizing rows with
  | nil => exact Option.map_id'.symm
  | cons p ps ih =>
    rw [List.foldl_cons, ih, findRow_rowLand, Option.map_map]
    rfl

theorem landed_foldl_id (seq pos : Nat) (ps : List (Nat × Word)) (r : Row) : (ps.foldl (Row.landed seq pos) r).id = r.id := by
  induction ps generalizing r with
  | nil => rfl
  | cons p ps ih => exact (ih _).trans (r.landed_id seq pos p)

theorem landed_foldl_other {seq pos q : Nat} (hq : q ≠ pos) (ps : List (Nat × Word)) (r : Row) :
    (ps.foldl (Row.landed seq pos) r).vals.getD q 0 = r.vals.getD q 0 := by
  induction ps generalizing r with
  | nil => rfl
  | cons p ps ih => exact (ih _).trans (Row.landed_other hq r p)

/-- A row that no word names is as before. -/
theorem landed_foldl_absent {seq pos : Nat} {ps : List (Nat × Word)} {r : Row} (h : r.id ∉ ps.map Prod.fst) :
    ps.foldl (Row.landed seq pos) r = r := by
  induction ps with
  | nil => rfl
  | cons p ps ih =>
    simp only [List.map_cons, List.mem_cons, not_or] at h
    rw [List.foldl_cons, Row.landed, if_neg h.1]
    exact ih h.2

/-- A row that one word names holds it, and awaits the access no longer. -/
theorem landed_foldl_at {seq pos : Nat} {ps : List (Nat × Word)} (hnd : (ps.map Prod.fst).Nodup) {r : Row} {v : Word}
    (h : (r.id, v) ∈ ps) :
    ps.foldl (Row.landed seq pos) r = { r with await := r.await.filter (· != seq), vals := setNth r.vals pos v } := by
  induction ps with
  | nil => cases h
  | cons p ps ih =>
    simp only [List.map_cons, List.nodup_cons] at hnd
    rcases List.mem_cons.mp h with rfl | hin
    · rw [List.foldl_cons, Row.landed, if_pos rfl]
      exact landed_foldl_absent hnd.1
    · have hne : r.id ≠ p.1 := fun e => hnd.1 (e ▸ List.mem_map_of_mem (f := Prod.fst) hin)
      rw [List.foldl_cons, Row.landed, if_neg hne]
      exact ih hnd.2 hin

theorem zip_fst_sublist {α β : Type} (l : List α) (m : List β) : List.Sublist ((l.zip m).map Prod.fst) l := by
  induction l generalizing m with
  | nil => exact List.Sublist.slnil
  | cons x xs ih =>
    cases m with
    | nil => exact List.nil_sublist _
    | cons y ys => exact (ih ys).cons_cons x

theorem resultLanded_landRows {a : Access} {words : List Word} {rows : List Row} (hrows : RowsOk rows) (hnd : a.rows.Nodup)
    (hpos : a.dst.pos < 32) : ResultLanded a words rows (landRows a words rows) where
  mapped reg := by
    rw [findRow_landRows, Option.map_map]
    refine congrArg (fun k => (findRow rows reg).map k) (funext fun r => landed_foldl_id _ _ _ r)
  landed reg r k hr hk hlt := by
    have hin : (r.id, words.getD k 0) ∈ a.rows.zip words := by
      refine List.mem_of_getElem? (List.getElem?_zip_eq_some.mpr ⟨hk, ?_⟩)
      rw [List.getD_eq_getElem?_getD, List.getElem?_eq_getElem hlt, Option.getD_some]
    have hfound : findRow (landRows a words rows) reg
        = some { r with await := r.await.filter (· != a.seq), vals := setNth r.vals a.dst.pos (words.getD k 0) } := by
      rw [findRow_landRows, hr, Option.map_some, landed_foldl_at ((zip_fst_sublist _ _).nodup hnd) hin]
    refine ⟨?_, _, hfound, rfl⟩
    rw [rowRead, hfound]
    exact (setNth_getD _ _ _ _ _ (by rw [hrows.found hr]; exact hpos)).trans (if_pos rfl)
  kept reg r pos hr hor := by
    simp only [rowRead, findRow_landRows, hr, Option.map_some]
    rcases hor with hne | hout
    · exact landed_foldl_other hne _ r
    · rw [landed_foldl_absent fun h => hout ((zip_fst_sublist _ _).subset h)]

theorem resultLanded_nil (a : Access) (rows : List Row) : ResultLanded a [] rows rows where
  mapped _ := rfl
  landed _ _ _ _ _ h := absurd h (Nat.not_lt_zero _)
  kept _ _ _ _ _ := rfl

/-! ### A result lands in the state (R139, R145, R379) -/

/-- A core once the words of an access have landed in the map of one of its reformed groups. -/
def Core.landInGroup (a : Access) (words : List Word) (slot : Nat) (c : Core) : Core :=
  { c with groups := mapIf (fun q => q.slot = slot) (fun q => { q with rows := landRows a words q.rows }) c.groups }

/-- The state once the words of an access have landed in the map it was issued from. -/
def State.landInMap (s : State) (a : Access) (words : List Word) : State :=
  match a.reformed with
  | some (core, slot) => s.updCore core (Core.landInGroup a words slot)
  | none => s.updWarp a.lane.wg a.lane.warp fun v => { v with rows := landRows a words v.rows }

/-- A lane once the words of an access have landed in the values it carries. -/
def Lane.landCarried (a : Access) (words : List Word) (l : Lane) : Lane :=
  { l with carry := l.carry.map fun c =>
      (a.dst.regs.zip words).foldl (fun c p => mapIf (fun e => e.1 = p.1) (fun e => (e.1, p.2)) c) c }

/-- The state once the words of an access have landed in its map and in what its lane carries. -/
def State.landAtLane (s : State) (a : Access) (words : List Word) : State :=
  if a.dst.nwb then s.landInMap a words else (s.landInMap a words).updLane a.lane (Lane.landCarried a words)

theorem landResult_eq (s : State) (a : Access) (words : List Word) :
    s.landResult a words = { s.landAtLane a words with
      pipes := s.pipes.map fun p => { p with latches := fillLatches a.seq words p.latches } } := by
  have hpipes : (s.landAtLane a words).pipes = s.pipes := by
    unfold State.landAtLane State.landInMap
    split <;> split <;> simp [State.updLane, State.updWarp]
  rw [← hpipes]
  unfold State.landResult State.landAtLane State.landInMap
  cases a.reformed <;> rfl

theorem landInMap_frame (s : State) (a : Access) (words : List Word) :
    ∃ wgs ctl cores, s.landInMap a words = { s with wgs := wgs, ctl := ctl, cores := cores } := by
  unfold State.landInMap
  split
  · obtain ⟨cores, h⟩ := updCore_frame s _ _
    exact ⟨_, _, cores, h⟩
  · exact ⟨_, _, _, rfl⟩

theorem landAtLane_frame (s : State) (a : Access) (words : List Word) :
    ∃ wgs ctl cores, s.landAtLane a words = { s with wgs := wgs, ctl := ctl, cores := cores } := by
  obtain ⟨wgs, ctl, cores, h⟩ := landInMap_frame s a words
  unfold State.landAtLane
  split
  · exact ⟨wgs, ctl, cores, h⟩
  · rw [h]
    exact ⟨_, _, _, rfl⟩

theorem landInMap_lane? (s : State) (a : Access) (words : List Word) (r : LaneRef) : (s.landInMap a words).lane? r = s.lane? r := by
  unfold State.landInMap
  split
  · exact s.lane?_updCore _ _ r
  · exact s.lane?_updWarp _ _ _ r fun _ => rfl

theorem landAtLane_lane? (s : State) (a : Access) (words : List Word) (r : LaneRef) : (s.landAtLane a words).lane? r
    = if r = a.lane ∧ a.dst.nwb = false then (s.lane? r).map (Lane.landCarried a words) else s.lane? r := by
  unfold State.landAtLane
  cases hnwb : a.dst.nwb with
  | true => simp [landInMap_lane?]
  | false => simp [State.lane?_updLane, landInMap_lane?]

/-- Of a lane in which a result lands nothing changes but what it carries. -/
theorem carry_of_landed {p : Prop} [Decidable p] {a : Access} {words : List Word} {o o' : Option Lane}
    (h : o' = if p then o.map (Lane.landCarried a words) else o) : o' = o.map fun l => { l with carry := o'.bind Lane.carry } := by
  subst h
  cases o <;> split <;> rfl

/-- The maps are those of warps and of the groups of cores. -/
theorem accessRows_landInMap (s : State) (a : Access) (words : List Word) :
    accessRows (s.landInMap a words) a = landRows a words (accessRows s a) := by
  unfold accessRows State.landInMap
  cases a.reformed with
  | none =>
    simp only [State.warp?_updWarp, and_self, if_true]
    cases s.warp? a.lane.wg a.lane.warp with
    | none => exact (landRows_nil a words).symm
    | some v => rfl
  | some place =>
    obtain ⟨core, slot⟩ := place
    simp only [State.core_updCore s core core (Core.landInGroup a words slot) fun _ => rfl, if_true, Core.landInGroup]
    rw [mapIf_find? _ _ _ _ (by simp)]
    cases hq : (s.core core).groups.find? fun q => q.slot = slot with
    | none => exact (landRows_nil a words).symm
    | some q => simp [show q.slot = slot by simpa using List.find?_some hq]

theorem accessRows_updLane (s : State) (a : Access) (r : LaneRef) (k : Lane → Lane) : accessRows (s.updLane r k) a = accessRows s a := by
  unfold accessRows
  cases a.reformed with
  | none => simp only [State.updLane_warp s r k Warp.rows fun _ _ => rfl]
  | some place => rfl

theorem accessRows_landAtLane (s : State) (a : Access) (words : List Word) :
    accessRows (s.landAtLane a words) a = landRows a words (accessRows s a) := by
  unfold State.landAtLane
  split
  · exact accessRows_landInMap s a words
  · exact (accessRows_updLane _ a _ _).trans (accessRows_landInMap s a words)

/-! ### An access performs (R128, R242, R265) -/

/-- The state once an access has left flight and stored its bytes. -/
def State.performStore (s : State) (a : Access) : State :=
  State.storeBytes { s with pend := s.pend.filter fun b => b.seq != a.seq } a.phys (accessBytes s.mem a)

theorem storeBytes_nil (s : State) (p : Nat) : s.storeBytes p [] = s := by
  have hkept : (s.poison.filter fun l => !(decide (p ≤ 64 * l) && decide (64 * l + 64 ≤ p + ([] : List Byte).length))) = s.poison := by
    refine List.filter_eq_self.mpr fun l _ => ?_
    simp only [List.length_nil, Bool.not_eq_true', Bool.and_eq_false_iff, decide_eq_false_iff_not]
    omega
  unfold State.storeBytes
  rw [hkept]
  rfl

/-- An access that reads stores what it stores, if anything, and its result lands. -/
theorem perform_reads (s : State) {a : Access} (h : a.kind.reads = true) :
    s.perform a = (s.performStore a).landResult a (accessWords s.mem a) := by
  unfold State.perform State.performStore accessBytes accessWords
  cases hk : a.kind with
  | load _ | texel _ _ _ _ _ => simp only [storeBytes_nil]
  | atom _ _ _ | cas _ _ | sync _ => rfl
  | store _ | red _ _ _ => simp [hk, AccessKind.reads] at h

/-- The write queues after an access: a reduction enters that of its line (R128). -/
def queueAfter (s : State) (a : Access) : List Queued :=
  match a.kind with
  | .red ty op v => s.queue ++ [{ lane := a.lane, line := a.phys / 64, phys := a.phys, ty := ty, op := op, v := v }]
  | _ => s.queue

theorem queueAfter_reads (s : State) {a : Access} (h : a.kind.reads = true) : queueAfter s a = s.queue := by
  unfold queueAfter
  split
  next hk => simp [hk, AccessKind.reads] at h
  next => rfl

/-- An access that reads nothing stores its bytes, or is queued. -/
theorem perform_writes (s : State) {a : Access} (h : a.kind.reads = false) :
    s.perform a = { s.performStore a with queue := queueAfter s a } ∧ accessWords s.mem a = [] := by
  unfold State.perform State.performStore accessBytes accessWords queueAfter
  cases hk : a.kind with
  | store v => exact ⟨rfl, rfl⟩
  | red ty op v => simp only [storeBytes_nil, and_self]
  | load _ | texel _ _ _ _ _ | atom _ _ _ | cas _ _ | sync _ => simp [hk, AccessKind.reads] at h

theorem storedAt_storeBytes {s : State} (h : s.Inv) (p : Nat) (bs : List Byte) : StoredAt p bs s.mem (s.storeBytes p bs).mem :=
  fun a => State.read_storeBytes h p bs a

theorem loadDataLand_eq {s : State} {n : Nat} {a : Access} (ha : s.pend.find? (fun b => b.seq = n) = some a)
    (hreads : a.kind.reads = true) (hmay : s.mayPerform a = true) :
    exec (.loadDataLand n) s = .next ((s.perform a).endIfGone a.lane.wg) := by
  change execLoadDataLand n s = _
  simp only [execLoadDataLand, ha, hreads, hmay, Bool.and_self, if_true]

theorem writePerform_eq {s : State} {n : Nat} {a : Access} (ha : s.pend.find? (fun b => b.seq = n) = some a)
    (hreads : a.kind.reads = false) (hmay : s.mayPerform a = true) :
    exec (.writePerform n) s = .next ((s.perform a).endIfGone a.lane.wg) := by
  change execWritePerform n s = _
  simp only [execWritePerform, ha, hreads, hmay, Bool.not_false, Bool.and_self, if_true]

theorem loadDataLand_performs : AccessPerforms .loadDataLand true := by
  intro s n a hinv ha hreads hmay hrows hnd hpos
  obtain rfl : a.seq = n := by simpa using List.find?_some ha
  have hlane := landAtLane_lane? (s.performStore a) a (accessWords s.mem a)
  have hmap := accessRows_landAtLane (s.performStore a) a (accessWords s.mem a)
  obtain ⟨wgs, ctl, cores, hframe⟩ := landAtLane_frame (s.performStore a) a (accessWords s.mem a)
  refine ⟨_, loadDataLand_eq ha hreads hmay, ?_⟩
  rw [perform_reads s hreads, landResult_eq]
  refine ⟨?_, ?_, ?_, rfl, ?_, fun r hr => ?_, ?_, ?_⟩
  · rw [hframe]
    rfl
  · rw [hframe]
    exact storedAt_storeBytes (s := { s with pend := s.pend.filter fun b => b.seq != a.seq }) hinv _ _
  · change ResultLanded a _ _ (accessRows ((s.performStore a).landAtLane a (accessWords s.mem a)) a)
    rw [hmap]
    exact resultLanded_landRows hrows hnd hpos
  · rw [hframe]
    exact (queueAfter_reads s hreads).symm
  · exact (hlane r).trans (if_neg fun h => hr h.1)
  · exact carry_of_landed (hlane a.lane)
  · rw [hframe]
    exact ⟨_, _, _, _, _, _, _, _, rfl⟩

theorem writePerform_performs : AccessPerforms .writePerform false := by
  intro s n a hinv ha hreads hmay _ _ _
  obtain rfl : a.seq = n := by simpa using List.find?_some ha
  obtain ⟨hperform, hwords⟩ := perform_writes s hreads
  refine ⟨_, writePerform_eq ha hreads hmay, ?_⟩
  rw [hperform, hwords]
  refine ⟨rfl, ?_, resultLanded_nil a _, rfl, rfl, fun _ _ => rfl, ?_, _, _, _, _, _, _, _, _, rfl⟩
  · exact storedAt_storeBytes (s := { s with pend := s.pend.filter fun b => b.seq != a.seq }) hinv _ _
  · change s.lane? a.lane = (s.lane? a.lane).map fun l => { l with carry := (s.lane? a.lane).bind Lane.carry }
    cases s.lane? a.lane <;> rfl

/-! ### A queued reduction (R128, R242, R243) -/

theorem applyQueued_poisoned {s : State} {q : Queued} (h : s.poisoned q.phys = true) (queue : List Queued) :
    State.applyQueued { s with queue := queue } q = { s with queue := queue } := if_pos h

theorem applyQueued_clean {s : State} {q : Queued} (h : ¬s.poisoned q.phys = true) (queue : List Queued) :
    State.applyQueued { s with queue := queue } q = State.storeBytes { s with queue := queue } q.phys
      (leBytes (elemBits q.ty / 8) (atomOp q.ty q.op (dwordOf (Memory.le s.mem q.phys (elemBits q.ty / 8))) q.v).toNat) := if_neg h

theorem writeQueueApply_single {s : State} {line : Nat} {q : Queued} (h : s.queue.filter (fun q => q.line = line) = [q]) :
    exec (.writeQueueApply line) s = .next
      ((State.applyQueued { s with queue := s.queue.filter fun q => q.line != line } q).endIfGone q.lane.wg) := by
  change execWriteQueueApply line s = _
  simp only [execWriteQueueApply, State.applyLine, h, List.map_cons, List.map_nil, List.foldl_cons, List.foldl_nil]
  rfl

theorem queueApplies : QueueApplies := by
  intro s line q hinv hq
  have hstored := storedAt_storeBytes (s := { s with queue := s.queue.filter fun q => q.line != line }) hinv q.phys
  refine ⟨_, writeQueueApply_single hq, ?_⟩
  by_cases hp : s.poisoned q.phys = true
  · rw [applyQueued_poisoned hp, if_pos hp]
    exact ⟨rfl, rfl⟩
  · rw [applyQueued_clean hp, if_neg hp]
    exact ⟨rfl, hstored _, _, _, rfl⟩

/-- Settles O29: an access leaves flight and stores its bytes, and its words land row by row; a queued reduction of a line that is not
poisoned is a store. -/
theorem performing : Obligations.Performing := by
  unfold Obligations.Performing
  exact ⟨loadDataLand_performs, writePerform_performs, queueApplies⟩

end Sys2Proof.Machine
end

section
/-! SUPPORT. LDS, FENCE and LINE.PROBE where no access of their lanes is in flight, and PREF (R119, R235, R236, R237, R247). -/

namespace Sys2Proof.Machine

/-! ### LDS (R235) -/

/-- No lane of an instruction that no reformed group may issue lacks a register. -/
theorem CanIssue.outside_of_forbidden {i : Instr} {f : Form} {s : State} {x : Iss} (h : CanIssue i f true s x) (hact : s.actives x f ≠ []) :
    (s.reads x f (sigOf i f)).outside = [] := by
  have hbin := h.allowed.resolve_left hact
  have hhome : x.carried = none := by simpa [binFault] using hbin
  rw [State.reads_home _ _ _ _ hhome]
  rfl

/-- A once-per-issue instruction of which one read passes its check acts. -/
theorem onceChecked_ok (s : State) (x : Iss) (f : Form) (act : List Act) (ea p : Nat) (k : State) :
    s.onceChecked x f act [(ea, .ok p)] k = k := rfl

/-- LDS writes what the word at its address gives. -/
theorem lds_exec {f : Form} {s : State} {x : Iss} {p : Nat} (hc : CanIssue (.lds f) f true s x) (hact : s.actives x f ≠ [])
    (hquiet : s.noneInFlight x) (hp : s.poisonChk true (s.check x.core x.ctx .r (ldsAddr s f x) (accSize f)) = .ok p) :
    exec (.lds f) s = .next (s.commitUni x f (slotNum f f.d)
      (loadWords (accSize f) (f.ty = .i32) (Memory.le s.mem p (accSize f))) 0) := by
  change execLds f s = _
  unfold ldsAddr State.onceValue at hp
  rw [execLds, onceStep_canIssue hc hact (hc.outside_of_forbidden hact)]
  simp only [drainAll_none hquiet, reads_once, hp, onceChecked_ok, Chk.fails, Chk.phys, Bool.and_false, Bool.false_eq_true, if_false]

/-! ### FENCE (R247) -/

theorem fence_exec {f : Form} {s : State} {x : Iss} (hc : CanIssue (.fence f) f false s x) : exec (.fence f) s
    = .next (if (s.actives x f).all fun a => s.quiet a.m.ref (f.m2 = 1) then s.endIssue x f [] else s.stall x .memoryData) := by
  change execFence f s = _
  rw [execFence, front_canIssue hc]

/-! ### LINE.PROBE (R237) -/

/-- The poison that LINE.PROBE finds in an active lane: of a line in HBM or a vault. -/
def probeBit (s : State) (f : Form) (x : Iss) (a : Act) : Bool :=
  match (s.argsOf x f (sigOf (.lineProbe f) f) a).map fun args => s.check x.core x.ctx .r (effAddr args.a args.b) 64 with
  | some (.ok p) => !inHostMem p && s.poisoned p
  | _ => false

theorem probeBit_eq {s : State} {f : Form} {x : Iss} {a : Act} {args : Args} {p : Nat}
    (hargs : s.argsOf x f (sigOf (.lineProbe f) f) a = some args) (hp : s.check x.core x.ctx .r (effAddr args.a args.b) 64 = .ok p) :
    probeBit s f x a = (!inHostMem p && s.poisoned p) := by
  rw [probeBit, hargs, Option.map_some, hp]

/-- A bit as a word. -/
def bitWord (b : Bool) : Word := if b then 1 else 0

theorem bitWord_getLsbD (b : Bool) : (bitWord b).getLsbD 0 = b := by cases b <;> rfl

theorem bitWord_ne_zero (b : Bool) : (bitWord b != 0) = b := by cases b <;> rfl

/-- The results of LINE.PROBE: the word of the bit of each active lane. -/
def probeResults (s : State) (f : Form) (x : Iss) : List LaneRes :=
  (s.actives x f).map fun a => ⟨a, [bitWord (probeBit s f x a)], 0⟩

theorem probeResults_acts (s : State) (f : Form) (x : Iss) : (probeResults s f x).map LaneRes.a = s.actives x f := by
  rw [probeResults, List.map_map]
  exact List.map_id' _

/-- Results without flags change no FPSTAT. -/
theorem addAllFlags_zero {rs : List LaneRes} (h : ∀ r ∈ rs, r.flags = 0) (s : State) : s.addAllFlags rs = s := by
  induction rs generalizing s with
  | nil => rfl
  | cons r rs ih =>
    have hr : s.addFlags r.a.m.ref r.raised = s := if_pos (by simp [LaneRes.raised, h r])
    exact (congrArg (fun u => State.addAllFlags u rs) hr).trans (ih (fun q hq => h q (List.mem_cons_of_mem _ hq)) s)

/-- Where every check passes, LINE.PROBE writes its bits as the instructions with a predicate destination do. -/
theorem lineProbe_exec {f : Form} {s : State} {x : Iss} (hc : CanIssue (.lineProbe f) f false s x) (hquiet : s.noneInFlight x)
    (hchecks : ∀ a ∈ s.actives x f, ∃ args p, s.argsOf x f (sigOf (.lineProbe f) f) a = some args
      ∧ s.check x.core x.ctx .r (effAddr args.a args.b) 64 = .ok p) :
    exec (.lineProbe f) s = .next (s.commitPred x f (sigOf (.lineProbe f) f) (probeResults s f x) []) := by
  have hflags := addAllFlags_zero (rs := probeResults s f x)
    (fun r hr => by obtain ⟨a, -, rfl⟩ := List.mem_map.mp hr; rfl) (s.setRows x (releaseLu f (sigOf (.lineProbe f) f) x.wbase (s.rowsOf x)))
  change execLineProbe f s = _
  simp only [execLineProbe, front_canIssue hc, drainAll_none hquiet]
  rw [List.map_congr_left (l := s.actives x f) (g := fun a => (a, Ask.value [bitWord (probeBit s f x a)])) fun a ha => by
    obtain ⟨args, p, hargs, hp⟩ := hchecks a ha
    have hbit := probeBit_eq hargs hp
    unfold State.argsOf at hargs
    simp only [hargs, probeAsk, hp, Chk.ask, hbit, bitWord]]
  simp only [List.filterMap_map, Function.comp_def, List.filterMap_none, bne_self_eq_false, Bool.false_eq_true, if_false,
    Bool.and_self, decide_true, if_true, State.endMem_plain, State.commitPred, hflags]
  simp only [probeResults, List.foldl_map, List.headD_cons, bitWord_getLsbD, bitWord_ne_zero]

theorem orderedComplete : OrderedComplete := by
  refine ⟨fun f s x p hc hact hquiet hp hu => ⟨_, lds_exec hc hact hquiet hp, State.commitUni_spec f 0 hu⟩, fun f s x hc => ?_,
    fun f s x hc ok hquiet hchecks => ⟨_, lineProbe_exec hc hquiet hchecks, ?_⟩⟩
  · rw [fence_exec hc]
    refine ⟨fun hquiet => ⟨_, rfl, ?_⟩, fun ⟨a, ha, hbusy⟩ => ?_⟩
    · rw [if_pos (List.all_eq_true.mpr hquiet)]
      exact (s.endIssue_plain x f).movesOnly
    · rw [if_neg fun h => Bool.false_ne_true (hbusy.symm.trans (List.all_eq_true.mp h a ha))]
  · obtain ⟨written, idle, map, -, -, -, rest⟩ := State.commitPred_spec (g := sigOf (.lineProbe f) f) hc ok (probeResults_acts s f x)
    refine ⟨fun a ha args p hargs hp => ?_, fun m hm hidle => idle m hm fun hin => ?_, map, rest⟩
    · exact (written ⟨a, [bitWord (probeBit s f x a)], 0⟩ (List.mem_map_of_mem ha)).trans
        (congrArg (fun b => (s.lane? a.m.ref).map fun l => { l.setPred (slotNum f f.d) b with pc := nextPc f x.pc })
          ((bitWord_getLsbD _).trans (probeBit_eq hargs hp)))
    · obtain ⟨r, hr, href⟩ := List.mem_map.mp hin
      obtain ⟨a, ha, rfl⟩ := List.mem_map.mp hr
      exact hidle (List.inj_on_of_nodup_map ok.lanes (mem_actives ha).1 hm href ▸ List.mem_map_of_mem ha)

/-! ### What a prefetch changes (R119, R121, R236) -/

/-- From `s` to `t` only walks and fault records are added, and events posted: no translation and no lane changes. -/
structure Prefetched (s t : State) : Prop where
  frame   : ∃ mem poison walks records contexts vectors seq, t = { s with
    mem := mem, poison := poison, walks := walks, records := records, contexts := contexts, vectors := vectors, seq := seq }
  pages   : ∀ n, (t.ctx? n).map Context.pages = (s.ctx? n).map Context.pages
  walks   : List.Sublist s.walks t.walks
  records : ∀ r ∈ s.records, r ∈ t.records

theorem Prefetched.refl (s : State) : Prefetched s s := ⟨⟨_, _, _, _, _, _, _, rfl⟩, fun _ => rfl, List.Sublist.refl _, fun _ h => h⟩

theorem Prefetched.trans {s t u : State} (h : Prefetched s t) (k : Prefetched t u) : Prefetched s u := by
  refine ⟨?_, fun n => (k.pages n).trans (h.pages n), h.walks.trans k.walks, fun r hr => k.records r (h.records r hr)⟩
  obtain ⟨_, _, _, _, _, _, _, rfl⟩ := h.frame
  obtain ⟨_, _, _, _, _, _, _, rfl⟩ := k.frame
  exact ⟨_, _, _, _, _, _, _, rfl⟩

theorem Prefetched.foldl {α : Type} {k : State → α → State} (hk : ∀ u a, Prefetched u (k u a)) (l : List α) (s : State) :
    Prefetched s (l.foldl k s) := by
  induction l generalizing s with
  | nil => exact Prefetched.refl s
  | cons a as ih => exact (hk s a).trans (ih (k s a))

theorem Prefetched.cached {s t : State} (h : Prefetched s t) (core ctx va : Nat) : t.cached core ctx va = s.cached core ctx va := by
  obtain ⟨_, _, _, _, _, _, _, rfl⟩ := h.frame
  rfl

theorem Prefetched.lane? {s t : State} (h : Prefetched s t) (r : LaneRef) : t.lane? r = s.lane? r := by
  obtain ⟨_, _, _, _, _, _, _, rfl⟩ := h.frame
  rfl

/-- A change of contexts that leaves number, life and pages. -/
theorem Prefetched.contexts (s : State) (p : Context → Bool) {k : Context → Context} (hid : KeepsId k) (hpages : ∀ c, (k c).pages = c.pages)
    (vectors : List Nat) : Prefetched s { s with vectors := vectors, contexts := mapIf p k s.contexts } := by
  refine ⟨⟨_, _, _, _, _, _, _, rfl⟩, fun n => ?_, List.Sublist.refl _, fun _ h => h⟩
  unfold State.ctx?
  rw [mapIf_find? _ _ _ _ fun c _ => by simp only [(hid c).1, (hid c).2], Option.map_map]
  refine congrArg (fun q => (s.contexts.find? _).map q) (funext fun c => ?_)
  simp only [Function.comp]
  split
  · exact hpages c
  · rfl

theorem Prefetched.storeBytes (s : State) (a : Nat) (bs : List Byte) : Prefetched s (s.storeBytes a bs) :=
  ⟨⟨_, _, _, _, _, _, _, rfl⟩, fun _ => rfl, List.Sublist.refl _, fun _ h => h⟩

theorem Prefetched.flushEvents (s : State) (ctx : Nat) : Prefetched s (s.flushEvents ctx) := by
  unfold State.flushEvents
  split
  · exact Prefetched.refl s
  · split
    · exact Prefetched.refl s
    · refine Prefetched.foldl (fun u e => ?_) _ s
      dsimp only
      split
      · exact Prefetched.refl u
      · refine (Prefetched.storeBytes u _ _).trans (Prefetched.contexts _ _ ?_ ?_ _)
        · exact fun _ => ⟨rfl, rfl⟩
        · exact fun _ => rfl

theorem Prefetched.postEvent (s : State) (ctx fn : Nat) (cause : Byte) (addr : DWord) (tag wg : Word) (detail : DWord) :
    Prefetched s (s.postEvent ctx fn cause addr tag wg detail) := by
  refine Prefetched.trans (Prefetched.contexts s _ ?_ ?_ s.vectors) (Prefetched.flushEvents _ ctx)
  · exact fun _ => ⟨rfl, rfl⟩
  · exact fun _ => rfl

/-! ### A walk started (R119) -/

/-- The state with a walk added. -/
def State.walking (s : State) (walks : List Walk) : State := { s with walks := walks }

theorem startWalk_walking (s : State) (core ctx va : Nat) : ∃ new, s.startWalk core ctx va = s.walking (s.walks ++ new) := by
  unfold State.startWalk
  split
  · exact ⟨[], by rw [List.append_nil]; rfl⟩
  · dsimp only
    split
    · exact ⟨[], by rw [List.append_nil]; rfl⟩
    · exact ⟨_, rfl⟩

theorem Prefetched.walking (s : State) (new : List Walk) : Prefetched s (s.walking (s.walks ++ new)) :=
  ⟨⟨_, _, _, _, _, _, _, rfl⟩, fun _ => rfl, List.sublist_append_left _ _, fun _ h => h⟩

theorem Prefetched.startWalk (s : State) (core ctx va : Nat) : Prefetched s (s.startWalk core ctx va) := by
  obtain ⟨new, h⟩ := startWalk_walking s core ctx va
  exact h ▸ Prefetched.walking s new

/-- An address has its translation in `s`, or a walk for it in `t`, or the walker of the die has no room. -/
def Translating (s t : State) (core ctx ea : Nat) : Prop :=
  (s.cached core ctx ea).isSome ∨ ⟨core, ctx, ea / 65536 * 65536⟩ ∈ t.walks ∨ 64 ≤ t.walks.countP fun k => dieOf k.core = dieOf core

theorem translating_startWalk (s : State) (core ctx ea : Nat) : Translating s (s.startWalk core ctx ea) core ctx ea := by
  unfold Translating State.startWalk
  cases s.cached core ctx ea with
  | some p => exact .inl rfl
  | none =>
    refine .inr ?_
    dsimp only
    split
    next h =>
      rw [Bool.or_eq_true, decide_eq_true_eq] at h
      exact h.imp List.contains_iff_mem.mp id
    next => exact .inl (List.mem_append_right _ (List.mem_singleton_self _))

theorem Translating.mono {s u v t : State} {core ctx ea : Nat} (hs : Prefetched s u) (h : Translating u v core ctx ea) (ht : Prefetched v t) :
    Translating s t core ctx ea := by
  unfold Translating at *
  rw [hs.cached] at h
  exact h.imp_right (Or.imp (fun hin => ht.walks.subset hin) fun hfull => Nat.le_trans hfull ht.walks.countP_le)

/-! ### A fault record without a lane (R121, R236) -/

/-- An address has a fault record, or every record of the die is in use. -/
def Recorded (t : State) (core ctx ea : Nat) : Prop :=
  (∃ r ∈ t.records, r.die = dieOf core ∧ r.ctx = ctx ∧ r.region = ea / 65536 * 65536)
    ∨ ∀ n, n < Config.faultRecords → ∃ r ∈ t.records, r.die = dieOf core ∧ r.index = n

theorem Recorded.mono {s t : State} {core ctx ea : Nat} (h : Recorded s core ctx ea) (ht : Prefetched s t) : Recorded t core ctx ea :=
  h.imp (fun ⟨r, hr, hrec⟩ => ⟨r, ht.records r hr, hrec⟩) fun hall n hn => (hall n hn).imp fun r hr => ⟨ht.records r hr.1, hr.2⟩

theorem Prefetched.bump (s : State) : Prefetched s s.bump :=
  ⟨⟨_, _, _, _, _, _, _, rfl⟩, fun _ => rfl, List.Sublist.refl _, fun _ h => h⟩

/-- The state with a fault record added. -/
def State.recordAdded (s : State) (r : FaultRec) : State := { s with records := s.records ++ [r] }

theorem Prefetched.recordAdded (s : State) (r : FaultRec) : Prefetched s (s.recordAdded r) :=
  ⟨⟨_, _, _, _, _, _, _, rfl⟩, fun _ => rfl, List.Sublist.refl _, fun _ h => List.mem_append_left _ h⟩

/-- The state once the host has the event of a new fault record, in host mode (R386). -/
def State.recordPosted (s : State) (ctx core ea i : Nat) : State :=
  if ((s.ctx? ctx).map fun c : Context => c.mode.getLsbD 0).getD false then
    s.postEvent ctx 0 Cause.pageAbsent.code (dwordOf ea) (wordOf (i + 1024 * dieOf core)) 0xFFFFFFFF (dwordOf (ea % 2 ^ 52))
  else s

theorem Prefetched.recordPosted (s : State) (ctx core ea i : Nat) : Prefetched s (s.recordPosted ctx core ea i) := by
  unfold State.recordPosted
  split
  · exact Prefetched.postEvent s _ _ _ _ _ _ _
  · exact Prefetched.refl s

theorem mapIf_self {α : Type} {k : α → α} (hk : ∀ a, k a = a) (p : α → Bool) (l : List α) : mapIf p k l = l := by
  simp only [mapIf, hk, ite_self, List.map_id']

theorem parkNone_spec (s : State) (ctx core ea : Nat) : Prefetched s ((s.park ctx core ea [] false).getD s)
    ∧ Recorded ((s.park ctx core ea [] false).getD s) core ctx ea := by
  unfold State.park
  simp only [List.foldl_nil, List.map_nil, List.append_nil]
  split
  next r hr =>
    rw [mapIf_self fun _ => rfl]
    have hrec := List.find?_some hr
    simp only [Bool.and_eq_true, decide_eq_true_eq] at hrec
    obtain ⟨⟨hdie, hctx⟩, hregion⟩ := hrec
    exact ⟨Prefetched.bump s, .inl ⟨r, List.mem_of_find?_eq_some hr, hdie, hctx, hregion⟩⟩
  next =>
    split
    next hfull =>
      refine ⟨Prefetched.refl s, .inr fun n hn => ?_⟩
      have hused := List.find?_eq_none.mp hfull n (List.mem_range.mpr hn)
      simpa using hused
    next i hi =>
      rw [mapIf_self fun _ => rfl]
      let r : FaultRec := ⟨dieOf core, i, ctx, ea / 65536 * 65536, []⟩
      change Prefetched s ((s.recordAdded r).recordPosted ctx core ea i).bump ∧ Recorded ((s.recordAdded r).recordPosted ctx core ea i).bump _ _ _
      have hposted := (Prefetched.recordPosted (s.recordAdded r) ctx core ea i).trans (Prefetched.bump _)
      have hin : r ∈ (s.recordAdded r).records := List.mem_append_right _ (List.mem_singleton_self r)
      exact ⟨(Prefetched.recordAdded s r).trans hposted, .inl ⟨r, hposted.records r hin, rfl, rfl, rfl⟩⟩

/-! ### PREF (R236) -/

/-- An instruction that no reformed group is kept from passes the front with its active lanes. -/
theorem frontBin_ready {i : Instr} {f : Form} {s : State} {x : Iss} (hissue : s.curIss? = some x) (hdecodes : decodeFault i f (s.limits x) = none)
    (hidle : (s.reads x f (sigOf i f)).busy x f (sigOf i f) = false) :
    frontBin i f (fun _ => false) s = .go x (s.reads x f (sigOf i f)) (sigOf i f) (s.actives x f) := by
  have hbusy : ((s.env x).within x f (sigOf i f) (s.actives x f)).busy x f (sigOf i f) = false := hidle
  simp only [frontBin, hissue, hdecodes, ← State.actives_eq, State.reads, hbusy, List.any_nil, Bool.or_false, Bool.and_false,
    Bool.false_and, Bool.false_eq_true, if_false]

/-- What PREF does for an active lane: nothing without operands. -/
def prefOne (s : State) (f : Form) (x : Iss) (u : State) (a : Act) : State :=
  match s.argsOf x f (sigOf (.pref f) f) a with
  | some args => prefLane f x args u
  | none => u

/-- The state once PREF has done what it does for every active lane. -/
def State.prefetched (s : State) (f : Form) (x : Iss) : State := (s.actives x f).foldl (prefOne s f x) s

theorem pref_exec {f : Form} {s : State} {x : Iss} (hissue : s.curIss? = some x) (hdecodes : decodeFault (.pref f) f (s.limits x) = none)
    (hidle : (s.reads x f (sigOf (.pref f) f)).busy x f (sigOf (.pref f) f) = false) :
    exec (.pref f) s = .next ((s.prefetched f x).endIdle x f (sigOf (.pref f) f)) := by
  change execPref f s = _
  rw [execPref, frontBin_ready hissue hdecodes hidle]
  rfl

/-- The end of an issue that released registers: its members move on, and no other lane changes. -/
theorem endIdle_spec (s : State) (x : Iss) (f : Form) (g : Sig) :
    (∀ r, (s.endIdle x f g).lane? r
      = if r ∈ x.members.map Member.ref then (s.lane? r).map (fun l => { l with pc := nextPc f x.pc }) else s.lane? r)
    ∧ ∃ wgs ctl cores, s.endIdle x f g = { s with wgs := wgs, ctl := ctl, cores := cores } := by
  have hrows : (∀ r, (s.setRows x (releaseLu f g x.wbase (s.rowsOf x))).lane? r = s.lane? r)
      ∧ ∃ wgs ctl cores, s.setRows x (releaseLu f g x.wbase (s.rowsOf x)) = { s with wgs := wgs, ctl := ctl, cores := cores } := by
    unfold State.setRows
    split
    · exact ⟨fun r => s.lane?_updWarp _ _ _ r fun _ => rfl, _, _, _, rfl⟩
    · obtain ⟨cores, hcores⟩ := updCore_frame s _ _
      exact ⟨fun r => s.lane?_updCore _ _ r, _, _, cores, hcores⟩
  obtain ⟨hlane, wgs, ctl, cores, hrows⟩ := hrows
  have hend := (s.setRows x (releaseLu f g x.wbase (s.rowsOf x))).endIssue_plain x f
  refine ⟨fun r => (hend.lanes r).trans (by rw [hlane]), ?_⟩
  obtain ⟨wgs', ctl', cores', pipes', hframe⟩ := hend.frame.package
  have hpipes := hend.pipes
  rw [hrows] at hframe hpipes
  rw [State.endIdle, hrows, hframe]
  rw [hframe] at hpipes
  obtain rfl : pipes' = s.pipes := hpipes
  exact ⟨_, _, _, rfl⟩

theorem prefOne_keeps (s : State) (f : Form) (x : Iss) (u : State) (a : Act) : Prefetched u (prefOne s f x u a) := by
  unfold prefOne prefLane
  split
  · dsimp only
    split
    · split
      · exact Prefetched.startWalk u _ _ _
      · split
        · exact (parkNone_spec u _ _ _).1
        · exact Prefetched.refl u
    · exact Prefetched.refl u
  · exact Prefetched.refl u

/-- What PREF is to bring about for an address, in `t` from `s`: of a mapped one a translation, and with SERVICE of one without a
mapping a fault record. -/
structure PrefDone (s t : State) (f : Form) (x : Iss) (ea : Nat) : Prop where
  mapped : ∀ c p, s.ctx? x.ctx = some c → pageOf c.pages ea = some p → Translating s t x.core x.ctx ea
  absent : ∀ c, s.ctx? x.ctx = some c → pageOf c.pages ea = none → f.m2 = 1 → Recorded t x.core x.ctx ea

theorem prefLane_done (s : State) (f : Form) (x : Iss) (args : Args) (hea : region (effAddr args.a args.b) = .paged) :
    PrefDone s (prefLane f x args s) f x (effAddr args.a args.b) where
  mapped c p hc hp := by
    simp only [prefLane, hea, hc, Option.bind_some, hp]
    exact translating_startWalk s _ _ _
  absent c hc hp hm := by
    simp only [prefLane, hea, hc, Option.bind_some, hp, hm, if_true]
    exact (parkNone_spec s _ _ _).2

theorem PrefDone.mono {s u v t : State} {f : Form} {x : Iss} {ea : Nat} (hs : Prefetched s u) (h : PrefDone u v f x ea) (ht : Prefetched v t) :
    PrefDone s t f x ea := by
  have hctx : ∀ c, s.ctx? x.ctx = some c → ∃ d, u.ctx? x.ctx = some d ∧ d.pages = c.pages := fun c hc => by
    have hpages := hs.pages x.ctx
    rw [hc] at hpages
    simpa using hpages
  constructor
  · intro c p hc hp
    obtain ⟨d, hd, hpages⟩ := hctx c hc
    exact (h.mapped d p hd (hpages ▸ hp)).mono hs ht
  · intro c hc hp hm
    obtain ⟨d, hd, hpages⟩ := hctx c hc
    exact (h.absent d hd (hpages ▸ hp) hm).mono ht

theorem prefFold_done {s u : State} {f : Form} {x : Iss} {as : List Act} (hu : Prefetched s u) {a : Act} (ha : a ∈ as) {args : Args}
    (hargs : s.argsOf x f (sigOf (.pref f) f) a = some args) (hea : region (effAddr args.a args.b) = .paged) :
    PrefDone s (as.foldl (prefOne s f x) u) f x (effAddr args.a args.b) := by
  obtain ⟨before, after, rfl⟩ := List.append_of_mem ha
  rw [List.foldl_append, List.foldl_cons]
  have hbefore := hu.trans (Prefetched.foldl (prefOne_keeps s f x) before u)
  have hdone := prefLane_done (before.foldl (prefOne s f x) u) f x args hea
  have hone : prefOne s f x (before.foldl (prefOne s f x) u) a = prefLane f x args (before.foldl (prefOne s f x) u) := by
    rw [prefOne, hargs]
  rw [hone]
  exact hdone.mono hbefore (Prefetched.foldl (prefOne_keeps s f x) after _)

/-- Without SERVICE, PREF only starts walks. -/
theorem prefetched_walking {s : State} {f : Form} (hm : f.m2 ≠ 1) (x : Iss) : ∃ walks, s.prefetched f x = s.walking walks := by
  unfold State.prefetched
  refine List.foldlRecOn (motive := fun u => ∃ walks, u = s.walking walks) _ _ ⟨s.walks, rfl⟩ ?_
  rintro _ ⟨walks, rfl⟩ a -
  unfold prefOne prefLane
  split
  · dsimp only
    split
    · split
      · obtain ⟨new, h⟩ := startWalk_walking (s.walking walks) x.core x.ctx _
        exact ⟨_, h⟩
      · exact ⟨walks, if_neg hm⟩
    · exact ⟨walks, rfl⟩
  · exact ⟨walks, rfl⟩

theorem prefetchComplete : PrefetchComplete := by
  intro f s x hissue hdecodes _ hidle
  have hkept : Prefetched s (s.prefetched f x) := Prefetched.foldl (prefOne_keeps s f x) _ s
  obtain ⟨hlanes, wgs, ctl, cores, hend⟩ := endIdle_spec (s.prefetched f x) x f (sigOf (.pref f) f)
  refine ⟨_, pref_exec hissue hdecodes hidle, fun m hm => ?_, fun r hr => ?_, ?_, ?_, fun r hr => ?_, fun hm => ?_,
    fun a ha args c hargs hea hc => ?_⟩
  · rw [hlanes, if_pos (List.mem_map_of_mem hm), hkept.lane?]
  · rw [hlanes, if_neg hr, hkept.lane?]
  · obtain ⟨_, _, _, _, _, _, _, hframe⟩ := hkept.frame
    rw [hend, hframe]
  · obtain ⟨_, _, _, _, _, _, _, hframe⟩ := hkept.frame
    rw [hend, hframe]
  · rw [hend]
    exact hkept.records r hr
  · obtain ⟨walks, hwalks⟩ := prefetched_walking hm x (s := s)
    rw [hend, hwalks]
    exact ⟨_, _, _, _, _, rfl⟩
  · have hdone := prefFold_done (Prefetched.refl s) ha hargs hea
    rw [hend]
    cases hp : pageOf c.pages (effAddr args.a args.b) with
    | some p => exact hdone.mapped c p hc hp
    | none => exact hdone.absent c hc hp

/-- Settles O15: what waits for earlier accesses acts at once where none is in flight, and what PREF brings about for one lane stays
while it goes on to the others. -/
theorem orderedReads : Obligations.OrderedReads := by
  unfold Obligations.OrderedReads
  exact ⟨orderedComplete, prefetchComplete⟩

end Sys2Proof.Machine
end

section
/-! SUPPORT. The bits of a word and of a template: every field, slot and form is read back from its bits, and they from it (R129, R151,
R152). -/

namespace Sys2Proof

/-! ### Fields -/

@[simp] theorem Ty.ofBits_bits (t : Ty) : Ty.ofBits t.bits = t := by cases t <;> rfl
@[simp] theorem Rm.ofBits_bits (m : Rm) : Rm.ofBits m.bits = m := by cases m <;> rfl
@[simp] theorem Scope.ofBits_bits (s : Scope) : Scope.ofBits s.bits = s := by cases s <;> rfl
@[simp] theorem Hint.ofBits_bits (h : Hint) : Hint.ofBits h.bits = h := by cases h <;> rfl
@[simp] theorem ImmSrc.ofBits_bits (i : ImmSrc) : ImmSrc.ofBits i.bits = i := by cases i <;> rfl
@[simp] theorem Cls.ofBits_bits (c : Cls) : Cls.ofBits c.bits = c := by cases c <;> rfl
@[simp] theorem Hole.ofBits_bits (h : Hole) : Hole.ofBits h.bits = h := by cases h <;> rfl

@[simp] theorem Ty.bits_ofBits : ∀ b : BitVec 4, (Ty.ofBits b).bits = b := by decide
@[simp] theorem Rm.bits_ofBits : ∀ b : BitVec 3, (Rm.ofBits b).bits = b := by decide
@[simp] theorem Scope.bits_ofBits : ∀ b : BitVec 3, (Scope.ofBits b).bits = b := by decide
@[simp] theorem Hint.bits_ofBits : ∀ b : BitVec 2, (Hint.ofBits b).bits = b := by decide
@[simp] theorem ImmSrc.bits_ofBits : ∀ b : BitVec 2, (ImmSrc.ofBits b).bits = b := by decide
@[simp] theorem Cls.bits_ofBits : ∀ b : BitVec 3, (Cls.ofBits b).bits = b := by decide
@[simp] theorem Hole.bits_ofBits : ∀ b : BitVec 2, (Hole.ofBits b).bits = b := by decide

/-- One bit read as a flag, as a field of one bit. -/
theorem ofBool_getLsbD {w : Nat} (x : BitVec w) (i : Nat) : BitVec.ofBool (x.getLsbD i) = x.extractLsb' i 1 := by
  ext j hj
  obtain rfl : j = 0 := by omega
  simp

/-- A slot written in its 16 bits is read back (R152). -/
@[simp] theorem Slot.ofBits_bits (s : Slot) : Slot.ofBits s.bits = s := by
  simp (disch := omega) only [Slot.ofBits, Slot.bits, BitVec.extractLsb'_append_eq_of_le, BitVec.extractLsb'_append_eq_of_add_le,
    BitVec.getLsbD_append, Nat.reduceSub, Nat.reduceLT, if_true, if_false, BitVec.extractLsb'_eq_self, BitVec.getLsbD_ofBool,
    Cls.ofBits_bits, Hole.ofBits_bits, Nat.sub_self, decide_true, Bool.true_and]

/-- The 16 bits of a slot are those it was read from (R152). -/
@[simp] theorem Slot.bits_ofBits (b : BitVec 16) : (Slot.ofBits b).bits = b := by
  simp only [Slot.bits, Slot.ofBits, Cls.bits_ofBits, Hole.bits_ofBits, ofBool_getLsbD,
    BitVec.extractLsb'_append_extractLsb'_eq_extractLsb']
  exact BitVec.extractLsb'_eq_self

theorem literalOk_lit {f : Form} (h : literalOk f = true) : (if f.immsrc = .literal then f.lit else 0) = f.lit := by
  simp only [literalOk, Bool.or_eq_true, decide_eq_true_eq, beq_iff_eq] at h
  rcases h with h | h <;> simp [h]

theorem formOf_word_template (f : Form) (mop : BitVec 10) (h : literalOk f = true) : formOf f.word (f.template mop) f.lit = f := by
  simp (disch := omega) only [formOf, wordDix, Form.word, Form.template, BitVec.extractLsb'_append_eq_of_le,
    BitVec.extractLsb'_append_eq_of_add_le,
    BitVec.getLsbD_append, Nat.reduceSub, Nat.reduceLT, if_true, if_false, BitVec.extractLsb'_eq_self, BitVec.getLsbD_ofBool,
    Slot.ofBits_bits, Rm.ofBits_bits, Ty.ofBits_bits, Scope.ofBits_bits, Hint.ofBits_bits, ImmSrc.ofBits_bits, Nat.sub_self,
    decide_true, Bool.true_and, literalOk_lit h]

theorem templateMop_template (f : Form) (mop : BitVec 10) : templateMop (f.template mop) = mop := by
  simp (disch := omega) only [templateMop, Form.template, BitVec.extractLsb'_append_eq_of_le, Nat.reduceSub, BitVec.extractLsb'_eq_self]

theorem wordDix_word (f : Form) : wordDix f.word = f.dix := by
  simp (disch := omega) only [wordDix, Form.word, BitVec.extractLsb'_append_eq_of_le, Nat.reduceSub, BitVec.extractLsb'_eq_self]

theorem word_formOf (w : Word) (t : Template) (lit : Word) : (formOf w t lit).word = w := by
  simp only [Form.word, formOf, wordDix, ofBool_getLsbD, BitVec.extractLsb'_append_extractLsb'_eq_extractLsb']
  exact BitVec.extractLsb'_eq_self

theorem template_formOf (w : Word) (t : Template) (lit : Word) : (formOf w t lit).template (templateMop t) = t := by
  simp only [Form.template, formOf, templateMop, ofBool_getLsbD, Ty.bits_ofBits, Rm.bits_ofBits, Scope.bits_ofBits, Hint.bits_ofBits,
    ImmSrc.bits_ofBits, Slot.bits_ofBits, BitVec.extractLsb'_append_extractLsb'_eq_extractLsb']
  exact BitVec.extractLsb'_eq_self

end Sys2Proof
end

section
/-! SUPPORT. The decoder and the encoder are inverse to each other: what the tables of major opcodes name, and the word, template and literal
of an instruction (R129 to R136, R151 to R161). -/

namespace Sys2Proof

/-! ### Major opcodes -/

/-- What a table of major opcodes gives at one of them: nothing, or an instruction of that form and opcode, which R160 assigns. -/
inductive Spells (mop : Nat) (f : Form) : Option Instr → Prop
  | none : Spells mop f none
  | some {i : Instr} : i.form? = some f → mopOf i = mop → assignedMop mop = true → Spells mop f (some i)

theorem swriteOf_spells (f : Form) : Spells 0x012 f (some (swriteOf f)) := by
  unfold swriteOf
  split
  case h_5 => split <;> exact .some rfl rfl rfl
  all_goals exact .some rfl rfl rfl

theorem controlInstr_spells (k : Nat) (f : Form) : Spells k f (controlInstr k f) := by
  unfold controlInstr
  split
  case h_19 => exact swriteOf_spells f
  case h_25 => exact .none
  case h_2 | h_8 | h_23 => split <;> exact .some rfl rfl rfl
  all_goals exact .some rfl rfl rfl

theorem integerInstr_spells (k : Nat) (f : Form) : Spells (0x040 + k) f (integerInstr k f) := by
  unfold integerInstr
  split
  case h_29 => exact .none
  all_goals exact .some rfl rfl rfl

theorem floatInstr_spells (k : Nat) (f : Form) : Spells (0x080 + k) f (floatInstr k f) := by
  unfold floatInstr
  split
  case h_23 => exact .none
  all_goals exact .some rfl rfl rfl

theorem quadInstr_spells (k : Nat) (f : Form) : Spells (0x0C0 + k) f (quadInstr k f) := by
  unfold quadInstr
  split
  case h_7 => exact .none
  all_goals exact .some rfl rfl rfl

theorem exchangeInstr_spells (k : Nat) (f : Form) : Spells (0x0C8 + k) f (exchangeInstr k f) := by
  unfold exchangeInstr
  split
  case h_5 => exact .none
  all_goals exact .some rfl rfl rfl

theorem memoryInstr_spells (k : Nat) (f : Form) : Spells (0x100 + k) f (memoryInstr k f) := by
  unfold memoryInstr
  split
  case h_13 => split <;> exact .some rfl rfl rfl
  case h_19 => exact .none
  all_goals exact .some rfl rfl rfl

theorem barrierInstr_spells (k : Nat) (f : Form) : Spells (0x140 + k) f (barrierInstr k f) := by
  unfold barrierInstr
  split
  case h_7 => exact .none
  all_goals exact .some rfl rfl rfl

theorem matrixInstr_spells (k : Nat) (f : Form) : Spells (0x160 + k) f (matrixInstr k f) := by
  unfold matrixInstr
  split
  case h_13 => exact .none
  all_goals exact .some rfl rfl rfl

theorem objectInstr_spells (k : Nat) (f : Form) : Spells (0x180 + k) f (objectInstr k f) := by
  unfold objectInstr
  split
  case h_11 => exact .none
  all_goals exact .some rfl rfl rfl

theorem privilegedInstr_spells (k : Nat) (f : Form) : Spells (0x1C0 + k) f (privilegedInstr k f) := by
  unfold privilegedInstr
  split
  case h_7 => exact .none
  all_goals exact .some rfl rfl rfl

/-- What holds of a group of MOPs from its first, of a MOP at or above it. -/
theorem Spells.from {g : Nat → Form → Option Instr} {base : Nat} (h : ∀ k f, Spells (base + k) f (g k f)) {mop : Nat} (hm : base ≤ mop)
    (f : Form) : Spells mop f (g (mop - base) f) := by
  have := h (mop - base) f
  rwa [Nat.add_sub_cancel' hm] at this

theorem instrOf_spells (mop : Nat) (f : Form) : Spells mop f (instrOf mop f) := by
  unfold instrOf
  split_ifs with h1 h2 h3 h4 h5 h6 h7 h8 h9
  · exact controlInstr_spells mop f
  · exact Spells.from integerInstr_spells (Nat.le_of_not_lt h1) f
  · exact Spells.from floatInstr_spells (Nat.le_of_not_lt h2) f
  · exact Spells.from quadInstr_spells (Nat.le_of_not_lt h3) f
  · exact Spells.from exchangeInstr_spells (Nat.le_of_not_lt h4) f
  · exact Spells.from memoryInstr_spells (Nat.le_of_not_lt h5) f
  · exact Spells.from barrierInstr_spells (Nat.le_of_not_lt h6) f
  · exact Spells.from matrixInstr_spells (Nat.le_of_not_lt h7) f
  · exact Spells.from objectInstr_spells (Nat.le_of_not_lt h8) f
  · exact Spells.from privilegedInstr_spells (Nat.le_of_not_lt h9) f

/-- The instruction a major opcode names has the form and that opcode, which is one of R160. -/
theorem instrOf_some {mop : Nat} {f : Form} {i : Instr} (h : instrOf mop f = some i) :
    i.form? = some f ∧ mopOf i = mop ∧ assignedMop mop = true := by
  have hs := instrOf_spells mop f
  rw [h] at hs
  cases hs with
  | some hform hmop hassigned => exact ⟨hform, hmop, hassigned⟩

theorem instrOf_unassigned {mop : Nat} (h : assignedMop mop = false) (f : Form) : instrOf mop f = none := by
  cases hi : instrOf mop f with
  | none => rfl
  | some i =>
    obtain ⟨_, _, ha⟩ := instrOf_some hi
    rw [h] at ha
    cases ha

/-- An assigned major opcode has 10 bits. -/
theorem assignedMop_lt {k : Nat} (h : assignedMop k = true) : k < 2 ^ 10 := by
  simp only [assignedMop, privilegedMop, Bool.or_eq_true, Bool.and_eq_true, decide_eq_true_eq] at h
  omega

/-! ### Decoding and encoding -/

/-- The template a word is read with: the fixed one of its index below 0x040, else the entry of its slot (R132, R159). -/
def wordTemplate (w : Word) (entry : Nat → Template) : Template :=
  if (wordDix w).toNat < 0x040 then fixedTemplate (wordDix w).toNat else entry (wordDix w).toNat

theorem takesLiteral_eq (w : Word) (entry : Nat → Template) :
    takesLiteral w entry = decide (ImmSrc.ofBits ((wordTemplate w entry).extractLsb' 101 2) = .literal) := rfl

/-- A word decodes to the instruction that its template's major opcode names, where its index is not a reserved one (R132). -/
theorem decode_eq_ok {w : Word} {entry : Nat → Template} {lit : Word} {i : Instr} :
    decode w entry lit = .ok i ↔ ((wordDix w).toNat < 0x040 → (wordDix w).toNat < 0x010)
      ∧ instrOf (templateMop (wordTemplate w entry)).toNat (formOf w (wordTemplate w entry) lit) = some i := by
  unfold decode wordTemplate
  by_cases hd : (wordDix w).toNat < 0x040
  · by_cases hr : 0x010 ≤ (wordDix w).toNat
    · simp [hd, hr]
    · simp only [hd, hr, if_true, if_false, Nat.lt_of_not_le hr, true_and, forall_const]
      cases instrOf (templateMop (fixedTemplate (wordDix w).toNat)).toNat (formOf w (fixedTemplate (wordDix w).toNat) lit) <;> simp
  · simp only [hd, if_false, false_imp_iff, true_and]
    cases instrOf (templateMop (entry (wordDix w).toNat)).toNat (formOf w (entry (wordDix w).toNat) lit) <;> simp

theorem decode_encode {i : Instr} {e : Encoded} {entry : Nat → Template} (hw : WellFormed i = true) (he : encode i = some e)
    (ht : entry (wordDix e.word).toNat = e.template) : decode e.word entry e.literal = .ok i := by
  obtain ⟨f, hf, rfl⟩ := Option.map_eq_some_iff.mp he
  simp only [WellFormed, hf, Bool.and_eq_true] at hw
  obtain ⟨⟨hvariant, hentry⟩, hlit⟩ := hw
  have hinstr : instrOf (mopOf i) f = some i := by
    unfold variantOk at hvariant
    cases hj : instrOf (mopOf i) f with
    | none => rw [hj] at hvariant; cases hvariant
    | some j => rw [hj] at hvariant; rw [of_decide_eq_true hvariant]
  obtain ⟨_, _, hassigned⟩ := instrOf_some hinstr
  have hmop : (BitVec.ofNat 10 (mopOf i)).toNat = mopOf i := by
    rw [BitVec.toNat_ofNat, Nat.mod_eq_of_lt (assignedMop_lt hassigned)]
  simp only [wordDix_word] at ht
  have htemplate : wordTemplate f.word entry = f.template (BitVec.ofNat 10 (mopOf i)) ∧ (f.dix.toNat < 0x040 → f.dix.toNat < 0x010) := by
    unfold entryOk at hentry
    unfold wordTemplate
    rw [wordDix_word]
    split_ifs at hentry ⊢ with hd
    · simp only [Bool.and_eq_true, decide_eq_true_eq, beq_iff_eq] at hentry
      exact ⟨hentry.2.symm, fun _ => hentry.1⟩
    · exact ⟨ht, fun h => absurd h hd⟩
  obtain ⟨htemplate, hdix⟩ := htemplate
  rw [decode_eq_ok, wordDix_word, htemplate, templateMop_template, formOf_word_template f _ hlit, hmop]
  exact ⟨hdix, hinstr⟩

theorem literalOk_formOf (w : Word) (t : Template) (lit : Word) : literalOk (formOf w t lit) = true := by
  simp only [literalOk, formOf, Bool.or_eq_true, beq_iff_eq]
  split_ifs with h
  · exact .inl (decide_eq_true h)
  · exact .inr rfl

/-- Of a form, the checks of R153 see only what its template says. -/
theorem formOk_formOf (w : Word) (t : Template) (lit : Word) : formOk (formOf w t lit) = formOk (formOf 0 t 0) := rfl

theorem encode_decode {w : Word} {entry : Nat → Template} {lit : Word} {i : Instr} (hdec : decode w entry lit = .ok i)
    (hvalid : 0x040 ≤ (wordDix w).toNat → templateValid true (entry (wordDix w).toNat) = true) :
    WellFormed i = true
      ∧ encode i = some { template := wordTemplate w entry, word := w, literal := if takesLiteral w entry then lit else 0 } := by
  obtain ⟨hdix, hinstr⟩ := decode_eq_ok.mp hdec
  obtain ⟨hform, hmop, _⟩ := instrOf_some hinstr
  have htemplate : (formOf w (wordTemplate w entry) lit).template (BitVec.ofNat 10 (mopOf i)) = wordTemplate w entry := by
    rw [hmop, BitVec.ofNat_toNat, BitVec.setWidth_eq, template_formOf]
  have hentry : entryOk i (formOf w (wordTemplate w entry) lit) = true := by
    unfold entryOk
    rw [htemplate, formOk_formOf]
    change (if (wordDix w).toNat < 0x040 then
        decide ((wordDix w).toNat < 0x010) && wordTemplate w entry == fixedTemplate (wordDix w).toNat
      else formOk (formOf 0 (wordTemplate w entry) 0)) = true
    unfold wordTemplate
    split_ifs with hd
    · simp [hdix hd]
    · have hv := hvalid (Nat.le_of_not_lt hd)
      simp only [templateValid, Bool.and_eq_true] at hv
      exact hv.2
  constructor
  · simp only [WellFormed, hform, variantOk, hmop, hinstr, hentry, literalOk_formOf, decide_true, Bool.and_self]
  · simp only [encode, hform, Option.map_some, htemplate, word_formOf, takesLiteral_eq, decide_eq_true_eq]
    rfl

theorem decode_reserved {w : Word} {entry : Nat → Template} {lit : Word} (hl : 0x010 ≤ (wordDix w).toNat) (hh : (wordDix w).toNat < 0x040) :
    decode w entry lit = .error .reserved := by
  simp only [decode, hh, hl, if_true]

theorem decode_undefined {w : Word} {entry : Nat → Template} {lit : Word} (hd : 0x040 ≤ (wordDix w).toNat)
    (hm : assignedMop (templateMop (entry (wordDix w).toNat)).toNat = false) : decode w entry lit = .error .undefined := by
  simp only [decode, Nat.not_lt_of_le hd, if_false, instrOf_unassigned hm]

/-- What a word decodes to has a major opcode of R160. -/
theorem assignedMop_decoded {w : Word} {entry : Nat → Template} {lit : Word} {i : Instr} (h : decode w entry lit = .ok i) :
    assignedMop (mopOf i) = true := by
  obtain ⟨_, hinstr⟩ := decode_eq_ok.mp h
  obtain ⟨_, hmop, hassigned⟩ := instrOf_some hinstr
  rw [hmop]
  exact hassigned

/-! ### The statements -/

/-- Settles O56: a form is read back from its word and template field by field, and a well-formed instruction is the one that its
major opcode and form name. -/
theorem encodeDecode : Obligations.EncodeDecode := by
  unfold Obligations.EncodeDecode
  exact fun i e entry hw he ht => decode_encode hw he ht

/-- Settles O57: word and template are put together again from the form read from them, and the opcode is that of the instruction. -/
theorem decodeEncode : Obligations.DecodeEncode := by
  unfold Obligations.DecodeEncode
  exact fun w entry lit i hdec hvalid => encode_decode hdec hvalid

/-- Settles O55: every table of major opcodes gives instructions of assigned opcodes alone. -/
theorem unassignedRefused : Obligations.UnassignedRefused := by
  unfold Obligations.UnassignedRefused
  exact ⟨fun w entry lit hl hh => decode_reserved hl hh, fun w entry lit hd hm => decode_undefined hd hm,
    fun w entry lit i hdec => assignedMop_decoded hdec⟩

/-- Settles O54: the four words are decoded by evaluation, and the fields are read off their forms. -/
theorem sampleWords : Obligations.SampleWords := by
  unfold Obligations.SampleWords
  refine ⟨⟨_, rfl, ?_⟩, ⟨_, rfl, ?_⟩, ⟨_, rfl, ?_⟩, ⟨_, rfl, ?_⟩⟩
  case refine_1 => exact ⟨rfl, rfl, rfl⟩
  case refine_2 => exact ⟨rfl, rfl⟩
  case refine_3 => exact ⟨rfl, rfl, rfl, rfl⟩
  case refine_4 => exact ⟨rfl, rfl, rfl, rfl, rfl, rfl, rfl, rfl, rfl, rfl⟩

end Sys2Proof
end

section
/-! SUPPORT. What the entries of an image are stored as, and which of them are counted as rejected (R153, R154, R158). -/

namespace Sys2Proof.Machine

/-- What one template of an image is stored as, and whether it is counted (R153, R154, R158). -/
def loadEntry (s : State) (j : DictJob) (unreadable : List Nat) (e : Nat × Nat) : (Nat × Template) × Nat :=
  let t : Template := BitVec.ofNat 128 (Memory.le s.mem e.2 16)
  let bad := s.poisoned e.2 || unreadable.contains (e.2 / 64)
  if !bad && (templateMop t).toNat = 0x3FF then ((j.first + e.1, undefinedTemplate), 0)
  else if !bad && templateValid j.priv t then ((j.first + e.1, t), 0)
  else ((j.first + e.1, undefinedTemplate), 1)

theorem loadEntries_eq (s : State) (j : DictJob) (unreadable : List Nat) :
    loadEntries s j unreadable
      = ((j.lines.zipIdx.map fun l => loadEntry s j unreadable (l.2, l.1)).map Prod.fst,
        (j.lines.zipIdx.map fun l => loadEntry s j unreadable (l.2, l.1)).foldl (fun n e => n + e.2) 0) := rfl

/-- An entry of MOP 0x3FF is stored as the undefined template, whatever its line (R154). -/
theorem loadEntry_undefined {s : State} {j : DictJob} {unreadable : List Nat} {k line : Nat}
    (hm : (templateMop (BitVec.ofNat 128 (Memory.le s.mem line 16))).toNat = 0x3FF) :
    (loadEntry s j unreadable (k, line)).1 = (j.first + k, undefinedTemplate) := by
  have hv : templateValid j.priv (BitVec.ofNat 128 (Memory.le s.mem line 16)) = false := by
    simp [templateValid, hm, show assignedMop 0x3FF = false by decide]
  unfold loadEntry
  simp only [hv, Bool.and_false, Bool.false_eq_true, if_false]
  split_ifs <;> rfl

/-- An entry is counted where it is rejected (R153, R154, R158). -/
theorem loadEntry_count (s : State) (j : DictJob) (unreadable : List Nat) (k line : Nat) :
    (loadEntry s j unreadable (k, line)).2 = if isRejected s j.priv unreadable line then 1 else 0 := by
  unfold loadEntry isRejected
  cases hbad : s.poisoned line || unreadable.contains (line / 64) with
  | true => simp
  | false =>
    by_cases hm : (templateMop (BitVec.ofNat 128 (Memory.le s.mem line 16))).toNat = 0x3FF
    · simp [hm]
    · cases hv : templateValid j.priv (BitVec.ofNat 128 (Memory.le s.mem line 16)) <;> simp [hm, hv]

/-- A sum of zeros and ones counts the elements that give one. -/
theorem foldl_count {α β : Type} (p : α → Bool) (count : β → Nat) (e : α × Nat → β) (he : ∀ q, count (e q) = if p q.1 then 1 else 0)
    (l : List α) (i n : Nat) : ((l.zipIdx i).map e).foldl (fun n x => n + count x) n = n + (l.filter p).length := by
  induction l generalizing i n with
  | nil => rfl
  | cons a as ih =>
    rw [List.zipIdx_cons, List.map_cons, List.foldl_cons, ih, he, List.filter_cons]
    cases p a
    · rfl
    · simp only [if_true, List.length_cons]; omega

/-- Settles O51: an entry of MOP 0x3FF is no valid template, and each entry adds to the count what `isRejected` says of its line. -/
theorem undefinedEntries : Obligations.UndefinedEntries := by
  unfold Obligations.UndefinedEntries
  refine ⟨by decide, fun s j unreadable k line hline hm => ?_, fun s j unreadable => ?_⟩
  · simp only [loadEntries_eq, List.getElem?_map, List.getElem?_zipIdx, hline, Option.map_some, Nat.zero_add, loadEntry_undefined hm]
  · rw [loadEntries_eq, foldl_count (isRejected s j.priv unreadable) Prod.snd _ fun q => loadEntry_count s j unreadable q.2 q.1, Nat.zero_add]

end Sys2Proof.Machine
end

section
/-! SUPPORT. A decode fault comes before all else that an instruction does: said of each shared course, then of each instruction (R132, R135,
R161). -/

namespace Sys2Proof.Machine

/-- A decode fault raised in every member of an issue, whatever its guard (R132, R135). -/
def State.raiseDecode (s : State) (x : Iss) (f : Form) (c : Cause) : State :=
  (s.setHold x.g none).raise (x.members.map fun m => ⟨m.ref, c, decodeDetail f c⟩)

/-- What acts for a group acts for no invocation. -/
theorem cur_of_curIss {s : State} {x : Iss} (hx : s.curIss? = some x) : ∃ g, s.cur = .group g := by
  unfold State.curIss? at hx
  split at hx
  next g hg => exact ⟨g, hg⟩
  · cases hx

/-! ### The shared courses -/

section
variable {i : Instr} {f : Form} {s : State} {x : Iss} {c : Cause}
variable (hx : s.curIss? = some x) (hc : decodeFault i f (s.limits x) = some c)
include hx hc

theorem frontBin_decodeFault (bin : Iss → Bool) (extra : List Nat) : frontBin i f bin s extra = .over (.next (s.raiseDecode x f c)) := by
  simp only [frontBin, hx, hc]
  rfl

theorem front_decodeFault (forbidden : Bool) (extra : List Nat) : front i f forbidden s extra = .over (.next (s.raiseDecode x f c)) :=
  frontBin_decodeFault hx hc _ extra

theorem laneStep_decodeFault {forbidden : Bool} {hint : Hint} {k : Iss → Act → Args → State → State × Done} :
    laneStep i f forbidden hint k s = .next (s.raiseDecode x f c) := by
  simp only [laneStep, front_decodeFault hx hc]

theorem onceStep_decodeFault {forbidden : Bool} {k : Iss → Env → Sig → List Act → State → State} {idle : Iss → Sig → State → State} :
    onceStep i f forbidden k s idle = .next (s.raiseDecode x f c) := by
  simp only [onceStep, front_decodeFault hx hc]

theorem swriteStep_decodeFault {priv : Bool} {k : Iss → DWord → State → State ⊕ Cause} :
    swriteStep i f priv k s = .next (s.raiseDecode x f c) :=
  onceStep_decodeFault hx hc

theorem saveStep_decodeFault {save : Bool} : saveStep i f save s = .next (s.raiseDecode x f c) := onceStep_decodeFault hx hc

theorem branchStep_decodeFault {target : Iss → Args → Word} : branchStep i f target s = .next (s.raiseDecode x f c) := by
  simp only [branchStep, front_decodeFault hx hc]

theorem callStep_decodeFault {target : Iss → Args → Word} : callStep i f target s = .next (s.raiseDecode x f c) := by
  simp only [callStep, front_decodeFault hx hc]

theorem memStep_decodeFault {acq rel : Bool} {ask : Iss → Act → Args → State → Ask} :
    memStep i f acq rel ask s = .next (s.raiseDecode x f c) := by
  simp only [memStep, front_decodeFault hx hc]

theorem texStepOf_decodeFault {k : Iss → Act → Texture → Word → Word → State → Ask} :
    texStepOf i f k s = .next (s.raiseDecode x f c) := by
  simp only [texStepOf, front_decodeFault hx hc]

theorem barStep_decodeFault {arrive waits : Bool} : barStep i f arrive waits s = .next (s.raiseDecode x f c) := by
  simp only [barStep, front_decodeFault hx hc]

theorem signStep_decodeFault {js : Slot} {onePane : Bool} {values : Env → Sig → List Word} {fill : Nat → Nat → State → State} :
    signStep i f js onePane values fill s = .next (s.raiseDecode x f c) := by
  simp only [signStep, front_decodeFault hx hc]

theorem readStep_decodeFault {k : Iss → Args → List Word ⊕ (Cause × BitVec 52)} : readStep i f k s = .next (s.raiseDecode x f c) := by
  simp only [readStep, front_decodeFault hx hc]

theorem exchangeStep_decodeFault {forbidden : Bool} {got : Iss → Env → Sig → List Act → Act → Got} :
    exchangeStep i f forbidden got s = .next (s.raiseDecode x f c) := by
  simp only [exchangeStep, front_decodeFault hx hc]

/-- A decode fault comes before a stall for a matrix result (R132, R349). -/
theorem matStep_decodeFault {uses : List (MatRes × Bool)} {k : Iss → Env → Sig → List Act → State → State}
    {idle : Iss → Sig → State → State} : matStep i f uses k s idle = .next (s.raiseDecode x f c) := by
  have hheld : s.matHeld i f uses = none := by simp [State.matHeld, hx, hc]
  simp only [matStep, hheld]
  exact onceStep_decodeFault hx hc

theorem aluExec_decodeFault {val : Nat → Args → Val} : aluExec i f val s = .next (s.raiseDecode x f c) := by
  obtain ⟨g, hg⟩ := cur_of_curIss hx
  simp only [aluExec, hg, aluStep, front_decodeFault hx hc]

theorem methodExec_decodeFault {act : Sig → Args → Invocation → Invocation} : methodExec i f act s = .next (s.raiseDecode x f c) := by
  obtain ⟨g, hg⟩ := cur_of_curIss hx
  simp only [methodExec, hg, front_decodeFault hx hc]

theorem braBody_decodeFault : braBody i f s = .next (s.raiseDecode x f c) := by
  obtain ⟨g, hg⟩ := cur_of_curIss hx
  simp only [braBody, hg]
  exact branchStep_decodeFault hx hc

end

/-! ### The instructions -/

section
variable {i : Instr} {f : Form} {s : State} {x : Iss} {c : Cause}

theorem execNop_decodeFault (hx : s.curIss? = some x) (hc : decodeFault (.nop f) f (s.limits x) = some c) :
    execNop f s = .next (s.raiseDecode x f c) := by
  obtain ⟨g, hg⟩ := cur_of_curIss hx
  simp only [execNop, hg, front_decodeFault hx hc]

theorem execExit_decodeFault (hx : s.curIss? = some x) (hc : decodeFault (.exit f) f (s.limits x) = some c) :
    execExit f s = .next (s.raiseDecode x f c) := by
  obtain ⟨g, hg⟩ := cur_of_curIss hx
  simp only [execExit, hg, front_decodeFault hx hc]

/-- CVT reaches its decode faults with SR as with every other mode. -/
theorem execCvt_decodeFault (hx : s.curIss? = some x) (hc : decodeFault (.cvt f) f (s.limits x) = some c) :
    execCvt f s = .next (s.raiseDecode x f c) := by
  obtain ⟨g, hg⟩ := cur_of_curIss hx
  simp only [execCvt, hg]
  split
  · simp only [cvtSr, front_decodeFault hx hc]
  · exact aluExec_decodeFault hx hc

theorem execRedw_decodeFault (hx : s.curIss? = some x) (hc : decodeFault (.redw f) f (s.limits x) = some c) :
    execRedw f s = .next (s.raiseDecode x f c) := by
  unfold execRedw
  split
  · simp only [front_decodeFault hx hc]
  · exact exchangeStep_decodeFault hx hc

/-- Every instruction of a lane reaches its decode faults before anything else (R132). -/
theorem exec_decodeFault (hf : i.form? = some f) (hx : s.curIss? = some x) (hc : decodeFault i f (s.limits x) = some c) :
    exec i s = .next (s.raiseDecode x f c) := by
  cases i with
  | nop => cases hf; exact execNop_decodeFault hx hc
  | exit => cases hf; exact execExit_decodeFault hx hc
  | cvt => cases hf; exact execCvt_decodeFault hx hc
  | redw => cases hf; exact execRedw_decodeFault hx hc
  | iadd | isub | imul | imulh | imad | isha | imin | imax | iabs | and | or | xor | shl | shr | rotl | bfx | bfi | popc | clz | brev
  | isetp | sel | mov | movi | bsel | pset | fadd | fmul | ffma | fmin | fmax | fsetp | fscl | rcp | rsq | sqrt | exp2 | log2 | sin | cos
  | tanh | frc | frnd | f2i | i2f | fclass | dot4 => cases hf; unfold exec; exact aluExec_decodeFault hx hc
  | sld | sst | marg | mret | mtrap => cases hf; unfold exec; exact methodExec_decodeFault hx hc
  | bcast | qxh | qxv | qxd | qbc | ddx | ddy | lxch | scanw | matchw => cases hf; unfold exec; exact exchangeStep_decodeFault hx hc
  | bra | braUniform => cases hf; unfold exec; exact braBody_decodeFault hx hc
  | brx => cases hf; unfold exec; exact branchStep_decodeFault hx hc
  | call | callx => cases hf; unfold exec; exact callStep_decodeFault hx hc
  | trap | bkpt | yield | window | swriteTrappc => cases hf; unfold exec; exact laneStep_decodeFault hx hc
  | rte | waitc | sleep | launch | lds | dictld | dictsw | dfence | swriteTrapdict | jset | tlbi | parkr =>
    cases hf; unfold exec; exact onceStep_decodeFault hx hc
  | swrite | swriteSrseed | swriteCexctl | swritePcmp => cases hf; unfold exec; exact swriteStep_decodeFault hx hc
  | ctxsv | ctxrs => cases hf; unfold exec; exact saveStep_decodeFault hx hc
  | ld | ldv | stv | atom | atomv | cas | red | redv | lineZero | swarm => cases hf; unfold exec; exact memStep_decodeFault hx hc
  | tex | tld => cases hf; unfold exec; exact texStepOf_decodeFault hx hc
  | bara | barw | bars => cases hf; unfold exec; exact barStep_decodeFault hx hc
  | jsign | wload | mma | mmg => cases hf; unfold exec; exact signStep_decodeFault hx hc
  | tldt | tstt | tmov | tcvt | tscl | acz | acrd | acwr | acst => cases hf; unfold exec; exact matStep_decodeFault hx hc
  | dictrd | lanex => cases hf; unfold exec; exact readStep_decodeFault hx hc
  | ret => cases hf; simp only [exec, execRet, front_decodeFault hx hc]
  | join => cases hf; simp only [exec, execJoin, front_decodeFault hx hc]
  | reform => cases hf; simp only [exec, execReform, hx, front_decodeFault hx hc]
  | reformHome => cases hf; simp only [exec, execReformHome, hx, front_decodeFault hx hc]
  | elect => cases hf; simp only [exec, execElect, front_decodeFault hx hc]
  | voteActive => cases hf; simp only [exec, execVoteActive, front_decodeFault hx hc]
  | vote => cases hf; simp only [exec, execVote, front_decodeFault hx hc]
  | sread => cases hf; simp only [exec, execSread, front_decodeFault hx hc]
  | rdlane => cases hf; simp only [exec, execRdlane, front_decodeFault hx hc]
  | st => cases hf; simp only [exec, execSt, front_decodeFault hx hc]
  | pref => cases hf; simp only [exec, execPref, frontBin_decodeFault hx hc]
  | fence => cases hf; simp only [exec, execFence, front_decodeFault hx hc]
  | lineProbe => cases hf; simp only [exec, execLineProbe, front_decodeFault hx hc]
  | waitw => cases hf; simp only [exec, execWaitw, front_decodeFault hx hc]
  | swwait => cases hf; simp only [exec, execSwwait, front_decodeFault hx hc]
  | jwait => cases hf; simp only [exec, execJwait, front_decodeFault hx hc]
  | post => cases hf; simp only [exec, execPost, front_decodeFault hx hc]
  | tsamp => cases hf; simp only [exec, execTsamp, front_decodeFault hx hc]
  | ocall => cases hf; simp only [exec, execOcall, front_decodeFault hx hc]
  | oread => cases hf; simp only [exec, execOread, hx, front_decodeFault hx hc]
  | ostat => cases hf; simp only [exec, execOstat, front_decodeFault hx hc]
  | _ => cases hf

/-- A check that fails among some makes one of them the first that does. -/
theorem firstFault_ne_none {l : List (Option Cause)} {c : Cause} (h : some c ∈ l) : firstFault l ≠ none := by
  intro hn
  have := List.findSome?_eq_none_iff.mp hn (some c) h
  cases this

/-- A privileged instruction does not decode outside privileged mode (R161). -/
theorem decodeFault_of_privileged {lim : Limits} (hm : privilegedMop (mopOf i) = true) (hp : lim.priv = false) :
    decodeFault i f lim ≠ none := by
  have hpriv : faultUnless .illPriv (!privilegedMop (mopOf i) || lim.priv) = some .illPriv := by rw [hm, hp]; rfl
  exact firstFault_ne_none (List.mem_of_getElem? (i := 6) (congrArg some hpriv))

end

/-- Settles O52: every instruction of a lane begins with the front, which raises the decode faults before it looks at a guard. -/
theorem decodeFaults : Obligations.DecodeFaults := by
  unfold Obligations.DecodeFaults
  exact ⟨fun i f c s x hf hx hc => exec_decodeFault hf hx hc, fun i f lim hm hp => decodeFault_of_privileged hm hp⟩

end Sys2Proof.Machine
end

section
/-! SUPPORT. The instructions of own-lane operands with uniform and predicate destinations (R143, R193, R194). -/

namespace Sys2Proof.Machine

/-- With a uniform destination such an instruction writes one value, that of lane position 0 (R194). -/
theorem ComputesOwn.uniformCompletes {mk : Form → Instr} {val : Form → Args → Val} (h : ComputesOwn mk val) :
    UniformCompletes mk false (ownUniform fun f _ => val f) releasesNone := by
  intro f s x v hc _ hd _ ha ht hu
  rw [h.exec_eq]
  exact aluExec_uniform (fun f _ => val f) hc hd ha ht hu

/-- With a predicate destination such an instruction writes the predicate of each active lane (R143, R193). -/
theorem ComputesOwn.predCompletes {mk : Form → Instr} {val : Form → Args → Val} (h : ComputesOwn mk val) :
    PredCompletes mk false (ownValue fun f _ => val f) := by
  intro f s x hc ok hd ha ht
  rw [h.exec_eq]
  exact aluExec_pred (fun f _ => val f) hc ok hd ha ht

theorem computesOwn_uniformOps : ∀ e ∈ uniformOps, ComputesOwn e.1 e.2 := by
  intro e he
  rcases List.mem_append.mp he with hi | hf
  · exact computesOwn_integerOps e (List.mem_of_mem_eraseIdx hi)
  · exact computesOwn_floatOps e hf

/-- Settles O1: each of the instructions is run by `aluExec`, whose results of active lanes stand in a vector destination. -/
theorem integerVector : Obligations.IntegerVector := fun e he => (computesOwn_integerOps e he).vectorCompletes

/-- Settles O4: the results of active lanes that `aluExec` computes stand in a predicate destination. -/
theorem ownPredicate : Obligations.OwnPredicate := fun e he => (computesOwn_predicateOps e he).predCompletes

end Sys2Proof.Machine
end

section
/-! SUPPORT. One value for an issue with a uniform destination (R194). -/

namespace Sys2Proof

/-- Settles O3: the one value that `aluExec` writes to a uniform destination is that of lane position 0. -/
theorem ownUniform : Obligations.OwnUniform := fun e he => (Machine.computesOwn_uniformOps e he).uniformCompletes

end Sys2Proof
end

section
/-! SUPPORT. Loads and stores issue one access for each active lane (R229 to R239). -/

namespace Sys2Proof.Machine

/-- The values a checked access gives at once are the zeros of a helper lane (R85, R232). -/
theorem Chk.ask_value {helper : Bool} {words ea : Nat} {k : Nat → Ask} {c : Chk} {ws : List Word} (hk : ∀ p, k p ≠ .value ws)
    (h : c.ask helper words ea k = .value ws) : helper = true ∧ ws = List.replicate words 0 := by
  cases c with
  | ok p => exact absurd h (hk p)
  | wait => cases h
  | fault c =>
    cases helper with
    | false => cases h
    | true => exact ⟨rfl, (Ask.value.inj h).symm⟩
  | absent =>
    cases helper with
    | false => cases h
    | true => exact ⟨rfl, (Ask.value.inj h).symm⟩

/-- A read of as many registers as its destination spans, or an access that gives no value at once. -/
theorem Chk.ask_value_length {helper : Bool} {words ea n : Nat} {k : Nat → Ask} {c : Chk} {ws : List Word}
    (h : c.ask helper words ea k = .value ws) (hk : ∀ p, k p ≠ .value ws) (hn : n ≤ words) : n ≤ ws.length := by
  obtain ⟨-, rfl⟩ := Chk.ask_value hk h
  rwa [List.length_replicate]

/-- An instruction that `exec` runs as `memStep` issues the accesses its active lanes ask for, where the values it gives at once fill its
destination. -/
theorem memCompletes_of_memStep {mk : Form → Instr} {acq rel : Form → Bool} {ask : Form → Iss → Act → Args → State → Ask} {ask' : LaneAsk}
    (hexec : ∀ f s, exec (mk f) s = memStep (mk f) f (acq f) (rel f) (ask f) s)
    (hask : ∀ s f x a args, ask f x a args s = ask' s f x a args)
    (hval : ∀ s f x a args ws, ask' s f x a args = .value ws → (sigOf (mk f) f).d.width f.ty ≤ ws.length)
    (hwidth : ∀ f, (sigOf (mk f) f).d.width f.ty ≤ 8) : MemCompletes mk acq rel noPremise ask' := by
  intro f s x hc ok _ hg hd
  have hlen : (dstRegs f (sigOf (mk f) f) x.wbase).length ≤ (sigOf (mk f) f).d.width f.ty := slotRegs_length f x.wbase f.d _
  rw [hexec]
  exact memStep_spec hc ok (fun a _ args _ => hask s f x a args) hg (fun a args ws h => hlen.trans (hval s f x a args ws h)) hd
    (hlen.trans (hwidth f))

/-- A destination of the type TY, whose registers are two or one. -/
theorem vec_width (ty : Ty) : Operand.vec.width ty = if wideTy ty then 2 else 1 := rfl

theorem vec_width_le (ty : Ty) : Operand.vec.width ty ≤ 8 := by
  rw [vec_width]; split <;> decide

theorem absent_width_le (ty : Ty) : Operand.absent.width ty ≤ 8 := by
  change 1 ≤ 8
  decide

theorem loadsComplete : LoadsComplete := by
  constructor
  · refine memCompletes_of_memStep (fun _ _ => rfl) (fun _ _ _ _ _ => rfl) (fun s f x a args ws h => ?_) fun f => vec_width_le f.ty
    exact Chk.ask_value_length h (fun _ => nofun) (Nat.le_refl _)
  · refine memCompletes_of_memStep (fun _ _ => rfl) (fun _ _ _ _ _ => rfl) (fun s f x a args ws h => ?_) fun f => vec_width_le f.ty
    exact Chk.ask_value_length h (fun _ => nofun) (Nat.le_refl _)

/-- A plain store gives no value at once (R85). -/
theorem storing_ne_value {helper : Bool} {ea : Nat} {k : Nat → Ask} {c : Chk} {ws : List Word} (hk : ∀ p, k p ≠ .value ws) :
    (if helper then .nothing else c.ask false 0 ea k) ≠ .value ws := by
  cases helper with
  | true => nofun
  | false =>
    intro h
    cases (Chk.ask_value hk h).1

theorem memStoreAsk_ne_value {s : State} {f : Form} {x : Iss} {a : Act} {args : Args} {ws : List Word} :
    memStoreAsk s f x a args ≠ .value ws := storing_ne_value fun _ => nofun

/-- Without a store to the hatch, ST makes its lanes' accesses as every store does (R234, R269). -/
theorem execSt_eq_memStep {f : Form} {s : State} {x : Iss} (hc : CanIssue (.st f) f false s x) (hh : noHatch s f x) :
    execSt f s = memStep (.st f) f false (strong f) (stAsk f) s := by
  have hentries : ∀ gid, hatchEntries f gid ((s.actives x f).filterMap fun a =>
      (s.argsOf x f (sigOf (.st f) f) a).map fun v => (a, v)) = [] := by
    intro gid
    refine List.filterMap_eq_nil_iff.mpr fun p hp => ?_
    obtain ⟨a, ha, hv⟩ := List.mem_filterMap.mp hp
    obtain ⟨args, hargs, rfl⟩ := Option.map_eq_some_iff.mp hv
    simp only [hh a ha args hargs, Option.map_none, ite_self]
  unfold execSt memStep
  rw [front_canIssue hc]
  dsimp only
  cases hg : x.g with
  | reformed core slot gid => rfl
  | home wg w gid =>
    dsimp only
    exact congrArg Host.Outcome.next (if_pos (hentries gid))

theorem st_memCompletes : MemCompletes .st never strong noHatch memStoreAsk := by
  intro f s x hc ok hh hg hd
  have hlen : (dstRegs f (sigOf (.st f) f) x.wbase).length ≤ 1 := slotRegs_length f x.wbase f.d _
  have hask : ∀ a ∈ s.actives x f, ∀ args, s.argsOf x f (sigOf (.st f) f) a = some args →
      stAsk f x a args s = memStoreAsk s f x a args := by
    intro a ha args hargs
    simp only [stAsk, hh a ha args hargs]
    rfl
  change ∃ t new, execSt f s = _ ∧ _
  rw [execSt_eq_memStep hc hh]
  exact memStep_spec hc ok hask hg (fun _ _ _ h => absurd h memStoreAsk_ne_value) hd (by omega)

theorem storesComplete : StoresComplete := by
  refine ⟨st_memCompletes, ?_, ?_⟩
  · exact memCompletes_of_memStep (fun _ _ => rfl) (fun _ _ _ _ _ => rfl)
      (fun s f x a args ws h => absurd h (storing_ne_value fun _ => nofun)) fun _ => absent_width_le _
  · exact memCompletes_of_memStep (fun _ _ => rfl) (fun _ _ _ _ _ => rfl)
      (fun s f x a args ws h => absurd h (storing_ne_value fun _ => nofun)) fun _ => absent_width_le _

/-- Settles O13: no request of a load or store gives other values at once than the zeros of a helper lane, so the common end of the
memory instructions issues the accesses. -/
theorem loadsAndStores : Obligations.LoadsAndStores := ⟨loadsComplete, storesComplete⟩

end Sys2Proof.Machine
end

section
/-! SUPPORT. DICTSW, DFENCE and DICTLD: the slots of a warp, the binding of a physical slot, and the load that is entered (R155, R157, R163,
R164, R324). -/

namespace Sys2Proof.Machine

/-! ### DICTSW and DFENCE (R163, R164) -/

/-- A program slot that is not the trap slot, or of privileged code, is not refused (R166, R167). -/
theorem trapSlot_free {s : State} {x : Iss} {k : Nat} (h : x.priv = true ∨ ∀ c, s.ctx? x.ctx = some c → c.trapdict ≠ k) :
    (!x.priv && (s.ctx? x.ctx).any fun c => decide (c.trapdict = k)) = false := by
  rcases h with hp | hc
  · simp [hp]
  · cases hx : s.ctx? x.ctx with
    | none => simp
    | some c => simp [hc c hx]

theorem dictsw_completes : OnceCompletes .dictsw true
    (fun s f x => x.priv = true ∨ ∀ c, s.ctx? x.ctx = some c → c.trapdict ≠ (f.slotImm f.a).toNat)
    (fun s f x => s.updWarp x.wg x.warp fun v => { v with pending := (f.slotImm f.a).toNat }) := by
  intro f s x hc hact hout hslot
  refine ⟨_, ?_, (State.endIssue_plain _ x f).movesOnly⟩
  change execDictsw f s = _
  rw [execDictsw, onceStep_canIssue hc hact hout]
  simp only [trapSlot_free hslot, Bool.false_eq_true, if_false]

/-- The end of an issue leaves every context. -/
theorem EndsPlain.ctx? {x : Iss} {f : Form} {s t : State} (h : EndsPlain x f s t) (id : Nat) : t.ctx? id = s.ctx? id := by
  obtain ⟨_, _, _, _, rfl⟩ := h.frame.package
  rfl

theorem dfence_completes : OnceCompletes .dfence true
    (fun s _ x => ∃ v, s.warp? x.wg x.warp = some v ∧ v.loading = [] ∧ v.loadFail = false
      ∧ (∀ m ∈ x.members, s.quiet m.ref false = true) ∧ (s.ctx? x.ctx).bind Context.trace = none
      ∧ (s.slotOf x.core x.ctx v.pending).any (fun d => d.image.isSome) = true)
    (fun s _ x => s.updWarp x.wg x.warp fun v => { v with active := v.pending }) := by
  intro f s x hc hact hout ⟨v, hv, hloading, hfail, hquiet, htrace, himage⟩
  have hall : x.members.all (fun m => s.quiet m.ref false) = true := List.all_eq_true.mpr hquiet
  have hend := State.endIssue_plain (s.updWarp x.wg x.warp fun v => { v with active := v.pending }) x f
  have hoff : ((((s.updWarp x.wg x.warp fun v => { v with active := v.pending }).endIssue x f []).ctx? x.ctx).bind Context.trace) = none := by
    rw [hend.ctx?]
    exact htrace
  refine ⟨_, ?_, hend.movesOnly⟩
  change execDfence f s = _
  rw [execDfence, onceStep_canIssue hc hact hout, hv]
  simp only [hloading, hall, bne_self_eq_false, Bool.not_true, Bool.or_self, Bool.false_eq_true, if_false, State.fenceSlots, hfail,
    himage, traceRecord_off hoff, ite_self]

/-! ### Binding a slot (R155) -/

/-- Where a program slot that is not bound fits on a core, a physical slot is free (R155, R156). -/
theorem freeSlot_of_fits {s : State} {core ctx prog : Nat} (hfit : s.slotsFit core [(ctx, prog)] = true)
    (hnone : s.slotOf core ctx prog = none) :
    ∃ n, (List.range 8).find? (fun n => !(s.core core).slots.any fun d => d.phys = n) = some n := by
  rw [← Option.isSome_iff_exists, List.find?_isSome]
  by_contra hfull
  have hnew : 0 < ((([(ctx, prog)] ++ s.promised core).eraseDups).filter fun p => (s.slotOf core p.1 p.2).isNone).length := by
    refine List.length_pos_of_mem (a := (ctx, prog)) (List.mem_filter.mpr ⟨?_, by simp [hnone]⟩)
    rw [List.mem_eraseDups]
    exact List.mem_cons_self
  have hused : List.range 8 ⊆ (s.core core).slots.map DictSlot.phys := by
    intro n hn
    by_contra hfree
    refine hfull ⟨n, hn, ?_⟩
    simp only [List.mem_map, not_exists, not_and] at hfree
    simpa using hfree
  have hlen := (List.nodup_range.subperm hused).length_le
  simp only [State.slotsFit, decide_eq_true_eq] at hfit
  simp only [List.length_range, List.length_map] at hlen
  omega

/-- A slot that is bound, or that fits, is bound afterwards; the loads of its core stay (R155). -/
theorem bindSlot_bound {s : State} {core ctx prog : Nat}
    (h : (s.slotOf core ctx prog).isSome ∨ s.slotsFit core [(ctx, prog)] = true) :
    ∃ phys t, s.bindSlot core ctx prog = some (phys, t) ∧ (t.slotOf core ctx prog).map DictSlot.phys = some phys
      ∧ (t.core core).jobs = (s.core core).jobs := by
  unfold State.bindSlot
  cases hd : s.slotOf core ctx prog with
  | some d => exact ⟨_, _, rfl, by rw [hd]; rfl, rfl⟩
  | none =>
    rw [hd] at h
    have hfit := h.resolve_left (by simp)
    obtain ⟨n, hn⟩ := freeSlot_of_fits hfit hd
    simp only [hfit, hn, Bool.not_true, Bool.false_eq_true, if_false]
    refine ⟨_, _, rfl, ?_, ?_⟩
    · unfold State.slotOf at hd ⊢
      rw [State.core_updCore _ _ _ _ (by intro; rfl), if_pos rfl, List.find?_append, hd]
      simp
    · rw [State.core_updCore _ _ _ _ (by intro; rfl), if_pos rfl]

/-! ### DICTLD (R157, R324) -/

theorem poisonChk_ok {s : State} {reads : Bool} {c : Chk} {p : Nat} (h : s.poisonChk reads c = .ok p) : c = .ok p := by
  cases c with
  | ok q =>
    unfold State.poisonChk at h
    dsimp only at h
    split at h
    · cases h
    · exact h
  | _ => cases h

theorem onceChecked_passed {s : State} {x : Iss} {f : Form} {act : List Act} {cs : List (Nat × Chk)} (h : firstBad cs = none) (k : State) :
    s.onceChecked x f act cs k = k := by
  unfold State.onceChecked
  rw [h]

theorem firstBad_single {ea : Nat} {c : Chk} (h : firstBad [(ea, c)] = none) : ∃ p, c = .ok p := by
  cases c with
  | ok p => exact ⟨p, rfl⟩
  | _ => simp [firstBad] at h

/-- DICTLD of an image that passes its checks starts its load. -/
theorem dictld_exec {f : Form} {s : State} {x : Iss} {va first count : Nat} (hc : CanIssue (.dictld f) f true s x)
    (hact : s.actives x f ≠ []) (hquiet : s.noneInFlight x) (hva : va = (s.onceValue x f f.b (sigOf (.dictld f) f).b).toNat)
    (halign : va % 16 = 0) (hheader : firstBad [(va, s.poisonChk true (s.check x.core x.ctx .r va 16))] = none)
    (hok : headerOk (Memory.bytes s.mem (s.check x.core x.ctx .r va 16).phys 16) = some (first, count))
    (himage : firstBad ((va, s.check x.core x.ctx .rx va 16) :: imageChks (s.check x.core x.ctx) va count) = none) :
    exec (.dictld f) s = .next (s.startLoad x f (s.actives x f) (f.slotImm f.a).toNat va first count
      ((imageChks (s.check x.core x.ctx) va count).map fun c => c.2.phys)) := by
  obtain ⟨p, hp⟩ := firstBad_single hheader
  rw [poisonChk_ok hp] at hok
  have hread : (((s.reads x f (sigOf (.dictld f) f)).once x f (s.actives x f) f.b (sigOf (.dictld f) f).b).getD 0).toNat = va := by
    rw [reads_once, hva]
    rfl
  change execDictld f s = _
  rw [execDictld, onceStep_canIssue hc hact (hc.outside_of_forbidden hact)]
  simp only [hread, halign, bne_self_eq_false, Bool.false_eq_true, if_false, drainAll_none hquiet, hp, onceChecked_ok, Chk.phys]
  simp only [Chk.phys] at hok
  simp only [hok, onceChecked_passed himage]
  rfl

/-- The load that DICTLD enters (R157). -/
def dictldJob (s : State) (x : Iss) (k phys va first count : Nat) (lines : List Nat) : DictJob :=
  { id := s.seq, ctx := x.ctx, core := x.core, phys := phys, prog := k, va := dwordOf va, first := first, count := count
    lines := lines, priv := x.priv, warp := some (x.wg, x.warp), launchWg := none }

/-- The state in which DICTLD has entered its load and set LOADING, before its members move on (R157). -/
def State.loadEntered (s : State) (x : Iss) (k phys va first count : Nat) (lines : List Nat) : State :=
  (s.addJob x.core (dictldJob s x k phys va first count lines)).updWarp x.wg x.warp fun v =>
    { v with loading := v.loading ++ [(k, s.seq)] }

theorem startLoad_bound {s t : State} {x : Iss} {f : Form} {act : List Act} {k phys va first count : Nat} {lines : List Nat}
    (hslot : x.priv = true ∨ ∀ c, s.ctx? x.ctx = some c → c.trapdict ≠ k) (hbind : s.bindSlot x.core x.ctx k = some (phys, t)) :
    s.startLoad x f act k va first count lines = (t.loadEntered x k phys va first count lines).endIssue x f [] := by
  unfold State.startLoad
  simp only [trapSlot_free hslot, Bool.false_eq_true, if_false, hbind]
  rfl

section
variable (s : State) (x : Iss) (k phys va first count : Nat) (lines : List Nat)

theorem loadEntered_core : (s.loadEntered x k phys va first count lines).core x.core
    = { s.core x.core with jobs := (s.core x.core).jobs ++ [dictldJob s x k phys va first count lines] } := by
  change (s.updCore x.core fun c => { c with jobs := c.jobs ++ [dictldJob s x k phys va first count lines] }).core x.core = _
  rw [State.core_updCore _ _ _ _ (by intro; rfl), if_pos rfl]

theorem addJob_wg? (core : Nat) (j : DictJob) (id : Nat) : (s.addJob core j).wg? id = s.wg? id := by
  obtain ⟨_, _, h⟩ := coresOnly_addJob s core j
  rw [h]
  rfl

theorem loadEntered_lane? (r : LaneRef) : (s.loadEntered x k phys va first count lines).lane? r = s.lane? r := by
  unfold State.loadEntered
  rw [State.lane?_updWarp _ _ _ _ _ (by intro; rfl)]
  simp only [State.lane?, State.warp?, addJob_wg?]

theorem loadEntered_warp? : (s.loadEntered x k phys va first count lines).warp? x.wg x.warp
    = (s.warp? x.wg x.warp).map fun v => { v with loading := v.loading ++ [(k, s.seq)] } := by
  unfold State.loadEntered
  rw [State.warp?_updWarp, if_pos ⟨rfl, rfl⟩]
  simp only [State.warp?, addJob_wg?]

theorem loadEntered_groupsOnly : GroupsOnly s (s.loadEntered x k phys va first count lines) := by
  obtain ⟨cores, seq, h⟩ := coresOnly_addJob s x.core (dictldJob s x k phys va first count lines)
  unfold State.loadEntered
  rw [h]
  exact ⟨_, _, _, _, rfl⟩
end

/-- The end of an issue leaves the slots and the loads of every core. -/
theorem EndsPlain.core {x : Iss} {f : Form} {s t : State} (h : EndsPlain x f s t) (v : Nat) :
    (t.core v).jobs = (s.core v).jobs ∧ (t.core v).slots = (s.core v).slots := by
  rw [h.frame.cores v]
  exact ⟨rfl, rfl⟩

/-- A slot bound changes its core alone. -/
theorem CoresOnly.warp? {s t : State} (h : CoresOnly s t) (wg w : Nat) : t.warp? wg w = s.warp? wg w := by
  obtain ⟨_, _, rfl⟩ := h
  rfl

theorem CoresOnly.lane? {s t : State} (h : CoresOnly s t) (r : LaneRef) : t.lane? r = s.lane? r := by
  obtain ⟨_, _, rfl⟩ := h
  rfl

theorem CoresOnly.groupsOnly {s t : State} (h : CoresOnly s t) : GroupsOnly s t := by
  obtain ⟨_, _, rfl⟩ := h
  exact ⟨_, _, _, _, rfl⟩

theorem dictLoadsComplete : DictLoadsComplete := by
  intro f s x va first count v hc hact hquiet _ hva halign hheader hok himage hslot hfits hv
  obtain ⟨phys, t, hbind, hphys, hjobs⟩ := bindSlot_bound hfits
  have hcores : CoresOnly s t := coresOnly_bindSlot hbind
  generalize hk : (f.slotImm f.a).toNat = k at *
  generalize hlines : (imageChks (s.check x.core x.ctx) va count).map (fun c => c.2.phys) = lines
  have hend := State.endIssue_plain (t.loadEntered x k phys va first count lines) x f
  obtain ⟨hendJobs, hendSlots⟩ := hend.core x.core
  refine ⟨(t.loadEntered x k phys va first count lines).endIssue x f [], dictldJob t x k phys va first count lines, ?_, ?_,
    rfl, rfl, rfl, rfl, rfl, rfl, rfl, rfl, rfl, ?_, ?_, fun m hm => ?_, fun r hr => ?_, ?_⟩
  · rw [dictld_exec hc hact hquiet hva halign hheader hok himage, hk, hlines, startLoad_bound hslot hbind]
  · rw [hendJobs, loadEntered_core, hjobs]
  · rw [State.slotOf, hendSlots, loadEntered_core]
    exact hphys
  · rw [hend.warps Warp.loading (fun _ _ => rfl) (fun _ _ => rfl), loadEntered_warp?, hcores.warp?, hv]
    rfl
  · rw [hend.lanes, if_pos (List.mem_map_of_mem hm), loadEntered_lane?, hcores.lane?]
  · rw [hend.lanes, if_neg hr, loadEntered_lane?, hcores.lane?]
  · exact (hcores.groupsOnly.trans (loadEntered_groupsOnly t x k phys va first count lines)).trans hend.groupsOnly

/-- Settles O19: DICTSW and DFENCE are plain ends of an issue after one write to the warp; DICTLD finds its slot bound or a physical
slot free, enters its load there, and ends plainly. -/
theorem dictionaries : Obligations.Dictionaries := ⟨⟨dictsw_completes, dfence_completes⟩, dictLoadsComplete⟩

end Sys2Proof.Machine
end

section
/-! SUPPORT. Exchanges between lanes: what each gives a lane is the value that its statement names (R204, R222 to R226). -/

namespace Sys2Proof.Machine

/-! ### Values and what an exchange gives -/

theorem Got.ofOption_val {o : Option DWord} {v : Val} (h : o.map plain = some v) : Got.ofOption o = .val v := by
  obtain ⟨w, rfl, rfl⟩ := Option.map_eq_some_iff.mp h
  rfl

/-- `exec` runs `mk` as an exchange wherever its destination is not uniform, and what it gives a lane is the value `val`. -/
structure ExchangesBy (mk : Form → Instr) (forbidden : Bool) (val : LaneValue) (got : Form → Iss → Env → Sig → List Act → Act → Got) :
    Prop where
  exec_eq : ∀ f s, f.d.cls ≠ .uniform → exec (mk f) s = exchangeStep (mk f) f forbidden (got f) s
  gives   : ∀ {s f x e g act a v}, val s f x e g act a = some v → got f x e g act a = .val v
  dest    : ∀ f, (sigOf (mk f) f).d.ofType = true

/-- With a vector destination an exchange writes the value of each active lane (R194, R195). -/
theorem ExchangesBy.vectorCompletes {mk : Form → Instr} {forbidden : Bool} {val : LaneValue}
    {got : Form → Iss → Env → Sig → List Act → Act → Got} (h : ExchangesBy mk forbidden val got) :
    VectorCompletes mk forbidden val := by
  intro f s x hc ok _ hd ha ht hdst
  rw [h.exec_eq f s (by rw [hd]; decide)]
  exact exchangeStep_vector hc ok hd (fun _ _ hv => h.gives hv) ha ht hdst (Opnd.width_le_two (h.dest f) f.ty)

/-! ### Quads (R222) -/

section
variable {s : State} {f : Form} {x : Iss} {e : Env} {g : Sig} {act : List Act} {a : Act} {v : Val}

theorem quadGot_val {k : Form → Nat → Nat} (h : quadValue k s f x e g act a = some v) : quadGot (k f) f x e g a = .val v := by
  unfold quadValue at h
  unfold quadGot
  split at h
  next hwhole =>
    rw [if_pos hwhole]
    exact Got.ofOption_val h
  · cases h

theorem quadDiff_val {hi lo : Form → Nat → Nat} (h : derivValue hi lo s f x e g act a = some v) :
    quadDiff (hi f) (lo f) f x e g a = .val v := by
  unfold derivValue at h
  unfold quadDiff
  split at h
  next hwhole =>
    rw [if_pos hwhole]
    dsimp only
    split at h
    · cases h
      rfl
    · cases h
  · cases h

/-! ### The warp (R204, R224 to R226) -/

/-- What LXCH gives a lane (R224). -/
def lxchGot (f : Form) (x : Iss) (e : Env) (g : Sig) (_ : List Act) (a : Act) : Got :=
  match e.slot f x.wbase a.m.pos f.b g.b with
  | none => .empty
  | some b =>
    let src := lxchSource f.m2.toNat a.m.pos (b.toNat % 2 ^ 32)
    if x.has src then Got.ofOption (e.srcAt x f g src) else .val (plain 0)

/-- What MATCH gives a lane (R226). -/
def matchGot (f : Form) (x : Iss) (e : Env) (g : Sig) (act : List Act) (a : Act) : Got :=
  match act.mapM (fun b => (e.srcAt x f g b.m.pos).map fun v => (b.m.pos, v)), e.srcAt x f g a.m.pos with
  | some vs, some own => .val (plain (BitVec.ofNat 64 (vs.foldl (fun m v => if v.2 = own then m + 2 ^ v.1 else m) 0)))
  | _, _ => .empty

/-- What BCAST gives a lane (R204). -/
def bcastGot (f : Form) (x : Iss) (e : Env) (g : Sig) (act : List Act) (_ : Act) : Got :=
  match act with
  | [] => .empty
  | b :: _ => Got.ofOption (e.srcAt x f g b.m.pos)

theorem lxchPosition_eq_lxchSource (mode pos b : Nat) : lxchPosition mode pos b = lxchSource mode pos b := rfl

theorem lxchGot_val (h : lxchValue s f x e g act a = some v) : lxchGot f x e g act a = .val v := by
  unfold lxchValue at h
  obtain ⟨b, hb, h⟩ := Option.bind_eq_some_iff.mp h
  unfold lxchGot
  rw [hb]
  dsimp only at h ⊢
  rw [lxchPosition_eq_lxchSource] at h
  split at h
  next hhas =>
    rw [if_pos hhas]
    exact Got.ofOption_val h
  next hnot =>
    rw [if_neg hnot]
    cases h
    rfl

theorem scanGot_val (h : scanValue s f x e g act a = some v) : scanGot f x e g act a = .val v := by
  obtain ⟨xs, hxs, rfl⟩ := Option.map_eq_some_iff.mp h
  unfold scanGot
  rw [hxs]

theorem reduceGot_val (h : reduceValue s f x e g act a = some v) : reduceGot f x e g act a = .val v := by
  unfold reduceValue at h
  split at h
  next xs ys hxs hys =>
    cases h
    unfold reduceGot
    rw [hxs, hys]
  · cases h

theorem matchGot_val (h : matchValue s f x e g act a = some v) : matchGot f x e g act a = .val v := by
  unfold matchValue at h
  split at h
  next vs own hvs hown =>
    cases h
    unfold matchGot
    rw [hvs, hown]
  · cases h

theorem bcastGot_val (h : bcastValue s f x e g act a = some v) : bcastGot f x e g act a = .val v := by
  unfold bcastValue at h
  cases act with
  | nil => cases h
  | cons b bs => exact Got.ofOption_val h
end

/-! ### The exchanges, executed -/

/-- An exchange of quads gives each lane of a whole quad its source at one member (R222). -/
theorem quadExchange_completes {mk : Form → Instr} {k : Form → Nat → Nat}
    (hexec : ∀ f s, exec (mk f) s = exchangeStep (mk f) f false (fun x e g _ a => quadGot (k f) f x e g a) s)
    (hdest : ∀ f, (sigOf (mk f) f).d.ofType = true) : VectorCompletes mk false (quadValue k) :=
  ExchangesBy.vectorCompletes (got := fun f x e g _ a => quadGot (k f) f x e g a) ⟨fun f s _ => hexec f s, quadGot_val, hdest⟩

/-- A derivative gives each lane of a whole quad the difference of its source at two members (R222). -/
theorem derivative_completes {mk : Form → Instr} {hi lo : Form → Nat → Nat}
    (hexec : ∀ f s, exec (mk f) s = exchangeStep (mk f) f false (fun x e g _ a => quadDiff (hi f) (lo f) f x e g a) s)
    (hdest : ∀ f, (sigOf (mk f) f).d.ofType = true) : VectorCompletes mk false (derivValue hi lo) :=
  ExchangesBy.vectorCompletes (got := fun f x e g _ a => quadDiff (hi f) (lo f) f x e g a)
    ⟨fun f s _ => hexec f s, quadDiff_val, hdest⟩

theorem exchangesBy_lxch : ExchangesBy .lxch true lxchValue lxchGot := ⟨fun _ _ _ => rfl, lxchGot_val, fun _ => rfl⟩

theorem exchangesBy_redw : ExchangesBy .redw true reduceValue reduceGot := ⟨fun _ _ hd => if_neg hd, reduceGot_val, fun _ => rfl⟩

theorem exchangesBy_scanw : ExchangesBy .scanw true scanValue scanGot := ⟨fun _ _ _ => rfl, scanGot_val, fun _ => rfl⟩

theorem exchangesBy_matchw : ExchangesBy .matchw true matchValue matchGot := ⟨fun _ _ _ => rfl, matchGot_val, fun _ => rfl⟩

theorem exchangesBy_bcast : ExchangesBy .bcast true bcastValue bcastGot := ⟨fun _ _ _ => rfl, bcastGot_val, fun _ => rfl⟩

theorem exchangeVectorComplete : ExchangeVectorComplete := by
  unfold ExchangeVectorComplete exchangeOps
  simp only [List.forall_mem_cons]
  refine ⟨?qxh, ?qxv, ?qxd, ?qbc, ?ddx, ?ddy, exchangesBy_lxch.vectorCompletes, exchangesBy_redw.vectorCompletes,
    exchangesBy_scanw.vectorCompletes, exchangesBy_matchw.vectorCompletes, exchangesBy_bcast.vectorCompletes, nofun⟩
  case qxh | qxv | qxd | qbc => exact quadExchange_completes (fun _ _ => rfl) fun _ => rfl
  case ddx | ddy => exact derivative_completes (fun _ _ => rfl) fun _ => rfl

/-! ### One value for an issue (R204, R225) -/

theorem redw_uniformCompletes : UniformCompletes .redw true reduceUniform luRegs := by
  intro f s x v hc _ hd hact hv ht hu
  refine ⟨_, ?_, State.onceCommit_spec hc hact ht hu⟩
  change execRedw f s = _
  rw [execRedw, if_pos hd, front_canIssue hc, ← hv]
  rfl

theorem rdlane_uniformCompletes : UniformCompletes .rdlane true rdlaneValue luRegs := by
  intro f s x v hc _ _ hact hv ht hu
  refine ⟨_, ?_, State.onceCommit_spec hc hact ht hu⟩
  change execRdlane f s = _
  rw [execRdlane, front_canIssue hc, ← hv]
  rfl

end Sys2Proof.Machine
end

section
/-! SUPPORT. ELECT and the votes: a predicate in each active lane, or one mask for the issue (R321, R322). -/

namespace Sys2Proof.Machine

/-! ### A predicate in each active lane -/

theorem valWords_boolVal (b : Bool) : valWords 1 (boolVal b) = [if b then 1 else 0] := by
  cases b <;> rfl

/-- Where each active lane has its value, these are the results of the issue. -/
theorem laneResults_eq_map {s : State} {x : Iss} {f : Form} {g : Sig} {val : LaneValue} {v : Act → Val}
    (h : ∀ a ∈ s.actives x f, val s f x (s.reads x f g) g (s.actives x f) a = some (v a)) :
    s.laneResults x f g val = (s.actives x f).map fun a => ⟨a, valWords (g.d.width f.ty) (v a).v, (v a).flags⟩ := by
  unfold State.laneResults
  rw [← List.filterMap_eq_map]
  refine List.filterMap_congr fun a ha => ?_
  rw [h a ha]
  rfl

/-- Where each active lane's value is a truth value, its results are what a predicate result in each lane writes. -/
theorem predEach_eq_commitPred {s : State} {x : Iss} {f : Form} {g : Sig} {val : LaneValue} {b : Act → Bool}
    (hw : g.d.width f.ty = 1) (h : ∀ a, val s f x (s.reads x f g) g (s.actives x f) a = some (plain (boolVal (b a)))) :
    s.predEach x f g (s.actives x f) b = s.commitPred x f g (s.laneResults x f g val) [] := by
  rw [laneResults_eq_map fun a _ => h a]
  simp only [State.predEach, hw, plain, valWords_boolVal]

/-- A predicate result in each active lane, where every one of them has its truth value. -/
theorem predEach_spec {i : Instr} {forbidden : Bool} {s : State} {x : Iss} {f : Form} {val : LaneValue} {b : Act → Bool}
    (hc : CanIssue i f forbidden s x) (ok : IssueOk s x) (hw : (sigOf i f).d.width f.ty = 1)
    (ha : s.laneValues x f (sigOf i f) val)
    (h : ∀ a, val s f x (s.reads x f (sigOf i f)) (sigOf i f) (s.actives x f) a = some (plain (boolVal (b a)))) :
    PredResult x f (sigOf i f) (s.laneResults x f (sigOf i f) val) s (s.predEach x f (sigOf i f) (s.actives x f) b) := by
  rw [predEach_eq_commitPred hw h]
  exact State.commitPred_spec hc ok (laneResults_acts ha)

theorem elect_predCompletes : PredCompletes .elect true electValue := by
  intro f s x hc ok _ ha _
  refine ⟨_, ?_, predEach_spec hc ok rfl ha fun _ => rfl⟩
  change execElect f s = _
  rw [execElect, front_canIssue hc]

/-! ### VOTE (R322) -/

theorem sigOf_vote_width (f : Form) : (sigOf (.vote f) f).d.width f.ty = 1 := by
  change (if f.m2 = 3 then Operand.uni32 else Operand.pred).width f.ty = 1
  split <;> rfl

/-- The mode of an instruction that decodes is one that its row lists (R132, R135). -/
theorem decodeFault_m2 {i : Instr} {f : Form} {lim : Limits} (h : decodeFault i f lim = none) :
    f.m2.toNat ∈ (sigOf i f).m2 := by
  have hnone : faultUnless .illField ((sigOf i f).m2.contains f.m2.toNat) = none := firstFault_eq_none.mp h _ (by simp)
  unfold faultUnless at hnone
  split at hnone
  next hm => exact List.contains_iff_mem.mp hm
  · cases hnone

/-- A VOTE with a predicate destination is VOTE.ANY or VOTE.ALL (R322). -/
theorem vote_mode_of_predicate {f : Form} {lim : Limits} (h : decodeFault (.vote f) f lim = none) (hd : f.d.cls = .predicate) :
    f.m2.toNat = 1 ∨ f.m2.toNat = 2 := by
  have hm : f.m2.toNat ∈ [1, 2, 3] := decodeFault_m2 h
  have hcls : classOk f (sigOf (.vote f) f) true f.d (if f.m2 = 3 then Operand.uni32 else Operand.pred) = true :=
    (decodeFault_classOk h).1
  have h3 : f.m2 ≠ 3 := by
    intro h3
    rw [if_pos h3, classOk, hd] at hcls
    cases hcls
  have h3 : f.m2.toNat ≠ 3 := fun k => h3 (BitVec.eq_of_toNat_eq k)
  simp only [List.mem_cons, List.not_mem_nil, or_false] at hm
  omega

theorem vote_predCompletes : PredCompletes .vote true voteValue := by
  intro f s x hc ok hd ha _
  rcases vote_mode_of_predicate hc.decodes hd with hm | hm
  · refine ⟨_, ?_, predEach_spec (b := fun _ => (s.actives x f).any fun b => predOf f b.lane f.a) hc ok (sigOf_vote_width f) ha
      fun _ => by simp only [voteValue, hm]⟩
    change execVote f s = _
    simp only [execVote, front_canIssue hc, hm]
  · refine ⟨_, ?_, predEach_spec (b := fun _ => (s.actives x f).all fun b => predOf f b.lane f.a) hc ok (sigOf_vote_width f) ha
      fun _ => by simp only [voteValue, hm]⟩
    change execVote f s = _
    simp only [execVote, front_canIssue hc, hm]

theorem vote_uniformCompletes : UniformCompletes .vote true ballotValue releasesNone := by
  intro f s x v hc _ _ hact hv _ hu
  unfold ballotValue at hv
  split at hv
  next h3 =>
    cases hv
    refine ⟨_, ?_, State.onceVal_spec hact rfl hu⟩
    change execVote f s = _
    simp only [execVote, front_canIssue hc, h3, sigOf_vote_width]
    rfl
  · cases hv

theorem voteActive_uniformCompletes : UniformCompletes .voteActive true activeValue releasesNone := by
  intro f s x v hc _ _ hact hv _ hu
  cases hv
  refine ⟨_, ?_, State.onceVal_spec hact rfl hu⟩
  change execVoteActive f s = _
  rw [execVoteActive, front_canIssue hc]
  rfl

/-- Settles O6: an exchange gives each lane the value its statement names, and REDW, RDLANE and the votes write one value for their
issue or a truth value in each lane. -/
theorem exchanges : Obligations.Exchanges :=
  ⟨exchangeVectorComplete, ⟨redw_uniformCompletes, rdlane_uniformCompletes⟩,
    elect_predCompletes, vote_predCompletes, vote_uniformCompletes, voteActive_uniformCompletes⟩

end Sys2Proof.Machine
end

section
/-! SUPPORT. The mask that MATCH writes: bit by bit, the contributors whose operand equals the lane's (R226). -/

namespace Sys2Proof.Machine

/-! ### Sums of distinct powers of 2 -/

/-- Adding a power of 2 whose bit is clear sets that bit and no other. -/
theorem testBit_add_two_pow {n i : Nat} (h : n.testBit i = false) (j : Nat) :
    (n + 2 ^ i).testBit j = (n.testBit j || decide (j = i)) := by
  rw [Nat.add_comm]
  rcases Nat.lt_trichotomy j i with hlt | rfl | hgt
  · rw [Nat.testBit_two_pow_add_gt hlt]
    simp [hlt.ne]
  · rw [Nat.testBit_two_pow_add_eq, h]
    simp
  · obtain ⟨k, rfl⟩ : ∃ k, j = k + (i + 1) := ⟨j - (i + 1), by omega⟩
    have heven : n / 2 ^ i % 2 = 0 := by
      rw [Nat.testBit_eq_decide_div_mod_eq, decide_eq_false_iff_not] at h
      omega
    have hsame : (2 ^ i + n) / 2 ^ (i + 1) = n / 2 ^ (i + 1) := by
      rw [Nat.pow_succ, ← Nat.div_div_eq_div_mul, ← Nat.div_div_eq_div_mul, Nat.add_div_left _ (Nat.two_pow_pos i)]
      omega
    rw [Nat.testBit_add, Nat.testBit_add, hsame]
    simp [hgt.ne']

/-- A mask gathered from entries of distinct positions: a bit is set where an entry at its position is wanted. -/
theorem testBit_foldl_two_pow {α : Type} (pos : α → Nat) (want : α → Prop) [DecidablePred want] (vs : List α) (acc m : Nat)
    (hnodup : (vs.map pos).Nodup) (hclear : ∀ v ∈ vs, acc.testBit (pos v) = false) :
    (vs.foldl (fun n v => if want v then n + 2 ^ pos v else n) acc).testBit m = true
      ↔ acc.testBit m = true ∨ ∃ v ∈ vs, pos v = m ∧ want v := by
  induction vs generalizing acc with
  | nil => simp
  | cons v vs ih =>
    obtain ⟨hv, hnodup⟩ := List.nodup_cons.mp hnodup
    have hacc := hclear v List.mem_cons_self
    rw [List.foldl_cons]
    by_cases hw : want v
    · have hrest : ∀ u ∈ vs, (acc + 2 ^ pos v).testBit (pos u) = false := by
        intro u hu
        have hne : pos u ≠ pos v := fun he => hv (he ▸ List.mem_map_of_mem hu)
        rw [testBit_add_two_pow hacc, hclear u (List.mem_cons_of_mem v hu), decide_eq_false hne]
        rfl
      rw [if_pos hw, ih _ hnodup hrest, testBit_add_two_pow hacc]
      simp only [Bool.or_eq_true, decide_eq_true_eq, List.exists_mem_cons_iff, hw, and_true, or_assoc, eq_comm (a := m)]
    · rw [if_neg hw, ih _ hnodup fun u hu => hclear u (List.mem_cons_of_mem v hu)]
      simp [hw]

/-! ### MATCH (R226) -/

theorem mapM_eq_some {α β : Type} {k : α → Option β} {h : α → β} {l : List α} (hk : ∀ a ∈ l, k a = some (h a)) :
    l.mapM k = some (l.map h) := by
  induction l with
  | nil => rfl
  | cons a l ih =>
    rw [List.mapM_cons, hk a List.mem_cons_self, ih fun b hb => hk b (List.mem_cons_of_mem a hb)]
    rfl

/-- The operand of MATCH at a position, where it has one. -/
def operandAt (s : State) (x : Iss) (f : Form) (g : Sig) (pos : Nat) : DWord := ((s.env x).srcAt x f g pos).getD 0

/-- The mask of the active lanes whose operand is `own` (R226). -/
def matchMaskOf (s : State) (x : Iss) (f : Form) (g : Sig) (own : DWord) : Nat :=
  (s.actives x f).foldl (fun m b => if operandAt s x f g b.m.pos = own then m + 2 ^ b.m.pos else m) 0

theorem reads_srcAt (s : State) (x : Iss) (f : Form) (g : Sig) (pos : Nat) :
    (s.reads x f g).srcAt x f g pos = (s.env x).srcAt x f g pos := State.reads_slot s x f g f x.wbase pos f.a g.a

/-- Where every active lane has an operand, the value of MATCH in a lane is the mask of its operand. -/
theorem matchValue_eq {s : State} {x : Iss} {f : Form} {g : Sig}
    (hsrc : ∀ a ∈ s.actives x f, ((s.env x).srcAt x f g a.m.pos).isSome) {a : Act} (ha : a ∈ s.actives x f) :
    matchValue s f x (s.reads x f g) g (s.actives x f) a
      = some (plain (BitVec.ofNat 64 (matchMaskOf s x f g (operandAt s x f g a.m.pos)))) := by
  have hat : ∀ b ∈ s.actives x f, (s.env x).srcAt x f g b.m.pos = some (operandAt s x f g b.m.pos) := fun b hb =>
    Option.eq_some_of_isSome (hsrc b hb) |>.trans (by rw [operandAt, Option.get_eq_getD])
  have hall : (s.actives x f).mapM (fun b => ((s.env x).srcAt x f g b.m.pos).map fun v => (b.m.pos, v))
      = some ((s.actives x f).map fun b => (b.m.pos, operandAt s x f g b.m.pos)) :=
    mapM_eq_some fun b hb => by rw [hat b hb]; rfl
  simp only [matchValue, reads_srcAt, hall, hat a ha, List.foldl_map]
  rfl

/-- Results without flags raise no trap. -/
theorem fpTrap_of_no_flags {s : State} {rs : List LaneRes} (h : ∀ r ∈ rs, r.flags = 0) : s.fpTrap rs = none := by
  have hraised : ∀ r ∈ rs, r.raised = 0 := fun r hr => by
    unfold LaneRes.raised
    rw [h r hr, ite_self]
  have hhit : rs.foldl (fun (acc : Flags) r => acc ||| (r.raised &&& s.enabled r.a.m.ref)) 0 = 0 := by
    clear h
    induction rs with
    | nil => rfl
    | cons r rs ih =>
      rw [List.foldl_cons, hraised r List.mem_cons_self]
      simpa using ih fun q hq => hraised q (List.mem_cons_of_mem r hq)
  unfold State.fpTrap
  exact if_pos hhit

/-- The mask of an operand has the bit of each active lane that holds it, and no other. -/
theorem testBit_matchMaskOf {s : State} {x : Iss} {f : Form} {g : Sig} (ok : IssueOk s x) (own : DWord) (m : Nat) :
    (matchMaskOf s x f g own).testBit m = true ↔ ∃ b ∈ s.actives x f, b.m.pos = m ∧ operandAt s x f g b.m.pos = own := by
  have hnodup : ((s.actives x f).map fun b => b.m.pos).Nodup := by
    have hsub := ((actives_sublist s x f).map Member.pos).nodup ok.poss
    rwa [List.map_map] at hsub
  have hfold := testBit_foldl_two_pow (fun b : Act => b.m.pos) (fun b => operandAt s x f g b.m.pos = own) (s.actives x f) 0 m hnodup
    (fun _ _ => Nat.zero_testBit _)
  rw [Nat.zero_testBit] at hfold
  simpa only [matchMaskOf, Bool.false_eq_true, false_or] using hfold

/-- Two active lanes hold the same operand where they read the same value. -/
theorem operandAt_eq_iff {s : State} {x : Iss} {f : Form} {g : Sig} {p q : Nat} (hp : ((s.env x).srcAt x f g p).isSome)
    (hq : ((s.env x).srcAt x f g q).isSome) :
    operandAt s x f g p = operandAt s x f g q ↔ (s.env x).srcAt x f g p = (s.env x).srcAt x f g q := by
  obtain ⟨v, hv⟩ := Option.isSome_iff_exists.mp hp
  obtain ⟨w, hw⟩ := Option.isSome_iff_exists.mp hq
  simp only [operandAt, hv, hw, Option.getD_some, Option.some.injEq]

/-- The low word of a mask holds its bits below 32. -/
theorem getLsbD_lowWord {m : Nat} (hm : m < 32) (n : Nat) : ((BitVec.ofNat 64 n).extractLsb' 0 32).getLsbD m = n.testBit m := by
  rw [BitVec.getLsbD_extractLsb', BitVec.getLsbD_ofNat, Nat.zero_add, decide_eq_true hm, decide_eq_true (by omega : m < 64),
    Bool.true_and, Bool.true_and]

/-- The results of MATCH, where every active lane has an operand. -/
theorem laneResults_matchValue {s : State} {x : Iss} {f : Form} {g : Sig}
    (hsrc : ∀ a ∈ s.actives x f, ((s.env x).srcAt x f g a.m.pos).isSome) :
    s.laneResults x f g matchValue = (s.actives x f).map fun a =>
      ⟨a, valWords (g.d.width f.ty) (BitVec.ofNat 64 (matchMaskOf s x f g (operandAt s x f g a.m.pos))), 0⟩ :=
  laneResults_eq_map fun _ ha => matchValue_eq hsrc ha

/-- Settles O46: the word MATCH writes in a lane is the mask of the lane's operand, a sum of powers of 2 at the distinct positions of
the active lanes that hold it. -/
theorem matchMask : Obligations.MatchMask := by
  intro f s x hc ok hd hnwb hsrc hdst
  have hrs := laneResults_matchValue hsrc
  have hvals : s.laneValues x f (sigOf (.matchw f) f) matchValue := fun a ha => by
    rw [matchValue_eq hsrc ha]
    rfl
  have htrap : s.fpTrap (s.laneResults x f (sigOf (.matchw f) f) matchValue) = none := by
    refine fpTrap_of_no_flags fun r hr => ?_
    obtain ⟨a, _, rfl⟩ := List.mem_map.mp (hrs ▸ hr)
    rfl
  obtain ⟨t, ht, hres⟩ := exchangesBy_matchw.vectorCompletes f s x hc ok trivial hd hvals htrap
    (by rwa [hrs, List.length_map])
  refine ⟨t, ht, fun a ha reg hreg m hm => ?_⟩
  have hword := hres.written hnwb _ (hrs ▸ List.mem_map_of_mem ha) 0 reg hreg
  change _ = BitVec.extractLsb' 0 32 _ at hword
  rw [hword, getLsbD_lowWord hm, testBit_matchMaskOf ok]
  refine exists_congr fun b => and_congr_right fun hb => and_congr_right fun hpos => ?_
  rw [operandAt_eq_iff (hsrc b hb) (hsrc a ha), hpos]

end Sys2Proof.Machine
end

section
/-! SUPPORT. Integer results reduced to their elements (R53, R198). -/

namespace Sys2Proof.Machine

/-! ### Elements of a value -/

theorem elemBits_pos (ty : Ty) : 0 < elemBits ty := by
  cases ty <;> decide

theorem elemBits_mul_tyElems (ty : Ty) : elemBits ty * tyElems ty ≤ 64 := by
  cases ty <;> decide

theorem two_pow_elemBits (ty : Ty) : 2 ^ elemBits ty = 2 * 2 ^ (elemBits ty - 1) := by
  rw [← Nat.pow_succ', Nat.succ_eq_add_one, Nat.sub_add_cancel (elemBits_pos ty)]

/-- An element of a number composed of elements of `w` bits, element 0 first. -/
theorem foldr_elems_div_mod (w : Nat) (l : List Nat) (i : Nat) :
    l.foldr (fun e acc => e % 2 ^ w + 2 ^ w * acc) 0 / 2 ^ (w * i) % 2 ^ w = l.getD i 0 % 2 ^ w := by
  induction l generalizing i with
  | nil => simp
  | cons e l ih =>
    rw [List.foldr_cons]
    cases i with
    | zero => simp
    | succ i =>
      have hpos : 0 < 2 ^ w := Nat.two_pow_pos w
      rw [Nat.mul_succ, Nat.add_comm (w * i), Nat.pow_add, ← Nat.div_div_eq_div_mul, Nat.add_mul_div_left _ _ hpos,
        Nat.div_eq_of_lt (Nat.mod_lt e hpos), Nat.zero_add, ih, List.getD_cons_succ]

/-- An element of a value composed of elements that fit 64 bits. -/
theorem elem_ofElems {w i : Nat} (l : List Nat) (h : w * i + w ≤ 64) : elem w (ofElems w l) i = l.getD i 0 % 2 ^ w := by
  have hsplit : 2 ^ 64 = 2 ^ (w * i) * 2 ^ (64 - w * i) := by
    rw [← Nat.pow_add]
    congr 1
    omega
  rw [elem, ofElems, BitVec.toNat_ofNat, hsplit, Nat.mod_mul_right_div_self,
    Nat.mod_mod_of_dvd _ (Nat.pow_dvd_pow 2 (by omega)), foldr_elems_div_mod]

/-! ### Reduced results (R53) -/

/-- A number modulo 2^w, as a natural number. -/
theorem emod_toNat_cast (v : Int) (w : Nat) : ((v % (2 ^ w : Int)).toNat : Int) = v % 2 ^ w :=
  Int.toNat_of_nonneg (Int.emod_nonneg v (by positivity))

theorem reduce_lt (ty : Ty) (sat : Bool) (v : Int) : reduce ty sat v < 2 ^ elemBits ty := by
  have hpos : (0 : Int) < 2 ^ elemBits ty := by positivity
  unfold reduce
  zify
  rw [emod_toNat_cast]
  exact Int.emod_lt_of_pos _ hpos

/-- Each element of an integer operation is its reduced exact result. -/
theorem elem_intOp {ty : Ty} {i : Nat} (hi : i < tyElems ty) (sat : Bool) (g : Int → Int → Int → Int) (a b c : DWord) :
    elem (elemBits ty) (intOp ty sat g a b c) i = reduce ty sat
      (g (typed ty (elem (elemBits ty) a i)) (typed ty (elem (elemBits ty) b i)) (typed ty (elem (elemBits ty) c i))) := by
  have hfit : elemBits ty * i + elemBits ty ≤ 64 :=
    calc elemBits ty * i + elemBits ty = elemBits ty * (i + 1) := rfl
      _ ≤ elemBits ty * tyElems ty := Nat.mul_le_mul_left _ hi
      _ ≤ 64 := elemBits_mul_tyElems ty
  rw [intOp, elem_ofElems _ hfit, List.getD_eq_getElem _ _ (by simpa using hi), List.getElem_map, List.getElem_range,
    Nat.mod_eq_of_lt (reduce_lt ty sat _)]

theorem signedTy_iff (ty : Ty) : signedTy ty = true ↔ ty = .i32 ∨ ty = .i64 ∨ ty = .i8x4 ∨ ty = .i16x2 := by
  cases ty <;> decide

/-- Elements of an I type are two's complement, all others unsigned (R198). -/
theorem typed_eq (ty : Ty) {n : Nat} (hn : n < 2 ^ elemBits ty) :
    typed ty n = if ty = .i32 ∨ ty = .i64 ∨ ty = .i8x4 ∨ ty = .i16x2 then (BitVec.ofNat (elemBits ty) n).toInt else n := by
  rw [← if_congr (signedTy_iff ty) rfl rfl]
  unfold typed
  cases hs : signedTy ty with
  | false => simp
  | true =>
    have htwo := two_pow_elemBits ty
    rw [BitVec.toInt_eq_toNat_cond, BitVec.toNat_ofNat, Nat.mod_eq_of_lt hn]
    simp only [Bool.true_and, decide_eq_true_eq, if_true, Nat.cast_pow, Nat.cast_ofNat]
    split
    next hle => rw [if_neg (by omega)]
    next hlt => rw [if_pos (by omega)]

/-- A number within the range of a type is the typed value of its residue modulo 2^w. -/
theorem typed_emod {ty : Ty} {v : Int} (hmin : tyMin ty ≤ v) (hmax : v ≤ tyMax ty) : typed ty (v % (2 ^ elemBits ty : Int)).toNat = v := by
  have htwo : (2 ^ elemBits ty : Int) = 2 * 2 ^ (elemBits ty - 1) := by exact_mod_cast two_pow_elemBits ty
  have hhalf : (0 : Int) < 2 ^ (elemBits ty - 1) := by positivity
  have hcast := emod_toNat_cast v (elemBits ty)
  have hle : ∀ n : Nat, 2 ^ (elemBits ty - 1) ≤ n ↔ (2 ^ (elemBits ty - 1) : Int) ≤ n := fun n => by norm_cast
  unfold tyMin at hmin
  unfold tyMax at hmax
  unfold typed
  cases hs : signedTy ty with
  | false =>
    simp only [hs, Bool.false_eq_true, if_false, Bool.false_and] at hmin hmax ⊢
    rw [hcast, Int.emod_eq_of_lt hmin (by omega)]
  | true =>
    simp only [hs, if_true, Bool.true_and, decide_eq_true_eq, hle, hcast] at hmin hmax ⊢
    rcases Int.lt_or_le v 0 with hneg | hnonneg
    · have hmod : v % (2 ^ elemBits ty : Int) = v + 2 ^ elemBits ty := by
        rw [← Int.add_emod_right, Int.emod_eq_of_lt (by omega) (by omega)]
      rw [hmod, if_pos (by omega)]
      omega
    · have hmod : v % (2 ^ elemBits ty : Int) = v := Int.emod_eq_of_lt hnonneg (by omega)
      rw [hmod, if_neg (by omega)]

theorem tyMin_le_tyMax (ty : Ty) : tyMin ty ≤ tyMax ty := by
  cases ty <;> decide

/-- Without SAT an exact result is reduced modulo 2^w. -/
theorem reduce_modular (ty : Ty) (v : Int) : (reduce ty false v : Int) = v % 2 ^ elemBits ty := emod_toNat_cast v _

/-- Under SAT the typed value of a reduced result is the nearest value of the range. -/
theorem typed_reduce_sat (ty : Ty) (v : Int) : typed ty (reduce ty true v) = max (tyMin ty) (min (tyMax ty) v) :=
  typed_emod (le_max_left _ _) (max_le (tyMin_le_tyMax ty) (min_le_left _ _))

/-- Each of the operations of R198 is an integer operation on elements, and its exact result that of the operation. -/
theorem exactOps_intOp : ∀ e ∈ exactOps, ∀ f x i, ∃ g a b c, (e.1 f x).v = intOp f.ty f.sat g a b c
    ∧ e.2 f x i = g (typed f.ty (elem (elemBits f.ty) a i)) (typed f.ty (elem (elemBits f.ty) b i))
        (typed f.ty (elem (elemBits f.ty) c i)) := by
  intro e he f x i
  simp only [exactOps, List.mem_cons, List.not_mem_nil, or_false] at he
  rcases he with rfl | rfl | rfl | rfl | rfl | rfl
  case _ => exact ⟨fun a b _ => a + b, x.a, x.b, 0, rfl, rfl⟩
  case _ => exact ⟨fun a b _ => a - b, x.a, x.b, 0, rfl, rfl⟩
  case _ => exact ⟨fun a b _ => a * b, x.a, x.b, 0, rfl, rfl⟩
  case _ => exact ⟨fun a b c => a * b + c, x.a, x.b, x.c, rfl, rfl⟩
  case _ => exact ⟨fun a b _ => a * 2 ^ x.c.toNat + b, x.a, x.b, 0, rfl, rfl⟩
  case _ => exact ⟨fun a _ _ => (a.natAbs : Int), x.a, 0, 0, rfl, Int.abs_eq_natAbs _⟩

/-- Settles O44: each element of the six operations is the reduced exact result, and a reduction under SAT is read back as the nearest
value of the range. -/
theorem integerReduction : Obligations.IntegerReduction := by
  refine ⟨fun ty n hn => typed_eq ty hn, fun e he f x i hi => ?_⟩
  obtain ⟨g, a, b, c, hval, hexact⟩ := exactOps_intOp e he f x i
  rw [hval, hexact, elem_intOp hi]
  refine ⟨fun hsat => ?_, fun hsat => ?_⟩
  · rw [hsat, reduce_modular]
  · rw [hsat, typed_reduce_sat]

end Sys2Proof.Machine
end

section
/-! SUPPORT. Atomics, reductions, SWARM and texture reads issue one access for each active lane (R240 to R252, R265). -/

namespace Sys2Proof.Machine

/-! ### Atomics, reductions and SWARM (R240 to R244, R265) -/

/-- A checked access of a lane that is no helper gives no value at once (R232). -/
theorem Chk.ask_own_ne_value {words ea : Nat} {k : Nat → Ask} {c : Chk} {ws : List Word} (hk : ∀ p, k p ≠ .value ws) :
    c.ask false words ea k ≠ .value ws := fun h => by
  cases (Chk.ask_value hk h).1

/-- An atomic gives at once no other values than the zeros of a helper lane, one for each word of its size (R85, R244). -/
theorem swapAsk_value {place : State → Form → Iss → Act → Args → Nat × Chk} {kind : Form → Args → AccessKind} {s : State} {f : Form}
    {x : Iss} {a : Act} {args : Args} {ws : List Word} (h : swapAsk place kind s f x a args = .value ws) :
    ws = List.replicate (atomSize f / 4) 0 := by
  unfold swapAsk at h
  split at h
  · exact (Ask.value.inj h).symm
  · exact absurd h (Chk.ask_own_ne_value fun _ => nofun)

/-- The words of an atomic's size are those of a destination of its type. -/
theorem atomSize_div_four (f : Form) : atomSize f / 4 = Operand.vec.width f.ty := by
  rw [vec_width, atomSize]
  split <;> rfl

/-- A reduction gives no value at once (R85). -/
theorem reduceAsk_ne_value {place : State → Form → Iss → Act → Args → Nat × Chk} {val : Args → DWord} {s : State} {f : Form} {x : Iss}
    {a : Act} {args : Args} {ws : List Word} : reduceAsk place val s f x a args ≠ .value ws :=
  storing_ne_value fun _ => nofun

/-- SWARM gives at once no other value than the 0 of a helper lane (R85, R265). -/
theorem swarmAsk_value {s : State} {f : Form} {x : Iss} {a : Act} {args : Args} {ws : List Word}
    (h : swarmAsk s f x a args = .value ws) : ws = [0] := by
  unfold swarmAsk at h
  split at h
  · exact (Ask.value.inj h).symm
  · exact absurd h (Chk.ask_own_ne_value fun _ => nofun)

/-- An instruction of the type's destination that `exec` runs as `memStep` on the requests of an atomic. -/
theorem swap_memCompletes {mk : Form → Instr} {ask : Form → Iss → Act → Args → State → Ask}
    {place : State → Form → Iss → Act → Args → Nat × Chk} {kind : Form → Args → AccessKind}
    (hexec : ∀ f s, exec (mk f) s = memStep (mk f) f (strong f) (strong f) (ask f) s)
    (hask : ∀ s f x a args, ask f x a args s = swapAsk place kind s f x a args) (hdest : ∀ f, (sigOf (mk f) f).d = Operand.vec) :
    MemCompletes mk strong strong noPremise (swapAsk place kind) := by
  refine memCompletes_of_memStep hexec hask (fun s f x a args ws h => ?_) fun f => ?_
  · rw [swapAsk_value h, List.length_replicate, atomSize_div_four, hdest]
  · rw [hdest]
    exact vec_width_le f.ty

/-- An instruction without a destination that `exec` runs as `memStep` on the requests of a reduction. -/
theorem reduce_memCompletes {mk : Form → Instr} {ask : Form → Iss → Act → Args → State → Ask}
    {place : State → Form → Iss → Act → Args → Nat × Chk} {val : Args → DWord}
    (hexec : ∀ f s, exec (mk f) s = memStep (mk f) f false (strong f) (ask f) s)
    (hask : ∀ s f x a args, ask f x a args s = reduceAsk place val s f x a args) (hdest : ∀ f, (sigOf (mk f) f).d = Operand.absent) :
    MemCompletes mk never strong noPremise (reduceAsk place val) := by
  refine memCompletes_of_memStep hexec hask (fun s f x a args ws h => absurd h reduceAsk_ne_value) fun f => ?_
  rw [hdest]
  exact absent_width_le f.ty

theorem swarm_memCompletes : MemCompletes .swarm strong strong noPremise swarmAsk := by
  refine memCompletes_of_memStep (fun _ _ => rfl) (fun _ _ _ _ _ => rfl) (fun s f x a args ws h => ?_) fun f => ?_
  · rw [swarmAsk_value h]
    exact Nat.le_refl 1
  · change 1 ≤ 8
    decide

theorem atomicsComplete : AtomicsComplete :=
  ⟨swap_memCompletes (fun _ _ => rfl) (fun _ _ _ _ _ => rfl) fun _ => rfl,
    swap_memCompletes (fun _ _ => rfl) (fun _ _ _ _ _ => rfl) fun _ => rfl,
    swap_memCompletes (fun _ _ => rfl) (fun _ _ _ _ _ => rfl) fun _ => rfl,
    reduce_memCompletes (fun _ _ => rfl) (fun _ _ _ _ _ => rfl) fun _ => rfl,
    reduce_memCompletes (fun _ _ => rfl) (fun _ _ _ _ _ => rfl) fun _ => rfl,
    swarm_memCompletes⟩

/-! ### Texture reads (R249 to R252) -/

/-- The request for the texels of a texture gives no value at once: a helper lane's failing texel is read as 0 (R85). -/
theorem texelAsk_ne_value {s : State} {x : Iss} {a : Act} {t : Texture} {linear : Bool} {fx fy : Nat} {eas : List (Option Nat)}
    {ws : List Word} : texelAsk s x a t linear fx fy eas ≠ .value ws := by
  unfold texelAsk
  dsimp only
  split <;> nofun

/-- A texture read gives at once no other values than the zeros of a helper lane whose handle names no texture (R85). -/
theorem textureAsk_value {texels : Form → Texture → Word × Word → Bool × Nat × Nat × List (Option Nat)} {mk : Form → Instr} {s : State}
    {f : Form} {x : Iss} {a : Act} {args : Args} {ws : List Word} (h : textureAsk texels mk s f x a args = .value ws) :
    ws = [0, 0, 0, 0] := by
  unfold textureAsk at h
  split at h
  · split at h
    · exact (Ask.value.inj h).symm
    · cases h
  · exact absurd h texelAsk_ne_value

/-- The course of texture reads is the common one of memory instructions, on the coordinates the issue reads. -/
theorem texStepOf_eq_memStep {i : Instr} {f : Form} {s : State} {x : Iss} (hc : CanIssue i f false s x)
    (k : Iss → Act → Texture → Word → Word → State → Ask) :
    texStepOf i f k s = memStep i f false false (fun x a args u =>
      match s.texture? x.ctx (args.b.extractLsb' 0 32) with
      | none => if a.lane.helper then .value [0, 0, 0, 0] else .fault .objHandle ((args.b.extractLsb' 0 32).setWidth 52)
      | some t =>
        let c := pairWords (s.env x) f (sigOf i f) x.wbase a.m.pos
        k x a t c.1 c.2 u) s := by
  have hpair : ∀ pos, pairWords (s.reads x f (sigOf i f)) f (sigOf i f) x.wbase pos = pairWords (s.env x) f (sigOf i f) x.wbase pos :=
    fun pos => by rw [pairWords, State.reads_words, pairWords]
  simp only [texStepOf, memStep, front_canIssue hc, hpair] <;> rfl

/-- A texture read issues the accesses its active lanes ask for. -/
theorem texture_memCompletes {mk : Form → Instr} {texels : Form → Texture → Word × Word → Bool × Nat × Nat × List (Option Nat)}
    (k : Form → Iss → Act → Texture → Word → Word → State → Ask) (hexec : ∀ f s, exec (mk f) s = texStepOf (mk f) f (k f) s)
    (hk : ∀ f x a t u v s, k f x a t u v s
      = texelAsk s x a t (texels f t (u, v)).1 (texels f t (u, v)).2.1 (texels f t (u, v)).2.2.1 (texels f t (u, v)).2.2.2)
    (hdest : ∀ f, (sigOf (mk f) f).d = Operand.group 4) : MemCompletes mk never never noPremise (textureAsk texels mk) := by
  intro f s x hc ok _ hg hd
  have hlen : (dstRegs f (sigOf (mk f) f) x.wbase).length ≤ 4 := (slotRegs_length f x.wbase f.d _).trans (by rw [hdest]; exact Nat.le_refl 4)
  rw [hexec, texStepOf_eq_memStep hc]
  refine memStep_spec hc ok (fun a _ args _ => ?_) hg (fun a args ws h => ?_) hd (by omega)
  · unfold textureAsk
    cases s.texture? x.ctx (args.b.extractLsb' 0 32) with
    | none => rfl
    | some t => exact hk f x a t _ _ s
  · rw [textureAsk_value h]
    exact hlen

theorem textureReadsComplete : TextureReadsComplete :=
  ⟨texture_memCompletes _ (fun _ _ => rfl) (fun _ _ _ _ _ _ _ => rfl) fun _ => rfl,
    texture_memCompletes _ (fun _ _ => rfl) (fun _ _ _ _ _ _ _ => rfl) fun _ => rfl⟩

/-- Settles O14: no request of an atomic, a reduction or a texture read gives other values at once than the zeros of a helper lane, as
many as its destination has registers, so the common end of the memory instructions issues the accesses. -/
theorem atomicsAndTextures : Obligations.AtomicsAndTextures := ⟨atomicsComplete, textureReadsComplete⟩

end Sys2Proof.Machine
end

section
/-! SUPPORT. Barriers: what follows the arrivals of an issue, and one arrival (R253 to R257). -/

namespace Sys2Proof.Machine

/-- The lanes of an issue that wait at a barrier once their arrivals are made: those whose own phase is not over (R256). -/
def barWaiting (s : State) (f : Form) (act : List Act) (waits : Bool) : List LaneRef :=
  if waits then (act.map fun a => a.m.ref).filter fun r => !s.barrierOver (barLevel f.sc) (f.slotImm f.a).toNat r else []

/-- The state in which the lanes of an issue wait at a barrier or have moved on, in one group still. -/
def State.barMoved (s : State) (x : Iss) (f : Form) (rs : List LaneRef) : State :=
  ((s.setHold x.g none).moveLanes ((x.members.map Member.ref).filter fun r => !rs.contains r) (nextPc f x.pc)).updLanes rs fun l =>
    { l with st := .waiting (.barrier (barLevel f.sc) (f.slotImm f.a).toNat), npc := nextPc f x.pc }

/-- The state that a barrier instruction leaves after its arrivals `s`. -/
def State.barEnd (s : State) (x : Iss) (f : Form) (rs : List LaneRef) : State :=
  if rs = [] then s.barMoved x f rs else (s.barMoved x f rs).regroup x.g ⟨.none, 0⟩

theorem mem_barWaiting {s : State} {f : Form} {act : List Act} {waits : Bool} {a : Act} (ha : a ∈ act) :
    a.m.ref ∈ barWaiting s f act waits ↔ waits = true ∧ s.barrierOver (barLevel f.sc) (f.slotImm f.a).toNat a.m.ref = false := by
  cases waits with
  | false => simp [barWaiting]
  | true =>
    simp only [barWaiting, if_true, List.mem_filter, Bool.not_eq_true', true_and]
    exact and_iff_right (List.mem_map_of_mem (f := fun a : Act => a.m.ref) ha)

theorem barWaiting_subset {s : State} {f : Form} {act : List Act} {waits : Bool} {r : LaneRef} (h : r ∈ barWaiting s f act waits) :
    r ∈ act.map fun a => a.m.ref := by
  cases waits with
  | false => cases h
  | true => exact (List.mem_filter.mp h).1

/-- A barrier instruction whose arrivals do not fault is its arrivals and then the end of the issue. -/
theorem barrierIssue_eq {s : State} {x : Iss} {f : Form} {arrive : Bool} (waits : Bool)
    (h : arrive = true → (s.arriveAll x (barLevel f.sc) (f.slotImm f.a).toNat (s.actives x f)).2 = []) :
    s.barrierIssue x f (s.actives x f) arrive waits
      = (arrivals s x f arrive).barEnd x f (barWaiting (arrivals s x f arrive) f (s.actives x f) waits) := by
  have hstate : (if arrive then s.arriveAll x (barLevel f.sc) (f.slotImm f.a).toNat (s.actives x f) else (s, [])).1
      = arrivals s x f arrive := by
    cases arrive <;> rfl
  have hfaults : (if arrive then s.arriveAll x (barLevel f.sc) (f.slotImm f.a).toNat (s.actives x f) else (s, [])).2 = [] := by
    cases arrive with
    | false => rfl
    | true => exact h rfl
  unfold State.barrierIssue
  simp only [hstate, hfaults, List.any_nil, Bool.not_false, Bool.or_false, State.raise_nil, List.filter_true]
  rfl

theorem barMoved_lane? (s : State) (x : Iss) (f : Form) (rs : List LaneRef) (r : LaneRef) :
    (s.barMoved x f rs).lane? r
      = if r ∈ rs then
          (s.lane? r).map fun l => { l with st := .waiting (.barrier (barLevel f.sc) (f.slotImm f.a).toNat), npc := nextPc f x.pc }
        else if r ∈ x.members.map Member.ref then (s.lane? r).map fun l => { l with pc := nextPc f x.pc }
        else s.lane? r := by
  rw [State.barMoved, State.lane?_updLanes, State.moveLanes_lane?, State.setHold_lane?]
  · by_cases hr : r ∈ rs
    · simp [hr]
    · simp [hr]
  · exact fun _ => rfl

theorem barEnd_lane? (s : State) (x : Iss) (f : Form) (rs : List LaneRef) (r : LaneRef) :
    (s.barEnd x f rs).lane? r = (s.barMoved x f rs).lane? r := by
  unfold State.barEnd
  split
  · rfl
  · exact State.regroup_lane? _ _ _ r

theorem barEnd_groupsOnly (s : State) (x : Iss) (f : Form) (rs : List LaneRef) : GroupsOnly s (s.barEnd x f rs) := by
  have hmoved : GroupsOnly s (s.barMoved x f rs) :=
    (Regroups.updGroup x s x.g _).groupsOnly.trans <| (GroupsOnly.updLanes _ _ _).trans (GroupsOnly.updLanes _ _ _)
  unfold State.barEnd
  split
  · exact hmoved
  · exact hmoved.trans (State.regroup_spec x _ _ _).groupsOnly

/-- The barrier instructions, by the one course they share. -/
theorem barStep_completes {mk : Form → Instr} {arrive waits : Bool}
    (hexec : ∀ f s, exec (mk f) s = barStep (mk f) f arrive waits s) : BarCompletes mk arrive waits := by
  intro f s x hc ok harrive
  have hwait : ∀ a ∈ s.actives x f, a.m.ref ∈ barWaiting (arrivals s x f arrive) f (s.actives x f) waits ↔ _ :=
    fun a ha => mem_barWaiting ha
  refine ⟨(arrivals s x f arrive).barEnd x f (barWaiting (arrivals s x f arrive) f (s.actives x f) waits), ?_, fun a ha => ?_,
    fun m hm hidle => ?_, fun r hr => ?_, barEnd_groupsOnly _ x f _⟩
  · have hquiet : (arrive && !(s.actives x f).all fun a => s.quiet a.m.ref false) = false := by
      cases arrive with
      | false => rfl
      | true => simpa using (harrive rfl).1
    rw [hexec, barStep, front_canIssue hc]
    simp only [hquiet, Bool.false_eq_true, if_false]
    rw [barrierIssue_eq waits fun h => (harrive h).2]
  · have hmem : a.m.ref ∈ x.members.map Member.ref := List.mem_map_of_mem (mem_actives ha).1
    rw [barEnd_lane?, barMoved_lane?, if_pos hmem]
    split
    next h =>
      refine congrArg (Option.map · _) (funext fun l => ?_)
      rw [if_pos ((hwait a ha).mp h)]
    next h =>
      refine congrArg (Option.map · _) (funext fun l => ?_)
      rw [if_neg fun k => h ((hwait a ha).mpr k)]
  · rw [barEnd_lane?, barMoved_lane?, if_neg fun h => hidle ((actives_ref_mem ok hm).mp (barWaiting_subset h)),
      if_pos (List.mem_map_of_mem hm)]
  · rw [barEnd_lane?, barMoved_lane?, if_neg, if_neg hr]
    intro h
    obtain ⟨a, ha, rfl⟩ := List.mem_map.mp (barWaiting_subset h)
    exact hr (List.mem_map_of_mem (mem_actives ha).1)

theorem arrivalCounts : ArrivalCounts := by
  intro s x sc n a g v l hg hv hl
  simp only [State.arrive, hg, hv, hl]
  rfl

/-- Settles O20: once no arrival faults, the arrivals come first, and each active lane then waits or moves on as its own phase says. -/
theorem barriers : Obligations.Barriers :=
  ⟨barStep_completes fun _ _ => rfl, barStep_completes fun _ _ => rfl, barStep_completes fun _ _ => rfl, arrivalCounts⟩

end Sys2Proof.Machine
end

section
/-! SUPPORT. Once-per-issue waits that end: their groups are held no longer, and their lanes go on (R246, R274, R306, R330). -/

namespace Sys2Proof.Machine

/-! ### One warp changed -/

/-- Lanes of one warp changed: every other warp is as before. -/
theorem warp?_updLanes_away {wg w : Nat} {rs : List LaneRef} (h : ∀ r ∈ rs, r.wg = wg ∧ r.warp = w) (k : Lane → Lane) (s : State)
    {a b : Nat} (hab : ¬(a = wg ∧ b = w)) : (s.updLanes rs k).warp? a b = s.warp? a b := by
  induction rs generalizing s with
  | nil => rfl
  | cons r rs ih =>
    obtain ⟨rfl, rfl⟩ := h r (List.mem_cons_self ..)
    exact (ih (fun q hq => h q (List.mem_cons_of_mem _ hq)) (s.updLane r k)).trans (by rw [State.warp?_updLane, if_neg hab])

/-- Lanes changed: of their warps nothing else is. -/
theorem warp?_updLanes_rest {wg w : Nat} (rs : List LaneRef) (k : Lane → Lane) {s : State} {v : Warp} (hv : s.warp? wg w = some v) :
    ∃ u, (s.updLanes rs k).warp? wg w = some u ∧ u = { v with lanes := u.lanes } := by
  have hrest := s.updLanes_warp rs k (fun v : Warp => { v with lanes := [] }) (fun _ _ => rfl) wg w
  rw [hv] at hrest
  obtain ⟨u, hu, he⟩ := Option.map_eq_some_iff.mp hrest
  exact ⟨u, hu, congrArg (fun q : Warp => { q with lanes := u.lanes }) he⟩

theorem warp?_of_lane? {s : State} {r : LaneRef} {v : Warp} (hv : s.warp? r.wg r.warp = some v) : s.lane? r = v.lanes[r.lane]? := by
  rw [State.lane?, hv, Option.bind_some]

theorem Lane.moveTo_moveTo (pc : Word) (l : Lane) : (l.moveTo pc).moveTo pc = l.moveTo pc := by
  unfold Lane.moveTo
  cases l.halted <;> rfl

/-! ### A hold that ends (R306) -/

/-- The lanes of a group of a home warp. -/
def Group.refs (wg w : Nat) (q : Group) : List LaneRef := q.lanes.map fun p => ⟨wg, w, p⟩

theorem mem_groupRefs {wg w p : Nat} {q : Group} : (⟨wg, w, p⟩ : LaneRef) ∈ q.refs wg w ↔ p ∈ q.lanes := by
  simp [Group.refs]

theorem groupRefs_warp {wg w : Nat} {q : Group} : ∀ r ∈ q.refs wg w, r.wg = wg ∧ r.warp = w := by
  intro r hr
  obtain ⟨p, -, rfl⟩ := List.mem_map.mp hr
  exact ⟨rfl, rfl⟩

theorem endHold_eq (s : State) (wg w : Nat) (q : Group) (npc : Word) : s.endHold wg w q npc []
    = ((s.setHold (.home wg w q.gid) none).updLanes (q.refs wg w) (Lane.moveTo npc)).updWarp wg w Warp.settle := by
  have hall : (q.lanes.filter fun p => !([] : List LaneFault).any fun f => f.lane = ⟨wg, w, p⟩) = q.lanes :=
    List.filter_eq_self.mpr fun _ _ => rfl
  unfold State.endHold State.updLanes Group.refs
  rw [hall, List.foldl_map]
  rfl

/-- A wait of a group of a home warp that ends without a fault. -/
theorem endHold_holdEnds {s : State} {wg w : Nat} {q : Group} {npc : Word} {v : Warp} (hv : s.warp? wg w = some v) :
    ∃ v', HoldEnds wg w q npc v v' s (s.endHold wg w q npc []) ∧ v'.uregs = v.uregs := by
  let s₁ := s.setHold (.home wg w q.gid) none
  let v₁ : Warp := { v with ring := mapIf (fun x => x.gid = q.gid) (fun x => { x with hold := none }) v.ring }
  have hv₁ : s₁.warp? wg w = some v₁ := by
    change (s.updWarp wg w _).warp? wg w = _
    rw [State.warp?_updWarp, if_pos ⟨rfl, rfl⟩, hv]
    rfl
  obtain ⟨u, hu, hrest⟩ := warp?_updLanes_rest (q.refs wg w) (Lane.moveTo npc) hv₁
  have hset := u.settle_rest
  have hlanes : ∀ p, u.settle.lanes[p]? = if p ∈ q.lanes then v.lanes[p]?.map (Lane.moveTo npc) else v.lanes[p]? := by
    intro p
    have hlane := s₁.lane?_updLanes (q.refs wg w) ⟨wg, w, p⟩ (Lane.moveTo npc) (Lane.moveTo_moveTo npc)
    rw [warp?_of_lane? hu, warp?_of_lane? hv₁] at hlane
    rw [hset]
    simpa only [mem_groupRefs] using hlane
  have hafter : (s.endHold wg w q npc []).warp? wg w = some u.settle := by
    rw [endHold_eq, State.warp?_updWarp, if_pos ⟨rfl, rfl⟩, hu]
    rfl
  refine ⟨u.settle, ⟨hv, hafter, fun p l hp hl => ?_, fun p hp => ?_, fun k hk hgid => ?_, ?_, ?_, fun a b hab => ?_⟩, ?_⟩
  · rw [hlanes, if_pos hp, hl, Option.map_some]
  · rw [hlanes, if_neg hp]
  · rw [hset, hrest] at hk
    obtain ⟨x, -, rfl⟩ := List.mem_map.mp hk
    by_cases hx : x.gid = q.gid
    · simp [hx]
    · simp [hx] at hgid
  · rw [hset, hrest]
  · obtain ⟨wgs, ctl, h⟩ := updLanes_frame (q.refs wg w) (Lane.moveTo npc) s₁
    rw [endHold_eq, h]
    exact ⟨_, _, rfl⟩
  · rw [endHold_eq, State.warp?_updWarp, if_neg hab, warp?_updLanes_away groupRefs_warp _ _ hab]
    change (s.updWarp wg w _).warp? a b = _
    rw [State.warp?_updWarp, if_neg hab]
  · rw [hset, hrest]

/-! ### SLEEP_EXPIRY (R330) -/

theorem sleepExpires : SleepExpires := by
  intro s wg w gid g v q u n hw hg hv hq hhold hres hfree hnpc _
  have hready : (q.lanes.all fun p => (v.lanes[p]?).any fun l => !l.halted) = true := by
    refine List.all_eq_true.mpr fun p hp => ?_
    obtain ⟨l, hl, hrun⟩ := hfree p hp
    simp [hl, hrun]
  have hexec : exec (.sleepExpiry wg w gid) s = .next (if s.clock < n then s else s.endHold wg w q u []) := by
    change execSleepExpiry wg w gid s = _
    simp only [execSleepExpiry, if_neg (Nat.not_le.mpr hw), hg, hv, hq, hhold, hready, hres, hnpc, Bool.not_true, Bool.or_false,
      decide_eq_true_eq, Option.getD_some]
  refine ⟨fun hearly => by rw [hexec, if_pos hearly], fun hdue => ?_⟩
  obtain ⟨v', hends, huregs⟩ := endHold_holdEnds (q := q) (npc := u) hv
  exact ⟨_, v', by rw [hexec, if_neg (Nat.not_lt.mpr hdue)], hends, huregs⟩

/-! ### COMPLETION_REGISTER_WRITE (R274) -/

/-- A wait that ends once its uniform register has been written has ended. -/
theorem holdEnds_of_setUreg {wg w n : Nat} {x npc : Word} {q : Group} {v v' : Warp} {s t : State} (hv : s.warp? wg w = some v)
    (h : HoldEnds wg w q npc (v.setUreg n x) v' (s.updWarp wg w fun v => v.setUreg n x) t) : HoldEnds wg w q npc v v' s t where
  before := hv
  after := h.after
  lanes := h.lanes
  others := h.others
  free := h.free
  warp := h.warp
  rest := h.rest
  away a b hab := (h.away a b hab).trans (by rw [State.warp?_updWarp, if_neg hab])

theorem registerWriteCompletes : RegisterWriteCompletes := by
  intro s wg w gid g v q n x npc hg hv hq hhold hruns _ _
  have hexec : exec (.completionRegisterWrite wg w gid) s = .next (if cregCount (v.ureg n) = 0 then
      (s.updWarp wg w fun v => v.setUreg n x).endHold wg w q npc [] else s) := by
    change execCompletionRegisterWrite wg w gid s = _
    simp only [execCompletionRegisterWrite, hg, hv, hq, hhold, hruns, Option.bind_some, Option.map_some, Bool.true_and, List.all_cons,
      List.all_nil, Bool.and_true, decide_eq_true_eq, List.foldl_cons, List.foldl_nil]
    split <;> rfl
  refine ⟨fun hcount => by rw [hexec, if_neg hcount], fun hcount => ?_⟩
  have hset : (s.updWarp wg w fun v => v.setUreg n x).warp? wg w = some (v.setUreg n x) := by
    rw [State.warp?_updWarp, if_pos ⟨rfl, rfl⟩, hv, Option.map_some]
  obtain ⟨v', hends, huregs⟩ := endHold_holdEnds (q := q) (npc := npc) hset
  exact ⟨_, v', by rw [hexec, if_pos hcount], holdEnds_of_setUreg hv hends, huregs⟩

/-! ### SYNC_EXTWAIT (R246) -/

theorem extwaitRaises : ExtwaitRaises := by
  intro s r l g c ea n signed cmp val since dst hl hst hg hc hres hhalt hlimit
  have hheld : s.held ⟨r, 0⟩ = false := by simp [State.held, hl, hhalt]
  have hkeep : s.keepRegs r = s.giveBack r dst.kept := by
    simp only [State.keepRegs, hl, Option.map_some, hst]
    rfl
  have hfault : s.waitFault r .syncExtwait 0
      = ((s.giveBack r dst.kept).updLane r fun l => { l with st := .issuing }).raise [⟨r, .syncExtwait, 0⟩] := by
    rw [← hkeep]
    rfl
  change execSyncExtwait r s = _
  simp only [execSyncExtwait, hl, Option.map_some, hst, hg, hc, Option.getD_some, hres, hheld, hfault]
  refine congrArg Host.Outcome.next (if_congr ?_ rfl rfl)
  simp [hlimit]

end Sys2Proof.Machine
end

section
/-! SUPPORT. The lanes of a group in WAITW read again: those whose tests hold take their values and go on together (R139, R146, R245,
R491). -/

namespace Sys2Proof.Machine

/-! ### The map of a warp -/

/-- The map of a home warp. -/
def State.mapOf (s : State) (wg w : Nat) : List Row := ((s.warp? wg w).map Warp.rows).getD []

theorem laneRows_home {s : State} {r : LaneRef} {l : Lane} (hl : s.lane? r = some l) (hhome : l.reformed = none) :
    s.laneRows r = s.mapOf r.wg r.warp := by
  simp only [State.laneRows, hl, Option.bind_some, hhome, State.mapOf]

theorem setLaneRows_home {s : State} {r : LaneRef} {l : Lane} (hl : s.lane? r = some l) (hhome : l.reformed = none) (rows : List Row) :
    s.setLaneRows r rows = s.updWarp r.wg r.warp fun v => { v with rows := rows } := by
  simp only [State.setLaneRows, hl, Option.bind_some, hhome]

/-- A destination whose registers are mapped and await nothing; under NWB it names none (R139, R146). -/
def DestIdle (rows : List Row) (dst : Dest) : Prop :=
  dst.pos < 32 ∧ dst.regs.Nodup ∧ (dst.nwb = true ∨ ∀ reg ∈ dst.regs, ∃ row, findRow rows reg = some row ∧ row.await = [])

/-- The rows of two maps are the same and await the same results. -/
def SameRows (rows rows' : List Row) : Prop :=
  ∀ reg, (findRow rows' reg).map (fun r => (r.id, r.await)) = (findRow rows reg).map fun r => (r.id, r.await)

theorem DestIdle.of_sameRows {rows rows' : List Row} {dst : Dest} (h : DestIdle rows dst) (hs : SameRows rows rows') :
    DestIdle rows' dst := by
  obtain ⟨hpos, hnd, hidle⟩ := h
  refine ⟨hpos, hnd, hidle.imp_right fun hidle reg hreg => ?_⟩
  obtain ⟨row, hrow, hawait⟩ := hidle reg hreg
  have hsame := hs reg
  rw [hrow, Option.map_some] at hsame
  obtain ⟨row', hrow', he⟩ := Option.map_eq_some_iff.mp hsame
  exact ⟨row', hrow', (congrArg Prod.snd he).trans hawait⟩

/-- A lane reads the map of its home warp. -/
def HomeLane (s : State) (wg w : Nat) (r : LaneRef) : Prop := r.wg = wg ∧ r.warp = w ∧ ∃ l, s.lane? r = some l ∧ l.reformed = none

/-- Results have been written in the map of a home warp at some positions: its rows are the same, and the rest of the map and of the
state is as before. -/
structure MapWritten (wg w : Nat) (ps : List Nat) (s t : State) : Prop where
  lanes : ∀ r, t.lane? r = s.lane? r
  ok    : RowsOk (t.mapOf wg w)
  rows  : SameRows (s.mapOf wg w) (t.mapOf wg w)
  kept  : ∀ reg pos, pos ∉ ps → rowRead (t.mapOf wg w) reg pos = rowRead (s.mapOf wg w) reg pos
  rest  : ∃ wgs ctl, t = { s with wgs := wgs, ctl := ctl }

theorem MapWritten.refl {wg w : Nat} {s : State} (h : RowsOk (s.mapOf wg w)) (ps : List Nat) : MapWritten wg w ps s s :=
  ⟨fun _ => rfl, h, fun _ => rfl, fun _ _ _ => rfl, _, _, rfl⟩

theorem MapWritten.trans {wg w : Nat} {ps qs : List Nat} {s t u : State} (h : MapWritten wg w ps s t) (k : MapWritten wg w qs t u) :
    MapWritten wg w (ps ++ qs) s u where
  lanes r := (k.lanes r).trans (h.lanes r)
  ok := k.ok
  rows reg := (k.rows reg).trans (h.rows reg)
  kept reg pos hpos := by
    rw [List.mem_append, not_or] at hpos
    exact (k.kept reg pos hpos.2).trans (h.kept reg pos hpos.1)
  rest := by
    obtain ⟨_, _, rfl⟩ := h.rest
    obtain ⟨_, _, rfl⟩ := k.rest
    exact ⟨_, _, rfl⟩

theorem MapWritten.homeLane {wg w : Nat} {ps : List Nat} {s t : State} (h : MapWritten wg w ps s t) {r : LaneRef}
    (hr : HomeLane s wg w r) : HomeLane t wg w r := by
  obtain ⟨hwg, hw, l, hl, hhome⟩ := hr
  exact ⟨hwg, hw, l, (h.lanes r).trans hl, hhome⟩

/-! ### Results that land (R139, R146) -/

/-- Registers that are mapped and await nothing are ready as they stand. -/
theorem prepRegs_mapped {lim : MapLimit} {covers : Bool} {rows : List Row} {regs : List Nat}
    (h : ∀ reg ∈ regs, ∃ row, findRow rows reg = some row ∧ row.await = []) :
    ∃ ids, prepRegs lim covers rows regs = some (.inr (rows, ids)) := by
  induction regs with
  | nil => exact ⟨[], rfl⟩
  | cons reg rest ih =>
    obtain ⟨row, hrow, hawait⟩ := h reg (List.mem_cons_self ..)
    obtain ⟨ids, hids⟩ := ih fun q hq => h q (List.mem_cons_of_mem _ hq)
    have hready : prepReg lim rows covers reg = .ready rows row.id := by simp only [prepReg, hrow, hawait, if_true]
    exact ⟨row.id :: ids, by simp only [prepRegs, hready, hids]⟩

/-- The words of a wait's result stand in its registers. -/
def ResultStands (rows : List Row) (words : List Word) (dst : Dest) : Prop :=
  dst.nwb = false → ∀ k reg : Nat, dst.regs[k]? = some reg → k < words.length → rowRead rows reg dst.pos = words.getD k 0

theorem landWords_idle {s : State} {wg w : Nat} {r : LaneRef} {words : List Word} {dst : Dest} (hr : HomeLane s wg w r)
    (hok : RowsOk (s.mapOf wg w)) (hd : DestIdle (s.mapOf wg w) dst) :
    ∃ t, s.landWords r words none dst = .over t ∧ MapWritten wg w [dst.pos] s t ∧ ResultStands (t.mapOf wg w) words dst := by
  obtain ⟨rfl, rfl, l, hl, hhome⟩ := hr
  obtain ⟨hpos, hnd, hidle⟩ := hd
  cases hnwb : dst.nwb with
  | true =>
    refine ⟨s, ?_, .refl hok _, fun h => absurd h (by simp [hnwb])⟩
    cases hp : dst.pred <;> simp [State.landWords, hnwb, hp]
  | false =>
    have hmapped := hidle.resolve_left (by simp [hnwb])
    have htake : ∀ reg ∈ dst.regs.take words.length, ∃ row, findRow (s.mapOf r.wg r.warp) reg = some row ∧ row.await = [] :=
      fun reg hreg => hmapped reg (List.mem_of_mem_take hreg)
    obtain ⟨ids, hids⟩ := prepRegs_mapped (lim := s.laneLimit r) (covers := false) htake
    have hprep := prepRegs_spec hok (fun reg hreg => by
      obtain ⟨row, hrow, hawait⟩ := htake reg hreg
      simp [rowBusy, hrow, hawait]) hids
    obtain ⟨hat, hother⟩ := rowRead_writeResults hok (hnd.sublist (List.take_sublist _ _)) hprep.len hprep.row [(dst.pos, words)]
      (by simpa using hpos) (by simp) (by simp)
    have hmap : (s.updWarp r.wg r.warp fun v =>
        { v with rows := writeResults (s.mapOf r.wg r.warp) ids [(dst.pos, words)] }).mapOf r.wg r.warp
        = writeResults (s.mapOf r.wg r.warp) ids [(dst.pos, words)] := by
      obtain ⟨v, hv, -⟩ := Option.bind_eq_some_iff.mp (show (s.warp? r.wg r.warp).bind (fun v => v.lanes[r.lane]?) = some l from hl)
      simp only [State.mapOf, State.warp?_updWarp, and_self, if_true, hv, Option.map_some, Option.getD_some]
    refine ⟨s.updWarp r.wg r.warp fun v => { v with rows := writeResults (s.mapOf r.wg r.warp) ids [(dst.pos, words)] }, ?_,
      ⟨fun q => s.lane?_updWarp _ _ _ q fun _ => rfl, ?_, fun reg => ?_, fun reg pos hne => ?_, _, _, rfl⟩, fun _ k reg hk hlt => ?_⟩
    · simp only [State.landWords, hnwb, Bool.false_eq_true, if_false, laneRows_home hl hhome, hids, setLaneRows_home hl hhome]
      cases dst.pred <;> rfl
    · rw [hmap]
      exact hok.writeResults _ _
    · rw [hmap]
      exact findRow_writeResults _ _ _ reg
    · rw [hmap]
      exact hother reg pos (.inr (by simpa using hne))
    · rw [hmap]
      exact hat _ (List.mem_singleton_self _) k reg (by rw [List.getElem?_take, if_pos hlt, hk])

/-- An end of a wait of a lane of a home warp, whose result finds its registers idle. -/
structure EndIdle (s : State) (wg w : Nat) (e : WaitEnd) : Prop where
  lane : HomeLane s wg w e.who.ref
  pred : e.pred = none
  dest : DestIdle (s.mapOf wg w) e.dst

/-- Results of lanes at positions of their own are all written. -/
theorem landAll_idle {wg w : Nat} {es : List WaitEnd} {s : State} (hok : RowsOk (s.mapOf wg w)) (hes : ∀ e ∈ es, EndIdle s wg w e)
    (hnd : (es.map fun e => e.dst.pos).Nodup) :
    ∃ t, State.landAll es s = (t, es.map fun e => e.who.ref, []) ∧ MapWritten wg w (es.map fun e => e.dst.pos) s t
      ∧ ∀ e ∈ es, ResultStands (t.mapOf wg w) e.words e.dst := by
  induction es generalizing s with
  | nil => exact ⟨s, rfl, .refl hok _, fun _ h => by cases h⟩
  | cons e es ih =>
    simp only [List.map_cons, List.nodup_cons] at hnd
    obtain ⟨hlane, hpred, hdest⟩ := hes e (List.mem_cons_self ..)
    obtain ⟨t, hland, hwritten, hstands⟩ := landWords_idle (words := e.words) hlane hok hdest
    obtain ⟨u, hall, hrest, hothers⟩ := ih hwritten.ok (fun q hq => by
      obtain ⟨hlane, hpred, hdest⟩ := hes q (List.mem_cons_of_mem _ hq)
      exact ⟨hwritten.homeLane hlane, hpred, hdest.of_sameRows hwritten.rows⟩) hnd.2
    refine ⟨u, by simp only [State.landAll, hpred, hland, hall, List.map_cons], hwritten.trans hrest, fun q hq => ?_⟩
    rcases List.mem_cons.mp hq with rfl | hq
    · exact fun hnwb k reg hk hlt => (hrest.kept reg _ hnd.1).trans (hstands hnwb k reg hk hlt)
    · exact hothers q hq

/-! ### Lanes that leave a wait together (R491) -/

theorem foldl_mapNth_getElem? {α : Type} (k : α → α) (hk : ∀ x, k (k x) = k x) (ns : List Nat) (l : List α) (i : Nat) :
    (ns.foldl (fun l n => mapNth l n k) l)[i]? = if i ∈ ns then l[i]?.map k else l[i]? := by
  induction ns generalizing l with
  | nil => simp
  | cons n ns ih =>
    rw [List.foldl_cons, ih, mapNth_getElem?]
    by_cases hn : i = n
    · subst hn
      by_cases hm : i ∈ ns <;> cases l[i]? <;> simp [hm, hk]
    · by_cases hm : i ∈ ns <;> simp [hn, hm]

/-- A settled warp differs in its ring and its current group only. -/
theorem settle_issue (v : Warp) : v.settle = { v with ring := v.settle.ring, current := v.settle.current } := by
  have hring := congrArg Warp.ring v.settle_rest
  rw [hring]
  exact v.settle_rest

/-- A release changes one warp: its lanes are ISSUING, and of the rest only the ring and the current group change. -/
theorem release_eq (s : State) (wg w : Nat) {ps : List Nat} (hps : ps ≠ []) : ∃ k : Warp → Warp,
    (∀ v, k v = { v with
      lanes := ps.foldl (fun ls p => mapNth ls p fun l => { l with st := .issuing }) v.lanes, ring := (k v).ring, current := (k v).current })
      ∧ s.release wg w ps = { s.updWarp wg w k with seq := s.seq + 34 } :=
  ⟨_, fun _ => settle_issue _, if_neg hps⟩

theorem release_lane? (s : State) (wg w : Nat) {ps : List Nat} (hps : ps ≠ []) (q : LaneRef) : (s.release wg w ps).lane? q
    = if q.wg = wg ∧ q.warp = w ∧ q.lane ∈ ps then (s.lane? q).map fun l => { l with st := .issuing } else s.lane? q := by
  obtain ⟨k, hk, heq⟩ := release_eq s wg w hps
  rw [heq]
  change ((s.updWarp wg w k).warp? q.wg q.warp).bind _ = _
  rw [State.warp?_updWarp]
  by_cases hin : q.wg = wg ∧ q.warp = w
  · rw [if_pos hin]
    obtain ⟨rfl, rfl⟩ := hin
    simp only [State.lane?, true_and]
    cases s.warp? q.wg q.warp with
    | none => simp
    | some v =>
      rw [Option.map_some, Option.bind_some, Option.bind_some, hk]
      exact foldl_mapNth_getElem? (fun l : Lane => { l with st := .issuing }) (fun _ => rfl) ps v.lanes q.lane
  · rw [if_neg hin, if_neg fun h => hin ⟨h.1, h.2.1⟩]
    rfl

theorem release_mapOf (s : State) (wg w : Nat) {ps : List Nat} (hps : ps ≠ []) (a b : Nat) :
    (s.release wg w ps).mapOf a b = s.mapOf a b := by
  obtain ⟨k, hk, heq⟩ := release_eq s wg w hps
  rw [heq]
  change (((s.updWarp wg w k).warp? a b).map Warp.rows).getD [] = _
  rw [State.warp?_updWarp, State.mapOf]
  split
  · rw [Option.map_map]
    exact congrArg (fun q => (Option.map q (s.warp? a b)).getD []) (funext fun v => by rw [Function.comp, hk])
  · rfl

/-- A lane that goes on from its wait. -/
def Lane.goOn (l : Lane) : Lane := { l with pc := l.npc, st := .issuing }

theorem eraseDups_const {α : Type} [BEq α] [LawfulBEq α] {a : α} {l : List α} (h : ∀ b ∈ l, b = a) (hne : l ≠ []) : l.eraseDups = [a] := by
  cases l with
  | nil => exact absurd rfl hne
  | cons b l =>
    obtain rfl := h b (List.mem_cons_self ..)
    rw [List.eraseDups_cons, List.filter_eq_nil_iff.mpr]
    · rfl
    · simpa using fun c hc => h c (List.mem_cons_of_mem _ hc)

/-- The lanes of one home warp that wake are released there. -/
theorem wake_home {s : State} {wg w : Nat} {rs : List LaneRef} (hrs : ∀ r ∈ rs, HomeLane s wg w r) :
    s.wake rs = if rs = [] then s else (s.updLanes rs Lane.goOn).release wg w (rs.map LaneRef.lane) := by
  have hlanes : ∀ r ∈ rs, (((s.updLanes rs Lane.goOn).lane? r).bind Lane.reformed).isNone = true := by
    intro r hr
    obtain ⟨-, -, l, hl, hhome⟩ := hrs r hr
    rw [State.lane?_updLanes, if_pos hr, hl]
    · exact congrArg Option.isNone hhome
    · exact fun _ => rfl
  have hhome : (rs.filter fun r => (((s.updLanes rs Lane.goOn).lane? r).bind Lane.reformed).isNone) = rs :=
    List.filter_eq_self.mpr hlanes
  have haway : (rs.filter fun r => !rs.contains r) = [] := List.filter_eq_nil_iff.mpr fun r hr => by simp [hr]
  have hmine : (rs.filter fun r => r.wg = wg && r.warp = w) = rs :=
    List.filter_eq_self.mpr fun r hr => by
      obtain ⟨hwg, hw, -⟩ := hrs r hr
      simp [hwg, hw]
  by_cases hne : rs = []
  · subst hne
    rfl
  have hdups : (rs.map fun r => (r.wg, r.warp)).eraseDups = [(wg, w)] := by
    refine eraseDups_const (a := (wg, w)) (fun b hb => ?_) fun h => hne (List.map_eq_nil_iff.mp h)
    obtain ⟨r, hr, rfl⟩ := List.mem_map.mp hb
    obtain ⟨hwg, hw, -⟩ := hrs r hr
    rw [hwg, hw]
  rw [if_neg hne]
  unfold State.wake
  simp only [show (rs.foldl (fun s r => s.updLane r fun l => { l with pc := l.npc, st := .issuing }) s) = s.updLanes rs Lane.goOn from rfl,
    hhome, haway, hdups, if_true, List.foldl_cons, List.foldl_nil, hmine]

/-! ### The lanes of an issue group -/

theorem mem_groupMates (s : State) (r : LaneRef) : r ∈ s.groupMates r := by
  unfold State.groupMates
  split
  · split
    · exact List.mem_singleton_self r
    · rename_i q _ _
      dsimp only
      cases h : List.find? _ _ with
      | none => exact List.mem_singleton_self r
      | some l => simpa using List.find?_some h
  · rename_i v _ _
    cases h : v.ring.find? fun q => q.lanes.contains r.lane with
    | none => exact List.mem_singleton_self r
    | some q => exact List.mem_map.mpr ⟨r.lane, by simpa using List.find?_some h, rfl⟩
  · exact List.mem_singleton_self r

/-- The lanes of an issue group of a home warp are lanes of that warp. -/
theorem groupMates_home {s : State} {r : LaneRef} (h : (s.lane? r).bind Lane.reformed = none) :
    ∀ q ∈ s.groupMates r, q.wg = r.wg ∧ q.warp = r.warp := by
  intro q hq
  unfold State.groupMates at hq
  rw [h] at hq
  split at hq
  · contradiction
  · rename_i v _ _
    cases hf : v.ring.find? fun q => q.lanes.contains r.lane with
    | none =>
      rw [hf] at hq
      obtain rfl := List.mem_singleton.mp hq
      exact ⟨rfl, rfl⟩
    | some x =>
      rw [hf] at hq
      obtain ⟨p, -, rfl⟩ := List.mem_map.mp hq
      exact ⟨rfl, rfl⟩
  · obtain rfl := List.mem_singleton.mp hq
    exact ⟨rfl, rfl⟩

end Sys2Proof.Machine
end

section
/-! SUPPORT. WAITW_REREAD and the waits that end (R245, R246, R274, R330, R491). -/

namespace Sys2Proof.Machine

/-! ### WAITW_REREAD (R245) -/

/-- How the WAITW of a lane ends, where its test holds now. -/
def rereadEnd (s : State) (g : Workgroup) (q : LaneRef) : Option WaitEnd :=
  (rereadNow s g q).map fun e => ⟨⟨q, 0⟩, e.1, none, e.2⟩

/-- The end that a re-read finds. -/
def Reread.end? : Reread → Option WaitEnd
  | .ends e => some e
  | _ => none

/-- The fault that a re-read finds. -/
def Reread.fault? : Reread → Option LaneFault
  | .fault f => some f
  | _ => none

/-- The lane that a re-read parks, with its address. -/
def Reread.park? : Reread → Option (LaneRef × Nat)
  | .park r ea => some (r, ea)
  | _ => none

/-- The walk that a re-read starts. -/
def Reread.walked (s : State) : Reread → State
  | .walk core ctx ea => s.startWalk core ctx ea
  | _ => s

theorem execWaitwReread_eq (r : LaneRef) (s : State) : execWaitwReread r s =
    let rs := ((s.groupMates r).flatMap s.waitsOf).map s.reread
    .next ((rs.filterMap Reread.park?).foldl State.rereadPark (((rs.foldl Reread.walked s).satisfyAll
      (rs.filterMap Reread.end? ++ (s.groupMates r).filterMap s.landedEnd)).waitFaults (rs.filterMap Reread.fault?))) := rfl

/-- A re-read that neither fails nor walks. -/
def Reread.Calm (x : Reread) : Prop := x = .stay ∨ ∃ e, x = .ends e

/-- A lane that has entered no handler waits at most once. -/
theorem waitsOf_unsaved {s : State} {q : LaneRef} {v : Warp} {l : Lane} (hv : s.warp? q.wg q.warp = some v) (hl : s.lane? q = some l)
    (hsaves : v.saves = []) : s.waitsOf q = match l.st with
      | .waiting w => [(⟨q, 0⟩, w)]
      | _ => [] := by
  have hst : v.stateAt 0 q.lane = l.st := by
    rw [warp?_of_lane? hv] at hl
    simp only [Warp.stateAt, hl, Option.map_some, Option.getD_some]
  simp only [State.waitsOf, hv, Option.map_some, Option.getD_some, Warp.waitsOf, hsaves, List.length_nil, Nat.zero_add, List.range_one,
    List.filterMap_cons, List.filterMap_nil, hst]
  cases l.st <;> rfl

/-- What the lanes of a group find when they read again: each goes on with its value or waits on. -/
theorem rereads_lane {s : State} {q : LaneRef} {g : Workgroup} {v : Warp} (hg : s.wg? q.wg = some g) (hv : s.warp? q.wg q.warp = some v)
    (hres : g.resident = true) (hsaves : v.saves = []) (h : Rereads s g v q) :
    (∀ x ∈ (s.waitsOf q).map s.reread, x.Calm) ∧ ((s.waitsOf q).map s.reread).filterMap Reread.end? = (rereadEnd s g q).toList
      ∧ s.landedEnd q = none := by
  obtain ⟨l, hl, -, hst | ⟨ea, n, signed, cmp, val, since, dst, p, hst, -, hchk⟩⟩ := h.waits
  · have hnow : rereadEnd s g q = none := by
      simp only [rereadEnd, rereadNow, hl, Option.map_some]
      split
      · rename_i hw
        exact absurd (Option.some.inj hw) (hst _)
      · rfl
    have hnone : s.waitsOf q = [] := by
      rw [waitsOf_unsaved hv hl hsaves]
      split
      · rename_i w hw
        exact absurd hw (hst w)
      · rfl
    refine ⟨by simp [hnone], by simp [hnone, hnow], ?_⟩
    simp only [State.landedEnd, hl]
    split
    · rename_i hw
      exact absurd hw (hst _)
    · rfl
  · have hwaits : s.waitsOf q = [(⟨q, 0⟩, .waitw ea n signed cmp val since dst)] := by rw [waitsOf_unsaved hv hl hsaves, hst]
    have hread : s.reread (⟨q, 0⟩, .waitw ea n signed cmp val since dst)
        = if waitwTest signed n cmp (dwordOf (Memory.le s.mem p n)) val
          then .ends ⟨⟨q, 0⟩, valWords (n / 4) (dwordOf (Memory.le s.mem p n)), none, dst⟩ else .stay := by
      simp only [State.reread, hg, hres, hchk, Bool.not_true, Bool.false_eq_true, if_false]
    have hnow : rereadEnd s g q = if waitwTest signed n cmp (dwordOf (Memory.le s.mem p n)) val
          then some ⟨⟨q, 0⟩, valWords (n / 4) (dwordOf (Memory.le s.mem p n)), none, dst⟩ else none := by
      simp only [rereadEnd, rereadNow, hl, hst, hchk, Option.map_some]
      split <;> rfl
    refine ⟨?_, ?_, by simp only [State.landedEnd, hl, hst]⟩
    · rw [hwaits, List.map_singleton, hread]
      split
      · exact List.forall_mem_singleton.mpr (.inr ⟨_, rfl⟩)
      · exact List.forall_mem_singleton.mpr (.inl rfl)
    · rw [hwaits, List.map_singleton, hread, hnow]
      split <;> rfl

/-- What the lanes of a group find when they read again. -/
theorem rereads_group {s : State} {g : Workgroup} {v : Warp} {wg w : Nat} (hg : s.wg? wg = some g) (hv : s.warp? wg w = some v)
    (hres : g.resident = true) (hsaves : v.saves = []) {qs : List LaneRef} (hqs : ∀ q ∈ qs, q.wg = wg ∧ q.warp = w)
    (h : ∀ q ∈ qs, Rereads s g v q) :
    (∀ x ∈ (qs.flatMap s.waitsOf).map s.reread, x.Calm)
      ∧ ((qs.flatMap s.waitsOf).map s.reread).filterMap Reread.end? = qs.filterMap (rereadEnd s g) ∧ qs.filterMap s.landedEnd = [] := by
  induction qs with
  | nil => exact ⟨List.forall_mem_nil _, rfl, rfl⟩
  | cons q qs ih =>
    obtain ⟨rfl, rfl⟩ := hqs q (List.mem_cons_self ..)
    obtain ⟨hcalm, hends, hland⟩ := rereads_lane hg hv hres hsaves (h q (List.mem_cons_self ..))
    obtain ⟨hcalms, hall, hlands⟩ := ih (fun p hp => hqs p (List.mem_cons_of_mem _ hp)) fun p hp => h p (List.mem_cons_of_mem _ hp)
    simp only [List.flatMap_cons, List.map_append, List.filterMap_append, hends, hall, List.filterMap_cons, hland, hlands, List.mem_append]
    refine ⟨fun x hx => hx.elim (hcalm x) (hcalms x), ?_, trivial⟩
    cases rereadEnd s g q <;> rfl

/-- A group of which no read fails or walks: those that end leave together. -/
theorem execWaitwReread_calm {s : State} {r : LaneRef} (hcalm : ∀ x ∈ ((s.groupMates r).flatMap s.waitsOf).map s.reread, x.Calm)
    (hland : (s.groupMates r).filterMap s.landedEnd = []) : execWaitwReread r s
      = .next (s.satisfyAll ((((s.groupMates r).flatMap s.waitsOf).map s.reread).filterMap Reread.end?)) := by
  rw [execWaitwReread_eq]
  generalize ((s.groupMates r).flatMap s.waitsOf).map s.reread = rs at hcalm
  have hpark : rs.filterMap Reread.park? = [] := List.filterMap_eq_nil_iff.mpr fun x hx => by
    rcases hcalm x hx with rfl | ⟨e, rfl⟩ <;> rfl
  have hfault : rs.filterMap Reread.fault? = [] := List.filterMap_eq_nil_iff.mpr fun x hx => by
    rcases hcalm x hx with rfl | ⟨e, rfl⟩ <;> rfl
  have hwalk : rs.foldl Reread.walked s = s := by
    clear hpark hfault
    induction rs with
    | nil => rfl
    | cons x rs ih =>
      have hx : Reread.walked s x = s := by rcases hcalm x (List.mem_cons_self ..) with rfl | ⟨e, rfl⟩ <;> rfl
      rw [List.foldl_cons, hx]
      exact ih fun q hq => hcalm q (List.mem_cons_of_mem _ hq)
  simp only [hpark, hfault, hwalk, hland, List.append_nil]
  rfl

/-! ### Waits that end together (R491) -/

theorem updLanes_mapOf (s : State) (rs : List LaneRef) (k : Lane → Lane) (wg w : Nat) :
    (s.updLanes rs k).mapOf wg w = s.mapOf wg w := by
  rw [State.mapOf, s.updLanes_warp rs k Warp.rows (fun _ _ => rfl), State.mapOf]

theorem mem_of_lanes {wg w : Nat} {rs : List LaneRef} (h : ∀ r ∈ rs, r.wg = wg ∧ r.warp = w) (q : LaneRef) :
    q ∈ rs ↔ q.wg = wg ∧ q.warp = w ∧ q.lane ∈ rs.map LaneRef.lane := by
  refine ⟨fun hq => ⟨(h q hq).1, (h q hq).2, List.mem_map_of_mem hq⟩, fun ⟨hwg, hw, hmem⟩ => ?_⟩
  obtain ⟨r, hr, hlane⟩ := List.mem_map.mp hmem
  obtain ⟨hrwg, hrw⟩ := h r hr
  have heq : q = ⟨r.wg, r.warp, r.lane⟩ := by rw [hrwg, hrw, hlane, ← hwg, ← hw]
  exact heq ▸ hr

/-- Lanes of one home warp that wake go on at their next PCs; of the warp only its issue groups change besides. -/
theorem wake_home_lanes {s : State} {wg w : Nat} {rs : List LaneRef} (hrs : ∀ r ∈ rs, HomeLane s wg w r) :
    (∀ q, (s.wake rs).lane? q = if q ∈ rs then (s.lane? q).map Lane.goOn else s.lane? q)
      ∧ (∀ a b, (s.wake rs).mapOf a b = s.mapOf a b) ∧ ∃ wgs ctl seq, s.wake rs = { s with wgs := wgs, ctl := ctl, seq := seq } := by
  rw [wake_home hrs]
  by_cases hne : rs = []
  · subst hne
    exact ⟨fun q => by simp, fun _ _ => rfl, _, _, _, rfl⟩
  have hps : rs.map LaneRef.lane ≠ [] := fun h => hne (List.map_eq_nil_iff.mp h)
  rw [if_neg hne]
  refine ⟨fun q => ?_, fun a b => ?_, ?_⟩
  · have hmem := mem_of_lanes (fun r hr => ⟨(hrs r hr).1, (hrs r hr).2.1⟩) q
    simp only [release_lane? _ _ _ hps, State.lane?_updLanes _ _ _ Lane.goOn fun _ => rfl, ← hmem]
    split
    · rw [Option.map_map]
      rfl
    · rfl
  · rw [release_mapOf _ _ _ hps, updLanes_mapOf]
  · obtain ⟨k, -, heq⟩ := release_eq (s.updLanes rs Lane.goOn) wg w hps
    obtain ⟨wgs, ctl, h⟩ := updLanes_frame rs Lane.goOn s
    rw [heq, h]
    exact ⟨_, _, _, rfl⟩

/-- Waits of lanes of one home warp that end together, none of them HALTED, with their registers idle. -/
theorem satisfyAll_home {s : State} {wg w : Nat} {es : List WaitEnd} (hok : RowsOk (s.mapOf wg w))
    (hes : ∀ e ∈ es, EndIdle s wg w e) (hnd : (es.map fun e => e.dst.pos).Nodup) (hheld : ∀ e ∈ es, s.held e.who = false) :
    (∀ q, (s.satisfyAll es).lane? q = if q ∈ es.map (fun e => e.who.ref) then (s.lane? q).map Lane.goOn else s.lane? q)
      ∧ (∀ e ∈ es, ResultStands ((s.satisfyAll es).mapOf wg w) e.words e.dst)
      ∧ ∃ wgs ctl seq, s.satisfyAll es = { s with wgs := wgs, ctl := ctl, seq := seq } := by
  obtain ⟨t, hland, hwritten, hstands⟩ := landAll_idle hok hes hnd
  have hnow : (es.filter fun e => !s.held e.who) = es := List.filter_eq_self.mpr fun e he => by rw [hheld e he]; rfl
  have hlater : (es.filter fun e => s.held e.who) = [] := List.filter_eq_nil_iff.mpr fun e he => by simp [hheld e he]
  have heq : s.satisfyAll es = t.wake (es.map fun e => e.who.ref) := by
    simp only [State.satisfyAll, hnow, hlater, List.foldl_nil, hland]
    rfl
  have hhome : ∀ r ∈ es.map (fun e => e.who.ref), HomeLane t wg w r := by
    intro r hr
    obtain ⟨e, he, rfl⟩ := List.mem_map.mp hr
    exact hwritten.homeLane (hes e he).lane
  obtain ⟨hlanes, hmap, hrest⟩ := wake_home_lanes hhome
  rw [heq]
  refine ⟨fun q => ?_, fun e he => ?_, ?_⟩
  · rw [hlanes, hwritten.lanes]
  · rw [hmap]
    exact hstands e he
  · obtain ⟨_, _, rfl⟩ := hwritten.rest
    exact hrest

theorem mem_rereadEnd {s : State} {g : Workgroup} {qs : List LaneRef} {e : WaitEnd} (he : e ∈ qs.filterMap (rereadEnd s g)) :
    ∃ q ws dst, q ∈ qs ∧ rereadNow s g q = some (ws, dst) ∧ e = ⟨⟨q, 0⟩, ws, none, dst⟩ := by
  obtain ⟨q, hq, h⟩ := List.mem_filterMap.mp he
  obtain ⟨⟨ws, dst⟩, hnow, rfl⟩ := Option.map_eq_some_iff.mp h
  exact ⟨q, ws, dst, hq, hnow, rfl⟩

theorem mem_rereadRefs {s : State} {g : Workgroup} {qs : List LaneRef} (q : LaneRef) :
    q ∈ (qs.filterMap (rereadEnd s g)).map (fun e => e.who.ref) ↔ q ∈ qs ∧ (rereadNow s g q).isSome = true := by
  refine ⟨fun hq => ?_, fun ⟨hq, hsome⟩ => ?_⟩
  · obtain ⟨e, he, rfl⟩ := List.mem_map.mp hq
    obtain ⟨q, ws, dst, hmem, hnow, rfl⟩ := mem_rereadEnd he
    exact ⟨hmem, by rw [hnow]; rfl⟩
  · obtain ⟨⟨ws, dst⟩, hnow⟩ := Option.isSome_iff_exists.mp hsome
    exact List.mem_map.mpr ⟨⟨⟨q, 0⟩, ws, none, dst⟩, List.mem_filterMap.mpr ⟨q, hq, by rw [rereadEnd, hnow]; rfl⟩, rfl⟩

/-- The results of the lanes of a group go to positions of their own. -/
theorem rereadEnds_nodup {s : State} {g : Workgroup} {v : Warp} {wg w : Nat} {qs : List LaneRef} (hqs : ∀ q ∈ qs, q.wg = wg ∧ q.warp = w)
    (hnd : qs.Nodup) (h : ∀ q ∈ qs, Rereads s g v q) : ((qs.filterMap (rereadEnd s g)).map fun e => e.dst.pos).Nodup := by
  have hpos : (qs.filterMap (rereadEnd s g)).map (fun e => e.dst.pos) = (qs.filterMap (rereadEnd s g)).map fun e => e.who.ref.lane := by
    refine List.map_congr_left fun e he => ?_
    obtain ⟨q, ws, dst, hq, hnow, rfl⟩ := mem_rereadEnd he
    exact ((h q hq).place ws dst hnow).1
  have hsub : ((qs.filterMap (rereadEnd s g)).map fun e => e.who.ref.lane).Sublist (qs.map LaneRef.lane) := by
    clear hnd hqs h hpos
    induction qs with
    | nil => exact List.Sublist.refl _
    | cons q qs ih =>
      cases hnow : rereadNow s g q with
      | none => simpa [rereadEnd, hnow] using ih.trans (List.sublist_cons_self ..)
      | some e => simpa [rereadEnd, hnow] using ih
  rw [hpos]
  refine hsub.nodup (List.Nodup.map_on (fun p hp q hq hpq => ?_) hnd)
  obtain ⟨hpwg, hpw⟩ := hqs p hp
  obtain ⟨hqwg, hqw⟩ := hqs q hq
  calc p = ⟨q.wg, q.warp, q.lane⟩ := by rw [hqwg, hqw, ← hpwg, ← hpw, ← hpq]
    _ = q := rfl

theorem rereadCompletes : RereadCompletes := by
  intro s r g v hg hv hres hsaves hok hnd hmates
  obtain ⟨l, hl, hhome, -⟩ := (hmates r (mem_groupMates s r)).waits
  have hwarp := groupMates_home (s := s) (r := r) (by rw [hl]; exact hhome)
  obtain ⟨hcalm, hends, hland⟩ := rereads_group hg hv hres hsaves hwarp hmates
  have hexec : exec (.waitwReread r) s = .next (s.satisfyAll ((s.groupMates r).filterMap (rereadEnd s g))) := by
    change execWaitwReread r s = _
    rw [execWaitwReread_calm hcalm hland, hends]
  have hmap : s.mapOf r.wg r.warp = v.rows := by rw [State.mapOf, hv]; rfl
  refine ⟨fun hnone => ?_, ?_⟩
  · have hempty : (s.groupMates r).filterMap (rereadEnd s g) = [] :=
      List.filterMap_eq_nil_iff.mpr fun q hq => by rw [rereadEnd, hnone q hq]; rfl
    rw [hexec, hempty]
    rfl
  have hidle : ∀ e ∈ (s.groupMates r).filterMap (rereadEnd s g), EndIdle s r.wg r.warp e := by
    intro e he
    obtain ⟨q, ws, dst, hq, hnow, rfl⟩ := mem_rereadEnd he
    obtain ⟨-, hpos, hregs, hrows⟩ := (hmates q hq).place ws dst hnow
    obtain ⟨l, hl, hhome, -⟩ := (hmates q hq).waits
    exact ⟨⟨(hwarp q hq).1, (hwarp q hq).2, l, hl, hhome⟩, rfl, hpos, hregs, hmap ▸ hrows⟩
  have hheld : ∀ e ∈ (s.groupMates r).filterMap (rereadEnd s g), s.held e.who = false := by
    intro e he
    obtain ⟨q, ws, dst, hq, hnow, rfl⟩ := mem_rereadEnd he
    obtain ⟨l, hl, -, hst | ⟨ea, n, signed, cmp, val, since, dst, p, -, hrun, -⟩⟩ := (hmates q hq).waits
    · rw [rereadNow, hl] at hnow
      split at hnow
      · rename_i hw
        exact absurd (Option.some.inj hw) (hst _)
      · contradiction
    · simp [State.held, hl, hrun]
  obtain ⟨hlanes, hstands, hrest⟩ := satisfyAll_home (hmap.symm ▸ hok) hidle (rereadEnds_nodup hwarp hnd hmates) hheld
  refine ⟨_, hexec, fun q hq => ?_, fun q hq ws dst hnow hnwb k reg hk hlt => ?_, fun q hq => ?_, hrest⟩
  · simp only [hlanes, mem_rereadRefs]
    by_cases hnow : (rereadNow s g q).isSome = true
    · rw [if_pos ⟨hq, hnow⟩]
      exact congrArg (fun k => (s.lane? q).map k) (funext fun l => (if_pos hnow).symm)
    · rw [if_neg fun h => hnow h.2]
      simp only [if_neg hnow, Option.map_id']
  · have hstand := hstands ⟨⟨q, 0⟩, ws, none, dst⟩ (List.mem_filterMap.mpr ⟨q, hq, by rw [rereadEnd, hnow]; rfl⟩) hnwb k reg hk hlt
    obtain ⟨hwg, hw⟩ := hwarp q hq
    rw [← hwg, ← hw] at hstand
    exact hstand
  · rw [hlanes, if_neg fun h => hq ((mem_rereadRefs q).mp h).1]

/-- Settles O31: each wait ends when its condition holds, as the lemma of its action says. -/
theorem waitsEnd : Obligations.WaitsEnd := ⟨rereadCompletes, extwaitRaises, sleepExpires, registerWriteCompletes⟩

end Sys2Proof.Machine
end

section
/-! SUPPORT. The head of a window's queue: argument stores and the nine operations of a GO (R269, R271, R406, R464). -/

namespace Sys2Proof.Machine

/-! ### One warp that becomes another -/

/-- A warp of a state has become `v`; every other warp, and the rest of the state, is as it was. -/
structure WarpBecomes (wg w : Nat) (v : Warp) (s t : State) : Prop where
  warp : t.warp? wg w = some v
  away : ∀ a b, ¬(a = wg ∧ b = w) → t.warp? a b = s.warp? a b
  rest : ∃ wgs ctl, t = { s with wgs := wgs, ctl := ctl }

theorem WarpBecomes.refl {wg w : Nat} {v : Warp} {s : State} (hv : s.warp? wg w = some v) : WarpBecomes wg w v s s :=
  ⟨hv, fun _ _ _ => rfl, _, _, rfl⟩

theorem WarpBecomes.updWarp {wg w : Nat} {v : Warp} {s t : State} (h : WarpBecomes wg w v s t) (k : Warp → Warp) :
    WarpBecomes wg w (k v) s (t.updWarp wg w k) where
  warp := by rw [State.warp?_updWarp, if_pos ⟨rfl, rfl⟩, h.warp, Option.map_some]
  away a b hab := by rw [State.warp?_updWarp, if_neg hab, h.away a b hab]
  rest := by
    obtain ⟨_, _, rfl⟩ := h.rest
    exact ⟨_, _, rfl⟩

/-! ### The head of a window's queue (R269) -/

/-- The head of a window's queue is taken while the stage is empty. -/
theorem hatchHead_some {s : State} {wg w : Nat} {g : Workgroup} {v : Warp} {e : HatchEntry} (h : s.hatchHead wg w = some (g, v, e)) :
    s.wg? wg = some g ∧ s.warp? wg w = some v ∧ v.stage = none := by
  unfold State.hatchHead at h
  split at h
  next g' v' hg hv =>
    split at h
    next => contradiction
    next hruns =>
      obtain ⟨e', -, he⟩ := Option.map_eq_some_iff.mp h
      obtain ⟨rfl, rfl, rfl⟩ : g' = g ∧ v' = v ∧ e' = e := by simpa using he
      refine ⟨hg, hv, Option.not_isSome_iff_eq_none.mp fun hstage => hruns ?_⟩
      rw [hstage, Bool.or_true]
  next => contradiction

theorem mapNth_eq_setNth {α : Type} (l : List α) (n : Nat) (k : α → α) (d : α) : mapNth l n k = setNth l n (k (l.getD n d)) := by
  refine List.ext_getElem? fun i => ?_
  rw [mapNth_getElem?, setNth_getElem?]
  by_cases hi : i = n
  · subst hi
    cases h : l[i]? <;> simp [h]
  · rw [if_neg hi, if_neg hi]

theorem argumentStores : ArgumentStores := by
  intro s wg w g v e hhead
  obtain ⟨-, hv, -⟩ := hatchHead_some hhead
  have hpop := (WarpBecomes.refl hv).updWarp fun v => { v with hatchq := v.hatchq.drop 1 }
  have hexec : exec (.hatchArgStore wg w) s = execHatchArgStore wg w s := rfl
  refine ⟨fun hm => ?_, fun hm hop => ?_⟩
  · have hargs := hpop.updWarp fun v => { v with args := mapNth v.args e.lane fun a => setNth a e.m e.val }
    refine ⟨_, by rw [hexec, execHatchArgStore, hhead]; exact congrArg Host.Outcome.next (if_pos hm), ?_, hargs.away, hargs.rest⟩
    exact hargs.warp.trans (by rw [mapNth_eq_setNth _ _ _ []])
  · have hrefused := hpop.updWarp fun v => { v with
      ring := mapIf (fun q => q.gid = e.gid) (fun q => { q with hold := q.hold.map (Hold.addFault e.lane .engCmd (goDetail e.val)) })
        v.ring }
    refine ⟨_, ?_, hrefused.warp, hrefused.away, hrefused.rest⟩
    rw [hexec, execHatchArgStore, hhead]
    exact congrArg Host.Outcome.next ((if_neg (Nat.not_lt.mpr hm)).trans (if_pos (by rw [hop]; rfl)))

/-! ### Staging (R271) -/

/-- A GO at the head of a window's queue, for a DRAW with the accesses of its lane performed, is checked as the state stands. -/
theorem stageGo_eq {s : State} {op : EngineOp} {wg w : Nat} {g : Workgroup} {v : Warp} {e : HatchEntry}
    (hhead : s.hatchHead wg w = some (g, v, e)) (hm : e.m = 4) (hop : engineOp e.val = some op)
    (hquiet : op = .draw → s.drain ⟨wg, w, e.lane⟩ = s) (hwait : s.goCheck g w (v.staged e) ≠ .wait) : s.stageGo op wg w
      = ((s.popHatch wg w).updWarp wg w fun u => { u with stage := some (s.fixed g (v.staged e)) }).goAct wg w (v.staged e)
          (s.goCheck g w (v.staged e)) := by
  obtain ⟨hg, -, -⟩ := hatchHead_some hhead
  have hdrain : (if op = .draw then s.drain ⟨wg, w, e.lane⟩ else s) = s := by
    split
    next h => exact hquiet h
    next => rfl
  simp only [State.stageGo, hhead, hm, hop, bne_self_eq_false, Bool.or_self, Bool.false_eq_true, if_false, hdrain, hg, Option.getD_some]

/-- The operation of an event of the window is staging. -/
theorem stages_of_exec {ev : Nat → Nat → Instr} {op : EngineOp} (hexec : ∀ wg w s, exec (ev wg w) s = .next (s.stageGo op wg w)) :
    Stages ev op := by
  intro s wg w g v e hhead hm hop hquiet
  obtain ⟨-, hv, hstage⟩ := hatchHead_some hhead
  have heq := stageGo_eq hhead hm hop fun h => drain_none (hquiet h).1 (hquiet h).2
  have hstaged := ((WarpBecomes.refl hv).updWarp fun v => { v with hatchq := v.hatchq.drop 1 }).updWarp
    fun u => { u with stage := some (s.fixed g (v.staged e)) }
  refine ⟨fun p hok => ?_, fun c d hrefuse => ?_⟩
  · refine ⟨_, ?_, hstaged.warp, hstaged.away, hstaged.rest⟩
    rw [hexec, heq (by rw [hok]; exact GoCheck.noConfusion), hok]
    rfl
  · have hout := (hstaged.updWarp fun v => { v with stage := none }).updWarp fun v => { v with
      ring := mapIf (fun q => q.gid = e.gid) (fun q => { q with hold := q.hold.map (Hold.addFault e.lane c d) }) v.ring }
    refine ⟨_, ?_, ?_, hout.away, hout.rest⟩
    · rw [hexec, heq (by rw [hrefuse]; exact GoCheck.noConfusion), hrefuse]
      rfl
    · rw [hout.warp, ← hstage]

/-- Settles O32: an argument store by its cases, the nine operations by the one lemma of staging. -/
theorem window : Obligations.Window :=
  ⟨argumentStores, stages_of_exec fun _ _ _ => rfl, stages_of_exec fun _ _ _ => rfl, stages_of_exec fun _ _ _ => rfl,
    stages_of_exec fun _ _ _ => rfl, stages_of_exec fun _ _ _ => rfl, stages_of_exec fun _ _ _ => rfl,
    stages_of_exec fun _ _ _ => rfl, stages_of_exec fun _ _ _ => rfl, stages_of_exec fun _ _ _ => rfl⟩

end Sys2Proof.Machine
end

section
/-! SUPPORT. The acceptance of a staged GO: the command it becomes, by its operation (R272, R407, R429, R430, R456). -/

namespace Sys2Proof.Machine

/-! ### A GO that passes its checks (R271) -/

theorem planIf_first {q : Staged} {ok remote : Bool} {total : Nat} {ranges : List (Nat × Nat × Need)}
    (h : (planIf q ok remote total ranges).first = .ok) : ok = true := by
  unfold planIf at h
  split at h
  next hok => exact hok
  next => cases h

/-- A GO passes with the plan of its operation, whose own rules it keeps. -/
theorem goCheck_ok {s : State} {g : Workgroup} {w : Nat} {q : Staged} {p : GoPlan} (h : s.goCheck g w q = .ok p) :
    p = s.goPlan g q ∧ (s.goPlan g q).first = .ok := by
  unfold State.goCheck at h
  dsimp only at h
  split at h
  next => cases h
  next => cases h
  next => cases h
  next hfirst =>
    refine ⟨?_, hfirst⟩
    split at h
    next => cases h
    split at h
    next => cases h
    split at h
    next => cases h
    split at h
    next => cases h
    next => cases h
    next => cases h
    next => exact (GoCheck.ok.inj h).symm

theorem drawPlan_target {s : State} {g : Workgroup} {q : Staged} (h : (s.drawPlan g q).first = .ok) :
    ∃ t, s.target? g.ctx (q.a1.extractLsb' 0 32) = some t := by
  unfold State.drawPlan at h
  dsimp only at h
  split at h
  next t _ ht => exact ⟨t, ht⟩
  next => cases h

theorem invokePlan_target {s : State} {g : Workgroup} {q : Staged} (h : (s.invokePlan g q).first = .ok) :
    ∃ t, s.target? g.ctx (q.a0.extractLsb' 0 32) = some t := by
  unfold State.invokePlan at h
  split at h
  next => cases h
  next t ht => exact ⟨t, ht⟩

theorem readoutPlan_target {s : State} {g : Workgroup} {q : Staged} (h : (s.readoutPlan g q).first = .ok) :
    ∃ t, s.target? g.ctx (q.a0.extractLsb' 0 32) = some t := by
  unfold State.readoutPlan at h
  split at h
  next => cases h
  next t ht => exact ⟨t, ht⟩

theorem pushPlan_queue {s : State} {g : Workgroup} {q : Staged} (h : (s.pushPlan g q).first = .ok) :
    ∃ o, s.pushQueue g.ctx q.a3 = some o := by
  have hok := planIf_first h
  exact Option.isSome_iff_exists.mp (Bool.and_eq_true_iff.mp hok).2

/-! ### The command entered (R272) -/

/-- A command of operation `op` has entered last, as `base` but for its work, the workgroups it names, and UE of a DRAW. -/
structure Entered (base : Command) (op : EngineOp) (s t : State) : Prop where
  cmd : ∃ work names ue, t.cmds = s.cmds ++ [{ base with work := work, names := names, ue := ue }] ∧ (op ≠ .draw → ue = false)
  launches : op ≠ .draw → t.launches = s.launches
  mem : op ≠ .draw → op ≠ .push → t.mem = s.mem
  rest : ∃ cmds seq contexts mem poison launches, t = { s with
    cmds := cmds, seq := seq, contexts := contexts, mem := mem, poison := poison, launches := launches }

theorem Entered.of_seq {base : Command} {op : EngineOp} {s t : State} {n : Nat} (h : Entered base op { s with seq := n } t) :
    Entered base op s t where
  cmd := h.cmd
  launches := h.launches
  mem := h.mem
  rest := h.rest

/-- A command that only enters. -/
theorem entered_command (base : Command) (op : EngineOp) (s : State) (seq : Nat) (work : Work) (names : List Nat)
    (hue : base.ue = false) :
    Entered base op s { s with seq := seq, cmds := s.cmds ++ [{ base with work := work, names := names }] } where
  cmd := ⟨work, names, base.ue, rfl, fun _ => hue⟩
  launches _ := rfl
  mem _ _ := rfl
  rest := ⟨_, _, _, _, _, _, rfl⟩

/-- A DRAW enters with a launch of its own, and writes its first PSN (R407). -/
theorem acceptDraw_entered {s : State} {g : Workgroup} {q : Staged} {t : Target} (c : Command)
    (ht : s.target? g.ctx (q.a1.extractLsb' 0 32) = some t) : Entered c .draw s (s.acceptDraw g q c) := by
  simp only [State.acceptDraw, ht]
  cases hp : State.operandPhys _ g.ctx 0 false q.a0.toNat with
  | none => exact ⟨⟨_, _, _, rfl, fun h => absurd rfl h⟩, fun h => absurd rfl h, fun h => absurd rfl h, _, _, _, _, _, _, rfl⟩
  | some p => exact ⟨⟨_, _, _, rfl, fun h => absurd rfl h⟩, fun h => absurd rfl h, fun h => absurd rfl h, _, _, _, _, _, _, rfl⟩

/-- An INVOKE or READOUT enters in its target's command order (R429, R430). -/
theorem acceptTarget_entered {s : State} {g : Workgroup} {q : Staged} {t : Target} {c : Command} (op : EngineOp) (hue : c.ue = false)
    (ht : s.target? g.ctx (q.a0.extractLsb' 0 32) = some t) : Entered c op s (s.acceptTarget g q c) := by
  simp only [State.acceptTarget, ht]
  split
  next => exact ⟨⟨_, _, _, rfl, fun _ => hue⟩, fun _ => rfl, fun _ _ => rfl, _, _, _, _, _, _, rfl⟩
  next => exact ⟨⟨_, _, _, rfl, fun _ => hue⟩, fun _ => rfl, fun _ _ => rfl, _, _, _, _, _, _, rfl⟩

/-- A call appended to a log changes that log and memory. -/
theorem appendCall_frame (s : State) (ctx : Nat) (o : ReplayObj) (k die : Nat) (args : List Word) :
    ∃ contexts mem poison, s.appendCall ctx o k die args = { s with contexts := contexts, mem := mem, poison := poison } := by
  obtain ⟨poison, h⟩ := putEntry_eq (s.updObject ctx o.handle fun o => { o with tail := nextPos o.tail }) o
    { pos := nextPos o.tail, method := k, die := die, args := args, ret := 0, status := 0 }
  exact ⟨_, _, poison, h⟩

/-- The command of a GO as it enters, before its work is known. -/
def acceptBase (s : State) (g : Workgroup) (w : Nat) (q : Staged) (p : GoPlan) (engine : Nat) : Command :=
  acceptedCommand g w q s.seq engine p.total .other p.ranges []

/-- What the rules of its class find of a GO that passes, and a remote operand in its peer's window: what its command needs. -/
def GoStands (s : State) (g : Workgroup) (q : Staged) (total : Nat) : EngineOp → Prop
  | .linear | .strided | .fill => s.copyReaches g q = true
  | .nmLoad | .nmRun => True
  | .draw => ∃ t, s.target? g.ctx (q.a1.extractLsb' 0 32) = some t
  | .invoke => ∃ t, s.target? g.ctx (q.a0.extractLsb' 0 32) = some t
  | .readout => (∃ t, s.target? g.ctx (q.a0.extractLsb' 0 32) = some t)
      ∧ (isRemote q.a2.toNat total = true → q.a3.getLsbD 0 = false → s.remoteOk g.ctx false q.a2.toNat 1 0 total = true)
  | .push => ∃ o, s.pushQueue g.ctx q.a3 = some o

theorem goStands {s : State} {g : Workgroup} {q : Staged} {total : Nat} (hfirst : (s.goPlan g q).first = .ok)
    (hreach : goReaches s g q total) : ∃ op, engineOp q.go = some op ∧ GoStands s g q total op := by
  cases hop : engineOp q.go with
  | none =>
    rw [State.goPlan, hop] at hfirst
    cases hfirst
  | some op =>
    rw [State.goPlan, hop] at hfirst
    rw [goReaches, hop] at hreach
    refine ⟨op, rfl, ?_⟩
    cases op with
    | linear | strided | fill => exact hreach
    | nmLoad | nmRun => trivial
    | draw => exact drawPlan_target hfirst
    | invoke => exact invokePlan_target hfirst
    | readout => exact ⟨readoutPlan_target hfirst, hreach⟩
    | push => exact pushPlan_queue hfirst

/-- A GO that stands becomes the last command (R272). -/
theorem acceptWork_entered {s : State} {g : Workgroup} {w : Nat} {q : Staged} {p : GoPlan} {engine : Nat} {op : EngineOp}
    (hop : engineOp q.go = some op) (h : GoStands s g q p.total op) :
    Entered (acceptBase s g w q p engine) op s (s.acceptWork g w q p engine) := by
  have hcopy (hreach : s.copyReaches g q = true) : State.copyReaches { s with seq := s.seq + 1 } g q = true := hreach
  unfold State.acceptWork
  rw [hop]
  cases op with
  | linear | strided | fill =>
    simp only [hcopy h, if_true]
    exact entered_command _ _ s _ _ _ rfl
  | nmLoad | nmRun => exact entered_command _ _ s _ _ _ rfl
  | draw =>
    obtain ⟨t, ht⟩ := h
    exact (acceptDraw_entered (s := { s with seq := s.seq + 1 }) _ ht).of_seq
  | invoke =>
    obtain ⟨t, ht⟩ := h
    exact (acceptTarget_entered (s := { s with seq := s.seq + 1 }) .invoke rfl ht).of_seq
  | readout =>
    obtain ⟨⟨t, ht⟩, hreach⟩ := h
    have hin : (isRemote q.a2.toNat p.total && !q.a3.getLsbD 0 && !s.remoteOk g.ctx false q.a2.toNat 1 0 p.total) = false := by
      cases hr : isRemote q.a2.toNat p.total with
      | false => rfl
      | true => cases hsp : q.a3.getLsbD 0 with
        | true => rfl
        | false => rw [hreach hr hsp]; rfl
    exact (congrArg (Entered _ .readout s) (if_neg (Bool.eq_false_iff.mp hin))).mpr
      (acceptTarget_entered (s := { s with seq := s.seq + 1 }) .readout rfl ht).of_seq
  | push =>
    obtain ⟨o, ho⟩ := h
    have ho' : State.pushQueue { s with seq := s.seq + 1 } g.ctx q.a3 = some o := ho
    obtain ⟨contexts, mem, poison, hcall⟩ := appendCall_frame { s with seq := s.seq + 1 } g.ctx o 0 (dieOf g.core)
      ([q.a0, q.a1, q.a2, q.a3].flatMap fun a => [a.extractLsb' 0 32, a.extractLsb' 32 32])
    simp only [ho', hcall]
    exact ⟨⟨_, _, _, rfl, fun _ => rfl⟩, fun _ => rfl, fun _ h => absurd rfl h, _, _, _, _, _, _, rfl⟩

/-! ### GO_ACCEPT (R272) -/

/-- A warp whose staged GO is accepted: its completion register has risen by the total, and its stage is empty. -/
def Warp.accepted (q : Staged) (total : Nat) (v : Warp) : Warp :=
  { v.setUreg (56 + goCreg q.go) (v.ureg (56 + goCreg q.go) + wordOf total) with stage := none }

/-- Settles O33: the command of each operation enters as `acceptWork_entered` says, after the warp's COUNT has risen. -/
theorem acceptance : Obligations.Acceptance := by
  intro s wg w engine g v q p hg hv hstage hruns hinst hquiet hroom hchk hreach _
  obtain ⟨hp, hfirst⟩ := goCheck_ok hchk
  obtain ⟨op, hop, hstands⟩ := goStands hfirst hreach
  have hwarp := (WarpBecomes.refl hv).updWarp (Warp.accepted q p.total)
  have hstands' : GoStands (s.updWarp wg w (Warp.accepted q p.total)) g q p.total op := by
    cases op <;> exact hstands
  obtain ⟨⟨work, names, ue, hcmds, hue⟩, hlaunches, hmem, hrest⟩ := acceptWork_entered (w := w) (p := p) (engine := engine) hop hstands'
  have hfull : (engineOp q.go = some .push && (s.pushQueue g.ctx q.a3).any ReplayObj.full) = false := by
    cases hpush : decide (engineOp q.go = some .push) with
    | false => rfl
    | true => exact hroom (of_decide_eq_true hpush)
  have hexec : exec (.goAccept wg w engine) s
      = .next ((((s.updWarp wg w (Warp.accepted q p.total)).acceptWork g w q p engine).finishWindows wg w).settle) := by
    change execGoAccept wg w engine s = _
    simp only [execGoAccept, hg, hv, Option.bind_some, hstage, hruns, hinst, hfull, hquiet, hchk, Bool.not_true, Bool.or_self,
      Bool.false_eq_true, if_false]
    rfl
  have hwarps (a b : Nat) : ((s.updWarp wg w (Warp.accepted q p.total)).acceptWork g w q p engine).warp? a b
      = (s.updWarp wg w (Warp.accepted q p.total)).warp? a b := by
    obtain ⟨_, _, _, _, _, _, h⟩ := hrest
    rw [h]
    rfl
  have hid : (⟨g.id, w, q.lane⟩ : LaneRef) = ⟨wg, w, q.lane⟩ := by rw [wg?_some_id hg]
  have hne {o : EngineOp} (h : engineOp q.go ≠ some o) : op ≠ o := fun heq => h (hop.trans (congrArg some heq))
  refine ⟨_, _, hexec, (hwarps wg w).trans hwarp.warp, fun a b hab => (hwarps a b).trans (hwarp.away a b hab), hcmds, rfl, rfl, hid,
    rfl, rfl, rfl, rfl, rfl, rfl, rfl, rfl, rfl, rfl, fun hdraw => ⟨hlaunches (hne hdraw), hue (hne hdraw), fun hpush =>
    hmem (hne hdraw) (hne hpush)⟩, ?_⟩
  obtain ⟨_, _, _, _, _, _, h⟩ := hrest
  exact ⟨_, _, _, _, _, _, _, _, h⟩

end Sys2Proof.Machine
end

section
/-! SUPPORT. A DRAW that a restore has resumed: its tokens wait for the pixel workgroups saved with it (R396), which the statement about
token issue leaves out. -/

namespace Sys2Proof.Machine

/-! ### A state without workgroups -/

/-- A state without workgroups in which command `id`, for as long as it lasts, has work `W`. -/
structure BareWork (id : Nat) (W : Work) (t : State) : Prop where
  wgs  : t.wgs = []
  ctl  : t.ctl = []
  work : ∀ c, t.cmd? id = some c → c.work = W

section
variable {id : Nat} {W : Work} {s t : State}

theorem BareWork.wg? (h : BareWork id W t) (n : Nat) : t.wg? n = none := by
  rw [State.wg?, h.wgs, h.ctl]
  rfl

theorem BareWork.warp? (h : BareWork id W t) (a b : Nat) : t.warp? a b = none := by
  rw [State.warp?, h.wg?]
  rfl

/-- There is no warp to change. -/
theorem BareWork.updWarp (h : BareWork id W t) (a b : Nat) (k : Warp → Warp) : t.updWarp a b k = t := by
  have hwgs (f : Workgroup → Workgroup) : mapIf (fun g => g.id = a) f t.wgs = t.wgs := by rw [h.wgs]; rfl
  have hctl (f : Workgroup → Workgroup) : mapIf (fun g => g.id = a) f t.ctl = t.ctl := by rw [h.ctl]; rfl
  unfold State.updWarp State.updWg
  rw [hwgs, hctl]

theorem BareWork.fall (h : BareWork id W t) (r : LaneRef) (creg n : Nat) (err ue : Bool) : t.fall r creg n err ue = t := by
  rw [State.fall, h.updWarp, State.wakeWaitc, h.warp?]

theorem BareWork.landSync (h : BareWork id W t) (wg sync n : Nat) (error : Bool) : t.landSync wg sync n error = t := by
  unfold State.landSync
  split
  · rfl
  · rw [h.wg?]

theorem BareWork.dropKept (h : BareWork id W t) : t.dropKept = t := by
  unfold State.dropKept
  rw [h.wgs]
  exact congrArg (fun l => { t with wgs := l }) h.wgs.symm

/-- Nothing of it but parts on which its work does not rest has changed. -/
theorem BareWork.of_eq (h : BareWork id W s) (hwgs : t.wgs = s.wgs) (hctl : t.ctl = s.ctl) (hcmds : t.cmds = s.cmds) : BareWork id W t :=
  ⟨hwgs.trans h.wgs, hctl.trans h.ctl, fun c hc => h.work c (by rw [State.cmd?, ← hcmds]; exact hc)⟩

theorem BareWork.updCtx (h : BareWork id W t) (ctx : Nat) (k : Context → Context) : BareWork id W (t.updCtx ctx k) := h.of_eq rfl rfl rfl

theorem find?_filter_id (cs : List Command) (id n : Nat) :
    (cs.filter fun d => d.id != n).find? (fun d => d.id = id) = if id = n then none else cs.find? fun d => d.id = id := by
  rw [List.find?_filter]
  split
  · rename_i h
    subst h
    simp
  · rename_i h
    congr 1
    funext d
    by_cases hid : d.id = id
    · simp [hid, h]
    · simp [hid]

/-- A command that ends is gone, and no other is touched. -/
theorem BareWork.endCommand (h : BareWork id W t) (n : Nat) : BareWork id W (t.endCommand n) := by
  unfold State.endCommand
  split
  · exact h
  · rename_i c _
    have hless : BareWork id W { t with cmds := t.cmds.filter fun d => d.id != n } := by
      refine ⟨h.wgs, h.ctl, fun d hd => h.work d ?_⟩
      have hfind := (find?_filter_id t.cmds id n).symm.trans hd
      split at hfind
      · cases hfind
      · exact hfind
    have hnote : (if c.err || c.ue then
        State.noteGo { t with cmds := t.cmds.filter fun d => d.id != n } c.lane (56 + c.creg) c.go
      else { t with cmds := t.cmds.filter fun d => d.id != n }) = { t with cmds := t.cmds.filter fun d => d.id != n } := by
      split
      · exact hless.updWarp _ _ _
      · rfl
    simp only [hnote, hless.landSync, hless.fall, hless.dropKept]
    exact hless

theorem BareWork.updCmd (h : BareWork id W t) (n : Nat) (k : Command → Command) (hid : ∀ c, (k c).id = c.id) (hwork : ∀ c, (k c).work = c.work) :
    BareWork id W (t.updCmd n k) := by
  refine ⟨h.wgs, h.ctl, fun d hd => ?_⟩
  rw [State.cmd?, State.updCmd, mapIf_find? _ _ _ _ fun c _ => by rw [hid c]] at hd
  obtain ⟨c, hc, rfl⟩ := Option.map_eq_some_iff.mp hd
  rw [← h.work c hc]
  split
  · exact hwork c
  · rfl

/-- A fence is written in memory, where it is written at all. -/
theorem writeFence_memory (s : State) (ctx : Nat) (fence value : DWord) (refused : Bool) :
    ∃ mem poison, s.writeFence ctx fence value refused = { s with mem := mem, poison := poison } := by
  unfold State.writeFence
  dsimp only
  split
  next => exact ⟨_, _, rfl⟩
  split
  next => split <;> exact ⟨_, _, rfl⟩
  next => split <;> exact ⟨_, _, rfl⟩
  next => exact ⟨_, _, rfl⟩

theorem BareWork.endLaunch (h : BareWork id W t) (l : Launch) : BareWork id W (t.endLaunch l) := by
  have hless : BareWork id W { t with launches := t.launches.filter fun k => k.id != l.id } := h.of_eq rfl rfl rfl
  unfold State.endLaunch
  split
  next c _ => exact BareWork.endCommand (hless.updCmd c (fun k => { k with err := k.err || l.refused }) (fun _ => rfl) fun _ => rfl) c
  next fence value lane creg _ =>
    obtain ⟨mem, poison, hfence⟩ := writeFence_memory { t with launches := t.launches.filter fun k => k.id != l.id } l.ctx fence value l.refused
    have hdone := hless.of_eq (t := { t with launches := t.launches.filter fun k => k.id != l.id, mem := mem, poison := poison }) rfl rfl rfl
    dsimp only
    rw [hfence]
    split
    · split
      · rw [hdone.fall]
        exact hdone
      · exact hdone
    · exact hdone
  next => exact hless
  next => exact hless

theorem BareWork.settleSteps (n : Nat) (h : BareWork id W t) : BareWork id W (State.settleSteps n t) := by
  induction n generalizing t with
  | zero => exact h
  | succ n ih =>
    unfold State.settleSteps
    split
    · exact ih (h.endLaunch _)
    · split
      · exact ih ((h.updCtx _ _).endCommand _)
      · exact h

theorem BareWork.settle (h : BareWork id W t) : BareWork id W t.settle := by
  unfold State.settle State.freeDead
  split
  · exact h.settleSteps _
  · exact (h.settleSteps _).of_eq rfl rfl rfl

/-- No lane waits. -/
theorem BareWork.wakeSettled (h : BareWork id W t) (ctx : Nat) : t.wakeSettled ctx = t := by
  have hwaits : t.waits ctx = [] := by
    rw [State.waits, h.wgs]
    rfl
  unfold State.wakeSettled
  rw [hwaits]
  rfl

end

/-! ### A resumed DRAW -/

/-- The one token of a resumed DRAW. -/
def waitingToken : Token := ⟨0, 0, 0, [0, 0, 1024, 0, 0, 1024]⟩

/-- A DRAW that a restore has resumed: its saved pixel workgroups come first (R396). -/
def resumedCommand : Command :=
  { id := 1, ctx := 0, lane := ⟨0, 0, 0⟩, launch := 0, cls := 2, engine := 0, scope := 0, acq := false, rel := false, creg := 1, sync := 0
    total := 1, fallen := 0, err := false, ue := false, work := .draw 0x10000001 5 [waitingToken] 2, pinned := [], names := [], resumed := 1 }

/-- Its target: 2 by 2 pixels with one sample of one channel. -/
def resumedTarget : Target :=
  { index := 1, w := 2, h := 2, samples := 1, fmts := [0], consts := [], methods := [], pix := [], nextpsn := 6, faults := 0
    damaged := [], order := [1], frags := [], vaults := [(0, 7, 8192)], dead := false }

/-- Its launch, with a pixel workgroup of the save still to be admitted. -/
def resumedLaunch : Launch :=
  { id := 2, ctx := 0, header := programHeader 0x10000, nextWg := 0, live := 0, gangs := [], bars := freshBars 8, refused := false
    absent := none, origin := .draw 1, pixels := [⟨0, 0, 0, []⟩], lost := [], ended := false }

/-- The device with that DRAW, whose token is the next of its tile and has its slots free. -/
def resumedDraw : State :=
  { State.reset with
    contexts := [{ Context.created 0 0 with resident := true, targets := [resumedTarget] }]
    cmds := [resumedCommand], launches := [resumedLaunch], seq := 3 }

theorem not_tokenIssues : ¬ TokenIssues := by
  intro h
  have hstuck : exec (.orderTokenIssue 1 0 0 0) resumedDraw = .next resumedDraw := rfl
  obtain ⟨u, hexec, -, hcmd, -, contexts, cmds, launches, seq, hu⟩ := h resumedDraw 1 0 0 0 resumedCommand 0x10000001 5 [waitingToken] 2
    resumedTarget waitingToken resumedLaunch rfl rfl rfl rfl rfl rfl (by decide +kernel) rfl rfl
  have hbare : BareWork 1 (.draw 0x10000001 5 [] 2) u := by
    refine ⟨by rw [hu]; rfl, by rw [hu]; rfl, fun c hc => ?_⟩
    rw [← Option.some.inj (hcmd.symm.trans hc)]
    rfl
  have heq : resumedDraw = u.settle := by
    rw [hstuck, hbare.settle.wakeSettled] at hexec
    exact Host.Outcome.next.inj hexec
  have hwork := (heq ▸ hbare.settle).work resumedCommand rfl
  exact absurd hwork (by decide)

/-- Refutes O34: of a DRAW that a restore has resumed no token goes before the saved pixel workgroups are admitted (R396), and the
statement about token issue has no such condition. -/
theorem not_engines : ¬ Obligations.Engines := by
  rintro ⟨-, -, -, -, -, htokens, -, -⟩
  exact not_tokenIssues htokens

end Sys2Proof.Machine
end

section
/-! SUPPORT. ELECT chooses the active lane of lowest position: the first of the active lanes, which stand in the order of the
members (R78, R321). -/

namespace Sys2Proof.Machine

theorem actives_pairwise {s : State} {x : Iss} {f : Form} (h : x.members.Pairwise fun a b => a.pos < b.pos) :
    (s.actives x f).Pairwise fun a b => a.m.pos < b.m.pos :=
  (List.pairwise_map (f := Act.m)).mp (h.sublist (actives_sublist s x f))

/-- Of a list in rising order of position, the head alone is at or below all. -/
theorem head_pos_eq_iff {act : List Act} (h : act.Pairwise fun a b => a.m.pos < b.m.pos) {a : Act} (ha : a ∈ act) :
    (act.head?.any fun b => decide (b.m.pos = a.m.pos)) = decide (∀ b ∈ act, a.m.pos ≤ b.m.pos) := by
  cases act with
  | nil => cases ha
  | cons b rest =>
    rw [List.pairwise_cons] at h
    have hlow : ∀ c ∈ b :: rest, b.m.pos ≤ c.m.pos := fun c hc => by
      rcases List.mem_cons.mp hc with rfl | hc
      · exact le_rfl
      · exact (h.1 c hc).le
    refine decide_eq_decide.mpr ⟨fun hb c hc => hb ▸ hlow c hc, fun hall => ?_⟩
    exact le_antisymm (hlow a ha) (hall b List.mem_cons_self)

/-- The word of a truth value holds it in bit 0. -/
theorem truthWord_bit (b : Bool) : (if b then (1 : Word) else 0).getLsbD 0 = b := bitWord_getLsbD b

/-- Settles O45: ELECT gives each active lane whether it stands where the first active lane does, and positions rise along the
members. -/
theorem electLowest : Obligations.ElectLowest := by
  unfold Obligations.ElectLowest
  intro f s x hc ok hpos hd
  have hvals : s.laneValues x f (sigOf (.elect f) f) electValue := fun _ _ => rfl
  have hrs : s.laneResults x f (sigOf (.elect f) f) electValue = (s.actives x f).map fun a =>
      ⟨a, valWords 1 (boolVal ((s.actives x f).head?.any fun b => b.m.pos = a.m.pos)), 0⟩ :=
    laneResults_eq_map (v := fun a => plain (boolVal ((s.actives x f).head?.any fun b => b.m.pos = a.m.pos))) fun _ _ => rfl
  have htrap : s.fpTrap (s.laneResults x f (sigOf (.elect f) f) electValue) = none := by
    refine fpTrap_of_no_flags fun r hr => ?_
    obtain ⟨a, _, rfl⟩ := List.mem_map.mp (hrs ▸ hr)
    rfl
  obtain ⟨t, ht, hres⟩ := elect_predCompletes f s x hc ok hd hvals htrap
  refine ⟨t, ht, fun a ha => ?_⟩
  have hlane := hres.written _ (hrs ▸ List.mem_map_of_mem ha)
  rw [valWords_boolVal, head_pos_eq_iff (actives_pairwise hpos) ha, (mem_actives ha).2.1] at hlane
  rw [hlane, List.headD_cons, truthWord_bit]
  rfl

end Sys2Proof.Machine
end

section
/-! SUPPORT. SpecialRegisters fails, in its clause on TRAPBASE: an SWRITE of a context's register writes the first live context of
its number, changed, over every live context of that number, where the statement lets each keep its other fields. -/

namespace Sys2Proof.Machine

theorem RegisterFrame.contexts {x : Iss} {s t : State} (h : RegisterFrame x s t) : t.contexts = s.contexts := by
  obtain ⟨_, _, _, _, rfl⟩ := h.package
  rfl

/-- SWRITE of 0x5000 to TRAPBASE. -/
def trapbaseWrite : Form :=
  { dix := 0x055, nwb := false, fd := 0, fa := 0x33, fb := 0, m2 := 0, sat := false, rm := .rne, ty := .n64, sc := .lane
    hint := .none, immsrc := .template, pgn := false, pg := 7, b96 := false, d := .none, a := ⟨.immediate, .fa, false, 0⟩
    b := ⟨.immediate, .fixed, false, 0⟩, c := .none, imm := 0x5000, lit := 0 }

/-- The program's warp in privileged mode, beside a second live context of its context's number, with a MODE of its own. -/
def contextClash : State :=
  let s := (State.reset.withProgram []).updWarp 0 0 fun v => { v with privileged := true }
  { s with contexts := s.contexts ++ [{ Context.created 0 0 with mode := 1 }], cur := .group (.home 0 0 0) }

def clashIssue : Iss :=
  { g := .home 0 0 0, ctx := 0, core := 0, pane := 0, pipe := 0, members := (List.range 32).map fun p => ⟨p, ⟨0, 0, p⟩⟩, pc := 0
    wbase := 0, dslot := 0, priv := true, wg := 0, warp := 0, carried := none }

theorem contextClash_canIssue : CanIssue (.swrite trapbaseWrite) trapbaseWrite true contextClash clashIssue :=
  ⟨by decide +kernel, by decide +kernel, .inr (by decide +kernel), by decide +kernel⟩

theorem contextClash_ready :
    contextClash.actives clashIssue trapbaseWrite ≠ []
    ∧ (contextClash.reads clashIssue trapbaseWrite (sigOf (.swrite trapbaseWrite) trapbaseWrite)).outside = []
    ∧ writeReads .swrite contextClash trapbaseWrite clashIssue
    ∧ (writeValue .swrite contextClash trapbaseWrite clashIssue).toNat % 4096 = 0 :=
  ⟨by decide +kernel, by decide +kernel, by unfold writeReads; decide +kernel, by decide +kernel⟩

/-- The second context has lost its MODE. -/
theorem contextClash_after :
    ∃ t, exec (.swrite trapbaseWrite) contextClash = .next t ∧ t.contexts.map Context.mode = [0, 0] :=
  ⟨_, rfl, by decide +kernel⟩

/-- Refutes O12: in `contextClash` two live contexts have one number, and SWRITE of TRAPBASE, which is to change TRAPBASE alone, makes
the second a copy of the first. -/
theorem not_specialRegisters : ¬ Obligations.SpecialRegisters := by
  rintro ⟨-, ⟨-, -, -, htrapbase, -⟩, -⟩
  obtain ⟨hact, hout, hread, hlegal⟩ := contextClash_ready
  obtain ⟨t, ht, hmoves⟩ := htrapbase trapbaseWrite contextClash clashIssue contextClash_canIssue hact hout
    ⟨List.mem_singleton.mpr rfl, fun _ => rfl, hread, hlegal⟩
  obtain ⟨u, hu, hmodes⟩ := contextClash_after
  obtain rfl : t = u := Host.Outcome.next.inj (ht.symm.trans hu)
  rw [hmoves.rest.contexts] at hmodes
  exact absurd hmodes (by decide +kernel)

end Sys2Proof.Machine
end

section
/-! SUPPORT. LAUNCH: a command counted in the completion register and a launch entered last, before the members move on (R99, R291,
R334, R335). -/

namespace Sys2Proof.Machine

/-! ### An issue that no reformed group may make (R92) -/

/-- An instruction that no reformed group may issue runs in a home group, whose members are lanes of the issue's warp. -/
theorem CanIssue.members_home {i : Instr} {f : Form} {s : State} {x : Iss} (h : CanIssue i f true s x) (hact : s.actives x f ≠ []) :
    ∀ m ∈ x.members, m.ref.wg = x.wg ∧ m.ref.warp = x.warp := by
  have hhome : x.carried = none := by simpa [binFault] using h.allowed.resolve_left hact
  have hc := h.cur
  have h := h.issue
  unfold State.curIss? at h
  rw [hc] at h
  dsimp only at h
  generalize x.g = g at h
  cases g with
  | home wg w gid =>
    simp only [State.iss?, Option.bind_eq_bind, Option.bind_eq_some_iff, Option.some.injEq] at h
    obtain ⟨_, _, _, _, _, _, _, _, _, _, rfl⟩ := h
    intro m hm
    obtain ⟨p, -, rfl⟩ := List.mem_map.mp hm
    exact ⟨rfl, rfl⟩
  | reformed core slot gid =>
    simp only [State.iss?, Option.bind_eq_bind, Option.bind_eq_some_iff, Option.some.injEq] at h
    obtain ⟨_, _, _, _, _, _, _, _, rfl⟩ := h
    cases hhome

/-- The first active lane of such an issue, a lane of the issue's warp. -/
theorem CanIssue.lead_home {i : Instr} {f : Form} {s : State} {x : Iss} (h : CanIssue i f true s x) (hact : s.actives x f ≠ []) :
    ∃ a rest, s.actives x f = a :: rest ∧ a.m.ref.wg = x.wg ∧ a.m.ref.warp = x.warp := by
  obtain ⟨a, rest, hcons⟩ := List.exists_cons_of_ne_nil hact
  have ha : a ∈ s.actives x f := hcons ▸ List.mem_cons_self
  exact ⟨a, rest, hcons, h.members_home hact a.m (mem_actives ha).1⟩

/-! ### A lane with nothing in flight -/

/-- A lane may share an issue with itself. -/
theorem together_self (s : State) (r : LaneRef) : s.together r r = true := by simp [State.together]

theorem quiet_of_noneInFlight {s : State} {x : Iss} (h : s.noneInFlight x) {m : Member} (hm : m ∈ x.members) :
    s.quiet m.ref false = true := by
  obtain ⟨hpend, hqueue⟩ := h m hm
  have apart : ∀ r : LaneRef, s.together m.ref r = false → r ≠ m.ref := fun r hr e => by
    rw [e, together_self] at hr
    cases hr
  simp only [State.quiet, Bool.false_or, Bool.and_eq_true, Bool.not_eq_true', List.any_eq_false]
  exact ⟨fun a ha => by simp [apart _ (hpend a ha)], fun q hq => by simp [apart _ (hqueue q hq)]⟩

/-! ### A command of the issue, counted at once (R335, R337) -/

/-- The command that LAUNCH, CTXSV and CTXRS enter. -/
def State.ownCommand (s : State) (x : Iss) (r : LaneRef) (scope creg : Nat) : Command :=
  { id := s.seq, ctx := x.ctx, lane := r, launch := ((s.wg? r.wg).map Workgroup.launch).getD 0, cls := 5, engine := 0
    scope := scope, acq := true, rel := true, creg := creg, sync := 0, total := 1, fallen := 0, err := false, ue := false
    work := .other, pinned := [], names := [] }

section
variable (s : State) (x : Iss) (r : LaneRef) (scope creg : Nat)

theorem startCommand_frame : ∃ wgs ctl cmds seq,
    s.startCommand x r scope creg = { s with wgs := wgs, ctl := ctl, cmds := cmds, seq := seq } := ⟨_, _, _, _, rfl⟩

theorem startCommand_lane? (q : LaneRef) : (s.startCommand x r scope creg).lane? q = s.lane? q :=
  s.lane?_updWarp r.wg r.warp _ q fun _ => rfl

/-- COUNT of the completion register grows by 1. -/
theorem startCommand_uregs {v : Warp} (hv : s.warp? r.wg r.warp = some v) :
    ((s.startCommand x r scope creg).warp? r.wg r.warp).map Warp.uregs
      = some (setNth v.uregs (56 + creg) (v.ureg (56 + creg) + 1)) := by
  change ((s.updWarp r.wg r.warp fun v => v.setUreg (56 + creg) (v.ureg (56 + creg) + 1)).warp? r.wg r.warp).map Warp.uregs = _
  rw [State.warp?_updWarp, if_pos ⟨rfl, rfl⟩, hv]
  rfl
end

/-! ### LAUNCH -/

/-- LAUNCH once all it reads has passed, by the lane `r`: its command, then its launch. -/
def State.launched (s : State) (x : Iss) (f : Form) (r : LaneRef) (h : Header) : State :=
  (s.startCommand x r (if f.sc = .system then 6 else 5) (f.slotImm f.b).toNat).enterLaunch x.ctx h (.launch s.seq)

theorem launch_exec {f : Form} {s : State} {x : Iss} {h : Header} {v : Warp} {a : Act} {rest : List Act}
    (hc : CanIssue (.launch f) f true s x) (hcons : s.actives x f = a :: rest) (hquiet : s.noneInFlight x)
    (halign : launchAddr s f x % 8 = 0) (hread : firstBad (s.headerChks (s.check x.core x.ctx) (launchAddr s f x)) = none)
    (hh : h = Header.parse (s.bytesAt (s.headerChks (s.check x.core x.ctx) (launchAddr s f x))))
    (himage : h.dictVa ≠ 0 → firstBad [s.imageChk (s.check x.core x.ctx) h.dictVa.toNat] = none)
    (hok : s.headersOk x.ctx h (s.imageChk (s.check x.core x.ctx) h.dictVa.toNat) = true) (hv : s.warp? x.wg x.warp = some v)
    (hcount : cregCount (v.ureg (56 + (f.slotImm f.b).toNat)) < 0x3FFFFFFF) :
    exec (.launch f) s = .next ((s.launched x f a.m.ref h).endIssue x f []) := by
  have hact : s.actives x f ≠ [] := by simp [hcons]
  have haddr : (((s.reads x f (sigOf (.launch f) f)).once x f (s.actives x f) f.a (sigOf (.launch f) f).a).getD 0).toNat
      = launchAddr s f x := by
    rw [reads_once]
    rfl
  have hdict : firstBad (if h.dictVa = 0 then [] else [s.imageChk (s.check x.core x.ctx) h.dictVa.toNat]) = none := by
    split
    · rfl
    next hne => exact himage hne
  have hroom : ¬ 0x3FFFFFFF < s.countOf x (f.slotImm f.b).toNat + 1 := by
    rw [State.countOf, hv]
    exact not_lt.mpr hcount
  have hall : ((s.actives x f).all fun a => s.quiet a.m.ref false) = true :=
    List.all_eq_true.mpr fun b hb => quiet_of_noneInFlight hquiet (mem_actives hb).1
  change execLaunch f s = _
  rw [execLaunch, onceStep_canIssue hc hact (hc.outside_of_forbidden hact)]
  simp only [haddr, halign, bne_self_eq_false, Bool.false_eq_true, if_false, drainAll_none hquiet, onceChecked_passed hread, ← hh]
  simp only [State.launchGo, onceChecked_passed hdict, hok, hroom, Bool.not_true, decide_false, Bool.or_self, Bool.false_eq_true, if_false, hall]
  rw [hcons]
  rfl

/-- Settles O18: with every check passed LAUNCH enters its command and its launch, and is a plain end of the issue after that. -/
theorem launches : Obligations.Launches := by
  unfold Obligations.Launches
  intro f s x h v hc hact hquiet halign hread hh himage hok hv hcount
  obtain ⟨a, rest, hcons, hwg, hwarp⟩ := hc.lead_home hact
  have hend := State.endIssue_plain (s.launched x f a.m.ref h) x f
  have hlane : ∀ r, (s.launched x f a.m.ref h).lane? r = s.lane? r :=
    startCommand_lane? s x a.m.ref (if f.sc = .system then 6 else 5) (f.slotImm f.b).toNat
  refine ⟨_, { id := s.seq + 1, ctx := x.ctx, header := h, nextWg := 0, live := 0, gangs := [], bars := freshBars 8, refused := false
               absent := none, origin := .launch s.seq, pixels := [], lost := [], ended := false },
    s.ownCommand x a.m.ref (if f.sc = .system then 6 else 5) (f.slotImm f.b).toNat,
    launch_exec hc hcons hquiet halign hread hh himage hok hv hcount, ?_, rfl, rfl, rfl, rfl, rfl, rfl, ?_, rfl, rfl, rfl, ?_,
    fun m hm => ?_, fun r hr => ?_, ?_⟩
  · obtain ⟨_, _, _, _, ht⟩ := hend.frame.package
    rw [ht]
    rfl
  · obtain ⟨_, _, _, _, ht⟩ := hend.frame.package
    rw [ht]
    rfl
  · rw [hend.warps Warp.uregs (fun _ _ => rfl) (fun _ _ => rfl), ← hwg, ← hwarp]
    exact startCommand_uregs s x a.m.ref (if f.sc = .system then 6 else 5) (f.slotImm f.b).toNat (by rwa [hwg, hwarp])
  · rw [hend.lanes, if_pos (List.mem_map_of_mem hm), hlane]
  · rw [hend.lanes, if_neg hr, hlane]
  · obtain ⟨wgs, ctl, cores, seq, ht⟩ := hend.groupsOnly
    rw [ht]
    exact ⟨_, _, _, _, _, _, rfl⟩

end Sys2Proof.Machine
end

section
/-! SUPPORT. EXIT: what the leaving of a lane keeps of memory and of the other lanes, and the lanes that leave one after another (R320). -/

namespace Sys2Proof.Machine

/-! ### What an operation keeps of memory and lanes -/

/-- Memory and every lane stand as before. -/
structure LanesKept (s t : State) : Prop where
  mem   : t.mem = s.mem
  lanes : ∀ r, t.lane? r = s.lane? r

theorem LanesKept.refl (s : State) : LanesKept s s := ⟨rfl, fun _ => rfl⟩

theorem LanesKept.trans {s t u : State} (h : LanesKept s t) (k : LanesKept t u) : LanesKept s u :=
  ⟨k.mem.trans h.mem, fun r => (k.lanes r).trans (h.lanes r)⟩

theorem LanesKept.of_workgroups {s t : State} (hmem : t.mem = s.mem) (hwgs : t.wgs = s.wgs) (hctl : t.ctl = s.ctl) : LanesKept s t :=
  ⟨hmem, fun r => by simp only [State.lane?, State.warp?, State.wg?, hwgs, hctl]⟩

theorem LanesKept.updWarp (s : State) (wg w : Nat) {k : Warp → Warp} (hk : ∀ v, (k v).lanes = v.lanes) :
    LanesKept s (s.updWarp wg w k) := ⟨rfl, fun r => s.lane?_updWarp wg w k r hk⟩

theorem LanesKept.updCore (s : State) (core : Nat) (k : Core → Core) : LanesKept s (s.updCore core k) :=
  ⟨by unfold State.updCore; split <;> rfl, s.lane?_updCore core k⟩

theorem LanesKept.nullFragment (s : State) (ctx : Nat) (p : Pixel) : LanesKept s (s.nullFragment ctx p) := by
  unfold State.nullFragment
  split
  · exact .refl s
  · exact .of_workgroups rfl rfl rfl

theorem LanesKept.setLaneRows (s : State) (r : LaneRef) (rows : List Row) : LanesKept s (s.setLaneRows r rows) := by
  unfold State.setLaneRows
  split
  · exact .updCore ..
  · exact .updWarp _ _ _ fun _ => rfl

theorem LanesKept.dropLoads (s : State) (r : LaneRef) : LanesKept s (s.dropLoads r) := by
  unfold State.dropLoads
  dsimp only
  split
  · exact .refl s
  · exact (setLaneRows s r _).trans (.of_workgroups rfl rfl rfl)

theorem LanesKept.leaveBin (s : State) (r : LaneRef) : LanesKept s (s.leaveBin r) := by
  unfold State.leaveBin
  split
  · exact .updCore ..
  · exact .refl s

theorem LanesKept.setRows (s : State) (x : Iss) (rows : List Row) : LanesKept s (s.setRows x rows) := by
  unfold State.setRows
  split
  · exact .updWarp _ _ _ fun _ => rfl
  · exact .updCore ..

theorem LanesKept.setHold (s : State) (g : GroupRef) (h : Option Hold) : LanesKept s (s.setHold g h) := by
  refine ⟨?_, s.setHold_lane? g h⟩
  unfold State.setHold State.updGroup
  split
  · rfl
  · exact (updCore ..).mem

theorem LanesKept.regroup (s : State) (g : GroupRef) (o : SplitOrder) : LanesKept s (s.regroup g o) := by
  refine ⟨?_, s.regroup_lane? g o⟩
  unfold State.regroup
  split
  · rfl
  · exact ((updCore ..).trans (updCore ..)).mem

theorem updLanes_mem (s : State) (rs : List LaneRef) (k : Lane → Lane) : (s.updLanes rs k).mem = s.mem := by
  induction rs generalizing s with
  | nil => rfl
  | cons r rs ih => exact ih (s.updLane r k)

/-! ### A lane that leaves -/

/-- Memory and every lane but one stand as before, and that one is still there. -/
structure LaneChanged (r : LaneRef) (s t : State) : Prop where
  mem    : t.mem = s.mem
  others : ∀ q, q ≠ r → t.lane? q = s.lane? q
  there  : (t.lane? r).isSome = (s.lane? r).isSome

theorem LanesKept.changed {s t : State} (h : LanesKept s t) (r : LaneRef) : LaneChanged r s t :=
  ⟨h.mem, fun q _ => h.lanes q, by rw [h.lanes]⟩

theorem LaneChanged.trans {r : LaneRef} {s t u : State} (h : LaneChanged r s t) (k : LaneChanged r t u) : LaneChanged r s u :=
  ⟨k.mem.trans h.mem, fun q hq => (k.others q hq).trans (h.others q hq), k.there.trans h.there⟩

theorem LaneChanged.updLane (r : LaneRef) (s : State) (k : Lane → Lane) : LaneChanged r s (s.updLane r k) :=
  ⟨rfl, fun q hq => by rw [State.lane?_updLane, if_neg hq], by rw [State.lane?_updLane, if_pos rfl, Option.isSome_map]⟩

theorem LaneChanged.leaveReformed (r : LaneRef) (s : State) : LaneChanged r s (s.leaveReformed r) := by
  unfold State.leaveReformed
  split
  · exact (((LanesKept.updCore ..).trans (.updCore ..)).changed r).trans (updLane r _ _)
  · exact (LanesKept.refl s).changed r

/-- All that EXIT does for a lane before the lane itself is written. -/
theorem LaneChanged.leaves (r : LaneRef) (s : State) : LaneChanged r s (((s.dropLoads r).leaveReformed r).leaveBin r) :=
  (((LanesKept.dropLoads s r).changed r).trans (leaveReformed r _)).trans ((LanesKept.leaveBin _ r).changed r)

theorem exitLane_eq (s : State) (ctx : Nat) (r : LaneRef) : ∃ u, LaneChanged r s u ∧ s.exitLane ctx r
    = u.updLane r fun l => { l with st := .exited, halted := false, stack := [], spilled := 0, pass := none, carry := none } := by
  unfold State.exitLane
  split
  next p _ => exact ⟨_, ((LanesKept.nullFragment s ctx p).changed r).trans (.leaves r _), rfl⟩
  next => exact ⟨_, .leaves r s, rfl⟩

/-- A lane is EXITED with an empty stack (R320). -/
def State.hasExited (s : State) (r : LaneRef) : Prop := ∃ l : Lane, s.lane? r = some l ∧ l.st = .exited ∧ l.stack = [] ∧ l.spilled = 0

theorem LaneChanged.exitLane (r : LaneRef) (s : State) (ctx : Nat) : LaneChanged r s (s.exitLane ctx r) := by
  obtain ⟨u, hu, he⟩ := exitLane_eq s ctx r
  exact he ▸ hu.trans (updLane r u _)

theorem hasExited_exitLane {s : State} {r : LaneRef} (h : (s.lane? r).isSome) (ctx : Nat) : (s.exitLane ctx r).hasExited r := by
  obtain ⟨u, hu, he⟩ := exitLane_eq s ctx r
  obtain ⟨l, hl⟩ := Option.isSome_iff_exists.mp (hu.there.trans h)
  exact ⟨_, by rw [he, State.lane?_updLane, if_pos rfl, hl, Option.map_some], rfl, rfl, rfl⟩

/-! ### The lanes of an issue that leave -/

/-- Lanes that leave one after another. -/
def State.exitLanes (s : State) (ctx : Nat) (rs : List LaneRef) : State := rs.foldl (fun s r => s.exitLane ctx r) s

theorem eachLane_exit {x : Iss} {e : Env} {f : Form} {g : Sig} {acts : List Act} (t : Tally)
    (hargs : ∀ a ∈ acts, (e.args f g x.wbase a.m.pos a.lane).isSome) (s : State) :
    eachLane x e f g (fun a _ s => (s.exitLane x.ctx a.m.ref, .ok)) acts s t
      = (s.exitLanes x.ctx (acts.map fun a => a.m.ref), t) := by
  induction acts generalizing s with
  | nil => rfl
  | cons a acts ih =>
    obtain ⟨args, ha⟩ := Option.isSome_iff_exists.mp (hargs a List.mem_cons_self)
    simp only [eachLane, ha]
    exact ih (fun b hb => hargs b (List.mem_cons_of_mem _ hb)) _

theorem exitLanes_mem (s : State) (ctx : Nat) (rs : List LaneRef) : (s.exitLanes ctx rs).mem = s.mem := by
  induction rs generalizing s with
  | nil => rfl
  | cons r rs ih => exact (ih (s.exitLane ctx r)).trans (LaneChanged.exitLane r s ctx).mem

theorem exitLanes_other {ctx : Nat} {rs : List LaneRef} {q : LaneRef} (hq : q ∉ rs) (s : State) :
    (s.exitLanes ctx rs).lane? q = s.lane? q := by
  induction rs generalizing s with
  | nil => rfl
  | cons r rs ih =>
    obtain ⟨hne, hrest⟩ := not_or.mp (List.mem_cons.not.mp hq)
    exact (ih hrest (s.exitLane ctx r)).trans ((LaneChanged.exitLane r s ctx).others q hne)

theorem exitLanes_exited {ctx : Nat} {rs : List LaneRef} {r : LaneRef} (hr : r ∈ rs) (nd : rs.Nodup) {s : State}
    (hl : (s.lane? r).isSome) : (s.exitLanes ctx rs).hasExited r := by
  induction rs generalizing s with
  | nil => cases hr
  | cons q rs ih =>
    obtain ⟨hq, nd⟩ := List.nodup_cons.mp nd
    rcases List.mem_cons.mp hr with rfl | hr
    · obtain ⟨l, hl', he⟩ := hasExited_exitLane hl ctx
      exact ⟨l, (exitLanes_other hq _).trans hl', he⟩
    · have hne : r ≠ q := fun e => hq (e ▸ hr)
      exact ih hr nd (by rwa [(LaneChanged.exitLane q s ctx).others r hne])

/-! ### EXIT -/

/-- The members whose guard is false, which go on. -/
def State.idlers (s : State) (x : Iss) (f : Form) : List LaneRef :=
  (x.members.map Member.ref).filter fun r => !(s.actives x f).any fun a => a.m.ref = r

theorem active_not_idle {s : State} {x : Iss} {f : Form} {a : Act} (ha : a ∈ s.actives x f) : a.m.ref ∉ s.idlers x f := by
  intro hi
  have hno := (List.mem_filter.mp hi).2
  simp only [Bool.not_eq_true', List.any_eq_false, decide_eq_true_eq] at hno
  exact hno a ha rfl

/-- A member that is not active is one of those that go on. -/
theorem IssueOk.idle_mem {s : State} {x : Iss} (ok : IssueOk s x) {f : Form} {m : Member} (hm : m ∈ x.members)
    (hidle : m ∉ (s.actives x f).map Act.m) : m.ref ∉ (s.actives x f).map (fun a => a.m.ref) ∧ m.ref ∈ s.idlers x f := by
  have hno : m.ref ∉ (s.actives x f).map fun a => a.m.ref := (actives_ref_mem ok hm).not.mpr hidle
  refine ⟨hno, List.mem_filter.mpr ⟨List.mem_map_of_mem hm, ?_⟩⟩
  simp only [Bool.not_eq_true', List.any_eq_false, decide_eq_true_eq]
  exact fun a ha e => hno (e ▸ List.mem_map_of_mem (f := fun a : Act => a.m.ref) ha)

/-- The state in which the active lanes of a per-lane instruction act: its hold ended, the others moved on. -/
def State.begun (s : State) (x : Iss) (f : Form) : State := (s.setHold x.g none).moveLanes (s.idlers x f) (nextPc f x.pc)

theorem begun_lane? (s : State) (x : Iss) (f : Form) (r : LaneRef) :
    (s.begun x f).lane? r = if r ∈ s.idlers x f then (s.lane? r).map fun l => { l with pc := nextPc f x.pc } else s.lane? r := by
  rw [State.begun, State.moveLanes_lane?, State.setHold_lane?]

theorem begun_mem (s : State) (x : Iss) (f : Form) : (s.begun x f).mem = s.mem :=
  (updLanes_mem _ _ _).trans (LanesKept.setHold s x.g none).mem

/-- The body of a per-lane instruction in which no lane parks: a faulting one releases nothing (R148, R306). -/
theorem laneBody_unparked {s u : State} {x : Iss} {e : Env} {f : Form} {g : Sig} {hint : Hint} {faults : List LaneFault}
    {k : Act → Args → State → State × Done}
    (h : eachLane x e f g k (s.actives x f) (s.begun x f) ⟨[], []⟩ = (u, ⟨faults, []⟩)) :
    s.laneBody x e f g (s.actives x f) hint noWait k
      = ((if faults = [] then u.setRows x (releaseLu f g x.wbase (u.rowsOf x)) else u).regroup x.g ⟨hint, nextPc f x.pc⟩, ⟨faults, []⟩) := by
  have hmiss : ((s.actives x f).filterMap fun a => (e.args f g x.wbase a.m.pos a.lane).bind fun args => noWait a args s) = [] :=
    List.filterMap_eq_nil_iff.mpr fun a _ => by cases e.args f g x.wbase a.m.pos a.lane <;> rfl
  unfold State.begun State.idlers at h
  simp only [State.laneBody, hmiss, bne_self_eq_false, Bool.false_eq_true, if_false, h, decide_true, Bool.and_true, decide_eq_true_eq,
    parkLanes_nil, List.map_nil]
  rfl

/-- Settles O9: the active lanes leave one after another, and the map and the groups that change after that keep lanes and memory. -/
theorem exits : Obligations.Exits := by
  unfold Obligations.Exits
  intro f s x hc ok hargs
  let left := (s.actives x f).map fun a => a.m.ref
  let u := (s.begun x f).exitLanes x.ctx left
  let t := (u.setRows x (releaseLu f (sigOf (.exit f) f) x.wbase (u.rowsOf x))).regroup x.g ⟨.none, nextPc f x.pc⟩
  have hkept : LanesKept u t := (LanesKept.setRows u x _).trans (.regroup _ _ _)
  refine ⟨t, ?_, fun a ha => ?_, fun m hm hidle => ?_, ?_⟩
  · have hbody := laneBody_unparked (hint := .none) (eachLane_exit (s := s.begun x f) ⟨[], []⟩ hargs)
    change execExit f s = _
    simp only [execExit, hc.cur, front_canIssue hc, hbody, State.laneEnd, State.raise_nil, List.map_nil, List.append_nil]
    rfl
  · have hthere : ((s.begun x f).lane? a.m.ref).isSome := by
      rw [begun_lane?, if_neg (active_not_idle ha), (mem_actives ha).2.1]
      rfl
    obtain ⟨l, hl, hexit⟩ := exitLanes_exited (List.mem_map_of_mem (f := fun a : Act => a.m.ref) ha) (actives_refs_nodup ok) hthere
    exact ⟨l, (hkept.lanes _).trans hl, hexit⟩
  · obtain ⟨hother, hmoves⟩ := ok.idle_mem hm hidle
    rw [hkept.lanes, exitLanes_other hother, begun_lane?, if_pos hmoves]
  · rw [hkept.mem, exitLanes_mem, begun_mem]

end Sys2Proof.Machine
end

section
/-! SUPPORT. TRAP, BKPT and RTE: the lanes that raise, and the halt that ends (R326, R327, R384). -/

namespace Sys2Proof.Machine

/-! ### TRAP and BKPT (R326) -/

theorem GroupsOnly.updCore (s : State) (core : Nat) (k : Core → Core) : GroupsOnly s (s.updCore core k) := by
  obtain ⟨cores, h⟩ := updCore_frame s core k
  exact ⟨s.wgs, s.ctl, cores, s.seq, h⟩

theorem GroupsOnly.setRows (s : State) (x : Iss) (rows : List Row) : GroupsOnly s (s.setRows x rows) := by
  unfold State.setRows
  split
  · exact ⟨_, _, _, _, rfl⟩
  · exact .updCore ..

theorem begun_groupsOnly (s : State) (x : Iss) (f : Form) : GroupsOnly s (s.begun x f) :=
  (Regroups.updGroup x s x.g _).groupsOnly.trans (.updLanes ..)

/-- The faults that the active lanes of a trap instruction raise. -/
def trapFaults (acts : List Act) (c : Cause) : List LaneFault := acts.map fun a => ⟨a.m.ref, c, 0⟩

theorem eachLane_trap {x : Iss} {e : Env} {f : Form} {g : Sig} (c : Cause) {acts : List Act} (faults : List LaneFault)
    (hargs : ∀ a ∈ acts, (e.args f g x.wbase a.m.pos a.lane).isSome) (s : State) :
    eachLane x e f g (trapLane f c x) acts s ⟨faults, []⟩
      = (s.moveLanes (acts.map fun a => a.m.ref) (nextPc f x.pc), ⟨faults ++ trapFaults acts c, []⟩) := by
  induction acts generalizing s faults with
  | nil => simp [eachLane, trapFaults, State.moveLanes, State.updLanes]
  | cons a acts ih =>
    obtain ⟨args, ha⟩ := Option.isSome_iff_exists.mp (hargs a List.mem_cons_self)
    simp only [eachLane, ha, trapLane]
    rw [ih _ (fun b hb => hargs b (List.mem_cons_of_mem _ hb))]
    simp only [trapFaults, List.map_cons, List.append_assoc, List.singleton_append]
    rfl

/-- The body of a trap instruction: every member stands at the next PC, and each active lane has its fault. -/
theorem laneBody_trap {s : State} {x : Iss} {e : Env} {f : Form} {g : Sig} (c : Cause) (ok : IssueOk s x)
    (hargs : ∀ a ∈ s.actives x f, (e.args f g x.wbase a.m.pos a.lane).isSome) :
    ∃ t, s.laneBody x e f g (s.actives x f) .none noWait (trapLane f c x) = (t, ⟨trapFaults (s.actives x f) c, []⟩)
      ∧ MovedOn x f s t ∧ (∀ r, r ∉ x.members.map Member.ref → t.lane? r = s.lane? r) ∧ GroupsOnly s t := by
  let u := (s.begun x f).moveLanes ((s.actives x f).map fun a => a.m.ref) (nextPc f x.pc)
  let w := if trapFaults (s.actives x f) c = [] then u.setRows x (releaseLu f g x.wbase (u.rowsOf x)) else u
  have hw : LanesKept u w ∧ GroupsOnly u w := by
    dsimp only [w]
    split
    · exact ⟨.setRows .., .setRows ..⟩
    · exact ⟨.refl u, u.wgs, u.ctl, u.cores, u.seq, rfl⟩
  have hkept := (hw.1.trans (.regroup w x.g ⟨.none, nextPc f x.pc⟩)).lanes
  refine ⟨_, laneBody_unparked (eachLane_trap c [] hargs _), fun m hm => ?_, fun r hr => ?_, ?_⟩
  · rw [hkept, State.moveLanes_lane?, begun_lane?]
    by_cases ha : m ∈ (s.actives x f).map Act.m
    · have hin := (actives_ref_mem ok hm).mpr ha
      obtain ⟨a, haa, rfl⟩ := List.mem_map.mp ha
      rw [if_pos hin, if_neg (active_not_idle haa)]
    · obtain ⟨hno, hidle⟩ := ok.idle_mem hm ha
      rw [if_neg hno, if_pos hidle]
  · have hidle : r ∉ s.idlers x f := fun h => hr (List.mem_filter.mp h).1
    have hact : r ∉ (s.actives x f).map fun a => a.m.ref := fun h => by
      obtain ⟨a, ha, rfl⟩ := List.mem_map.mp h
      exact hr (List.mem_map_of_mem (mem_actives ha).1)
    rw [hkept, State.moveLanes_lane?, begun_lane?, if_neg hact, if_neg hidle]
  · exact (begun_groupsOnly s x f).trans <| (GroupsOnly.updLanes ..).trans <| hw.2.trans (State.regroup_spec x _ _ _).groupsOnly

theorem trapCompletes {mk : Form → Instr} {cause : Form → Cause}
    (hexec : ∀ f s, exec (mk f) s = laneStep (mk f) f false .none (trapLane f (cause f)) s) : TrapCompletes mk cause := by
  intro f s x hc ok hargs
  obtain ⟨t, hbody, hmoved, hlanes, hframe⟩ := laneBody_trap (cause f) ok hargs
  refine ⟨t, ?_, hmoved, hlanes, hframe⟩
  simp only [hexec, laneStep, front_canIssue hc, hbody, State.laneEnd, List.map_nil, List.append_nil]
  rfl

/-! ### What the end of a halt does once the workgroup is resumed (R327, R384) -/

theorem mem_mapIf_cases {α : Type} {p : α → Bool} {k : α → α} {l : List α} {q : α} (h : q ∈ mapIf p k l) :
    ∃ a ∈ l, p a = true ∧ q = k a ∨ p a = false ∧ q = a := by
  obtain ⟨a, ha, rfl⟩ := List.mem_map.mp h
  cases hp : p a with
  | true => exact ⟨a, ha, .inl ⟨hp, if_pos rfl⟩⟩
  | false => exact ⟨a, ha, .inr ⟨hp, if_neg Bool.false_ne_true⟩⟩

/-- A lane apart from the slot kept for it (R379). -/
def Lane.unkeyed (l : Lane) : Lane := { l with keySlot := none }

/-- The mode and the dictionary slots of a warp. -/
def Warp.modeSlots (v : Warp) : Bool × Nat × Nat := (v.privileged, v.active, v.pending)

/-- No workgroup of this number is halted. -/
def State.unhalted (s : State) (wg : Nat) : Prop := ∀ g ∈ s.wgs, g.id = wg → g.trap = none

/-- A workgroup stays resumed: its trap, its warps' mode and slots, and its lanes but for the slots kept for them. -/
structure ResumedKept (wg : Nat) (s t : State) : Prop where
  trap  : (t.wg? wg).map Workgroup.trap = (s.wg? wg).map Workgroup.trap
  lanes : ∀ r, (t.lane? r).map Lane.unkeyed = (s.lane? r).map Lane.unkeyed
  warps : ∀ w, (t.warp? wg w).map Warp.modeSlots = (s.warp? wg w).map Warp.modeSlots
  free  : s.unhalted wg → t.unhalted wg

section
variable {wg : Nat}

theorem ResumedKept.refl (s : State) : ResumedKept wg s s := ⟨rfl, fun _ => rfl, fun _ => rfl, id⟩

theorem ResumedKept.trans {s t u : State} (h : ResumedKept wg s t) (k : ResumedKept wg t u) : ResumedKept wg s u :=
  ⟨k.trap.trans h.trap, fun r => (k.lanes r).trans (h.lanes r), fun w => (k.warps w).trans (h.warps w), k.free ∘ h.free⟩

theorem ResumedKept.of_workgroups {s t : State} (hwgs : t.wgs = s.wgs) (hctl : t.ctl = s.ctl) : ResumedKept wg s t := by
  have h : ∀ id, t.wg? id = s.wg? id := fun id => by simp only [State.wg?, hwgs, hctl]
  exact ⟨by rw [h], fun r => by simp only [State.lane?, State.warp?, h], fun w => by simp only [State.warp?, h],
    fun hfree => by rwa [State.unhalted, hwgs]⟩

theorem ResumedKept.foldl {α : Type} {k : State → α → State} {l : List α} (hk : ∀ a ∈ l, ∀ s, ResumedKept wg s (k s a)) (s : State) :
    ResumedKept wg s (l.foldl k s) := by
  induction l generalizing s with
  | nil => exact .refl s
  | cons a l ih => exact (hk a List.mem_cons_self s).trans (ih (fun b hb => hk b (List.mem_cons_of_mem _ hb)) _)

/-- A change of one warp that keeps its mode, its slots and its lanes but for their key slots. -/
theorem ResumedKept.updWarp (s : State) (a w : Nat) {k : Warp → Warp} (hslots : ∀ v, (k v).modeSlots = v.modeSlots)
    (hlanes : ∀ (v : Warp) (p : Nat), ((k v).lanes[p]?).map Lane.unkeyed = (v.lanes[p]?).map Lane.unkeyed) :
    ResumedKept wg s (s.updWarp a w k) := by
  refine ⟨?_, fun r => ?_, fun n => ?_, fun hfree => ?_⟩
  · rw [State.wg?_updWarp]
    split <;> cases s.wg? wg <;> rfl
  · rw [State.lane?, State.lane?, State.warp?_updWarp]
    split
    · cases s.warp? r.wg r.warp with
      | none => rfl
      | some v => exact hlanes v r.lane
    · rfl
  · rw [State.warp?_updWarp]
    split
    · cases s.warp? wg n with
      | none => rfl
      | some v => exact congrArg some (hslots v)
    · rfl
  · intro g hg hid
    obtain ⟨q, hq, ⟨-, rfl⟩ | ⟨-, rfl⟩⟩ := mem_mapIf_cases hg
    · exact hfree q hq hid
    · exact hfree g hq hid

theorem ResumedKept.updCore (s : State) (core : Nat) (k : Core → Core) : ResumedKept wg s (s.updCore core k) := by
  obtain ⟨cores, h⟩ := updCore_frame s core k
  rw [h]
  exact .of_workgroups rfl rfl

theorem mapNth_unkeyed (ls : List Lane) (n p : Nat) :
    ((mapNth ls n fun l => { l with keySlot := none })[p]?).map Lane.unkeyed = (ls[p]?).map Lane.unkeyed := by
  rw [mapNth_getElem?]
  split
  · cases ls[p]? <;> rfl
  · rfl

theorem ResumedKept.refile (s : State) (g : Workgroup) (r : LaneRef) : ResumedKept wg s (s.refile g r) := by
  unfold State.refile
  split
  · exact .refl s
  · exact (updCore ..).trans (updWarp _ _ _ (fun _ => rfl) fun v p => mapNth_unkeyed v.lanes r.lane p)

theorem storeBytes_workgroups (s : State) (phys : Nat) (bs : List Byte) :
    (s.storeBytes phys bs).wgs = s.wgs ∧ (s.storeBytes phys bs).ctl = s.ctl := ⟨rfl, rfl⟩

theorem traceRecord_workgroups (s : State) (ctx : Nat) (ident : List Byte) (a b c d e : Nat) :
    (s.traceRecord ctx ident a b c d e).wgs = s.wgs ∧ (s.traceRecord ctx ident a b c d e).ctl = s.ctl := by
  unfold State.traceRecord
  split
  · exact ⟨rfl, rfl⟩
  · dsimp only
    split <;> simp only [State.updCtx_wgs, State.updCtx_ctl, storeBytes_workgroups, and_self]

theorem ResumedKept.traceRecord (s : State) (ctx : Nat) (ident : List Byte) (a b c d e : Nat) :
    ResumedKept wg s (s.traceRecord ctx ident a b c d e) := .of_workgroups (traceRecord_workgroups ..).1 (traceRecord_workgroups ..).2

theorem ResumedKept.storeBytes (s : State) (phys : Nat) (bs : List Byte) : ResumedKept wg s (s.storeBytes phys bs) :=
  .of_workgroups (storeBytes_workgroups ..).1 (storeBytes_workgroups ..).2

theorem ResumedKept.vectors (s : State) (n : List Nat) : ResumedKept wg s { s with vectors := n } := .of_workgroups rfl rfl

theorem ResumedKept.updCtx (s : State) (id : Nat) (k : Context → Context) : ResumedKept wg s (s.updCtx id k) := .of_workgroups rfl rfl

theorem ResumedKept.updWg_other (s : State) {id : Nat} (h : id ≠ wg) {k : Workgroup → Workgroup} (hid : ∀ g, (k g).id = g.id)
    (hwarps : ∀ g, (k g).warps = g.warps) : ResumedKept wg s (s.updWg id k) := by
  have hwarp : ∀ a w, (s.updWg id k).warp? a w = s.warp? a w := fun a w => by
    rw [State.warp?, State.warp?, State.wg?_updWg s id a k hid]
    split
    · cases s.wg? a with
      | none => rfl
      | some g => exact congrArg (·[w]?) (hwarps g)
    · rfl
  refine ⟨?_, fun r => ?_, fun w => by rw [hwarp], fun hfree => ?_⟩
  · rw [State.wg?_updWg s id wg k hid, if_neg h.symm]
  · rw [State.lane?, State.lane?, hwarp]
  · intro g hg hg'
    obtain ⟨q, hq, ⟨hp, rfl⟩ | ⟨-, rfl⟩⟩ := mem_mapIf_cases hg
    · exact absurd ((of_decide_eq_true hp).symm.trans ((hid q).symm.trans hg')) h
    · exact hfree g hq hg'

/-- A record of a debug halt is of a workgroup that is halted, so of another. -/
theorem ResumedKept.flushDebug {s : State} (hfree : s.unhalted wg) (ctx : Nat) :
    ResumedKept wg s (s.flushDebug ctx) := by
  unfold State.flushDebug
  refine .foldl (fun g hg u => ?_) s
  split
  next t d ht hd =>
    have hother : g.id ≠ wg := fun e => by simp [hfree g hg e] at ht
    dsimp only
    split
    · refine .trans ?_ (updCtx _ _ _)
      refine .trans ?_ (updWg_other _ hother (fun _ => rfl) fun _ => rfl)
      exact (storeBytes u _ _).trans (vectors _ _)
    · exact .refl u
  next => exact .refl u
end

/-! ### A warp that is resumed -/

/-- What a resumed lane had at the entry of the handler, where its warp ran it (R379, R384). -/
def Warp.laneBefore (v : Warp) (p : Nat) : Option LaneSave := if v.privileged then v.saved[p]? else none

theorem resume_lane? (v : Warp) (fresh p : Nat) : (v.resume fresh).lanes[p]? = (v.lanes[p]?).map (Lane.resume (v.laneBefore p)) := by
  have hlanes : (v.resume fresh).lanes = v.lanes.zipIdx.map fun e => e.1.resume (v.laneBefore e.2) := by
    unfold Warp.resume Warp.resumeLanes
    dsimp only
    rw [Warp.settle_rest]
    rfl
  rw [hlanes, List.getElem?_map, List.getElem?_zipIdx, Option.map_map]
  cases v.lanes[p]? <;> simp

theorem resume_modeSlots (v : Warp) (fresh : Nat) : (v.resume fresh).modeSlots
    = (false, if v.privileged then v.trapAct else v.active, if v.privileged then v.trapPend else v.pending) := rfl

/-! ### RTE (R327, R384) -/

/-- A workgroup whose halt ends: its trap is over, and each warp is resumed. -/
def Workgroup.resumed (fresh : Nat) (g : Workgroup) : Workgroup := { g with trap := none, warps := g.warps.map fun v => v.resume fresh }

/-- The workgroup of a halt that ends, before its binned lanes are filed again and the records are made. -/
def State.resumed (s : State) (wg : Nat) (g : Workgroup) : State :=
  (s.emptyLatches g).updWg wg (Workgroup.resumed s.seq)

theorem resumed_wg? {s : State} {wg : Nat} {g : Workgroup} (hg : s.wg? wg = some g) :
    (s.resumed wg g).wg? wg = some (g.resumed s.seq) := by
  rw [State.resumed, State.wg?_updWg _ _ _ (Workgroup.resumed s.seq) fun _ => rfl, if_pos rfl]
  exact congrArg _ hg

theorem resumed_unhalted (s : State) (wg : Nat) (g : Workgroup) : (s.resumed wg g).unhalted wg := by
  intro q hq hid
  obtain ⟨p, -, ⟨-, rfl⟩ | ⟨hp, rfl⟩⟩ := mem_mapIf_cases hq
  · rfl
  · exact absurd hid (of_decide_eq_false hp)

/-- After the workgroup is resumed its halt only has its binned lanes filed again and makes records (R379, R482). -/
theorem endHalt_kept (s : State) (wg : Nat) (g : Workgroup) : ResumedKept wg (s.resumed wg g) (s.endHalt wg g) := by
  have flushed {t : State} (h : ResumedKept wg (s.resumed wg g) t) : ResumedKept wg (s.resumed wg g) (t.flushDebug g.ctx) :=
    h.trans (.flushDebug (h.free (resumed_unhalted s wg g)) g.ctx)
  unfold State.endHalt
  refine flushed ?_
  refine .trans ?_ (.foldl (fun _ _ u => .traceRecord u _ _ _ _ _ _ _) _)
  refine .trans ?_ (.foldl (fun r _ u => .refile u g r) _)
  refine .trans ?_ (.updCore _ _ _)
  exact .of_workgroups rfl rfl

theorem rteComplete : RteComplete := by
  intro f s x hc hact hout
  have hexec : exec (.rte f) s = .next (if x.priv then s.endTrap x.wg else s.onceFault x f (s.actives x f) .illPriv 0) := by
    change execRte f s = _
    rw [execRte, onceStep_canIssue hc hact hout]
  refine ⟨fun hpriv => ?_, fun g t hpriv hg ht hnest => ?_⟩
  · rw [hexec, hpriv]
    rfl
  have hret : s.returnFromTrap x.wg = s.endHalt x.wg g := by simp only [State.returnFromTrap, hg, ht, hnest]
  have hkept := endHalt_kept s x.wg g
  have hres := resumed_wg? hg
  refine ⟨s.endHalt x.wg g, ?_, ?_, fun w v p l hv hl => ?_⟩
  · rw [hexec, hpriv, ← hret]
    rfl
  · rw [hkept.trap, hres]
    rfl
  have hwarp : (s.resumed x.wg g).warp? x.wg w = some (v.resume s.seq) := by
    simp only [State.warp?, hres, Workgroup.resumed, Option.bind_some, List.getElem?_map, hv, Option.map_some]
  have hlane : (s.resumed x.wg g).lane? ⟨x.wg, w, p⟩ = some (l.resume (v.laneBefore p)) := by
    simp only [State.lane?, hwarp, Option.bind_some, resume_lane?, hl, Option.map_some]
  have hslots := hkept.warps w
  rw [hwarp, Option.map_some, resume_modeSlots] at hslots
  obtain ⟨u, hu, hmode⟩ := Option.map_eq_some_iff.mp hslots
  simp only [Warp.modeSlots, Prod.mk.injEq] at hmode
  obtain ⟨hmode, hactive, hpending⟩ := hmode
  refine ⟨?_, ?_, ?_, ?_⟩
  · exact (hkept.lanes _).trans (congrArg _ hlane)
  · rw [hu, Option.map_some, hmode]
  · rw [hu, Option.map_some, hactive]
  · rw [hu, Option.map_some, hpending]

/-- Settles O10: the trap instructions are per-lane instructions in which every active lane faults, and RTE in a handler ends the
halt of its workgroup. -/
theorem trapInstructions : Obligations.TrapInstructions :=
  ⟨⟨trapCompletes fun _ _ => rfl, trapCompletes fun _ _ => rfl⟩, rteComplete⟩

end Sys2Proof.Machine
end

section
/-! SUPPORT. CTXSV and CTXRS: the save and the restore they begin, and what reading a save area keeps (R337, R391, R397). -/

namespace Sys2Proof.Machine

/-! ### What the reading of a save area keeps (R397, log 9) -/

/-- A change of a context that keeps its number, whether it was killed, and the commands that wait for its save. -/
def KeepsSaveCmds (f : Context → Context) : Prop := ∀ c, (f c).id = c.id ∧ (f c).killed = c.killed ∧ (f c).saveCmds = c.saveCmds

/-- Memory, and the commands that wait for the save of each context, stand as before. -/
structure SavesKept (s t : State) : Prop where
  mem  : t.mem = s.mem
  ctxs : ∀ n, (t.ctx? n).map Context.saveCmds = (s.ctx? n).map Context.saveCmds

theorem SavesKept.refl (s : State) : SavesKept s s := ⟨rfl, fun _ => rfl⟩

theorem SavesKept.trans {s t u : State} (h : SavesKept s t) (k : SavesKept t u) : SavesKept s u :=
  ⟨k.mem.trans h.mem, fun n => (k.ctxs n).trans (h.ctxs n)⟩

theorem SavesKept.foldl {α : Type} {k : State → α → State} (hk : ∀ s a, SavesKept s (k s a)) (l : List α) (s : State) :
    SavesKept s (l.foldl k s) := by
  induction l generalizing s with
  | nil => exact .refl s
  | cons a l ih => exact (hk s a).trans (ih _)

theorem SavesKept.of_contexts {s t : State} (hmem : t.mem = s.mem) (hctx : t.contexts = s.contexts) : SavesKept s t :=
  ⟨hmem, fun n => by simp only [State.ctx?, hctx]⟩

theorem SavesKept.updCtx (s : State) (n : Nat) {f : Context → Context} (hf : KeepsSaveCmds f) : SavesKept s (s.updCtx n f) := by
  refine ⟨rfl, fun m => ?_⟩
  rw [ctx?_updCtx (fun c => ⟨(hf c).1, (hf c).2.1⟩)]
  split
  · cases s.ctx? m with
    | none => rfl
    | some c => exact congrArg some (hf c).2.2
  · rfl

theorem readFields_keeps {fs : List (Field Context)} (hfs : ∀ f ∈ fs, ∀ v, KeepsSaveCmds (f.set v)) (b : List Byte) :
    KeepsSaveCmds (readFields fs b) := by
  induction fs generalizing b with
  | nil => exact fun _ => ⟨rfl, rfl, rfl⟩
  | cons f fs ih =>
    intro c
    obtain ⟨hid, hkilled, hcmds⟩ := ih (fun g hg => hfs g (List.mem_cons_of_mem _ hg)) (b.drop f.size) (f.set (leNat (b.take f.size)) c)
    obtain ⟨gid, gkilled, gcmds⟩ := hfs f List.mem_cons_self (leNat (b.take f.size)) c
    exact ⟨hid.trans gid, hkilled.trans gkilled, hcmds.trans gcmds⟩

theorem contextFields_keep : ∀ f ∈ contextFields, ∀ v, KeepsSaveCmds (f.set v) := by
  intro f hf v c
  simp only [contextFields, List.mem_cons, List.not_mem_nil, or_false] at hf
  rcases hf with rfl | rfl | rfl | rfl | rfl | rfl | rfl | rfl | rfl | rfl | rfl | rfl | rfl <;> exact ⟨rfl, rfl, rfl⟩

theorem SavesKept.readEngine (s : State) (id : Nat) (b : List Byte) : SavesKept s (s.readEngine id b) := by
  unfold State.readEngine
  dsimp only
  split
  · exact .refl s
  · split <;> exact .of_contexts rfl rfl

theorem SavesKept.readSeeds (s : State) (ctx : Nat) (b : List Byte) : SavesKept s (s.readSeeds ctx b) := by
  unfold State.readSeeds
  refine .foldl (fun u _ => ?_) _ s
  exact .of_contexts rfl rfl

theorem SavesKept.readPart (s : State) (ctx : Nat) (p : Part) (b : List Byte) : SavesKept s (s.readPart ctx p b) := by
  cases p with
  | context => exact .updCtx s ctx (readFields_keeps contextFields_keep b)
  | seed => exact .readSeeds s ctx b
  | dict core phys => exact .updCtx s ctx fun _ => ⟨rfl, rfl, rfl⟩
  | engine id => exact .readEngine s id b
  | other => exact .refl s
  | launch | gang | workgroup | pane | warp | lane | bin | reformed => exact .of_contexts rfl rfl

theorem SavesKept.regather (s old : State) (ctx : Nat) : SavesKept s (s.regather old ctx) := by
  unfold State.regather
  refine .foldl (fun u _ => ?_) _ s
  exact .of_contexts rfl rfl

/-- Blocks read one after another, each at its own place. -/
theorem SavesKept.foldlFst {α β : Type} {k : State × β → α → State × β} (hk : ∀ a b, SavesKept a.1 (k a b).1) (l : List α)
    (a : State × β) : SavesKept a.1 (l.foldl k a).1 := by
  induction l generalizing a with
  | nil => exact .refl a.1
  | cons b l ih => exact (hk a b).trans (ih _)

theorem SavesKept.readBlocks (s : State) (ctx phys : Nat) (bs : List Block) : SavesKept s (s.readBlocks ctx phys bs) := by
  unfold State.readBlocks
  refine .trans (.foldlFst (a := (s, phys)) (fun a b => ?_) bs) (.regather ..)
  dsimp only
  split
  · exact .readPart ..
  · exact .refl a.1

/-! ### The restore of a context -/

/-- A context that is resident again, with the command that waits for its restore. -/
def Context.restoredFor (cmd : Option Nat) (c : Context) : Context :=
  { c with resident := true, preq := false, saveCmds := c.saveCmds ++ cmd.toList }

theorem keepsId_restoredFor (cmd : Option Nat) : KeepsId (Context.restoredFor cmd) := fun _ => ⟨rfl, rfl⟩

/-- What CTXRS makes of its context. -/
theorem startRestore_spec {s : State} {n : Nat} {k : Context} (hk : s.ctx? n = some k) (cmd area : Option Nat) :
    (s.startRestore n cmd area).mem = s.mem
      ∧ ((s.startRestore n cmd area).ctx? n).map (fun q => (q.resident, q.preq, q.saveCmds)) = some (true, false, k.saveCmds ++ cmd.toList) := by
  obtain ⟨u, hu, he⟩ : ∃ u, SavesKept s u ∧ s.startRestore n cmd area
      = (u.updCtx n (Context.restoredFor cmd)).resumeCmds n := by
    unfold State.startRestore
    split
    · exact ⟨_, .readBlocks .., rfl⟩
    · exact ⟨_, .refl s, rfl⟩
  have hctx := hu.ctxs n
  rw [hk] at hctx
  obtain ⟨c, hc, hcmds⟩ := Option.map_eq_some_iff.mp hctx
  rw [he, ctx?_resumeCmds, ctx?_updCtx_same (keepsId_restoredFor cmd) hc]
  exact ⟨hu.mem, by simp only [Option.map_some, Context.restoredFor, hcmds]⟩

/-! ### CTXSV and CTXRS (R337) -/

/-- A save or a restore with nothing against it, by the first active lane of its issue. -/
theorem saveStep_exec {i : Instr} {f : Form} {save : Bool} {s : State} {x : Iss} {n : Nat} {area : DWord} {a : Act} {rest : List Act}
    (hc : CanIssue i f true s x) (hcons : s.actives x f = a :: rest)
    (hn : n = (s.onceValue x f f.a (sigOf i f).a).toNat % 2 ^ 32) (harea : area = s.onceValue x f f.b (sigOf i f).b)
    (hok : s.saveCause x n area.toNat (f.slotImm f.c).toNat save = none) (hquiet : ∀ a ∈ s.actives x f, s.quiet a.m.ref false = true) :
    saveStep i f save s =
      let u := s.startCommand x a.m.ref 6 (f.slotImm f.c).toNat
      .next ((if save then u.startSave n (some area) (some s.seq) else u.startRestore n (some s.seq) (some area.toNat)).endIssue x f []) := by
  have hact : s.actives x f ≠ [] := by simp [hcons]
  have hall : ((s.actives x f).all fun a => s.quiet a.m.ref false) = true := List.all_eq_true.mpr hquiet
  have hnone (sl : Slot) (o : Opnd) : ((s.reads x f (sigOf i f)).once x f (s.actives x f) sl o).getD 0 = s.onceValue x f sl o := by
    rw [reads_once]
    rfl
  rw [saveStep, onceStep_canIssue hc hact (hc.outside_of_forbidden hact)]
  simp only [hnone, ← hn, ← harea, hok, hall, Bool.not_true, Bool.false_eq_true, if_false]
  rw [hcons]

/-- A context whose save begins (R337, R389). -/
def Context.saving (clock : Nat) (area : DWord) (id : Nat) (k : Context) : Context :=
  { k with preqAt := if k.preq then k.preqAt else clock, preq := true, saveArea := some area, saveCmds := k.saveCmds ++ [id] }

theorem keepsId_saving (clock : Nat) (area : DWord) (id : Nat) : KeepsId (Context.saving clock area id) := fun _ => ⟨rfl, rfl⟩

theorem ctxsvCompletes {f : Form} {s : State} {x : Iss} {n : Nat} {v : Warp} {k : Context} (hc : CanIssue (.ctxsv f) f true s x)
    (hact : s.actives x f ≠ []) (hn : n = onceNat Form.a Sig.a .ctxsv s f x)
    (hok : s.saveCause x n (s.onceValue x f f.b (sigOf (.ctxsv f) f).b).toNat (f.slotImm f.c).toNat true = none)
    (hquiet : ∀ a ∈ s.actives x f, s.quiet a.m.ref false = true) (hv : s.warp? x.wg x.warp = some v) (hk : s.ctx? n = some k) :
    ∃ (t : State) (c : Command), exec (.ctxsv f) s = .next t ∧ t.cmds = s.cmds ++ [c] ∧ c.ctx = x.ctx ∧ c.creg = (f.slotImm f.c).toNat
      ∧ t.ctx? n = some (k.saving s.clock (s.onceValue x f f.b (sigOf (.ctxsv f) f).b) c.id)
      ∧ (t.warp? x.wg x.warp).map Warp.uregs
          = some (setNth v.uregs (56 + (f.slotImm f.c).toNat) (v.ureg (56 + (f.slotImm f.c).toNat) + 1))
      ∧ MovedOn x f s t ∧ t.mem = s.mem := by
  obtain ⟨a, rest, hcons, hwg, hwarp⟩ := hc.lead_home hact
  let area := s.onceValue x f f.b (sigOf (.ctxsv f) f).b
  let u := s.startCommand x a.m.ref 6 (f.slotImm f.c).toNat
  have hend := State.endIssue_plain (u.startSave n (some area) (some s.seq)) x f
  refine ⟨(u.startSave n (some area) (some s.seq)).endIssue x f [], s.ownCommand x a.m.ref 6 (f.slotImm f.c).toNat,
    saveStep_exec hc hcons hn rfl hok hquiet, ?_, rfl, rfl, ?_, ?_, fun m hm => ?_, ?_⟩
  · obtain ⟨_, _, _, _, ht⟩ := hend.groupsOnly
    rw [ht]
    rfl
  · exact (hend.ctx? n).trans (ctx?_updCtx_same (keepsId_saving s.clock area s.seq) (s := u) hk)
  · refine (hend.warps Warp.uregs (fun _ _ => rfl) (fun _ _ => rfl) x.wg x.warp).trans ?_
    rw [← hwg, ← hwarp]
    exact startCommand_uregs s x a.m.ref 6 (f.slotImm f.c).toNat (by rwa [hwg, hwarp])
  · refine (hend.movesOnly.moved m hm).trans (congrArg _ ?_)
    exact startCommand_lane? s x a.m.ref 6 (f.slotImm f.c).toNat m.ref
  · obtain ⟨_, _, _, _, ht⟩ := hend.groupsOnly
    rw [ht]
    rfl

theorem ctxrsCompletes {f : Form} {s : State} {x : Iss} {n : Nat} {k : Context} (hc : CanIssue (.ctxrs f) f true s x)
    (hact : s.actives x f ≠ []) (hn : n = onceNat Form.a Sig.a .ctxrs s f x)
    (hok : s.saveCause x n (s.onceValue x f f.b (sigOf (.ctxrs f) f).b).toNat (f.slotImm f.c).toNat false = none)
    (hquiet : ∀ a ∈ s.actives x f, s.quiet a.m.ref false = true) (hk : s.ctx? n = some k) :
    ∃ (t u : State) (c : Command), exec (.ctxrs f) s = .next t
      ∧ u.cmds = s.cmds ++ [c] ∧ c.ctx = x.ctx ∧ c.creg = (f.slotImm f.c).toNat ∧ u.ctx? n = some k
      ∧ (∃ wgs ctl cmds seq, u = { s with wgs := wgs, ctl := ctl, cmds := cmds, seq := seq })
      ∧ MovesOnly x f (u.startRestore n (some c.id) (some (s.onceValue x f f.b (sigOf (.ctxrs f) f).b).toNat)) t
      ∧ t.mem = s.mem
      ∧ (t.ctx? n).map (fun q => (q.resident, q.preq, q.saveCmds)) = some (true, false, k.saveCmds ++ [c.id]) := by
  obtain ⟨a, rest, hcons, -, -⟩ := hc.lead_home hact
  let u := s.startCommand x a.m.ref 6 (f.slotImm f.c).toNat
  let area := (s.onceValue x f f.b (sigOf (.ctxrs f) f).b).toNat
  have hend := State.endIssue_plain (u.startRestore n (some s.seq) (some area)) x f
  obtain ⟨hmem, hrestored⟩ := startRestore_spec (s := u) hk (some s.seq) (some area)
  refine ⟨(u.startRestore n (some s.seq) (some area)).endIssue x f [], u, s.ownCommand x a.m.ref 6 (f.slotImm f.c).toNat,
    saveStep_exec hc hcons hn rfl hok hquiet, rfl, rfl, rfl, hk, startCommand_frame s x a.m.ref 6 (f.slotImm f.c).toNat, hend.movesOnly, ?_, ?_⟩
  · obtain ⟨_, _, _, _, ht⟩ := hend.groupsOnly
    rw [ht]
    exact hmem
  · exact (congrArg _ (hend.ctx? n)).trans hrestored

theorem saveCommandsComplete : SaveCommandsComplete :=
  ⟨fun _ _ _ _ _ _ hc hact _ hn hok hquiet hv hk => ctxsvCompletes hc hact hn hok hquiet hv hk,
    fun _ _ _ _ _ _ hc hact _ hn hok hquiet _ hk => ctxrsCompletes hc hact hn hok hquiet hk⟩

end Sys2Proof.Machine
end

section
/-! SUPPORT. TLBI, DICTRD, LANEX, OSTAT and PARKR: a change that a group waits for, and the words of a per-lane read (R338 to R341,
R446). -/

namespace Sys2Proof.Machine

/-! ### TLBI (R338) -/

theorem tlbiTarget_eq (s : State) (f : Form) (x : Iss) : tlbiTarget s f x
    = s.tlbiRange f (onceNat Form.a Sig.a .tlbi s f x) (s.onceValue x f f.b (sigOf (.tlbi f) f).b).toNat (onceNat Form.c Sig.c .tlbi s f x) := by
  simp only [tlbiTarget, State.tlbiRange, Option.isNone_iff_eq_none, Bool.or_eq_true, decide_eq_true_eq]

/-- The group of TLBI waits for the change it entered. -/
def State.invalidating (s : State) (x : Iss) (f : Form) (r : Option Nat × Nat × Nat) : State :=
  ((s.enterChange r.1 r.2.1 r.2.2 [] false false).updLanes (x.members.map Member.ref) fun l => { l with npc := nextPc f x.pc }).setHold x.g
    (some (.change s.seq))

theorem tlbi_exec {f : Form} {s : State} {x : Iss} (hc : CanIssue (.tlbi f) f true s x) (hact : s.actives x f ≠ [])
    (halign : f.m2 = 0 → (s.onceValue x f f.b (sigOf (.tlbi f) f).b).toNat % 65536 = 0) :
    exec (.tlbi f) s = .next (match tlbiTarget s f x with | none => s.endIssue x f [] | some r => s.invalidating x f r) := by
  have hvalue (sl : Slot) (o : Opnd) : ((s.reads x f (sigOf (.tlbi f) f)).once x f (s.actives x f) sl o).getD 0 = s.onceValue x f sl o := by
    rw [reads_once]
    rfl
  have haligned : (f.m2 = 0 && (s.onceValue x f f.b (sigOf (.tlbi f) f).b).toNat % 65536 != 0) = false := by
    by_cases hm : f.m2 = 0
    · simp [halign hm]
    · rw [decide_eq_false hm, Bool.false_and]
  change execTlbi f s = _
  rw [execTlbi, onceStep_canIssue hc hact (hc.outside_of_forbidden hact), tlbiTarget_eq]
  simp only [hvalue, haligned, Bool.false_eq_true, if_false]
  rfl

theorem enterChange_ringOf (s : State) (ctx : Option Nat) (base size : Nat) (pages : List Page) (unmap apply : Bool) (g : GroupRef) :
    (s.enterChange ctx base size pages unmap apply).ringOf g = s.ringOf g := by
  cases g <;> rfl

theorem invalidationsComplete : InvalidationsComplete := by
  intro f s x hc hact halign
  have hexec := tlbi_exec hc hact halign
  refine ⟨fun hnone => ⟨_, hexec.trans (by rw [hnone]), (State.endIssue_plain s x f).movesOnly⟩, fun c b n hsome => ?_⟩
  let entered := s.enterChange c b n [] false false
  have hframe : GroupsOnly entered (s.invalidating x f (c, b, n)) := (GroupsOnly.updLanes ..).trans (Regroups.updGroup x _ x.g _).groupsOnly
  refine ⟨s.invalidating x f (c, b, n), { id := s.seq, ctx := c, base := b, size := n, pages := [], unmap := false, apply := false },
    hexec.trans (by rw [hsome]), ?_, rfl, rfl, rfl, rfl, ?_, fun m hm => ?_, ?_⟩
  · obtain ⟨_, _, _, _, ht⟩ := hframe
    rw [ht]
    rfl
  · refine holdOf_setHold ?_ (.change s.seq)
    rw [ringOf_updLanes, enterChange_ringOf]
    exact hc.inRing
  · rw [State.invalidating, State.setHold_lane?, State.lane?_updLanes, if_pos (List.mem_map_of_mem hm)]
    · rfl
    · exact fun _ => rfl
  · obtain ⟨wgs, ctl, cores, seq, ht⟩ := hframe
    rw [ht]
    exact ⟨wgs, ctl, cores, seq, _, rfl⟩

/-! ### DICTRD and LANEX (R339, R340) -/

section
variable {mk : Form → Instr} {read : State → Form → Iss → Args → Option (List Word)} {s : State} {f : Form} {x : Iss} {g : Sig}

/-- What a read gives an active lane. -/
def wordsRead (read : State → Form → Iss → Args → Option (List Word)) (s : State) (f : Form) (x : Iss) (g : Sig) (a : Act) :
    Option (List Word) := (s.argsOf x f g a).bind (read s f x)

theorem wordsValue_eq : wordsValue read s f x g = (s.actives x f).filterMap fun a => (wordsRead read s f x g a).map fun ws => ⟨a, ws, 0⟩ := by
  simp only [wordsValue, wordsRead, Option.map_bind]
  rfl

/-- As many results as active lanes: each lane has its words. -/
theorem wordsRead_isSome (h : (wordsValue read s f x g).length = (s.actives x f).length) :
    ∀ a ∈ s.actives x f, (wordsRead read s f x g a).isSome := by
  rw [wordsValue_eq] at h
  intro a ha
  simpa only [Option.isSome_map] using List.filterMap_length_eq_length.mp h a ha

theorem wordsValue_acts (h : ∀ a ∈ s.actives x f, (wordsRead read s f x g a).isSome) :
    (wordsValue read s f x g).map LaneRes.a = s.actives x f := by
  rw [wordsValue_eq, List.map_filterMap]
  refine (List.filterMap_congr fun a ha => ?_).trans List.filterMap_some
  obtain ⟨ws, hws⟩ := Option.isSome_iff_exists.mp (h a ha)
  rw [hws]
  rfl

/-- What a per-lane read answers where each active lane reads its words. -/
theorem readStep_words {k : Iss → Args → List Word ⊕ (Cause × BitVec 52)} (hc : CanIssue (mk f) f true s x)
    (hk : ∀ args ws, read s f x args = some ws → k x args = .inl ws)
    (hall : ∀ a ∈ s.actives x f, (wordsRead read s f x (sigOf (mk f) f) a).isSome) :
    readStep (mk f) f k s
      = .next (s.commitVec x f (sigOf (mk f) f) (s.actives x f) (wordsValue read s f x (sigOf (mk f) f)) []) := by
  have hlane : ∀ a ∈ s.actives x f, ∃ args ws, (s.reads x f (sigOf (mk f) f)).args f (sigOf (mk f) f) x.wbase a.m.pos a.lane = some args
      ∧ k x args = .inl ws ∧ wordsRead read s f x (sigOf (mk f) f) a = some ws := by
    intro a ha
    obtain ⟨ws, hws⟩ := Option.isSome_iff_exists.mp (hall a ha)
    obtain ⟨args, hargs, hread⟩ := Option.bind_eq_some_iff.mp hws
    exact ⟨args, ws, hargs, hk args ws hread, hws⟩
  simp only [readStep, front_canIssue hc, List.filterMap_map, wordsValue_eq]
  congr 2
  · refine List.filterMap_congr fun a ha => ?_
    obtain ⟨args, ws, hargs, hinl, hws⟩ := hlane a ha
    simp only [Function.comp, hargs, hinl, hws, Option.map_some]
  · refine List.filterMap_eq_nil_iff.mpr fun a ha => ?_
    obtain ⟨args, ws, hargs, hinl, -⟩ := hlane a ha
    simp only [Function.comp, hargs, hinl]

end

/-- A read of as many words as its destination has registers completes. -/
theorem wordsComplete {mk : Form → Instr} {read : State → Form → Iss → Args → Option (List Word)}
    {k : Form → State → Iss → Args → List Word ⊕ (Cause × BitVec 52)} {n : Nat} (hn : n ≤ 8)
    (hexec : ∀ f s, exec (mk f) s = readStep (mk f) f (k f s) s)
    (hk : ∀ {f s x args ws}, read s f x args = some ws → k f s x args = .inl ws)
    (hlen : ∀ {f s x args ws}, read s f x args = some ws → ws.length = n)
    (hwidth : ∀ f, (sigOf (mk f) f).d.width f.ty ≤ n) : WordsComplete mk read := by
  intro f s x hc ok _ hcount hdst
  have hall := wordsRead_isSome hcount
  have hregs : (dstRegs f (sigOf (mk f) f) x.wbase).length ≤ n := (dstRegs_le f _ x.wbase).trans (hwidth f)
  refine ⟨_, (hexec f s).trans (readStep_words hc (fun _ _ => hk) hall), State.commitVec_spec hc ok ⟨wordsValue_acts hall, fun r hr => ?_⟩
    (hcount ▸ hdst) (hregs.trans hn)⟩
  rw [wordsValue_eq] at hr
  obtain ⟨a, -, hr⟩ := List.mem_filterMap.mp hr
  obtain ⟨ws, hws, rfl⟩ := Option.map_eq_some_iff.mp hr
  obtain ⟨args, -, hread⟩ := Option.bind_eq_some_iff.mp hws
  exact hregs.trans (hlen hread).ge

/-- What DICTRD reads, or the cause it faults with. -/
def dictrdStep (f : Form) (s : State) (x : Iss) (args : Args) : List Word ⊕ (Cause × BitVec 52) :=
  match s.dictEntry x (f.b.cls = .none) (args.a.toNat % 2 ^ 32) (args.b.toNat % 2 ^ 32) with
  | .inl t => .inl ((List.range 4).map fun i => t.extractLsb' (32 * i) 32)
  | .inr c => .inr (c, 0)

theorem dictrdComplete : WordsComplete .dictrd dictrdWords := by
  refine wordsComplete (k := dictrdStep) (n := 4) (by decide) (fun _ _ => rfl) (fun {f s x args ws} h => ?_) (fun {f s x args ws} h => ?_)
    fun _ => le_refl 4
  · unfold dictrdWords at h
    unfold dictrdStep
    generalize s.dictEntry x (f.b.cls = .none) (args.a.toNat % 2 ^ 32) (args.b.toNat % 2 ^ 32) = r at h ⊢
    cases r with
    | inl t =>
      cases h
      rfl
    | inr c => cases h
  · unfold dictrdWords at h
    generalize s.dictEntry x (f.b.cls = .none) (args.a.toNat % 2 ^ 32) (args.b.toNat % 2 ^ 32) = r at h
    cases r with
    | inl t =>
      cases h
      rfl
    | inr c => cases h

/-- What LANEX reads, or the cause it faults with. -/
def lanexStep (_ : Form) (s : State) (x : Iss) (args : Args) : List Word ⊕ (Cause × BitVec 52) :=
  let a := args.a.toNat % 2 ^ 32
  if s.isControl x.wg then .inr (.illPriv, 0)
  else if a % 4 != 0 then .inr (.addrAlign, eaDetail a)
  else if 252 < a then .inr (.addrRange, eaDetail a)
  else match s.warp? x.wg (args.b.toNat % 2 ^ 32) with
  | none => .inr (.addrRange, eaDetail a)
  | some v => .inl [(((v.lanes[a / 8]?).map fun l : Lane => l.side.bits).getD 0).extractLsb' (8 * (a % 8)) 32]

theorem lanexComplete : WordsComplete .lanex lanexWords := by
  refine wordsComplete (k := lanexStep) (n := 1) (by decide) (fun _ _ => rfl) (fun h => ?_) (fun h => ?_) fun _ => le_refl 1
  · unfold lanexWords at h
    dsimp only at h
    split at h
    next hcond =>
      obtain ⟨hfour, hrange, hcontrol⟩ := hcond
      obtain ⟨v, hv, rfl⟩ := Option.map_eq_some_iff.mp h
      simp only [lanexStep, hcontrol, hfour, bne_self_eq_false, Bool.false_eq_true, if_false, if_neg (not_lt.mpr hrange), hv]
    next => cases h
  · unfold lanexWords at h
    dsimp only at h
    split at h
    next =>
      obtain ⟨v, -, rfl⟩ := Option.map_eq_some_iff.mp h
      rfl
    next => cases h

/-! ### OSTAT (R446) -/

theorem valWords_word (w : Word) : valWords 1 (w.setWidth 64) = [w] := by
  have h : (w.setWidth 64).extractLsb' 0 32 = w := by
    apply BitVec.eq_of_toNat_eq
    simp only [BitVec.extractLsb'_toNat, BitVec.toNat_setWidth, Nat.shiftRight_zero]
    omega
  rw [valWords, if_neg (by decide), h]

theorem ostatComplete : VectorCompletes .ostat true ostatValue := by
  intro f s x hc ok _ hd ha ht hdst
  have hwidth : (sigOf (.ostat f) f).d.width f.ty ≤ 2 := Opnd.width_le_two rfl f.ty
  have hvector := State.commit_vector hc ok hd (laneResults_ok ha hwidth) ht hdst (hwidth.trans (by decide))
  refine ⟨_, ?_, hvector⟩
  have hlane : ∀ a ∈ s.actives x f, ∃ v w, (s.reads x f (sigOf (.ostat f) f)).slot f x.wbase a.m.pos f.a (sigOf (.ostat f) f).a = some v
      ∧ s.ostat x.ctx (dieOf x.core) (v.extractLsb' 0 32) f.m2.toNat = some w := by
    intro a hact
    obtain ⟨val, hval⟩ := Option.isSome_iff_exists.mp (ha a hact)
    obtain ⟨v, hv, hw⟩ := Option.bind_eq_some_iff.mp hval
    obtain ⟨w, hw, -⟩ := Option.map_eq_some_iff.mp hw
    exact ⟨v, w, hv, hw⟩
  change execOstat f s = _
  simp only [execOstat, front_canIssue hc, State.laneResults]
  congr 2
  · refine List.filterMap_congr fun a hact => ?_
    obtain ⟨v, w, hv, hw⟩ := hlane a hact
    simp only [hv, hw, ostatValue, Option.map_some, Option.bind_some]
    exact congrArg some (congrArg (LaneRes.mk a · 0) (valWords_word w).symm)
  · refine List.filterMap_eq_nil_iff.mpr fun a hact => ?_
    obtain ⟨v, w, hv, hw⟩ := hlane a hact
    simp only [hv, hw, Option.map_some]

/-! ### PARKR (R341) -/

theorem parkrCompletes {f : Form} {s : State} {x : Iss} (hc : CanIssue (.parkr f) f true s x) (hact : s.actives x f ≠ [])
    (hrec : onceNat Form.a Sig.a .parkr s f x < 4096) :
    exec (.parkr f) s = .next ((parkrEffect s f x).1.commitPred x f (sigOf (.parkr f) f)
      ((s.actives x f).map fun a => ⟨a, [if (parkrEffect s f x).2 then 1 else 0], 0⟩) []) := by
  have heffect : s.parkRelease (onceNat Form.a Sig.a .parkr s f x) (f.m2 = 1) = parkrEffect s f x := rfl
  have hvalue : (((s.reads x f (sigOf (.parkr f) f)).once x f (s.actives x f) f.a (sigOf (.parkr f) f).a).getD 0).toNat % 2 ^ 32
      = onceNat Form.a Sig.a .parkr s f x := by
    rw [reads_once]
    rfl
  change execParkr f s = _
  rw [execParkr, onceStep_canIssue hc hact (hc.outside_of_forbidden hact)]
  simp only [hvalue, if_neg (not_le.mpr hrec), heffect]
  rfl

/-- Settles O28: saves and restores, a change that its group waits for, reads whose words stand in their lanes, and a record
released. -/
theorem privileged : Obligations.Privileged :=
  ⟨saveCommandsComplete, invalidationsComplete, dictrdComplete, lanexComplete, ostatComplete,
    fun _ _ _ hc hact hrec => parkrCompletes hc hact hrec⟩

end Sys2Proof.Machine
end

section
/-! SUPPORT. Branches, calls, returns, WINDOW and YIELD: one body for their lanes, and a move of the scheduler's entry before it, which
changes nothing but the order of groups (R81, R309 to R315, R323, R328). -/

namespace Sys2Proof.Machine

/-! ### Regrouping, and the same change of two states -/

theorem Regroups.symm {x : Iss} {s t : State} (h : Regroups x s t) : Regroups x t s := by
  refine ⟨?_, fun r => (h.lanes r).symm, fun id => ?_, fun wg w => ?_, fun v => ?_⟩
  · obtain ⟨_, _, _, _, rfl⟩ := h.package
    exact ⟨s.wgs, s.ctl, s.cores, s.seq, rfl⟩
  · have hid := h.workgroups id
    cases hs : s.wg? id with
    | none =>
      rw [hs] at hid
      rw [hid]
      rfl
    | some g =>
      rw [hs] at hid
      rw [hid]
      rfl
  · have hw := h.warps wg w
    cases hs : s.warp? wg w with
    | none =>
      rw [hs] at hw
      rw [hw]
      rfl
    | some v =>
      rw [hs] at hw
      rw [hw]
      rfl
  · rw [h.cores v]

/-- A change of a warp that has nothing to do with its ring. -/
def RingFree (k : Warp → Warp) : Prop :=
  ∀ (v : Warp) ring current, k { v with ring := ring, current := current } = { k v with ring := ring, current := current }

/-- States that differ in their groups alone still do after the same change of a warp. -/
theorem Regroups.updWarp_congr {x : Iss} {s t : State} (h : Regroups x s t) (wg w : Nat) {k : Warp → Warp} (hk : RingFree k) :
    Regroups x (s.updWarp wg w k) (t.updWarp wg w k) := by
  have hwarp : ∀ a b, (t.updWarp wg w k).warp? a b = ((s.updWarp wg w k).warp? a b).map fun v =>
      { v with ring := (((t.updWarp wg w k).warp? a b).getD v).ring, current := (((t.updWarp wg w k).warp? a b).getD v).current } := by
    intro a b
    have hab := h.warps a b
    rw [State.warp?_updWarp, State.warp?_updWarp]
    split
    · cases hs : s.warp? a b with
      | none =>
        rw [hs] at hab
        rw [hab]
        rfl
      | some v =>
        rw [hs] at hab
        rw [hab]
        simp only [Option.map_some, Option.getD_some]
        rw [hk]
    · exact hab
  refine ⟨?_, fun r => ?_, fun id => ?_, hwarp, h.cores⟩
  · obtain ⟨_, _, _, _, rfl⟩ := h.package
    exact ⟨_, _, _, _, rfl⟩
  · rw [State.lane?, State.lane?, hwarp]
    cases (s.updWarp wg w k).warp? r.wg r.warp <;> rfl
  · have hid := h.workgroups id
    rw [State.wg?_updWarp, State.wg?_updWarp]
    split
    · cases hs : s.wg? id with
      | none =>
        rw [hs] at hid
        rw [hid]
        rfl
      | some g =>
        rw [hs] at hid
        rw [hid]
        rfl
    · exact hid

theorem ringFree_lanes (k : List Lane → List Lane) : RingFree fun v => { v with lanes := k v.lanes } := fun _ _ _ => rfl

theorem Regroups.updLane_congr {x : Iss} {s t : State} (h : Regroups x s t) (r : LaneRef) (k : Lane → Lane) :
    Regroups x (s.updLane r k) (t.updLane r k) := h.updWarp_congr r.wg r.warp (ringFree_lanes fun ls => mapNth ls r.lane k)

theorem Regroups.foldl_congr {x : Iss} {α : Type} {k : State → α → State} (hk : ∀ a s t, Regroups x s t → Regroups x (k s a) (k t a))
    (l : List α) {s t : State} (h : Regroups x s t) : Regroups x (l.foldl k s) (l.foldl k t) := by
  induction l generalizing s t with
  | nil => exact h
  | cons a l ih => exact ih (hk a s t h)

theorem Regroups.setRows_congr {x : Iss} {s t : State} (h : Regroups x s t) (rows : List Row) :
    Regroups x (s.setRows x rows) (t.setRows x rows) := by
  unfold State.setRows
  cases x.g with
  | home wg w gid => exact h.updWarp_congr wg w fun _ _ _ => rfl
  | reformed core slot gid => exact (Regroups.updCore x s core _ fun _ => rfl).symm.trans (h.trans (.updCore x t core _ fun _ => rfl))

theorem Regroups.rowsOf_home {x : Iss} {s t : State} (h : Regroups x s t) {wg w gid : Nat} (hg : x.g = .home wg w gid) :
    t.rowsOf x = s.rowsOf x := by
  simp only [State.rowsOf, hg]
  rw [h.warps wg w]
  cases s.warp? wg w <;> rfl

/-! ### The lanes of an issue, changed one after another -/

/-- What a per-lane instruction whose lanes change only themselves makes of a state. -/
def State.updEach (s : State) (x : Iss) (e : Env) (f : Form) (g : Sig) (eff : Act → Args → Lane → Lane) (acts : List Act) : State :=
  acts.foldl (fun s a => match e.args f g x.wbase a.m.pos a.lane with
    | some args => s.updLane a.m.ref (eff a args)
    | none => s) s

section
variable {x : Iss} {e : Env} {f : Form} {g : Sig} {eff : Act → Args → Lane → Lane} {acts : List Act}

theorem eachLane_updEach {k : Act → Args → State → State × Done} (hk : ∀ a args u, k a args u = (u.updLane a.m.ref (eff a args), .ok))
    (hargs : ∀ a ∈ acts, (e.args f g x.wbase a.m.pos a.lane).isSome) (s : State) (t : Tally) :
    eachLane x e f g k acts s t = (s.updEach x e f g eff acts, t) := by
  induction acts generalizing s with
  | nil => rfl
  | cons a acts ih =>
    obtain ⟨args, ha⟩ := Option.isSome_iff_exists.mp (hargs a List.mem_cons_self)
    simp only [eachLane, State.updEach, List.foldl_cons, ha, hk]
    exact ih (fun b hb => hargs b (List.mem_cons_of_mem _ hb)) _

theorem Regroups.updEach_congr {s t : State} (h : Regroups x s t) : Regroups x (s.updEach x e f g eff acts) (t.updEach x e f g eff acts) := by
  refine Regroups.foldl_congr (fun a u w huw => ?_) acts h
  split
  · exact huw.updLane_congr _ _
  · exact huw

theorem updEach_kept (s : State) : (s.updEach x e f g eff acts).rowsOf x = s.rowsOf x ∧ (s.updEach x e f g eff acts).cores = s.cores := by
  unfold State.updEach
  induction acts generalizing s with
  | nil => exact ⟨rfl, rfl⟩
  | cons a acts ih =>
    rw [List.foldl_cons, (ih _).1, (ih _).2]
    split
    · exact ⟨s.updLane_rowsOf .., rfl⟩
    · exact ⟨rfl, rfl⟩
end

/-! ### A member of a reformed group -/

/-- A member stands in the group of its issue, which need not be the first of its number in the ring. -/
def StandsIn (s : State) (x : Iss) (m : LaneRef) : Prop :=
  ∀ core slot gid, x.g = .reformed core slot gid → ∃ r q, (s.core core).groups.find? (fun r => r.slot = slot) = some r
    ∧ q ∈ r.groups ∧ q.gid = gid ∧ ∃ p ∈ q.lanes, (r.lanes[p]?).getD none = some m

theorem GroupAt.standsIn {s : State} {x : Iss} (h : GroupAt s x) {m : Member} (hm : m ∈ x.members) : StandsIn s x m.ref := by
  intro core slot gid hg
  obtain ⟨r, q, hr, hq, hmembers⟩ := h core slot gid hg
  rw [hmembers] at hm
  obtain ⟨p, hp, hpos⟩ := List.mem_filterMap.mp hm
  obtain ⟨ref, href, rfl⟩ := Option.map_eq_some_iff.mp hpos
  exact ⟨r, q, hr, List.mem_of_find?_eq_some hq, by simpa using List.find?_some hq, p, hp, href⟩

theorem StandsIn.of_cores {s t : State} {x : Iss} {m : LaneRef} (h : StandsIn s x m) (hc : t.cores = s.cores) : StandsIn t x m := by
  intro core slot gid hg
  have hcore : t.core core = s.core core := by unfold State.core; rw [hc]
  rw [hcore]
  exact h core slot gid hg

/-- A change of a slot's reformed groups that keeps the lanes of each and of its groups. -/
theorem StandsIn.updSlot {s : State} {x : Iss} {m : LaneRef} (h : StandsIn s x m) {core slot gid : Nat} (hg : x.g = .reformed core slot gid)
    {k : Reformed → Reformed} (hslot : ∀ r, (k r).slot = r.slot) (hlanes : ∀ r, (k r).lanes = r.lanes)
    (hgroups : ∀ r, ∀ q ∈ r.groups, ∃ q' ∈ (k r).groups, q'.gid = q.gid ∧ q'.lanes = q.lanes) :
    StandsIn (s.updCore core fun c => { c with groups := mapIf (fun r => r.slot = slot) k c.groups }) x m := by
  intro core' slot' gid' hg'
  obtain ⟨rfl, rfl, rfl⟩ : core' = core ∧ slot' = slot ∧ gid' = gid := by simpa [hg, eq_comm] using hg'
  obtain ⟨r, q, hr, hq, hgid, p, hp, hm⟩ := h core' slot' gid' hg
  obtain ⟨q', hq', hgid', hlanes'⟩ := hgroups r q hq
  exact ⟨k r, q', (find?_updSlot s core' slot' k hslot).trans (congrArg _ hr), hq', hgid'.trans hgid, p, hlanes' ▸ hp, by rwa [hlanes]⟩

theorem StandsIn.setHold {s : State} {x : Iss} {m : LaneRef} (h : StandsIn s x m) (o : Option Hold) : StandsIn (s.setHold x.g o) x m := by
  cases hg : x.g with
  | home wg w gid => exact h.of_cores rfl
  | reformed core slot gid =>
    refine h.updSlot hg (fun _ => rfl) (fun _ => rfl) fun r q hq => ⟨_, List.mem_map_of_mem hq, ?_⟩
    split <;> exact ⟨rfl, rfl⟩

theorem StandsIn.settleReformed {s : State} {x : Iss} {m : LaneRef} (h : StandsIn s x m) {core slot gid : Nat}
    (hg : x.g = .reformed core slot gid) : StandsIn (s.settleReformed core slot) x m :=
  h.updSlot hg (fun _ => rfl) (fun _ => rfl) fun _ q hq => ⟨q, (mem_turnRing _ _ q).mpr hq, rfl, rfl⟩

theorem StandsIn.rotate {s : State} {x : Iss} {m : LaneRef} (h : StandsIn s x m) : StandsIn (s.rotate x.g) x m := by
  cases hg : x.g with
  | home wg w gid => exact h.of_cores rfl
  | reformed core slot gid =>
    refine StandsIn.settleReformed (h.updSlot hg (fun r => ?_) (fun r => ?_) fun r q hq => ⟨q, ?_, rfl, rfl⟩) hg
    · split <;> rfl
    · split <;> rfl
    · split
      · rw [List.mem_append, or_comm, ← List.mem_append, List.take_append_drop]
        exact hq
      · exact hq

theorem StandsIn.setRows {s : State} {x : Iss} {m : LaneRef} (h : StandsIn s x m) (rows : List Row) : StandsIn (s.setRows x rows) x m := by
  unfold State.setRows
  cases hg : x.g with
  | home wg w gid => exact h.of_cores rfl
  | reformed core slot gid => exact h.updSlot hg (fun _ => rfl) (fun _ => rfl) fun _ q hq => ⟨q, hq, rfl, rfl⟩

theorem StandsIn.rowsOf_setRows {s : State} {x : Iss} {m : LaneRef} (h : StandsIn s x m) {core slot gid : Nat}
    (hg : x.g = .reformed core slot gid) (rows : List Row) : (s.setRows x rows).rowsOf x = rows := by
  obtain ⟨r, -, hr, -⟩ := h core slot gid hg
  simp only [State.rowsOf, State.setRows, hg]
  rw [find?_updSlot, hr]
  · rfl
  · exact fun _ => rfl

/-- What is first among a list's elements is first among those that a filter keeps it with. -/
theorem find?_filter_of_find? {α : Type} {p q : α → Bool} {l : List α} {a : α} (h : l.find? p = some a) (ha : q a = true) :
    (l.filter q).find? p = some a := by
  rw [List.find?_filter]
  obtain ⟨hp, as, bs, rfl, has⟩ := List.find?_eq_some_iff_append.mp h
  refine List.find?_eq_some_iff_append.mpr ⟨by simp [hp, ha], as, bs, rfl, fun b hb => ?_⟩
  have hb' : p b = false := by simpa using has b hb
  simp [hb']

/-- A reformed group whose groups of a number are split (R80). -/
def Reformed.splitAt (s : State) (o : SplitOrder) (gid : Nat) (r : Reformed) : Reformed :=
  { r with groups := r.groups.flatMap fun q =>
      if q.gid = gid then splitGroup o (fun p => ((r.lanes[p]?).getD none).bind s.lane?) s.seq q else [q] }

/-- A reformed group with a member in its ring that is not EXITED, PARKED or BINNED keeps its slot, and with it its map, when it is
regrouped (R80, R93). -/
theorem StandsIn.rowsOf_regroup {s : State} {x : Iss} {m : LaneRef} (h : StandsIn s x m) (hm : (s.lane? m).any Lane.grouped = true)
    {core slot gid : Nat} (hg : x.g = .reformed core slot gid) (o : SplitOrder) : (s.regroup x.g o).rowsOf x = s.rowsOf x := by
  obtain ⟨r, q, hr, hq, hgid, p, hp, href⟩ := h core slot gid hg
  have hne : (r.splitAt s o gid).groups ≠ [] := fun e => by
    have hsplit := List.flatMap_eq_nil_iff.mp e q hq
    rw [if_pos hgid] at hsplit
    exact splitGroup_ne_nil o _ s.seq q ⟨p, hp, by rw [href]; exact hm⟩ hsplit
  have hfound : ((mapIf (fun r => r.slot = slot) (Reformed.splitAt s o gid) (s.core core).groups).filter fun r => r.groups != []).find?
      (fun r => r.slot = slot) = some (r.splitAt s o gid) := by
    refine find?_filter_of_find? ?_ (by simpa using hne)
    have hslot : r.slot = slot := by simpa using List.find?_some hr
    rw [mapIf_find? (fun r => r.slot = slot) (fun r => r.slot = slot) (Reformed.splitAt s o gid), hr, Option.map_some, if_pos (by simp [hslot])]
    exact fun _ _ => rfl
  rw [hg]
  refine (rowsOf_settleReformed (s.updCore core fun c => { c with groups :=
    (mapIf (fun r => r.slot = slot) (Reformed.splitAt s o gid) c.groups).filter fun r => r.groups != [] }) x hg).trans ?_
  simp only [State.rowsOf, hg]
  rw [State.core_updCore, if_pos rfl, hfound, hr]
  · rfl
  · exact fun _ => rfl

/-! ### A move of the entry before the lanes act (R81) -/

/-- The state after a per-lane instruction whose lanes change only themselves. -/
def State.laneDone (s : State) (x : Iss) (e : Env) (f : Form) (g : Sig) (hint : Hint) (eff : Act → Args → Lane → Lane) (acts : List Act) :
    State :=
  let u := (s.begun x f).updEach x e f g eff acts
  (u.setRows x (releaseLu f g x.wbase (u.rowsOf x))).regroup x.g ⟨hint, nextPc f x.pc⟩

theorem laneBody_done {s : State} {x : Iss} {e : Env} {f : Form} {g : Sig} {hint : Hint} {eff : Act → Args → Lane → Lane}
    {k : Act → Args → State → State × Done} (hk : ∀ a args u, k a args u = (u.updLane a.m.ref (eff a args), .ok))
    (hargs : ∀ a ∈ s.actives x f, (e.args f g x.wbase a.m.pos a.lane).isSome) :
    s.laneBody x e f g (s.actives x f) hint noWait k = (s.laneDone x e f g hint eff (s.actives x f), ⟨[], []⟩) :=
  (laneBody_unparked (eachLane_updEach hk hargs _ _)).trans (by rw [if_pos rfl]; rfl)

theorem begun_rowsOf (s : State) (x : Iss) (f : Form) : (s.begun x f).rowsOf x = s.rowsOf x :=
  (State.updLanes_rowsOf _ _ _ x).trans (s.setHold_rowsOf x.g none x)

/-- The members whose guard is true, and what they read, of states whose lanes are the same. -/
theorem actives_of_lanes {s t : State} (h : ∀ r, t.lane? r = s.lane? r) (x : Iss) (f : Form) : t.actives x f = s.actives x f := by
  simp only [State.actives, h]

theorem begun_regroups {s t : State} {x : Iss} (h : Regroups x s t) (f : Form) : Regroups x (s.begun x f) (t.begun x f) := by
  have hidle : t.idlers x f = s.idlers x f := by rw [State.idlers, State.idlers, actives_of_lanes h.lanes]
  rw [State.begun, State.begun, hidle]
  refine Regroups.foldl_congr (fun r _ _ huw => huw.updLane_congr r _) _ ?_
  exact (Regroups.updGroup x s x.g _).symm.trans (h.trans (.updGroup x t x.g _))

theorem laneDone_regroups {s t : State} {x : Iss} {e : Env} {f : Form} {g : Sig} {hint : Hint} {eff : Act → Args → Lane → Lane}
    {acts : List Act} (h : Regroups x s t) (hrows : t.rowsOf x = s.rowsOf x) :
    Regroups x (s.laneDone x e f g hint eff acts) (t.laneDone x e f g hint eff acts) := by
  have hsame : ((t.begun x f).updEach x e f g eff acts).rowsOf x = ((s.begun x f).updEach x e f g eff acts).rowsOf x := by
    rw [(updEach_kept _).1, (updEach_kept _).1, begun_rowsOf, begun_rowsOf, hrows]
  have hset := ((begun_regroups h f).updEach_congr (e := e) (f := f) (g := g) (eff := eff) (acts := acts)).setRows_congr
    (releaseLu f g x.wbase (((s.begun x f).updEach x e f g eff acts).rowsOf x))
  simp only [State.laneDone, hsame]
  exact (State.regroup_spec x _ _ _).symm.trans (hset.trans (State.regroup_spec x _ _ _))

/-- The map after such an instruction, where a member of its reformed group stays grouped. -/
theorem laneDone_rowsOf {s : State} {x : Iss} {e : Env} {f : Form} {g : Sig} {hint : Hint} {eff : Act → Args → Lane → Lane}
    {acts : List Act} {m : LaneRef} (h : StandsIn s x m) (hm : ((s.laneDone x e f g hint eff acts).lane? m).any Lane.grouped = true)
    {core slot gid : Nat} (hg : x.g = .reformed core slot gid) :
    (s.laneDone x e f g hint eff acts).rowsOf x = releaseLu f g x.wbase (s.rowsOf x) := by
  have hin : StandsIn ((s.begun x f).updEach x e f g eff acts) x m :=
    (h.setHold none).of_cores ((updEach_kept _).2.trans (State.updLanes_cores ..))
  rw [State.laneDone, (hin.setRows _).rowsOf_regroup (by simpa only [State.laneDone, State.regroup_lane?] using hm) hg,
    hin.rowsOf_setRows hg, (updEach_kept _).1, begun_rowsOf]

theorem laneDone_keepsMap {s t : State} {x : Iss} {e : Env} {f : Form} {g : Sig} {hint : Hint} {eff : Act → Args → Lane → Lane}
    {acts : List Act} {m : LaneRef} (h : Regroups x s t) (hrows : t.rowsOf x = s.rowsOf x) (hs : StandsIn s x m) (ht : StandsIn t x m)
    (hm : ((s.laneDone x e f g hint eff acts).lane? m).any Lane.grouped = true) :
    (t.laneDone x e f g hint eff acts).rowsOf x = (s.laneDone x e f g hint eff acts).rowsOf x := by
  have hdone := laneDone_regroups (e := e) (f := f) (g := g) (hint := hint) (eff := eff) (acts := acts) h hrows
  cases hg : x.g with
  | home wg w gid => exact hdone.rowsOf_home hg
  | reformed core slot gid => rw [laneDone_rowsOf hs hm hg, laneDone_rowsOf ht (by rwa [hdone.lanes]) hg, hrows]

/-- The body of a per-lane instruction after a move of the scheduler's entry: lanes, maps and frame are as without it. -/
theorem laneBody_rotated {i : Instr} {f : Form} {forbidden : Bool} {s : State} {x : Iss} (hint : Hint)
    {k : Act → Args → State → State × Done} {eff : Act → Args → Lane → Lane}
    (hk : ∀ a args u, k a args u = (u.updLane a.m.ref (eff a args), .ok)) (hc : CanIssue i f forbidden s x) (ok : IssueOk s x)
    (hst : ∀ a args l, l.st = .issuing → (eff a args l).grouped = true)
    (hargs : ∀ a ∈ s.actives x f, (s.argsOf x f (sigOf i f) a).isSome) :
    ∃ t, (s.rotate x.g).laneBody x (s.reads x f (sigOf i f)) f (sigOf i f) (s.actives x f) hint noWait k = (t, ⟨[], []⟩)
      ∧ (∀ a ∈ s.actives x f, ∀ args, s.argsOf x f (sigOf i f) a = some args → t.lane? a.m.ref = some (eff a args a.lane))
      ∧ (∀ m ∈ x.members, m ∉ (s.actives x f).map Act.m → t.lane? m.ref = (s.lane? m.ref).map fun l => { l with pc := nextPc f x.pc })
      ∧ ControlFrame x f (sigOf i f) s t := by
  obtain ⟨u, hbody, hlanes, hidle, hframe⟩ := State.laneBody_spec hint noWait k eff hc ok hst fun a ha => by
    obtain ⟨args, hargs⟩ := Option.isSome_iff_exists.mp (hargs a ha)
    exact ⟨args, hargs, rfl, fun u _ => hk a args u⟩
  obtain rfl : s.laneDone x (s.reads x f (sigOf i f)) f (sigOf i f) hint eff (s.actives x f) = u := by
    rw [laneBody_done hk hargs] at hbody
    exact congrArg Prod.fst hbody
  have hturn := Regroups.rotate x s x.g
  have hacts := actives_of_lanes hturn.lanes x f
  have hdone := laneDone_regroups (e := s.reads x f (sigOf i f)) (f := f) (g := sigOf i f) (hint := hint) (eff := eff) (acts := s.actives x f)
    hturn (rowsOf_rotate s x)
  obtain ⟨m, hm⟩ := List.exists_mem_of_ne_nil _ hc.nonempty
  have hgrouped : ((s.laneDone x (s.reads x f (sigOf i f)) f (sigOf i f) hint eff (s.actives x f)).lane? m.ref).any Lane.grouped = true := by
    obtain ⟨l, hl, hissuing⟩ := ok.live m hm
    by_cases hact : m ∈ (s.actives x f).map Act.m
    · obtain ⟨a, ha, rfl⟩ := List.mem_map.mp hact
      obtain ⟨args, hargs⟩ := Option.isSome_iff_exists.mp (hargs a ha)
      obtain rfl : l = a.lane := Option.some.inj (hl.symm.trans (mem_actives ha).2.1)
      rw [hlanes a ha args hargs]
      exact hst a args a.lane hissuing
    · rw [hidle m hm hact, hl]
      simp [Lane.grouped, hissuing]
  have hstands := hc.groupAt.standsIn hm
  refine ⟨_, ?_, fun a ha args hargs => (hdone.lanes _).trans (hlanes a ha args hargs), fun m hm hno => (hdone.lanes _).trans (hidle m hm hno),
    hframe.regroups hdone (laneDone_keepsMap hturn (rowsOf_rotate s x) hstands hstands.rotate hgrouped)⟩
  have hbody' := laneBody_done (s := s.rotate x.g) (x := x) (e := s.reads x f (sigOf i f)) (f := f) (g := sigOf i f) (hint := hint) hk
    (by rwa [hacts])
  rwa [hacts] at hbody'

/-! ### Branches (R309, R310) -/

theorem branchStep_eq {i : Instr} {f : Form} {s : State} {x : Iss} (hc : CanIssue i f false s x) (target : Iss → Args → Word) :
    ∃ u : State, (u = s ∨ u = s.rotate x.g) ∧ branchStep i f target s = .next (State.laneEnd (u.laneBody x (s.reads x f (sigOf i f)) f
      (sigOf i f) (s.actives x f) f.hint noWait fun a args s => (s.moveLanes [a.m.ref] (target x args), .ok)) []) := by
  simp only [branchStep, front_canIssue hc]
  split
  · exact ⟨_, .inr rfl, rfl⟩
  · exact ⟨_, .inl rfl, rfl⟩

theorem laneEnd_plain (t : State) : State.laneEnd (t, ⟨[], []⟩) [] = t := rfl

theorem branchCompletes {mk : Form → Instr} {target : Form → Iss → Args → Word}
    (hexec : ∀ {f s x}, CanIssue (mk f) f false s x → exec (mk f) s = branchStep (mk f) f (target f) s) :
    LanesComplete mk false noCondition (fun _ f x _ args l => { l with pc := target f x args }) := by
  intro f s x hc ok hargs
  let eff (_ : Act) (args : Args) (l : Lane) : Lane := { l with pc := target f x args }
  have hst : ∀ a args l, l.st = .issuing → (eff a args l).grouped = true := fun _ _ l hl => by simp only [eff, Lane.grouped, hl]
  obtain ⟨u, hu, he⟩ := branchStep_eq hc (target f)
  have hbody : ∃ t, u.laneBody x (s.reads x f (sigOf (mk f) f)) f (sigOf (mk f) f) (s.actives x f) f.hint noWait
        (fun a args s => (s.moveLanes [a.m.ref] (target f x args), .ok)) = (t, ⟨[], []⟩)
      ∧ (∀ a ∈ s.actives x f, ∀ args, s.argsOf x f (sigOf (mk f) f) a = some args → t.lane? a.m.ref = some (eff a args a.lane))
      ∧ (∀ m ∈ x.members, m ∉ (s.actives x f).map Act.m → t.lane? m.ref = (s.lane? m.ref).map fun l => { l with pc := nextPc f x.pc })
      ∧ ControlFrame x f (sigOf (mk f) f) s t := by
    rcases hu with rfl | rfl
    · refine State.laneBody_spec f.hint noWait _ eff hc ok hst fun a ha => ?_
      obtain ⟨args, hargs, -⟩ := hargs a ha
      exact ⟨args, hargs, rfl, fun _ _ => rfl⟩
    · refine laneBody_rotated (eff := eff) f.hint (fun _ _ _ => rfl) hc ok hst fun a ha => ?_
      obtain ⟨args, hargs, -⟩ := hargs a ha
      exact Option.isSome_iff_exists.mpr ⟨args, hargs⟩
  obtain ⟨t, hbody, hrest⟩ := hbody
  exact ⟨t, by rw [hexec hc, he, hbody, laneEnd_plain], hrest⟩

theorem braBody_group {i : Instr} {f : Form} {s : State} {x : Iss} (hc : CanIssue i f false s x) :
    braBody i f s = branchStep i f (fun x args => relTarget f x.pc args.a) s := by
  simp only [braBody, hc.cur]

theorem branchesComplete : BranchesComplete :=
  ⟨branchCompletes (target := relative) braBody_group, branchCompletes (target := relative) braBody_group,
    branchCompletes (target := absolute) fun _ => rfl⟩

/-! ### The other transfers -/

/-- A per-lane instruction completes where, in each active lane, it translates nothing and changes its own lane alone, by `own`. -/
theorem lanesComplete {mk : Form → Instr} {forbidden : Bool} {given : State → Form → Iss → Act → Args → Prop} {eff : LaneEffect}
    {hint : Form → Hint} {wait : Form → Iss → Act → Args → State → Option Nat} {k : Form → Iss → Act → Args → State → State × Done}
    (own : State → Form → Iss → Act → Args → Lane → Lane)
    (hexec : ∀ {f s x}, CanIssue (mk f) f forbidden s x → exec (mk f) s = .next (State.laneEnd (s.laneBody x (s.reads x f (sigOf (mk f) f)) f
      (sigOf (mk f) f) (s.actives x f) (hint f) (wait f x) (k f x)) []))
    (hgrouped : ∀ s f x a args l, l.st = .issuing → (own s f x a args l).grouped = true)
    (hown : ∀ s f x a args, own s f x a args a.lane = eff s f x a args a.lane)
    (hwait : ∀ {s f x a args}, given s f x a args → wait f x a args s = none)
    (hk : ∀ {s f x a args}, given s f x a args → ∀ u : State, (∃ wgs ctl cores, u = { s with wgs := wgs, ctl := ctl, cores := cores }) →
      k f x a args u = (u.updLane a.m.ref (own s f x a args), .ok)) : LanesComplete mk forbidden given eff := by
  intro f s x hc ok hargs
  obtain ⟨t, hbody, hlanes, hrest⟩ := State.laneBody_spec (hint f) (wait f x) (k f x) (own s f x) hc ok (hgrouped s f x) fun a ha => by
    obtain ⟨args, hargs, hgiven⟩ := hargs a ha
    exact ⟨args, hargs, hwait hgiven, hk hgiven⟩
  exact ⟨t, by rw [hexec hc, hbody, laneEnd_plain], fun a ha args hargs => (hlanes a ha args hargs).trans (congrArg some (hown s f x a args)),
    hrest⟩

theorem callStep_group {i : Instr} {f : Form} {s : State} {x : Iss} (hc : CanIssue i f false s x) (target : Iss → Args → Word) :
    callStep i f target s = .next (State.laneEnd (s.laneBody x (s.reads x f (sigOf i f)) f (sigOf i f) (s.actives x f) f.hint (callWait x)
      (callLane f target x)) []) := by
  simp only [callStep, front_canIssue hc]

/-- A lane that has entered a call (R314). -/
def called (target : Form → Iss → Args → Word) (_ : State) (f : Form) (x : Iss) (a : Act) (args : Args) (l : Lane) : Lane :=
  { l with
    stack := ⟨nextPc f x.pc, l.wbase⟩ :: a.lane.stack, spilled := a.lane.spilled
    wbase := a.lane.wbase + 8 * args.b.toNat, pc := target f x args }

theorem callWait_fits {s : State} {f : Form} {x : Iss} {a : Act} {args : Args} (h : callFits s f x a args) : callWait x a args s = none := by
  obtain ⟨hroom, -, -⟩ := h
  have hspills : s.spills a = false := by simp [State.spills, hroom.ne]
  simp [callWait, hspills]

theorem callLane_fits {s : State} {f : Form} {x : Iss} {a : Act} {args : Args} (h : callFits s f x a args)
    (target : Form → Iss → Args → Word) (u : State) :
    callLane f (target f) x a args u = (u.updLane a.m.ref (called target s f x a args), .ok) := by
  obtain ⟨hroom, hwindow, hbin⟩ := h
  have hfree : (x.carried.isSome && args.b.toNat != 0) = false := by
    rcases hbin with hb | hb <;> simp [hb]
  simp only [callLane, hfree, Bool.false_eq_true, if_false, if_neg (not_lt.mpr hwindow), if_pos hroom]
  rfl

theorem callCompletes {mk : Form → Instr} {target : Form → Iss → Args → Word}
    (hexec : ∀ f s, exec (mk f) s = callStep (mk f) f (target f) s) : LanesComplete mk false callFits (callEffect target) :=
  lanesComplete (called target) (fun hc => (hexec _ _).trans (callStep_group hc _))
    (fun _ _ _ _ _ l hl => by simp only [called, Lane.grouped, hl]) (fun _ _ _ _ _ => rfl) callWait_fits
    fun h u _ => callLane_fits h target u

theorem callsComplete : CallsComplete := ⟨callCompletes fun _ _ => rfl, callCompletes fun _ _ => rfl⟩

/-- A lane that has returned to the frame on top of its stack (R315). -/
def returned (_ : State) (_ : Form) (_ : Iss) (a : Act) (_ : Args) (l : Lane) : Lane :=
  { l with
    stack := a.lane.stack.drop 1, spilled := a.lane.spilled
    wbase := (a.lane.stack.headD ⟨0, 0⟩).rwb, pc := (a.lane.stack.headD ⟨0, 0⟩).rpc }

theorem retLane_fits {s : State} {f : Form} {x : Iss} {a : Act} {args : Args} (h : returnFits s f x a args) (u : State) :
    retLane x a args u = (u.updLane a.m.ref (returned s f x a args), .ok) := by
  obtain ⟨q, rest, hstack, hwindow, hbin⟩ := h
  have hsame : (x.carried.isSome && q.rwb != a.lane.wbase) = false := by
    rcases hbin with hb | hb <;> simp [hb]
  have hown : returned s f x a args = fun l => { l with stack := rest, spilled := a.lane.spilled, wbase := q.rwb, pc := q.rpc } := by
    funext l
    simp only [returned, hstack]
    rfl
  simp only [retLane, hstack, retTo, if_neg (not_lt.mpr hwindow), hsame, Bool.false_eq_true, if_false, hown]

theorem retWait_fits {s : State} {f : Form} {x : Iss} {a : Act} {args : Args} (h : returnFits s f x a args) : retWait x a args s = none := by
  obtain ⟨q, rest, hstack, -, -⟩ := h
  simp [retWait, hstack]

theorem ret_group {f : Form} {s : State} {x : Iss} (hc : CanIssue (.ret f) f false s x) : exec (.ret f) s
    = .next (State.laneEnd (s.laneBody x (s.reads x f (sigOf (.ret f) f)) f (sigOf (.ret f) f) (s.actives x f) f.hint (retWait x) (retLane x))
      []) := by
  change execRet f s = _
  simp only [execRet, front_canIssue hc]

theorem returnsComplete : ReturnsComplete :=
  lanesComplete (wait := fun _ => retWait) (k := fun _ => retLane) returned ret_group
    (fun _ _ _ _ _ l hl => by simp only [returned, Lane.grouped, hl]) (fun _ _ _ _ _ => rfl) retWait_fits fun h u _ => retLane_fits h u

theorem laneStep_group {i : Instr} {f : Form} {forbidden : Bool} {s : State} {x : Iss} (hc : CanIssue i f forbidden s x) (hint : Hint)
    (k : Iss → Act → Args → State → State × Done) :
    laneStep i f forbidden hint k s = .next (State.laneEnd (s.laneBody x (s.reads x f (sigOf i f)) f (sigOf i f) (s.actives x f) hint noWait
      (k x)) []) := by
  simp only [laneStep, front_canIssue hc]

/-- A lane whose window has moved (R323). -/
def windowed (_ : State) (f : Form) (x : Iss) (a : Act) (args : Args) (l : Lane) : Lane :=
  { l with wbase := (windowBase f a args).toNat, pc := nextPc f x.pc }

theorem mapNth_mapNth {α : Type} (l : List α) (n : Nat) (k m : α → α) : mapNth (mapNth l n k) n m = mapNth l n (m ∘ k) := by
  refine List.ext_getElem? fun i => ?_
  simp only [mapNth_getElem?]
  split <;> simp

theorem mapIf_mapIf {α : Type} {p : α → Bool} {k : α → α} (m : α → α) (l : List α) (hp : ∀ a, p (k a) = p a) :
    mapIf p m (mapIf p k l) = mapIf p (m ∘ k) l := by
  simp only [mapIf, List.map_map]
  refine List.map_congr_left fun a _ => ?_
  cases ha : p a <;> simp [hp, ha]

theorem updWg_updWg (s : State) (id : Nat) {k : Workgroup → Workgroup} (m : Workgroup → Workgroup) (hk : ∀ g, (k g).id = g.id) :
    (s.updWg id k).updWg id m = s.updWg id (m ∘ k) := by
  have hboth : ∀ l : List Workgroup, mapIf (fun g => g.id = id) m (mapIf (fun g => g.id = id) k l) = mapIf (fun g => g.id = id) (m ∘ k) l :=
    fun l => mapIf_mapIf m l fun g => by rw [hk]
  simp only [State.updWg, hboth]

theorem updWarp_updWarp (s : State) (wg w : Nat) (k m : Warp → Warp) : (s.updWarp wg w k).updWarp wg w m = s.updWarp wg w (m ∘ k) := by
  refine (updWg_updWg s wg (k := fun g => { g with warps := mapNth g.warps w k }) _ fun _ => rfl).trans
    (congrArg (s.updWg wg) (funext fun g => ?_))
  exact congrArg (fun ws => { g with warps := ws }) (mapNth_mapNth g.warps w k m)

theorem updLane_updLane (s : State) (r : LaneRef) (k m : Lane → Lane) : (s.updLane r k).updLane r m = s.updLane r (m ∘ k) := by
  refine (updWarp_updWarp s r.wg r.warp _ _).trans (congrArg (s.updWarp r.wg r.warp) (funext fun v => ?_))
  exact congrArg (fun ls => { v with lanes := ls }) (mapNth_mapNth v.lanes r.lane k m)

/-- WINDOW in a lane, with its move to the next PC. -/
def windowMove (f : Form) (x : Iss) (a : Act) (args : Args) (s : State) : State × Done :=
  match windowLane f a args s with
  | (t, .ok) => (t.moveLanes [a.m.ref] (nextPc f x.pc), .ok)
  | r => r

theorem windowMove_fits {s : State} {f : Form} {x : Iss} {a : Act} {args : Args} (h : 0 ≤ windowBase f a args ∧ windowBase f a args ≤ 392)
    (u : State) : windowMove f x a args u = (u.updLane a.m.ref (windowed s f x a args), .ok) := by
  have hbase : (if f.m2 = 0 then 8 * (args.a.extractLsb' 0 32).toInt else (a.lane.wbase : Int) + 8 * (args.a.extractLsb' 0 32).toInt)
      = windowBase f a args := by
    unfold windowBase
    split
    · rw [zero_add]
    · rfl
  have hlane : windowLane f a args u = (u.updLane a.m.ref fun l => { l with wbase := (windowBase f a args).toNat }, .ok) := by
    unfold windowLane
    simp only [hbase]
    rw [if_neg (by simp [not_lt.mpr h.1, not_lt.mpr h.2])]
  rw [windowMove, hlane]
  exact congrArg (·, Done.ok) (updLane_updLane u a.m.ref _ _)

theorem windowsComplete : WindowsComplete :=
  lanesComplete (k := windowMove) windowed (fun hc => laneStep_group hc .none _)
    (fun _ _ _ _ _ l hl => by simp only [windowed, Lane.grouped, hl]) (fun _ _ _ _ _ => rfl) (fun _ => rfl)
    fun h u _ => windowMove_fits h u

/-- A lane that has executed YIELD (R328). -/
def yielded (s : State) (f : Form) (x : Iss) (_ : Act) (_ : Args) (l : Lane) : Lane :=
  if (s.ctx? x.ctx).any Context.preq then { l with st := .waiting .yielded, pc := nextPc f x.pc, npc := nextPc f x.pc }
  else { l with pc := nextPc f x.pc }

theorem yieldLane_eq (f : Form) (x : Iss) (a : Act) (args : Args) (s u : State) (h : u.ctx? x.ctx = s.ctx? x.ctx) :
    yieldLane f x a args u = (u.updLane a.m.ref (yielded s f x a args), .ok) := by
  unfold yieldLane
  rw [h]
  by_cases hpreq : (s.ctx? x.ctx).any Context.preq = true
  · have hown : yielded s f x a args = fun l => { l with st := .waiting .yielded, pc := nextPc f x.pc, npc := nextPc f x.pc } :=
      funext fun l => if_pos hpreq
    rw [if_pos hpreq, hown]
  · have hown : yielded s f x a args = fun l => { l with pc := nextPc f x.pc } := funext fun l => if_neg hpreq
    rw [if_neg hpreq, hown]
    rfl

theorem yieldsComplete : YieldsComplete :=
  lanesComplete (k := yieldLane) yielded (fun hc => laneStep_group hc .none _)
    (fun s f x a args l hl => by
      unfold yielded
      split
      · rfl
      · simp only [Lane.grouped, hl])
    (fun _ _ _ _ _ => rfl) (fun _ => rfl) fun {s f x a args} _ u hu => by
      obtain ⟨_, _, _, rfl⟩ := hu
      exact yieldLane_eq f x a args s _ rfl

theorem nopComplete : NopComplete := by
  intro f s x hc
  refine ⟨s.endIssue x f [], ?_, (State.endIssue_plain s x f).movesOnly⟩
  change execNop f s = _
  simp only [execNop, hc.cur, front_canIssue hc]

/-- Settles O8: branches, calls, returns, WINDOW and YIELD each change only the lanes they act for, in one body that keeps everything
else, and a backward branch only moves the entry first; NOP is the plain end of its issue. -/
theorem transfers : Obligations.Transfers :=
  ⟨branchesComplete, callsComplete, returnsComplete, windowsComplete, yieldsComplete, nopComplete⟩

end Sys2Proof.Machine
end

section
/-! SUPPORT. Matrix instructions that act at once: the course they share where no full round holds them up, and TMOV, TSCL, TCVT, TLDT
and TSTT, whose issues each end from the state of their effect (R344, R349, R364 to R368). -/

namespace Sys2Proof.Machine

/-! ### The course of a matrix instruction (R344, R349) -/

/-- No instruction is held that uses nothing of a full round. -/
theorem matHeld_free {i : Instr} {f : Form} {forbidden : Bool} {s : State} {x : Iss} {uses : List (MatRes × Bool)}
    (h : CanIssue i f forbidden s x) (hfree : s.matStalls x uses = false) : s.matHeld i f uses = none := by
  rw [State.matHeld, h.issue, Option.filter_some, if_neg (by simp [hfree])]

/-- A matrix instruction that no full round holds up acts once for its issue. -/
theorem matStep_acts {i : Instr} {f : Form} {s : State} {x : Iss} {uses : List (MatRes × Bool)} (h : CanIssue i f true s x)
    (hact : s.actives x f ≠ []) (hfree : s.matStalls x uses = false) (k : Iss → Env → Sig → List Act → State → State)
    (idle : Iss → Sig → State → State) :
    matStep i f uses k s idle = .next (k x (s.reads x f (sigOf i f)) (sigOf i f) (s.actives x f) s) := by
  rw [matStep, matHeld_free h hfree]
  exact onceStep_canIssue h hact (h.outside_of_forbidden hact) k idle

/-- One that no lane acts on ends as it does where every guard is false. -/
theorem matStep_idle {i : Instr} {f : Form} {s : State} {x : Iss} {uses : List (MatRes × Bool)} (h : CanIssue i f true s x)
    (hact : s.actives x f = []) (hfree : s.matStalls x uses = false) (k : Iss → Env → Sig → List Act → State → State)
    (idle : Iss → Sig → State → State) : matStep i f uses k s idle = .next (idle x (sigOf i f) s) := by
  rw [matStep, matHeld_free h hfree]
  simp only [onceStep, front_canIssue h, hact, if_true]

/-- An instruction that ends its issue, without faults, from the state of its effect completes. -/
theorem onceCompletes_of_exec {mk : Form → Instr} {forbidden : Bool} {given : State → Form → Iss → Prop} {effect : State → Form → Iss → State}
    (h : ∀ f s x, CanIssue (mk f) f forbidden s x → s.actives x f ≠ [] → given s f x →
      exec (mk f) s = .next ((effect s f x).endIssue x f [])) : OnceCompletes mk forbidden given effect :=
  fun f s x hc hact _ hgiven => ⟨_, h f s x hc hact hgiven, ((effect s f x).endIssue_plain x f).movesOnly⟩

/-! ### TMOV and TSCL (R365, R366) -/

theorem tmov_exec {f : Form} {s : State} {x : Iss} (hc : CanIssue (.tmov f) f true s x) (hact : s.actives x f ≠ [])
    (hfree : matrixFree (fun f => [(.tile (slotNum f f.d), true), (.tile (slotNum f f.a), false)]) s f x) :
    exec (.tmov f) s = .next ((tmovEffect s f x).endIssue x f []) :=
  matStep_acts hc hact hfree _ _

/-- TSCL: the side file holds the scale codes (R366). -/
def tsclEffect (s : State) (f : Form) (x : Iss) : State :=
  s.updPane x.wg x.pane fun p =>
    { p with sides := setNth p.sides (slotNum f f.d)
               (cellsOf ((List.range 64).map fun i => BitVec.ofNat 8 (tsclCode s f x i).toNat)) }

theorem tscl_exec {f : Form} {s : State} {x : Iss} (hc : CanIssue (.tscl f) f true s x) (hact : s.actives x f ≠ [])
    (hfree : matrixFree (fun f => [(.tile (slotNum f f.d), true)]) s f x)
    (hlegal : ∀ i, i < 64 → 0 ≤ tsclCode s f x i ∧ tsclCode s f x i ≤ 254) :
    exec (.tscl f) s = .next ((tsclEffect s f x).endIssue x f []) := by
  have hscales : ((List.range 64).map (tsclCode s f x)).any (fun k => decide (k < 0) || decide (254 < k)) = false := by
    refine List.any_eq_false.mpr fun k hk => ?_
    obtain ⟨i, hi, rfl⟩ := List.mem_map.mp hk
    obtain ⟨hlow, hhigh⟩ := hlegal i (List.mem_range.mp hi)
    simp [not_lt.mpr hlow, not_lt.mpr hhigh]
  refine (matStep_acts hc hact hfree _ _).trans (congrArg Host.Outcome.next ?_)
  simp only [reads_once]
  refine (if_neg (ne_true_of_eq_false hscales)).trans ?_
  rw [List.map_map]
  rfl

/-! ### TCVT (R367, R368) -/

/-- The generator of a warp has no part in which flags trap. -/
theorem fpTrap_setSeed (s : State) (x : Iss) (v : Word) (rs : List LaneRes) : (s.setSeed x v).fpTrap rs = s.fpTrap rs := by
  have henabled : ∀ r, (s.setSeed x v).enabled r = s.enabled r := fun r => by
    rw [State.enabled, State.enabled, State.setSeed, State.warp?_updWarp]
    split
    · cases s.warp? r.wg r.warp <;> rfl
    · rfl
  simp only [State.fpTrap, henabled]

/-- TCVT: the generator as the rows left it, the flags of every element, and the tile of the converted rows (R60, R69, R368). -/
def tcvtEffect (s : State) (f : Form) (x : Iss) : State :=
  ((s.setSeed x (tcvtOut s f x).2).addAllFlags (tcvtFlags s f x)).updPane x.wg x.pane fun p =>
    { p with tiles := setNth p.tiles (slotNum f f.d) (tileOf ((tcvtOut s f x).1.map Prod.fst)) }

theorem tcvt_exec {f : Form} {s : State} {x : Iss} (hc : CanIssue (.tcvt f) f true s x) (hact : s.actives x f ≠ [])
    (hfree : matrixFree (fun f => [(.tile (slotNum f f.d), true), (.tile (slotNum f f.a), false)]) s f x)
    (hscale : ∀ r, r < 64 → tcvtScale s f x r ≠ 255) (htrap : s.fpTrap (tcvtFlags s f x) = none) :
    exec (.tcvt f) s = .next ((tcvtEffect s f x).endIssue x f []) := by
  have hscales : (List.range 64).any (fun r => decide (tcvtScale s f x r = 255)) = false :=
    List.any_eq_false.mpr fun r hr => by simp [hscale r (List.mem_range.mp hr)]
  have hquiet : (s.setSeed x (tcvtOut s f x).2).fpTrap (tcvtFlags s f x) = none := (fpTrap_setSeed ..).trans htrap
  refine (matStep_acts hc hact hfree _ _).trans (congrArg Host.Outcome.next ((if_neg (ne_true_of_eq_false hscales)).trans ?_))
  change (match (s.setSeed x (tcvtOut s f x).2).fpTrap (tcvtFlags s f x) with | some c => _ | none => _) = _
  rw [hquiet]
  rfl

/-! ### TLDT and TSTT (R364) -/

/-- An address and a row distance that are multiples of a size pass the test of alignment. -/
theorem not_misaligned {a b n : Nat} (ha : a % n = 0) (hb : b % n = 0) : ¬(a % n != 0 || b % n != 0) = true := by
  simp [ha, hb]

theorem tldt_exec {f : Form} {s : State} {x : Iss} (hc : CanIssue (.tldt f) f true s x) (hact : s.actives x f ≠ [])
    (hfree : matrixFree (fun f => [(.tile (slotNum f f.d), true)]) s f x) (hquiet : s.noneInFlight x)
    (hbase : tileBase Form.a Sig.a .tldt s f x % 64 = 0) (hrow : tileBase Form.b Sig.b .tldt s f x % 2 ^ 32 % 64 = 0)
    (hpass : firstBad ((tldtChecks s f x).1 ++ (tldtChecks s f x).2.toList) = none) :
    exec (.tldt f) s = .next ((tldtEffect s f x).endIssue x f []) := by
  refine (matStep_acts hc hact hfree _ _).trans (congrArg Host.Outcome.next ?_)
  simp only [reads_once, drainAll_none hquiet]
  exact (if_neg (not_misaligned hbase hrow)).trans (onceChecked_passed hpass _)

/-- TSTT: the stores of the rows and the side file are in flight (R364). -/
def tsttEffect (s : State) (f : Form) (x : Iss) : State :=
  storesBy s f x ((tsttRows s f x).map fun q => (q.1.2.phys, .store q.2, 64))

theorem tstt_exec {f : Form} {s : State} {x : Iss} (hc : CanIssue (.tstt f) f true s x) (hact : s.actives x f ≠ [])
    (hfree : matrixFree (fun f => [(.tile (slotNum f f.a), false)]) s f x)
    (hbase : tileBase Form.b Sig.b .tstt s f x % 64 = 0) (hrow : tileBase Form.c Sig.c .tstt s f x % 2 ^ 32 % 64 = 0)
    (hpass : firstBad ((tsttRows s f x).map Prod.fst) = none) :
    exec (.tstt f) s = .next ((tsttEffect s f x).endIssue x f []) := by
  refine (matStep_acts hc hact hfree _ _).trans (congrArg Host.Outcome.next ?_)
  simp only [reads_once, tsttEffect, storesBy, List.foldl_map]
  exact (if_neg (not_misaligned hbase hrow)).trans (onceChecked_passed hpass _)

/-! ### Tile instructions complete (R364 to R368) -/

theorem tileMovesComplete : TileMovesComplete :=
  ⟨onceCompletes_of_exec fun _ _ _ hc hact hfree => tmov_exec hc hact hfree,
    onceCompletes_of_exec fun _ _ _ hc hact ⟨hfree, hlegal⟩ => tscl_exec hc hact hfree hlegal⟩

theorem tileConversionComplete : TileConversionComplete :=
  onceCompletes_of_exec fun _ _ _ hc hact ⟨hfree, hscale, htrap⟩ => tcvt_exec hc hact hfree hscale htrap

theorem tileMemoryComplete : TileMemoryComplete :=
  ⟨onceCompletes_of_exec fun _ _ _ hc hact ⟨hfree, hquiet, hbase, hrow, hpass⟩ => tldt_exec hc hact hfree hquiet hbase hrow hpass,
    onceCompletes_of_exec fun _ _ _ hc hact ⟨hfree, hbase, hrow, hpass⟩ => tstt_exec hc hact hfree hbase hrow hpass⟩

/-- Settles O22: each of the five ends its issue from the state of its effect, once no round holds it up and its checks pass. -/
theorem tiles : Obligations.Tiles := ⟨tileMovesComplete, tileConversionComplete, tileMemoryComplete⟩

end Sys2Proof.Machine
end

section
/-! SUPPORT. Accumulators: one cleared, a row of one written and read by the lanes of an issue, and the rows of one stored or added to
memory (R370 to R372). -/

namespace Sys2Proof.Machine

/-! ### ACZ and ACWR (R370, R371) -/

/-- ACZ: the accumulator lists no element (R370). -/
def aczEffect (s : State) (f : Form) (x : Iss) : State :=
  s.updPane x.wg x.pane fun p => { p with accs := setNth p.accs (slotNum f f.d) [] }

theorem acz_exec {f : Form} {s : State} {x : Iss} (hc : CanIssue (.acz f) f true s x) (hact : s.actives x f ≠ [])
    (hfree : matrixFree (fun f => [(.acc (slotNum f f.d), true)]) s f x) :
    exec (.acz f) s = .next ((aczEffect s f x).endIssue x f []) :=
  matStep_acts hc hact hfree _ _

/-- An issue in which no lane has a fault ends from the state that it then has. -/
theorem endIssue_faultless {s t : State} {x : Iss} {f : Form} {faults : List LaneFault} (h : faults = []) :
    (if faults = [] then t else s).endIssue x f faults = t.endIssue x f [] := by
  rw [if_pos h, h]

theorem acwr_exec {f : Form} {s : State} {x : Iss} (hc : CanIssue (.acwr f) f true s x) (hact : s.actives x f ≠ [])
    (hfree : matrixFree (fun f => [(.acc (slotNum f f.d), true)]) s f x)
    (hrow : accRowOf (s.env x) x f (sigOf (.acwr f) f) (s.actives x f) < 64)
    (hword : ∀ a ∈ s.actives x f, ((s.env x).slot f x.wbase a.m.pos f.a (sigOf (.acwr f) f).a).isSome) :
    exec (.acwr f) s = .next ((acwrEffect s f x).endIssue x f []) := by
  refine (matStep_acts hc hact hfree _ _).trans (congrArg Host.Outcome.next ?_)
  simp only [accRowOf, reads_once, State.reads_slot]
  refine (if_neg (not_lt.mpr (Nat.le_of_lt_succ hrow))).trans ((endIssue_faultless ?_).trans ?_)
  · refine List.filterMap_eq_nil_iff.mpr fun v hv => ?_
    obtain ⟨a, ha, rfl⟩ := List.mem_map.mp hv
    obtain ⟨w, hw⟩ := Option.isSome_iff_exists.mp (hword a ha)
    simp only [hw]
  · simp only [List.foldl_map]
    rfl

/-! ### ACRD (R371) -/

/-- A table that keeps the entries of an index reads the same there. -/
theorem Cells.read_filter {w i : Nat} (c : Cells w) {p : Nat × BitVec w → Bool} (h : ∀ v, p (i, v) = true) :
    Cells.read (c.filter p) i = Cells.read c i := by
  induction c with
  | nil => rfl
  | cons e rest ih =>
    obtain ⟨k, v⟩ := e
    rw [List.filter_cons]
    split
    · simp only [Cells.read, ih]
    next hp =>
      rw [Cells.read, if_neg, ih]
      rintro rfl
      exact hp (h v)

theorem accRow_getD (c : Cells 32) {row pos : Nat} (h : pos < 32) :
    (accRow c row).getD pos 0 = (Cells.read c (32 * row + pos)).toNat := by
  have hin : (32 * row + pos) / 32 = row := by omega
  have hread : Cells.read (c.filter fun e => e.1 / 32 = row) (32 * row + pos) = Cells.read c (32 * row + pos) :=
    Cells.read_filter c fun _ => decide_eq_true hin
  simp [accRow, List.getD_eq_getElem?_getD, h, hread]

theorem valWords_dwordOf (n : Nat) : valWords 1 (dwordOf n) = [wordOf n] := by
  have h : (dwordOf n).extractLsb' 0 32 = wordOf n := by
    apply BitVec.eq_of_toNat_eq
    simp only [dwordOf, wordOf, BitVec.extractLsb'_toNat, BitVec.toNat_ofNat, Nat.shiftRight_zero]
    omega
  rw [valWords, if_neg (by decide), h]

/-- The row of the accumulator that ACRD names. -/
def acrdRow (s : State) (f : Form) (x : Iss) : Nat :=
  accRowOf (s.reads x f (sigOf (.acrd f) f)) x f (sigOf (.acrd f) f) (s.actives x f)

/-- What ACRD reads out of that row for an active lane (R371). -/
def acrdOut (s : State) (f : Form) (x : Iss) (a : Act) : FRes :=
  let ts : Word := if f.c.cls = .none then 0x3F800000
    else (((s.reads x f (sigOf (.acrd f) f)).once x f (s.actives x f) f.c (sigOf (.acrd f) f).c).getD 0).extractLsb' 0 32
  readout f.sat ts ((accRow ((s.pane x.wg x.pane).acc (slotNum f f.a)) (acrdRow s f x)).getD a.m.pos 0)

theorem acrdValue_eq {f : Form} {s : State} {x : Iss} {a : Act} (hpos : a.m.pos < 32) (hrow : ¬63 < acrdRow s f x) :
    acrdValue s f x (s.reads x f (sigOf (.acrd f) f)) (sigOf (.acrd f) f) (s.actives x f) a
      = some ⟨dwordOf (acrdOut s f x a).bits, (acrdOut s f x a).flags⟩ := by
  rw [acrdRow] at hrow
  simp only [acrdValue, acrdOut, acrdRow, hrow, if_false, accRow_getD _ hpos]

theorem acrd_width (f : Form) : (sigOf (.acrd f) f).d.width f.ty = 1 := rfl

theorem acrd_laneResults {f : Form} {s : State} {x : Iss} (hpos : ∀ m ∈ x.members, m.pos < 32) (hrow : ¬63 < acrdRow s f x) :
    s.laneResults x f (sigOf (.acrd f) f) acrdValue
      = (s.actives x f).map fun a => ⟨a, [wordOf (acrdOut s f x a).bits], (acrdOut s f x a).flags⟩ := by
  rw [State.laneResults, ← List.filterMap_eq_map]
  refine List.filterMap_congr fun a ha => ?_
  rw [acrdValue_eq (hpos a.m (mem_actives ha).1) hrow, Option.map_some, acrd_width, valWords_dwordOf]
  rfl

/-- Active lanes that have a value name a row of the accumulator (R371). -/
theorem acrd_row_legal {f : Form} {s : State} {x : Iss} (hact : s.actives x f ≠ [])
    (ha : s.laneValues x f (sigOf (.acrd f) f) acrdValue) : ¬63 < acrdRow s f x := by
  rw [acrdRow]
  intro hrow
  obtain ⟨a, hmem⟩ := List.exists_mem_of_ne_nil _ hact
  have hvalue := ha a hmem
  rw [acrdValue, if_pos hrow] at hvalue
  cases hvalue

theorem acrd_exec {f : Form} {s : State} {x : Iss} (hc : CanIssue (.acrd f) f true s x) (ok : IssueOk s x)
    (hfree : matrixFree (fun f => [(.acc (slotNum f f.a), false)]) s f x) (ha : s.laneValues x f (sigOf (.acrd f) f) acrdValue) :
    exec (.acrd f) s = .next (s.commit x f (sigOf (.acrd f) f) (s.actives x f) (s.laneResults x f (sigOf (.acrd f) f) acrdValue) []) := by
  by_cases hact : s.actives x f = []
  · refine (matStep_idle hc hact hfree _ _).trans ?_
    rw [State.laneResults, hact]
    rfl
  · have hrow := acrd_row_legal hact ha
    rw [acrd_laneResults ok.pos hrow]
    exact (matStep_acts hc hact hfree _ _).trans (congrArg Host.Outcome.next (if_neg hrow))

theorem acrd_completes : VectorCompletesIf (fun s f x => matrixFree (fun f => [(.acc (slotNum f f.a), false)]) s f x) (fun _ _ t => t)
    .acrd true acrdValue := by
  intro f s x hc ok hfree hd ha ht hdst
  have hwidth : (sigOf (.acrd f) f).d.width f.ty ≤ 2 := by rw [acrd_width]; decide
  exact ⟨_, acrd_exec hc ok hfree ha, State.commit_vector hc ok hd (laneResults_ok ha hwidth) ht hdst (hwidth.trans (by decide))⟩

/-! ### ACST (R372) -/

theorem actives_addAllFlags (s : State) (rs : List LaneRes) (x : Iss) (f : Form) : (s.addAllFlags rs).actives x f = s.actives x f := by
  obtain ⟨-, hlanes, -⟩ := State.addAllFlags_spec x s rs
  exact actives_of_lanes hlanes x f

theorem zipIdx_map_range {α : Type} (n : Nat) (k : Nat → α) :
    ((List.range n).map k).zipIdx = (List.range n).map fun m => (k m, m) :=
  List.ext_getElem (by simp) fun i _ _ => by simp

/-- Stores that stand in rows are entered row by row. -/
theorem storesBy_rows {α β : Type} (s : State) (f : Form) (x : Iss) (rows : List α) (cells : α → List β)
    (w : α → β → Nat × AccessKind × Nat) :
    storesBy s f x (rows.flatMap fun r => (cells r).map (w r)) =
      if (s.actives x f).all (fun a => a.lane.helper) then s
      else match s.actives x f with
      | [] => s
      | a :: _ => rows.foldl (fun s r =>
          (cells r).foldl (fun s q => s.pushAccess x.ctx a.m.ref (w r q).2.1 (w r q).1 (w r q).2.2 (strong f)) s) s := by
  rw [storesBy]
  cases s.actives x f with
  | nil => rfl
  | cons a rest => simp only [List.foldl_flatMap, List.foldl_map]

/-- Each row of the accumulator, read out, with the check of its address (R372). -/
def acstChecked (s : State) (f : Form) (x : Iss) : List ((Nat × Chk) × List FRes) :=
  (acstRows s f x).zipIdx.map fun r =>
    let ea := ((joinWords (acstWords s f x)).toNat + r.2 * ((acstWords s f x).getD 2 0).toNat) % 2 ^ 64
    ((ea, s.check x.core x.ctx (if f.m2 = 0 then .w else .rw) ea 128), r.1)

theorem acstChecked_eq (s : State) (f : Form) (x : Iss) : acstChecked s f x = (acstChecks s f x).zip (acstRows s f x) := by
  rw [acstChecked, acstRows, zipIdx_map_range, List.map_map, acstChecks, List.zip_map']
  rfl

theorem acstChecked_fst (s : State) (f : Form) (x : Iss) : (acstChecked s f x).map Prod.fst = acstChecks s f x := by
  rw [acstChecked_eq, List.map_fst_zip]
  simp [acstChecks, acstRows]

/-- ACST: the flags of every element, and each element stored or added at its row and column (R60, R372). -/
def acstEffect (s : State) (f : Form) (x : Iss) : State :=
  storesBy (s.addAllFlags (acstFlags s f x)) f x
    (((acstChecks s f x).zip (acstRows s f x)).flatMap fun r => r.2.zipIdx.map fun q =>
      (r.1.2.phys + 4 * q.2, if f.m2 = 0 then .store (leBytes 4 q.1.bits) else .red .f32 0 (dwordOf q.1.bits), 4))

theorem acst_exec {f : Form} {s : State} {x : Iss} (hc : CanIssue (.acst f) f true s x) (hact : s.actives x f ≠ [])
    (hfree : matrixFree (fun f => [(.acc (slotNum f f.a), false)]) s f x)
    (hbase : (joinWords (acstWords s f x)).toNat % 128 = 0) (hrow : ((acstWords s f x).getD 2 0).toNat % 128 = 0)
    (htrap : s.fpTrap (acstFlags s f x) = none) (hpass : firstBad (acstChecks s f x) = none) :
    exec (.acst f) s = .next ((acstEffect s f x).endIssue x f []) := by
  refine (matStep_acts hc hact hfree _ _).trans (congrArg Host.Outcome.next ?_)
  simp only [reads_uwords]
  refine (if_neg (not_misaligned hbase hrow)).trans ?_
  change (match s.fpTrap (acstFlags s f x) with | some c => _ | none => _) = _
  rw [htrap]
  refine (onceChecked_passed ((acstChecked_fst s f x).symm ▸ hpass) _).trans ?_
  rw [acstEffect, ← acstChecked_eq, storesBy_rows, actives_addAllFlags]
  rfl

/-! ### Accumulator instructions complete (R370 to R372) -/

theorem accumulatorRowsComplete : AccumulatorRowsComplete :=
  ⟨onceCompletes_of_exec fun _ _ _ hc hact hfree => acz_exec hc hact hfree,
    onceCompletes_of_exec fun _ _ _ hc hact ⟨hfree, hrow, hword⟩ => acwr_exec hc hact hfree hrow hword, acrd_completes⟩

theorem accumulatorStoreComplete : AccumulatorStoreComplete :=
  onceCompletes_of_exec fun _ _ _ hc hact ⟨hfree, hbase, hrow, htrap, hpass⟩ => acst_exec hc hact hfree hbase hrow htrap hpass

/-- Settles O23: ACZ, ACWR and ACST end their issues from the states of their effects, and ACRD writes to each active lane what it
reads out of the row. -/
theorem accumulators : Obligations.Accumulators := ⟨accumulatorRowsComplete, accumulatorStoreComplete⟩

end Sys2Proof.Machine
end

section
/-! SUPPORT. The pane on which TMOV and ACZ have acted, as it stands after the end of their issue (R365, R370). -/

namespace Sys2Proof.Machine

theorem pane_updPane (s : State) (wg p : Nat) (k : PaneState → PaneState) :
    (s.updPane wg p k).pane wg p = (((s.wg? wg).bind fun g => g.panes[p]?).map k).getD ⟨[], [], [], none⟩ := by
  rw [State.pane, State.updPane, State.wg?_updWg _ _ _ _ (by intro; rfl), if_pos rfl]
  cases s.wg? wg <;> simp

/-- The end of an issue leaves the panes. -/
theorem MovesOnly.pane {x : Iss} {f : Form} {u t : State} (h : MovesOnly x f u t) (wg p : Nat) : t.pane wg p = u.pane wg p := by
  rw [State.pane, State.pane, h.rest.workgroups wg]
  cases u.wg? wg <;> rfl

/-- An element set to the value that stands for a missing one reads as that value. -/
theorem setNth_getD_default {α : Type} (l : List α) (n : Nat) (d : α) : (setNth l n d).getD n d = d := by
  rw [List.getD_eq_getElem?_getD, setNth_getElem?, if_pos rfl]
  cases l[n]? <;> rfl

theorem setNth_getD_self {α : Type} (l : List α) (n : Nat) (d : α) : setNth l n (l.getD n d) = l :=
  (mapNth_eq_setNth l n id d).symm.trans (mapNth_eq_self fun _ _ => rfl)

/-- A pane whose tile `a`, with its side file, has been copied into tile `d` (R365). -/
def PaneState.tileCopied (p : PaneState) (d a : Nat) : PaneState :=
  { p with tiles := setNth p.tiles d (p.tile a), sides := setNth p.sides d (p.side a) }

theorem PaneState.tileCopied_tile (p : PaneState) {d : Nat} (a : Nat) (h : d < p.tiles.length) : (p.tileCopied d a).tile d = p.tile a :=
  (setNth_getD p.tiles d d _ _ h).trans (if_pos rfl)

theorem PaneState.tileCopied_side (p : PaneState) {d : Nat} (a : Nat) (h : d < p.sides.length) : (p.tileCopied d a).side d = p.side a :=
  (setNth_getD p.sides d d _ _ h).trans (if_pos rfl)

theorem PaneState.tileCopied_self (p : PaneState) (d : Nat) : p.tileCopied d d = p := by
  rw [PaneState.tileCopied, PaneState.tile, PaneState.side, setNth_getD_self, setNth_getD_self]

theorem tmov_pane {f : Form} {s t : State} {x : Iss} {g : Workgroup} {p : PaneState} (h : MovesOnly x f (tmovEffect s f x) t)
    (hg : s.wg? x.wg = some g) (hp : g.panes[x.pane]? = some p) :
    t.pane x.wg x.pane = p.tileCopied (slotNum f f.d) (slotNum f f.a) := by
  rw [h.pane, tmovEffect, pane_updPane, hg, Option.bind_some, hp]
  rfl

theorem acz_acc {f : Form} {s t : State} {x : Iss} (h : MovesOnly x f (aczEffect s f x) t) :
    (t.pane x.wg x.pane).acc (slotNum f f.d) = [] := by
  rw [h.pane, aczEffect, pane_updPane]
  cases (s.wg? x.wg).bind fun g => g.panes[x.pane]? with
  | none => rfl
  | some p => exact setNth_getD_default p.accs (slotNum f f.d) []

/-- Settles O47: the end of an issue leaves the panes, so that after TMOV the pane is the one with its tile copied, and after ACZ
the accumulator lists no element. -/
theorem tileRules : Obligations.TileRules := by
  refine ⟨fun f s x g p hc hact hfree hg hp htile hside => ?_, fun f s x hc hact hfree => ?_⟩
  · have hpane := tmov_pane ((tmovEffect s f x).endIssue_plain x f).movesOnly hg hp
    refine ⟨_, tmov_exec hc hact hfree, fun r _ => ?_, fun i => ?_, fun hsame => ?_⟩
    · rw [hpane, p.tileCopied_tile _ htile]
    · rw [hpane, p.tileCopied_side _ hside]
    · rw [hpane, hsame, p.tileCopied_self]
  · refine ⟨_, acz_exec hc hact hfree, fun i => ?_⟩
    rw [acz_acc ((aczEffect s f x).endIssue_plain x f).movesOnly, Cells.read_nil]

end Sys2Proof.Machine
end
